-- ==== Sys2Proof/Word.lean ====
section
/-! DEFINITION. The native word of the device: 48 bits (spec/00_scope.md, "Words and bits"). -/
namespace Sys2Proof

/-- A register or stored word, 48 bits. -/
abbrev Word := BitVec 48

/-- An octet. -/
abbrev Byte := BitVec 8

end Sys2Proof
end

