-- ==== Sys2Proof/Syntax.lean ====
section
/-! DEFINITION. The commands of the device: one constructor for each row of the table of operations and events. Operands
are what the outside world, the analogue parts or the requesting master decide; what the device decides from its own
state is no operand. -/
namespace Sys2Proof

/-- An instant within the present tick: its place in units of 1/65536 of a Plumb cycle after the tick boundary (R16, R180). -/
abbrev Instant := BitVec 28

/-- A symbol at a timestamp point (R189, R190): its place on the grid of its port, in symbols from the tick boundary, and the reading of the
port's phase detector, clock recovery or interpolator, in 1/128 symbol, two's complement. A slice's phase word is the device's own: a line
input takes no reading. -/
structure Stamp where
  place : BitVec 21
  word : BitVec 16
  deriving DecidableEq, Repr

/-- A Scrim frame as accepted under R234 (R233): the payload's octets, and the header's fields. -/
structure SFrame where
  dst : BitVec 16
  src : BitVec 16
  typ : Byte
  hops : BitVec 4
  noack : Bool
  retx : Bool
  seq : BitVec 16
  msn : BitVec 16
  data : List Byte
  deriving DecidableEq, Repr

/-- What a Scrim link took in since the command before it: code-groups of an in-band link, or ten bits at a time of an electrical port, the first
highest; and, as `none`, the symbol periods of the link's own transmitter between them (R231, R232). -/
abbrev LinkSpan := List (Option (BitVec 10))

/-- The codes that a slice's sub-ADCs returned, in time order (R51): those of a span of whole line DSP cycles, with the 256 codes of the
four cycles ahead of it and the 128 codes of the two cycles after it, which the datapath's filters reach into; and the index of the
level decided before the first of them. -/
structure RxCodes where
  codes : List Byte
  prev : Fin 4
  deriving DecidableEq, Repr

/-- The frames of one line lane at the timestamp points over a span, in order (R189, R196): the first symbol of each frame that arrived and
that departed, with the frame's number modulo 16, and, for host lane A (`false`) and host lane B, the RS symbol of each frame's first codeword slot that arrived from the host and that
departed to it. -/
structure LatMeas where
  lineRx : List (BitVec 4 × Stamp)
  lineTx : List (BitVec 4 × Stamp)
  hostRx : List (Bool × BitVec 4 × Stamp)
  hostTx : List (Bool × BitVec 4 × Stamp)
  deriving DecidableEq, Repr

/-- What the symbol-rate datapath took in and sent since the span before it: the codes of each slice, the Float's last; the levels that each
physical host lane's receiver decided, before its polarity; the line DSP cycles of the line transmit PLLs A and B; the symbol periods
of each physical host transmitter; each line lane's timestamp points; and the symbol that carries a TRIG sent in the span on the
lowest-numbered link (R245). A span ends at the instant of the command that carries it. -/
structure Span where
  rx : List RxCodes
  host : List (List (Fin 4))
  cycles : List (BitVec 16)
  sent : List (BitVec 20)
  lats : List LatMeas
  trig : Stamp
  deriving DecidableEq, Repr

/-- What physical host lane `n`'s receiver measured over a tick: its SNR and adapted settings in units of 2^−8 (R163). -/
structure HostMeas where
  snr : Byte
  ctle : BitVec 4
  ffe : List Int
  dfe : List Int
  deriving DecidableEq, Repr

/-- A frame in the look-ahead of the time-transparent engine (R202, R204): the logical host lane that carries it, its direction; where its
first octet lies in the payload bits of its group's buffered codewords, its octets from the first after the SFD to the FCS and whether an
error or an unexpected control block lies in it, as the PCS of IEEE 802.3 decodes them; the symbol of its arrival timestamp; the
Plumb cycles, in units of 1/65536, from the engine's output to the departure that the gearbox fill and the transmit interpolators give (R207); and
the control cycles of a flush under way that have passed (R227). -/
structure TteFrame where
  host : Fin 16
  ingress : Bool
  place : BitVec 14
  data : List Byte
  pcsErr : Bool
  arrival : Stamp
  rest : BitVec 28
  flushed : BitVec 13
  deriving DecidableEq, Repr

/-- What the phases of a foreground calibration find (R315): the trim codes of each sub-ADC and first-rank circuit, the residuals that VERIFY
measures (o, g and s of each sub-ADC, then b of each first-rank circuit, at the precision of R147), and the code of its worst spur. -/
structure CalMeas where
  off : List Int
  gain : List Int
  skew : List Int
  bw : List Int
  res : List Int
  spur : BitVec 8
  deriving DecidableEq, Repr

/-- What one slice of power-up self-test found (R426): the blocks that failed, by memory code, domain, sensor, slice, lane or pair as
the slice numbers them (bit 0 for the critical slices), the block it tested last, and its time in µs; for SLICE_LOOP what the calibration of
each slice measures, and measures when tried once more (R315), for TX_LOOP the words of TX_DAC_TRIMm lane by lane and the values of
DLY_LRXk, DLY_LTXk, DLY_FLTk, DLY_HRXn, DLY_HTXn and DLY_PPS, kind by kind (R194). -/
structure SelfTest where
  fails : BitVec 57
  testing : Fin 57
  used : BitVec 20
  cals : List (CalMeas × CalMeas)
  dac : List Word
  dly : List (BitVec 24)
  deriving DecidableEq, Repr

/-- A master of the register bus other than the device itself (R443). -/
inductive Requester where
  | spi | i3c | quaran | scrim | jtag
  deriving DecidableEq, Repr

/-- A stage that has an application boundary (R20): the receive or the transmit stages of a line lane, or the Float while it serves no
lane. -/
inductive Stage where
  | rx (k : Fin 8)
  | tx (k : Fin 8)
  | float
  deriving DecidableEq, Repr

/-- What a tick boundary takes in: what the datapath took in and sent since the span before it; the interleave estimates of each slice over the
tick, the Float's last (R53); one entry for each physical host lane; the first symbol of the frame, or of the electrical port, that carries each
Scrim link's TMARK in the new tick; and the cycles of its limit that a WAITE waited. -/
structure TickMeas where
  span : Span
  icorr : List (List Int)
  hosts : List HostMeas
  tmarks : List Stamp
  waited : BitVec 16
  deriving DecidableEq, Repr

/-- The commands. -/
inductive Instr where
  /-- TICK_BOUNDARY (R16): Every 768 crystal periods a tick boundary starts the tick table: counters are captured, results frozen, tasks scheduled and TMARKs queued. -/
  | tickBoundary (m : TickMeas)
  /-- SET_APPLY (R288): At the first tick boundary after a passed check, the device applies the snapshot of the undercoat to every live register at once. -/
  | setApply
  /-- APPLICATION_BOUNDARY (R19): At its application boundary a datapath stage takes the newly applied live values, including mode, format, crossbar, DPS, squelch and throttle changes. -/
  | applicationBoundary (stage : Stage) (m : Span)
  /-- LTX_REF_MOVE (R12): A line transmit PLL moves its reference between host lanes, the system PLL or line lanes at a transmit frame boundary and counts the move. -/
  | ltxRefMove (p : Fin 2)
  /-- HUNT_MARKER_MATCH (R38): A lane in HUNT finds a candidate marker within LOCK_TOL bits of some lane's marker and enters VERIFY. -/
  | huntMarkerMatch (k : Fin 9) (marker : BitVec 64)
  /-- EXPECTED_MARKER (R38): At each expected marker position the lane counts a match or a miss, and this can advance VERIFY or end lock. -/
  | expectedMarker (k : Fin 9) (header : BitVec 128)
  /-- STANDARD_ALIGNMENT_CHANGE (R481): A Standard-format lane gains or loses inner-FEC alignment under IEEE 802.3dj and updates LOCK_STATE, its counters and its events. -/
  | standardAlignmentChange (k : Fin 9) (st : Fin 3)
  /-- FORMAT_PROBE_START (R43): After 64 marker periods in HUNT with timing locked, the device starts a format probe and sets PROBE_ACTIVE. -/
  | formatProbeStart (k : Fin 8)
  /-- FAR_FMT_FOUND (R43): A probe finds one foreign format at three consecutive positions, writes FAR_FMT and starts a new window. -/
  | farFmtFound (k : Fin 8) (code : BitVec 2)
  /-- PROBE_WINDOW_END (R43): A probe window of 64 marker periods ends without a find, writes NONE and starts a new window. -/
  | probeWindowEnd (k : Fin 8)
  /-- LINE_PAT_LOCK (R45): A line or host pattern checker enters LOCKED after 128 consecutive matching symbols. -/
  | linePatLock (host : Bool) (n : Fin 16) (m : Span)
  /-- LINE_PAT_RESYNC (R45): A checker that sees 32 wrong symbols in an aligned window of 1,024 returns to SEARCH and counts RESYNC. -/
  | linePatResync (host : Bool) (n : Fin 16) (m : Span)
  /-- SIGNAL_DETECT_CHANGE (R49): The buffer amplitude crosses the signal-detect level, and SIG_DET sets or clears, with SIG_LOST on a fall. -/
  | signalDetectChange (sl : Fin 9) (amp : BitVec 12)
  /-- MIG_CMD_NONE (R59): Applying a changed SEQ with CMD NONE takes no action. -/
  | migCmdNone
  /-- FLOAT_CAL (R59): The FLOAT_CAL command runs foreground calibration of the Float from IDLE. -/
  | floatCal
  /-- MIGRATE (R60): The MIGRATE command moves the Float's selector to lane TARGET and starts CONVERGE. -/
  | migrate
  /-- RETURN (R60): The RETURN command reconnects and seeds the own slice and enters RET_CONVERGE. -/
  | floatReturn
  /-- FLOAT_ABORT (R63): The ABORT command aborts the Float's present phase with result 0x16, or completes a swap already due. -/
  | floatAbort
  /-- OBSERVE_RX (R59): The OBSERVE_RX command makes the Float observe lane TARGET's receive signal. -/
  | observeRx
  /-- OBSERVE_TX (R59): The OBSERVE_TX command makes the Float observe lane TARGET's transmit tap. -/
  | observeTx
  /-- RETIRE (R59): The RETIRE command migrates to lane TARGET and ends in RETIRED. -/
  | retire
  /-- CONVERGE_DONE (R60): The candidate slice holds timing and frame lock and CONV_MIN ticks have passed, so the agreement step begins. -/
  | convergeDone
  /-- CONV_TIMEOUT (R63): Step 1 or 6 has lasted CONV_TIMEOUT ticks, and the migration aborts with 0x12. -/
  | convTimeout
  /-- AGREE_WINDOW_END (R61): An agreement window of 1,024 counted slots, or one ended at 64 uncorrected slots, passes or fails, and AGREE_TRIES failures abort the migration. -/
  | agreeWindowEnd
  /-- FLOAT_SWAP (R62): At the swap boundary the decoder changes its LLR source between the slices, and the phase advances. -/
  | floatSwap (m : Span)
  /-- SLICE_FAULT_DETECT (R65): A health detector trips, and the device declares a slice fault. -/
  | sliceFaultDetect (sl : Fin 9) (src : BitVec 4) (ss : Fin 64)
  /-- ABRUPT_RETURN_SWAP (R68): The own slice of the returning lane is LOCKED, and the device swaps back without an agreement window. -/
  | abruptReturnSwap (m : Span)
  /-- TAKEOVER_SWAP (R66): The Float is locked on the faulted lane, swaps in at the next boundary, enters RETIRED and retires the own slice. -/
  | takeoverSwap (m : Span)
  /-- TAKEOVER_TIMEOUT (R67): Two ticks after detection without a swap, the takeover fails with 0x21. -/
  | takeoverTimeout
  /-- NOISE_MEASURE_START (R72): An applied change of NOISE_REQ starts a noise measurement on an idle slice, or refuses it. -/
  | noiseMeasureStart (sl : Fin 9)
  /-- NOISE_DONE (R72): At the fourth tick boundary after the start, the device writes NOISE_RES and sets NOISE_DONE. -/
  | noiseDone (sl : Fin 9) (worst : Fin 64) (worstRms allRms : BitVec 12)
  /-- ADAPT_TRACK_ENTRY (R93): After ACQ_TICKS whole ticks in ACQUIRE, a slice enters TRACK. -/
  | adaptTrackEntry (sl : Fin 9)
  /-- TR_LOCK_WINDOW (R96): A window of 1,024 line DSP cycles ends, and it sets or clears TR_LOCK after enough consecutive results. -/
  | trLockWindow (m : Span)
  /-- REACQUIRE (R99): After REACQ_TICKS unlocked ticks with signal, the slice loads a snapshot or the seed, enters ACQUIRE and counts REACQ. -/
  | reacquire (sl : Fin 9)
  /-- CODEWORD_DECODE (R111): The decoder decides one codeword slot by Chase-II, marks it if needed and advances the inner-code counters. -/
  | codewordDecode (k : Fin 8) (slot : BitVec 11) (even : Bool) (rx cand : RxCodes)
  /-- OUTER_CODEWORD (R123): An outer-code monitor decodes one RS(544,514) codeword of a locked group and advances its counters. -/
  | outerCodeword (n : Fin 16) (ingress : Bool) (syms : List (BitVec 10 × BitVec 3))
  /-- OUTER_LOCK_CHANGE (R121): A monitor group gains or loses codeword lock and sets LOCK_GAINED or LOCK_LOST. -/
  | outerLockChange (n : Fin 16) (ingress lock : Bool)
  /-- MASK_SQUELCH (R136): A declared violation with MASK_ACT forces ZERO at the next transmit frame boundary. -/
  | maskSquelch (k : Fin 8)
  /-- SQUELCH_SETTLE_END (R134): Two ticks after leaving IDLE, SETTLING clears and Render codes resume at the next transmit frame boundary. -/
  | squelchSettleEnd (k : Fin 8)
  /-- TXOBS_ALIGN_SEARCH (R137): The Float's correlation search over one tick aligns the observation or searches again. -/
  | txobsAlignSearch
  /-- TXOBS_PERIOD_PUBLISH (R138): An accumulation period ends, and the sums and counts are published with PERIOD_SEQ advanced. -/
  | txobsPeriodPublish
  /-- HOST_CDR_LOCK_CHANGE (R164): A host lane's clock recovery gains or loses lock, and CDR_LOST is counted. -/
  | hostCdrLockChange (n : Fin 16) (lock : Bool)
  /-- AM_LOCK_GAINED (R168): A logical host lane finds two markers one period apart, enters LOCKED and fixes the symbol boundary. -/
  | amLockGained (n : Fin 16) (m : Span)
  /-- AM_LOCK_LOST (R168): After AM_LOL missed markers the lane returns to HUNT, sends the unlocked payload and counts the loss. -/
  | amLockLost (n : Fin 16) (m : Span)
  /-- ADJ_NONE (R183): An adjustment command NONE does nothing. -/
  | adjNone
  /-- ADJ_LOAD (R183): The LOAD command sets Plumb time to the operands at the tick boundary. -/
  | adjLoad
  /-- ADJ_STEP (R183): The STEP command adds the operands to Plumb time at the tick boundary. -/
  | adjStep
  /-- ADJ_SLEW (R183): The SLEW command starts absorbing ADJ_NS at SLEW_RATE through Q. -/
  | adjSlew
  /-- ADJ_MEASURE (R183): The MEASURE command takes ADJ_NS as a HOST source measurement. -/
  | adjMeasure
  /-- SLEW_END (R183): A slew has absorbed its offset, Q returns to 0 and the command completes. -/
  | slewEnd
  /-- PPS_IN_EDGE (R185): A PPS_IN edge is timestamped and accepted as a measurement, or rejected. -/
  | ppsInEdge (falling : Bool) (at_ : Instant)
  /-- SERVO_UPDATE (R186): At the first tick boundary after a valid measurement, the servo updates I and F or steps the time. -/
  | servoUpdate
  /-- SOURCE_LOSS (R185): No valid measurement arrives within the loss time, and the source loses qualification, which can lead to HOLDOVER. -/
  | sourceLoss (slot : Fin 4)
  /-- HOLDOVER_EXPIRED (R187): HOLDOVER has lasted HOLD_LIMIT × 65,536 ticks, and the state becomes HOLDOVER_EXPIRED. -/
  | holdoverExpired
  /-- EVT_INPUT_EDGE (R191): A selected EVT input edge is timestamped, with an optional ring record and overrun flags. -/
  | evtInputEdge (m : Fin 4) (falling : Bool) (at_ lasts : Instant)
  /-- EVT_ARM (R192): An applied change of EVTm_CFG.SEQ arms an EVT output, or sets EVT_LATE. -/
  | evtArm (m : Fin 4)
  /-- EVT_OUTPUT_PULSE (R192): Plumb time reaches a scheduled time, and the EVT pin drives its pulse. -/
  | evtOutputPulse (m : Fin 4)
  /-- PPS_OUT_PULSE (R193): Plumb time passes a whole second plus OFS, and PPS_OUT pulses unless gated. -/
  | ppsOutPulse
  /-- TTE_FRAME (R204): The engine classifies a frame in a locked group and corrects, stores or looks up its residence time, or passes it unaltered. -/
  | tteFrame (f : TteFrame)
  /-- DEPARTURE_POSTCHECK (R207): A departure timestamp is compared with its prediction, and MISPREDICT is counted and the context updated. -/
  | departurePostcheck (ingress : Bool) (host : Fin 16) (at_ : Stamp)
  /-- FLOW_SWEEP (R216): The sweeper examines 16 buckets and invalidates expired entries. -/
  | flowSweep
  /-- FLT_NOP (R227): An FLT_CMD write of 0 does nothing. -/
  | fltNop (m : Requester)
  /-- FLT_COPY (R227): FLT_CMD 1 copies the selected entry into FLT_DATA0–3. -/
  | fltCopy (m : Requester)
  /-- FLT_INVALIDATE (R227): FLT_CMD 2 invalidates the selected entry. -/
  | fltInvalidate (m : Requester)
  /-- FLT_FLUSH (R227): FLT_CMD 3 starts invalidating every entry and sets BUSY. -/
  | fltFlush (m : Requester)
  /-- FLT_FLUSH_DONE (R227): The flush has passed every bucket, and BUSY clears. -/
  | fltFlushDone
  /-- RNG_PI_WRITE (R221): A producer master writes PI, which publishes records or is refused with PI_BAD. -/
  | rngPiWrite (m : Requester) (r : Fin 8192) (w : BitVec 48)
  /-- RNG_CI_WRITE (R221): A consumer master writes CI, which frees entries or is refused with CI_BAD. -/
  | rngCiWrite (m : Requester) (r : Fin 8192) (w : BitVec 48)
  /-- RING_WINDOW_WRITE (R224): A write through the ring-store window stores a word or is a violation. -/
  | ringWindowWrite (m : Requester) (a : BitVec 18) (w : BitVec 48)
  /-- SCRIM_SYNC_GAIN (R231): A Scrim receiver gains code-group sync. -/
  | scrimSyncGain (j : Fin 10) (l : LinkSpan)
  /-- SCRIM_SYNC_LOSS (R231): A Scrim receiver loses sync on code errors or on its lane leaving LOCKED. -/
  | scrimSyncLoss (j : Fin 10) (l : LinkSpan)
  /-- EB_SLIP (R232): The elastic buffer overflows or runs empty, so a symbol is dropped or repeated and EB_SLIP is counted. -/
  | ebSlip (j : Fin 10) (l : LinkSpan)
  /-- SCRIM_BAD_FRAME (R234): A received frame is discarded for a parse, length or CRC error and NAKed where required. -/
  | scrimBadFrame (j : Fin 10) (l : LinkSpan)
  /-- SCRIM_FORWARD (R239): An accepted frame for another address is routed on, or discarded as TTL or NO_ROUTE. -/
  | scrimForward (j : Fin 10) (at_ : Instant) (l : LinkSpan)
  /-- HELLO (R238): A received HELLO updates neighbour registers and the link state. -/
  | hello (j : Fin 10) (at_ : Instant) (l : LinkSpan)
  /-- HELLO_SEND (R238): Each HELLO period an enabled synced link sends a HELLO. -/
  | helloSend (j : Fin 10)
  /-- HELLO_LOSS (R238): No HELLO arrives for HELLO_LOSS periods, and the link leaves UP. -/
  | helloLoss (j : Fin 10)
  /-- ACK (R236): A received ACK releases acknowledged frames, or is ignored as SEQ_BAD. -/
  | ack (j : Fin 10) (at_ : Instant) (l : LinkSpan)
  /-- NAK (R236): A received NAK resends frames from the named SEQ with RETX. -/
  | nak (j : Fin 10) (at_ : Instant) (l : LinkSpan)
  /-- RETX_TIMEOUT (R236): The oldest unacknowledged frame waits RTX_TICKS and is resent, and after RTX_MAX timeouts the link leaves UP. -/
  | retxTimeout (j : Fin 10)
  /-- TMARK_RX (R243): A received TMARK is timestamped at arrival. -/
  | tmarkRx (j : Fin 10) (symbol : Fin 6) (at_ : Stamp) (l : LinkSpan)
  /-- TIME_FRAME (R244): A received TIME frame yields theta and d_in, which are published and used as a source measurement. -/
  | timeFrame (j : Fin 10) (at_ : Instant) (l : LinkSpan)
  /-- REG_RD (R242): A REG_RD message reads N words as master SCRIM and answers with REG_RSP. -/
  | regRd (j : Fin 10) (at_ : Instant) (l : LinkSpan)
  /-- REG_WR (R242): A REG_WR message writes N words as master SCRIM and answers with REG_RSP. -/
  | regWr (j : Fin 10) (at_ : Instant) (l : LinkSpan)
  /-- REG_RSP (R242): A REG_RSP completes a proxy request and writes PROXY_STAT and PROXY_DATA. -/
  | regRsp (j : Fin 10) (at_ : Instant) (l : LinkSpan)
  /-- PROXY_GO (R242): A write of GO sends one REG_RD or REG_WR to PROXY_CTL.DST and sets BUSY. -/
  | proxyGo (m : Requester) (w : BitVec 48)
  /-- PROXY_TIMEOUT (R242): No REG_RSP arrives within 1,024 ticks, and the proxy ends with TIMEOUT. -/
  | proxyTimeout
  /-- TRIG_RX (R245): A received TRIG is presented to capture at the compensated instant. -/
  | trigRx (j : Fin 10) (symbol : Fin 6) (at_ : Stamp) (l : LinkSpan)
  /-- TRIG_AT (R245): A TRIG_AT message delivers a trigger time to the capture engine. -/
  | trigAt (j : Fin 10) (at_ : Instant) (l : LinkSpan)
  /-- BOOT_REQ (R249): A received BOOT_REQ is delivered to the FABRIC_RX ring for the serving peer. -/
  | bootReq (j : Fin 10) (at_ : Instant) (l : LinkSpan)
  /-- BOOT_REQ_SEND (R249): A booting device sends BOOT_REQ on each UP link every 16 ticks. -/
  | bootReqSend
  /-- BOOT_DATA (R249): A BOOT_DATA at the expected offset is taken into the image, and others are discarded. -/
  | bootData (j : Fin 10) (at_ : Instant) (l : LinkSpan)
  /-- BOOT_END (R249): A BOOT_END with a matching length starts image verification. -/
  | bootEnd (j : Fin 10) (at_ : Instant) (l : LinkSpan)
  /-- LOOP_CMD (R248): A LOOP_CMD requests a far-end loop and is delivered to the FABRIC_RX ring. -/
  | loopCmd (j : Fin 10) (at_ : Instant) (l : LinkSpan)
  /-- LOOP_RSP (R248): A LOOP_RSP answers a loop request and is delivered to the FABRIC_RX ring. -/
  | loopRsp (j : Fin 10) (at_ : Instant) (l : LinkSpan)
  /-- USER_MESSAGE (R241): A USER message is entered into the FABRIC_RX ring and acknowledged. -/
  | userMessage (j : Fin 10) (at_ : Instant) (l : LinkSpan)
  /-- FABRIC_TX_SEND (R241): A record in the FABRIC_TX ring is sent as a message, or rejected into TX_BAD_CNT. -/
  | fabricTxSend (at_ : Instant)
  /-- LOOP_SLIP (R248): A loop FIFO nears its limit and drops or repeats data, counting LOOP_SLIP_CNT. -/
  | loopSlip
  /-- NOP (R256): No operation. -/
  | nop
  /-- ADD (R256): Wrapping add of two words. -/
  | add (rd ra rb : Fin 32)
  /-- ADDS (R258): Saturating add of two words. -/
  | adds (rd ra rb : Fin 32)
  /-- SUB (R256): Wrapping subtract. -/
  | sub (rd ra rb : Fin 32)
  /-- SUBS (R258): Saturating subtract. -/
  | subs (rd ra rb : Fin 32)
  /-- AND (R256): Bitwise and. -/
  | opAnd (rd ra rb : Fin 32)
  /-- OR (R256): Bitwise or. -/
  | opOr (rd ra rb : Fin 32)
  /-- XOR (R256): Bitwise exclusive or. -/
  | opXor (rd ra rb : Fin 32)
  /-- SHL (R256): Shift left. -/
  | shl (rd ra rb : Fin 32)
  /-- SHR (R256): Logical shift right. -/
  | shr (rd ra rb : Fin 32)
  /-- SRA (R256): Arithmetic shift right. -/
  | sra (rd ra rb : Fin 32)
  /-- MIN (R256): Signed minimum. -/
  | opMin (rd ra rb : Fin 32)
  /-- MAX (R256): Signed maximum. -/
  | opMax (rd ra rb : Fin 32)
  /-- MINU (R256): Unsigned minimum. -/
  | minu (rd ra rb : Fin 32)
  /-- MAXU (R256): Unsigned maximum. -/
  | maxu (rd ra rb : Fin 32)
  /-- ADDI (R256): Wrapping add with an immediate. -/
  | addi (rd ra : Fin 32) (imm : BitVec 30)
  /-- ADDSI (R256): Saturating add with an immediate. -/
  | addsi (rd ra : Fin 32) (imm : BitVec 30)
  /-- SUBI (R256): Wrapping subtract of an immediate. -/
  | subi (rd ra : Fin 32) (imm : BitVec 30)
  /-- SUBSI (R256): Saturating subtract of an immediate. -/
  | subsi (rd ra : Fin 32) (imm : BitVec 30)
  /-- ANDI (R256): And with an immediate. -/
  | andi (rd ra : Fin 32) (imm : BitVec 30)
  /-- ORI (R256): Or with an immediate. -/
  | ori (rd ra : Fin 32) (imm : BitVec 30)
  /-- XORI (R256): Exclusive or with an immediate. -/
  | xori (rd ra : Fin 32) (imm : BitVec 30)
  /-- SHLI (R256): Shift left by an immediate. -/
  | shli (rd ra : Fin 32) (imm : BitVec 30)
  /-- SHRI (R256): Logical shift right by an immediate. -/
  | shri (rd ra : Fin 32) (imm : BitVec 30)
  /-- SRAI (R256): Arithmetic shift right by an immediate. -/
  | srai (rd ra : Fin 32) (imm : BitVec 30)
  /-- MINI (R256): Signed minimum with an immediate. -/
  | mini (rd ra : Fin 32) (imm : BitVec 30)
  /-- MAXI (R256): Signed maximum with an immediate. -/
  | maxi (rd ra : Fin 32) (imm : BitVec 30)
  /-- MINUI (R256): Unsigned minimum with an immediate. -/
  | minui (rd ra : Fin 32) (imm : BitVec 30)
  /-- MAXUI (R256): Unsigned maximum with an immediate. -/
  | maxui (rd ra : Fin 32) (imm : BitVec 30)
  /-- MOVLO (R256): Loads a zero-extended 24-bit immediate. -/
  | movlo (rd : Fin 32) (imm : BitVec 24)
  /-- MOVHI (R256): Loads the upper 24 bits of a word. -/
  | movhi (rd : Fin 32) (imm : BitVec 24)
  /-- GETF (R256): Reads the flags into a word. -/
  | getf (rd : Fin 32)
  /-- PUTF (R256): Writes the flags from a word. -/
  | putf (ra : Fin 32)
  /-- CLRS (R253): Clears the sticky S flag. -/
  | clrs
  /-- MUL (R258): Exact product into an accumulator. -/
  | mul (ra rb : Fin 32) (u : Bool) (ac : Fin 2)
  /-- MAC (R258): Wrapping multiply-accumulate. -/
  | mac (ra rb : Fin 32) (u : Bool) (ac : Fin 2)
  /-- MACS (R258): Saturating multiply-accumulate. -/
  | macs (ra rb : Fin 32) (u : Bool) (ac : Fin 2)
  /-- MSU (R258): Wrapping multiply-subtract. -/
  | msu (ra rb : Fin 32) (u : Bool) (ac : Fin 2)
  /-- MSUS (R258): Saturating multiply-subtract. -/
  | msus (ra rb : Fin 32) (u : Bool) (ac : Fin 2)
  /-- ASR (R256): Rounded arithmetic shift right of an accumulator. -/
  | asr (ac : Fin 2) (sh : BitVec 7)
  /-- ASL (R256): Wrapping shift left of an accumulator. -/
  | asl (ac : Fin 2) (sh : BitVec 7)
  /-- ROUND (R259): Narrows an accumulator to a word with rounding and saturation. -/
  | round (rd : Fin 32) (ac : Fin 2) (width : BitVec 6) (sh : BitVec 7)
  /-- NORM (R259): Counts the redundant sign bits of an accumulator. -/
  | norm (rd : Fin 32) (ac : Fin 2)
  /-- ACCGET (R256): Reads one part of an accumulator. -/
  | accget (rd : Fin 32) (ac : Fin 2) (sh : BitVec 7)
  /-- ACCPUT (R256): Writes one part of an accumulator. -/
  | accput (ra : Fin 32) (ac : Fin 2) (sh : BitVec 7)
  /-- LD (R260): Loads a DMEM word. -/
  | ld (rd ra : Fin 32) (imm : BitVec 30)
  /-- ST (R260): Stores a DMEM word. -/
  | st (rd ra : Fin 32) (imm : BitVec 30)
  /-- INP (R261): Reads a register as master QUARAN. -/
  | inp (rd ra : Fin 32) (a24 : BitVec 24) (at_ : Instant) (wait : Fin 13)
  /-- OUTP (R261): Writes a register as master QUARAN. -/
  | outp (rs ra : Fin 32) (a24 : BitVec 24) (wait : Fin 13) (held : BitVec 10)
  /-- STG (R263): Writes the undercoat of a staged register. -/
  | stg (rs ra : Fin 32) (a24 : BitVec 24) (wait : Fin 13) (held : BitVec 10)
  /-- SET (R264): Requests a consistency check of the whole undercoat. -/
  | opSet (rd : Fin 32)
  /-- BR (R257): Conditional branch. -/
  | br (cond : Fin 32) (target : BitVec 15)
  /-- JR (R256): Jump to the address in a register. -/
  | jr (ra : Fin 32)
  /-- CALL (R256): Pushes the return address and jumps. -/
  | call (target : BitVec 15)
  /-- RET (R256): Returns to the popped address. -/
  | ret
  /-- TICK (R254): Ends the run, stores the resume address and discards held ring entries. -/
  | opTick (target : BitVec 15)
  /-- WAITE (R265): Starts waiting for masked events or a cycle limit. -/
  | waite (rd ra : Fin 32) (limit : BitVec 16)
  /-- WAITE_END (R265): A masked event arrives or the limit passes, and WAITE returns and clears the events it saw. -/
  | waiteEnd (cycles : BitVec 16)
  /-- BRK (R256): Halts the sequencer if BRK_EN is 1, or else raises exception BRK. -/
  | opBrk
  /-- PUSH (R266): Writes one ring entry, held or published. -/
  | push (rd ra : Fin 32) (h : Bool) (offset : BitVec 13) (wait : Fin 5)
  /-- POP (R266): Reads one ring entry, held or consumed. -/
  | pop (rd ra : Fin 32) (h : Bool) (offset : BitVec 13) (wait : Fin 5)
  /-- TRC (R267): Enters a trace record into the trace ring. -/
  | trc (rd : Fin 32) (at_ : Instant)
  /-- PWR (R268): Hands a power request word to the PWR block. -/
  | pwr (rd ra : Fin 32)
  /-- SET_CHECK_DONE (R288): A consistency check ends, passed or failed, and is reported in SET_STATUS with SET_DONE raised. -/
  | setCheckDone
  /-- TASK_RUN_START (R279): The scheduler starts the highest-priority pending or suspended run. -/
  | taskRunStart
  /-- WDOG_EXPIRY (R271): The watchdog COUNT reaches 0, and the sequencer core is reset. -/
  | wdogExpiry
  /-- SEQ_FAULT (R283): Three consecutive overrun ticks declare a sequencer fault, which halts or restarts the sequencer. -/
  | seqFault
  /-- WDOG_WRITE (R271): A write to SEQ_WDOG kicks or reloads the watchdog or changes its PERIOD. -/
  | wdogWrite (m : Requester) (w : BitVec 48)
  /-- HALT_REQ (R272): A write of HALT_REQ halts the sequencer at the next instruction boundary, or resumes it. -/
  | haltReq (m : Requester) (halt : Bool)
  /-- SEQ_STEP (R272): A write of STEP while HALTED executes one instruction. -/
  | seqStep (by_ : Option Requester) (at_ : Instant) (wait : Fin 13) (held : BitVec 10)
  /-- SEQ_DBG_ACCESS (R272): An access to SEQ_DBG_DATA reads or writes sequencer state, DMEM or IMEM. -/
  | seqDbgAccess (m : Requester) (data : Option (BitVec 48))
  /-- SEQ_DOORBELL (R265): A write of 1 to a doorbell bit sets event DB0–DB15. -/
  | seqDoorbell (m : Requester) (db : BitVec 16)
  /-- PMC_CNT_WRITE (R274): A write to PMC_CNTi sets the count. -/
  | pmcCntWrite (m : Requester) (n : Fin 64) (w : BitVec 48)
  /-- CLR_ALL (R277): A write of 1 to PMC_CTL.CLR_ALL zeroes every counter. -/
  | clrAll (m : Requester)
  /-- SEQ_TASK_WRITE (R280): A write to SEQ_TASKs enables or disables a slot and sets its resume address. -/
  | seqTaskWrite (m : Requester) (slot : Fin 32) (w : BitVec 48)
  /-- SET_CMD_GO (R287): A write of GO requests a consistency check. -/
  | setCmdGo (m : Requester)
  /-- PING (R294): The host command PING returns the image version, slot and tick count. -/
  | ping (c : Fin 8)
  /-- REG_READ (R294): The host command REG_READ reads a register as master QUARAN. -/
  | regRead (c : Fin 8) (at_ : Instant)
  /-- SET_COMMAND (R294): The host command SET requests a Set and completes on application or failure. -/
  | setCommand (c : Fin 8)
  /-- MODE (R294): The host command MODE carries out a journalled mode change. -/
  | modeCommand (c : Fin 8) (before : List (List (BitVec 24 × BitVec 48))) (fwd : BitVec 8)
  /-- PROFILE (R294): The host command PROFILE carries out an image-defined journalled profile. -/
  | profileCommand (c : Fin 8) (plan : List (List (BitVec 24 × BitVec 48))) (fwd : BitVec 8)
  /-- DPS (R294): The host command DPS sets the data-path state of masked lanes. -/
  | dpsCommand (c : Fin 8)
  /-- LOW_POWER (R294): The host command LOW_POWER enters or leaves the CMIS low-power state. -/
  | lowPowerCommand (c : Fin 8) (request : BitVec 48) (code : BitVec 4)
  /-- FLOAT (R294): The host command FLOAT issues a Float migration command. -/
  | floatCommand (c : Fin 8)
  /-- TIME_COMMAND (R294): The host command TIME issues a Plumb adjustment command. -/
  | timeCommand (c : Fin 8)
  /-- LOOP (R294): The host command LOOP moves a Trowel loop to a target state. -/
  | loopCommand (c : Fin 8)
  /-- CAPTURE (R294): The host command CAPTURE arms the capture engine. -/
  | captureCommand (c : Fin 8) (program : List (BitVec 24 × BitVec 48))
  /-- IMAGE_SWAP (R294): The host command IMAGE_SWAP requests a swap of image slots. -/
  | imageSwap (c : Fin 8)
  /-- IMAGE_INFO (R294): The host command IMAGE_INFO reports the version and verification of a slot. -/
  | imageInfo (c : Fin 8)
  /-- UNFREEZE (R294): The host command UNFREEZE releases a frozen master. -/
  | unfreeze (c : Fin 8)
  /-- JNL_ABORT (R294): The host command JNL_ABORT closes the journal by rollback. -/
  | jnlAbort (c : Fin 8)
  /-- UNKNOWN_OP (R294): A command with an undefined opcode is completed with UNKNOWN_OP. -/
  | unknownOp (c : Fin 8)
  /-- IMAGE_DEFINED_COMMAND (R294): A command with opcode 0x80–0xFF does what the image defines. -/
  | imageDefinedCommand (c : Fin 8) (status : BitVec 8) (res1 res2 : BitVec 48)
  /-- JNL_OPEN (R296): JNL_CTL OPEN records the journal parameters and opens the journal, or refuses it as BAD_PLAN. -/
  | jnlOpen (m : Requester) (id : BitVec 16) (fwd nsteps : BitVec 8)
  /-- JNL_STEP (R297): JNL_CTL STEP copies step DONE into the undercoat and requests a check. -/
  | jnlStep (m : Requester)
  /-- JNL_OP_ABORT (R297): JNL_CTL ABORT rolls back every applied step. -/
  | jnlOpAbort (m : Requester)
  /-- JNL_DATA_WRITE (R296): A write to JNL_DATA writes a plan word into RB3, or is discarded. -/
  | jnlDataWrite (m : Requester) (w : BitVec 48)
  /-- JNL_ROLL (R298): After release from a reset, an OPEN journal rolls forward one step per tick or rolls back, then closes. -/
  | jnlRoll
  /-- SWAP_REQ (R299): A write of SEQ_SWAP.REQ asks for an image swap, or is refused. -/
  | swapReq (m : Requester)
  /-- SWAP_EXECUTE (R299): At a tick boundary that ends no run, the device resets the core, sets slot 0 and switches image slots. -/
  | swapExecute
  /-- CONFIRM (R300): A write of CONFIRM in TRIAL confirms the new image. -/
  | confirm (m : Requester)
  /-- TRIAL_TIMEOUT (R300): The trial expires unconfirmed, and the device swaps back with REVERTED_TIMEOUT. -/
  | trialTimeout
  /-- SENSOR_PUBLISH (R304): A sensor reading is published and limits, flags, throttle level and bands are evaluated. -/
  | sensorPublish (temp diff : Int)
  /-- THROTTLE_APPLY (R308): A changed throttle level is applied at the next tick boundary, and THR_CHG is set. -/
  | throttleApply
  /-- BAND_APPLY (R311): A changed temperature band is applied at the next tick boundary, and BAND_CHG is set. -/
  | bandApply
  /-- THERMAL_SHUTDOWN (R310): A comparator at or above 125 °C for 10 µs shuts the device down. -/
  | thermalShutdown (sensor : Fin 12)
  /-- THERMAL_RESTART (R310): Every comparator below 100 °C for 1 ms restarts the device as after power-on. -/
  | thermalRestart
  /-- FCAL_START (R316): An applied change of FCAL_CTL.SEQ starts foreground calibration of an idle own slice, or refuses it. -/
  | fcalStart (sl : Fin 8)
  /-- FCAL_DONE (R315): A foreground calibration ends, keeps or restores the trims, and may store a point. -/
  | fcalDone (sl : Fin 9) (first again : CalMeas)
  /-- MON_OUTPUT (R327): A monitor channel produces an FIR output after M × K inputs, and the detectors update. -/
  | monOutput (c : Fin 4) (m : Span)
  /-- MON_MIX_WRITE (R329): A write to MON_MIX sets W, taken at the next tick boundary. -/
  | monMixWrite (m : Requester) (c : Fin 4) (w : BitVec 48)
  /-- HKA_CONVERSION (R335): A housekeeping conversion of a due entry completes and is aggregated. -/
  | hkaConversion (v aref : BitVec 32)
  /-- TROWEL_UPDATE (R342): A due loop captures its input and updates or holds, then writes its DAC code. -/
  | trowelUpdate (m : Fin 16)
  /-- TRW_AUTO_RUN (R346): After LOCK_N small errors, STARTUP or RECOVERY becomes RUN. -/
  | trwAutoRun (m : Fin 16)
  /-- TRW_AUTO_RECOVERY (R346): After LOSS_N large errors, RUN becomes RECOVERY. -/
  | trwAutoRecovery (m : Fin 16)
  /-- DITHER_HALF (R344): A dither half-period begins, and the dithered code and reference change sign. -/
  | ditherHalf (m : Fin 16)
  /-- TRW_CMD_OFF (R346): A loop command moves the loop to OFF. -/
  | trwCmdOff (m : Fin 16)
  /-- TRW_CMD_STARTUP (R345): A loop command moves the loop to STARTUP. -/
  | trwCmdStartup (m : Fin 16)
  /-- TRW_CMD_RUN (R345): A loop command moves the loop to RUN. -/
  | trwCmdRun (m : Fin 16)
  /-- TRW_CMD_TEST (R345): A loop command moves the loop to TEST. -/
  | trwCmdTest (m : Fin 16)
  /-- TRW_CMD_RECOVERY (R345): A loop command moves the loop to RECOVERY with i from REC_CODE. -/
  | trwCmdRecovery (m : Fin 16)
  /-- STIP_NONE (R349): An applied Stipple SEQ with TYPE NONE ends a running stimulus. -/
  | stipNone (m : Fin 16)
  /-- STIP_SINE (R348): Starts a sine stimulus. -/
  | stipSine (m : Fin 16)
  /-- STIP_SQUARE (R348): Starts a square stimulus. -/
  | stipSquare (m : Fin 16)
  /-- STIP_PRBS (R348): Starts a PRBS15 stimulus. -/
  | stipPrbs (m : Fin 16)
  /-- STIP_SWEPT (R348): Starts a swept sine stimulus. -/
  | stipSwept (m : Fin 16)
  /-- STIP_DONE (R348): A sweep passes FTW_END and the stimulus ends. -/
  | stipDone (m : Fin 16)
  /-- CAP_NONE (R365): Capture command NONE does nothing. -/
  | capNone
  /-- CAP_ARM (R365): ARM checks the layout and enters PREFILL. -/
  | capArm
  /-- CAP_DISARM (R365): DISARM aborts any capture and returns to IDLE. -/
  | capDisarm
  /-- CAP_RELEASE (R365): RELEASE frees the oldest unreleased segment. -/
  | capRelease
  /-- CAP_FORCE (R365): FORCE raises Stencil event 57. -/
  | capForce
  /-- CAP_SCHED (R365): SCHED loads the armed schedule. -/
  | capSched
  /-- STENCIL_COUNT_LIMIT (R362): A Stencil counter reaches CNT_LIM, and the state's action is taken and it moves to NEXT. -/
  | stencilCountLimit (m : Span)
  /-- STENCIL_TIMEOUT (R362): A Stencil timer reaches TMR_LIM, and it takes TMR_ACT and moves to TMR_NEXT. -/
  | stencilTimeout (m : Span)
  /-- PREFILL_COMPLETE (R366): Every stream has written PRE words, and the engine enters READY. -/
  | prefillComplete (m : Span)
  /-- PENDING_TRIGGER_CYCLE (R366): A distributed trigger reaches its instant and becomes the trigger cycle. -/
  | pendingTriggerCycle (m : Span)
  /-- SCHEDULE_FIRE (R367): The armed schedule's time is reached, and event 41 fires. -/
  | scheduleFire (at_ : Instant)
  /-- CAPTURE_COMPLETE (R368): A capture ends, its index record is entered, and it enters IDLE or REARM. -/
  | captureComplete (m : Span)
  /-- CAPTURE_REARM (R368): At the second tick boundary after completion, or after a RELEASE, the engine enters PREFILL or FULL. -/
  | captureRearm
  /-- REFERENCE_QUALIFY (R372): A reference keeps its swing for 4,096 cycles and qualifies. -/
  | referenceQualify (r : Fin 2)
  /-- REF_LOSS (R376): A reference is lost, its PLL enters HOLD, and failover may switch SPL. -/
  | refLoss (r : Fin 4)
  /-- COAST (R376): HOLD passes 2 µs without a reference, and the PLL coasts. -/
  | coast (p : Fin 5)
  /-- PLL_LOCK (R374): A PLL reaches LOCKED from LOCKING or returns from HOLD. -/
  | pllLock (p : Fin 5)
  /-- FORCED_SW (R378): An old clock gives no edge within 64 new cycles, and the multiplexer forces the switch. -/
  | forcedSw (mux : Fin 9)
  /-- RST_NONE (R382): An RST_CMD with TYPE NONE, a reserved type or a wrong KEY does nothing. -/
  | rstNone (m : Requester) (w : BitVec 48)
  /-- WARM_RESET (R382): RST_CMD WARM resets the sequencer core and interfaces and releases frozen masters at the next tick boundary. -/
  | warmReset (m : Requester)
  /-- FULL_RESET (R382): RST_CMD FULL performs a reset that reruns self-test at the next tick boundary. -/
  | fullReset (m : Requester)
  /-- PIN_RESET (R383): RESET_N held low for 1 µs or more resets the device, and release proceeds to self-test. -/
  | pinReset (ns : BitVec 32)
  /-- POR (R381): VIN_AON rises through its reset level, and a power-on reset starts. -/
  | por
  /-- PWR_NONE (R388): A request with OP NONE does nothing. -/
  | pwrNone (m : Requester)
  /-- DOM_ON (R387): DOM_ON requests power-up of a range of domains. -/
  | domOn (m : Requester) (first count : BitVec 6)
  /-- DOM_OFF (R387): DOM_OFF requests power-down of a range of domains. -/
  | domOff (m : Requester) (first count : BitVec 6)
  /-- PWR_STATE (R392): A STATE request moves the device to RUN, IDLE, SLEEP, DEEP or OFF. -/
  | pwrState (m : Requester) (st : BitVec 3)
  /-- PWR_REQUEST_START (R390): A request starts at the next tick boundary and is checked for refusal. -/
  | pwrRequestStart
  /-- DOMAIN_SWITCH (R387): The next domain of a request switches on or off after its spacing interval. -/
  | domainSwitch
  /-- POWER_GOOD_TIMEOUT (R387): A domain misses power-good within 20 µs, and the request ends with TIMEOUT. -/
  | powerGoodTimeout
  /-- PWR_REQUEST_DONE (R387): At the tick boundary after the last switch, the request completes and PWR_DONE is raised. -/
  | pwrRequestDone
  /-- POINT_OF_NO_RETURN (R392): The state entry reaches its point of no return, and the new state takes hold. -/
  | pointOfNoReturn
  /-- WAKE (R393): A qualified wake source ends IDLE, SLEEP or DEEP, or aborts a state entry at an abort point. -/
  | wake (src : BitVec 3)
  /-- WAKE_TIMER (R393): The AON wake timer expires and wakes the device. -/
  | wakeTimer
  /-- WAKE_RETRY (R395): A wake or start-up attempt fails, and the device retries or enters WAKE-FAIL. -/
  | wakeRetry (cause : Fin 3)
  /-- BROWNOUT (R396): The AON LDO holds its limit for 10 µs in DEEP, and the device wakes with BROWNOUT. -/
  | brownout
  /-- SUP_WARN (R398): A rail crosses its warning level, and Sets, journal steps and PWR requests are withheld. -/
  | supWarn (rail : Fin 7)
  /-- SUPPLY_WARNING_CLEAR (R399): The last warning clears, and the latest passed snapshot is applied at the next tick. -/
  | supplyWarningClear (rail : Fin 7)
  /-- SUP_RESET (R398): A rail crosses its reset level, causing a POR, a PIN-type reset or an event. -/
  | supReset (rail : Fin 7)
  /-- SCRUB_VISIT (R411): The scrubber reads and corrects one page, poisoning and notifying where it cannot. -/
  | scrubVisit
  /-- TST_NONE (R417): A test operation NONE does nothing. -/
  | tstNone (m : Requester) (mem : BitVec 4)
  /-- READ_RAW (R417): Loads a stored word and its check bits without correction. -/
  | readRaw (m : Requester) (mem : BitVec 4)
  /-- WRITE_DATA (R417): Writes test data, keeping the stored check bits. -/
  | writeData (m : Requester) (mem : BitVec 4)
  /-- WRITE_CHECK (R417): Writes test check bits, keeping the stored data. -/
  | writeCheck (m : Requester) (mem : BitVec 4)
  /-- WRITE_BOTH (R417): Writes test data and check bits as given. -/
  | writeBoth (m : Requester) (mem : BitVec 4)
  /-- MEM_LOG_POP (R415): Removes the oldest error-log entry. -/
  | memLogPop (m : Requester)
  /-- MEM_LOCK (R420): Locks a register block against all writes. -/
  | memLock (m : Requester) (w : BitVec 48)
  /-- RELEASE (R422): A write to MEM_FRZ.RELEASE releases a frozen master. -/
  | release (m : Requester) (w : BitVec 48)
  /-- POWERUP_SELF_TEST (R426): After a reset that reruns self-test, the slices of power-up self-test run in order. -/
  | powerupSelfTest (slice : Fin 10) (r : SelfTest)
  /-- SELF_TEST_END (R427): Self-test ends, unusable domains are held off, and the rest is released, or the device stops on a critical failure. -/
  | selfTestEnd (us : BitVec 20)
  /-- IS_MEMORY (R429): Starts an in-service memory test of a page range. -/
  | isMemory
  /-- IS_LOGIC (R429): Starts an in-service logic test of a domain. -/
  | isLogic (idle : Bool)
  /-- IS_SLICE (R429): Starts an in-service check of a slice. -/
  | isSlice
  /-- IS_SLICE_END (R429): An in-service test slice ends and restores its target, or the test is aborted by a service request. -/
  | isSliceEnd (fail : Bool) (addr : BitVec 24) (last : Bool) (res : List Int)
  /-- LCS_MOVE (R432): A keyed LCS_CTL write requests a life-cycle move, which is checked, programmed and followed by a FULL reset. -/
  | lcsMove (m : Requester) (w : BitVec 48)
  /-- SCAN_ENABLE (R434): Enabling scan or the JTAG debug master first clears and verifies every secret. -/
  | scanEnable
  /-- BEGIN (R436): SEC_LOAD_CTL BEGIN empties a slot for loading. -/
  | loadBegin (m : Requester) (slotB : Bool)
  /-- VERIFY (R435): SEC_LOAD_CTL VERIFY starts verification of a slot. -/
  | loadVerify (m : Requester) (slotB : Bool)
  /-- SEC_LOAD_DATA_WRITE (R436): A write to SEC_LOAD_DATA stores an image word and advances the address. -/
  | secLoadDataWrite (m : Requester) (w : BitVec 48)
  /-- IMAGE_VERIFY_DONE (R435): Image verification ends with its result in SEC_IMGA or SEC_IMGB. -/
  | imageVerifyDone
  /-- BOOT (R437): After self-test the boot ROM loads slot A from the strap-selected source and starts a verified image. -/
  | boot (words : List (BitVec 48))
  /-- SCRIM_BOOT_TIMEOUT (R437): No verified image within 262,144 ticks restarts a Scrim boot, or sets BOOT_FAIL after three restarts. -/
  | scrimBootTimeout
  /-- SEC_ARB_ADV (R438): A keyed write advances the anti-rollback level. -/
  | secArbAdv (m : Requester) (w : BitVec 48)
  /-- SEC_REVOKE (R438): A keyed write revokes a key slot. -/
  | secRevoke (m : Requester) (w : BitVec 48)
  /-- GO (R440): A write of SEC_ATT_CTL.GO requests an attestation report. -/
  | attGo (m : Requester)
  /-- ATTESTATION_DONE (R440): The attestation report is ready or refused. -/
  | attestationDone
  /-- SPI_READ (R444): An SPI READ frame reads one word and answers with status and data. -/
  | spiRead (a : BitVec 24) (at_ : Instant)
  /-- SPI_WRITE (R444): An SPI WRITE frame writes one word and answers with status. -/
  | spiWrite (a : BitVec 24) (w : BitVec 48)
  /-- SPI_MALFORMED_FRAME (R448): A frame with a wrong CRC, an unknown opcode or an early CS_N rise is refused, counted or treated as a violation. -/
  | spiMalformedFrame (octets : List Byte) (at_ : Instant)
  /-- I3C_PRIVATE_WRITE (R451): An I3C or I²C private write sets the address and writes words. -/
  | i3cPrivateWrite (target : BitVec 7) (data : List Byte) (err : Bool)
  /-- I3C_PRIVATE_READ (R452): An I3C or I²C private read returns words with read-ahead. -/
  | i3cPrivateRead (target : BitVec 7) (octets : BitVec 16) (at_ : Instant)
  /-- ENTDAA (R450): Dynamic address assignment by ENTDAA. -/
  | entdaa (won : Bool) (da : BitVec 7)
  /-- SETDASA (R450): Dynamic address assignment from the static address. -/
  | setdasa (target da : BitVec 7)
  /-- SETNEWDA (R450): Assigns a new dynamic address. -/
  | setnewda (target da : BitVec 7)
  /-- RSTDAA (R450): Gives up the dynamic address. -/
  | rstdaa
  /-- ENEC (R450): Enables in-band interrupts. -/
  | enec
  /-- DISEC (R450): Disables in-band interrupts. -/
  | disec
  /-- GETPID (R450): Returns the provisioned ID. -/
  | getpid (target : BitVec 7)
  /-- GETBCR (R450): Returns the BCR. -/
  | getbcr (target : BitVec 7)
  /-- GETDCR (R450): Returns the DCR. -/
  | getdcr (target : BitVec 7)
  /-- GETSTATUS (R450): Returns the target status. -/
  | getstatus (target : BitVec 7)
  /-- IBI_REQUEST (R453): A new enabled interrupt source makes the target request an IBI, repeated after each STOP while NACKed. -/
  | ibiRequest (acked : Bool)
  /-- EXTEST (R470): The JTAG EXTEST instruction. -/
  | extest (cells : List Bool)
  /-- IDCODE (R470): The JTAG IDCODE instruction selects the 32-bit identification register. -/
  | idcode
  /-- SAMPLE_PRELOAD (R470): The JTAG SAMPLE/PRELOAD instruction. -/
  | samplePreload (cells : List Bool)
  /-- CLAMP (R470): The JTAG CLAMP instruction. -/
  | clamp
  /-- HIGHZ (R470): The JTAG HIGHZ instruction. -/
  | highz
  /-- EXTEST_PULSE (R470): The IEEE 1149.6 EXTEST_PULSE instruction. -/
  | extestPulse (cells : List Bool)
  /-- EXTEST_TRAIN (R470): The IEEE 1149.6 EXTEST_TRAIN instruction. -/
  | extestTrain (cells : List Bool)
  /-- BYPASS (R470): The JTAG BYPASS instruction, also selected by any other code. -/
  | bypass (code : Byte)
  /-- REG_ACCESS (R471): Update-DR of REG_ACCESS starts a register access as master JTAG. -/
  | regAccess (dr : BitVec 88) (at_ : Instant)
  /-- RC_READ (R8): A read of an RC counter by its block owner returns the count and clears it. -/
  | rcRead (m : Requester) (a : BitVec 24) (at_ : Instant)
  /-- SN_READ (R9): A read of the first part of an SN register captures the whole register. -/
  | snRead (m : Requester) (a : BitVec 24) (at_ : Instant)
  /-- REGISTER_WRITE (R443): A write to a register without a row of its own, live, undercoat or W1C, subject to ownership and locks. -/
  | registerWrite (m : Requester) (a : BitVec 24) (w : BitVec 48)
  /-- HOST_SIGNAL_DETECT_CHANGE (R164): A host lane's differential input crosses 60 mVppd or 40 mVppd, so HS_RX_STAT.SIG_DET sets or clears, with HS_EVT.SIG_LOST on a fall. -/
  | hostSignalDetectChange (n : Fin 16) (amp : BitVec 12)
  /-- UNDEFINED_OPCODE (R255): The sequencer issues an instruction word whose opcode is undefined, which raises exception ILLEGAL. -/
  | undefinedOpcode (w : BitVec 48)
  deriving DecidableEq, Repr

end Sys2Proof
end

