-- ==== Sys2Proof/Config.lean ====
section
/-! DEFINITION. What an implementation fixes and the specification does not state: free values and the cryptographic
functions named by the specification only by standard. None of them has a body, so no proof can lean on a value. -/
namespace Sys2Proof.Config

/-- The `n`-th value that the specification leaves open (log entry 1). The state's counter `free` supplies `n`. -/
opaque freeValue : Nat → BitVec 64

/-- SHA-384 of a string of octets (R435, R440), as a number of 384 bits. -/
opaque sha384 : List Byte → Nat

/-- SHA-256 of a string of octets (R435), as a number of 256 bits. -/
opaque sha256 : List Byte → Nat

/-- ECDSA P-384 verification of a signature (second list) over octets by a public key (R433, R435). -/
opaque ecdsaVerify : (key sig msg : List Byte) → Bool

/-- LMS verification of a signature over octets by a public key (R433, R435). -/
opaque lmsVerify : (key sig msg : List Byte) → Bool

/-- The octets of the alias ECDSA signature over report words (R440): signed by the key derived from the identity seed and the
SHA-384 of the running image. -/
opaque aliasSign : (seed image : Nat) → List Byte → List Byte

/-- The octets of the per-boot LMS signature over report words: tree of seed and epoch, leaf `q` (R440). -/
opaque lmsSign : (seed epoch leaf : Nat) → List Byte → List Byte

/-- The certificate chain's words with the certificates of the alias key and of the per-boot tree appended (R439, R440). -/
opaque aliasCerts : (base : List Word) → (seed image epoch : Nat) → List Word

/-- Verification of an RMA token over octets by the two keys whose hashes key slot 0 holds (R433). -/
opaque tokenVerify : (ecdsaHash lmsHash : Nat) → (ecdsa lms msg : List Byte) → Bool

/-- The hashes of the ROM test key (R431). -/
opaque romTestKey : Nat × Nat

/-- The calibration-store word that holds descriptor word `i` of an image slot (R405 gives no layout). -/
opaque descHome : (slot i : Nat) → Option Nat

/-- The live address whose undercoat copy a word of the coefficient store holds (R405 gives no layout). -/
opaque coefHome : Nat → Option Nat

/-- The calibration point (lane × 8 + point) that a word of the calibration store belongs to (R405 gives no layout). -/
opaque calHome : Nat → Option Nat

/-- The link whose oldest unacknowledged frame a word of the Scrim buffer belongs to (R405 gives no layout). -/
opaque scrHome : Nat → Option Nat

/-- The slice and snapshot (slice × 4 + age) that a word of the coefficient store belongs to (R405 gives no layout). -/
opaque snapHome : Nat → Option Nat

/-- The correction, in 2^−16 ns, of the path delay whose register lies at an address, at a temperature in 1/16 °C (R194): the delay's
final-test points are the part's. -/
opaque delayShift : (reg : Nat) → (temp : Int) → Int

/-- The window of the difference between a sensor's two bias-current measurements that final test fixed (R306): its lower end and its
width. -/
opaque biasLow : (sensor : Nat) → Int
opaque biasWidth : (sensor : Nat) → Nat

/-- The ends of that window. -/
def biasWindow (sensor : Nat) : Int × Int := (biasLow sensor, biasLow sensor + biasWidth sensor)

/-- The levels of a path before an MLSE run-in, whose slicer inputs are the list given (R86 does not say): the number counts them. -/
opaque runInPast : (z : List Int) → Nat → BitVec 2

/-- What final test found of a slice: the temperature of its point, in 1/16 °C, and the trims measured there (R317), of kind 0 offset, 1 gain
or 2 bandwidth; and the skew trims of a band (R313). -/
opaque finalTemp : (slice : Nat) → Int
opaque finalTrim : (slice kind i : Nat) → Int
opaque finalSkew : (slice band i : Nat) → Int

/-- The voltage of BMID in nanovolts while its buffer is off (R350 does not say). -/
opaque bmidOff : BitVec 32

/-- The PRBS15 bit that gives a Stipple stimulus its positive amplitude (R348 does not say). -/
opaque stipplePlus : Bool

/-- Symbol `n` of line or host pattern `pat` (1 PRBS13Q, 2 PRBS31Q, 3 SSPRQ), as IEEE 802.3 defines it (R44, R159): the level index of its
Gray map. Pattern 0 stands for what a lane sends that has neither a frame nor a pattern. -/
opaque patSymbol : (pat n : Nat) → Fin 4

/-- The place in a pattern of the symbol after those given, latest last, as a checker that searches takes it (R45). -/
opaque patPlace : (pat : Nat) → List Nat → Nat

/-- The alignment markers of PCS type `typ` (R121) on a lane, as IEEE 802.3 defines them (R167): their length and their period in bits, and
whether received bits, first received first, match a marker. -/
opaque amBits : (typ : Nat) → Nat
opaque amPeriod : (typ : Nat) → Nat
opaque amMatches : (typ : Nat) → List Bool → Bool

/-- The RS symbols that the egress FIFO of a host lane holds without deskew (R171: its own fixed fill). -/
opaque egressFill : Nat

/-- What a host lane's egress, or a host transmitter, sends where its FIFO holds no symbol, by the number of the symbol. -/
opaque emptySymbol : Nat → BitVec 10

/-- RS(544,514) codewords as IEEE 802.3 interleaves them over the lanes of PCS type `typ` (R121): for the `n`-th RS symbol of lane `ofs` of a
group after the first of its alignment marker, none where the symbol belongs to the marker, else the codeword's number in the period and
whether the symbol is the codeword's last on that lane. -/
opaque rsCodeword : (typ ofs n : Nat) → Option (Nat × Bool)

/-- The payload bit, of the codewords that a time-transparent engine buffers, that carries bit `i` of a frame whose first bit lies at payload bit
`place`, in PCS type `typ` as IEEE 802.3 lays it out (R202, R203). -/
opaque pcsPlace : (typ place i : Nat) → Nat

/-- The inner FEC of IEEE 802.3dj (R36, R124). A block takes `stdIn` RS symbols; it is sent as `stdOut` symbols, of which number `i` of block
`b` has the level index `stdSymbol`. -/
opaque stdIn : Nat
opaque stdOut : Nat
opaque stdSymbol : (block : List Nat) → (b i : Nat) → Fin 4

/-- The codewords of that standard: the positions that the hard decoder of a word of class correctable flips, none where it finds the word
uncorrectable; and the RS symbols that the payload of codeword `slot` carries, once corrected. -/
opaque stdHard : List Bool → Option (List Nat)
opaque stdPayload : (slot : Nat) → List Bool → List Nat

/-- The payload that a line lane in LOOP-FAR sends in a slot for which its loop FIFO holds none (R248), by frame count and slot. -/
opaque loopEmpty : (fc slot : Nat) → BitVec 120

/-- The frames' payloads that a LOOP-FAR FIFO holds near its lower limit, and near its upper (R248 gives no size). -/
opaque loopFew : Nat
opaque loopMany : Nat

end Sys2Proof.Config
end

