-- ==== Sys2Proof/Machine/Arith.lean ====
section
/-! DEFINITION. Integer helpers shared by every chapter: bit fields of naturals, two's complement, saturation and the
rounding of R141 (to nearest, ties to even), CRCs and parity. -/
namespace Sys2Proof.Machine

/-- Bits `hi` down to `lo` of `n`. -/
def bits (n hi lo : Nat) : Nat := (n >>> lo) % 2 ^ (hi + 1 - lo)

/-- Bit `i` of `n`. -/
def bit (n i : Nat) : Bool := n.testBit i

/-- 1 for true, 0 for false. -/
def b2n (b : Bool) : Nat := if b then 1 else 0

/-- `n` with bits `hi` down to `lo` replaced by the low bits of `v`. -/
def setBits (n hi lo v : Nat) : Nat :=
  n - (bits n hi lo) * 2 ^ lo + (v % 2 ^ (hi + 1 - lo)) * 2 ^ lo

/-- The two's-complement value of the low `w` bits of `n`. -/
def sx (w n : Nat) : Int :=
  let m := n % 2 ^ w
  if m < 2 ^ (w - 1) then (m : Int) else (m : Int) - 2 ^ w

/-- The `w`-bit two's-complement code of `x`, wrapping. -/
def enc (w : Nat) (x : Int) : Nat := (x % (2 ^ w : Int)).toNat

/-- `x` limited to `lo`..`hi`. -/
def clampI (lo hi x : Int) : Int := if x < lo then lo else if hi < x then hi else x

/-- Saturation to a signed width of `w` bits. -/
def satS (w : Nat) (x : Int) : Int := clampI (-(2 ^ (w - 1))) (2 ^ (w - 1) - 1) x

/-- Saturation to an unsigned width of `w` bits. -/
def satU (w : Nat) (x : Int) : Int := clampI 0 (2 ^ w - 1) x

/-- R141: `x / d` to the nearest integer, a tie to the even one (`d > 0`). -/
def rhe (x : Int) (d : Nat) : Int :=
  let q := x / (d : Int)
  let r := x % (d : Int)
  if 2 * r < d then q else if (d : Int) < 2 * r then q + 1 else if q % 2 = 0 then q else q + 1

/-- `x / 2^n` rounded under R141. -/
def rshr (x : Int) (n : Nat) : Int := rhe x (2 ^ n)

/-- Number of 1 bits among bits 0..`w`−1. -/
def popCount (w n : Nat) : Nat := ((List.range w).filter n.testBit).length

/-- Exclusive-OR of bits 0..`w`−1. -/
def parity (w n : Nat) : Bool := popCount w n % 2 == 1

/-- The bits `w`−1 down to 0 of `n`, most significant first. -/
def msbBits (w n : Nat) : List Bool := (List.range w).map fun i => n.testBit (w - 1 - i)

/-- The bits 0 up to `w`−1 of `n`, least significant first. -/
def lsbBits (w n : Nat) : List Bool := (List.range w).map fun i => n.testBit i

/-- The number whose bits, most significant first, are `l`. -/
def ofMsb (l : List Bool) : Nat := l.foldl (fun a b => 2 * a + b2n b) 0

/-- The number whose bits, least significant first, are `l`. -/
def ofLsb : List Bool → Nat
  | [] => 0
  | b :: t => b2n b + 2 * ofLsb t

/-- One bit of an MSB-first CRC of width `w` and polynomial `p`. -/
def crcStep (w p crc : Nat) (b : Bool) : Nat :=
  let top := crc.testBit (w - 1) != b
  let sh := (crc * 2) % 2 ^ w
  if top then sh ^^^ p else sh

/-- R446: CRC-16-CCITT (0x1021, initial 0xFFFF, not reflected, not inverted) over a bit stream. -/
def crc16 (l : List Bool) : Nat := l.foldl (crcStep 16 0x1021) 0xFFFF

/-- R446 over octets, each most significant bit first. -/
def crc16Bytes (l : List Byte) : Nat := crc16 (l.flatMap fun b => msbBits 8 b.toNat)

/-- One bit of a reflected (LSB-first) CRC-32, polynomial 0x04C11DB7. -/
def crc32Step (crc : Nat) (b : Bool) : Nat :=
  let top := crc.testBit 0 != b
  let sh := crc / 2
  if top then sh ^^^ 0xEDB88320 else sh

/-- The CRC-32 of IEEE 802.3 over octets: reflected, initial and final value all ones. -/
def crc32Bytes (l : List Byte) : Nat :=
  ((l.flatMap fun b => lsbBits 8 b.toNat).foldl crc32Step 0xFFFFFFFF) ^^^ 0xFFFFFFFF

/-- The six octets of a word, most significant first. -/
def wordBytes (w : Word) : List Byte :=
  (List.range 6).map fun i => BitVec.ofNat 8 (w.toNat >>> (8 * (5 - i)))

/-- The word whose octets, most significant first, are the first six of `l`. -/
def bytesWord (l : List Byte) : Word :=
  BitVec.ofNat 48 ((l.take 6).foldl (fun a b => 256 * a + b.toNat) 0)

/-- Element `i` of a list, `d` beyond its end. -/
def nth {α : Type} (l : List α) (i : Nat) (d : α) : α := l.getD i d

/-- The list with element `i` replaced by its image under `f`; unchanged beyond its end. -/
def upd {α : Type} : List α → Nat → (α → α) → List α
  | [], _, _ => []
  | a :: t, 0, f => f a :: t
  | a :: t, i + 1, f => a :: upd t i f

/-- Insertion of a key and value into a list with strictly rising keys, replacing an equal key. -/
def kvSet {α : Type} : List (Nat × α) → Nat → α → List (Nat × α)
  | [], k, v => [(k, v)]
  | (b, w) :: t, k, v =>
    if k < b then (k, v) :: (b, w) :: t else if k = b then (k, v) :: t else (b, w) :: kvSet t k v

/-- Removal of a key from a list with strictly rising keys. -/
def kvDel {α : Type} : List (Nat × α) → Nat → List (Nat × α)
  | [], _ => []
  | (b, w) :: t, k => if k < b then (b, w) :: t else if k = b then t else (b, w) :: kvDel t k

/-- The value at a key of a list with strictly rising keys. -/
def kvGet {α : Type} : List (Nat × α) → Nat → Option α
  | [], _ => none
  | (b, w) :: t, k => if k < b then none else if k = b then some w else kvGet t k

end Sys2Proof.Machine
end

