-- ==== Sys2Proof/Machine/Inner.lean ====
section
/-! DEFINITION. The inner code and Chase-II decoding (spec/05_inner_code_and_fec_monitoring.md R106–R111). A word is the list of its bits
c0 to c127. -/
namespace Sys2Proof.Machine

/-- R106: the columns col[0] to col[126]: x^e mod x^7 + x^3 + 1. -/
def hamCols : List Nat :=
  ((List.range 127).foldl (fun (p : List Nat × Nat) _ =>
    let b := 2 * p.2
    (p.1 ++ [p.2], if 128 ≤ b then b ^^^ 0x89 else b)) ([], 1)).1

/-- R107: the syndrome of a word. -/
def hamSyndrome (w : List Bool) : Nat :=
  (hamCols.zip (w.drop 1)).foldl (fun a p => if p.2 then a ^^^ p.1 else a) 0

/-- The parity of all 128 bits (R107). -/
def bitsParity (w : List Bool) : Bool := w.foldl (fun a b => a != b) false

/-- R106: the codeword of a payload p0 to p119. -/
def innerEncode (p : List Bool) : List Bool :=
  let r := ((hamCols.drop 7).zip p).foldl (fun a q => if q.2 then a ^^^ q.1 else a) 0
  let body := lsbBits 7 r ++ p
  bitsParity body :: body

/-- R107: the position that a word's hard decision flips: none in a word of class DOUBLE, `some none` where nothing is flipped. -/
def hamClass (w : List Bool) : Option (Option Nat) :=
  let s := hamSyndrome w
  let q := bitsParity w
  if s = 0 then (if q then some (some 0) else some none)
  else if q then (hamCols.findIdx? (· = s)).map fun e => some (e + 1) else none

/-- R109: the `n` least reliable positions, least first. -/
def leastReliable (llr : List Int) (n : Nat) : List Nat :=
  ((llr.zipIdx.map fun p => (p.1.natAbs, p.2)).mergeSort (fun a b => decide (a.1 < b.1) || (decide (a.1 = b.1) && decide (a.2 ≤ b.2)))).take n
    |>.map (·.2)

/-- The word with the given positions inverted. -/
def flipAt (w : List Bool) (ps : List Nat) : List Bool := w.zipIdx.map fun p => if ps.count p.2 % 2 = 1 then !p.1 else p.1

/-- R107: the positions that a word's hard decision flips, none in a word of class DOUBLE. -/
def hamFlips (w : List Bool) : Option (List Nat) := (hamClass w).map Option.toList

/-- R110: the positions in which the candidate of a test word differs from the hard decisions, none where it yields none; `hard` decides a
word of the code. -/
def chaseCandidate (hard : List Bool → Option (List Nat)) (w : List Bool) (lrp : List Nat) (t : Nat) : Option (List Nat) :=
  let ps := (lrp.zipIdx.filter fun p => t.testBit p.2).map (·.1)
  (hard (flipAt w ps)).map fun f => f.filter (fun j => !ps.contains j) ++ ps.filter fun j => !f.contains j

/-- R110: the metric of a candidate. -/
def chaseMetric (llr : List Int) (ps : List Nat) : Nat := ps.foldl (fun a p => a + (llr.getD p 0).natAbs) 0

/-- R111: the positions that the decoder of a code changes, with `n` least reliable positions; none where the slot is decoder-uncorrected. -/
def chaseBy (hard : List Bool → Option (List Nat)) (w : List Bool) (llr : List Int) (n : Nat) : Option (List Nat) :=
  let lrp := leastReliable llr n
  ((List.range (2 ^ n)).filterMap (chaseCandidate hard w lrp)).foldl (fun (b : Option (List Nat)) c =>
    match b with
    | none => some c
    | some x => if chaseMetric llr c < chaseMetric llr x then some c else some x) none

/-- R111: the decoder of the inner code. -/
def chase (w : List Bool) (llr : List Int) (n : Nat) : Option (List Nat) := chaseBy hamFlips w llr n

end Sys2Proof.Machine
end

