-- ==== Sys2Proof/Machine/RegTypes.lean ====
section
/-! DEFINITION. The shape of a register-map entry: access codes ("Access codes" of spec/00_scope.md), fields, rows and
field references. The rows themselves are in `Sys2Proof.Machine.RegMap`. -/
namespace Sys2Proof.Machine

/-- The access codes of spec/00_scope.md. -/
inductive Acc where
  | ro | rw | st | wo | rc | sn | w1c | w1s
  deriving DecidableEq, Repr

/-- The kind of power domain that holds a register (R385, R442, R459); the lane index picks the member. -/
inductive Dom where
  | CTL | AON | LRA | LTA | LDS | LFD | HSP | PLB | TTE | FLM | RGS | SQC | TRW | HKA | MON | CAP | SCR
  deriving DecidableEq, Repr

/-- A field of a register: its bits, its reset value, its access and its reserved codes as ranges (R6). -/
structure Field where
  hi : Nat
  lo : Nat
  rst : Nat
  acc : Acc
  rsv : List (Nat × Nat)
  deriving DecidableEq, Repr

/-- A register or a family of replicated registers: first address, replication (stride and count, outermost first),
power domain, access and fields. -/
structure Row where
  base : Nat
  dims : List (Nat × Nat)
  dom : Dom
  acc : Acc
  fields : List Field
  deriving DecidableEq, Repr

/-- A reference to one field of a register family. -/
structure FRef where
  base : Nat
  strides : List Nat
  hi : Nat
  lo : Nat
  deriving DecidableEq, Repr

/-- The address of the member of a family with the given indices. -/
def addrOf : Nat → List Nat → List Nat → Nat
  | base, s :: ss, i :: is => addrOf (base + s * i) ss is
  | base, _, _ => base

/-- The live address of the register that holds the field. -/
def FRef.addr (f : FRef) (i : List Nat) : Nat := addrOf f.base f.strides i

/-- The live address of a member of the family. -/
def Row.addr (r : Row) (i : List Nat) : Nat := addrOf r.base (r.dims.map (·.1)) i

/-- The indices of the family member at offset `off`, none where no member lies there. -/
def idxOf : List (Nat × Nat) → Nat → Option (List Nat)
  | [], off => if off = 0 then some [] else none
  | (s, c) :: ds, off =>
    let i := min (off / s) (c - 1)
    (idxOf ds (off - s * i)).map (i :: ·)

/-- The indices under which the row holds address `a`. -/
def Row.find (r : Row) (a : Nat) : Option (List Nat) := if a < r.base then none else idxOf r.dims (a - r.base)

/-- The first row of the list that holds address `a`, with its indices. -/
def findIn : List Row → Nat → Option (Row × List Nat)
  | [], _ => none
  | r :: rs, a => match r.find a with
    | some i => some (r, i)
    | none => findIn rs a

/-- The reset word of a row from its fields alone. -/
def Row.rst (r : Row) : Nat := r.fields.foldl (fun n f => n + f.rst * 2 ^ f.lo) 0

/-- The bits a row's fields cover; every other bit is reserved (R5). -/
def Row.mask (r : Row) : Nat := r.fields.foldl (fun n f => n + (2 ^ (f.hi + 1 - f.lo) - 1) * 2 ^ f.lo) 0

end Sys2Proof.Machine
end

