-- ==== Sys2Proof/Machine/RegMap.lean ====
section
/-! DEFINITION. The register map of the device: one `Row` per register (replicated registers share a row), and one
`FRef` per field, transcribed from the register tables of the chapters (the index of them is R459 and the register index of
spec/22_management_access_and_register_map.md). -/

namespace Sys2Proof.Machine.Reg

def PART_ID : Row := ⟨0x000000, [], .CTL, .ro, [⟨47, 32, 0, .ro, []⟩, ⟨15, 8, 0, .ro, []⟩, ⟨7, 0, 0, .ro, []⟩]⟩
def PART_ID.DEVICE : FRef := ⟨0x000000, [], 47, 32⟩
def PART_ID.STEP : FRef := ⟨0x000000, [], 15, 8⟩
def PART_ID.VARIANT : FRef := ⟨0x000000, [], 7, 0⟩
def MODE : Row := ⟨0x000001, [], .CTL, .st, [⟨3, 0, 0, .st, [(14, 15)]⟩]⟩
def MODE.CODE : FRef := ⟨0x000001, [], 3, 0⟩
def SET_CMD : Row := ⟨0x000002, [], .CTL, .wo, [⟨0, 0, 0, .wo, []⟩]⟩
def SET_CMD.GO : FRef := ⟨0x000002, [], 0, 0⟩
def SET_STATUS : Row := ⟨0x000003, [], .CTL, .ro, [⟨47, 38, 0, .ro, []⟩, ⟨37, 35, 0, .ro, []⟩, ⟨34, 32, 0, .ro, []⟩, ⟨31, 24, 0, .ro, []⟩, ⟨23, 0, 0, .ro, []⟩]⟩
def SET_STATUS.CHECK : FRef := ⟨0x000003, [], 47, 38⟩
def SET_STATUS.MASTER : FRef := ⟨0x000003, [], 37, 35⟩
def SET_STATUS.STATE : FRef := ⟨0x000003, [], 34, 32⟩
def SET_STATUS.REASON : FRef := ⟨0x000003, [], 31, 24⟩
def SET_STATUS.ADDR : FRef := ⟨0x000003, [], 23, 0⟩
def SET_APPLIED : Row := ⟨0x000004, [], .CTL, .ro, [⟨47, 32, 0, .ro, []⟩, ⟨31, 0, 0, .ro, []⟩]⟩
def SET_APPLIED.CHECK : FRef := ⟨0x000004, [], 47, 32⟩
def SET_APPLIED.TICK : FRef := ⟨0x000004, [], 31, 0⟩
def INT_STAT : Row := ⟨0x000008, [], .CTL, .ro, [⟨3, 3, 0, .ro, []⟩, ⟨2, 2, 0, .ro, []⟩, ⟨1, 1, 0, .ro, []⟩, ⟨0, 0, 0, .ro, []⟩]⟩
def INT_STAT.BOOT : FRef := ⟨0x000008, [], 3, 3⟩
def INT_STAT.FAULT : FRef := ⟨0x000008, [], 2, 2⟩
def INT_STAT.MEM : FRef := ⟨0x000008, [], 1, 1⟩
def INT_STAT.RING : FRef := ⟨0x000008, [], 0, 0⟩
def INT_EN : Row := ⟨0x000009, [], .CTL, .rw, [⟨3, 3, 1, .rw, []⟩, ⟨2, 2, 1, .rw, []⟩, ⟨1, 1, 1, .rw, []⟩, ⟨0, 0, 1, .rw, []⟩]⟩
def INT_EN.BOOT : FRef := ⟨0x000009, [], 3, 3⟩
def INT_EN.FAULT : FRef := ⟨0x000009, [], 2, 2⟩
def INT_EN.MEM : FRef := ⟨0x000009, [], 1, 1⟩
def INT_EN.RING : FRef := ⟨0x000009, [], 0, 0⟩
def FAULT_STAT : Row := ⟨0x00000A, [], .CTL, .ro, [⟨6, 6, 0, .ro, []⟩, ⟨5, 5, 0, .ro, []⟩, ⟨4, 4, 0, .ro, []⟩, ⟨3, 3, 0, .ro, []⟩, ⟨2, 2, 0, .ro, []⟩, ⟨1, 1, 0, .ro, []⟩, ⟨0, 0, 1, .ro, []⟩]⟩
def FAULT_STAT.COAST : FRef := ⟨0x00000A, [], 6, 6⟩
def FAULT_STAT.UE : FRef := ⟨0x00000A, [], 5, 5⟩
def FAULT_STAT.TAKEOVER_FAIL : FRef := ⟨0x00000A, [], 4, 4⟩
def FAULT_STAT.SEQ_FAULT : FRef := ⟨0x00000A, [], 3, 3⟩
def FAULT_STAT.THERMAL : FRef := ⟨0x00000A, [], 2, 2⟩
def FAULT_STAT.CRITICAL : FRef := ⟨0x00000A, [], 1, 1⟩
def FAULT_STAT.SELFTEST : FRef := ⟨0x00000A, [], 0, 0⟩
def FAULT_EN : Row := ⟨0x00000B, [], .CTL, .rw, [⟨6, 6, 0, .rw, []⟩, ⟨5, 5, 0, .rw, []⟩, ⟨4, 4, 0, .rw, []⟩, ⟨3, 3, 0, .rw, []⟩]⟩
def FAULT_EN.COAST : FRef := ⟨0x00000B, [], 6, 6⟩
def FAULT_EN.UE : FRef := ⟨0x00000B, [], 5, 5⟩
def FAULT_EN.TAKEOVER_FAIL : FRef := ⟨0x00000B, [], 4, 4⟩
def FAULT_EN.SEQ_FAULT : FRef := ⟨0x00000B, [], 3, 3⟩
def STRAP : Row := ⟨0x00000C, [], .CTL, .ro, [⟨4, 3, 0, .ro, []⟩, ⟨2, 1, 0, .ro, []⟩, ⟨0, 0, 0, .ro, []⟩]⟩
def STRAP.BOOTSRC : FRef := ⟨0x00000C, [], 4, 3⟩
def STRAP.ADDR : FRef := ⟨0x00000C, [], 2, 1⟩
def STRAP.BUSMODE : FRef := ⟨0x00000C, [], 0, 0⟩
def MGMT_STAT0 : Row := ⟨0x000010, [], .CTL, .ro, [⟨47, 40, 0, .ro, []⟩, ⟨39, 24, 0, .ro, []⟩, ⟨23, 0, 0, .ro, []⟩]⟩
def MGMT_STAT0.STATUS : FRef := ⟨0x000010, [], 47, 40⟩
def MGMT_STAT0.WORDS : FRef := ⟨0x000010, [], 39, 24⟩
def MGMT_STAT0.ADDR : FRef := ⟨0x000010, [], 23, 0⟩
def MGMT_STAT1 : Row := ⟨0x000011, [], .CTL, .ro, [⟨47, 40, 0, .ro, []⟩, ⟨39, 24, 0, .ro, []⟩, ⟨23, 0, 0, .ro, []⟩]⟩
def MGMT_STAT1.STATUS : FRef := ⟨0x000011, [], 47, 40⟩
def MGMT_STAT1.WORDS : FRef := ⟨0x000011, [], 39, 24⟩
def MGMT_STAT1.ADDR : FRef := ⟨0x000011, [], 23, 0⟩
def I3C_STAT : Row := ⟨0x000012, [], .CTL, .ro, [⟨15, 15, 0, .ro, []⟩, ⟨14, 8, 0, .ro, []⟩, ⟨7, 7, 0, .ro, []⟩, ⟨6, 0, 0x58, .ro, []⟩]⟩
def I3C_STAT.IBI_EN : FRef := ⟨0x000012, [], 15, 15⟩
def I3C_STAT.DA : FRef := ⟨0x000012, [], 14, 8⟩
def I3C_STAT.DA_VALID : FRef := ⟨0x000012, [], 7, 7⟩
def I3C_STAT.SA : FRef := ⟨0x000012, [], 6, 0⟩
def SPI_CRC_CNT : Row := ⟨0x000018, [], .CTL, .rc, [⟨47, 0, 0, .rc, []⟩]⟩
def SPI_CRC_CNT.COUNT : FRef := ⟨0x000018, [], 47, 0⟩
def SPI_ABORT_CNT : Row := ⟨0x000019, [], .CTL, .rc, [⟨47, 0, 0, .rc, []⟩]⟩
def SPI_ABORT_CNT.COUNT : FRef := ⟨0x000019, [], 47, 0⟩
def I3C_ERR_CNT : Row := ⟨0x00001A, [], .CTL, .rc, [⟨47, 0, 0, .rc, []⟩]⟩
def I3C_ERR_CNT.COUNT : FRef := ⟨0x00001A, [], 47, 0⟩
def CKG_CFG : Row := ⟨0x010000, [], .CTL, .st, [⟨4, 4, 1, .st, []⟩, ⟨3, 2, 0, .st, [(3, 3)]⟩, ⟨1, 0, 0, .st, [(3, 3)]⟩]⟩
def CKG_CFG.FAILOVER : FRef := ⟨0x010000, [], 4, 4⟩
def CKG_CFG.LTX_PLAN : FRef := ⟨0x010000, [], 3, 2⟩
def CKG_CFG.REF_SEL : FRef := ⟨0x010000, [], 1, 0⟩
def CKG_STAT : Row := ⟨0x010001, [], .AON, .ro, [⟨33, 29, 0x10, .ro, []⟩, ⟨28, 24, 0x10, .ro, []⟩, ⟨23, 20, 0, .ro, []⟩, ⟨19, 19, 0, .ro, []⟩, ⟨18, 18, 0, .ro, []⟩, ⟨17, 17, 0, .ro, []⟩, ⟨16, 16, 0, .ro, []⟩, ⟨14, 12, 0, .ro, []⟩, ⟨11, 9, 0, .ro, []⟩, ⟨8, 6, 0, .ro, []⟩, ⟨5, 3, 0, .ro, []⟩, ⟨2, 0, 0, .ro, []⟩]⟩
def CKG_STAT.LTXB_REF : FRef := ⟨0x010001, [], 33, 29⟩
def CKG_STAT.LTXA_REF : FRef := ⟨0x010001, [], 28, 24⟩
def CKG_STAT.LAST_FSW : FRef := ⟨0x010001, [], 23, 20⟩
def CKG_STAT.BUSMODE : FRef := ⟨0x010001, [], 19, 19⟩
def CKG_STAT.REF_NOW : FRef := ⟨0x010001, [], 18, 18⟩
def CKG_STAT.REFCLK_OK : FRef := ⟨0x010001, [], 17, 17⟩
def CKG_STAT.XTAL_OK : FRef := ⟨0x010001, [], 16, 16⟩
def CKG_STAT.HPL : FRef := ⟨0x010001, [], 14, 12⟩
def CKG_STAT.LTXB : FRef := ⟨0x010001, [], 11, 9⟩
def CKG_STAT.LTXA : FRef := ⟨0x010001, [], 8, 6⟩
def CKG_STAT.LRX : FRef := ⟨0x010001, [], 5, 3⟩
def CKG_STAT.SPL : FRef := ⟨0x010001, [], 2, 0⟩
def CKG_EVT : Row := ⟨0x010002, [], .AON, .w1c, [⟨5, 5, 0, .w1c, []⟩, ⟨4, 4, 0, .w1c, []⟩, ⟨3, 3, 0, .w1c, []⟩, ⟨2, 2, 0, .w1c, []⟩, ⟨1, 1, 0, .w1c, []⟩, ⟨0, 0, 0, .w1c, []⟩]⟩
def CKG_EVT.LTX_MOVE : FRef := ⟨0x010002, [], 5, 5⟩
def CKG_EVT.FORCED_SW : FRef := ⟨0x010002, [], 4, 4⟩
def CKG_EVT.LOCK_LOST : FRef := ⟨0x010002, [], 3, 3⟩
def CKG_EVT.COAST : FRef := ⟨0x010002, [], 2, 2⟩
def CKG_EVT.FAILOVER : FRef := ⟨0x010002, [], 1, 1⟩
def CKG_EVT.REF_LOST : FRef := ⟨0x010002, [], 0, 0⟩
def FSW_CNT : Row := ⟨0x010003, [], .CTL, .rc, [⟨47, 0, 0, .rc, []⟩]⟩
def FSW_CNT.COUNT : FRef := ⟨0x010003, [], 47, 0⟩
def LTX_MOVE_CNT : Row := ⟨0x010004, [], .CTL, .rc, [⟨47, 0, 0, .rc, []⟩]⟩
def LTX_MOVE_CNT.COUNT : FRef := ⟨0x010004, [], 47, 0⟩
def GATE_OVR : Row := ⟨0x010006, [], .CTL, .rw, [⟨20, 0, 0, .rw, []⟩]⟩
def GATE_OVR.OVR : FRef := ⟨0x010006, [], 20, 0⟩
def GATE_STAT : Row := ⟨0x010007, [], .CTL, .ro, [⟨20, 0, 0, .ro, []⟩]⟩
def GATE_STAT.RUNNING : FRef := ⟨0x010007, [], 20, 0⟩
def RST_CMD : Row := ⟨0x010008, [], .AON, .wo, [⟨15, 8, 0, .wo, []⟩, ⟨3, 0, 0, .wo, []⟩]⟩
def RST_CMD.KEY : FRef := ⟨0x010008, [], 15, 8⟩
def RST_CMD.TYPE : FRef := ⟨0x010008, [], 3, 0⟩
def RST_CAUSE : Row := ⟨0x010009, [], .AON, .ro, [⟨3, 0, 0, .ro, []⟩]⟩
def RST_CAUSE.CODE : FRef := ⟨0x010009, [], 3, 0⟩
def RST_SEEN : Row := ⟨0x01000A, [], .AON, .w1c, [⟨7, 0, 1, .w1c, []⟩]⟩
def RST_SEEN.SEEN : FRef := ⟨0x01000A, [], 7, 0⟩
def PWR_REQ : Row := ⟨0x020000, [], .CTL, .wo, [⟨47, 0, 0, .wo, []⟩]⟩
def PWR_REQ.WORD : FRef := ⟨0x020000, [], 47, 0⟩
def PWR_STAT : Row := ⟨0x020001, [], .AON, .ro, [⟨35, 32, 0, .ro, []⟩, ⟨31, 28, 0, .ro, []⟩, ⟨27, 25, 0, .ro, []⟩, ⟨24, 19, 0, .ro, []⟩, ⟨18, 11, 0, .ro, []⟩, ⟨3, 3, 0, .ro, []⟩, ⟨2, 0, 0, .ro, []⟩]⟩
def PWR_STAT.FAIL_CAUSE : FRef := ⟨0x020001, [], 35, 32⟩
def PWR_STAT.WAKE_SRC : FRef := ⟨0x020001, [], 31, 28⟩
def PWR_STAT.ABORT_STEP : FRef := ⟨0x020001, [], 27, 25⟩
def PWR_STAT.REFUSER : FRef := ⟨0x020001, [], 24, 19⟩
def PWR_STAT.RESULT : FRef := ⟨0x020001, [], 18, 11⟩
def PWR_STAT.BUSY : FRef := ⟨0x020001, [], 3, 3⟩
def PWR_STAT.STATE : FRef := ⟨0x020001, [], 2, 0⟩
def PWR_EVT : Row := ⟨0x020002, [], .AON, .w1c, [⟨6, 6, 0, .w1c, []⟩, ⟨5, 5, 0, .w1c, []⟩, ⟨4, 4, 0, .w1c, []⟩, ⟨3, 3, 0, .w1c, []⟩, ⟨2, 2, 0, .w1c, []⟩, ⟨1, 1, 0, .w1c, []⟩, ⟨0, 0, 0, .w1c, []⟩]⟩
def PWR_EVT.RB_FAIL : FRef := ⟨0x020002, [], 6, 6⟩
def PWR_EVT.BROWNOUT : FRef := ⟨0x020002, [], 5, 5⟩
def PWR_EVT.SUP_RESET : FRef := ⟨0x020002, [], 4, 4⟩
def PWR_EVT.SUP_WARN : FRef := ⟨0x020002, [], 3, 3⟩
def PWR_EVT.ABORTED : FRef := ⟨0x020002, [], 2, 2⟩
def PWR_EVT.REFUSED : FRef := ⟨0x020002, [], 1, 1⟩
def PWR_EVT.DONE : FRef := ⟨0x020002, [], 0, 0⟩
def PWR_CFG : Row := ⟨0x020003, [], .AON, .rw, [⟨47, 32, 2, .rw, []⟩, ⟨31, 16, 0, .rw, []⟩, ⟨4, 4, 0, .rw, []⟩, ⟨3, 3, 1, .rw, []⟩, ⟨2, 2, 1, .rw, []⟩, ⟨1, 1, 0, .rw, []⟩, ⟨0, 0, 1, .rw, []⟩]⟩
def PWR_CFG.IDLE_WAKE : FRef := ⟨0x020003, [], 47, 32⟩
def PWR_CFG.WAKE_TMR : FRef := ⟨0x020003, [], 31, 16⟩
def PWR_CFG.EN_SCR : FRef := ⟨0x020003, [], 4, 4⟩
def PWR_CFG.EN_THM : FRef := ⟨0x020003, [], 3, 3⟩
def PWR_CFG.EN_CMD : FRef := ⟨0x020003, [], 2, 2⟩
def PWR_CFG.EN_TMR : FRef := ⟨0x020003, [], 1, 1⟩
def PWR_CFG.EN_PIN : FRef := ⟨0x020003, [], 0, 0⟩
def PWR_DOM0 : Row := ⟨0x020008, [], .AON, .ro, [⟨47, 0, 0, .ro, []⟩]⟩
def PWR_DOM0.ON : FRef := ⟨0x020008, [], 47, 0⟩
def PWR_DOM1 : Row := ⟨0x020009, [], .AON, .ro, [⟨8, 0, 0, .ro, []⟩]⟩
def PWR_DOM1.ON : FRef := ⟨0x020009, [], 8, 0⟩
def PWR_SUP_STAT : Row := ⟨0x020010, [], .AON, .ro, [⟨13, 0, 0, .ro, []⟩]⟩
def PWR_SUP_STAT.RAILS : FRef := ⟨0x020010, [], 13, 0⟩
def PWR_RB_STAT : Row := ⟨0x020011, [], .AON, .ro, [⟨7, 0, 0, .ro, []⟩]⟩
def PWR_RB_STAT.BANKS : FRef := ⟨0x020011, [], 7, 0⟩
def PWR_RB_ADDR : Row := ⟨0x020012, [], .CTL, .rw, [⟨14, 0, 0, .rw, []⟩]⟩
def PWR_RB_ADDR.WORD : FRef := ⟨0x020012, [], 14, 0⟩
def PWR_RB_DATA : Row := ⟨0x020013, [], .CTL, .rw, [⟨47, 0, 0, .rw, []⟩]⟩
def PWR_RB_DATA.DATA : FRef := ⟨0x020013, [], 47, 0⟩
def PWR_REFUSE_CNT : Row := ⟨0x020018, [], .AON, .rc, [⟨47, 0, 0, .rc, []⟩]⟩
def PWR_REFUSE_CNT.COUNT : FRef := ⟨0x020018, [], 47, 0⟩
def PWR_ABORT_CNT : Row := ⟨0x020019, [], .AON, .rc, [⟨47, 0, 0, .rc, []⟩]⟩
def PWR_ABORT_CNT.COUNT : FRef := ⟨0x020019, [], 47, 0⟩
def SUP_WARN_CNT : Row := ⟨0x02001A, [], .AON, .rc, [⟨47, 0, 0, .rc, []⟩]⟩
def SUP_WARN_CNT.COUNT : FRef := ⟨0x02001A, [], 47, 0⟩
def WAKE_RETRY_CNT : Row := ⟨0x02001B, [], .AON, .rc, [⟨47, 0, 0, .rc, []⟩]⟩
def WAKE_RETRY_CNT.COUNT : FRef := ⟨0x02001B, [], 47, 0⟩
def THM_CFG : Row := ⟨0x030000, [], .CTL, .st, [⟨15, 14, 2, .st, []⟩, ⟨13, 10, 5, .st, [(0, 0)]⟩, ⟨9, 6, 2, .st, [(0, 0)]⟩, ⟨3, 2, 0, .st, []⟩, ⟨0, 0, 1, .st, []⟩]⟩
def THM_CFG.FLT_LEVEL : FRef := ⟨0x030000, [], 15, 14⟩
def THM_CFG.T3_OFS : FRef := ⟨0x030000, [], 13, 10⟩
def THM_CFG.HYST : FRef := ⟨0x030000, [], 9, 6⟩
def THM_CFG.THR_FORCE : FRef := ⟨0x030000, [], 3, 2⟩
def THM_CFG.AUTO_EN : FRef := ⟨0x030000, [], 0, 0⟩
def BAND_CFG : Row := ⟨0x030001, [], .CTL, .st, [⟨27, 24, 3, .st, [(0, 0)]⟩, ⟨23, 16, 0x5a, .st, []⟩, ⟨15, 8, 0x41, .st, []⟩, ⟨7, 0, 0x28, .st, []⟩]⟩
def BAND_CFG.BAND_HYST : FRef := ⟨0x030001, [], 27, 24⟩
def BAND_CFG.B3 : FRef := ⟨0x030001, [], 23, 16⟩
def BAND_CFG.B2 : FRef := ⟨0x030001, [], 15, 8⟩
def BAND_CFG.B1 : FRef := ⟨0x030001, [], 7, 0⟩
def THM_STAT : Row := ⟨0x030002, [], .AON, .ro, [⟨3, 3, 0, .ro, []⟩, ⟨1, 0, 0, .ro, []⟩]⟩
def THM_STAT.FAST : FRef := ⟨0x030002, [], 3, 3⟩
def THM_STAT.THR_LEVEL : FRef := ⟨0x030002, [], 1, 0⟩
def THM_EVT : Row := ⟨0x030003, [], .CTL, .w1c, [⟨7, 7, 0, .w1c, []⟩, ⟨6, 6, 0, .w1c, []⟩, ⟨5, 5, 0, .w1c, []⟩, ⟨4, 4, 0, .w1c, []⟩, ⟨3, 3, 0, .w1c, []⟩, ⟨2, 2, 0, .w1c, []⟩, ⟨1, 1, 0, .w1c, []⟩, ⟨0, 0, 0, .w1c, []⟩]⟩
def THM_EVT.SHUT_SEEN : FRef := ⟨0x030003, [], 7, 7⟩
def THM_EVT.SENS_FAULT : FRef := ⟨0x030003, [], 6, 6⟩
def THM_EVT.BAND_CHG : FRef := ⟨0x030003, [], 5, 5⟩
def THM_EVT.THR_CHG : FRef := ⟨0x030003, [], 4, 4⟩
def THM_EVT.HI_ALARM : FRef := ⟨0x030003, [], 3, 3⟩
def THM_EVT.HI_WARN : FRef := ⟨0x030003, [], 2, 2⟩
def THM_EVT.LO_WARN : FRef := ⟨0x030003, [], 1, 1⟩
def THM_EVT.LO_ALARM : FRef := ⟨0x030003, [], 0, 0⟩
def SENS_FLT : Row := ⟨0x030004, [], .AON, .ro, [⟨11, 0, 0, .ro, []⟩]⟩
def SENS_FLT.BROKEN : FRef := ⟨0x030004, [], 11, 0⟩
def LIM_STAT : Row := ⟨0x030005, [], .CTL, .ro, [⟨47, 0, 0, .ro, []⟩]⟩
def LIM_STAT.FLAGS : FRef := ⟨0x030005, [], 47, 0⟩
def BAND_STAT : Row := ⟨0x030006, [], .CTL, .ro, [⟨17, 0, 0, .ro, []⟩]⟩
def BAND_STAT.BANDS : FRef := ⟨0x030006, [], 17, 0⟩
def SHUT_STAT : Row := ⟨0x030007, [], .AON, .ro, [⟨19, 16, 0, .ro, []⟩, ⟨15, 0, 0, .ro, []⟩]⟩
def SHUT_STAT.SENSOR : FRef := ⟨0x030007, [], 19, 16⟩
def SHUT_STAT.COUNT : FRef := ⟨0x030007, [], 15, 0⟩
def TS : Row := ⟨0x030010, [(0x1, 12)], .CTL, .ro, [⟨16, 16, 0, .ro, []⟩, ⟨11, 0, 0, .ro, []⟩]⟩
def TS.FAULT : FRef := ⟨0x030010, [0x1], 16, 16⟩
def TS.TEMP : FRef := ⟨0x030010, [0x1], 11, 0⟩
def THM_LIM : Row := ⟨0x030020, [(0x1, 12)], .CTL, .st, [⟨31, 24, 0x6c, .st, []⟩, ⟨23, 16, 0x64, .st, []⟩, ⟨15, 8, 0xf1, .st, []⟩, ⟨7, 0, 0xec, .st, []⟩]⟩
def THM_LIM.HI_ALARM : FRef := ⟨0x030020, [0x1], 31, 24⟩
def THM_LIM.HI_WARN : FRef := ⟨0x030020, [0x1], 23, 16⟩
def THM_LIM.LO_WARN : FRef := ⟨0x030020, [0x1], 15, 8⟩
def THM_LIM.LO_ALARM : FRef := ⟨0x030020, [0x1], 7, 0⟩
def BST_STAT : Row := ⟨0x040000, [], .CTL, .ro, [⟨31, 31, 0, .ro, []⟩, ⟨27, 8, 0, .ro, []⟩, ⟨7, 4, 0, .ro, []⟩, ⟨3, 0, 0, .ro, []⟩]⟩
def BST_STAT.BOOT_FAIL : FRef := ⟨0x040000, [], 31, 31⟩
def BST_STAT.TIME : FRef := ⟨0x040000, [], 27, 8⟩
def BST_STAT.FIRST_FAIL : FRef := ⟨0x040000, [], 7, 4⟩
def BST_STAT.STATE : FRef := ⟨0x040000, [], 3, 0⟩
def BST_CRIT : Row := ⟨0x040001, [], .CTL, .ro, [⟨3, 0, 0, .ro, []⟩]⟩
def BST_CRIT.CAUSE : FRef := ⟨0x040001, [], 3, 0⟩
def BST_SLICE : Row := ⟨0x040010, [(0x1, 10)], .CTL, .ro, [⟨47, 47, 0, .ro, []⟩, ⟨46, 46, 0, .ro, []⟩, ⟨45, 45, 0, .ro, []⟩, ⟨19, 0, 0, .ro, []⟩]⟩
def BST_SLICE.RUN : FRef := ⟨0x040010, [0x1], 47, 47⟩
def BST_SLICE.PASS : FRef := ⟨0x040010, [0x1], 46, 46⟩
def BST_SLICE.OVERTIME : FRef := ⟨0x040010, [0x1], 45, 45⟩
def BST_SLICE.USED : FRef := ⟨0x040010, [0x1], 19, 0⟩
def BST_UNUSE0 : Row := ⟨0x040020, [], .CTL, .ro, [⟨47, 0, 0, .ro, []⟩]⟩
def BST_UNUSE0.DOMS : FRef := ⟨0x040020, [], 47, 0⟩
def BST_UNUSE1 : Row := ⟨0x040021, [], .CTL, .ro, [⟨8, 0, 0, .ro, []⟩]⟩
def BST_UNUSE1.DOMS : FRef := ⟨0x040021, [], 8, 0⟩
def BST_IS_CTL : Row := ⟨0x040030, [], .CTL, .st, [⟨47, 46, 0, .st, []⟩, ⟨45, 28, 0, .st, []⟩, ⟨27, 8, 0, .st, []⟩, ⟨7, 4, 0, .st, []⟩, ⟨3, 0, 0, .st, []⟩]⟩
def BST_IS_CTL.TEST : FRef := ⟨0x040030, [], 47, 46⟩
def BST_IS_CTL.COUNT : FRef := ⟨0x040030, [], 45, 28⟩
def BST_IS_CTL.FIRST : FRef := ⟨0x040030, [], 27, 8⟩
def BST_IS_CTL.TARGET : FRef := ⟨0x040030, [], 7, 4⟩
def BST_IS_CTL.SEQ : FRef := ⟨0x040030, [], 3, 0⟩
def BST_IS_STAT : Row := ⟨0x040031, [], .CTL, .ro, [⟨47, 24, 0, .ro, []⟩, ⟨23, 16, 0, .ro, []⟩, ⟨15, 12, 0, .ro, []⟩, ⟨11, 0, 0, .ro, []⟩]⟩
def BST_IS_STAT.FAIL_ADDR : FRef := ⟨0x040031, [], 47, 24⟩
def BST_IS_STAT.RESULT : FRef := ⟨0x040031, [], 23, 16⟩
def BST_IS_STAT.SEQ_DONE : FRef := ⟨0x040031, [], 15, 12⟩
def BST_IS_STAT.SLICES : FRef := ⟨0x040031, [], 11, 0⟩
def BST_IS_ABORT_CNT : Row := ⟨0x040032, [], .CTL, .rc, [⟨47, 0, 0, .rc, []⟩]⟩
def BST_IS_ABORT_CNT.COUNT : FRef := ⟨0x040032, [], 47, 0⟩
def LCS_STAT : Row := ⟨0x050000, [], .CTL, .ro, [⟨6, 6, 0, .ro, []⟩, ⟨5, 5, 0, .ro, []⟩, ⟨4, 4, 0, .ro, []⟩, ⟨3, 3, 0, .ro, []⟩, ⟨2, 0, 0, .ro, []⟩]⟩
def LCS_STAT.OTP_BUSY : FRef := ⟨0x050000, [], 6, 6⟩
def LCS_STAT.IDENTITY_PRESENT : FRef := ⟨0x050000, [], 5, 5⟩
def LCS_STAT.SECRETS_CLEARED : FRef := ⟨0x050000, [], 4, 4⟩
def LCS_STAT.SCAN_OPEN : FRef := ⟨0x050000, [], 3, 3⟩
def LCS_STAT.STATE : FRef := ⟨0x050000, [], 2, 0⟩
def LCS_CTL : Row := ⟨0x050001, [], .CTL, .wo, [⟨47, 40, 0, .wo, []⟩, ⟨2, 0, 0, .wo, []⟩]⟩
def LCS_CTL.KEY : FRef := ⟨0x050001, [], 47, 40⟩
def LCS_CTL.TARGET : FRef := ⟨0x050001, [], 2, 0⟩
def LCS_RESULT : Row := ⟨0x050002, [], .CTL, .ro, [⟨7, 0, 0, .ro, []⟩]⟩
def LCS_RESULT.RESULT : FRef := ⟨0x050002, [], 7, 0⟩
def LCS_NONCE : Row := ⟨0x050010, [(0x1, 6)], .CTL, .ro, [⟨47, 0, 0, .ro, []⟩]⟩
def LCS_NONCE.DATA : FRef := ⟨0x050010, [0x1], 47, 0⟩
def LCS_TOK_ADDR : Row := ⟨0x050016, [], .CTL, .rw, [⟨8, 0, 0, .rw, []⟩]⟩
def LCS_TOK_ADDR.WORD : FRef := ⟨0x050016, [], 8, 0⟩
def LCS_TOK_DATA : Row := ⟨0x050017, [], .CTL, .wo, [⟨47, 0, 0, .wo, []⟩]⟩
def LCS_TOK_DATA.DATA : FRef := ⟨0x050017, [], 47, 0⟩
def RX_AFE : Row := ⟨0x080000, [(0x1000, 9)], .LRA, .st, [⟨25, 25, 0, .st, []⟩, ⟨24, 21, 5, .st, []⟩, ⟨20, 14, 0x40, .st, [(0, 15), (101, 127)]⟩, ⟨13, 13, 1, .st, []⟩, ⟨12, 6, 0x18, .st, [(73, 127)]⟩, ⟨5, 4, 1, .st, []⟩, ⟨3, 0, 6, .st, []⟩]⟩
def RX_AFE.RX_POL : FRef := ⟨0x080000, [0x1000], 25, 25⟩
def RX_AFE.SD_THRESH : FRef := ⟨0x080000, [0x1000], 24, 21⟩
def RX_AFE.AGC_TARGET : FRef := ⟨0x080000, [0x1000], 20, 14⟩
def RX_AFE.AGC_EN : FRef := ⟨0x080000, [0x1000], 13, 13⟩
def RX_AFE.PGA_GAIN : FRef := ⟨0x080000, [0x1000], 12, 6⟩
def RX_AFE.CTLE_POLE : FRef := ⟨0x080000, [0x1000], 5, 4⟩
def RX_AFE.CTLE_PEAK : FRef := ⟨0x080000, [0x1000], 3, 0⟩
def RX_CTL : Row := ⟨0x080001, [(0x1000, 9)], .LRA, .st, [⟨3, 3, 0, .st, []⟩, ⟨2, 2, 1, .st, []⟩, ⟨1, 1, 1, .st, []⟩, ⟨0, 0, 1, .st, []⟩]⟩
def RX_CTL.NOISE_REQ : FRef := ⟨0x080001, [0x1000], 3, 3⟩
def RX_CTL.HEALTH_EN : FRef := ⟨0x080001, [0x1000], 2, 2⟩
def RX_CTL.ICORR_ADAPT : FRef := ⟨0x080001, [0x1000], 1, 1⟩
def RX_CTL.ICORR_EN : FRef := ⟨0x080001, [0x1000], 0, 0⟩
def RX_STAT : Row := ⟨0x080002, [(0x1000, 9)], .LRA, .ro, [⟨21, 18, 0, .ro, []⟩, ⟨17, 12, 0, .ro, []⟩, ⟨11, 10, 0, .ro, []⟩, ⟨9, 9, 0, .ro, []⟩, ⟨8, 8, 0, .ro, []⟩, ⟨6, 0, 0x18, .ro, []⟩]⟩
def RX_STAT.FAULT_SRC : FRef := ⟨0x080002, [0x1000], 21, 18⟩
def RX_STAT.FAULT_SS : FRef := ⟨0x080002, [0x1000], 17, 12⟩
def RX_STAT.SLICE_STATE : FRef := ⟨0x080002, [0x1000], 11, 10⟩
def RX_STAT.NOISE_BUSY : FRef := ⟨0x080002, [0x1000], 9, 9⟩
def RX_STAT.SIG_DET : FRef := ⟨0x080002, [0x1000], 8, 8⟩
def RX_STAT.PGA_NOW : FRef := ⟨0x080002, [0x1000], 6, 0⟩
def RX_EVT : Row := ⟨0x080003, [(0x1000, 9)], .LRA, .w1c, [⟨7, 7, 0, .w1c, []⟩, ⟨6, 6, 0, .w1c, []⟩, ⟨5, 5, 0, .w1c, []⟩, ⟨4, 4, 0, .w1c, []⟩, ⟨3, 3, 0, .w1c, []⟩, ⟨2, 2, 0, .w1c, []⟩, ⟨1, 1, 0, .w1c, []⟩, ⟨0, 0, 0, .w1c, []⟩]⟩
def RX_EVT.AGC_LIM : FRef := ⟨0x080003, [0x1000], 7, 7⟩
def RX_EVT.NOISE_REFUSED : FRef := ⟨0x080003, [0x1000], 6, 6⟩
def RX_EVT.NOISE_DONE : FRef := ⟨0x080003, [0x1000], 5, 5⟩
def RX_EVT.ICORR_SAT : FRef := ⟨0x080003, [0x1000], 4, 4⟩
def RX_EVT.SIG_LOST : FRef := ⟨0x080003, [0x1000], 3, 3⟩
def RX_EVT.RETIRED : FRef := ⟨0x080003, [0x1000], 2, 2⟩
def RX_EVT.TAKEOVER : FRef := ⟨0x080003, [0x1000], 1, 1⟩
def RX_EVT.FAULT : FRef := ⟨0x080003, [0x1000], 0, 0⟩
def NOISE_RES : Row := ⟨0x080004, [(0x1000, 9)], .LRA, .ro, [⟨29, 24, 0, .ro, []⟩, ⟨23, 12, 0, .ro, []⟩, ⟨11, 0, 0, .ro, []⟩]⟩
def NOISE_RES.WORST_SS : FRef := ⟨0x080004, [0x1000], 29, 24⟩
def NOISE_RES.WORST_RMS : FRef := ⟨0x080004, [0x1000], 23, 12⟩
def NOISE_RES.ALL_RMS : FRef := ⟨0x080004, [0x1000], 11, 0⟩
def RX_CLIP_CNT : Row := ⟨0x080005, [(0x1000, 9)], .LRA, .rc, [⟨47, 0, 0, .rc, []⟩]⟩
def RX_CLIP_CNT.COUNT : FRef := ⟨0x080005, [0x1000], 47, 0⟩
def ICORR_SAT_CNT : Row := ⟨0x080006, [(0x1000, 9)], .LDS, .rc, [⟨47, 0, 0, .rc, []⟩]⟩
def ICORR_SAT_CNT.COUNT : FRef := ⟨0x080006, [0x1000], 47, 0⟩
def ICORR_WIN_ADDR : Row := ⟨0x080008, [(0x1000, 9)], .LDS, .rw, [⟨8, 0, 0, .rw, []⟩]⟩
def ICORR_WIN_ADDR.INDEX : FRef := ⟨0x080008, [0x1000], 8, 0⟩
def ICORR_WIN_DATA : Row := ⟨0x080009, [(0x1000, 9)], .LDS, .ro, [⟨47, 0, 0, .ro, []⟩]⟩
def ICORR_WIN_DATA.DATA : FRef := ⟨0x080009, [0x1000], 47, 0⟩
def EQ_CTL : Row := ⟨0x080010, [(0x1000, 9)], .LDS, .st, [⟨9, 9, 1, .st, []⟩, ⟨8, 8, 0, .st, []⟩, ⟨7, 7, 0, .st, []⟩, ⟨6, 6, 1, .st, []⟩, ⟨5, 5, 1, .st, []⟩, ⟨4, 4, 1, .st, []⟩, ⟨3, 0, 8, .st, [(0, 0)]⟩]⟩
def EQ_CTL.LLR_AUTO : FRef := ⟨0x080010, [0x1000], 9, 9⟩
def EQ_CTL.PRECODE_RX : FRef := ⟨0x080010, [0x1000], 8, 8⟩
def EQ_CTL.NL_EN : FRef := ⟨0x080010, [0x1000], 7, 7⟩
def EQ_CTL.DET : FRef := ⟨0x080010, [0x1000], 6, 6⟩
def EQ_CTL.ADAPT_EN : FRef := ⟨0x080010, [0x1000], 5, 5⟩
def EQ_CTL.FFE_EN : FRef := ⟨0x080010, [0x1000], 4, 4⟩
def EQ_CTL.REACQ_TICKS : FRef := ⟨0x080010, [0x1000], 3, 0⟩
def FFE_CTL : Row := ⟨0x080011, [(0x1000, 9)], .LDS, .st, [⟨29, 22, 0x20, .st, [(0, 7), (97, 255)]⟩, ⟨21, 18, 4, .st, [(0, 0)]⟩, ⟨17, 14, 4, .st, []⟩, ⟨13, 10, 8, .st, []⟩, ⟨9, 6, 0xa, .st, []⟩, ⟨5, 0, 8, .st, [(0, 3), (29, 63)]⟩]⟩
def FFE_CTL.TGT_A : FRef := ⟨0x080011, [0x1000], 29, 22⟩
def FFE_CTL.ACQ_TICKS : FRef := ⟨0x080011, [0x1000], 21, 18⟩
def FFE_CTL.MU_ACQ : FRef := ⟨0x080011, [0x1000], 17, 14⟩
def FFE_CTL.MU_TRK : FRef := ⟨0x080011, [0x1000], 13, 10⟩
def FFE_CTL.NL_MU : FRef := ⟨0x080011, [0x1000], 9, 6⟩
def FFE_CTL.MAIN_POS : FRef := ⟨0x080011, [0x1000], 5, 0⟩
def DET_CTL : Row := ⟨0x080012, [(0x1000, 9)], .LDS, .st, [⟨11, 8, 8, .st, []⟩, ⟨7, 4, 8, .st, []⟩, ⟨3, 0, 8, .st, []⟩]⟩
def DET_CTL.DFE_MU : FRef := ⟨0x080012, [0x1000], 11, 8⟩
def DET_CTL.H_MU : FRef := ⟨0x080012, [0x1000], 7, 4⟩
def DET_CTL.PR_ALPHA : FRef := ⟨0x080012, [0x1000], 3, 0⟩
def LLR_CTL : Row := ⟨0x080013, [(0x1000, 9)], .LDS, .st, [⟨15, 8, 0x40, .st, [(0, 0)]⟩, ⟨7, 0, 0x20, .st, [(0, 0)]⟩]⟩
def LLR_CTL.LLR_GAIN : FRef := ⟨0x080013, [0x1000], 15, 8⟩
def LLR_CTL.LLR_SCALE : FRef := ⟨0x080013, [0x1000], 7, 0⟩
def TR_CTL : Row := ⟨0x080014, [(0x1000, 9)], .LDS, .st, [⟨29, 26, 6, .st, []⟩, ⟨25, 20, 0, .st, []⟩, ⟨19, 16, 4, .st, []⟩, ⟨15, 12, 0xa, .st, []⟩, ⟨11, 8, 6, .st, []⟩, ⟨7, 4, 0xe, .st, []⟩]⟩
def TR_CTL.LOCK_SNR : FRef := ⟨0x080014, [0x1000], 29, 26⟩
def TR_CTL.PH_OFS : FRef := ⟨0x080014, [0x1000], 25, 20⟩
def TR_CTL.KP_ACQ : FRef := ⟨0x080014, [0x1000], 19, 16⟩
def TR_CTL.KI_ACQ : FRef := ⟨0x080014, [0x1000], 15, 12⟩
def TR_CTL.KP_TRK : FRef := ⟨0x080014, [0x1000], 11, 8⟩
def TR_CTL.KI_TRK : FRef := ⟨0x080014, [0x1000], 7, 4⟩
def EQ_STAT : Row := ⟨0x080015, [(0x1000, 9)], .LDS, .ro, [⟨9, 6, 0, .ro, []⟩, ⟨5, 5, 0, .ro, []⟩, ⟨4, 4, 1, .ro, []⟩, ⟨3, 2, 0, .ro, []⟩, ⟨0, 0, 0, .ro, []⟩]⟩
def EQ_STAT.SNAP_GOOD : FRef := ⟨0x080015, [0x1000], 9, 6⟩
def EQ_STAT.THROTTLED : FRef := ⟨0x080015, [0x1000], 5, 5⟩
def EQ_STAT.DET_NOW : FRef := ⟨0x080015, [0x1000], 4, 4⟩
def EQ_STAT.ADAPT_STATE : FRef := ⟨0x080015, [0x1000], 3, 2⟩
def EQ_STAT.TR_LOCK : FRef := ⟨0x080015, [0x1000], 0, 0⟩
def EQ_EVT : Row := ⟨0x080016, [(0x1000, 9)], .LDS, .w1c, [⟨5, 5, 0, .w1c, []⟩, ⟨4, 4, 0, .w1c, []⟩, ⟨3, 3, 0, .w1c, []⟩, ⟨2, 2, 0, .w1c, []⟩, ⟨1, 1, 0, .w1c, []⟩, ⟨0, 0, 0, .w1c, []⟩]⟩
def EQ_EVT.FREQ_LIM : FRef := ⟨0x080016, [0x1000], 5, 5⟩
def EQ_EVT.REACQ : FRef := ⟨0x080016, [0x1000], 4, 4⟩
def EQ_EVT.TR_LOCK_LOST : FRef := ⟨0x080016, [0x1000], 3, 3⟩
def EQ_EVT.TR_LOCK_GAINED : FRef := ⟨0x080016, [0x1000], 2, 2⟩
def EQ_EVT.COEF_LIM : FRef := ⟨0x080016, [0x1000], 1, 1⟩
def EQ_EVT.DET_SWITCH : FRef := ⟨0x080016, [0x1000], 0, 0⟩
def TR_PHASE : Row := ⟨0x080017, [(0x1000, 9)], .LDS, .sn, [⟨47, 32, 0, .sn, []⟩, ⟨23, 0, 0, .sn, []⟩]⟩
def TR_PHASE.FREQ : FRef := ⟨0x080017, [0x1000], 47, 32⟩
def TR_PHASE.PHASE : FRef := ⟨0x080017, [0x1000], 23, 0⟩
def QUAL_SNR : Row := ⟨0x080018, [(0x1000, 9)], .LDS, .ro, [⟨31, 16, 0, .ro, []⟩, ⟨15, 0, 0, .ro, []⟩]⟩
def QUAL_SNR.SIGMA : FRef := ⟨0x080018, [0x1000], 31, 16⟩
def QUAL_SNR.SNR : FRef := ⟨0x080018, [0x1000], 15, 0⟩
def QUAL_EYE : Row := ⟨0x080019, [(0x1000, 9)], .LDS, .ro, [⟨43, 36, 0, .ro, []⟩, ⟨35, 24, 0, .ro, []⟩, ⟨23, 12, 0, .ro, []⟩, ⟨11, 0, 0, .ro, []⟩]⟩
def QUAL_EYE.EW : FRef := ⟨0x080019, [0x1000], 43, 36⟩
def QUAL_EYE.EH2 : FRef := ⟨0x080019, [0x1000], 35, 24⟩
def QUAL_EYE.EH1 : FRef := ⟨0x080019, [0x1000], 23, 12⟩
def QUAL_EYE.EH0 : FRef := ⟨0x080019, [0x1000], 11, 0⟩
def DET_ERR_CNT : Row := ⟨0x08001A, [(0x1000, 9)], .LDS, .rc, [⟨47, 0, 0, .rc, []⟩]⟩
def DET_ERR_CNT.COUNT : FRef := ⟨0x08001A, [0x1000], 47, 0⟩
def DET_BIT_CNT : Row := ⟨0x08001B, [(0x1000, 9)], .LDS, .rc, [⟨47, 0, 0, .rc, []⟩]⟩
def DET_BIT_CNT.COUNT : FRef := ⟨0x08001B, [0x1000], 47, 0⟩
def REACQ_CNT : Row := ⟨0x08001C, [(0x1000, 9)], .LDS, .rc, [⟨47, 0, 0, .rc, []⟩]⟩
def REACQ_CNT.COUNT : FRef := ⟨0x08001C, [0x1000], 47, 0⟩
def ADAPT_DISCARD_CNT : Row := ⟨0x08001D, [(0x1000, 9)], .LDS, .rc, [⟨47, 0, 0, .rc, []⟩]⟩
def ADAPT_DISCARD_CNT.COUNT : FRef := ⟨0x08001D, [0x1000], 47, 0⟩
def SAT_EVT : Row := ⟨0x080020, [(0x1000, 9)], .LDS, .w1c, [⟨4, 4, 0, .w1c, []⟩, ⟨3, 3, 0, .w1c, []⟩, ⟨2, 2, 0, .w1c, []⟩, ⟨1, 1, 0, .w1c, []⟩, ⟨0, 0, 0, .w1c, []⟩]⟩
def SAT_EVT.GAIN_LIM : FRef := ⟨0x080020, [0x1000], 4, 4⟩
def SAT_EVT.LLR_SAT : FRef := ⟨0x080020, [0x1000], 3, 3⟩
def SAT_EVT.BM_CLAMP : FRef := ⟨0x080020, [0x1000], 2, 2⟩
def SAT_EVT.Z_SAT : FRef := ⟨0x080020, [0x1000], 1, 1⟩
def SAT_EVT.Y_SAT : FRef := ⟨0x080020, [0x1000], 0, 0⟩
def Y_SAT_CNT : Row := ⟨0x080021, [(0x1000, 9)], .LDS, .rc, [⟨47, 0, 0, .rc, []⟩]⟩
def Y_SAT_CNT.COUNT : FRef := ⟨0x080021, [0x1000], 47, 0⟩
def Z_SAT_CNT : Row := ⟨0x080022, [(0x1000, 9)], .LDS, .rc, [⟨47, 0, 0, .rc, []⟩]⟩
def Z_SAT_CNT.COUNT : FRef := ⟨0x080022, [0x1000], 47, 0⟩
def BM_CLAMP_CNT : Row := ⟨0x080023, [(0x1000, 9)], .LDS, .rc, [⟨47, 0, 0, .rc, []⟩]⟩
def BM_CLAMP_CNT.COUNT : FRef := ⟨0x080023, [0x1000], 47, 0⟩
def LLR_SAT_CNT : Row := ⟨0x080024, [(0x1000, 9)], .LDS, .rc, [⟨47, 0, 0, .rc, []⟩]⟩
def LLR_SAT_CNT.COUNT : FRef := ⟨0x080024, [0x1000], 47, 0⟩
def GAIN_LIM_CNT : Row := ⟨0x080025, [(0x1000, 9)], .LDS, .rc, [⟨47, 0, 0, .rc, []⟩]⟩
def GAIN_LIM_CNT.COUNT : FRef := ⟨0x080025, [0x1000], 47, 0⟩
def FCAL_CTL : Row := ⟨0x080030, [(0x1000, 9)], .LRA, .st, [⟨8, 8, 1, .st, []⟩, ⟨7, 4, 0xf, .st, []⟩, ⟨3, 0, 0, .st, []⟩]⟩
def FCAL_CTL.STORE : FRef := ⟨0x080030, [0x1000], 8, 8⟩
def FCAL_CTL.PHASES : FRef := ⟨0x080030, [0x1000], 7, 4⟩
def FCAL_CTL.SEQ : FRef := ⟨0x080030, [0x1000], 3, 0⟩
def FCAL_STAT : Row := ⟨0x080031, [(0x1000, 9)], .LRA, .ro, [⟨35, 24, 0, .ro, []⟩, ⟨23, 20, 1, .ro, []⟩, ⟨19, 12, 0, .ro, []⟩, ⟨11, 8, 0, .ro, []⟩, ⟨2, 0, 0, .ro, []⟩]⟩
def FCAL_STAT.CAL_TEMP : FRef := ⟨0x080031, [0x1000], 35, 24⟩
def FCAL_STAT.POINTS : FRef := ⟨0x080031, [0x1000], 23, 20⟩
def FCAL_STAT.RESULT : FRef := ⟨0x080031, [0x1000], 19, 12⟩
def FCAL_STAT.SEQ_DONE : FRef := ⟨0x080031, [0x1000], 11, 8⟩
def FCAL_STAT.STATE : FRef := ⟨0x080031, [0x1000], 2, 0⟩
def FCAL_QUAL : Row := ⟨0x080032, [(0x1000, 9)], .LRA, .ro, [⟨31, 24, 0, .ro, []⟩, ⟨23, 12, 0, .ro, []⟩, ⟨11, 0, 0, .ro, []⟩]⟩
def FCAL_QUAL.SPUR : FRef := ⟨0x080032, [0x1000], 31, 24⟩
def FCAL_QUAL.SKEW_RMS : FRef := ⟨0x080032, [0x1000], 23, 12⟩
def FCAL_QUAL.OFS_RMS : FRef := ⟨0x080032, [0x1000], 11, 0⟩
def SKIM_STAT : Row := ⟨0x080033, [(0x1000, 9)], .LRA, .ro, [⟨47, 8, 0, .ro, []⟩, ⟨5, 5, 0, .ro, []⟩, ⟨4, 4, 0, .ro, []⟩, ⟨3, 0, 0, .ro, []⟩]⟩
def SKIM_STAT.SINCE : FRef := ⟨0x080033, [0x1000], 47, 8⟩
def SKIM_STAT.SKEW_PEND : FRef := ⟨0x080033, [0x1000], 5, 5⟩
def SKIM_STAT.DUE : FRef := ⟨0x080033, [0x1000], 4, 4⟩
def SKIM_STAT.REASON : FRef := ⟨0x080033, [0x1000], 3, 0⟩
def TRIM_WIN_ADDR : Row := ⟨0x080034, [(0x1000, 9)], .LRA, .rw, [⟨12, 0, 0, .rw, []⟩]⟩
def TRIM_WIN_ADDR.INDEX : FRef := ⟨0x080034, [0x1000], 12, 0⟩
def TRIM_WIN_DATA : Row := ⟨0x080035, [(0x1000, 9)], .LRA, .ro, [⟨47, 0, 0, .ro, []⟩]⟩
def TRIM_WIN_DATA.DATA : FRef := ⟨0x080035, [0x1000], 47, 0⟩
def FCAL_CNT : Row := ⟨0x080036, [(0x1000, 9)], .LRA, .rc, [⟨47, 0, 0, .rc, []⟩]⟩
def FCAL_CNT.COUNT : FRef := ⟨0x080036, [0x1000], 47, 0⟩
def FCAL_FAIL_CNT : Row := ⟨0x080037, [(0x1000, 9)], .LRA, .rc, [⟨47, 0, 0, .rc, []⟩]⟩
def FCAL_FAIL_CNT.COUNT : FRef := ⟨0x080037, [0x1000], 47, 0⟩
def SKIM_EVT : Row := ⟨0x080038, [(0x1000, 9)], .LRA, .w1c, [⟨2, 2, 0, .w1c, []⟩, ⟨1, 1, 0, .w1c, []⟩, ⟨0, 0, 0, .w1c, []⟩]⟩
def SKIM_EVT.DUE : FRef := ⟨0x080038, [0x1000], 2, 2⟩
def SKIM_EVT.FCAL_FAIL : FRef := ⟨0x080038, [0x1000], 1, 1⟩
def SKIM_EVT.FCAL_DONE : FRef := ⟨0x080038, [0x1000], 0, 0⟩
def FRM_CFG : Row := ⟨0x080040, [(0x1000, 8)], .LDS, .st, [⟨7, 6, 0, .st, [(3, 3)]⟩, ⟨5, 4, 3, .st, []⟩, ⟨3, 0, 4, .st, [(0, 0)]⟩]⟩
def FRM_CFG.FORMAT : FRef := ⟨0x080040, [0x1000], 7, 6⟩
def FRM_CFG.LOCK_TOL : FRef := ⟨0x080040, [0x1000], 5, 4⟩
def FRM_CFG.LOL_COUNT : FRef := ⟨0x080040, [0x1000], 3, 0⟩
def FRM_STAT : Row := ⟨0x080041, [(0x1000, 8)], .LDS, .ro, [⟨15, 12, 0, .ro, []⟩, ⟨10, 8, 0, .ro, []⟩, ⟨7, 6, 0, .ro, []⟩, ⟨5, 5, 0, .ro, []⟩, ⟨4, 4, 0, .ro, []⟩, ⟨1, 0, 0, .ro, []⟩]⟩
def FRM_STAT.RX_FC : FRef := ⟨0x080041, [0x1000], 15, 12⟩
def FRM_STAT.RX_LANE : FRef := ⟨0x080041, [0x1000], 10, 8⟩
def FRM_STAT.FAR_FMT : FRef := ⟨0x080041, [0x1000], 7, 6⟩
def FRM_STAT.LANE_SWAP : FRef := ⟨0x080041, [0x1000], 5, 5⟩
def FRM_STAT.PROBE_ACTIVE : FRef := ⟨0x080041, [0x1000], 4, 4⟩
def FRM_STAT.LOCK_STATE : FRef := ⟨0x080041, [0x1000], 1, 0⟩
def FRM_EVT : Row := ⟨0x080042, [(0x1000, 8)], .LDS, .w1c, [⟨4, 4, 0, .w1c, []⟩, ⟨3, 3, 0, .w1c, []⟩, ⟨2, 2, 0, .w1c, []⟩, ⟨1, 1, 0, .w1c, []⟩, ⟨0, 0, 0, .w1c, []⟩]⟩
def FRM_EVT.FAR_FMT_FOUND : FRef := ⟨0x080042, [0x1000], 4, 4⟩
def FRM_EVT.LANE_SWAP_SEEN : FRef := ⟨0x080042, [0x1000], 3, 3⟩
def FRM_EVT.FC_ERR : FRef := ⟨0x080042, [0x1000], 2, 2⟩
def FRM_EVT.LOCK_GAINED : FRef := ⟨0x080042, [0x1000], 1, 1⟩
def FRM_EVT.LOL : FRef := ⟨0x080042, [0x1000], 0, 0⟩
def FRM_LOL_CNT : Row := ⟨0x080043, [(0x1000, 8)], .LDS, .rc, [⟨47, 0, 0, .rc, []⟩]⟩
def FRM_LOL_CNT.COUNT : FRef := ⟨0x080043, [0x1000], 47, 0⟩
def FRM_FC_ERR_CNT : Row := ⟨0x080044, [(0x1000, 8)], .LDS, .rc, [⟨47, 0, 0, .rc, []⟩]⟩
def FRM_FC_ERR_CNT.COUNT : FRef := ⟨0x080044, [0x1000], 47, 0⟩
def PAT_CTL : Row := ⟨0x080048, [(0x1000, 8)], .LDS, .st, [⟨10, 10, 0, .st, []⟩, ⟨9, 8, 0, .st, []⟩, ⟨7, 6, 0, .st, []⟩]⟩
def PAT_CTL.INJECT : FRef := ⟨0x080048, [0x1000], 10, 10⟩
def PAT_CTL.TX_PAT : FRef := ⟨0x080048, [0x1000], 9, 8⟩
def PAT_CTL.RX_PAT : FRef := ⟨0x080048, [0x1000], 7, 6⟩
def PAT_STAT : Row := ⟨0x080049, [(0x1000, 8)], .LDS, .ro, [⟨15, 8, 0, .ro, []⟩, ⟨1, 0, 0, .ro, []⟩]⟩
def PAT_STAT.RESYNC : FRef := ⟨0x080049, [0x1000], 15, 8⟩
def PAT_STAT.CHK_STATE : FRef := ⟨0x080049, [0x1000], 1, 0⟩
def PAT_SYM_CNT : Row := ⟨0x08004A, [(0x1000, 8)], .LDS, .rc, [⟨47, 0, 0, .rc, []⟩]⟩
def PAT_SYM_CNT.COUNT : FRef := ⟨0x08004A, [0x1000], 47, 0⟩
def PAT_SYM_ERR : Row := ⟨0x08004B, [(0x1000, 8)], .LDS, .rc, [⟨47, 0, 0, .rc, []⟩]⟩
def PAT_SYM_ERR.COUNT : FRef := ⟨0x08004B, [0x1000], 47, 0⟩
def PAT_BIT_ERR : Row := ⟨0x08004C, [(0x1000, 8)], .LDS, .rc, [⟨47, 0, 0, .rc, []⟩]⟩
def PAT_BIT_ERR.COUNT : FRef := ⟨0x08004C, [0x1000], 47, 0⟩
def FFE_TAP : Row := ⟨0x080080, [(0x1000, 9), (0x1, 33)], .LDS, .st, [⟨15, 0, 0, .st, []⟩]⟩
def FFE_TAP.COEF : FRef := ⟨0x080080, [0x1000, 0x1], 15, 0⟩
def NL_TAP : Row := ⟨0x0800A1, [(0x1000, 9), (0x1, 6)], .LDS, .st, [⟨15, 0, 0, .st, []⟩]⟩
def NL_TAP.COEF : FRef := ⟨0x0800A1, [0x1000, 0x1], 15, 0⟩
def DFE_TAP : Row := ⟨0x0800A7, [(0x1000, 9)], .LDS, .st, [⟨15, 0, 0, .st, []⟩]⟩
def DFE_TAP.COEF : FRef := ⟨0x0800A7, [0x1000], 15, 0⟩
def MLSE_H : Row := ⟨0x0800A8, [(0x1000, 9), (0x1, 4)], .LDS, .st, [⟨15, 0, 0, .st, []⟩]⟩
def MLSE_H.COEF : FRef := ⟨0x0800A8, [0x1000, 0x1], 15, 0⟩
def TX_CTL : Row := ⟨0x0800C0, [(0x1000, 8)], .LDS, .st, [⟨21, 16, 0x1e, .st, [(61, 63)]⟩, ⟨15, 12, 2, .st, [(9, 15)]⟩, ⟨11, 9, 4, .st, [(5, 7)]⟩, ⟨8, 8, 0, .st, []⟩, ⟨7, 7, 0, .st, []⟩, ⟨6, 5, 0, .st, [(3, 3)]⟩]⟩
def TX_CTL.AMP : FRef := ⟨0x0800C0, [0x1000], 21, 16⟩
def TX_CTL.FIR_MAIN : FRef := ⟨0x0800C0, [0x1000], 15, 12⟩
def TX_CTL.SET_SEL : FRef := ⟨0x0800C0, [0x1000], 11, 9⟩
def TX_CTL.PRECODE_TX : FRef := ⟨0x0800C0, [0x1000], 8, 8⟩
def TX_CTL.TX_POL : FRef := ⟨0x0800C0, [0x1000], 7, 7⟩
def TX_CTL.SQ_MODE : FRef := ⟨0x0800C0, [0x1000], 6, 5⟩
def TX_STAT : Row := ⟨0x0800C1, [(0x1000, 8)], .LDS, .ro, [⟨8, 8, 0, .ro, []⟩, ⟨7, 6, 2, .ro, []⟩, ⟨5, 4, 0, .ro, []⟩]⟩
def TX_STAT.SETTLING : FRef := ⟨0x0800C1, [0x1000], 8, 8⟩
def TX_STAT.SQ_NOW : FRef := ⟨0x0800C1, [0x1000], 7, 6⟩
def TX_STAT.SET_NOW : FRef := ⟨0x0800C1, [0x1000], 5, 4⟩
def TX_DAC_TRIM : Row := ⟨0x0800C2, [(0x1000, 8), (0x1, 4)], .LTA, .st, [⟨17, 12, 0, .st, [(32, 32)]⟩, ⟨11, 6, 0, .st, [(32, 32)]⟩, ⟨5, 0, 0, .st, [(32, 32)]⟩]⟩
def TX_DAC_TRIM.SKEW : FRef := ⟨0x0800C2, [0x1000, 0x1], 17, 12⟩
def TX_DAC_TRIM.GAIN : FRef := ⟨0x0800C2, [0x1000, 0x1], 11, 6⟩
def TX_DAC_TRIM.OFFSET : FRef := ⟨0x0800C2, [0x1000, 0x1], 5, 0⟩
def TX_EVT : Row := ⟨0x0800C6, [(0x1000, 8)], .LDS, .w1c, [⟨3, 3, 0, .w1c, []⟩, ⟨2, 2, 0, .w1c, []⟩, ⟨1, 1, 0, .w1c, []⟩, ⟨0, 0, 0, .w1c, []⟩]⟩
def TX_EVT.MASK_SQ : FRef := ⟨0x0800C6, [0x1000], 3, 3⟩
def TX_EVT.MASK_VIOL : FRef := ⟨0x0800C6, [0x1000], 2, 2⟩
def TX_EVT.SET_SWITCH : FRef := ⟨0x0800C6, [0x1000], 1, 1⟩
def TX_EVT.SAT : FRef := ⟨0x0800C6, [0x1000], 0, 0⟩
def TX_SAT_CNT : Row := ⟨0x0800C7, [(0x1000, 8)], .LDS, .rc, [⟨47, 0, 0, .rc, []⟩]⟩
def TX_SAT_CNT.COUNT : FRef := ⟨0x0800C7, [0x1000], 47, 0⟩
def SPEC_CTL : Row := ⟨0x0800C8, [(0x1000, 8)], .LDS, .st, [⟨6, 6, 0, .st, []⟩, ⟨5, 2, 3, .st, [(0, 0)]⟩, ⟨0, 0, 1, .st, []⟩]⟩
def SPEC_CTL.MASK_ACT : FRef := ⟨0x0800C8, [0x1000], 6, 6⟩
def SPEC_CTL.MASK_PERSIST : FRef := ⟨0x0800C8, [0x1000], 5, 2⟩
def SPEC_CTL.SPEC_EN : FRef := ⟨0x0800C8, [0x1000], 0, 0⟩
def TX_MASK : Row := ⟨0x0800C9, [(0x1000, 8), (0x1, 2)], .LDS, .st, [⟨47, 0, 0, .st, []⟩]⟩
def TX_MASK.LIMITS : FRef := ⟨0x0800C9, [0x1000, 0x1], 47, 0⟩
def TX_MASK2 : Row := ⟨0x0800CB, [(0x1000, 8)], .LDS, .st, [⟨31, 0, 0, .st, []⟩]⟩
def TX_MASK2.LIMITS : FRef := ⟨0x0800CB, [0x1000], 31, 0⟩
def TX_SPEC : Row := ⟨0x0800CC, [(0x1000, 8), (0x1, 2)], .LDS, .sn, [⟨47, 0, 0, .sn, []⟩]⟩
def TX_SPEC.BINS : FRef := ⟨0x0800CC, [0x1000, 0x1], 47, 0⟩
def TX_SPEC2 : Row := ⟨0x0800CE, [(0x1000, 8)], .LDS, .sn, [⟨31, 0, 0, .sn, []⟩]⟩
def TX_SPEC2.BINS : FRef := ⟨0x0800CE, [0x1000], 31, 0⟩
def TX_SPEC_STAT : Row := ⟨0x0800CF, [(0x1000, 8)], .LDS, .sn, [⟨23, 8, 0, .sn, []⟩, ⟨7, 0, 0, .sn, []⟩]⟩
def TX_SPEC_STAT.VIOL_BINS : FRef := ⟨0x0800CF, [0x1000], 23, 8⟩
def TX_SPEC_STAT.TOT : FRef := ⟨0x0800CF, [0x1000], 7, 0⟩
def SPEC_VIOL_CNT : Row := ⟨0x0800D0, [(0x1000, 8)], .LDS, .rc, [⟨47, 0, 0, .rc, []⟩]⟩
def SPEC_VIOL_CNT.COUNT : FRef := ⟨0x0800D0, [0x1000], 47, 0⟩
def MIG_CTL : Row := ⟨0x088100, [], .LFD, .st, [⟨37, 37, 1, .st, []⟩, ⟨36, 29, 0x40, .st, [(0, 0)]⟩, ⟨28, 25, 4, .st, [(0, 0)]⟩, ⟨24, 21, 8, .st, [(0, 0)]⟩, ⟨20, 13, 0x10, .st, []⟩, ⟨12, 10, 2, .st, []⟩, ⟨9, 7, 0, .st, []⟩, ⟨6, 4, 0, .st, []⟩, ⟨3, 0, 0, .st, []⟩]⟩
def MIG_CTL.TAKEOVER_EN : FRef := ⟨0x088100, [], 37, 37⟩
def MIG_CTL.CONV_TIMEOUT : FRef := ⟨0x088100, [], 36, 29⟩
def MIG_CTL.CONV_MIN : FRef := ⟨0x088100, [], 28, 25⟩
def MIG_CTL.AGREE_TRIES : FRef := ⟨0x088100, [], 24, 21⟩
def MIG_CTL.AGREE_ABS : FRef := ⟨0x088100, [], 20, 13⟩
def MIG_CTL.AGREE_SLACK : FRef := ⟨0x088100, [], 12, 10⟩
def MIG_CTL.TARGET : FRef := ⟨0x088100, [], 9, 7⟩
def MIG_CTL.CMD : FRef := ⟨0x088100, [], 6, 4⟩
def MIG_CTL.SEQ : FRef := ⟨0x088100, [], 3, 0⟩
def MIG_STAT : Row := ⟨0x088101, [], .LFD, .ro, [⟨35, 28, 0, .ro, []⟩, ⟨27, 20, 0, .ro, []⟩, ⟨19, 16, 0, .ro, []⟩, ⟨15, 12, 0, .ro, []⟩, ⟨11, 11, 1, .ro, []⟩, ⟨10, 8, 0, .ro, []⟩, ⟨3, 0, 0, .ro, []⟩]⟩
def MIG_STAT.LAST_RESULT : FRef := ⟨0x088101, [], 35, 28⟩
def MIG_STAT.RETIRED_MASK : FRef := ⟨0x088101, [], 27, 20⟩
def MIG_STAT.TRIES_USED : FRef := ⟨0x088101, [], 19, 16⟩
def MIG_STAT.SEQ_DONE : FRef := ⟨0x088101, [], 15, 12⟩
def MIG_STAT.FLOAT_OK : FRef := ⟨0x088101, [], 11, 11⟩
def MIG_STAT.LANE : FRef := ⟨0x088101, [], 10, 8⟩
def MIG_STAT.PHASE : FRef := ⟨0x088101, [], 3, 0⟩
def MIG_EVT : Row := ⟨0x088102, [], .LFD, .w1c, [⟨5, 5, 0, .w1c, []⟩, ⟨4, 4, 0, .w1c, []⟩, ⟨3, 3, 0, .w1c, []⟩, ⟨2, 2, 0, .w1c, []⟩, ⟨1, 1, 0, .w1c, []⟩, ⟨0, 0, 0, .w1c, []⟩]⟩
def MIG_EVT.TAKEOVER_FAIL : FRef := ⟨0x088102, [], 5, 5⟩
def MIG_EVT.FLOAT_FAULT : FRef := ⟨0x088102, [], 4, 4⟩
def MIG_EVT.TAKEOVER : FRef := ⟨0x088102, [], 3, 3⟩
def MIG_EVT.ABORT : FRef := ⟨0x088102, [], 2, 2⟩
def MIG_EVT.RETURNED : FRef := ⟨0x088102, [], 1, 1⟩
def MIG_EVT.SWAPPED : FRef := ⟨0x088102, [], 0, 0⟩
def AGREE_LAST : Row := ⟨0x088103, [], .LFD, .ro, [⟨47, 40, 0, .ro, []⟩, ⟨39, 20, 0, .ro, []⟩, ⟨19, 0, 0, .ro, []⟩]⟩
def AGREE_LAST.UNC : FRef := ⟨0x088103, [], 47, 40⟩
def AGREE_LAST.E_CAND : FRef := ⟨0x088103, [], 39, 20⟩
def AGREE_LAST.E_SERV : FRef := ⟨0x088103, [], 19, 0⟩
def SWAP_CNT : Row := ⟨0x088104, [], .LFD, .rc, [⟨47, 0, 0, .rc, []⟩]⟩
def SWAP_CNT.COUNT : FRef := ⟨0x088104, [], 47, 0⟩
def ABORT_CNT : Row := ⟨0x088105, [], .LFD, .rc, [⟨47, 0, 0, .rc, []⟩]⟩
def ABORT_CNT.COUNT : FRef := ⟨0x088105, [], 47, 0⟩
def TXOBS_CTL : Row := ⟨0x088110, [], .LFD, .st, [⟨4, 4, 0, .st, []⟩, ⟨3, 0, 0, .st, [(9, 15)]⟩]⟩
def TXOBS_CTL.KEY : FRef := ⟨0x088110, [], 4, 4⟩
def TXOBS_CTL.ACC_TICKS : FRef := ⟨0x088110, [], 3, 0⟩
def TXOBS_STAT : Row := ⟨0x088111, [], .LFD, .ro, [⟨47, 40, 0, .ro, []⟩, ⟨39, 24, 0, .ro, []⟩, ⟨23, 16, 0, .ro, []⟩, ⟨15, 8, 0, .ro, []⟩, ⟨0, 0, 0, .ro, []⟩]⟩
def TXOBS_STAT.RESTARTS : FRef := ⟨0x088111, [], 47, 40⟩
def TXOBS_STAT.PERIOD_SEQ : FRef := ⟨0x088111, [], 39, 24⟩
def TXOBS_STAT.DELAY : FRef := ⟨0x088111, [], 23, 16⟩
def TXOBS_STAT.CORR : FRef := ⟨0x088111, [], 15, 8⟩
def TXOBS_STAT.ALIGNED : FRef := ⟨0x088111, [], 0, 0⟩
def SKIM_CTL : Row := ⟨0x088120, [], .LFD, .st, [⟨35, 32, 0xa, .st, []⟩, ⟨31, 24, 0x10, .st, [(0, 0)]⟩, ⟨23, 16, 0x20, .st, [(0, 0)]⟩, ⟨15, 8, 0x30, .st, [(0, 0)]⟩, ⟨7, 0, 0x40, .st, [(0, 0)]⟩]⟩
def SKIM_CTL.MAX_EXP : FRef := ⟨0x088120, [], 35, 32⟩
def SKIM_CTL.THRESH3 : FRef := ⟨0x088120, [], 31, 24⟩
def SKIM_CTL.THRESH2 : FRef := ⟨0x088120, [], 23, 16⟩
def SKIM_CTL.THRESH1 : FRef := ⟨0x088120, [], 15, 8⟩
def SKIM_CTL.THRESH0 : FRef := ⟨0x088120, [], 7, 0⟩
def SKIM_NEXT : Row := ⟨0x088121, [], .LFD, .ro, [⟨3, 3, 0, .ro, []⟩, ⟨2, 0, 0, .ro, []⟩]⟩
def SKIM_NEXT.VALID : FRef := ⟨0x088121, [], 3, 3⟩
def SKIM_NEXT.LANE : FRef := ⟨0x088121, [], 2, 0⟩
def TXOBS_SUM : Row := ⟨0x088140, [(0x1, 64)], .LFD, .ro, [⟨47, 0, 0, .ro, []⟩]⟩
def TXOBS_SUM.SUM : FRef := ⟨0x088140, [0x1], 47, 0⟩
def TXOBS_CNT : Row := ⟨0x088180, [(0x1, 64)], .LFD, .ro, [⟨47, 0, 0, .ro, []⟩]⟩
def TXOBS_CNT.COUNT : FRef := ⟨0x088180, [0x1], 47, 0⟩
def RND_FIR : Row := ⟨0x080200, [(0x1000, 8), (0x80, 4), (0x1, 9)], .LDS, .st, [⟨15, 0, 0, .st, []⟩]⟩
def RND_FIR.TAP : FRef := ⟨0x080200, [0x1000, 0x80, 0x1], 15, 0⟩
def RND_PD : Row := ⟨0x080240, [(0x1000, 8), (0x80, 4), (0x1, 64)], .LDS, .st, [⟨15, 0, 0, .st, []⟩]⟩
def RND_PD.ENTRY : FRef := ⟨0x080240, [0x1000, 0x80, 0x1], 15, 0⟩
def HS_RX_CTL : Row := ⟨0x100000, [(0x800, 16)], .HSP, .st, [⟨6, 6, 0, .st, []⟩, ⟨5, 5, 1, .st, []⟩, ⟨4, 4, 0, .st, []⟩, ⟨3, 0, 6, .st, []⟩]⟩
def HS_RX_CTL.RX_POL : FRef := ⟨0x100000, [0x800], 6, 6⟩
def HS_RX_CTL.ADAPT_EN : FRef := ⟨0x100000, [0x800], 5, 5⟩
def HS_RX_CTL.CTLE_OVR : FRef := ⟨0x100000, [0x800], 4, 4⟩
def HS_RX_CTL.CTLE_PEAK : FRef := ⟨0x100000, [0x800], 3, 0⟩
def HS_RX_STAT : Row := ⟨0x100001, [(0x800, 16)], .HSP, .ro, [⟨13, 6, 0, .ro, []⟩, ⟨5, 2, 6, .ro, []⟩, ⟨1, 1, 0, .ro, []⟩, ⟨0, 0, 0, .ro, []⟩]⟩
def HS_RX_STAT.SNR : FRef := ⟨0x100001, [0x800], 13, 6⟩
def HS_RX_STAT.CTLE_NOW : FRef := ⟨0x100001, [0x800], 5, 2⟩
def HS_RX_STAT.CDR_LOCK : FRef := ⟨0x100001, [0x800], 1, 1⟩
def HS_RX_STAT.SIG_DET : FRef := ⟨0x100001, [0x800], 0, 0⟩
def HS_TX_CTL : Row := ⟨0x100002, [(0x800, 16)], .HSP, .st, [⟨14, 14, 0, .st, []⟩, ⟨13, 13, 0, .st, []⟩, ⟨12, 10, 0, .st, []⟩, ⟨9, 7, 0, .st, []⟩, ⟨6, 5, 2, .st, []⟩, ⟨4, 0, 0x18, .st, [(0, 1)]⟩]⟩
def HS_TX_CTL.TX_POL : FRef := ⟨0x100002, [0x800], 14, 14⟩
def HS_TX_CTL.TX_EQ_SRC : FRef := ⟨0x100002, [0x800], 13, 13⟩
def HS_TX_CTL.CMIS_PRE : FRef := ⟨0x100002, [0x800], 12, 10⟩
def HS_TX_CTL.CMIS_POST : FRef := ⟨0x100002, [0x800], 9, 7⟩
def HS_TX_CTL.CMIS_AMP : FRef := ⟨0x100002, [0x800], 6, 5⟩
def HS_TX_CTL.TX_AMP : FRef := ⟨0x100002, [0x800], 4, 0⟩
def HS_TX_FIR0 : Row := ⟨0x100003, [(0x800, 16)], .HSP, .st, [⟨29, 20, 0, .st, []⟩, ⟨19, 10, 0, .st, []⟩, ⟨9, 0, 0x100, .st, []⟩]⟩
def HS_TX_FIR0.CM2 : FRef := ⟨0x100003, [0x800], 29, 20⟩
def HS_TX_FIR0.CM1 : FRef := ⟨0x100003, [0x800], 19, 10⟩
def HS_TX_FIR0.C0 : FRef := ⟨0x100003, [0x800], 9, 0⟩
def HS_TX_FIR1 : Row := ⟨0x100004, [(0x800, 16)], .HSP, .st, [⟨29, 20, 0, .st, []⟩, ⟨19, 10, 0, .st, []⟩, ⟨9, 0, 0, .st, []⟩]⟩
def HS_TX_FIR1.C1 : FRef := ⟨0x100004, [0x800], 29, 20⟩
def HS_TX_FIR1.C2 : FRef := ⟨0x100004, [0x800], 19, 10⟩
def HS_TX_FIR1.C3 : FRef := ⟨0x100004, [0x800], 9, 0⟩
def HS_EVT : Row := ⟨0x100005, [(0x800, 16)], .HSP, .w1c, [⟨1, 1, 0, .w1c, []⟩, ⟨0, 0, 0, .w1c, []⟩]⟩
def HS_EVT.SIG_LOST : FRef := ⟨0x100005, [0x800], 1, 1⟩
def HS_EVT.CDR_LOST : FRef := ⟨0x100005, [0x800], 0, 0⟩
def HS_PAT_CTL : Row := ⟨0x100006, [(0x800, 16)], .HSP, .st, [⟨10, 10, 0, .st, []⟩, ⟨9, 8, 0, .st, []⟩, ⟨7, 6, 0, .st, []⟩]⟩
def HS_PAT_CTL.INJECT : FRef := ⟨0x100006, [0x800], 10, 10⟩
def HS_PAT_CTL.TX_PAT : FRef := ⟨0x100006, [0x800], 9, 8⟩
def HS_PAT_CTL.RX_PAT : FRef := ⟨0x100006, [0x800], 7, 6⟩
def HS_PAT_STAT : Row := ⟨0x100007, [(0x800, 16)], .HSP, .ro, [⟨15, 8, 0, .ro, []⟩, ⟨1, 0, 0, .ro, []⟩]⟩
def HS_PAT_STAT.RESYNC : FRef := ⟨0x100007, [0x800], 15, 8⟩
def HS_PAT_STAT.CHK_STATE : FRef := ⟨0x100007, [0x800], 1, 0⟩
def HS_PAT_SYM_CNT : Row := ⟨0x100008, [(0x800, 16)], .HSP, .rc, [⟨47, 0, 0, .rc, []⟩]⟩
def HS_PAT_SYM_CNT.COUNT : FRef := ⟨0x100008, [0x800], 47, 0⟩
def HS_PAT_SYM_ERR : Row := ⟨0x100009, [(0x800, 16)], .HSP, .rc, [⟨47, 0, 0, .rc, []⟩]⟩
def HS_PAT_SYM_ERR.COUNT : FRef := ⟨0x100009, [0x800], 47, 0⟩
def HS_PAT_BIT_ERR : Row := ⟨0x10000A, [(0x800, 16)], .HSP, .rc, [⟨47, 0, 0, .rc, []⟩]⟩
def HS_PAT_BIT_ERR.COUNT : FRef := ⟨0x10000A, [0x800], 47, 0⟩
def HS_CDR_LOL_CNT : Row := ⟨0x10000B, [(0x800, 16)], .HSP, .rc, [⟨47, 0, 0, .rc, []⟩]⟩
def HS_CDR_LOL_CNT.COUNT : FRef := ⟨0x10000B, [0x800], 47, 0⟩
def OUTER_CFG : Row := ⟨0x180000, [], .CTL, .st, [⟨47, 0, 0, .st, []⟩]⟩
def OUTER_CFG.PCS : FRef := ⟨0x180000, [], 47, 0⟩
def IN_CFG : Row := ⟨0x180100, [(0x40, 8)], .CTL, .st, [⟨3, 2, 2, .st, [(3, 3)]⟩, ⟨1, 0, 0, .st, [(3, 3)]⟩]⟩
def IN_CFG.MARK_MODE : FRef := ⟨0x180100, [0x40], 3, 2⟩
def IN_CFG.EFFORT : FRef := ⟨0x180100, [0x40], 1, 0⟩
def IN_STAT : Row := ⟨0x180101, [(0x40, 8)], .CTL, .ro, [⟨3, 3, 0, .ro, []⟩, ⟨2, 2, 0, .ro, []⟩, ⟨1, 0, 0, .ro, []⟩]⟩
def IN_STAT.FORCING : FRef := ⟨0x180101, [0x40], 3, 3⟩
def IN_STAT.THROTTLED : FRef := ⟨0x180101, [0x40], 2, 2⟩
def IN_STAT.EFFORT_NOW : FRef := ⟨0x180101, [0x40], 1, 0⟩
def IN_EVT : Row := ⟨0x180102, [(0x40, 8)], .CTL, .w1c, [⟨3, 3, 0, .w1c, []⟩, ⟨2, 2, 0, .w1c, []⟩, ⟨1, 1, 0, .w1c, []⟩, ⟨0, 0, 0, .w1c, []⟩]⟩
def IN_EVT.MARK_SHORT : FRef := ⟨0x180102, [0x40], 3, 3⟩
def IN_EVT.EFFORT_SWITCH : FRef := ⟨0x180102, [0x40], 2, 2⟩
def IN_EVT.FORCED_START : FRef := ⟨0x180102, [0x40], 1, 1⟩
def IN_EVT.UNC_SEEN : FRef := ⟨0x180102, [0x40], 0, 0⟩
def IN_CW_CNT : Row := ⟨0x180103, [(0x40, 8)], .CTL, .rc, [⟨47, 0, 0, .rc, []⟩]⟩
def IN_CW_CNT.COUNT : FRef := ⟨0x180103, [0x40], 47, 0⟩
def IN_CORR_CNT : Row := ⟨0x180104, [(0x40, 8)], .CTL, .rc, [⟨47, 0, 0, .rc, []⟩]⟩
def IN_CORR_CNT.COUNT : FRef := ⟨0x180104, [0x40], 47, 0⟩
def IN_BIT_CNT : Row := ⟨0x180105, [(0x40, 8)], .CTL, .rc, [⟨47, 0, 0, .rc, []⟩]⟩
def IN_BIT_CNT.COUNT : FRef := ⟨0x180105, [0x40], 47, 0⟩
def IN_UNC_CNT : Row := ⟨0x180106, [(0x40, 8)], .CTL, .rc, [⟨47, 0, 0, .rc, []⟩]⟩
def IN_UNC_CNT.COUNT : FRef := ⟨0x180106, [0x40], 47, 0⟩
def IN_FORCED_CNT : Row := ⟨0x180107, [(0x40, 8)], .CTL, .rc, [⟨47, 0, 0, .rc, []⟩]⟩
def IN_FORCED_CNT.COUNT : FRef := ⟨0x180107, [0x40], 47, 0⟩
def IN_SHORT_CNT : Row := ⟨0x180108, [(0x40, 8)], .CTL, .rc, [⟨47, 0, 0, .rc, []⟩]⟩
def IN_SHORT_CNT.COUNT : FRef := ⟨0x180108, [0x40], 47, 0⟩
def IN_HIST : Row := ⟨0x180109, [(0x40, 8), (0x1, 7)], .CTL, .rc, [⟨47, 0, 0, .rc, []⟩]⟩
def IN_HIST.COUNT : FRef := ⟨0x180109, [0x40, 0x1], 47, 0⟩
def OMI_STAT : Row := ⟨0x181000, [(0x40, 16)], .CTL, .ro, [⟨3, 3, 0, .ro, []⟩, ⟨0, 0, 0, .ro, []⟩]⟩
def OMI_STAT.GROUP_LEAD : FRef := ⟨0x181000, [0x40], 3, 3⟩
def OMI_STAT.LOCK : FRef := ⟨0x181000, [0x40], 0, 0⟩
def OMI_EVT : Row := ⟨0x181001, [(0x40, 16)], .CTL, .w1c, [⟨2, 2, 0, .w1c, []⟩, ⟨1, 1, 0, .w1c, []⟩, ⟨0, 0, 0, .w1c, []⟩]⟩
def OMI_EVT.UNC_SEEN : FRef := ⟨0x181001, [0x40], 2, 2⟩
def OMI_EVT.LOCK_GAINED : FRef := ⟨0x181001, [0x40], 1, 1⟩
def OMI_EVT.LOCK_LOST : FRef := ⟨0x181001, [0x40], 0, 0⟩
def OMI_CNT : Row := ⟨0x181002, [(0x40, 16), (0x1, 6)], .CTL, .rc, [⟨47, 0, 0, .rc, []⟩]⟩
def OMI_CNT.COUNT : FRef := ⟨0x181002, [0x40, 0x1], 47, 0⟩
def OMI_HIST : Row := ⟨0x181010, [(0x40, 16), (0x1, 16)], .CTL, .rc, [⟨47, 0, 0, .rc, []⟩]⟩
def OMI_HIST.COUNT : FRef := ⟨0x181010, [0x40, 0x1], 47, 0⟩
def OME_STAT : Row := ⟨0x181020, [(0x40, 16)], .CTL, .ro, [⟨3, 3, 0, .ro, []⟩, ⟨0, 0, 0, .ro, []⟩]⟩
def OME_STAT.GROUP_LEAD : FRef := ⟨0x181020, [0x40], 3, 3⟩
def OME_STAT.LOCK : FRef := ⟨0x181020, [0x40], 0, 0⟩
def OME_EVT : Row := ⟨0x181021, [(0x40, 16)], .CTL, .w1c, [⟨2, 2, 0, .w1c, []⟩, ⟨1, 1, 0, .w1c, []⟩, ⟨0, 0, 0, .w1c, []⟩]⟩
def OME_EVT.UNC_SEEN : FRef := ⟨0x181021, [0x40], 2, 2⟩
def OME_EVT.LOCK_GAINED : FRef := ⟨0x181021, [0x40], 1, 1⟩
def OME_EVT.LOCK_LOST : FRef := ⟨0x181021, [0x40], 0, 0⟩
def OME_CNT : Row := ⟨0x181022, [(0x40, 16), (0x1, 6)], .CTL, .rc, [⟨47, 0, 0, .rc, []⟩]⟩
def OME_CNT.COUNT : FRef := ⟨0x181022, [0x40, 0x1], 47, 0⟩
def OME_HIST : Row := ⟨0x181030, [(0x40, 16), (0x1, 16)], .CTL, .rc, [⟨47, 0, 0, .rc, []⟩]⟩
def OME_HIST.COUNT : FRef := ⟨0x181030, [0x40, 0x1], 47, 0⟩
def XBAR_RX : Row := ⟨0x1A0000, [], .CTL, .st, [⟨47, 0, 0xfac688fac688, .st, []⟩]⟩
def XBAR_RX.SEL : FRef := ⟨0x1A0000, [], 47, 0⟩
def XBAR_TX : Row := ⟨0x1A0001, [], .CTL, .st, [⟨47, 0, 0xfac688fac688, .st, []⟩]⟩
def XBAR_TX.SEL : FRef := ⟨0x1A0001, [], 47, 0⟩
def GBX_CFG : Row := ⟨0x1A0002, [], .CTL, .st, [⟨4, 4, 0, .st, []⟩, ⟨3, 0, 5, .st, [(0, 0)]⟩]⟩
def GBX_CFG.NOLOCK_TX : FRef := ⟨0x1A0002, [], 4, 4⟩
def GBX_CFG.AM_LOL : FRef := ⟨0x1A0002, [], 3, 0⟩
def DPS : Row := ⟨0x1A0003, [], .CTL, .st, [⟨31, 0, 0, .st, []⟩]⟩
def DPS.CODES : FRef := ⟨0x1A0003, [], 31, 0⟩
def PAIR_STAT : Row := ⟨0x1A0010, [(0x1, 8)], .CTL, .ro, [⟨18, 16, 0, .ro, []⟩, ⟨15, 13, 0, .ro, []⟩, ⟨12, 3, 0, .ro, []⟩, ⟨2, 2, 0, .ro, []⟩, ⟨1, 1, 0, .ro, []⟩, ⟨0, 0, 0, .ro, []⟩]⟩
def PAIR_STAT.TYPE_B : FRef := ⟨0x1A0010, [0x1], 18, 16⟩
def PAIR_STAT.TYPE_A : FRef := ⟨0x1A0010, [0x1], 15, 13⟩
def PAIR_STAT.SKEW : FRef := ⟨0x1A0010, [0x1], 12, 3⟩
def PAIR_STAT.DESKEWED : FRef := ⟨0x1A0010, [0x1], 2, 2⟩
def PAIR_STAT.LOCK_B : FRef := ⟨0x1A0010, [0x1], 1, 1⟩
def PAIR_STAT.LOCK_A : FRef := ⟨0x1A0010, [0x1], 0, 0⟩
def PAIR_EVT : Row := ⟨0x1A0020, [(0x1, 8)], .CTL, .w1c, [⟨2, 2, 0, .w1c, []⟩, ⟨1, 1, 0, .w1c, []⟩, ⟨0, 0, 0, .w1c, []⟩]⟩
def PAIR_EVT.DESKEW_FAIL : FRef := ⟨0x1A0020, [0x1], 2, 2⟩
def PAIR_EVT.PCS_MISMATCH : FRef := ⟨0x1A0020, [0x1], 1, 1⟩
def PAIR_EVT.AM_LOST : FRef := ⟨0x1A0020, [0x1], 0, 0⟩
def AM_LOL_CNT : Row := ⟨0x1A0030, [(0x1, 16)], .CTL, .rc, [⟨47, 0, 0, .rc, []⟩]⟩
def AM_LOL_CNT.COUNT : FRef := ⟨0x1A0030, [0x1], 47, 0⟩
def PLB_CTL : Row := ⟨0x200000, [], .PLB, .st, [⟨47, 44, 9, .st, [(10, 15)]⟩, ⟨43, 40, 8, .st, [(10, 15)]⟩, ⟨39, 37, 0, .st, [(6, 7)]⟩, ⟨36, 34, 0, .st, [(6, 7)]⟩, ⟨33, 31, 0, .st, [(6, 7)]⟩, ⟨30, 28, 0, .st, [(6, 7)]⟩, ⟨27, 24, 3, .st, []⟩, ⟨23, 20, 8, .st, []⟩, ⟨19, 16, 4, .st, []⟩, ⟨15, 12, 0xa, .st, []⟩, ⟨11, 4, 0xb, .st, []⟩, ⟨3, 1, 4, .st, []⟩, ⟨0, 0, 0, .st, []⟩]⟩
def PLB_CTL.SRC_LINK_B : FRef := ⟨0x200000, [], 47, 44⟩
def PLB_CTL.SRC_LINK_A : FRef := ⟨0x200000, [], 43, 40⟩
def PLB_CTL.SLOT0 : FRef := ⟨0x200000, [], 39, 37⟩
def PLB_CTL.SLOT1 : FRef := ⟨0x200000, [], 36, 34⟩
def PLB_CTL.SLOT2 : FRef := ⟨0x200000, [], 33, 31⟩
def PLB_CTL.SLOT3 : FRef := ⟨0x200000, [], 30, 28⟩
def PLB_CTL.KP : FRef := ⟨0x200000, [], 27, 24⟩
def PLB_CTL.KI : FRef := ⟨0x200000, [], 23, 20⟩
def PLB_CTL.LOCK_THRESH : FRef := ⟨0x200000, [], 19, 16⟩
def PLB_CTL.STEP_THRESH : FRef := ⟨0x200000, [], 15, 12⟩
def PLB_CTL.HOLD_LIMIT : FRef := ⟨0x200000, [], 11, 4⟩
def PLB_CTL.LOSS_TICKS : FRef := ⟨0x200000, [], 3, 1⟩
def PLB_CTL.PPS_EDGE : FRef := ⟨0x200000, [], 0, 0⟩
def INC_BASE : Row := ⟨0x200001, [], .PLB, .st, [⟨47, 0, 0x147ae147ae1, .st, []⟩]⟩
def INC_BASE.INC : FRef := ⟨0x200001, [], 47, 0⟩
def TIME_SEC : Row := ⟨0x200002, [], .PLB, .sn, [⟨47, 0, 0, .sn, []⟩]⟩
def TIME_SEC.SEC : FRef := ⟨0x200002, [], 47, 0⟩
def TIME_NS : Row := ⟨0x200003, [], .PLB, .sn, [⟨47, 16, 0, .sn, []⟩, ⟨15, 0, 0, .sn, []⟩]⟩
def TIME_NS.NS : FRef := ⟨0x200003, [], 47, 16⟩
def TIME_NS.FRAC : FRef := ⟨0x200003, [], 15, 0⟩
def ADJ_CTL : Row := ⟨0x200004, [], .PLB, .st, [⟨15, 8, 0x64, .st, [(0, 0)]⟩, ⟨7, 4, 0, .st, [(5, 15)]⟩, ⟨3, 0, 0, .st, []⟩]⟩
def ADJ_CTL.SLEW_RATE : FRef := ⟨0x200004, [], 15, 8⟩
def ADJ_CTL.CMD : FRef := ⟨0x200004, [], 7, 4⟩
def ADJ_CTL.SEQ : FRef := ⟨0x200004, [], 3, 0⟩
def ADJ_SEC : Row := ⟨0x200005, [], .PLB, .st, [⟨47, 0, 0, .st, []⟩]⟩
def ADJ_SEC.SEC : FRef := ⟨0x200005, [], 47, 0⟩
def ADJ_NS : Row := ⟨0x200006, [], .PLB, .st, [⟨47, 0, 0, .st, []⟩]⟩
def ADJ_NS.NS : FRef := ⟨0x200006, [], 47, 0⟩
def ADJ_STAT : Row := ⟨0x200007, [], .PLB, .ro, [⟨12, 12, 0, .ro, []⟩, ⟨11, 4, 0, .ro, []⟩, ⟨3, 0, 0, .ro, []⟩]⟩
def ADJ_STAT.SLEWING : FRef := ⟨0x200007, [], 12, 12⟩
def ADJ_STAT.RESULT : FRef := ⟨0x200007, [], 11, 4⟩
def ADJ_STAT.SEQ_DONE : FRef := ⟨0x200007, [], 3, 0⟩
def DISC_STAT : Row := ⟨0x200008, [], .PLB, .ro, [⟨47, 16, 0, .ro, []⟩, ⟨15, 12, 0, .ro, []⟩, ⟨11, 9, 0, .ro, []⟩, ⟨2, 0, 0, .ro, []⟩]⟩
def DISC_STAT.HOLD_TICKS : FRef := ⟨0x200008, [], 47, 16⟩
def DISC_STAT.QUALIFIED : FRef := ⟨0x200008, [], 15, 12⟩
def DISC_STAT.SRC_NOW : FRef := ⟨0x200008, [], 11, 9⟩
def DISC_STAT.STATE : FRef := ⟨0x200008, [], 2, 0⟩
def DISC_OFS : Row := ⟨0x200009, [], .PLB, .ro, [⟨47, 0, 0, .ro, []⟩]⟩
def DISC_OFS.E : FRef := ⟨0x200009, [], 47, 0⟩
def FREQ_NOW : Row := ⟨0x20000A, [], .PLB, .ro, [⟨47, 0, 0, .ro, []⟩]⟩
def FREQ_NOW.F : FRef := ⟨0x20000A, [], 47, 0⟩
def PLB_EVT : Row := ⟨0x20000B, [], .PLB, .w1c, [⟨19, 16, 0, .w1c, []⟩, ⟨15, 12, 0, .w1c, []⟩, ⟨11, 8, 0, .w1c, []⟩, ⟨6, 6, 0, .w1c, []⟩, ⟨5, 5, 0, .w1c, []⟩, ⟨4, 4, 0, .w1c, []⟩, ⟨3, 3, 0, .w1c, []⟩, ⟨2, 2, 0, .w1c, []⟩, ⟨1, 1, 0, .w1c, []⟩, ⟨0, 0, 0, .w1c, []⟩]⟩
def PLB_EVT.EVT_LATE : FRef := ⟨0x20000B, [], 19, 16⟩
def PLB_EVT.EVT_OVR : FRef := ⟨0x20000B, [], 15, 12⟩
def PLB_EVT.EVT_IN : FRef := ⟨0x20000B, [], 11, 8⟩
def PLB_EVT.ADJ_DONE : FRef := ⟨0x20000B, [], 6, 6⟩
def PLB_EVT.PPS_REJECT : FRef := ⟨0x20000B, [], 5, 5⟩
def PLB_EVT.FREQ_LIM : FRef := ⟨0x20000B, [], 4, 4⟩
def PLB_EVT.OUTLIER : FRef := ⟨0x20000B, [], 3, 3⟩
def PLB_EVT.AUTO_STEP : FRef := ⟨0x20000B, [], 2, 2⟩
def PLB_EVT.SRC_SWITCH : FRef := ⟨0x20000B, [], 1, 1⟩
def PLB_EVT.STATE_CHG : FRef := ⟨0x20000B, [], 0, 0⟩
def PPS_TS_SEC : Row := ⟨0x20000C, [], .PLB, .sn, [⟨47, 0, 0, .sn, []⟩]⟩
def PPS_TS_SEC.SEC : FRef := ⟨0x20000C, [], 47, 0⟩
def PPS_TS_NS : Row := ⟨0x20000D, [], .PLB, .sn, [⟨47, 0, 0, .sn, []⟩]⟩
def PPS_TS_NS.NS : FRef := ⟨0x20000D, [], 47, 0⟩
def PPS_OUT_CTL : Row := ⟨0x20000E, [], .PLB, .st, [⟨47, 24, 0, .st, []⟩, ⟨23, 4, 0x186a0, .st, [(0, 0), (1000000, 1048575)]⟩, ⟨1, 1, 1, .st, []⟩, ⟨0, 0, 0, .st, []⟩]⟩
def PPS_OUT_CTL.OFS : FRef := ⟨0x20000E, [], 47, 24⟩
def PPS_OUT_CTL.WIDTH : FRef := ⟨0x20000E, [], 23, 4⟩
def PPS_OUT_CTL.GATE : FRef := ⟨0x20000E, [], 1, 1⟩
def PPS_OUT_CTL.EN : FRef := ⟨0x20000E, [], 0, 0⟩
def EVT_CFG : Row := ⟨0x200010, [(0x8, 4)], .PLB, .st, [⟨35, 32, 0, .st, []⟩, ⟨31, 16, 1, .st, [(0, 0)]⟩, ⟨15, 3, 0, .st, []⟩, ⟨2, 0, 0, .st, [(6, 7)]⟩]⟩
def EVT_CFG.SEQ : FRef := ⟨0x200010, [0x8], 35, 32⟩
def EVT_CFG.WIDTH : FRef := ⟨0x200010, [0x8], 31, 16⟩
def EVT_CFG.RING : FRef := ⟨0x200010, [0x8], 15, 3⟩
def EVT_CFG.MODE : FRef := ⟨0x200010, [0x8], 2, 0⟩
def EVT_SCHED_SEC : Row := ⟨0x200011, [(0x8, 4)], .PLB, .st, [⟨47, 0, 0, .st, []⟩]⟩
def EVT_SCHED_SEC.SEC : FRef := ⟨0x200011, [0x8], 47, 0⟩
def EVT_SCHED_NS : Row := ⟨0x200012, [(0x8, 4)], .PLB, .st, [⟨47, 0, 0, .st, []⟩]⟩
def EVT_SCHED_NS.NS : FRef := ⟨0x200012, [0x8], 47, 0⟩
def EVT_PERIOD : Row := ⟨0x200013, [(0x8, 4)], .PLB, .st, [⟨47, 0, 0, .st, []⟩]⟩
def EVT_PERIOD.NS : FRef := ⟨0x200013, [0x8], 47, 0⟩
def EVT_TS_SEC : Row := ⟨0x200014, [(0x8, 4)], .PLB, .sn, [⟨47, 0, 0, .sn, []⟩]⟩
def EVT_TS_SEC.SEC : FRef := ⟨0x200014, [0x8], 47, 0⟩
def EVT_TS_NS : Row := ⟨0x200015, [(0x8, 4)], .PLB, .sn, [⟨47, 0, 0, .sn, []⟩]⟩
def EVT_TS_NS.NS : FRef := ⟨0x200015, [0x8], 47, 0⟩
def DLY_LRX : Row := ⟨0x200040, [(0x1, 8)], .PLB, .st, [⟨23, 0, 0, .st, []⟩]⟩
def DLY_LRX.DLY : FRef := ⟨0x200040, [0x1], 23, 0⟩
def DLY_LTX : Row := ⟨0x200048, [(0x1, 8)], .PLB, .st, [⟨23, 0, 0, .st, []⟩]⟩
def DLY_LTX.DLY : FRef := ⟨0x200048, [0x1], 23, 0⟩
def DLY_FLT : Row := ⟨0x200050, [(0x1, 8)], .PLB, .st, [⟨23, 0, 0, .st, []⟩]⟩
def DLY_FLT.DLY : FRef := ⟨0x200050, [0x1], 23, 0⟩
def DLY_HRX : Row := ⟨0x200060, [(0x1, 16)], .PLB, .st, [⟨23, 0, 0, .st, []⟩]⟩
def DLY_HRX.DLY : FRef := ⟨0x200060, [0x1], 23, 0⟩
def DLY_HTX : Row := ⟨0x200070, [(0x1, 16)], .PLB, .st, [⟨23, 0, 0, .st, []⟩]⟩
def DLY_HTX.DLY : FRef := ⟨0x200070, [0x1], 23, 0⟩
def DLY_PPS : Row := ⟨0x200080, [], .PLB, .st, [⟨23, 0, 0, .st, []⟩]⟩
def DLY_PPS.DLY : FRef := ⟨0x200080, [], 23, 0⟩
def LAT : Row := ⟨0x200100, [(0x8, 8), (0x1, 8)], .PLB, .ro, [⟨47, 47, 0, .ro, []⟩, ⟨46, 0, 0, .ro, []⟩]⟩
def LAT.VALID : FRef := ⟨0x200100, [0x8, 0x1], 47, 47⟩
def LAT.NS : FRef := ⟨0x200100, [0x8, 0x1], 46, 0⟩
def TTE_CFG : Row := ⟨0x210000, [(0x1, 2)], .TTE, .st, [⟨45, 33, 0, .st, []⟩, ⟨32, 20, 0, .st, []⟩, ⟨19, 19, 0, .st, []⟩, ⟨18, 18, 0, .st, []⟩, ⟨17, 14, 0xa, .st, []⟩, ⟨13, 13, 0, .st, []⟩, ⟨12, 12, 0, .st, []⟩, ⟨11, 4, 0x14, .st, [(0, 0)]⟩, ⟨0, 0, 0, .st, []⟩]⟩
def TTE_CFG.EVT_RING : FRef := ⟨0x210000, [0x1], 45, 33⟩
def TTE_CFG.REC_RING : FRef := ⟨0x210000, [0x1], 32, 20⟩
def TTE_CFG.REC_EN : FRef := ⟨0x210000, [0x1], 19, 19⟩
def TTE_CFG.PASS : FRef := ⟨0x210000, [0x1], 18, 18⟩
def TTE_CFG.AGE_EXP : FRef := ⟨0x210000, [0x1], 17, 14⟩
def TTE_CFG.FULL_POLICY : FRef := ⟨0x210000, [0x1], 13, 13⟩
def TTE_CFG.TWO_STEP : FRef := ⟨0x210000, [0x1], 12, 12⟩
def TTE_CFG.PRED_TOL : FRef := ⟨0x210000, [0x1], 11, 4⟩
def TTE_CFG.TT_EN : FRef := ⟨0x210000, [0x1], 0, 0⟩
def TTE_HASH : Row := ⟨0x210002, [], .TTE, .st, [⟨15, 0, 0x5a3c, .st, []⟩]⟩
def TTE_HASH.SEED : FRef := ⟨0x210002, [], 15, 0⟩
def TTE_STAT : Row := ⟨0x210003, [], .TTE, .ro, [⟨30, 16, 0, .ro, []⟩, ⟨3, 2, 0, .ro, []⟩, ⟨1, 0, 0, .ro, []⟩]⟩
def TTE_STAT.FLOW_USED : FRef := ⟨0x210003, [], 30, 16⟩
def TTE_STAT.STATE1 : FRef := ⟨0x210003, [], 3, 2⟩
def TTE_STAT.STATE0 : FRef := ⟨0x210003, [], 1, 0⟩
def TTE_EVT : Row := ⟨0x210004, [], .TTE, .w1c, [⟨4, 4, 0, .w1c, []⟩, ⟨3, 3, 0, .w1c, []⟩, ⟨2, 2, 0, .w1c, []⟩, ⟨1, 1, 0, .w1c, []⟩, ⟨0, 0, 0, .w1c, []⟩]⟩
def TTE_EVT.CTX_LOSS : FRef := ⟨0x210004, [], 4, 4⟩
def TTE_EVT.MISPREDICT : FRef := ⟨0x210004, [], 3, 3⟩
def TTE_EVT.CF_SAT : FRef := ⟨0x210004, [], 2, 2⟩
def TTE_EVT.MALFORMED : FRef := ⟨0x210004, [], 1, 1⟩
def TTE_EVT.STATE_CHG : FRef := ⟨0x210004, [], 0, 0⟩
def TTE_CNT : Row := ⟨0x210100, [(0x20, 2), (0x1, 23)], .TTE, .rc, [⟨47, 0, 0, .rc, []⟩]⟩
def TTE_CNT.COUNT : FRef := ⟨0x210100, [0x20, 0x1], 47, 0⟩
def FLT_ADDR : Row := ⟨0x220000, [], .FLM, .rw, [⟨13, 0, 0, .rw, []⟩]⟩
def FLT_ADDR.INDEX : FRef := ⟨0x220000, [], 13, 0⟩
def FLT_CMD : Row := ⟨0x220001, [], .FLM, .wo, [⟨1, 0, 0, .wo, []⟩]⟩
def FLT_CMD.CMD : FRef := ⟨0x220001, [], 1, 0⟩
def FLT_STAT : Row := ⟨0x220002, [], .FLM, .ro, [⟨0, 0, 0, .ro, []⟩]⟩
def FLT_STAT.BUSY : FRef := ⟨0x220002, [], 0, 0⟩
def FLT_DATA : Row := ⟨0x220004, [(0x1, 4)], .FLM, .ro, [⟨47, 0, 0, .ro, []⟩]⟩
def FLT_DATA.DATA : FRef := ⟨0x220004, [0x1], 47, 0⟩
def RNG_CFG : Row := ⟨0x280000, [(0x4, 8192)], .RGS, .st, [⟨47, 28, 0, .st, []⟩, ⟨27, 24, 2, .st, [(0, 1), (13, 15)]⟩, ⟨23, 21, 0, .st, []⟩, ⟨20, 18, 0, .st, [(6, 7)]⟩, ⟨17, 15, 0, .st, [(6, 7)]⟩, ⟨14, 2, 1, .st, []⟩]⟩
def RNG_CFG.BASE : FRef := ⟨0x280000, [0x4], 47, 28⟩
def RNG_CFG.SIZE_EXP : FRef := ⟨0x280000, [0x4], 27, 24⟩
def RNG_CFG.TYPE : FRef := ⟨0x280000, [0x4], 23, 21⟩
def RNG_CFG.PROD : FRef := ⟨0x280000, [0x4], 20, 18⟩
def RNG_CFG.CONS : FRef := ⟨0x280000, [0x4], 17, 15⟩
def RNG_CFG.WMARK : FRef := ⟨0x280000, [0x4], 14, 2⟩
def RNG_PI : Row := ⟨0x280001, [(0x4, 8192)], .RGS, .rw, [⟨15, 0, 0, .rw, []⟩]⟩
def RNG_PI.INDEX : FRef := ⟨0x280001, [0x4], 15, 0⟩
def RNG_CI : Row := ⟨0x280002, [(0x4, 8192)], .RGS, .rw, [⟨15, 0, 0, .rw, []⟩]⟩
def RNG_CI.INDEX : FRef := ⟨0x280002, [0x4], 15, 0⟩
def RNG_STAT : Row := ⟨0x280003, [(0x4, 8192)], .RGS, .ro, [⟨47, 32, 0, .ro, []⟩, ⟨16, 4, 0, .ro, []⟩, ⟨3, 3, 0, .w1c, []⟩, ⟨2, 2, 0, .w1c, []⟩, ⟨1, 1, 0, .w1c, []⟩, ⟨0, 0, 0, .w1c, []⟩]⟩
def RNG_STAT.LOST : FRef := ⟨0x280003, [0x4], 47, 32⟩
def RNG_STAT.FILL : FRef := ⟨0x280003, [0x4], 16, 4⟩
def RNG_STAT.CI_BAD : FRef := ⟨0x280003, [0x4], 3, 3⟩
def RNG_STAT.OVF : FRef := ⟨0x280003, [0x4], 2, 2⟩
def RNG_STAT.WM : FRef := ⟨0x280003, [0x4], 1, 1⟩
def RNG_STAT.PI_BAD : FRef := ⟨0x280003, [0x4], 0, 0⟩
def RNG_PEND : Row := ⟨0x288000, [], .RGS, .ro, [⟨47, 47, 0, .ro, []⟩, ⟨12, 0, 0, .ro, []⟩]⟩
def RNG_PEND.ANY : FRef := ⟨0x288000, [], 47, 47⟩
def RNG_PEND.RING : FRef := ⟨0x288000, [], 12, 0⟩
def RNG_WIN : Row := ⟨0x288001, [], .RGS, .rw, [⟨1, 0, 0, .rw, []⟩]⟩
def RNG_WIN.PAGE : FRef := ⟨0x288001, [], 1, 0⟩
def RNG_WINDOW : Row := ⟨0x2C0000, [(0x1, 262144)], .RGS, .rw, [⟨47, 0, 0, .rw, []⟩]⟩
def RNG_WINDOW.DATA : FRef := ⟨0x2C0000, [0x1], 47, 0⟩
def SEQ_CTL : Row := ⟨0x300000, [], .SQC, .rw, [⟨11, 10, 1, .rw, [(3, 3)]⟩, ⟨9, 9, 0, .wo, []⟩, ⟨8, 8, 0, .rw, []⟩, ⟨0, 0, 0, .rw, []⟩]⟩
def SEQ_CTL.EXC_ACT : FRef := ⟨0x300000, [], 11, 10⟩
def SEQ_CTL.STEP : FRef := ⟨0x300000, [], 9, 9⟩
def SEQ_CTL.HALT_REQ : FRef := ⟨0x300000, [], 8, 8⟩
def SEQ_CTL.BRK_EN : FRef := ⟨0x300000, [], 0, 0⟩
def SEQ_STAT : Row := ⟨0x300001, [], .SQC, .ro, [⟨47, 40, 0, .ro, []⟩, ⟨39, 35, 0, .ro, []⟩, ⟨34, 32, 0, .ro, []⟩, ⟨31, 31, 0, .ro, []⟩, ⟨30, 30, 0, .ro, []⟩, ⟨29, 25, 0, .ro, []⟩, ⟨14, 0, 0, .ro, []⟩]⟩
def SEQ_STAT.PSTAT : FRef := ⟨0x300001, [], 47, 40⟩
def SEQ_STAT.TASK : FRef := ⟨0x300001, [], 39, 35⟩
def SEQ_STAT.STATE : FRef := ⟨0x300001, [], 34, 32⟩
def SEQ_STAT.FROZEN : FRef := ⟨0x300001, [], 31, 31⟩
def SEQ_STAT.SLOT : FRef := ⟨0x300001, [], 30, 30⟩
def SEQ_STAT.FLAGS : FRef := ⟨0x300001, [], 29, 25⟩
def SEQ_STAT.PC : FRef := ⟨0x300001, [], 14, 0⟩
def SEQ_EXC : Row := ⟨0x300002, [], .SQC, .ro, [⟨47, 40, 0, .ro, []⟩, ⟨39, 35, 0, .ro, []⟩, ⟨34, 20, 0, .ro, []⟩, ⟨0, 0, 0, .ro, []⟩]⟩
def SEQ_EXC.CAUSE : FRef := ⟨0x300002, [], 47, 40⟩
def SEQ_EXC.TASK : FRef := ⟨0x300002, [], 39, 35⟩
def SEQ_EXC.PC : FRef := ⟨0x300002, [], 34, 20⟩
def SEQ_EXC.MORE : FRef := ⟨0x300002, [], 0, 0⟩
def SEQ_EVT : Row := ⟨0x300003, [], .SQC, .w1c, [⟨2, 2, 0, .w1c, []⟩, ⟨1, 1, 0, .w1c, []⟩, ⟨0, 0, 0, .w1c, []⟩]⟩
def SEQ_EVT.HALTED : FRef := ⟨0x300003, [], 2, 2⟩
def SEQ_EVT.WDOG : FRef := ⟨0x300003, [], 1, 1⟩
def SEQ_EVT.EXC : FRef := ⟨0x300003, [], 0, 0⟩
def SEQ_EVPEND : Row := ⟨0x300004, [], .SQC, .ro, [⟨47, 0, 0, .ro, []⟩]⟩
def SEQ_EVPEND.PEND : FRef := ⟨0x300004, [], 47, 0⟩
def SEQ_WDOG : Row := ⟨0x300005, [], .SQC, .rw, [⟨31, 16, 0, .ro, []⟩, ⟨15, 8, 0, .wo, []⟩, ⟨7, 0, 0, .rw, []⟩]⟩
def SEQ_WDOG.COUNT : FRef := ⟨0x300005, [], 31, 16⟩
def SEQ_WDOG.KICK : FRef := ⟨0x300005, [], 15, 8⟩
def SEQ_WDOG.PERIOD : FRef := ⟨0x300005, [], 7, 0⟩
def SEQ_TRC_CFG : Row := ⟨0x300006, [], .SQC, .st, [⟨12, 0, 0, .st, []⟩]⟩
def SEQ_TRC_CFG.RING : FRef := ⟨0x300006, [], 12, 0⟩
def EXC_CNT : Row := ⟨0x300007, [], .SQC, .rc, [⟨47, 0, 0, .rc, []⟩]⟩
def EXC_CNT.COUNT : FRef := ⟨0x300007, [], 47, 0⟩
def WDOG_CNT : Row := ⟨0x300008, [], .SQC, .rc, [⟨47, 0, 0, .rc, []⟩]⟩
def WDOG_CNT.COUNT : FRef := ⟨0x300008, [], 47, 0⟩
def SEQ_EXC_ADDR : Row := ⟨0x300009, [], .SQC, .ro, [⟨23, 0, 0, .ro, []⟩]⟩
def SEQ_EXC_ADDR.ADDR : FRef := ⟨0x300009, [], 23, 0⟩
def SEQ_DOORBELL : Row := ⟨0x30000A, [], .SQC, .w1s, [⟨15, 0, 0, .w1s, []⟩]⟩
def SEQ_DOORBELL.DB : FRef := ⟨0x30000A, [], 15, 0⟩
def SEQ_DBG_ADDR : Row := ⟨0x300010, [], .SQC, .rw, [⟨21, 0, 0, .rw, []⟩]⟩
def SEQ_DBG_ADDR.ADDR : FRef := ⟨0x300010, [], 21, 0⟩
def SEQ_DBG_DATA : Row := ⟨0x300011, [], .SQC, .rw, [⟨47, 0, 0, .rw, []⟩]⟩
def SEQ_DBG_DATA.DATA : FRef := ⟨0x300011, [], 47, 0⟩
def SEQ_SCHED : Row := ⟨0x300020, [], .SQC, .rw, [⟨7, 6, 0, .ro, []⟩, ⟨1, 1, 0, .w1c, []⟩, ⟨0, 0, 1, .rw, []⟩]⟩
def SEQ_SCHED.CONSEC : FRef := ⟨0x300020, [], 7, 6⟩
def SEQ_SCHED.FAULT : FRef := ⟨0x300020, [], 1, 1⟩
def SEQ_SCHED.FAULT_ACT : FRef := ⟨0x300020, [], 0, 0⟩
def OVR_CNT : Row := ⟨0x300021, [], .SQC, .rc, [⟨47, 0, 0, .rc, []⟩]⟩
def OVR_CNT.COUNT : FRef := ⟨0x300021, [], 47, 0⟩
def LATE_CNT : Row := ⟨0x300022, [], .SQC, .rc, [⟨47, 0, 0, .rc, []⟩]⟩
def LATE_CNT.COUNT : FRef := ⟨0x300022, [], 47, 0⟩
def FAULT_CNT : Row := ⟨0x300023, [], .SQC, .rc, [⟨47, 0, 0, .rc, []⟩]⟩
def FAULT_CNT.COUNT : FRef := ⟨0x300023, [], 47, 0⟩
def SEQ_TICKNUM : Row := ⟨0x300024, [], .SQC, .ro, [⟨47, 0, 0, .ro, []⟩]⟩
def SEQ_TICKNUM.TICKS : FRef := ⟨0x300024, [], 47, 0⟩
def SEQ_SWAP : Row := ⟨0x300028, [], .SQC, .rw, [⟨15, 8, 0, .ro, []⟩, ⟨7, 6, 0, .ro, []⟩, ⟨5, 5, 0, .wo, []⟩, ⟨4, 4, 0, .wo, []⟩, ⟨3, 0, 0xa, .rw, []⟩]⟩
def SEQ_SWAP.RESULT : FRef := ⟨0x300028, [], 15, 8⟩
def SEQ_SWAP.STATE : FRef := ⟨0x300028, [], 7, 6⟩
def SEQ_SWAP.CONFIRM : FRef := ⟨0x300028, [], 5, 5⟩
def SEQ_SWAP.REQ : FRef := ⟨0x300028, [], 4, 4⟩
def SEQ_SWAP.TRIAL : FRef := ⟨0x300028, [], 3, 0⟩
def JNL_CTL : Row := ⟨0x300030, [], .SQC, .wo, [⟨39, 24, 0, .wo, []⟩, ⟨23, 16, 0, .wo, []⟩, ⟨15, 8, 0, .wo, []⟩, ⟨2, 0, 0, .wo, []⟩]⟩
def JNL_CTL.ID : FRef := ⟨0x300030, [], 39, 24⟩
def JNL_CTL.FWD : FRef := ⟨0x300030, [], 23, 16⟩
def JNL_CTL.NSTEPS : FRef := ⟨0x300030, [], 15, 8⟩
def JNL_CTL.OP : FRef := ⟨0x300030, [], 2, 0⟩
def JNL_STAT : Row := ⟨0x300031, [], .SQC, .ro, [⟨47, 45, 0, .ro, []⟩, ⟨44, 29, 0, .ro, []⟩, ⟨28, 21, 0, .ro, []⟩, ⟨20, 13, 0, .ro, []⟩, ⟨12, 5, 0, .ro, []⟩, ⟨4, 4, 0, .ro, []⟩, ⟨3, 0, 0, .ro, []⟩]⟩
def JNL_STAT.STATE : FRef := ⟨0x300031, [], 47, 45⟩
def JNL_STAT.ID : FRef := ⟨0x300031, [], 44, 29⟩
def JNL_STAT.NSTEPS : FRef := ⟨0x300031, [], 28, 21⟩
def JNL_STAT.FWD : FRef := ⟨0x300031, [], 20, 13⟩
def JNL_STAT.DONE : FRef := ⟨0x300031, [], 12, 5⟩
def JNL_STAT.BUSY : FRef := ⟨0x300031, [], 4, 4⟩
def JNL_STAT.OUTCOME : FRef := ⟨0x300031, [], 3, 0⟩
def JNL_ADDR : Row := ⟨0x300032, [], .SQC, .rw, [⟨12, 0, 0, .rw, []⟩]⟩
def JNL_ADDR.WORD : FRef := ⟨0x300032, [], 12, 0⟩
def JNL_DATA : Row := ⟨0x300033, [], .SQC, .rw, [⟨47, 0, 0, .rw, []⟩]⟩
def JNL_DATA.DATA : FRef := ⟨0x300033, [], 47, 0⟩
def SEQ_TASK : Row := ⟨0x300100, [(0x2, 32)], .SQC, .rw, [⟨47, 47, 0, .rw, []⟩, ⟨46, 44, 0, .rw, []⟩, ⟨43, 40, 0, .rw, []⟩, ⟨39, 25, 0, .rw, []⟩, ⟨14, 0, 0, .rw, []⟩]⟩
def SEQ_TASK.EN : FRef := ⟨0x300100, [0x2], 47, 47⟩
def SEQ_TASK.PRIO : FRef := ⟨0x300100, [0x2], 46, 44⟩
def SEQ_TASK.PER : FRef := ⟨0x300100, [0x2], 43, 40⟩
def SEQ_TASK.PHASE : FRef := ⟨0x300100, [0x2], 39, 25⟩
def SEQ_TASK.ENTRY : FRef := ⟨0x300100, [0x2], 14, 0⟩
def SEQ_TSTAT : Row := ⟨0x300101, [(0x2, 32)], .SQC, .ro, [⟨17, 17, 0, .ro, []⟩, ⟨16, 16, 0, .ro, []⟩, ⟨14, 0, 0, .ro, []⟩]⟩
def SEQ_TSTAT.DISABLED : FRef := ⟨0x300101, [0x2], 17, 17⟩
def SEQ_TSTAT.PENDING : FRef := ⟨0x300101, [0x2], 16, 16⟩
def SEQ_TSTAT.RESUME : FRef := ⟨0x300101, [0x2], 14, 0⟩
def TRW_CFG : Row := ⟨0x380000, [(0x40, 16)], .TRW, .st, [⟨47, 44, 4, .st, [(0, 0)]⟩, ⟨43, 40, 4, .st, [(0, 0)]⟩, ⟨39, 39, 0, .st, []⟩, ⟨38, 38, 1, .st, []⟩, ⟨37, 37, 0, .st, []⟩, ⟨36, 36, 0, .st, []⟩, ⟨35, 32, 0, .st, []⟩, ⟨31, 28, 0, .st, []⟩, ⟨27, 13, 0, .st, []⟩, ⟨12, 9, 0, .st, []⟩, ⟨8, 5, 0, .st, []⟩, ⟨4, 3, 0, .st, []⟩]⟩
def TRW_CFG.LOSS_N : FRef := ⟨0x380000, [0x40], 47, 44⟩
def TRW_CFG.LOCK_N : FRef := ⟨0x380000, [0x40], 43, 40⟩
def TRW_CFG.AUTO_REC : FRef := ⟨0x380000, [0x40], 39, 39⟩
def TRW_CFG.AUTO_RUN : FRef := ⟨0x380000, [0x40], 38, 38⟩
def TRW_CFG.NOTCH_EN : FRef := ⟨0x380000, [0x40], 37, 37⟩
def TRW_CFG.POL : FRef := ⟨0x380000, [0x40], 36, 36⟩
def TRW_CFG.KSH : FRef := ⟨0x380000, [0x40], 35, 32⟩
def TRW_CFG.PER : FRef := ⟨0x380000, [0x40], 31, 28⟩
def TRW_CFG.PHASE : FRef := ⟨0x380000, [0x40], 27, 13⟩
def TRW_CFG.BDAC : FRef := ⟨0x380000, [0x40], 12, 9⟩
def TRW_CFG.SRC_SEL : FRef := ⟨0x380000, [0x40], 8, 5⟩
def TRW_CFG.SRC_TYPE : FRef := ⟨0x380000, [0x40], 4, 3⟩
def TRW_SRC : Row := ⟨0x380001, [(0x40, 16)], .TRW, .st, [⟨35, 35, 0, .st, []⟩, ⟨34, 30, 0, .st, []⟩, ⟨29, 24, 0, .st, []⟩, ⟨23, 0, 0, .st, []⟩]⟩
def TRW_SRC.SIGNED : FRef := ⟨0x380001, [0x40], 35, 35⟩
def TRW_SRC.WIDTH : FRef := ⟨0x380001, [0x40], 34, 30⟩
def TRW_SRC.LSB : FRef := ⟨0x380001, [0x40], 29, 24⟩
def TRW_SRC.ADDR : FRef := ⟨0x380001, [0x40], 23, 0⟩
def TRW_SP : Row := ⟨0x380002, [(0x40, 16)], .TRW, .st, [⟨47, 0, 0, .st, []⟩]⟩
def TRW_SP.SP : FRef := ⟨0x380002, [0x40], 47, 0⟩
def TRW_GAIN : Row := ⟨0x380003, [(0x40, 16)], .TRW, .st, [⟨47, 24, 0, .st, []⟩, ⟨23, 0, 0, .st, []⟩]⟩
def TRW_GAIN.KP : FRef := ⟨0x380003, [0x40], 47, 24⟩
def TRW_GAIN.KI : FRef := ⟨0x380003, [0x40], 23, 0⟩
def TRW_THR : Row := ⟨0x380004, [(0x40, 16)], .TRW, .st, [⟨47, 24, 0x10000, .st, []⟩, ⟨23, 0, 0x1000, .st, []⟩]⟩
def TRW_THR.LOSS_TH : FRef := ⟨0x380004, [0x40], 47, 24⟩
def TRW_THR.LOCK_TH : FRef := ⟨0x380004, [0x40], 23, 0⟩
def TRW_OUT : Row := ⟨0x380005, [(0x40, 16)], .TRW, .st, [⟨47, 47, 0, .st, []⟩, ⟨46, 39, 0, .st, []⟩, ⟨38, 35, 0, .st, []⟩, ⟨34, 24, 0, .st, [(1024, 2047)]⟩, ⟨23, 12, 0, .st, []⟩, ⟨11, 0, 0, .st, []⟩]⟩
def TRW_OUT.DITH_EN : FRef := ⟨0x380005, [0x40], 47, 47⟩
def TRW_OUT.REF_DLY : FRef := ⟨0x380005, [0x40], 46, 39⟩
def TRW_OUT.DITH_HP : FRef := ⟨0x380005, [0x40], 38, 35⟩
def TRW_OUT.DITH_AMP : FRef := ⟨0x380005, [0x40], 34, 24⟩
def TRW_OUT.REC_CODE : FRef := ⟨0x380005, [0x40], 23, 12⟩
def TRW_OUT.OUT_BASE : FRef := ⟨0x380005, [0x40], 11, 0⟩
def TRW_NBQ : Row := ⟨0x380006, [(0x40, 16), (0x1, 5)], .TRW, .st, [⟨23, 0, 0, .st, []⟩]⟩
def TRW_NBQ.COEF : FRef := ⟨0x380006, [0x40, 0x1], 23, 0⟩
def TRW_CMD : Row := ⟨0x38000B, [(0x40, 16)], .TRW, .st, [⟨6, 4, 0, .st, [(5, 7)]⟩, ⟨3, 0, 0, .st, []⟩]⟩
def TRW_CMD.STATE : FRef := ⟨0x38000B, [0x40], 6, 4⟩
def TRW_CMD.SEQ : FRef := ⟨0x38000B, [0x40], 3, 0⟩
def TRW_STIP : Row := ⟨0x38000C, [(0x40, 16)], .TRW, .st, [⟨47, 45, 0, .st, [(5, 7)]⟩, ⟨44, 44, 0, .st, []⟩, ⟨43, 33, 0, .st, []⟩, ⟨32, 29, 0, .st, []⟩, ⟨15, 0, 0, .st, []⟩]⟩
def TRW_STIP.TYPE : FRef := ⟨0x38000C, [0x40], 47, 45⟩
def TRW_STIP.POINT : FRef := ⟨0x38000C, [0x40], 44, 44⟩
def TRW_STIP.AMP : FRef := ⟨0x38000C, [0x40], 43, 33⟩
def TRW_STIP.SEQ : FRef := ⟨0x38000C, [0x40], 32, 29⟩
def TRW_STIP.FTW : FRef := ⟨0x38000C, [0x40], 15, 0⟩
def TRW_SWP : Row := ⟨0x38000D, [(0x40, 16)], .TRW, .st, [⟨31, 16, 0, .st, []⟩, ⟨15, 0, 0, .st, []⟩]⟩
def TRW_SWP.FTW_END : FRef := ⟨0x38000D, [0x40], 31, 16⟩
def TRW_SWP.STEP : FRef := ⟨0x38000D, [0x40], 15, 0⟩
def TRW_STAT : Row := ⟨0x380010, [(0x40, 16)], .TRW, .ro, [⟨47, 32, 0, .ro, []⟩, ⟨31, 29, 0, .ro, []⟩, ⟨28, 28, 0, .ro, []⟩, ⟨27, 27, 0, .ro, []⟩, ⟨26, 26, 0, .ro, []⟩, ⟨25, 25, 0, .ro, []⟩, ⟨11, 0, 0, .ro, []⟩]⟩
def TRW_STAT.TRC_SEQ : FRef := ⟨0x380010, [0x40], 47, 32⟩
def TRW_STAT.STATE : FRef := ⟨0x380010, [0x40], 31, 29⟩
def TRW_STAT.STIP_RUN : FRef := ⟨0x380010, [0x40], 28, 28⟩
def TRW_STAT.STIP_DONE : FRef := ⟨0x380010, [0x40], 27, 27⟩
def TRW_STAT.STIP_TRUNC : FRef := ⟨0x380010, [0x40], 26, 26⟩
def TRW_STAT.STIP_REFUSED : FRef := ⟨0x380010, [0x40], 25, 25⟩
def TRW_STAT.OUT : FRef := ⟨0x380010, [0x40], 11, 0⟩
def TRW_INT : Row := ⟨0x380011, [(0x40, 16)], .TRW, .sn, [⟨47, 0, 0, .sn, []⟩]⟩
def TRW_INT.I : FRef := ⟨0x380011, [0x40], 47, 0⟩
def TRW_RESPI : Row := ⟨0x380012, [(0x40, 16)], .TRW, .sn, [⟨47, 0, 0, .sn, []⟩]⟩
def TRW_RESPI.SUM : FRef := ⟨0x380012, [0x40], 47, 0⟩
def TRW_RESPQ : Row := ⟨0x380013, [(0x40, 16)], .TRW, .sn, [⟨47, 0, 0, .sn, []⟩]⟩
def TRW_RESPQ.SUM : FRef := ⟨0x380013, [0x40], 47, 0⟩
def TRW_RESPN : Row := ⟨0x380014, [(0x40, 16)], .TRW, .ro, [⟨31, 0, 0, .ro, []⟩]⟩
def TRW_RESPN.N : FRef := ⟨0x380014, [0x40], 31, 0⟩
def TRW_EVT : Row := ⟨0x380015, [(0x40, 16)], .TRW, .w1c, [⟨7, 7, 0, .w1c, []⟩, ⟨6, 6, 0, .w1c, []⟩, ⟨5, 5, 0, .w1c, []⟩, ⟨4, 4, 0, .w1c, []⟩, ⟨3, 3, 0, .w1c, []⟩, ⟨2, 2, 0, .w1c, []⟩, ⟨1, 1, 0, .w1c, []⟩, ⟨0, 0, 0, .w1c, []⟩]⟩
def TRW_EVT.STIP_END : FRef := ⟨0x380015, [0x40], 7, 7⟩
def TRW_EVT.LOSS : FRef := ⟨0x380015, [0x40], 6, 6⟩
def TRW_EVT.LOCK : FRef := ⟨0x380015, [0x40], 5, 5⟩
def TRW_EVT.NBQ_SAT : FRef := ⟨0x380015, [0x40], 4, 4⟩
def TRW_EVT.HOLD : FRef := ⟨0x380015, [0x40], 3, 3⟩
def TRW_EVT.CLAMP : FRef := ⟨0x380015, [0x40], 2, 2⟩
def TRW_EVT.WRAP : FRef := ⟨0x380015, [0x40], 1, 1⟩
def TRW_EVT.STATE_CHG : FRef := ⟨0x380015, [0x40], 0, 0⟩
def WRAP_CNT : Row := ⟨0x380016, [(0x40, 16)], .TRW, .rc, [⟨47, 0, 0, .rc, []⟩]⟩
def WRAP_CNT.COUNT : FRef := ⟨0x380016, [0x40], 47, 0⟩
def CLAMP_CNT : Row := ⟨0x380017, [(0x40, 16)], .TRW, .rc, [⟨47, 0, 0, .rc, []⟩]⟩
def CLAMP_CNT.COUNT : FRef := ⟨0x380017, [0x40], 47, 0⟩
def HOLD_CNT : Row := ⟨0x380018, [(0x40, 16)], .TRW, .rc, [⟨47, 0, 0, .rc, []⟩]⟩
def HOLD_CNT.COUNT : FRef := ⟨0x380018, [0x40], 47, 0⟩
def TRC_CTL : Row := ⟨0x380019, [(0x40, 16)], .TRW, .rw, [⟨13, 13, 0, .rw, []⟩, ⟨12, 12, 0, .rw, []⟩, ⟨11, 2, 0, .rw, []⟩, ⟨1, 0, 0, .rw, []⟩]⟩
def TRC_CTL.FRZ_ON_LOSS : FRef := ⟨0x380019, [0x40], 13, 13⟩
def TRC_CTL.FREEZE : FRef := ⟨0x380019, [0x40], 12, 12⟩
def TRC_CTL.ENTRY : FRef := ⟨0x380019, [0x40], 11, 2⟩
def TRC_CTL.WORD : FRef := ⟨0x380019, [0x40], 1, 0⟩
def TRC_DATA : Row := ⟨0x38001A, [(0x40, 16)], .TRW, .ro, [⟨47, 0, 0, .ro, []⟩]⟩
def TRC_DATA.DATA : FRef := ⟨0x38001A, [0x40], 47, 0⟩
def BDC_GLB : Row := ⟨0x3A0000, [], .TRW, .st, [⟨0, 0, 0, .st, []⟩]⟩
def BDC_GLB.BMID_EN : FRef := ⟨0x3A0000, [], 0, 0⟩
def BDC_CFG : Row := ⟨0x3A0010, [(0x1, 16)], .TRW, .st, [⟨15, 15, 0, .st, []⟩, ⟨14, 13, 0, .st, []⟩, ⟨11, 0, 0, .st, []⟩]⟩
def BDC_CFG.EN : FRef := ⟨0x3A0010, [0x1], 15, 15⟩
def BDC_CFG.SPAN : FRef := ⟨0x3A0010, [0x1], 14, 13⟩
def BDC_CFG.CODE : FRef := ⟨0x3A0010, [0x1], 11, 0⟩
def BDC_STAT : Row := ⟨0x3A0020, [(0x1, 16)], .TRW, .ro, [⟨20, 20, 0, .ro, []⟩, ⟨19, 16, 0, .ro, []⟩, ⟨11, 0, 0, .ro, []⟩]⟩
def BDC_STAT.DRIVEN : FRef := ⟨0x3A0020, [0x1], 20, 20⟩
def BDC_STAT.LOOP : FRef := ⟨0x3A0020, [0x1], 19, 16⟩
def BDC_STAT.CODE_NOW : FRef := ⟨0x3A0020, [0x1], 11, 0⟩
def HKA_CFG : Row := ⟨0x3B0000, [], .HKA, .st, [⟨0, 0, 0, .st, []⟩]⟩
def HKA_CFG.REF : FRef := ⟨0x3B0000, [], 0, 0⟩
def HKA_STAT : Row := ⟨0x3B0001, [], .HKA, .ro, [⟨7, 0, 0, .ro, []⟩]⟩
def HKA_STAT.CYCLES : FRef := ⟨0x3B0001, [], 7, 0⟩
def HKA_SEQ : Row := ⟨0x3B0010, [(0x1, 16)], .HKA, .st, [⟨22, 20, 0, .st, []⟩, ⟨19, 16, 0, .st, []⟩, ⟨15, 12, 0, .st, []⟩, ⟨11, 10, 0, .st, []⟩, ⟨7, 2, 0, .st, [(54, 63)]⟩, ⟨0, 0, 0, .st, []⟩]⟩
def HKA_SEQ.TPER : FRef := ⟨0x3B0010, [0x1], 22, 20⟩
def HKA_SEQ.REPEAT : FRef := ⟨0x3B0010, [0x1], 19, 16⟩
def HKA_SEQ.TSAMP : FRef := ⟨0x3B0010, [0x1], 15, 12⟩
def HKA_SEQ.GAIN : FRef := ⟨0x3B0010, [0x1], 11, 10⟩
def HKA_SEQ.INPUT : FRef := ⟨0x3B0010, [0x1], 7, 2⟩
def HKA_SEQ.EN : FRef := ⟨0x3B0010, [0x1], 0, 0⟩
def HKA_SUM : Row := ⟨0x3B0020, [(0x2, 16)], .HKA, .sn, [⟨47, 0, 0, .sn, []⟩]⟩
def HKA_SUM.SUM : FRef := ⟨0x3B0020, [0x2], 47, 0⟩
def HKA_MM : Row := ⟨0x3B0021, [(0x2, 16)], .HKA, .sn, [⟨47, 47, 0, .sn, []⟩, ⟨39, 24, 0, .sn, []⟩, ⟨23, 12, 0, .sn, []⟩, ⟨11, 0, 0, .sn, []⟩]⟩
def HKA_MM.FRESH : FRef := ⟨0x3B0021, [0x2], 47, 47⟩
def HKA_MM.COUNT : FRef := ⟨0x3B0021, [0x2], 39, 24⟩
def HKA_MM.MAX : FRef := ⟨0x3B0021, [0x2], 23, 12⟩
def HKA_MM.MIN : FRef := ⟨0x3B0021, [0x2], 11, 0⟩
def MON_CFG : Row := ⟨0x3C0000, [(0x40, 4)], .MON, .st, [⟨41, 38, 8, .st, []⟩, ⟨37, 34, 2, .st, []⟩, ⟨33, 33, 0, .st, []⟩, ⟨32, 32, 0, .st, []⟩, ⟨31, 28, 0, .st, []⟩, ⟨27, 12, 0, .st, []⟩, ⟨11, 7, 0, .st, [(17, 31)]⟩, ⟨6, 4, 0, .st, [(6, 7)]⟩, ⟨3, 0, 0, .st, [(9, 15)]⟩]⟩
def MON_CFG.DCY : FRef := ⟨0x3C0000, [0x40], 41, 38⟩
def MON_CFG.ATK : FRef := ⟨0x3C0000, [0x40], 37, 34⟩
def MON_CFG.ACTIVE : FRef := ⟨0x3C0000, [0x40], 33, 33⟩
def MON_CFG.MODE : FRef := ⟨0x3C0000, [0x40], 32, 32⟩
def MON_CFG.K_CODE : FRef := ⟨0x3C0000, [0x40], 31, 28⟩
def MON_CFG.M_CODE : FRef := ⟨0x3C0000, [0x40], 27, 12⟩
def MON_CFG.DEMOD : FRef := ⟨0x3C0000, [0x40], 11, 7⟩
def MON_CFG.SRC : FRef := ⟨0x3C0000, [0x40], 6, 4⟩
def MON_CFG.LANE : FRef := ⟨0x3C0000, [0x40], 3, 0⟩
def MON_MIX : Row := ⟨0x3C0001, [(0x40, 4)], .MON, .rw, [⟨8, 0, 0, .rw, [(257, 511)]⟩]⟩
def MON_MIX.W : FRef := ⟨0x3C0001, [0x40], 8, 0⟩
def MON_STAT : Row := ⟨0x3C0002, [(0x40, 4)], .MON, .ro, [⟨26, 26, 0, .ro, []⟩, ⟨25, 25, 0, .ro, []⟩, ⟨24, 24, 0, .ro, []⟩, ⟨23, 0, 0x37, .ro, []⟩]⟩
def MON_STAT.NOCLK : FRef := ⟨0x3C0002, [0x40], 26, 26⟩
def MON_STAT.HALF : FRef := ⟨0x3C0002, [0x40], 25, 25⟩
def MON_STAT.SWAP_PEND : FRef := ⟨0x3C0002, [0x40], 24, 24⟩
def MON_STAT.GD : FRef := ⟨0x3C0002, [0x40], 23, 0⟩
def MON_OUT : Row := ⟨0x3C0003, [(0x40, 4)], .MON, .sn, [⟨47, 47, 0, .sn, []⟩, ⟨39, 24, 0, .sn, []⟩, ⟨23, 0, 0, .sn, []⟩]⟩
def MON_OUT.UNSETTLED : FRef := ⟨0x3C0003, [0x40], 47, 47⟩
def MON_OUT.SEQ : FRef := ⟨0x3C0003, [0x40], 39, 24⟩
def MON_OUT.OUT : FRef := ⟨0x3C0003, [0x40], 23, 0⟩
def MON_DET0 : Row := ⟨0x3C0004, [(0x40, 4)], .MON, .ro, [⟨47, 24, 0, .ro, []⟩, ⟨23, 0, 0, .ro, []⟩]⟩
def MON_DET0.PEAK : FRef := ⟨0x3C0004, [0x40], 47, 24⟩
def MON_DET0.ENV : FRef := ⟨0x3C0004, [0x40], 23, 0⟩
def MON_DET1 : Row := ⟨0x3C0005, [(0x40, 4)], .MON, .ro, [⟨47, 24, 0, .ro, []⟩, ⟨23, 0, 0, .ro, []⟩]⟩
def MON_DET1.NOUT : FRef := ⟨0x3C0005, [0x40], 47, 24⟩
def MON_DET1.RMS : FRef := ⟨0x3C0005, [0x40], 23, 0⟩
def MON_EVT : Row := ⟨0x3C0006, [(0x40, 4)], .MON, .w1c, [⟨3, 3, 0, .w1c, []⟩, ⟨2, 2, 0, .w1c, []⟩, ⟨1, 1, 0, .w1c, []⟩, ⟨0, 0, 0, .w1c, []⟩]⟩
def MON_EVT.SWAP_DONE : FRef := ⟨0x3C0006, [0x40], 3, 3⟩
def MON_EVT.UNSETTLED_START : FRef := ⟨0x3C0006, [0x40], 2, 2⟩
def MON_EVT.OUT_SAT : FRef := ⟨0x3C0006, [0x40], 1, 1⟩
def MON_EVT.IN_SAT : FRef := ⟨0x3C0006, [0x40], 0, 0⟩
def MON_SAT_CNT : Row := ⟨0x3C0007, [(0x40, 4)], .MON, .rc, [⟨47, 0, 0, .rc, []⟩]⟩
def MON_SAT_CNT.COUNT : FRef := ⟨0x3C0007, [0x40], 47, 0⟩
def MON_FIRA : Row := ⟨0x3C0010, [(0x40, 4), (0x1, 16)], .MON, .st, [⟨23, 0, 0, .st, []⟩]⟩
def MON_FIRA.COEF : FRef := ⟨0x3C0010, [0x40, 0x1], 23, 0⟩
def MON_FIRB : Row := ⟨0x3C0020, [(0x40, 4), (0x1, 16)], .MON, .st, [⟨23, 0, 0, .st, []⟩]⟩
def MON_FIRB.COEF : FRef := ⟨0x3C0020, [0x40, 0x1], 23, 0⟩
def CAP_CFG : Row := ⟨0x400000, [], .CAP, .st, [⟨32, 32, 0, .st, []⟩, ⟨31, 24, 0, .st, []⟩, ⟨23, 23, 0, .st, []⟩, ⟨22, 10, 0, .st, []⟩, ⟨9, 9, 0, .st, []⟩, ⟨8, 6, 0, .st, []⟩, ⟨3, 0, 0, .st, [(9, 15)]⟩]⟩
def CAP_CFG.AT_EN : FRef := ⟨0x400000, [], 32, 32⟩
def CAP_CFG.TRIG_NUM : FRef := ⟨0x400000, [], 31, 24⟩
def CAP_CFG.DIST : FRef := ⟨0x400000, [], 23, 23⟩
def CAP_CFG.RING : FRef := ⟨0x400000, [], 22, 10⟩
def CAP_CFG.AUTO_REARM : FRef := ⟨0x400000, [], 9, 9⟩
def CAP_CFG.NSEG_CODE : FRef := ⟨0x400000, [], 8, 6⟩
def CAP_CFG.LANE : FRef := ⟨0x400000, [], 3, 0⟩
def CAP_CMD : Row := ⟨0x400001, [], .CAP, .st, [⟨6, 4, 0, .st, [(6, 7)]⟩, ⟨3, 0, 0, .st, []⟩]⟩
def CAP_CMD.CMD : FRef := ⟨0x400001, [], 6, 4⟩
def CAP_CMD.SEQ : FRef := ⟨0x400001, [], 3, 0⟩
def CAP_STAT : Row := ⟨0x400002, [], .CAP, .ro, [⟨47, 32, 0, .ro, []⟩, ⟨31, 24, 0, .ro, []⟩, ⟨23, 20, 0, .ro, []⟩, ⟨19, 16, 0, .ro, []⟩, ⟨6, 4, 0, .ro, []⟩, ⟨2, 0, 0, .ro, []⟩]⟩
def CAP_STAT.CAP_SEQ : FRef := ⟨0x400002, [], 47, 32⟩
def CAP_STAT.ARM_RESULT : FRef := ⟨0x400002, [], 31, 24⟩
def CAP_STAT.UNRELEASED : FRef := ⟨0x400002, [], 23, 20⟩
def CAP_STAT.SEG_NOW : FRef := ⟨0x400002, [], 19, 16⟩
def CAP_STAT.STENCIL : FRef := ⟨0x400002, [], 6, 4⟩
def CAP_STAT.STATE : FRef := ⟨0x400002, [], 2, 0⟩
def CAP_EVT : Row := ⟨0x400003, [], .CAP, .w1c, [⟨3, 3, 0, .w1c, []⟩, ⟨2, 2, 0, .w1c, []⟩, ⟨1, 1, 0, .w1c, []⟩, ⟨0, 0, 0, .w1c, []⟩]⟩
def CAP_EVT.IGNORED : FRef := ⟨0x400003, [], 3, 3⟩
def CAP_EVT.ARM_FAIL : FRef := ⟨0x400003, [], 2, 2⟩
def CAP_EVT.SCHED_LATE : FRef := ⟨0x400003, [], 1, 1⟩
def CAP_EVT.DONE : FRef := ⟨0x400003, [], 0, 0⟩
def CAP_SCHED_SEC : Row := ⟨0x400004, [], .CAP, .st, [⟨47, 0, 0, .st, []⟩]⟩
def CAP_SCHED_SEC.SEC : FRef := ⟨0x400004, [], 47, 0⟩
def CAP_SCHED_NS : Row := ⟨0x400005, [], .CAP, .st, [⟨47, 0, 0, .st, []⟩]⟩
def CAP_SCHED_NS.NS : FRef := ⟨0x400005, [], 47, 0⟩
def CAP_ARMED_SEC : Row := ⟨0x400006, [], .CAP, .ro, [⟨47, 47, 0, .ro, []⟩, ⟨46, 0, 0, .ro, []⟩]⟩
def CAP_ARMED_SEC.ARMED : FRef := ⟨0x400006, [], 47, 47⟩
def CAP_ARMED_SEC.SEC : FRef := ⟨0x400006, [], 46, 0⟩
def CAP_ARMED_NS : Row := ⟨0x400007, [], .CAP, .ro, [⟨47, 0, 0, .ro, []⟩]⟩
def CAP_ARMED_NS.NS : FRef := ⟨0x400007, [], 47, 0⟩
def CAP_EARLY_CNT : Row := ⟨0x400008, [], .CAP, .rc, [⟨47, 0, 0, .rc, []⟩]⟩
def CAP_EARLY_CNT.COUNT : FRef := ⟨0x400008, [], 47, 0⟩
def CAP_REARM_CNT : Row := ⟨0x400009, [], .CAP, .rc, [⟨47, 0, 0, .rc, []⟩]⟩
def CAP_REARM_CNT.COUNT : FRef := ⟨0x400009, [], 47, 0⟩
def CAP_BUSY_CNT : Row := ⟨0x40000A, [], .CAP, .rc, [⟨47, 0, 0, .rc, []⟩]⟩
def CAP_BUSY_CNT.COUNT : FRef := ⟨0x40000A, [], 47, 0⟩
def CAP_SRC : Row := ⟨0x400010, [(0x1, 4)], .CAP, .st, [⟨46, 42, 0, .st, []⟩, ⟨41, 26, 0, .st, []⟩, ⟨25, 10, 0, .st, []⟩, ⟨9, 4, 0, .st, []⟩, ⟨3, 0, 0, .st, [(9, 15)]⟩]⟩
def CAP_SRC.HSHIFT : FRef := ⟨0x400010, [0x1], 46, 42⟩
def CAP_SRC.WIN : FRef := ⟨0x400010, [0x1], 41, 26⟩
def CAP_SRC.DEC : FRef := ⟨0x400010, [0x1], 25, 10⟩
def CAP_SRC.SUBSEL : FRef := ⟨0x400010, [0x1], 9, 4⟩
def CAP_SRC.SEL : FRef := ⟨0x400010, [0x1], 3, 0⟩
def CAP_CMP : Row := ⟨0x400014, [(0x1, 4)], .CAP, .st, [⟨47, 24, 0, .st, []⟩, ⟨23, 0, 0, .st, []⟩]⟩
def CAP_CMP.LO : FRef := ⟨0x400014, [0x1], 47, 24⟩
def CAP_CMP.HI : FRef := ⟨0x400014, [0x1], 23, 0⟩
def CAP_STR_A : Row := ⟨0x400020, [(0x2, 32)], .CAP, .st, [⟨47, 47, 0, .st, []⟩, ⟨41, 21, 0, .st, []⟩, ⟨20, 0, 0, .st, []⟩]⟩
def CAP_STR_A.EN : FRef := ⟨0x400020, [0x2], 47, 47⟩
def CAP_STR_A.LEN : FRef := ⟨0x400020, [0x2], 41, 21⟩
def CAP_STR_A.BASE : FRef := ⟨0x400020, [0x2], 20, 0⟩
def CAP_STR_B : Row := ⟨0x400021, [(0x2, 32)], .CAP, .st, [⟨20, 0, 0, .st, []⟩]⟩
def CAP_STR_B.PRE : FRef := ⟨0x400021, [0x2], 20, 0⟩
def ST_EVLO : Row := ⟨0x400080, [(0x4, 8)], .CAP, .st, [⟨47, 0, 0, .st, []⟩]⟩
def ST_EVLO.EVENTS : FRef := ⟨0x400080, [0x4], 47, 0⟩
def ST_CTL : Row := ⟨0x400081, [(0x4, 8)], .CAP, .st, [⟨27, 26, 0, .st, [(3, 3)]⟩, ⟨25, 23, 0, .st, []⟩, ⟨22, 21, 0, .st, [(3, 3)]⟩, ⟨20, 18, 0, .st, []⟩, ⟨17, 17, 0, .st, []⟩, ⟨16, 16, 0, .st, []⟩, ⟨15, 0, 0, .st, []⟩]⟩
def ST_CTL.TMR_ACT : FRef := ⟨0x400081, [0x4], 27, 26⟩
def ST_CTL.TMR_NEXT : FRef := ⟨0x400081, [0x4], 25, 23⟩
def ST_CTL.ACT : FRef := ⟨0x400081, [0x4], 22, 21⟩
def ST_CTL.NEXT : FRef := ⟨0x400081, [0x4], 20, 18⟩
def ST_CTL.CONSEC : FRef := ⟨0x400081, [0x4], 17, 17⟩
def ST_CTL.MODE : FRef := ⟨0x400081, [0x4], 16, 16⟩
def ST_CTL.EVENTS : FRef := ⟨0x400081, [0x4], 15, 0⟩
def ST_CNT : Row := ⟨0x400082, [(0x4, 8)], .CAP, .st, [⟨31, 0, 0, .st, []⟩]⟩
def ST_CNT.CNT_LIM : FRef := ⟨0x400082, [0x4], 31, 0⟩
def ST_TMR : Row := ⟨0x400083, [(0x4, 8)], .CAP, .st, [⟨31, 0, 0, .st, []⟩]⟩
def ST_TMR.TMR_LIM : FRef := ⟨0x400083, [0x4], 31, 0⟩
def CAP_WIN : Row := ⟨0x4000A0, [], .CAP, .rw, [⟨2, 0, 0, .rw, []⟩]⟩
def CAP_WIN.PAGE : FRef := ⟨0x4000A0, [], 2, 0⟩
def CAP_WINDOW : Row := ⟨0x440000, [(0x1, 262144)], .CAP, .ro, [⟨47, 0, 0, .ro, []⟩]⟩
def CAP_WINDOW.DATA : FRef := ⟨0x440000, [0x1], 47, 0⟩
def LINK_CFG : Row := ⟨0x480000, [(0x20, 10)], .SCR, .st, [⟨5, 4, 0, .st, [(3, 3)]⟩, ⟨3, 3, 1, .st, []⟩, ⟨2, 2, 1, .st, []⟩, ⟨0, 0, 1, .st, []⟩]⟩
def LINK_CFG.LOOP : FRef := ⟨0x480000, [0x20], 5, 4⟩
def LINK_CFG.TRIG_RX_EN : FRef := ⟨0x480000, [0x20], 3, 3⟩
def LINK_CFG.TT_EN : FRef := ⟨0x480000, [0x20], 2, 2⟩
def LINK_CFG.EN : FRef := ⟨0x480000, [0x20], 0, 0⟩
def LINK_STAT : Row := ⟨0x480001, [(0x20, 10)], .SCR, .ro, [⟨19, 14, 0, .ro, []⟩, ⟨13, 10, 0, .ro, []⟩, ⟨2, 0, 0, .ro, []⟩]⟩
def LINK_STAT.EB_FILL : FRef := ⟨0x480001, [0x20], 19, 14⟩
def LINK_STAT.UNACKED : FRef := ⟨0x480001, [0x20], 13, 10⟩
def LINK_STAT.STATE : FRef := ⟨0x480001, [0x20], 2, 0⟩
def LINK_EVT : Row := ⟨0x480002, [(0x20, 10)], .SCR, .w1c, [⟨5, 5, 0, .w1c, []⟩, ⟨4, 4, 0, .w1c, []⟩, ⟨3, 3, 0, .w1c, []⟩, ⟨2, 2, 0, .w1c, []⟩, ⟨1, 1, 0, .w1c, []⟩, ⟨0, 0, 0, .w1c, []⟩]⟩
def LINK_EVT.TRIG_UNCOMP : FRef := ⟨0x480002, [0x20], 5, 5⟩
def LINK_EVT.TRIG_LATE : FRef := ⟨0x480002, [0x20], 4, 4⟩
def LINK_EVT.NBR_CHANGE : FRef := ⟨0x480002, [0x20], 3, 3⟩
def LINK_EVT.LOOPED : FRef := ⟨0x480002, [0x20], 2, 2⟩
def LINK_EVT.UP_LOST : FRef := ⟨0x480002, [0x20], 1, 1⟩
def LINK_EVT.UP_GAINED : FRef := ⟨0x480002, [0x20], 0, 0⟩
def NBR_ID0 : Row := ⟨0x480003, [(0x20, 10)], .SCR, .ro, [⟨47, 0, 0, .ro, []⟩]⟩
def NBR_ID0.ID : FRef := ⟨0x480003, [0x20], 47, 0⟩
def NBR_INFO : Row := ⟨0x480004, [(0x20, 10)], .SCR, .ro, [⟨47, 32, 0, .ro, []⟩, ⟨31, 31, 0, .ro, []⟩, ⟨27, 16, 0, .ro, []⟩, ⟨15, 12, 0, .ro, []⟩, ⟨11, 8, 0, .ro, []⟩, ⟨7, 4, 0, .ro, []⟩, ⟨3, 3, 0, .ro, []⟩, ⟨2, 0, 0, .ro, []⟩]⟩
def NBR_INFO.ID : FRef := ⟨0x480004, [0x20], 47, 32⟩
def NBR_INFO.ADDR_VALID : FRef := ⟨0x480004, [0x20], 31, 31⟩
def NBR_INFO.ADDR : FRef := ⟨0x480004, [0x20], 27, 16⟩
def NBR_INFO.LINK : FRef := ⟨0x480004, [0x20], 15, 12⟩
def NBR_INFO.VARIANT : FRef := ⟨0x480004, [0x20], 11, 8⟩
def NBR_INFO.MODE : FRef := ⟨0x480004, [0x20], 7, 4⟩
def NBR_INFO.SRC_PARTNER : FRef := ⟨0x480004, [0x20], 3, 3⟩
def NBR_INFO.DISC : FRef := ⟨0x480004, [0x20], 2, 0⟩
def NBR_FMT : Row := ⟨0x480005, [(0x20, 10)], .SCR, .ro, [⟨15, 0, 0, .ro, []⟩]⟩
def NBR_FMT.FMT : FRef := ⟨0x480005, [0x20], 15, 0⟩
def TT_ASYM : Row := ⟨0x480006, [(0x20, 10)], .SCR, .st, [⟨47, 0, 0, .st, []⟩]⟩
def TT_ASYM.ASYM : FRef := ⟨0x480006, [0x20], 47, 0⟩
def TT_DLY : Row := ⟨0x480107, [(0x20, 2)], .SCR, .st, [⟨47, 24, 0, .st, []⟩, ⟨23, 0, 0, .st, []⟩]⟩
def TT_DLY.TX : FRef := ⟨0x480107, [0x20], 47, 24⟩
def TT_DLY.RX : FRef := ⟨0x480107, [0x20], 23, 0⟩
def TT_DLY_IB : Row := ⟨0x480007, [(0x20, 8)], .SCR, .ro, [⟨0, 0, 0, .ro, []⟩]⟩
def TT_DLY_IB.ZERO : FRef := ⟨0x480007, [0x20], 0, 0⟩
def TT_THETA : Row := ⟨0x480008, [(0x20, 10)], .SCR, .ro, [⟨47, 0, 0, .ro, []⟩]⟩
def TT_THETA.THETA : FRef := ⟨0x480008, [0x20], 47, 0⟩
def TT_DIN : Row := ⟨0x480009, [(0x20, 10)], .SCR, .ro, [⟨47, 47, 0, .ro, []⟩, ⟨46, 0, 0, .ro, []⟩]⟩
def TT_DIN.VALID : FRef := ⟨0x480009, [0x20], 47, 47⟩
def TT_DIN.DIN : FRef := ⟨0x480009, [0x20], 46, 0⟩
def RX_FRAME_CNT : Row := ⟨0x480010, [(0x20, 10)], .SCR, .rc, [⟨47, 0, 0, .rc, []⟩]⟩
def RX_FRAME_CNT.COUNT : FRef := ⟨0x480010, [0x20], 47, 0⟩
def TX_FRAME_CNT : Row := ⟨0x480011, [(0x20, 10)], .SCR, .rc, [⟨47, 0, 0, .rc, []⟩]⟩
def TX_FRAME_CNT.COUNT : FRef := ⟨0x480011, [0x20], 47, 0⟩
def RETX_CNT : Row := ⟨0x480012, [(0x20, 10)], .SCR, .rc, [⟨47, 0, 0, .rc, []⟩]⟩
def RETX_CNT.COUNT : FRef := ⟨0x480012, [0x20], 47, 0⟩
def UP_LOSS_CNT : Row := ⟨0x480013, [(0x20, 10)], .SCR, .rc, [⟨47, 0, 0, .rc, []⟩]⟩
def UP_LOSS_CNT.COUNT : FRef := ⟨0x480013, [0x20], 47, 0⟩
def CODE_ERR_CNT : Row := ⟨0x480014, [(0x20, 10)], .SCR, .rc, [⟨47, 0, 0, .rc, []⟩]⟩
def CODE_ERR_CNT.COUNT : FRef := ⟨0x480014, [0x20], 47, 0⟩
def SCR_CFG : Row := ⟨0x480200, [], .SCR, .st, [⟨47, 36, 0, .st, []⟩, ⟨35, 35, 0, .st, []⟩, ⟨34, 33, 0, .st, [(3, 3)]⟩, ⟨32, 29, 4, .st, [(9, 15)]⟩, ⟨28, 25, 4, .st, [(0, 1)]⟩, ⟨24, 17, 0x10, .st, [(0, 0)]⟩, ⟨16, 14, 4, .st, [(0, 0)]⟩, ⟨13, 4, 0, .st, []⟩]⟩
def SCR_CFG.ADDR : FRef := ⟨0x480200, [], 47, 36⟩
def SCR_CFG.ADDR_VALID : FRef := ⟨0x480200, [], 35, 35⟩
def SCR_CFG.REMOTE : FRef := ⟨0x480200, [], 34, 33⟩
def SCR_CFG.HELLO_EXP : FRef := ⟨0x480200, [], 32, 29⟩
def SCR_CFG.HELLO_LOSS : FRef := ⟨0x480200, [], 28, 25⟩
def SCR_CFG.RTX_TICKS : FRef := ⟨0x480200, [], 24, 17⟩
def SCR_CFG.RTX_MAX : FRef := ⟨0x480200, [], 16, 14⟩
def SCR_CFG.TRIG_LINKS : FRef := ⟨0x480200, [], 13, 4⟩
def SCR_CFG2 : Row := ⟨0x480201, [], .SCR, .st, [⟨47, 35, 0, .st, []⟩, ⟨34, 22, 0, .st, []⟩, ⟨21, 6, 0x7d0, .st, []⟩]⟩
def SCR_CFG2.RX_RING : FRef := ⟨0x480201, [], 47, 35⟩
def SCR_CFG2.TX_RING : FRef := ⟨0x480201, [], 34, 22⟩
def SCR_CFG2.TRIG_LAT : FRef := ⟨0x480201, [], 21, 6⟩
def SCR_ID0 : Row := ⟨0x480202, [], .SCR, .ro, [⟨47, 0, 0, .ro, []⟩]⟩
def SCR_ID0.ID : FRef := ⟨0x480202, [], 47, 0⟩
def SCR_ID1 : Row := ⟨0x480203, [], .SCR, .ro, [⟨15, 0, 0, .ro, []⟩]⟩
def SCR_ID1.ID : FRef := ⟨0x480203, [], 15, 0⟩
def SCR_EVT : Row := ⟨0x480204, [], .SCR, .w1c, [⟨3, 3, 0, .w1c, []⟩, ⟨2, 2, 0, .w1c, []⟩, ⟨1, 1, 0, .w1c, []⟩, ⟨0, 0, 0, .w1c, []⟩]⟩
def SCR_EVT.TX_BAD : FRef := ⟨0x480204, [], 3, 3⟩
def SCR_EVT.LOOP_SLIP : FRef := ⟨0x480204, [], 2, 2⟩
def SCR_EVT.PROXY_DONE : FRef := ⟨0x480204, [], 1, 1⟩
def SCR_EVT.VIOL : FRef := ⟨0x480204, [], 0, 0⟩
def LOOP_SLIP_CNT : Row := ⟨0x480205, [], .SCR, .rc, [⟨47, 0, 0, .rc, []⟩]⟩
def LOOP_SLIP_CNT.COUNT : FRef := ⟨0x480205, [], 47, 0⟩
def TX_BAD_CNT : Row := ⟨0x480206, [], .SCR, .rc, [⟨47, 0, 0, .rc, []⟩]⟩
def TX_BAD_CNT.COUNT : FRef := ⟨0x480206, [], 47, 0⟩
def PROXY_CTL : Row := ⟨0x480208, [], .SCR, .rw, [⟨47, 32, 0, .rw, []⟩, ⟨31, 28, 0, .rw, []⟩, ⟨27, 27, 0, .rw, []⟩, ⟨0, 0, 0, .wo, []⟩]⟩
def PROXY_CTL.DST : FRef := ⟨0x480208, [], 47, 32⟩
def PROXY_CTL.LINK : FRef := ⟨0x480208, [], 31, 28⟩
def PROXY_CTL.WRITE : FRef := ⟨0x480208, [], 27, 27⟩
def PROXY_CTL.GO : FRef := ⟨0x480208, [], 0, 0⟩
def PROXY_ADDR : Row := ⟨0x480209, [], .SCR, .rw, [⟨23, 0, 0, .rw, []⟩]⟩
def PROXY_ADDR.ADDR : FRef := ⟨0x480209, [], 23, 0⟩
def PROXY_DATA : Row := ⟨0x48020A, [], .SCR, .rw, [⟨47, 0, 0, .rw, []⟩]⟩
def PROXY_DATA.DATA : FRef := ⟨0x48020A, [], 47, 0⟩
def PROXY_STAT : Row := ⟨0x48020B, [], .SCR, .ro, [⟨8, 8, 0, .ro, []⟩, ⟨7, 0, 0, .ro, []⟩]⟩
def PROXY_STAT.BUSY : FRef := ⟨0x48020B, [], 8, 8⟩
def PROXY_STAT.STATUS : FRef := ⟨0x48020B, [], 7, 0⟩
def SCR_VIOL_CNT : Row := ⟨0x480301, [(0x1, 19)], .SCR, .rc, [⟨47, 0, 0, .rc, []⟩]⟩
def SCR_VIOL_CNT.COUNT : FRef := ⟨0x480301, [0x1], 47, 0⟩
def ROUTE : Row := ⟨0x480400, [(0x1, 256)], .SCR, .st, [⟨47, 47, 0, .st, []⟩, ⟨46, 35, 0, .st, []⟩, ⟨34, 31, 0, .st, [(13, 15)]⟩, ⟨30, 27, 0xf, .st, [(10, 14)]⟩, ⟨26, 23, 0xf, .st, [(10, 14)]⟩]⟩
def ROUTE.VALID : FRef := ⟨0x480400, [0x1], 47, 47⟩
def ROUTE.ADDR : FRef := ⟨0x480400, [0x1], 46, 35⟩
def ROUTE.PLEN : FRef := ⟨0x480400, [0x1], 34, 31⟩
def ROUTE.LINK1 : FRef := ⟨0x480400, [0x1], 30, 27⟩
def ROUTE.LINK2 : FRef := ⟨0x480400, [0x1], 26, 23⟩
def MEM_CFG : Row := ⟨0x4A0000, [], .CTL, .st, [⟨9, 9, 1, .st, []⟩, ⟨8, 8, 1, .st, []⟩, ⟨7, 0, 0x32, .st, [(0, 0)]⟩]⟩
def MEM_CFG.COALESCE : FRef := ⟨0x4A0000, [], 9, 9⟩
def MEM_CFG.SCRUB_EN : FRef := ⟨0x4A0000, [], 8, 8⟩
def MEM_CFG.SCRUB_PERIOD : FRef := ⟨0x4A0000, [], 7, 0⟩
def MEM_STAT : Row := ⟨0x4A0001, [], .CTL, .ro, [⟨47, 44, 0, .ro, []⟩, ⟨43, 29, 0, .ro, []⟩, ⟨28, 22, 0, .ro, []⟩, ⟨21, 21, 0, .ro, []⟩]⟩
def MEM_STAT.SCRUB_MEM : FRef := ⟨0x4A0001, [], 47, 44⟩
def MEM_STAT.SCRUB_PAGE : FRef := ⟨0x4A0001, [], 43, 29⟩
def MEM_STAT.LOG_FILL : FRef := ⟨0x4A0001, [], 28, 22⟩
def MEM_STAT.FIRST_VALID : FRef := ⟨0x4A0001, [], 21, 21⟩
def MEM_EVT : Row := ⟨0x4A0002, [], .CTL, .w1c, [⟨6, 6, 0, .w1c, []⟩, ⟨5, 5, 0, .w1c, []⟩, ⟨4, 4, 0, .w1c, []⟩, ⟨3, 3, 0, .w1c, []⟩, ⟨2, 2, 0, .w1c, []⟩, ⟨1, 1, 0, .w1c, []⟩, ⟨0, 0, 0, .w1c, []⟩]⟩
def MEM_EVT.SCRUB_WRAP : FRef := ⟨0x4A0002, [], 6, 6⟩
def MEM_EVT.VIOL : FRef := ⟨0x4A0002, [], 5, 5⟩
def MEM_EVT.LOG_LOST : FRef := ⟨0x4A0002, [], 4, 4⟩
def MEM_EVT.RMW_REFUSED : FRef := ⟨0x4A0002, [], 3, 3⟩
def MEM_EVT.POISON_ACCESS : FRef := ⟨0x4A0002, [], 2, 2⟩
def MEM_EVT.UE : FRef := ⟨0x4A0002, [], 1, 1⟩
def MEM_EVT.CE : FRef := ⟨0x4A0002, [], 0, 0⟩
def MEM_LOG : Row := ⟨0x4A0004, [(0x1, 3)], .CTL, .sn, [⟨47, 0, 0, .sn, []⟩]⟩
def MEM_LOG.DATA : FRef := ⟨0x4A0004, [0x1], 47, 0⟩
def MEM_LOG_POP : Row := ⟨0x4A0007, [], .CTL, .wo, [⟨0, 0, 0, .wo, []⟩]⟩
def MEM_LOG_POP.POP : FRef := ⟨0x4A0007, [], 0, 0⟩
def MEM_FIRST : Row := ⟨0x4A0008, [(0x1, 3)], .CTL, .ro, [⟨47, 0, 0, .ro, []⟩]⟩
def MEM_FIRST.DATA : FRef := ⟨0x4A0008, [0x1], 47, 0⟩
def MEM_CNT : Row := ⟨0x4A0011, [(0x1, 7)], .CTL, .rc, [⟨47, 0, 0, .rc, []⟩]⟩
def MEM_CNT.COUNT : FRef := ⟨0x4A0011, [0x1], 47, 0⟩
def MEM_LOST_CNT : Row := ⟨0x4A0018, [], .CTL, .rc, [⟨47, 0, 0, .rc, []⟩]⟩
def MEM_LOST_CNT.COUNT : FRef := ⟨0x4A0018, [], 47, 0⟩
def MEM_OWN0 : Row := ⟨0x4A0020, [], .CTL, .rw, [⟨47, 45, 3, .rw, [(7, 7)]⟩, ⟨44, 42, 3, .rw, [(7, 7)]⟩, ⟨41, 39, 3, .rw, [(7, 7)]⟩, ⟨38, 36, 3, .rw, [(7, 7)]⟩, ⟨35, 33, 3, .rw, [(7, 7)]⟩, ⟨32, 30, 3, .rw, [(7, 7)]⟩, ⟨29, 27, 3, .rw, [(7, 7)]⟩, ⟨26, 24, 3, .rw, [(7, 7)]⟩, ⟨23, 21, 3, .rw, [(7, 7)]⟩, ⟨20, 18, 3, .rw, [(7, 7)]⟩, ⟨17, 15, 3, .rw, [(7, 7)]⟩, ⟨14, 12, 3, .rw, [(7, 7)]⟩, ⟨11, 9, 3, .rw, [(7, 7)]⟩, ⟨8, 6, 3, .rw, [(7, 7)]⟩, ⟨5, 3, 3, .rw, [(7, 7)]⟩, ⟨2, 0, 3, .rw, [(7, 7)]⟩]⟩
def MEM_OWN0.OWN : FRef := ⟨0x4A0020, [], 47, 0⟩
def MEM_OWN1 : Row := ⟨0x4A0021, [], .CTL, .rw, [⟨23, 21, 0, .rw, [(7, 7)]⟩, ⟨20, 18, 3, .rw, [(7, 7)]⟩, ⟨17, 15, 6, .rw, [(7, 7)]⟩, ⟨14, 12, 3, .rw, [(7, 7)]⟩, ⟨11, 9, 3, .rw, [(7, 7)]⟩, ⟨8, 6, 3, .rw, [(7, 7)]⟩, ⟨5, 3, 3, .rw, [(7, 7)]⟩, ⟨2, 0, 3, .rw, [(7, 7)]⟩]⟩
def MEM_OWN1.OWN : FRef := ⟨0x4A0021, [], 23, 0⟩
def MEM_LOCK : Row := ⟨0x4A0022, [], .CTL, .w1s, [⟨23, 0, 0, .w1s, []⟩]⟩
def MEM_LOCK.LOCK : FRef := ⟨0x4A0022, [], 23, 0⟩
def MEM_FRZ : Row := ⟨0x4A0023, [], .CTL, .ro, [⟨13, 8, 0, .wo, []⟩, ⟨5, 0, 0, .ro, []⟩]⟩
def MEM_FRZ.RELEASE : FRef := ⟨0x4A0023, [], 13, 8⟩
def MEM_FRZ.FROZEN : FRef := ⟨0x4A0023, [], 5, 0⟩
def MEM_VIOL : Row := ⟨0x4A0024, [], .CTL, .ro, [⟨47, 45, 0, .ro, []⟩, ⟨44, 40, 0, .ro, []⟩, ⟨23, 0, 0, .ro, []⟩]⟩
def MEM_VIOL.MASTER : FRef := ⟨0x4A0024, [], 47, 45⟩
def MEM_VIOL.CAUSE : FRef := ⟨0x4A0024, [], 44, 40⟩
def MEM_VIOL.ADDR : FRef := ⟨0x4A0024, [], 23, 0⟩
def VIOL_CNT : Row := ⟨0x4A0025, [], .CTL, .rc, [⟨47, 0, 0, .rc, []⟩]⟩
def VIOL_CNT.COUNT : FRef := ⟨0x4A0025, [], 47, 0⟩
def MEM_TST_CTL : Row := ⟨0x4A0030, [], .CTL, .wo, [⟨47, 40, 0, .wo, []⟩, ⟨6, 4, 0, .wo, []⟩, ⟨3, 0, 0, .wo, []⟩]⟩
def MEM_TST_CTL.KEY : FRef := ⟨0x4A0030, [], 47, 40⟩
def MEM_TST_CTL.OP : FRef := ⟨0x4A0030, [], 6, 4⟩
def MEM_TST_CTL.MEM : FRef := ⟨0x4A0030, [], 3, 0⟩
def MEM_TST_ADDR : Row := ⟨0x4A0031, [], .CTL, .rw, [⟨20, 0, 0, .rw, []⟩]⟩
def MEM_TST_ADDR.ADDR : FRef := ⟨0x4A0031, [], 20, 0⟩
def MEM_TST_DATA : Row := ⟨0x4A0032, [], .CTL, .rw, [⟨47, 0, 0, .rw, []⟩]⟩
def MEM_TST_DATA.DATA : FRef := ⟨0x4A0032, [], 47, 0⟩
def MEM_TST_CHK : Row := ⟨0x4A0033, [], .CTL, .rw, [⟨7, 0, 0, .rw, []⟩]⟩
def MEM_TST_CHK.CHK : FRef := ⟨0x4A0033, [], 7, 0⟩
def PMC_CTL : Row := ⟨0x4B0000, [], .CTL, .rw, [⟨1, 1, 0, .wo, []⟩, ⟨0, 0, 0, .rw, []⟩]⟩
def PMC_CTL.CLR_ALL : FRef := ⟨0x4B0000, [], 1, 1⟩
def PMC_CTL.FREEZE : FRef := ⟨0x4B0000, [], 0, 0⟩
def PMC_SAT : Row := ⟨0x4B0001, [(0x1, 2)], .CTL, .w1c, [⟨31, 0, 0, .w1c, []⟩]⟩
def PMC_SAT.SAT : FRef := ⟨0x4B0001, [0x1], 31, 0⟩
def PMC_SEL : Row := ⟨0x4B0100, [(0x1, 64)], .CTL, .rw, [⟨8, 8, 0, .rw, []⟩, ⟨7, 0, 0, .rw, [(14, 15), (26, 63), (104, 111), (122, 127), (131, 143), (147, 255)]⟩]⟩
def PMC_SEL.MODE : FRef := ⟨0x4B0100, [0x1], 8, 8⟩
def PMC_SEL.EVENT : FRef := ⟨0x4B0100, [0x1], 7, 0⟩
def PMC_CNT : Row := ⟨0x4B0200, [(0x1, 64)], .CTL, .rw, [⟨47, 0, 0, .rw, []⟩]⟩
def PMC_CNT.COUNT : FRef := ⟨0x4B0200, [0x1], 47, 0⟩
def PMC_SNAP : Row := ⟨0x4B0300, [(0x1, 64)], .CTL, .ro, [⟨47, 0, 0, .ro, []⟩]⟩
def PMC_SNAP.COUNT : FRef := ⟨0x4B0300, [0x1], 47, 0⟩
def SEC_CFG : Row := ⟨0x4C0000, [], .CTL, .st, [⟨1, 1, 1, .st, []⟩, ⟨0, 0, 1, .st, []⟩]⟩
def SEC_CFG.ATT_EN : FRef := ⟨0x4C0000, [], 1, 1⟩
def SEC_CFG.ARB_AUTO : FRef := ⟨0x4C0000, [], 0, 0⟩
def SEC_IMGA : Row := ⟨0x4C0001, [], .CTL, .ro, [⟨47, 16, 0, .ro, []⟩, ⟨15, 8, 0, .ro, []⟩, ⟨7, 0, 1, .ro, []⟩]⟩
def SEC_IMGA.VERSION : FRef := ⟨0x4C0001, [], 47, 16⟩
def SEC_IMGA.LEVEL : FRef := ⟨0x4C0001, [], 15, 8⟩
def SEC_IMGA.RESULT : FRef := ⟨0x4C0001, [], 7, 0⟩
def SEC_IMGB : Row := ⟨0x4C0002, [], .CTL, .ro, [⟨47, 16, 0, .ro, []⟩, ⟨15, 8, 0, .ro, []⟩, ⟨7, 0, 1, .ro, []⟩]⟩
def SEC_IMGB.VERSION : FRef := ⟨0x4C0002, [], 47, 16⟩
def SEC_IMGB.LEVEL : FRef := ⟨0x4C0002, [], 15, 8⟩
def SEC_IMGB.RESULT : FRef := ⟨0x4C0002, [], 7, 0⟩
def SEC_LOAD_CTL : Row := ⟨0x4C0003, [], .CTL, .wo, [⟨2, 2, 0, .wo, []⟩, ⟨1, 0, 0, .wo, []⟩]⟩
def SEC_LOAD_CTL.SLOT : FRef := ⟨0x4C0003, [], 2, 2⟩
def SEC_LOAD_CTL.OP : FRef := ⟨0x4C0003, [], 1, 0⟩
def SEC_LOAD_ADDR : Row := ⟨0x4C0004, [], .CTL, .rw, [⟨15, 0, 0, .rw, []⟩]⟩
def SEC_LOAD_ADDR.OFFSET : FRef := ⟨0x4C0004, [], 15, 0⟩
def SEC_LOAD_DATA : Row := ⟨0x4C0005, [], .CTL, .wo, [⟨47, 0, 0, .wo, []⟩]⟩
def SEC_LOAD_DATA.DATA : FRef := ⟨0x4C0005, [], 47, 0⟩
def SEC_LOAD_STAT : Row := ⟨0x4C0006, [], .CTL, .ro, [⟨8, 8, 0, .ro, []⟩, ⟨7, 0, 0, .ro, []⟩]⟩
def SEC_LOAD_STAT.BUSY : FRef := ⟨0x4C0006, [], 8, 8⟩
def SEC_LOAD_STAT.RESULT : FRef := ⟨0x4C0006, [], 7, 0⟩
def SEC_ARB : Row := ⟨0x4C0008, [], .CTL, .ro, [⟨6, 0, 0, .ro, []⟩]⟩
def SEC_ARB.LEVEL : FRef := ⟨0x4C0008, [], 6, 0⟩
def SEC_ARB_ADV : Row := ⟨0x4C0009, [], .CTL, .wo, [⟨47, 40, 0, .wo, []⟩, ⟨6, 0, 0, .wo, []⟩]⟩
def SEC_ARB_ADV.KEY : FRef := ⟨0x4C0009, [], 47, 40⟩
def SEC_ARB_ADV.TARGET : FRef := ⟨0x4C0009, [], 6, 0⟩
def SEC_KEYS : Row := ⟨0x4C000A, [], .CTL, .ro, [⟨7, 0, 0, .ro, []⟩]⟩
def SEC_KEYS.SLOTS : FRef := ⟨0x4C000A, [], 7, 0⟩
def SEC_REVOKE : Row := ⟨0x4C000B, [], .CTL, .wo, [⟨47, 40, 0, .wo, []⟩, ⟨1, 0, 0, .wo, []⟩]⟩
def SEC_REVOKE.KEY : FRef := ⟨0x4C000B, [], 47, 40⟩
def SEC_REVOKE.SLOT : FRef := ⟨0x4C000B, [], 1, 0⟩
def SEC_CERT_ADDR : Row := ⟨0x4C0010, [], .CTL, .rw, [⟨11, 0, 0, .rw, []⟩]⟩
def SEC_CERT_ADDR.WORD : FRef := ⟨0x4C0010, [], 11, 0⟩
def SEC_CERT_DATA : Row := ⟨0x4C0011, [], .CTL, .ro, [⟨47, 0, 0, .ro, []⟩]⟩
def SEC_CERT_DATA.DATA : FRef := ⟨0x4C0011, [], 47, 0⟩
def SEC_ATT_NONCE : Row := ⟨0x4C0020, [(0x1, 6)], .CTL, .rw, [⟨47, 0, 0, .rw, []⟩]⟩
def SEC_ATT_NONCE.DATA : FRef := ⟨0x4C0020, [0x1], 47, 0⟩
def SEC_ATT_CTL : Row := ⟨0x4C0026, [], .CTL, .wo, [⟨0, 0, 0, .wo, []⟩]⟩
def SEC_ATT_CTL.GO : FRef := ⟨0x4C0026, [], 0, 0⟩
def SEC_ATT_STAT : Row := ⟨0x4C0027, [], .CTL, .ro, [⟨47, 34, 0, .ro, []⟩, ⟨33, 23, 0, .ro, []⟩, ⟨15, 8, 0, .ro, []⟩, ⟨0, 0, 0, .ro, []⟩]⟩
def SEC_ATT_STAT.EPOCHS : FRef := ⟨0x4C0027, [], 47, 34⟩
def SEC_ATT_STAT.LEAVES : FRef := ⟨0x4C0027, [], 33, 23⟩
def SEC_ATT_STAT.RESULT : FRef := ⟨0x4C0027, [], 15, 8⟩
def SEC_ATT_STAT.BUSY : FRef := ⟨0x4C0027, [], 0, 0⟩
def SEC_ATT_ADDR : Row := ⟨0x4C0028, [], .CTL, .rw, [⟨8, 0, 0, .rw, []⟩]⟩
def SEC_ATT_ADDR.WORD : FRef := ⟨0x4C0028, [], 8, 0⟩
def SEC_ATT_DATA : Row := ⟨0x4C0029, [], .CTL, .ro, [⟨47, 0, 0, .ro, []⟩]⟩
def SEC_ATT_DATA.DATA : FRef := ⟨0x4C0029, [], 47, 0⟩

def rowsGlb0 : List Row := [PART_ID, MODE, SET_CMD, SET_STATUS, SET_APPLIED, INT_STAT, INT_EN, FAULT_STAT, FAULT_EN, STRAP, MGMT_STAT0, MGMT_STAT1, I3C_STAT, SPI_CRC_CNT, SPI_ABORT_CNT, I3C_ERR_CNT, CKG_CFG, CKG_STAT, CKG_EVT, FSW_CNT, LTX_MOVE_CNT, GATE_OVR, GATE_STAT, RST_CMD]
def rowsGlb1 : List Row := [RST_CAUSE, RST_SEEN, PWR_REQ, PWR_STAT, PWR_EVT, PWR_CFG, PWR_DOM0, PWR_DOM1, PWR_SUP_STAT, PWR_RB_STAT, PWR_RB_ADDR, PWR_RB_DATA, PWR_REFUSE_CNT, PWR_ABORT_CNT, SUP_WARN_CNT, WAKE_RETRY_CNT, THM_CFG, BAND_CFG, THM_STAT, THM_EVT, SENS_FLT, LIM_STAT, BAND_STAT, SHUT_STAT]
def rowsGlb2 : List Row := [TS, THM_LIM, BST_STAT, BST_CRIT, BST_SLICE, BST_UNUSE0, BST_UNUSE1, BST_IS_CTL, BST_IS_STAT, BST_IS_ABORT_CNT, LCS_STAT, LCS_CTL, LCS_RESULT, LCS_NONCE, LCS_TOK_ADDR, LCS_TOK_DATA]
/-- The registers of the address range that the bucket `Glb` of `rowsAt` covers. -/
def rowsGlb : List Row := rowsGlb0 ++ rowsGlb1 ++ rowsGlb2
def rowsLn0 : List Row := [RX_AFE, RX_CTL, RX_STAT, RX_EVT, NOISE_RES, RX_CLIP_CNT, ICORR_SAT_CNT, ICORR_WIN_ADDR, ICORR_WIN_DATA, EQ_CTL, FFE_CTL, DET_CTL, LLR_CTL, TR_CTL, EQ_STAT, EQ_EVT, TR_PHASE, QUAL_SNR, QUAL_EYE, DET_ERR_CNT, DET_BIT_CNT, REACQ_CNT, ADAPT_DISCARD_CNT, SAT_EVT]
def rowsLn1 : List Row := [Y_SAT_CNT, Z_SAT_CNT, BM_CLAMP_CNT, LLR_SAT_CNT, GAIN_LIM_CNT, FCAL_CTL, FCAL_STAT, FCAL_QUAL, SKIM_STAT, TRIM_WIN_ADDR, TRIM_WIN_DATA, FCAL_CNT, FCAL_FAIL_CNT, SKIM_EVT, FRM_CFG, FRM_STAT, FRM_EVT, FRM_LOL_CNT, FRM_FC_ERR_CNT, PAT_CTL, PAT_STAT, PAT_SYM_CNT, PAT_SYM_ERR, PAT_BIT_ERR]
def rowsLn2 : List Row := [FFE_TAP, NL_TAP, DFE_TAP, MLSE_H, TX_CTL, TX_STAT, TX_DAC_TRIM, TX_EVT, TX_SAT_CNT, SPEC_CTL, TX_MASK, TX_MASK2, TX_SPEC, TX_SPEC2, TX_SPEC_STAT, SPEC_VIOL_CNT, MIG_CTL, MIG_STAT, MIG_EVT, AGREE_LAST, SWAP_CNT, ABORT_CNT, TXOBS_CTL, TXOBS_STAT]
def rowsLn3 : List Row := [SKIM_CTL, SKIM_NEXT, TXOBS_SUM, TXOBS_CNT, RND_FIR, RND_PD]
/-- The registers of the address range that the bucket `Ln` of `rowsAt` covers. -/
def rowsLn : List Row := rowsLn0 ++ rowsLn1 ++ rowsLn2 ++ rowsLn3
def rowsHs0 : List Row := [HS_RX_CTL, HS_RX_STAT, HS_TX_CTL, HS_TX_FIR0, HS_TX_FIR1, HS_EVT, HS_PAT_CTL, HS_PAT_STAT, HS_PAT_SYM_CNT, HS_PAT_SYM_ERR, HS_PAT_BIT_ERR, HS_CDR_LOL_CNT]
/-- The registers of the address range that the bucket `Hs` of `rowsAt` covers. -/
def rowsHs : List Row := rowsHs0
def rowsFec0 : List Row := [OUTER_CFG, IN_CFG, IN_STAT, IN_EVT, IN_CW_CNT, IN_CORR_CNT, IN_BIT_CNT, IN_UNC_CNT, IN_FORCED_CNT, IN_SHORT_CNT, IN_HIST, OMI_STAT, OMI_EVT, OMI_CNT, OMI_HIST, OME_STAT, OME_EVT, OME_CNT, OME_HIST, XBAR_RX, XBAR_TX, GBX_CFG, DPS, PAIR_STAT]
def rowsFec1 : List Row := [PAIR_EVT, AM_LOL_CNT]
/-- The registers of the address range that the bucket `Fec` of `rowsAt` covers. -/
def rowsFec : List Row := rowsFec0 ++ rowsFec1
def rowsPlb0 : List Row := [PLB_CTL, INC_BASE, TIME_SEC, TIME_NS, ADJ_CTL, ADJ_SEC, ADJ_NS, ADJ_STAT, DISC_STAT, DISC_OFS, FREQ_NOW, PLB_EVT, PPS_TS_SEC, PPS_TS_NS, PPS_OUT_CTL, EVT_CFG, EVT_SCHED_SEC, EVT_SCHED_NS, EVT_PERIOD, EVT_TS_SEC, EVT_TS_NS, DLY_LRX, DLY_LTX, DLY_FLT]
def rowsPlb1 : List Row := [DLY_HRX, DLY_HTX, DLY_PPS, LAT, TTE_CFG, TTE_HASH, TTE_STAT, TTE_EVT, TTE_CNT, FLT_ADDR, FLT_CMD, FLT_STAT, FLT_DATA]
/-- The registers of the address range that the bucket `Plb` of `rowsAt` covers. -/
def rowsPlb : List Row := rowsPlb0 ++ rowsPlb1
def rowsRng0 : List Row := [RNG_CFG, RNG_PI, RNG_CI, RNG_STAT, RNG_PEND, RNG_WIN, RNG_WINDOW]
/-- The registers of the address range that the bucket `Rng` of `rowsAt` covers. -/
def rowsRng : List Row := rowsRng0
def rowsSeq0 : List Row := [SEQ_CTL, SEQ_STAT, SEQ_EXC, SEQ_EVT, SEQ_EVPEND, SEQ_WDOG, SEQ_TRC_CFG, EXC_CNT, WDOG_CNT, SEQ_EXC_ADDR, SEQ_DOORBELL, SEQ_DBG_ADDR, SEQ_DBG_DATA, SEQ_SCHED, OVR_CNT, LATE_CNT, FAULT_CNT, SEQ_TICKNUM, SEQ_SWAP, JNL_CTL, JNL_STAT, JNL_ADDR, JNL_DATA, SEQ_TASK]
def rowsSeq1 : List Row := [SEQ_TSTAT]
/-- The registers of the address range that the bucket `Seq` of `rowsAt` covers. -/
def rowsSeq : List Row := rowsSeq0 ++ rowsSeq1
def rowsTrw0 : List Row := [TRW_CFG, TRW_SRC, TRW_SP, TRW_GAIN, TRW_THR, TRW_OUT, TRW_NBQ, TRW_CMD, TRW_STIP, TRW_SWP, TRW_STAT, TRW_INT, TRW_RESPI, TRW_RESPQ, TRW_RESPN, TRW_EVT, WRAP_CNT, CLAMP_CNT, HOLD_CNT, TRC_CTL, TRC_DATA, BDC_GLB, BDC_CFG, BDC_STAT]
def rowsTrw1 : List Row := [HKA_CFG, HKA_STAT, HKA_SEQ, HKA_SUM, HKA_MM, MON_CFG, MON_MIX, MON_STAT, MON_OUT, MON_DET0, MON_DET1, MON_EVT, MON_SAT_CNT, MON_FIRA, MON_FIRB]
/-- The registers of the address range that the bucket `Trw` of `rowsAt` covers. -/
def rowsTrw : List Row := rowsTrw0 ++ rowsTrw1
def rowsCap0 : List Row := [CAP_CFG, CAP_CMD, CAP_STAT, CAP_EVT, CAP_SCHED_SEC, CAP_SCHED_NS, CAP_ARMED_SEC, CAP_ARMED_NS, CAP_EARLY_CNT, CAP_REARM_CNT, CAP_BUSY_CNT, CAP_SRC, CAP_CMP, CAP_STR_A, CAP_STR_B, ST_EVLO, ST_CTL, ST_CNT, ST_TMR, CAP_WIN, CAP_WINDOW]
/-- The registers of the address range that the bucket `Cap` of `rowsAt` covers. -/
def rowsCap : List Row := rowsCap0
def rowsScr0 : List Row := [LINK_CFG, LINK_STAT, LINK_EVT, NBR_ID0, NBR_INFO, NBR_FMT, TT_ASYM, TT_DLY, TT_DLY_IB, TT_THETA, TT_DIN, RX_FRAME_CNT, TX_FRAME_CNT, RETX_CNT, UP_LOSS_CNT, CODE_ERR_CNT, SCR_CFG, SCR_CFG2, SCR_ID0, SCR_ID1, SCR_EVT, LOOP_SLIP_CNT, TX_BAD_CNT, PROXY_CTL]
def rowsScr1 : List Row := [PROXY_ADDR, PROXY_DATA, PROXY_STAT, SCR_VIOL_CNT, ROUTE, MEM_CFG, MEM_STAT, MEM_EVT, MEM_LOG, MEM_LOG_POP, MEM_FIRST, MEM_CNT, MEM_LOST_CNT, MEM_OWN0, MEM_OWN1, MEM_LOCK, MEM_FRZ, MEM_VIOL, VIOL_CNT, MEM_TST_CTL, MEM_TST_ADDR, MEM_TST_DATA, MEM_TST_CHK, PMC_CTL]
def rowsScr2 : List Row := [PMC_SAT, PMC_SEL, PMC_CNT, PMC_SNAP, SEC_CFG, SEC_IMGA, SEC_IMGB, SEC_LOAD_CTL, SEC_LOAD_ADDR, SEC_LOAD_DATA, SEC_LOAD_STAT, SEC_ARB, SEC_ARB_ADV, SEC_KEYS, SEC_REVOKE, SEC_CERT_ADDR, SEC_CERT_DATA, SEC_ATT_NONCE, SEC_ATT_CTL, SEC_ATT_STAT, SEC_ATT_ADDR, SEC_ATT_DATA]
/-- The registers of the address range that the bucket `Scr` of `rowsAt` covers. -/
def rowsScr : List Row := rowsScr0 ++ rowsScr1 ++ rowsScr2

/-- The rows among which the register of live address `a` is found. -/
def rowsAt (a : Nat) : List Row :=
  if a < 0x080000 then rowsGlb else if a < 0x100000 then rowsLn else if a < 0x180000 then rowsHs
  else if a < 0x200000 then rowsFec else if a < 0x280000 then rowsPlb else if a < 0x300000 then rowsRng
  else if a < 0x380000 then rowsSeq else if a < 0x400000 then rowsTrw else if a < 0x480000 then rowsCap
  else rowsScr

/-- Every register of the device. -/
def allRows : List Row := rowsGlb ++ rowsLn ++ rowsHs ++ rowsFec ++ rowsPlb ++ rowsRng ++ rowsSeq ++ rowsTrw ++ rowsCap ++ rowsScr

end Sys2Proof.Machine.Reg
end

