-- ==== Sys2Proof/Machine/StHost.lean ====
section
/-! DEFINITION. State of the host lanes and the gearbox beyond the register map (spec/08_host_lanes_and_gearbox.md). -/
namespace Sys2Proof.Machine

/-- A pattern checker (R45): the symbols that have matched in a row, the place in the pattern of the next symbol, the latest symbols, latest
last, and the symbols and the wrong ones of the present window of 1,024. -/
structure PatChk where
  run : Nat
  pos : Nat
  recent : List Nat
  n : Nat
  errs : Nat
  deriving DecidableEq, Repr

def PatChk.start : PatChk := ⟨0, 0, [], 0, 0⟩

/-- A pattern generator (R44, R45): the number of its next symbol, and whether that is the first after a tick boundary. -/
structure PatGen where
  pos : Nat
  first : Bool
  deriving DecidableEq, Repr

/-- The marking of an ingress stream (R118, R119): the number of the next RS symbol after the first of the last alignment marker, the latest
bits, newest first, and the RS codewords with inverted symbols, each with their number. -/
structure Fill where
  pos : Nat
  past : List Bool
  open_ : List (Nat × Nat)
  deriving DecidableEq, Repr

/-- A logical host lane. -/
structure HLane where
  /-- The physical lanes it takes its signal from and drives, within its group, and its data-path state, as in use (R160, R174). -/
  rxSel : Nat
  txSel : Nat
  dps : Nat
  /-- Alignment-marker lock, and the found PCS type (R168). -/
  locked : Bool
  typ : Nat
  /-- The time-transparent engine is in the lane's path (R201). -/
  tt : Bool
  /-- The unlocked-payload generator (R170). -/
  prbs : BitVec 31
  /-- The received bits: how many, and the latest, newest first. -/
  bitNo : Nat
  past : List Bool
  /-- In HUNT, the markers found within the last period (type, number of the first bit), and the last that followed another by a period; in
  LOCKED, the first bit of the last expected marker, and the run of missed ones (R167, R168). -/
  seen : List (Nat × Nat)
  found : Option (Nat × Nat)
  anchor : Nat
  misses : Nat
  /-- The egress FIFO (R169–R172): RS symbols received and not yet sent, oldest first; the egress has taken up the lane's symbols; the deskew
  delay in RS symbols. -/
  fifo : List Nat
  joined : Bool
  delay : Nat
  /-- Toward the host: RS symbols not yet sent, oldest first, the last 544 sent, newest first, and the bits of the symbol under way. -/
  tx : List Nat
  txPast : List Nat
  txBits : List Bool
  /-- How many RS symbols have been sent to the host. -/
  txNo : Nat
  /-- The host transmit carries traffic (R176). -/
  open_ : Bool
  fill : Fill
  /-- The rotation of the transmit interpolator in 0.001 ppm (R14, R166). -/
  rate : Int
  deriving DecidableEq, Repr

/-- A physical host lane: the adapted settings of its receiver (R163), FFE taps c(−2) to c(5) and DFE taps 1 to 3 in units of 2^−8, and its
pattern checker and generator (R175). -/
structure HRx where
  ffe : List Int
  dfe : List Int
  chk : PatChk
  gen : PatGen
  /-- The level indices that the lane's transmitter sent in the last span, after polarity; none while it is in electrical idle. -/
  out : List (Option Nat)
  deriving DecidableEq, Repr

/-- R160: the crossbars at reset map lane n to itself. R170: the generator's state is all ones. -/
def HLane.start (n : Nat) : HLane := ⟨n % 8, n % 8, 0, false, 0, false, 0x7FFFFFFF, 0, [], [], none, 0, 0, [], false, 0, [], [], [], 0, false, ⟨0, [], []⟩, 0⟩

/-- Log entry 7: main tap 1.0, every other tap 0. -/
def HRx.start : HRx := ⟨[0, 0, 256, 0, 0, 0, 0, 0], [0, 0, 0], PatChk.start, ⟨0, false⟩, []⟩

end Sys2Proof.Machine
end

