-- ==== Sys2Proof/Machine/StLine.lean ====
section
/-! DEFINITION. State of the line receive path beyond the register map: frame lock, slices, the Float's migration engine. -/
namespace Sys2Proof.Machine

/-- Frame lock (R38): the state under LOCK_STATE, the matched lane, the run of matches and of misses, the local frame count (R39)
of the frame of the last expected marker (in Single that of the odd frame after it), and whether the count is known yet. Index 8
of the list is the candidate slice's lock during a migration (R60, R66). -/
structure FrameLock where
  st : Nat
  lane : Nat
  matches_ : Nat
  misses : Nat
  fc : Option Nat
  known : Bool
  deriving DecidableEq, Repr

def FrameLock.hunting : FrameLock := ⟨0, 0, 0, 0, none, false⟩

/-- The coefficients of a slice at internal precision (R153, R155), in the order f(0)–f(32), w0–w5, b, h1–h4: S4.27 values as
integers in units of 2^−27; the LLR gain in units of 1/8; nu in units of 2^−24; theta in units of 2^−24. -/
structure Coefs where
  c : List Int
  gain : Nat
  nu : Int
  theta : Nat
  deriving DecidableEq, Repr

/-- The reset seed of R80: f(8) = 1.0 and h1 = 0.5, every other coefficient 0; LLR gain 8.0 (LLR_CTL's reset value). That the seed holds
nu and theta at 0 is the model's choice (log entry 58). -/
def Coefs.seed : Coefs :=
  ⟨(List.range 44).map fun i => if i = 8 then 2 ^ 27 else if i = 40 then 2 ^ 26 else 0, 0x40, 0, 0⟩

/-- What one slice hands to another, and what a snapshot keeps (R60, R99, R100, R154): the coefficients, the residual interleave
correction, whether the throttle forces the DFE, and h2 to h4 as they were before. -/
structure Bank where
  coefs : Coefs
  icorr : List Int
  forced : Bool
  savedH : List Int
  deriving DecidableEq, Repr

/-- A stored snapshot (R99). -/
structure Snapshot where
  good : Bool
  bank : Bank
  deriving DecidableEq, Repr

/-- The sums of a tick (R48, R102, R153): e·y, e·q, e·a, eps·a and e² over the gradient set; number, sum (2^−11) and sum of squares (2^−22)
of the symbols decided as each level; number and sum of squares of the codes. -/
structure RxSums where
  ey : List Int
  eq : List Int
  ea : Int
  epsa : List Int
  e2 : Int
  lvN : List Int
  lvSum : List Int
  lvSq : List Int
  codes : Nat
  power : Int
  deriving DecidableEq, Repr

def RxSums.zero : RxSums := ⟨[], [], 0, [], 0, [], [], [], 0, 0⟩

/-- The window of timing lock under way (R96): its line DSP cycles, and the sums of U and of e². -/
structure TrWindow where
  n : Nat
  u : Int
  e2 : Int
  deriving DecidableEq, Repr

/-- Adaptation results that wait for the Set of the same tick boundary (R16 steps 2 and 3, R17): the coefficients that adapt, each with its
value; gain; residual correction; PGA code. -/
structure Results where
  c : List (Nat × Int)
  gain : Option Nat
  icorr : Option (List Int)
  pga : Option Nat
  deriving DecidableEq, Repr

/-- A receive slice; index 8 is the Float. -/
structure Slice where
  trLock : Bool
  /-- Consecutive passing and failing windows, and the window under way (R96). -/
  passRun : Nat
  failRun : Nat
  win : TrWindow
  /-- ADAPT_STATE (R93): 0 HOLD, 1 ACQUIRE, 2 TRACK, 3 OFF. -/
  adapt : Nat
  /-- Whole ticks spent in ACQUIRE (R93). -/
  acqTicks : Nat
  /-- HOLD was entered from TRACK (R93). -/
  fromTrack : Bool
  /-- Whole ticks unlocked with signal (R99). -/
  unlocked : Nat
  /-- The next reacquisition takes the other source: none yet, true after a snapshot, false after the reset seed. -/
  lastSeed : Option Bool
  /-- TR_LOCK and frame lock have held, signal has been present, and ACQUIRE has lasted, since the last tick boundary. -/
  goodTick : Bool
  sigTick : Bool
  acqWhole : Bool
  /-- The committed coefficients at internal precision: the shadow bank (R80, R153). -/
  coefs : Coefs
  /-- The active bank (R80): the coefficients in 2^−11, the LLR gain and the residual correction in its datapath formats. -/
  taps : List Int
  gain : Nat
  ic : List Int
  /-- Snapshots, newest first, at most four (R99). -/
  snaps : List Snapshot
  /-- The throttle forces the DFE (R100), and h2 to h4 as they were before. -/
  forced : Bool
  savedH : List Int
  /-- Residual interleave coefficients at internal precision (R147): o, g, s of each sub-ADC and b_r. -/
  icorr : List Int
  /-- Tick at which a noise measurement ends (R72). -/
  noiseEnd : Option Nat
  /-- The line DSP cycles of the present tick, its sums, and theta, unwrapped, after each (R92, R102, R153). -/
  cyc : Nat
  acc : RxSums
  thetas : List Int
  /-- Results that wait for a Set (R17). -/
  results : Option Results
  /-- The slice's QUAL_SNR and QUAL_EYE of the last tick (R102). -/
  qual : BitVec 48
  eye : BitVec 48
  deriving DecidableEq, Repr

/-- The internal reset values of the interleave correction: o = 0 (units 2^−16), g = 1 (2^−23), s = 0 (2^−23), b = 0 (2^−23). -/
def icorrReset : List Int :=
  (List.range 64).flatMap (fun _ => [0, 2 ^ 23, 0]) ++ [0, 0, 0, 0]

/-- R153: coefficients as the datapath takes them. -/
def Coefs.active (c : Coefs) : List Int := c.c.map (rshr · 16)

/-- R147: the residual correction as the datapath takes it. -/
def icActive (l : List Int) : List Int := l.map (rshr · 8)

def Slice.start : Slice where
  trLock := false
  passRun := 0
  failRun := 0
  win := ⟨0, 0, 0⟩
  adapt := 0
  acqTicks := 0
  fromTrack := false
  unlocked := 0
  lastSeed := none
  goodTick := false
  sigTick := false
  acqWhole := false
  coefs := Coefs.seed
  taps := Coefs.seed.active
  gain := 0x40
  ic := icActive icorrReset
  snaps := []
  forced := false
  savedH := []
  icorr := icorrReset
  noiseEnd := none
  cyc := 0
  acc := RxSums.zero
  thetas := []
  results := none
  qual := 0
  eye := 0

/-- What a slice hands on (R60, R99). -/
def Slice.bank (x : Slice) : Bank := ⟨x.coefs, x.icorr, x.forced, x.savedH⟩

/-- The migration engine of the Float (R58–R71). -/
structure Mig where
  /-- SEQ of the command in progress, if any. -/
  seq : Option Nat
  /-- The command in progress is RETIRE. -/
  retire : Bool
  /-- Ticks the present step 1 or 6 has lasted (R63), and ticks since the candidate locked (R60). -/
  stepTicks : Nat
  lockTicks : Nat
  /-- The candidate has been locked like the lane since step 1 or 6 began (R60). -/
  candLocked : Bool
  /-- SEQ of an ABORT applied in SWAP_WAIT or RET_SWAP_WAIT (R63). -/
  abortSeq : Option Nat
  /-- An abrupt return is in progress (R68). -/
  abrupt : Bool
  /-- The lane whose takeover waits for an abrupt return or is under way, and ticks since its detection (R66, R67). -/
  takeFor : Option Nat
  detTicks : Nat
  /-- A window has passed under throttle level T3, and the next step waits (R18, R64). -/
  held : Bool
  /-- MIG_CTL as it stood when the present phase or window began (R59). -/
  ctl : BitVec 48
  /-- The agreement window (R61): slots counted, E_SERV, E_CAND and UNC so far, and the candidate locked as the lane throughout. -/
  slots : Nat
  eServ : Nat
  eCand : Nat
  unc : Nat
  same : Bool
  deriving DecidableEq, Repr

def Mig.idle : Mig := ⟨none, false, 0, 0, false, none, false, none, 0, false, 0, 0, 0, 0, 0, true⟩

/-- What Render forms a symbol with (R129–R131, R134): taps in 2^−14 and entries in 2^−3, FIR_MAIN, and the output: 0 Render codes, 1 code 0,
2 off. -/
structure RenderCfg where
  taps : List Int
  pd : List Int
  main : Nat
  sq : Nat
  deriving DecidableEq, Repr

/-- A symbol that waits for Render: its line DSP cycle in the tick and its place in it; samples of a symbol (R132). -/
structure RenderSym where
  cfg : RenderCfg
  cyc : Nat
  at_ : Nat
  st : Nat
  deriving DecidableEq, Repr

/-- A line transmit PLL's frame count (R20, R29): the line DSP cycle of the frame under way, 0 to 1,088, the count FC, the cycles since the
last tick boundary, at most 16 (R19), and the reference that it is to take at the next frame boundary (R12): a logical host lane, 16 the
system PLL, 17 and up a line lane. -/
structure TxPll where
  place : Nat
  fc : Nat
  since : Nat
  want : Nat
  deriving DecidableEq, Repr

def TxPll.start : TxPll := ⟨0, 0, 16, 16⟩

/-- A latency measurement (R196): the earlier timestamps of the frames under way, by frame number; the latencies completed in the tick, oldest
first, in 2^−16 ns; and whether a frame of the tick was not measured (R197). -/
structure LatRun where
  wait : List (Nat × Int)
  done : List Nat
  bad : Bool
  deriving DecidableEq, Repr

def LatRun.start : LatRun := ⟨[], [], false⟩

/-- What a line lane holds beyond its registers. -/
structure Lane where
  /-- The lane's codewords are marked because of a slice fault (R69). -/
  marking : Bool
  /-- The lane has no usable slice: its ingress is undelivered (R70, R71). -/
  dead : Bool
  /-- Pair k's host transmit rotation is held (R14), with the rate in use, in units of 0.001 ppm. -/
  rateHeld : Bool
  rate : Int
  /-- The egress sends the unlocked-group payload until its new host lanes lock (R26). -/
  unlockedTx : Bool
  /-- Value of the tick count at which SETTLING may clear (R134), and ticks a mask violation has persisted (R136). -/
  settle : Nat
  maskRun : Nat
  /-- A mask squelch is in force, or is due at the next transmit frame boundary (R136). -/
  maskSq : Bool
  maskDue : Bool
  /-- Level indices of a codeword pair, or of a block of another format, that are still to be sent (R31, R36), and blocks sent. -/
  pair : List Nat
  blocks : Nat
  /-- The precoder's state (R127), and the level indices sent before the present tick, at most 272, and in it (R128, R137). -/
  pre : Nat
  lamOld : List Nat
  lam : List Nat
  /-- The symbols that Render has still to form, with what it forms them with (R129: the later symbols are not known yet). -/
  pend : List RenderSym
  /-- Line DSP cycles sent in the present tick, and the Render codes of its first 256 blocks (R135). -/
  txCyc : Nat
  spec : List Int
  /-- The output stage holds code 0 until the next transmit frame boundary (R134). -/
  zero : Bool
  /-- The codes that each sub-DAC converted in the last span (R132, R134); none while the output stage is off. -/
  dacs : List (List (Option Int))
  /-- Render codes not yet part of a whole line DSP cycle, each with its place in the cycle and the samples of its symbol (R129, R132). -/
  render : List (Nat × Nat × Int)
  gen : PatGen
  chk : PatChk
  /-- Payloads of decoded slots that LOOP-FAR is to send, oldest first, with their slots (R248). -/
  loop : List (Nat × List Bool)
  /-- The payloads that LOOP-FAR has sent, newest first, as many as a frame holds. -/
  loopPast : List (Nat × List Bool)
  /-- The latency measurements (R196): egress from host lane A and B, ingress to A and B. -/
  lat : List LatRun
  /-- Line DSP cycles that the lane has hunted with its timing loop locked, and those of the present probe window (R43). -/
  huntCyc : Nat
  winCyc : Nat
  deriving DecidableEq, Repr

def Lane.start : Lane := ⟨false, false, false, 0, false, 0, 0, false, false, [], 0, 0, [], [], [], 0, [], false, [], [], ⟨0, false⟩, PatChk.start, [], [],
  List.replicate 4 LatRun.start, 0, 0⟩

/-- The observation of a transmit tap (R137, R138): a period is to start at the next tick boundary, one runs with ticks left, and
the sums (1/16 LSB) and counts gathered in it. -/
structure TxObs where
  start : Bool
  run : Bool
  left : Nat
  sums : List Int
  cnts : List Nat
  /-- The Float's centre samples of the present tick (R76, R137). -/
  ys : List Int
  /-- What the search over the last tick found (R137): the sums of y·λ, y² and λ² at its delay, and the delay. -/
  found : Option ((Int × Int × Int) × Nat)
  deriving DecidableEq, Repr

def TxObs.start_ : TxObs := ⟨false, false, 0, List.replicate 64 0, List.replicate 64 0, [], none⟩

/-- A point of the temperature sets (R317): temperature in 1/16 °C, trims, and its order of storing. -/
structure CalPoint where
  temp : Int
  off : List Int
  gain : List Int
  bw : List Int
  order : Nat
  deriving DecidableEq, Repr

/-- The analogue trims of a slice (R312). -/
structure Trims where
  off : List Int
  gain : List Int
  skew : List Int
  bw : List Int
  deriving DecidableEq, Repr

/-- Trims at mid-range: the final-test values are not in the specification (log entry 6). -/
def Trims.start : Trims := ⟨List.replicate 64 0, List.replicate 64 0, List.replicate 64 0, List.replicate 4 16⟩

/-- The calibration of a slice (R312–R319); index 8 is the Float. -/
structure Cal where
  trims : Trims
  /-- The trims held before the calibration that runs (R315). -/
  before : Trims
  /-- Skew-trim sets by band (R313). -/
  skewSets : List (List Int)
  points : List CalPoint
  /-- Points that wait to be written while a supply warning is active, oldest first (R399). -/
  hold : List CalPoint
  stored : Nat
  /-- The slice's band in force (R311). -/
  band : Nat
  /-- A calibration runs; ticks its present phase still needs; the reading at its start, if one has been published. -/
  run : Bool
  left : Nat
  temp0 : Option Int
  /-- T3 has been applied while the calibration runs: it stops at the end of its phase (R309). -/
  stop : Bool
  /-- A saturation or a withheld step since the last calibration that passed (R319). -/
  satSince : Bool
  deriving DecidableEq, Repr

def Cal.start : Cal where
  trims := Trims.start
  before := Trims.start
  skewSets := List.replicate 4 (List.replicate 64 0)
  points := [⟨400, List.replicate 64 0, List.replicate 64 0, List.replicate 4 16, 0⟩]
  hold := []
  stored := 0
  band := 0
  run := false
  left := 0
  temp0 := none
  stop := false
  satSince := false

/-- Thermal sampling (R304–R311). -/
structure Thermal where
  /-- Tick boundaries since the last reset that reruns self-test: the THM tick count is one less (R304). -/
  tick : Nat
  /-- Value of `tick` at the start of the present or last round; 0 before the first. -/
  round : Nat
  /-- A reading of the round lay near a limit (R305). -/
  near : Bool
  /-- The sensors that have published, and whether the reading that the present tick publishes is still to come (R304). -/
  pub : BitVec 12
  fresh : Bool
  /-- Throttle level of each sensor (R308), and the flags of each (LIM_STAT holds them). -/
  levels : List Nat
  /-- The device level, and the band of each slice, that the next tick boundary applies (R308, R311). -/
  pendLevel : Option Nat
  pendBands : List Nat
  deriving DecidableEq, Repr

def Thermal.start : Thermal := ⟨0, 0, false, 0, false, List.replicate 12 0, none, List.replicate 9 0⟩

end Sys2Proof.Machine
end

