-- ==== Sys2Proof/Machine/StMon.lean ====
section
/-! DEFINITION. State of the monitor chain, the housekeeping converter (spec/15_monitor_chain_and_housekeeping_adc.md), the Trowel
loops (spec/16_trowel_loops_and_bias_dacs.md) and the capture engine (spec/17_capture_engine.md) beyond the register map. -/
namespace Sys2Proof.Machine

/-- A monitor channel. -/
structure Mon where
  /-- The integrators and the combs' delays of the CIC (R325), inputs since its last output, outputs since the last FIR output. -/
  integ : List (BitVec 96)
  comb : List (BitVec 96)
  mcnt : Nat
  kcnt : Nat
  /-- The last 32 normalised CIC outputs, newest first, in 2^−8 (R327). -/
  hist : List Int
  /-- W in use (R329). -/
  w : Nat
  /-- A restart is due at the next input (R328). -/
  restart : Bool
  /-- Outputs that are still to carry UNSETTLED (R331). -/
  unsettled : Nat
  /-- The detectors: sums since the last snapshot (R333). -/
  peak : Nat
  sumsq : Nat
  nout : Nat
  /-- The output captured at step 1, in 2^−8, with its UNSETTLED bit (R333). -/
  snap : Int
  snapUnsettled : Bool
  /-- The next cycle is the second of a pair, which the halved rate leaves out (R332). -/
  odd : Bool
  deriving DecidableEq, Repr

def Mon.start : Mon where
  integ := List.replicate 5 0
  comb := List.replicate 5 0
  mcnt := 0
  kcnt := 0
  hist := List.replicate 32 0
  w := 0
  restart := false
  unsettled := 0
  peak := 0
  sumsq := 0
  nout := 0
  snap := 0
  snapUnsettled := false
  odd := false

/-- An entry of the housekeeping sequence in the present tick (R335, R336). -/
structure HkaAcc where
  sum : Nat
  count : Nat
  min : Nat
  max : Nat
  deriving DecidableEq, Repr

def HkaAcc.start : HkaAcc := ⟨0, 0, 4095, 0⟩

/-- The housekeeping converter: the entries of the present tick, and housekeeping cycles used. -/
structure Hka where
  acc : List HkaAcc
  used : Nat
  deriving DecidableEq, Repr

def Hka.start : Hka := ⟨List.replicate 16 HkaAcc.start, 0⟩

/-- A Trowel loop. Values S23.24 are integers in units of 2^−24. -/
structure Loop where
  /-- The integrator (R342), the notch's past errors and outputs (R341). -/
  i : Int
  e1 : Int
  e2 : Int
  d1 : Int
  d2 : Int
  /-- The code without dither that is in use. -/
  base : Int
  /-- Consecutive updates below LOCK_TH, and at or above LOSS_TH (R346). -/
  lockRun : Nat
  lossRun : Nat
  /-- An automatic transition decided: target state and the tick of its decision. -/
  auto : Option (Nat × Nat)
  /-- The input captured at step 1; none where the loop is to hold (R339, R340). -/
  x : Option Int
  /-- The tick at which the loop last updated or held, and last began a half of its dither. -/
  lastTick : Option Nat
  lastHalf : Option Nat
  /-- The stimulus (R348). -/
  phase : Nat
  prbs : Nat
  ftwNow : Nat
  /-- The stimulus in force. -/
  stim : Int
  deriving DecidableEq, Repr

def Loop.start : Loop := ⟨0, 0, 0, 0, 0, 0, 0, 0, none, none, none, none, 0, 0x7FFF, 0, 0⟩

/-- A capture stream (R358–R361). -/
structure CapStream where
  x : Nat
  /-- Words written since arming, and the word being packed. -/
  words : Nat
  buf : Nat
  fill : Nat
  /-- Items since the last one that DECIM took. -/
  skip : Nat
  /-- The window of MINMAX and SUM. -/
  wn : Nat
  lo : Int
  hi : Int
  sum : Int
  /-- The word that received the last item, and whether that item came in the present cycle. -/
  got : Option Nat
  /-- The trigger word. -/
  trig : Option Nat
  deriving DecidableEq, Repr

/-- The capture engine. -/
structure Cap where
  cnt : Nat
  tmr : Nat
  /-- Pulse events that reach the Stencil in its next cycle (R363). -/
  pulses : BitVec 64
  /-- Instants of compensated TRIGs that have not yet come, in 2^−16 ns (R245). -/
  trigs : List Int
  streams : List CapStream
  /-- Captures ended since the engine was last powered: the segment counter (R360). -/
  num : Nat
  /-- PENDING: the trigger's instant (R366). -/
  pend : Option Int
  /-- Time of the trigger cycle, distribution, halved rate, triggers ignored since arming. -/
  trig : Option Int
  dist : Bool
  half : Bool
  ignored : Nat
  /-- The next cycle is the second of a pair, which the halved rate leaves out (R356). -/
  odd : Bool
  /-- The tick count at which REARM or FULL may end (R368). -/
  rearm : Option Nat
  deriving DecidableEq, Repr

def Cap.start : Cap := ⟨0, 0, 0, [], [], 0, none, none, false, false, 0, false, none⟩

end Sys2Proof.Machine
end

