-- ==== Sys2Proof/Machine/StPlumb.lean ====
section
/-! DEFINITION. State of the Plumb beyond the register map (spec/09_plumb_timebase_and_latency.md) and of the flow table
(spec/10_time_transparent_engine.md). -/
namespace Sys2Proof.Machine

/-- A source slot of SRC_PRIO (R185). -/
structure SrcSlot where
  /-- Consecutive valid measurements, to 16; qualified after 16. -/
  run : Nat
  qualified : Bool
  /-- Ticks since the last valid measurement. -/
  age : Nat
  /-- Plumb cycle of the last measurement. -/
  last : Option Nat
  /-- The next measurement's interval spans a LOAD, STEP or automatic step (R184). -/
  skip : Bool
  /-- Consecutive measurements within LOCK_THRESH, to 16 (R187). -/
  inRun : Nat
  deriving DecidableEq, Repr

def SrcSlot.start : SrcSlot := ⟨0, false, 0, none, false, 0⟩

/-- A slew in progress (R183): its sign, the magnitude still to absorb, the term Q per cycle, and its SEQ. Units 2^−40 ns. -/
structure Slew where
  neg : Bool
  left : Nat
  q : Nat
  seq : Nat
  deriving DecidableEq, Repr

/-- An EVT pin (R191, R192). -/
structure EvtPin where
  /-- Output: the next scheduled time in 2^−16 ns while armed, and the last pulse: its rise, in 80 ps steps of the Plumb's cycles, and its
  fall. -/
  next : Option Int
  pulse : Option (Int × Int)
  /-- Input: elapsed count at the last edge, and a timestamp not yet read. -/
  lastEdge : Option Nat
  unread : Bool
  deriving DecidableEq, Repr

/-- The Plumb. -/
structure Plumb where
  /-- Seconds, and the part of a second in 2^−40 ns, at the last tick boundary (R179, R180). -/
  sec : Nat
  sub : Nat
  /-- The elapsed count in 2^−40 ns (R182), and the Plumb cycles, at the last tick boundary. -/
  el : Nat
  cyc : Nat
  /-- The integrator I in units of 2^−16 (R186). -/
  integ : Int
  slew : Option Slew
  slots : List SrcSlot
  /-- Consecutive outliers (R188). -/
  outliers : Nat
  /-- The measurement that waits for the servo: e in 2^−16 ns, and C in cycles, 0 where there is none (R186). -/
  meas : Option (Int × Nat)
  /-- A LOAD or STEP has acted at the present tick boundary (R184). -/
  stepped : Bool
  /-- Elapsed count at the last accepted PPS_IN edge (R185). -/
  ppsLast : Option Nat
  /-- The last second pulsed on PPS_OUT, and the elapsed counts at the pulse's rise and fall (R193). -/
  ppsOut : Option Int
  ppsHigh : Option (Nat × Nat)
  evts : List EvtPin
  deriving DecidableEq, Repr

def Plumb.start : Plumb where
  sec := 0
  sub := 0
  el := 0
  cyc := 0
  integ := 0
  slew := none
  slots := List.replicate 4 SrcSlot.start
  outliers := 0
  meas := none
  stepped := false
  ppsLast := none
  ppsOut := none
  ppsHigh := none
  evts := List.replicate 4 ⟨none, none, none, false⟩

/-- A message of the time-transparent engine that has not yet left (R207, R212): direction, group, link, messageType, domainNumber,
sequenceId, sourcePortIdentity; its arrival as a time and as an elapsed count, and the predicted residence time, in 2^−16 ns; and
the flow entry that holds it, if any. -/
structure TteMsg where
  ingress : Bool
  group : Nat
  link : Nat
  typ : Nat
  domain : Nat
  seq : Nat
  port : Nat
  clock : Nat
  arrival : Int
  arrivalEl : Int
  predicted : Int
  entry : Option Nat
  deriving DecidableEq, Repr

/-- A PCS group's stream through the engine in one direction (R202, R203): the received codewords in the buffer, at most two; the payload
bits of them that the engine changes, counted from the first of the oldest; the running difference of output and input, the latest 58
bits, newest first; and the codeword last sent. -/
structure TteStream where
  buf : List (List Nat)
  delta : List Nat
  diff : List Bool
  sent : List Nat
  deriving DecidableEq, Repr

def TteStream.start : TteStream := ⟨[], [], [], []⟩

/-- The time-transparent engine beyond the register map. -/
structure Tte where
  /-- The frame last released, as released (R202). -/
  out : List Byte
  /-- Messages that wait for their post-check, oldest first. -/
  waiting : List TteMsg
  /-- Buckets that a flush under way has passed (R227). -/
  flush : Option Nat
  /-- The sweeper's next bucket, and whether it has yet to run in this tick (R216). -/
  sweep : Nat
  sweepDue : Bool
  /-- The streams of the PCS groups by lowest lane: sixteen of the egress, then sixteen of the ingress. -/
  streams : List TteStream
  deriving DecidableEq, Repr

def Tte.start : Tte := ⟨[], [], none, 0, false, List.replicate 32 TteStream.start⟩

end Sys2Proof.Machine
end

