-- ==== Sys2Proof/Machine/StScrim.lean ====
section
/-! DEFINITION. State of the Scrim links and the fabric beyond the register map (spec/11_scrim_links_and_fabric.md). -/
namespace Sys2Proof.Machine

/-- A symbol of a link (R229): a data octet, a K code by its octet, or a code-group that is invalid. -/
inductive Sym where
  | data (b : Byte)
  | ctl (b : Byte)
  | bad
  deriving DecidableEq, Repr

/-- What the symbols of a link bring about (R230–R234): sync, a slip of the elastic buffer, a code error, a mark or a trigger received, a
frame discarded with the violation and whether it is NAKed, a frame that a code error ends, and a frame accepted. -/
inductive LinkEvt where
  | gained | lost | slip | code | mark | trig
  | cut (code : Nat) (nak : Bool)
  | stop (nak : Bool)
  | frame (f : SFrame)
  deriving DecidableEq, Repr

/-- The receiver of a link (R230–R234): its running disparity, `true` for positive; the errors of the last 32 symbols as bits; the last
symbols without an error, newest first, at most four; whether the last was a comma, and the IDLE sets since an error; the last ten bits of
an electrical port, and the bits since a symbol's end; the elastic buffer, oldest first; whether the parser took a comma last; and the octets
of the frame it is in. -/
structure LinkRx where
  disp : Bool
  errs : Nat
  tail : List Sym
  comma : Bool
  idles : Nat
  sh : Nat
  ph : Nat
  eb : List Sym
  idle : Bool
  frame : Option (List Byte)
  deriving DecidableEq, Repr

def LinkRx.start : LinkRx := ⟨false, 0, [], false, 0, 0, 0, [], false, none⟩

/-- The transmitter of a link (R229–R235): its running disparity; symbols since the last FILL; a mark or a trigger is due; the second half
of an IDLE is due; the frame under way and what remains of it; the frames without a number that wait, and those with one; and the last
code-group sent. -/
structure LinkTx where
  disp : Bool
  fill : Nat
  mark : Bool
  trig : Bool
  idle : Bool
  now : Option SFrame
  cur : List Sym
  ctl : List SFrame
  queue : List SFrame
  out : Nat
  deriving DecidableEq, Repr

def LinkTx.start : LinkTx := ⟨false, 0, false, false, false, none, [], [], [], 0⟩

/-- One link (R231–R243). -/
structure Link where
  /-- Code-group sync (R231). -/
  sync : Bool
  /-- Next SEQ to send and expected SEQ (R235). -/
  txSeq : BitVec 16
  rxSeq : BitVec 16
  /-- Frames sent and not acknowledged, oldest first, and frames that wait for the window (R235, R237). -/
  unacked : List SFrame
  waiting : List SFrame
  /-- A NAK may be sent for the present gap (R236). -/
  nakArmed : Bool
  /-- Consecutive timeouts without a release; and the ticks since its EOF of each unacknowledged frame that has been sent whole, oldest
  first (R236). -/
  timeouts : Nat
  ages : List Nat
  /-- Ticks since the last HELLO arrived and since the last was sent (R238). -/
  helloAge : Nat
  sinceHello : Nat
  /-- The identity that brought the link UP, and the identity last heard. -/
  upId : BitVec 64
  heard : BitVec 64
  /-- The neighbour's address conflicts with another (R250, code 0x0D). -/
  conflict : Bool
  /-- Number of the last own TMARK, and the last four with their departure times in 2^−16 ns, newest first (R243, R244). -/
  markNo : Byte
  marks : List (Byte × Int)
  /-- Arrival of the last TMARK received, and its number and arrival once its TIME frame has named it. -/
  rxArrival : Option Int
  rxMark : Option (Byte × Int)
  /-- The frame last given to the transmitter. -/
  lastTx : Option SFrame
  rx : LinkRx
  tx : LinkTx
  /-- In a test loop, the symbols sent and not yet received again, oldest first, with their code-groups (R247). -/
  back : List (Sym × Nat)
  deriving DecidableEq, Repr

def Link.start : Link where
  sync := false
  txSeq := 0
  rxSeq := 0
  unacked := []
  waiting := []
  nakArmed := true
  timeouts := 0
  ages := []
  helloAge := 0
  sinceHello := 0
  upId := 0
  heard := 0
  conflict := false
  markNo := 0
  marks := []
  rxArrival := none
  rxMark := none
  lastTx := none
  rx := LinkRx.start
  tx := LinkTx.start
  back := []

/-- The fabric (R239–R242). -/
structure Fabric where
  links : List Link
  /-- The MSN last given to an own message. -/
  msn : BitVec 16
  /-- Sources and the MSN last delivered from each, most recently used first (R239). -/
  sources : List (BitVec 16 × BitVec 16)
  /-- Ticks until the pending proxy request times out (R242). -/
  proxy : Option Nat
  /-- FABRIC_TX records being sent, oldest first: MSN, entries, and whether it is finished (R241). -/
  tx : List (BitVec 16 × Nat × Bool)
  /-- Ticks until the next BOOT_REQ (R249). -/
  bootWait : Nat
  deriving DecidableEq, Repr

def Fabric.start : Fabric := ⟨List.replicate 10 Link.start, 0, [], none, [], 0⟩

end Sys2Proof.Machine
end

