-- ==== Sys2Proof/Machine/StSys.lean ====
section
/-! DEFINITION. State of the control world: sequencer, memories, Set and journal machinery, power, clocks, management
interfaces and security. Registers that the register map lists live in the register file of `State`; these structures hold
only what the specification gives the device beyond them. -/
namespace Sys2Proof.Machine

/-- The masters of R224. -/
inductive Master where
  | device | spi | i3c | quaran | scrim | jtag
  deriving DecidableEq, Repr

/-- The master codes of R224. -/
def Master.code : Master → Nat
  | .device => 0 | .spi => 1 | .i3c => 2 | .quaran => 3 | .scrim => 4 | .jtag => 5

/-- The master of a code; the reserved codes name none. -/
def Master.ofCode : Nat → Option Master
  | 0 => some .device | 1 => some .spi | 2 => some .i3c | 3 => some .quaran | 4 => some .scrim | 5 => some .jtag
  | _ => none

/-- The sequencer (R252, R265, R266, R272, R278–R283). -/
structure Seq where
  /-- w0 to w31 (R252). -/
  w : List Word
  /-- acc0 and acc1 (R252). -/
  acc : List (BitVec 104)
  z : Bool
  n : Bool
  c : Bool
  v : Bool
  /-- The sticky flag S (R253). -/
  sf : Bool
  /-- PC within the running slot. -/
  pc : Nat
  /-- The hardware call stack, newest first. -/
  stack : List Nat
  /-- The task slot whose run is current, if any. -/
  run : Option Nat
  /-- The current or last task slot (SEQ_STAT.TASK). -/
  task : Nat
  /-- The current run is suspended by an overrun or a halt and waits for the scheduler (R272, R282). -/
  suspended : Bool
  /-- The suspended run may not start before the next tick boundary (R272). -/
  hold : Bool
  halted : Bool
  /-- The core has been reset and starts its tasks at the next tick boundary (R271). -/
  resetting : Bool
  /-- The sequencer clock is stopped in IDLE (R391). -/
  clkStopped : Bool
  /-- Running image slot: false A, true B. -/
  slotB : Bool
  /-- Whether an image has been started since the last self-test; before that the boot ROM runs (R437). -/
  imageRuns : Bool
  /-- A WAITE in progress: destination, mask, cycles of its limit that remain (R265). -/
  waiting : Option (Nat × Word × Nat)
  /-- Entries held by PUSH: ring and number (R266). -/
  heldPush : List (Nat × Nat)
  /-- Entries held by POP: ring and number (R266). -/
  heldPop : List (Nat × Nat)
  /-- The destination of an LD just before (R269). -/
  ldRd : Option Nat
  /-- The accumulators a MAC-class instruction wrote one and two instructions before (R269). -/
  mac1 : Option Nat
  mac2 : Option Nat
  /-- Status of the last port access (SEQ_STAT.PSTAT). -/
  pstat : Nat
  /-- Cycles of task runs in the present tick (R273). -/
  cyc : Nat
  /-- The counter sources that were nonzero in the last sequencer cycle, and those that the present instruction adds to the cycle in which it
  retires (R274). -/
  edge : List Nat × List Nat
  /-- A write of STEP waits to be carried out (R272). -/
  stepDue : Bool
  /-- COUNT has reached 0 and the watchdog reset is due (R271). -/
  wdogDue : Bool
  /-- CONSEC has reached 3 and the sequencer fault is due (R283). -/
  faultDue : Bool
  /-- Tick at which the trial of a swapped image expires (R300). -/
  trialEnd : Nat
  /-- A swap is due at a tick boundary that ended no run (R299). -/
  swapDue : Bool
  /-- The swap back is due, with the result to report (R300). -/
  revert : Option Nat
  deriving DecidableEq, Repr

/-- A consistency check in progress (R287, R288). -/
structure Check where
  num : Nat
  master : Master
  /-- The undercoat as it stood when the check started. -/
  snap : List (Nat × Word)
  /-- The step of the journal the check belongs to: a plan step, a roll forward step or the roll back. -/
  jnl : Nat
  /-- The addresses whose undercoat had been written since the last Set when the check started (R81, R285). -/
  marks : List Nat
  deriving DecidableEq, Repr

/-- The Set machinery (R284–R289, R458). -/
structure SetSt where
  /-- Addresses whose undercoat has been written since the last Set was applied, less those that a check under way or a snapshot that
  waits has taken with it (R285). -/
  marks : List Nat
  check : Option Check
  /-- The passed snapshot that waits for the tick boundary (R288). -/
  passed : Option Check
  /-- Undercoat writes held while a check runs (R263): address and word, oldest first. -/
  held : List (Nat × Word)
  /-- Checks started since the last reset that reruns self-test (R458). -/
  count : Nat
  /-- Undercoat addresses whose stored copy is poisoned (R289, R407). -/
  poison : List Nat
  /-- Live addresses of coefficients that the last applied Set wrote (R78). -/
  seeded : List Nat
  /-- New live values have been applied at the last tick boundary (R19). -/
  recent : Bool
  deriving DecidableEq, Repr

/-- A stored word with its check bits (R401). -/
structure Cell where
  data : Word
  check : BitVec 8
  deriving DecidableEq, Repr

/-- The five check words and the two poison map words of a page (R403, R410). -/
structure Page where
  chk : List Cell
  maps : List Cell
  deriving DecidableEq, Repr

/-- One protected memory (R405): the words that differ from zero, and the page records that differ from those of a
zero page, both by rising index. -/
structure Mem where
  cells : List (Nat × Cell)
  pages : List (Nat × Page)
  deriving DecidableEq, Repr

/-- Memory protection (R405, R411, R414). -/
structure MemSt where
  mems : List Mem
  /-- The error log, oldest first (R414). -/
  log : List (Word × Word × Word)
  /-- The memory and the page that the scrubber visits next; ticks since its sweep began, and pages visited in it (R411). -/
  scrubMem : Nat
  scrubPage : Nat
  scrubTicks : Nat
  scrubDone : Nat
  deriving DecidableEq, Repr

/-- A power request in progress (R388, R392). -/
structure PwrReq where
  word : Word
  master : Master
  /-- It has started at a tick boundary. -/
  started : Bool
  /-- A tick boundary has come since the request was made, or since its last switch. -/
  due : Bool
  /-- Domains still to be switched, in order. -/
  todo : List Nat
  /-- Domains a state entry has switched off, newest first. -/
  done : List Nat
  /-- Step of the state entry (R392), 0 for DOM_ON and DOM_OFF. -/
  step : Nat
  /-- Result to report when the request completes. -/
  result : Nat
  /-- The entry is being undone (R392). -/
  aborting : Bool
  deriving DecidableEq, Repr

/-- The power states of R386, with WAKE-FAIL (R395). -/
inductive PowerState where
  | run | idle | sleep | deep | off | wakeFail
  deriving DecidableEq, Repr

/-- Power control (R385–R400). -/
structure Pwr where
  state : PowerState
  /-- Domains that are on, by number. -/
  on : BitVec 57
  /-- Domains held off for good: fused (R2, R3) or unusable (R427). -/
  barred : BitVec 57
  req : Option PwrReq
  /-- Attempts of the present wake or start-up that have failed (R395). -/
  retries : Nat
  /-- A thermal shutdown stands (R310). -/
  shutdown : Bool
  /-- A wake from IDLE or SLEEP has come, and the next tick boundary enters RUN (R391, R394). -/
  waking : Bool
  /-- The PLL domains that the entry into SLEEP stopped (R392, R394). -/
  stopped : List Nat
  /-- The contents' CRC-32 of RB0 to RB3 (R397). -/
  rbCrc : List Nat
  deriving DecidableEq, Repr

/-- Clocks and resets (R372–R384). -/
structure Clk where
  /-- A WARM or FULL reset waits for the tick boundary: 0 none, 1 WARM, 2 FULL (R382). -/
  rstReq : Nat
  /-- A rail below its reset level holds the device in reset (R398). -/
  held : Bool
  /-- The tick boundary, counted as `thm.tick` counts, before which the crystal and REFCLK last qualified (R377). -/
  sinceX : Nat
  sinceR : Nat
  deriving DecidableEq, Repr

/-- The journal beyond RB3 and JNL_STAT (R296–R298). -/
structure Jnl where
  /-- Before-image pairs written since OPEN. -/
  pairs : Nat
  /-- A reset has released the datapath, and a journal found OPEN is to roll (R298). -/
  rollDue : Bool
  /-- That reset returned the staged registers to their reset values. -/
  stagedLost : Bool
  /-- The next step of a roll forward. -/
  step : Nat
  deriving DecidableEq, Repr

/-- The management interfaces (R444–R453). -/
structure Mgmt where
  /-- Address of the I3C target's next read. -/
  i3cAddr : Nat
  /-- INT_STAT and INT_EN have shared a bit since the last IBI was requested (R453). -/
  ibiLevel : Bool
  /-- An IBI has been requested and not yet taken. -/
  ibiPend : Bool
  /-- The IBI data byte. -/
  ibiByte : Nat
  /-- The status and data the last SPI access answered. -/
  spiStatus : Nat
  spiData : Word
  spiCrc : Nat
  /-- The words the last I3C read returned, or the value the last directed code returned. -/
  i3cData : List Word
  /-- The JTAG instruction register, and what its data register captures (R470, R471). -/
  jtagIr : Nat
  jtagDr : BitVec 88
  /-- Status and data of the last REG_ACCESS. -/
  jtagStatus : Nat
  jtagAddr : Nat
  jtagData : Word
  /-- The boundary-scan cells that the pins follow under EXTEST, CLAMP or HIGHZ. -/
  jtagMode : Nat
  boundary : List Bool
  deriving DecidableEq, Repr

/-- A key slot of OTP (R435). -/
structure KeySlot where
  present : Bool
  revoked : Bool
  ecdsaHash : Nat
  lmsHash : Nat
  deriving DecidableEq, Repr

/-- Security, life cycle, boot and self-test (R426–R441). -/
structure Sec where
  /-- The 64-bit OTP identity. -/
  identity : BitVec 64
  /-- The OTP identity seed. -/
  seed : Nat
  /-- The read path to the seed is blocked until the next reset that reruns self-test (R434). -/
  seedBlocked : Bool
  keys : List KeySlot
  /-- The words loaded into slots A and B since BEGIN, by offset (R435, R436); IMEM holds the instructions among them. -/
  imageA : List (Nat × Word)
  imageB : List (Nat × Word)
  /-- The slot last named by BEGIN. -/
  loadSlot : Option Nat
  /-- The slots whose verification runs or waits, first in, first out. -/
  verifying : List Nat
  /-- The slot whose image starts at the next tick boundary (R437). -/
  startDue : Option Nat
  /-- The RMA token's words (R433). -/
  token : List (Nat × Word)
  /-- The certificate chain's words (R439): as provisioned, and with the certificates of this boot (R440). -/
  certBase : List Word
  cert : List Word
  /-- Attestation epoch drawn in this boot, leaves used, report words, request under way (R440). -/
  epoch : Option Nat
  epochs : Nat
  leaves : Nat
  report : List Word
  attesting : Bool
  /-- The nonce the request under way was made with (R440). -/
  attNonce : List Word
  /-- Boot: the ROM serves with no image started. -/
  booting : Bool
  /-- Scrim boot: next offset, restarts, tick of the first BOOT_REQ (R249, R437). -/
  bootOfs : Nat
  bootRestarts : Nat
  bootTick : Option Nat
  /-- In-service test in progress: pages or slices done. -/
  isRun : Bool
  deriving DecidableEq, Repr

/-- A command taken by firmware and not yet completed (R292, R294). -/
structure HostCmd where
  opcode : Nat
  tag : Nat
  index : Nat
  op1 : Word
  op2 : Word
  op3 : Word
  /-- How far firmware has carried the command, and the tick at which it took it. -/
  stage : Nat
  tick : Nat
  /-- The check or the sequence number that it waits for, and a result to report at the end. -/
  num : Nat
  note : Word
  deriving DecidableEq, Repr

end Sys2Proof.Machine
end

