-- ==== Sys2Proof/Machine/State.lean ====
section
/-! DEFINITION. The state of the device as plain data. Register contents lie in sparse files: a list of address and word
in strictly rising address order that holds no word equal to the register's reset value (`RegFile.get` and `RegFile.set` of
`Sys2Proof.Machine.Ops` keep that form); what has no register lies in the structures of the chapters. -/
namespace Sys2Proof.Machine

/-- Why the machine stops with a fault. -/
inductive Fault where
  /-- Raised by nobody: every command of the table has an effect that the specification gives. Safe. -/
  | stuck
  deriving DecidableEq, Repr

/-- Why a command has no meaning. -/
inductive Refusal where
  /-- Raised by an arm of `exec` that is not modelled; names the row's mnemonic. Safe: the machine stops. -/
  | notModelled (mnemonic : String)
  deriving DecidableEq, Repr

/-- What is fixed for one part: variant (R1), stepping and the strap balls' levels (R455). -/
structure Part where
  variant : Nat
  stepping : Nat
  /-- BOOTSRC1:0, ADDR1:0, BUSMODE as STRAP holds them. -/
  pins : Nat
  /-- The straps as last sampled (R455). -/
  strap : Nat
  deriving DecidableEq, Repr

/-- The device. -/
structure State where
  part : Part
  /-- The live registers. -/
  live : List (Nat × Word)
  /-- The undercoat, by live address (R284). -/
  under : List (Nat × Word)
  /-- The staged values that the datapath stages have in use, by live address (R19). -/
  inUse : List (Nat × Word)
  /-- Later parts of SN registers captured with their first part (R9), by address. -/
  snap : List (Nat × Word)
  /-- The applied words of the registers with a field that the device changes itself (R285, R286). -/
  applied : List (Nat × Word)
  seq : Seq
  set : SetSt
  mem : MemSt
  pwr : Pwr
  clk : Clk
  mgmt : Mgmt
  sec : Sec
  /-- The command that firmware has taken from each of the eight channels (R292). -/
  cmds : List (Option HostCmd)
  /-- Per ring that has had records: records entered, modulo 2^16, since its descriptor was applied, and records dropped
  since the last one entered (R222, R225). -/
  rings : List (Nat × (Nat × Nat))
  /-- Frame lock of each line lane, and of the candidate slice at index 8 (R38). -/
  frames : List FrameLock
  /-- The receive slices; the Float at index 8. -/
  slices : List Slice
  mig : Mig
  lanes : List Lane
  /-- The line transmit PLLs A, for L0 to L3, and B, for L4 to L7. -/
  ltx : List TxPll
  /-- Calibration of each slice; the Float at index 8. -/
  cals : List Cal
  thm : Thermal
  /-- Starts that an applied Set has armed: kind and index (`Due`). -/
  due : List (Nat × Nat)
  scr : Fabric
  plb : Plumb
  obs : TxObs
  hlanes : List HLane
  hrx : List HRx
  tte : Tte
  mons : List Mon
  hka : Hka
  loops : List Loop
  cap : Cap
  jnl : Jnl
  /-- The model's own: the number of the next free value (`Config.freeValue`). -/
  free : Nat
  /-- The commands that wait, first in, first out. -/
  pending : List Instr
  deriving DecidableEq, Repr

namespace State

/-- R271, R252: the sequencer core after a reset. -/
def seqReset : Seq where
  w := List.replicate 32 0
  acc := List.replicate 2 0
  z := false
  n := false
  c := false
  v := false
  sf := false
  pc := 0
  stack := []
  run := none
  task := 0
  suspended := false
  hold := false
  halted := false
  resetting := false
  clkStopped := false
  slotB := false
  imageRuns := false
  waiting := none
  heldPush := []
  heldPop := []
  ldRd := none
  mac1 := none
  mac2 := none
  pstat := 0
  cyc := 0
  edge := ([], [])
  stepDue := false
  wdogDue := false
  faultDue := false
  trialEnd := 0
  swapDue := false
  revert := none

def setReset : SetSt where
  marks := []
  check := none
  passed := none
  held := []
  count := 0
  poison := []
  seeded := []
  recent := false

def memReset : MemSt where
  mems := List.replicate 13 ⟨[], []⟩
  log := []
  scrubMem := 0
  scrubPage := 0
  scrubTicks := 0
  scrubDone := 0

/-- R386: after a reset the domains that RUN holds on are on: AON, SQC, SQM, SPL, RB0 to RB3 and CTL, and with them PLB and RGS (log
entry 9). -/
def domsReset : BitVec 57 :=
  BitVec.ofNat 57 (1 + 2 ^ 38 + 2 ^ 41 + 2 ^ 42 + 2 ^ 43 + 2 ^ 51 + 2 ^ 52 + 2 ^ 53 + 2 ^ 54 + 2 ^ 55 + 2 ^ 56)

/-- The CRC-32 of a retention bank of zeros (R397). -/
def rbCrcZero : Nat := 382809095

def pwrReset : Pwr where
  state := .run
  on := domsReset
  barred := 0
  req := none
  retries := 0
  shutdown := false
  waking := false
  stopped := []
  rbCrc := List.replicate 4 rbCrcZero

def clkReset : Clk where
  rstReq := 0
  held := false
  sinceX := 0
  sinceR := 0

def jnlReset : Jnl := ⟨0, false, false, 0⟩

def mgmtReset : Mgmt where
  i3cAddr := 0
  ibiLevel := false
  ibiPend := false
  ibiByte := 0
  spiStatus := 0
  spiData := 0
  spiCrc := 0
  i3cData := []
  jtagIr := 0
  jtagDr := 0
  jtagStatus := 0
  jtagAddr := 0
  jtagData := 0
  jtagMode := 0
  boundary := []

def secReset : Sec where
  identity := 0
  seed := 0
  seedBlocked := false
  keys := List.replicate 4 ⟨false, false, 0, 0⟩
  imageA := []
  imageB := []
  loadSlot := none
  verifying := []
  startDue := none
  token := []
  certBase := []
  cert := []
  epoch := none
  epochs := 0
  leaves := 0
  report := []
  attesting := false
  attNonce := []
  booting := false
  bootOfs := 0
  bootRestarts := 0
  bootTick := none
  isRun := false

/-- The device right after a power-on reset. -/
def reset : State where
  part := ⟨1, 0x10, 0, 0⟩
  live := []
  under := []
  inUse := []
  snap := []
  applied := []
  seq := seqReset
  set := setReset
  mem := memReset
  pwr := pwrReset
  clk := clkReset
  mgmt := mgmtReset
  sec := secReset
  cmds := List.replicate 8 none
  rings := []
  frames := List.replicate 9 FrameLock.hunting
  slices := List.replicate 9 Slice.start
  mig := Mig.idle
  lanes := List.replicate 8 Lane.start
  ltx := List.replicate 2 TxPll.start
  cals := List.replicate 9 Cal.start
  thm := Thermal.start
  due := []
  scr := Fabric.start
  plb := Plumb.start
  obs := TxObs.start_
  hlanes := (List.range 16).map HLane.start
  hrx := List.replicate 16 HRx.start
  tte := Tte.start
  mons := List.replicate 4 Mon.start
  hka := Hka.start
  loops := List.replicate 16 Loop.start
  cap := Cap.start
  jnl := jnlReset
  free := 0
  pending := []

end State
end Sys2Proof.Machine
end

