-- ==== Sys2Proof/Machine/Ops.lean ====
section
/-! DEFINITION. The named operations over the register files, counters, events and free values. Every chapter's meaning
reads and writes registers through these. -/
namespace Sys2Proof.Machine

/-- Reset values that depend on the index of the register: FFE_TAP8, MLSE_H1, RND_FIR tap 2, TRW_NBQ b0, the last tap of the
monitor filters, and TRW_CFGm.BDAC = m. -/
def resetExtra (r : Row) (i : List Nat) : Nat :=
  if r.base = Reg.FFE_TAP.base then (if i.getD 1 0 = 8 then 0x0800 else 0)
  else if r.base = Reg.MLSE_H.base then (if i.getD 1 0 = 0 then 0x0400 else 0)
  else if r.base = Reg.RND_FIR.base then (if i.getD 2 0 = 2 then 0x4000 else 0)
  else if r.base = Reg.TRW_NBQ.base then (if i.getD 1 0 = 0 then 0x200000 else 0)
  else if r.base = Reg.MON_FIRA.base ∨ r.base = Reg.MON_FIRB.base then (if i.getD 1 0 = 15 then 0x200000 else 0)
  else if r.base = Reg.TRW_CFG.base then i.getD 0 0 * 512
  else 0

/-- The register of a live address, with its indices. -/
def rowOf (a : Nat) : Option (Row × List Nat) := findIn (Reg.rowsAt a) a

/-- The reset value of the register at a live address; 0 where no register lies. -/
def resetWord (a : Nat) : Word :=
  match rowOf a with
  | none => 0
  | some (r, i) => BitVec.ofNat 48 (r.rst + resetExtra r i)

/-- The word a register file holds at an address. -/
def RegFile.get (f : List (Nat × Word)) (a : Nat) : Word := (kvGet f a).getD (resetWord a)

/-- The register file with the word at an address replaced, in canonical form. -/
def RegFile.set (f : List (Nat × Word)) (a : Nat) (w : Word) : List (Nat × Word) :=
  if w = resetWord a then kvDel f a else kvSet f a w

/-- The canonical form of a register file: addresses strictly rising, and no word equal to the reset value. -/
abbrev RegFile.wf (f : List (Nat × Word)) : Prop :=
  f.Pairwise (fun x y => x.1 < y.1) ∧ ∀ p ∈ f, p.2 ≠ resetWord p.1

namespace State

/-- The live word at an address. -/
def liveAt (s : State) (a : Nat) : Word := RegFile.get s.live a

/-- Replaces the live word at an address. -/
def setLive (s : State) (a : Nat) (w : Word) : State := { s with live := RegFile.set s.live a w }

/-- The undercoat word of a live address (R284). -/
def underAt (s : State) (a : Nat) : Word := RegFile.get s.under a

/-- Replaces the undercoat word of a live address and marks it written (R284, R285). -/
def setUnder (s : State) (a : Nat) (w : Word) : State :=
  { s with under := RegFile.set s.under a w
           set := { s.set with marks := if s.set.marks.contains a then s.set.marks else a :: s.set.marks
                               poison := s.set.poison.filter (· ≠ a) } }

/-- The value of a field of a live register. -/
def get (s : State) (f : FRef) (i : List Nat := []) : Nat := bits (s.liveAt (f.addr i)).toNat f.hi f.lo

/-- A field of a live register as a two's-complement number. -/
def getS (s : State) (f : FRef) (i : List Nat := []) : Int := sx (f.hi + 1 - f.lo) (s.get f i)

/-- Whether a one-bit field is 1. -/
def on (s : State) (f : FRef) (i : List Nat := []) : Bool := s.get f i = 1

/-- Writes a field of a live register. -/
def put (s : State) (f : FRef) (v : Nat) (i : List Nat := []) : State :=
  s.setLive (f.addr i) (BitVec.ofNat 48 (setBits (s.liveAt (f.addr i)).toNat f.hi f.lo v))

/-- Writes a field of a live register with the code of an integer. -/
def putI (s : State) (f : FRef) (v : Int) (i : List Nat := []) : State := s.put f (enc (f.hi + 1 - f.lo) v) i

/-- Sets an event bit. -/
def ev (s : State) (f : FRef) (i : List Nat := []) : State := s.put f 1 i

/-- Sets an event bit where a condition holds. -/
def evIf (s : State) (c : Bool) (f : FRef) (i : List Nat := []) : State := if c then s.put f 1 i else s

/-- Adds to a 48-bit counter register, saturating at 0xFFFF_FFFF_FFFF (R8). -/
def inc (s : State) (f : FRef) (i : List Nat := []) (n : Nat := 1) : State :=
  s.put f (min (s.get f i + n) (2 ^ (f.hi + 1 - f.lo) - 1)) i

/-- The value of a staged field that the stage has in use (R19). -/
def use (s : State) (f : FRef) (i : List Nat := []) : Nat := bits (RegFile.get s.inUse (f.addr i)).toNat f.hi f.lo

/-- A staged field in use, as a two's-complement number. -/
def useS (s : State) (f : FRef) (i : List Nat := []) : Int := sx (f.hi + 1 - f.lo) (s.use f i)

/-- Whether a one-bit staged field in use is 1. -/
def uses (s : State) (f : FRef) (i : List Nat := []) : Bool := s.use f i = 1

/-- The stage takes the live word of an address (R19). -/
def take (s : State) (a : Nat) : State := { s with inUse := RegFile.set s.inUse a (s.liveAt a) }

/-- The entries of a register file at addresses `lo` to `hi`. -/
def within (f : List (Nat × Word)) (lo hi : Nat) : List (Nat × Word) :=
  f.filter fun p => decide (lo ≤ p.1) && decide (p.1 ≤ hi)

/-- A Set has applied values at addresses `lo` to `hi` that the stage has not yet taken (R19). -/
def changedIn (s : State) (lo hi : Nat) : Bool := within s.live lo hi ≠ within s.inUse lo hi

/-- The stage takes the live values at addresses `lo` to `hi` (R19). -/
def takeIn (s : State) (lo hi : Nat) : State :=
  { s with inUse := (s.inUse.filter fun p => p.1 < lo) ++ within s.live lo hi ++ s.inUse.filter fun p => decide (hi < p.1) }

/-- A value of an undercoat field. -/
def stagedF (u : List (Nat × Word)) (f : FRef) (i : List Nat := []) : Nat := bits (RegFile.get u (f.addr i)).toNat f.hi f.lo

/-- The present free value (log entry 1). -/
def freeVal (s : State) : Nat := (Config.freeValue s.free).toNat

/-- The present free value, limited to `w` bits. -/
def freeBits (s : State) (w : Nat) : Nat := s.freeVal % 2 ^ w

/-- The free value has been used. -/
def useFree (s : State) : State := { s with free := s.free + 1 }

/-- Applies a step to the state for each element of a list, in order. -/
def each {α : Type} (s : State) (l : List α) (f : State → α → State) : State := l.foldl f s

/-- Applies a step where a condition holds. -/
def whenB (s : State) (c : Bool) (f : State → State) : State := if c then f s else s

/-- Power domain `d` is on. -/
def domOn (s : State) (d : Nat) : Bool := s.pwr.on.getLsbD d

/-- Tick boundaries since the release of the sequencer (R278). -/
def ticks (s : State) : Nat := s.get Reg.SEQ_TICKNUM.TICKS

/-- A rising edge of source `b` of SEQ_EVPEND (R265). -/
def seqEv (s : State) (b : Nat) : State :=
  s.put Reg.SEQ_EVPEND.PEND (s.get Reg.SEQ_EVPEND.PEND ||| 2 ^ b)

/-- An event of lane `k`'s registers: sets the bit and raises LANE (R265 bit 6). -/
def laneEv (s : State) (f : FRef) (k : Nat) : State := (s.ev f [k]).seqEv 6

/-- An event of the Float's block. -/
def floatEv (s : State) (f : FRef) : State := (s.ev f).seqEv 6

/-- R274: a source presents `n` counts, with `rises` rises from 0. A counter in EDGE mode takes the rises, one in LEVEL mode takes `n`;
FREEZE stops both. -/
def pmc (s : State) (code : Nat) (n : Nat := 1) (rises : Nat := 1) : State :=
  if n = 0 ∨ s.on Reg.PMC_CTL.FREEZE then s else
  s.each (s.live.filter fun p => decide (0x4B0100 ≤ p.1) && decide (p.1 < 0x4B0140)) fun s p =>
    let i := p.1 - 0x4B0100
    if bits p.2.toNat 7 0 = code then
      let held := s.get Reg.PMC_CNT.COUNT [i] = 2 ^ 48 - 1
      let s := s.inc Reg.PMC_CNT.COUNT [i] (if p.2.toNat.testBit 8 then rises else n)
      if ¬held ∧ s.get Reg.PMC_CNT.COUNT [i] = 2 ^ 48 - 1 then
        if i < 32 then s.put Reg.PMC_SAT.SAT (s.get Reg.PMC_SAT.SAT [0] ||| 2 ^ i) [0]
        else s.put Reg.PMC_SAT.SAT (s.get Reg.PMC_SAT.SAT [1] ||| 2 ^ (i - 32)) [1]
      else s
    else s

/-- R363: a pulse event that the Stencil sees in its next cycle, while it runs. -/
def capEv (s : State) (b : Nat) : State :=
  let st := s.get Reg.CAP_STAT.STATE
  if 1 ≤ st ∧ st ≤ 4 then { s with cap := { s.cap with pulses := s.cap.pulses ||| BitVec.ofNat 64 (2 ^ b) } } else s

/-- Kinds of `due`: starts that an applied Set arms, for the command that carries each out. -/
def dueMig : Nat := 0
def dueAdj : Nat := 1
def dueFcal : Nat := 2
def dueNoise : Nat := 3
def dueEvt : Nat := 4
def dueLoop : Nat := 5
def dueStip : Nat := 6
def dueCap : Nat := 7
def dueIs : Nat := 8
def dueFlush : Nat := 9

/-- A start is armed. -/
def armed (s : State) (kind i : Nat) : Bool := s.due.contains (kind, i)

/-- Arms a start. -/
def arm (s : State) (kind i : Nat) : State := if s.armed kind i then s else { s with due := s.due ++ [(kind, i)] }

/-- The start is taken. -/
def disarm (s : State) (kind i : Nat) : State := { s with due := s.due.filter (· ≠ (kind, i)) }

/-- The part is a full device (R1). -/
def isT (s : State) : Bool := s.part.variant = 1

/-- The part is a DX1608 (R1). -/
def is1608 (s : State) : Bool := s.part.variant = 3

/-- The applied mode code (R23). -/
def mode (s : State) : Nat := s.get Reg.MODE.CODE

end State

/-- A command that always completes. -/
abbrev Res := Host.Outcome State Fault Refusal

end Sys2Proof.Machine
end

