-- ==== Sys2Proof/Machine/Rs.lean ====
section
/-! DEFINITION. Reed–Solomon arithmetic over GF(2^10), field polynomial x^10 + x^3 + 1, with generator roots α^0, α^1, …: the
page code of R403 (24 check symbols) and the outer code RS(544,514) of IEEE 802.3 (30 check symbols, log entry 2). -/
namespace Sys2Proof.Machine.Rs

/-- One step of multiplication: the product of `a` by x, reduced. -/
def xtime (a : Nat) : Nat :=
  let b := 2 * a
  if b < 1024 then b else b ^^^ 0x409

/-- Product of two field elements. -/
def mul (a b : Nat) : Nat :=
  ((List.range 10).foldl (fun (p : Nat × Nat) i => (if b.testBit i then p.1 ^^^ p.2 else p.1, xtime p.2)) (0, a)).1

/-- α^n, α = x. -/
def alpha (n : Nat) : Nat := (List.range (n % 1023)).foldl (fun a _ => xtime a) 1

/-- `a` to the power `n` by repeated squaring over 10 bits of exponent. -/
def pow (a n : Nat) : Nat :=
  ((List.range 10).foldl (fun (p : Nat × Nat) i => (if n.testBit i then mul p.1 p.2 else p.1, mul p.2 p.2)) (1, a)).1

/-- Inverse of a nonzero element. -/
def inv (a : Nat) : Nat := pow a 1022

/-- Exclusive-OR of two lists of coefficients, the longer kept. -/
def addP : List Nat → List Nat → List Nat
  | [], q => q
  | p, [] => p
  | a :: p, b :: q => (a ^^^ b) :: addP p q

/-- Product of a polynomial by a constant. -/
def scale (c : Nat) (p : List Nat) : List Nat := p.map (mul c)

/-- Product of two polynomials, lowest degree first. -/
def mulP : List Nat → List Nat → List Nat
  | [], _ => []
  | a :: p, q => addP (scale a q) (0 :: mulP p q)

/-- Value of a polynomial, lowest degree first. -/
def eval (p : List Nat) (x : Nat) : Nat := p.foldr (fun c acc => c ^^^ mul acc x) 0

/-- The generator polynomial with `n` roots, lowest degree first. -/
def gen (n : Nat) : List Nat := (List.range n).foldl (fun g i => mulP g [alpha i, 1]) [1]

/-- The check symbols of a message, both highest degree first. -/
def encode (n : Nat) (msg : List Nat) : List Nat :=
  let g := ((gen n).take n).reverse
  msg.foldl (fun reg d =>
    let fb := d ^^^ reg.headD 0
    addP (reg.drop 1 ++ [0]) (scale fb g)) (List.replicate n 0)

/-- The syndromes of a received word, highest degree first. -/
def syndromes (n : Nat) (r : List Nat) : List Nat :=
  (List.range n).map fun j => let x := alpha j; r.foldl (fun acc c => mul acc x ^^^ c) 0

/-- State of the Berlekamp–Massey iteration. -/
structure Bm where
  c : List Nat
  b : List Nat
  len : Nat
  m : Nat
  bd : Nat

/-- One iteration for syndrome index `k`. -/
def bmStep (syn : List Nat) (st : Bm) (k : Nat) : Bm :=
  let d := (List.range (st.len + 1)).foldl (fun a i => a ^^^ mul (st.c.getD i 0) (syn.getD (k - i) 0)) 0
  if d = 0 then { st with m := st.m + 1 }
  else
    let t := addP st.c (scale (mul d (inv st.bd)) (List.replicate st.m 0 ++ st.b))
    if 2 * st.len ≤ k then ⟨t, st.c, k + 1 - st.len, 1, d⟩
    else { st with c := t, m := st.m + 1 }

/-- The error locator of a list of syndromes, with its length. -/
def locator (syn : List Nat) : List Nat × Nat :=
  let st := (List.range syn.length).foldl (bmStep syn) ⟨[1], [1], 0, 1, 1⟩
  (st.c, st.len)

/-- Corrections of a received word (highest degree first): position and value to exclusive-OR, none where it cannot be
decoded with at most `n / 2` symbols. -/
def decode (n : Nat) (r : List Nat) : Option (List (Nat × Nat)) :=
  let syn := syndromes n r
  if syn.all (· == 0) then some [] else
  let (lam, len) := locator syn
  let total := r.length
  let om := (mulP syn lam).take n
  let dl := (List.range lam.length).map fun i => if i % 2 = 0 then lam.getD (i + 1) 0 else 0
  let errs := (List.range total).filterMap fun p =>
    let x := alpha (total - 1 - p)
    let xi := inv x
    if eval lam xi = 0 then some (p, mul x (mul (eval om xi) (inv (eval dl xi)))) else none
  let fixed := (List.range total).map fun p => r.getD p 0 ^^^ (kvGet errs p).getD 0
  if len ≤ n / 2 ∧ errs.length = len ∧ (syndromes n fixed).all (· == 0) then some errs else none

/-- The 10-bit symbols of a stream of bits, the last padded with zeros; `fuel` bounds the number of symbols. -/
def symbols : Nat → List Bool → List Nat
  | 0, _ => []
  | _ + 1, [] => []
  | f + 1, l => ofMsb ((l ++ List.replicate 10 false).take 10) :: symbols f (l.drop 10)

end Sys2Proof.Machine.Rs
end

