-- ==== Sys2Proof/Machine/Mem.lean ====
section
/-! DEFINITION. The protected memories: word code, page code, poison, error log and test access
(spec/20_memory_protection_and_error_handling.md, R401–R417). -/
namespace Sys2Proof.Machine

/-- The memory codes of R405. -/
def memIMEM : Nat := 0
def memDMEM : Nat := 1
def memRING : Nat := 2
def memFLOW : Nat := 3
def memCAL : Nat := 4
def memCOEF : Nat := 5
def memCAP : Nat := 6
def memRB : Nat := 7
def memSCR : Nat := 11
def memTRC : Nat := 12

/-- Words of each memory (R405). -/
def memWords (m : Nat) : Nat :=
  [65536, 262144, 1048576, 65536, 131072, 65536, 2097152, 8192, 8192, 8192, 8192, 16384, 65536].getD m 0

/-- Memories 6 and 12 have the word code only (R405). -/
def hasPage (m : Nat) : Bool := m != 6 && m != 12

/-- The power domain that holds a memory (R385). -/
def memDom (m : Nat) : Nat := [43, 43, 41, 40, 56, 56, 45, 52, 53, 54, 55, 48, 44].getD m 56

/-- R401: the data columns of the Hsiao code, the 8-bit values with three bits set in rising order. -/
def hsiaoCols : List Nat := ((List.range 256).filter fun v => popCount 8 v = 3).take 48

/-- R401: the check bits of a word. -/
def hsiaoCheck (d : Word) : BitVec 8 :=
  BitVec.ofNat 8 ((List.range 48).foldl (fun a i => if d.toNat.testBit i then a ^^^ hsiaoCols.getD i 0 else a) 0)

/-- R401: the syndrome of a stored word. -/
def Cell.syndrome (c : Cell) : Nat := (c.check ^^^ hsiaoCheck c.data).toNat

/-- R402: the word after a single-error correction, none where the syndrome names no single bit. -/
def Cell.single (c : Cell) : Option Word :=
  if c.syndrome = 0 then some c.data
  else if popCount 8 c.syndrome = 1 then some c.data
  else match hsiaoCols.findIdx? (· = c.syndrome) with
    | some i => some (c.data ^^^ BitVec.ofNat 48 (2 ^ i))
    | none => none

/-- A word with correct check bits. -/
def Cell.of (w : Word) : Cell := ⟨w, hsiaoCheck w⟩

/-- R403: the 308 symbols of a page's data words. -/
def pageSymbols (ws : List Word) : List Nat := Rs.symbols 308 (ws.flatMap fun w => msbBits 48 w.toNat)

/-- R403: the 64 data words of a page from its 308 symbols. -/
def pageWords (syms : List Nat) : List Word :=
  let bs := syms.flatMap (msbBits 10)
  (List.range 64).map fun i => BitVec.ofNat 48 (ofMsb ((bs.drop (48 * i)).take 48))

/-- R402: a stored word as the word code delivers it; a word it cannot correct reads as stored. -/
def Cell.value (c : Cell) : Word := c.single.getD c.data

/-- R403: a page record of check symbols and a poison map: the check words hold the symbols in order, each first bit highest. -/
def Page.of (syms : List Nat) (map : BitVec 64) : Page :=
  let bs := syms.flatMap (msbBits 10)
  ⟨(List.range 5).map fun i => Cell.of (BitVec.ofNat 48 (ofMsb ((bs.drop (48 * i)).take 48))),
   [Cell.of (map.extractLsb' 0 48), Cell.of (BitVec.ofNat 48 (map.extractLsb' 48 16).toNat)]⟩

/-- The page record of a page of zeros. -/
def Page.zero : Page := ⟨List.replicate 5 ⟨0, 0⟩, List.replicate 2 ⟨0, 0⟩⟩

/-- R403: the 24 check symbols of a page. -/
def Page.syms (g : Page) : List Nat := Rs.symbols 24 (g.chk.flatMap fun c => msbBits 48 c.value.toNat)

/-- R410: map word `i` of a page. -/
def Page.mapWord (g : Page) (i : Nat) : Cell := g.maps.getD i ⟨0, 0⟩

/-- R410: the poison bits of a page. -/
def Page.map (g : Page) : BitVec 64 :=
  BitVec.ofNat 64 ((g.mapWord 0).value.toNat + 2 ^ 48 * ((g.mapWord 1).value.toNat % 2 ^ 16))

/-- R410: the check words that cannot be corrected. -/
def Page.badChecks (g : Page) : List Nat := (List.range g.chk.length).filter fun i => (g.chk.getD i ⟨0, 0⟩).single.isNone

/-- R410: map word `i` cannot be corrected. -/
def Page.badMap (g : Page) (i : Nat) : Bool := (g.mapWord i).single.isNone

namespace State

/-- Memory `m` of R405. -/
def memAt (s : State) (m : Nat) : Mem := s.mem.mems.getD m ⟨[], []⟩

/-- Replaces memory `m`. -/
def setMem (s : State) (m : Nat) (f : Mem → Mem) : State := { s with mem := { s.mem with mems := upd s.mem.mems m f } }

/-- The stored word `a` of memory `m`. A word of the coefficient store that test mode has not written holds the undercoat copy it
is the home of. -/
def cell (s : State) (m a : Nat) : Cell :=
  match kvGet (s.memAt m).cells a with
  | some c => c
  | none => if m = memCOEF then (match Config.coefHome a with | some r => Cell.of (s.underAt r) | none => ⟨0, 0⟩) else ⟨0, 0⟩

/-- Stores a word and check bits as given, in canonical form. -/
def setCell (s : State) (m a : Nat) (c : Cell) : State :=
  s.setMem m fun x => { x with cells := if m ≠ memCOEF ∧ c = ⟨0, 0⟩ then kvDel x.cells a else kvSet x.cells a c }

/-- The page record `p` of memory `m`. -/
def page (s : State) (m p : Nat) : Page :=
  match kvGet (s.memAt m).pages p with
  | some g => g
  | none => if m = memCOEF then
      Page.of (Rs.encode 24 (pageSymbols ((List.range 64).map fun i =>
        match Config.coefHome (64 * p + i) with | some r => s.underAt r | none => 0)))
       (BitVec.ofNat 64 (ofLsb ((List.range 64).map fun i =>
        match Config.coefHome (64 * p + i) with | some r => s.set.poison.contains r | none => false)))
    else Page.zero

/-- Stores a page record in canonical form. -/
def setPage (s : State) (m p : Nat) (g : Page) : State :=
  s.setMem m fun x => { x with pages := if m = memCOEF ∨ g = Page.zero then kvDel x.pages p else kvSet x.pages p g }

/-- R410: the poison map of word `a` cannot be read. Under it no word that holds 0 can be told from a poisoned one. -/
def unmapped (s : State) (m a : Nat) : Bool := (s.page m (a / 64)).badMap (a % 64 / 48) && (s.cell m a).data = 0

/-- Word `a` of memory `m` is poisoned (R406, R410). -/
def poisoned (s : State) (m a : Nat) : Bool := hasPage m && (s.unmapped m a || (s.page m (a / 64)).map.getLsbD (a % 64))

/-- Class names of R414, as codes. -/
def ceWord : Nat := 1
def cePage : Nat := 2
def uePoison : Nat := 3
def poisonAccess : Nat := 4
def rmwRefused : Nat := 5
def checkRebuilt : Nat := 6
def ueWord : Nat := 7

/-- Whose data memory word `a` is, for the event MEM of the Quaran (R405, R413): DMEM, RB0 to RB2 and the rings it consumes. -/
def ownedByQuaran (s : State) (m a : Nat) : Bool :=
  m = memDMEM || (memRB ≤ m && m < memRB + 3) ||
  (m = memRING && (s.live.any fun p => decide (0x280000 ≤ p.1) && decide (p.1 < 0x288000) && decide (p.1 % 4 = 0) &&
    decide (bits p.2.toNat 23 21 ≠ 0) && decide (bits p.2.toNat 17 15 = 3) && decide (bits p.2.toNat 47 28 ≤ a) &&
    decide (a < bits p.2.toNat 47 28 + 4 * 2 ^ bits p.2.toNat 27 24)))

/-- R414–R416: one memory report. -/
def memReport (s : State) (cls m : Nat) (who : Master) (how a syn nsym npois : Nat) : State :=
  let s := s.inc Reg.MEM_CNT.COUNT [cls - 1]
  let s := s.evIf (cls = ceWord || cls = cePage) Reg.MEM_EVT.CE
  let first := (cls = uePoison || cls = ueWord) && !s.on Reg.MEM_EVT.UE
  let s := s.evIf (cls = uePoison || cls = ueWord) Reg.MEM_EVT.UE
  let s := s.whenB (cls = uePoison || cls = ueWord) (·.capEv 56)
  let s := s.evIf (cls = poisonAccess) Reg.MEM_EVT.POISON_ACCESS
  let s := s.evIf (cls = rmwRefused) Reg.MEM_EVT.RMW_REFUSED
  let s := if cls = ceWord ∨ cls = cePage then s.pmc 0x90 else if cls = uePoison ∨ cls = ueWord then s.pmc 0x91 else s
  let s := s.whenB (cls != ceWord && cls != cePage && cls != checkRebuilt && s.ownedByQuaran m a) (·.seqEv 14)
  let w0 (rep : Nat) : Word := BitVec.ofNat 48 (cls * 2 ^ 44 + m * 2 ^ 40 + who.code * 2 ^ 37 + how * 2 ^ 35 + rep * 2 ^ 27 + a % 2 ^ 21)
  let e : Word × Word × Word := (w0 0, BitVec.ofNat 48 s.ticks, BitVec.ofNat 48 (syn * 2 ^ 40 + nsym * 2 ^ 36 + npois * 2 ^ 30))
  let s := if first then
      ((s.setLive 0x4A0008 e.1).setLive 0x4A0009 e.2.1 |>.setLive 0x4A000A e.2.2).put Reg.MEM_STAT.FIRST_VALID 1
    else s
  let same : Bool := match s.mem.log.getLast? with
    | some (w, _, _) => bits w.toNat 47 44 = cls && bits w.toNat 43 40 = m && bits w.toNat 20 0 / 64 = a % 2 ^ 21 / 64
    | none => false
  let s :=
    if same && s.on Reg.MEM_CFG.COALESCE then
      { s with mem := { s.mem with log := upd s.mem.log (s.mem.log.length - 1) fun x =>
          (BitVec.ofNat 48 (setBits x.1.toNat 34 27 (min 255 (bits x.1.toNat 34 27 + 1))), x.2) } }
    else if s.mem.log.length < 64 then { s with mem := { s.mem with log := s.mem.log ++ [e] } }
    else (s.inc Reg.MEM_LOST_CNT.COUNT).ev Reg.MEM_EVT.LOG_LOST
  s.put Reg.MEM_STAT.LOG_FILL s.mem.log.length

/-- The data words of a page as stored. -/
def pageCells (s : State) (m p : Nat) : List Cell := (List.range 64).map fun i => s.cell m (64 * p + i)

/-- Stores a corrected or poisoned word; a word of the coefficient store goes to the undercoat it holds. -/
def storeWord (s : State) (m a : Nat) (w : Word) : State :=
  if m = memCOEF then
    let s := s.setMem m fun x => { x with cells := kvDel x.cells a }
    match Config.coefHome a with
    | some r => { s with under := RegFile.set s.under r w }
    | none => s.setCell m a (Cell.of w)
  else s.setCell m a (Cell.of w)

/-- Marks or clears the poison of a word (R406, R409). -/
def setPoison (s : State) (m a : Nat) (v : Bool) : State :=
  if m = memCOEF then
    match Config.coefHome a with
    | some r => { s with set := { s.set with poison := if v then r :: s.set.poison.filter (· ≠ r) else s.set.poison.filter (· ≠ r) } }
    | none => s
  else if v = s.poisoned m a then s else
    let g := s.page m (a / 64)
    s.setPage m (a / 64) (Page.of g.syms (g.map ^^^ BitVec.ofNat 64 (2 ^ (a % 64))))

/-- Check symbols recomputed over the page as it stands (R406, R410). -/
def recode (s : State) (m p : Nat) : State :=
  s.setPage m p (Page.of (Rs.encode 24 (pageSymbols ((s.pageCells m p).map (·.data)))) (s.page m p).map)

/-- R406: after a failed page decode every word that the word code can correct is corrected and every other is poisoned. -/
def poisonPage (s : State) (m p : Nat) (who : Master) (how : Nat) : State :=
  let bad := (List.range 64).filter fun i => (s.cell m (64 * p + i)).single.isNone
  let s := s.each (List.range 64) fun s i =>
    let a := 64 * p + i
    let c := s.cell m a
    if c.syndrome = 0 then s else
    match c.single with
    | some w => s.storeWord m a w
    | none => (s.storeWord m a 0).setPoison m a true
  let s := s.recode m p
  s.each bad fun s i => s.memReport uePoison m who how (64 * p + i) 0 0 bad.length

/-- R410: map word `i` of a page is rebuilt: every word it covers that holds 0 is poisoned. -/
def rebuildMap (s : State) (m p i : Nat) (who : Master) (how : Nat) : State :=
  if ¬ (s.page m p).badMap i then s else
  let lost := (List.range 64).filter fun j => j / 48 = i && (s.cell m (64 * p + j)).single = some 0
  let other := (List.range 64).filter fun j => j / 48 ≠ i && (s.page m p).map.getLsbD j
  let g := s.page m p
  let s := s.setPage m p { g with maps := (Page.of [] (BitVec.ofNat 64 (ofLsb ((List.range 64).map fun j => (lost ++ other).contains j)))).maps }
  let s := s.each lost fun s j => s.memReport uePoison m who how (64 * p + j) 0 0 lost.length
  s.memReport checkRebuilt m who how (64 * p) 0 0 lost.length

/-- R410: a page's map words and check words are rebuilt where they cannot be corrected: the check symbols from the page's data after word
correction, with what the word code cannot correct poisoned (R406). -/
def pageSound (s : State) (m p : Nat) (who : Master) (how : Nat) : State :=
  if ¬ hasPage m then s else
  let s := (s.rebuildMap m p 0 who how).rebuildMap m p 1 who how
  match (s.page m p).badChecks with
  | [] => s
  | bad => (s.poisonPage m p who how).each bad fun s _ => s.memReport checkRebuilt m who how (64 * p) 0 0 0

/-- R404: a page decode for word `a`. -/
def pageDecode (s : State) (m a : Nat) (who : Master) (how : Nat) : State :=
  let p := a / 64
  let syn := (s.cell m a).syndrome
  let rx := pageSymbols ((s.pageCells m p).map (·.data)) ++ (s.page m p).syms
  match Rs.decode 24 rx with
  | some errs =>
    let fixed := (List.range 308).map fun j => rx.getD j 0 ^^^ (kvGet errs j).getD 0
    let ws := pageWords fixed
    let s := s.each (List.range 64) fun s i =>
      let c := Cell.of (ws.getD i 0)
      if s.cell m (64 * p + i) = c then s else s.storeWord m (64 * p + i) c.data
    let s := s.setPage m p (Page.of ((List.range 24).map fun j => rx.getD (308 + j) 0 ^^^ (kvGet errs (308 + j)).getD 0) (s.page m p).map)
    s.memReport cePage m who how a syn errs.length 0
  | none => s.poisonPage m p who how

/-- Settles word `a` of memory `m` before a use of its value (R402, R404). Afterwards the word is good, or poisoned, or, in a
memory without a page code, unusable. -/
def settle (s : State) (m a : Nat) (who : Master) (how : Nat) : State :=
  let s := s.whenB (hasPage m && ((s.cell m a).syndrome ≠ 0 || s.unmapped m a)) (·.pageSound m (a / 64) who how)
  let c := s.cell m a
  if c.syndrome = 0 then s
  else if hasPage m then
    match c.single with
    | some w =>
      let cells := (s.pageCells m (a / 64)).map (·.data)
      let rx := pageSymbols (upd cells (a % 64) fun _ => w) ++ (s.page m (a / 64)).syms
      if (Rs.syndromes 24 rx).all (· == 0) then
        (s.storeWord m a w).memReport ceWord m who how a c.syndrome 0 0
      else s.pageDecode m a who how
    | none => s.pageDecode m a who how
  else match c.single with
    | some w => (s.storeWord m a w).memReport ceWord m who how a c.syndrome 0 0
    | none => s.memReport ueWord m who how a c.syndrome 0 0

/-- A read of word `a`: the state after it, whether the word can be delivered, and the word. An unusable or poisoned word is
logged as POISON_ACCESS and delivered as 0 (R407). -/
def memRead (s : State) (m a : Nat) (who : Master) (how : Nat := 0) : State × Bool × Word :=
  let s := s.settle m a who how
  if s.poisoned m a || (s.cell m a).syndrome ≠ 0 then (s.memReport poisonAccess m who how a 0 0 0, false, 0)
  else (s, true, (s.cell m a).data)

/-- Settles the words of memory `m` from `lo` up to `hi`, which the device is about to read. An unlisted word is intact. -/
def settleRun (s : State) (m lo hi : Nat) : State :=
  let s := s.each (((s.memAt m).pages.map (·.1)).filter fun p => decide (lo < 64 * (p + 1)) && decide (64 * p < hi))
    fun s p => s.pageSound m p .device 3
  s.each (((s.memAt m).cells.map (·.1)).filter fun a => decide (lo ≤ a) && decide (a < hi)) fun s a => s.settle m a .device 3

/-- R409: a write of a whole word. -/
def memWrite (s : State) (m a : Nat) (w : Word) (who : Master) : State :=
  if ¬ hasPage m then s.setCell m a (Cell.of w)
  else
    let s := if (s.cell m a).syndrome = 0 then s else
      let s := s.settle m a who 1
      if (s.cell m a).syndrome = 0 then s else s.poisonPage m (a / 64) who 1
    let s := s.pageSound m (a / 64) who 1
    let delta := (s.cell m a).data ^^^ w
    let g := s.page m (a / 64)
    let dsyms := Rs.encode 24 (pageSymbols ((List.range 64).map fun i => if i = a % 64 then delta else 0))
    let s := (s.storeWord m a w).setPage m (a / 64) (Page.of (Rs.addP g.syms dsyms) g.map)
    s.setPoison m a false

/-- R408: a narrow write of the bits of `mask`; the result is false where it is refused. -/
def memNarrow (s : State) (m a : Nat) (mask w : Word) (who : Master) : State × Bool :=
  let s := s.settle m a who 1
  if s.poisoned m a || (s.cell m a).syndrome ≠ 0 then (s.memReport rmwRefused m who 1 a 0 0 0, false)
  else (s.memWrite m a (((s.cell m a).data &&& ~~~mask) ||| (w &&& mask)) who, true)

/-- A run of whole-word writes from address `a`. -/
def memWrites (s : State) (m a : Nat) (ws : List Word) (who : Master) : State :=
  s.each (ws.zipIdx) fun s (p : Word × Nat) => s.memWrite m (a + p.2) p.1 who

/-- R233 gives the CRC-32 that R397 keeps over the words of a retention bank. -/
def rbCrcOf (s : State) (b : Nat) : Nat :=
  crc32Bytes ((List.range 8192).flatMap fun a => wordBytes (s.cell (memRB + b) a).data)

/-- A write to a retention bank updates its CRC (R397). -/
def rbWrite (s : State) (b a : Nat) (w : Word) (who : Master) : State :=
  let s := s.memWrite (memRB + b) a w who
  { s with pwr := { s.pwr with rbCrc := upd s.pwr.rbCrc b fun _ => s.rbCrcOf b } }

/-- A narrow write to a retention bank (R408, R451). -/
def rbNarrow (s : State) (b a : Nat) (mask w : Word) (who : Master) : State × Bool :=
  let (s, ok) := s.memNarrow (memRB + b) a mask w who
  ({ s with pwr := { s.pwr with rbCrc := upd s.pwr.rbCrc b fun _ => s.rbCrcOf b } }, ok)

end State
end Sys2Proof.Machine
end

