-- ==== Sys2Proof/Machine/Rings.lean ====
section
/-! DEFINITION. The hardware rings and the ring store (spec/10_time_transparent_engine.md, R219–R225, R228). -/
namespace Sys2Proof.Machine.State

/-- Ring types of R219. -/
def ringOFF : Nat := 0
def ringCOMMAND : Nat := 1
def ringCOMPLETION : Nat := 2
def ringTIMESTAMP : Nat := 3
def ringEVENT : Nat := 4
def ringCAPIDX : Nat := 5
def ringFABRX : Nat := 6
def ringFABTX : Nat := 7

def ringType (s : State) (r : Nat) : Nat := s.get Reg.RNG_CFG.TYPE [r]

/-- Entries a ring can hold. -/
def ringSize (s : State) (r : Nat) : Nat := 2 ^ s.get Reg.RNG_CFG.SIZE_EXP [r]

/-- R221: FILL is (PI − CI) mod 2^16. -/
def ringFill (s : State) (r : Nat) : Nat := (s.get Reg.RNG_PI.INDEX [r] + 65536 - s.get Reg.RNG_CI.INDEX [r]) % 65536

/-- R221: the first ring-store word of entry `x`. -/
def ringWord (s : State) (r x : Nat) : Nat := s.get Reg.RNG_CFG.BASE [r] + 4 * (x % s.ringSize r)

/-- R223: a ring is pending. -/
def ringPending (s : State) (r : Nat) : Bool :=
  s.ringType r ≠ 0 && ((s.get Reg.RNG_CFG.WMARK [r] ≠ 0 && s.get Reg.RNG_CFG.WMARK [r] ≤ s.ringFill r) || s.on Reg.RNG_STAT.OVF [r])

/-- The rings whose descriptor differs from the reset value, in rising order. -/
def ringsSet (s : State) : List Nat :=
  (s.live.filter fun p => decide (0x280000 ≤ p.1) && decide (p.1 < 0x288000) && decide (p.1 % 4 = 0)).map fun p => (p.1 - 0x280000) / 4

/-- R223: the lowest-numbered pending ring. -/
def lowestPending (s : State) : Option Nat := s.ringsSet.find? s.ringPending

/-- A change of a ring's indices or OVF, with the rises it causes: WM (R223) and SEQ_EVPEND RING (R265). -/
def ringTouch (s : State) (r : Nat) (f : State → State) : State :=
  let t := f s
  let t := t.evIf (s.get Reg.RNG_CFG.WMARK [r] ≠ 0 && decide (s.ringFill r < s.get Reg.RNG_CFG.WMARK [r]) &&
    decide (s.get Reg.RNG_CFG.WMARK [r] ≤ t.ringFill r)) Reg.RNG_STAT.WM [r]
  t.whenB (!s.ringPending r && t.ringPending r && s.get Reg.RNG_CFG.CONS [r] = 3) (·.seqEv 1)

/-- Writes the words of one entry at position `x`. -/
def ringPut (s : State) (r x : Nat) (ws : List Word) (who : Master) : State :=
  s.memWrites memRING (s.ringWord r x) (ws.take 4) who

/-- Advances PI by `n` (R221). -/
def ringAdvance (s : State) (r n : Nat) : State :=
  s.ringTouch r fun s => s.put Reg.RNG_PI.INDEX ((s.get Reg.RNG_PI.INDEX [r] + n) % 65536) [r]

/-- Advances CI by `n` (R221). -/
def ringConsume (s : State) (r n : Nat) : State :=
  s.ringTouch r fun s => s.put Reg.RNG_CI.INDEX ((s.get Reg.RNG_CI.INDEX [r] + n) % 65536) [r]

/-- Records entered and dropped of a ring. -/
def ringCounts (s : State) (r : Nat) : Nat × Nat := (kvGet s.rings r).getD (0, 0)

/-- R222, R225: a device producer enters a record of one or more entries into ring `r`, which must be of type `ty`. Word 0 of the
first entry takes GAP and RSEQ. A full ring drops the record, counts LOST and sets OVF. Ring 0 named by a field that selects none
is the caller's to exclude. -/
def enterRecord (s : State) (r ty : Nat) (entries : List (List Word)) : State :=
  if s.ringType r ≠ ty ∨ ¬ s.domOn 41 then s else
  let (rseq, gap) := s.ringCounts r
  if s.ringSize r < s.ringFill r + entries.length then
    let s := s.ringTouch r fun s =>
      (s.put Reg.RNG_STAT.LOST (min 65535 (s.get Reg.RNG_STAT.LOST [r] + 1)) [r]).ev Reg.RNG_STAT.OVF [r]
    { s with rings := kvSet s.rings r (rseq, gap + 1) }
  else
    let rseq := (rseq + 1) % 65536
    let entries := upd entries 0 fun e => upd e 0 fun w =>
      BitVec.ofNat 48 (setBits (setBits w.toNat 43 36 (min 255 gap)) 35 20 rseq)
    let pi := s.get Reg.RNG_PI.INDEX [r]
    let s := s.each entries.zipIdx fun s (p : List Word × Nat) => s.ringPut r (pi + p.2) p.1 .device
    let s := { s with rings := kvSet s.rings r (rseq, 0) }
    s.ringAdvance r entries.length

/-- R222: the named ring cannot take the record: none named, or of another type. -/
def ringUsable (s : State) (r ty : Nat) : Bool := s.ringType r = ty && s.domOn 41

/-- R221, R224: the producer writes PI; true where the write was a violation of cause RING. -/
def writePi (s : State) (m : Master) (r v : Nat) : State × Bool :=
  if s.ringType r = 0 ∨ s.get Reg.RNG_CFG.PROD [r] ≠ m.code then (s, true) else
  let fill := (v % 65536 + 65536 - s.get Reg.RNG_CI.INDEX [r]) % 65536
  if fill < s.ringFill r ∨ s.ringSize r < fill then (s.ev Reg.RNG_STAT.PI_BAD [r], false)
  else (s.ringTouch r fun s => s.put Reg.RNG_PI.INDEX (v % 65536) [r], false)

/-- R221, R224: the consumer writes CI; true where the write was a violation of cause RING. -/
def writeCi (s : State) (m : Master) (r v : Nat) : State × Bool :=
  if s.ringType r = 0 ∨ s.get Reg.RNG_CFG.CONS [r] ≠ m.code then (s, true) else
  let fill := (s.get Reg.RNG_PI.INDEX [r] + 65536 - v % 65536) % 65536
  if s.ringFill r < fill then (s.ev Reg.RNG_STAT.CI_BAD [r], false)
  else (s.ringTouch r fun s => s.put Reg.RNG_CI.INDEX (v % 65536) [r], false)

/-- R224: the ring (of a type other than OFF) whose region holds ring-store word `a`. -/
def ringAt (s : State) (a : Nat) : Option Nat :=
  s.ringsSet.find? fun r => s.ringType r ≠ 0 && decide (s.get Reg.RNG_CFG.BASE [r] ≤ a) &&
    decide (a < s.get Reg.RNG_CFG.BASE [r] + 4 * s.ringSize r)

/-- R224: a master may write ring-store word `a` through the window. -/
def mayWriteStore (s : State) (m : Master) (a : Nat) : Bool :=
  match s.ringAt a with
  | some r => s.get Reg.RNG_CFG.PROD [r] = m.code
  | none => false

/-- R220, R222: a changed descriptor has been applied: PI, CI and LOST are 0, and the records are counted anew. -/
def ringClear (s : State) (r : Nat) : State :=
  let s := ((s.put Reg.RNG_PI.INDEX 0 [r]).put Reg.RNG_CI.INDEX 0 [r]).put Reg.RNG_STAT.LOST 0 [r]
  { s with rings := kvDel s.rings r }

end Sys2Proof.Machine.State
end

