-- ==== Sys2Proof/Machine/Seqr.lean ====
section
/-! DEFINITION. The sequencer core: halts, resets, exceptions, scheduling and the debug window
(spec/12_quaran_sequencer_isa.md R252–R254, R269–R273; spec/13_programming_the_device.md R278–R283). -/
namespace Sys2Proof.Machine.State

/-- Applies a change to the sequencer's state. -/
def sq (s : State) (f : Seq → Seq) : State := { s with seq := f s.seq }

/-- Word register `i`; w0 reads 0 (R252). -/
def wreg (s : State) (i : Nat) : Word := if i = 0 then 0 else s.seq.w.getD i 0

/-- Writes word register `i`; a write of w0 is discarded (R252). -/
def setW (s : State) (i : Nat) (v : Word) : State := if i = 0 then s else s.sq fun q => { q with w := upd q.w i fun _ => v }

/-- Accumulator `i`. -/
def accAt (s : State) (i : Nat) : BitVec 104 := s.seq.acc.getD i 0

def setAcc (s : State) (i : Nat) (v : BitVec 104) : State := s.sq fun q => { q with acc := upd q.acc i fun _ => v }

/-- The flags as GETF gives them: bit 4 S, 3 V, 2 C, 1 N, 0 Z. -/
def flagsCode (s : State) : Nat :=
  16 * b2n s.seq.sf + 8 * b2n s.seq.v + 4 * b2n s.seq.c + 2 * b2n s.seq.n + b2n s.seq.z

def setFlags (s : State) (n : Nat) : State :=
  s.sq fun q => { q with sf := n.testBit 4, v := n.testBit 3, c := n.testBit 2, n := n.testBit 1, z := n.testBit 0 }

/-- SEQ_STAT.STATE (R276): 0 IDLE, 1 RUN, 2 WAITING, 3 HALTED, 4 RESETTING. -/
def seqState (s : State) : Nat :=
  if s.seq.halted then 3 else if s.seq.resetting then 4
  else if s.seq.waiting.isSome && s.seq.run.isSome then 2
  else if s.seq.run.isSome && !s.seq.suspended then 1 else 0

/-- Cycles a tick holds for the sequencer (R18, R281). -/
def tickCycles (s : State) : Nat := if 1 ≤ s.get Reg.THM_STAT.THR_LEVEL then 960 else 1920

/-- R281: cycles that the scheduler uses in a tick. -/
def schedCycles (s : State) : Nat := s.tickCycles / 240

/-- An instruction can issue: a run is current, nothing stops the sequencer, and the tick has cycles left for runs (R281). -/
def issues (s : State) : Bool :=
  s.seq.run.isSome && !s.seq.suspended && !s.seq.halted && !s.seq.resetting && !s.seq.clkStopped && s.seq.waiting.isNone &&
    decide (s.seq.cyc + s.schedCycles < s.tickCycles)

/-- R274: in each of `n` sequencer cycles the sources `codes` present 1. -/
def pmcCycles (s : State) (codes : List Nat) (n : Nat) : State :=
  if n = 0 then s else
  (s.each codes fun s c => s.pmc c n (if s.seq.edge.1.contains c then 0 else 1)).sq fun q => { q with edge := (codes, q.edge.2) }

/-- Every sequencer cycle of a run is one slot (R273): `n` cycles of slot `code`, with the further sources that they present. -/
def slots (s : State) (code n : Nat) (also : List Nat := []) : State :=
  (s.pmcCycles ([0x01, code] ++ also) n).sq fun q => { q with cyc := q.cyc + n }

/-- Discards held ring entries (R266). -/
def dropHeld (s : State) : State := s.sq fun q => { q with heldPush := [], heldPop := [] }

/-- Entry to HALTED (R272): HALT_REQ reads 1, and HALTED is recorded. -/
def halt (s : State) : State :=
  if s.seq.halted then s.put Reg.SEQ_CTL.HALT_REQ 1 else
  ((s.put Reg.SEQ_CTL.HALT_REQ 1).ev Reg.SEQ_EVT.HALTED).sq fun q => { q with halted := true }

/-- R272: HALT_REQ written 0 ends a halt; the halted run resumes at the next tick boundary as that tick's first. -/
def resume (s : State) : State :=
  (s.put Reg.SEQ_CTL.HALT_REQ 0).sq fun q =>
    if q.halted then { q with halted := false, suspended := q.run.isSome, hold := true } else q

/-- R271: the sequencer core is reset. Words, accumulators, flags, call stack and held entries clear; COUNT is reloaded; every task
starts from its entry address at the next tick boundary (log entry 5). -/
def coreReset (s : State) : State :=
  let s := s.sq fun q =>
    { seqReset with
      slotB := q.slotB, imageRuns := q.imageRuns, task := q.task, pc := q.pc, pstat := q.pstat
      cyc := q.cyc, edge := (q.edge.1, []), clkStopped := q.clkStopped, trialEnd := q.trialEnd, revert := q.revert, resetting := true }
  let s := s.put Reg.SEQ_CTL.HALT_REQ 0
  let s := s.put Reg.SEQ_WDOG.COUNT (16 * s.get Reg.SEQ_WDOG.PERIOD)
  s.each (List.range 32) fun s i =>
    (s.put Reg.SEQ_TSTAT.RESUME (s.get Reg.SEQ_TASK.ENTRY [i]) [i]).put Reg.SEQ_TSTAT.PENDING 0 [i]

/-- A run ends (R279): its slot stops being pending. -/
def endRun (s : State) : State :=
  match s.seq.run with
  | none => s
  | some t => ((s.put Reg.SEQ_TSTAT.PENDING 0 [t]).dropHeld).sq fun q => { q with run := none, suspended := false, waiting := none }

/-- R280: the slot is disabled by an exception. -/
def disableSlot (s : State) (t : Nat) : State :=
  ((s.put Reg.SEQ_TASK.EN 0 [t]).put Reg.SEQ_TSTAT.DISABLED 1 [t]).put Reg.SEQ_TSTAT.PENDING 0 [t]

/-- Exception causes of R270. -/
def exILLEGAL : Nat := 1
def exIMEM_UNC : Nat := 2
def exDMEM_UNC : Nat := 3
def exDMEM_RANGE : Nat := 4
def exPORT_VIOL : Nat := 5
def exPORT_STG : Nat := 6
def exSTACK : Nat := 7
def exBRK : Nat := 8

/-- R270: an exception cancels the instruction that raised it and acts as EXC_ACT selects. -/
def exception (s : State) (cause addr : Nat) : State :=
  let t := s.seq.run.getD s.seq.task
  let s := ((s.dropHeld.inc Reg.EXC_CNT.COUNT).pmc 0x13).capEv 58
  let s := s.slots 0x03 1
  let s := if s.on Reg.SEQ_EVT.EXC then s.put Reg.SEQ_EXC.MORE 1 else
    (((s.put Reg.SEQ_EXC.CAUSE cause).put Reg.SEQ_EXC.TASK t).put Reg.SEQ_EXC.PC s.seq.pc).put Reg.SEQ_EXC_ADDR.ADDR
      (if 3 ≤ cause ∧ cause ≤ 6 then addr else 0)
  let s := s.ev Reg.SEQ_EVT.EXC
  match s.get Reg.SEQ_CTL.EXC_ACT with
  | 0 => s.halt
  | 2 => s.endRun.disableSlot t
  | _ => s.endRun

/-- An instruction retires: PC, slots (R269, R273) and the interlock history. `reads` are the word registers it uses, `accR` the
accumulator it reads in the way of ROUND, `back` its own extra cycles, `port` the stall of its port access, `wasted` the slots a
taken branch squashes, `ld` the destination of an LD, `mac` the accumulator a MAC-class instruction writes. -/
def retire (s : State) (npc : Nat) (reads : List Nat := []) (accR : Option Nat := none) (back : Nat := 0) (port : Nat := 0)
    (wasted : Nat := 0) (ld : Option Nat := none) (mac : Option Nat := none) : State :=
  let useStall := match s.seq.ldRd with | some r => if reads.contains r ∧ r ≠ 0 then 1 else 0 | none => 0
  let accStall := match accR with
    | some a => if s.seq.mac1 = some a then 2 else if s.seq.mac2 = some a then 1 else 0
    | none => 0
  let s := ((s.slots 0x05 (useStall + accStall) [0x0A]).slots 0x05 port [0x09]).slots 0x05 back
  let s := (s.slots 0x02 1 s.seq.edge.2).slots 0x03 wasted
  s.sq fun q => { q with pc := npc % 32768, ldRd := ld, mac2 := q.mac1, mac1 := mac, edge := (q.edge.1, []) }

/-- The next instruction index of the running slot (R252). -/
def nextPc (s : State) : Nat := (s.seq.pc + 1) % 32768

/-- The physical IMEM address of the PC (R252). -/
def fetchAddr (s : State) : Nat := s.seq.pc + (if s.seq.slotB then 32768 else 0)

/-- The pending slot the scheduler picks: lowest PRIO, then lowest number (R279). -/
def pickSlot (s : State) : Option Nat :=
  (List.range 32).foldl (fun best i =>
    if s.get Reg.SEQ_TSTAT.PENDING [i] = 0 then best else
    match best with
    | none => some i
    | some b => if s.get Reg.SEQ_TASK.PRIO [i] < s.get Reg.SEQ_TASK.PRIO [b] then some i else best) none

/-- ACCGET part `p` of an accumulator (R256). -/
def accPart (a : BitVec 104) (p : Nat) : Word :=
  match p with
  | 0 => BitVec.ofNat 48 a.toNat
  | 1 => BitVec.ofNat 48 (a.toNat >>> 48)
  | _ => BitVec.ofNat 48 (enc 48 (sx 8 (a.toNat >>> 96)))

/-- ACCPUT part `p` of an accumulator (R256). -/
def accWithPart (a : BitVec 104) (p : Nat) (w : Word) : BitVec 104 :=
  match p with
  | 0 => BitVec.ofNat 104 (setBits a.toNat 47 0 w.toNat)
  | 1 => BitVec.ofNat 104 (setBits a.toNat 95 48 w.toNat)
  | _ => BitVec.ofNat 104 (setBits a.toNat 103 96 w.toNat)

/-- R272: a read through the debug window: state, deliverable, word. -/
def dbgRead (s : State) (who : Master) : State × Bool × Word :=
  let a := s.get Reg.SEQ_DBG_ADDR.ADDR
  if a < 0x20 then (s, true, s.wreg a)
  else if 0x20 ≤ a ∧ a < 0x23 then (s, true, accPart (s.accAt 0) (a - 0x20))
  else if 0x24 ≤ a ∧ a < 0x27 then (s, true, accPart (s.accAt 1) (a - 0x24))
  else if a = 0x28 then (s, true, BitVec.ofNat 48 s.flagsCode)
  else if a = 0x29 then (s, true, BitVec.ofNat 48 s.seq.pc)
  else if 0x100000 ≤ a ∧ a < 0x140000 then s.memRead memDMEM (a - 0x100000) who
  else if 0x200000 ≤ a ∧ a < 0x210000 then s.memRead memIMEM (a - 0x200000) who
  else (s, true, 0)

/-- The life-cycle state permits IMEM debug writes (R431): MANUFACTURE and RMA. -/
def imemOpen (s : State) : Bool := s.get Reg.LCS_STAT.STATE = 0 || s.get Reg.LCS_STAT.STATE = 3

/-- R272: a write through the debug window. -/
def dbgWrite (s : State) (w : Word) (who : Master) : State :=
  let a := s.get Reg.SEQ_DBG_ADDR.ADDR
  if 0x200000 ≤ a ∧ a < 0x210000 then (if s.imemOpen then s.memWrite memIMEM (a - 0x200000) w who else s)
  else if ¬ s.seq.halted then s
  else if a < 0x20 then s.setW a w
  else if 0x20 ≤ a ∧ a < 0x23 then s.setAcc 0 (accWithPart (s.accAt 0) (a - 0x20) w)
  else if 0x24 ≤ a ∧ a < 0x27 then s.setAcc 1 (accWithPart (s.accAt 1) (a - 0x24) w)
  else if a = 0x28 then s.setFlags (w.toNat % 32)
  else if a = 0x29 then s.sq fun q => { q with pc := w.toNat % 32768, waiting := none }
  else if 0x100000 ≤ a ∧ a < 0x140000 then s.memWrite memDMEM (a - 0x100000) w who
  else s

/-- R271: a write to SEQ_WDOG by `m`. -/
def wdogWrite (s : State) (m : Master) (w : Word) : State :=
  let p := bits w.toNat 7 0
  if p ≠ s.get Reg.SEQ_WDOG.PERIOD then (s.put Reg.SEQ_WDOG.PERIOD p).put Reg.SEQ_WDOG.COUNT (16 * p)
  else if bits w.toNat 15 8 = 0x5A ∧ m = .quaran then s.put Reg.SEQ_WDOG.COUNT (16 * p)
  else s

/-- R272, R276: a write to SEQ_CTL. A reserved EXC_ACT code leaves the field (R6). -/
def seqCtlWrite (s : State) (w : Word) : State :=
  let s := s.put Reg.SEQ_CTL.BRK_EN (bits w.toNat 0 0)
  let s := if bits w.toNat 11 10 = 3 then s else s.put Reg.SEQ_CTL.EXC_ACT (bits w.toNat 11 10)
  let was := s.seq.halted
  let s := if bits w.toNat 8 8 = 1 then s.halt else s.resume
  if bits w.toNat 9 9 = 1 ∧ was ∧ s.seq.halted then s.sq fun q => { q with stepDue := true } else s

/-- R280: a write to SEQ_TASKs. -/
def taskWrite (s : State) (i : Nat) (w : Word) : State :=
  let en := s.get Reg.SEQ_TASK.EN [i]
  let entry := s.get Reg.SEQ_TASK.ENTRY [i]
  let s := s.setLive (Reg.SEQ_TASK.addr [i]) (w &&& BitVec.ofNat 48 Reg.SEQ_TASK.mask)
  let en' := bits w.toNat 47 47
  let s := if (en = 0 ∧ en' = 1) ∨ bits w.toNat 14 0 ≠ entry then s.put Reg.SEQ_TSTAT.RESUME (bits w.toNat 14 0) [i] else s
  let s := if en' = 1 then s.put Reg.SEQ_TSTAT.DISABLED 0 [i] else s
  if en' = 0 then s.put Reg.SEQ_TSTAT.PENDING 0 [i] else s

/-- R276: a write of 1 to a doorbell bit sets DB0 to DB15. -/
def doorbell (s : State) (w : Word) : State :=
  s.put Reg.SEQ_EVPEND.PEND (s.get Reg.SEQ_EVPEND.PEND ||| (bits w.toNat 15 0 * 2 ^ 16))

/-- R277: CLR_ALL and FREEZE. -/
def pmcCtlWrite (s : State) (w : Word) : State :=
  let s := s.put Reg.PMC_CTL.FREEZE (bits w.toNat 0 0)
  if bits w.toNat 1 1 = 1 then s.each (List.range 64) fun s i => s.put Reg.PMC_CNT.COUNT 0 [i] else s

/-- R274: step 1 of the tick table: the snapshots take the counters' values. -/
def pmcSnapshot (s : State) : State :=
  s.each (List.range 64) fun s i => s.put Reg.PMC_SNAP.COUNT (s.get Reg.PMC_CNT.COUNT [i]) [i]

/-- R282: an overrun. CONSEC counts; at 3 the sequencer fault is due (R283). -/
def overrun (s : State) : State :=
  let s := (s.inc Reg.OVR_CNT.COUNT).pmc 0x14
  let n := min 3 (s.get Reg.SEQ_SCHED.CONSEC + 1)
  let s := s.put Reg.SEQ_SCHED.CONSEC n
  s.sq fun q => { q with suspended := true, faultDue := q.faultDue || n = 3 }

/-- R278, R279: the slots that fall due at tick `t` become pending. -/
def tasksDue (s : State) (t : Nat) : State :=
  s.each (List.range 32) fun s i =>
    if s.get Reg.SEQ_TASK.EN [i] = 0 then s else
    let m := 2 ^ s.get Reg.SEQ_TASK.PER [i]
    if t % m ≠ s.get Reg.SEQ_TASK.PHASE [i] % m then s else
    if s.get Reg.SEQ_TSTAT.PENDING [i] = 1 then s.inc Reg.LATE_CNT.COUNT else s.put Reg.SEQ_TSTAT.PENDING 1 [i]

end Sys2Proof.Machine.State
end

