-- ==== Sys2Proof/Machine/Modes.lean ====
section
/-! DEFINITION. The operating modes (spec/02_modes_and_line_format.md R23–R25) and the marker, header and scrambler of the line
frame (R27–R35). -/
namespace Sys2Proof.Machine

/-- Formats of FRM_CFG.FORMAT. -/
def fmtDOUBLE : Nat := 0
def fmtSINGLE : Nat := 1
def fmtSTANDARD : Nat := 2

/-- R23, R3: the line lanes a mode uses. -/
def modeLanes (m : Nat) : List Nat :=
  if m = 0 then [] else if m = 2 ∨ m = 5 ∨ m = 7 then List.range 4 else List.range 8

/-- R23: the format a mode fixes for lane `k`, none where any format is accepted or the lane is unused. -/
def modeFormat (m k : Nat) : Option Nat :=
  if ¬ (modeLanes m).contains k then none
  else if m = 1 ∨ m = 2 ∨ m = 3 ∨ m = 9 then some 0
  else if m = 4 ∨ m = 5 then some 1
  else if m = 6 ∨ m = 7 then some 2
  else if m = 8 then (if k < 4 then some 0 else some 2)
  else none

/-- R23: the logical host lanes that feed line lane `k`; none in the modes without a host to line map. `fmt` is the lane's format,
which decides the map in LOOP-FAR. -/
def modeHosts (m k fmt : Nat) : List Nat :=
  if ¬ (modeLanes m).contains k then []
  else if m = 1 ∨ m = 2 ∨ m = 3 ∨ m = 9 then [2 * k, 2 * k + 1]
  else if m = 4 ∨ m = 5 ∨ m = 6 ∨ m = 7 then [k]
  else if m = 8 then (if k < 4 then [2 * k, 2 * k + 1] else [k + 4])
  else if m = 10 ∨ m = 11 then (if fmt = 0 then [2 * k, 2 * k + 1] else [k])
  else []

/-- R23: lane `k` of format `fmt` carries in-band Scrim in mode `m`. -/
def modeInband (m k fmt : Nat) : Bool :=
  (modeLanes m).contains k && fmt != 2 && (m = 1 || m = 2 || m = 3 || m = 4 || m = 5 || (m = 8 && k < 4) || m = 9 || m = 10 || m = 11)

/-- R24: the datapath domains a mode needs; a DX1608 never needs HSP4 to HSP7. -/
def modeDomains (m : Nat) (is1608 : Bool) : List Nat :=
  let lanes (n : Nat) := (List.range n).map (1 + ·) ++ (List.range n).map (9 + ·) ++ (List.range n).map (17 + ·)
  let hsp (n : Nat) := (List.range (if is1608 then min n 4 else n)).map (27 + ·)
  let pll := [49, 50]
  if m = 1 ∨ m = 3 then lanes 8 ++ [25, 26, 35, 36, 37] ++ hsp 8 ++ pll
  else if m = 9 then lanes 8 ++ [25, 26, 35, 36, 37] ++ hsp 8 ++ pll ++ [48]
  else if m = 2 then lanes 4 ++ [25, 26, 35, 36] ++ hsp 4 ++ pll
  else if m = 4 ∨ m = 6 then lanes 8 ++ [25, 26, 35, 36, 37] ++ hsp 4 ++ pll
  else if m = 5 ∨ m = 7 then lanes 4 ++ [25, 26, 35, 36] ++ hsp 2 ++ pll
  else if m = 8 then lanes 8 ++ [25, 26, 35, 36, 37] ++ hsp 6 ++ pll
  else if m = 10 ∨ m = 11 then lanes 8 ++ [25, 26, 35, 36, 37] ++ hsp 8 ++ pll
  else if m = 12 then lanes 8 ++ [25, 26] ++ hsp 8 ++ pll
  else if m = 13 then lanes 8 ++ [25, 26] ++ pll
  else []

/-- R12, R23: the host lanes of the group of line transmit PLL `p` (0 A, 1 B), lowest first. -/
def pllHosts (m p : Nat) (fmts : Nat → Nat) : List Nat :=
  let of (l : List Nat) := l.flatMap fun k => modeHosts m k (fmts k)
  if m = 3 ∨ m = 8 then of (if p = 0 then [0, 1, 2, 3] else [4, 5, 6, 7]) else of (List.range 8)

/-- R28: the lane parts. -/
def laneParts : List Nat := [0x3D4B, 0x97E1, 0xF187, 0x5B2D, 0xCDBB, 0x6711, 0x0177, 0xABDD]

/-- R28: the alignment marker of lane `k`. -/
def marker (k : Nat) : Nat := 0xC6A35F198E27 * 2 ^ 16 + laneParts.getD k 0

/-- R38: the lane whose marker the candidate matches within `tol` bit errors. -/
def markerLane (c tol : Nat) : Option Nat := (List.range 8).find? fun k => popCount 64 (c ^^^ marker k) ≤ tol

/-- R27: the header of lane `k` with Scrim symbols S0 to S5 and frame count `fc`. -/
def header (k : Nat) (syms : List Nat) (fc : Nat) : Nat :=
  marker k * 2 ^ 64 + (List.range 6).foldl (fun a n => a + (syms.getD n 0 % 1024) * 2 ^ (54 - 10 * n)) 0 + fc % 16

/-- R33: the scrambler's seed of a frame. -/
def scrSeed (lane fc : Nat) : Nat := lane * 2 ^ 28 + (fc % 16) * 2 ^ 24 + 0xA53C96

/-- R33: the first `n` scrambler bits from a state, with the state after them. -/
def scrBits : Nat → Nat → List Bool × Nat
  | 0, st => ([], st)
  | n + 1, st =>
    let o := st.testBit 30 != st.testBit 27
    let (t, e) := scrBits n ((2 * st + b2n o) % 2 ^ 31)
    (o :: t, e)

/-- R33: the 128 scramble bits of slot `slot` (from 1) of a frame, bit c127 first. -/
def slotScramble (lane fc slot : Nat) : List Bool :=
  (scrBits 128 (scrBits (128 * (slot - 1)) (scrSeed lane fc)).2).1

/-- R32: the Gray map from (MSB, LSB) to the PAM4 level. -/
def grayLevel (msb lsb : Bool) : Int :=
  match msb, lsb with
  | false, false => -3
  | false, true => -1
  | true, true => 1
  | true, false => 3

/-- R32: the Gray demap of a level index (0 to 3). -/
def grayBits : Nat → Bool × Bool
  | 0 => (false, false)
  | 1 => (false, true)
  | 2 => (true, true)
  | _ => (true, false)

/-- R31: the PAM4 levels of the codewords of an odd and an even slot, c127 first. -/
def pairLevels (odd even : List Bool) : List Int := (even.zip odd).map fun p => grayLevel p.1 p.2

/-- R30: the payload of a Double codeword: symbols A0, B0, …, A5, B5, each 10 bits with the first-received bit highest. -/
def doublePayload (a b : List Nat) : List Bool := (a.zip b).flatMap fun p => msbBits 10 p.1 ++ msbBits 10 p.2

namespace State

/-- The live format of lane `k`. -/
def fmt (s : State) (k : Nat) : Nat := s.get Reg.FRM_CFG.FORMAT [k]

/-- The mode in use by the stages of a lane is the live mode once they have taken it (R19). -/
def modeNow (s : State) : Nat := s.use Reg.MODE.CODE

/-- R24: the domains the applied mode needs, with those of a time-transparent group. -/
def neededDomains (s : State) : List Nat :=
  modeDomains s.mode s.is1608 ++
    (if s.on Reg.TTE_CFG.TT_EN [0] || s.on Reg.TTE_CFG.TT_EN [1] then [39, 40, 41] else [])

/-- Lane `k` is mapped in the applied mode. -/
def mapped (s : State) (k : Nat) : Bool := (modeLanes s.mode).contains k

end State
end Sys2Proof.Machine
end

