-- ==== Sys2Proof/Machine/Datapath.lean ====
section
/-! DEFINITION. The symbol-rate datapath as functions of samples and symbols (spec/03 R51, R52, R54; spec/04 R76–R95; spec/06 R126–R132;
spec/07 R141–R156). Numbers are integers in the last place of the formats of R144 and R145: samples y and slicer inputs in 2^−4, committed
coefficients in 2^−11. -/
namespace Sys2Proof.Machine

/-- The settings that a slice's datapath has in use: symbols in a line DSP cycle, A and RA2 (R146), the committed residual correction
(none while ICORR_EN is 0), RX_POL, the FFE with its main tap, the committed coefficients in the order of R80, the detector, PRECODE_RX,
the code of alpha (R90) and G in 2^−3. -/
structure RxCfg where
  per : Nat
  a : Nat
  ra2 : Nat
  icorr : Option (List Int)
  pol : Bool
  ffe : Bool
  pos : Nat
  taps : List Int
  nl : Bool
  mlse : Bool
  precode : Bool
  alpha : Nat
  gain : Nat

/-- Samples of a symbol (R51, R76). -/
def RxCfg.step (c : RxCfg) : Nat := if c.per = 64 then 1 else 2

/-- Codes ahead of a span and after it that the datapath needs (R77, R86): four and two line DSP cycles. -/
def rxLead : Nat := 256
def rxTail : Nat := 128

/-- R82, R83: the level of an index. -/
def lev (i : Nat) : Int := 2 * (i : Int) - 3

/-- R52: u, in 2^−8, of the code that sub-ADC `i` returns. -/
def corrU (k : List Int) (i : Nat) (x : Int) : Int :=
  let n := i % 64
  rshr (k.getD (3 * n + 1) 0 * (256 * x - k.getD (3 * n) 0)) 15

/-- R52: y before saturation, in 2^−4. -/
def corrY (k : List Int) (i : Nat) (before u after : Int) : Int :=
  rshr (65536 * u + k.getD (3 * (i % 64) + 2) 0 * (after - before) + 2 * k.getD (192 + i % 4) 0 * (u - before)) 20

/-- R50, R52, R144: the corrected samples of codes that begin with sub-ADC SS0, each with whether it was saturated. The negation of −128.0 is
+128.0 (log entry 86). -/
def corrected (c : RxCfg) (codes : List Int) : List (Int × Bool) :=
  let sgn (p : Int × Bool) : Int × Bool := if c.pol then (-p.1, p.2) else p
  match c.icorr with
  | none => codes.map fun x => sgn (16 * x, false)
  | some k =>
    let u := codes.zipIdx.map fun p => corrU k p.2 p.1
    u.zipIdx.map fun p =>
      let v := corrY k p.2 (if p.2 = 0 then p.1 else u.getD (p.2 - 1) 0) p.1 (u.getD (p.2 + 1) p.1)
      sgn (satS 12 v, satS 12 v ≠ v)

/-- The sample at a position, 0 outside the samples given. -/
def sampleAt (y : List Int) (i : Int) : Int := if i < 0 then 0 else y.getD i.toNat 0

/-- R79, R148: the products q(0) to q(5) of symbol `n`, in 2^−4. -/
def nlProducts (y : List Int) (st n : Nat) : List Int :=
  let at_ (d : Int) := sampleAt y ((n + d) * st)
  let yc := at_ 0
  let ye := at_ (-1)
  let yl := at_ 1
  [yc * yc, ye * ye, yl * yl, yc * ye, yc * yl, ye * yl].map fun v => rshr v 11

/-- R77, R79, R144: z of symbol `n`, and whether it was saturated. -/
def ffeOut (c : RxCfg) (y : List Int) (n : Nat) : Int × Bool :=
  let main := if c.ffe then (List.range 33).foldl (fun s (j : Nat) => s + c.taps.getD j 0 * sampleAt y (n * c.step + c.pos - j)) 0
    else 2048 * sampleAt y (n * c.step)
  let nl := if c.nl then (nlProducts y c.step n).zipIdx.foldl (fun s p => s + c.taps.getD (33 + p.2) 0 * p.1) 0 else 0
  let z := rshr (main + nl) 11
  (satS 14 z, satS 14 z ≠ z)

/-- R82: the decision on a slicer input. -/
def decide4 (a : Nat) (v : Int) : Nat :=
  if v < -(32 * (a : Int)) then 0 else if v < 0 then 1 else if v < 32 * a then 2 else 3

/-- R82, R144: slicer inputs and decisions, from the decision before the first symbol. -/
def dfeRun (c : RxCfg) : Nat → List Int → List (Int × Nat)
  | _, [] => []
  | p, z :: t =>
    let v := rshr (128 * z - c.taps.getD 39 0 * c.a * lev p) 7
    let i := decide4 c.a v
    (v, i) :: dfeRun c i t

/-- R94: the tentative samples and decisions of MLSE mode. -/
def tentRun (c : RxCfg) : Nat → List Int → List (Int × Nat)
  | _, [] => []
  | p, z :: t =>
    let v := z - c.alpha * c.a * lev p
    let i := decide4 c.a v
    (v, i) :: tentRun c i t

/-- R83: the index of the data symbol of a level that follows another. -/
def dataIdx (precode : Bool) (i before : Nat) : Nat := if precode then (i + before) % 4 else i

/-- R32: the MSB or the LSB of an index. -/
def grayBit (msb : Bool) (i : Nat) : Bool := if msb then (grayBits i).1 else (grayBits i).2

/-- A state of the MLSE: its path metric, its path's levels, latest first, and the paths that its comparison discarded, each with the
difference of the metrics (R87). -/
structure Node where
  metric : Nat
  path : List Nat
  lost : List (Nat × List Nat)

/-- R84, R144: A·(level + ISI of a path), in 2^−11; `full` false leaves out the level itself. -/
def mlsePred (c : RxCfg) (i : Nat) (path : List Nat) (full : Bool) : Int :=
  (c.a : Int) * ((if full then 2048 * lev i else 0) +
    (List.range 4).foldl (fun s (k : Nat) => s + c.taps.getD (40 + k) 0 * lev (path.getD k 0)) 0)

/-- R149: the branch metric, and whether it was clamped. -/
def branchMetric (c : RxCfg) (z : Int) (i : Nat) (path : List Nat) : Nat × Bool :=
  let e := 128 * z - mlsePred c i path true
  let m := (rshr (e * e * c.ra2) 42).toNat
  (min 511 m, decide (511 < m))

/-- R85: metric `m` is smaller than `n` by the difference modulo 2^12. -/
def metricLess (m n : Nat) : Bool := decide (2048 ≤ (m + 4096 - n) % 4096)

/-- R84, R85: the add-compare-select of new state `st`, 4 × index of a(n) + index of a(n−1). -/
def acs (c : RxCfg) (z : Int) (ns : List Node) (st : Nat) : Node :=
  let i := st / 4
  let sums := (List.range 4).map fun k =>
    let o := ns.getD (4 * (st % 4) + k) ⟨0, [], []⟩
    ((o.metric + (branchMetric c z i o.path).1) % 4096, i :: o.path)
  let w := (List.range 4).foldl (fun b k => if metricLess (sums.getD k (0, [])).1 (sums.getD b (0, [])).1 then k else b) 0
  let best := sums.getD w (0, [])
  ⟨best.1, best.2, ((List.range 4).filter (· ≠ w)).map fun k => (((sums.getD k (0, [])).1 + 4096 - best.1) % 4096, (sums.getD k (0, [])).2)⟩

/-- The clamped branch metrics of a symbol: every origin state with every input level. -/
def clampsOf (c : RxCfg) (z : Int) (ns : List Node) : Nat :=
  ns.foldl (fun n o => n + ((List.range 4).filter fun i => (branchMetric c z i o.path).2).length) 0

/-- R86: all path metrics equal to zero, ahead of slicer inputs `z`; the levels before those of a state are open (log entry 54). -/
def mlseStart (z : List Int) : List Node :=
  (List.range 16).map fun st => ⟨0, [st / 4, st % 4, (Config.runInPast z (2 * st)).toNat, (Config.runInPast z (2 * st + 1)).toNat], []⟩

/-- The states after each symbol, with the clamped metrics so far. -/
def mlseRun (c : RxCfg) : List Node → Nat → List Int → List (List Node) × Nat
  | _, n, [] => ([], n)
  | ns, n, z :: t =>
    let new := (List.range 16).map (acs c z ns)
    let r := mlseRun c new (n + clampsOf c z ns) t
    (new :: r.1, r.2)

/-- R86: the state with the smallest path metric, the lower-numbered of equal ones. -/
def bestNode (ns : List Node) : Node :=
  ns.foldl (fun b n => if metricLess n.metric b.metric then n else b) (ns.getD 0 ⟨0, [], []⟩)

/-- R87: the reliability of the MSB or LSB of the symbol at step `t`, on the decided levels `d` (step `τ` at `τ + 4`). -/
def reliability (c : RxCfg) (hist : List (List Node)) (d : List Nat) (t : Nat) (msb : Bool) : Nat :=
  let mine := grayBit msb (dataIdx c.precode (d.getD (t + 4) 0) (d.getD (t + 3) 0))
  (List.range 33).foldl (fun r k =>
    let τ := t + k
    match hist[τ]? with
    | none => r
    | some ns =>
      (ns.getD (4 * d.getD (τ + 4) 0 + d.getD (τ + 3) 0) ⟨0, [], []⟩).lost.foldl (fun r q =>
        if grayBit msb (dataIdx c.precode (q.2.getD k 0) (q.2.getD (k + 1) 0)) ≠ mine then min r q.1 else r) r) 2047

/-- R86, R87: the decided level and the reliabilities of MSB and LSB of each symbol of a block, from z of its run-in, the block and its
run-out; and the clamped metrics. -/
def mlseBlock (c : RxCfg) (z : List Int) : List (Nat × Nat × Nat) × Nat :=
  let (hist, n) := mlseRun c (mlseStart z) 0 z
  let d := (bestNode (hist.getLastD [])).path.reverse
  ((List.range (z.length - 64)).map fun i => (d.getD (i + 36) 0, reliability c hist d (i + 32) true, reliability c hist d (i + 32) false), n)

/-- What a slice's datapath makes of codes: samples and saturations, z, slicer inputs (DFE) and decided levels with their reliabilities
(MLSE). Lists of symbols begin with the first symbol of the codes; decisions of MLSE mode begin one line DSP cycle ahead of the span. -/
structure RxOut where
  y : List Int
  ySat : List Bool
  z : List Int
  zSat : List Bool
  v : List Int
  a : List Nat
  rel : List (Nat × Nat)
  clamps : Nat

/-- The datapath over codes whose span lies between `rxLead` codes ahead and `rxTail` codes after it; `prev` is the level decided before
the first of them. -/
def rxRun (c : RxCfg) (codes : List Int) (prev : Nat) : RxOut :=
  let ys := corrected c codes
  let y := ys.map (·.1)
  let zs := (List.range (codes.length / c.step)).map (ffeOut c y)
  let z := zs.map (·.1)
  if c.mlse then
    let first := rxLead / c.step - c.per
    let blocks := (z.length - first - rxTail / c.step) / c.per
    let r := (List.range blocks).map fun b => mlseBlock c ((z.drop (first + b * c.per - 32)).take (c.per + 64))
    let l := r.flatMap (·.1)
    ⟨y, ys.map (·.2), z, zs.map (·.2), [], List.replicate first 0 ++ l.map (·.1), List.replicate first (0, 0) ++ l.map (·.2),
      (r.drop 1).foldl (fun n x => n + x.2) 0⟩
  else
    let d := dfeRun c prev z
    ⟨y, ys.map (·.2), z, zs.map (·.2), d.map (·.1), d.map (·.2), [], 0⟩

namespace RxOut

/-- The symbols of the span: first and number. -/
def first (_ : RxOut) (c : RxCfg) : Nat := rxLead / c.step
def count (o : RxOut) (c : RxCfg) : Nat := o.z.length - (rxLead + rxTail) / c.step

def zAt (o : RxOut) (n : Nat) : Int := o.z.getD n 0
def vAt (o : RxOut) (n : Nat) : Int := o.v.getD n 0
def aAt (o : RxOut) (n : Nat) : Nat := o.a.getD n 0

/-- R90: e(n), in 2^−4. -/
def err (o : RxOut) (c : RxCfg) (n : Nat) : Int :=
  if c.mlse then o.zAt n - (c.a : Int) * (16 * lev (o.aAt n) + c.alpha * lev (o.aAt (n - 1)))
  else o.vAt n - 16 * c.a * lev (o.aAt n)

/-- The four levels decided before symbol `n`. -/
def past (o : RxOut) (n : Nat) : List Nat := [o.aAt (n - 1), o.aAt (n - 2), o.aAt (n - 3), o.aAt (n - 4)]

/-- R90, R144: eps(n), in 2^−4. -/
def eps (o : RxOut) (c : RxCfg) (n : Nat) : Int := rshr (128 * o.zAt n - mlsePred c (o.aAt n) (o.past n) true) 7

/-- R102: the value that the level figures use, in 2^−11. -/
def eyeValue (o : RxOut) (c : RxCfg) (n : Nat) : Int :=
  if c.mlse then 128 * o.zAt n - mlsePred c (o.aAt n) (o.past n) false else 128 * o.vAt n

/-- R88, R151: D0 or D1 of DFE mode, in 2^−8. -/
def distance (o : RxOut) (c : RxCfg) (n : Nat) (msb b : Bool) : Int :=
  let d (v : Int) (i : Nat) : Int := (v - 16 * c.a * lev i) * (v - 16 * c.a * lev i)
  let l := if c.precode then ((List.range 16).filter fun p => grayBit msb ((p / 4 + p % 4) % 4) = b).map fun p =>
      d (o.vAt n) (p / 4) + d (o.vAt (n - 1)) (p % 4)
    else ((List.range 4).filter fun i => grayBit msb i = b).map fun i => d (o.vAt n) i
  l.foldl min (l.headD 0)

/-- R83: a data bit as the detector decides it. -/
def hard (o : RxOut) (c : RxCfg) (n : Nat) (msb : Bool) : Bool := grayBit msb (dataIdx c.precode (o.aAt n) (o.aAt (n - 1)))

/-- R88, R151: the LLR of a data bit before saturation. -/
def llr (o : RxOut) (c : RxCfg) (n : Nat) (msb : Bool) : Int :=
  if c.mlse then
    let r := o.rel.getD n (0, 0)
    let l := rshr (c.gain * (if msb then r.1 else r.2)) 9
    if o.hard c n msb then -l else l
  else rshr (c.gain * (o.distance c n msb true - o.distance c n msb false) * c.ra2) 37

/-- R94: t(n) and d(n). -/
def tent (o : RxOut) (c : RxCfg) (prev : Nat) : List (Int × Nat) := if c.mlse then tentRun c prev o.z else o.v.zip o.a

end RxOut

/-- R94: u(n), in 2^−4. -/
def timingError (td : List (Int × Nat)) (n : Nat) : Int :=
  let p := td.getD (n - 1) (0, 0)
  let q := td.getD n (0, 0)
  q.1 * lev p.2 - p.1 * lev q.2

/-- R92: the symbols of a span that belong to the gradient set of its tick, of which `q0` line DSP cycles lie before the span. -/
def gradientSet (c : RxCfg) (o : RxOut) (q0 : Nat) : List Nat :=
  ((List.range (o.count c / c.per)).filter fun q => q0 + q < 16384).map fun q => o.first c + q * c.per + (q0 + q) % c.per

/-- Sums over a list of symbols. -/
def sumOver (l : List Nat) (f : Nat → Int) : Int := l.foldl (fun s n => s + f n) 0

/-- Bits whose rounded LLR lies outside ±31 (R151). -/
def llrSats (c : RxCfg) (o : RxOut) (n : Nat) : Nat :=
  ([true, false].filter fun msb => decide (31 < (o.llr c n msb).natAbs)).length

/-- Two lists of sums, element by element. -/
def addSums (a b : List Int) : List Int := (List.range (max a.length b.length)).map fun i => a.getD i 0 + b.getD i 0

/-- R48, R92, R102, R153: what a span of codes adds to the sums of its tick; `q0` is the number of line DSP cycles of the tick before it. -/
def rxSums (c : RxCfg) (o : RxOut) (q0 : Nat) (codes : List Int) : RxSums :=
  let span := (codes.drop rxLead).take (codes.length - rxLead - rxTail)
  let g := gradientSet c o q0
  { ey := (List.range 33).map fun (j : Nat) => sumOver g fun n => o.err c n * sampleAt o.y (n * c.step + c.pos - j)
    eq := (List.range 6).map fun m => sumOver g fun n => o.err c n * (nlProducts o.y c.step n).getD m 0
    ea := sumOver g fun n => o.err c n * lev (o.aAt (n - 1))
    epsa := (List.range 4).map fun k => sumOver g fun n => o.eps c n * lev (o.aAt (n - (k + 1)))
    e2 := sumOver g fun n => o.err c n * o.err c n
    lvN := (List.range 4).map fun i => ((g.filter fun n => o.aAt n = i).length : Nat)
    lvSum := (List.range 4).map fun i => sumOver (g.filter fun n => o.aAt n = i) (o.eyeValue c)
    lvSq := (List.range 4).map fun i => sumOver (g.filter fun n => o.aAt n = i) fun n => o.eyeValue c n * o.eyeValue c n
    codes := span.length
    power := span.foldl (fun s x => s + x * x) 0 }

/-- The sums of two spans of one tick together. -/
def RxSums.add (a b : RxSums) : RxSums :=
  ⟨addSums a.ey b.ey, addSums a.eq b.eq, a.ea + b.ea, addSums a.epsa b.epsa, a.e2 + b.e2, addSums a.lvN b.lvN, addSums a.lvSum b.lvSum,
    addSums a.lvSq b.lvSq, a.codes + b.codes, a.power + b.power⟩

/-- R54, R158: clipped codes, and the saturations of y and z, of branch metrics and of LLRs, in a span. -/
structure RxSats where
  clips : Nat
  ySat : Nat
  zSat : Nat
  bmClamp : Nat
  llrSat : Nat

def rxSats (c : RxCfg) (o : RxOut) (codes : List Int) : RxSats :=
  let span := (codes.drop rxLead).take (codes.length - rxLead - rxTail)
  let inSpan (l : List Bool) (st : Nat) := (((l.drop (rxLead / st)).take ((codes.length - rxLead - rxTail) / st)).filter id).length
  { clips := (span.filter fun x => decide (x = -128 ∨ x = 127)).length
    ySat := inSpan o.ySat 1
    zSat := inSpan o.zSat c.step
    bmClamp := o.clamps
    llrSat := ((List.range (o.count c)).map (o.first c + ·)).foldl (fun s n => s + llrSats c o n) 0 }

/-- R95, R96: U and the sum of e² of each line DSP cycle of a span. -/
def rxCycles (c : RxCfg) (o : RxOut) (prev : Nat) : List (Int × Int) :=
  let td := o.tent c prev
  (List.range (o.count c / c.per)).map fun q =>
    let l := (List.range c.per).map (o.first c + q * c.per + ·)
    (sumOver l (timingError td), sumOver l fun n => o.err c n * o.err c n)

/-- R95, R155: nu and theta (2^−24) after a line DSP cycle with sum U, and whether nu was held at a limit. -/
def timingStep (ra2 kp ki : Nat) (lim : Int) (p : Int × Nat × Bool) (u : Int) : Int × Nat × Bool :=
  let un := rshr (u * ra2) 12
  let nu := p.1 + rshr (256 * un) ki
  let nu' := clampI (-lim) lim nu
  (nu', enc 48 (p.2.1 + rshr (256 * un) kp + nu'), p.2.2 || nu' ≠ nu)

/-- R31, R88: bits c0 to c127 and their LLRs of the odd or the even slot of a pair, from the 128 symbols of the span. -/
def slotBits (c : RxCfg) (codes : List Int) (prev : Nat) (odd : Bool) : List Bool × List Int :=
  let o := rxRun c codes prev
  let l := ((List.range 128).map (o.first c + ·)).reverse
  (l.map fun n => o.hard c n (!odd), l.map fun n => clampI (-31) 31 (o.llr c n (!odd)))

/-- R127: the precoder, from its state; the level indices sent. -/
def precodeRun : Nat → List Nat → List Nat
  | _, [] => []
  | p, d :: t => let q := (d + 4 - p) % 4; q :: precodeRun q t

/-- The level of place `i` of a list of level indices, for a place inside it. -/
def idxAt (l : List Nat) (i : Int) : Nat := if i < 0 then 0 else l.getD i.toNat 0

/-- R129: i(n). -/
def contextIdx (l : List Nat) (n : Nat) : Nat := 16 * idxAt l ((n : Int) - 1) + 4 * idxAt l n + idxAt l (n + 1)

/-- R129, R130, R156: the DAC code of symbol `n` of level indices `l`, with taps in 2^−14 and entries in 2^−3, and whether it was saturated. -/
def renderCode (taps pd : List Int) (m : Nat) (l : List Nat) (n : Nat) : Int × Bool :=
  let f := (List.range 9).foldl (fun s (j : Nat) => s + taps.getD j 0 * lev (idxAt l ((n : Int) + m - j))) 0
  let r := rhe (127 * f + 6144 * pd.getD (contextIdx l n) 0) 49152
  (clampI (-127) 127 r, decide (127 < r.natAbs))

/-- R32: the level index of a bit pair. -/
def levelIdx (msb lsb : Bool) : Nat := if msb then (if lsb then 2 else 3) else (if lsb then 1 else 0)

/-- R27, R31, R35: the level indices of a header of `w` bits, bit `w` − 1 first. -/
def headerIdx (w h : Nat) : List Nat := (List.range (w / 2)).map fun i => levelIdx (h.testBit (w - 1 - 2 * i)) (h.testBit (w - 2 - 2 * i))

/-- R30, R33, R108: the scrambled codeword of slot `slot` with a payload p119 to p0, c127 first. -/
def sentSlot (k fc slot : Nat) (payload : List Bool) : List Bool :=
  ((innerEncode payload.reverse).reverse.zip (slotScramble k fc slot)).map fun p => p.1 != p.2

/-- The symbols of a line DSP cycle in a format (R51, R132). -/
def fmtSyms (fmt : Nat) : Nat := if fmt = fmtDOUBLE then 64 else 32

/-- The levels that a lane remembers from one tick to the next: the reach of Render (R129) and of the search for a delay (R137). -/
def lamKept : Nat := 272

/-- 2^30·cos(2πk/64), rounded to nearest. -/
def cos64 (k : Nat) : Int :=
  let q : List Int := [1073741824, 1068571464, 1053110176, 1027506862, 992008094, 946955747, 892783698, 830013654, 759250125, 681174602,
    596538995, 506158392, 410903207, 311690799, 209476638, 105245103, 0]
  let m := k % 64
  if m ≤ 16 then q.getD m 0 else if m ≤ 32 then -(q.getD (32 - m) 0) else if m ≤ 48 then -(q.getD (m - 32) 0) else q.getD (64 - m) 0

/-- R135: |X(b)|² of a block of 32 codes, in one unit for every block and bin (R145 bounds what the cosines' rounding may move). -/
def specPower (r : List Int) (b : Nat) : Nat :=
  let sum (sh : Nat) := r.zipIdx.foldl (fun s p => s + (2 ^ 30 - cos64 (2 * p.2 + 1)) * p.1 * cos64 ((2 * b + 1) * p.2 + sh)) 0
  let re := sum 0
  let im := sum 48
  (re * re + im * im).toNat

/-- R135: the sums of |X(b)|² over the blocks of 32 codes in a list, for each b. -/
def specPowers (codes : List Int) : List Nat :=
  (List.range 16).map fun b =>
    (List.range (codes.length / 32)).foldl (fun s j => s + specPower ((codes.drop (32 * j)).take 32) b) 0

/-- R132: what sub-DAC `m` converts of the codes of whole line DSP cycles, one for each sample. -/
def subDac {α : Type} (samples : List α) (m : Nat) : List α := (samples.zipIdx.filter fun p => p.2 % 4 = m).map (·.1)

/-- R76, R137: the centre samples of a span of codes. -/
def centreSamples (c : RxCfg) (codes : List Int) : List Int :=
  let y := (corrected c codes).map (·.1)
  (List.range ((codes.length - rxLead - rxTail) / c.step)).map fun n => sampleAt y ((rxLead + n * c.step : Nat) : Int)

/-- R137: the sums of y·λ and of y² and λ² at a delay, where the lane's levels of the tick begin after `base` others. -/
def obsCorr (ys : List (Int × Nat)) (l : List Nat) (base d : Nat) : Int × Int × Int :=
  ys.foldl (fun s p =>
    if p.2 + base < d then s else
    match l[p.2 + base - d]? with
    | some i => (s.1 + p.1 * lev i, s.2.1 + p.1 * p.1, s.2.2 + lev i * lev i)
    | none => s) (0, 0, 0)

/-- R137: correlation `a` is smaller than `b`. -/
def corrLess (a b : Int × Int × Int) : Bool :=
  let sq (x : Int × Int × Int) : Int := x.1 * x.1.natAbs
  decide (sq a * (b.2.1 * b.2.2) < sq b * (a.2.1 * a.2.2))

/-- R137: the correlation is at least `n`/10. -/
def corrAtLeast (a : Int × Int × Int) (n : Nat) : Bool :=
  decide (0 < a.2.1 * a.2.2) && decide (n * n * (a.2.1 * a.2.2) ≤ 100 * (a.1 * a.1.natAbs))

/-- R137: the delay of the peak correlation, the smallest of equal ones. -/
def obsPeak (ys : List (Int × Nat)) (l : List Nat) (base : Nat) : Nat :=
  (List.range 256).foldl (fun b d => if corrLess (obsCorr ys l base b) (obsCorr ys l base d) then d else b) 0

/-- R138: the sums (2^−4) and counts of a tick by index: the context, or the sub-DAC and level. -/
def obsSums (c : RxCfg) (ys : List (Int × Nat)) (l : List Nat) (base d : Nat) (key : Bool) : List Int × List Nat :=
  let used := ys.filter fun p => decide (p.2 < 16384 * c.per ∧ d ≤ p.2 + base ∧ p.2 + base - d < l.length)
  let idx (n : Nat) : Nat :=
    if key then 4 * ((((n : Int) - base) % (c.per : Int)).toNat * c.step % 4) + idxAt l n else contextIdx l n
  let of (i : Nat) := used.filter fun p => idx (p.2 + base - d) = i
  ((List.range 64).map fun i => (of i).foldl (fun s p => s + p.1) 0, (List.range 64).map fun i => (of i).length)

end Sys2Proof.Machine
end

