-- ==== Sys2Proof/Machine/Symbols.lean ====
section
/-! DEFINITION. The symbols of a Scrim link: the 8b/10b code, the transmitter, the receiver, its elastic buffer and the parser of frames
(spec/11_scrim_links_and_fabric.md R229–R235). A code-group is a number of ten bits, the first sent highest. The code's tables are those of
IEEE 802.3 Clause 36, which R229 names (log entry 67). -/
namespace Sys2Proof.Machine

/-- Octets of the low `8 * n` bits of a number, most significant first (R229). -/
def octets (n v : Nat) : List Byte := (List.range n).map fun i => BitVec.ofNat 8 (v >>> (8 * (n - 1 - i)))

/-- The number whose octets, most significant first, are `l`. -/
def ofOctets (l : List Byte) : Nat := l.foldl (fun a b => 256 * a + b.toNat) 0

/-- Octets `i` to `i + n − 1` of a payload as a number. -/
def octField (l : List Byte) (i n : Nat) : Nat := ofOctets ((List.range n).map fun k => l.getD (i + k) 0)

/-- The special symbols of R229, as the octet of their K code. -/
def symCOMMA : Sym := .ctl 0xBC
def symIDLE2 : Sym := .data 0x50
def symFILL : Sym := .ctl 0x1C
def symSOF : Sym := .ctl 0xFB
def symEOF : Sym := .ctl 0xFD
def symABT : Sym := .ctl 0xFE
def symTRIG : Sym := .ctl 0x7C
def symTMARK : Sym := .ctl 0x5C

/-- The 6-bit and 4-bit blocks of Dx.y at negative running disparity. -/
def six8b : List Nat :=
  [0x27, 0x1D, 0x2D, 0x31, 0x35, 0x29, 0x19, 0x38, 0x39, 0x25, 0x15, 0x34, 0x0D, 0x2C, 0x1C, 0x17] ++
  [0x1B, 0x23, 0x13, 0x32, 0x0B, 0x2A, 0x1A, 0x3A, 0x33, 0x26, 0x16, 0x36, 0x0E, 0x2E, 0x1E, 0x2B]
def four8b : List Nat := [0xB, 0x9, 0x5, 0xC, 0xD, 0xA, 0x6, 0xE]

/-- The K codes with their code-groups at negative running disparity. -/
def kGroups : List (Nat × Nat) :=
  [(0x1C, 0x0F4), (0x3C, 0x0F9), (0x5C, 0x0F5), (0x7C, 0x0F3), (0x9C, 0x0F2), (0xBC, 0x0FA), (0xDC, 0x0F6), (0xFC, 0x0F8)] ++
  [(0xF7, 0x3A8), (0xFB, 0x368), (0xFD, 0x2E8), (0xFE, 0x1E8)]

/-- The running disparity, `true` for positive, after a block of 6 and after one of 4 bits. -/
def afterSix (rd : Bool) (c : Nat) : Bool := if c = 0x07 then true else if c = 0x38 then false else if popCount 6 c = 3 then rd else decide (3 < popCount 6 c)
def afterFour (rd : Bool) (c : Nat) : Bool := if c = 0x3 then true else if c = 0xC then false else if popCount 4 c = 2 then rd else decide (2 < popCount 4 c)
def afterGroup (rd : Bool) (g : Nat) : Bool := afterFour (afterSix rd (g / 16)) (g % 16)

/-- The block of 6 bits of D x, and that of 4 bits of D x.y after it, at a running disparity; D x.7 has an alternate. -/
def sixOf (rd : Bool) (x : Nat) : Nat :=
  let c := six8b.getD x 0
  if rd && (popCount 6 c ≠ 3 || x = 7) then 63 - c else c
def fourOf (rd : Bool) (x y : Nat) : Nat :=
  let c := four8b.getD y 0
  if y = 7 && (if rd then [11, 13, 14].contains x else [17, 18, 20].contains x) then (if rd then 0x8 else 0x7)
  else if rd && (popCount 4 c ≠ 2 || y = 3) then 15 - c else c

/-- The code-group of a symbol at a running disparity. -/
def groupOf (rd : Bool) : Sym → Nat
  | .data b => let c := sixOf rd (b.toNat % 32); 16 * c + fourOf (afterSix rd c) (b.toNat % 32) (b.toNat / 32)
  | .ctl b => let g := ((kGroups.find? (·.1 = b.toNat)).map (·.2)).getD 0; if rd then 1023 - g else g
  | .bad => 0

/-- The symbol of a code-group at a running disparity; `bad` for one that is invalid or of the wrong disparity. -/
def symOf (rd : Bool) (g : Nat) : Sym :=
  match kGroups.find? fun p => (if rd then 1023 - p.2 else p.2) = g with
  | some p => .ctl (BitVec.ofNat 8 p.1)
  | none =>
    match (List.range 32).find? fun x => sixOf rd x = g / 16 with
    | none => .bad
    | some x =>
      match (List.range 8).find? fun y => fourOf (afterSix rd (g / 16)) x y = g % 16 with
      | some y => .data (BitVec.ofNat 8 (32 * y + x))
      | none => .bad

/-- R233: the octets of a frame from the header to the CRC. -/
def frameOctets (f : SFrame) : List Byte :=
  let body := octets 2 f.dst.toNat ++ octets 2 f.src.toNat ++ [f.typ] ++ octets 1 (16 * f.hops.toNat + 8 * b2n f.noack + 4 * b2n f.retx) ++
    octets 2 f.seq.toNat ++ octets 2 f.msn.toNat ++ octets 2 f.data.length ++ f.data
  body ++ (octets 4 (crc32Bytes body)).reverse

/-- R233: the symbols of a frame. -/
def frameSyms (f : SFrame) : List Sym := symSOF :: (frameOctets f).map .data ++ [symEOF]

/-- R233: the frame whose header and payload are given. -/
def frameOf (o : List Byte) : SFrame where
  dst := BitVec.ofNat 16 (octField o 0 2)
  src := BitVec.ofNat 16 (octField o 2 2)
  typ := o.getD 4 0
  hops := BitVec.ofNat 4 (octField o 5 1 / 16)
  noack := (octField o 5 1).testBit 3
  retx := (octField o 5 1).testBit 2
  seq := BitVec.ofNat 16 (octField o 6 2)
  msn := BitVec.ofNat 16 (octField o 8 2)
  data := o.drop 12

/-- R234: whether the header of a frame that is cut, where its flags have arrived, leaves NOACK clear (log entry 68). -/
def naks (o : List Byte) : Bool := !(octField o 5 1).testBit 3

/-- R234: what EOF makes of the octets of a frame. -/
def frameEnd (o : List Byte) : LinkEvt :=
  let body := o.take (o.length - 4)
  if o.length < 16 ∨ octField o 10 2 ≠ o.length - 16 then .cut 5 (naks o)
  else if o.drop (o.length - 4) ≠ (octets 4 (crc32Bytes body)).reverse then .cut 4 (naks o)
  else .frame (frameOf body)

/-- R230, R234: the parser takes a symbol of the elastic buffer. Violation codes are those of R250. -/
def LinkRx.parse (r : LinkRx) (y : Sym) : LinkRx × List LinkEvt :=
  if y = symFILL ∨ y = symTRIG ∨ y = symTMARK then (r, []) else
  match r.frame with
  | none =>
    let out : LinkRx := { r with idle := y = symCOMMA }
    if y = symSOF then ({ out with frame := some [] }, [])
    else match y with
      | .data _ => (out, if r.idle ∧ y = symIDLE2 then [] else [.cut 2 false])
      | .ctl _ => (out, if y = symEOF ∨ y = symABT then [.cut 2 false] else [])
      | .bad => (out, [])
  | some o =>
    let out : LinkRx := { r with frame := none, idle := y = symCOMMA }
    if y = symSOF then ({ r with frame := some [] }, [.cut 3 (naks o)])
    else if y = symABT then (out, [.cut 18 false])
    else if y = symEOF then (out, [frameEnd o])
    else match y with
      | .data b => if o.length = 272 then (out, [.cut 5 (naks o)]) else ({ r with frame := some (o ++ [b]) }, [])
      | .ctl _ => (out, [.cut 6 (naks o)])
      | .bad => (out, [.stop (naks o)])

/-- R232: a symbol that is received enters the elastic buffer: a FILL is deleted above 20, and any is dropped at 32. -/
def LinkRx.enter (r : LinkRx) (y : Sym) : LinkRx × List LinkEvt :=
  let ev := if y = symTMARK then [LinkEvt.mark] else if y = symTRIG then [.trig] else []
  if 20 < r.eb.length ∧ y = symFILL then (r, ev)
  else if 32 ≤ r.eb.length then (r, ev ++ [.slip])
  else ({ r with eb := r.eb ++ [y] }, ev)

/-- R232: a symbol leaves the elastic buffer at a symbol period of the link's transmitter: below 12 a FILL in its place. -/
def LinkRx.leave (r : LinkRx) : LinkRx × List LinkEvt :=
  match r.eb with
  | y :: t => if r.eb.length < 12 then (r, []) else LinkRx.parse { r with eb := t } y
  | [] => (r, [])

/-- R231: the last of a link's symbols bring sync: on an electrical port three IDLE sets, in-band four symbols of which one is IDLE. -/
def LinkRx.ready (r : LinkRx) (inband : Bool) : Bool :=
  if inband then decide (r.tail.length = 4) && r.tail.contains symCOMMA else decide (3 ≤ r.idles)

/-- R231: the elastic buffer starts at half its length (log entry 69). -/
def ebStart : List Sym := List.replicate 16 symFILL

/-- R230, R231: a received symbol. Answers the receiver, sync, and what came of it. -/
def LinkRx.sym (r : LinkRx) (inband sync : Bool) (y : Sym) : LinkRx × Bool × List LinkEvt :=
  let bad := y = .bad
  let r := { r with errs := (2 * r.errs + b2n bad) % 2 ^ 32, comma := y = symCOMMA
                    tail := if bad then [] else (y :: r.tail).take 4
                    idles := if bad then 0 else if r.comma ∧ y = symIDLE2 then r.idles + 1 else r.idles }
  if sync then
    let r' := r.enter y
    if 3 ≤ popCount 32 r.errs then ({ LinkRx.start with disp := r.disp, sh := r.sh, ph := r.ph }, false, r'.2 ++ [.code, .lost])
    else (r'.1, true, r'.2 ++ if bad then [.code] else [])
  else if r.ready inband then ({ r with errs := 0, eb := ebStart, frame := none, idle := false }, true, [.gained])
  else (r, false, [])

/-- R229, R230: a received code-group at the receiver's symbol positions. -/
def LinkRx.group (r : LinkRx) (inband sync : Bool) (g : Nat) : LinkRx × Bool × List LinkEvt :=
  LinkRx.sym { r with disp := afterGroup r.disp g } inband sync (symOf r.disp g)

/-- R231: a bit of an electrical port. Without sync a comma sets the alignment anew; with it a comma at another is a code error. -/
def LinkRx.bit (r : LinkRx) (sync : Bool) (b : Bool) : LinkRx × Bool × List LinkEvt :=
  let r := { r with sh := (2 * r.sh + b2n b) % 1024, ph := r.ph + 1 }
  let isComma := r.sh = 0x0FA || r.sh = 0x305
  if 10 ≤ r.ph then LinkRx.group { r with ph := 0 } false sync r.sh
  else if isComma then
    if sync then
      let e := (2 * r.errs + 1) % 2 ^ 32
      if 3 ≤ popCount 32 e then ({ LinkRx.start with disp := r.disp, sh := r.sh, ph := r.ph }, false, [.code, .lost])
      else ({ r with errs := e }, true, [.code])
    else LinkRx.group { LinkRx.start with disp := r.sh = 0x305, sh := r.sh } false false r.sh
  else (r, sync, [])

/-- R231: ten bits of an electrical port. -/
def LinkRx.bits10 (r : LinkRx) (sync : Bool) (g : Nat) : LinkRx × Bool × List LinkEvt :=
  (msbBits 10 g).foldl (fun p b => let q := p.1.bit p.2.1 b; (q.1, q.2.1, p.2.2 ++ q.2.2)) (r, sync, [])

/-- R230, R232, R235: the next symbol of a transmitter: TMARK, TRIG, a FILL at least every 512 symbols, the frame under way, the second half of
an IDLE, the next frame, ACK and NAK and their like first, or IDLE. Answers the frame that ended. -/
def LinkTx.next (t : LinkTx) : Sym × LinkTx × Option SFrame :=
  let u := { t with fill := t.fill + 1 }
  if t.mark then (symTMARK, { u with mark := false }, none)
  else if t.trig then (symTRIG, { u with trig := false }, none)
  else if 511 ≤ t.fill then (symFILL, { t with fill := 0 }, none)
  else match t.cur with
    | [y] => (y, { u with cur := [], now := none }, t.now)
    | y :: l => (y, { u with cur := l }, none)
    | [] =>
      if t.idle then (symIDLE2, { u with idle := false }, none) else
      match t.ctl, t.queue with
      | f :: l, _ => (symSOF, { u with cur := (frameSyms f).drop 1, now := some f, ctl := l }, none)
      | [], f :: l => (symSOF, { u with cur := (frameSyms f).drop 1, now := some f, queue := l }, none)
      | [], [] => (symCOMMA, { u with idle := true }, none)

/-- R229: the code-group of a symbol leaves the transmitter. -/
def LinkTx.code (t : LinkTx) (y : Sym) : Nat × LinkTx := let g := groupOf t.disp y; (g, { t with disp := afterGroup t.disp g })

/-- R235: a frame is given to the transmitter. -/
def LinkTx.give (t : LinkTx) (f : SFrame) : LinkTx := if f.noack then { t with ctl := t.ctl ++ [f] } else { t with queue := t.queue ++ [f] }

end Sys2Proof.Machine
end

