-- ==== Sys2Proof/Machine/ScrimOps.lean ====
section
/-! DEFINITION. The Scrim links: states, sending, routing and time marks (spec/11_scrim_links_and_fabric.md R229–R250). The
reception of a frame is in `Sys2Proof.Machine.ScrimRx`. -/
namespace Sys2Proof.Machine

/-- Violation codes of R250. -/
def vCODE : Nat := 1
def vSTRAY : Nat := 2
def vTRUNC : Nat := 3
def vBAD_CRC : Nat := 4
def vBAD_LEN : Nat := 5
def vCTRL_IN_FRAME : Nat := 6
def vBAD_TYPE : Nat := 7
def vTTL : Nat := 9
def vNO_ROUTE : Nat := 10
def vSEQ_BAD : Nat := 11
def vID_CHANGE : Nat := 12
def vADDR_CONFLICT : Nat := 13
def vDUP : Nat := 14
def vREMOTE_REFUSED : Nat := 15
def vEB_SLIP : Nat := 16
def vRX_BUSY : Nat := 17
def vABORTED : Nat := 18
def vPROTO : Nat := 19

/-- Link states of R238. -/
def lkOFF : Nat := 0
def lkDOWN : Nat := 1
def lkSYNC : Nat := 2
def lkUP : Nat := 3
def lkLOOPED : Nat := 4

namespace State

/-- Link `j`. -/
def link (s : State) (j : Nat) : Link := s.scr.links.getD j Link.start

/-- Changes link `j`. -/
def setLink (s : State) (j : Nat) (f : Link → Link) : State :=
  { s with scr := { s.scr with links := upd s.scr.links j f } }

/-- The state of link `j` (R238). -/
def linkState (s : State) (j : Nat) : Nat := s.get Reg.LINK_STAT.STATE [j]

/-- R250: a violation of code `c`. -/
def viol (s : State) (c : Nat) : State := ((s.inc Reg.SCR_VIOL_CNT.COUNT [c - 1]).ev Reg.SCR_EVT.VIOL).seqEv 10

/-- An event of link `j`. -/
def linkEv (s : State) (f : FRef) (j : Nat) : State := (s.ev f [j]).seqEv 10

/-- R238: link `j` is not OFF: EN is 1, SCR is on, and an in-band lane carries Scrim. -/
def linkRuns (s : State) (j : Nat) : Bool :=
  s.domOn 48 && s.on Reg.LINK_CFG.EN [j] && (decide (8 ≤ j) || modeInband s.mode j (s.fmt j))

/-- The link is UP. -/
def linkUp (s : State) (j : Nat) : Bool := s.linkState j = lkUP

/-- R239: the device's own address, where it has one. -/
def ownAddr (s : State) : Option Nat := if s.on Reg.SCR_CFG.ADDR_VALID then some (s.get Reg.SCR_CFG.ADDR) else none

/-- R233: the SRC of the device's own frames. -/
def srcAddr (s : State) : BitVec 16 := match s.ownAddr with | some a => BitVec.ofNat 16 a | none => 0xFFFF

/-- R239: the link over which a frame for `dst` goes, none where no link is usable. A destination of the reserved range has none
(log entry 20). -/
def route (s : State) (dst : Nat) : Option Nat :=
  if 0x1000 ≤ dst then none else
  match (List.range 10).find? fun j => s.linkUp j && !(s.link j).conflict && s.on Reg.NBR_INFO.ADDR_VALID [j] &&
      s.get Reg.NBR_INFO.ADDR [j] = dst with
  | some j => some j
  | none =>
    let hit (i : Nat) : Bool := s.on Reg.ROUTE.VALID [i] &&
      (s.get Reg.ROUTE.ADDR [i]) >>> (12 - s.get Reg.ROUTE.PLEN [i]) = dst >>> (12 - s.get Reg.ROUTE.PLEN [i])
    let best := (List.range 256).foldl (fun (b : Option Nat) i =>
      if ¬ hit i then b else match b with
      | none => some i
      | some k => if s.get Reg.ROUTE.PLEN [k] < s.get Reg.ROUTE.PLEN [i] then some i else b) none
    match best with
    | none => none
    | some i =>
      if s.linkUp (s.get Reg.ROUTE.LINK1 [i]) then some (s.get Reg.ROUTE.LINK1 [i])
      else if s.linkUp (s.get Reg.ROUTE.LINK2 [i]) then some (s.get Reg.ROUTE.LINK2 [i]) else none

/-- A frame goes to the transmitter of link `j`. -/
def transmit (s : State) (j : Nat) (f : SFrame) : State :=
  (s.inc Reg.TX_FRAME_CNT.COUNT [j]).setLink j fun l => { l with lastTx := some f, tx := l.tx.give f }

/-- R235: a NOACK frame of the device on link `j`, to its neighbour. -/
def sendCtl (s : State) (j typ : Nat) (seq : BitVec 16) (data : List Byte) : State :=
  s.transmit j ⟨0xFFFF, s.srcAddr, BitVec.ofNat 8 typ, 15, true, false, seq, 0, data⟩

/-- R235: a frame that needs an ACK is sent on link `j`, or waits while eight are unacknowledged. -/
def sendFrame (s : State) (j : Nat) (f : SFrame) : State :=
  let l := s.link j
  if l.unacked.length < 8 ∧ l.waiting = [] then
    let f := { f with seq := l.txSeq, retx := false, noack := false }
    (s.transmit j f).setLink j fun l =>
      { l with txSeq := l.txSeq + 1, unacked := l.unacked ++ [f] }
  else s.setLink j fun l => { l with waiting := l.waiting ++ [f] }

/-- R235: frames that waited for the window of link `j` are sent, at most `n`. -/
def pump (s : State) (j : Nat) : Nat → State
  | 0 => s
  | n + 1 =>
    let l := s.link j
    match l.waiting with
    | [] => s
    | f :: rest =>
      if 8 ≤ l.unacked.length then s else
      let f := { f with seq := l.txSeq, retx := false, noack := false }
      ((s.transmit j f).setLink j fun l =>
        { l with txSeq := l.txSeq + 1, unacked := l.unacked ++ [f], waiting := rest }).pump j n

/-- R241: the finished FABRIC_TX records at the head of the list leave the ring: CI advances over them. -/
def fabTxDone (s : State) : Nat → State
  | 0 => s
  | n + 1 =>
    match s.scr.tx with
    | (_, e, true) :: rest =>
      let s := { s with scr := { s.scr with tx := rest } }
      (s.ringConsume (s.get Reg.SCR_CFG2.TX_RING) e).fabTxDone n
    | _ => s

/-- R241: the record whose message has number `msn` is finished. -/
def fabTxFinish (s : State) (msn : BitVec 16) : State :=
  let s := { s with scr := { s.scr with tx := s.scr.tx.map fun (p : BitVec 16 × Nat × Bool) => if p.1 = msn then (p.1, p.2.1, true) else p } }
  s.fabTxDone s.scr.tx.length

/-- The frame is an own message. -/
def ownFrame (s : State) (f : SFrame) : Bool := f.src = s.srcAddr

/-- R239, R241: a frame is discarded for want of a link. -/
def noRoute (s : State) (f : SFrame) : State :=
  let s := s.viol vNO_ROUTE
  if s.ownFrame f then s.fabTxFinish f.msn else s

/-- R239: a frame is sent toward its destination. -/
def sendOn (s : State) (f : SFrame) : State :=
  match s.route f.dst.toNat with
  | some j => s.sendFrame j f
  | none => s.noRoute f

/-- R237, R238: link `j` leaves UP or LOOPED for state `st`: its frames are routed again in their order, those for the neighbour
alone wait on the link (log entry 20). -/
def linkLeave (s : State) (j st : Nat) : State :=
  let was := s.linkState j
  let s := s.put Reg.LINK_STAT.STATE st [j]
  if was ≠ lkUP ∧ was ≠ lkLOOPED then s else
  let l := s.link j
  let frames := l.unacked ++ l.waiting
  let s := ((s.inc Reg.UP_LOSS_CNT.COUNT [j]).linkEv Reg.LINK_EVT.UP_LOST j).whenB (was = lkUP) (·.capEv 60)
  let s := if was = lkUP then
    ((s.setLive (Reg.NBR_ID0.addr [j]) 0).setLive (Reg.NBR_INFO.addr [j]) 0).setLive (Reg.NBR_FMT.addr [j]) 0 else s
  let s := s.setLink j fun l =>
    { l with unacked := [], waiting := frames.filter (·.dst = 0xFFFF), timeouts := 0, ages := [], conflict := false
             tx := { l.tx with ctl := l.tx.ctl.filter (·.typ = 1), queue := [] } }
  s.each (frames.filter (·.dst ≠ 0xFFFF)) fun s f => s.sendOn f

/-- R231, R238: link `j` loses code-group sync. -/
def scrimSyncLost (s : State) (j : Nat) : State :=
  let s := s.setLink j fun l => { l with sync := false, rx := { LinkRx.start with disp := l.rx.disp, sh := l.rx.sh, ph := l.rx.ph } }
  if s.linkState j = lkOFF then s else s.linkLeave j lkDOWN

/-- R231, R238: link `j` gains code-group sync. -/
def scrimSyncGained (s : State) (j : Nat) : State :=
  if ¬ s.linkRuns j then s else
  let s := s.setLink j fun l => { l with sync := true }
  if s.linkState j = lkDOWN ∨ s.linkState j = lkOFF then s.put Reg.LINK_STAT.STATE lkSYNC [j] else s

/-- R238: a link leaves OFF, or goes to it. -/
def linkRefresh (s : State) (j : Nat) : State :=
  if s.linkRuns j then (if s.linkState j = lkOFF then s.put Reg.LINK_STAT.STATE lkDOWN [j] else s)
  else if s.linkState j = lkOFF then s else
    let s := (s.setLink j fun l => { l with sync := false, rx := LinkRx.start, back := [] }).linkLeave j lkOFF
    s.setLink j fun l => { l with tx := { l.tx with now := none, cur := if l.tx.cur = [] then [] else [symABT] } }

/-- R238: every link. -/
def linksRefresh (s : State) : State := s.each (List.range 10) linkRefresh

/-- R236: ACK(E) on link `j`; frames accepted before an ACK is sent share it. -/
def sendAck (s : State) (j : Nat) : State :=
  let l := s.link j
  if l.tx.ctl.any (·.typ = 2) then
    s.setLink j fun l => { l with tx := { l.tx with ctl := l.tx.ctl.map fun f => if f.typ = 2 then { f with seq := l.rxSeq } else f } }
  else s.sendCtl j 2 l.rxSeq []

/-- R236: NAK(E) on link `j`, once per gap. -/
def sendNak (s : State) (j : Nat) : State :=
  if (s.link j).nakArmed then (s.sendCtl j 3 (s.link j).rxSeq []).setLink j fun l => { l with nakArmed := false } else s

/-- R236: the sender of link `j` resends its unacknowledged frames from the `i`-th on, with RETX set. -/
def resend (s : State) (j i : Nat) : State :=
  let s := s.setLink j fun l =>
    { l with unacked := (l.unacked.take i) ++ (l.unacked.drop i).map (fun f => { f with retx := true })
             ages := l.ages.take i, tx := { l.tx with queue := [] } }
  s.each ((s.link j).unacked.drop i) fun s f => (s.transmit j f).inc Reg.RETX_CNT.COUNT [j]

/-- R236: ACK(n) arrives on link `j`. -/
def ackRx (s : State) (j : Nat) (n : BitVec 16) : State :=
  let l := s.link j
  let base := l.txSeq - BitVec.ofNat 16 l.unacked.length
  let d := (n - base).toNat
  if l.unacked.length < d then s.viol vSEQ_BAD
  else if d = 0 then s
  else
    let gone := l.unacked.take d
    let s := s.setLink j fun l => { l with unacked := l.unacked.drop d, timeouts := 0, ages := l.ages.drop d }
    let s := s.each gone fun s f => if s.ownFrame f then s.fabTxFinish f.msn else s
    s.pump j (s.link j).waiting.length

/-- R236: NAK(n) arrives on link `j`. -/
def nakRx (s : State) (j : Nat) (n : BitVec 16) : State :=
  let l := s.link j
  let d := (n - (l.txSeq - BitVec.ofNat 16 l.unacked.length)).toNat
  if l.unacked.length < d then s.viol vSEQ_BAD else s.resend j d

/-- R236: the oldest unacknowledged frame of link `j` has waited RTX_TICKS ticks. -/
def rtxDue (s : State) (j : Nat) : Bool :=
  match (s.link j).ages with
  | a :: _ => decide (s.get Reg.SCR_CFG.RTX_TICKS ≤ a)
  | [] => false

/-- R236, R237: the timeout: a resend, or after RTX_MAX consecutive timeouts the link leaves UP. -/
def rtxTimeout (s : State) (j : Nat) : State :=
  let s := s.setLink j fun l => { l with timeouts := l.timeouts + 1 }
  if s.get Reg.SCR_CFG.RTX_MAX ≤ (s.link j).timeouts then s.linkLeave j lkSYNC else s.resend j 0

/-- The HELLO period in ticks (R238). -/
def helloPeriod (s : State) : Nat := 2 ^ s.get Reg.SCR_CFG.HELLO_EXP

/-- R238: no HELLO has arrived on link `j` for HELLO_LOSS periods. -/
def helloLost (s : State) (j : Nat) : Bool :=
  (s.linkState j = lkUP || s.linkState j = lkLOOPED) &&
    decide (s.get Reg.SCR_CFG.HELLO_LOSS * s.helloPeriod ≤ (s.link j).helloAge)

/-- R238: the payload of a HELLO on link `j`. -/
def helloPayload (s : State) (j : Nat) : List Byte :=
  octets 8 s.sec.identity.toNat ++
  octets 2 (match s.ownAddr with | some a => 0x8000 + a | none => 0) ++
  octets 1 j ++
  octets 1 (16 * s.part.variant + s.mode) ++
  octets 1 (16 * s.get Reg.DISC_STAT.SRC_NOW + s.get Reg.DISC_STAT.STATE) ++
  octets 2 ((List.range 8).foldl (fun a k => a + s.fmt k * 4 ^ k) 0) ++
  octets 1 0 ++
  octets 8 (s.link j).heard.toNat

/-- R238: a HELLO is due on link `j`. -/
def helloDue (s : State) (j : Nat) : Bool :=
  s.linkRuns j && (s.link j).sync && decide (s.helloPeriod ≤ (s.link j).sinceHello)

/-- R238: a HELLO is sent on link `j`. -/
def sendHello (s : State) (j : Nat) : State :=
  (s.sendCtl j 1 0 (s.helloPayload j)).setLink j fun l => { l with sinceHello := 0 }

/-- Whether another neighbour's HELLO gives address `a` with an identity other than `id`. -/
def addrElsewhere (s : State) (j a : Nat) (id : BitVec 64) : Bool :=
  (List.range 10).any fun i => decide (i ≠ j) && s.on Reg.NBR_INFO.ADDR_VALID [i] && s.get Reg.NBR_INFO.ADDR [i] = a &&
    BitVec.ofNat 64 (s.get Reg.NBR_ID0.ID [i] * 65536 + s.get Reg.NBR_INFO.ID [i]) ≠ id

/-- R238, R239, R250: a HELLO arrives on link `j`. -/
def helloRx (s : State) (j : Nat) (p : List Byte) : State :=
  let id : BitVec 64 := BitVec.ofNat 64 (octField p 0 8)
  let av := bit (octField p 8 2) 15
  let addr := octField p 8 2 % 4096
  let echoed : BitVec 64 := BitVec.ofNat 64 (octField p 16 8)
  let l := s.link j
  let s := s.setLink j fun l => { l with heard := id, helloAge := 0 }
  if s.linkUp j ∧ l.upId ≠ id then ((s.viol vID_CHANGE).linkEv Reg.LINK_EVT.NBR_CHANGE j).linkLeave j lkSYNC else
  let info := (id.toNat % 65536) * 2 ^ 32 + b2n av * 2 ^ 31 + addr * 2 ^ 16 + (octField p 10 1 % 16) * 2 ^ 12 +
    octField p 11 1 * 16 + (if octField p 12 1 / 16 = 4 then 8 else 0) + octField p 12 1 % 8
  let bad := av && ((match s.ownAddr with | some a => a = addr | none => false) || s.addrElsewhere j addr id)
  let s := ((s.setLive (Reg.NBR_ID0.addr [j]) (BitVec.ofNat 48 (id.toNat >>> 16))).setLive (Reg.NBR_INFO.addr [j])
    (BitVec.ofNat 48 info)).setLive (Reg.NBR_FMT.addr [j]) (BitVec.ofNat 48 (octField p 13 2))
  let s := if bad then s.viol vADDR_CONFLICT else s
  let s := s.setLink j fun l => { l with conflict := bad }
  if id = s.sec.identity then
    if s.linkState j = lkLOOPED then s else (s.put Reg.LINK_STAT.STATE lkLOOPED [j]).linkEv Reg.LINK_EVT.LOOPED j
  else if echoed = s.sec.identity ∧ ¬ s.linkUp j then
    let s := if s.linkState j = lkLOOPED then (s.inc Reg.UP_LOSS_CNT.COUNT [j]).linkEv Reg.LINK_EVT.UP_LOST j else s
    let s := (s.put Reg.LINK_STAT.STATE lkUP [j]).linkEv Reg.LINK_EVT.UP_GAINED j
    s.setLink j fun l => { l with upId := id, txSeq := 0, rxSeq := 0, nakArmed := true, timeouts := 0, ages := [] }
  else s

/-- R243: bits 31:0 of word 1 of a Plumb time. -/
def low32 (t : Int) : Nat := ((t % (10 ^ 9 * 65536)) % 2 ^ 32).toNat

/-- R243: the times near `t` whose word 1 has the low 32 bits `n`, within the second `ds` after that of `t`. -/
def extendIn (t : Int) (n : Nat) (ds : Int) : List Int :=
  let base := (t / (10 ^ 9 * 65536) + ds) * (10 ^ 9 * 65536)
  let q := (t - base - n) / 2 ^ 32
  ([q, q + 1].map fun k => k * 2 ^ 32 + (n : Int)).filter (fun w => decide (0 ≤ w) && decide (w < 10 ^ 9 * 65536)) |>.map (base + ·)

/-- R243: the full time nearest `t` whose word 1 has the low 32 bits `n`. -/
def extendTime (t : Int) (n : Nat) : Int :=
  ((extendIn t n (-1) ++ extendIn t n 0 ++ extendIn t n 1).foldl (fun (b : Option Int) c =>
    match b with
    | none => some c
    | some x => if (c - t).natAbs < (x - t).natAbs then some c else some x) none).getD t

/-- R243: at step 5 of a tick link `j` sends its TMARK, which departs at `t1`, and the TIME frame after it. -/
def tmarkSend (s : State) (j : Nat) (t1 : Int) : State :=
  if ¬ (s.linkUp j ∧ s.on Reg.LINK_CFG.TT_EN [j]) then s else
  let s := s.setLink j fun l =>
    let marks := ((l.markNo + 1, t1) :: l.marks).take 4
    { l with markNo := l.markNo + 1, marks, tx := { l.tx with mark := true } }
  let l := s.link j
  let (no, t2) := l.rxMark.getD (0, 0)
  s.sendCtl j 4 0 ([l.markNo] ++ octets 4 (low32 t1) ++ [no] ++ octets 4 (low32 t2))

/-- R243: a TMARK arrives on link `j` at time `t4`. -/
def tmarkRx (s : State) (j : Nat) (t4 : Int) : State := s.setLink j fun l => { l with rxArrival := some t4 }

/-- One tick of the counters of link `j`. -/
def linkTick (s : State) (j : Nat) : State :=
  s.setLink j fun l => { l with helloAge := l.helloAge + 1, sinceHello := l.sinceHello + 1, ages := l.ages.map (· + 1) }

/-- R229–R235, R247: link `j`'s transmitter sends a symbol: the code-group. While the link is off it sends IDLE. In a test loop the symbol
comes back as well. -/
def linkSend (s : State) (j : Nat) : Nat × State :=
  let t := (s.link j).tx
  let r := if s.linkRuns j then t.next
    else if t.idle then (symIDLE2, { t with idle := false }, none) else (symCOMMA, { t with idle := true }, none)
  let c := r.2.1.code r.1
  let ended := match r.2.2 with | some f => if f.noack then [] else [0] | none => []
  let loop := s.get Reg.LINK_CFG.LOOP [j] ≠ 0
  (c.1, s.setLink j fun l =>
    { l with tx := { c.2 with out := c.1 }, ages := l.ages ++ ended, back := if loop then l.back ++ [(r.1, c.1)] else [] })

/-- R239: the next MSN. -/
def nextMsn (s : State) : State × BitVec 16 :=
  let m := s.scr.msn + 1
  ({ s with scr := { s.scr with msn := m } }, m)

/-- R233, R239: a message of the device to `dst`, or to the neighbour of link `j`; false where no link is usable. -/
def sendMessage (s : State) (dst : BitVec 16) (j typ : Nat) (data : List Byte) : State × Bool :=
  let (s, m) := s.nextMsn
  let f : SFrame := ⟨dst, s.srcAddr, BitVec.ofNat 8 typ, 15, false, false, 0, m, data⟩
  if dst = 0xFFFF then
    if s.linkUp j ∨ s.linkState j = lkLOOPED then (s.sendFrame j f, true) else (s.viol vNO_ROUTE, false)
  else match s.route dst.toNat with
    | some k => (s.sendFrame k f, true)
    | none => (s.viol vNO_ROUTE, false)

/-- R242: the proxy request ends with a status. -/
def proxyEnd (s : State) (status : Nat) : State :=
  let s := (s.put Reg.PROXY_STAT.BUSY 0).put Reg.PROXY_STAT.STATUS status
  ({ s with scr := { s.scr with proxy := none } }.ev Reg.SCR_EVT.PROXY_DONE).seqEv 10

/-- R242: a GO of the proxy. -/
def proxyGo (s : State) : State :=
  if s.on Reg.PROXY_STAT.BUSY then s else
  let wr := s.on Reg.PROXY_CTL.WRITE
  let data := octets 3 (s.get Reg.PROXY_ADDR.ADDR) ++ octets 1 1 ++
    (if wr then octets 6 (s.get Reg.PROXY_DATA.DATA) else [])
  let (s, ok) := s.sendMessage (BitVec.ofNat 16 (s.get Reg.PROXY_CTL.DST)) (s.get Reg.PROXY_CTL.LINK) (if wr then 0x11 else 0x10) data
  if ok then
    let s := s.put Reg.PROXY_STAT.BUSY 1
    { s with scr := { s.scr with proxy := some 1024 } }
  else s.proxyEnd 6

/-- R242: a REG_RSP arrives for the proxy. -/
def proxyRsp (s : State) (p : List Byte) : State :=
  let s := if octField p 0 1 = 0 ∧ ¬ s.on Reg.PROXY_CTL.WRITE ∧ 10 ≤ p.length then s.put Reg.PROXY_DATA.DATA (octField p 4 6) else s
  s.proxyEnd (octField p 0 1)

/-- R239: a message of a source is new. -/
def msnNew (s : State) (src msn : BitVec 16) : Bool :=
  match s.scr.sources.find? (·.1 = src) with
  | none => true
  | some p => decide (1 ≤ (msn - p.2).toNat) && decide ((msn - p.2).toNat ≤ 32767)

/-- R239: the MSN delivered from a source is kept; the least recently used of 256 entries is replaced. -/
def msnKeep (s : State) (src msn : BitVec 16) : State :=
  { s with scr := { s.scr with sources := ((src, msn) :: s.scr.sources.filter (·.1 ≠ src)).take 256 } }

/-- R41, R231: the in-band link of lane `k` goes down with the lane's frame lock. -/
def inbandDown (s : State) (k : Nat) : State := if (s.link k).sync then s.scrimSyncLost k else s

end State
end Sys2Proof.Machine
end

