-- ==== Sys2Proof/Machine/Plumb.lean ====
section
/-! DEFINITION. The Plumb: time, adjustments, discipline, EVT and PPS pins (spec/09_plumb_timebase_and_latency.md). -/
namespace Sys2Proof.Machine

/-- Discipline states (R187). -/
def dsFREE_RUN : Nat := 0
def dsACQUIRE : Nat := 1
def dsLOCKED : Nat := 2
def dsHOLDOVER : Nat := 3
def dsEXPIRED : Nat := 4

/-- One second in units of 2^−40 ns. -/
def sec40 : Int := 10 ^ 9 * 2 ^ 40

/-- One second in units of 2^−16 ns. -/
def sec16 : Int := 10 ^ 9 * 2 ^ 16

/-- Five ticks in units of 2^−40 ns: 24,576 ns (R16). -/
def fiveTicks40 : Int := 24576 * 2 ^ 40

namespace State

/-- Changes the Plumb. -/
def pl (s : State) (f : Plumb → Plumb) : State := { s with plb := f s.plb }

/-- The increment without Q (R180). -/
def plumbInc (s : State) : Nat := ((s.get Reg.INC_BASE.INC : Int) + s.getS Reg.FREQ_NOW.F).toNat

/-- The time at the last tick boundary in 2^−40 ns. -/
def time40 (s : State) : Int := s.plb.sec * sec40 + s.plb.sub

/-- What a slew has added `n` whole cycles and `f`/65536 of the next one after the boundary. -/
def slewPart (s : State) (n f : Nat) : Int :=
  match s.plb.slew with
  | none => 0
  | some w =>
    let a := min w.left (n * w.q)
    let a := a + (min (w.left - a) w.q) * f / 65536
    if w.neg then -(a : Int) else a

/-- The time at an instant of the present tick, in 2^−40 ns. -/
def timeAt40 (s : State) (p : Nat) : Int :=
  s.time40 + (p * s.plumbInc / 65536 : Nat) + s.slewPart (p / 65536) (p % 65536)

/-- The time at the next tick boundary, in 2^−40 ns. -/
def timeNext40 (s : State) : Int := s.timeAt40 (3840 * 65536)

/-- R180: a reported time, in 2^−16 ns. -/
def timeAt (s : State) (p : Nat) : Int := rshr (s.timeAt40 p) 24

/-- The elapsed count at an instant, in 2^−40 ns (R182). -/
def elapsedAt (s : State) (p : Nat) : Nat := s.plb.el + p * s.plumbInc / 65536

/-- R190: an instant `m`/`n` crystal periods of five Plumb cycles after the tick boundary, moved by `w` (1/128 symbol of `n` to a crystal
period), where the count that runs at INC stood at `base`: rounded to 2^−16 ns. -/
def stampFrom (s : State) (base : Int) (n m : Nat) (w : Int) : Int :=
  rhe (base * (5 * n : Nat) + (25 * m * s.plumbInc : Nat) + w * 2 ^ 38) (5 * n * 2 ^ 24)

/-- R182, R189, R190: the elapsed count, and the time, at a symbol of a grid of `n` symbols to a crystal period. -/
def stampEl (s : State) (n : Nat) (p : Stamp) (w : Int) : Int := s.stampFrom s.plb.el n p.place.toNat w
def stampTime (s : State) (n : Nat) (p : Stamp) (w : Int) : Int :=
  let c := 5 * p.place.toNat
  s.stampFrom (s.time40 + s.slewPart (c / n) (c % n * 65536 / n)) n p.place.toNat w

/-- The Plumb cycle of an instant. -/
def cycleAt (s : State) (p : Nat) : Nat := s.plb.cyc + p / 65536

/-- The words of a time in 2^−16 ns (R179). -/
def secWord (u : Int) : Word := BitVec.ofInt 48 (u / sec16)
def nsWord (u : Int) : Word := BitVec.ofInt 48 (u % sec16)

/-- Sets the time, in 2^−40 ns. -/
def setTime40 (s : State) (t : Int) : State :=
  s.pl fun p => { p with sec := (t / sec40).toNat % 2 ^ 48, sub := (t % sec40).toNat }

/-- The Plumb runs: its domain is on. -/
def plumbOn (s : State) : Bool := s.domOn 38

/-- The source code of slot `i` (R185). -/
def slotCode (s : State) (i : Nat) : Nat :=
  match i with
  | 0 => s.get Reg.PLB_CTL.SLOT0
  | 1 => s.get Reg.PLB_CTL.SLOT1
  | 2 => s.get Reg.PLB_CTL.SLOT2
  | _ => s.get Reg.PLB_CTL.SLOT3

/-- Ticks without a valid measurement after which slot `i` is lost (R185). -/
def lossTicks (s : State) (i : Nat) : Nat := if s.slotCode i = 1 then 250000 else 2 ^ s.get Reg.PLB_CTL.LOSS_TICKS

/-- R16, R185: a tick of 3,840 Plumb cycles passes; a slot without a valid measurement for its loss time starts its run anew. -/
def plumbTick (s : State) : State :=
  if ¬ s.plumbOn then s else
  let t := s.time40 + (3840 * s.plumbInc : Nat) + s.slewPart 3840 0
  let inc := s.plumbInc
  (s.setTime40 t).pl fun p =>
    { p with el := p.el + 3840 * inc, cyc := p.cyc + 3840, stepped := false
             slew := p.slew.map fun w => { w with left := w.left - 3840 * w.q }
             slots := p.slots.zipIdx.map fun q =>
               let x := { q.1 with age := q.1.age + 1 }
               if s.lossTicks q.2 ≤ x.age ∧ ¬ x.qualified then { x with run := 0 } else x }

/-- An event of PLB_EVT other than ADJ_DONE (R265). -/
def plbEv (s : State) (f : FRef) : State := (s.ev f).seqEv 9

/-- Event of EVT pin `m` in a field of four bits. -/
def evtEv (s : State) (f : FRef) (m : Nat) : State := (s.put f (s.get f ||| 2 ^ m)).seqEv 9

/-- R187: a change of the discipline state. -/
def setDisc (s : State) (st : Nat) : State :=
  if s.get Reg.DISC_STAT.STATE = st then s else (s.put Reg.DISC_STAT.STATE st).plbEv Reg.PLB_EVT.STATE_CHG |>.capEv 59

/-- The slot of a source, the highest that names it. -/
def slotOf (s : State) (code : Nat) : Option Nat := if code = 0 then none else (List.range 4).find? fun i => s.slotCode i = code

def srcSlot (s : State) (i : Nat) : SrcSlot := s.plb.slots.getD i SrcSlot.start

/-- R185, R187: publishes QUALIFIED and moves to the highest qualified slot; with none the source in use is lost. -/
def reselect (s : State) : State :=
  let q := (List.range 4).filter fun i => (s.srcSlot i).qualified
  let s := s.put Reg.DISC_STAT.QUALIFIED (q.foldl (fun a i => a + 2 ^ i) 0)
  let now := s.get Reg.DISC_STAT.SRC_NOW
  let next := match q with | [] => 0 | i :: _ => s.slotCode i
  if next = now then s else
  let s := (s.put Reg.DISC_STAT.SRC_NOW next).plbEv Reg.PLB_EVT.SRC_SWITCH
  let s := s.pl fun p => { p with outliers := 0, meas := none }
  if next = 0 then (s.putI Reg.FREQ_NOW.F (rshr s.plb.integ 16)).setDisc dsHOLDOVER
  else
    let locked := now ≠ 0 ∧ (s.srcSlot (q.headD 0)).inRun = 16
    (s.put Reg.DISC_STAT.HOLD_TICKS 0).setDisc (if locked then dsLOCKED else dsACQUIRE)

/-- R187: a measurement lies within ±LOCK_THRESH. -/
def inThresh (s : State) (e : Int) : Bool := decide (e.natAbs ≤ 2 ^ (s.get Reg.PLB_CTL.LOCK_THRESH + 13))

/-- R187: slot `i`'s run of measurements within LOCK_THRESH after one of `e`. -/
def countIn (s : State) (i : Nat) (e : Int) : State :=
  s.pl fun p => { p with slots := upd p.slots i fun y => { y with inRun := if s.inThresh e then min 16 (y.inRun + 1) else 0 } }

/-- R185: a measurement `e` (2^−16 ns) from a source at Plumb cycle `c`. -/
def measure (s : State) (code : Nat) (e : Int) (c : Nat) : State :=
  match s.slotOf code with
  | none => s
  | some i =>
    let x := s.srcSlot i
    if x.skip then s.pl fun p => { p with slots := upd p.slots i fun y => { y with skip := false, last := some c } } else
    let n := min 16 (x.run + 1)
    let s := s.pl fun p => { p with slots := upd p.slots i fun y =>
      { y with run := n, qualified := y.qualified || n = 16, age := 0, last := some c } }
    let s := s.putI Reg.DISC_OFS.E (satS 48 e)
    let s := s.reselect
    if s.get Reg.DISC_STAT.SRC_NOW = code then
      s.pl fun p => { p with meas := some (e, match x.last with | some l => c - l | none => 0) }
    else s.countIn i e

/-- R185: slot `i` is due to lose its qualification. -/
def slotLost (s : State) (i : Nat) : Bool := (s.srcSlot i).qualified && decide (s.lossTicks i ≤ (s.srcSlot i).age)

/-- R185: slot `i` loses its qualification. -/
def loseSlot (s : State) (i : Nat) : State :=
  (s.pl fun p => { p with slots := upd p.slots i fun y => { y with run := 0, qualified := false } }).reselect

/-- R185: a Set has changed SRC_PRIO: every slot qualifies anew; F and I stay, and HOLD_TICKS until a source is used again (R187). -/
def prioChanged (s : State) : State :=
  let s := s.pl fun p => { p with slots := List.replicate 4 SrcSlot.start, outliers := 0, meas := none }
  let s := s.put Reg.DISC_STAT.QUALIFIED 0
  let s := if s.get Reg.DISC_STAT.SRC_NOW = 0 then s else
    (s.put Reg.DISC_STAT.SRC_NOW 0).plbEv Reg.PLB_EVT.SRC_SWITCH
  s.setDisc dsFREE_RUN

/-- R184: the next measurement of every slot spans a step of the time. -/
def spanStep (s : State) : State := s.pl fun p => { p with slots := p.slots.map fun x => { x with skip := true } }

/-- R183: a command finishes: SEQ, result and ADJ_DONE. -/
def adjDone (s : State) (seq result : Nat) : State :=
  (((s.put Reg.ADJ_STAT.SEQ_DONE seq).put Reg.ADJ_STAT.RESULT result).ev Reg.PLB_EVT.ADJ_DONE).seqEv 4

/-- R183: a running slew is abandoned with result 0x04. -/
def slewAbandon (s : State) : State :=
  match s.plb.slew with
  | none => s
  | some w => ((s.pl fun p => { p with slew := none }).put Reg.ADJ_STAT.SLEWING 0).adjDone w.seq 4

/-- The command armed by a Set is the one named. -/
def adjArmed (s : State) (cmd : Nat) : Bool := s.armed dueAdj 0 && s.get Reg.ADJ_CTL.CMD = cmd

/-- The SEQ of the command in ADJ_CTL. -/
def adjSeq (s : State) : Nat := s.get Reg.ADJ_CTL.SEQ

/-- R183: LOAD. -/
def adjLoad (s : State) : State :=
  let s := s.slewAbandon
  let sec := s.getS Reg.ADJ_SEC.SEC
  let ns := s.getS Reg.ADJ_NS.NS
  if sec < 0 ∨ ns < 0 ∨ sec16 ≤ ns then s.adjDone s.adjSeq 2
  else ((s.setTime40 (sec * sec40 + ns * 2 ^ 24)).spanStep.pl fun p => { p with stepped := true }).adjDone s.adjSeq 0

/-- R183: STEP. -/
def adjStep (s : State) : State :=
  let s := s.slewAbandon
  let ns := s.getS Reg.ADJ_NS.NS
  let t := s.time40 + s.getS Reg.ADJ_SEC.SEC * sec40 + ns * 2 ^ 24
  if sec16 ≤ ns.natAbs ∨ t < 0 then s.adjDone s.adjSeq 2
  else ((s.setTime40 t).spanStep.pl fun p => { p with stepped := true }).adjDone s.adjSeq 0

/-- R183: SLEW. A slew of 0 ns has nothing to absorb and completes at once. -/
def adjSlew (s : State) : State :=
  let st := s.get Reg.DISC_STAT.STATE
  if st = dsACQUIRE ∨ st = dsLOCKED then s.adjDone s.adjSeq 1
  else if s.getS Reg.ADJ_SEC.SEC ≠ 0 then s.adjDone s.adjSeq 2
  else
    let s := s.slewAbandon
    let ns := s.getS Reg.ADJ_NS.NS
    if ns = 0 then s.adjDone s.adjSeq 0 else
    let q := (rhe ((s.get Reg.ADJ_CTL.SLEW_RATE : Int) * 128 * 2 ^ 40) (10 ^ 8)).toNat
    (s.pl fun p => { p with slew := some ⟨decide (ns < 0), ns.natAbs * 2 ^ 24, q, s.adjSeq⟩ }).put Reg.ADJ_STAT.SLEWING 1

/-- R183: MEASURE. -/
def adjMeasure (s : State) : State :=
  if (s.slotOf 5).isNone then s.adjDone s.adjSeq 3
  else (s.measure 5 (s.getS Reg.ADJ_NS.NS) s.plb.cyc).adjDone s.adjSeq 0

/-- R183: a slew has absorbed its whole amount. -/
def slewOver (s : State) : Bool := match s.plb.slew with | some w => w.left = 0 | none => false

/-- R183: the slew ends. -/
def slewEnd (s : State) : State :=
  match s.plb.slew with
  | some w => ((s.pl fun p => { p with slew := none }).put Reg.ADJ_STAT.SLEWING 0).adjDone w.seq 0
  | none => s

/-- R186: the servo takes measurement `e` over `c` cycles. -/
def servo (s : State) (e : Int) (c : Nat) : State :=
  if c = 0 then s else
  let lim : Int := 703687442
  let ki := s.get Reg.PLB_CTL.KI
  let kp := s.get Reg.PLB_CTL.KP
  let i := rhe (s.plb.integ * (c * 2 ^ ki : Nat) - e * 2 ^ 40) (c * 2 ^ ki)
  let i' := clampI (-(lim * 65536)) (lim * 65536) i
  let f := rhe (i' * (c * 2 ^ kp : Nat) - e * 2 ^ 40) (65536 * (c * 2 ^ kp))
  let f' := clampI (-lim) lim f
  let s := (s.pl fun p => { p with integ := i' }).putI Reg.FREQ_NOW.F f'
  if i ≠ i' ∨ f ≠ f' then s.plbEv Reg.PLB_EVT.FREQ_LIM else s

/-- R187: a measurement of the source in use lies within ±LOCK_THRESH, or not. -/
def lockCount (s : State) (e : Int) : State :=
  match s.slotOf (s.get Reg.DISC_STAT.SRC_NOW) with
  | none => s
  | some i =>
    let s := s.countIn i e
    s.setDisc (if (s.srcSlot i).inRun = 16 then dsLOCKED else dsACQUIRE)

/-- R187: the source in use has measured outside LOCK_THRESH. -/
def lockFresh (s : State) : State := s.pl fun p => { p with slots := p.slots.map fun y => { y with inRun := 0 } }

/-- R188: a measurement in ACQUIRE: an automatic step, or the servo. -/
def servoAcquire (s : State) (e : Int) (c : Nat) : State :=
  let th := s.get Reg.PLB_CTL.STEP_THRESH
  if th ≠ 0 ∧ 2 ^ (th + 20) ≤ e.natAbs then
    if s.plb.stepped then s else
    let t := s.time40 - e * 2 ^ 24
    (((s.setTime40 t).spanStep.plbEv Reg.PLB_EVT.AUTO_STEP).lockCount e)
  else (s.servo e c).lockCount e

/-- R186, R188: at a tick boundary after a valid measurement from the source in use. -/
def servoUpdate (s : State) : State :=
  match s.plb.meas with
  | none => s
  | some (e, c) =>
    let s := s.pl fun p => { p with meas := none }
    let th := s.get Reg.PLB_CTL.STEP_THRESH
    let big := th ≠ 0 && decide (2 ^ (th + 20) ≤ e.natAbs)
    if s.get Reg.DISC_STAT.STATE = dsLOCKED ∧ big then
      if s.plb.outliers = 2 then
        let s := (s.pl fun p => { p with outliers := 0 }).lockFresh.plbEv Reg.PLB_EVT.OUTLIER
        (s.setDisc dsACQUIRE).servoAcquire e c
      else (s.pl fun p => { p with outliers := p.outliers + 1 }).plbEv Reg.PLB_EVT.OUTLIER
    else (s.pl fun p => { p with outliers := 0 }).servoAcquire e c

/-- R187: one tick of holdover; in FREE_RUN F is I (log entry 64). -/
def holdTick (s : State) : State :=
  let st := s.get Reg.DISC_STAT.STATE
  if st = dsHOLDOVER ∨ st = dsEXPIRED then s.inc Reg.DISC_STAT.HOLD_TICKS
  else if st = dsFREE_RUN ∧ s.plumbOn then s.putI Reg.FREQ_NOW.F (rshr s.plb.integ 16)
  else s

/-- R187: HOLDOVER has lasted its limit. -/
def holdOver (s : State) : Bool :=
  s.get Reg.DISC_STAT.STATE = dsHOLDOVER && s.get Reg.PLB_CTL.HOLD_LIMIT ≠ 0 &&
    decide (s.get Reg.PLB_CTL.HOLD_LIMIT * 65536 ≤ s.get Reg.DISC_STAT.HOLD_TICKS)

/-- Sensor `n` has been declared broken (R306). -/
def broken (s : State) (n : Nat) : Bool := (s.get Reg.SENS_FLT.BROKEN).testBit n

/-- The reading of sensor `n` in 1/16 °C. -/
def reading (s : State) (n : Nat) : Int := s.getS Reg.TS.TEMP [n]

/-- R306: the sensor whose reading every use other than limits and throttle takes for sensor `n`. -/
def useSensor (s : State) (n : Nat) : Nat := if ¬ s.broken n then n else if ¬ s.broken 11 then 11 else 8

/-- R306: the reading that every use other than limits and throttle takes. -/
def useTemp (s : State) (n : Nat) : Int := s.reading (s.useSensor n)

/-- R303: the sensor that a path delay is corrected from. -/
def dlySensor (f : FRef) (i : Nat) : Nat :=
  if f.base = Reg.DLY_LRX.base ∨ f.base = Reg.DLY_LTX.base then i
  else if f.base = Reg.DLY_FLT.base then 8
  else if f.base = Reg.DLY_HRX.base ∨ f.base = Reg.DLY_HTX.base then 9 + i / 8
  else 11

/-- A path delay as the device uses it, in 2^−16 ns: the live register, corrected for temperature from its sensor (R194, R303, R306). -/
def dly (s : State) (f : FRef) (i : Nat) : Int := s.getS f [i] + Config.delayShift (f.addr [i]) (s.useTemp (dlySensor f i))

/-- R185, R193: a selected PPS_IN edge at an instant. -/
def ppsEdge (s : State) (p : Nat) : State :=
  let el := s.elapsedAt p
  let ok : Bool := match s.plb.ppsLast with
    | none => true
    | some l => decide (((el : Int) - l - sec40).natAbs ≤ 10 ^ 6 * 2 ^ 40)
  if !ok then
    let s := match s.slotOf 1 with
      | some i => s.pl fun x => { x with slots := upd x.slots i fun y => if y.qualified then y else { y with run := 0 } }
      | none => s
    s.plbEv Reg.PLB_EVT.PPS_REJECT
  else
  let t := s.timeAt p
  let c := s.dly Reg.DLY_PPS.DLY 0
  let s := s.pl fun x => { x with ppsLast := some el }
  let s := (s.setLive (Reg.PPS_TS_SEC.addr []) (secWord t)).setLive (Reg.PPS_TS_NS.addr []) (nsWord t)
  let d := t - c
  let whole := rhe d sec16.toNat * sec16
  s.measure 1 (d - whole) (s.cycleAt p)

def evtPin (s : State) (m : Nat) : EvtPin := s.plb.evts.getD m ⟨none, none, none, false⟩

/-- R181, R191: a read of EVTm_TS_SEC takes the pin's timestamp. -/
def evtRead (s : State) (m : Nat) : State := s.pl fun p => { p with evts := upd p.evts m fun x => { x with unread := false } }

def setEvt (s : State) (m : Nat) (f : EvtPin → EvtPin) : State := s.pl fun p => { p with evts := upd p.evts m f }

/-- R191: an input mode of pin `m` selects the edge. -/
def evtSelects (s : State) (m : Nat) (falling : Bool) : Bool :=
  let md := s.get Reg.EVT_CFG.MODE [m]
  md = 3 || (md = 1 && !falling) || (md = 2 && falling)

/-- R191: the edge lasts at least 2 ns. -/
def evtLasts (lasts : Nat) : Bool := decide (2 * 100 * 65536 ≤ lasts * 128)

/-- R191, R225: an edge of EVT pin `m` at an instant. -/
def evtEdge (s : State) (m p : Nat) (falling : Bool) : State :=
  let el := s.elapsedAt p
  let s := s.capEv (36 + m)
  let near := match (s.evtPin m).lastEdge with | some l => decide (el < l + 20 * 2 ^ 40) | none => false
  let s := s.setEvt m fun x => { x with lastEdge := some el }
  if near then s.evtEv Reg.PLB_EVT.EVT_OVR m else
  let t := s.timeAt p
  let s := if (s.evtPin m).unread then s.evtEv Reg.PLB_EVT.EVT_OVR m else s
  let s := (s.setLive (Reg.EVT_TS_SEC.addr [m]) (secWord t)).setLive (Reg.EVT_TS_NS.addr [m]) (nsWord t)
  let s := (s.setEvt m fun x => { x with unread := true }).evtEv Reg.PLB_EVT.EVT_IN m
  let r := s.get Reg.EVT_CFG.RING [m]
  if r = 0 then s else
  s.enterRecord r ringTIMESTAMP [[BitVec.ofNat 48 (1 * 2 ^ 44 + m * 2 ^ 18 + b2n falling * 2 ^ 17), secWord t, nsWord t, 0]]

/-- R192, R367: a time (2^−16 ns) is less than one tick after the tick boundary. -/
def beforeTick (s : State) (t : Int) : Bool := decide (5 * (t * 2 ^ 24 - s.time40) < fiveTicks40)

/-- R192: the present tick reaches a time; the instant, in sixteenths of a Plumb cycle (80 ps) after the boundary. -/
def inTick (s : State) (t : Int) : Bool := decide (s.time40 ≤ t * 2 ^ 24) && decide (t * 2 ^ 24 < s.timeNext40)
def step80 (s : State) (t : Int) : Int := rhe (3840 * 16 * (t * 2 ^ 24 - s.time40)) (s.timeNext40 - s.time40).toNat

/-- R192: an output of pin `m` is armed. -/
def evtArm (s : State) (m : Nat) : State :=
  let md := s.get Reg.EVT_CFG.MODE [m]
  if md ≠ 4 ∧ md ≠ 5 then s else
  let t := s.getS Reg.EVT_SCHED_SEC.SEC [m] * sec16 + s.get Reg.EVT_SCHED_NS.NS [m]
  if s.beforeTick t then (s.setEvt m fun x => { x with next := none }).evtEv Reg.PLB_EVT.EVT_LATE m
  else s.setEvt m fun x => { x with next := some t }

/-- R192: the pulse of pin `m` that falls in the present tick is driven; times a forward step has passed are skipped. -/
def evtPulse (s : State) (m : Nat) : State :=
  match (s.evtPin m).next with
  | none => s
  | some t =>
    let now := (s.time40 + 2 ^ 24 - 1) / 2 ^ 24
    let per : Int := s.get Reg.EVT_PERIOD.NS [m]
    let again := s.get Reg.EVT_CFG.MODE [m] = 5 && decide (0 < per)
    if t < now then
      s.setEvt m fun x => { x with next := if again then some (t + ((now - t + per - 1) / per) * per) else none }
    else if s.inTick t then
      let rise := 16 * s.plb.cyc + s.step80 t
      s.setEvt m fun x => { x with next := if again then some (t + per) else none
                                   pulse := some (rise, rise + 16 * s.get Reg.EVT_CFG.WIDTH [m]) }
    else s

/-- R192: pin `m` is driven high at an instant. -/
def evtHigh (s : State) (m p : Nat) : Bool :=
  match (s.evtPin m).pulse with
  | some (a, b) => let x : Int := 16 * s.plb.cyc + p / 4096; decide (a ≤ x) && decide (x < b)
  | none => false

/-- R193: PPS_OUT rises for a second that the present tick passes. -/
def ppsPulse (s : State) : State :=
  let st := s.get Reg.DISC_STAT.STATE
  if ¬ s.on Reg.PPS_OUT_CTL.EN ∨ (s.on Reg.PPS_OUT_CTL.GATE ∧ (st = dsFREE_RUN ∨ st = dsEXPIRED)) then s else
  let ofs := s.getS Reg.PPS_OUT_CTL.OFS * 65536
  let now := (s.time40 + 2 ^ 24 - 1) / 2 ^ 24
  let sec := (now - ofs + sec16 - 1) / sec16
  let new : Bool := match s.plb.ppsOut with | some l => decide (l < sec) | none => true
  let t := sec * sec16 + ofs
  if s.inTick t ∧ new then
    let rise := s.plb.el + (t * 2 ^ 24 - s.time40).toNat
    s.pl fun p => { p with ppsOut := some sec, ppsHigh := some (rise, rise + s.get Reg.PPS_OUT_CTL.WIDTH * (1000 * 2 ^ 40)) }
  else s

/-- R193: PPS_OUT is high at an instant. -/
def ppsOutHigh (s : State) (p : Nat) : Bool :=
  match s.plb.ppsHigh with
  | some (a, b) => decide (a ≤ s.elapsedAt p) && decide (s.elapsedAt p < b)
  | none => false

end State
end Sys2Proof.Machine
end

