-- ==== Sys2Proof/Machine/Slice.lean ====
section
/-! DEFINITION. The receive slices: which lane a slice serves, coefficients and their registers, adaptation, timing lock,
snapshots, reacquisition and quality figures (spec/03, R47–R54; spec/04, R75–R105; spec/07, R146–R158). -/
namespace Sys2Proof.Machine

/-- Phases of the Float (R58). -/
def phIDLE : Nat := 0
def phFLOAT_CAL : Nat := 1
def phCONVERGE : Nat := 2
def phAGREE : Nat := 3
def phSWAP_WAIT : Nat := 4
def phSERVE : Nat := 5
def phRET_CONVERGE : Nat := 6
def phRET_AGREE : Nat := 7
def phRET_SWAP_WAIT : Nat := 8
def phRETIRED : Nat := 9
def phTAKEOVER : Nat := 10
def phOBSERVE_RX : Nat := 11
def phOBSERVE_TX : Nat := 12

/-- Adaptation states (R93). -/
def adHOLD : Nat := 0
def adACQUIRE : Nat := 1
def adTRACK : Nat := 2
def adOFF : Nat := 3

/-- Frame-lock states (R38, R46). -/
def fsHUNT : Nat := 0
def fsVERIFY : Nat := 1
def fsLOCKED : Nat := 2

/-- The largest `n` below `2^w` for which `p` holds, for a `p` that holds up to some bound and not beyond; 0 where it never does. -/
def searchMax (p : Nat → Bool) : Nat → Nat → Nat
  | 0, base => base
  | w + 1, base => searchMax p w (if p (base + 2 ^ w) then base + 2 ^ w else base)

/-- R102: 10·log10(num/den) dB as U8.8, rounded to nearest, floored at 0 and saturated (R143). -/
def dbCode (num den : Nat) : Nat :=
  if den = 0 then 0xFFFF else
  searchMax (fun n => decide (10 ^ (2 * n - 1) * den ^ 5120 ≤ num ^ 5120)) 16 0

/-- The square root of `num/den`, rounded to nearest. -/
def sqrtRound (num den : Nat) : Nat :=
  if den = 0 then 0 else
  let k := Nat.sqrt (4 * num / den)
  if 4 * num = k * k * den ∧ k % 4 = 1 then k / 2 else (k + 1) / 2

namespace State

def phase (s : State) : Nat := s.get Reg.MIG_STAT.PHASE
def floatLane (s : State) : Nat := s.get Reg.MIG_STAT.LANE
def slice (s : State) (i : Nat) : Slice := s.slices.getD i Slice.start
def setSlice (s : State) (i : Nat) (f : Slice → Slice) : State := { s with slices := upd s.slices i f }
def frame (s : State) (i : Nat) : FrameLock := s.frames.getD i FrameLock.hunting
def setFrame (s : State) (i : Nat) (f : FrameLock → FrameLock) : State := { s with frames := upd s.frames i f }
def lane (s : State) (k : Nat) : Lane := s.lanes.getD k Lane.start
def setLane (s : State) (k : Nat) (f : Lane → Lane) : State := { s with lanes := upd s.lanes k f }

/-- R58: the Float feeds the decoder of its lane. -/
def floatServes (s : State) : Bool := decide (phSERVE ≤ s.phase) && decide (s.phase ≤ phRETIRED)

/-- The slice whose decisions feed the decoder of lane `k` (R10, R58). -/
def serving (s : State) (k : Nat) : Nat := if s.floatServes && s.floatLane = k then 8 else k

/-- The lane that a slice serves, if any. -/
def servedBy (s : State) (sl : Nat) : Option Nat :=
  if sl = 8 then (if s.floatServes then some s.floatLane else none)
  else if s.serving sl = sl then some sl else none

/-- R57, R75: the register block whose settings a slice uses. -/
def cfgOf (s : State) (sl : Nat) : Nat :=
  if sl = 8 ∧ ¬ (s.phase = phIDLE ∨ s.phase = phFLOAT_CAL ∨ s.phase = phOBSERVE_RX ∨ s.phase = phOBSERVE_TX) then s.floatLane else sl

/-- R75, R158: the register blocks that record events and counts of a slice. -/
def blocksOf (s : State) (sl : Nat) : List Nat :=
  (if sl = 8 then [8] else []) ++ (match s.servedBy sl with | some k => [k] | none => [])

/-- An event of an LNk or LNF event register recorded for a slice. -/
def sliceEv (s : State) (f : FRef) (sl : Nat) : State := s.each (s.blocksOf sl) fun s b => s.laneEv f b

/-- A count recorded for a slice. -/
def sliceInc (s : State) (f : FRef) (sl n : Nat) : State :=
  if n = 0 then s else s.each (s.blocksOf sl) fun s b => s.inc f [b] n

/-- A saturation of a slice: count and event (R142, R158). -/
def satCount (s : State) (cnt ev : FRef) (sl n : Nat) : State := 
  if n = 0 then s else
  let s := (s.sliceInc cnt sl n).sliceEv ev sl
  s.each ((s.blocksOf sl).filter (· < 8)) fun s b => s.capEv (24 + b)

/-- Address of coefficient `i` of the 44 of R80 in register block `b`. -/
def coefAddr (b i : Nat) : Nat :=
  if i < 33 then Reg.FFE_TAP.addr [b, i] else if i < 39 then Reg.NL_TAP.addr [b, i - 33]
  else if i = 39 then Reg.DFE_TAP.addr [b] else Reg.MLSE_H.addr [b, i - 40]

/-- The block and index of a coefficient register. -/
def coefOf (a : Nat) : Option (Nat × Nat) :=
  if a < 0x080000 ∨ 0x089000 ≤ a then none else
  let o := a % 0x1000
  if 0x080 ≤ o ∧ o < 0x0AC then some ((a - 0x080000) / 0x1000, o - 0x080) else none

/-- R80: the range of coefficient `i` with main tap `p`, in 2^−27. -/
def coefRange (i p : Nat) : Int × Int :=
  if i < 33 then (if i = p then (2 ^ 25, 2 ^ 28 - 2 ^ 16) else (-(2 ^ 27), 2 ^ 27 - 2 ^ 16))
  else if i < 39 then (-(2 ^ 26), 2 ^ 26 - 2 ^ 16)
  else if i = 39 then (-(2 ^ 25), 2 ^ 27 - 2 ^ 16)
  else if i = 40 then (0, 2 ^ 27 - 2 ^ 16) else (-(2 ^ 26), 2 ^ 26 - 2 ^ 16)

/-- R80: the reset seed with main tap `p`. -/
def seedCoefs (p : Nat) : List Int :=
  (List.range 44).map fun i => if i = p then 2 ^ 27 else if i = 40 then 2 ^ 26 else 0

/-- The main tap position of a slice (R77). -/
def mainPos (s : State) (sl : Nat) : Nat := s.use Reg.FFE_CTL.MAIN_POS [sl]

/-- R146: A, RA1 and RA2 of a slice: formed from A at the boundary at which the slice takes it. -/
def tgtA (s : State) (sl : Nat) : Nat := s.use Reg.FFE_CTL.TGT_A [sl]
def ra1 (s : State) (sl : Nat) : Nat := (rhe (2 ^ 24) (s.tgtA sl)).toNat
def ra2 (s : State) (sl : Nat) : Nat := (rhe (2 ^ 24) (s.tgtA sl * s.tgtA sl)).toNat

/-- R80, R105: the committed coefficients of a slice, and its automatic gain, appear in the registers of its block and of the lane it
serves. -/
def publishCoefs (s : State) (sl : Nat) : State :=
  let x := s.slice sl
  let auto := s.uses Reg.EQ_CTL.LLR_AUTO [sl]
  s.each (s.blocksOf sl) fun s b =>
    let s := s.each (x.coefs.c.zipIdx) fun s (p : Int × Nat) =>
      s.setLive (coefAddr b p.2) (BitVec.ofNat 48 (enc 16 (rshr p.1 16)))
    s.whenB auto (·.put Reg.LLR_CTL.LLR_GAIN x.coefs.gain [b])

/-- R80, R89: the stages of a slice exchange the banks: they take the committed coefficients, gain and residual correction. Without
automatic gain G is LLR_GAIN as the slice has it in use. -/
def activate (s : State) (sl : Nat) : State :=
  let g := if s.uses Reg.EQ_CTL.LLR_AUTO [sl] then (s.slice sl).coefs.gain else s.use Reg.LLR_CTL.LLR_GAIN [sl]
  s.setSlice sl fun x => { x with coefs := { x.coefs with gain := g }, taps := x.coefs.active, gain := g, ic := icActive x.icorr }

/-- SIG_DET of a slice. -/
def sigDet (s : State) (sl : Nat) : Bool := s.on Reg.RX_STAT.SIG_DET [sl]

/-- R60, R66, R93, R98, R100, R154: slice `dst` takes another's bank as its seed, and enters TRACK; without signal it holds. -/
def seedSlice (s : State) (dst : Nat) (b : Bank) : State :=
  let st := if ¬ s.uses Reg.EQ_CTL.ADAPT_EN [dst] then adOFF else if s.sigDet dst then adTRACK else adHOLD
  let s := s.setSlice dst fun x =>
    { x with coefs := b.coefs, icorr := b.icorr, forced := b.forced, savedH := b.savedH, adapt := st, acqTicks := 0, fromTrack := false
             results := none }
  (s.activate dst).publishCoefs dst

/-- R43: a format probe of the lane that a slice serves stops, since the slice's timing loop is not locked. -/
def probeStop (s : State) (sl : Nat) : State :=
  match s.servedBy sl with
  | some k => (s.put Reg.FRM_STAT.PROBE_ACTIVE 0 [k]).setLane k fun l => { l with huntCyc := 0 }
  | none => s

/-- R96: a slice's input is connected, moved or reconnected. -/
def connectSlice (s : State) (sl : Nat) : State :=
  (s.probeStop sl).setSlice sl fun x =>
    { x with trLock := false, passRun := 0, failRun := 0, win := ⟨0, 0, 0⟩, goodTick := false, unlocked := 0 }

/-- The candidate's frame lock starts afresh (R60, R66). -/
def candHunt (s : State) : State := s.setFrame 8 fun _ => FrameLock.hunting

/-- R93, R98: the slice enters ACQUIRE, unless adaptation is off; without signal it holds. -/
def enterAcquire (s : State) (sl : Nat) : State :=
  let st := if s.sigDet sl then adACQUIRE else adHOLD
  s.setSlice sl fun x => if x.adapt = adOFF then x else { x with adapt := st, acqTicks := 0, acqWhole := false, fromTrack := false }

/-- R49, R93: the amplitude at the buffer output of a slice, in mVppd, has crossed a level. -/
def signalDetect (s : State) (sl amp : Nat) : State :=
  let th := 50 + 10 * s.use Reg.RX_AFE.SD_THRESH [sl]
  if ¬ s.sigDet sl ∧ th < amp then
    let s := s.put Reg.RX_STAT.SIG_DET 1 [sl]
    let s := s.setSlice sl fun x => { x with sigTick := false }
    if (s.slice sl).adapt = adHOLD then s.enterAcquire sl else s
  else if s.sigDet sl ∧ amp ^ 20 * 1000 ≤ th ^ 20 then
    let s := (s.put Reg.RX_STAT.SIG_DET 0 [sl]).laneEv Reg.RX_EVT.SIG_LOST sl
    s.setSlice sl fun x =>
      if x.adapt = adOFF then { x with sigTick := false, unlocked := 0 }
      else { x with adapt := adHOLD, fromTrack := false, sigTick := false, unlocked := 0 }
  else s

/-- The detector in use in a slice (R100): MLSE. -/
def mlse (s : State) (sl : Nat) : Bool := s.uses Reg.EQ_CTL.DET [sl] && !(s.slice sl).forced

/-- Symbols per line DSP cycle in a slice's format (R51). -/
def symsOf (s : State) (sl : Nat) : Nat := if s.use Reg.FRM_CFG.FORMAT [sl] = 0 then 64 else 32

/-- The settings and the active bank that the datapath of a slice has in use (R73, R75, R80, R147). -/
def rxCfg (s : State) (sl : Nat) : RxCfg :=
  let x := s.slice sl
  { per := s.symsOf sl, a := s.tgtA sl, ra2 := s.ra2 sl
    icorr := if s.uses Reg.RX_CTL.ICORR_EN [sl] then some x.ic else none
    pol := s.uses Reg.RX_AFE.RX_POL [sl], ffe := s.uses Reg.EQ_CTL.FFE_EN [sl], pos := s.mainPos sl
    taps := x.taps, nl := s.uses Reg.EQ_CTL.NL_EN [sl], mlse := s.mlse sl
    precode := s.uses Reg.EQ_CTL.PRECODE_RX [sl], alpha := s.use Reg.DET_CTL.PR_ALPHA [sl], gain := x.gain }

/-- A list of codes as numbers. -/
def codesOf (r : RxCodes) : List Int := r.codes.map BitVec.toInt

/-- R96, R102: a window of 1,024 line DSP cycles passes on its sums of u(n) and e(n)². -/
def windowPasses (s : State) (sl : Nat) (w : TrWindow) : Bool :=
  let a := s.tgtA sl
  let n := 1024 * s.symsOf sl
  decide (w.u.natAbs * 32 ≤ a * a * 16 * n ∧
    10 ^ (6 + s.use Reg.TR_CTL.LOCK_SNR [sl]) * w.e2.toNat ^ 10 ≤ (5 * a * a * 256 * n) ^ 10)

/-- R95: the gains of the timing loop, as shifts. -/
def timingGains (s : State) (sl : Nat) : Nat × Nat :=
  if (s.slice sl).trLock then (s.use Reg.TR_CTL.KP_TRK [sl], s.use Reg.TR_CTL.KI_TRK [sl])
  else (s.use Reg.TR_CTL.KP_ACQ [sl], s.use Reg.TR_CTL.KI_ACQ [sl])

/-- R95, R155: the limit of nu, in 2^−24. -/
def nuLimit (s : State) (sl : Nat) : Int := if s.symsOf sl = 64 then 41231686 else 20615843

/-- R95, R98, R102, R155: the timing loop of a slice through one line DSP cycle with sum U. -/
def timingCycle (s : State) (sl : Nat) (u : Int) : State :=
  let x := s.slice sl
  let g := s.timingGains sl
  let r := if s.sigDet sl then timingStep (s.ra2 sl) g.1 g.2 (s.nuLimit sl) (x.coefs.nu, x.coefs.theta, false) u
    else (x.coefs.nu, x.coefs.theta, false)
  let un := (x.thetas.headD x.coefs.theta) + sx 48 (enc 48 ((r.2.1 : Int) - x.coefs.theta))
  let s := s.setSlice sl fun x =>
    { x with coefs := { x.coefs with nu := r.1, theta := r.2.1 }, thetas := un :: x.thetas, cyc := x.cyc + 1 }
  if r.2.2 then s.sliceEv Reg.EQ_EVT.FREQ_LIM sl else s

/-- R93, R99: the wanted seed of a reacquisition: true for a snapshot. -/
def reacqSnapshot (x : Slice) : Bool :=
  (x.snaps.any (·.good)) && (match x.lastSeed with | none => true | some b => !b)

/-- R99, R154: a slice reacquires: from the newest good snapshot, or from the reset seed, whose nu and theta are 0 (log entry 58). -/
def reacquire (s : State) (sl : Nat) : State :=
  let x := s.slice sl
  let snap := reacqSnapshot x
  let seed : Bank := { x.bank with coefs := { Coefs.seed with c := seedCoefs (s.mainPos sl) } }
  let b := match x.snaps.find? (·.good) with
    | some g => if snap then g.bank else seed
    | none => seed
  let s := s.setSlice sl fun x => { x with coefs := b.coefs, icorr := b.icorr, results := none, lastSeed := some snap, unlocked := 0 }
  (((s.enterAcquire sl).publishCoefs sl).sliceEv Reg.EQ_EVT.REACQ sl).sliceInc Reg.REACQ_CNT.COUNT sl 1

/-- R93, R99: a reacquisition is due. In OFF there is none, since coefficients then change only by a Set (log entry 59). -/
def reacqDue (s : State) (sl : Nat) : Bool :=
  decide (s.use Reg.EQ_CTL.REACQ_TICKS [sl] ≤ (s.slice sl).unlocked) && decide ((s.slice sl).adapt ≠ adOFF)

/-- R153: one update at internal precision, held within its range; true where it was held. -/
def coefStep (i p : Nat) (v delta : Int) : Int × Bool :=
  let r := coefRange i p
  let n := v + delta
  (clampI r.1 r.2 n, n < r.1 || r.2 < n)

/-- R91, R93: coefficient `i` of a slice adapts. -/
def adapting (s : State) (sl i : Nat) : Bool :=
  let st := (s.slice sl).adapt
  (st = adACQUIRE || st = adTRACK) &&
    (if i < 33 then s.uses Reg.EQ_CTL.FFE_EN [sl]
     else if i < 39 then s.uses Reg.EQ_CTL.NL_EN [sl] && st = adTRACK
     else if i = 39 then !s.mlse sl else s.mlse sl)

/-- R91, R153: the change of coefficient `i` over a tick with sums `m`. -/
def coefDelta (s : State) (sl : Nat) (m : RxSums) (i : Nat) : Int :=
  let acq := (s.slice sl).adapt = adACQUIRE
  let lessFour (c : Nat) := if acq then c - 4 else c
  let sq (v : Int) (code : Nat) : Int := rshr (v * s.ra2 sl) (code + 21)
  let one (v : Int) (code : Nat) : Int := rshr (v * s.ra1 sl) (code + 17)
  if i < 33 then -(sq (m.ey.getD i 0) (if acq then s.use Reg.FFE_CTL.MU_ACQ [sl] else s.use Reg.FFE_CTL.MU_TRK [sl]))
  else if i < 39 then -(sq (m.eq.getD (i - 33) 0) (s.use Reg.FFE_CTL.NL_MU [sl]))
  else if i = 39 then one m.ea (lessFour (s.use Reg.DET_CTL.DFE_MU [sl]))
  else one (m.epsa.getD (i - 40) 0) (lessFour (s.use Reg.DET_CTL.H_MU [sl]))

/-- R91, R153: the coefficients that adapt, each with its new value and whether it was held. -/
def coefResults (s : State) (sl : Nat) (m : RxSums) : List (Nat × Int × Bool) :=
  ((List.range 44).filter (s.adapting sl)).map fun i => (i, coefStep i (s.mainPos sl) ((s.slice sl).coefs.c.getD i 0) (s.coefDelta sl m i))

/-- R89, R152: the automatic LLR gain of a tick, before and after its limits. -/
def autoGain (s : State) (sl : Nat) (m : RxSums) : Nat × Nat :=
  let a := s.tgtA sl
  let g : Nat := if m.e2 = 0 then 256 else (rhe (s.use Reg.LLR_CTL.LLR_SCALE [sl] * a * a * 2 ^ 20 : Nat) m.e2.toNat).toNat
  (g, max 1 (min 255 g))

/-- R147: the range of residual coefficient `i`: offset, gain and skew of each sub-ADC, then the four bandwidths. -/
def icorrRange (i : Nat) : Int × Int :=
  if 192 ≤ i then (-(2 ^ 20), 2 ^ 20)
  else if i % 3 = 0 then (-(2 ^ 19), 2 ^ 19 - 256)
  else if i % 3 = 1 then (8053064, 8724152)
  else (-(2 ^ 19), 2 ^ 19)

/-- R53: the estimates of a tick, each held within its range, with whether one was held. -/
def icorrHeld (l : List Int) : List Int × Bool :=
  let v := l.zipIdx.map fun (p : Int × Nat) => (clampI (icorrRange p.2).1 (icorrRange p.2).2 p.1, p.1)
  (v.map (·.1), v.any fun p => decide (p.1 ≠ p.2))

/-- R48, R57, R285: a slice's PGA code is RX_AFE.PGA_GAIN of its own block; the Float engaged with a lane has a code of its own. -/
def pgaOwn (s : State) (sl : Nat) : Bool := sl ≠ 8 || s.cfgOf 8 = 8
def pgaCode (s : State) (sl : Nat) : Nat := if s.pgaOwn sl then s.get Reg.RX_AFE.PGA_GAIN [sl] else s.get Reg.RX_STAT.PGA_NOW [8]

/-- RX_STAT.PGA_NOW: the code in use (R19, R48). -/
def pgaNow (s : State) (sl : Nat) : Nat := if s.pgaOwn sl then s.use Reg.RX_AFE.PGA_GAIN [sl] else s.get Reg.RX_STAT.PGA_NOW [8]

/-- The AGC commits a code (R16 step 3). -/
def setPga (s : State) (sl g : Nat) : State :=
  if s.pgaOwn sl then s.put Reg.RX_AFE.PGA_GAIN g [sl] else s.put Reg.RX_STAT.PGA_NOW g [8]

/-- R48: the PGA code that the AGC of a slice wants after a tick: at most one step away, −1 and 73 where a limit holds it. -/
def agcWants (s : State) (sl : Nat) (m : RxSums) : Int :=
  let t := s.use Reg.RX_AFE.AGC_TARGET [sl]
  let g : Int := s.pgaCode sl
  if (t + 4) * (t + 4) * m.codes < m.power.toNat then g - 1
  else if m.power.toNat < (t - 4) * (t - 4) * m.codes then g + 1
  else g

/-- R102: mean and deviation of the symbols decided as one level, in 2^−32, from their number, sum (2^−11) and sum of squares (2^−22). -/
def levelStats (n : Nat) (sum sq : Int) : Int × Int :=
  (rhe (sum * 2 ^ 21) n, (Nat.sqrt ((sq * n - sum * sum).toNat * 2 ^ 42 / (n * n)) : Nat))

/-- R102: an eye height as U8.4, from the figures of two neighbouring levels. -/
def eyeHeight (lo hi : Int × Int) : Nat := (satU 12 (rshr (hi.1 - lo.1 - 3 * (hi.2 + lo.2)) 28)).toNat

/-- R102: the peak-to-peak excursion of theta about the line through its first and last values of the tick (`l`, newest first; log entry
60), in units of 2^−24 divided by the second number. -/
def thetaExcursion (l : List Int) : Nat × Nat :=
  let n := l.length - 1
  let first := l.getLastD 0
  let d := l.zipIdx.map fun p => (p.1 - first) * n - ((n - p.2 : Nat) : Int) * (l.headD 0 - first)
  ((d.foldl max 0 - d.foldl min 0).toNat, n)

/-- R102, R143: the eye width in 1/128 UI. -/
def eyeWidth (l : List Int) : Nat :=
  let x := thetaExcursion l
  if x.2 = 0 then 128 else (rhe ((128 * 2 ^ 24 * x.2 : Nat) - (x.1 : Nat) : Int) (2 ^ 24 * x.2)).toNat

/-- R102: the quality figures of a slice: the words of QUAL_SNR and QUAL_EYE. The eye heights at a level that no symbol was decided as
are open. -/
def quality (s : State) (sl : Nat) (m : RxSums) : Word × Word :=
  let a := s.tgtA sl
  let snr := dbCode (5 * a * a * 2 ^ 22) m.e2.toNat
  let sigma := min 0xFFFF (sqrtRound m.e2.toNat 64)
  let n (i : Nat) : Nat := (m.lvN.getD i 0).toNat
  let st (i : Nat) := levelStats (n i) (m.lvSum.getD i 0) (m.lvSq.getD i 0)
  let eh (i : Nat) : Nat := if n i = 0 ∨ n (i + 1) = 0 then s.freeBits 36 / 4096 ^ i % 4096 else eyeHeight (st i) (st (i + 1))
  (BitVec.ofNat 48 (sigma * 65536 + snr),
   BitVec.ofNat 48 (eyeWidth (s.slice sl).thetas * 2 ^ 36 + eh 2 * 2 ^ 24 + eh 1 * 2 ^ 12 + eh 0))

/-- R99: the snapshot at a tick boundary, and the counts of whole ticks (R93, R99). -/
def snapshotSlice (s : State) (sl : Nat) : State :=
  let fr := s.frame (match s.servedBy sl with | some k => k | none => 8)
  let s := s.setSlice sl fun x =>
    { x with
        snaps := (⟨x.trLock && x.goodTick && fr.st = fsLOCKED && (s.servedBy sl).isSome, x.bank⟩ :: x.snaps).take 4
        goodTick := x.trLock && fr.st = fsLOCKED
        unlocked := if !x.trLock && x.sigTick then x.unlocked + 1 else if x.trLock then 0 else x.unlocked
        sigTick := !x.trLock && s.sigDet sl
        acqTicks := if x.adapt = adACQUIRE && x.acqWhole then x.acqTicks + 1 else x.acqTicks
        acqWhole := decide (x.adapt = adACQUIRE) }
  if s.sigDet sl then s else s.setSlice sl fun x => { x with unlocked := 0 }

/-- The lane's slices whose own power is on: LRAk for a lane, LFA for the Float (R385). -/
def slicePowered (s : State) (sl : Nat) : Bool := s.domOn (if sl = 8 then 25 else 1 + sl) && s.domOn (if sl = 8 then 26 else 17 + sl)

/-- R65, R70: an own slice is retired: its front end is powered down. -/
def sliceRetired (s : State) (sl : Nat) : Bool := decide (sl < 8) && s.get Reg.RX_STAT.SLICE_STATE [sl] = 3

/-- A slice that takes samples. -/
def sliceRuns (s : State) (sl : Nat) : Bool := s.slicePowered sl && !s.sliceRetired sl

/-- R17, R48, R53, R89, R91: the adaptation results of a tick with sums `m` and interleave estimates `est`, with their events. -/
def formResults (s : State) (sl : Nat) (m : RxSums) (est : List Int) : State :=
  let cs := s.coefResults sl m
  let auto := s.uses Reg.EQ_CTL.LLR_AUTO [sl]
  let g := s.autoGain sl m
  let useIc := s.uses Reg.RX_CTL.ICORR_ADAPT [sl] && est ≠ []
  let ic := icorrHeld est
  let agc := s.uses Reg.RX_AFE.AGC_EN [sl]
  let w := s.agcWants sl m
  let r : Results := ⟨cs.map fun q => (q.1, q.2.1), if auto then some g.2 else none, if useIc then some ic.1 else none,
    if agc then some (clampI 0 72 w).toNat else none⟩
  let s := s.setSlice sl fun x => { x with results := some r }
  let s := if cs.any (·.2.2) then s.sliceEv Reg.EQ_EVT.COEF_LIM sl else s
  let s := if auto ∧ g.1 ≠ g.2 then s.satCount Reg.GAIN_LIM_CNT.COUNT Reg.SAT_EVT.GAIN_LIM sl 1 else s
  let s := if useIc && ic.2 then
      let s := (s.laneEv Reg.RX_EVT.ICORR_SAT sl).inc Reg.ICORR_SAT_CNT.COUNT [sl]
      { s with cals := upd s.cals sl fun c => { c with satSince := true } }
    else s
  if agc ∧ (w < 0 ∨ 72 < w) then s.laneEv Reg.RX_EVT.AGC_LIM sl else s

/-- R75, R81: the slice that a seed applied to block `b` loads, none where the block's settings are not in use. -/
def seedTarget (s : State) (b : Nat) : Option Nat := if b ≠ 8 then some (s.serving b) else if s.cfgOf 8 = 8 then some 8 else none

/-- R16 step 3, R17: the results of a slice are committed, but for those of registers that the Set of the same tick boundary wrote
(`w`), which are discarded and counted. -/
def commitResults (s : State) (w : List Nat) (sl : Nat) : State :=
  match (s.slice sl).results with
  | none => s
  | some r =>
    let b := s.cfgOf sl
    let wrote (a : Nat) : Bool := w.contains a && s.seedTarget b == some sl
    let cs := r.c.filter fun q => !wrote (coefAddr b q.1)
    let s := s.setSlice sl fun x =>
      { x with results := none
               coefs := { x.coefs with c := cs.foldl (fun l q => upd l q.1 fun _ => q.2) x.coefs.c }
               icorr := r.icorr.getD x.icorr }
    let gOut := r.gain.isSome && wrote (Reg.LLR_CTL.addr [b])
    let s := match r.gain with
      | some g => if gOut then s else s.setSlice sl fun x => { x with coefs := { x.coefs with gain := g } }
      | none => s
    let pOut := r.pga.isSome && w.contains (Reg.RX_AFE.addr [b])
    let s := match r.pga with
      | some g => if pOut then s else s.setPga sl g
      | none => s
    (s.sliceInc Reg.ADAPT_DISCARD_CNT.COUNT sl (r.c.length - cs.length + b2n gOut + b2n pOut)).publishCoefs sl

/-- The end of a tick of a slice (R16 steps 1 and 3): its figures and results are formed from the tick's sums, and it stores a snapshot. -/
def sliceTick (s : State) (sl : Nat) (est : List Int) : State :=
  if ¬ s.sliceRuns sl then s.setSlice sl fun x => { x with cyc := 0, acc := RxSums.zero, thetas := [] } else
  let m := (s.slice sl).acc
  let q := s.quality sl m
  let s := s.whenB ((List.range 4).any fun i => decide (m.lvN.getD i 0 = 0)) useFree
  let s := s.setSlice sl fun x => { x with qual := q.1, eye := q.2 }
  let s := (s.formResults sl m est).snapshotSlice sl
  s.setSlice sl fun x => { x with cyc := 0, acc := RxSums.zero, thetas := [] }

/-- R93: ACQUIRE has lasted ACQ_TICKS whole ticks. -/
def trackDue (s : State) (sl : Nat) : Bool :=
  (s.slice sl).adapt = adACQUIRE && decide (s.use Reg.FFE_CTL.ACQ_TICKS [sl] ≤ (s.slice sl).acqTicks)

/-- R97, R155: the phase word of a slice with theta as given, and at present. -/
def phaseWordOf (s : State) (sl : Nat) (theta : Int) : Nat := enc 24 (rshr (theta + s.useS Reg.TR_CTL.PH_OFS [sl] * 2 ^ 24) 24)
def phaseWord (s : State) (sl : Nat) : Nat := s.phaseWordOf sl (s.slice sl).coefs.theta

/-- R155: nu in 0.01 ppm. -/
def freqCode (s : State) (sl : Nat) : Nat :=
  enc 16 (rhe ((s.slice sl).coefs.nu * 10 ^ 8) (128 * s.symsOf sl * 2 ^ 24))

/-- EQ_STAT of block `b`: the serving slice's state (R75, R93, R96, R99, R100). -/
def eqStat (s : State) (b : Nat) : Nat :=
  let sl := if b = 8 then 8 else s.serving b
  let x := s.slice sl
  (x.snaps.zipIdx.foldl (fun a p => a + b2n p.1.good * 2 ^ (6 + p.2)) 0) + b2n x.forced * 32 + b2n (s.mlse sl) * 16 +
    x.adapt * 4 + b2n x.trLock

/-- R73, R147: the coefficient that ICORR_WIN_ADDR selects, in its datapath format. -/
def icorrWord (s : State) (b : Nat) : Word :=
  let i := s.get Reg.ICORR_WIN_ADDR.INDEX [b]
  let v := (s.slice b).icorr
  if 256 ≤ i then (if i < 260 then BitVec.ofInt 48 (rshr (v.getD (192 + i - 256) 0) 8) else 0)
  else if i % 4 = 3 then 0 else BitVec.ofInt 48 (rshr (v.getD (3 * (i / 4) + i % 4) 0) 8)

/-- R75, R81, R154, R157: a seed that a Set has applied to a block loads the slice that uses it, in its shadow bank (R80); an out-of-range
seed is held. The registers follow the slice. -/
def loadSeed (s : State) (a : Nat) : State :=
  match coefOf a with
  | none => s
  | some (b, i) =>
    match s.seedTarget b with
    | none => s.publishCoefs 8
    | some sl =>
      let v := sx 16 (s.liveAt a).toNat * 2 ^ 16
      let r := coefRange i (s.get Reg.FFE_CTL.MAIN_POS [b])
      let v' := clampI r.1 r.2 v
      let s := if v = v' then s else s.sliceEv Reg.EQ_EVT.COEF_LIM sl
      (s.setSlice sl fun x => { x with coefs := { x.coefs with c := upd x.coefs.c i fun _ => v' } }).publishCoefs sl

end State
end Sys2Proof.Machine
end

