-- ==== Sys2Proof/Machine/Thermo.lean ====
section
/-! DEFINITION. Sensors, limits, throttle levels, bands, trims and the foreground-calibration engine
(spec/14_skim_calibration_and_thermal.md). -/
namespace Sys2Proof.Machine.State

def th (s : State) (f : Thermal → Thermal) : State := { s with thm := f s.thm }
def cal (s : State) (i : Nat) : Cal := s.cals.getD i Cal.start
def setCal (s : State) (i : Nat) (f : Cal → Cal) : State := { s with cals := upd s.cals i f }

/-- The applied throttle level (R308). -/
def level (s : State) : Nat := s.get Reg.THM_STAT.THR_LEVEL

/-- A thermal event (R265 bit 5). -/
def thmEv (s : State) (f : FRef) : State := (s.ev f).seqEv 5

/-- R303: the reading of a slice's sensor: TSk for lane k, TS8 for the Float. -/
def sliceTemp (s : State) (sl : Nat) : Int := s.useTemp sl

/-- Whether sensor `n` has had a publication since the last reset that reruns self-test. -/
def published (s : State) (n : Nat) : Bool := s.thm.pub.getLsbD n

/-- The four limits of sensor `n`, in 1/16 °C: LO_ALARM, LO_WARN, HI_WARN, HI_ALARM. -/
def limits (s : State) (n : Nat) : List Int :=
  [s.getS Reg.THM_LIM.LO_ALARM [n] * 16, s.getS Reg.THM_LIM.LO_WARN [n] * 16,
   s.getS Reg.THM_LIM.HI_WARN [n] * 16, s.getS Reg.THM_LIM.HI_ALARM [n] * 16]

/-- R308, R311: level `i` holds at or above its threshold, and once held until the reading drops the hysteresis below it. -/
def hystLevel (r : Int) (old : Nat) (ths : List Int) (hyst : Int) : Nat :=
  ths.zipIdx.foldl (fun n p => if p.1 ≤ r ∨ (p.2 + 1 ≤ old ∧ p.1 - hyst ≤ r) then p.2 + 1 else n) 0

/-- R307: the flags of sensor `n` in the order of LIM_STAT: bit 0 LO_ALARM, 1 LO_WARN, 2 HI_WARN, 3 HI_ALARM. -/
def flagsOf (s : State) (n : Nat) : Nat :=
  let r := s.reading n
  let h : Int := 16 * s.get Reg.THM_CFG.HYST
  let old := bits (s.get Reg.LIM_STAT.FLAGS) (4 * n + 3) (4 * n)
  let l := s.limits n
  let lo (i : Nat) : Bool := if old.testBit i then decide (r ≤ l.getD i 0 + h) else decide (r ≤ l.getD i 0)
  let hi (i : Nat) : Bool := s.broken n || (if old.testBit i then decide (l.getD i 0 - h ≤ r) else decide (l.getD i 0 ≤ r))
  b2n (lo 0) + 2 * b2n (lo 1) + 4 * b2n (hi 2) + 8 * b2n (hi 3)

/-- R307: the flags of sensor `n` are set and cleared, with an event for each that changes. -/
def setFlagsOf (s : State) (n : Nat) : State :=
  let new := s.flagsOf n
  let all := s.get Reg.LIM_STAT.FLAGS
  let d := bits all (4 * n + 3) (4 * n) ^^^ new
  let s := s.put Reg.LIM_STAT.FLAGS (setBits all (4 * n + 3) (4 * n) new)
  let s := if d.testBit 0 then s.thmEv Reg.THM_EVT.LO_ALARM else s
  let s := if d.testBit 1 then s.thmEv Reg.THM_EVT.LO_WARN else s
  let s := if d.testBit 2 then s.thmEv Reg.THM_EVT.HI_WARN else s
  if d.testBit 3 then s.thmEv Reg.THM_EVT.HI_ALARM else s

/-- R306, R308: the throttle level of sensor `n`. -/
def sensorLevel (s : State) (n : Nat) : Nat :=
  if s.broken n then s.get Reg.THM_CFG.FLT_LEVEL
  else if ¬ s.published n then 0
  else
    let l := s.limits n
    hystLevel (s.reading n) (s.thm.levels.getD n 0)
      [l.getD 2 0, l.getD 3 0, l.getD 3 0 + 16 * s.get Reg.THM_CFG.T3_OFS] (16 * s.get Reg.THM_CFG.HYST)

/-- R308: the device level is evaluated; a changed level waits for the next tick boundary. -/
def evalLevel (s : State) : State :=
  let s := s.th fun t => { t with levels := (List.range 12).map s.sensorLevel }
  let auto := if s.on Reg.THM_CFG.AUTO_EN then s.thm.levels.foldl max 0 else 0
  let l := max auto (s.get Reg.THM_CFG.THR_FORCE)
  s.th fun t => { t with pendLevel := if l = s.level then none else some l }

/-- R311: the band a slice's reading gives. -/
def bandOf (s : State) (sl : Nat) : Nat :=
  hystLevel (s.sliceTemp sl) (s.thm.pendBands.getD sl 0)
    [s.getS Reg.BAND_CFG.B1 * 16, s.getS Reg.BAND_CFG.B2 * 16, s.getS Reg.BAND_CFG.B3 * 16]
    (16 * s.get Reg.BAND_CFG.BAND_HYST)

/-- R311: the bands are evaluated for the slices whose sensor, or its substitute, has published. -/
def evalBands (s : State) : State :=
  s.th fun t => { t with pendBands := (List.range 9).map fun sl => if s.published sl then s.bandOf sl else t.pendBands.getD sl 0 }

/-- R304: the sensor whose reading a round gives to the present tick. -/
def roundSensor (t : Thermal) : Option Nat :=
  if t.round = 0 ∨ t.tick ≤ t.round ∨ t.round + 12 < t.tick then none else some (t.tick - t.round - 1)

/-- R304: the sensor whose reading this tick still has to publish. -/
def publishing (s : State) : Option Nat := if s.thm.fresh then roundSensor s.thm else none

/-- R306: sensor `n` is found broken: the difference of its two bias measurements lies outside its window, or its reading (1/16 °C) outside
−60 °C to +175 °C. -/
def sensorDead (n : Nat) (temp diff : Int) : Bool :=
  decide (diff < (Config.biasWindow n).1) || decide ((Config.biasWindow n).2 < diff) || decide (temp < -960) || decide (2800 < temp)

/-- R303, R306, R307: sensor `n`'s reading and flags: `temp` in 1/16 °C, and the difference of its two bias measurements. -/
def sensorTaken (s : State) (n : Nat) (temp diff : Int) : State :=
  let s := if sensorDead n temp diff ∧ ¬ s.broken n then
      ((s.put Reg.SENS_FLT.BROKEN (s.get Reg.SENS_FLT.BROKEN ||| 2 ^ n)).thmEv Reg.THM_EVT.SENS_FAULT) else s
  let s := if s.broken n then (s.put Reg.TS.TEMP 0x7FF [n]).put Reg.TS.FAULT 1 [n] else s.putI Reg.TS.TEMP (satS 12 temp) [n]
  s.setFlagsOf n

/-- R305: the rate of conversion after sensor `n`'s reading. -/
def sensorRate (s : State) (n : Nat) : State :=
  let r := s.reading n
  let near := (s.limits n ++ [2000]).any fun x => decide ((r - x).natAbs < 80)
  let s := s.th fun t => { t with near := t.near || near }
  let s := if near then s.put Reg.THM_STAT.FAST 1 else s
  if n = 11 ∧ ¬ s.thm.near then s.put Reg.THM_STAT.FAST 0 else s

/-- R304–R311: the reading of the present tick's sensor is published. -/
def publishSensor (s : State) (temp diff : Int) : State :=
  match s.publishing with
  | none => s
  | some n =>
    let s := s.th fun t => { t with fresh := false, pub := t.pub ||| BitVec.ofNat 12 (2 ^ n) }
    ((s.sensorTaken n temp diff).sensorRate n).evalLevel.evalBands

/-- R304, R305: a tick boundary advances the THM tick count, and a round starts at a multiple of 256 ticks, or of 16. -/
def thermalTick (s : State) : State :=
  let n := s.thm.tick + 1
  let period := if s.on Reg.THM_STAT.FAST then 16 else 256
  let starts := (s.thm.round = 0 || decide (s.thm.round + 12 ≤ n)) && (n - 1) % period = 0
  s.th fun t =>
    let t := { t with tick := n, round := if starts then n else t.round, near := if starts then false else t.near }
    { t with fresh := (roundSensor t).isSome }

/-- R313, R315: the skew-trim set of a slice's band is loaded where one is pending. -/
def loadSkew (s : State) (sl : Nat) : State :=
  if ¬ s.on Reg.SKIM_STAT.SKEW_PEND [sl] then s else
  (s.setCal sl fun c => { c with trims := { c.trims with skew := c.skewSets.getD c.band c.trims.skew } }).put Reg.SKIM_STAT.SKEW_PEND 0 [sl]

/-- R313: the slice carries no lane's traffic. -/
def sliceFree (s : State) (sl : Nat) : Bool :=
  if sl = 8 then s.phase = phIDLE else s.serving sl ≠ sl || !s.mapped sl

/-- R311: pending bands that differ from those in force. -/
def bandsDue (s : State) : Bool := (List.range 9).any fun sl => s.thm.pendBands.getD sl 0 ≠ (s.cal sl).band

/-- R311, R313: the changed bands are applied. -/
def applyBands (s : State) : State :=
  if ¬ s.bandsDue then s else
  let s := s.each (List.range 9) fun s sl =>
    let b := s.thm.pendBands.getD sl 0
    if b = (s.cal sl).band then s else
    let s := (s.setCal sl fun c => { c with band := b }).put Reg.SKIM_STAT.SKEW_PEND 1 [sl]
    let s := s.put Reg.BAND_STAT.BANDS (setBits (s.get Reg.BAND_STAT.BANDS) (2 * sl + 1) (2 * sl) b)
    if s.sliceFree sl then s.loadSkew sl else s
  s.thmEv Reg.THM_EVT.BAND_CHG

/-- R318: a value interpolated between a slice's points at reading `t`, rounded. -/
def interp (pts : List CalPoint) (t : Int) (f : CalPoint → Int) : Int :=
  let lo := pts.foldl (fun (b : Option CalPoint) p => if p.temp ≤ t then (match b with | some q => if q.temp < p.temp then some p else some q | none => some p) else b) none
  let hi := pts.foldl (fun (b : Option CalPoint) p => if t < p.temp then (match b with | some q => if p.temp < q.temp then some p else some q | none => some p) else b) none
  match lo, hi with
  | some p, some q => rhe (f p * (q.temp - p.temp) + (f q - f p) * (t - p.temp)) (q.temp - p.temp).toNat
  | some p, none => f p
  | none, some q => f q
  | none, none => 0

/-- One step of a code toward its target. -/
def stepTo (v target : Int) : Int := if v < target then 1 else if target < v then -1 else 0

/-- R314: the trims and the residual coefficients after one step of each code, and whether a step was withheld. Each list element
holds a code, its target and its residual coefficient; `comp` compensates one step, `lo` and `hi` bound the coefficient. -/
def trimStep (comp : Int → Int → Int) (lo hi : Int) (l : List (Int × Int × Int)) : List (Int × Int) × Bool :=
  let r := l.map fun p =>
    let d := stepTo p.1 p.2.1
    let c := comp p.2.2 d
    if d = 0 then ((p.1, p.2.2), false)
    else if c < lo ∨ hi < c then ((p.1, p.2.2), true) else ((p.1 + d, c), false)
  (r.map (·.1), r.any (·.2))

/-- R314: trims of a serving slice step toward their targets. -/
def stepTrims (s : State) (sl : Nat) : State :=
  let c := s.cal sl
  if (s.servedBy sl).isNone ∨ c.run ∨ c.points = [] then s else
  let t := s.sliceTemp sl
  let x := s.slice sl
  let ic (i : Nat) : Int := x.icorr.getD i 0
  let rng := List.range 64
  let o := trimStep (fun v d => v - 32768 * d) (-(2 ^ 19)) (2 ^ 19 - 256)
    (rng.map fun i => (c.trims.off.getD i 0, interp c.points t (fun p => p.off.getD i 0), ic (3 * i)))
  let g := trimStep (fun v d => rhe (v * 400) (400 + d).toNat) 8053064 8724152
    (rng.map fun i => (c.trims.gain.getD i 0, interp c.points t (fun p => p.gain.getD i 0), ic (3 * i + 1)))
  let b := trimStep (fun v d => v - 65536 * d) (-(2 ^ 20)) (2 ^ 20)
    ((List.range 4).map fun i => (c.trims.bw.getD i 0, interp c.points t (fun p => p.bw.getD i 0), ic (192 + i)))
  let icn := (rng.flatMap fun i => [(o.1.getD i (0, 0)).2, (g.1.getD i (0, 0)).2, ic (3 * i + 2)]) ++ b.1.map (·.2)
  let s := s.setSlice sl fun x => { x with icorr := icn, ic := icActive icn }
  s.setCal sl fun c => { c with trims := { c.trims with off := o.1.map (·.1), gain := g.1.map (·.1), bw := b.1.map (·.1) },
                                satSince := c.satSince || o.2 || g.2 || b.2 }

/-- R16 step 3: the results of a slice are committed, and its trims take their steps on the coefficients so committed (R314). -/
def commitTick (s : State) (w : List Nat) (sl : Nat) : State :=
  if (s.slice sl).results.isNone then s else (s.commitResults w sl).stepTrims sl

/-- THRESHb of R319 for a slice, in 1/16 °C. -/
def skimThresh (s : State) (sl : Nat) : Int :=
  match (s.cal sl).band with
  | 0 => s.get Reg.SKIM_CTL.THRESH0
  | 1 => s.get Reg.SKIM_CTL.THRESH1
  | 2 => s.get Reg.SKIM_CTL.THRESH2
  | _ => s.get Reg.SKIM_CTL.THRESH3

/-- R319: the due reasons of a slice. -/
def dueReasons (s : State) (sl : Nat) : Nat :=
  let c := s.cal sl
  let far := c.points.isEmpty || s.published sl && c.points.all fun p => decide (s.skimThresh sl < (s.sliceTemp sl - p.temp).natAbs)
  b2n c.satSince + 2 * b2n (s.on Reg.SKIM_STAT.SKEW_PEND [sl]) + 4 * b2n far +
    8 * b2n (decide (2 ^ (s.get Reg.SKIM_CTL.MAX_EXP + 10) ≤ s.get Reg.SKIM_STAT.SINCE [sl]))

/-- The lane's own slice is retired (R70). -/
def retired (s : State) (k : Nat) : Bool := (s.get Reg.MIG_STAT.RETIRED_MASK).testBit k

/-- R319: lane `a` comes before lane `b` in Skim's order. -/
def skimBefore (s : State) (a b : Nat) : Bool :=
  let low (k : Nat) : Nat := ((List.range 4).find? fun i => (s.get Reg.SKIM_STAT.REASON [k]).testBit i).getD 4
  if low a ≠ low b then decide (low a < low b)
  else decide (s.get Reg.SKIM_STAT.SINCE [b] < s.get Reg.SKIM_STAT.SINCE [a])

/-- R319: the due state of every slice, and SKIM_NEXT. -/
def skimTick (s : State) : State :=
  let s := s.each (List.range 9) fun s sl =>
    let s := s.inc Reg.SKIM_STAT.SINCE [sl]
    let r := s.dueReasons sl
    let was := s.on Reg.SKIM_STAT.DUE [sl]
    let s := (s.put Reg.SKIM_STAT.REASON r [sl]).put Reg.SKIM_STAT.DUE (b2n (r ≠ 0)) [sl]
    if r ≠ 0 ∧ ¬ was then s.laneEv Reg.SKIM_EVT.DUE sl else s
  let cand := (List.range 8).filter fun k => s.on Reg.SKIM_STAT.DUE [k] && s.mapped k && !s.retired k
  let best := cand.foldl (fun (b : Option Nat) k => match b with | none => some k | some j => if s.skimBefore k j then some k else some j) none
  match best with
  | some k => (s.put Reg.SKIM_NEXT.VALID 1).put Reg.SKIM_NEXT.LANE k
  | none => (s.put Reg.SKIM_NEXT.VALID 0).put Reg.SKIM_NEXT.LANE 0

/-- Ticks of a calibration phase, by FCAL_STAT.STATE code (R315). -/
def phaseTicks (st : Nat) : Nat := [0, 1, 2, 4, 2, 1].getD st 0

/-- R315: the first selected phase after phase `st`. -/
def nextPhase (s : State) (sl st : Nat) : Nat :=
  ((List.range 5).find? fun p => decide (st ≤ p) && (p = 4 || (s.get Reg.FCAL_CTL.PHASES [sl]).testBit p)).getD 4 + 1

/-- R430: a service request ends a running in-service test. -/
def isAbort (s : State) : State :=
  if ¬ s.sec.isRun then s else
  let s := { s with sec := { s.sec with isRun := false } }
  ((s.put Reg.BST_IS_STAT.RESULT 2).put Reg.BST_IS_STAT.SEQ_DONE (s.get Reg.BST_IS_CTL.SEQ)).inc Reg.BST_IS_ABORT_CNT.COUNT

/-- R441: the test in progress and its target: a memory code, a domain or a slice. -/
def isTest (s : State) : Nat := if s.sec.isRun then s.get Reg.BST_IS_CTL.TEST else 0
def isTarget (s : State) : Nat :=
  let t := s.get Reg.BST_IS_CTL.TARGET
  if s.get Reg.BST_IS_CTL.TEST = 2 then t + 16 * (s.get Reg.BST_IS_CTL.FIRST % 4) else t

/-- R430: a command engages or reconfigures slice `sl`: a test that runs on it ends. -/
def isEngage (s : State) (sl : Nat) : State := s.whenB (s.isTest = 3 && s.isTarget = sl) isAbort

/-- R315: a foreground calibration of a slice starts. -/
def fcalBegin (s : State) (sl : Nat) : State :=
  let s := (s.isEngage sl).loadSkew sl
  let p := s.nextPhase sl 0
  (s.setCal sl fun c => { c with before := c.trims, run := true, stop := false, left := phaseTicks p,
                                 temp0 := if s.published sl then some (s.sliceTemp sl) else none }).put Reg.FCAL_STAT.STATE p [sl]

/-- R315, R316: a calibration ends: its slice's input is reconnected, and result and SEQ are reported. -/
def fcalEnd (s : State) (sl result : Nat) : State :=
  let s := (s.setCal sl fun c => { c with run := false, stop := false, left := 0, temp0 := none }).put Reg.FCAL_STAT.STATE 0 [sl]
  let s := (s.put Reg.FCAL_STAT.RESULT result [sl]).put Reg.FCAL_STAT.SEQ_DONE (s.get Reg.FCAL_CTL.SEQ [sl]) [sl]
  (s.connectSlice sl).laneEv Reg.SKIM_EVT.FCAL_DONE sl

/-- R68, R309, R316: a running calibration is stopped: its slice takes back its trims, and no point is stored. -/
def fcalStop (s : State) (sl result : Nat) : State :=
  if (s.cal sl).run then (s.setCal sl fun c => { c with trims := c.before }).fcalEnd sl result else s

/-- R72, R316: the input of a slice is idle. -/
def inputIdle (s : State) (sl : Nat) : Bool :=
  if sl = 8 then s.phase = phIDLE
  else !s.mapped sl || (!(s.slice (s.serving sl)).trLock && !s.sigDet sl) || s.serving sl = 8

/-- R309, R316: the start of a calibration of lane `k`'s own slice. -/
def fcalStart (s : State) (k : Nat) : State :=
  let refuse (s : State) (r : Nat) : State :=
    ((s.put Reg.FCAL_STAT.RESULT r [k]).put Reg.FCAL_STAT.SEQ_DONE (s.get Reg.FCAL_CTL.SEQ [k]) [k]).laneEv Reg.SKIM_EVT.FCAL_DONE k
  let engaged := s.floatLane = k && s.phase ≠ phIDLE && s.phase ≠ phFLOAT_CAL && s.phase ≠ phSERVE
  if ¬ s.inputIdle k ∨ engaged ∨ s.retired k ∨ s.on Reg.RX_STAT.NOISE_BUSY [k] ∨ (s.cal k).run then refuse s 1
  else if s.level = 3 then refuse s 2
  else s.fcalBegin k

/-- R317: a point enters a slice's store. -/
def storePoint (s : State) (sl : Nat) (p : CalPoint) : State :=
  let c := s.cal sl
  let d (q : CalPoint) : Nat := (q.temp - p.temp).natAbs
  let nearest := c.points.foldl (fun (b : Option CalPoint) q => match b with
    | none => some q
    | some x => if d q < d x ∨ (d q = d x ∧ q.order < x.order) then some q else some x) none
  let p := { p with order := c.stored + 1 }
  let pts := match nearest with
    | none => [p]
    | some q =>
      if (d q : Int) ≤ s.skimThresh sl ∨ 8 ≤ c.points.length then c.points.map fun x => if x = q then p else x
      else c.points ++ [p]
  (s.setCal sl fun c => { c with points := pts, stored := c.stored + 1 }).put Reg.FCAL_STAT.POINTS pts.length [sl]

/-- R312, R315: whether a trim of a phase (0 OFFSET, 1 GAIN, 2 SKEW, 3 BANDWIDTH) lies at an end code of its range. -/
def phaseAtEnd (t : Trims) (ph : Nat) : Bool :=
  match ph with
  | 0 => t.off.any fun v => decide (31 ≤ v.natAbs)
  | 1 => t.gain.any fun v => decide (31 ≤ v.natAbs)
  | 2 => t.skew.any fun v => decide (63 ≤ v.natAbs)
  | _ => t.bw.any fun v => decide (v ≤ 0) || decide (31 ≤ v)

/-- R398: a supply warning is active. -/
def supplyWarned (s : State) : Bool := (List.range 7).any fun r => (s.get Reg.PWR_SUP_STAT.RAILS).testBit (2 * r)

/-- R317, R399: a calibration records a point, which a supply warning holds. -/
def recordPoint (s : State) (sl : Nat) (p : CalPoint) : State :=
  if s.supplyWarned then s.setCal sl fun c => { c with hold := c.hold ++ [p] } else s.storePoint sl p

/-- R399: the points that a supply warning held are written. -/
def storeHeld (s : State) : State :=
  s.each (List.range 9) fun s sl => (s.each (s.cal sl).hold (·.storePoint sl ·)).setCal sl fun c => { c with hold := [] }

/-- R315: whether a trim of the phases selected lies at an end code. -/
def trimsAtEnd (ph : Nat) (t : Trims) : Bool := (List.range 4).any fun p => ph.testBit p && phaseAtEnd t p

/-- R315: whether residual `j` (o, g, s of each sub-ADC, then b, at internal precision) lies outside half its range. -/
def residualBad (j : Nat) (v : Int) : Bool :=
  if 192 ≤ j then decide (2 ^ 19 ≤ v.natAbs)
  else if j % 3 = 1 then decide (8388608 ≤ 50 * (v - 8388608).natAbs)
  else decide (2 ^ 18 ≤ v.natAbs)
def residualsBad (r : List Int) : Bool := r.zipIdx.any fun p => residualBad p.2 p.1

/-- The square of the RMS of residuals, times their number, in the square of their unit. -/
def sumSquares (l : List Int) : Nat := l.foldl (fun n v => n + v.natAbs * v.natAbs) 0

/-- R315, R321: the word of FCAL_QUAL from the residuals that VERIFY has measured and its spur code: the RMS of o_i in 2^−8 LSB, and of s_i in
2^−8 fs, s_i counting in sample periods of 10^9 / 226,875 fs (R52, R147). -/
def fcalQual (res : List Int) (spur : Nat) : Word :=
  let pick (c : Nat) : Nat := sumSquares ((List.range 64).map fun i => res.getD (3 * i + c) 0)
  let ofs := min 4095 (sqrtRound (pick 0) (64 * 2 ^ 16))
  let skew := min 4095 (sqrtRound (pick 2 * 10 ^ 18) (64 * 226875 ^ 2 * 2 ^ 30))
  BitVec.ofNat 48 (spur * 2 ^ 24 + skew * 4096 + ofs)

/-- R315–R317: a calibration passes with the trims it has measured. -/
def fcalPass (s : State) (sl : Nat) : State :=
  let c := s.cal sl
  let t1 := s.sliceTemp sl
  let temp := match c.temp0 with | some t0 => rhe (t0 + t1) 2 | none => t1
  let s := ((s.putI Reg.FCAL_STAT.CAL_TEMP temp [sl]).put Reg.SKIM_STAT.SINCE 0 [sl]).inc Reg.FCAL_CNT.COUNT [sl]
  let s := s.setCal sl fun c => { c with satSince := false }
  let s := if s.on Reg.FCAL_CTL.STORE [sl] then
      (s.recordPoint sl ⟨temp, c.trims.off, c.trims.gain, c.trims.bw, 0⟩).setCal sl fun c =>
        { c with skewSets := upd c.skewSets c.band fun _ => c.trims.skew }
    else s
  s.fcalEnd sl 0

/-- R315: a calibration fails: its slice takes back the trims it held. -/
def fcalFail (s : State) (sl result : Nat) : State :=
  let s := (s.setCal sl fun c => { c with trims := c.before }).inc Reg.FCAL_FAIL_CNT.COUNT [sl]
  (s.fcalEnd sl result).laneEv Reg.SKIM_EVT.FCAL_FAIL sl

/-- R315: VERIFY of a calibration has ended. -/
def fcalReady (s : State) (sl : Nat) : Bool := (s.cal sl).run && s.get Reg.FCAL_STAT.STATE [sl] = 5 && (s.cal sl).left = 0

/-- What one try of every phase measures. -/
def measTrims (m : CalMeas) : Trims := ⟨m.off, m.gain, m.skew, m.bw⟩

/-- R315: the trims a calibration with the phases `ph` finds for a slice that held `o`: a phase that failed is tried once more. -/
def calTrims (ph : Nat) (o : Trims) (m m' : CalMeas) : Trims :=
  let found (p : Nat) : Trims := if ¬ ph.testBit p then o else measTrims (if phaseAtEnd (measTrims m) p then m' else m)
  ⟨(found 0).off, (found 1).gain, (found 2).skew, (found 3).bw⟩

/-- R315: the measurement whose VERIFY counts, and the result that a calibration with the phases `ph` ends with. -/
def calVerify (m m' : CalMeas) : CalMeas := if residualsBad m.res then m' else m
def calResult (ph : Nat) (t : Trims) (v : CalMeas) : Nat := if trimsAtEnd ph t then 0x10 else if residualsBad v.res then 0x11 else 0

/-- R321: the word that TRIM_WIN_ADDR selects. -/
def trimWord (s : State) (b : Nat) : Word :=
  let a := s.get Reg.TRIM_WIN_ADDR.INDEX [b]
  let src := a / 512
  let i := a % 512
  let c := s.cal b
  let pick (off gain skew bw : List Int) : Int :=
    if i < 256 then (match i % 4 with | 0 => off.getD (i / 4) 0 | 1 => gain.getD (i / 4) 0 | 2 => skew.getD (i / 4) 0 | _ => 0)
    else if i < 260 then bw.getD (i - 256) 0 else 0
  BitVec.ofInt 48 (
    if src = 0 then pick c.trims.off c.trims.gain c.trims.skew c.trims.bw
    else if src ≤ 8 then (match c.points[src - 1]? with
      | some p => if i = 260 then p.temp else pick p.off p.gain [] p.bw
      | none => 0)
    else if src ≤ 12 then pick [] [] (c.skewSets.getD (src - 9) []) []
    else 0)

end Sys2Proof.Machine.State
end

