-- ==== Sys2Proof/Machine/Mon.lean ====
section
/-! DEFINITION. The monitor decimation chain and the housekeeping converter (spec/15_monitor_chain_and_housekeeping_adc.md). -/
namespace Sys2Proof.Machine

/-- R326: the shift and the normalisation constant of a decimation by `m`. -/
def cicShift (m : Nat) : Nat := if m ≤ 1 then 0 else Nat.log2 (m ^ 5 - 1) + 1
def cicNrm (m : Nat) : Nat := (rhe (2 ^ (cicShift m + 23)) (m ^ 5)).toNat

/-- R325: an input enters the five integrators. -/
def cicIn (l : List (BitVec 96)) (x : BitVec 96) : List (BitVec 96) :=
  (l.foldl (fun (p : BitVec 96 × List (BitVec 96)) a => (a + p.1, p.2 ++ [a + p.1])) (x, [])).2

/-- R325: the five combs of delay 1; the output and the delays after it. -/
def cicOut (l : List (BitVec 96)) (x : BitVec 96) : BitVec 96 × List (BitVec 96) :=
  l.foldl (fun (p : BitVec 96 × List (BitVec 96)) a => (p.1 - a, p.2 ++ [p.1])) (x, [])

/-- R327: the output of one bank over the last 32 inputs, in 2^−8, and whether it was limited. -/
def monFir (c : List Int) (h : List Int) : Int × Bool :=
  let y := rshr ((List.range 16).foldl (fun a j => a + c.getD j 0 * (h.getD j 0 + h.getD (31 - j) 0)) 0) 22
  (satS 24 y, decide (satS 24 y ≠ y))

/-- One input of a monitor channel: the source's value, and whether the dither reference stands at −1 in that cycle (R323, R324). -/
structure MonInput where
  value : Int
  minus : Bool
  deriving DecidableEq, Repr

namespace State

def mon (s : State) (c : Nat) : Mon := s.mons.getD c Mon.start
def setMon (s : State) (c : Nat) (f : Mon → Mon) : State := { s with mons := upd s.mons c f }
def monEv (s : State) (f : FRef) (c : Nat) : State := s.ev f [c]

def monBase (c : Nat) : Nat := 0x3C0000 + 0x40 * c

/-- R325, R327: M and K in use. -/
def monM (s : State) (c : Nat) : Nat := s.use Reg.MON_CFG.M_CODE [c] + 1
def monK (s : State) (c : Nat) : Nat := s.use Reg.MON_CFG.K_CODE [c] + 1

/-- R331: a step: the next ceil(36 / K) outputs are unsettled. -/
def monStep (s : State) (c : Nat) : State :=
  (s.setMon c fun m => { m with unsettled := (36 + s.monK c - 1) / s.monK c }).monEv Reg.MON_EVT.UNSETTLED_START c

/-- R328, R330: the channel restarts with the applied settings. -/
def monRestart (s : State) (c : Nat) : State :=
  let s := s.takeIn (monBase c) (monBase c) |>.takeIn (monBase c + 0x10) (monBase c + 0x2F)
  let s := s.setMon c fun m => { Mon.start with w := m.w, peak := m.peak, sumsq := m.sumsq, nout := m.nout, snap := m.snap,
                                                snapUnsettled := m.snapUnsettled, odd := m.odd }
  let s := (s.put Reg.MON_STAT.SWAP_PEND 0 [c]).put Reg.MON_STAT.HALF (b2n (decide (1 ≤ s.level))) [c]
  let s := s.put Reg.MON_STAT.GD (5 * (s.monM c - 1) + 31 * s.monM c + 24) [c]
  s.monStep c

/-- R328: a Set has applied changes to channel `c`; a change of LANE, SRC, DEMOD, M_CODE or K_CODE restarts it, any other waits for
the next output. -/
def monApplied (s : State) (c : Nat) : State :=
  let now := s.liveAt (monBase c)
  let old := RegFile.get s.inUse (monBase c)
  if now.toNat % 2 ^ 32 ≠ old.toNat % 2 ^ 32 then s.setMon c fun m => { m with restart := true }
  else if s.changedIn (monBase c) (monBase c) ∨ s.changedIn (monBase c + 0x10) (monBase c + 0x2F) then s.put Reg.MON_STAT.SWAP_PEND 1 [c]
  else s

/-- R323: the lane of channel `c` has a running line DSP clock. -/
def monClock (s : State) (c : Nat) : Bool :=
  let k := s.get Reg.MON_CFG.LANE [c]
  s.domOn (if k = 8 then 26 else 17 + k)

/-- R323: the channel stops with its clock and restarts with it. -/
def monClockRefresh (s : State) (c : Nat) : State :=
  if s.monClock c then
    (if s.on Reg.MON_STAT.NOCLK [c] then (s.put Reg.MON_STAT.NOCLK 0 [c]).setMon c fun m => { m with restart := true } else s)
  else s.put Reg.MON_STAT.NOCLK 1 [c]

/-- R333: the detectors take an output. -/
def monDetect (s : State) (c : Nat) (y : Int) : State :=
  let a := y.natAbs
  let env := s.get Reg.MON_DET0.ENV [c]
  let sh := if env < a then s.use Reg.MON_CFG.ATK [c] else s.use Reg.MON_CFG.DCY [c]
  let s := s.putI Reg.MON_DET0.ENV (satU 24 (rshr ((env : Int) * 2 ^ sh + a - env) sh)) [c]
  s.setMon c fun m => { m with peak := max m.peak a, sumsq := m.sumsq + a * a, nout := m.nout + 1 }

/-- R328: the changes that wait apply at a FIR output boundary. -/
def monSwap (s : State) (c : Nat) : State :=
  if ¬ s.on Reg.MON_STAT.SWAP_PEND [c] then s else
  let old := s.use Reg.MON_CFG.ACTIVE [c]
  let s := (s.takeIn (monBase c) (monBase c) |>.takeIn (monBase c + 0x10) (monBase c + 0x2F)).put Reg.MON_STAT.SWAP_PEND 0 [c]
  if s.use Reg.MON_CFG.ACTIVE [c] ≠ old then s.monEv Reg.MON_EVT.SWAP_DONE c else s

/-- R327, R329, R331: a FIR output of the channel. -/
def monFirOut (s : State) (c : Nat) : State :=
  let s := s.monSwap c
  let h := (s.mon c).hist
  let bank (f : FRef) := monFir ((List.range 16).map fun j => s.useS f [c, j]) h
  let a := bank Reg.MON_FIRA.COEF
  let b := bank Reg.MON_FIRB.COEF
  let (y, sat) := if s.uses Reg.MON_CFG.MODE [c] then
      let v := rshr ((256 - (s.mon c).w : Int) * a.1 + (s.mon c).w * b.1) 8
      (satS 24 v, a.2 || b.2 || decide (satS 24 v ≠ v))
    else if s.uses Reg.MON_CFG.ACTIVE [c] then b else a
  let s := if sat then (s.inc Reg.MON_SAT_CNT.COUNT [c]).monEv Reg.MON_EVT.OUT_SAT c else s
  let u := (s.mon c).unsettled
  let s := (s.put Reg.MON_OUT.UNSETTLED (b2n (0 < u)) [c]).put Reg.MON_OUT.SEQ (s.get Reg.MON_OUT.SEQ [c] + 1) [c]
  let s := s.putI Reg.MON_OUT.OUT y [c]
  (s.setMon c fun m => { m with unsettled := u - 1, kcnt := 0 }).monDetect c y

/-- R323–R327: the channel takes one input. -/
def monInput (s : State) (c : Nat) (i : MonInput) : State :=
  let s := if (s.mon c).restart then s.monRestart c else s
  let v := if s.use Reg.MON_CFG.SRC [c] = 0 then 0 else i.value
  let x := satS 16 v
  let p := if s.use Reg.MON_CFG.DEMOD [c] ≠ 0 ∧ i.minus then -x else x
  let y := satS 16 p
  let s := if x ≠ v ∨ y ≠ p then (s.inc Reg.MON_SAT_CNT.COUNT [c]).monEv Reg.MON_EVT.IN_SAT c else s
  let m := s.mon c
  let integ := cicIn m.integ (BitVec.ofInt 96 y)
  if m.mcnt + 1 < s.monM c then s.setMon c fun m => { m with integ := integ, mcnt := m.mcnt + 1 } else
  let (o, comb) := cicOut m.comb (integ.getD 4 0)
  let sh := cicShift (s.monM c)
  let u := rshr (o.toInt * cicNrm (s.monM c) * 256) (sh + 23)
  let s := s.setMon c fun m =>
    { m with integ := integ, comb := comb, mcnt := 0, hist := (u :: m.hist).take 32, kcnt := m.kcnt + 1 }
  if (s.mon c).kcnt < s.monK c then s else s.monFirOut c

/-- R333: step 1 of the tick: the detectors are captured and cleared, and the output for the Trowel loops is captured. -/
def monSnapshot (s : State) (c : Nat) : State :=
  if ¬ s.domOn 46 then s else
  let m := s.mon c
  let s := if m.nout = 0 then s else
    (s.put Reg.MON_DET0.PEAK m.peak [c]).put Reg.MON_DET1.RMS (min (2 ^ 24 - 1) (sqrtRound m.sumsq m.nout)) [c]
  let s := s.put Reg.MON_DET1.NOUT m.nout [c]
  s.setMon c fun m => { m with peak := 0, sumsq := 0, nout := 0, snap := s.getS Reg.MON_OUT.OUT [c]
                               snapUnsettled := s.on Reg.MON_OUT.UNSETTLED [c] }

/-- R329: step 2 of the tick: W is taken. -/
def monTick (s : State) (c : Nat) : State :=
  if ¬ s.domOn 46 then s else s.setMon c fun m => { m with w := s.get Reg.MON_MIX.W [c] }

/-- R332: the rate follows the applied throttle level, and pairs of cycles are counted from the tick boundary that applies it. -/
def monHalf (s : State) (c : Nat) : State :=
  if ¬ s.domOn 46 then s else
  let half := decide (1 ≤ s.level)
  if s.on Reg.MON_STAT.HALF [c] = half then s else ((s.put Reg.MON_STAT.HALF (b2n half) [c]).setMon c fun m => { m with odd := false }).monStep c

/-- R334: the divider ratio of an input. -/
def hkaDivider (i : Nat) : Nat := if 16 ≤ i ∧ i < 40 then 4 else 1

/-- R334: the code of a voltage `v` in nanovolts / 4,095 under a reference `vref` in nanovolts. -/
def hkaCode (v : Int) (vref gain input : Nat) : Nat :=
  (clampI 0 4095 (rhe (4096 * v * 2 ^ gain) (4095 * hkaDivider input * max vref 1))).toNat

/-- R350: BMID in nanovolts. -/
def bmid (s : State) : Int := if s.on Reg.BDC_GLB.BMID_EN then 1500000000 else (Config.bmidOff.toNat : Int)

/-- R350: the voltage of output BDAC`b` in nanovolts / 4,095. -/
def bdacVolts (s : State) (b : Nat) : Int :=
  let span := s.get Reg.BDC_CFG.SPAN [b]
  let c : Int := s.get Reg.BDC_STAT.CODE_NOW [b]
  if s.on Reg.BDC_CFG.EN [b] then
    match span with
    | 0 => 1250000000 * c
    | 1 => 2500000000 * c
    | 2 => 3000000000 * c
    | _ => 4095 * (s.bmid - 1250000000) + 2500000000 * c
  else if span = 3 then 4095 * s.bmid else 0

/-- R334: what an input of the housekeeping converter stands at, in nanovolts / 4,095: the device's own outputs and ground, and for any
other input the voltage `v` in nanovolts that is applied to it. -/
def hkaVolts (s : State) (input v : Nat) : Int :=
  if 16 ≤ input ∧ input < 32 then s.bdacVolts (input - 16)
  else if input = 39 then 4095 * s.bmid
  else if input = 41 then 0
  else 4095 * v

/-- R335: cycles of one conversion of entry `i`. -/
def hkaCycles (s : State) (i : Nat) : Nat := 12 * (s.get Reg.HKA_SEQ.TSAMP [i] + 1) + 12

/-- R335: the entry is due in the present tick. -/
def hkaDue (s : State) (i : Nat) : Bool :=
  let p := 2 ^ s.get Reg.HKA_SEQ.TPER [i]
  s.on Reg.HKA_SEQ.EN [i] && s.ticks % p = i % p

def hkaAcc (s : State) (i : Nat) : HkaAcc := s.hka.acc.getD i HkaAcc.start

/-- R335: the entry whose conversion is next: the first due one that has conversions to make, of which one still fits. -/
def hkaNext (s : State) : Option Nat :=
  (List.range 16).find? fun i => s.hkaDue i && decide ((s.hkaAcc i).count ≤ s.get Reg.HKA_SEQ.REPEAT [i]) &&
    decide (s.hka.used + s.hkaCycles i ≤ 240)

/-- R334, R335: the next conversion completes; `v` is applied to its input where that lies outside the device,
and `aref` to AREF, in nanovolts. -/
def hkaConvert (s : State) (v aref : Nat) : State :=
  if ¬ s.domOn 47 then s else
  match s.hkaNext with
  | none => s
  | some i =>
    let vref := if s.on Reg.HKA_CFG.REF then aref else 1250000000
    let input := s.get Reg.HKA_SEQ.INPUT [i]
    let c := hkaCode (s.hkaVolts input v) vref (s.get Reg.HKA_SEQ.GAIN [i]) input
    { s with hka := { used := s.hka.used + s.hkaCycles i
                      acc := upd s.hka.acc i fun a => ⟨a.sum + c, a.count + 1, min a.min c, max a.max c⟩ } }

/-- R398: VDD_BIAS stands below its reset level, and the housekeeping entries report FRESH 0. -/
def biasLost (s : State) : Bool := (s.get Reg.PWR_SUP_STAT.RAILS).testBit 13

/-- R336: step 4 of the tick: the entries that converted are frozen, and the sequence restarts. -/
def hkaFreeze (s : State) : State :=
  if ¬ s.domOn 47 then s else
  let s := s.each (List.range 16) fun s i =>
    let a := s.hkaAcc i
    if a.count = 0 then s.put Reg.HKA_MM.FRESH 0 [i] else
    (s.setLive (Reg.HKA_SUM.addr [i]) (BitVec.ofNat 48 a.sum)).setLive (Reg.HKA_MM.addr [i])
      (BitVec.ofNat 48 (2 ^ 47 + a.count * 2 ^ 24 + a.max * 2 ^ 12 + a.min))
  let s := s.put Reg.HKA_STAT.CYCLES s.hka.used
  { s.seqEv 13 with hka := Hka.start }

end State
end Sys2Proof.Machine
end

