-- ==== Sys2Proof/Machine/Float.lean ====
section
/-! DEFINITION. The Float: phases, migration, takeover, retirement, calibration of the Float and noise measurements
(spec/03_line_receive_conversion.md R55–R72; spec/14 R309, R315, R316). -/
namespace Sys2Proof.Machine.State

def mg (s : State) (f : Mig → Mig) : State := { s with mig := f s.mig }
def setPhase (s : State) (p : Nat) : State := s.put Reg.MIG_STAT.PHASE p
def setFloatLane (s : State) (k : Nat) : State := s.put Reg.MIG_STAT.LANE k
def floatOk (s : State) : Bool := s.on Reg.MIG_STAT.FLOAT_OK

/-- The result of the last command, fault or abort (R63). -/
def migResult (s : State) (r : Nat) : State := s.put Reg.MIG_STAT.LAST_RESULT r

/-- R59: a command is finished: its SEQ is copied, and MIG_DONE rises where SEQ_DONE changes (R265). -/
def migDone (s : State) (seq r : Nat) : State :=
  let s := s.migResult r
  if s.get Reg.MIG_STAT.SEQ_DONE = seq then s else (s.put Reg.MIG_STAT.SEQ_DONE seq).seqEv 3

/-- SLICE_STATE of a slice (R73). -/
def setSliceState (s : State) (sl v : Nat) : State := s.put Reg.RX_STAT.SLICE_STATE v [sl]

/-- R70: the own slice of lane `k` is retired. -/
def retireSlice (s : State) (k : Nat) : State :=
  let s := s.put Reg.MIG_STAT.RETIRED_MASK (s.get Reg.MIG_STAT.RETIRED_MASK ||| 2 ^ k)
  (s.setSliceState k 3).laneEv Reg.RX_EVT.RETIRED k

/-- R11: the Quaran is halted, crashed or under a reset: a migration stays at the step it has reached. -/
def quaranDown (s : State) : Bool := s.seq.halted || s.seq.resetting || s.on Reg.SEQ_SCHED.FAULT

/-- First address of lane block `k`. -/
def laneBase (k : Nat) : Nat := 0x080000 + 0x1000 * k

/-- R19, R57, R73, R75: the Float takes the live values of the block that describes it: lane k's while it is engaged with lane k, its own
elsewhere. RX_CTL is its own at all times. Its frame lock takes the format and lock parameters of the lane at its selector. -/
def floatTake (s : State) : State :=
  let one (s : State) (dst src : Nat) : State := { s with inUse := RegFile.set s.inUse dst (s.liveAt src) }
  let f := laneBase 8
  let l := laneBase (s.cfgOf 8)
  let s := s.each [0x00, 0x10, 0x11, 0x12, 0x13, 0x14] fun s o => one s (f + o) (l + o)
  let s := s.each [0x01, 0x110] fun s o => one s (f + o) (f + o)
  one s (f + 0x40) (laneBase s.floatLane + 0x40)

/-- R137: the observation of a transmit tap ends, and with it its alignment. -/
def obsEnd (s : State) : State := { s.put Reg.TXOBS_STAT.ALIGNED 0 with obs := TxObs.start_ }

/-- R62: the Float parks: phase IDLE; its pending skew set is loaded (R313), and its own settings come into use. -/
def floatPark (s : State) : State :=
  let s := s.whenB (s.phase = phOBSERVE_TX) obsEnd
  let s := ((s.setPhase phIDLE).mg fun _ => Mig.idle).candHunt
  let s := s.setSlice 8 fun x => { x with trLock := false, passRun := 0, failRun := 0, win := ⟨0, 0, 0⟩ }
  ((s.floatTake).activate 8).loadSkew 8

/-- R55: the Float's input moves to lane `k`. At its receive selector it sees the signal of the lane's own slice. -/
def floatConnect (s : State) (k : Nat) : State :=
  let s := (((s.isEngage 8).setFloatLane k).connectSlice 8).candHunt
  s.put Reg.RX_STAT.SIG_DET (s.get Reg.RX_STAT.SIG_DET [k]) [8]

/-- R57: the Float's front end starts from the PGA code of lane `k`. -/
def floatPga (s : State) (k : Nat) : State := s.put Reg.RX_STAT.PGA_NOW (s.get Reg.RX_AFE.PGA_GAIN [k]) [8]

/-- R59, R61: a phase or a window begins: it takes the parameters of MIG_CTL, and counts afresh. -/
def latchPar (s : State) : State :=
  s.mg fun m => { m with ctl := s.liveAt Reg.MIG_CTL.base, slots := 0, eServ := 0, eCand := 0, unc := 0, same := true }

/-- The value of a parameter of MIG_CTL in the present phase or window (R59). -/
def migPar (s : State) (f : FRef) : Nat := bits s.mig.ctl.toNat f.hi f.lo

/-- R60 step 1: CONVERGE on lane `k`. -/
def beginConverge (s : State) (k : Nat) : State :=
  let s := (((s.setPhase phCONVERGE).floatConnect k).floatPga k).latchPar
  let s := s.mg fun m => { m with stepTicks := 0, lockTicks := 0, candLocked := false }
  s.floatTake.seedSlice 8 (s.slice k).bank

/-- R60 step 6, R68: the own slice of the Float's lane is reconnected and seeded from the Float. -/
def beginReturn (s : State) : State :=
  let k := s.floatLane
  let s := (((s.setPhase phRET_CONVERGE).connectSlice k).candHunt).latchPar
  let s := s.mg fun m => { m with stepTicks := 0, lockTicks := 0, candLocked := false }
  s.seedSlice k (s.slice 8).bank

/-- The candidate slice of a migration, if one is in step 1 to 3 or 6 to 8. -/
def candidate (s : State) : Option Nat :=
  if phCONVERGE ≤ s.phase ∧ s.phase ≤ phSWAP_WAIT then some 8
  else if phRET_CONVERGE ≤ s.phase ∧ s.phase ≤ phRET_SWAP_WAIT then some s.floatLane
  else if s.phase = phTAKEOVER then some 8 else none

/-- R60, R66, R68: the candidate's timing loop and frame lock hold the lane's marker lane and frame count. A takeover and an abrupt
return go on where the lane itself has no frame lock. -/
def candidateLocked (s : State) : Bool :=
  match s.candidate with
  | none => false
  | some c =>
    let f := s.frame 8
    let l := s.frame s.floatLane
    (s.slice c).trLock && f.st = fsLOCKED && (if l.st = fsLOCKED then f.lane = l.lane && f.fc = l.fc else s.phase = phTAKEOVER || s.mig.abrupt)

/-- R63: a migration in progress is aborted for a cause. Nothing happens outside phases 1 to 4, 6 to 8, 11 and 12, nor in an abrupt
return; SERVE is among what R63 does not name (log entry 87). -/
def migAbort (s : State) (r : Nat) : State :=
  let p := s.phase
  if s.mig.abrupt ∨ p = phIDLE ∨ p = phSERVE ∨ p = phRETIRED ∨ p = phTAKEOVER then s else
  let seq := s.mig.seq.getD (s.get Reg.MIG_STAT.SEQ_DONE)
  let waits := s.mig.abortSeq
  let s := if p = phFLOAT_CAL then (s.fcalStop 8 (if r = 4 then 2 else 0x12)).floatPark
    else if phRET_CONVERGE ≤ p ∧ p ≤ phRET_SWAP_WAIT then ((s.setPhase phSERVE).mg fun _ => Mig.idle).candHunt
    else s.floatPark
  let s := s.migDone seq r
  let s := match waits with | some q => s.migDone q r | none => s
  if r = 4 then s else (s.floatEv Reg.MIG_EVT.ABORT).inc Reg.ABORT_CNT.COUNT

/-- R63: the candidate of a migration has locked to another marker lane than the lane's, or to another frame count. -/
def candidateOther (s : State) (counts : Bool) : State :=
  let f := s.frame 8
  let l := s.frame s.floatLane
  if s.candidate.isSome ∧ s.phase ≠ phTAKEOVER ∧ f.st = fsLOCKED ∧ l.st = fsLOCKED ∧ (f.lane ≠ l.lane ∨ (counts ∧ f.fc ≠ l.fc)) then s.migAbort 0x11 else s

/-- R40, R43: what FRM_STAT and FRM_EVT show when lane `k` enters LOCKED on the marker of lane `l`. -/
def showLocked (s : State) (k l : Nat) : State :=
  let s := ((s.put Reg.FRM_STAT.RX_LANE l [k]).put Reg.FRM_STAT.FAR_FMT 0 [k]).put Reg.FRM_STAT.PROBE_ACTIVE 0 [k]
  let s := (s.setLane k fun x => { x with huntCyc := 0 }).laneEv Reg.FRM_EVT.LOCK_GAINED k
  if l ≠ k then (s.put Reg.FRM_STAT.LANE_SWAP 1 [k]).laneEv Reg.FRM_EVT.LANE_SWAP_SEEN k else s.put Reg.FRM_STAT.LANE_SWAP 0 [k]

/-- R62, R66, R68: the swap makes the candidate's frame lock the lane's. -/
def takeFrame (s : State) (k : Nat) : State :=
  let f := s.frame 8
  let was := (s.frame k).st
  let s := (s.setFrame k fun _ => f).candHunt
  if was ≠ fsLOCKED ∧ f.st = fsLOCKED then s.showLocked k f.lane else s

/-- R65, R73: a slice's SLICE_STATE, which a declared fault and retirement hold. -/
def showSlice (s : State) (sl v : Nat) : State := if s.get Reg.RX_STAT.SLICE_STATE [sl] < 2 then s.setSliceState sl v else s

/-- R62, R73, R313: the Float takes lane `k` over from its own slice. -/
def swapIn (s : State) (k : Nat) : State :=
  let s := ((s.takeFrame k).inc Reg.SWAP_CNT.COUNT).capEv 44
  let s := s.setLane k fun l => { l with marking := false }
  (s.setPhase phSERVE).publishCoefs 8

/-- R62, R73: the own slice takes its lane back from the Float. -/
def swapBack (s : State) : State :=
  let k := s.floatLane
  let s := (((s.takeFrame k).inc Reg.SWAP_CNT.COUNT).capEv 44).showSlice k 0
  let s := s.setLane k fun l => { l with marking := false }
  (s.floatPark).publishCoefs k

/-- R63: an ABORT applied while a swap waited is reported after the swap. -/
def reportAbort (s : State) (a : Option Nat) : State :=
  match a with
  | none => s
  | some seq => ((s.migDone seq 0x16).floatEv Reg.MIG_EVT.ABORT).inc Reg.ABORT_CNT.COUNT

/-- R60, R62: the swap of a planned migration. -/
def migSwap (s : State) : State :=
  let k := s.floatLane
  let seq := s.mig.seq.getD (s.get Reg.MIG_STAT.SEQ_DONE)
  let ab := s.mig.abortSeq
  if s.quaranDown then s
  else if s.phase = phSWAP_WAIT then
    let ret := s.mig.retire && ab.isNone
    let s := ((s.swapIn k).mg fun _ => Mig.idle).floatEv Reg.MIG_EVT.SWAPPED
    let s := if ret then ((s.setPhase phRETIRED).retireSlice k) else (s.showSlice k 1).loadSkew k
    if ab.isSome then s.reportAbort ab else s.migDone seq 0
  else if s.phase = phRET_SWAP_WAIT ∧ ¬ s.mig.abrupt then
    let s := s.swapBack.floatEv Reg.MIG_EVT.RETURNED
    if ab.isSome then s.reportAbort ab else s.migDone seq 0
  else s

/-- The takeover of lane `k` starts on a free Float (R66 step 1), whose noise measurement ends: its seed is the most recent snapshot
at least two ticks older than the detection, which lies `age` tick boundaries back, or the reset seed where none is held. -/
def beginTakeover (s : State) (k age : Nat) : State :=
  let s := ((s.setPhase phTAKEOVER).floatConnect k).floatPga k
  let s := (s.put Reg.RX_STAT.NOISE_BUSY 0 [8]).setSlice 8 fun x => { x with noiseEnd := none }
  let s := s.mg fun m => { m with seq := none, abrupt := false, stepTicks := 0, lockTicks := 0, takeFor := some k, detTicks := age }
  let s := s.floatTake
  let x := s.slice k
  let b := match x.snaps[2 + age]? with | some g => g.bank | none => { x.bank with coefs := { Coefs.seed with c := seedCoefs (s.mainPos 8) } }
  s.seedSlice 8 b

/-- A takeover fails (R67, R68, R71): result, TAKEOVER_FAIL. -/
def takeoverFail (s : State) (r : Nat) : State := (s.migResult r).floatEv Reg.MIG_EVT.TAKEOVER_FAIL

/-- R67, R70, R71: the takeover of lane `k` ends without a swap: its marking ends, and a lane whose own slice is retired delivers nothing. -/
def takeoverLost (s : State) (k r : Nat) : State :=
  (s.setLane k fun l => { l with marking := false, dead := l.dead || s.retired k }).takeoverFail r

/-- R66–R68: a takeover of lane `k` is wanted. The power of the Float is no condition of it (log entry 88). -/
def takeover (s : State) (k : Nat) : State :=
  if ¬ s.on Reg.MIG_CTL.TAKEOVER_EN then s.takeoverFail 0x22
  else if ¬ s.floatOk ∨ s.phase = phRETIRED ∨ s.phase = phTAKEOVER ∨ s.mig.takeFor.isSome then s.takeoverFail 0x20
  else
    let s := s.setLane k fun l => { l with marking := true }
    let p := s.phase
    if phSERVE ≤ p ∧ p ≤ phRET_SWAP_WAIT then
      let j := s.floatLane
      let cmd := s.mig.seq
      let s := (s.fcalStop j 0x12).setLane j fun l => { l with marking := true }
      let s := match cmd with
        | some q => ((s.migDone q 0x14).floatEv Reg.MIG_EVT.ABORT).inc Reg.ABORT_CNT.COUNT
        | none => s.migResult 0x14
      s.beginReturn.mg fun m => { m with seq := none, abortSeq := none, abrupt := true, takeFor := some k, detTicks := 0 }
    else
      let s := s.migAbort 0x14
      s.beginTakeover k 0

/-- R68: a fault on the own slice of the lane that the Float serves: the Float stays on the lane in RETIRED. A takeover that waits for
an abrupt return finds no Float (R67). -/
def ownFaultWhileServed (s : State) (k : Nat) : State :=
  let cmd := if s.phase = phSERVE then none else s.mig.seq
  let wait := s.mig.takeFor
  let s := ((s.fcalStop k 0x12).setPhase phRETIRED).setLane k fun l => { l with marking := false }
  let s := ((s.mg fun _ => Mig.idle).candHunt).retireSlice k
  let s := (s.floatEv Reg.MIG_EVT.TAKEOVER).laneEv Reg.RX_EVT.TAKEOVER k
  let s := match cmd with
    | some q => ((s.migDone q 0x1A).floatEv Reg.MIG_EVT.ABORT).inc Reg.ABORT_CNT.COUNT
    | none => s
  match wait with
  | some j => s.takeoverLost j 0x20
  | none => s

/-- R65, R67: a fault declared on the Float. -/
def floatFault (s : State) : State :=
  let s := (s.put Reg.MIG_STAT.FLOAT_OK 0).floatEv Reg.MIG_EVT.FLOAT_FAULT
  if s.phase = phTAKEOVER then
    let k := s.floatLane
    s.floatPark.takeoverLost k 0x15
  else s.migAbort 0x15

/-- R65–R68: a health detector (`src`: bit 3 CLK, 2 SUPPLY, 1 STUCK, 0 SPREAD) trips on slice `sl`, sub-ADC `ss`. -/
def sliceFault (s : State) (sl src ss : Nat) : State :=
  let src := if s.sigDet sl then src else src / 4 * 4
  if ¬ s.uses Reg.RX_CTL.HEALTH_EN [sl] ∨ src = 0 then s else
  let old := s.get Reg.RX_STAT.FAULT_SRC [sl]
  let st := s.get Reg.RX_STAT.SLICE_STATE [sl]
  let s := s.put Reg.RX_STAT.FAULT_SRC (old ||| src) [sl]
  let s := if src % 4 ≠ 0 ∧ old % 4 = 0 then s.put Reg.RX_STAT.FAULT_SS ss [sl] else s
  if st = 2 ∨ st = 3 then s else
  let s := ((s.setSliceState sl 2).laneEv Reg.RX_EVT.FAULT sl).capEv 45
  if sl = 8 then s.floatFault
  else if s.floatServes ∧ s.floatLane = sl then (if s.phase = phRETIRED then s.retireSlice sl else s.ownFaultWhileServed sl)
  else if s.mapped sl then s.takeover sl else s

/-- R66: the Float swaps in on the faulted lane. -/
def takeoverSwap (s : State) : State :=
  let k := s.floatLane
  let s := (((s.swapIn k).setPhase phRETIRED).mg fun _ => Mig.idle).floatEv Reg.MIG_EVT.SWAPPED
  let s := s.setLane k fun l => { l with dead := false }
  ((s.floatEv Reg.MIG_EVT.TAKEOVER).laneEv Reg.RX_EVT.TAKEOVER k).retireSlice k

/-- R67: the bound of two ticks from the detection expires. -/
def takeoverTimeout (s : State) (k : Nat) : State :=
  let s := s.takeoverLost k 0x21
  if s.phase = phTAKEOVER then s.floatPark else s.mg fun m => { m with takeFor := none }

/-- R67, R68: the abrupt return's swap; the takeover that needed it follows, unless the Float has become unusable. -/
def abruptSwap (s : State) : State :=
  let t := s.mig.takeFor
  let d := s.mig.detTicks
  let s := s.swapBack.floatEv Reg.MIG_EVT.RETURNED
  match t with
  | some k => if s.floatOk then s.beginTakeover k d else s.takeoverLost k 0x20
  | none => s

/-- R59, R63: the first refusal that applies to a command accepted in the phases for which `here` holds; 0 where none applies. -/
def migRefusal (s : State) (here throttled laneNeeded : Bool) : Nat :=
  let t := s.get Reg.MIG_CTL.TARGET
  if ¬ s.floatOk ∨ s.phase = phRETIRED then 3
  else if ¬ here then 1
  else if throttled ∧ s.level = 3 then 4
  else if laneNeeded ∧ (¬ s.mapped t ∨ ¬ s.slicePowered t ∨ s.retired t ∨ ¬ (s.slice (s.serving t)).trLock) then 2
  else 0

/-- R59, R63: the refusal of each command by its code: where it is accepted, whether T3 refuses it, and whether it needs its lane. -/
def cmdRefusal (s : State) (cmd : Nat) : Nat :=
  if cmd = 1 then s.migRefusal (s.phase = phIDLE) true false
  else if cmd = 2 then s.migRefusal (s.phase = phIDLE) true true
  else if cmd = 3 then s.migRefusal (s.phase = phSERVE) false false
  else s.migRefusal (s.phase = phIDLE) false true

/-- R72: a command that would engage the Float, or on RETURN the lane's own slice, waits for the end of that slice's noise
measurement. One that R59 refuses engages nothing. -/
def noiseWait (s : State) : Bool :=
  let cmd := s.get Reg.MIG_CTL.CMD
  (cmd ≠ 0 && cmd ≠ 4) && s.cmdRefusal cmd = 0 &&
    ((s.slice 8).noiseEnd.isSome || (cmd = 3 && (s.slice s.floatLane).noiseEnd.isSome))

/-- R59: command `cmd` of MIG_CTL is armed and may start. -/
def migArmed (s : State) (cmd : Nat) : Bool := s.armed dueMig 0 && s.get Reg.MIG_CTL.CMD = cmd && !s.noiseWait

/-- R59: a command is refused with `r`, or starts by `f` with its SEQ noted. -/
def migCommand (s : State) (r : Nat) (f : State → State) : State :=
  let seq := s.get Reg.MIG_CTL.SEQ
  let s := s.disarm dueMig 0
  if r ≠ 0 then s.migDone seq r else f (s.mg fun m => { m with seq := some seq })

/-- R59: NONE takes no action: it ends at once, beside a command in progress. -/
def migNone (s : State) : State := (s.disarm dueMig 0).migDone (s.get Reg.MIG_CTL.SEQ) 0

/-- R63: ABORT. -/
def migAbortCmd (s : State) : State :=
  let seq := s.get Reg.MIG_CTL.SEQ
  let p := s.phase
  let here := !s.mig.abrupt && ((1 ≤ p && p ≤ 4) || (6 ≤ p && p ≤ 8) || p = 11 || p = 12)
  let r := s.migRefusal here false false
  let s := s.disarm dueMig 0
  if r ≠ 0 then s.migDone seq r
  else if p = phSWAP_WAIT ∨ p = phRET_SWAP_WAIT then s.mg fun m => { m with abortSeq := some seq }
  else (s.migAbort 0x16).migDone seq 0x16

/-- R61: an agreement window is open. -/
def agreeing (s : State) : Bool := (s.phase = phAGREE || s.phase = phRET_AGREE) && !s.mig.held && !s.quaranDown

/-- R61: the window has its 1,024 counted slots, or 64 uncorrected ones. -/
def agreeFull (s : State) : Bool := decide (1024 ≤ s.mig.slots) || decide (64 ≤ s.mig.unc)

/-- R61: one slot of lane `k` in the window: the bits in which the serving and the candidate slice's decisions differ from the corrected
codeword, none where the slot is uncorrected. -/
def agreeSlot (s : State) (k : Nat) (d : Option (Nat × Nat)) : State :=
  if ¬ s.agreeing ∨ s.floatLane ≠ k ∨ s.agreeFull then s else
  let ok := s.candidateLocked
  s.mg fun m =>
    let m := { m with same := m.same && ok }
    match d with
    | none => { m with unc := m.unc + 1 }
    | some (a, b) => { m with slots := m.slots + 1, eServ := m.eServ + a, eCand := m.eCand + b }

/-- R61: an agreement window has closed. Under T3 the migration pauses at the end of its step (R18, R64). -/
def agreeWindow (s : State) : State :=
  let w := s.mig
  let s := ((s.put Reg.AGREE_LAST.E_SERV w.eServ).put Reg.AGREE_LAST.E_CAND w.eCand).put Reg.AGREE_LAST.UNC w.unc
  let pass := w.same && s.candidateLocked && decide (w.unc < 64) &&
    decide (8 * w.eCand ≤ (8 + s.migPar Reg.MIG_CTL.AGREE_SLACK) * w.eServ + 8 * s.migPar Reg.MIG_CTL.AGREE_ABS)
  if pass then (if s.level = 3 then s.mg fun m => { m with held := true } else s.setPhase (s.phase + 1)) else
  let t := s.get Reg.MIG_STAT.TRIES_USED + 1
  let s := s.put Reg.MIG_STAT.TRIES_USED t
  if s.migPar Reg.MIG_CTL.AGREE_TRIES ≤ t then s.migAbort 0x13 else s.latchPar

/-- R60: step 1 or 6 is complete: the candidate has been locked for CONV_MIN further ticks, and T3 does not pause the migration (R64). -/
def convergeDue (s : State) : Bool :=
  (s.phase = phCONVERGE || (s.phase = phRET_CONVERGE && !s.mig.abrupt)) && !s.quaranDown && s.candidateLocked &&
    decide (s.migPar Reg.MIG_CTL.CONV_MIN ≤ s.mig.lockTicks) && decide (s.level ≠ 3)

/-- R63: step 1 or 6 has lasted CONV_TIMEOUT ticks. -/
def convTimedOut (s : State) : Bool :=
  (s.phase = phCONVERGE || (s.phase = phRET_CONVERGE && !s.mig.abrupt)) &&
    decide (s.migPar Reg.MIG_CTL.CONV_TIMEOUT ≤ s.mig.stepTicks) && !s.quaranDown && !s.convergeDue

/-- R60, R63, R67: one tick of the migration engine. A step that T3 has held up goes on below T3 (R18, R64). -/
def migTick (s : State) : State :=
  let s := s.candidateOther true
  let s := if s.mig.held ∧ s.level ≠ 3 ∧ ¬ s.quaranDown then (s.setPhase (s.phase + 1)).mg fun m => { m with held := false } else s
  let lk := s.candidateLocked
  if s.quaranDown ∧ ¬ s.mig.abrupt ∧ s.mig.takeFor.isNone then s.mg fun m => { m with candLocked := lk } else
  s.mg fun m => { m with stepTicks := m.stepTicks + 1, lockTicks := if lk && m.candLocked then m.lockTicks + 1 else 0, candLocked := lk
                         detTicks := if m.takeFor.isSome then m.detTicks + 1 else 0 }

/-- R63: the candidate slice, with the given index, has lost timing or frame lock. -/
def candidateLost (s : State) (sl : Nat) : State :=
  if s.candidate = some sl ∧ s.phase ≠ phTAKEOVER then s.migAbort 0x11 else s

/-- R137, R138: the observation loses its period; RESTARTS counts it. -/
def obsRestart (s : State) (again : Bool) : State :=
  let s := s.put Reg.TXOBS_STAT.RESTARTS (min 255 (s.get Reg.TXOBS_STAT.RESTARTS + 1))
  { s with obs := { TxObs.start_ with start := again } }

/-- R137: the observation loses its alignment. -/
def obsLost (s : State) : State :=
  if s.on Reg.TXOBS_STAT.ALIGNED then (s.put Reg.TXOBS_STAT.ALIGNED 0).obsRestart false else s

/-- R45, R96: a window of 1,024 line DSP cycles of a slice has ended, and has passed or failed. -/
def lockWindow (s : State) (sl : Nat) (pass : Bool) : State :=
  let x := s.slice sl
  let s := s.setSlice sl fun x =>
    if pass then { x with passRun := min 2 (x.passRun + 1), failRun := 0 } else { x with passRun := 0, failRun := min 4 (x.failRun + 1) }
  if pass ∧ ¬ x.trLock ∧ 1 ≤ x.passRun then
    let s := s.setSlice sl fun x =>
      { x with trLock := true, goodTick := false, unlocked := 0, sigTick := false, lastSeed := none
               adapt := if x.adapt = adHOLD ∧ x.fromTrack ∧ s.sigDet sl then adTRACK else x.adapt }
    s.sliceEv Reg.EQ_EVT.TR_LOCK_GAINED sl
  else if ¬ pass ∧ x.trLock ∧ 3 ≤ x.failRun then
    let s := s.setSlice sl fun x =>
      { x with trLock := false, goodTick := false, sigTick := false
               adapt := if x.adapt = adTRACK then adHOLD else x.adapt, fromTrack := x.fromTrack || x.adapt = adTRACK }
    let s := (s.sliceEv Reg.EQ_EVT.TR_LOCK_LOST sl).probeStop sl
    let s := s.whenB (sl = 8 && s.phase = phOBSERVE_TX) obsLost
    s.candidateLost sl
  else s

/-- R43: the marker period of lane `k` in line DSP cycles: a frame, in Single two. -/
def markerPeriod (s : State) (k : Nat) : Nat := if s.use Reg.FRM_CFG.FORMAT [k] = fmtSINGLE then 2178 else 1089

/-- R43: a line DSP cycle in which lane `k` is not LOCKED while its timing loop is. -/
def huntCycle (s : State) (k : Nat) : State :=
  if (s.frame k).st = fsLOCKED then s else
  let p := b2n (s.on Reg.FRM_STAT.PROBE_ACTIVE [k])
  s.setLane k fun l => { l with huntCyc := min (l.huntCyc + 1) (64 * s.markerPeriod k), winCyc := l.winCyc + p }

/-- R43, R95, R96: a line DSP cycle of a slice, with its U and its sum of e². -/
def cycleStep (s : State) (sl : Nat) (u : Int × Int) : State :=
  let s := s.timingCycle sl u.1
  let s := match s.servedBy sl with
    | some k => s.whenB (s.slice sl).trLock (·.huntCycle k)
    | none => s
  let w : TrWindow := ⟨(s.slice sl).win.n + 1, (s.slice sl).win.u + u.1, (s.slice sl).win.e2 + u.2⟩
  if w.n < 1024 then s.setSlice sl fun x => { x with win := w }
  else (s.setSlice sl fun x => { x with win := ⟨0, 0, 0⟩ }).lockWindow sl (s.windowPasses sl w)

/-- R47–R54, R76–R96, R158: a slice through a span of codes, with the settings in use. -/
def sliceFlow (s : State) (sl : Nat) (r : RxCodes) : State :=
  if ¬ s.sliceRuns sl then s else
  let c := s.rxCfg sl
  let codes := codesOf r
  let o := rxRun c codes r.prev
  let t := rxSats c o codes
  let s := s.whenB (0 < t.clips) (·.inc Reg.RX_CLIP_CNT.COUNT [sl] t.clips)
  let s := s.satCount Reg.Y_SAT_CNT.COUNT Reg.SAT_EVT.Y_SAT sl t.ySat
  let s := s.satCount Reg.Z_SAT_CNT.COUNT Reg.SAT_EVT.Z_SAT sl t.zSat
  let s := s.satCount Reg.BM_CLAMP_CNT.COUNT Reg.SAT_EVT.BM_CLAMP sl t.bmClamp
  let s := s.satCount Reg.LLR_SAT_CNT.COUNT Reg.SAT_EVT.LLR_SAT sl t.llrSat
  let s := s.setSlice sl fun x => { x with acc := x.acc.add (rxSums c o x.cyc codes) }
  s.each (rxCycles c o r.prev) fun s u => s.cycleStep sl u

/-- R72: a noise measurement is started on slice `sl`. -/
def noiseStart (s : State) (sl : Nat) : State :=
  if s.inputIdle sl then
    ((s.isEngage sl).put Reg.RX_STAT.NOISE_BUSY 1 [sl]).setSlice sl fun x => { x with noiseEnd := some (s.thm.tick + 4) }
  else s.laneEv Reg.RX_EVT.NOISE_REFUSED sl

/-- R72: the measurement's fourth tick boundary has come. -/
def noiseDue (s : State) (sl : Nat) : Bool := match (s.slice sl).noiseEnd with | some t => decide (t ≤ s.thm.tick) | none => false

/-- R72: the result is written. -/
def noiseDone (s : State) (sl worst worstRms allRms : Nat) : State :=
  let s := s.setLive (Reg.NOISE_RES.addr [sl]) (BitVec.ofNat 48 (worst % 64 * 2 ^ 24 + worstRms % 4096 * 4096 + allRms % 4096))
  let s := (s.put Reg.RX_STAT.NOISE_BUSY 0 [sl]).setSlice sl fun x => { x with noiseEnd := none }
  (s.connectSlice sl).laneEv Reg.RX_EVT.NOISE_DONE sl

/-- R316: FLOAT_CAL ends: passed, or failed with the Float declared faulted. -/
def floatCalEnd (s : State) (ok : Bool) : State :=
  let seq := s.mig.seq.getD (s.get Reg.MIG_STAT.SEQ_DONE)
  let s := s.floatPark
  if ok then s.migDone seq 0
  else ((s.migDone seq 0x19).put Reg.MIG_STAT.FLOAT_OK 0).floatEv Reg.MIG_EVT.FLOAT_FAULT |>.setSliceState 8 2

/-- R315, R316: a calibration's VERIFY has ended with the trims and residuals found. -/
def fcalDone (s : State) (sl : Nat) (m m' : CalMeas) : State :=
  if ¬ s.fcalReady sl then s else
  let ph := s.get Reg.FCAL_CTL.PHASES [sl]
  let t := calTrims ph (s.cal sl).trims m m'
  let v := calVerify m m'
  let s := s.setLive (Reg.FCAL_QUAL.addr [sl]) (fcalQual v.res v.spur.toNat)
  let r := calResult ph t v
  if r = 0 then
    let s := (s.setCal sl fun c => { c with trims := t }).fcalPass sl
    if sl = 8 then s.floatCalEnd true else s
  else
    let s := s.fcalFail sl r
    if sl = 8 then s.floatCalEnd false
    else if s.serving sl = 8 then (s.retireSlice sl).setPhase phRETIRED else s

/-- R309, R315: one tick of the calibration engines. A phase that ends under T3 stops its calibration. -/
def fcalTick (s : State) (sl : Nat) : State :=
  if ¬ (s.cal sl).run then s else
  let s := s.setCal sl fun c => { c with left := c.left - 1 }
  if (s.cal sl).left ≠ 0 then s
  else if (s.cal sl).stop then (if sl = 8 then s.migAbort 4 else s.fcalStop sl 2)
  else
    let st := s.get Reg.FCAL_STAT.STATE [sl]
    if st = 5 then s else
    let p := s.nextPhase sl st
    (s.setCal sl fun c => { c with left := phaseTicks p }).put Reg.FCAL_STAT.STATE p [sl]

/-- R69–R71: a lane whose own slice is retired is mapped again. -/
def remapRetired (s : State) (k : Nat) : State :=
  if s.floatOk ∧ s.phase ≠ phRETIRED ∧ s.phase ≠ phTAKEOVER ∧ s.mig.takeFor.isNone ∧ s.on Reg.MIG_CTL.TAKEOVER_EN then s.takeover k
  else s.takeoverLost k (if s.on Reg.MIG_CTL.TAKEOVER_EN then 0x20 else 0x22)

end Sys2Proof.Machine.State
end

