-- ==== Sys2Proof/Machine/Gearbox.lean ====
section
/-! DEFINITION. The gearbox and the patterns as functions of symbols (spec/08_host_lanes_and_gearbox.md R167–R172; spec/02 R44, R45;
spec/05 R118, R119). -/
namespace Sys2Proof.Machine

/-- R32: the bits of level indices, MSB first. -/
def pamBits (l : List Nat) : List Bool := l.flatMap fun i => [(grayBits i).1, (grayBits i).2]

/-- R32: the level indices of bits. -/
def pamLevels : List Bool → List Nat
  | m :: l :: t => levelIdx m l :: pamLevels t
  | _ => []

/-- A 10-bit symbol of bits, the first highest. -/
def bitsValue (l : List Bool) : Nat := l.foldl (fun a b => 2 * a + b2n b) 0

/-- R45: a checker's state (1 SEARCH, 2 LOCKED), and what it has counted: symbols, wrong symbols, wrong bits and returns to SEARCH. -/
structure PatRun where
  st : Nat
  chk : PatChk
  syms : Nat
  errs : Nat
  bits_ : Nat
  resyncs : Nat

/-- R45: wrong bits of a symbol. -/
def wrongBits (x p : Nat) : Nat := b2n ((grayBits x).1 != (grayBits p).1) + b2n ((grayBits x).2 != (grayBits p).2)

/-- R45: a checker of a pattern takes a symbol. -/
def patStep (pat : Nat) (r : PatRun) (x : Nat) : PatRun :=
  let p := (Config.patSymbol pat r.chk.pos).val
  let recent := (r.chk.recent ++ [x]).drop (r.chk.recent.length - 31)
  if r.st = 2 then
    let wrong := b2n (x ≠ p)
    let e := r.chk.errs + wrong
    let r := { r with syms := r.syms + 1, errs := r.errs + wrong, bits_ := r.bits_ + wrongBits x p }
    if 32 ≤ e then { r with st := 1, chk := ⟨0, Config.patPlace pat recent, recent, 0, 0⟩, resyncs := r.resyncs + 1 }
    else if r.chk.n = 1023 then { r with chk := ⟨0, r.chk.pos + 1, recent, 0, 0⟩ }
    else { r with chk := ⟨0, r.chk.pos + 1, recent, r.chk.n + 1, e⟩ }
  else if r.st = 1 then
    if x ≠ p then { r with chk := ⟨0, Config.patPlace pat recent, recent, 0, 0⟩ }
    else if r.chk.run = 127 then { r with st := 2, chk := ⟨0, r.chk.pos + 1, recent, 0, 0⟩ }
    else { r with chk := ⟨r.chk.run + 1, r.chk.pos + 1, recent, 0, 0⟩ }
  else r

/-- R44, R45: `n` symbols of a generator; with injection the MSB of the first after a tick boundary is inverted. -/
def patSend (pat : Nat) (inject : Bool) (g : PatGen) (n : Nat) : List Nat × PatGen :=
  let l := (List.range n).map fun i => (Config.patSymbol pat (g.pos + i)).val
  (if inject && g.first then upd l 0 (3 - ·) else l, ⟨g.pos + n, g.first && n = 0⟩)

/-- The bits that a host lane keeps: a marker of any type, and the FIFO at its longest (R167, R171). -/
def pastKept : Nat := ((List.range 5).map Config.amBits).foldl max 0 + 10 * (Config.egressFill + 257)

/-- R167: the number of the first bit of a marker of type `t` that ends with the latest bit, if one does. -/
def HLane.markerAt (h : HLane) (t : Nat) : Option Nat :=
  let w := Config.amBits t
  if 0 < w ∧ w ≤ h.bitNo ∧ Config.amMatches t (h.past.take w).reverse then some (h.bitNo - w) else none

/-- R168: a lane in HUNT after a bit. -/
def HLane.huntBit (h : HLane) : HLane :=
  let new := [1, 2, 3, 4].filterMap fun t => (h.markerAt t).map fun b => (t, b)
  let second := new.find? fun q => decide (Config.amPeriod q.1 ≤ q.2) && h.seen.contains (q.1, q.2 - Config.amPeriod q.1)
  { h with seen := new ++ h.seen.filter (fun q => decide (h.bitNo ≤ q.2 + Config.amPeriod q.1 + Config.amBits q.1))
           found := second <|> h.found }

/-- R168: a LOCKED lane after a bit: where an expected marker ends, it matches or is missed; where an RS symbol ends, it enters the FIFO. -/
def HLane.lockBit (h : HLane) : HLane :=
  let next := h.anchor + Config.amPeriod h.typ
  let h := if h.bitNo = next + Config.amBits h.typ then
      { h with anchor := next, misses := if h.markerAt h.typ = some next then 0 else h.misses + 1 }
    else h
  if (h.bitNo - h.anchor) % 10 = 0 then { h with fifo := h.fifo ++ [bitsValue (h.past.take 10).reverse] } else h

/-- R167–R169: the egress of a host lane takes a received bit. -/
def HLane.bit (h : HLane) (b : Bool) : HLane :=
  let h := { h with bitNo := h.bitNo + 1, past := (b :: h.past).take pastKept }
  if h.locked then h.lockBit else h.huntBit

/-- R171: RS symbols that have arrived since the first of the last marker. -/
def HLane.arrived (h : HLane) : Nat := (h.bitNo - h.anchor) / 10

/-- R171: the FIFO with a deskew delay: the latest whole symbols. -/
def HLane.refill (h : HLane) (delay : Nat) : HLane :=
  let part := (h.bitNo - h.anchor) % 10
  let n := min (Config.egressFill + delay) ((h.past.length - part) / 10)
  { h with delay := delay
           fifo := ((List.range n).map fun i => bitsValue ((h.past.drop (part + 10 * i)).take 10).reverse).reverse }

/-- R168: the lane enters LOCKED on the markers it has found: its symbols begin with the marker. -/
def HLane.lock (h : HLane) : HLane :=
  match h.found with
  | some (t, b) => { h with locked := true, typ := t, anchor := b, misses := 0, seen := [], found := none, joined := false }.refill 0
  | none => h

/-- R168, R169: the lane leaves LOCKED. -/
def HLane.unlock (h : HLane) : HLane :=
  { h with locked := false, typ := 0, seen := [], found := none, misses := 0, fifo := [], joined := false, delay := 0 }

/-- R171: the arrival of lane `b` minus the arrival of lane `a`, in RS symbols, the nearer way round their common period. -/
def pairSkew (a b : HLane) : Int :=
  let p : Nat := Config.amPeriod a.typ / 10
  let d : Int := (a.arrived : Int) - b.arrived
  if p = 0 then d else (d + p / 2).emod p - p / 2

/-- R170: one bit of the unlocked payload, with the state after it. -/
def prbsStep (st : BitVec 31) : Bool × BitVec 31 :=
  let o := st.getLsbD 30 != st.getLsbD 27
  (o, (st <<< 1) ||| (if o then 1 else 0))

/-- R170: the next RS symbol of the payload, first bit highest, with the state after it. -/
def prbsSymbol (st : BitVec 31) : BitVec 10 × BitVec 31 :=
  (List.range 10).foldl (fun p _ => let r := prbsStep p.2; ((p.1 <<< 1) ||| (if r.1 then 1 else 0), r.2)) (0, st)

/-- R169, R170: the RS symbol that a host lane supplies at a symbol position of the egress: its own, or the unlocked payload. The FIFO
advances in either case. -/
def HLane.supply (h : HLane) (own : Bool) : Nat × HLane :=
  if own && h.joined then
    (match h.fifo with | x :: _ => x | [] => (Config.emptySymbol h.bitNo).toNat, { h with fifo := h.fifo.drop 1 })
  else
    let r := prbsSymbol h.prbs
    (r.1.toNat, { h with prbs := r.2, fifo := h.fifo.drop 1 })

/-- `n` symbols of `supply`. -/
def HLane.supplyN (own : Bool) : Nat → HLane → List Nat × HLane
  | 0, h => ([], h)
  | n + 1, h =>
    let r := h.supply own
    let t := HLane.supplyN own n r.2
    (r.1 :: t.1, t.2)

/-- R169: a codeword slot begins: a LOCKED lane's symbols are back in it. -/
def HLane.slotStart (h : HLane) : HLane := if h.locked then { h with joined := true } else h

/-- R118: an RS symbol inverted. -/
def invertRs (x : Nat) : Nat := x ^^^ 0x3FF

/-- R118, R119: an RS symbol of a slot goes toward the host, its lane at offset `ofs` of a group of PCS `pcs`. `mark` says that the slot's
symbols are inverted; `fills` that FILL applies: the mode is FILL and the ingress monitor holds lock. Answers the lane and whether an RS
codeword has ended short. -/
def HLane.deliver (h : HLane) (pcs ofs : Nat) (mark fills lock : Bool) (x : Nat) : HLane × Bool :=
  let cw := if lock then Config.rsCodeword pcs ofs h.fill.pos else none
  let am := lock && cw.isNone
  let cnt := match cw with | some (c, _) => ((h.fill.open_.find? (·.1 = c)).map (·.2)) | none => none
  let more := match cnt with | some n => decide (n < 16) | none => false
  let inv := (mark && !(fills && am)) || (more && lock)
  let open1 := match cw, cnt with
    | some (c, _), some n => if inv then (h.fill.open_.filter (·.1 ≠ c)) ++ [(c, n + 1)] else h.fill.open_
    | some (c, _), none => if mark && fills then h.fill.open_ ++ [(c, 1)] else h.fill.open_
    | none, _ => h.fill.open_
  let short := match cw with
    | some (c, true) => open1.any fun q => decide (q.1 = c ∧ q.2 < 16)
    | _ => false
  let open2 := match cw with | some (c, true) => open1.filter (·.1 ≠ c) | _ => if lock then open1 else []
  let past := ((msbBits 10 x).reverse ++ h.fill.past).take (Config.amBits pcs)
  let at_ := if 0 < Config.amBits pcs && Config.amMatches pcs past.reverse then Config.amBits pcs / 10 else h.fill.pos + 1
  ({ h with tx := h.tx ++ [if inv then invertRs x else x], fill := ⟨at_, past, open2⟩ }, short)

/-- The RS symbols of a slot for one lane; answers the lane and how many codewords have ended short. -/
def HLane.deliverN (h : HLane) (pcs ofs : Nat) (mark fills lock : Bool) (l : List Nat) : HLane × Nat :=
  l.foldl (fun p x => let r := p.1.deliver pcs ofs mark fills lock x; (r.1, p.2 + b2n r.2)) (h, 0)

/-- R30, R35: the RS symbols of a payload, p119 first. -/
def payloadSymbols (p : List Bool) : List Nat := (List.range 12).map fun i => bitsValue ((p.drop (10 * i)).take 10)

/-- `n` level indices toward the host, of the RS symbols that wait. -/
def HLane.hostSend (h : HLane) (n : Nat) : List Nat × HLane :=
  let need := (2 * n - h.txBits.length + 9) / 10
  let syms := (List.range need).map fun i => h.tx.getD i (Config.emptySymbol (h.txNo + i)).toNat
  let b := h.txBits ++ syms.flatMap (msbBits 10)
  (pamLevels (b.take (2 * n)),
    { h with tx := h.tx.drop need, txPast := (syms.reverse ++ h.txPast).take 544, txBits := b.drop (2 * n), txNo := h.txNo + need })

end Sys2Proof.Machine
end

