-- ==== Sys2Proof/Machine/Line.lean ====
section
/-! DEFINITION. Frame lock, the far-end format probe and the line pattern checkers
(spec/02_modes_and_line_format.md R38–R46, R481). -/
namespace Sys2Proof.Machine.State

/-- The lane whose settings frame lock `k` uses: the lane itself, or for the candidate slice the Float's lane. -/
def lockLane (s : State) (k : Nat) : Nat := if k = 8 then s.floatLane else k

/-- The format in use of frame lock `k`; index 8 has the Float's own copy (`floatTake`). -/
def lockFmt (s : State) (k : Nat) : Nat := s.use Reg.FRM_CFG.FORMAT [k]

/-- R38: the states of lane `k` run: its LDSk domain is on. -/
def lockRuns (s : State) (k : Nat) : Bool := s.domOn (17 + s.lockLane k)

/-- R14: pair `k`'s host transmit rotation is held. -/
def holdRate (s : State) (k : Nat) : State := s.setLane k fun l => { l with rateHeld := true }

/-- R41, R197: the ingress latency report of lane `k` becomes invalid, and that of the present tick with it. -/
def latInvalid (s : State) (k : Nat) : State :=
  let s := s.each [2, 3, 6, 7] fun s j => s.setLive (Reg.LAT.addr [k, j]) (s.liveAt (Reg.LAT.addr [k, j]) &&& 0x7FFFFFFFFFFF)
  s.setLane k fun l => { l with lat := l.lat.zipIdx.map fun q => if 2 ≤ q.2 then { q.1 with wait := [], bad := true } else q.1 }

/-- Frame lock `k` is left: what R41 says of entering HUNT from LOCKED, without the count. -/
def leaveLocked (s : State) (k : Nat) : State :=
  if k = 8 then
    let s := s.candHunt
    match s.candidate with | some c => s.candidateLost c | none => s
  else
    let s := (s.setFrame k fun _ => FrameLock.hunting).put Reg.FRM_STAT.LANE_SWAP 0 [k]
    let s := (((s.inbandDown k).holdRate k).latInvalid k)
    s.setSlice (s.serving k) fun x => { x with goodTick := false }

/-- R63: lane `k` has lost frame lock while a migration is engaged with it. -/
def laneLost (s : State) (k : Nat) : State :=
  if s.floatLane = k ∧ ((phCONVERGE ≤ s.phase ∧ s.phase ≤ phSWAP_WAIT) ∨ (phRET_CONVERGE ≤ s.phase ∧ s.phase ≤ phRET_SWAP_WAIT))
  then s.migAbort 0x10 else s

/-- R41: a counted loss of frame. -/
def lossOfFrame (s : State) (k : Nat) : State :=
  if k = 8 then s.leaveLocked 8 else
  let s := ((s.leaveLocked k).inc Reg.FRM_LOL_CNT.COUNT [k]).laneEv Reg.FRM_EVT.LOL k
  ((s.pmc (0x58 + k)).capEv k).laneLost k

/-- R26, R42: a Set makes lane `k` enter the hunt again, without a count; a format probe stops (R43). In the Standard format RX_LANE,
RX_FC and FAR_FMT read 0 (R37, R481). -/
def rehunt (s : State) (k : Nat) : State :=
  let s := (s.put Reg.FRM_STAT.PROBE_ACTIVE 0 [k]).setLane k fun l => { l with huntCyc := 0 }
  let s := s.whenB (s.lockFmt k = fmtSTANDARD) fun s =>
    ((s.put Reg.FRM_STAT.RX_LANE 0 [k]).put Reg.FRM_STAT.RX_FC 0 [k]).put Reg.FRM_STAT.FAR_FMT 0 [k]
  if (s.frame k).st = fsLOCKED then s.leaveLocked k else s.setFrame k fun _ => FrameLock.hunting

/-- R39, R40, R43: frame lock `k` enters LOCKED on lane `lane`'s marker with frame count `fc`. In Single the count of a lane is known
from the next odd frame on. -/
def enterLocked (s : State) (k lane : Nat) (fc : Option Nat) : State :=
  let s := s.setFrame k fun f => { f with st := fsLOCKED, lane := lane, misses := 0, fc := fc, known := k = 8 || s.lockFmt k ≠ fmtSINGLE }
  if k = 8 then s.candidateOther false else
  s.showLocked k lane

/-- R38: a candidate marker in HUNT. -/
def huntMatch (s : State) (k : Nat) (m : Nat) : State :=
  if (s.frame k).st ≠ fsHUNT ∨ ¬ s.lockRuns k ∨ s.lockFmt k = fmtSTANDARD then s else
  match markerLane m (s.use Reg.FRM_CFG.LOCK_TOL [k]) with
  | none => s
  | some l =>
    let s := s.setFrame k fun _ => ⟨fsVERIFY, l, 1, 0, none, false⟩
    if k = 8 then s else s.put Reg.FRM_STAT.RX_LANE l [k]

/-- R38–R41: a header at an expected marker position: bits 127:64 the marker, bits 3:0 the frame counter (in Single that of the odd
frame after the marker's). -/
def expectedMarker (s : State) (k : Nat) (hdr : Nat) : State :=
  let f := s.frame k
  if f.st = fsHUNT ∨ ¬ s.lockRuns k ∨ s.lockFmt k = fmtSTANDARD then s else
  let hit := decide (popCount 64 ((hdr >>> 64) ^^^ marker f.lane) ≤ s.use Reg.FRM_CFG.LOCK_TOL [k])
  let rx := hdr % 16
  let step := if s.lockFmt k = fmtSINGLE then 2 else 1
  let s := if (hit ∨ f.st = fsLOCKED) ∧ k ≠ 8 then s.put Reg.FRM_STAT.RX_FC rx [k] else s
  if f.st = fsVERIFY then
    if ¬ hit then s.setFrame k fun _ => FrameLock.hunting
    else if f.matches_ + 1 < 3 then s.setFrame k fun f => { f with matches_ := f.matches_ + 1 }
    else s.enterLocked k f.lane (some rx)
  else
    let cnt := match f.fc with | some c => (c + step) % 16 | none => rx
    let miss := if hit then 0 else f.misses + 1
    let s := s.setFrame k fun f => { f with fc := some cnt, misses := miss, known := true }
    let s := if rx ≠ cnt ∧ k ≠ 8 then
      (s.inc Reg.FRM_FC_ERR_CNT.COUNT [k]).laneEv Reg.FRM_EVT.FC_ERR k else s
    if s.use Reg.FRM_CFG.LOL_COUNT [k] ≤ miss then s.lossOfFrame k else s

/-- R481: the inner-FEC alignment of a lane in the Standard format changes. -/
def standardAlign (s : State) (k st : Nat) : State :=
  if s.lockFmt k ≠ fmtSTANDARD ∨ ¬ s.lockRuns k ∨ (s.frame k).st = st then s else
  let was := (s.frame k).st
  let s := if was = fsLOCKED then s.lossOfFrame k else s
  if st = fsLOCKED then
    let s := s.setFrame k fun _ => ⟨fsLOCKED, 0, 0, 0, some 0, true⟩
    if k = 8 then s else s.laneEv Reg.FRM_EVT.LOCK_GAINED k
  else s.setFrame k fun _ => ⟨st, 0, 0, 0, none, false⟩

/-- R43: lane `k` may probe: Double or Single, and for 64 marker periods not LOCKED with its timing loop locked. -/
def mayProbe (s : State) (k : Nat) : Bool :=
  s.use Reg.FRM_CFG.FORMAT [k] ≠ fmtSTANDARD && (s.frame k).st ≠ fsLOCKED && (s.slice (s.serving k)).trLock && s.domOn (17 + k) &&
    !s.on Reg.FRM_STAT.PROBE_ACTIVE [k] && decide (64 * s.markerPeriod k ≤ (s.lane k).huntCyc)

/-- R43: a format probe of lane `k` starts. -/
def probeStart (s : State) (k : Nat) : State :=
  if s.mayProbe k then (s.put Reg.FRM_STAT.PROBE_ACTIVE 1 [k]).setLane k fun l => { l with winCyc := 0 } else s

/-- R43: the codes of FAR_FMT that lane `k` can find: SINGLE and STANDARD in Double, STANDARD in Single. -/
def canFind (s : State) (k code : Nat) : Bool :=
  code = 3 || (code = 2 && s.use Reg.FRM_CFG.FORMAT [k] = fmtDOUBLE)

/-- R43: a probe finds a foreign format at three consecutive expected positions. -/
def farFound (s : State) (k code : Nat) : State :=
  if s.on Reg.FRM_STAT.PROBE_ACTIVE [k] ∧ s.canFind k code then
    ((s.put Reg.FRM_STAT.FAR_FMT code [k]).setLane k fun l => { l with winCyc := 0 }).laneEv Reg.FRM_EVT.FAR_FMT_FOUND k else s

/-- R43: a probe window of 64 marker periods ends without a find. -/
def probeEnd (s : State) (k : Nat) : State :=
  if s.on Reg.FRM_STAT.PROBE_ACTIVE [k] ∧ 64 * s.markerPeriod k ≤ (s.lane k).winCyc then
    (s.put Reg.FRM_STAT.FAR_FMT 0 [k]).setLane k fun l => { l with winCyc := 0 }
  else s

/-- The checker registers of a line lane, or of a physical host lane: state, resync count, symbols, wrong symbols, wrong bits. -/
def patRegs (host : Bool) : FRef × FRef × FRef × FRef × FRef :=
  if host then (Reg.HS_PAT_STAT.CHK_STATE, Reg.HS_PAT_STAT.RESYNC, Reg.HS_PAT_SYM_CNT.COUNT, Reg.HS_PAT_SYM_ERR.COUNT, Reg.HS_PAT_BIT_ERR.COUNT)
  else (Reg.PAT_STAT.CHK_STATE, Reg.PAT_STAT.RESYNC, Reg.PAT_SYM_CNT.COUNT, Reg.PAT_SYM_ERR.COUNT, Reg.PAT_BIT_ERR.COUNT)

/-- R45: the checker of a line lane, or of a physical host lane. -/
def patChk (s : State) (host : Bool) (n : Nat) : PatChk := if host then (s.hrx.getD n HRx.start).chk else (s.lane n).chk
def setPatChk (s : State) (host : Bool) (n : Nat) (c : PatChk) : State :=
  if host then { s with hrx := upd s.hrx n fun x => { x with chk := c } } else s.setLane n fun l => { l with chk := c }

/-- R45: a checker of pattern `pat` takes the symbols of a span. -/
def patCheck (s : State) (host : Bool) (n pat : Nat) (l : List Nat) : State :=
  let g := patRegs host
  let st := s.get g.1 [n]
  if pat = 0 ∨ st = 0 then s else
  let r := l.foldl (patStep pat) ⟨st, s.patChk host n, 0, 0, 0, 0⟩
  let s := ((s.setPatChk host n r.chk).put g.1 r.st [n]).put g.2.1 (min 255 (s.get g.2.1 [n] + r.resyncs)) [n]
  ((s.inc g.2.2.1 [n] r.syms).inc g.2.2.2.1 [n] r.errs).inc g.2.2.2.2 [n] r.bits_

/-- R45: a checker's pattern selection has changed. -/
def patSelect (s : State) (host : Bool) (n pat : Nat) : State :=
  let r := patRegs host
  ((s.setPatChk host n PatChk.start).put r.1 (if pat = 0 then 0 else 1) [n]).put r.2.1 0 [n]

/-- R46: LOCK_STATE as it reads: NO_SIGNAL while the timing loop of the serving slice is unlocked or the lane is unpowered. -/
def lockState (s : State) (k : Nat) : Nat :=
  if ¬ s.domOn (17 + k) ∨ ¬ (s.slice (s.serving k)).trLock then 3 else (s.frame k).st

/-- R14, R166: what the interpolators fed by line lane `k` follow: the received rate of the lane, on average over the tick that ends; held
from a loss of frame lock to the first tick boundary with it. -/
def lineRateTick (s : State) (k : Nat) : State :=
  let x := s.slice (s.serving k)
  let n := x.thetas.length - 1
  let rate : Int := if n = 0 then (s.lane k).rate else
    rhe ((x.thetas.headD 0 - x.thetas.getLastD 0) * 10 ^ 9) (128 * s.symsOf (s.serving k) * 2 ^ 24 * n)
  if (s.frame k).st = fsLOCKED then s.setLane k fun l => { l with rateHeld := false, rate := clampI (-300000) 300000 rate } else s

end Sys2Proof.Machine.State
end

