-- ==== Sys2Proof/Machine/Fec.lean ====
section
/-! DEFINITION. The inner code, Chase-II decoding, marking, counters and the outer monitors
(spec/05_inner_code_and_fec_monitoring.md). A word is the list of its bits c0 to c127. -/
namespace Sys2Proof.Machine

/-- R112: the number of least reliable positions of an effort. -/
def effortN (e : Nat) : Nat := [6, 4, 0].getD e 0

namespace State

/-- An event of an FEC register (R265 bit 8). -/
def fecEv (s : State) (f : FRef) (k : Nat) : State := (s.ev f [k]).seqEv 8

/-- The decoder's domain of lane `k` is on: FDA or FDB (R385). -/
def decoderOn (s : State) (k : Nat) : Bool := s.domOn (if k < 4 then 36 else 37)

/-- R116, R117: the slots of lane `k` are forced. -/
def forcing (s : State) (k : Nat) : Bool :=
  (s.frame k).st = fsLOCKED && (decide (0 < (s.frame k).misses) || (s.lane k).marking || !(s.frame k).known)

/-- R39: a slot that is not of a Single lane's even frame comes after the FC of its frame. -/
def countKnown (s : State) (k : Nat) (even : Bool) : State :=
  if even then s else s.setFrame k fun f => { f with known := true }

/-- R34, R35: the scramble bits c0 to c127 of slot `slot`; an even frame of a Single lane counts one less than the odd frame after it. -/
def scrambleOf (s : State) (k slot : Nat) (even : Bool) : List Bool :=
  let f := s.frame k
  (slotScramble f.lane (f.fc.getD 0 + 15 * b2n (even && s.lockFmt k = fmtSINGLE)) slot).reverse

/-- R103, R120: the counters of a slot that is not forced: `d` the bits changed, none where it is decoder-uncorrected. -/
def slotCount (s : State) (k : Nat) (d : Option Nat) : State :=
  let s := s.inc Reg.IN_CW_CNT.COUNT [k]
  match d with
  | none => ((s.inc Reg.IN_UNC_CNT.COUNT [k]).fecEv Reg.IN_EVT.UNC_SEEN k).pmc (0x40 + k) |>.capEv (8 + k)
  | some n =>
    let s := (s.sliceInc Reg.DET_BIT_CNT.COUNT (s.serving k) 128).sliceInc Reg.DET_ERR_CNT.COUNT (s.serving k) n
    if n = 0 then s else
    let s := ((s.inc Reg.IN_CORR_CNT.COUNT [k]).inc Reg.IN_BIT_CNT.COUNT [k] n).pmc (0x50 + k)
    if n ≤ 7 then s.inc Reg.IN_HIST.COUNT [k, n - 1] else s

/-- R107–R112, R124: the positions in which the decoder's codeword of a slot of lane `k` differs from hard decisions `w`, none where the slot
is decoder-uncorrected. The codewords of a lane in the Standard format are those of IEEE 802.3dj. -/
def decideSlot (s : State) (k slot : Nat) (even : Bool) (w : List Bool) (llr : List Int) : Option (List Nat) :=
  let n := effortN (s.get Reg.IN_STAT.EFFORT_NOW [k])
  if s.lockFmt k = fmtSTANDARD then chaseBy Config.stdHard w llr n
  else chase ((w.zip (s.scrambleOf k slot even)).map fun p => p.1 != p.2) llr n

/-- R34, R111: the RS symbols that a decided slot of lane `k` carries: hard decisions `w` with positions `ps` corrected, descrambled. -/
def slotSymbols (s : State) (k slot : Nat) (even : Bool) (w : List Bool) (ps : List Nat) : List Nat :=
  if s.lockFmt k = fmtSTANDARD then Config.stdPayload slot (flipAt w ps)
  else payloadSymbols ((((flipAt w ps).zip (s.scrambleOf k slot even)).map fun p => p.1 != p.2).drop 8).reverse

/-- R61: the bits in which decisions `c` differ from the codeword that differs from `w` in positions `ps`. -/
def disagree (w c : List Bool) (ps : List Nat) : Nat := (((flipAt w ps).zip c).filter fun p => p.1 != p.2).length

/-- R113, R114: the effort of lane `k` at an application boundary. -/
def effortTake (s : State) (k : Nat) : State :=
  let e := s.get Reg.IN_CFG.EFFORT [k]
  let low := decide (2 ≤ s.level) && e = 0
  let s := if s.on Reg.IN_STAT.THROTTLED [k] = low ∨ (s.on Reg.IN_STAT.THROTTLED [k] ∧ e ≠ 0) then s
    else s.whenB (s.decoderOn k) (·.fecEv Reg.IN_EVT.EFFORT_SWITCH k)
  (s.put Reg.IN_STAT.THROTTLED (b2n low) [k]).put Reg.IN_STAT.EFFORT_NOW (if low then 1 else e) [k]

/-- R121: the PCS code of logical host lane `n`, and the lanes of its group. -/
def pcsCode (s : State) (n : Nat) : Nat := bits (s.get Reg.OUTER_CFG.PCS) (3 * n + 2) (3 * n)

def pcsWidth (c : Nat) : Nat := if c = 0 then 1 else 2 ^ (c - 1)

def pcsGroup (s : State) (n : Nat) : List Nat :=
  let w := pcsWidth (s.pcsCode n)
  (List.range w).map (n / w * w + ·)

/-- R123, R125: lane `n` holds the counters of its group. -/
def groupLead (s : State) (n : Nat) : Bool := s.pcsCode n ≠ 0 && (s.pcsGroup n).headD 0 = n

/-- The registers of an outer monitor: ingress, or egress. -/
def omLock (ig : Bool) : FRef := if ig then Reg.OMI_STAT.LOCK else Reg.OME_STAT.LOCK
def omLead (ig : Bool) : FRef := if ig then Reg.OMI_STAT.GROUP_LEAD else Reg.OME_STAT.GROUP_LEAD
def omCnt (ig : Bool) : FRef := if ig then Reg.OMI_CNT.COUNT else Reg.OME_CNT.COUNT
def omHist (ig : Bool) : FRef := if ig then Reg.OMI_HIST.COUNT else Reg.OME_HIST.COUNT

/-- R121, R123: the codeword lock of the monitors of lane `n`'s group changes. -/
def outerLock (s : State) (n : Nat) (ig lock : Bool) : State :=
  if s.pcsCode n = 0 ∨ s.on (omLock ig) [n] = lock then s else
  s.each (s.pcsGroup n) fun s h =>
    let s := s.put (omLock ig) (b2n lock) [h]
    s.fecEv (match ig, lock with
      | true, true => Reg.OMI_EVT.LOCK_GAINED | true, false => Reg.OMI_EVT.LOCK_LOST
      | false, true => Reg.OME_EVT.LOCK_GAINED | false, false => Reg.OME_EVT.LOCK_LOST) h

/-- R123: one RS codeword of lane `n`'s group: each symbol with the offset of the lane that carried it, symbol of highest degree
first. -/
def outerWord (s : State) (n : Nat) (ig : Bool) (syms : List (Nat × Nat)) : State :=
  if ¬ s.on (omLock ig) [n] ∨ s.pcsCode n = 0 then s else
  let g := s.pcsGroup n
  let lead := g.headD 0
  let s := s.inc (omCnt ig) [lead, 0]
  match Rs.decode 30 (syms.map (·.1)) with
  | none =>
    let s := (s.inc (omCnt ig) [lead, 1]).inc (omCnt ig) [lead, 2]
    let s := s.whenB ig (·.capEv 61)
    s.each g fun s h => s.fecEv (if ig then Reg.OMI_EVT.UNC_SEEN else Reg.OME_EVT.UNC_SEEN) h
  | some errs =>
    let s := if errs = [] then s else s.inc (omCnt ig) [lead, 1]
    let s := s.inc (omHist ig) [lead, min 15 errs.length]
    s.each g.zipIdx fun s (h : Nat × Nat) =>
      let mine := errs.filter fun e => (syms.getD e.1 (0, 0)).2 = h.2
      let s := s.inc (omCnt ig) [h.1, 3] mine.length
      let s := s.inc (omCnt ig) [h.1, 4] (mine.foldl (fun a e => a + popCount 10 e.2) 0)
      s.inc (omCnt ig) [h.1, 5] (10 * (syms.filter fun x => x.2 = h.2).length)

end State
end Sys2Proof.Machine
end

