-- ==== Sys2Proof/Machine/Tx.lean ====
section
/-! DEFINITION. The line transmit path (spec/06_line_transmit.md): Render sets, squelch, spectral mask and the observation of the
transmit tap. -/
namespace Sys2Proof.Machine

/-- `10·log10(num/den)` in quarters of a decibel, rounded to nearest, limited to 0 to 63.75 dB (R135). -/
def dbQuarter (num den : Nat) : Nat :=
  if den = 0 then 255 else searchMax (fun n => decide (10 ^ (2 * n - 1) * den ^ 80 ≤ num ^ 80)) 8 0

/-- Squelch codes of TX_STAT.SQ_NOW. -/
def sqNONE : Nat := 0
def sqZERO : Nat := 1
def sqIDLE : Nat := 2
def sqMASK : Nat := 3

namespace State

/-- Where `inUse` keeps the mode that the receive stages, the transmit stages of lane `k`, and the Float have taken (R19). -/
def rxModeAddr (k : Nat) : Nat := 0x1000000 + k
def txModeAddr (k : Nat) : Nat := 0x1000010 + k

/-- The mode that the transmit stages, and the receive stages, of lane `k` have in use. -/
def txMode (s : State) (k : Nat) : Nat := (RegFile.get s.inUse (txModeAddr k)).toNat

/-- Where `inUse` keeps PAT_CTL and FRM_CFG as the transmit stages of lane `k` have taken them, and their pattern and format. -/
def txPatAddr (k : Nat) : Nat := 0x1000020 + k
def txFrmAddr (k : Nat) : Nat := 0x1000030 + k
def txPat (s : State) (k : Nat) : Nat := bits (RegFile.get s.inUse (txPatAddr k)).toNat Reg.PAT_CTL.TX_PAT.hi Reg.PAT_CTL.TX_PAT.lo
def txInject (s : State) (k : Nat) : Bool := (RegFile.get s.inUse (txPatAddr k)).toNat.testBit Reg.PAT_CTL.INJECT.lo
def txFmt (s : State) (k : Nat) : Nat := bits (RegFile.get s.inUse (txFrmAddr k)).toNat Reg.FRM_CFG.FORMAT.hi Reg.FRM_CFG.FORMAT.lo

def rxMode (s : State) (k : Nat) : Nat := (RegFile.get s.inUse (rxModeAddr k)).toNat

/-- R134: the output stage of lane `k` is off, whatever its squelch. -/
def txOff (s : State) (k : Nat) : Bool :=
  s.txMode k = 0 || !s.domOn (9 + k) || !s.domOn (17 + k) || !s.domOn 49

/-- R134, R136: the strongest squelch in force on lane `k`. -/
def squelch (s : State) (k : Nat) : Nat :=
  let mode := s.use Reg.TX_CTL.SQ_MODE [k]
  if s.txOff k ∨ mode = sqIDLE then sqIDLE
  else if (s.lane k).maskSq then sqMASK
  else if mode = sqZERO ∨ ¬ (modeLanes (s.txMode k)).contains k then sqZERO
  else sqNONE

/-- R134: SQ_NOW follows the squelch; every exit from IDLE passes through two ticks of settling with code 0. -/
def squelchRefresh (s : State) (k : Nat) : State :=
  let q := s.squelch k
  let old := s.get Reg.TX_STAT.SQ_NOW [k]
  if q = old then s else
  let s := s.put Reg.TX_STAT.SQ_NOW q [k]
  if q = sqIDLE then s.put Reg.TX_STAT.SETTLING 0 [k]
  else if old = sqIDLE then (s.put Reg.TX_STAT.SETTLING 1 [k]).setLane k fun l => { l with settle := s.thm.tick + 2, zero := true }
  else s

/-- R134: two ticks after leaving IDLE, SETTLING clears. -/
def settleEnd (s : State) (k : Nat) : State :=
  if s.on Reg.TX_STAT.SETTLING [k] ∧ (s.lane k).settle ≤ s.thm.tick then s.put Reg.TX_STAT.SETTLING 0 [k] else s

/-- R131: the Render set that lane `k` is to use. -/
def renderSet (s : State) (k : Nat) : Nat :=
  let c := s.use Reg.TX_CTL.SET_SEL [k]
  if c < 4 then c else (s.cal k).band

/-- The addresses of the taps and entries of Render set `n` of lane `k`. -/
def renderAddrs (k n : Nat) : Nat × Nat := (laneBase k + 0x200 + 0x80 * n, laneBase k + 0x200 + 0x80 * n + 0x7F)

/-- R136: a Set has applied a change that releases a mask squelch of lane `k`. -/
def releases (s : State) (k : Nat) : Bool :=
  let r := renderAddrs k (s.get Reg.TX_STAT.SET_NOW [k])
  s.changedIn (laneBase k + 0xC0) (laneBase k + 0xC0) || s.changedIn (laneBase k + 0xC2) (laneBase k + 0xC5) ||
    s.changedIn r.1 r.2

/-- R137: an observation of a transmit tap begins. -/
def obsBegin (s : State) : State :=
  { (s.put Reg.TXOBS_STAT.RESTARTS 0).put Reg.TXOBS_STAT.ALIGNED 0 with obs := TxObs.start_ }

/-- R19, R20, R131, R136, R138: the transmit stages of lane `k` take the live values at a transmit frame boundary. -/
def txBoundary (s : State) (k : Nat) : State :=
  let b := laneBase k
  let released := s.releases k
  let old := s.get Reg.TX_STAT.SET_NOW [k]
  let wasAuto := s.use Reg.TX_CTL.SET_SEL [k] = 4
  let observed := s.phase = phOBSERVE_TX && s.floatLane = k
  let shape (s : State) := (s.use Reg.TX_CTL.AMP [k], s.use Reg.TX_CTL.FIR_MAIN [k], s.use Reg.TX_CTL.TX_POL [k],
    s.uses Reg.TX_CTL.PRECODE_TX [k], s.use Reg.TX_CTL.SQ_MODE [k])
  let before := shape s
  let trims := s.changedIn (b + 0xC2) (b + 0xC5)
  let s := ((s.takeIn (b + 0xC0) (b + 0xC0)).takeIn (b + 0xC2) (b + 0xC5))
  let n := s.renderSet k
  let table := s.changedIn (b + 0x200) (b + 0x3FF) || decide (n ≠ old)
  let s := s.takeIn (b + 0x200) (b + 0x3FF)
  let s := { s with inUse := RegFile.set s.inUse (txModeAddr k) (BitVec.ofNat 48 s.mode) }
  let s := { s with inUse := RegFile.set s.inUse (txPatAddr k) (s.liveAt (Reg.PAT_CTL.addr [k])) }
  let s := { s with inUse := RegFile.set s.inUse (txFrmAddr k) (s.liveAt (Reg.FRM_CFG.addr [k])) }
  let s := s.whenB (!s.on Reg.TX_STAT.SETTLING [k]) (·.setLane k fun l => { l with zero := false })
  let s := s.whenB (!before.2.2.2.1 && (shape s).2.2.2.1) (·.setLane k fun l => { l with pre := 0 })
  let s := s.put Reg.TX_STAT.SET_NOW n [k]
  let s := if wasAuto ∧ s.use Reg.TX_CTL.SET_SEL [k] = 4 ∧ n ≠ old then s.laneEv Reg.TX_EVT.SET_SWITCH k else s
  let s := if released then s.setLane k fun l => { l with maskSq := false, maskDue := false } else s
  let s := s.squelchRefresh k
  if observed ∧ s.on Reg.TXOBS_STAT.ALIGNED ∧ s.obs.run ∧ (table ∨ trims ∨ before ≠ shape s) then s.obsRestart true else s

/-- R136: at the next transmit frame boundary after a declaration under MASK_ACT, ZERO is forced, unless a Set releases it at that
boundary. -/
def maskSquelch (s : State) (k : Nat) : State :=
  if ¬ (s.lane k).maskDue then s else
  let s := s.setLane k fun l => { l with maskDue := false, maskSq := l.maskSq || !s.releases k }
  if (s.lane k).maskSq then (s.laneEv Reg.TX_EVT.MASK_SQ k).squelchRefresh k else s

/-- R135: the spectrum of lane `k`'s last tick is published from the codes of its 256 blocks. -/
def publishSpec (s : State) (k : Nat) (codes : List Int) : State :=
  let p := specPowers codes
  let tot := p.foldl (· + ·) 0
  let bin (b : Nat) := dbQuarter tot (p.getD b 0)
  let word (n : Nat) := (List.range 6).foldl (fun a q => a + (if 6 * n + q < 16 then bin (6 * n + q) else 0) * 2 ^ (8 * q)) 0
  let s := ((s.put Reg.TX_SPEC.BINS (word 0) [k, 0]).put Reg.TX_SPEC.BINS (word 1) [k, 1]).put Reg.TX_SPEC2.BINS (word 2) [k]
  s.put Reg.TX_SPEC_STAT.TOT (dbQuarter (127 * 127 * codes.length) (codes.foldl (fun a r => a + (r * r).toNat) 0)) [k]

/-- The published value of bin `b`, and its limit. -/
def specBin (s : State) (k b : Nat) : Nat :=
  let w := if b < 12 then s.get Reg.TX_SPEC.BINS [k, b / 6] else s.get Reg.TX_SPEC2.BINS [k]
  bits w (8 * (b % 6) + 7) (8 * (b % 6))
def maskLimit (s : State) (k b : Nat) : Nat :=
  let w := if b < 12 then s.get Reg.TX_MASK.LIMITS [k, b / 6] else s.get Reg.TX_MASK2.LIMITS [k]
  bits w (8 * (b % 6) + 7) (8 * (b % 6))

/-- R136: the bins that violate their limits; a limit of 0 never violates. -/
def violating (s : State) (k : Nat) : List Nat := (List.range 16).filter fun b => s.specBin k b < s.maskLimit k b

/-- R136: the mask is evaluated at step 1 of a tick, and a violation is declared after MASK_PERSIST ticks. -/
def evalMask (s : State) (k : Nat) : State :=
  if s.get Reg.TX_STAT.SQ_NOW [k] ≠ sqNONE then s.setLane k fun l => { l with maskRun := 0 } else
  let v := s.violating k
  let s := s.put Reg.TX_SPEC_STAT.VIOL_BINS (v.foldl (fun a b => a + 2 ^ b) 0) [k]
  if v = [] then s.setLane k fun l => { l with maskRun := 0 } else
  let run := (s.lane k).maskRun + 1
  if run < s.get Reg.SPEC_CTL.MASK_PERSIST [k] then s.setLane k fun l => { l with maskRun := run } else
  let s := (s.laneEv Reg.TX_EVT.MASK_VIOL k).inc Reg.SPEC_VIOL_CNT.COUNT [k]
  s.setLane k fun l => { l with maskRun := 0, maskDue := l.maskDue || s.on Reg.SPEC_CTL.MASK_ACT [k] }

/-- R129: the taps and the entries of the Render set in use. -/
def renderTaps (s : State) (k : Nat) : List Int := (List.range 9).map fun j => s.useS Reg.RND_FIR.TAP [k, s.get Reg.TX_STAT.SET_NOW [k], j]
def renderPd (s : State) (k : Nat) : List Int := (List.range 64).map fun i => s.useS Reg.RND_PD.ENTRY [k, s.get Reg.TX_STAT.SET_NOW [k], i]

/-- R129–R131, R134: what Render and the output stage of lane `k` work with. -/
def renderCfg (s : State) (k : Nat) : RenderCfg :=
  let q := s.squelch k
  ⟨s.renderTaps k, s.renderPd k, s.use Reg.TX_CTL.FIR_MAIN [k], if q = sqIDLE then 2 else if q ≠ sqNONE ∨ (s.lane k).zero then 1 else 0⟩

/-- R126 steps 2 and 3: the level indices sent for data symbols `d`, and the precoder's state after them. -/
def txCoded (s : State) (k : Nat) (d : List Nat) : List Nat × Nat :=
  let coded := s.txPat k = 0 && s.uses Reg.TX_CTL.PRECODE_TX [k]
  let pre := (s.lane k).pre
  let p := if coded then precodeRun pre d else d
  (if s.uses Reg.TX_CTL.TX_POL [k] then p.map (3 - ·) else p, if coded then p.getLastD pre else pre)

/-- The samples that a Render code makes at the output stage (R132, R134). -/
def outSamples (r : RenderSym) (code : Int) : List (Option Int) :=
  List.replicate r.st (if r.cfg.sq = 0 then some code else if r.cfg.sq = 1 then some 0 else none)

/-- R126 steps 2 to 6: lane `k` sends data symbols `d`, `per` in a line DSP cycle. Render forms the symbols whose eight successors are
known, each with the settings that were in use when it was sent. -/
def txEmit (s : State) (k per : Nat) (d : List Nat) : State :=
  let lv := s.txCoded k d
  let x := s.lane k
  let cfg := s.renderCfg k
  let l := x.lamOld ++ x.lam ++ lv.1
  let pend := x.pend ++ (List.range lv.1.length).map fun i => ⟨cfg, x.txCyc + i / per, i % per, 64 / per⟩
  let at0 := l.length - pend.length
  let codes := (pend.take (pend.length - 8)).zipIdx.map fun (p : RenderSym × Nat) =>
    (p.1, renderCode p.1.cfg.taps p.1.cfg.pd p.1.cfg.main l (at0 + p.2))
  let out := codes.flatMap fun p => outSamples p.1 p.2.1
  let sat := (codes.filter (·.2.2)).length
  let s := s.setLane k fun x =>
    { x with pre := lv.2, lam := x.lam ++ lv.1, pend := pend.drop (pend.length - 8), txCyc := x.txCyc + lv.1.length / per
             spec := x.spec ++ (codes.filter fun p => decide (p.1.cyc < 256 ∧ p.1.at_ < 32)).map (·.2.1)
             dacs := (List.range 4).map (subDac out), render := x.render ++ codes.map fun p => (p.1.at_, p.1.st, p.2.1) }
  s.whenB (sat ≠ 0) fun s => (s.inc Reg.TX_SAT_CNT.COUNT [k] sat).laneEv Reg.TX_EVT.SAT k

/-- R16 step 1, R135, R136: the spectrum of the tick that ends is published and held to its mask; a tick that is not measured ends the
run of violating ticks. -/
def txTick (s : State) (k : Nat) : State :=
  let x := s.lane k
  let s := s.setLane k fun x =>
    { x with lamOld := (x.lamOld ++ x.lam).drop (x.lamOld.length + x.lam.length - lamKept), lam := [], txCyc := 0, spec := []
             pend := x.pend.map fun r => { r with cyc := 256 }, gen := { x.gen with first := true } }
  if s.domOn (17 + k) ∧ s.on Reg.SPEC_CTL.SPEC_EN [k] ∧ x.spec.length = 8192 then (s.publishSpec k x.spec).evalMask k
  else s.setLane k fun l => { l with maskRun := 0 }

/-- R137: the Float's correlation search over the last tick, whose result is used once. -/
def obsSearch (s : State) : State :=
  match s.obs.found with
  | none => s
  | some (r, d) =>
    let s := { s with obs := { s.obs with found := none } }
    if s.phase ≠ phOBSERVE_TX ∨ ¬ (s.slice 8).trLock then s
    else if s.on Reg.TXOBS_STAT.ALIGNED then (if corrAtLeast r 8 then s else s.obsLost)
    else
      let s := s.put Reg.TXOBS_STAT.CORR (if 0 < r.1 then min 255 (sqrtRound (r.1 * r.1 * 65536).toNat (r.2.1 * r.2.2).toNat) else 0)
      if corrAtLeast r 9 then
        { (s.put Reg.TXOBS_STAT.ALIGNED 1).put Reg.TXOBS_STAT.DELAY d with obs := { s.obs with start := true } }
      else s

/-- R137, R138: a tick of the observation, on the Float's samples and what the observed lane sent: its correlation is found, its sums and
counts join the period, and a period that is to start starts. The index of a symbol is the one that KEY selects at the end of the tick (log
entry 61). -/
def obsTick (s : State) : State :=
  let ys := s.obs.ys.zipIdx
  let s := { s with obs := { s.obs with ys := [] } }
  if s.phase ≠ phOBSERVE_TX ∨ ¬ (s.slice 8).trLock then s else
  let k := s.floatLane
  let c := s.rxCfg 8
  let base := (s.lane k).lamOld.length
  let l := (s.lane k).lamOld ++ (s.lane k).lam
  let al := s.on Reg.TXOBS_STAT.ALIGNED
  let d := if al then s.get Reg.TXOBS_STAT.DELAY else obsPeak ys l base
  let s := { s with obs := { s.obs with found := some (obsCorr ys l base d, d) } }
  if ¬ al then s else
  let o := s.obs
  let o := if o.run ∧ 0 < o.left then
      let q := obsSums c ys l base d (s.uses Reg.TXOBS_CTL.KEY)
      { o with left := o.left - 1
               sums := (List.range 64).map fun i => o.sums.getD i 0 + q.1.getD i 0
               cnts := (List.range 64).map fun i => o.cnts.getD i 0 + q.2.getD i 0 }
    else o
  let o := if o.start then { TxObs.start_ with run := true, left := 2 ^ s.use Reg.TXOBS_CTL.ACC_TICKS, found := o.found } else o
  { s with obs := o }

/-- R138: a period has ended; its sums and counts are published together, and the next period runs. -/
def obsPublish (s : State) : State :=
  if ¬ (s.obs.run ∧ s.obs.left = 0) then s else
  let o := s.obs
  let keep (i : Nat) := !s.uses Reg.TXOBS_CTL.KEY || decide (i < 16)
  let s := s.each (List.range 64) fun s i =>
    (s.putI Reg.TXOBS_SUM.SUM (if keep i then o.sums.getD i 0 else 0) [i]).put Reg.TXOBS_CNT.COUNT (if keep i then o.cnts.getD i 0 else 0) [i]
  let s := s.put Reg.TXOBS_STAT.PERIOD_SEQ (s.get Reg.TXOBS_STAT.PERIOD_SEQ + 1)
  { s with obs := { TxObs.start_ with run := true, left := 2 ^ s.use Reg.TXOBS_CTL.ACC_TICKS, ys := o.ys, found := o.found } }

end State
end Sys2Proof.Machine
end

