-- ==== Sys2Proof/Machine/HostL.lean ====
section
/-! DEFINITION. Host lanes, crossbar, marker lock, deskew and the references of the line transmit PLLs
(spec/08_host_lanes_and_gearbox.md, R12, R13, R375). -/
namespace Sys2Proof.Machine.State

def hlane (s : State) (n : Nat) : HLane := s.hlanes.getD n (HLane.start n)
def setHlane (s : State) (n : Nat) (f : HLane → HLane) : State := { s with hlanes := upd s.hlanes n f }
def hostEv (s : State) (f : FRef) (i : Nat) : State := (s.ev f [i]).seqEv 7

/-- R160: the physical lane that logical receive lane `n` takes its signal from, and the one that transmit lane `n` drives. -/
def rxPhys (s : State) (n : Nat) : Nat := 8 * (n / 8) + (s.hlane n).rxSel
def txPhys (s : State) (n : Nat) : Nat := 8 * (n / 8) + (s.hlane n).txSel

/-- The logical lanes that feed line lane `k`, and those that it feeds, in the mode and format that its transmit, and receive, stages have in
use (R20, R23, R24). -/
def egHosts (s : State) (k : Nat) : List Nat := modeHosts (s.txMode k) k (s.txFmt k)
def igHosts (s : State) (k : Nat) : List Nat := modeHosts (s.rxMode k) k (s.lockFmt k)

/-- The line lane whose egress logical lane `n` feeds, and the one that feeds it, if any. -/
def egLane (s : State) (n : Nat) : Option Nat := (List.range 8).find? fun k => (s.egHosts k).contains n
def igLane (s : State) (n : Nat) : Option Nat := (List.range 8).find? fun k => (s.igHosts k).contains n

/-- The line lane that logical lane `n` maps to in the applied mode, if any. -/
def hostLane (s : State) (n : Nat) : Option Nat := (List.range 8).find? fun k => (modeHosts s.mode k (s.fmt k)).contains n

/-- The line lane at whose boundaries logical lane `n` takes values: the one it maps to; that of its pair where it maps to none (R20). -/
def hostHome (s : State) (n : Nat) : Nat :=
  (s.hostLane n).getD (n / 2)

/-- The logical lanes that take values at the boundaries of line lane `k`. -/
def homed (s : State) (k : Nat) : List Nat := (List.range 16).filter fun n => s.hostHome n = k

/-- The domain of physical host lane `n` (R385). -/
def hspOn (s : State) (n : Nat) : Bool := s.domOn (27 + n / 2)

/-- R164: a physical lane's signal detect follows its differential input, in mVppd. -/
def hostSignal (s : State) (n amp : Nat) : State :=
  if ¬ s.hspOn n then s else
  if 60 < amp then s.put Reg.HS_RX_STAT.SIG_DET 1 [n]
  else if amp < 40 ∧ s.on Reg.HS_RX_STAT.SIG_DET [n] then (s.put Reg.HS_RX_STAT.SIG_DET 0 [n]).hostEv Reg.HS_EVT.SIG_LOST n
  else s

/-- R164: a physical lane's clock recovery gains lock, which needs signal, or loses it. -/
def hostCdr (s : State) (n : Nat) (lock : Bool) : State :=
  if ¬ s.hspOn n then s else
  if lock then (if s.on Reg.HS_RX_STAT.SIG_DET [n] then s.put Reg.HS_RX_STAT.CDR_LOCK 1 [n] else s)
  else if s.on Reg.HS_RX_STAT.CDR_LOCK [n] then
    ((s.put Reg.HS_RX_STAT.CDR_LOCK 0 [n]).inc Reg.HS_CDR_LOL_CNT.COUNT [n]).hostEv Reg.HS_EVT.CDR_LOST n |>.capEv 55
  else s

/-- R171: pair `k` can be deskewed: Double format, both lanes LOCKED on one type, in one PCS group of two lanes or more. -/
def deskewable (s : State) (k : Nat) : Bool :=
  let a := s.hlane (2 * k)
  let b := s.hlane (2 * k + 1)
  s.egHosts k = [2 * k, 2 * k + 1] && a.locked && b.locked && decide (a.typ = b.typ) && (s.pcsGroup (2 * k)).contains (2 * k + 1)

/-- R177, R178: PAIR_STAT follows the lock of the pair's lanes; a pair that cannot be deskewed is not. -/
def pairRefresh (s : State) (k : Nat) : State :=
  let a := s.hlane (2 * k)
  let b := s.hlane (2 * k + 1)
  let s := (s.put Reg.PAIR_STAT.LOCK_A (b2n a.locked) [k]).put Reg.PAIR_STAT.LOCK_B (b2n b.locked) [k]
  let s := (s.put Reg.PAIR_STAT.TYPE_A (if a.locked then a.typ else 0) [k]).put Reg.PAIR_STAT.TYPE_B (if b.locked then b.typ else 0) [k]
  if s.deskewable k then s else (s.put Reg.PAIR_STAT.DESKEWED 0 [k]).put Reg.PAIR_STAT.SKEW 0 [k]

/-- R171, R172: the deskew delays of lanes A and B whose arrivals differ by `skew` (B minus A). `moves` names the only lane that may be
placed, in a pair where the other stays LOCKED; with none the earlier lane is delayed. None where the range of 256 does not reach. -/
def pairDelays (a b : Nat) (skew : Int) (moves : Option Bool) : Option (Nat × Nat) :=
  match moves with
  | none => if skew.natAbs ≤ 256 then some (skew.toNat, (-skew).toNat) else none
  | some false => let d := (b : Int) + skew; if 0 ≤ d ∧ d ≤ 256 then some (d.toNat, b) else none
  | some true => let d := (a : Int) - skew; if 0 ≤ d ∧ d ≤ 256 then some (a, d.toNat) else none

/-- R171, R172: pair `k` is deskewed where it can be and is not. `moves` names the lane that has just locked (`true` for B) beside one that
carries traffic. -/
def pairPlace (s : State) (k : Nat) (moves : Option Bool) : State :=
  if ¬ s.deskewable k ∨ s.on Reg.PAIR_STAT.DESKEWED [k] then s else
  let a := s.hlane (2 * k)
  let b := s.hlane (2 * k + 1)
  let skew := pairSkew a b
  let s := s.putI Reg.PAIR_STAT.SKEW (satS 10 skew) [k]
  match pairDelays a.delay b.delay skew moves with
  | some (da, db) =>
    let s := s.whenB (da ≠ a.delay) (·.setHlane (2 * k) (·.refill da))
    let s := s.whenB (db ≠ b.delay) (·.setHlane (2 * k + 1) (·.refill db))
    s.put Reg.PAIR_STAT.DESKEWED 1 [k]
  | none => s.hostEv Reg.PAIR_EVT.DESKEW_FAIL k

/-- R168: the found type of a LOCKED lane differs from a selected one. -/
def pcsMismatch (s : State) (n : Nat) : Bool := (s.hlane n).locked && s.pcsCode n ≠ 0 && s.pcsCode n ≠ (s.hlane n).typ

/-- R12: the reference that line transmit PLL `p` has or is to have: a logical host lane, 16 the system PLL, 17 and up a line lane. -/
def ltxAt (s : State) (p : Nat) : TxPll := s.ltx.getD p TxPll.start
def setLtx (s : State) (p : Nat) (f : TxPll → TxPll) : State := { s with ltx := upd s.ltx p f }

/-- R376: a lane counts as holding alignment-marker lock for R12 while its recovered clock is present. -/
def refLane (s : State) (n : Nat) : Bool := (s.hlane n).locked && s.on Reg.HS_RX_STAT.CDR_LOCK [s.rxPhys n]

/-- CKG_STAT's field for a line transmit PLL: 0 A, 1 B. -/
def ltxRef (p : Nat) : FRef := if p = 0 then Reg.CKG_STAT.LTXA_REF else Reg.CKG_STAT.LTXB_REF

/-- R12, R13, R248, R375: the reference that line transmit PLL `p` chooses at this moment: it keeps a host lane of its group that holds lock,
else it takes the lowest one that does, else the system PLL; in LOOP-FAR the lowest LOCKED line lane of its four. -/
def ltxTarget (s : State) (p : Nat) : Nat :=
  let now := (s.ltxAt p).want
  if s.mode = 11 then
    match (if p = 0 then [0, 1, 2, 3] else [4, 5, 6, 7]).find? fun k => s.lockState k = fsLOCKED with
    | some k => 17 + k
    | none => 16
  else
    let group := pllHosts s.mode p s.fmt
    if group.contains now && s.refLane now then now else ((group.filter s.refLane).min?).getD 16

/-- R12: the line transmit PLLs choose, at a moment at which a lane's lock or a group has changed. -/
def ltxChoose (s : State) : State := s.each [0, 1] fun s p => let t := s.ltxTarget p; s.setLtx p fun x => { x with want := t }

/-- R12: at a transmit frame boundary the reference moves where another has been chosen. -/
def ltxMove (s : State) (p : Nat) : State :=
  let t := (s.ltxAt p).want
  if t = s.get (ltxRef p) then s else
  ((s.put (ltxRef p) t).inc Reg.LTX_MOVE_CNT.COUNT).ev Reg.CKG_EVT.LTX_MOVE

/-- R26: line lane `k`'s new host lanes hold lock. -/
def unlockedEnd (s : State) (k : Nat) : State :=
  s.whenB ((s.egHosts k).all fun m => (s.hlane m).locked) (·.setLane k fun l => { l with unlockedTx := false })

/-- R168: logical lane `n` enters LOCKED on the markers it has found; R171: a pair is then deskewed where it can be. -/
def amGained (s : State) (n : Nat) : State :=
  let h := s.hlane n
  if h.locked ∨ h.found.isNone ∨ ¬ s.hspOn (s.rxPhys n) ∨ ¬ s.domOn (17 + s.hostHome n) then s else
  let other := s.hlane (n + 1 - 2 * (n % 2))
  let s := s.setHlane n HLane.lock
  let s := s.whenB (s.pcsMismatch n) (·.hostEv Reg.PAIR_EVT.PCS_MISMATCH (n / 2))
  let s := match s.egLane n with | some k => s.unlockedEnd k | none => s
  ((s.pairRefresh (n / 2)).pairPlace (n / 2) (if other.locked then some (decide (n % 2 = 1)) else none)).ltxChoose

/-- R168: logical lane `n` leaves LOCKED; a loss counts, a re-entry to hunt that a Set causes does not. -/
def amLeave (s : State) (n : Nat) (counted : Bool) : State :=
  if ¬ (s.hlane n).locked then s.setHlane n HLane.unlock else
  let s := s.setHlane n HLane.unlock
  let s := if counted then (s.inc Reg.AM_LOL_CNT.COUNT [n]).pmc (0x60 + n) else s
  (((s.hostEv Reg.PAIR_EVT.AM_LOST (n / 2)).capEv 54).pairRefresh (n / 2)).ltxChoose

/-- R168: AM_LOL consecutive expected markers of logical lane `n` have been missed. -/
def amMissed (s : State) (n : Nat) : Bool := (s.hlane n).locked && decide (s.get Reg.GBX_CFG.AM_LOL ≤ (s.hlane n).misses)

/-- R178: the lanes of a pair whose gearbox or host domain goes off are no longer locked; no event is set. -/
def amOff (s : State) (n : Nat) : State := ((s.setHlane n HLane.unlock).pairRefresh (n / 2)).ltxChoose

/-- R13, R26, R170, R174: the egress symbols of logical lane `n` are the unlocked payload. -/
def unlockedPayload (s : State) (n : Nat) : Bool :=
  !(s.hlane n).locked || decide ((s.hlane n).dps ≠ 2) || (match s.egLane n with | some k => (s.lane k).unlockedTx | none => true)

/-- What a host transmitter sends. -/
inductive HostOut where
  | traffic | fill | idle
  deriving DecidableEq, Repr

/-- R24, R174, R176: what logical transmit lane `n` sends: a lane that no line lane feeds is squelched; one whose line lane is not LOCKED, or
delivers nothing, sends what NOLOCK_TX selects until a received frame boundary at which it is LOCKED. In LOOP-NEAR the host lanes loop back
by themselves (R248). -/
def hostOut (s : State) (n : Nat) : HostOut :=
  let none_ := if s.on Reg.GBX_CFG.NOLOCK_TX then HostOut.idle else HostOut.fill
  let h := s.hlane n
  if h.dps = 0 then .idle
  else if s.rxMode (s.hostHome n) = 10 then (if h.dps = 2 then .traffic else none_)
  else match s.igLane n with
    | none => .idle
    | some k => if (s.frame k).st ≠ fsLOCKED ∨ h.dps ≠ 2 ∨ (s.lane k).dead ∨ ¬ h.open_ then none_ else .traffic

/-- Where `inUse` keeps HS_PAT_CTL as the transmitter of physical host lane `n` has taken it (its receiver takes the register itself). -/
def hsTxPatAddr (n : Nat) : Nat := 0x1000040 + n
def hsTxPat (s : State) (n : Nat) : Nat :=
  bits (RegFile.get s.inUse (hsTxPatAddr n)).toNat Reg.HS_PAT_CTL.TX_PAT.hi Reg.HS_PAT_CTL.TX_PAT.lo
def hsInject (s : State) (n : Nat) : Bool := (RegFile.get s.inUse (hsTxPatAddr n)).toNat.testBit Reg.HS_PAT_CTL.INJECT.lo

/-- R165: the settings in use of a physical host transmitter: taps c(−2) to c(3) in 2^−8, and the amplitude code. -/
def hostTaps (s : State) (n : Nat) : List Int × Nat :=
  if s.uses Reg.HS_TX_CTL.TX_EQ_SRC [n] then
    ([s.useS Reg.HS_TX_FIR0.CM2 [n], s.useS Reg.HS_TX_FIR0.CM1 [n], s.useS Reg.HS_TX_FIR0.C0 [n], s.useS Reg.HS_TX_FIR1.C1 [n],
      s.useS Reg.HS_TX_FIR1.C2 [n], s.useS Reg.HS_TX_FIR1.C3 [n]], s.use Reg.HS_TX_CTL.TX_AMP [n])
  else
    let p : Int := s.use Reg.HS_TX_CTL.CMIS_PRE [n]
    let q : Int := s.use Reg.HS_TX_CTL.CMIS_POST [n]
    ([0, -8 * p, 256 - 8 * (p + q), -8 * q, 0, 0], 12 + 6 * s.use Reg.HS_TX_CTL.CMIS_AMP [n])

/-- R165: HS_TX_FIR0, HS_TX_FIR1 and HS_TX_CTL as they read at the live address. -/
def hostFirWord (s : State) (n i : Nat) : Word :=
  let c (j : Nat) := enc 10 ((s.hostTaps n).1.getD (3 * i + j) 0)
  BitVec.ofNat 48 (c 0 * 2 ^ 20 + c 1 * 2 ^ 10 + c 2)
def hostCtlWord (s : State) (n : Nat) : Word :=
  BitVec.ofNat 48 (setBits (s.liveAt (Reg.HS_TX_CTL.addr [n])).toNat 4 0 (s.hostTaps n).2)

/-- R45, R163: the end of a tick of a physical host lane: the adaptation commits what it found over the tick. -/
def hostTick (s : State) (n : Nat) (m : HostMeas) : State :=
  if ¬ s.hspOn n then s else
  let s := s.put Reg.HS_RX_STAT.SNR m.snr.toNat [n]
  let s := { s with hrx := upd s.hrx n fun x => { x with gen := { x.gen with first := true } } }
  if ¬ s.uses Reg.HS_RX_CTL.ADAPT_EN [n] ∨ ¬ s.on Reg.HS_RX_STAT.CDR_LOCK [n] then s else
  let s := s.put Reg.HS_RX_STAT.CTLE_NOW (if s.uses Reg.HS_RX_CTL.CTLE_OVR [n] then s.use Reg.HS_RX_CTL.CTLE_PEAK [n] else m.ctle.toNat) [n]
  let ffe := (List.range 8).map fun i => if i = 2 then clampI 128 384 (m.ffe.getD i 256) else clampI (-128) 128 (m.ffe.getD i 0)
  let dfe := (List.range 3).map fun i => clampI (-64) (if i = 0 then 192 else 64) (m.dfe.getD i 0)
  { s with hrx := upd s.hrx n fun x => { x with ffe := ffe, dfe := dfe } }

/-- R14, R166, R248: the rotation of logical transmit lane `n` over the next tick: that of the line lane that feeds it, on average over the
tick that ends, held from a loss of frame lock to the first tick boundary with it; none in LOOP-NEAR, PATTERN and CHARACTERISE. -/
def rateTick (s : State) (n : Nat) : State :=
  if s.mode = 10 ∨ s.mode = 12 ∨ s.mode = 13 then s.setHlane n fun h => { h with rate := 0 } else
  match s.igLane n with
  | none => s
  | some k => s.setHlane n fun h => { h with rate := (s.lane k).rate }

/-- R199, R201: the time-transparent group of line lane `k`, and whether the engine is in its path. -/
def ttGroup (s : State) (k : Nat) : Nat := if (s.mode = 3 ∨ s.mode = 8) ∧ 4 ≤ k then 1 else 0
def ttPath (s : State) (k : Nat) : Bool :=
  s.isT && (modeLanes s.mode).contains k && s.on Reg.TTE_CFG.TT_EN [s.ttGroup k]

/-- R20, R161, R162, R174, R201: the egress gearbox and host receivers of line lane `k` take the live values. `oldHosts` fed the lane
before. -/
def hostRxBoundary (s : State) (k : Nat) (oldHosts : List Nat) : State :=
  let s := s.each (s.homed k) fun s n =>
    let sel := bits (s.get Reg.XBAR_RX.SEL) (3 * n + 2) (3 * n)
    let tt := s.ttPath k
    let moved := sel ≠ (s.hlane n).rxSel ∨ tt ≠ (s.hlane n).tt
    let s := if moved then s.amLeave n false else s
    let s := s.setHlane n fun h => { h with rxSel := sel, dps := bits (s.get Reg.DPS.CODES) (2 * n + 1) (2 * n), tt := tt
                                            open_ := h.open_ && (tt == h.tt) }
    let ph := s.rxPhys n
    let old := s.use Reg.HS_PAT_CTL.RX_PAT [ph]
    let s := (s.take (Reg.HS_RX_CTL.addr [ph])).take (Reg.HS_PAT_CTL.addr [ph])
    let s := if s.uses Reg.HS_RX_CTL.CTLE_OVR [ph] then s.put Reg.HS_RX_STAT.CTLE_NOW (s.use Reg.HS_RX_CTL.CTLE_PEAK [ph]) [ph] else s
    if old ≠ s.use Reg.HS_PAT_CTL.RX_PAT [ph] then s.patSelect true ph (s.use Reg.HS_PAT_CTL.RX_PAT [ph]) else s
  let hosts := s.egHosts k
  let s := if hosts ≠ oldHosts ∧ hosts ≠ [] then
    s.setLane k fun l => { l with unlockedTx := !hosts.all fun m => (s.hlane m).locked } else s
  ((s.pairRefresh k).pairPlace k none).ltxChoose

/-- R20, R160, R161, R176: the host transmitters of line lane `k` take the live values; those that a LOCKED line lane feeds carry traffic. -/
def hostTxBoundary (s : State) (k : Nat) : State :=
  let s := s.each (s.homed k) fun s n =>
    let s := s.setHlane n fun h => { h with txSel := bits (s.get Reg.XBAR_TX.SEL) (3 * n + 2) (3 * n) }
    let ph := s.txPhys n
    let s := ((s.take (Reg.HS_TX_CTL.addr [ph])).take (Reg.HS_TX_FIR0.addr [ph])).take (Reg.HS_TX_FIR1.addr [ph])
    { s with inUse := RegFile.set s.inUse (hsTxPatAddr ph) (s.liveAt (Reg.HS_PAT_CTL.addr [ph])) }
  let up := decide ((s.frame k).st = fsLOCKED)
  s.each (s.igHosts k) fun s n => s.setHlane n fun h => { h with open_ := up }

/-- R176, R201: a received frame boundary of line lane `k`: its host lanes carry traffic while it is LOCKED. -/
def openHosts (s : State) (k : Nat) : State :=
  if k < 8 ∧ (s.frame k).st = fsLOCKED then s.each (s.igHosts k) fun s n => s.setHlane n fun h => { h with open_ := true } else s

end Sys2Proof.Machine.State
end

