-- ==== Sys2Proof/Machine/Stamps.lean ====
section
/-! DEFINITION. Timestamp points of line and host symbols, and the latency reports (spec/09_plumb_timebase_and_latency.md R189, R190, R196,
R197). -/
namespace Sys2Proof.Machine

/-- R190: symbols of a line lane in a format, of a host lane, and bits of an electrical Scrim port, in a crystal period. -/
def lineGrid (fmt : Nat) : Nat := if fmt = fmtDOUBLE then 1452 else 726
def hostGrid : Nat := 680
def portGrid : Nat := 20

/-- R196: a measurement under way: the frames whose earlier timestamp is taken, by frame number; and what the tick has brought: the
latencies, oldest first, and whether a frame completed unmeasured. -/
def LatRun.step (r : LatRun) (ok : Bool) (starts ends : List (Nat × Int)) : LatRun :=
  let w := if ok then starts.foldl (fun w q => q :: w.filter (·.1 ≠ q.1)) r.wait else []
  ends.foldl (fun r e => match r.wait.find? (·.1 = e.1) with
    | some q => { r with wait := r.wait.filter (·.1 ≠ e.1), done := r.done ++ [(e.2 - q.2).toNat % 2 ^ 47] }
    | none => { r with bad := true }) { r with wait := w }

namespace State

/-- R10, R97, R190: the phase word, less the live PH_OFS, of line lane `k`'s serving slice in the line DSP cycle of a symbol of the present
tick. -/
def lineWord (s : State) (k : Nat) (p : Stamp) : Int :=
  let sl := s.serving k
  let x := s.slice sl
  let i := p.place.toNat / s.symsOf sl
  let theta := if i < x.thetas.length then x.thetas.getD (x.thetas.length - 1 - i) 0 else x.coefs.theta
  sx 24 (s.phaseWordOf sl theta) - s.getS Reg.TR_CTL.PH_OFS [k]

/-- R190: the delay from line lane `k`'s input: the Float's while it serves the lane. -/
def lineRxDly (s : State) (k : Nat) : Int := if s.serving k = 8 then s.dly Reg.DLY_FLT.DLY k else s.dly Reg.DLY_LRX.DLY k

/-- R189, R190: the elapsed count, and the time, of a symbol at the input and at the output of line lane `k`, and the elapsed count at the
input and at the output of physical host lane `ph`; in 2^−16 ns. -/
def lineRxEl (s : State) (k : Nat) (p : Stamp) : Int := s.stampEl (lineGrid (s.lockFmt k)) p (s.lineWord k p) - s.lineRxDly k
def lineRxTime (s : State) (k : Nat) (p : Stamp) : Int := s.stampTime (lineGrid (s.lockFmt k)) p (s.lineWord k p) - s.lineRxDly k
def lineTxEl (s : State) (k : Nat) (p : Stamp) : Int := s.stampEl (lineGrid (s.txFmt k)) p p.word.toInt + s.dly Reg.DLY_LTX.DLY k
def lineTxTime (s : State) (k : Nat) (p : Stamp) : Int := s.stampTime (lineGrid (s.txFmt k)) p p.word.toInt + s.dly Reg.DLY_LTX.DLY k
def hostRxEl (s : State) (ph : Nat) (p : Stamp) : Int := s.stampEl hostGrid p p.word.toInt - s.dly Reg.DLY_HRX.DLY ph
def hostRxTime (s : State) (ph : Nat) (p : Stamp) : Int := s.stampTime hostGrid p p.word.toInt - s.dly Reg.DLY_HRX.DLY ph
def hostTxEl (s : State) (ph : Nat) (p : Stamp) : Int := s.stampEl hostGrid p p.word.toInt + s.dly Reg.DLY_HTX.DLY ph

/-- R243: the time of symbol `n` of a header after the header's first symbol. -/
def markUi (s : State) (j n : Nat) : Int :=
  if 8 ≤ j then 0 else if s.fmt j = fmtDOUBLE then rhe ((32 + 5 * n) * 65536 * 8 : Nat) 1815 else rhe (5 * n * 65536 * 16 : Nat) 1815

/-- R243: the time at which symbol `n` of a header, or of an electrical port, arrives on and departs from link `j`. -/
def arrivalTime (s : State) (j n : Nat) (p : Stamp) : Int :=
  if 8 ≤ j then s.stampTime portGrid p p.word.toInt + s.getS Reg.TT_DLY.RX [j - 8] else s.lineRxTime j p + s.markUi j n
def departTime (s : State) (j n : Nat) (p : Stamp) : Int :=
  if 8 ≤ j then s.stampTime portGrid p p.word.toInt + s.getS Reg.TT_DLY.TX [j - 8] else s.lineTxTime j p + s.markUi j n

/-- R197: frames of line lane `k` with logical lane `n` are measured: by direction, the conditions that concern it (log entry 65). -/
def egMeasured (s : State) (k n : Nat) : Bool :=
  let h := s.hlane n
  s.txMode k ≠ 0 && decide (s.txMode k < 10) && h.locked && h.dps = 2 && s.squelch k = 0
def igMeasured (s : State) (k n : Nat) : Bool :=
  s.rxMode k ≠ 0 && decide (s.rxMode k < 10) && (s.frame k).st = fsLOCKED && (s.hlane n).dps = 2 && s.hostOut n = .traffic

/-- R196, R197: line lane `k`'s measurement `i` (0 and 1 egress from host lane A and B, 2 and 3 ingress) over a span. -/
def latStep (s : State) (k i : Nat) (m : LatMeas) : LatRun :=
  let r := (s.lane k).lat.getD i LatRun.start
  let side (l : List (Bool × BitVec 4 × Stamp)) := (l.filter fun q => b2n q.1 = i % 2).map (·.2)
  let mk (f : Stamp → Int) (l : List (BitVec 4 × Stamp)) : List (Nat × Int) := l.map fun q => (q.1.toNat, f q.2)
  if i < 2 then
    match (s.egHosts k)[i]? with
    | some n => r.step (s.egMeasured k n) (mk (s.hostRxEl (s.rxPhys n)) (side m.hostRx)) (mk (s.lineTxEl k) m.lineTx)
    | none => { r with wait := [] }
  else
    match (s.igHosts k)[i - 2]? with
    | some n => r.step (s.igMeasured k n) (mk (s.lineRxEl k) m.lineRx) (mk (s.hostTxEl (s.txPhys n)) (side m.hostTx))
    | none => { r with wait := [] }

/-- R196: line lane `k`'s measurements over a span. -/
def latFlow (s : State) (k : Nat) (m : LatMeas) : State :=
  if ¬ s.plumbOn then s else s.setLane k fun l => { l with lat := (List.range 4).map fun i => s.latStep k i m }

/-- R196, R197: the latency reports of line lane `k`, from the frames completed in the tick that ends: the last value of each
host lane, and the smallest and largest of host lane A. -/
def latPublish (s : State) (k : Nat) : State :=
  let run (i : Nat) := (s.lane k).lat.getD i LatRun.start
  let word (i x : Nat) := BitVec.ofNat 48 (if (run i).done = [] then 0 else b2n (!(run i).bad) * 2 ^ 47 + x)
  let s' := s.each (List.range 4) fun s i => s.setLive (Reg.LAT.addr [k, i]) (word i ((run i).done.getLastD 0))
  let s' := s'.each [0, 2] fun s i =>
    (s.setLive (Reg.LAT.addr [k, i + 4]) (word i ((run i).done.foldl min ((run i).done.headD 0)))).setLive (Reg.LAT.addr [k, i + 5])
      (word i ((run i).done.foldl max 0))
  s'.setLane k fun l => { l with lat := l.lat.map fun r => { r with done := [], bad := false } }

end State
end Sys2Proof.Machine
end

