-- ==== Sys2Proof/Machine/Capture.lean ====
section
/-! DEFINITION. The capture engine (spec/17_capture_engine.md). -/
namespace Sys2Proof.Machine

/-- The engine states of R364. -/
def ceIDLE : Nat := 0
def cePREFILL : Nat := 1
def ceREADY : Nat := 2
def cePENDING : Nat := 3
def cePOST : Nat := 4
def ceREARM : Nat := 5
def ceFULL : Nat := 6
def ceSUSPENDED : Nat := 7

/-- R357: the width of a source's item, 0 where it has none, and whether it is scalar. -/
def itemWidth (sel : Nat) : Nat := [0, 16, 48, 16, 16, 48, 24, 24, 48].getD sel 0
def itemScalar (sel : Nat) : Bool := sel = 1 || sel = 3 || sel = 4 || sel = 6 || sel = 7

/-- R357: SUBSEL is in the range that SEL allows; `single` says that a line DSP cycle carries 32 symbols and not 64. -/
def subselOk (sel sub : Nat) (single : Bool) : Bool :=
  let syms := if single then 32 else 64
  if sel = 2 then decide (sub ≤ 58)
  else if sel = 3 ∨ sel = 4 then decide (sub < syms)
  else if sel = 5 then decide (8 * sub < 2 * syms)
  else if sel = 7 then decide (sub < 4)
  else if sel = 8 then decide (sub + 6 ≤ syms)
  else true

/-- A capture cycle taken (R356): the instant at which it starts, the item of each source that has one, scalar items as integers and
others as words (R357), and the symbol that carries a TRIG sent from it on the lowest-numbered link (R245). -/
structure CapCycle where
  start : Instant
  items : List (Option Int)
  depart : Stamp
  deriving DecidableEq, Repr

/-- One line DSP cycle at the nominal rate in 2^−16 ns, rounded up: 1,024/3,630 ns (R330). -/
def capCycle16 : Int := 18488

namespace State

def cp (s : State) (f : Cap → Cap) : State := { s with cap := f s.cap }
def capState (s : State) : Nat := s.get Reg.CAP_STAT.STATE
def setCapState (s : State) (v : Nat) : State := s.put Reg.CAP_STAT.STATE v
def engineEv (s : State) (f : FRef) : State := (s.ev f).seqEv 11
def capNseg (s : State) : Nat := s.get Reg.CAP_CFG.NSEG_CODE + 1
def capSel (s : State) (src : Nat) : Nat := s.get Reg.CAP_SRC.SEL [src]
def strLen (s : State) (x : Nat) : Nat := s.get Reg.CAP_STR_A.LEN [x]
def strPre (s : State) (x : Nat) : Nat := s.get Reg.CAP_STR_B.PRE [x]

/-- R358: the enabled streams, in increasing order. -/
def capStreams (s : State) : List Nat := (List.range 32).filter fun x => s.on Reg.CAP_STR_A.EN [x]

/-- R356: the capture lane has a running line DSP clock. -/
def capClock (s : State) : Bool :=
  let k := s.get Reg.CAP_CFG.LANE
  s.domOn (if k = 8 then 26 else 17 + k)

/-- R360: the addresses of a stream's region: first, and one past the last. -/
def capRegion (s : State) (x : Nat) : Nat × Nat :=
  let b := s.get Reg.CAP_STR_A.BASE [x]
  (b, b + s.capNseg * s.strLen x)

/-- R357, R358, R360, R365: the ARM_RESULT codes that the layout gives; none where it is right. -/
def armFails (s : State) : List Nat :=
  let l := s.capStreams
  let single := !(s.get Reg.CAP_CFG.LANE = 8) && s.fmt (s.get Reg.CAP_CFG.LANE) ≠ fmtDOUBLE
  let overlap := l.any fun x => decide (2 ^ 21 < (s.capRegion x).2) || l.any fun y =>
    x ≠ y && decide ((s.capRegion x).1 < (s.capRegion y).2) && decide ((s.capRegion y).1 < (s.capRegion x).2)
  let bad := (List.range 4).any fun i =>
    decide (8 < s.capSel i) || !subselOk (s.capSel i) (s.get Reg.CAP_SRC.SUBSEL [i]) single
  let shape := l.any fun x => (decide (2 ≤ x % 8) && !itemScalar (s.capSel (x / 8))) || (x % 8 = 4 && s.strLen x ≠ 256)
  (if overlap then [1] else []) ++ (if l.any fun x => decide (s.strLen x ≤ s.strPre x) then [2] else []) ++
    (if bad || shape then [3] else []) ++ (if l = [] then [4] else []) ++ (if s.capClock then [] else [5]) ++
    (if s.level = 3 then [6] else [])

/-- The first word of a stream's present segment. -/
def segBase (s : State) (x : Nat) : Nat := s.get Reg.CAP_STR_A.BASE [x] + s.get Reg.CAP_STAT.SEG_NOW * s.strLen x

/-- R358–R362: the engine enters PREFILL with its streams anew, the Stencil in state 0. -/
def enterPrefill (s : State) : State :=
  let s := (s.setCapState cePREFILL).put Reg.CAP_STAT.STENCIL 0
  let s := s.put Reg.CAP_STAT.SEG_NOW (s.cap.num % s.capNseg)
  let s := s.cp fun c => { c with
    cnt := 0, tmr := 0, pulses := 0, streams := s.capStreams.map fun x => ⟨x, 0, 0, 0, 0, 0, 0, 0, 0, none, none⟩
    pend := none, trig := none, dist := false, half := false, ignored := 0, rearm := none }
  s.each (s.capStreams.filter fun x => x % 8 = 4) fun s x =>
    s.memWrites memCAP (s.segBase x) (List.replicate 256 0) .device

/-- R359: a stream's word is written at its place in the segment. -/
def putStreamWord (s : State) (x words w : Nat) : State :=
  s.memWrite memCAP (s.segBase x + words % max 1 (s.strLen x)) (BitVec.ofNat 48 w) .device

/-- R366: the stream has written its last word. -/
def streamDone (s : State) (t : CapStream) : Bool :=
  t.x % 8 = 4 || match t.trig with
  | some w => decide (w + s.strLen t.x ≤ t.words + s.strPre t.x)
  | none => false

/-- R358, R361: a stream takes the item of its source in a cycle. -/
def streamItem (s : State) (t : CapStream) (v : Int) : State × CapStream :=
  let src := t.x / 8
  let width := itemWidth (s.capSel src)
  let n := s.get Reg.CAP_SRC.WIN [src] + 1
  let r := t.x % 8
  let t := { t with got := some t.words }
  if r ≤ 1 then
    let take := r = 0 ∨ t.skip = 0
    let t := if r = 1 then { t with skip := (t.skip + 1) % (s.get Reg.CAP_SRC.DEC [src] + 1) } else t
    if ¬ take then (s, { t with got := none }) else
    let per := 48 / max 1 width
    let buf := t.buf * 2 ^ width + enc width v
    if t.fill + 1 < per then (s, { t with buf := buf, fill := t.fill + 1 })
    else (s.putStreamWord t.x t.words buf, { t with buf := 0, fill := 0, words := t.words + 1 })
  else if r = 2 then
    let lo := if t.wn = 0 then v else min t.lo v
    let hi := if t.wn = 0 then v else max t.hi v
    if t.wn + 1 < n then (s, { t with wn := t.wn + 1, lo := lo, hi := hi })
    else (s.putStreamWord t.x t.words (enc 24 lo * 2 ^ 24 + enc 24 hi), { t with wn := 0, words := t.words + 1 })
  else if r = 3 then
    let sum := (if t.wn = 0 then 0 else t.sum) + v
    if t.wn + 1 < n then (s, { t with wn := t.wn + 1, sum := sum })
    else (s.putStreamWord t.x t.words (enc 48 sum), { t with wn := 0, words := t.words + 1 })
  else
    let bin := (clampI 0 255 (v / 2 ^ s.get Reg.CAP_SRC.HSHIFT [src] + 128)).toNat
    let (s, ok, w) := s.memRead memCAP (s.segBase t.x + bin) .device
    (s.memWrite memCAP (s.segBase t.x + bin) (BitVec.ofNat 48 (min (2 ^ 48 - 1) ((if ok then w.toNat else 0) + 1))) .device, t)

/-- R358: every stream takes its item of a cycle. -/
def capItems (s : State) (c : CapCycle) : State :=
  let r := s.cap.streams.foldl (fun (p : State × List CapStream) t =>
    let t := { t with got := none }
    match c.items.getD (t.x / 8) none with
    | none => (p.1, p.2 ++ [t])
    | some v =>
      if p.1.streamDone t && t.x % 8 ≠ 4 then (p.1, p.2 ++ [t])
      else let q := p.1.streamItem t v; (q.1, p.2 ++ [q.2])) (s, [])
  r.1.cp fun e => { e with streams := r.2, half := e.half || decide (1 ≤ s.level) }

/-- R366: every stream has written its PRE words. -/
def prefilled (s : State) : Bool := s.cap.streams.all fun t => t.x % 8 = 4 || decide (s.strPre t.x ≤ t.words)

/-- R366: the items of a cycle are taken, and a prefilled engine is READY in that cycle. -/
def capFront (s : State) (c : CapCycle) : State :=
  let s := s.capItems c
  if s.capState = cePREFILL ∧ s.prefilled then s.setCapState ceREADY else s

/-- What a capture cycle taken covers, in 2^−16 ns: at the halved rate two cycles (R356). -/
def capLen (s : State) : Int := if 1 ≤ s.level then 2 * capCycle16 else capCycle16

/-- R362, R363: the events that the Stencil sees in a cycle. -/
def capEvents (s : State) (c : CapCycle) : BitVec 64 :=
  let out (i : Nat) : Bool := itemScalar (s.capSel i) && match c.items.getD i none with
    | some v => decide (v < s.getS Reg.CAP_CMP.LO [i]) || decide (s.getS Reg.CAP_CMP.HI [i] < v)
    | none => false
  let t := s.timeAt c.start.toNat
  s.cap.pulses ||| BitVec.ofNat 64 ((List.range 4).foldl (fun a i => a + b2n (out i) * 2 ^ (32 + i)) (2 ^ 62)) |||
    (if s.cap.trigs.any fun x => decide (x < t + s.capLen) then BitVec.ofNat 64 (2 ^ 42) else 0) |||
    (if t / sec16 ≠ (t + s.capLen) / sec16 then BitVec.ofNat 64 (2 ^ 40) else 0)

/-- What the Stencil does in a cycle: nothing, the counter's limit or the timer's, with the action and the next state (R362). -/
inductive StencilStep where
  | stay (cnt tmr : Nat)
  | count (act next : Nat)
  | timeout (act next : Nat)
  deriving DecidableEq, Repr

/-- R362: the Stencil's step on the events of a cycle. -/
def stencilStep (s : State) (ev : BitVec 64) : StencilStep :=
  let q := s.get Reg.CAP_STAT.STENCIL
  let mask := s.get Reg.ST_EVLO.EVENTS [q] + s.get Reg.ST_CTL.EVENTS [q] * 2 ^ 48
  let hit := ev &&& BitVec.ofNat 64 mask
  let cond := decide (mask ≠ 0) && (if s.on Reg.ST_CTL.MODE [q] then decide (hit.toNat = mask) else decide (hit ≠ 0))
  let cnt := if cond then (s.cap.cnt + 1) % 2 ^ 32 else if s.on Reg.ST_CTL.CONSEC [q] then 0 else s.cap.cnt
  let tmr := (s.cap.tmr + 1) % 2 ^ 32
  let cl := s.get Reg.ST_CNT.CNT_LIM [q]
  let tl := s.get Reg.ST_TMR.TMR_LIM [q]
  if cl ≠ 0 ∧ cnt = cl then .count (s.get Reg.ST_CTL.ACT [q]) (s.get Reg.ST_CTL.NEXT [q])
  else if tl ≠ 0 ∧ tmr = tl then .timeout (s.get Reg.ST_CTL.TMR_ACT [q]) (s.get Reg.ST_CTL.TMR_NEXT [q])
  else .stay cnt tmr

/-- R368, R369: a capture ends: partial words are written, the index record is entered, and the engine goes to `st`. -/
def capEnd (s : State) (st : Nat) (suspended aborted : Bool) : State :=
  let s := s.each s.cap.streams fun s t =>
    if t.fill = 0 ∨ s.streamDone t then s else
    let width := itemWidth (s.capSel (t.x / 8))
    let s := s.putStreamWord t.x t.words (t.buf * 2 ^ (48 - width * t.fill))
    s.cp fun e => { e with streams := e.streams.map fun u => if u.x = t.x then { u with words := u.words + 1, fill := 0 } else u }
  let partly := s.cap.streams.any fun t => !s.streamDone t
  let seq := (s.get Reg.CAP_STAT.CAP_SEQ + 1) % 65536
  let flags := b2n s.cap.trig.isNone + 2 * b2n partly + 4 * b2n s.cap.dist + 8 * b2n s.cap.half + 16 * b2n suspended + 32 * b2n aborted
  let (w1, w2) := match s.cap.trig with | some t => (secWord t, nsWord t) | none => (0, 0)
  let n := s.cap.streams.length
  let word (t : CapStream) : Word :=
    let len := max 1 (s.strLen t.x)
    if t.x % 8 = 4 then BitVec.ofNat 48 (t.x * 2 ^ 43 + 256 * 2 ^ 21) else
    let oldest := match t.trig with | some w => w - s.strPre t.x | none => t.words - len
    BitVec.ofNat 48 (t.x * 2 ^ 43 + (t.words - oldest) * 2 ^ 21 + oldest % len)
  let head : List Word := [BitVec.ofNat 48 (8 * 2 ^ 44 + s.get Reg.CAP_STAT.SEG_NOW * 2 ^ 16 + seq % 256 * 2 ^ 8 + flags), w1, w2,
    BitVec.ofNat 48 (min 65535 s.cap.ignored * 2 ^ 32 + s.get Reg.CAP_STAT.STENCIL * 2 ^ 29 + n * 2 ^ 24)]
  let body := (List.range ((n + 3) / 4)).map fun i => (List.range 4).map fun j => ((s.cap.streams[4 * i + j]?).map word).getD 0
  let r := s.get Reg.CAP_CFG.RING
  let s := if r = 0 then s else s.enterRecord r ringCAPIDX (head :: body)
  let s := (s.put Reg.CAP_STAT.CAP_SEQ seq).put Reg.CAP_STAT.UNRELEASED (min 15 (s.get Reg.CAP_STAT.UNRELEASED + 1))
  let s := (s.engineEv Reg.CAP_EVT.DONE).setCapState st
  s.cp fun e => { e with num := e.num + 1, streams := [], pulses := 0, trigs := [], pend := none
                         rearm := if st = ceREARM then some (s.thm.tick + 2) else none }

/-- R368: where a completed or stopped capture goes. -/
def capAfter (s : State) : Nat := if s.on Reg.CAP_CFG.AUTO_REARM then ceREARM else ceIDLE

/-- R366: the present cycle is the trigger cycle. -/
def capTrigger (s : State) (c : CapCycle) : State :=
  let s := s.cp fun e => { e with trig := some (s.timeAt c.start.toNat), pend := none
                                  streams := e.streams.map fun t => { t with trig := some (t.got.getD t.words) } }
  s.setCapState cePOST

/-- R364: an ignored trigger. -/
def capIgnore (s : State) (f : FRef) : State :=
  ((s.inc f).engineEv Reg.CAP_EVT.IGNORED).cp fun e => { e with ignored := min 65535 (e.ignored + 1) }

/-- R245: a TRIG goes out on every UP link of TRIG_LINKS. -/
def trigLinks (s : State) : List Nat := (List.range 10).filter fun j => s.linkUp j && (s.get Reg.SCR_CFG.TRIG_LINKS).testBit j

/-- R362, R366, R368: an action of the Stencil. -/
def capAction (s : State) (act : Nat) (c : CapCycle) : State :=
  let st := s.capState
  if act = 1 then
    if st = cePREFILL then s.capIgnore Reg.CAP_EARLY_CNT.COUNT
    else if st = ceREARM then s.capIgnore Reg.CAP_REARM_CNT.COUNT
    else if st = ceREADY then
      if ¬ s.on Reg.CAP_CFG.DIST then s.capTrigger c else
      let at_ := s.departTime (s.trigLinks.headD 0) 0 c.depart + s.get Reg.SCR_CFG2.TRIG_LAT * 65536
      let s := s.each s.trigLinks fun s j => s.setLink j fun l => { l with tx := { l.tx with trig := true } }
      (s.setCapState cePENDING).cp fun e => { e with pend := some at_, dist := true }
    else s.capIgnore Reg.CAP_BUSY_CNT.COUNT
  else if act = 2 then
    if st = cePENDING then (s.setCapState ceREADY).cp fun e => { e with pend := none, dist := false }
    else s.capEnd s.capAfter false false
  else s

/-- R362, R368: the Stencil moves to state `q`; at throttle level T3 the engine is suspended there. -/
def stencilMove (s : State) (act q : Nat) (c : CapCycle) : State :=
  let s := (s.cp fun e => { e with cnt := 0, tmr := 0 })
  let s := s.capAction act c
  let s := if 1 ≤ s.capState ∧ s.capState ≤ 4 then s.put Reg.CAP_STAT.STENCIL q else s
  if s.level = 3 ∧ 1 ≤ s.capState ∧ s.capState ≤ 4 then s.capEnd ceSUSPENDED true false else s

/-- R366: the trigger cycle of a pending distributed trigger has come. -/
def pendDue (s : State) (c : CapCycle) : Bool :=
  s.capState = cePENDING && match s.cap.pend with
  | some t => decide (t < s.timeAt c.start.toNat + s.capLen)
  | none => false

/-- R366: the last stream has written its last word. -/
def capComplete (s : State) : Bool := s.capState = cePOST && s.cap.streams.all s.streamDone

/-- R362, R366: what follows the items of a cycle. -/
def capBack (s : State) (c : CapCycle) : State :=
  let ev := s.capEvents c
  let t := s.timeAt c.start.toNat
  let s := s.cp fun e => { e with pulses := 0, trigs := e.trigs.filter fun x => decide (t + s.capLen ≤ x) }
  let s := if s.pendDue c then s.capTrigger c else s
  let s := match s.stencilStep ev with
    | .stay cnt tmr => s.cp fun e => { e with cnt := cnt, tmr := tmr }
    | .count act q => s.stencilMove act q c
    | .timeout act q => s.stencilMove act q c
  if s.capComplete then s.capEnd s.capAfter false false else s

/-- A capture cycle taken (R362, R364). -/
def capCycle (s : State) (c : CapCycle) : State :=
  if ¬ s.domOn 45 ∨ ¬ s.capClock ∨ s.capState = ceIDLE ∨ ceREARM ≤ s.capState then s else (s.capFront c).capBack c

/-- The engine runs in a cycle. -/
def capRuns (s : State) : Bool := s.domOn 45 && s.capClock && decide (1 ≤ s.capState) && decide (s.capState ≤ 4)

/-- R365: an armed capture command `cmd` is carried out. -/
def capArmed (s : State) (cmd : Nat) : Bool := s.armed dueCap 0 && s.get Reg.CAP_CMD.CMD = cmd
def capCommand (s : State) (cmd : Nat) (f : State → State) : State := if s.capArmed cmd then f (s.disarm dueCap 0) else s

/-- R365: ARM. Where several of its checks fail, which code is reported is a free value (log entry 1). -/
def capArm (s : State) : State :=
  if s.capState ≠ ceIDLE then (s.put Reg.CAP_STAT.ARM_RESULT 7).engineEv Reg.CAP_EVT.ARM_FAIL else
  match s.armFails with
  | [] => (s.put Reg.CAP_STAT.ARM_RESULT 0).enterPrefill
  | l =>
    let r := l.getD (s.freeVal % l.length) 0
    ((if 1 < l.length then s.useFree else s).put Reg.CAP_STAT.ARM_RESULT r).engineEv Reg.CAP_EVT.ARM_FAIL

/-- R365, R368: DISARM, and the aborts: a capture in progress ends with flag ABORTED, and the engine is IDLE. -/
def capAbort (s : State) : State :=
  if 1 ≤ s.capState ∧ s.capState ≤ 4 then s.capEnd ceIDLE false true
  else (s.setCapState ceIDLE).cp fun e => { e with rearm := none }

/-- R365, R368: RELEASE. -/
def capRelease (s : State) : State :=
  let u := s.get Reg.CAP_STAT.UNRELEASED
  if u = 0 then s else
  let s := s.put Reg.CAP_STAT.UNRELEASED (u - 1)
  if s.capState = ceFULL ∧ s.cap.rearm.isNone ∧ u - 1 < s.capNseg then s.cp fun e => { e with rearm := some (s.thm.tick + 1) } else s

/-- R367: a time (2^−16 ns) is loaded into the armed schedule. -/
def schedLoad (s : State) (t : Int) : State :=
  if s.beforeTick t then (s.put Reg.CAP_ARMED_SEC.ARMED 0).engineEv Reg.CAP_EVT.SCHED_LATE
  else ((s.put Reg.CAP_ARMED_SEC.ARMED 1).put Reg.CAP_ARMED_SEC.SEC (secWord t).toNat).setLive (Reg.CAP_ARMED_NS.addr []) (nsWord t)

/-- R365: SCHED. -/
def capSched (s : State) : State := s.schedLoad (s.getS Reg.CAP_SCHED_SEC.SEC * sec16 + s.get Reg.CAP_SCHED_NS.NS)

/-- R367: at an instant of the tick the armed schedule's time is reached. -/
def schedFire (s : State) (p : Nat) : State :=
  let t := s.getS Reg.CAP_ARMED_SEC.SEC * sec16 + s.get Reg.CAP_ARMED_NS.NS
  if s.domOn 45 ∧ s.on Reg.CAP_ARMED_SEC.ARMED ∧ t ≤ s.timeAt p then (s.put Reg.CAP_ARMED_SEC.ARMED 0).capEv 41 else s

/-- R367: a TRIG_AT of the accepted number loads its time. -/
def trigAt (s : State) (t : Int) (num : Nat) : State :=
  if ¬ s.domOn 45 ∨ ¬ s.on Reg.CAP_CFG.AT_EN ∨ s.get Reg.CAP_CFG.TRIG_NUM ≠ num then s else (s.schedLoad t).capEv 43

/-- R245: a TRIG on link `j` arrives at Plumb time `t` (2^−16 ns). -/
def trigRx (s : State) (j : Nat) (t : Int) : State :=
  if ¬ s.linkUp j ∨ ¬ s.on Reg.LINK_CFG.TRIG_RX_EN [j] then s else
  let lat : Int := s.get Reg.SCR_CFG2.TRIG_LAT * 65536
  let valid := s.on Reg.TT_DIN.VALID [j]
  let fire := if valid then t - s.get Reg.TT_DIN.DIN [j] + lat else t + lat
  let s := if valid then s else s.linkEv Reg.LINK_EVT.TRIG_UNCOMP j
  let s := if fire < t then s.linkEv Reg.LINK_EVT.TRIG_LATE j else s
  if ¬ s.domOn 45 ∨ s.capState = ceIDLE ∨ ceREARM ≤ s.capState then s
  else s.cp fun e => { e with trigs := e.trigs ++ [if fire < t then t else fire] }

/-- R368: the engine re-arms at a tick boundary: REARM and FULL when their time has come, SUSPENDED below T3. -/
def capRearm (s : State) : State :=
  let st := s.capState
  let due := match s.cap.rearm with | some t => decide (t ≤ s.thm.tick) | none => false
  let go : Bool := (decide (st = ceREARM ∨ st = ceFULL) && due) || decide (st = ceSUSPENDED ∧ s.level < 3)
  if ¬ s.domOn 45 ∨ ¬ go then s
  else if s.get Reg.CAP_STAT.UNRELEASED < s.capNseg then s.enterPrefill
  else (s.setCapState ceFULL).cp fun e => { e with rearm := none }

/-- R356: the capture lane has lost its clock: the engine aborts. -/
def capClockRefresh (s : State) : State :=
  if s.capClock ∨ s.capState = ceIDLE then s else s.capAbort

end State
end Sys2Proof.Machine
end

