-- ==== Sys2Proof/Machine/LaneCycles.lean ====
section
/-! DEFINITION. What the monitor channels and the capture engine take from the line DSP cycles of a span (spec/15 R323, R324, R332; spec/17
R356, R357). -/
namespace Sys2Proof.Machine

/-- A line DSP cycle of a slice: its raw codes, corrected samples (2^−4), z and e(n) of its symbols (2^−4), the LLRs of its data bits, the MSB
of a symbol first, and U_n (2^−16; R155). -/
structure RxCycle where
  x : List Int
  y : List Int
  z : List Int
  e : List Int
  llr : List Int
  u : Int

def RxCycle.none : RxCycle := ⟨[], [], [], [], [], 0⟩

/-- The line DSP cycles of a span of codes. -/
def rxCycleList (c : RxCfg) (r : RxCodes) : List RxCycle :=
  let codes := State.codesOf r
  let o := rxRun c codes r.prev
  let us := rxCycles c o r.prev
  (List.range (o.count c / c.per)).map fun q =>
    let smp := (List.range 64).map (rxLead + 64 * q + ·)
    let sym := (List.range c.per).map (o.first c + q * c.per + ·)
    { x := smp.map fun i => codes.getD i 0
      y := smp.map fun i => o.y.getD i 0
      z := sym.map o.zAt
      e := sym.map (o.err c)
      llr := sym.flatMap fun n => [clampI (-31) 31 (o.llr c n true), clampI (-31) 31 (o.llr c n false)]
      u := rshr ((us.getD q (0, 0)).1 * c.ra2) 12 }

/-- R129: the Render codes of whole line DSP cycles, from codes with their place in the cycle and the samples of a symbol; and what is left
of a cycle under way. -/
def renderCycles (l : List (Nat × Nat × Int)) : List (List Int) × List (Nat × Nat × Int) :=
  l.foldl (fun p r =>
    let cur := (if r.1 = 0 then [] else p.2) ++ [r]
    if 64 ≤ (r.1 + 1) * r.2.1 then (p.1 ++ [cur.map (·.2.2)], []) else (p.1, cur)) ([], [])

/-- A line DSP cycle of a lane: what its serving slice made of it, the phase word and the Render codes; and its number in the tick. -/
structure LaneCycle where
  rx : RxCycle
  phase : Int
  codes : List Int
  num : Nat

/-- The mean of a list in units of `unit`, rounded half to even; 0 for an empty list. -/
def meanIn (l : List Int) (num den : Nat) : Int := rhe (num * l.foldl (· + ·) 0) (den * max 1 l.length)

/-- R323: the value of a monitor source in a cycle, before saturation. -/
def monSource (src : Nat) (x : LaneCycle) : Int :=
  match src with
  | 1 => meanIn x.rx.y 16 1
  | 2 => meanIn (x.rx.y.map fun v => v * v) 1 256
  | 3 => meanIn (x.rx.e.map fun v => v * v) 1 16
  | 4 => rshr x.rx.u 12
  | 5 => meanIn x.codes 256 1
  | _ => 0

/-- R357: values of `w` bits packed into a word, the first highest, from position `p` of a list. -/
def packFrom (w n p : Nat) (l : List Int) : Int := ((List.range n).foldl (fun a i => a * 2 ^ w + enc w (l.getD (p + i) 0)) 0 : Nat)

/-- The instant at which cycle `n` of a tick begins, by the nominal grid of 17,424 cycles in a tick (R330). -/
def cycleInstant (n : Nat) : Instant := BitVec.ofNat 28 (min (3840 * 65536 - 1) (n * 3840 * 65536 / 17424))

namespace State

/-- The cycles of a slice in a span, with the settings that it has in use. -/
def sliceCycles (s : State) (sl : Nat) (m : Span) : List RxCycle :=
  if s.sliceRuns sl then rxCycleList (s.rxCfg sl) (m.rx.getD sl ⟨[], 0⟩) else []

/-- R323, R356: the line DSP cycles of lane `k` in a span (8 for the Float): those of the slice that served it when the span began, or, while
that slice has none, those of its transmitter; `o` is the state before the span. -/
def laneCycles (s o : State) (m : Span) (k : Nat) : List LaneCycle :=
  let sl := if k = 8 then 8 else o.serving k
  let rx := o.sliceCycles sl m
  let th := ((s.slice sl).thetas.take rx.length).reverse
  let tx := if k < 8 then (renderCycles (s.lane k).render).1 else []
  let first := if rx.isEmpty then (o.lane k).txCyc else (o.slice sl).cyc
  (List.range (if rx.isEmpty then tx.length else rx.length)).map fun q =>
    { rx := rx.getD q RxCycle.none
      phase := s.phaseWordOf sl (th.getD q (s.slice sl).coefs.theta)
      codes := tx.getD (min q (tx.length - 1)) []
      num := first + q }

/-- R324, R344: the dither reference of loop `m` stands at −1 in cycle `n` of the tick: it follows the half that began at least 64 control
cycles (step 9 of R16) and REF_DLY units of 64 before, at 1,920 control cycles and 17,424 line DSP cycles in a tick. -/
def refMinus (s : State) (m n : Nat) : Bool :=
  let t : Int := ((s.ticks : Int) * 1920 - 64 - 64 * s.get Reg.TRW_OUT.REF_DLY [m]) * 17424 + 1920 * n
  decide ((t / (1920 * 17424 * 2 ^ s.get Reg.TRW_OUT.DITH_HP [m])) % 2 = 1)

/-- R323, R324: the input of channel `c` in a cycle. -/
def monValue (s : State) (c : Nat) (x : LaneCycle) : MonInput :=
  let d := s.use Reg.MON_CFG.DEMOD [c]
  ⟨monSource (s.use Reg.MON_CFG.SRC [c]) x, d ≠ 0 && s.refMinus (d - 1) x.num⟩

/-- R332, R333: a cycle of channel `c`, and the output that it produces, if any: at the halved rate every second cycle is taken. -/
def monCycle (s : State) (c : Nat) (x : LaneCycle) : State × Option Int :=
  let skip := s.on Reg.MON_STAT.HALF [c] && (s.mon c).odd
  let s := s.setMon c fun m => { m with odd := !m.odd }
  if skip then (s, Option.none) else
  let t := s.monInput c (s.monValue c x)
  (t, if t.get Reg.MON_OUT.SEQ [c] = s.get Reg.MON_OUT.SEQ [c] then Option.none else some (t.getS Reg.MON_OUT.OUT [c]))

/-- R323–R333: channel `c` through the cycles of its lane, with the output of each. A restart that is due comes with the first. -/
def monPass (s : State) (c : Nat) (l : List LaneCycle) : State × List (Option Int) :=
  if l.isEmpty ∨ ¬ s.domOn 46 ∨ s.on Reg.MON_STAT.NOCLK [c] ∨ ¬ s.monClock c then (s, []) else
  let s := if (s.mon c).restart then s.monRestart c else s
  l.foldl (fun p x => let r := p.1.monCycle c x; (r.1, p.2 ++ [r.2])) (s, [])

/-- R323: the lane of channel `c`: that of a restart that is due, or else the one in use. -/
def monLane (s : State) (c : Nat) : Nat := if (s.mon c).restart then s.get Reg.MON_CFG.LANE [c] else s.use Reg.MON_CFG.LANE [c]

/-- R357: the item of source `i` in a cycle, with the outputs of the monitor channels in it. -/
def capItem (s : State) (i : Nat) (x : LaneCycle) (outs : List (Option Int)) : Option Int :=
  let sub := s.get Reg.CAP_SRC.SUBSEL [i]
  match s.capSel i with
  | 1 => some (x.rx.y.getD sub 0)
  | 2 => some (packFrom 8 6 sub x.rx.x)
  | 3 => some (x.rx.z.getD sub 0)
  | 4 => some (satS 16 (x.rx.e.getD sub 0))
  | 5 => some (packFrom 6 8 (8 * sub) x.rx.llr)
  | 6 => some (sx 24 x.phase.toNat)
  | 7 => (outs[sub]?).getD Option.none
  | 8 => some (packFrom 8 6 sub x.codes)
  | _ => Option.none

/-- The output of a channel that capture cycle `q` of `n` takes: that of the same cycle of the channel's lane, and in the last cycle the first
of those that are left. -/
def outAt (l : List (Option Int)) (n q : Nat) : Option Int :=
  if q + 1 < n then (l[q]?).getD Option.none else (l.drop q).findSome? id

/-- R356, R357: the capture engine takes a cycle of its lane, at the halved rate every second one. -/
def capTake (s : State) (x : LaneCycle) (outs : List (Option Int)) (trig : Stamp) : State :=
  let skip := decide (1 ≤ s.level) && s.cap.odd
  let s := s.cp fun c => { c with odd := !c.odd }
  if skip then s else
  s.capCycle ⟨cycleInstant x.num, (List.range 4).map fun i => s.capItem i x outs, trig⟩

/-- The capture engine through the cycles of its lane. -/
def capPass (s : State) (l : List LaneCycle) (outs : List (List (Option Int))) (trig : Stamp) : State :=
  if ¬ s.capRuns then s else
  s.each l.zipIdx fun s p => s.capTake p.1 (outs.map fun o => outAt o l.length p.2) trig

/-- The monitor channels and the capture engine through a span; `o` is the state before it. -/
def laneFlow (s o : State) (m : Span) : State :=
  let t := s
  let r := (List.range 4).foldl (fun (p : State × List (List (Option Int))) c =>
    let q := p.1.monPass c (if p.1.domOn 46 then t.laneCycles o m (p.1.monLane c) else [])
    (q.1, p.2 ++ [q.2])) (s, [])
  let s := r.1.capPass (if r.1.capRuns then t.laneCycles o m (r.1.get Reg.CAP_CFG.LANE) else []) r.2 m.trig
  s.each (List.range 8) fun s k => s.setLane k fun x => { x with render := (renderCycles x.render).2 }

end State
end Sys2Proof.Machine
end

