-- ==== Sys2Proof/Machine/Flow.lean ====
section
/-! DEFINITION. The flow of symbols between commands: what the line receivers, the host receivers, the line transmitters and the host
transmitters do over a span, with the settings in use (spec/02 R26–R36, R44, R45; spec/06 R126; spec/08 R159–R176; spec/11 R248). -/
namespace Sys2Proof.Machine.State

/-- Applies a step for each element of a list of measurements, with its place. -/
def eachMeas {α : Type} (s : State) (l : List α) (f : State → Nat → α → State) : State :=
  s.each l.zipIdx fun s (p : α × Nat) => f s p.2 p.1

/-- R27, R229: the six code-groups that link `k` sends in a header. -/
def scrimTake (s : State) (k : Nat) : List Nat × State :=
  (List.range 6).foldl (fun p _ => let r := p.2.linkSend k; (p.1 ++ [r.1], r.2)) ([], s)

/-- R45: the checker of line lane `k` takes the data symbols that its serving slice decides over a span. -/
def lineCheck (s : State) (sl : Nat) (r : RxCodes) : State :=
  match s.servedBy sl with
  | none => s
  | some k =>
    let pat := s.use Reg.PAT_CTL.RX_PAT [k]
    if pat = 0 ∨ ¬ s.domOn (17 + k) then s else
    let c := s.rxCfg sl
    let o := rxRun c (codesOf r) r.prev
    s.patCheck false k pat ((List.range (o.count c)).map fun i => let n := o.first c + i; dataIdx c.precode (o.aAt n) (o.aAt (n - 1)))

/-- A slice, and what takes its samples and decisions, through a span. -/
def rxFlow (s : State) (sl : Nat) (r : RxCodes) : State :=
  if ¬ s.sliceRuns sl then s else
  let s := s.whenB (sl = 8 && s.phase = phOBSERVE_TX) fun s =>
    { s with obs := { s.obs with ys := s.obs.ys ++ centreSamples (s.rxCfg 8) (codesOf r) } }
  (s.lineCheck sl r).sliceFlow sl r

/-- R160, R161, R167, R168, R175, R248: physical host lane `ph` receives levels over a span. A loop in LOOP-NEAR takes the symbols of a lane
that feeds no line lane. -/
def hostRxFlow (s : State) (ph : Nat) (l : List Nat) : State :=
  if ¬ s.hspOn ph then s else
  let l := if s.uses Reg.HS_RX_CTL.RX_POL [ph] then l.map (3 - ·) else l
  let s := s.patCheck true ph (s.use Reg.HS_PAT_CTL.RX_PAT [ph]) l
  s.each ((List.range 16).filter fun n => s.rxPhys n = ph) fun s n =>
    let loops := s.txMode (s.hostHome n) = 10 && (s.egLane n).isNone
    s.setHlane n fun h =>
      let h := (pamBits l).foldl HLane.bit h
      if loops then { h with tx := h.tx ++ h.fifo, fifo := [] } else h

/-- R13, R26, R174: the egress of line lane `k` carries logical lane `n`'s own symbols where the gearbox has them. -/
def ownEgress (s : State) (k n : Nat) : Bool := decide ((s.hlane n).dps = 2) && !(s.lane k).unlockedTx

/-- R169, R170, R248: `c` RS symbols of logical lane `n` for line lane `k`; in LOOP-NEAR they return to the host as well. -/
def drawN (s : State) (k n c : Nat) : List Nat × State :=
  let r := HLane.supplyN (s.ownEgress k n) c (s.hlane n)
  let loops := s.txMode k = 10
  (r.1, s.setHlane n fun _ => if loops then { r.2 with tx := r.2.tx ++ r.1 } else r.2)

/-- R30, R35, R169: the payload of the next codeword slot of line lane `k`, p119 first. -/
def slotPayload (s : State) (k : Nat) : List Bool × State :=
  let hosts := s.egHosts k
  let s := s.each hosts fun s n => s.setHlane n HLane.slotStart
  match hosts with
  | [a, b] =>
    let ra := s.drawN k a 6
    let rb := ra.2.drawN k b 6
    (doublePayload ra.1 rb.1, rb.2)
  | [a] => let r := s.drawN k a 12; (r.1.flatMap (msbBits 10), r.2)
  | _ => (List.replicate 120 false, s)

/-- R30: codeword slots of a frame. -/
def frameSlots (fmt : Nat) : Nat := 17 * fmtSyms fmt

/-- R248: the payload that LOOP-FAR returns in a slot. -/
def loopPayload (s : State) (k fc slot : Nat) : List Bool × State :=
  match (s.lane k).loop with
  | (n, p) :: t =>
    if n = slot then (p, s.setLane k fun l => { l with loop := t, loopPast := ((n, p) :: l.loopPast).take (frameSlots (s.txFmt k)) }) else (msbBits 120 (Config.loopEmpty fc slot).toNat, s)
  | [] => (msbBits 120 (Config.loopEmpty fc slot).toNat, s)

/-- The payload of slot `slot` of line lane `k`. -/
def txPayload (s : State) (k fc slot : Nat) : List Bool × State := if s.txMode k = 11 then s.loopPayload k fc slot else s.slotPayload k

/-- R30–R33: the level indices of slots 2j + 1 and 2j + 2 of line lane `k`'s frame `fc`. -/
def pairSymbols (s : State) (k fc j : Nat) : List Nat × State :=
  let o := s.txPayload k fc (2 * j + 1)
  let e := o.2.txPayload k fc (2 * j + 2)
  (((sentSlot k fc (2 * j + 2) e.1).zip (sentSlot k fc (2 * j + 1) o.1)).map fun p => levelIdx p.1 p.2, e.2)

/-- R27, R35: the level indices of the header of line lane `k`'s frame `fc`, with the Scrim symbols that its link sends. -/
def headerSymbols (s : State) (k fc : Nat) : List Nat × State :=
  if s.txFmt k = fmtDOUBLE then let r := s.scrimTake k; (headerIdx 128 (header k r.1 fc), r.2)
  else if fc % 2 = 0 then (headerIdx 64 (marker k), s)
  else let r := s.scrimTake k; (headerIdx 64 (header k r.1 fc % 2 ^ 64), r.2)

/-- R36: a block of line lane `k` in the Standard format. -/
def stdBlock (s : State) (k : Nat) : List Nat × State :=
  match s.egHosts k with
  | n :: _ =>
    let s := s.setHlane n HLane.slotStart
    let r := s.drawN k n Config.stdIn
    let b := (s.lane k).blocks
    ((List.range Config.stdOut).map fun i => (Config.stdSymbol r.1 b i).val, r.2.setLane k fun l => { l with blocks := b + 1 })
  | [] => ([], s)

/-- R36: blocks until line lane `k` holds the symbols of a line DSP cycle. -/
def stdFill (s : State) (k per : Nat) : State :=
  s.each (List.range per) fun s _ =>
    if per ≤ (s.lane k).pair.length then s else
    let r := s.stdBlock k
    r.2.setLane k fun l => { l with pair := l.pair ++ r.1 }

/-- The next `per` symbols that line lane `k` holds. -/
def pairTake (s : State) (k per : Nat) : List Nat × State :=
  ((s.lane k).pair.take per, s.setLane k fun l => { l with pair := l.pair.drop per })

/-- `per` symbols of pattern `pat` (R44). -/
def patTake (s : State) (k per pat : Nat) : List Nat × State :=
  let r := patSend pat (s.txInject k) (s.lane k).gen per
  (r.1, s.setLane k fun l => { l with gen := r.2 })

/-- R27–R36, R44, R126 step 1: the data symbols of line lane `k` in a line DSP cycle, at a place of the PLL's frame `fc`. -/
def txCycle (s : State) (k place fc : Nat) : List Nat × State :=
  let fmt := s.txFmt k
  let per := fmtSyms fmt
  if s.txPat k ≠ 0 then s.patTake k per (s.txPat k)
  else if modeInband (s.txMode k) k fmt then
    if place = 0 then s.headerSymbols k fc
    else
      let s := if (place - 1) % (128 / per) = 0 then
          let r := s.pairSymbols k fc ((place - 1) / (128 / per))
          r.2.setLane k fun l => { l with pair := r.1 }
        else s
      s.pairTake k per
  else if fmt = fmtSTANDARD ∧ s.egHosts k ≠ [] then (s.stdFill k per).pairTake k per
  else s.patTake k per 0

/-- R29: `n` line DSP cycles of line lane `k` from the PLL's count `x`. -/
def txData (s : State) (k n : Nat) (x : TxPll) : List Nat × State :=
  (List.range n).foldl (fun p i =>
    let at_ := x.place + i
    let r := p.2.txCycle k (at_ % 1089) ((x.fc + at_ / 1089) % 16)
    (p.1 ++ r.1, r.2)) ([], s)

/-- R13, R20, R29: line transmit PLL `p` and its lanes advance by `n` line DSP cycles: the frames of all its lanes begin on one cycle and
bear one count. -/
def txFlow (s : State) (p n : Nat) : State :=
  if ¬ s.domOn 49 then s else
  let x := s.ltxAt p
  let s := s.each [4 * p, 4 * p + 1, 4 * p + 2, 4 * p + 3] fun s k =>
    if ¬ s.domOn (17 + k) then s else
    let r := s.txData k n x
    r.2.txEmit k (fmtSyms (s.txFmt k)) r.1
  s.setLtx p fun x => { x with place := (x.place + n) % 1089, fc := (x.fc + (x.place + n) / 1089) % 16, since := min 16 (x.since + n) }

/-- R160, R161, R173–R176: physical host lane `ph` transmits over `c` symbol periods. What its logical lane's stream holds passes in time,
sent or not. -/
def hostTxFlow (s : State) (ph c : Nat) : State :=
  if ¬ s.hspOn ph then s else
  match (List.range 16).find? fun n => s.txPhys n = ph with
  | none => s
  | some n =>
    let r := (s.hlane n).hostSend c
    let o := s.hostOut n
    let s := s.setHlane n fun _ => r.2
    let g := (s.hrx.getD ph HRx.start).gen
    let pat := s.hsTxPat ph
    let q := patSend (if pat ≠ 0 then pat else 2) (pat ≠ 0 && s.hsInject ph) g c
    let pol (i : Nat) : Option Nat := some (if s.uses Reg.HS_TX_CTL.TX_POL [ph] then 3 - i else i)
    let out := if pat ≠ 0 ∨ o = .fill then q.1.map pol else if o = .traffic then r.1.map pol else List.replicate c none
    let g := if pat ≠ 0 ∨ o = .fill then q.2 else g
    { s with hrx := upd s.hrx ph fun x => { x with out := out, gen := g } }

/-- R248: a host loop FIFO within 64 of its limits of 0 and 1,024 RS symbols drops 544, or repeats the last 544 sent. -/
def nearSlip (h : HLane) : Option HLane :=
  if 960 ≤ h.tx.length then some { h with tx := h.tx.drop 544 }
  else if h.tx.length ≤ 64 ∧ h.txPast.length = 544 then some { h with tx := h.txPast.reverse ++ h.tx }
  else none

/-- R248: a LOOP-FAR FIFO near a limit drops the next whole frame's payload, or repeats the last one sent, at a frame boundary. -/
def farSlip (l : Lane) (n : Nat) : Option Lane :=
  let part := l.loop.takeWhile fun p => p.1 ≠ 1
  let rest := l.loop.dropWhile fun p => p.1 ≠ 1
  if Config.loopMany * n ≤ l.loop.length then some { l with loop := part ++ rest.drop n }
  else if l.loop.length ≤ Config.loopFew * n ∧ l.loopPast.length = n then some { l with loop := part ++ l.loopPast.reverse ++ rest }
  else none

/-- R248: the first loop FIFO that nears a limit slips, and is counted. -/
def loopSlip (s : State) : State :=
  let count (s : State) : State := s.whenB (s.domOn 48) fun s => ((s.inc Reg.LOOP_SLIP_CNT.COUNT).ev Reg.SCR_EVT.LOOP_SLIP).seqEv 10
  let near := (List.range 16).findSome? fun n =>
    if s.txMode (s.hostHome n) = 10 then (nearSlip (s.hlane n)).map fun h => s.setHlane n fun _ => h else none
  let far := (List.range 8).findSome? fun k =>
    if s.txMode k = 11 then (farSlip (s.lane k) (frameSlots (s.txFmt k))).map fun l => s.setLane k fun _ => l else none
  match near <|> far with
  | some s => count s
  | none => s

/-- The datapath over a span. -/
def flow (s : State) (m : Span) : State :=
  let o := s
  let s := s.eachMeas m.rx fun s i r => if i < 9 then s.rxFlow i r else s
  let s := s.eachMeas m.host fun s i l => if i < 16 then s.hostRxFlow i (l.map (·.val)) else s
  let s := s.eachMeas m.cycles fun s p n => if p < 2 then s.txFlow p n.toNat else s
  let s := s.eachMeas m.sent fun s i c => if i < 16 then s.hostTxFlow i c.toNat else s
  let s := s.eachMeas m.lats fun s k l => if k < 8 then s.latFlow k l else s
  (s.laneFlow o m).ltxChoose

end Sys2Proof.Machine.State
end

