-- ==== Sys2Proof/Machine/Trw.lean ====
section
/-! DEFINITION. The Trowel loops and the bias outputs (spec/16_trowel_loops_and_bias_dacs.md). -/
namespace Sys2Proof.Machine

/-- π in units of 2^−128, rounded down. -/
def pi128 : Int := 1069028584064966747859680373161870783300

/-- sin(x) for x from 0 to π/2 in units of 2^−128, from its power series. -/
def sinSeries (x : Int) : Int :=
  let sq := x * x / 2 ^ 128
  ((List.range 20).foldl (fun (p : Int × Int) k =>
    let t := p.2
    (p.1 + t, -(t * sq / 2 ^ 128) / ((2 * k + 2) * (2 * k + 3) : Nat))) (0, x)).1

/-- sin(2π·φ / 2^16) in units of 2^−128 (R348). -/
def sinPhase (phi : Nat) : Int :=
  let q := phi % 65536
  let r := q % 16384
  let a (n : Nat) : Int := if n = 0 then 0 else if n = 16384 then 2 ^ 128 else sinSeries (2 * pi128 * n / 65536)
  if q < 16384 then a r else if q < 32768 then a (16384 - r) else if q < 49152 then -a r else -a (16384 - r)

/-- The states of R345. -/
def tsOFF : Nat := 0
def tsSTARTUP : Nat := 1
def tsRUN : Nat := 2
def tsTEST : Nat := 3
def tsRECOVERY : Nat := 4

/-- Stimulus types of R348. -/
def stSINE : Nat := 1
def stSQUARE : Nat := 2
def stPRBS : Nat := 3
def stSWEPT : Nat := 4

namespace State

def loop (s : State) (m : Nat) : Loop := s.loops.getD m Loop.start
def setLoop (s : State) (m : Nat) (f : Loop → Loop) : State := { s with loops := upd s.loops m f }
def trwEv (s : State) (f : FRef) (m : Nat) : State := (s.ev f [m]).seqEv 12
def loopState (s : State) (m : Nat) : Nat := s.get Reg.TRW_STAT.STATE [m]
def loopBdac (s : State) (m : Nat) : Nat := s.get Reg.TRW_CFG.BDAC [m]

/-- The TRW_INT register follows the integrator. -/
def setInteg (s : State) (m : Nat) (v : Int) : State :=
  (s.setLive (Reg.TRW_INT.addr [m]) (BitVec.ofInt 48 v)).setLoop m fun l => { l with i := sx 48 (enc 48 v) }

/-- R344: the dither of loop `m` in the present tick. -/
def dither (s : State) (m : Nat) : Int :=
  if ¬ s.on Reg.TRW_OUT.DITH_EN [m] ∨ s.loopState m = tsOFF then 0
  else if s.ticks / 2 ^ s.get Reg.TRW_OUT.DITH_HP [m] % 2 = 0 then s.get Reg.TRW_OUT.DITH_AMP [m] else -(s.get Reg.TRW_OUT.DITH_AMP [m] : Int)

/-- R342, R353, R355: the loop's DAC takes a code; the answer tells whether it was clamped. -/
def writeCode (s : State) (m : Nat) (code : Int) : State × Bool :=
  let out := clampI 0 4095 code
  let b := s.loopBdac m
  let s := s.put Reg.TRW_STAT.OUT out.toNat [m]
  let s := (s.put Reg.BDC_STAT.CODE_NOW out.toNat [b]).put Reg.BDC_STAT.DRIVEN 1 [b]
  (s.put Reg.BDC_STAT.LOOP m [b], decide (out ≠ code))

/-- R349: a running stimulus ends short. -/
def stipTrunc (s : State) (m : Nat) : State :=
  if ¬ s.on Reg.TRW_STAT.STIP_RUN [m] then s else
  ((s.put Reg.TRW_STAT.STIP_RUN 0 [m]).put Reg.TRW_STAT.STIP_TRUNC 1 [m]).trwEv Reg.TRW_EVT.STIP_END m

def clearNotch (s : State) (m : Nat) : State := s.setLoop m fun l => { l with e1 := 0, e2 := 0, d1 := 0, d2 := 0 }

/-- R345: i = code − OUT_BASE, for a code in use. -/
def integFrom (s : State) (m : Nat) (code : Int) : State :=
  (s.setInteg m ((code - s.get Reg.TRW_OUT.OUT_BASE [m]) * 2 ^ 24)).setLoop m fun l => { l with base := code }

/-- R345, R346: loop `m` enters a state. -/
def loopEnter (s : State) (m st : Nat) : State :=
  let old := s.loopState m
  let b := s.loopBdac m
  let code : Int := s.get Reg.BDC_STAT.CODE_NOW [b]
  let s := s.put Reg.TRW_STAT.STATE st [m]
  let s := s.setLoop m fun l => { l with lockRun := 0, lossRun := 0, auto := none }
  let s := if st = tsRUN ∨ st = tsOFF then s.stipTrunc m else s
  let s :=
    if st = tsSTARTUP then ((if old = tsOFF then s.integFrom m code else s).clearNotch m)
    else if st = tsTEST ∧ old = tsOFF then (s.integFrom m code).clearNotch m
    else if st = tsRECOVERY then
      (s.setInteg m (((s.get Reg.TRW_OUT.REC_CODE [m] : Int) - s.get Reg.TRW_OUT.OUT_BASE [m]) * 2 ^ 24)).clearNotch m
    else if st = tsRUN ∧ old = tsOFF then s.setLoop m fun l => { l with base := code }
    else s
  let s := if st = tsOFF then (s.put Reg.BDC_STAT.DRIVEN 0 [b]).put Reg.BDC_STAT.LOOP 0 [b]
    else (s.put Reg.BDC_STAT.DRIVEN 1 [b]).put Reg.BDC_STAT.LOOP m [b]
  if st = old then s else s.trwEv Reg.TRW_EVT.STATE_CHG m

/-- R346: an applied command of loop `m` for state `st`. -/
def loopCommand (s : State) (m st : Nat) : State :=
  if ¬ s.armed dueLoop m ∨ s.get Reg.TRW_CMD.STATE [m] ≠ st then s else (s.disarm dueLoop m).loopEnter m st

/-- R340: loop `m` is due at the present tick boundary. -/
def loopDue (s : State) (m : Nat) : Bool :=
  let p := 2 ^ s.get Reg.TRW_CFG.PER [m]
  s.domOn 44 && s.ticks % p = s.get Reg.TRW_CFG.PHASE [m] % p

/-- R339, R340: the input of loop `m` as step 1 of the tick finds it; none where the loop is to hold. `rd` is a port read as DEVICE. -/
def loopInput (s : State) (m : Nat) (rd : Nat → Option Word) : Option Int :=
  let sel := s.get Reg.TRW_CFG.SRC_SEL [m]
  match s.get Reg.TRW_CFG.SRC_TYPE [m] with
  | 1 => if 4 ≤ sel ∨ ¬ s.domOn 46 ∨ s.on Reg.MON_STAT.NOCLK [sel] ∨ (s.mon sel).snapUnsettled then none else some ((s.mon sel).snap * 2 ^ 16)
  | 2 =>
    if ¬ s.domOn 47 ∨ ¬ s.on Reg.HKA_MM.FRESH [sel] ∨ s.biasLost then none
    else some (rhe (s.get Reg.HKA_SUM.SUM [sel] * 2 ^ 24) (max 1 (s.get Reg.HKA_MM.COUNT [sel])))
  | 3 =>
    let w := s.get Reg.TRW_SRC.WIDTH [m]
    let l := s.get Reg.TRW_SRC.LSB [m]
    (rd (s.get Reg.TRW_SRC.ADDR [m])).map fun v =>
      let f := if w = 0 then 0 else bits v.toNat (l + w - 1) l
      (if s.on Reg.TRW_SRC.SIGNED [m] ∧ 0 < w then sx w f else (f : Int)) * 2 ^ 24
  | _ => none

/-- R348: the stimulus of the present update, with the state after it. -/
def stimulus (s : State) (m : Nat) (x : Int) : State × Int :=
  if ¬ s.on Reg.TRW_STAT.STIP_RUN [m] then (s, 0) else
  let ty := s.get Reg.TRW_STIP.TYPE [m]
  let l := s.loop m
  let amp : Int := s.get Reg.TRW_STIP.AMP [m]
  if ty = stSINE ∨ ty = stSWEPT then
    if ty = stSWEPT ∧ s.get Reg.TRW_SWP.FTW_END [m] < l.ftwNow then (s, 0) else
    let sn := sinPhase l.phase
    let cs := sinPhase (l.phase + 16384)
    let add (f : FRef) (v : Int) (s : State) : State := s.put f (enc 48 (s.getS f [m] + rshr (x * v) 128)) [m]
    let s := add Reg.TRW_RESPQ.SUM cs (add Reg.TRW_RESPI.SUM sn s)
    let s := s.put Reg.TRW_RESPN.N (s.get Reg.TRW_RESPN.N [m] + 1) [m]
    let step := if ty = stSWEPT then l.ftwNow else s.get Reg.TRW_STIP.FTW [m]
    (s.setLoop m fun l => { l with phase := (l.phase + step) % 65536
                                   ftwNow := if ty = stSWEPT then l.ftwNow + s.get Reg.TRW_SWP.STEP [m] else l.ftwNow },
      rshr (amp * sn) 128)
  else if ty = stSQUARE then
    (s.setLoop m fun l => { l with phase := (l.phase + s.get Reg.TRW_STIP.FTW [m]) % 65536 }, if l.phase < 32768 then amp else -amp)
  else
    let o := l.prbs.testBit 14 != l.prbs.testBit 13
    (s.setLoop m fun l => { l with prbs := (2 * l.prbs + b2n o) % 2 ^ 15 }, if o = Config.stipplePlus then amp else -amp)

/-- R347: a trace entry. -/
def trace (s : State) (m : Nat) (x d : Int) (hold clamp wrap : Bool) (stim : Int) : State :=
  if s.on Reg.TRC_CTL.FREEZE [m] then s else
  let q := (s.get Reg.TRW_STAT.TRC_SEQ [m] + 1) % 65536
  let s := s.put Reg.TRW_STAT.TRC_SEQ q [m]
  s.memWrites memTRC (4096 * m + 4 * (q % 1024))
    [BitVec.ofInt 48 x, BitVec.ofInt 48 d, BitVec.ofInt 48 (s.loop m).i,
     BitVec.ofNat 48 (q * 2 ^ 32 + s.loopState m * 2 ^ 29 + b2n hold * 2 ^ 28 + b2n clamp * 2 ^ 27 + b2n wrap * 2 ^ 26 +
       enc 12 stim * 2 ^ 12 + s.get Reg.TRW_STAT.OUT [m])] .device

/-- R341: the error through the notch. -/
def notch (s : State) (m : Nat) (e : Int) : State × Int :=
  if ¬ s.on Reg.TRW_CFG.NOTCH_EN [m] then (s, e) else
  let l := s.loop m
  let c (j : Nat) := s.getS Reg.TRW_NBQ.COEF [m, j]
  let v := rshr (c 0 * e + c 1 * l.e1 + c 2 * l.e2 - c 3 * l.d1 - c 4 * l.d2) 21
  let d := satS 48 v
  let s := if d ≠ v then s.trwEv Reg.TRW_EVT.NBQ_SAT m else s
  (s.setLoop m fun l => { l with e2 := l.e1, e1 := e, d2 := l.d1, d1 := d }, d)

/-- R346: the runs of an update with error `d`, and the automatic transition it decides. -/
def autoDecide (s : State) (m : Nat) (d : Int) : State :=
  let small := decide (d.natAbs < s.get Reg.TRW_THR.LOCK_TH [m] * 2 ^ 16)
  let large := decide (s.get Reg.TRW_THR.LOSS_TH [m] * 2 ^ 16 ≤ d.natAbs)
  let s := s.setLoop m fun l => { l with lockRun := if small then l.lockRun + 1 else 0, lossRun := if large then l.lossRun + 1 else 0 }
  let st := s.loopState m
  let l := s.loop m
  if s.on Reg.TRW_STAT.STIP_RUN [m] then s
  else if (st = tsSTARTUP ∨ st = tsRECOVERY) ∧ s.on Reg.TRW_CFG.AUTO_RUN [m] ∧ s.get Reg.TRW_CFG.LOCK_N [m] ≤ l.lockRun then
    s.setLoop m fun l => { l with auto := some (tsRUN, s.ticks) }
  else if st = tsRUN ∧ s.on Reg.TRW_CFG.AUTO_REC [m] ∧ s.get Reg.TRW_CFG.LOSS_N [m] ≤ l.lossRun then
    s.setLoop m fun l => { l with auto := some (tsRECOVERY, s.ticks) }
  else s

/-- R340: a due loop without an input holds. What its trace entry holds as x and d is a free value (log entry 1). -/
def loopHold (s : State) (m : Nat) : State :=
  let s := (s.inc Reg.HOLD_CNT.COUNT [m]).trwEv Reg.TRW_EVT.HOLD m
  let (s, _) := s.writeCode m ((s.loop m).base + s.dither m)
  let x := s.freeBits 48
  let s := s.useFree
  (s.useFree).trace m x (s.freeBits 48) true false false (s.loop m).stim

/-- R341–R343: an update of loop `m` on input `x`. -/
def loopRun (s : State) (m : Nat) (x : Int) : State :=
  let st := s.loopState m
  let (s, stim) := s.stimulus m x
  let point := s.on Reg.TRW_STIP.POINT [m]
  let sp := s.getS Reg.TRW_SP.SP [m]
  let e := (if s.on Reg.TRW_CFG.POL [m] then sp - x else x - sp) + (if point then stim * 2 ^ 24 else 0)
  let (s, d) := s.notch m e
  let ksh := s.get Reg.TRW_CFG.KSH [m]
  let old := (s.loop m).i
  let i := if st = tsTEST then old else old + rshr (s.getS Reg.TRW_GAIN.KI [m] * d) (16 + ksh)
  let wrapped := decide (sx 48 (enc 48 i) ≠ i)
  let s := if st = tsTEST then s else s.setInteg m i
  let s := if wrapped then ((s.inc Reg.WRAP_CNT.COUNT [m]).trwEv Reg.TRW_EVT.WRAP m).capEv 49 else s
  let kp := if st = tsTEST then 0 else s.getS Reg.TRW_GAIN.KP [m] * d
  let u := rshr (s.get Reg.TRW_OUT.OUT_BASE [m] * 2 ^ (40 + ksh) + kp + (s.loop m).i * 2 ^ (16 + ksh)) (40 + ksh)
  let base := u + (if point then 0 else stim)
  let s := s.setLoop m fun l => { l with base := base, stim := stim }
  let (s, clamped) := s.writeCode m (base + s.dither m)
  let s := if clamped then ((s.inc Reg.CLAMP_CNT.COUNT [m]).trwEv Reg.TRW_EVT.CLAMP m).capEv 48 else s
  (s.autoDecide m d).trace m x d false clamped wrapped stim

/-- R340: step 8 of a tick at which loop `m` is due. -/
def loopUpdate (s : State) (m : Nat) : State :=
  if ¬ s.loopDue m ∨ s.loopState m = tsOFF ∨ (s.loop m).lastTick = some s.ticks then s else
  let s := s.setLoop m fun l => { l with lastTick := some s.ticks }
  match (s.loop m).x with
  | none => s.loopHold m
  | some x => s.loopRun m x

/-- R344: a half of the dither's period begins at the present tick; the code is written with the dither's new sign. -/
def ditherHalf (s : State) (m : Nat) : State :=
  if ¬ s.domOn 44 ∨ ¬ s.on Reg.TRW_OUT.DITH_EN [m] ∨ s.loopState m = tsOFF ∨ s.ticks % 2 ^ s.get Reg.TRW_OUT.DITH_HP [m] ≠ 0 ∨
    (s.loop m).lastHalf = some s.ticks then s else
  ((s.setLoop m fun l => { l with lastHalf := some s.ticks }).writeCode m ((s.loop m).base + s.dither m)).1

/-- R346: an automatic transition decided at an update is applied at the next tick boundary, unless a command falls there. -/
def autoApply (s : State) (m target : Nat) : State :=
  match (s.loop m).auto with
  | none => s
  | some (t, at_) =>
    if t ≠ target ∨ s.ticks ≤ at_ ∨ s.armed dueLoop m ∨ s.on Reg.TRW_STAT.STIP_RUN [m] then s else
    let s := s.loopEnter m t
    if t = tsRUN then s.trwEv Reg.TRW_EVT.LOCK m else
    let s := (s.trwEv Reg.TRW_EVT.LOSS m).capEv 50
    if s.on Reg.TRC_CTL.FRZ_ON_LOSS [m] then s.put Reg.TRC_CTL.FREEZE 1 [m] else s

/-- R348: an applied stimulus of type `ty` starts, or is refused. -/
def stipStart (s : State) (m ty : Nat) : State :=
  if ¬ s.armed dueStip m ∨ s.armed dueLoop m ∨ s.get Reg.TRW_STIP.TYPE [m] ≠ ty then s else
  let s := s.disarm dueStip m
  let st := s.loopState m
  if st = tsOFF ∨ st = tsRUN then (s.put Reg.TRW_STAT.STIP_REFUSED 1 [m]).trwEv Reg.TRW_EVT.STIP_END m else
  let s := ((s.put Reg.TRW_STAT.STIP_DONE 0 [m]).put Reg.TRW_STAT.STIP_TRUNC 0 [m]).put Reg.TRW_STAT.STIP_REFUSED 0 [m]
  let s := ((s.put Reg.TRW_RESPI.SUM 0 [m]).put Reg.TRW_RESPQ.SUM 0 [m]).put Reg.TRW_RESPN.N 0 [m]
  (s.put Reg.TRW_STAT.STIP_RUN 1 [m]).setLoop m fun l =>
    { l with phase := 0, prbs := 0x7FFF, ftwNow := s.get Reg.TRW_STIP.FTW [m] }

/-- R349: an applied TYPE NONE ends a running stimulus. -/
def stipNone (s : State) (m : Nat) : State :=
  if ¬ s.armed dueStip m ∨ s.get Reg.TRW_STIP.TYPE [m] ≠ 0 then s else (s.disarm dueStip m).stipTrunc m

/-- R348: FTW_NOW has passed FTW_END. -/
def stipDone (s : State) (m : Nat) : State :=
  if s.on Reg.TRW_STAT.STIP_RUN [m] ∧ s.get Reg.TRW_STIP.TYPE [m] = stSWEPT ∧ s.get Reg.TRW_SWP.FTW_END [m] < (s.loop m).ftwNow then
    ((s.put Reg.TRW_STAT.STIP_RUN 0 [m]).put Reg.TRW_STAT.STIP_DONE 1 [m]).trwEv Reg.TRW_EVT.STIP_END m
  else s

/-- R353: output `b` after a Set: a loop drives it, or it takes CODE, which after a loop has left it needs a CODE newly written. -/
def bdacApplied (s : State) (b : Nat) (codeWritten : Bool) : State :=
  match (List.range 16).find? fun m => s.loopState m ≠ tsOFF && s.loopBdac m = b with
  | some m => (s.put Reg.BDC_STAT.DRIVEN 1 [b]).put Reg.BDC_STAT.LOOP m [b]
  | none =>
    let s := (s.put Reg.BDC_STAT.DRIVEN 0 [b]).put Reg.BDC_STAT.LOOP 0 [b]
    if codeWritten then s.put Reg.BDC_STAT.CODE_NOW (s.get Reg.BDC_CFG.CODE [b]) [b] else s

/-- R347: the word that TRC_CTL selects. -/
def traceAddr (s : State) (m : Nat) : Nat := 4096 * m + 4 * s.get Reg.TRC_CTL.ENTRY [m] + s.get Reg.TRC_CTL.WORD [m]

end State
end Sys2Proof.Machine
end

