-- ==== Sys2Proof/Machine/Tte.lean ====
section
/-! DEFINITION. The time-transparent engine and the flow table (spec/10_time_transparent_engine.md, R199–R218, R227). The octet places of
PTP fields are those of IEEE 1588 (log entry 8). -/
namespace Sys2Proof.Machine

/-- Causes of R218. -/
def tcCORRECTED : Nat := 0x00
def tcSTORED : Nat := 0x01
def tcFOLLOWED : Nat := 0x02
def tcDUP : Nat := 0x03
def tcSHORT : Nat := 0x08
def tcTOO_LONG : Nat := 0x09
def tcFCS_BAD : Nat := 0x0A
def tcUDP_CSUM_BAD : Nat := 0x0B
def tcIP_BAD : Nat := 0x0C
def tcUNSUPPORTED : Nat := 0x0D
def tcRS_UNC : Nat := 0x0E
def tcPCS_ERR : Nat := 0x0F
def tcCF_SAT : Nat := 0x10
def tcMISPREDICT : Nat := 0x11
def tcCTX_MISS : Nat := 0x12
def tcCTX_FULL : Nat := 0x13
def tcCTX_EVICT : Nat := 0x14
def tcCTX_AGED : Nat := 0x15
def tcPASSED : Nat := 0x16

/-- messageType codes of IEEE 1588. -/
def ptpSYNC : Nat := 0
def ptpDELAY_REQ : Nat := 1
def ptpPDELAY_REQ : Nat := 2
def ptpPDELAY_RESP : Nat := 3
def ptpFOLLOW_UP : Nat := 8
def ptpDELAY_RESP : Nat := 9
def ptpPDELAY_RESP_FU : Nat := 10

/-- A one's-complement sum of 16-bit words, folded (R209). -/
def onesFold (n : Nat) : Nat := let a := n % 65536 + n / 65536; a % 65536 + a / 65536
def ones16 (l : List Nat) : Nat := l.foldl (fun a w => onesFold (a + w)) 0

/-- The 16-bit words of `n` octets from place `i`; an odd last octet is the high half of a word. -/
def words16 (d : List Byte) (i n : Nat) : List Nat :=
  (List.range ((n + 1) / 2)).map fun j => octField d (i + 2 * j) 1 * 256 + (if 2 * j + 1 < n then octField d (i + 2 * j + 1) 1 else 0)

/-- R209: HC' = ~(~HC + ~m + m'), a result of 0 sent as 0xFFFF; `ch` lists the changed words, old and new. -/
def csumUpdate (hc : Nat) (ch : List (Nat × Nat)) : Nat :=
  let r := 65535 - ones16 ((65535 - hc) :: ch.flatMap fun p => [65535 - p.1, p.2])
  if r = 0 then 65535 else r

/-- The octets of a frame's FCS over all its octets but the last four, least significant octet first. -/
def fcsOf (d : List Byte) : List Byte :=
  let c := crc32Bytes (d.take (d.length - 4))
  (List.range 4).map fun i => BitVec.ofNat 8 (c >>> (8 * i))

/-- `n` octets of a frame replaced from place `i`. -/
def putOctets (d : List Byte) (i n v : Nat) : List Byte := d.take i ++ octets n v ++ d.drop (i + n)

/-- How a frame carries its message: the place of the IP header for IPv4 and IPv6. -/
inductive Carrier where
  | ethernet | ipv4 (ip : Nat) | ipv6 (ip : Nat)
  deriving DecidableEq, Repr

/-- What classification finds of a frame (R204): a failed check, or a message at a place of the frame. -/
structure TteClass where
  carrier : Carrier
  /-- Place of the UDP header and of the PTP header. -/
  udp : Nat
  ptp : Nat
  /-- IP_BAD or UNSUPPORTED before the PTP header is reached. -/
  early : Option Nat
  deriving DecidableEq, Repr

/-- R204: TPIDs of VLAN tags. -/
def isVlan (t : Nat) : Bool := t = 0x8100 || t = 0x88A8 || t = 0x9100

/-- R204: the tags are skipped, up to two. -/
def vlanEnd (d : List Byte) : Nat :=
  if ¬ isVlan (octField d 12 2) then 12 else if isVlan (octField d 16 2) then 20 else 16

/-- R204: the IPv4 checks. -/
def ipv4Ok (d : List Byte) (i : Nat) : Bool :=
  let ihl := octField d i 1 % 16
  octField d i 1 / 16 = 4 && decide (5 ≤ ihl) && octField d (i + 9) 1 = 17 && octField d (i + 6) 2 % 0x4000 = 0 &&
    ones16 (words16 d i (4 * ihl)) = 65535

/-- R204: the frame's classification as far as its ports; none where it is unclassified. -/
def tteClassify (d : List Byte) : Option TteClass :=
  let e := vlanEnd d
  let ty := octField d e 2
  let i := e + 2
  if isVlan ty then some ⟨.ethernet, 0, i, some tcUNSUPPORTED⟩
  else if ty = 0x88F7 then some ⟨.ethernet, 0, i, none⟩
  else if ty = 0x0800 then
    if ¬ ipv4Ok d i then some ⟨.ipv4 i, 0, 0, some tcIP_BAD⟩ else
    let u := i + 4 * (octField d i 1 % 16)
    if octField d (u + 2) 2 = 319 ∨ octField d (u + 2) 2 = 320 then some ⟨.ipv4 i, u, u + 8, none⟩ else none
  else if ty = 0x86DD then
    if octField d (i + 6) 1 ≠ 17 then some ⟨.ipv6 i, 0, 0, some tcUNSUPPORTED⟩ else
    let u := i + 40
    if octField d (u + 2) 2 = 319 ∨ octField d (u + 2) 2 = 320 then some ⟨.ipv6 i, u, u + 8, none⟩ else none
  else none

/-- R210: the received UDP checksum is 0, or right over the datagram and its pseudo-header. -/
def udpOk (d : List Byte) (c : TteClass) : Bool :=
  let n := octField d (c.udp + 4) 2
  let body := words16 d c.udp n
  match c.carrier with
  | .ethernet => true
  | .ipv4 i => octField d (c.udp + 6) 2 = 0 || ones16 (words16 d (i + 12) 8 ++ [17, n] ++ body) = 65535
  | .ipv6 i => octField d (c.udp + 6) 2 = 0 || ones16 (words16 d (i + 8) 32 ++ [17, n] ++ body) = 65535

/-- R204: the event and follower types, and the least messageLength of each. -/
def isEvent (t : Nat) : Bool := decide (t < 4)
def isFollower (t : Nat) : Bool := t = ptpFOLLOW_UP || t = ptpDELAY_RESP || t = ptpPDELAY_RESP_FU
def ptpMin (t : Nat) : Nat := if t = ptpSYNC ∨ t = ptpDELAY_REQ ∨ t = ptpFOLLOW_UP then 44 else 54

/-- R204, R218: the first failed check of a classified frame in priority order; none where every check passes. -/
def tteCheck (f : TteFrame) (rsUnc : Bool) (c : TteClass) : Option Nat :=
  let d := f.data
  let t := octField d c.ptp 1 % 16
  let len := octField d (c.ptp + 2) 2
  let ev := octField d (c.udp + 2) 2 = 319
  let room := (if c.carrier = .ethernet then d.length - 4 - c.ptp else min (octField d (c.udp + 4) 2 - 8) (d.length - 4 - c.ptp))
  if rsUnc then some tcRS_UNC
  else if f.pcsErr then some tcPCS_ERR
  else if 512 < d.length then some tcTOO_LONG
  else if d.drop (d.length - 4) ≠ fcsOf d then some tcFCS_BAD
  else if c.early = some tcIP_BAD then some tcIP_BAD
  else if c.early = none ∧ ¬ udpOk d c then some tcUDP_CSUM_BAD
  else if c.early.isSome then c.early
  else if octField d (c.ptp + 1) 1 % 16 ≠ 2 then some tcUNSUPPORTED
  else if c.carrier ≠ .ethernet ∧ ((isEvent t ∧ ¬ ev) ∨ (isFollower t ∧ ev)) then some tcUNSUPPORTED
  else if len < ptpMin t ∨ room < len then some tcSHORT
  else none

/-- R208: the correctionField with a time in 2^−16 ns added, and whether it saturated. -/
def cfAdd (cf : Nat) (t : Int) : Nat × Bool :=
  let m : Int := 2 ^ 63 - 1
  let v := sx 64 cf
  if v = m ∨ m < v + t then (2 ^ 63 - 1, true) else (enc 64 (v + t), false)

/-- R208, R209: the frame with a time added to its correctionField and its checksums repaired. -/
def tteRewrite (d : List Byte) (c : TteClass) (t : Int) : List Byte × Bool :=
  let at_ := c.ptp + 8
  let old := words16 d at_ 8
  let (cf, sat) := cfAdd (octField d at_ 8) t
  let d := putOctets d at_ 8 cf
  let d := match c.carrier with
    | .ethernet => d
    | .ipv4 _ => putOctets d (c.udp + 6) 2 0
    | .ipv6 _ =>
      let ch := (old.zip (words16 d at_ 8)).filter fun p => decide (p.1 ≠ p.2)
      if ch = [] then d else putOctets d (c.udp + 6) 2 (csumUpdate (octField d (c.udp + 6) 2) ch)
  (d.take (d.length - 4) ++ fcsOf d, sat)

/-- R213: the key of a context as the words 0 to 2 of its entry hold it: class, link, domainNumber, sequenceId, portNumber and
clockIdentity. -/
structure FlowKey where
  cls : Nat
  link : Nat
  domain : Nat
  seq : Nat
  port : Nat
  clock : Nat
  deriving DecidableEq, Repr

/-- R213: the bucket of a key under a seed. -/
def flowBucket (seed : Nat) (k : FlowKey) : Nat :=
  let l := octets 2 seed ++ octets 1 k.domain ++ octets 1 (k.cls * 16 + k.link) ++ octets 8 k.clock ++ octets 2 k.port ++ octets 2 k.seq
  (crc32Bytes l ^^^ 0xFFFFFFFF) % 4096

/-- R227: the words of an entry. -/
def flowWords (k : FlowKey) (ingress : Bool) (time : Nat) (stamp : Nat) : List Word :=
  [BitVec.ofNat 48 (2 ^ 47 + k.cls * 2 ^ 45 + k.link * 2 ^ 41 + b2n ingress * 2 ^ 40 + k.domain * 2 ^ 32 + k.seq * 2 ^ 16 + k.port),
   BitVec.ofNat 48 (k.clock >>> 16), BitVec.ofNat 48 (k.clock % 65536 * 2 ^ 32 + time % 2 ^ 32), BitVec.ofNat 48 (stamp % 65536 * 2 ^ 32)]

def flowKeyOf (w : List Word) : FlowKey :=
  let a := (w.getD 0 0).toNat
  ⟨bits a 46 45, bits a 44 41, bits a 39 32, bits a 31 16, bits a 15 0, (w.getD 1 0).toNat * 65536 + bits (w.getD 2 0).toNat 47 32⟩

/-- R202: what the engine adds to the latency of a direction, in units of 1/65536 of a Plumb cycle, by PCS type: 95.68, 59.84, 41.92, 32.96 ns,
and 24 ns with the PCS OFF. -/
def tteAdded (pcs : Nat) : Nat := [1228800, 4898816, 3063808, 2146304, 1687552].getD pcs 0

/-- R203: the running difference through bits that the engine changes (`true`): the output's scrambler runs on the difference of its input.
The scrambler's polynomial is that of IEEE 802.3 (log entry 66). -/
def diffRun (st : List Bool) (l : List Bool) : List Bool × List Bool :=
  let r := l.foldl (fun (p : List Bool × List Bool) x =>
    let d := (x != p.1.getD 38 false) != p.1.getD 57 false
    ((d :: p.1).take 58, d :: p.2)) (st, [])
  (r.2.reverse, r.1)

/-- R203: a stream after a codeword enters the buffer: with two in it already the oldest is sent, as received plus the codeword of the
difference. -/
def TteStream.word (x : TteStream) (w : List Nat) : TteStream :=
  match x.buf with
  | a :: b :: _ =>
    let r := diffRun x.diff ((List.range 5140).map x.delta.contains)
    let d := (List.range 514).map fun i => bitsValue ((r.1.drop (10 * i)).take 10)
    let out := if d.all (· = 0) then a else (a.zip (d ++ Rs.encode 30 d)).map fun p => p.1 ^^^ p.2
    ⟨[b, w], (x.delta.filter (5140 ≤ ·)).map (· - 5140), r.2, out⟩
  | l => { x with buf := l ++ [w] }

/-- The bits of a frame, in the order of transmission: each octet's least significant bit first. -/
def frameBits (d : List Byte) : List Bool := d.flatMap fun b => (List.range 8).map b.getLsbD

namespace State

def tt (s : State) (f : Tte → Tte) : State := { s with tte := f s.tte }
def tteEv (s : State) (f : FRef) : State := (s.ev f).seqEv 15

/-- R216: the stamp of the present tick, in units of 256 ticks. -/
def flowNow (s : State) : Nat := s.ticks / 256 % 65536

/-- R216: a stamp has expired under group `g`'s AGE_EXP. -/
def flowExpired (s : State) (g stamp : Nat) : Bool :=
  decide (2 ^ s.get Reg.TTE_CFG.AGE_EXP [g] ≤ (s.flowNow + 65536 - stamp) % 65536)

/-- Invalidates entry `e` (R215, R216, R227). -/
def flowClear (s : State) (e : Nat) : State :=
  let w := (s.cell memFLOW (4 * e)).data
  if w.toNat < 2 ^ 47 then s else s.memWrite memFLOW (4 * e) (BitVec.ofNat 48 (w.toNat - 2 ^ 47)) .device

/-- The four words of entry `e`; an entry whose page code fails is invalidated and reads as none (R215). -/
def flowRead (s : State) (e : Nat) : State × Option (List Word) :=
  let (s, ok, ws) := (List.range 4).foldl (fun (p : State × Bool × List Word) i =>
    let r := p.1.memRead memFLOW (4 * e + i) .device 3
    (r.1, p.2.1 && r.2.1, p.2.2 ++ [r.2.2])) (s, true, [])
  if ok then (s, if (ws.getD 0 0).toNat < 2 ^ 47 then none else some ws)
  else (s.memWrites memFLOW (4 * e) [0, 0, 0, 0] .device, none)

/-- The valid entries of a range of buckets, in order. -/
def flowValid (s : State) (lo hi : Nat) : List Nat :=
  ((s.memAt memFLOW).cells.filter fun p => decide (16 * lo ≤ p.1) && decide (p.1 < 16 * hi) && p.1 % 4 = 0 && p.2.data.getLsbD 47).map
    fun p => p.1 / 4

/-- TTE_STAT.FLOW_USED. -/
def flowUsed (s : State) : Nat := (s.flowValid 0 4096).length

/-- R227: the flush under way has passed `n` buckets. -/
def flushTo (s : State) (n : Nat) : State :=
  match s.tte.flush with
  | none => s
  | some p => (s.each (s.flowValid p n) flowClear).tt fun t => { t with flush := some (max p n) }

/-- R214: a residence time is stored; the answer is the cause and the entry. -/
def flowStore (s : State) (g : Nat) (k : FlowKey) (ingress : Bool) (time : Nat) : State × Nat × Option Nat :=
  let b := flowBucket (s.get Reg.TTE_HASH.SEED) k
  let ways := [4 * b, 4 * b + 1, 4 * b + 2, 4 * b + 3]
  let (s, read) := ways.foldl (fun (p : State × List (Nat × Option (List Word))) e =>
    let r := p.1.flowRead e
    (r.1, p.2 ++ [(e, r.2)])) (s, [])
  let live (w : Option (List Word)) := match w with
    | some ws => !s.flowExpired g (bits (ws.getD 3 0).toNat 47 32)
    | none => false
  let age (w : Option (List Word)) := match w with
    | some ws => (s.flowNow + 65536 - bits (ws.getD 3 0).toNat 47 32) % 65536
    | none => 0
  let put (s : State) (e : Nat) := s.memWrites memFLOW (4 * e) (flowWords k ingress time s.flowNow) .device
  match read.find? (fun p => live p.2 && (p.2.map flowKeyOf) = some k) with
  | some p => (put s p.1, tcDUP, some p.1)
  | none =>
    match read.find? (fun p => !live p.2) with
    | some p => (put s p.1, tcSTORED, some p.1)
    | none =>
      if ¬ s.on Reg.TTE_CFG.FULL_POLICY [g] then (s, tcCTX_FULL, some (4 * b)) else
      let e := (read.foldl (fun (p : Nat × Nat) x => if p.2 < age x.2 + 1 then (x.1, age x.2 + 1) else p) (4 * b, 0)).1
      (put s e, tcCTX_EVICT, some e)

/-- R211, R215: a lookup of an event of a direction; the answer is the time, if found, the cause and the entry or the bucket's first. -/
def flowLookup (s : State) (g : Nat) (k : FlowKey) (ingress : Bool) : State × Option Nat × Nat × Nat :=
  let b := flowBucket (s.get Reg.TTE_HASH.SEED) k
  let (s, hit) := [4 * b, 4 * b + 1, 4 * b + 2, 4 * b + 3].foldl (fun (p : State × Option (Nat × List Word)) e =>
    let r := p.1.flowRead e
    (r.1, p.2.or (match r.2 with
      | some ws => if flowKeyOf ws = k ∧ (ws.getD 0 0).getLsbD 40 = ingress then some (e, ws) else none
      | none => none))) (s, none)
  match hit with
  | none => (s, none, tcCTX_MISS, 4 * b)
  | some (e, ws) =>
    let s' := s.flowClear e
    if s.flowExpired g (bits (ws.getD 3 0).toNat 47 32) then (s', none, tcCTX_AGED, e)
    else (s', some (bits (ws.getD 2 0).toNat 31 0), tcFOLLOWED, e)

/-- R218: a cause is counted for group `g`, its event bits are set, and its record is entered; `detail` is that of R225 and `time` the
residence time or the time added. -/
def tteCause (s : State) (g cause : Nat) (m : TteMsg) (detail time : Nat) : State :=
  let s := s.inc Reg.TTE_CNT.COUNT [g, cause]
  let s := if cause = tcCTX_FULL ∨ cause = tcCTX_EVICT then s.tteEv Reg.TTE_EVT.CTX_LOSS else s
  let s := if cause = tcMISPREDICT then (s.tteEv Reg.TTE_EVT.MISPREDICT).capEv 52 else s
  let s := if cause = tcCF_SAT then s.tteEv Reg.TTE_EVT.CF_SAT else s
  let s := if 8 ≤ cause ∧ cause ≤ 0x0F then (s.tteEv Reg.TTE_EVT.MALFORMED).capEv 53 else s
  let head := m.typ * 2 ^ 16 + b2n m.ingress * 2 ^ 15 + m.link * 2 ^ 11
  if 8 ≤ cause then
    let r := s.get Reg.TTE_CFG.EVT_RING [g]
    if r = 0 then s else
    s.enterRecord r ringEVENT [[BitVec.ofNat 48 (3 * 2 ^ 44 + head + cause * 8), secWord m.arrival, nsWord m.arrival,
      BitVec.ofNat 48 (m.seq * 2 ^ 32 + m.domain * 2 ^ 24 + detail % 2 ^ 24)]]
  else
    let r := s.get Reg.TTE_CFG.REC_RING [g]
    if r = 0 ∨ ¬ s.on Reg.TTE_CFG.REC_EN [g] then s else
    s.enterRecord r ringTIMESTAMP [[BitVec.ofNat 48 (2 * 2 ^ 44 + head + m.domain * 8 + cause), secWord m.arrival, nsWord m.arrival,
      BitVec.ofNat 48 (m.seq * 2 ^ 32 + time % 2 ^ 32)]]

/-- The stream of logical lane `n`'s group. -/
def tteAt (s : State) (n : Nat) (ingress : Bool) : Nat := 16 * b2n ingress + (s.pcsGroup n).headD n
def tteStream (s : State) (n : Nat) (ingress : Bool) : TteStream := s.tte.streams.getD (s.tteAt n ingress) TteStream.start
def setTteStream (s : State) (n : Nat) (ingress : Bool) (f : TteStream → TteStream) : State :=
  s.tt fun t => { t with streams := upd t.streams (s.tteAt n ingress) f }

/-- R201: the state of a group, and whether the engine acts on logical lane `n`'s group in a direction: its monitor holds codeword lock. -/
def tteNow (s : State) (g : Nat) : Nat := if g = 0 then s.get Reg.TTE_STAT.STATE0 else s.get Reg.TTE_STAT.STATE1
def tteActs (s : State) (n : Nat) (ingress : Bool) : Bool :=
  s.isT && s.domOn 39 && s.domOn 40 && decide (s.pcsCode n ≠ 0) && s.on (omLock ingress) [n] &&
    (match s.hostLane n with | some k => decide (s.tteNow (s.ttGroup k) ≠ 0) | none => false)

/-- R202, R203: a codeword of logical lane `n`'s group enters the engine. -/
def tteWord (s : State) (n : Nat) (ingress : Bool) (w : List Nat) : State :=
  if s.tteActs n ingress then s.setTteStream n ingress (·.word w) else s

/-- R203: without codeword lock the difference is clear, and the codewords in progress are discarded (R123). -/
def tteUnlock (s : State) (n : Nat) (ingress : Bool) : State :=
  if s.on (omLock ingress) [n] then s else s.setTteStream n ingress fun _ => TteStream.start

/-- R202, R218: a buffered codeword that carries a frame is uncorrectable. -/
def tteUnc (s : State) (f : TteFrame) : Bool :=
  (s.tteStream f.host f.ingress).buf.zipIdx.any fun q =>
    ((List.range (8 * f.data.length)).any fun i => Config.pcsPlace (s.pcsCode f.host) f.place.toNat i / 5140 = q.2) && (Rs.decode 30 q.1).isNone

/-- R202, R203: the frame leaves as `d`: what it differs in becomes a change of the codewords that carry it. -/
def tteRelease (s : State) (f : TteFrame) (d : List Byte) : State :=
  let ch := ((frameBits f.data).zip (frameBits d)).zipIdx.filterMap fun q =>
    if q.1.1 = q.1.2 then none else some (Config.pcsPlace (s.pcsCode f.host) f.place.toNat q.2)
  (s.tt fun t => { t with out := d }).setTteStream f.host f.ingress fun x => { x with delta := x.delta ++ ch }

/-- R189, R206: the arrival of a message on logical lane `n` and line lane `k`, as a time and as an elapsed count, and its departure as an
elapsed count; in 2^−16 ns. -/
def tteArrival (s : State) (k n : Nat) (ingress : Bool) (p : Stamp) : Int × Int :=
  if ingress then (s.lineRxTime k p, s.lineRxEl k p) else (s.hostRxTime (s.rxPhys n) p, s.hostRxEl (s.rxPhys n) p)
def tteDeparture (s : State) (k n : Nat) (ingress : Bool) (p : Stamp) : Int :=
  if ingress then s.hostTxEl (s.txPhys n) p else s.lineTxEl k p

/-- R194, R206: the delays of a message's two reference planes, in 2^−16 ns: that of its arrival, and that of its departure. -/
def tteDelays (s : State) (k n : Nat) (ingress : Bool) : Int × Int :=
  if ingress then (s.lineRxDly k, s.dly Reg.DLY_HTX.DLY (s.txPhys n))
  else (s.dly Reg.DLY_HRX.DLY (s.rxPhys n), s.dly Reg.DLY_LTX.DLY k)

/-- R202, R206, R207: the predicted residence time in 2^−16 ns, between the reference planes: the elapsed count of the engine's own latency and of
`rest` (1/65536 of a cycle) after it. -/
def residence (s : State) (k n : Nat) (ingress : Bool) (rest : Nat) : Int :=
  let d := s.tteDelays k n ingress
  rshr (((tteAdded (s.pcsCode n) + rest) * s.plumbInc / 65536 : Nat) + (d.1 + d.2) * 2 ^ 24) 24

/-- R211: the class under which an event is stored. -/
def eventClass (typ : Nat) : Nat := typ

/-- R211: an event of the class passes in the direction of its follower, or in the opposite one. -/
def sameWay (cls : Nat) : Bool := cls = 0 || cls = 3

/-- R211: the classes that a follower looks up. -/
def followerClasses (typ : Nat) : List Nat :=
  if typ = ptpFOLLOW_UP then [0] else if typ = ptpDELAY_RESP then [1] else [2, 3]

/-- R211: the key from the PTP header at place `p`, taking the port identity at place `id`. -/
def flowKeyAt (d : List Byte) (p id cls link : Nat) : FlowKey :=
  ⟨cls, link, octField d (p + 4) 1, octField d (p + 30) 2, octField d (id + 8) 2, octField d id 8⟩

/-- R218: the place of a cause in the priority order of the follower causes. -/
def lookupRank (c : Nat) : Nat := if c = tcCTX_MISS then 2 else if c = tcCTX_AGED then 1 else 0

/-- R208, R211, R214: an event message in RUN. -/
def tteEvent (s : State) (f : TteFrame) (c : TteClass) (m : TteMsg) (res : Int) : State :=
  let d := f.data
  let two := s.on Reg.TTE_CFG.TWO_STEP [m.group]
  let flag := (octField d (c.ptp + 6) 1).testBit 1
  if ¬ two ∨ ((m.typ = ptpSYNC ∨ m.typ = ptpPDELAY_RESP) ∧ ¬ flag) then
    let (d', sat) := tteRewrite d c res
    let s := (s.tteRelease f d').tt fun t => { t with waiting := t.waiting ++ [m] }
    s.tteCause m.group (if sat then tcCF_SAT else tcCORRECTED) m 0 res.toNat
  else
    let time := (satU 31 res).toNat
    let (s, cause, e) := s.flowStore m.group (flowKeyAt d c.ptp (c.ptp + 20) (eventClass m.typ) m.link) m.ingress time
    let s := if cause = tcCTX_FULL then s else s.tt fun t => { t with waiting := t.waiting ++ [{ m with entry := e }] }
    s.tteCause m.group cause m (e.getD 0) time

/-- R211, R215: a follower in RUN with two-step operation. -/
def tteFollower (s : State) (f : TteFrame) (c : TteClass) (m : TteMsg) : State :=
  let d := f.data
  let id (cls : Nat) := if sameWay cls then c.ptp + 20 else c.ptp + 44
  let (s, sum, found, cause, e) := (followerClasses m.typ).foldl (fun (p : State × Nat × Bool × Nat × Nat) cls =>
    let r := p.1.flowLookup m.group (flowKeyAt d c.ptp (id cls) cls m.link) (m.ingress == sameWay cls)
    let worse := decide (lookupRank p.2.2.2.1 ≤ lookupRank r.2.2.1)
    (r.1, p.2.1 + r.2.1.getD 0, p.2.2.1 || r.2.1.isSome, if worse then r.2.2.1 else p.2.2.2.1, if worse then r.2.2.2 else p.2.2.2.2))
    (s, 0, false, tcFOLLOWED, 0)
  if ¬ found then s.tteCause m.group cause m e 0 else
  let (d', sat) := tteRewrite d c sum
  let cause := if cause ≠ tcFOLLOWED then cause else if sat then tcCF_SAT else tcFOLLOWED
  (s.tteRelease f d').tteCause m.group cause m (if cause = tcCF_SAT then 0 else e) sum

/-- R201, R204–R218: the engine handles one frame. -/
def tteFrame (s : State) (f : TteFrame) : State :=
  let n := f.host.val
  let s := s.flushTo f.flushed.toNat
  let s := s.tt fun t => { t with out := f.data }
  if ¬ s.tteActs n f.ingress then s else
  match s.hostLane n, tteClassify f.data with
  | some k, some c =>
    let g := s.ttGroup k
    let st := s.tteNow g
    let seen := c.early.isNone
    let d := f.data
    let typ := if seen then octField d c.ptp 1 % 16 else 0
    if seen ∧ octField d (c.ptp + 1) 1 % 16 = 2 ∧ ¬ isEvent typ ∧ ¬ isFollower typ then s else
    let arr := s.tteArrival k n f.ingress f.arrival
    let res := s.residence k n f.ingress f.rest.toNat
    let m : TteMsg := { ingress := f.ingress, group := g, link := (s.pcsGroup n).headD n, typ := typ
                        domain := if seen then octField d (c.ptp + 4) 1 else 0, seq := if seen then octField d (c.ptp + 30) 2 else 0
                        port := if seen then octField d (c.ptp + 28) 2 else 0, clock := if seen then octField d (c.ptp + 20) 8 else 0
                        arrival := arr.1, arrivalEl := arr.2, predicted := res, entry := none }
    if st = 1 then s.tteCause g tcPASSED m 0 0 else
    match tteCheck f (s.tteUnc f) c with
    | some cause => s.tteCause g cause m 0 0
    | none =>
      if isEvent typ then s.tteEvent f c m res
      else if s.on Reg.TTE_CFG.TWO_STEP [g] then s.tteFollower f c m else s
  | _, _ => s

/-- R207, R212: the oldest message of a link and direction that waits has left: its departure against its prediction. -/
def ttePostcheck (s : State) (ingress : Bool) (link : Nat) (p : Stamp) : State :=
  match s.hostLane link, s.tte.waiting.find? fun m => m.ingress = ingress && m.link = link with
  | some ln, some m =>
    let diff := s.tteDeparture ln link ingress p - m.arrivalEl - m.predicted
    let s := s.tt fun t => { t with waiting := t.waiting.erase m }
    let s := match m.entry with
      | none => s
      | some e =>
        let (s, ws) := s.flowRead e
        match ws with
        | some w =>
          let k := flowKeyOf w
          if k = ⟨m.typ, m.link, m.domain, m.seq, m.port, m.clock⟩ ∧ (w.getD 0 0).getLsbD 40 = m.ingress then
            s.memWrite memFLOW (4 * e + 2) (BitVec.ofNat 48 (setBits (w.getD 2 0).toNat 31 0 (satU 31 (m.predicted + diff)).toNat)) .device
          else s
        | none => s
    if s.get Reg.TTE_CFG.PRED_TOL [m.group] * 65536 < diff.natAbs * 100 then
      s.tteCause m.group tcMISPREDICT m (enc 24 (satS 24 diff)) 0
    else s
  | _, _ => s

/-- R216: the sweeper visits its 16 buckets of the tick. -/
def flowSweep (s : State) : State :=
  if ¬ s.tte.sweepDue ∨ ¬ s.domOn 40 ∨ ¬ s.domOn 39 then s else
  let lo := s.tte.sweep
  let s := s.tt fun t => { t with sweep := (lo + 16) % 4096, sweepDue := false }
  s.each (s.flowValid lo (lo + 16)) fun s e =>
    let r := s.flowRead e
    let s := r.1
    match r.2 with
    | none => s
    | some ws =>
      let k := flowKeyOf ws
      let g := match s.hostLane k.link with | some ln => s.ttGroup ln | none => 0
      if ¬ s.flowExpired g (bits (ws.getD 3 0).toNat 47 32) then s else
      let m : TteMsg := { ingress := (ws.getD 0 0).getLsbD 40, group := g, link := k.link, typ := 0, domain := k.domain, seq := k.seq
                          port := k.port, clock := k.clock, arrival := s.timeAt 0, arrivalEl := 0, predicted := 0, entry := none }
      (s.flowClear e).tteCause g tcCTX_AGED m e 0

/-- R227: a command written to FLT_CMD while no flush runs. -/
def fltReady (s : State) : Bool := s.isT && s.domOn 40 && s.tte.flush.isNone
def fltCopy (s : State) : State :=
  if ¬ s.fltReady then s else
  let e := s.get Reg.FLT_ADDR.INDEX
  s.each (List.range 4) fun s i =>
    let r := s.memRead memFLOW (4 * e + i) .device
    r.1.setLive (Reg.FLT_DATA.addr [i]) r.2.2
def fltInvalidate (s : State) : State := if s.fltReady then s.flowClear (s.get Reg.FLT_ADDR.INDEX) else s
def fltFlush (s : State) : State :=
  if s.fltReady then (s.put Reg.FLT_STAT.BUSY 1).tt fun t => { t with flush := some 0 } else s
def fltFlushDone (s : State) : State :=
  if s.tte.flush.isNone then s else ((s.flushTo 4096).put Reg.FLT_STAT.BUSY 0).tt fun t => { t with flush := none }

/-- R217: a Set has applied a changed seed. -/
def flowInvalidateAll (s : State) : State := s.each (s.flowValid 0 4096) flowClear

/-- R201: the state of each group as its settings make it. -/
def tteState (s : State) (g : Nat) : Nat :=
  if ¬ s.isT ∨ ¬ s.on Reg.TTE_CFG.TT_EN [g] then 0 else if s.on Reg.TTE_CFG.PASS [g] then 1 else 2

/-- R201: at an application boundary of group `g` its state follows its settings. -/
def tteRefresh (s : State) (g : Nat) : State :=
  let f := if g = 0 then Reg.TTE_STAT.STATE0 else Reg.TTE_STAT.STATE1
  if s.get f = s.tteState g ∨ ¬ s.isT then s else (s.put f (s.tteState g)).tteEv Reg.TTE_EVT.STATE_CHG

/-- R20, R201: an application boundary of line lane `k` is one of its group, where the mode gives it one. -/
def tteBoundary (s : State) (k : Nat) : State := if (modeLanes s.mode).contains k then s.tteRefresh (s.ttGroup k) else s

end State
end Sys2Proof.Machine
end

