-- ==== Sys2Proof/Machine/Domains.lean ====
section
/-! DEFINITION. The power domains (spec/19_power_states_and_domains.md R385–R387): which domain holds a register, and what a domain
loses when it goes off and takes when it comes on (spec/13_programming_the_device.md R286). -/
namespace Sys2Proof.Machine

/-- R385: the number of the domain that holds live address `a` of a row. -/
def domNum (r : Row) (a : Nat) : Nat :=
  let k := (a - 0x080000) / 0x1000
  match r.dom with
  | .AON => 0 | .CTL => 56
  | .LRA => if k = 8 then 25 else 1 + k
  | .LTA => 9 + k
  | .LDS => if k = 8 then 26 else 17 + k
  | .LFD => 26
  | .HSP => 27 + (a - 0x100000) / 0x1000
  | .PLB => 38 | .TTE => 39 | .FLM => 40 | .RGS => 41 | .SQC => 42 | .TRW => 44 | .CAP => 45 | .MON => 46 | .HKA => 47
  | .SCR => 48

/-- The domain of a live address, none where no register lies. -/
def domAt (a : Nat) : Option Nat := (rowOf a).map fun r => domNum r.1 a

/-- A register is staged. -/
def stagedAt (a : Nat) : Bool := match rowOf a with | some (r, _) => r.acc == .st | none => false

/-- R285: the device changes a field of the register itself: a coefficient, RX_AFE, LLR_CTL. -/
def deviceField (a : Nat) : Bool :=
  (State.coefOf a).isSome || (List.range 9).any fun b => a = Reg.RX_AFE.addr [b] || a = Reg.LLR_CTL.addr [b]

/-- R2, R3: the domains that are fused off on a part. -/
def fusedDoms (p : Part) : BitVec 57 :=
  (if p.variant = 1 then 0 else BitVec.ofNat 57 (2 ^ 39 + 2 ^ 40)) |||
    (if p.variant = 3 then BitVec.ofNat 57 (2 ^ 31 + 2 ^ 32 + 2 ^ 33 + 2 ^ 34) else 0)

namespace State

def pw (s : State) (f : Pwr → Pwr) : State := { s with pwr := f s.pwr }

/-- The domain's power bit. -/
def setDom (s : State) (d : Nat) (v : Bool) : State :=
  s.pw fun p => { p with on := if v then p.on ||| BitVec.ofNat 57 (2 ^ d) else p.on &&& ~~~(BitVec.ofNat 57 (2 ^ d)) }

/-- The domain is fused off or unusable. -/
def domBarred (s : State) (d : Nat) : Bool := s.pwr.barred.getLsbD d

/-- Memory `m` loses its contents. -/
def clearMem (s : State) (m : Nat) : State := s.setMem m fun _ => ⟨[], []⟩

/-- What depends on which domains are on is brought up to date. -/
def domRefresh (s : State) : State :=
  let s := s.each (List.range 8) squelchRefresh
  let s := s.each (List.range 4) monClockRefresh
  s.capClockRefresh.linksRefresh

/-- The registers of domain `d` that are not staged return to their reset values: R286 keeps the staged ones, and
a declared fault and retirement hold until a reset that reruns self-test (R65, R70). -/
def clearRegs (s : State) (d : Nat) : State :=
  let o := s
  let s := { s with live := s.live.filter fun p => !(domAt p.1 = some d && !stagedAt p.1) }
  let s := s.each (List.range 9) fun s k =>
    let st := o.get Reg.RX_STAT.SLICE_STATE [k]
    ((s.whenB (2 ≤ st) (·.put Reg.RX_STAT.SLICE_STATE st [k])).put Reg.RX_STAT.FAULT_SRC (o.get Reg.RX_STAT.FAULT_SRC [k]) [k]).put
      Reg.RX_STAT.FAULT_SS (o.get Reg.RX_STAT.FAULT_SS [k]) [k]
  (s.put Reg.MIG_STAT.RETIRED_MASK (o.get Reg.MIG_STAT.RETIRED_MASK)).put Reg.MIG_STAT.FLOAT_OK (o.get Reg.MIG_STAT.FLOAT_OK)

/-- The PLL state fields of CKG_STAT in domain `d` take a code (R374). -/
def setPlls (s : State) (d code : Nat) : State :=
  if d = 49 then ((s.put Reg.CKG_STAT.LRX code).put Reg.CKG_STAT.LTXA code).put Reg.CKG_STAT.LTXB code
  else if d = 50 then s.put Reg.CKG_STAT.HPL code
  else if d = 51 then s.put Reg.CKG_STAT.SPL code
  else s

/-- A slice whose front end or DSP goes off is no longer locked. -/
def sliceOff (s : State) (sl : Nat) : State :=
  let s := (s.fcalStop sl 0x12).probeStop sl
  s.setSlice sl fun x => { Slice.start with coefs := x.coefs, taps := x.taps, gain := x.gain, snaps := x.snaps }

/-- What domain `d` holds beyond registers is lost. -/
def clearDom (s : State) (d : Nat) : State :=
  if 1 ≤ d ∧ d ≤ 8 then s.sliceOff (d - 1)
  else if 17 ≤ d ∧ d ≤ 24 then
    let k := d - 17
    let s := ((s.sliceOff k).setFrame k fun _ => FrameLock.hunting).setLane k fun l =>
      { Lane.start with dead := l.dead, rateHeld := true, rate := l.rate }
    (s.each (s.homed k) amOff).inbandDown k
  else if d = 25 then s.sliceOff 8
  else if d = 26 then (s.sliceOff 8).candHunt
  else if 27 ≤ d ∧ d ≤ 34 then
    let ph := [2 * (d - 27), 2 * (d - 27) + 1]
    let s := s.each ph fun s n => { s with hrx := upd s.hrx n fun _ => HRx.start }
    s.each ((List.range 16).filter fun n => ph.contains (s.rxPhys n)) amOff
  else if d = 38 then { s with plb := Plumb.start }
  else if d = 39 then { s with tte := { Tte.start with flush := s.tte.flush } }
  else if d = 40 then { s.clearMem memFLOW with tte := { s.tte with flush := none } }
  else if d = 41 then { s.clearMem memRING with rings := [] }
  else if d = 42 then s.sq fun q => { seqReset with slotB := q.slotB, imageRuns := q.imageRuns }
  else if d = 43 then (s.clearMem memIMEM).clearMem memDMEM
  else if d = 44 then { s.clearMem memTRC with loops := List.replicate 16 Loop.start }
  else if d = 45 then { s.clearMem memCAP with cap := Cap.start }
  else if d = 46 then { s with mons := List.replicate 4 Mon.start }
  else if d = 47 then { s with hka := Hka.start }
  else if d = 48 then { s.clearMem memSCR with scr := Fabric.start }
  else s

/-- Domain `d` goes off. A capture in progress ends with its record first (R368, R390). -/
def domainOff (s : State) (d : Nat) : State :=
  let s := s.whenB (d = 45) capAbort
  (((s.setDom d false).clearDom d).clearRegs d).setPlls d 0 |>.domRefresh

/-- R97: a LLR gain that has been written to block `b` from outside goes on from there. -/
def loadGain (s : State) (a : Nat) : State :=
  match (List.range 9).find? fun b => a = Reg.LLR_CTL.addr [b] with
  | some b =>
    match s.seedTarget b with
    | some sl => s.setSlice sl fun x => { x with coefs := { x.coefs with gain := s.get Reg.LLR_CTL.LLR_GAIN [b] } }
    | none => s
  | none => s

/-- R286: the fields of a powered-up domain that the device changes itself take their applied values, and its stages the applied values
of their staged registers. -/
def takeApplied (s : State) (d : Nat) : State :=
  let mine (l : List (Nat × Word)) := (l.map (·.1)).filter fun a => domAt a = some d
  let s := s.each ((mine s.live ++ mine s.applied).filter deviceField) fun s a =>
    ((s.setLive a (RegFile.get s.applied a)).loadSeed a).loadGain a
  let s := s.each (mine s.live ++ mine s.inUse) fun s a => s.whenB (stagedAt a) (·.take a)
  if 17 ≤ d ∧ d ≤ 24 then s.activate (d - 17) else if d = 25 ∨ d = 26 then s.floatTake.activate 8 else s

/-- Domain `d` has reached power-good (R387). -/
def domainOn (s : State) (d : Nat) : State :=
  let s := ((s.setDom d true).takeApplied d).setPlls d 1
  let s := s.whenB (d = 46) fun s => s.each (List.range 4) fun s c => s.setMon c fun m => { m with restart := true }
  let s := s.whenB (d = 42) fun s => s.coreReset.setLive (Reg.JNL_STAT.addr []) (s.cell (memRB + 3) 0).data
  s.domRefresh

end State
end Sys2Proof.Machine
end

