-- ==== Sys2Proof/Machine/Resets.lean ====
section
/-! DEFINITION. References, PLLs, clock multiplexers and resets (spec/18_clocks_and_reset.md R372–R384), and the retention banks' check
(spec/19_power_states_and_domains.md R397). -/
namespace Sys2Proof.Machine

/-- PLL states of R374. -/
def plOFF : Nat := 0
def plLOCKING : Nat := 1
def plLOCKED : Nat := 2
def plHOLD : Nat := 3
def plCOAST : Nat := 4

/-- Reset codes of R381. -/
def rcPOR : Nat := 0
def rcPIN : Nat := 1
def rcFULL : Nat := 2
def rcTHERMAL : Nat := 3
def rcWAKE_OFF : Nat := 4
def rcWAKE_DEEP : Nat := 5
def rcWARM : Nat := 6
def rcSEQ : Nat := 7

namespace State

def jn (s : State) (f : Jnl → Jnl) : State := { s with jnl := f s.jnl }
def ck (s : State) (f : Clk → Clk) : State := { s with clk := f s.clk }

/-- The device has its clocks and its control domain: no reset is asserted, no deep state and no shutdown stands. -/
def running (s : State) : Bool :=
  (s.pwr.state == .run || s.pwr.state == .idle || s.pwr.state == .sleep) && !s.clk.held && !s.pwr.shutdown

/-- The state field of a PLL: 0 SPL, 1 LRX, 2 LTXA, 3 LTXB, 4 HPL. -/
def pllRef (p : Nat) : FRef :=
  if p = 0 then Reg.CKG_STAT.SPL else if p = 1 then Reg.CKG_STAT.LRX else if p = 2 then Reg.CKG_STAT.LTXA
  else if p = 3 then Reg.CKG_STAT.LTXB else Reg.CKG_STAT.HPL

def pllState (s : State) (p : Nat) : Nat := s.get (pllRef p)

/-- A reference is qualified: 0 crystal, 1 REFCLK. -/
def refOk (s : State) (r : Nat) : Bool := s.on (if r = 0 then Reg.CKG_STAT.XTAL_OK else Reg.CKG_STAT.REFCLK_OK)

/-- R377: a reference has stayed qualified through the last 1 ms, which 204 ticks cover. -/
def refSteady (s : State) (r : Nat) : Bool :=
  s.refOk r && decide ((if r = 0 then s.clk.sinceX else s.clk.sinceR) + 204 ≤ s.thm.tick)

/-- R372, R373, R376: a reference qualifies. A PLL that waits for it starts to lock, or leaves COAST. -/
def refQualify (s : State) (r : Nat) : State :=
  if ¬ s.running ∨ s.refOk r then s else
  let s := s.put (if r = 0 then Reg.CKG_STAT.XTAL_OK else Reg.CKG_STAT.REFCLK_OK) 1
  let s := s.ck fun c => if r = 0 then { c with sinceX := s.thm.tick } else { c with sinceR := s.thm.tick }
  if s.pllState 0 = plOFF ∧ r = 0 then (s.put Reg.CKG_STAT.REF_NOW 0).put Reg.CKG_STAT.SPL plLOCKING
  else if s.pllState 0 = plCOAST ∧ s.get Reg.CKG_STAT.REF_NOW = r then s.put Reg.CKG_STAT.SPL plLOCKING
  else s

/-- A PLL that has lost its reference enters HOLD (R376). -/
def pllHold (s : State) (p : Nat) : State :=
  if s.pllState p = plLOCKED then (s.put (pllRef p) plHOLD).ev Reg.CKG_EVT.LOCK_LOST
  else if s.pllState p = plLOCKING then s.put (pllRef p) plHOLD
  else s

/-- R374, R376: PLL `p` has a valid reference as far as the reference detectors show: SPL's is CKG_STAT's. -/
def pllFed (s : State) (p : Nat) : Bool := p ≠ 0 || s.refOk (s.get Reg.CKG_STAT.REF_NOW)

/-- R376, R377: a reference is lost: 0 crystal, 1 REFCLK, 2 and 3 the recovered clock that LTXA and LTXB use. -/
def refLoss (s : State) (r : Nat) : State :=
  if ¬ s.running then s
  else if 2 ≤ r then
    if (s.pllState r = plLOCKED ∨ s.pllState r = plLOCKING) ∧ s.get (ltxRef (r - 2)) ≠ 16 then (s.ev Reg.CKG_EVT.REF_LOST).pllHold r else s
  else if ¬ s.refOk r then s
  else
    let s := (s.put (if r = 0 then Reg.CKG_STAT.XTAL_OK else Reg.CKG_STAT.REFCLK_OK) 0).ev Reg.CKG_EVT.REF_LOST
    if s.get Reg.CKG_STAT.REF_NOW ≠ r then s else
    let s := s.pllHold 0
    if s.get Reg.CKG_CFG.REF_SEL = 0 ∧ s.on Reg.CKG_CFG.FAILOVER ∧ s.refSteady (1 - r) then
      (s.put Reg.CKG_STAT.REF_NOW (1 - r)).ev Reg.CKG_EVT.FAILOVER
    else s

/-- R376: HOLD has passed 2 µs without a reference. -/
def coast (s : State) (p : Nat) : State :=
  if s.running ∧ s.pllState p = plHOLD ∧ ¬ (p = 0 ∧ s.pllFed p) then (s.put (pllRef p) plCOAST).ev Reg.CKG_EVT.COAST else s

/-- R373, R374, R376: a PLL reaches LOCKED. At start-up SPL takes REFCLK where the crystal has not qualified. -/
def pllLock (s : State) (p : Nat) : State :=
  let st := s.pllState p
  if ¬ s.running then s
  else if p = 0 ∧ st = plOFF then
    if s.refOk 1 ∧ ¬ s.refOk 0 then (s.put Reg.CKG_STAT.REF_NOW 1).put Reg.CKG_STAT.SPL plLOCKED else s
  else if (st = plLOCKING ∨ st = plHOLD) ∧ s.pllFed p then s.put (pllRef p) plLOCKED
  else s

/-- R378: multiplexer `m` forces a switch. -/
def forcedSwitch (s : State) (m : Nat) : State :=
  if s.running then ((s.put Reg.CKG_STAT.LAST_FSW m).inc Reg.FSW_CNT.COUNT).ev Reg.CKG_EVT.FORCED_SW else s

/-- R373, R376–R378: a Set has applied REF_SEL: SPL goes to the reference it asks for, and leaves COAST where that is valid. -/
def refSelect (s : State) : State :=
  let sel := s.get Reg.CKG_CFG.REF_SEL
  let r := if sel = 0 then (if s.refOk 0 then 0 else 1) else sel - 1
  let s := s.put Reg.CKG_STAT.REF_NOW r
  if s.pllState 0 = plCOAST ∧ s.pllFed 0 then s.put Reg.CKG_STAT.SPL plLOCKING else s

/-- R12, R376: a line transmit PLL moves its reference; one that coasted or held locks to the new one. -/
def ltxTake (s : State) (p : Nat) : State :=
  let t := s.ltxMove p
  if t.get (ltxRef p) = s.get (ltxRef p) then t
  else if t.pllState (2 + p) = plCOAST then t.put (pllRef (2 + p)) plLOCKING
  else if t.pllState (2 + p) = plHOLD then t.put (pllRef (2 + p)) plLOCKED
  else t

/-- R397: bank `b` is cleared to zero and given a fresh CRC. -/
def rbClear (s : State) (b : Nat) : State :=
  (s.clearMem (memRB + b)).pw fun p => { p with rbCrc := upd p.rbCrc b fun _ => rbCrcZero }

/-- JNL_STAT follows word 0 of RB3 (R302). -/
def jnlLoad (s : State) : State := s.setLive (Reg.JNL_STAT.addr []) (s.cell (memRB + 3) 0).data

/-- R397, R298: the retention banks are judged at the start of power-up self-test. A bank whose contents a reset has lost reads as
lost. -/
def rbCheck (s : State) : State :=
  let c := s.get Reg.RST_CAUSE.CODE
  if c = rcPOR ∨ c = rcWAKE_OFF then s.put Reg.PWR_RB_STAT.BANKS 0xFF else
  let s := s.each (List.range 4) fun s b =>
    let m := memRB + b
    let s := s.each ((s.memAt m).cells.map (·.1)) fun s a => s.settle m a .device 3
    let bad := (s.memAt m).pages.any (fun p => p.2.map ≠ 0) || (s.memAt m).cells.any (fun p => p.2.syndrome ≠ 0) ||
      decide (s.pwr.rbCrc.getD b 0 ≠ s.rbCrcOf b)
    let code := if bad then 2 else 1
    let s := s.put Reg.PWR_RB_STAT.BANKS (setBits (s.get Reg.PWR_RB_STAT.BANKS) (2 * b + 1) (2 * b) code)
    if bad then (s.rbClear b).ev Reg.PWR_EVT.RB_FAIL else s
  if bits (s.get Reg.PWR_RB_STAT.BANKS) 7 6 = 2 then s.put Reg.JNL_STAT.OUTCOME 6 else s.jnlLoad

/-- The addresses of the registers that keep their values through every reset but POR and WAKE_OFF (R381, R384, R400). -/
def keptAddrs : List Nat :=
  [Reg.CKG_STAT.base, Reg.CKG_EVT.base, Reg.RST_SEEN.base, Reg.PWR_STAT.base, Reg.PWR_EVT.base, Reg.PWR_CFG.base,
   Reg.PWR_SUP_STAT.base, Reg.PWR_RB_STAT.base, Reg.PWR_REFUSE_CNT.base, Reg.PWR_ABORT_CNT.base, Reg.SUP_WARN_CNT.base,
   Reg.WAKE_RETRY_CNT.base, Reg.SHUT_STAT.base]

/-- R431, R435, R438–R440: what OTP holds outlives every reset. -/
def otpKept (old : Sec) : Sec :=
  { secReset with identity := old.identity, seed := old.seed, keys := old.keys, certBase := old.certBase, cert := old.certBase
                  epochs := old.epochs }

/-- The registers that show what OTP holds: LCS_STAT's STATE and IDENTITY_PRESENT, SEC_ARB, SEC_KEYS, SEC_ATT_STAT's epochs. -/
def otpRegs (s t : State) : State :=
  let t := (t.put Reg.LCS_STAT.STATE (s.get Reg.LCS_STAT.STATE)).put Reg.LCS_STAT.IDENTITY_PRESENT (s.get Reg.LCS_STAT.IDENTITY_PRESENT)
  let t := (t.put Reg.SEC_ARB.LEVEL (s.get Reg.SEC_ARB.LEVEL)).put Reg.SEC_KEYS.SLOTS (s.get Reg.SEC_KEYS.SLOTS)
  t.put Reg.SEC_ATT_STAT.EPOCHS (s.get Reg.SEC_ATT_STAT.EPOCHS)

/-- R381, R397: what a reset that reruns self-test leaves before its code is recorded; `lost` where it loses the retention banks as
well. -/
def resetBase (s : State) (lost : Bool) : State :=
  { reset with
    part := { s.part with strap := s.part.pins }
    sec := otpKept s.sec
    free := s.free
    pending := s.pending
    pwr := { pwrReset with barred := fusedDoms s.part, rbCrc := if lost then pwrReset.rbCrc else s.pwr.rbCrc }
    mem := if lost then memReset else
      { memReset with mems := memReset.mems.zipIdx.map fun p => if 7 ≤ p.2 && p.2 ≤ 10 then s.memAt p.2 else p.1 }
    clk := { clkReset with held := s.clk.held && !lost }
    jnl := { jnlReset with stagedLost := true } }

/-- R381, R383: a reset that reruns self-test, of code 0 to 5. The straps are sampled, and the journal of a kept bank is due to roll. -/
def resetSelf (s : State) (code : Nat) : State :=
  let lost := code = rcPOR || code = rcWAKE_OFF
  let t := s.resetBase lost
  let t := otpRegs s t
  let t := if lost then t else t.each keptAddrs fun t a => t.setLive a (s.liveAt a)
  let t := ((t.put Reg.PWR_STAT.STATE 0).put Reg.PWR_STAT.BUSY 0).put Reg.CKG_STAT.BUSMODE (bits s.part.pins 0 0)
  let refs := !lost && code ≠ rcWAKE_DEEP
  let t := if refs then t else (t.put Reg.CKG_STAT.XTAL_OK 0).put Reg.CKG_STAT.REFCLK_OK 0
  let t := ((((t.put Reg.CKG_STAT.LRX 0).put Reg.CKG_STAT.LTXA 0).put Reg.CKG_STAT.LTXB 0).put Reg.CKG_STAT.HPL 0)
  let t := (t.put Reg.CKG_STAT.LTXA_REF 16).put Reg.CKG_STAT.LTXB_REF 16
  let t := t.put Reg.CKG_STAT.SPL (if t.refOk (t.get Reg.CKG_STAT.REF_NOW) then plLOCKING else plOFF)
  let seen := if code = rcPOR then 1 else t.get Reg.RST_SEEN.SEEN ||| 2 ^ code
  let t := (t.put Reg.RST_CAUSE.CODE code).put Reg.RST_SEEN.SEEN (if code = rcWAKE_OFF then 2 ^ code else seen)
  t.whenB (code = rcTHERMAL) (·.ev Reg.THM_EVT.SHUT_SEEN)

/-- R382: the SPI and I3C interface state is reset; JTAG's stays. -/
def mgmtClear (s : State) : State :=
  let m := s.mgmt
  { s with mgmt := { mgmtReset with
      jtagIr := m.jtagIr, jtagDr := m.jtagDr, jtagStatus := m.jtagStatus, jtagAddr := m.jtagAddr, jtagData := m.jtagData, jtagMode := m.jtagMode, boundary := m.boundary } }

/-- R382: a WARM reset, in the tick whose boundary has come. -/
def warmReset (s : State) : State :=
  let s := s.coreReset
  let s := s.mgmtClear
  let s := s.put Reg.MEM_FRZ.FROZEN 0
  let s := (s.put Reg.RST_CAUSE.CODE rcWARM).put Reg.RST_SEEN.SEEN (s.get Reg.RST_SEEN.SEEN ||| 2 ^ rcWARM)
  s.whenB (s.get Reg.JNL_STAT.STATE ≠ 0) (·.jn fun j => { j with rollDue := true, stagedLost := false })

/-- A SEQ reset leaves its code in the reset registers (R381, R384). -/
def seqResetSeen (s : State) : State :=
  (s.put Reg.RST_CAUSE.CODE rcSEQ).put Reg.RST_SEEN.SEEN (s.get Reg.RST_SEEN.SEEN ||| 2 ^ rcSEQ)

/-- R382: a write to RST_CMD. -/
def rstCmd (s : State) (w : Word) : State :=
  let t := bits w.toNat 3 0
  if bits w.toNat 15 8 ≠ 0xA5 ∨ t = 0 ∨ 2 < t then s else s.ck fun c => { c with rstReq := max c.rstReq t }

end State
end Sys2Proof.Machine
end

