-- ==== Sys2Proof/Machine/Power.lean ====
section
/-! DEFINITION. Power requests, device states, wake and supply supervision (spec/19_power_states_and_domains.md R386–R400), and the
thermal shutdown (spec/14_skim_calibration_and_thermal.md R310). -/
namespace Sys2Proof.Machine

/-- Results of R389. -/
def prOK : Nat := 0
def prREFUSED : Nat := 1
def prABORTED : Nat := 2
def prBAD_REQ : Nat := 3
def prFUSED : Nat := 4
def prSUPPLY : Nat := 5
def prTIMEOUT : Nat := 6

/-- Wake sources of PWR_STAT.WAKE_SRC. -/
def wkPIN : Nat := 1
def wkREQUEST : Nat := 2
def wkEVENT : Nat := 3
def wkRING : Nat := 4
def wkTHERMAL : Nat := 5
def wkSCRIM : Nat := 6
def wkTIMER : Nat := 7
def wkBROWNOUT : Nat := 8

/-- STATE codes of R388. -/
def stRUN : Nat := 0
def stIDLE : Nat := 1
def stSLEEP : Nat := 2
def stDEEP : Nat := 3
def stOFF : Nat := 4

/-- R388: the fields of a request word. -/
def reqOp (w : Word) : Nat := bits w.toNat 47 44
def reqState (w : Word) : Nat := bits w.toNat 43 41
def reqFirst (w : Word) : Nat := bits w.toNat 5 0
def reqLast (w : Word) : Nat := bits w.toNat 5 0 + bits w.toNat 11 6

/-- R386: the domains that a state holds off. -/
def heldOff (st : Nat) : List Nat :=
  if st = stSLEEP then (List.range 57).filter fun d => !([0, 38, 41, 42, 43, 44, 47, 48, 51, 52, 53, 54, 55, 56].contains d)
  else if st = stDEEP then (List.range 57).filter fun d => !([0, 52, 53, 54, 55].contains d)
  else if st = stOFF then List.range 57
  else []

/-- R386: the domains that a state holds on. -/
def heldOn (st : Nat) : List Nat :=
  if st = stSLEEP then [0, 51, 52, 53, 54, 55, 56] else [0, 42, 43, 51, 52, 53, 54, 55, 56]

/-- R389: a request that ends with BAD_REQ. -/
def badReq (w : Word) : Bool :=
  let op := reqOp w
  if op = 3 then decide (4 < reqState w)
  else if op = 1 ∨ op = 2 then decide (56 < reqLast w) ||
    (op = 2 && [0, 51, 52, 53, 54, 55, 56].any fun d => decide (reqFirst w ≤ d) && decide (d ≤ reqLast w))
  else true

namespace State

/-- The code of the present state (R386). -/
def stateCode (s : State) : Nat := match s.pwr.state with | .idle => stIDLE | .sleep => stSLEEP | _ => stRUN

def pwrEv (s : State) (f : FRef) : State := s.ev f

/-- A request ends (R387, R389). -/
def pwrEnd (s : State) (result : Nat) : State :=
  let s := (s.pw fun p => { p with req := none }).put Reg.PWR_STAT.BUSY 0
  ((s.put Reg.PWR_STAT.RESULT result).ev Reg.PWR_EVT.DONE).seqEv 2

/-- R390: a request is refused by domain `d`. -/
def pwrRefuse (s : State) (d : Nat) : State :=
  (((s.inc Reg.PWR_REFUSE_CNT.COUNT).put Reg.PWR_STAT.REFUSER d).ev Reg.PWR_EVT.REFUSED).pwrEnd prREFUSED

/-- R64: the domain that refuses to go off because the Float serves. -/
def floatRefuses (s : State) (named : Nat → Bool) : Option Nat :=
  if ¬ s.floatServes then none
  else if named 25 then some 25 else if named 26 then some 26
  else if named (1 + s.floatLane) then some (1 + s.floatLane) else none

/-- R390: the refuser of a request, in the order of the table; none where nothing refuses. -/
def refuser (s : State) (w : Word) : Option Nat :=
  let op := reqOp w
  let st := reqState w
  let named (d : Nat) : Bool := decide (reqFirst w ≤ d) && decide (d ≤ reqLast w)
  let off := op = 2
  let deep := op = 3 && (st = stDEEP || st = stOFF)
  let now := s.stateCode
  let ringBusy := s.ringsSet.any fun r => (s.ringType r = ringCOMMAND || s.ringType r = ringCOMPLETION) && s.ringFill r ≠ 0
  let frames := (List.range 10).any fun j => (s.link j).unacked ≠ [] || (s.link j).waiting ≠ []
  let first (l : List Nat) : Option Nat := l.min?
  if op = 3 ∧ st ≠ stRUN ∧ (s.set.check.isSome ∨ s.get Reg.JNL_STAT.STATE ≠ 0) then some 56 else
  let held := if op = 1 then (heldOff now).filter named else if off then (heldOn now).filter named else []
  if held ≠ [] then first held else
  let needed := if off then s.neededDomains.filter named
    else if op = 3 ∧ stSLEEP ≤ st then s.neededDomains.filter (heldOff st).contains else []
  if needed ≠ [] then first needed else
  match (if off then s.floatRefuses named else none) with
  | some d => some d
  | none =>
    if off ∧ (named 39 ∨ named 40) ∧ (s.on Reg.TTE_CFG.TT_EN [0] ∨ s.on Reg.TTE_CFG.TT_EN [1]) then some (if named 39 then 39 else 40)
    else if ((off ∧ named 44) ∨ deep) ∧ (List.range 16).any (fun b => s.on Reg.BDC_CFG.EN [b]) then some 44
    else if ((off ∧ named 41) ∨ deep) ∧ ringBusy then some 41
    else if ((off ∧ named 48) ∨ deep) ∧ frames then some 48
    else none

/-- R64: what a power-down of the named domains does to the Float's engagement. -/
def floatPowerOff (s : State) (named : Nat → Bool) : State :=
  let p := s.phase
  if p = phIDLE ∨ s.floatServes then s
  else if named 25 ∨ named 26 ∨ (p ≠ phFLOAT_CAL ∧ named (1 + s.floatLane)) then
    if p = phTAKEOVER then
      let k := s.floatLane
      (s.floatPark.takeoverFail 0x18).setLane k fun l => { l with marking := false }
    else s.migAbort 0x18
  else s

/-- The domains of the target of a running in-service test. -/
def isDomains (s : State) : List Nat :=
  let t := s.isTarget
  match s.isTest with
  | 1 => [memDom t]
  | 2 => [t]
  | 3 => if t = 8 then [25, 26] else [1 + t, 17 + t]
  | _ => []

/-- R388: a request is made. Requests with a reserved OP are made, and end with BAD_REQ; OP NONE does nothing. -/
def pwrRequest (s : State) (m : Master) (w : Word) : State :=
  if reqOp w = 0 ∨ s.pwr.req.isSome then s else
  (s.pw fun p => { p with req := some ⟨w, m, false, false, [], [], 0, prOK, false⟩ }).put Reg.PWR_STAT.BUSY 1

/-- R394: a wake from IDLE or SLEEP begins: from SLEEP the line and the host PLLs that the entry stopped lock again. -/
def wakeBegin (s : State) : State :=
  let s := s.each s.pwr.stopped fun s d => s.domainOn d
  s.pw fun p => { p with waking := true, stopped := [] }

/-- Enters RUN (R391, R394). The domains that RUN holds on come on with it. -/
def enterRun (s : State) : State :=
  let s := (s.pw fun p => { p with state := .run, waking := false }).put Reg.PWR_STAT.STATE stRUN
  let s := s.sq fun q => { q with clkStopped := false }
  s.each [42, 43] fun s d => s.whenB (!s.domOn d) (·.domainOn d)

/-- Enters IDLE (R391). -/
def enterIdle (s : State) : State :=
  let s := s.each [42, 43] fun s d => s.whenB (!s.domOn d) (·.domainOn d)
  ((s.pw fun p => { p with state := .idle, waking := false }).put Reg.PWR_STAT.STATE stIDLE).sq fun q => { q with clkStopped := true }

/-- The request in progress. -/
def setReq (s : State) (f : PwrReq → PwrReq) : State := s.pw fun p => { p with req := p.req.map f }

/-- R390–R392: the request whose tick boundary has come starts: it is judged, and its domains lie in order before it. -/
def pwrStart (s : State) : State :=
  match s.pwr.req with
  | none => s
  | some r =>
    if r.started ∨ ¬ r.due then s else
    let w := r.word
    let op := reqOp w
    let st := reqState w
    if badReq w then s.pwrEnd prBAD_REQ
    else if s.supplyWarned then s.pwrEnd prSUPPLY
    else match s.refuser w with
    | some d => s.pwrRefuse d
    | none =>
      let l := (List.range 57).filter fun d => decide (reqFirst w ≤ d) && decide (d ≤ reqLast w)
      let named (d : Nat) : Bool := if op = 2 then l.contains d else op = 3 && stSLEEP ≤ st && (heldOff st).contains d
      let s := s.whenB (op ≠ 3 && l.any s.isDomains.contains || op = 3 && s.isDomains.any named) isAbort
      let s := s.floatPowerOff named
      let go (todo : List Nat) (step result : Nat) : State :=
        s.setReq fun r => { r with started := true, due := false, todo := todo, step := step, result := result }
      if op = 1 then
        let barred := l.filter s.domBarred
        go (l.filter fun d => !s.domOn d && !s.domBarred d) 0 (if barred = [] then prOK else prFUSED)
      else if op = 2 then go ((l.filter s.domOn).reverse) 0 prOK
      else if st = stRUN then
        if s.pwr.state == .run then s.pwrEnd prOK
        else (s.put Reg.PWR_STAT.WAKE_SRC wkREQUEST).wakeBegin.setReq fun r => { r with started := true }
      else if st = stIDLE then s.enterIdle.pwrEnd prOK
      else go (((heldOff st).filter fun d => s.domOn d && !([0, 49, 50, 51, 52, 53, 54, 55, 56].contains d)).reverse) 2 prOK

/-- R387, R392: the next domain of the request switches. The switches of a state entry and of its undoing change power alone: nothing
of the domains is lost before the point of no return. -/
def domainSwitch (s : State) : State :=
  match s.pwr.req with
  | none => s
  | some r =>
    if ¬ r.started then s else
    match r.todo with
    | [] =>
      if reqOp r.word = 3 ∧ stDEEP ≤ reqState r.word ∧ r.step = 3 ∧ ¬ r.aborting then
        ((s.setDom 56 false).setDom 51 false).setReq fun r => { r with step := 4, done := 51 :: 56 :: r.done }
      else s
    | d :: rest =>
      let s := s.setReq fun r => { r with todo := rest, due := false }
      if r.aborting then ((s.setDom d true).setReq fun r => { r with done := r.done.filter (· ≠ d) }).whenB (49 ≤ d && d ≤ 51) (·.setPlls d 1) |>.domRefresh
      else if reqOp r.word = 1 then s.domainOn d
      else if reqOp r.word = 2 then s.domainOff d
      else ((s.setDom d false).setReq fun r => { r with done := d :: r.done }).domRefresh

/-- R387: the next domain does not reach power-good: it is left off, and the request ends. -/
def powerGoodTimeout (s : State) : State :=
  match s.pwr.req with
  | some r => if r.started ∧ reqOp r.word = 1 ∧ r.todo ≠ [] then s.pwrEnd prTIMEOUT else s
  | none => s

/-- R387, R392: the tick boundary after the last switch: the request completes. -/
def pwrDone (s : State) : State :=
  match s.pwr.req with
  | some r =>
    if ¬ r.started ∨ ¬ r.due ∨ r.todo ≠ [] then s
    else if r.aborting then
      ((s.pw fun p => { p with waking := false }).inc Reg.PWR_ABORT_CNT.COUNT).ev Reg.PWR_EVT.ABORTED |>.pwrEnd prABORTED
    else if reqOp r.word = 3 then (if s.pwr.state == .run && reqState r.word = stRUN then s.pwrEnd prOK else s)
    else s.pwrEnd r.result
  | none => s

/-- R388, R392: what a tick boundary does to the request: it may start or complete, and a state entry reaches step 3. -/
def pwrTick (s : State) : State :=
  match s.pwr.req with
  | none => s
  | some r =>
    if ¬ r.started then s.setReq fun r => { r with due := true }
    else if reqOp r.word = 3 ∧ stSLEEP ≤ reqState r.word ∧ ¬ r.aborting then
      if r.step ≠ 2 then s else
      let off := r.todo ++ [50, 49].filter s.domOn
      let s := s.each off fun s d => s.setDom d false
      ((s.setPlls 49 plOFF).setPlls 50 plOFF).setReq (fun r => { r with todo := [], done := off.reverse ++ r.done, step := 3 }) |>.domRefresh
    else s.setReq fun r => { r with due := r.todo = [] }

/-- R392: the point of no return of a state entry. What the domains held is lost, and the new state takes hold. -/
def noReturn (s : State) : State :=
  match s.pwr.req with
  | none => s
  | some r =>
    let st := reqState r.word
    if ¬ r.started ∨ r.aborting ∨ reqOp r.word ≠ 3 then s
    else if st = stSLEEP ∧ r.step = 3 then
      let s := s.each r.done domainOff
      ((s.pw fun p => { p with state := .sleep, stopped := [49, 50].filter r.done.contains }).put Reg.PWR_STAT.STATE stSLEEP).pwrEnd prOK
    else if st = stDEEP ∧ r.step = 4 then
      (s.pwrEnd prOK).pw fun p => { p with state := .deep, waking := false }
    else if st = stOFF ∧ r.step = 4 then
      (s.pwrEnd prOK).pw fun p => { p with state := .off, waking := false, on := 0 }
    else s

/-- R393: source `src` is enabled by PWR_CFG, and its condition stands where the state shows one. -/
def wakeEnabled (s : State) (src : Nat) : Bool :=
  if src = wkPIN then s.on Reg.PWR_CFG.EN_PIN || s.pwr.state == .off
  else if src = wkEVENT then s.get Reg.SEQ_EVPEND.PEND % 2 ^ 16 &&& s.get Reg.PWR_CFG.IDLE_WAKE ≠ 0
  else if src = wkRING then s.on Reg.PWR_CFG.EN_CMD
  else if src = wkTHERMAL then s.on Reg.PWR_CFG.EN_THM && (List.range 12).any fun n => (s.get Reg.LIM_STAT.FLAGS).testBit (4 * n + 3)
  else if src = wkSCRIM then s.on Reg.PWR_CFG.EN_SCR && s.domOn 48
  else if src = wkTIMER then s.on Reg.PWR_CFG.EN_TMR && s.get Reg.PWR_CFG.WAKE_TMR ≠ 0
  else if src = wkREQUEST then s.pwr.req.any fun r => reqOp r.word = 3 && reqState r.word = stRUN
  else src = wkBROWNOUT

/-- R393: the sources that act in a state. -/
def wakeActs (src st : Nat) : Bool :=
  if src = wkPIN then true
  else if src = wkEVENT then st = stIDLE
  else if src = wkTIMER then st = stSLEEP || st = stDEEP
  else if src = wkBROWNOUT then st = stDEEP
  else st = stIDLE || st = stSLEEP

/-- R392–R394: a wake qualifies: it abandons a state entry, or ends IDLE, SLEEP, DEEP or OFF. -/
def wakeBy (s : State) (src : Nat) : State :=
  if ¬ s.wakeEnabled src then s else
  let src' (s : State) : State := s.put Reg.PWR_STAT.WAKE_SRC src
  match s.pwr.state with
  | .deep => if wakeActs src stDEEP then src' (s.resetSelf rcWAKE_DEEP) else s
  | .off => if src = wkPIN then src' (s.resetSelf rcWAKE_OFF) else s
  | .wakeFail => s
  | _ =>
    match s.pwr.req with
    | some r =>
      if r.started ∧ reqOp r.word = 3 ∧ stSLEEP ≤ reqState r.word then
        if r.aborting ∨ ¬ wakeActs src (reqState r.word) then s else
        let step := if r.done = [] ∧ r.step = 2 then 1 else r.step
        ((src' s).put Reg.PWR_STAT.ABORT_STEP step).setReq fun r => { r with aborting := true, due := false, todo := r.done }
      else if s.pwr.state != .run && wakeActs src s.stateCode then src' s.wakeBegin else s
    | none => if s.pwr.state != .run && wakeActs src s.stateCode then src' s.wakeBegin else s

/-- R391, R394: the tick boundary after a wake, from SLEEP after its PLLs have locked, enters RUN. A request for RUN ends with it. -/
def wakeTick (s : State) : State :=
  if ¬ s.pwr.waking ∨ s.pwr.state == .run ∨ s.pwr.state == .sleep && [0, 1, 4].any fun p => s.pllState p = plLOCKING then s else
  let s := s.enterRun
  match s.pwr.req with
  | some r => if r.started ∧ reqOp r.word = 3 ∧ reqState r.word = stRUN then s.pwrEnd prOK else s
  | none => s

/-- R395: an attempt to start or to wake fails: `cause` 1 a regulator, 2 the reference. -/
def wakeRetry (s : State) (cause : Nat) : State :=
  if ¬ s.running ∨ s.thm.tick ≠ 0 then s
  else if s.pwr.retries < 3 then
    let s := (s.inc Reg.WAKE_RETRY_CNT.COUNT).pw fun p => { p with retries := p.retries + 1 }
    ((s.put Reg.CKG_STAT.XTAL_OK 0).put Reg.CKG_STAT.REFCLK_OK 0).put Reg.CKG_STAT.SPL plOFF
  else
    let s := s.put Reg.PWR_STAT.FAIL_CAUSE cause
    s.pw fun p => { p with state := .wakeFail, on := 1 }

/-- R396: the limiter has held its limit in DEEP for 10 µs. -/
def brownout (s : State) : State :=
  if s.pwr.state == .deep then (s.ev Reg.PWR_EVT.BROWNOUT).wakeBy wkBROWNOUT else s

/-- R398: whether a rail is watched: in DEEP only VIN_AON. -/
def railWatched (s : State) (r : Nat) : Bool :=
  r = 0 || (s.pwr.state != .deep && s.pwr.state != .off)

def railBits (s : State) (r v : Nat) : State := s.put Reg.PWR_SUP_STAT.RAILS (setBits (s.get Reg.PWR_SUP_STAT.RAILS) (2 * r + 1) (2 * r) v)

/-- R398, R399: rail `r` crosses its warning level. -/
def supWarn (s : State) (r : Nat) : State :=
  if ¬ s.railWatched r ∨ (s.get Reg.PWR_SUP_STAT.RAILS).testBit (2 * r) then s else
  ((s.railBits r 1).inc Reg.SUP_WARN_CNT.COUNT).ev Reg.PWR_EVT.SUP_WARN

/-- R398: rail `r` crosses its reset level: a POR, a PIN-type reset that lasts until the warning clears, or an event. -/
def supReset (s : State) (r : Nat) : State :=
  if ¬ s.railWatched r then s
  else if r = 0 then s.resetSelf rcPOR
  else
    let s := (s.supWarn r).railBits r 3
    if r ≤ 3 then ((s.ev Reg.PWR_EVT.SUP_RESET).resetSelf rcPIN).ck fun c => { c with held := true }
    else s.ev Reg.PWR_EVT.SUP_RESET

/-- R398: the warning of rail `r` clears. A PIN-type reset that held the device is released, and the straps are sampled (R383). -/
def supClear (s : State) (r : Nat) : State :=
  let s := s.railBits r 0
  let s := s.whenB (!s.supplyWarned) (·.storeHeld)
  if [1, 2, 3].any fun r => (s.get Reg.PWR_SUP_STAT.RAILS).testBit (2 * r + 1) then s
  else if s.clk.held then
    ({ s with part := { s.part with strap := s.part.pins } } : State).ck fun c => { c with held := false }
  else s

/-- R310: sensor `n`'s comparator has stood at or above 125 °C for 10 µs. -/
def thermalShutdown (s : State) (n : Nat) : State :=
  if s.broken n ∨ s.pwr.shutdown then s else
  let s := (s.put Reg.SHUT_STAT.SENSOR n).put Reg.SHUT_STAT.COUNT (min 65535 (s.get Reg.SHUT_STAT.COUNT + 1))
  s.pw fun p => { p with shutdown := true, req := none, on := BitVec.ofNat 57 (1 + 2 ^ 52 + 2 ^ 53 + 2 ^ 54 + 2 ^ 55) }

/-- R310: every comparator has stood below 100 °C for 1 ms. -/
def thermalRestart (s : State) : State := if s.pwr.shutdown then s.resetSelf rcTHERMAL else s

/-- R383: RESET_N was low for `ns` nanoseconds. Whether a pulse from 100 ns to 1 µs acts is a free value (log entry 1). -/
def pinReset (s : State) (ns : Nat) : State :=
  if ns < 100 ∨ s.pwr.shutdown then s
  else if 1000 ≤ ns then s.resetSelf rcPIN
  else if s.freeBits 1 = 1 then s.useFree.resetSelf rcPIN else s.useFree

end State
end Sys2Proof.Machine
end

