-- ==== Sys2Proof/Machine/SetOps.lean ====
section
/-! DEFINITION. The start of a consistency check (spec/13_programming_the_device.md R287, R288, R458). -/
namespace Sys2Proof.Machine.State

def st (s : State) (f : SetSt → SetSt) : State := { s with set := f s.set }

/-- What a check is for: a plain request, a journal step, a roll forward, a roll back. -/
def ckPLAIN : Nat := 0
def ckSTEP : Nat := 1
def ckROLL_FWD : Nat := 2
def ckROLL_BACK : Nat := 3

/-- R287: a check may start: none runs, and a rolling journal admits its own alone. -/
def mayCheck (s : State) (kind : Nat) : Bool :=
  s.set.check.isNone && (decide (s.get Reg.JNL_STAT.STATE < 2) || decide (ckROLL_FWD ≤ kind))

/-- R287, R288, R458: a check of the undercoat as it stands starts, where one may. -/
def startCheck (s : State) (m : Master) (kind : Nat) : State :=
  if ¬ s.mayCheck kind then s else
  let num := (s.set.count + 1) % 65536
  let s := s.st fun x => { x with count := num, marks := [], check := some ⟨num, m, s.under, kind, s.set.marks⟩ }
  let s := (s.put Reg.SET_STATUS.CHECK num).put Reg.SET_STATUS.MASTER m.code
  ((s.put Reg.SET_STATUS.STATE 1).put Reg.SET_STATUS.REASON 0).put Reg.SET_STATUS.ADDR 0

end Sys2Proof.Machine.State
end

