-- ==== Sys2Proof/Machine/Sec.lean ====
section
/-! DEFINITION. Self-test, life cycle, images, boot and attestation (spec/21_self_test_lifecycle_security.md). -/
namespace Sys2Proof.Machine

/-- Life-cycle states of R431. -/
def lcMANUFACTURE : Nat := 0
def lcPROVISIONED : Nat := 1
def lcFIELD : Nat := 2
def lcRMA : Nat := 3
def lcEND : Nat := 4

/-- BST_STAT.STATE. -/
def bsRUNNING : Nat := 0
def bsPASSED : Nat := 1
def bsDEGRADED : Nat := 2
def bsCRITICAL : Nat := 3

/-- Image results of R435. -/
def irOK : Nat := 0
def irEMPTY : Nat := 1
def irBAD_HEADER : Nat := 2
def irVARIANT : Nat := 3
def irUNC : Nat := 4
def irKEY : Nat := 5
def irECDSA : Nat := 6
def irLMS : Nat := 7
def irROLLBACK : Nat := 8

/-- The first word of an image (R435). -/
def imageMagic : Nat := 0x445833320001

namespace State

def sc (s : State) (f : Sec → Sec) : State := { s with sec := f s.sec }
def lcs (s : State) : Nat := s.get Reg.LCS_STAT.STATE
def bst (s : State) : Nat := s.get Reg.BST_STAT.STATE
def bootSrc (s : State) : Nat := bits s.part.strap 4 3

/-- BST_UNUSE as one number. -/
def unuse (s : State) : Nat := s.get Reg.BST_UNUSE0.DOMS + s.get Reg.BST_UNUSE1.DOMS * 2 ^ 48

/-- R427: domain `d` becomes unusable. -/
def unusable (s : State) (d : Nat) : State :=
  let n := s.unuse ||| 2 ^ d
  ((s.put Reg.BST_UNUSE0.DOMS (n % 2 ^ 48)).put Reg.BST_UNUSE1.DOMS (n / 2 ^ 48)).pw fun p => { p with barred := p.barred ||| BitVec.ofNat 57 (2 ^ d) }

/-- R428: a critical failure. -/
def critical (s : State) (cause : Nat) : State :=
  (s.put Reg.BST_STAT.STATE bsCRITICAL).put Reg.BST_CRIT.CAUSE cause

/-- R426, R427: the domains that a slice's failures make unusable, those already held off left out, and the sort of critical failure. -/
def testDomains (s : State) (sl : Nat) (fails : BitVec 57) : List Nat × Nat :=
  let on := (List.range 57).filter fails.getLsbD
  let l := match sl with
    | 2 => (on.filter fun m => decide (m ≤ 12)).map memDom
    | 3 => on.filter (1 ≤ ·)
    | 4 => on.filter fun d => d = 49 || d = 50
    | 5 => if on = [] then [] else [47]
    | 8 => (on.filter fun k => decide (k < 8)).map (9 + ·)
    | 9 => (on.filter fun k => decide (k < 8)).map (27 + ·)
    | _ => []
  let l := l.filter fun d => !s.domBarred d
  let crit := match sl with
    | 0 => if on = [] then 0 else 1
    | 1 => if on = [] then 0 else 2
    | 2 => if l.any fun d => d = 43 || d = 56 then 3 else 0
    | 3 => if l.any fun d => d = 56 || d = 42 || d = 51 then 4 else 0
    | _ => 0
  (l, crit)

/-- R70: the slices that fail SLICE_LOOP are retired; the Float goes to the lowest-numbered lane of them, from the reset seed. -/
def testSlices (s : State) (fails : List Nat) : State :=
  let own := fails.filter (· < 8)
  let s := s.each own retireSlice
  let ok := !fails.contains 8
  let s := if ok then s else (s.put Reg.MIG_STAT.FLOAT_OK 0).setSliceState 8 2
  match own.min? with
  | none => s
  | some k =>
    let dead := if ok then own.filter (· ≠ k) else own
    let s := s.each dead fun s j => s.setLane j fun l => { l with dead := true, marking := true }
    if ok then (s.setPhase phRETIRED).setFloatLane k else s

/-- R426: the blocks a self-test slice fails: those that `r` names, the block under test where the slice's budget expired, and in SLICE_LOOP
the slices whose calibration fails (R315). -/
def testBudget (sl : Nat) : Nat := [4000, 8000, 60000, 40000, 6000, 5000, 3000, 20000, 20000, 9000].getD sl 0
def calFails (p : CalMeas × CalMeas) : Bool := calResult 15 (calTrims 15 Trims.start p.1 p.2) (calVerify p.1 p.2) ≠ 0
def testFails (sl : Nat) (r : SelfTest) : BitVec 57 :=
  let late := if testBudget sl ≤ r.used.toNat then 2 ^ r.testing.val else 0
  let cals := if sl = 7 then (r.cals.zipIdx.filter fun p => calFails p.1).foldl (fun a p => a ||| 2 ^ p.2) 0 else 0
  r.fails ||| BitVec.ofNat 57 (late ||| cals)

/-- R313, R317, R426: SLICE_LOOP gives slice `sl` its trims, the four skew sets of final test and, where no calibration has stored a point
since power-on, its point of final test. -/
def testCal (s : State) (sl : Nat) (p : CalMeas × CalMeas) : State :=
  let v := calVerify p.1 p.2
  let s := s.whenB (s.slicePowered sl) (·.setLive (Reg.FCAL_QUAL.addr [sl]) (fcalQual v.res v.spur.toNat))
  let kind (k n : Nat) : List Int := (List.range n).map (Config.finalTrim sl k)
  let s := s.setCal sl fun c =>
    { c with trims := calTrims 15 c.trims p.1 p.2
             skewSets := (List.range 4).map fun b => (List.range 64).map (Config.finalSkew sl b)
             points := if c.stored = 0 then [⟨Config.finalTemp sl, kind 0 64, kind 1 64, kind 2 4, 0⟩] else c.points }
  s.put Reg.FCAL_STAT.POINTS (s.cal sl).points.length [sl]
def testTrims (s : State) (l : List (CalMeas × CalMeas)) (fails : List Nat) : State :=
  s.each (l.zipIdx.filter fun p => decide (p.2 < 9) && !fails.contains p.2) fun s p => s.testCal p.2 p.1

/-- A word that self-test loads into the live and the undercoat copy of a staged register (R133, R194). -/
def loadBoth (s : State) (a : Nat) (w : Word) : State :=
  { s.setLive a w with under := RegFile.set s.under a w }

/-- R433: the nonce is drawn: 32 octets of free values (log entry 1). -/
def drawNonce (s : State) : State :=
  s.each (List.range 6) fun s i =>
    (s.put Reg.LCS_NONCE.DATA (if i = 5 then s.freeBits 16 * 2 ^ 32 else s.freeBits 48) [i]).useFree

/-- R133, R139: a word of TX_DAC_TRIMm as self-test loads it: reserved bits 0, a trim from −31. -/
def dacTrim (w : Word) : Word :=
  let f (hi lo : Nat) : Nat := if bits w.toNat hi lo = 32 then 33 else bits w.toNat hi lo
  BitVec.ofNat 48 (f 17 12 * 2 ^ 12 + f 11 6 * 2 ^ 6 + f 5 0)

/-- R194, R198: the registers of the path delays, kind by kind. -/
def dlyAddr (i : Nat) : Nat :=
  if i < 8 then Reg.DLY_LRX.addr [i] else if i < 16 then Reg.DLY_LTX.addr [i - 8] else if i < 24 then Reg.DLY_FLT.addr [i - 16]
  else if i < 40 then Reg.DLY_HRX.addr [i - 24] else if i < 56 then Reg.DLY_HTX.addr [i - 40] else Reg.DLY_PPS.addr []

/-- R426, R427: slice `sl` of power-up self-test has run. -/
def selfTest (s : State) (sl : Nat) (r : SelfTest) : State :=
  if ¬ s.running ∨ s.bst ≠ bsRUNNING ∨ s.thm.tick = 0 ∨ s.on Reg.BST_SLICE.RUN [sl] ∨
    (List.range sl).any fun i => !s.on Reg.BST_SLICE.RUN [i] then s else
  let s := s.whenB (sl = 0) rbCheck
  let fails := testFails sl r
  let on := (List.range 57).filter fails.getLsbD
  let on := if sl = 7 then on.filter fun k => !(s.domBarred (if k = 8 then 25 else 1 + k) || s.domBarred (if k = 8 then 26 else 17 + k)) else on
  let (doms, crit) := s.testDomains sl fails
  let failed := crit ≠ 0 || doms ≠ [] || ((sl = 6 || sl = 7) && on ≠ [])
  let s := ((s.put Reg.BST_SLICE.RUN 1 [sl]).put Reg.BST_SLICE.PASS (b2n !failed) [sl])
  let s := (s.put Reg.BST_SLICE.OVERTIME (b2n (testBudget sl ≤ r.used.toNat)) [sl]).put Reg.BST_SLICE.USED r.used.toNat [sl]
  let first := (List.range sl).all fun i => s.on Reg.BST_SLICE.PASS [i]
  let s := s.whenB (failed && first) (·.put Reg.BST_STAT.FIRST_FAIL sl)
  let s := s.each doms unusable
  let s := match sl with
    | 1 => s.drawNonce
    | 6 => s.each (on.filter (· < 12)) fun s n =>
        (s.put Reg.SENS_FLT.BROKEN (s.get Reg.SENS_FLT.BROKEN ||| 2 ^ n)).thmEv Reg.THM_EVT.SENS_FAULT
    | 7 => (s.testTrims r.cals on).testSlices (on.filter (· < 9))
    | 8 =>
      let s := s.each (r.dac.zipIdx.take 32) fun s p =>
        if s.domBarred (9 + p.2 / 4) then s else s.loadBoth (Reg.TX_DAC_TRIM.addr [p.2 / 4, p.2 % 4]) (dacTrim p.1)
      s.each (r.dly.zipIdx.take 57) fun s p => s.loadBoth (dlyAddr p.2) (p.1.setWidth 48)
    | _ => s
  s.whenB (crit ≠ 0) (·.critical crit)

/-- R475: the descriptors that the boot ROM stages for rings 0 to 3. -/
def bootRings : List Nat :=
  let w (base ty prod cons : Nat) := base * 2 ^ 28 + 4 * 2 ^ 24 + ty * 2 ^ 21 + prod * 2 ^ 18 + cons * 2 ^ 15 + 4
  [w 0 ringCOMMAND 1 3, w 0x40 ringCOMPLETION 3 1, w 0x80 ringCOMMAND 2 3, w 0xC0 ringCOMPLETION 3 2]

/-- R426, R427, R437, R475: self-test ends after `us` µs: the rest of the device is released, and the boot ROM starts. -/
def selfTestEnd (s : State) (us : Nat) : State :=
  if s.bst ≠ bsRUNNING ∨ (List.range 10).any fun i => !s.on Reg.BST_SLICE.RUN [i] then s else
  let clean := (List.range 10).all fun i => s.on Reg.BST_SLICE.PASS [i]
  let s := (s.put Reg.BST_STAT.TIME us).put Reg.BST_STAT.STATE (if clean then bsPASSED else bsDEGRADED)
  let s := s.each ((List.range 57).filter fun d => s.domOn d && s.domBarred d) domainOff
  let s := s.jn fun j => { j with rollDue := s.get Reg.JNL_STAT.STATE ≠ 0 }
  let s := s.sc fun x => { x with booting := true }
  let s := s.whenB (s.bootSrc = 2 && !s.domBarred 48) (·.domainOn 48)
  let s := s.whenB (s.bootSrc = 1) (·.put Reg.MEM_OWN1.OWN (setBits (s.get Reg.MEM_OWN1.OWN) 23 21 6))
  let s := s.each bootRings.zipIdx fun s p => s.setUnder (Reg.RNG_CFG.addr [p.2]) (BitVec.ofNat 48 p.1)
  s.startCheck .quaran ckPLAIN

/-- The words of a slot loaded since BEGIN. -/
def image (s : State) (slot : Nat) : List (Nat × Word) := if slot = 0 then s.sec.imageA else s.sec.imageB
def setImage (s : State) (slot : Nat) (l : List (Nat × Word)) : State :=
  s.sc fun x => if slot = 0 then { x with imageA := l } else { x with imageB := l }
def imgWord (s : State) (slot o : Nat) : Nat := ((kvGet (s.image slot) o).getD 0).toNat
def imgN (s : State) (slot : Nat) : Nat := bits (s.imgWord slot 2) 15 0
def imgResult (slot : Nat) : FRef := if slot = 0 then Reg.SEC_IMGA.RESULT else Reg.SEC_IMGB.RESULT
def imgLevel (slot : Nat) : FRef := if slot = 0 then Reg.SEC_IMGA.LEVEL else Reg.SEC_IMGB.LEVEL
def imgVersion (slot : Nat) : FRef := if slot = 0 then Reg.SEC_IMGA.VERSION else Reg.SEC_IMGB.VERSION
def runningSlot (s : State) : Nat := b2n s.seq.slotB
def isRunning (s : State) (slot : Nat) : Bool := s.seq.imageRuns && s.runningSlot = slot

/-- R435, R436: one image word is stored at offset `o` of a slot; an instruction lands in IMEM, a descriptor word in the calibration
store. -/
def storeImage (s : State) (slot o : Nat) (w : Word) : State :=
  let s := s.setImage slot (kvSet (s.image slot) o w)
  let n := s.imgN slot
  if 16 ≤ o ∧ o - 16 < 32768 ∧ (n = 0 ∨ o - 16 < n) then s.memWrite memIMEM (32768 * slot + (o - 16)) w .device
  else match Config.descHome slot (if o < 16 then o else o - n) with
    | some a => s.memWrite memCAL a w .device
    | none => s

/-- The instruction words of a slot as IMEM holds them, and whether any word of the slot or its descriptor is unusable. -/
def imgOctets (s : State) (slot : Nat) : List Byte :=
  ((List.range 16).map fun o => BitVec.ofNat 48 (s.imgWord slot o)).flatMap wordBytes ++
    (List.range (s.imgN slot)).flatMap fun i => wordBytes (s.cell memIMEM (32768 * slot + i)).data
def imgBad (s : State) (slot : Nat) : Bool :=
  (List.range (s.imgN slot)).any (fun i =>
    let a := 32768 * slot + i
    s.poisoned memIMEM a || (s.cell memIMEM a).syndrome ≠ 0) ||
  (List.range 477).any fun i => match Config.descHome slot i with
    | some a => s.poisoned memCAL a || (s.cell memCAL a).syndrome ≠ 0
    | none => false

/-- The first `n` octets of the trailer from its word `o` on. -/
def imgTrailer (s : State) (slot o n : Nat) : List Byte :=
  (((List.range ((n + 5) / 6)).map fun i => BitVec.ofNat 48 (s.imgWord slot (16 + s.imgN slot + o + i))).flatMap wordBytes).take n

/-- R431, R435: the hashes of the keys that a slot's image must carry, none where its key slot is not permitted. -/
def imgKey (s : State) (slot : Nat) : Option (Nat × Nat) :=
  let k := bits (s.imgWord slot 2) 17 16
  let key := s.sec.keys.getD k ⟨false, false, 0, 0⟩
  let mine := if key.present && !key.revoked then some (key.ecdsaHash, key.lmsHash) else none
  if s.lcs = lcMANUFACTURE then
    if s.sec.keys.any (·.present) then (if k = 0 then mine else none) else some Config.romTestKey
  else if s.lcs = lcPROVISIONED ∨ s.lcs = lcFIELD then mine
  else if s.lcs = lcRMA then (if k = 0 then mine else none)
  else none

/-- R435: the result of a slot's verification: the first test that fails. -/
def verifyImage (s : State) (slot : Nat) : Nat :=
  let l := s.image slot
  let w := s.imgWord slot
  let n := s.imgN slot
  let header := w 0 = imageMagic && decide (1 ≤ n) && decide (n ≤ 32768) && bits (w 1) 7 3 = 0 && w 2 < 2 ^ 18 &&
    ((List.range 13).all fun i => w (3 + i) = 0) && l.length = 477 + n && (kvGet l (476 + n)).isSome
  let msg := s.imgOctets slot
  let ek := s.imgTrailer slot 0 97
  let lk := s.imgTrailer slot 33 56
  if l = [] then irEMPTY
  else if ¬ header then irBAD_HEADER
  else if ¬ (w 1).testBit (s.part.variant - 1) then irVARIANT
  else if s.imgBad slot then irUNC
  else match s.imgKey slot with
  | none => irKEY
  | some (eh, lh) =>
    if Config.sha384 ek ≠ eh ∨ Config.sha256 lk ≠ lh then irKEY
    else if ¬ Config.ecdsaVerify ek (s.imgTrailer slot 17 96) msg then irECDSA
    else if ¬ Config.lmsVerify lk (s.imgTrailer slot 43 2508) msg then irLMS
    else if bits (w 1) 15 8 < s.get Reg.SEC_ARB.LEVEL then irROLLBACK
    else irOK

/-- R436: BEGIN. -/
def secBegin (s : State) (slot : Nat) : State :=
  if s.isRunning slot then s.put Reg.SEC_LOAD_STAT.RESULT 1
  else if s.get Reg.SEQ_SWAP.STATE = 2 then s.put Reg.SEC_LOAD_STAT.RESULT 2
  else
    let s := ((s.setImage slot []).put (imgResult slot) irEMPTY).put Reg.SEC_LOAD_ADDR.OFFSET 0
    (s.put Reg.SEC_LOAD_STAT.RESULT 0).sc fun x => { x with loadSlot := some slot, verifying := x.verifying.filter (· ≠ slot) }

/-- R435, R436: VERIFY starts the verification of a slot. -/
def secVerify (s : State) (slot : Nat) : State :=
  (s.put Reg.SEC_LOAD_STAT.BUSY 1).sc fun x =>
    { x with verifying := if x.verifying.contains slot then x.verifying else x.verifying ++ [slot] }

/-- R436: a write to SEC_LOAD_DATA. -/
def secLoadData (s : State) (w : Word) : State :=
  let o := s.get Reg.SEC_LOAD_ADDR.OFFSET
  match s.sec.loadSlot with
  | some slot => if s.isRunning slot then s else (s.storeImage slot o w).put Reg.SEC_LOAD_ADDR.OFFSET (o + 1)
  | none => s

/-- R437: the ROM starts an image: at the next tick boundary, with SEC's owner returned after a host push (R475). -/
def bootStart (s : State) (slot : Nat) : State :=
  let s := s.whenB (s.bootSrc = 1) (·.put Reg.MEM_OWN1.OWN (setBits (s.get Reg.MEM_OWN1.OWN) 23 21 0))
  s.sc fun x => { x with startDue := some slot, booting := false }

/-- R409, R435: the device reads a slot's words in IMEM and those of its descriptor, correcting what it can. -/
def imgSettle (s : State) (slot : Nat) : State :=
  let s := s.settleRun memIMEM (32768 * slot) (32768 * slot + s.imgN slot)
  s.each ((List.range 477).filterMap (Config.descHome slot)) fun s a => s.settleRun memCAL a (a + 1)

/-- R435, R437: the verification of the oldest waiting slot ends. A booting ROM starts the image, or goes on to slot B. -/
def verifyDone (s : State) : State :=
  match s.sec.verifying with
  | [] => s
  | slot :: rest =>
    let s := s.imgSettle slot
    let r := s.verifyImage slot
    let s := s.sc fun x => { x with verifying := rest }
    let s := ((s.put (imgResult slot) r).put (imgVersion slot) (bits (s.imgWord slot 1) 47 16)).put (imgLevel slot) (bits (s.imgWord slot 1) 15 8)
    let s := s.whenB (rest = []) (·.put Reg.SEC_LOAD_STAT.BUSY 0)
    let s := s.whenB (s.bootSrc = 2 && s.sec.booting && r ≠ irOK) (·.sc fun x => { x with bootOfs := 0 })
    if s.sec.booting ∧ r = irOK ∧ (slot = 0 ∨ s.bootSrc = 0) then s.bootStart slot else s

/-- R437: with QSPI, the words of the next slot to load are read from flash and verified: A first, then B. -/
def bootRead (s : State) (words : List Word) : State :=
  if s.bootSrc ≠ 0 ∨ s.bst = bsRUNNING ∨ s.bst = bsCRITICAL ∨ ¬ s.running then s else
  let load (s : State) (slot : Nat) : State :=
    ((s.setImage slot []).each words.zipIdx fun s p => s.storeImage slot p.2 p.1).secVerify slot
  if s.sec.imageA = [] ∧ s.sec.booting then load s 0
  else if s.sec.imageB = [] ∧ s.sec.verifying = [] ∧ ¬ s.isRunning 1 then load s 1
  else s

/-- R299, R437: at a tick boundary the ROM's image starts: the core is reset, and slot 0 alone is enabled. -/
def startSlot (s : State) (slot : Nat) : State :=
  let s := s.coreReset
  let s := s.each (List.range 32) fun s i => (s.put Reg.SEQ_TASK.EN 0 [i]).put Reg.SEQ_TSTAT.PENDING 0 [i]
  let s := s.setLive (Reg.SEQ_TASK.addr [0]) (BitVec.ofNat 48 (2 ^ 47))
  (s.put Reg.SEQ_TSTAT.RESUME 0 [0]).sq fun q => { q with slotB := slot = 1, imageRuns := true }

/-- R438: the anti-rollback level rises to a target (log entry 12: OTP operations end at once). -/
def arbTo (s : State) (level : Nat) : State := s.put Reg.SEC_ARB.LEVEL (max (s.get Reg.SEC_ARB.LEVEL) (min 64 level))

/-- R431: the states in which revocation and anti-rollback bits are writable. -/
def otpOpen (s : State) : Bool := decide (s.lcs ≤ lcFIELD)

/-- R431, R438: a write to SEC_ARB_ADV. -/
def arbAdvance (s : State) (w : Word) : State :=
  let t := bits w.toNat 6 0
  if bits w.toNat 47 40 = 0x69 ∧ s.otpOpen ∧ s.seq.imageRuns ∧ t ≤ s.get (imgLevel s.runningSlot) then s.arbTo t else s

/-- R431, R438: a write to SEC_REVOKE. -/
def revoke (s : State) (w : Word) : State :=
  if bits w.toNat 47 40 ≠ 0x69 ∨ ¬ s.otpOpen then s else
  let k := bits w.toNat 1 0
  (s.put Reg.SEC_KEYS.SLOTS (s.get Reg.SEC_KEYS.SLOTS ||| 2 ^ (2 * k + 1))).sc fun x =>
    { x with keys := upd x.keys k fun y => { y with revoked := true } }

/-- R434: the secrets are cleared and read back, and the seed is blocked. -/
def clearSecrets (s : State) : State :=
  (s.sc fun x => { x with seedBlocked := true, epoch := none, attesting := false }).put Reg.LCS_STAT.SECRETS_CLEARED 1

/-- R431, R434: internal scan or the JTAG debug master is to be enabled. -/
def scanEnable (s : State) : State :=
  if s.lcs = lcMANUFACTURE ∨ s.lcs = lcRMA then s.clearSecrets.put Reg.LCS_STAT.SCAN_OPEN 1 else s

/-- R433: the token held is valid. -/
def tokenValid (s : State) : Bool :=
  let oct (a n l : Nat) := (((List.range n).map fun i => (kvGet s.sec.token (a + i)).getD 0).flatMap wordBytes).take l
  let key := s.sec.keys.getD 0 ⟨false, false, 0, 0⟩
  let msg := octets 8 s.sec.identity.toNat ++
    (((List.range 6).map fun i => s.liveAt (Reg.LCS_NONCE.addr [i])).flatMap wordBytes).take 32
  key.present && Config.tokenVerify key.ecdsaHash key.lmsHash (oct 0 16 96) (oct 16 418 2508) msg

/-- R432: the outcome of a requested move; `otp` tells whether programming verifies. -/
def lcsOutcome (s : State) (t : Nat) (otp : Bool) : Nat :=
  let l := s.lcs
  let allowed := (l = lcMANUFACTURE && t = lcPROVISIONED) || (l = lcPROVISIONED && t = lcFIELD) ||
    ((l = lcPROVISIONED || l = lcFIELD) && t = lcRMA) || (l ≠ lcEND && t = lcEND)
  if ¬ allowed then 1
  else if t = lcPROVISIONED ∧ ¬ (s.on Reg.LCS_STAT.IDENTITY_PRESENT ∧ s.sec.certBase ≠ [] ∧ (s.sec.keys.getD 0 ⟨false, false, 0, 0⟩).present) then 2
  else if t = lcRMA ∧ ¬ s.tokenValid then 3
  else if ¬ otp then 4 else 0

/-- R432, R434: a write to LCS_CTL. -/
def lcsMove (s : State) (w : Word) (otp : Bool) : State :=
  if bits w.toNat 47 40 ≠ 0x96 then s else
  let t := bits w.toNat 2 0
  let r := s.lcsOutcome t otp
  let s := s.whenB (t = lcRMA && (r = 0 || r = 4)) fun s =>
    (s.sc fun x => { x with seed := 2 ^ 256 - 1 }).put Reg.LCS_STAT.IDENTITY_PRESENT 0
  if r = 0 then (s.put Reg.LCS_STAT.STATE t).resetSelf rcFULL else s.put Reg.LCS_RESULT.RESULT r

/-- R440: the image whose digest the alias key follows. -/
def imgDigest (s : State) (slot : Nat) : Nat := if s.image slot = [] then 0 else Config.sha384 (s.imgOctets slot)

/-- R440: a write of GO. -/
def attGo (s : State) : State :=
  let refuse (s : State) (r : Nat) : State := s.put Reg.SEC_ATT_STAT.RESULT r
  if s.sec.attesting then refuse s 4
  else if ¬ s.on Reg.SEC_CFG.ATT_EN ∨ ¬ (s.lcs = lcPROVISIONED ∨ s.lcs = lcFIELD) then refuse s 1
  else if s.sec.epoch.isNone ∧ 8192 ≤ s.sec.epochs then refuse s 3
  else if s.sec.epoch.isSome ∧ 1024 ≤ s.sec.leaves then refuse s 2
  else
    let s := match s.sec.epoch with
      | some _ => s
      | none =>
        let e := s.sec.epochs
        let s := s.sc fun x => { x with epoch := some e, epochs := e + 1, leaves := 0 }
        (s.put Reg.SEC_ATT_STAT.EPOCHS (e + 1)).put Reg.SEC_ATT_STAT.LEAVES 1024
    (s.sc fun x => { x with attesting := true, attNonce := (List.range 6).map fun i => s.liveAt (Reg.SEC_ATT_NONCE.addr [i]) }).put
      Reg.SEC_ATT_STAT.BUSY 1

/-- R440, R443: the words of octets, the last padded with zeros. -/
def octetWords (l : List Byte) : Nat → List Word
  | 0 => []
  | n + 1 => bytesWord (l.take 6 ++ List.replicate (6 - (l.take 6).length) 0) :: octetWords (l.drop 6) n

/-- R440: the report is ready. -/
def attDone (s : State) : State :=
  if ¬ s.sec.attesting then s else
  let e := s.sec.epoch.getD 0
  let q := s.sec.leaves
  let dig := s.imgDigest s.runningSlot
  let w0 := 1 * 2 ^ 44 + s.lcs * 2 ^ 41 + s.get Reg.SEC_ARB.LEVEL * 2 ^ 34 + s.runningSlot * 2 ^ 33 + e * 2 ^ 20 + q * 2 ^ 10
  let nonce := (s.sec.attNonce.flatMap wordBytes).take 32
  let id := s.sec.identity.toNat
  let head := [BitVec.ofNat 48 w0] ++ octetWords nonce 6 ++ octetWords (octets 48 (s.imgDigest 0)) 8 ++
    octetWords (octets 48 (s.imgDigest 1)) 8 ++
    [BitVec.ofNat 48 (id / 2 ^ 16), BitVec.ofNat 48 (id % 2 ^ 16), BitVec.ofNat 48 s.ticks]
  let msg := head.flatMap wordBytes
  let report := head ++ octetWords (Config.aliasSign s.sec.seed dig msg) 16 ++ octetWords (Config.lmsSign s.sec.seed e q msg) 418
  let s := s.sc fun x => { x with
    attesting := false, leaves := q + 1, report := report, cert := Config.aliasCerts x.certBase x.seed dig e }
  ((s.put Reg.SEC_ATT_STAT.BUSY 0).put Reg.SEC_ATT_STAT.RESULT 0).put Reg.SEC_ATT_STAT.LEAVES (1024 - (q + 1))

/-- R439, R440: the chain word and the report word selected. -/
def certWord (s : State) : Word := s.sec.cert.getD (s.get Reg.SEC_CERT_ADDR.WORD) 0
def reportWord (s : State) : Word := s.sec.report.getD (s.get Reg.SEC_ATT_ADDR.WORD) 0

/-- R433: a write to LCS_TOK_DATA. -/
def tokWrite (s : State) (w : Word) : State :=
  s.sc fun x => { x with token := kvSet x.token (s.get Reg.LCS_TOK_ADDR.WORD) w }

/-- R429: an armed in-service test of kind `test` starts, or is refused where `ok` does not hold. -/
def isStart (s : State) (test : Nat) (ok : Bool) : State :=
  if ¬ (s.armed dueIs 0 ∧ s.get Reg.BST_IS_CTL.TEST = test) then s else
  let s := s.disarm dueIs 0
  if ok then (s.sc fun x => { x with isRun := true }).put Reg.BST_IS_STAT.SLICES 0
  else (s.put Reg.BST_IS_STAT.RESULT 3).put Reg.BST_IS_STAT.SEQ_DONE (s.get Reg.BST_IS_CTL.SEQ)

/-- R429: the conditions of the memory and the slice test. -/
def isMemOk (s : State) : Bool :=
  let m := s.get Reg.BST_IS_CTL.TARGET
  decide (m ≤ 12) && s.domOn (memDom m)
def isSliceOk (s : State) : Bool :=
  let k := s.get Reg.BST_IS_CTL.TARGET
  decide (k ≤ 8) && s.slicePowered k && s.inputIdle k

/-- R51, R429: the lowest sub-ADC that a residual outside its limits belongs to; a first-rank circuit's is the first one it feeds. -/
def subAdcBad (res : List Int) : Nat :=
  ((List.range 64).find? fun i => [3 * i, 3 * i + 1, 3 * i + 2, 192 + i % 4].any fun j => residualBad j (res.getD j (if j < 192 && j % 3 = 1 then 8388608 else 0))).getD 0

/-- R429: a slice of the test ends, having restored its target: a memory test's page, a logic test's batch (the last one where `last`),
the one slice of a slice test, which the residuals `res` judge (R315). The first failure is the one reported. -/
def isSliceEnd (s : State) (fail : Bool) (addr : Nat) (last : Bool) (res : List Int) : State :=
  if ¬ s.sec.isRun then s else
  let (fail, addr) := if s.isTest = 3 then (residualsBad res, subAdcBad res) else (fail, addr)
  let n := s.get Reg.BST_IS_STAT.SLICES
  let failedBefore := n ≠ 0 && s.get Reg.BST_IS_STAT.RESULT = 1
  let s := s.put Reg.BST_IS_STAT.SLICES (min 4095 (n + 1))
  let s := if n = 0 then (s.put Reg.BST_IS_STAT.RESULT 0).put Reg.BST_IS_STAT.FAIL_ADDR 0 else s
  let s := if fail ∧ ¬ failedBefore then (s.put Reg.BST_IS_STAT.RESULT 1).put Reg.BST_IS_STAT.FAIL_ADDR addr else s
  let ends := match s.get Reg.BST_IS_CTL.TEST with
    | 1 => decide (s.get Reg.BST_IS_CTL.COUNT ≤ n)
    | 2 => last
    | _ => true
  if ends then (s.sc fun x => { x with isRun := false }).put Reg.BST_IS_STAT.SEQ_DONE (s.get Reg.BST_IS_CTL.SEQ) else s

/-- R430: an access to word `a` of memory `m` hits the page under test. -/
def isPageHit (s : State) (m a : Nat) : Bool :=
  s.isTest = 1 && s.isTarget = m && a / 64 = s.get Reg.BST_IS_CTL.FIRST + s.get Reg.BST_IS_STAT.SLICES

/-- R437: no verified image has resulted in time: the Scrim boot starts again, at most three times. -/
def bootTimeout (s : State) : State :=
  match s.sec.bootTick with
  | some t =>
    if ¬ s.sec.booting ∨ s.bootSrc ≠ 2 ∨ s.ticks < t + 262144 then s
    else if s.sec.bootRestarts < 3 then
      (s.setImage 0 []).sc fun x => { x with bootOfs := 0, bootRestarts := x.bootRestarts + 1, bootTick := some s.ticks }
    else (s.sc fun x => { x with bootTick := none }).put Reg.BST_STAT.BOOT_FAIL 1
  | none => s

end State
end Sys2Proof.Machine
end

