-- ==== Sys2Proof/Machine/SetCheck.lean ====
section
/-! DEFINITION. The consistency check (spec/13_programming_the_device.md R289, R290, with the rules that name a failing Set) and its
end (R287, R288, R458). A condition answers the live addresses of the registers it involves, none where it holds. Where a condition
sets a register against the mode, GLB.MODE is among the registers involved (log entry 21). -/
namespace Sys2Proof.Machine
namespace State

/-- The undercoat words of a snapshot at an address. -/
abbrev Snap := List (Nat × Word)

/-- R6: a word holds a reserved code in one of its row's staged fields. OUTER_CFG and DPS pack a code per host lane. -/
def reservedIn (a : Nat) (w : Word) : Bool :=
  match rowOf a with
  | none => false
  | some (r, _) =>
    r.acc == .st && (r.fields.any (fun f => f.acc == .st && f.rsv.any fun p =>
      decide (p.1 ≤ bits w.toNat f.hi f.lo) && decide (bits w.toNat f.hi f.lo ≤ p.2)) ||
    (a = Reg.OUTER_CFG.base && (List.range 16).any fun n => decide (5 ≤ bits w.toNat (3 * n + 2) (3 * n))) ||
    (a = Reg.DPS.base && (List.range 16).any fun n => bits w.toNat (2 * n + 1) (2 * n) = 3))

/-- R320 and R339: codes that two fields make together: SRC TX_LEVEL on LNF, a bit field beyond bit 47, a MON channel beyond 3. -/
def reservedPairs (u : Snap) : List Nat :=
  ((List.range 4).filterMap fun c =>
    if stagedF u Reg.MON_CFG.SRC [c] = 5 ∧ stagedF u Reg.MON_CFG.LANE [c] = 8 then some (Reg.MON_CFG.addr [c]) else none) ++
  ((List.range 16).filterMap fun m =>
    if 48 < stagedF u Reg.TRW_SRC.LSB [m] + stagedF u Reg.TRW_SRC.WIDTH [m] then some (Reg.TRW_SRC.addr [m]) else none) ++
  (List.range 16).filterMap fun m =>
    if stagedF u Reg.TRW_CFG.SRC_TYPE [m] = 1 ∧ 4 ≤ stagedF u Reg.TRW_CFG.SRC_SEL [m] then some (Reg.TRW_CFG.addr [m]) else none

/-- 0x01. -/
def chkReserved (u : Snap) : List Nat := ((u.filter fun p => reservedIn p.1 p.2).map (·.1)) ++ reservedPairs u

/-- The staged mode and format. -/
def uMode (u : Snap) : Nat := stagedF u Reg.MODE.CODE
def uFmt (u : Snap) (k : Nat) : Nat := stagedF u Reg.FRM_CFG.FORMAT [k]
def uTT (u : Snap) (g : Nat) : Bool := stagedF u Reg.TTE_CFG.TT_EN [g] = 1
def aMODE : Nat := Reg.MODE.base

/-- 0x03: R2, R3, R4. -/
def chkPart (s : State) (u : Snap) : List Nat :=
  let m := uMode u
  let t := if s.isT then [] else (List.range 2).filterMap fun g => if uTT u g then some (Reg.TTE_CFG.addr [g]) else none
  let y := if m = 9 ∧ ¬ s.isT then [aMODE] else []
  let d := if s.is1608 ∧ ([1, 2, 3, 8, 9].contains m ∨ (modeLanes m).any (fun k => uFmt u k = 0)) then [aMODE] else []
  t ++ y ++ d

/-- 0x04: R24. -/
def chkDomain (s : State) (u : Snap) : List Nat :=
  let m := uMode u
  let a := if (modeDomains m s.is1608).any fun d => !s.domOn d then [aMODE] else []
  let b := (List.range 2).filterMap fun g => if uTT u g ∧ [39, 40, 41].any (fun d => !s.domOn d) then some (Reg.TTE_CFG.addr [g]) else none
  a ++ b

/-- 0x05: R25. -/
def chkFormat (s : State) (u : Snap) : List Nat :=
  let m := uMode u
  if (modeLanes m).any fun k =>
    (match modeFormat m k with | some f => uFmt u k != f | none => false) ||
      (m = 11 && (2 ≤ uFmt u k || (s.is1608 && uFmt u k ≠ 1)))
  then [aMODE] else []

/-- 0x06: R375. -/
def chkPlan (s : State) (u : Snap) : List Nat :=
  let m := uMode u
  let want := if m = 3 ∨ m = 8 then 1 else if m = 11 then 2 else 0
  let ref := stagedF u Reg.CKG_CFG.REF_SEL
  (if m ≠ 0 ∧ stagedF u Reg.CKG_CFG.LTX_PLAN ≠ want then [aMODE, Reg.CKG_CFG.base] else []) ++
    (if (ref = 1 ∧ ¬ s.refOk 0) ∨ (ref = 2 ∧ ¬ s.refOk 1) then [Reg.CKG_CFG.base] else [])

/-- R160: the source of logical lane `n` in a crossbar word. -/
def selOf (w n : Nat) : Nat := bits w (3 * n + 2) (3 * n)
def xbarBad (w : Nat) : Bool :=
  [0, 8].any fun g => (List.range 8).any fun v => !(List.range 8).any fun i => selOf w (g + i) = v

/-- 0x07: R160. -/
def chkXbar (u : Snap) : List Nat :=
  (if xbarBad (stagedF u Reg.XBAR_RX.SEL) then [Reg.XBAR_RX.base] else []) ++
    (if xbarBad (stagedF u Reg.XBAR_TX.SEL) then [Reg.XBAR_TX.base] else [])

/-- R121: the staged PCS code of a host lane, and the lanes of its group. -/
def uPcs (u : Snap) (n : Nat) : Nat := bits (stagedF u Reg.OUTER_CFG.PCS) (3 * n + 2) (3 * n)
def uGroup (u : Snap) (n : Nat) : List Nat :=
  let w := pcsWidth (uPcs u n)
  (List.range w).map (n / w * w + ·)

/-- 0x08: R122. -/
def chkPcs (u : Snap) : List Nat :=
  if (List.range 16).any fun n => (uGroup u n).any fun i => uPcs u i ≠ uPcs u n then [Reg.OUTER_CFG.base] else []

/-- R199: the lane groups that a mode allows for time-transparent operation, and the line lanes of each. -/
def ttLanes (m g : Nat) : List Nat :=
  if m = 0 ∨ 10 ≤ m then []
  else if m = 3 ∨ m = 8 then (if g = 0 then [0, 1, 2, 3] else [4, 5, 6, 7])
  else if g = 0 then modeLanes m else []

/-- 0x09: R199, R200. -/
def chkTimeGroup (u : Snap) : List Nat :=
  let m := uMode u
  (List.range 2).flatMap fun g =>
    if ¬ uTT u g then [] else
    let hosts := (ttLanes m g).flatMap fun k => modeHosts m k (uFmt u k)
    if ttLanes m g = [] then [aMODE]
    else if hosts.any fun n => uPcs u n ≠ 0 && (uGroup u n).any fun i => !hosts.contains i then [aMODE] else []

/-- 0x0A: the sources of PLB_CTL. -/
def chkSource (u : Snap) : List Nat :=
  let m := uMode u
  let l := ([stagedF u Reg.PLB_CTL.SLOT0, stagedF u Reg.PLB_CTL.SLOT1, stagedF u Reg.PLB_CTL.SLOT2, stagedF u Reg.PLB_CTL.SLOT3]).filter (· ≠ 0)
  let scrim (j : Nat) : Bool := decide (8 ≤ j) || modeInband m j (uFmt u j)
  (if l.eraseDups.length < l.length then [Reg.PLB_CTL.base] else []) ++
    (if (l.contains 4 && m ≠ 9) || (l.contains 2 && !scrim (stagedF u Reg.PLB_CTL.SRC_LINK_A)) ||
        (l.contains 3 && !scrim (stagedF u Reg.PLB_CTL.SRC_LINK_B)) then [aMODE] else [])

/-- R175: the logical lane that a physical lane belongs to in a crossbar word. -/
def logicalOf (w ph : Nat) : Nat := ((List.range 8).find? fun i => selOf w (ph / 8 * 8 + i) = ph % 8).getD 0 + ph / 8 * 8

/-- 0x0B: R44, R175. -/
def chkPattern (u : Snap) : List Nat :=
  let m := uMode u
  let line := m ≠ 12 && m ≠ 13 && (List.range 8).any fun k => stagedF u Reg.PAT_CTL.TX_PAT [k] ≠ 0 || stagedF u Reg.PAT_CTL.RX_PAT [k] ≠ 0
  let busy (x : Nat) (ph : Nat) : Bool :=
    let n := logicalOf x ph
    bits (stagedF u Reg.DPS.CODES) (2 * n + 1) (2 * n) ≠ 1
  let host := m ≠ 12 && (List.range 16).any fun n =>
    (stagedF u Reg.HS_PAT_CTL.TX_PAT [n] ≠ 0 && busy (stagedF u Reg.XBAR_TX.SEL) n) ||
    (stagedF u Reg.HS_PAT_CTL.RX_PAT [n] ≠ 0 && busy (stagedF u Reg.XBAR_RX.SEL) n)
  if line || host then [aMODE] else []

/-- 0x0C: R165. Under TX_EQ_SRC 0 the taps come from the CMIS codes. -/
def chkFir (u : Snap) : List Nat :=
  (List.range 16).filterMap fun n =>
    let t (f : FRef) : Nat := (sx 10 (stagedF u f [n])).natAbs
    let p := stagedF u Reg.HS_TX_CTL.CMIS_PRE [n]
    let q := stagedF u Reg.HS_TX_CTL.CMIS_POST [n]
    let sum := if stagedF u Reg.HS_TX_CTL.TX_EQ_SRC [n] = 1 then
        t Reg.HS_TX_FIR0.CM2 + t Reg.HS_TX_FIR0.CM1 + t Reg.HS_TX_FIR0.C0 + t Reg.HS_TX_FIR1.C1 + t Reg.HS_TX_FIR1.C2 + t Reg.HS_TX_FIR1.C3
      else 8 * p + 8 * q + ((256 : Int) - 8 * (p + q : Nat)).natAbs
    if 256 < sum then some (Reg.HS_TX_CTL.addr [n]) else none

/-- 0x0D: R129. -/
def chkRender (u : Snap) : List Nat :=
  u.filterMap fun p =>
    match rowOf p.1 with
    | some (r, _) =>
      let v := sx 16 p.2.toNat
      if (r.base = Reg.RND_FIR.base ∧ (v < -16384 ∨ 16384 < v)) ∨ (r.base = Reg.RND_PD.base ∧ (v < -256 ∨ 255 < v)) then some p.1 else none
    | none => none

/-- R352: the state of loop `m` that a snapshot leaves it in: a command whose SEQ changes, or else its present state. -/
def uLoopState (s : State) (u : Snap) (m : Nat) : Nat :=
  if stagedF u Reg.TRW_CMD.SEQ [m] ≠ s.get Reg.TRW_CMD.SEQ [m] then stagedF u Reg.TRW_CMD.STATE [m] else s.loopState m

/-- 0x0E: R352. -/
def chkSpan (s : State) (u : Snap) : List Nat :=
  let runs := (List.range 16).filter fun m => s.uLoopState u m ≠ tsOFF
  let dac (m : Nat) := stagedF u Reg.TRW_CFG.BDAC [m]
  (runs.filter fun m => runs.any fun i => decide (i ≠ m) && dac i = dac m).map (fun m => Reg.TRW_CFG.addr [m]) ++
  ((List.range 16).flatMap fun b =>
    (if stagedF u Reg.BDC_CFG.SPAN [b] = 3 ∧ stagedF u Reg.BDC_CFG.EN [b] = 1 ∧ stagedF u Reg.BDC_GLB.BMID_EN = 0 then
      [Reg.BDC_GLB.base, Reg.BDC_CFG.addr [b]] else []) ++
    (if stagedF u Reg.BDC_CFG.SPAN [b] ≠ s.get Reg.BDC_CFG.SPAN [b] then
      (runs.filter fun m => dac m = b).flatMap fun m => [Reg.TRW_CFG.addr [m], Reg.BDC_CFG.addr [b]] else []))

/-- The rings that a snapshot describes. -/
def uRings (u : Snap) : List Nat :=
  (u.filter fun p => decide (0x280000 ≤ p.1) && decide (p.1 < 0x288000) && decide (p.1 % 4 = 0)).map fun p => (p.1 - 0x280000) / 4
def uTy (u : Snap) (r : Nat) : Nat := stagedF u Reg.RNG_CFG.TYPE [r]
def uBase (u : Snap) (r : Nat) : Nat := stagedF u Reg.RNG_CFG.BASE [r]
def uSize (u : Snap) (r : Nat) : Nat := 2 ^ stagedF u Reg.RNG_CFG.SIZE_EXP [r]

/-- 0x0F: the first five conditions of R220, with the ring numbers of R219. -/
def chkLayout (s : State) (u : Snap) : List Nat :=
  let rs := (uRings u).filter fun r => uTy u r ≠ 0
  let one := rs.filter fun r =>
    decide (uBase u r % (4 * uSize u r) ≠ 0) ||
      (if uTy u r ≤ 2 then decide (16 ≤ r) else decide (r < 16)) ||
      rs.any fun q => decide (q ≠ r) && decide (uBase u q < uBase u r + 4 * uSize u r) && decide (uBase u r < uBase u q + 4 * uSize u q)
  let busy := (uRings u ++ s.ringsSet).filter fun r =>
    s.ringFill r ≠ 0 && bits (RegFile.get u (Reg.RNG_CFG.addr [r])).toNat 47 15 ≠ bits (s.liveAt (Reg.RNG_CFG.addr [r])).toNat 47 15
  let mark := (uRings u).filter fun r => decide (uSize u r < stagedF u Reg.RNG_CFG.WMARK [r])
  (one ++ mark ++ busy).map fun r => Reg.RNG_CFG.addr [r]

/-- 0x10: R220, R241, R267. Ring 0 names none. -/
def chkRingRef (u : Snap) : List Nat :=
  let wrong (r ty : Nat) (a : Nat) : List Nat := if r ≠ 0 ∧ uTy u r ≠ ty then [a, Reg.RNG_CFG.addr [r]] else []
  let small (r : Nat) : List Nat := if r ≠ 0 ∧ uSize u r < 16 then [Reg.SCR_CFG2.base, Reg.RNG_CFG.addr [r]] else []
  ((List.range 4).flatMap fun m => wrong (stagedF u Reg.EVT_CFG.RING [m]) ringTIMESTAMP (Reg.EVT_CFG.addr [m])) ++
  ((List.range 2).flatMap fun g => wrong (stagedF u Reg.TTE_CFG.REC_RING [g]) ringTIMESTAMP (Reg.TTE_CFG.addr [g]) ++
    wrong (stagedF u Reg.TTE_CFG.EVT_RING [g]) ringEVENT (Reg.TTE_CFG.addr [g])) ++
  wrong (stagedF u Reg.SEQ_TRC_CFG.RING) ringEVENT Reg.SEQ_TRC_CFG.base ++
  wrong (stagedF u Reg.SCR_CFG2.RX_RING) ringFABRX Reg.SCR_CFG2.base ++ wrong (stagedF u Reg.SCR_CFG2.TX_RING) ringFABTX Reg.SCR_CFG2.base ++
  small (stagedF u Reg.SCR_CFG2.RX_RING) ++ small (stagedF u Reg.SCR_CFG2.TX_RING)

/-- R290: channel `c` breaks a rule. -/
def channelBad (u : Snap) (c : Nat) : Bool :=
  let a := 2 * c
  let b := 2 * c + 1
  let prod (r : Nat) := stagedF u Reg.RNG_CFG.PROD [r]
  let cons (r : Nat) := stagedF u Reg.RNG_CFG.CONS [r]
  if uTy u a = ringCOMMAND then
    uTy u b ≠ ringCOMPLETION || !([1, 2, 4, 5].contains (prod a)) || cons a ≠ 3 || prod b ≠ 3 || cons b ≠ prod a
  else uTy u a = ringCOMPLETION || uTy u b = ringCOMPLETION || uTy u b = ringCOMMAND

/-- 0x11: R290. -/
def chkOwner (u : Snap) : List Nat :=
  (List.range 8).flatMap fun c => if channelBad u c then [Reg.RNG_CFG.addr [2 * c], Reg.RNG_CFG.addr [2 * c + 1]] else []

/-- R285: the device changes the register itself at present: a coefficient, PGA_GAIN under AGC_EN, LLR_GAIN under LLR_AUTO. -/
def deviceHolds (s : State) (a : Nat) : Bool :=
  (coefOf a).isSome || (List.range 9).any fun b =>
    (a = Reg.RX_AFE.addr [b] && s.on Reg.RX_AFE.AGC_EN [b]) || (a = Reg.LLR_CTL.addr [b] && s.on Reg.EQ_CTL.LLR_AUTO [b])

/-- R285, R297: the live staged registers that the application of a snapshot changes. A register that the device holds changes only
where its undercoat had been written since the last Set when the check started: `marks` (R81). -/
def changes (s : State) (u : Snap) (marks : List Nat) : List Nat :=
  ((u.map (·.1)) ++ ((s.live.map (·.1)).filter fun a => (kvGet u a).isNone)).filter fun a =>
    stagedAt a && decide (RegFile.get u a ≠ s.liveAt a) && (!s.deviceHolds a || marks.contains a)

/-- 0x12: a step's pairs do not fit in the before-image area, words 4,096 to 8,191 (R296, R297). -/
def chkJnl (s : State) (c : Check) : List Nat :=
  let l := s.changes c.snap c.marks
  if c.jnl = ckSTEP ∧ 2048 < s.jnl.pairs + l.length then l else []

/-- R289: the code and address of a check's first failing condition, none where it passes. -/
def judge (s : State) (c : Check) : Option (Nat × Nat) :=
  let u := c.snap
  let tests : List (Nat × List Nat) :=
    [(0x01, chkReserved u), (0x02, s.set.poison), (0x03, s.chkPart u), (0x04, s.chkDomain u), (0x05, s.chkFormat u),
     (0x06, s.chkPlan u), (0x07, chkXbar u), (0x08, chkPcs u), (0x09, chkTimeGroup u), (0x0A, chkSource u),
     (0x0B, chkPattern u), (0x0C, chkFir u), (0x0D, chkRender u), (0x0E, s.chkSpan u), (0x0F, s.chkLayout u),
     (0x10, chkRingRef u), (0x11, chkOwner u), (0x12, s.chkJnl c)]
  (tests.find? fun t => t.2 ≠ []).map fun t => (t.1, t.2.min?.getD 0)

/-- The elements of either list. -/
def listUnion (a b : List Nat) : List Nat := a ++ b.filter fun x => !a.contains x

/-- R263: the undercoat writes held while the check ran are performed in their order. -/
def heldWrites (s : State) : State :=
  let l := s.set.held
  let s := s.st fun x => { x with held := [] }
  s.each l fun s p => s.setUnder p.1 p.2

/-- R299: the result of the roll of a journal is final: closed, with an outcome. -/
def jnlState (s : State) (st : Nat) : State := s.put Reg.JNL_STAT.STATE st
def jnlBusy (s : State) (b : Bool) : State := s.put Reg.JNL_STAT.BUSY (b2n b)

/-- JNL_STAT is mirrored in word 0 of RB3 (R302). -/
def jnlMirror (s : State) : State := s.rbWrite 3 0 (s.liveAt Reg.JNL_STAT.base) .device

/-- R297, R298: JNL_STAT.STATE and OUTCOME codes. -/
def jsCLOSED : Nat := 0
def jsOPEN : Nat := 1
def jsROLL_FWD : Nat := 2
def jsROLL_BACK : Nat := 3
def joDONE : Nat := 1
def joROLLED_FWD : Nat := 2
def joROLLED_BACK : Nat := 3
def joFAILED : Nat := 4
def joBAD_PLAN : Nat := 5
def joLOST : Nat := 6

/-- The journal closes with an outcome. -/
def jnlClose (s : State) (outcome : Nat) : State :=
  let s := ((s.put Reg.JNL_STAT.STATE jsCLOSED).put Reg.JNL_STAT.BUSY 0).put Reg.JNL_STAT.OUTCOME outcome
  (s.jnlMirror).jn fun j => { j with rollDue := false, step := 0 }

/-- R287, R288, R297, R298, R458: the running check ends. -/
def checkDone (s : State) : State :=
  match s.set.check with
  | none => s
  | some c =>
    let s := match s.judge c with
      | none =>
        let s := s.put Reg.SET_STATUS.STATE 2
        s.st fun x => { x with check := none, passed := some { c with marks := listUnion c.marks (x.passed.elim [] (·.marks)) } }
      | some (code, a) =>
        let s := ((s.put Reg.SET_STATUS.STATE 4).put Reg.SET_STATUS.REASON code).put Reg.SET_STATUS.ADDR a
        let s := s.st fun x => { x with check := none, marks := listUnion x.marks c.marks }
        if c.jnl = ckSTEP then (s.jnlBusy false).jnlMirror
        else if c.jnl ≠ ckPLAIN then s.jnlClose joFAILED
        else s
    s.heldWrites.seqEv 0

end State
end Sys2Proof.Machine
end

