-- ==== Sys2Proof/Machine/SetApply.lean ====
section
/-! DEFINITION. The application of a Set at a tick boundary, and the journal (spec/13_programming_the_device.md R285, R288,
R296–R298, R458; spec/01_machine.md R16, R17, R21). -/
namespace Sys2Proof.Machine

/-- Kinds of `due` that a tick boundary raises: the Set that passed, a changed throttle level, changed bands. -/
def dueSet : Nat := 10
def dueThr : Nat := 11
def dueBand : Nat := 12

namespace State

/-- R285: the live word of each changed register takes the snapshot's; the applied words keep those that the device may change. -/
def writeLive (s : State) (u : Snap) (l : List Nat) : State :=
  s.each l fun s a =>
    let w := RegFile.get u a
    let s := s.setLive a w
    if deviceField a then { s with applied := RegFile.set s.applied a w } else s

/-- A register family's member changed with the Set. -/
def hit (l : List Nat) (r : Row) (i : List Nat := []) : Bool := l.contains (r.addr i)

/-- The Set changed a field between states `o` and `s`. -/
def moved (s o : State) (f : FRef) (i : List Nat := []) : Bool := s.get f i ≠ o.get f i

/-- Changed sequence numbers and triggers arm what they start (R59, R72, R183, R192, R315, R346, R348, R365, R429). -/
def armStarts (s o : State) (l : List Nat) : State :=
  let s := s.whenB (s.moved o Reg.MIG_CTL.SEQ) (·.arm dueMig 0)
  let s := s.whenB (s.moved o Reg.ADJ_CTL.SEQ) (·.arm dueAdj 0)
  let s := s.each (List.range 8) fun s b => s.whenB (hit l Reg.FCAL_CTL [b] && s.moved o Reg.FCAL_CTL.SEQ [b]) (·.arm dueFcal b)
  let s := s.each (List.range 9) fun s b => s.whenB (hit l Reg.RX_CTL [b] && s.moved o Reg.RX_CTL.NOISE_REQ [b]) (·.arm dueNoise b)
  let s := s.each (List.range 4) fun s m => s.whenB (s.moved o Reg.EVT_CFG.SEQ [m]) (·.arm dueEvt m)
  let s := s.each (List.range 16) fun s m => s.whenB (hit l Reg.TRW_CMD [m] && s.moved o Reg.TRW_CMD.SEQ [m]) (·.arm dueLoop m)
  let s := s.each (List.range 16) fun s m => s.whenB (hit l Reg.TRW_STIP [m] && s.moved o Reg.TRW_STIP.SEQ [m]) (·.arm dueStip m)
  let s := s.whenB (s.moved o Reg.CAP_CMD.SEQ) (·.arm dueCap 0)
  s.whenB (s.moved o Reg.BST_IS_CTL.SEQ) (·.arm dueIs 0)

/-- R21, R63, R71: what a Set does to the Float's engagement with a lane. -/
def setFloat (s o : State) (l : List Nat) : State :=
  let k := s.floatLane
  let p := s.phase
  let lost := (s.moved o Reg.FRM_CFG.FORMAT [k]) || (o.mapped k && !s.mapped k)
  if p = phIDLE ∨ p = phFLOAT_CAL then s
  else if lost then s.migAbort 0x17
  else if l.any fun a => decide (laneBase k ≤ a) && decide (a < laneBase k + 0x1000) then
    (if p = phCONVERGE then s.beginConverge k else if p = phAGREE then (s.put Reg.MIG_STAT.TRIES_USED 0).latchPar else s)
  else s

/-- What an applied Set sets going besides the starts it arms. `w` names the registers whose undercoat had been written. -/
def setEffects (s o : State) (l w : List Nat) : State :=
  let s := s.armStarts o l
  let s := s.each (w.filter fun a => (coefOf a).isSome) loadSeed
  let s := s.each (w.filter fun a => deviceField a) loadGain
  let s := s.setFloat o l
  let s := s.whenB (w.contains (Reg.RX_AFE.addr [s.floatLane]) && !s.pgaOwn 8) fun s => s.floatPga s.floatLane
  let s := s.each (l.filterMap fun a => if 0x280000 ≤ a ∧ a < 0x288000 then some ((a - 0x280000) / 4) else none) ringClear
  let s := s.whenB (s.moved o Reg.TTE_HASH.SEED) flowInvalidateAll
  let s := s.each (List.range 4) fun s c => s.whenB (l.any fun a => decide (monBase c ≤ a) && decide (a < monBase c + 0x40)) (·.monApplied c)
  let s := s.whenB ([Reg.PLB_CTL.SLOT0, Reg.PLB_CTL.SLOT1, Reg.PLB_CTL.SLOT2, Reg.PLB_CTL.SLOT3].any fun f => s.moved o f) prioChanged
  let s := s.whenB (w.contains Reg.CKG_CFG.base) refSelect
  let s := s.each (List.range 16) fun s b => s.bdacApplied b (w.contains (Reg.BDC_CFG.addr [b]))
  let s := s.whenB (l.any fun a => a = Reg.THM_CFG.base || decide (Reg.THM_LIM.addr [0] ≤ a) && decide (a < Reg.THM_LIM.addr [12])) evalLevel
  let s := s.whenB (s.isDomains.any fun d => s.neededDomains.contains d && !o.neededDomains.contains d || l.any fun a => domAt a = some d) isAbort
  let s := s.each (List.range 16) fun s n =>
    let was := (s.hlane n).locked && o.pcsCode n ≠ 0 && o.pcsCode n ≠ (s.hlane n).typ
    s.whenB (s.pcsMismatch n && !was) (·.hostEv Reg.PAIR_EVT.PCS_MISMATCH (n / 2))
  (s.domRefresh.ltxChoose).capEv 46

/-- A run of words written to RB3 (R296, R297). -/
def rb3Writes (s : State) (l : List (Nat × Word)) : State :=
  let s := s.each l fun s p => s.memWrite (memRB + 3) p.1 p.2 .device
  s.pw fun p => { p with rbCrc := upd p.rbCrc 3 fun _ => s.rbCrcOf 3 }

/-- R297, R298: the journal after the application of one of its Sets; `o` is the state before it. -/
def jnlApplied (s o : State) (kind : Nat) (l : List Nat) : State :=
  if kind = ckSTEP then
    let n := s.jnl.pairs
    let s := s.rb3Writes (l.zipIdx.flatMap fun p =>
      [(4096 + 2 * (n + p.2), BitVec.ofNat 48 p.1), (4097 + 2 * (n + p.2), o.liveAt p.1)])
    let s := s.jn fun j => { j with pairs := n + l.length }
    let d := s.get Reg.JNL_STAT.DONE + 1
    let s := (s.put Reg.JNL_STAT.DONE d).jnlBusy false
    if s.get Reg.JNL_STAT.NSTEPS ≤ d then s.jnlClose joDONE else s.jnlMirror
  else if kind = ckROLL_FWD then
    let d := s.jnl.step + 1
    let s := (s.put Reg.JNL_STAT.DONE (max d (s.get Reg.JNL_STAT.DONE))).jn fun j => { j with step := d }
    if s.get Reg.JNL_STAT.NSTEPS ≤ d then s.jnlClose joROLLED_FWD else s.jnlMirror
  else if kind = ckROLL_BACK then s.jnlClose joROLLED_BACK
  else s

/-- R285, R288, R458: the snapshot that passed is applied at a tick boundary. -/
def setApply (s : State) : State :=
  match s.set.passed with
  | none => s
  | some c =>
    if ¬ s.armed dueSet 0 ∨ ¬ s.running ∨ s.supplyWarned then s else
    let o := s
    let u := c.snap
    let l := s.changes u c.marks
    let w := c.marks.filter stagedAt
    let seeds := w.filter fun a => (coefOf a).isSome
    let s := s.disarm dueSet 0
    let s := s.each ((List.range 16).filter fun n => stagedF u Reg.OUTER_CFG.PCS ≠ s.get Reg.OUTER_CFG.PCS && uPcs u n ≠ s.pcsCode n)
      fun s n => (((s.outerLock n true false).tteUnlock n true).outerLock n false false).tteUnlock n false
    let s := s.writeLive u l
    let s := s.st fun x => { x with passed := none, seeded := seeds, recent := true }
    let s := (s.put Reg.SET_APPLIED.CHECK c.num).put Reg.SET_APPLIED.TICK (s.ticks % 2 ^ 32)
    let s := s.whenB (s.get Reg.SET_STATUS.STATE = 2 && s.set.count = c.num) (·.put Reg.SET_STATUS.STATE 3)
    ((s.setEffects o l w).each (List.range 9) (·.commitTick w ·)).jnlApplied o c.jnl l

/-- R296: the pairs of the plan in RB3: END mark, address, value. -/
def planPairs (s : State) : List (Bool × Nat × Word) :=
  (List.range 2040).map fun i =>
    let a := (s.cell (memRB + 3) (16 + 2 * i)).data
    (a.getLsbD 47, bits a.toNat 23 0, (s.cell (memRB + 3) (17 + 2 * i)).data)

/-- R296: the pairs of step `k`: those that follow the `k`-th END mark, up to the next. -/
def stepPairs (l : List (Bool × Nat × Word)) (k : Nat) : List (Nat × Word) :=
  (l.foldl (fun (p : Nat × List (Nat × Word)) q =>
    (if q.1 then p.1 + 1 else p.1, if p.1 = k then p.2 ++ [q.2] else p.2)) (0, [])).2

/-- R5, R284, R297: a value is copied into the undercoat; a register that is not staged takes none. -/
def stageDirect (s : State) (a : Nat) (w : Word) : State :=
  match rowOf a with
  | some (r, _) =>
    if r.acc == .st then s.setUnder a (w &&& BitVec.ofNat 48 r.mask) else s
  | none => s

/-- Whether the words of the plan, or of the before-image area, that a journal operation reads are usable. -/
def rb3Usable (s : State) (lo hi : Nat) : Bool :=
  (List.range (hi - lo)).all fun i =>
    !s.poisoned (memRB + 3) (lo + i) && (s.cell (memRB + 3) (lo + i)).syndrome = 0

/-- R296: the plan's pairs up to the `k`-th END mark. -/
def planReach (l : List (Bool × Nat × Word)) (k : Nat) : Nat :=
  (l.foldl (fun (p : Nat × Nat) q => if k ≤ p.1 then p else (if q.1 then p.1 + 1 else p.1, p.2 + 1)) (0, 0)).2

/-- R402, R413: the plan is read up to the `k`-th END mark: the state, and whether every word of it can be used. -/
def planRead (s : State) (k : Nat) : State × Bool :=
  let s := s.settleRun (memRB + 3) 16 4096
  (s, s.rb3Usable 16 (16 + 2 * planReach s.planPairs k))

/-- R296: a write of OPEN. -/
def jnlOpen (s : State) (id fwd nsteps : Nat) : State :=
  if s.get Reg.JNL_STAT.STATE ≠ jsCLOSED then s else
  let r := s.planRead nsteps
  let s := r.1
  if ¬ r.2 then (s.put Reg.JNL_STAT.OUTCOME joFAILED).jnlMirror
  else if nsteps = 0 ∨ nsteps < fwd ∨ (s.planPairs.filter (·.1)).length < nsteps then
    (s.put Reg.JNL_STAT.OUTCOME joBAD_PLAN).jnlMirror
  else
    let s := ((s.put Reg.JNL_STAT.ID id).put Reg.JNL_STAT.NSTEPS nsteps).put Reg.JNL_STAT.FWD fwd
    let s := ((s.put Reg.JNL_STAT.DONE 0).put Reg.JNL_STAT.STATE jsOPEN).put Reg.JNL_STAT.OUTCOME 0
    (s.jn fun _ => ⟨0, false, false, 0⟩).jnlMirror

/-- R297, R298: step `k` of the plan goes into the undercoat, and its check starts. -/
def jnlStage (s : State) (m : Master) (kind k : Nat) : State :=
  let r := s.planRead (k + 1)
  let s := r.1
  if ¬ r.2 then s.jnlClose joFAILED else
  let s := s.each (stepPairs s.planPairs k) fun s p => s.stageDirect p.1 p.2
  ((s.jnlBusy true).startCheck m kind).jnlMirror

/-- R297: a write of STEP; none starts while a check runs, while a step is under way, or under a supply warning (R399). -/
def jnlStep (s : State) (m : Master) : State :=
  if s.get Reg.JNL_STAT.STATE ≠ jsOPEN ∨ s.on Reg.JNL_STAT.BUSY ∨ s.set.check.isSome ∨ s.supplyWarned then s
  else s.jnlStage m ckSTEP (s.get Reg.JNL_STAT.DONE)

/-- R298: the before-images of the applied steps, newest first, go into the undercoat, and their check starts. With none there is
nothing to undo. -/
def jnlBack (s : State) (m : Master) : State :=
  let n := s.jnl.pairs
  let s := (s.put Reg.JNL_STAT.STATE jsROLL_BACK).jnlBusy true
  let s := s.settleRun (memRB + 3) 4096 (4096 + 2 * n)
  if n = 0 then s.jnlClose joROLLED_BACK
  else if ¬ s.rb3Usable 4096 (4096 + 2 * n) then s.jnlClose joFAILED
  else
    let s := s.each ((List.range n).reverse) fun s i =>
      s.stageDirect (bits (s.cell (memRB + 3) (4096 + 2 * i)).data.toNat 23 0) (s.cell (memRB + 3) (4097 + 2 * i)).data
    ((s.jn fun j => { j with rollDue := false }).startCheck m ckROLL_BACK).jnlMirror

/-- R297: a write of ABORT: every applied step rolls back. While a check runs the roll waits for it. -/
def jnlAbort (s : State) (m : Master) : State :=
  if s.get Reg.JNL_STAT.STATE ≠ jsOPEN then s
  else if s.set.check.isSome ∨ s.set.passed.isSome ∨ s.supplyWarned then
    (((s.put Reg.JNL_STAT.STATE jsROLL_BACK).jnlBusy true).jn fun j => { j with rollDue := true, stagedLost := false }).jnlMirror
  else s.jnlBack m

/-- R298: a tick boundary after the release from a reset: a journal found OPEN rolls, one step at a time. -/
def jnlRoll (s : State) : State :=
  let st := s.get Reg.JNL_STAT.STATE
  if st = jsCLOSED ∨ ¬ s.running ∨ s.supplyWarned ∨ s.set.check.isSome ∨ s.set.passed.isSome then s
  else if s.jnl.rollDue then
    let lost := s.jnl.stagedLost
    if st = jsROLL_BACK ∨ s.get Reg.JNL_STAT.DONE < s.get Reg.JNL_STAT.FWD then (if lost then s.jnlClose joROLLED_BACK else s.jnlBack .device)
    else
      let k := if lost then 0 else s.get Reg.JNL_STAT.DONE
      let s := (s.put Reg.JNL_STAT.STATE jsROLL_FWD).jn fun j => { j with rollDue := false, step := k }
      if s.get Reg.JNL_STAT.NSTEPS ≤ k then s.jnlClose joROLLED_FWD else s.jnlStage .device ckROLL_FWD k
  else if st = jsROLL_FWD then s.jnlStage .device ckROLL_FWD s.jnl.step
  else s

/-- R296: a write to JNL_DATA: word 0 holds JNL_STAT, the plan is closed to writes while the journal is not CLOSED, and the
before-image area is read-only. -/
def jnlDataWrite (s : State) (w : Word) (who : Master) : State :=
  let a := s.get Reg.JNL_ADDR.WORD
  if a = 0 ∨ 4096 ≤ a ∨ (16 ≤ a ∧ s.get Reg.JNL_STAT.STATE ≠ jsCLOSED) then s else s.rbWrite 3 a w who

end State
end Sys2Proof.Machine
end

