-- ==== Sys2Proof/Machine/Boundary.lean ====
section
/-! DEFINITION. Application boundaries (spec/01_machine.md R19, R20): what each datapath stage takes of the live values, with the
rules that act there (R26, R50, R71, R78, R93, R100, R101, R113, R146). -/
namespace Sys2Proof.Machine.State

/-- What a slice's settings were before its stage took the live values: MAIN_POS, ADAPT_EN, DET. -/
structure SliceWas where
  p : Nat
  en : Bool
  det : Bool

def sliceWas (s : State) (b : Nat) : SliceWas :=
  ⟨s.use Reg.FFE_CTL.MAIN_POS [b], s.uses Reg.EQ_CTL.ADAPT_EN [b], s.uses Reg.EQ_CTL.DET [b]⟩

/-- R78: the FFE seed of a new main tap position; taps that the same Set wrote stay. -/
def mainMove (s : State) (sl : Nat) : State :=
  let p := s.mainPos sl
  let b := s.cfgOf sl
  let keep (i : Nat) : Bool := decide (33 ≤ i) || s.set.seeded.contains (coefAddr b i)
  let seed := seedCoefs p
  let pick (q : Int × Nat) : Int := if keep q.2 then q.1 else seed.getD q.2 0
  let s := s.setSlice sl fun x => { x with coefs := { x.coefs with c := x.coefs.c.zipIdx.map pick } }
  (s.publishCoefs sl).enterAcquire sl

/-- R100, R101: the detector follows the throttle level. `old` is DET as it was in use. -/
def detThrottle (s : State) (sl : Nat) (old : Bool) : State :=
  let det := s.uses Reg.EQ_CTL.DET [sl]
  let hot := decide (2 ≤ s.level)
  let x := s.slice sl
  let c := x.coefs.c
  if hot && det && !x.forced then
    let s := s.setSlice sl fun x => { x with forced := true, savedH := (c.drop 41).take 3 }
    if old then (s.setSlice sl fun x => { x with coefs := { x.coefs with c := upd c 39 fun _ => c.getD 40 0 } }).publishCoefs sl |>.sliceEv Reg.EQ_EVT.DET_SWITCH sl
    else s
  else if x.forced && !det then s.setSlice sl fun x => { x with forced := false }
  else if x.forced && !hot then
    let b := c.getD 39 0
    let h := clampI (coefRange 40 0).1 (coefRange 40 0).2 b
    let c' := c.take 40 ++ [h] ++ x.savedH
    let s := (s.setSlice sl fun x => { x with forced := false, coefs := { x.coefs with c := c' } }).publishCoefs sl
    (if h = b then s else s.sliceEv Reg.EQ_EVT.COEF_LIM sl).sliceEv Reg.EQ_EVT.DET_SWITCH sl
  else s

/-- The stages of a slice, whose settings were `w`, take its settings, and its active bank (R78, R80, R93, R100). -/
def sliceTake (s : State) (sl : Nat) (w : SliceWas) : State :=
  let en := s.uses Reg.EQ_CTL.ADAPT_EN [sl]
  let s := if en ∧ (s.slice sl).adapt = adOFF then
      s.setSlice sl fun x => { x with adapt := if s.sigDet sl then adACQUIRE else adHOLD, acqTicks := 0, acqWhole := false, fromTrack := false }
    else if ¬ en then s.setSlice sl fun x => { x with adapt := adOFF, acqTicks := 0, fromTrack := false }
    else s
  let s := if s.mainPos sl = w.p then s else s.mainMove sl
  (s.detThrottle sl w.det).activate sl

/-- The receive registers of lane `k` that the stages take. -/
def takeRx (s : State) (k : Nat) : State :=
  let l := laneBase k
  let s := ((s.takeIn l (l + 1)).takeIn (l + 0x10) (l + 0x14)).takeIn (l + 0x80) (l + 0xAB)
  (s.takeIn (l + 0x40) (l + 0x40)).takeIn (l + 0x48) (l + 0x48)

/-- R20: the Float takes values at the received frame boundary of lane `k`: it serves lane `k`, or it observes lane `k`'s receive signal with
its own frame lock LOCKED. -/
def floatAtRx (s : State) (k : Nat) : Bool :=
  s.floatLane = k && (s.floatServes ||
    ((s.phase = phCONVERGE || s.phase = phAGREE || s.phase = phSWAP_WAIT || s.phase = phTAKEOVER || s.phase = phOBSERVE_RX) &&
      (s.frame 8).st = fsLOCKED))

/-- R19, R20: the Float's stages take the live values. -/
def floatStep (s : State) : State :=
  let was := s.sliceWas 8
  (s.floatTake).sliceTake 8 was

/-- R71: the Float in TAKEOVER or RETIRED on a lane that a Set has unmapped. -/
def floatUnmapped (s : State) (k : Nat) : State :=
  if s.floatLane ≠ k then s
  else if s.phase = phTAKEOVER then ((s.retireSlice k).floatPark.migResult 0x17).setLane k fun l => { l with marking := false }
  else if s.phase = phRETIRED then s.floatPark.migResult 0x17
  else s

/-- A received frame boundary of lane `k`: its receive stages, decoder, ingress gearbox and host transmit take the live values. -/
def rxBoundary (s : State) (k : Nat) : State :=
  let was := s.sliceWas k
  let set (s : State) := (s.lockFmt k, if s.lockFmt k = fmtSTANDARD then 0 else s.use Reg.FRM_CFG.LOCK_TOL [k], s.use Reg.RX_AFE.RX_POL [k], s.mainPos k)
  let old := set s
  let oldPat := s.use Reg.PAT_CTL.RX_PAT [k]
  let oldMode := s.rxMode k
  let s := (s.takeRx k).take (Reg.IN_CFG.addr [k])
  let s := { s with inUse := RegFile.set s.inUse (rxModeAddr k) (BitVec.ofNat 48 s.mode) }
  let s := s.sliceTake k was
  let s := s.whenB (s.floatAtRx k) floatStep
  let s := s.whenB (old ≠ set s) (·.rehunt k)
  let s := if oldPat = s.use Reg.PAT_CTL.RX_PAT [k] then s else s.patSelect false k (s.use Reg.PAT_CTL.RX_PAT [k])
  let before := (modeLanes oldMode).contains k
  let s := s.whenB (before && !s.mapped k) (·.floatUnmapped k)
  let s := s.whenB (!before && s.mapped k && s.retired k && s.serving k = k) (·.remapRetired k)
  let s := s.effortTake k
  (s.hostTxBoundary k).tteBoundary k

/-- A transmit frame boundary of lane `k`: its transmit stages, egress gearbox and host receive take the live values. -/
def sendBoundary (s : State) (k : Nat) : State :=
  let old := s.egHosts k
  ((s.txBoundary k).hostRxBoundary k old).tteBoundary k

/-- R20: the boundary of the Float's local count while it serves no lane and is not on a lane's received frame boundary. -/
def floatBoundary (s : State) : State := s.whenB (!s.floatServes && !s.floatAtRx s.floatLane) floatStep

end Sys2Proof.Machine.State
end

