-- ==== Sys2Proof/Machine/Bus.lean ====
section
/-! DEFINITION. The register bus (spec/22_management_access_and_register_map.md R442, R443, R482; spec/20_memory_protection_and_error_handling.md
R418–R422; spec/12_quaran_sequencer_isa.md R262): what a read answers, what a write does, ownership, locks and freezing. -/
namespace Sys2Proof.Machine

/-- Port statuses of R262 and R447. -/
def psOK : Nat := 0
def psUNPOWERED : Nat := 1
def psFROZEN : Nat := 2
def psVIOLATION : Nat := 3
def psUNMAPPED : Nat := 4
def psCRC_BAD : Nat := 5
def psPOISON : Nat := 6
def psNOT_READY : Nat := 7

/-- Causes of R421. -/
def vcNOT_OWNER : Nat := 1
def vcLOCKED : Nat := 2
def vcMALFORMED : Nat := 3
def vcRING : Nat := 4

/-- R418: the block index of a live address. -/
def blockOf (a : Nat) : Nat :=
  if a < 0x010000 then 0 else if a < 0x020000 then 1 else if a < 0x030000 then 2 else if a < 0x040000 then 3
  else if a < 0x050000 then 4 else if a < 0x080000 then 5 else if a < 0x100000 then 6 else if a < 0x180000 then 7
  else if a < 0x1A0000 then 8 else if a < 0x200000 then 9 else if a < 0x210000 then 10 else if a < 0x220000 then 11
  else if a < 0x280000 then 12 else if a < 0x300000 then 13 else if a < 0x380000 then 14 else if a < 0x3A0000 then 15
  else if a < 0x3B0000 then 16 else if a < 0x3C0000 then 17 else if a < 0x400000 then 18 else if a < 0x480000 then 19
  else if a < 0x4A0000 then 20 else if a < 0x4B0000 then 21 else if a < 0x4C0000 then 22 else 23

namespace State

/-- R418: the owner code of a block. -/
def ownerOf (s : State) (b : Nat) : Nat :=
  if b < 16 then bits (s.get Reg.MEM_OWN0.OWN) (3 * b + 2) (3 * b) else bits (s.get Reg.MEM_OWN1.OWN) (3 * (b - 16) + 2) (3 * (b - 16))

/-- R418: master `m` is the owner of block `b`; ANY_HOST admits SPI and I3C, DEVICE no master. -/
def ownsBlock (s : State) (m : Master) (b : Nat) : Bool :=
  let o := s.ownerOf b
  o ≠ 0 && (o = m.code || (o = 6 && (m == .spi || m == .i3c)))

/-- R419, R431: JTAG writes everywhere in MANUFACTURE and RMA. -/
def jtagFree (s : State) (m : Master) : Bool := m == .jtag && (s.lcs = lcMANUFACTURE || s.lcs = lcRMA)

def frozen (s : State) (m : Master) : Bool := (s.get Reg.MEM_FRZ.FROZEN).testBit m.code
def lockedBlock (s : State) (b : Nat) : Bool := (s.get Reg.MEM_LOCK.LOCK).testBit b

/-- R421: a violation: the master is frozen, and the first since MEM_EVT.VIOL was clear is recorded. -/
def violate (s : State) (m : Master) (cause a : Nat) : State :=
  let s := if s.on Reg.MEM_EVT.VIOL then s else
    ((s.put Reg.MEM_VIOL.MASTER m.code).put Reg.MEM_VIOL.CAUSE cause).put Reg.MEM_VIOL.ADDR a
  ((s.inc Reg.VIOL_CNT.COUNT).ev Reg.MEM_EVT.VIOL).put Reg.MEM_FRZ.FROZEN (s.get Reg.MEM_FRZ.FROZEN ||| 2 ^ m.code)

/-- R422: a write to MEM_FRZ.RELEASE by `m`: the owner of MEM and the Quaran may release, but none itself. -/
def releaseWrite (s : State) (m : Master) (w : Word) : State :=
  if ¬ (s.ownsBlock m 21 || m == .quaran || s.jtagFree m) then s else
  let r := bits w.toNat 13 8
  let r := if r.testBit m.code then r - 2 ^ m.code else r
  s.put Reg.MEM_FRZ.FROZEN (s.get Reg.MEM_FRZ.FROZEN &&& (63 - r))

/-- A fused block: it reads 0 and takes no write (R2, R3). Its undercoat is as writable as that of a domain that is off (R284, R286).
That the host blocks of a DX1608 answer as R2's blocks do is the model's choice (log entry 57). -/
def fusedAt (s : State) (a : Nat) : Bool :=
  (0x210000 ≤ a && a < 0x280000 && !s.isT) || (0x104000 ≤ a && a < 0x108000 && s.is1608)

/-- R457: INT_STAT and FAULT_STAT follow their sources. -/
def faultWord (s : State) : Nat :=
  64 * b2n (s.get Reg.CKG_STAT.SPL = plCOAST) + 32 * b2n (s.on Reg.MEM_EVT.UE) + 16 * b2n (s.on Reg.MIG_EVT.TAKEOVER_FAIL) +
    8 * b2n (s.on Reg.SEQ_SCHED.FAULT) + 4 * b2n (s.on Reg.THM_EVT.SHUT_SEEN) + 2 * b2n (s.bst = bsCRITICAL) + b2n (s.bst = bsRUNNING)
def faultHit (s : State) : Bool := (s.faultWord &&& (s.liveAt Reg.FAULT_EN.base).toNat) &&& 0x78 ≠ 0
def intWord (s : State) : Nat :=
  8 * b2n s.sec.booting + 4 * b2n s.faultHit +
    2 * b2n (s.on Reg.MEM_EVT.UE || s.on Reg.MEM_EVT.VIOL || s.on Reg.MEM_EVT.LOG_LOST || s.on Reg.MEM_EVT.POISON_ACCESS) +
    b2n (s.ringsSet.any fun r => s.ringPending r && [1, 2, 5].contains (s.get Reg.RNG_CFG.CONS [r]))
def intHit (s : State) : Bool := s.intWord &&& (s.liveAt Reg.INT_EN.base).toNat ≠ 0

/-- R456: the levels of INT_N and FAULT_N, true where the pin is driven low. -/
def intLow (s : State) : Bool := s.intHit
def faultLow (s : State) : Bool :=
  s.clk.held || s.bst = bsRUNNING || s.bst = bsCRITICAL || s.pwr.state == .wakeFail || s.pwr.shutdown || s.faultHit

/-- R276: SEQ_STAT. -/
def seqStatWord (s : State) : Nat :=
  s.seq.pstat * 2 ^ 40 + s.seq.task * 2 ^ 35 + s.seqState * 2 ^ 32 + b2n (s.frozen .quaran) * 2 ^ 31 + b2n s.seq.slotB * 2 ^ 30 +
    s.flagsCode * 2 ^ 25 + s.seq.pc

/-- R379: the blocks of GATE_STAT that have work for certain: traffic or a datapath function of the mode in use, or a task, capture, loop
or self-test in progress. Of the others the moment decides (log entry 1). -/
def gateWork (s : State) : Nat :=
  let bit (b : Nat) (p : Bool) : Nat := b2n p * 2 ^ b
  bit 0 (s.seq.run.isSome && !s.seq.halted && !s.seq.clkStopped) + bit 1 ((List.range 4).any fun c => s.use Reg.MON_CFG.SRC [c] ≠ 0) +
    bit 2 s.capRuns + bit 3 ((List.range 16).any fun m => s.loopState m ≠ 0) + bit 5 ((List.range 10).any s.linkUp) +
    bit 6 (s.tteState 0 ≠ 0 || s.tteState 1 ≠ 0) + bit 8 (s.bst = bsRUNNING) + bit 11 ((List.range 16).any fun m => s.pcsCode m ≠ 0) +
    (List.range 8).foldl (fun a k => a + bit (12 + k) (s.mapped k)) 0 + bit 20 (s.phase ≠ phIDLE && s.phase ≠ phRETIRED)

/-- R379, R385: the blocks whose domain is on: a block that has no power has no clock. -/
def gateOn (s : State) : Nat :=
  let bit (b d : Nat) : Nat := b2n (s.domOn d) * 2 ^ b
  bit 0 42 + bit 1 46 + bit 2 45 + bit 3 44 + bit 4 47 + bit 5 48 + bit 6 39 + bit 7 41 + bit 8 56 + bit 9 56 + bit 10 56 + bit 11 56 +
    (List.range 8).foldl (fun a k => a + bit (12 + k) (17 + k)) 0 + bit 20 26

/-- R379: the domain's blocks have work for certain, where its blocks are among those of GATE_STAT. -/
def domainWork (s : State) (d : Nat) : Bool :=
  ([(0, 42), (1, 46), (2, 45), (3, 44), (5, 48), (6, 39), (8, 56), (11, 56), (20, 26)] ++ (List.range 8).map fun k => (12 + k, 17 + k)).any
    fun p => p.2 = d && s.gateWork.testBit p.1

/-- R379, R429: the condition of a logic test. What other work a domain has is beyond the state: `idle` tells it. -/
def isLogicOk (s : State) (idle : Bool) : Bool :=
  let d := s.get Reg.BST_IS_CTL.TARGET + 16 * (s.get Reg.BST_IS_CTL.FIRST % 4)
  decide (d ≤ 56) && s.domOn d && !s.neededDomains.contains d && !s.domainWork d && idle

/-- A word with one field replaced. -/
def fieldIn (w : Word) (f : FRef) (v : Nat) : Word := BitVec.ofNat 48 (setBits w.toNat f.hi f.lo v)

/-- What a powered register reads as at instant `p`: most hold their word; the ones here are views of other state (R46, R48, R73, R102, R125,
R165, R178, R179, R216, R221, R223, R276, R386, R414, R450, R455–R457). -/
def view (s : State) (r : Row) (a : Nat) (i : List Nat) (p : Nat) : Word :=
  let w := s.liveAt a
  let k := i.getD 0 0
  let b := r.base
  let sl := if k = 8 then 8 else s.serving k
  let n (v : Nat) : Word := BitVec.ofNat 48 v
  if a < 0x080000 then
    if b = Reg.PART_ID.base then n ((if s.is1608 then 0x1608 else 0x3208) * 2 ^ 32 + s.part.stepping * 256 + s.part.variant)
    else if b = Reg.INT_STAT.base then n s.intWord
    else if b = Reg.FAULT_STAT.base then n s.faultWord
    else if b = Reg.STRAP.base then n s.part.strap
    else if b = Reg.I3C_STAT.base then fieldIn w Reg.I3C_STAT.SA (0x58 + bits s.part.strap 2 1)
    else if b = Reg.GATE_STAT.base then n ((s.get Reg.GATE_OVR.OVR ||| s.gateWork ||| s.freeBits 21) &&& s.gateOn)
    else if b = Reg.PWR_DOM0.base then n (s.pwr.on.toNat % 2 ^ 48)
    else if b = Reg.PWR_DOM1.base then n (s.pwr.on.toNat / 2 ^ 48)
    else w
  else if a < 0x100000 then
    if b = Reg.EQ_STAT.base then n (s.eqStat k)
    else if b = Reg.TR_PHASE.base then n (s.freqCode sl % 2 ^ 16 * 2 ^ 32 + s.phaseWord sl % 2 ^ 24)
    else if b = Reg.QUAL_SNR.base then (s.slice sl).qual
    else if b = Reg.QUAL_EYE.base then (s.slice sl).eye
    else if b = Reg.RX_STAT.base then fieldIn w Reg.RX_STAT.PGA_NOW (s.pgaNow k)
    else if b = Reg.FRM_STAT.base then fieldIn w Reg.FRM_STAT.LOCK_STATE (s.lockState k)
    else if b = Reg.ICORR_WIN_DATA.base then s.icorrWord k
    else if b = Reg.TRIM_WIN_DATA.base then s.trimWord k
    else w
  else if a < 0x180000 then
    if b = Reg.HS_TX_FIR0.base then s.hostFirWord k 0 else if b = Reg.HS_TX_FIR1.base then s.hostFirWord k 1
    else if b = Reg.HS_TX_CTL.base then s.hostCtlWord k else w
  else if b = Reg.IN_STAT.base then
    (if s.decoderOn k then fieldIn w Reg.IN_STAT.FORCING (b2n (s.forcing k)) else resetWord a)
  else if b = Reg.OMI_STAT.base then fieldIn w Reg.OMI_STAT.GROUP_LEAD (b2n (s.groupLead k))
  else if b = Reg.OME_STAT.base then fieldIn w Reg.OME_STAT.GROUP_LEAD (b2n (s.groupLead k))
  else if b = Reg.PAIR_STAT.base then
    (if s.domOn (17 + k) && s.hspOn (s.rxPhys (2 * k)) && s.hspOn (s.rxPhys (2 * k + 1)) then w else resetWord a)
  else if b = Reg.TIME_SEC.base then secWord (s.timeAt p)
  else if b = Reg.TIME_NS.base then nsWord (s.timeAt p)
  else if b = Reg.TTE_STAT.base then fieldIn w Reg.TTE_STAT.FLOW_USED s.flowUsed
  else if b = Reg.RNG_STAT.base then fieldIn w Reg.RNG_STAT.FILL (s.ringFill k)
  else if b = Reg.RNG_PEND.base then (match s.lowestPending with | some q => n (2 ^ 47 + q) | none => 0)
  else if b = Reg.SEQ_STAT.base then n s.seqStatWord
  else if b = Reg.LINK_STAT.base then
    fieldIn (fieldIn w Reg.LINK_STAT.UNACKED (s.link k).unacked.length) Reg.LINK_STAT.EB_FILL (s.link k).rx.eb.length
  else if b = Reg.SCR_ID0.base then n (s.sec.identity.toNat / 65536)
  else if b = Reg.SCR_ID1.base then n (s.sec.identity.toNat % 65536)
  else if b = Reg.MEM_LOG.base then (match s.mem.log with | [] => 0 | e :: _ => if k = 0 then e.1 else if k = 1 then e.2.1 else e.2.2)
  else if b = Reg.HKA_MM.base then (if s.biasLost then fieldIn w Reg.HKA_MM.FRESH 0 else w)
  else if b = Reg.SEC_CERT_DATA.base then s.certWord
  else if b = Reg.SEC_ATT_DATA.base then s.reportWord
  else w

/-- A register whose read takes a free value. -/
def freeView (r : Row) : Bool := r.base = Reg.GATE_STAT.base

/-- R9: the addresses of the later parts that a read of a first part captures. That TX_SPEC0 is the first part of TX_SPEC_STAT's group is
the model's choice (log entry 84). -/
def snLater (r : Row) (a : Nat) (i : List Nat) : List Nat :=
  if r.base = Reg.TIME_SEC.base ∨ r.base = Reg.PPS_TS_SEC.base ∨ r.base = Reg.EVT_TS_SEC.base ∨ r.base = Reg.HKA_SUM.base then [a + 1]
  else if r.base = Reg.TX_SPEC.base ∧ i.getD 1 0 = 0 then [a + 1, a + 2, a + 3]
  else if r.base = Reg.MEM_LOG.base ∧ i.getD 0 0 = 0 then [a + 1, a + 2]
  else []

/-- R9: the register is a later part. -/
def snPart (r : Row) (i : List Nat) : Bool :=
  r.base = Reg.TIME_NS.base || r.base = Reg.PPS_TS_NS.base || r.base = Reg.EVT_TS_NS.base || r.base = Reg.HKA_MM.base ||
    (r.base = Reg.TX_SPEC.base && i.getD 1 0 = 1) || r.base = Reg.TX_SPEC2.base || r.base = Reg.TX_SPEC_STAT.base ||
    (r.base = Reg.MEM_LOG.base && i.getD 0 0 ≠ 0)

/-- What the register at an address reads as, without the read's effects. -/
def viewNow (s : State) (a p : Nat) : Word :=
  match rowOf a with | some (r, i) => s.view r a i p | none => 0

/-- R407, R430: a word behind a window. An in-service test of the page ends first. -/
def windowRead (s : State) (mem a : Nat) (m : Master) : State × Nat × Word :=
  let s := s.whenB (s.isPageHit mem a) isAbort
  let (s, ok, w) := s.memRead mem a m
  (s, if ok then psOK else psPOISON, w)

/-- The word of PWR_RB_ADDR: bank and word. -/
def rbSelect (s : State) : Nat × Nat := (s.get Reg.PWR_RB_ADDR.WORD / 8192, s.get Reg.PWR_RB_ADDR.WORD % 8192)

/-- A read of a powered, mapped live register: R8's clear by the block's owner, R9's capture, and the windows. A later part that no read has
captured reads its current view (log entry 83). -/
def regRead (s : State) (m : Master) (r : Row) (a : Nat) (i : List Nat) (p : Nat) : State × Nat × Word :=
  let b := r.base
  if r.acc == .wo then (s, psOK, 0)
  else if r.acc == .rc then
    let w := s.liveAt a
    (if s.ownsBlock m (blockOf a) then s.setLive a 0 else s, psOK, w)
  else if b = Reg.RNG_WINDOW.base then s.windowRead memRING (2 ^ 18 * s.get Reg.RNG_WIN.PAGE + (a - b)) m
  else if b = Reg.CAP_WINDOW.base then s.windowRead memCAP (2 ^ 18 * s.get Reg.CAP_WIN.PAGE + (a - b)) m
  else if b = Reg.PWR_RB_DATA.base then s.windowRead (memRB + s.rbSelect.1) s.rbSelect.2 m
  else if b = Reg.JNL_DATA.base then s.windowRead (memRB + 3) (s.get Reg.JNL_ADDR.WORD) m
  else if b = Reg.TRC_DATA.base then s.windowRead memTRC (s.traceAddr (i.getD 0 0)) m
  else if b = Reg.SEQ_DBG_DATA.base then
    let d := s.get Reg.SEQ_DBG_ADDR.ADDR
    let s := s.whenB ((0x100000 ≤ d && s.isPageHit memDMEM (d - 0x100000)) || (0x200000 ≤ d && s.isPageHit memIMEM (d - 0x200000))) isAbort
    let (s, ok, w) := s.dbgRead m
    (s, if ok then psOK else psPOISON, w)
  else if b = Reg.EVT_TS_SEC.base then
    (({ s with snap := kvSet s.snap (a + 1) (s.viewNow (a + 1) p) }).evtRead (i.getD 0 0), psOK, s.liveAt a)
  else if snPart r i then (s, psOK, (kvGet s.snap a).getD (s.view r a i p))
  else
    let later := snLater r a i
    let s' := { s with snap := later.foldl (fun l x => kvSet l x (s.viewNow x p)) s.snap }
    (s'.whenB (freeView r) useFree, psOK, s.view r a i p)

/-- R482 step 5, R407, R442: a read that reaches the register bus. -/
def busRead (s : State) (m : Master) (a p : Nat) : State × Nat × Word :=
  if 0x800000 ≤ a then
    let l := a - 0x800000
    if ¬ stagedAt l then (s, psUNMAPPED, 0)
    else if s.set.poison.contains l then
      (((s.memReport poisonAccess memCOEF m 0 (s.freeBits 16) 0 0 0).useFree), psPOISON, 0)
    else (s, psOK, s.underAt l)
  else if s.fusedAt a then (s, psOK, 0)
  else match rowOf a with
    | none => (s, psUNMAPPED, 0)
    | some (r, i) => if ¬ s.domOn (domNum r a) then (s, psUNPOWERED, 0) else s.regRead m r a i p

/-- A write of the fields of a plain register: reserved bits and codes leave their field (R5, R6), W1C and W1S bits act on ones. -/
def fieldsWrite (s : State) (r : Row) (a : Nat) (w : Word) : State :=
  let f (n : Nat) (x : Field) : Nat :=
    let v := bits w.toNat x.hi x.lo
    match x.acc with
    | .rw => if x.rsv.any fun q => decide (q.1 ≤ v) && decide (v ≤ q.2) then n else setBits n x.hi x.lo v
    | .w1c => setBits n x.hi x.lo (bits n x.hi x.lo - (bits n x.hi x.lo &&& v))
    | .w1s => setBits n x.hi x.lo (bits n x.hi x.lo ||| v)
    | _ => n
  s.setLive a (BitVec.ofNat 48 (r.fields.foldl f (s.liveAt a).toNat))

/-- R299, R437: the other slot's image is not verified; R438: it fails anti-rollback. -/
def swapReq (s : State) : State :=
  let other := 1 - s.runningSlot
  let r := s.get (imgResult other)
  let fail (c : Nat) : State := s.put Reg.SEQ_SWAP.RESULT c
  if s.get Reg.JNL_STAT.STATE ≠ jsCLOSED then fail 3
  else if s.get Reg.SEQ_SWAP.STATE = 1 ∨ s.get Reg.SEQ_SWAP.STATE = 2 then s
  else if r = irROLLBACK ∨ (r = irOK ∧ s.get (imgLevel other) < s.get Reg.SEC_ARB.LEVEL) then fail 2
  else if r ≠ irOK ∨ s.imgBad other then fail 1
  else (s.put Reg.SEQ_SWAP.STATE 1).put Reg.SEQ_SWAP.RESULT 0

/-- R300, R438: CONFIRM in TRIAL keeps the new image. -/
def swapConfirm (s : State) : State :=
  if s.get Reg.SEQ_SWAP.STATE ≠ 2 then s else
  let s := (s.put Reg.SEQ_SWAP.STATE 0).put Reg.SEQ_SWAP.RESULT 0
  s.whenB (s.on Reg.SEC_CFG.ARB_AUTO) fun s => s.arbTo (s.get (imgLevel s.runningSlot))

/-- A write to SEQ_SWAP (R299, R300). -/
def swapWrite (s : State) (w : Word) : State :=
  let s := s.put Reg.SEQ_SWAP.TRIAL (bits w.toNat 3 0)
  let s := s.whenB (bits w.toNat 4 4 = 1) swapReq
  s.whenB (bits w.toNat 5 5 = 1) swapConfirm

/-- A write to JNL_CTL (R296, R297). -/
def jnlCtl (s : State) (m : Master) (w : Word) : State :=
  match bits w.toNat 2 0 with
  | 1 => s.jnlOpen (bits w.toNat 39 24) (bits w.toNat 23 16) (bits w.toNat 15 8)
  | 2 => s.jnlStep m
  | 3 => s.jnlAbort m
  | _ => s

/-- A write to MEM_TST_CTL (R417): with KEY 0xC3, OP `op` on the word that MEM and MEM_TST_ADDR name. A word beyond the memory, or a
memory that has no code, takes nothing. -/
def tstAddr (s : State) : Nat := s.get Reg.MEM_TST_ADDR.ADDR
def tstOk (s : State) (w : Word) : Bool :=
  bits w.toNat 47 40 = 0xC3 && decide (bits w.toNat 3 0 ≤ 12) && decide (s.tstAddr < memWords (bits w.toNat 3 0))
def tstRead (s : State) (mem : Nat) : State :=
  let c := s.cell mem s.tstAddr
  (s.put Reg.MEM_TST_DATA.DATA c.data.toNat).put Reg.MEM_TST_CHK.CHK c.check.toNat
def tstData (s : State) : Word := BitVec.ofNat 48 (s.get Reg.MEM_TST_DATA.DATA)
def tstChk (s : State) : BitVec 8 := BitVec.ofNat 8 (s.get Reg.MEM_TST_CHK.CHK)
def tstWriteData (s : State) (mem : Nat) : State := s.setCell mem s.tstAddr ⟨s.tstData, (s.cell mem s.tstAddr).check⟩
def tstWriteCheck (s : State) (mem : Nat) : State := s.setCell mem s.tstAddr ⟨(s.cell mem s.tstAddr).data, s.tstChk⟩
def tstWriteBoth (s : State) (mem : Nat) : State := s.setCell mem s.tstAddr ⟨s.tstData, s.tstChk⟩
def tstCtl (s : State) (w : Word) : State :=
  if ¬ s.tstOk w then s else
  let mem := bits w.toNat 3 0
  let s := s.whenB (s.isPageHit mem s.tstAddr) isAbort
  match bits w.toNat 6 4 with
  | 1 => s.tstRead mem
  | 2 => s.tstWriteData mem
  | 3 => s.tstWriteCheck mem
  | 4 => s.tstWriteBoth mem
  | _ => s

/-- R414, R415: the oldest log entry leaves. -/
def logPop (s : State) : State :=
  let s := { s with mem := { s.mem with log := s.mem.log.drop 1 } }
  s.put Reg.MEM_STAT.LOG_FILL s.mem.log.length

/-- R227: FLT_CMD while no flush runs. -/
def fltCmd (s : State) (w : Word) : State :=
  match bits w.toNat 1 0 with
  | 1 => s.fltCopy
  | 2 => s.fltInvalidate
  | 3 => s.fltFlush
  | _ => s

/-- R435, R436: a write to SEC_LOAD_CTL. -/
def secLoadCtl (s : State) (w : Word) : State :=
  match bits w.toNat 1 0 with
  | 1 => s.secBegin (bits w.toNat 2 2)
  | 2 => s.secVerify (bits w.toNat 2 2)
  | _ => s

/-- R451: a write of a whole word where `mask` is all ones, else a narrow write; true where it was refused (R408). -/
def windowWrite (s : State) (mem a : Nat) (m : Master) (mask w : Word) : State × Nat :=
  let s := s.whenB (s.isPageHit mem a) isAbort
  let rb := memRB ≤ mem && mem ≤ memRB + 3
  if mask = BitVec.allOnes 48 then (if rb then s.rbWrite (mem - memRB) a w m else s.memWrite mem a w m, psOK)
  else
    let (s, ok) := if rb then s.rbNarrow (mem - memRB) a mask w m else s.memNarrow mem a mask w m
    (s, if ok then psOK else psPOISON)

/-- What a permitted write to a live register does. -/
def regWrite (s : State) (m : Master) (r : Row) (a : Nat) (i : List Nat) (mask w : Word) : State × Nat :=
  let b := r.base
  let k := i.getD 0 0
  let ok (t : State) : State × Nat := (t, psOK)
  if r.acc == .st ∨ r.acc == .ro ∨ r.acc == .rc ∨ r.acc == .sn then
    (if b = Reg.RNG_STAT.base then ok (s.ringTouch k fun s => s.fieldsWrite r a w)
     else if b = Reg.MEM_FRZ.base then ok (s.releaseWrite m w) else ok s)
  else if b = Reg.SET_CMD.base then ok (s.whenB (w.getLsbD 0) fun s => s.startCheck m ckPLAIN)
  else if b = Reg.RST_CMD.base then ok (s.rstCmd w)
  else if b = Reg.PWR_REQ.base then ok (s.pwrRequest m w)
  else if b = Reg.PWR_RB_ADDR.base then ok (if bits w.toNat 14 13 = 3 then s else s.fieldsWrite r a w)
  else if b = Reg.PWR_RB_DATA.base then s.windowWrite (memRB + s.rbSelect.1) s.rbSelect.2 m mask w
  else if b = Reg.LCS_CTL.base then ok (s.useFree.lcsMove w (s.freeBits 1 = 1))
  else if b = Reg.LCS_TOK_DATA.base then ok (s.tokWrite w)
  else if b = Reg.FLT_CMD.base then ok (s.fltCmd w)
  else if b = Reg.RNG_WINDOW.base then s.windowWrite memRING (2 ^ 18 * s.get Reg.RNG_WIN.PAGE + (a - b)) m mask w
  else if b = Reg.SEQ_CTL.base then ok (s.seqCtlWrite w)
  else if b = Reg.SEQ_WDOG.base then ok (s.wdogWrite m w)
  else if b = Reg.SEQ_DOORBELL.base then ok (s.doorbell w)
  else if b = Reg.SEQ_DBG_DATA.base then
    let d := s.get Reg.SEQ_DBG_ADDR.ADDR
    if mask = BitVec.allOnes 48 then
      ok ((s.whenB ((0x100000 ≤ d && s.isPageHit memDMEM (d - 0x100000)) || (0x200000 ≤ d && s.isPageHit memIMEM (d - 0x200000))) isAbort).dbgWrite w m)
    else if s.seq.halted then s.windowWrite memDMEM (d - 0x100000) m mask w else ok s
  else if b = Reg.SEQ_SWAP.base then ok (s.swapWrite w)
  else if b = Reg.JNL_CTL.base then ok (s.jnlCtl m w)
  else if b = Reg.JNL_DATA.base then
    let d := s.get Reg.JNL_ADDR.WORD
    if mask = BitVec.allOnes 48 then ok (s.jnlDataWrite w m)
    else if d = 0 ∨ 4096 ≤ d ∨ (16 ≤ d ∧ s.get Reg.JNL_STAT.STATE ≠ jsCLOSED) then ok s
    else s.windowWrite (memRB + 3) d m mask w
  else if b = Reg.SEQ_TASK.base then ok (s.taskWrite k w)
  else if b = Reg.MEM_LOG_POP.base then ok (s.whenB (w.getLsbD 0) logPop)
  else if b = Reg.MEM_EVT.base then
    let s := s.whenB (w.getLsbD 1) (·.put Reg.MEM_STAT.FIRST_VALID 0)
    ok (s.fieldsWrite r a w)
  else if b = Reg.MEM_TST_CTL.base then ok (s.tstCtl w)
  else if b = Reg.PMC_CTL.base then ok (s.pmcCtlWrite w)
  else if b = Reg.SEC_LOAD_CTL.base then ok (s.secLoadCtl w)
  else if b = Reg.SEC_LOAD_DATA.base then ok (s.secLoadData w)
  else if b = Reg.SEC_ARB_ADV.base then ok (s.arbAdvance w)
  else if b = Reg.SEC_REVOKE.base then ok (s.revoke w)
  else if b = Reg.SEC_ATT_CTL.base then ok (s.whenB (w.getLsbD 0) attGo)
  else if b = Reg.PROXY_CTL.base then ok ((s.fieldsWrite r a w).whenB (w.getLsbD 0) proxyGo)
  else ok (s.fieldsWrite r a w)

/-- R419: writes that ownership does not govern. -/
def ownExempt (s : State) (m : Master) (r : Row) (i : List Nat) : Bool :=
  r.base = Reg.SEQ_DOORBELL.base || r.base = Reg.RNG_PI.base || r.base = Reg.RNG_CI.base || r.base = Reg.RNG_WINDOW.base ||
    r.base = Reg.MEM_FRZ.base || s.jtagFree m ||
    (r.base = Reg.RNG_STAT.base && s.ringType (i.getD 0 0) ≠ 0 && s.get Reg.RNG_CFG.CONS [i.getD 0 0] = m.code)

/-- R431: a region that the life-cycle state closes: IMEM through the debug window, and the OTP fields of revocation and anti-rollback. -/
def lifeClosed (s : State) (r : Row) : Bool :=
  (r.base = Reg.SEQ_DBG_DATA.base && decide (0x200000 ≤ s.get Reg.SEQ_DBG_ADDR.ADDR) && decide (s.get Reg.SEQ_DBG_ADDR.ADDR < 0x210000) && !s.imemOpen) ||
  ((r.base = Reg.SEC_ARB_ADV.base || r.base = Reg.SEC_REVOKE.base) && decide (lcRMA ≤ s.lcs))

/-- R421: the cause of a violation that a write by `m` would be, none where it is permitted. -/
def writeCause (s : State) (m : Master) (r : Row) (a : Nat) (i : List Nat) : Option Nat :=
  if s.lockedBlock (blockOf a) then some vcLOCKED
  else if ¬ (s.ownExempt m r i) ∧ ¬ s.ownsBlock m (blockOf a) then some vcNOT_OWNER
  else if r.base = Reg.MEM_FRZ.base ∧ ¬ (s.ownsBlock m 21 || m == .quaran || s.jtagFree m) then some vcNOT_OWNER
  else if s.lifeClosed r then some vcLOCKED
  else if r.base = Reg.RNG_WINDOW.base ∧ ¬ s.mayWriteStore m (2 ^ 18 * s.get Reg.RNG_WIN.PAGE + (a - r.base)) then some vcRING
  else none

/-- R482 step 5, R442, R284: a write that reaches the register bus. Bits outside `mask` keep what a memory word holds (R408, R451). -/
def busWriteM (s : State) (m : Master) (a : Nat) (mask w : Word) : State × Nat :=
  let l := if 0x800000 ≤ a then a - 0x800000 else a
  if a < 0x800000 ∧ s.fusedAt a then (s, psOK)
  else match rowOf l with
  | none => (s, psUNMAPPED)
  | some (r, i) =>
    if 0x800000 ≤ a ∧ r.acc ≠ .st then (s, psUNMAPPED) else
    match s.writeCause m r l i with
    | some c => (s.violate m c a, psVIOLATION)
    | none =>
      if 0x800000 ≤ a then
        let w := w &&& BitVec.ofNat 48 r.mask
        if s.set.check.isSome then (s.st fun x => { x with held := x.held ++ [(l, w)] }, psOK) else (s.setUnder l w, psOK)
      else if ¬ s.domOn (domNum r l) then (s, psUNPOWERED)
      else if r.base = Reg.RNG_PI.base then
        let (t, bad) := s.writePi m (i.getD 0 0) w.toNat
        if bad then (s.violate m vcRING a, psVIOLATION) else
          (t.whenB (m ≠ .quaran && i.getD 0 0 < 16 && s.ringType (i.getD 0 0) = ringCOMMAND && t.ringFill (i.getD 0 0) ≠ s.ringFill (i.getD 0 0))
            (·.wakeBy wkRING), psOK)
      else if r.base = Reg.RNG_CI.base then
        let (t, bad) := s.writeCi m (i.getD 0 0) w.toNat
        if bad then (s.violate m vcRING a, psVIOLATION) else (t, psOK)
      else s.regWrite m r l i mask w

/-- A write of a whole word. -/
def busWrite (s : State) (m : Master) (a : Nat) (w : Word) : State × Nat := s.busWriteM m a (BitVec.allOnes 48) w

/-- R262, R482: an access by a master other than the interfaces: FROZEN before the bus. -/
def portRead (s : State) (m : Master) (a p : Nat) : State × Nat × Word := if s.frozen m then (s, psFROZEN, 0) else s.busRead m a p
def portWrite (s : State) (m : Master) (a : Nat) (w : Word) : State × Nat := if s.frozen m then (s, psFROZEN) else s.busWrite m a w

/-- R339: a read as DEVICE changes nothing; none where it would not be OK. -/
def devRead (s : State) (a : Nat) : Option Word :=
  let (_, st, w) := s.busRead .device a 0
  if st = psOK then some w else none

end State
end Sys2Proof.Machine
end

