-- ==== Sys2Proof/Machine/ScrimRx.lean ====
section
/-! DEFINITION. Reception on a Scrim link (spec/11_scrim_links_and_fabric.md R234–R250): the receiver's rules of R236, routing and
delivery of R239, and the handlers of R240. -/
namespace Sys2Proof.Machine

/-- What the handler of a message answers: taken, a type not taken in the present state, or no room for it. -/
inductive Taken where
  | done (s : State)
  | badType
  | busy

namespace State

/-- A frame's place in the Scrim buffer, in words: header and payload (log entry 22). -/
def frameWords (f : SFrame) : Nat := 2 + (f.data.length + 5) / 6

/-- R236: the Scrim buffer has no room for a frame that is to be forwarded. -/
def bufferFull (s : State) (f : SFrame) : Bool :=
  let held := (List.range 10).foldl (fun n j =>
    ((s.link j).unacked ++ (s.link j).waiting).foldl (fun n g => n + frameWords g) n) 0
  decide (memWords memSCR < held + frameWords f)

/-- The elements of a list in groups of `n`. -/
def chunks {α : Type} (n : Nat) : Nat → List α → List (List α)
  | 0, _ => []
  | _ + 1, [] => []
  | k + 1, l => l.take n :: chunks n k (l.drop n)

/-- R241: a message enters the FABRIC_RX ring as one record of 1 + ceil(LEN / 24) entries; a full ring withholds the ACK. -/
def toRing (s : State) (j at_ : Nat) (f : SFrame) : Taken :=
  let r := s.get Reg.SCR_CFG2.RX_RING
  if r = 0 ∨ ¬ s.ringUsable r ringFABRX then .badType else
  let m := (f.data.length + 23) / 24
  if s.ringSize r < s.ringFill r + (1 + m) then .busy else
  let t := s.timeAt at_
  let head := [BitVec.ofNat 48 (4 * 2 ^ 44 + j * 2 ^ 16 + f.typ.toNat * 256 + m * 16), secWord t, nsWord t,
    BitVec.ofNat 48 (f.src.toNat * 2 ^ 32 + f.msn.toNat * 2 ^ 16 + f.data.length)]
  .done (s.enterRecord r ringFABRX (head :: chunks 4 m (octetWords f.data (4 * m))))

/-- R237: the device boots over Scrim (R249). -/
def scrimBoots (s : State) : Bool := s.sec.booting && s.bootSrc = 2

/-- The answer to a REG request: REG_RSP to its source (R242). -/
def regAnswer (s : State) (j : Nat) (f : SFrame) (status : Nat) (ws : List Word) : State :=
  let data := octets 1 status ++ (List.range 3).map (fun i => f.data.getD i 0) ++ ws.flatMap wordBytes
  let dst : BitVec 16 := if f.dst = 0xFFFF then (if s.linkUp j ∨ f.src = 0xFFFF then 0xFFFF else f.src) else f.src
  (s.sendMessage dst j 0x12 data).1

/-- R242: `n` words are read from address `a`, as master SCRIM. -/
def regReads (s : State) (at_ : Nat) : Nat → Nat → State × List Word
  | _, 0 => (s, [])
  | a, n + 1 =>
    let (s, _, w) := (s.pmc 0x82).busRead .scrim (a % 2 ^ 24) at_
    let (s, l) := regReads s at_ (a + 1) n
    (s, w :: l)

/-- R242: words are written from address `a` on, up to one whose write is a violation; true where all were done. -/
def regWrites (s : State) : Nat → List Word → State × Bool
  | _, [] => (s, true)
  | a, w :: l =>
    let (s, st) := (s.pmc 0x82).busWrite .scrim (a % 2 ^ 24) w
    if st = psVIOLATION then (s, false) else regWrites s (a + 1) l

/-- R242: a REG_RD or REG_WR request. Whether REMOTE permits it is judged first. -/
def regRequest (s : State) (j at_ : Nat) (f : SFrame) (write : Bool) : State :=
  let a := octField f.data 0 3
  let n := octField f.data 3 1
  let remote := s.get Reg.SCR_CFG.REMOTE
  if remote = 0 ∨ (write ∧ remote ≠ 2) then (s.viol vREMOTE_REFUSED).regAnswer j f 1 []
  else if n = 0 ∨ 40 < n ∨ f.data.length ≠ (if write then 4 + 6 * n else 4) then s.regAnswer j f 4 []
  else if s.frozen .scrim then s.regAnswer j f 2 []
  else if write then
    let (s, ok) := s.regWrites a (octetWords (f.data.drop 4) n)
    s.regAnswer j f (if ok then 0 else 3) []
  else
    let (s, l) := s.regReads at_ a n
    s.regAnswer j f 0 l

/-- R249: the words of a BOOT_DATA frame at the expected offset go into slot A; any other is discarded. -/
def bootData (s : State) (f : SFrame) : State :=
  let o := octField f.data 0 4
  let d := f.data.drop 4
  if o ≠ s.sec.bootOfs ∨ 252 < d.length then s else
  let s := s.each (octetWords d ((d.length + 5) / 6)).zipIdx fun s p => s.storeImage 0 (o / 6 + p.2) p.1
  s.sc fun x => { x with bootOfs := o + d.length }

/-- R249: a BOOT_END whose length matches starts the verification of slot A. -/
def bootEnd (s : State) (f : SFrame) : State := if octField f.data 0 4 = s.sec.bootOfs then s.secVerify 0 else s

/-- R246: the link that reaches the yoked partner. -/
def partnerLink (s : State) : Option Nat :=
  [8, 9].find? fun j => s.linkUp j && s.get Reg.NBR_INFO.MODE [j] = 9

/-- R185, R244, R246: a measurement from link `j` for each source that selects it. -/
def linkMeasure (s : State) (j at_ : Nat) (e : Int) : State :=
  let c := s.cycleAt at_
  let s := s.whenB (s.get Reg.PLB_CTL.SRC_LINK_A = j) (·.measure 2 e c)
  let s := s.whenB (s.get Reg.PLB_CTL.SRC_LINK_B = j) (·.measure 3 e c)
  s.whenB (s.partnerLink = some j && s.mode = 9 && !s.on Reg.NBR_INFO.SRC_PARTNER [j]) (·.measure 4 e c)

/-- R243, R244: a TIME frame. -/
def timeRx (s : State) (j at_ : Nat) (f : SFrame) : State :=
  let l := s.link j
  let now := s.timeAt at_
  let peerNo := BitVec.ofNat 8 (octField f.data 0 1)
  let ownNo := BitVec.ofNat 8 (octField f.data 5 1)
  let s := match l.rxArrival with
    | some t => s.setLink j fun l => { l with rxMark := some (peerNo, t), rxArrival := none }
    | none => s
  match l.rxArrival, (l.marks.find? (·.1 = ownNo)) with
  | some t4, some (_, t1) =>
    let t3 := extendTime now (octField f.data 1 4)
    let t2 := extendTime now (octField f.data 6 4)
    let theta := rhe ((t4 - t3) - (t2 - t1) + s.getS Reg.TT_ASYM.ASYM [j]) 2
    let din := (t4 - t3) - theta
    let s := s.putI Reg.TT_THETA.THETA theta [j]
    let s := (s.putI Reg.TT_DIN.DIN din [j]).put Reg.TT_DIN.VALID 1 [j]
    if s.plumbOn then s.linkMeasure j at_ theta else s
  | _, _ => s

/-- R245: the Plumb time and the number of a TRIG_AT. -/
def trigAtRx (s : State) (f : SFrame) : State :=
  s.trigAt (sx 48 (octField f.data 0 6) * sec16 + octField f.data 6 6) (octField f.data 12 1)

/-- R240: what a message addressed to the device does, by its type. -/
def takeMessage (s : State) (j at_ : Nat) (f : SFrame) : Taken :=
  let t := f.typ.toNat
  if t = 0x10 then .done (s.regRequest j at_ f false)
  else if t = 0x11 then .done (s.regRequest j at_ f true)
  else if t = 0x12 then (if s.on Reg.PROXY_STAT.BUSY then .done (s.proxyRsp f.data) else .badType)
  else if t = 0x20 then .done (s.trigAtRx f)
  else if t = 0x31 then (if s.scrimBoots then .done (s.bootData f) else .badType)
  else if t = 0x32 then (if s.scrimBoots then .done (s.bootEnd f) else .badType)
  else if t = 0x40 ∨ t = 0x41 ∨ (0x50 ≤ t ∧ t ≤ 0x7F) then s.toRing j at_ f
  else .badType

/-- R239: the frame is for the device itself. -/
def isLocal (s : State) (f : SFrame) : Bool :=
  f.dst = 0xFFFF || (match s.ownAddr with | some a => f.dst.toNat = a | none => false)

/-- R239, R240: an accepted frame in its turn: forwarded, or delivered; none where no room is left for it. -/
def takeFrameRx (s : State) (j at_ : Nat) (f : SFrame) : Option State :=
  if ¬ s.isLocal f then
    match s.route f.dst.toNat with
    | none => some (s.viol vNO_ROUTE)
    | some k =>
      if f.hops = 0 then some (s.viol vTTL)
      else if s.bufferFull f then none
      else some (s.sendFrame k { f with hops := f.hops - 1 })
  else if ¬ s.msnNew f.src f.msn then some (s.viol vDUP)
  else match s.takeMessage j at_ f with
    | .done t => some (t.msnKeep f.src f.msn)
    | .badType => some (s.viol vBAD_TYPE)
    | .busy => none

/-- R236: the per-hop rules on a frame that needs an ACK. -/
def rxNumbered (s : State) (j at_ : Nat) (f : SFrame) : State :=
  let d := (f.seq - (s.link j).rxSeq).toNat
  if 0 < d ∧ d < 32768 then s.sendNak j
  else if 32768 ≤ d then s.sendAck j
  else match s.takeFrameRx j at_ f with
    | none => s.viol vRX_BUSY
    | some t => (t.setLink j fun l => { l with rxSeq := l.rxSeq + 1, nakArmed := true }).sendAck j

/-- R235, R240, R250: the NOACK types. -/
def rxControl (s : State) (j at_ : Nat) (f : SFrame) : State :=
  let t := f.typ.toNat
  if t = 2 ∨ t = 3 then
    (if f.data ≠ [] then s.viol vPROTO else if t = 2 then s.ackRx j f.seq else s.nakRx j f.seq)
  else if ¬ f.noack then s.viol vPROTO
  else if t = 1 then s.helloRx j f.data
  else if t = 4 then s.timeRx j at_ f
  else if t = 0x30 then
    (if s.scrimBoots then s.viol vBAD_TYPE else
      match s.toRing j at_ f with
      | .done s => s
      | .badType => s.viol vBAD_TYPE
      | .busy => s.viol vRX_BUSY)
  else s.viol vBAD_TYPE

/-- Whether a type is one of the NOACK types of R233. -/
def controlType (t : Nat) : Bool := t = 1 || t = 2 || t = 3 || t = 4 || t = 0x30

/-- A frame accepted under R234 on link `j`. Before a link is UP or LOOPED only its HELLOs count (log entry 23). -/
def rxFrame (s : State) (j at_ : Nat) (f : SFrame) : State :=
  if ¬ s.linkRuns j ∨ ¬ (s.link j).sync ∨ s.linkState j < lkSYNC then s else
  let s := (s.inc Reg.RX_FRAME_CNT.COUNT [j]).pmc (0x70 + j)
  let t := f.typ.toNat
  if t ≠ 1 ∧ ¬ (s.linkState j = lkUP ∨ s.linkState j = lkLOOPED) then s else
  let s := s.whenB (decide (8 ≤ j) && t ≠ 1) (·.wakeBy wkSCRIM)
  if controlType t || f.noack then s.rxControl j at_ f else s.rxNumbered j at_ f

/-- R231: link `j`'s receiver takes symbols: an electrical port, or an in-band link whose lane is LOCKED. -/
def linkHears (s : State) (j : Nat) : Bool := s.linkRuns j && (decide (8 ≤ j) || decide ((s.frame j).st = fsLOCKED))

/-- R229–R231: what has come to link `j`'s receiver, as a code-group or as ten bits of an electrical port. -/
def linkGroup (s : State) (j g : Nat) : State × List LinkEvt :=
  if ¬ s.linkHears j then (s, []) else
  let l := s.link j
  let r := if 8 ≤ j then l.rx.bits10 l.sync g else l.rx.group true l.sync g
  (s.setLink j fun l => { l with rx := r.1, sync := r.2.1 }, r.2.2)

/-- R247: a symbol of link `j`'s own transmitter comes back, from the serialiser or, uncoded, from the framer. -/
def linkBack (s : State) (j : Nat) : State × List LinkEvt :=
  match (s.link j).back with
  | [] => (s, [])
  | (y, g) :: rest =>
    let s := s.setLink j fun l => { l with back := rest }
    if ¬ s.linkHears j then (s, [])
    else if s.get Reg.LINK_CFG.LOOP [j] = 1 then s.linkGroup j g
    else
      let r := (s.link j).rx.sym (decide (j < 8)) (s.link j).sync y
      (s.setLink j fun l => { l with rx := r.1, sync := r.2.1 }, r.2.2)

/-- R232: a symbol period of link `j`'s transmitter: an electrical port sends its symbol, a loop brings one back, and one leaves the elastic
buffer. -/
def linkPeriod (s : State) (j : Nat) : State × List LinkEvt :=
  let s := if 8 ≤ j then (s.linkSend j).2 else s
  let p := if s.get Reg.LINK_CFG.LOOP [j] = 0 then (s, []) else s.linkBack j
  let l := p.1.link j
  if ¬ l.sync then p else
  let r := l.rx.leave
  (p.1.setLink j fun l => { l with rx := r.1 }, p.2 ++ r.2)

/-- R229–R234: link `j` through a span: code-groups received, and symbol periods of its transmitter (`none`); with what they bring about. -/
def linkIn (s : State) (j : Nat) (l : List (Option (BitVec 10))) : State × List LinkEvt :=
  l.foldl (fun p x =>
    let q := match x with
      | some g => if p.1.get Reg.LINK_CFG.LOOP [j] = 0 then p.1.linkGroup j g.toNat else (p.1, [])
      | none => p.1.linkPeriod j
    (q.1, p.2 ++ q.2)) (s, [])

/-- R234, R236: a frame is cut: a NAK where it is to have one. -/
def cutNak (s : State) (j : Nat) (nak : Bool) : State :=
  s.whenB (nak && (s.linkState j = lkUP || s.linkState j = lkLOOPED)) (·.sendNak j)

/-- R230–R245: what symbols of link `j` have brought about takes effect, at an instant; `t` is the time of a mark or a trigger. -/
def linkEffect (s : State) (j at_ : Nat) (t : Int) : LinkEvt → State
  | .gained => s.scrimSyncGained j
  | .lost => s.scrimSyncLost j
  | .slip => s.viol vEB_SLIP
  | .code => (s.viol vCODE).inc Reg.CODE_ERR_CNT.COUNT [j]
  | .mark => s.tmarkRx j t
  | .trig => s.trigRx j t
  | .cut c nak => (s.viol c).cutNak j nak
  | .stop nak => s.cutNak j nak
  | .frame f => s.rxFrame j at_ f

/-- R229–R245: link `j` through a span that ends with an event of the kind `p`; any other span is no event of that kind. -/
def linkRow (s : State) (j at_ : Nat) (t : Int) (l : List (Option (BitVec 10))) (p : State → LinkEvt → Bool) : State :=
  let r := s.linkIn j l
  s.whenB (match r.2.getLast? with | some e => p r.1 e | none => false) fun _ => r.1.each r.2 fun s e => s.linkEffect j at_ t e

/-- The device reads `n` words of the ring store from word `a` on; false where one cannot be delivered (R407). -/
def deviceReads (s : State) (a n : Nat) : State × Bool × List Word :=
  (List.range n).foldl (fun p i =>
    let r := p.1.memRead memRING (a + i) .device 3
    (r.1, p.2.1 && r.2.1, p.2.2 ++ [r.2.2])) (s, true, [])

/-- R241: the next record of the FABRIC_TX ring that has not been taken, once it is there whole: its entries, whether it can be read, and
its words. -/
def fabTxNext (s : State) : State × Option (Nat × Bool × List Word) :=
  let r := s.get Reg.SCR_CFG2.TX_RING
  if r = 0 ∨ ¬ s.ringUsable r ringFABTX ∨ s.get Reg.RNG_CFG.CONS [r] ≠ 0 then (s, none) else
  let taken := s.scr.tx.foldl (fun n p => n + p.2.1) 0
  if s.ringFill r ≤ taken then (s, none) else
  let x := s.get Reg.RNG_CI.INDEX [r] + taken
  let h := s.deviceReads (s.ringWord r x) 4
  let n := bits (h.2.2.headD 0).toNat 7 4 + 1
  if s.ringFill r < taken + n then (s, none) else
  let t := (List.range (n - 1)).foldl (fun p e =>
    let q := p.1.deviceReads (s.ringWord r (x + 1 + e)) 4
    (q.1, p.2.1 && q.2.1, p.2.2 ++ q.2.2)) h
  (t.1, some (n, t.2.1, t.2.2))

/-- R241: a record of `n` entries that is not sent is counted, and leaves the ring in its turn. -/
def fabTxBad (s : State) (n : Nat) : State :=
  let s := ((s.inc Reg.TX_BAD_CNT.COUNT).ev Reg.SCR_EVT.TX_BAD).seqEv 10
  { s with scr := { s.scr with tx := s.scr.tx ++ [(s.scr.msn, n, true)] } }.fabTxDone (s.scr.tx.length + 1)

/-- R241: types that a master may send. -/
def txType (t : Nat) : Bool :=
  [0x10, 0x11, 0x12, 0x20, 0x31, 0x32, 0x40, 0x41].contains t || (decide (0x50 ≤ t) && decide (t ≤ 0x7F))

/-- R241: the next FABRIC_TX record is sent, delivered here, or discarded. -/
def fabTxSend (s : State) (at_ : Nat) : State :=
  if ¬ s.domOn 48 then s else
  match s.fabTxNext with
  | (s, none) => s
  | (s, some (n, ok, ws)) =>
    let g (i : Nat) : Nat := (ws.getD i 0).toNat
    let t := bits (g 0) 15 8
    let len := bits (g 3) 8 0
    if ¬ ok ∨ ¬ txType t ∨ 256 < len ∨ n < 1 + (len + 23) / 24 then s.fabTxBad n
    else
      let (s, m) := s.nextMsn
      let s := { s with scr := { s.scr with tx := s.scr.tx ++ [(m, n, false)] } }
      let dst := BitVec.ofNat 16 (bits (g 3) 47 32)
      let f : SFrame := ⟨dst, s.srcAddr, BitVec.ofNat 8 t, 15, false, false, 0, m, ((ws.drop 4).flatMap wordBytes).take len⟩
      let j := bits (g 0) 19 16
      if dst = 0xFFFF then
        (if s.linkUp j ∨ s.linkState j = lkLOOPED then s.sendFrame j f else s.noRoute f)
      else if s.isLocal f then
        match s.takeMessage j at_ f with
        | .done s => s.fabTxFinish m
        | .badType => (s.viol vBAD_TYPE).fabTxFinish m
        | .busy => { s with scr := { s.scr with msn := m - 1, tx := s.scr.tx.dropLast } }
      else s.sendOn f

/-- R249: a booting device asks for its image on each UP link of SCA and SCB. -/
def bootReqSend (s : State) : State :=
  if ¬ s.scrimBoots ∨ s.scr.bootWait ≠ 0 ∨ ¬ [8, 9].any (s.linkUp ·) then s else
  let s := s.each ([8, 9].filter (s.linkUp ·)) fun s j => s.sendCtl j 0x30 0 (octets 4 s.sec.bootOfs)
  let s := s.sc fun x => { x with bootTick := match x.bootTick with | some t => some t | none => some s.ticks }
  { s with scr := { s.scr with bootWait := 16 } }

end State
end Sys2Proof.Machine
end

