-- ==== Sys2Proof/Machine/Mgmt.lean ====
section
/-! DEFINITION. The management interfaces: the gate of SPI, I3C and JTAG before the register bus, the SPI target, the I3C or I²C target
and the JTAG port (spec/22_management_access_and_register_map.md R444–R454, R482; spec/23_pins_electrical_package.md R470, R471). -/
namespace Sys2Proof.Machine

/-- The master that a requester is. -/
def masterOf : Requester → Master
  | .spi => .spi | .i3c => .i3c | .quaran => .quaran | .scrim => .scrim | .jtag => .jtag

namespace State

def mgm (s : State) (f : Mgmt → Mgmt) : State := { s with mgmt := f s.mgmt }

/-- R454, R395: an interface answers: CTL is on, and the device is not in WAKE-FAIL. -/
def answers (s : State) : Bool := s.running

/-- R428, R454, R482: the blocks served while power-up self-test runs, and after a critical failure, where they can be read alone. -/
def servedInTest (a : Nat) : Bool := [0, 1, 2, 4, 5].contains ((a % 0x800000) / 0x10000)
def servedAfterCritical (a : Nat) : Bool := [1, 2, 4, 5].contains ((a % 0x800000) / 0x10000)

/-- R482 steps 2 to 4: the status that an access from outside ends with before the register bus, none where it goes on; with the
violation of a malformed request. -/
def gate (s : State) (m : Master) (a : Nat) (write malformed : Bool) : State × Option Nat :=
  if s.bst = bsRUNNING ∧ (malformed ∨ ¬ servedInTest a) then (s, some psNOT_READY)
  else if s.bst = bsCRITICAL ∧ (malformed ∨ write ∨ ¬ servedAfterCritical a) then (s, some psFROZEN)
  else if s.frozen m then (s, some psFROZEN)
  else if malformed then (s.violate m vcMALFORMED a, some psVIOLATION)
  else (s, none)

/-- R453: the condition of an IBI has fallen, so that the next rise is a new one. -/
def ibiRefresh (s : State) : State := s.mgm fun x => { x with ibiLevel := x.ibiLevel && s.intHit }

/-- One access from outside: the state, the status, the word, and whether it reached the register bus. -/
def extRead (s : State) (m : Master) (a p : Nat) : State × Nat × Word × Bool :=
  match s.gate m a false false with
  | (s, some st) => (s, st, 0, false)
  | (s, none) =>
    let (s, st, w) := s.busRead m a p
    (s.ibiRefresh, st, w, true)
def extWrite (s : State) (m : Master) (a : Nat) (mask w : Word) : State × Nat × Bool :=
  match s.gate m a true false with
  | (s, some st) => (s, st, false)
  | (s, none) =>
    let (s, st) := s.busWriteM m a mask w
    (s.ibiRefresh, st, true)

/-- R444, R446, R449, R457: the outcome of an SPI access, and the answer on MISO: status byte, data and their CRC. -/
def spiDone (s : State) (status words a : Nat) (data : Word) : State :=
  let s := ((s.put Reg.MGMT_STAT0.STATUS status).put Reg.MGMT_STAT0.WORDS words).put Reg.MGMT_STAT0.ADDR a
  (s.mgm fun x => { x with spiStatus := status, spiData := data, spiCrc := crc16Bytes (BitVec.ofNat 8 status :: wordBytes data) }).pmc 0x80 words

/-- R444, R447: an SPI frame READ and an SPI frame WRITE with a right CRC. -/
def spiRead (s : State) (a p : Nat) : State :=
  if ¬ s.answers then s else
  let (s, st, w, reached) := s.extRead .spi a p
  s.spiDone st (b2n reached) a (if st = psOK then w else 0)
def spiWrite (s : State) (a : Nat) (w : Word) : State :=
  if ¬ s.answers then s else
  let (s, st, reached) := s.extWrite .spi a (BitVec.allOnes 48) w
  s.spiDone st (b2n reached) a 0

/-- R444, R448, R482: an SPI frame as received: cut short, of a wrong CRC, malformed, or well-formed. -/
def spiFrame (s : State) (l : List Byte) (p : Nat) : State :=
  if ¬ s.answers then s else
  let op := (l.getD 0 0).toNat
  let n := if op = 2 then 12 else 6
  if l.length < n then s.inc Reg.SPI_ABORT_CNT.COUNT else
  let a := octField l 1 3
  if crc16Bytes (l.take (n - 2)) ≠ octField l (n - 2) 2 then (s.inc Reg.SPI_CRC_CNT.COUNT).spiDone psCRC_BAD 0 a 0
  else if op = 2 then s.spiWrite a (BitVec.ofNat 48 (octField l 4 6))
  else if op = 0x0B then s.spiRead a p
  else
    let (s, st) := s.gate .spi a false true
    s.spiDone (st.getD psVIOLATION) 0 a 0

/-- R450: the address that the I3C or I²C target answers to. -/
def i3cStatic (s : State) : Nat := 0x58 + bits s.part.strap 2 1
def i3cTarget (s : State) : Nat := if s.on Reg.I3C_STAT.DA_VALID then s.get Reg.I3C_STAT.DA else s.i3cStatic
def i3cAnswers (s : State) (target : Nat) : Bool := s.answers && target = s.i3cTarget

/-- What a transaction has met so far: words that reached the bus, the first status other than OK, and its address or the last. -/
structure I3cTally where
  words : Nat
  status : Nat
  addr : Nat
  deriving DecidableEq, Repr

def I3cTally.add (t : I3cTally) (st a : Nat) (reached : Bool) : I3cTally :=
  ⟨t.words + b2n reached, if t.status = 0 then st else t.status, if t.status = 0 then a else t.addr⟩

/-- R451, R457: the end of a transaction that accessed words. -/
def i3cDone (s : State) (t : I3cTally) : State :=
  (((s.put Reg.MGMT_STAT1.STATUS t.status).put Reg.MGMT_STAT1.WORDS (min 65535 t.words)).put Reg.MGMT_STAT1.ADDR t.addr).pmc 0x81 t.words

/-- R451: the addresses that take a narrow word. -/
def narrowOk (s : State) (a : Nat) : Bool :=
  (0x2C0000 ≤ a && a < 0x300000) || a = Reg.PWR_RB_DATA.addr [] || a = Reg.JNL_DATA.addr [] ||
    (a = Reg.SEQ_DBG_DATA.addr [] && decide (0x100000 ≤ s.get Reg.SEQ_DBG_ADDR.ADDR) && decide (s.get Reg.SEQ_DBG_ADDR.ADDR < 0x140000))

/-- R451: the words of a private write, in groups of six octets, and a narrow last word. -/
def i3cWords (s : State) (a : Nat) : List (List Byte) → I3cTally → State × I3cTally
  | [], t => (s, t)
  | g :: gs, t =>
    let a := a % 0x1000000
    if g.length = 6 then
      let (s, st, reached) := s.extWrite .i3c a (BitVec.allOnes 48) (bytesWord g)
      i3cWords s (a + 1) gs (t.add st a reached)
    else if s.narrowOk a then
      let n := g.length
      let mask := BitVec.ofNat 48 (2 ^ 48 - 2 ^ (48 - 8 * n))
      let (s, st, reached) := s.extWrite .i3c a mask (bytesWord (g ++ List.replicate (6 - n) 0))
      i3cWords s (a + 1) gs (t.add st a reached)
    else
      let (s, st) := s.gate .i3c a true true
      i3cWords s (a + 1) gs (t.add (st.getD psVIOLATION) a false)

/-- R451: a private write of the octets `l`; `err` where a parity error or an unexpected START ended it. An address cut short names no
register: what address is recorded is a free value (log entry 1). -/
def i3cWrite (s : State) (target : Nat) (l : List Byte) (err : Bool) : State :=
  if ¬ s.i3cAnswers target then s else
  let s := s.whenB err (·.inc Reg.I3C_ERR_CNT.COUNT)
  if l = [] then s
  else if l.length < 3 then
    let a := s.freeBits 24
    let (t, st) := s.useFree.gate .i3c a true true
    t.i3cDone ⟨0, st.getD psVIOLATION, a⟩
  else
    let a := octField l 0 3
    let gs := chunks 6 l.length (l.drop 3)
    let s := s.mgm fun x => { x with i3cAddr := (a + gs.length) % 0x1000000 }
    if gs = [] then s else
    let (s, t) := s.i3cWords a gs ⟨0, 0, a⟩
    s.i3cDone t

/-- R452: one word read ahead; a counter whose word is not sent keeps its count. -/
def i3cAhead (s : State) (a p : Nat) (sent : Bool) : State × Nat × Word × Bool :=
  let rc := match rowOf a with | some (r, _) => r.acc == .rc | none => false
  let (t, st, w, reached) := s.extRead .i3c a p
  (if rc && !sent then s else t, st, if st = psOK then w else 0, reached)

/-- R452: `n` words read from address `a`, of which the first `sent` are sent. -/
def i3cReads (s : State) (p : Nat) : Nat → Nat → Nat → I3cTally → List Word → State × I3cTally × List Word
  | 0, _, _, t, ws => (s, t, ws)
  | n + 1, a, sent, t, ws =>
    let a := a % 0x1000000
    let (s, st, w, reached) := s.i3cAhead a p (0 < sent)
    i3cReads s p n (a + 1) (sent - 1) (t.add st a reached) (if 0 < sent then ws ++ [w] else ws)

/-- R452: a private read of `n` octets. -/
def i3cRead (s : State) (target n p : Nat) : State :=
  if ¬ s.i3cAnswers target then s else
  let a := s.mgmt.i3cAddr
  let (s, t, ws) := s.i3cReads p (1 + n / 6) a ((n + 5) / 6) ⟨0, 0, a⟩ []
  (s.mgm fun x => { x with i3cAddr := (a + n / 6) % 0x1000000, i3cData := ws }).i3cDone t

/-- R450: a dynamic address is assigned. -/
def i3cAssign (s : State) (da : Nat) : State := (s.put Reg.I3C_STAT.DA da).put Reg.I3C_STAT.DA_VALID 1

/-- R450: the answer to a directed code. -/
def i3cAnswer (s : State) (target : Nat) (w : Word) : State :=
  if s.i3cAnswers target then s.mgm fun x => { x with i3cData := [w] } else s

/-- R450: the provisioned ID. -/
def pidWord (s : State) : Word :=
  let id := s.sec.identity.toNat
  BitVec.ofNat 48 (bits id 46 32 * 2 ^ 33 + 2 ^ 32 + bits id 31 0)

/-- R453: the target may request an IBI: a new enabled source, or one that the controller NACKed. -/
def ibiRequest (s : State) (acked : Bool) : State :=
  if ¬ s.answers ∨ ¬ s.on Reg.I3C_STAT.IBI_EN ∨ ¬ s.on Reg.I3C_STAT.DA_VALID ∨ ¬ s.intHit then
    (s.ibiRefresh).mgm fun x => { x with ibiPend := false }
  else if s.mgmt.ibiLevel ∧ ¬ s.mgmt.ibiPend then s
  else
    let b := bits (s.intWord &&& (s.liveAt (Reg.INT_EN.addr [])).toNat) 7 0
    s.mgm fun x => { x with ibiLevel := true, ibiPend := !acked, ibiByte := b }

/-- R470: a JTAG instruction is selected: its code, the data register's content, and what drives the pins. -/
def jtagSelect (s : State) (code : Nat) (dr : BitVec 88) (mode : Nat) : State :=
  s.mgm fun x => { x with jtagIr := code, jtagDr := dr, jtagMode := mode }

/-- R470: an instruction that loads the boundary register. -/
def jtagBoundary (s : State) (code : Nat) (cells : List Bool) (mode : Nat) : State :=
  (s.jtagSelect code 0 mode).mgm fun x => { x with boundary := cells }

/-- R470: the identification register. -/
def idWord (s : State) : Nat :=
  bits s.part.stepping 7 4 * 2 ^ 28 + (if s.is1608 then 0x1608 else 0x3208) * 2 ^ 12 + 0x2E9 * 2 + 1

/-- R471: what Capture-DR loads after an access. -/
def accessDr (s : State) : BitVec 88 :=
  BitVec.ofNat 88 (2 ^ 87 + s.mgmt.jtagStatus * 2 ^ 72 + s.mgmt.jtagAddr * 2 ^ 48 + s.mgmt.jtagData.toNat)

/-- The record of an access by JTAG. -/
def jtagDone (s : State) (st a : Nat) (w : Word) : State :=
  let s := s.mgm fun x => { x with jtagStatus := st, jtagAddr := a, jtagData := w }
  s.mgm fun x => { x with jtagDr := s.accessDr }

/-- R471: Update-DR of REG_ACCESS with the 88 bits shifted in. Where the device does not answer, DONE stays 0. -/
def jtagAccess (s : State) (dr : BitVec 88) (p : Nat) : State :=
  if s.lcs ≠ lcMANUFACTURE ∧ s.lcs ≠ lcRMA then s.jtagSelect 0x20 0 0
  else
    let s := s.jtagSelect 0x20 0 0
    let a := bits dr.toNat 71 48
    if ¬ s.answers then s
    else if dr.getLsbD 87 then
      let (s, st, _) := s.extWrite .jtag a (BitVec.allOnes 48) (BitVec.ofNat 48 dr.toNat)
      s.jtagDone st a 0
    else
      let (s, st, w, _) := s.extRead .jtag a p
      s.jtagDone st a (if st = psOK then w else 0)

/-- R427: self-test has released the device. -/
def released (s : State) : Bool := s.running && s.bst ≠ bsRUNNING && s.bst ≠ bsCRITICAL

/-- An event in a released device, under the condition that makes it one; otherwise nothing happens (log entry 33). -/
def act (s : State) (c : Bool) (f : State → State) : State := s.whenB (s.released && c) f

/-- R431, R471: a master has a path to the register bus: JTAG has one in MANUFACTURE and RMA alone. -/
def hasPath (s : State) (q : Requester) : Bool := !(q == .jtag) || s.lcs = lcMANUFACTURE || s.lcs = lcRMA

/-- R443: a read, or a write of a whole word, by a master, with the record that its interface keeps. A master without an interface of its
own reaches the bus through FROZEN alone (R262). -/
def access (s : State) (q : Requester) (a : Nat) (w : Option Word) (p : Nat := 0) : State :=
  if ¬ s.answers ∨ ¬ s.hasPath q then s else
  match q, w with
  | .spi, none => s.spiRead a p
  | .spi, some w => s.spiWrite a w
  | .i3c, none =>
    let (s, st, w, reached) := s.extRead .i3c a p
    (s.mgm fun x => { x with i3cData := [if st = psOK then w else 0] }).i3cDone ⟨b2n reached, st, a⟩
  | .i3c, some w =>
    let (s, st, reached) := s.extWrite .i3c a (BitVec.allOnes 48) w
    s.i3cDone ⟨b2n reached, st, a⟩
  | .jtag, none =>
    let (s, st, w, _) := s.extRead .jtag a p
    s.jtagDone st a (if st = psOK then w else 0)
  | .jtag, some w =>
    let (s, st, _) := s.extWrite .jtag a (BitVec.allOnes 48) w
    s.jtagDone st a 0
  | .quaran, none => if ¬ s.released then s else (s.portRead .quaran a p).1.ibiRefresh
  | .quaran, some w => if ¬ s.released then s else (s.portWrite .quaran a w).1.ibiRefresh
  | .scrim, none => if ¬ s.released then s else ((s.portRead .scrim a p).1.pmc 0x82).ibiRefresh
  | .scrim, some w => if ¬ s.released then s else ((s.portWrite .scrim a w).1.pmc 0x82).ibiRefresh

/-- A write of a whole word by a requester. -/
def accessW (s : State) (q : Requester) (a : Nat) (w : Word) : State := s.access q a (some w)

end State
end Sys2Proof.Machine
end

