-- ==== Sys2Proof/Machine/Quaran.lean ====
section
/-! DEFINITION. The instructions of the Quaran (spec/12_quaran_sequencer_isa.md R252–R270, R272): fetch, operand forms, flags, the
effects of every instruction, and the decoding of an instruction word. -/
namespace Sys2Proof.Machine.State

/-- R404: the correction of a stored word takes a page decode. -/
def pageNeeded (s : State) (m a : Nat) : Bool :=
  let c := s.cell m a
  c.syndrome ≠ 0 && match c.single with
    | none => true
    | some w =>
      let cells := (s.pageCells m (a / 64)).map (·.data)
      !(Rs.syndromes 24 (pageSymbols (upd cells (a % 64) fun _ => w) ++ (s.page m (a / 64)).syms)).all (· == 0)

/-- R252, R269, R430: the word at the PC is fetched: the state, whether the word is usable, and the word. -/
def fetch (s : State) : State × Bool × Word :=
  let a := s.fetchAddr
  let s := s.whenB (s.isPageHit memIMEM a) isAbort
  let slow := s.pageNeeded memIMEM a
  let (s, ok, w) := s.memRead memIMEM a .quaran
  (s.whenB (slow && ok) (·.slots 0x04 3 [0x0D]), ok, w)

/-- The sequencer issues an instruction: it is fetched, and an unusable word raises IMEM_UNC (R260, R270). Where no instruction can
issue, nothing happens. -/
def issue (s : State) (f : State → State) : State :=
  if ¬ s.issues then s else
  let (s, ok, _) := s.fetch
  if ok then f s else s.exception exIMEM_UNC 0

/-- R253: Z and N of a word result, with C and V. -/
def flagW (s : State) (r : Word) (c v : Bool) : State :=
  s.sq fun q => { q with z := r = 0, n := r.msb, c := c, v := v }

/-- R253: the flags of an accumulator result; C is 0. -/
def flagA (s : State) (r : BitVec 104) (v : Bool) : State :=
  s.sq fun q => { q with z := r = 0, n := r.msb, c := false, v := v }

/-- R253: a saturation sets S. -/
def flagS (s : State) (b : Bool) : State := s.whenB b (·.sq fun q => { q with sf := true, edge := (q.edge.1, [0x18]) })

/-- R262: C after a port access. -/
def flagC (s : State) (b : Bool) : State := s.sq fun q => { q with c := b }

/-- A result of one cycle: flags, rd and retirement. -/
def finish (s : State) (rd : Nat) (r : Word) (c v : Bool) (reads : List Nat) : State :=
  ((s.flagW r c v).setW rd r).retire s.nextPc (reads := reads)

/-- A 30-bit immediate, sign-extended (R255). -/
def imm48 (i : BitVec 30) : Word := i.signExtend 48

/-- R256, R258: the sum of two words. -/
def addWords (s : State) (sat : Bool) (rd : Nat) (a b : Word) (reads : List Nat) : State :=
  let x := a.toInt + b.toInt
  let v := decide (satS 48 x ≠ x)
  let r := if sat then BitVec.ofInt 48 (satS 48 x) else a + b
  (s.flagS (sat && v)).finish rd r (decide (2 ^ 48 ≤ a.toNat + b.toNat)) v reads

/-- R256, R258: the difference of two words. -/
def subWords (s : State) (sat : Bool) (rd : Nat) (a b : Word) (reads : List Nat) : State :=
  let x := a.toInt - b.toInt
  let v := decide (satS 48 x ≠ x)
  let r := if sat then BitVec.ofInt 48 (satS 48 x) else a - b
  (s.flagS (sat && v)).finish rd r (decide (b.toNat ≤ a.toNat)) v reads

/-- The instructions that leave C and V at 0 (R256). -/
def logic (s : State) (f : Word → Word → Word) (rd : Nat) (a b : Word) (reads : List Nat) : State :=
  s.finish rd (f a b) false false reads

/-- R256: the shifts take bits 5:0 of their second operand; SRA of 48 or more gives the sign in every bit. -/
def shlW (a b : Word) : Word := a <<< (b.toNat % 64)
def shrW (a b : Word) : Word := a >>> (b.toNat % 64)
def sraW (a b : Word) : Word := a.sshiftRight (b.toNat % 64)
def minW (a b : Word) : Word := if b.slt a then b else a
def maxW (a b : Word) : Word := if a.slt b then b else a
def minuW (a b : Word) : Word := if b < a then b else a
def maxuW (a b : Word) : Word := if a < b then b else a

/-- R256, format R. -/
def iAdd (rd ra rb : Nat) (s : State) : State := s.addWords false rd (s.wreg ra) (s.wreg rb) [ra, rb]
def iAdds (rd ra rb : Nat) (s : State) : State := s.addWords true rd (s.wreg ra) (s.wreg rb) [ra, rb]
def iSub (rd ra rb : Nat) (s : State) : State := s.subWords false rd (s.wreg ra) (s.wreg rb) [ra, rb]
def iSubs (rd ra rb : Nat) (s : State) : State := s.subWords true rd (s.wreg ra) (s.wreg rb) [ra, rb]
def iLogic (f : Word → Word → Word) (rd ra rb : Nat) (s : State) : State := s.logic f rd (s.wreg ra) (s.wreg rb) [ra, rb]

/-- R256, format I. -/
def iAddi (rd ra : Nat) (i : BitVec 30) (s : State) : State := s.addWords false rd (s.wreg ra) (imm48 i) [ra]
def iAddsi (rd ra : Nat) (i : BitVec 30) (s : State) : State := s.addWords true rd (s.wreg ra) (imm48 i) [ra]
def iSubi (rd ra : Nat) (i : BitVec 30) (s : State) : State := s.subWords false rd (s.wreg ra) (imm48 i) [ra]
def iSubsi (rd ra : Nat) (i : BitVec 30) (s : State) : State := s.subWords true rd (s.wreg ra) (imm48 i) [ra]
def iLogici (f : Word → Word → Word) (rd ra : Nat) (i : BitVec 30) (s : State) : State := s.logic f rd (s.wreg ra) (imm48 i) [ra]

/-- R256: NOP, and the moves of an immediate. -/
def iNop (s : State) : State := s.retire s.nextPc
def iMovlo (rd : Nat) (i : BitVec 24) (s : State) : State := s.finish rd (i.setWidth 48) false false []
def iMovhi (rd : Nat) (i : BitVec 24) (s : State) : State :=
  s.finish rd (BitVec.ofNat 48 (i.toNat * 2 ^ 24 + (s.wreg rd).toNat % 2 ^ 24)) false false [rd]

/-- R253, R256: the flags as a word. -/
def iGetf (rd : Nat) (s : State) : State := (s.setW rd (BitVec.ofNat 48 s.flagsCode)).retire s.nextPc
def iPutf (ra : Nat) (s : State) : State := (s.setFlags ((s.wreg ra).toNat % 32)).retire s.nextPc (reads := [ra])
def iClrs (s : State) : State := (s.sq fun q => { q with sf := false }).retire s.nextPc

/-- R258: the exact product of two words. -/
def product (s : State) (ra rb : Nat) (u : Bool) : Int :=
  if u then (s.wreg ra).toNat * (s.wreg rb).toNat else (s.wreg ra).toInt * (s.wreg rb).toInt

/-- R258: an accumulator takes an exact value, wrapping or saturating. -/
def accTake (s : State) (ac : Nat) (x : Int) (sat : Bool) : State :=
  let v := decide (satS 104 x ≠ x)
  let r : BitVec 104 := if sat then BitVec.ofInt 104 (satS 104 x) else BitVec.ofInt 104 x
  ((s.flagS (sat && v)).setAcc ac r).flagA r v

/-- R256, R258: MUL, and the accumulating forms with the sign of the product. -/
def iMul (ra rb : Nat) (u : Bool) (ac : Nat) (s : State) : State :=
  (s.accTake ac (s.product ra rb u) false).retire s.nextPc (reads := [ra, rb]) (mac := some ac)
def iMac (sign : Int) (sat : Bool) (ra rb : Nat) (u : Bool) (ac : Nat) (s : State) : State :=
  (s.accTake ac ((s.accAt ac).toInt + sign * s.product ra rb u) sat).retire s.nextPc (reads := [ra, rb]) (mac := some ac)

/-- R256, R141: the shifts of an accumulator. -/
def iAsr (ac : Nat) (sh : Nat) (s : State) : State :=
  (s.accTake ac (rshr (s.accAt ac).toInt sh) false).retire s.nextPc (accR := some ac)
def iAsl (ac : Nat) (sh : Nat) (s : State) : State :=
  (s.accTake ac ((s.accAt ac).toInt * 2 ^ sh) false).retire s.nextPc (accR := some ac)

/-- R259: ROUND; its reserved codes raise ILLEGAL. -/
def iRound (rd ac w sh : Nat) (s : State) : State :=
  if w = 0 ∨ 48 < w ∨ 103 < sh then s.exception exILLEGAL 0 else
  let t := rshr (s.accAt ac).toInt sh
  let r := satS w t
  let v := decide (r ≠ t)
  let x := BitVec.ofInt 48 r
  (((s.flagS v).flagW x false v).setW rd x).retire s.nextPc (accR := some ac)

/-- R259: the bits below the sign that equal it. -/
def redundant (a : BitVec 104) : Nat :=
  let n := if a.msb then (~~~a).toNat else a.toNat
  103 - (if n = 0 then 0 else Nat.log2 n + 1)
def iNorm (rd ac : Nat) (s : State) : State :=
  let x := BitVec.ofNat 48 (redundant (s.accAt ac))
  ((s.flagW x false false).setW rd x).retire s.nextPc (accR := some ac)

/-- R256: the parts of an accumulator; a part of 3 or more, in SH, raises ILLEGAL. -/
def iAccget (rd ac sh : Nat) (s : State) : State :=
  if 2 < sh then s.exception exILLEGAL 0 else
  (s.setW rd (accPart (s.accAt ac) sh)).retire s.nextPc (accR := some ac)
def iAccput (ra ac sh : Nat) (s : State) : State :=
  if 2 < sh then s.exception exILLEGAL 0 else
  (s.setAcc ac (accWithPart (s.accAt ac) sh (s.wreg ra))).retire s.nextPc (reads := [ra])

/-- R260: the address of LD and ST. -/
def dmemAddr (s : State) (ra : Nat) (i : BitVec 30) : Nat := (s.wreg ra + imm48 i).toNat
def iLd (rd ra : Nat) (i : BitVec 30) (s : State) : State :=
  let a := s.dmemAddr ra i
  if 262143 < a then s.exception exDMEM_RANGE a else
  let s := s.whenB (s.isPageHit memDMEM a) isAbort
  let slow := s.pageNeeded memDMEM a
  let (s, ok, w) := s.memRead memDMEM a .quaran
  if ¬ ok then s.exception exDMEM_UNC a
  else (s.setW rd w).retire s.nextPc (reads := [ra]) (back := if slow then 3 else 0) (ld := some rd)
def iSt (rd ra : Nat) (i : BitVec 30) (s : State) : State :=
  let a := s.dmemAddr ra i
  if 262143 < a then s.exception exDMEM_RANGE a else
  let s := s.whenB (s.isPageHit memDMEM a) isAbort
  (s.memWrite memDMEM a (s.wreg rd) .quaran).retire s.nextPc (reads := [rd, ra])

/-- R261: the address of a port instruction. -/
def portAddr (s : State) (ra : Nat) (a24 : BitVec 24) : Nat := ((s.wreg ra).toNat + a24.toNat) % 0x1000000

/-- R262: the status of a port access; the interfaces alone tell a poisoned word. -/
def portStat (s : State) (st : Nat) : State :=
  let st := if st = psPOISON then psOK else st
  ((s.sq fun q => { q with pstat := st }).flagC (decide (st ≠ psOK))).whenB (st ≠ psOK) (·.pmc 0x12)

/-- R269: the stall of an INP: 8 cycles to SEQ or PMC, 14 to any other block. -/
def inpStall (a : Nat) : Nat :=
  let l := a % 0x800000
  if (0x300000 ≤ l ∧ l < 0x380000) ∨ (0x4B0000 ≤ l ∧ l < 0x4C0000) then 8 else 14

/-- R261, R262: INP. -/
def iInp (rd ra : Nat) (a24 : BitVec 24) (at_ wait : Nat) (s : State) : State :=
  let a := s.portAddr ra a24
  let (s, st, w) := (s.pmc 0x10).portRead .quaran a at_
  ((s.portStat st).setW rd w).retire s.nextPc (reads := [ra]) (port := inpStall a + wait)

/-- R262: the end of a write by a port instruction; a violation raises PORT_VIOL. -/
def portEnd (s : State) (st a stall : Nat) (reads : List Nat) : State :=
  let s := (s.portStat st).ibiRefresh
  if st = psVIOLATION then (s.slots 0x05 stall [0x09]).exception exPORT_VIOL a
  else s.retire s.nextPc (reads := reads) (port := stall)

/-- R263: STG to a live address; `held` are the cycles for which a running check holds the write. -/
def stage (s : State) (l : Nat) (w : Word) (wait held : Nat) (reads : List Nat) : State :=
  if ¬ stagedAt l then s.exception exPORT_STG l else
  let h := if s.set.check.isSome ∧ ¬ s.frozen .quaran then held else 0
  let (s, st) := (s.pmc 0x11).portWrite .quaran (l + 0x800000) w
  (s.slots 0x05 h [0x0C]).portEnd st (l + 0x800000) (6 + wait) reads

def iStg (rs ra : Nat) (a24 : BitVec 24) (wait held : Nat) (s : State) : State :=
  s.stage (s.portAddr ra a24) (s.wreg rs) wait held [rs, ra]

/-- R261–R263: OUTP; one to an undercoat address is an STG. -/
def iOutp (rs ra : Nat) (a24 : BitVec 24) (wait held : Nat) (s : State) : State :=
  let a := s.portAddr ra a24
  if 0x800000 ≤ a then s.stage (a - 0x800000) (s.wreg rs) wait held [rs, ra] else
  let (t, st) := (s.pmc 0x11).portWrite .quaran a (s.wreg rs)
  t.portEnd st a (6 + wait) [rs, ra]

/-- R264, R268: the status of a request: 0 with Z set where it was made. -/
def requested (s : State) (rd : Nat) (ok : Bool) (reads : List Nat) : State :=
  ((s.sq fun q => { q with z := ok }).setW rd (if ok then 0 else 1)).retire s.nextPc (reads := reads) (back := 2)

/-- R264: SET. -/
def iSet (rd : Nat) (s : State) : State :=
  let ok := s.mayCheck ckPLAIN
  ((s.startCheck .quaran ckPLAIN).whenB ok (·.pmc 0x19)).requested rd ok []

/-- R257: the conditions of BR. -/
def condHolds (s : State) (c : Nat) : Bool :=
  let q := s.seq
  match c with
  | 0 => true | 1 => q.z | 2 => !q.z | 3 => q.n != q.v | 4 => q.n == q.v | 5 => !q.z && q.n == q.v | 6 => q.z || q.n != q.v
  | 7 => !q.c | 8 => q.c | 9 => q.v | 10 => q.sf | _ => !q.v
def iBr (c : Nat) (t : BitVec 15) (s : State) : State :=
  if 11 < c then s.exception exILLEGAL 0
  else if s.condHolds c then s.retire t.toNat (wasted := 2) else s.retire s.nextPc
def iJr (ra : Nat) (s : State) : State := s.retire ((s.wreg ra).toNat % 32768) (reads := [ra]) (wasted := 2)

/-- R256, R270: CALL and RET with the stack of 16. -/
def iCall (t : BitVec 15) (s : State) : State :=
  if 16 ≤ s.seq.stack.length then s.exception exSTACK 0
  else (s.sq fun q => { q with stack := s.nextPc :: q.stack }).retire t.toNat (wasted := 2)
def iRet (s : State) : State :=
  match s.seq.stack with
  | [] => s.exception exSTACK 0
  | p :: st => (s.sq fun q => { q with stack := st }).retire p (wasted := 2)

/-- R254: TICK ends the run. -/
def iTick (t : BitVec 15) (s : State) : State :=
  let i := s.seq.run.getD s.seq.task
  (((s.retire t.toNat).pmc 0x15).put Reg.SEQ_TSTAT.RESUME t.toNat [i]).endRun

/-- R265: a wait ends with the events seen. -/
def waitEnd (s : State) (rd : Nat) (mask : Word) : State :=
  let e := s.get Reg.SEQ_EVPEND.PEND
  let got := e &&& mask.toNat
  let s := s.put Reg.SEQ_EVPEND.PEND (e - got)
  let s := (s.sq fun q => { q with z := got = 0, waiting := none }).setW rd (BitVec.ofNat 48 got)
  s.retire s.nextPc (back := 1)
def waitSees (s : State) (mask : Word) : Bool := s.get Reg.SEQ_EVPEND.PEND &&& mask.toNat ≠ 0

/-- R265: WAITE: a wait that already sees an event, or has a limit of 0, ends at once. -/
def iWaite (rd ra : Nat) (limit : Nat) (s : State) : State :=
  let m := s.wreg ra
  if s.waitSees m ∨ limit = 0 then s.waitEnd rd m else s.sq fun q => { q with waiting := some (rd, m, limit) }

/-- R265: `n` cycles of a wait have passed. -/
def waitPass (s : State) (n : Nat) : State :=
  let s := s.slots 0x05 n [0x0B]
  s.sq fun q => { q with waiting := q.waiting.map fun w => (w.1, w.2.1, w.2.2 - n) }

/-- R265: a wait in a current run ends, `n` cycles after it was last accounted for. -/
def waiteEnd (s : State) (n : Nat) : State :=
  match s.seq.waiting with
  | none => s
  | some (rd, m, left) =>
    if s.seq.run.isNone ∨ s.seq.suspended ∨ s.seq.halted ∨ s.seq.resetting ∨ s.seq.clkStopped then s
    else if s.waitSees m ∨ left ≤ n then (s.waitPass (min n left)).waitEnd rd m
    else s

/-- R256, R270, R272: BRK. -/
def iBrk (s : State) : State := if s.on Reg.SEQ_CTL.BRK_EN then (s.retire s.nextPc).halt else s.exception exBRK 0

/-- R266: what PUSH and POP meet before the ring: an unpowered or frozen access, or a breach of R224. -/
def ringPort (s : State) (owner : FRef) (r stall : Nat) (reads : List Nat) (f : State → State) : State :=
  if s.frozen .quaran then (s.portStat psFROZEN).retire s.nextPc (reads := reads) (back := stall)
  else if ¬ s.domOn 41 then (s.portStat psUNPOWERED).retire s.nextPc (reads := reads) (back := stall)
  else if s.ringType r = 0 ∨ s.get owner [r] ≠ Master.quaran.code then
    let s := (s.violate .quaran vcRING r).portStat psVIOLATION
    (s.slots 0x05 stall).exception exPORT_VIOL r
  else f (s.portStat psOK)

/-- The number of entries held on a ring. -/
def heldOn_ (l : List (Nat × Nat)) (r : Nat) : Nat := (kvGet l r).getD 0

/-- R266: PUSH. -/
def iPush (rd ra : Nat) (h : Bool) (ofs wait : Nat) (s : State) : State :=
  if 28 < rd then s.exception exILLEGAL 0 else
  let r := ((s.wreg ra).toNat + ofs) % 8192
  let ws := (List.range 4).map fun i => s.wreg (rd + i)
  let reads := [ra, rd, rd + 1, rd + 2, rd + 3]
  s.ringPort Reg.RNG_CFG.PROD r (5 + wait) reads fun s =>
    let n := heldOn_ s.seq.heldPush r
    if s.ringSize r ≤ s.ringFill r + n then
      (((s.sq fun q => { q with heldPush := kvDel q.heldPush r }).flagC true).pmc 0x16).retire s.nextPc (reads := reads) (back := 5 + wait)
    else
      let s := s.ringPut r (s.get Reg.RNG_PI.INDEX [r] + n) ws .quaran
      let s := if h then s.sq fun q => { q with heldPush := kvSet q.heldPush r (n + 1) }
        else (s.sq fun q => { q with heldPush := kvDel q.heldPush r }).ringAdvance r (n + 1)
      s.retire s.nextPc (reads := reads) (back := 5 + wait)

/-- R266, R407: POP; an unusable word is delivered as 0. -/
def iPop (rd ra : Nat) (h : Bool) (ofs wait : Nat) (s : State) : State :=
  if rd = 0 ∨ 28 < rd then s.exception exILLEGAL 0 else
  let r := ((s.wreg ra).toNat + ofs) % 8192
  s.ringPort Reg.RNG_CFG.CONS r (5 + wait) [ra] fun s =>
    let n := heldOn_ s.seq.heldPop r
    if s.ringFill r ≤ n then ((s.flagC true).pmc 0x17).retire s.nextPc (reads := [ra]) (back := 5 + wait)
    else
      let a := s.ringWord r (s.get Reg.RNG_CI.INDEX [r] + n)
      let s := s.each (List.range 4) fun s i =>
        let s := s.whenB (s.isPageHit memRING (a + i)) isAbort
        let (s, ok, w) := s.memRead memRING (a + i) .quaran
        s.setW (rd + i) (if ok then w else 0)
      let s := if h then s.sq fun q => { q with heldPop := kvSet q.heldPop r (n + 1) }
        else (s.sq fun q => { q with heldPop := kvDel q.heldPop r }).ringConsume r (n + 1)
      s.retire s.nextPc (reads := [ra]) (back := 5 + wait)

/-- R267: TRC. -/
def iTrc (rd at_ : Nat) (s : State) : State :=
  let r := s.get Reg.SEQ_TRC_CFG.RING
  let t := s.timeAt at_
  let s := if r = 0 then s else
    s.enterRecord r ringEVENT [[BitVec.ofNat 48 (5 * 2 ^ 44 + s.seq.task * 2 ^ 15 + s.seq.pc), secWord t, nsWord t, s.wreg rd]]
  s.retire s.nextPc (reads := [rd]) (back := 1)

/-- R268: PWR. -/
def iPwr (rd ra : Nat) (s : State) : State :=
  let ok := s.pwr.req.isNone
  (s.pwrRequest .quaran (s.wreg ra)).requested rd ok [ra]

/-- R255, R256: what an instruction word does; an undefined opcode, a nonzero reserved or unused register field and a reserved code raise
ILLEGAL. The fields U, W and SH of an instruction that does not use them, and the target of JR, are no register fields (log entry 30). -/
def wordOp (w : Word) (at_ wait held : Nat) : Option (State → State) :=
  let n := w.toNat
  let rd := bits n 39 35
  let ra := bits n 34 30
  let rb := bits n 29 25
  let imm : BitVec 30 := BitVec.ofNat 30 n
  let a24 : BitVec 24 := BitVec.ofNat 24 n
  let tgt : BitVec 15 := BitVec.ofNat 15 n
  let u := n.testBit 24
  let ac := bits n 23 23
  let wd := bits n 13 8
  let sh := bits n 6 0
  let sure (c : Bool) (f : State → State) : Option (State → State) := if c then some f else none
  let none40 := bits n 39 0 = 0
  let rOk := bits n 24 0 = 0
  let aOk := bits n 22 14 = 0 && bits n 7 7 = 0
  let fR (f : Nat → Nat → Nat → State → State) := sure rOk (f rd ra rb)
  let fI (f : Nat → Nat → BitVec 30 → State → State) := some (f rd ra imm)
  let fM (f : Nat → Nat → Bool → Nat → State → State) := sure (aOk && rd = 0) (f ra rb u ac)
  let pOk := bits n 29 24 = 0
  let qOk := bits n 29 25 = 0 && bits n 23 13 = 0
  match bits n 47 40 with
  | 0x00 => sure none40 iNop
  | 0x01 => fR iAdd | 0x02 => fR iAdds | 0x03 => fR iSub | 0x04 => fR iSubs
  | 0x05 => fR (iLogic (· &&& ·)) | 0x06 => fR (iLogic (· ||| ·)) | 0x07 => fR (iLogic (· ^^^ ·))
  | 0x08 => fR (iLogic shlW) | 0x09 => fR (iLogic shrW) | 0x0A => fR (iLogic sraW)
  | 0x0B => fR (iLogic minW) | 0x0C => fR (iLogic maxW) | 0x0D => fR (iLogic minuW) | 0x0E => fR (iLogic maxuW)
  | 0x11 => fI iAddi | 0x12 => fI iAddsi | 0x13 => fI iSubi | 0x14 => fI iSubsi
  | 0x15 => fI (iLogici (· &&& ·)) | 0x16 => fI (iLogici (· ||| ·)) | 0x17 => fI (iLogici (· ^^^ ·))
  | 0x18 => fI (iLogici shlW) | 0x19 => fI (iLogici shrW) | 0x1A => fI (iLogici sraW)
  | 0x1B => fI (iLogici minW) | 0x1C => fI (iLogici maxW) | 0x1D => fI (iLogici minuW) | 0x1E => fI (iLogici maxuW)
  | 0x20 => sure (ra = 0 && bits n 29 24 = 0) (iMovlo rd a24)
  | 0x21 => sure (ra = 0 && bits n 29 24 = 0) (iMovhi rd a24)
  | 0x22 => sure (rOk && ra = 0 && rb = 0) (iGetf rd)
  | 0x23 => sure (rOk && rd = 0 && rb = 0) (iPutf ra)
  | 0x24 => sure none40 iClrs
  | 0x30 => fM iMul | 0x31 => fM (iMac 1 false) | 0x32 => fM (iMac 1 true) | 0x33 => fM (iMac (-1) false) | 0x34 => fM (iMac (-1) true)
  | 0x35 => sure (aOk && rd = 0 && ra = 0 && rb = 0) (iAsr ac sh)
  | 0x36 => sure (aOk && rd = 0 && ra = 0 && rb = 0) (iAsl ac sh)
  | 0x37 => sure (aOk && ra = 0 && rb = 0) (iRound rd ac wd sh)
  | 0x38 => sure (aOk && ra = 0 && rb = 0) (iNorm rd ac)
  | 0x39 => sure (aOk && ra = 0 && rb = 0) (iAccget rd ac sh)
  | 0x3A => sure (aOk && rd = 0 && rb = 0) (iAccput ra ac sh)
  | 0x40 => fI iLd | 0x41 => fI iSt
  | 0x48 => sure pOk (iInp rd ra a24 at_ wait)
  | 0x49 => sure pOk (iOutp rd ra a24 wait held)
  | 0x4A => sure pOk (iStg rd ra a24 wait held)
  | 0x4B => sure (rOk && ra = 0 && rb = 0) (iSet rd)
  | 0x50 => sure (ra = 0 && bits n 29 15 = 0) (iBr rd tgt)
  | 0x51 => sure (rd = 0 && bits n 29 15 = 0) (iJr ra)
  | 0x52 => sure (rd = 0 && ra = 0 && bits n 29 15 = 0) (iCall tgt)
  | 0x53 => sure none40 iRet
  | 0x54 => sure (rd = 0 && ra = 0 && bits n 29 15 = 0) (iTick tgt)
  | 0x55 => sure (bits n 29 16 = 0) (iWaite rd ra (bits n 15 0))
  | 0x5F => sure none40 iBrk
  | 0x60 => sure qOk (iPush rd ra u (bits n 12 0) (min wait 4))
  | 0x61 => sure qOk (iPop rd ra u (bits n 12 0) (min wait 4))
  | 0x62 => sure (rOk && ra = 0 && rb = 0) (iTrc rd at_)
  | 0x63 => sure (rOk && rb = 0) (iPwr rd ra)
  | _ => none

/-- R255: a word that is no instruction raises ILLEGAL. -/
def iUndefined (w : Word) (s : State) : State :=
  match wordOp w 0 0 0 with | none => s.exception exILLEGAL 0 | some _ => s

/-- The word at the PC is fetched and executed. -/
def issueNext (s : State) (at_ wait held : Nat) : State :=
  if ¬ s.issues then s else
  let (s, ok, w) := s.fetch
  if ¬ ok then s.exception exIMEM_UNC 0 else
  match wordOp w at_ wait held with
  | some f => f s
  | none => s.exception exILLEGAL 0

/-- R272: one instruction of the halted run, after which the sequencer is HALTED again. A WAITE is evaluated for one cycle. -/
def seqStep (s : State) (at_ wait held : Nat) : State :=
  if ¬ s.seq.stepDue ∨ ¬ s.seq.halted then s else
  let s := s.sq fun q => { q with stepDue := false }
  if s.seq.run.isNone then s else
  let susp := s.seq.suspended
  let c := s.seq.cyc
  let s := s.sq fun q => { q with halted := false, suspended := false, cyc := 0 }
  let s := match s.seq.waiting with
    | some (rd, m, left) => if s.waitSees m ∨ left = 0 then s.waitEnd rd m else s.waitPass 1
    | none =>
      let s := s.issueNext at_ wait held
      if s.seq.waiting.isSome then s.waitPass 1 else s
  (s.sq fun q => { q with suspended := susp && q.run.isSome, cyc := q.cyc + c }).halt

/-- R279, R282: the scheduler can start a run. -/
def mayRun (s : State) : Bool :=
  s.released && s.domOn 42 && s.seq.imageRuns && !s.seq.halted && !s.seq.resetting && !s.seq.clkStopped && !s.seq.hold &&
    !s.jnl.rollDue && (s.seq.run.isNone || s.seq.suspended)

/-- R254, R269, R279, R282: a suspended run goes on, ahead of every pending slot; else the picked slot's run starts at its resume
address. -/
def runStart (s : State) : State :=
  if ¬ s.mayRun then s
  else if s.seq.run.isSome then s.sq fun q => { q with suspended := false }
  else match s.pickSlot with
  | none => s
  | some t =>
    let pc := s.get Reg.SEQ_TSTAT.RESUME [t]
    (s.sq fun q => { q with run := some t, task := t, pc := pc, z := false, n := false, c := false, v := false, stack := []
                            ldRd := none, mac1 := none, mac2 := none }).slots 0x04 2

/-- R271: the watchdog's COUNT has reached 0. -/
def wdogExpire (s : State) : State :=
  if ¬ s.seq.wdogDue then s else
  let trial := s.get Reg.SEQ_SWAP.STATE = 2
  let s := ((s.coreReset).inc Reg.WDOG_CNT.COUNT).ev Reg.SEQ_EVT.WDOG
  let s := s.sq fun q => { q with wdogDue := false, revert := if trial then some 4 else q.revert }
  s.seqResetSeen

/-- R283: three overruns in a row. -/
def seqFaultAct (s : State) : State :=
  if ¬ s.seq.faultDue then s else
  let trial := s.get Reg.SEQ_SWAP.STATE = 2
  let s := (((s.put Reg.SEQ_SCHED.FAULT 1).inc Reg.FAULT_CNT.COUNT).put Reg.SEQ_SCHED.CONSEC 0).sq fun q => { q with faultDue := false }
  let s := if s.on Reg.SEQ_SCHED.FAULT_ACT then s.coreReset.seqResetSeen else s.halt
  s.sq fun q => { q with revert := if trial then some 4 else q.revert }

end Sys2Proof.Machine.State
end

