-- ==== Sys2Proof/Machine/HostCmd.lean ====
section
/-! DEFINITION. The command channels (spec/13_programming_the_device.md R290–R295): what firmware, or the boot ROM before an image runs,
must do with each command. A command's row takes it from its ring and begins it; executed again, the row goes on with the command that
firmware holds, and enters the completion once its condition holds (log entry 31). -/
namespace Sys2Proof.Machine.State

/-- Statuses of R295. -/
def csOK : Nat := 0
def csUNKNOWN_OP : Nat := 1
def csBAD_OPERAND : Nat := 2
def csREFUSED : Nat := 3
def csSET_FAILED : Nat := 4
def csTIMEOUT : Nat := 5
def csNOT_PRESENT : Nat := 6
def csROLLED_BACK : Nat := 7
def csNO_IMAGE : Nat := 8

/-- The sequencer runs firmware or the boot ROM, and its accesses are served. -/
def fwRuns (s : State) : Bool :=
  s.released && s.domOn 42 && s.domOn 41 && !s.seq.halted && !s.seq.resetting && !s.seq.clkStopped && !s.frozen .quaran

def cmdAt (s : State) (c : Nat) : Option HostCmd := s.cmds.getD c none
def setCmd (s : State) (c : Nat) (h : Option HostCmd) : State := { s with cmds := upd s.cmds c fun _ => h }

/-- R293: the words of a completion. -/
def completion (h : HostCmd) (rseq status : Nat) (res1 res2 : Word) : List Word :=
  [BitVec.ofNat 48 (7 * 2 ^ 44 + rseq * 2 ^ 20 + h.opcode * 2 ^ 12 + status * 16),
   BitVec.ofNat 48 (h.tag * 2 ^ 32 + h.index * 2 ^ 16), res1, res2]

/-- R292, R293: the command of channel `c` is completed: one entry of ring 2c + 1. -/
def cmdDone (s : State) (c : Nat) (h : HostCmd) (status : Nat) (res1 res2 : Word := 0) : State :=
  let r := 2 * c + 1
  let rseq := ((s.ringCounts r).1 + 1) % 65536
  let s := s.ringPut r (s.get Reg.RNG_PI.INDEX [r]) (completion h rseq status res1 res2) .quaran
  let s := { s with rings := kvSet s.rings r (rseq, (s.ringCounts r).2) }
  (s.ringAdvance r 1).setCmd c none

/-- R290: channel `c` is in use, and R292: a command waits, with room for its completion. -/
def cmdWaits (s : State) (c : Nat) : Bool :=
  s.ringType (2 * c) = ringCOMMAND && s.ringType (2 * c + 1) = ringCOMPLETION && decide (0 < s.ringFill (2 * c)) &&
    decide (s.ringFill (2 * c + 1) < s.ringSize (2 * c + 1)) && s.get Reg.RNG_CFG.CONS [2 * c] = 3 && s.get Reg.RNG_CFG.PROD [2 * c + 1] = 3

/-- R291: the entry at the head of channel `c`'s ring is read: its words, as POP delivers them. -/
def cmdWords (s : State) (c : Nat) : State × List Word :=
  let a := s.ringWord (2 * c) (s.get Reg.RNG_CI.INDEX [2 * c])
  (List.range 4).foldl (fun (p : State × List Word) i =>
    let (t, ok, w) := p.1.memRead memRING (a + i) .quaran
    (t, p.2 ++ [if ok then w else 0])) (s, [])

def cmdOf (ws : List Word) (index tick : Nat) : HostCmd :=
  let w0 := (ws.getD 0 0).toNat
  ⟨bits w0 19 12, bits w0 35 20, index, ws.getD 1 0, ws.getD 2 0, ws.getD 3 0, 0, tick, 0, 0⟩

/-- R292: what the boot ROM carries out; the opcodes `is` of the row take the command, CI passes it, and `go` carries it on. -/
def romServes (op : Nat) : Bool := op = 1 || op = 2 || op = 0x0D
def cmdRow (s : State) (c : Nat) (is : Nat → Bool) (go : State → HostCmd → State) : State :=
  if ¬ s.fwRuns then s else
  let run (s : State) (h : HostCmd) : State :=
    let t := go (s.setCmd c (some h)) h
    match t.cmdAt c with
    | some h => if 65535 ≤ t.ticks - h.tick then t.cmdDone c h csTIMEOUT else t
    | none => t
  match s.cmdAt c with
  | some h => if is h.opcode then run s h else s
  | none =>
    if ¬ s.cmdWaits c then s else
    let (t, ws) := s.cmdWords c
    let h := cmdOf ws (s.get Reg.RNG_CI.INDEX [2 * c]) s.ticks
    if ¬ is h.opcode then s
    else
      let t := t.ringConsume (2 * c) 1
      if ¬ t.seq.imageRuns ∧ ¬ romServes h.opcode then t.cmdDone c h csNO_IMAGE else run t h

/-- Firmware's port writes: to a live register, and to an undercoat field whose other fields it keeps. -/
def fwWrite (s : State) (a : Nat) (w : Word) : State := (s.portWrite .quaran a w).1.ibiRefresh
def fwStage (s : State) (a : Nat) (w : Word) : State := s.fwWrite (a + 0x800000) w
def fwField (s : State) (f : FRef) (i : List Nat) (v : Nat) : State := s.fwStage (f.addr i) (fieldIn (s.underAt (f.addr i)) f v)

/-- R294: the report of check `n`. -/
def checkReport (s : State) (n : Nat) (failed : Bool) : Word :=
  BitVec.ofNat 48 (n * 2 ^ 32 + if failed then s.get Reg.SET_STATUS.REASON * 2 ^ 24 + s.get Reg.SET_STATUS.ADDR else 0)

/-- SEQ_TICKNUM of the last application (R457 holds its low 32 bits). -/
def appliedTick (s : State) : Word := BitVec.ofNat 48 (s.ticks - (s.ticks - s.get Reg.SET_APPLIED.TICK) % 2 ^ 32)

/-- A command's Set: it stages, requests the check, and goes on to `after` once the snapshot, or a later one with its content, is
applied (R288); a failed check completes the command. -/
def cmdSet (s : State) (c : Nat) (h : HostCmd) (first : Nat) (stageIt : State → State) (after : State → HostCmd → State) : State :=
  if h.stage = first then
    if ¬ s.mayCheck ckPLAIN then s else
    let s := (stageIt s).startCheck .quaran ckPLAIN
    s.setCmd c (some { h with stage := first + 1, num := s.set.count })
  else if h.stage = first + 1 then
    if s.get Reg.SET_STATUS.CHECK = h.num % 1024 ∧ s.get Reg.SET_STATUS.STATE = 4 then
      s.cmdDone c h csSET_FAILED (s.checkReport h.num true)
    else if (s.get Reg.SET_APPLIED.CHECK + 65536 - h.num) % 65536 < 32768 then after s h
    else s
  else s

/-- R294: PING, REG_READ, SET, DPS. -/
def cmdPing (s : State) (c : Nat) : State :=
  s.cmdRow c (· = 1) fun s h =>
    s.cmdDone c h csOK (BitVec.ofNat 48 (s.get (imgVersion s.runningSlot) * 2 ^ 16 + s.runningSlot)) (BitVec.ofNat 48 s.ticks)

def cmdRegRead (s : State) (c at_ : Nat) : State :=
  s.cmdRow c (· = 2) fun s h =>
    let (s, st, w) := (s.pmc 0x10).portRead .quaran (bits h.op1.toNat 23 0) at_
    s.cmdDone c h csOK w (BitVec.ofNat 48 (if st = psPOISON then psOK else st))

def cmdSetRow (s : State) (c : Nat) : State :=
  s.cmdRow c (· = 3) fun s h => s.cmdSet c h 0 id fun s h => s.cmdDone c h csOK (s.checkReport h.num false) s.appliedTick

/-- R174: the DPS word with a code given to the lanes of a mask. -/
def dpsWord (w : Word) (mask code : Nat) : Word :=
  (List.range 16).foldl (fun w n => if mask.testBit n then BitVec.ofNat 48 (setBits w.toNat (2 * n + 1) (2 * n) code) else w) w

def cmdDps (s : State) (c : Nat) : State :=
  s.cmdRow c (· = 6) fun s h =>
    let mask := bits h.op1.toNat 15 0
    let code := bits h.op1.toNat 17 16
    if code = 3 then s.cmdDone c h csBAD_OPERAND
    else if s.is1608 ∧ 256 ≤ mask then s.cmdDone c h csNOT_PRESENT
    else s.cmdSet c h 0 (fun s => s.fwStage (Reg.DPS.addr []) (dpsWord (s.underAt (Reg.DPS.addr [])) mask code))
      fun s h => s.cmdDone c h csOK (s.checkReport h.num false) s.appliedTick

/-- R296: a plan is written into RB3: the pairs of each step, with END on the last. -/
def planWords (steps : List (List (BitVec 24 × Word))) : List Word :=
  steps.flatMap fun st => st.zipIdx.flatMap fun p =>
    [BitVec.ofNat 48 (p.1.1.toNat + if p.2 + 1 = st.length then 2 ^ 47 else 0), p.1.2]
def writePlan (s : State) (steps : List (List (BitVec 24 × Word))) : State :=
  s.each (planWords steps).zipIdx fun s (p : Word × Nat) =>
    (s.fwWrite (Reg.JNL_ADDR.addr []) (BitVec.ofNat 48 (16 + p.2))).fwWrite (Reg.JNL_DATA.addr []) p.1

/-- A write to JNL_CTL. -/
def jnlWord (op id fwd nsteps : Nat) : Word := BitVec.ofNat 48 (id * 2 ^ 24 + fwd * 2 ^ 16 + nsteps * 2 ^ 8 + op)

/-- R294, R296, R297: a journalled change: the plan is opened, one step after another requested, and a failed step rolled back. -/
def cmdJournal (s : State) (c : Nat) (h : HostCmd) (steps : List (List (BitVec 24 × Word))) (fwd : Nat) : State :=
  let st := s.get Reg.JNL_STAT.STATE
  let out := s.get Reg.JNL_STAT.OUTCOME
  let failed := s.get Reg.SET_STATUS.STATE = 4
  let report := s.checkReport (if s.set.count % 1024 = s.get Reg.SET_STATUS.CHECK then s.set.count else s.get Reg.SET_STATUS.CHECK) failed
  if h.stage = 0 then
    if st ≠ jsCLOSED then s else
    let s := (s.writePlan steps).fwWrite (Reg.JNL_CTL.addr []) (jnlWord 1 h.tag fwd steps.length)
    if s.get Reg.JNL_STAT.STATE = jsCLOSED then s.cmdDone c h csREFUSED (BitVec.ofNat 48 (s.get Reg.JNL_STAT.OUTCOME))
      (BitVec.ofNat 48 (s.get Reg.JNL_STAT.OUTCOME))
    else s.setCmd c (some { h with stage := 1 })
  else if st = jsCLOSED then
    let report := if h.stage = 3 then h.note else report
    s.cmdDone c h (if out = joDONE ∨ out = joROLLED_FWD then csOK else csROLLED_BACK) report (BitVec.ofNat 48 out)
  else if h.stage = 3 ∨ s.on Reg.JNL_STAT.BUSY ∨ s.set.check.isSome ∨ st ≠ jsOPEN then s
  else if h.stage = 2 ∧ failed then
    (s.setCmd c (some { h with stage := 3, note := report })).fwWrite (Reg.JNL_CTL.addr []) (jnlWord 3 0 0 0)
  else if s.set.passed.isSome then s
  else (s.setCmd c (some { h with stage := 2 })).fwWrite (Reg.JNL_CTL.addr []) (jnlWord 2 0 0 0)

/-- R294: MODE; the steps that the image puts before the one of the mode itself are given. -/
def modeStep (s : State) (h : HostCmd) : List (BitVec 24 × Word) :=
  let tt (g b : Nat) : BitVec 24 × Word :=
    (BitVec.ofNat 24 (Reg.TTE_CFG.addr [g]), fieldIn (s.underAt (Reg.TTE_CFG.addr [g])) (Reg.TTE_CFG.TT_EN) (bits h.op1.toNat b b))
  [(BitVec.ofNat 24 (Reg.MODE.addr []), BitVec.ofNat 48 (bits h.op1.toNat 3 0)), tt 0 4, tt 1 5]
def cmdMode (s : State) (c : Nat) (before : List (List (BitVec 24 × Word))) (fwd : Nat) : State :=
  s.cmdRow c (· = 4) fun s h =>
    if 14 ≤ bits h.op1.toNat 3 0 then s.cmdDone c h csBAD_OPERAND
    else if ¬ s.isT ∧ bits h.op1.toNat 5 4 ≠ 0 then s.cmdDone c h csNOT_PRESENT
    else s.cmdJournal c h (before ++ [s.modeStep h]) fwd
def cmdProfile (s : State) (c : Nat) (plan : List (List (BitVec 24 × Word))) (fwd : Nat) : State :=
  s.cmdRow c (· = 5) fun s h => s.cmdJournal c h plan fwd

/-- R268, R294: a power request of firmware: made at stage `first`, ended at stage `first + 1`. -/
def cmdPwr (s : State) (c : Nat) (h : HostCmd) (first : Nat) (w : Word) (after : State → HostCmd → State) : State :=
  if h.stage = first then
    if s.pwr.req.isSome then s else (s.setCmd c (some { h with stage := first + 1 })).pwrRequest .quaran w
  else if s.pwr.req.isSome then s
  else after s { h with note := BitVec.ofNat 48 (s.get Reg.PWR_STAT.RESULT) }

/-- The status that a block's result code gives a completion. -/
def statusOf (result : Nat) : Nat := if result = 0 then csOK else csREFUSED

/-- R294 and the CMIS low-power mapping of spec/19_power_states_and_domains.md: to enter, mode OFFLINE with every lane DEACTIVATED, then
STATE SLEEP; to leave, STATE RUN, the DOM_ON that the image chooses, then the mode. -/
def cmdLowPower (s : State) (c : Nat) (request : Word) (code : Nat) : State :=
  s.cmdRow c (· = 7) fun s h =>
    let run : Word := BitVec.ofNat 48 (3 * 2 ^ 44)
    let sleep : Word := BitVec.ofNat 48 (3 * 2 ^ 44 + stSLEEP * 2 ^ 41)
    let fin (s : State) (h : HostCmd) : State := s.cmdDone c h (statusOf h.note.toNat) h.note
    if h.op1.getLsbD 0 then
      if h.stage < 2 then
        s.cmdSet c h 0 (fun s => (s.fwStage (Reg.MODE.addr []) 0).fwStage (Reg.DPS.addr []) 0) fun s h =>
          s.cmdPwr c { h with stage := 2 } 2 sleep fin
      else s.cmdPwr c h 2 sleep fin
    else if h.stage < 2 then
      s.cmdPwr c h 0 run fun s h => if h.note ≠ 0 then fin s h else s.cmdPwr c { h with stage := 2 } 2 request fin
    else if h.stage < 4 then
      s.cmdPwr c h 2 request fun s h => if h.note ≠ 0 then fin s h else
        s.cmdSet c { h with stage := 4 } 4 (fun s => s.fwStage (Reg.MODE.addr []) (BitVec.ofNat 48 code)) fin
    else s.cmdSet c h 4 (fun s => s.fwStage (Reg.MODE.addr []) (BitVec.ofNat 48 code)) fin

/-- R59, R294: FLOAT. -/
def nextSeq (s : State) (f : FRef) (i : List Nat) : Nat := (s.get f i + 1) % 16
def cmdFloat (s : State) (c : Nat) : State :=
  s.cmdRow c (· = 8) fun s h =>
    let q := s.nextSeq Reg.MIG_CTL.SEQ []
    if h.stage < 2 then
      s.cmdSet c { h with note := if h.stage = 0 then BitVec.ofNat 48 q else h.note } 0
        (fun s => ((s.fwField Reg.MIG_CTL.CMD [] (bits h.op1.toNat 2 0)).fwField Reg.MIG_CTL.TARGET [] (bits h.op1.toNat 6 4)).fwField
          Reg.MIG_CTL.SEQ [] q)
        fun s h => s.setCmd c (some { h with stage := 2 })
    else if s.get Reg.MIG_STAT.SEQ_DONE = h.note.toNat then
      let r := s.get Reg.MIG_STAT.LAST_RESULT
      s.cmdDone c h (statusOf r) (BitVec.ofNat 48 r)
    else s

/-- R183, R294: TIME. -/
def cmdTime (s : State) (c : Nat) : State :=
  s.cmdRow c (· = 9) fun s h =>
    let q := s.nextSeq Reg.ADJ_CTL.SEQ []
    if 5 ≤ bits h.op1.toNat 3 0 then s.cmdDone c h csBAD_OPERAND
    else if h.stage < 2 then
      s.cmdSet c { h with note := if h.stage = 0 then BitVec.ofNat 48 q else h.note } 0
        (fun s =>
          let s := (s.fwStage (Reg.ADJ_SEC.addr []) h.op2).fwStage (Reg.ADJ_NS.addr []) h.op3
          s.fwStage (Reg.ADJ_CTL.addr []) (BitVec.ofNat 48 (bits h.op1.toNat 15 8 * 256 + bits h.op1.toNat 3 0 * 16 + q)))
        fun s h => s.setCmd c (some { h with stage := 2 })
    else if s.get Reg.ADJ_STAT.SEQ_DONE = h.note.toNat then
      let r := s.get Reg.ADJ_STAT.RESULT
      s.cmdDone c h (statusOf r) (BitVec.ofNat 48 r)
    else s

/-- R294, R346: LOOP. -/
def cmdLoop (s : State) (c : Nat) : State :=
  s.cmdRow c (· = 0x0A) fun s h =>
    let m := bits h.op1.toNat 3 0
    let t := bits h.op1.toNat 6 4
    if 5 ≤ t then s.cmdDone c h csBAD_OPERAND
    else if h.stage < 2 then
      s.cmdSet c h 0 (fun s => s.fwStage (Reg.TRW_CMD.addr [m]) (BitVec.ofNat 48 (t * 16 + s.nextSeq Reg.TRW_CMD.SEQ [m])))
        fun s h => s.setCmd c (some { h with stage := 2 })
    else if s.loopState m = t then s.cmdDone c h csOK (BitVec.ofNat 48 t)
    else s

/-- R294, R365: CAPTURE: the image's Stencil program, ARM, and a trigger time where one is given. -/
def cmdCapture (s : State) (c : Nat) (program : List (BitVec 24 × Word)) : State :=
  s.cmdRow c (· = 0x0B) fun s h =>
    let timed := h.op2 ≠ 0 ∨ h.op3 ≠ 0
    let fin (s : State) (h : HostCmd) : State :=
      if s.get Reg.CAP_STAT.ARM_RESULT ≠ 0 then s.cmdDone c h csREFUSED (BitVec.ofNat 48 (s.get Reg.CAP_STAT.ARM_RESULT))
      else s.cmdDone c h csOK (s.liveAt (Reg.CAP_STAT.addr []))
    let cmd (s : State) (v : Nat) : State := s.fwStage (Reg.CAP_CMD.addr []) (BitVec.ofNat 48 (v * 16 + s.nextSeq Reg.CAP_CMD.SEQ []))
    let sched (s : State) : State := cmd ((s.fwStage (Reg.CAP_SCHED_SEC.addr []) h.op2).fwStage (Reg.CAP_SCHED_NS.addr []) h.op3) 5
    if h.stage < 2 then
      s.cmdSet c h 0 (fun s => cmd (s.each program fun s p => s.fwStage p.1.toNat p.2) 1)
        fun s h => s.setCmd c (some { h with stage := 2 })
    else if h.stage = 2 then
      if s.armed dueCap 0 then s
      else if timed ∧ s.get Reg.CAP_STAT.ARM_RESULT = 0 then s.setCmd c (some { h with stage := 3 }) else fin s h
    else s.cmdSet c h 3 sched fin

/-- R294, R299, R300: IMAGE_SWAP and IMAGE_INFO. -/
def cmdImageSwap (s : State) (c : Nat) : State :=
  s.cmdRow c (· = 0x0C) fun s h =>
    let res (s : State) : Word := BitVec.ofNat 48 (s.get Reg.SEQ_SWAP.RESULT)
    if h.stage = 0 then
      let s := s.fwWrite (Reg.SEQ_SWAP.addr []) (BitVec.ofNat 48 (s.get Reg.SEQ_SWAP.TRIAL + 16))
      if s.get Reg.SEQ_SWAP.STATE = 1 ∨ s.get Reg.SEQ_SWAP.STATE = 2 then s.setCmd c (some { h with stage := 1 })
      else s.cmdDone c h csREFUSED (res s)
    else if s.get Reg.SEQ_SWAP.STATE = 1 ∨ s.get Reg.SEQ_SWAP.STATE = 2 then s
    else s.cmdDone c h (statusOf (s.get Reg.SEQ_SWAP.RESULT)) (res s)

def cmdImageInfo (s : State) (c : Nat) : State :=
  s.cmdRow c (· = 0x0D) fun s h =>
    let sl := bits h.op1.toNat 0 0
    let r := s.get (imgResult sl)
    let signed := r = irOK || r = irROLLBACK
    let fresh := signed && decide (s.get Reg.SEC_ARB.LEVEL ≤ s.get (imgLevel sl))
    s.cmdDone c h csOK (BitVec.ofNat 48 (s.get (imgVersion sl))) (BitVec.ofNat 48 (b2n signed + 2 * b2n fresh))

/-- R294, R422: UNFREEZE. -/
def cmdUnfreeze (s : State) (c : Nat) : State :=
  s.cmdRow c (· = 0x0E) fun s h =>
    let m := bits h.op1.toNat 2 0
    if 6 ≤ m then s.cmdDone c h csBAD_OPERAND
    else
      let was := (s.get Reg.MEM_FRZ.FROZEN).testBit m
      (s.fwWrite (Reg.MEM_FRZ.addr []) (BitVec.ofNat 48 (2 ^ (8 + m)))).cmdDone c h csOK (BitVec.ofNat 48 (b2n was))

/-- R294, R297: JNL_ABORT. -/
def cmdJnlAbort (s : State) (c : Nat) : State :=
  s.cmdRow c (· = 0x0F) fun s h =>
    let s := if h.stage = 0 ∧ s.get Reg.JNL_STAT.STATE ≠ jsCLOSED then
        (s.fwWrite (Reg.JNL_CTL.addr []) (jnlWord 3 0 0 0)).setCmd c (some { h with stage := 1 }) else s
    if s.get Reg.JNL_STAT.STATE = jsCLOSED then s.cmdDone c h csOK 0 (BitVec.ofNat 48 (s.get Reg.JNL_STAT.OUTCOME)) else s

/-- R294: an undefined opcode, and those that the image defines. -/
def cmdUnknown (s : State) (c : Nat) : State :=
  s.cmdRow c (fun o => o = 0 || (0x10 ≤ o && o < 0x80)) fun s h => s.cmdDone c h csUNKNOWN_OP
def cmdImage (s : State) (c status : Nat) (res1 res2 : Word) : State :=
  s.cmdRow c (fun o => 0x80 ≤ o) fun s h => s.cmdDone c h status res1 res2

end Sys2Proof.Machine.State
end

