-- ==== Sys2Proof/Machine/Scrub.lean ====
section
/-! DEFINITION. The scrubber (spec/20_memory_protection_and_error_handling.md R411–R413). -/
namespace Sys2Proof.Machine.State

/-- The memory that the scrubber visits next, from memory `m` on: the first whose domain is on. -/
def scrubFrom (s : State) (m : Nat) : Option Nat :=
  ((List.range 13).filter fun i => decide (m ≤ i)).find? fun i => s.domOn (memDom i)

/-- R413: what follows the poisoning of word `a` of memory `m` by the scrubber, beyond its report. Which words hold which point, snapshot
or frame is not given (R405), and the places are constants without a value. -/
def scrubNotify (s : State) (m a : Nat) : State :=
  if m = memFLOW then s.memWrites memFLOW (4 * (a / 4)) [0, 0, 0, 0] .device
  else if m = memCAL then
    match Config.calHome a with
    | some p => s.setCal (p / 8 % 9) fun c => { c with points := if p % 8 = 0 then c.points else c.points.eraseIdx (p % 8) }
    | none => s
  else if m = memCOEF then
    match Config.snapHome a with
    | some p => s.setSlice (p / 4 % 9) fun x => { x with snaps := upd x.snaps (p % 4) fun y => { y with good := false } }
    | none => s
  else if m = memSCR then
    match Config.scrHome a with
    | some j => s.setLink j fun l => { l with waiting := l.waiting.drop 1 }
    | none => s
  else s

/-- R411: page `p` of memory `m` is read and corrected, with its check and map words. -/
def scrubPage (s : State) (m p : Nat) : State :=
  let was := (List.range 64).filter fun i => !s.unmapped m (64 * p + i) && s.poisoned m (64 * p + i)
  let s := s.pageSound m p .device 2
  let s := s.each (List.range 64) fun s i => s.settle m (64 * p + i) .device 2
  s.each ((List.range 64).filter fun i => !was.contains i && s.poisoned m (64 * p + i)) fun s i => s.scrubNotify m (64 * p + i)

/-- R411: the ticks of a sweep. -/
def scrubPeriod (s : State) : Nat := 8192 * s.get Reg.MEM_CFG.SCRUB_PERIOD

/-- R411: the pages of the memories whose power domain is on. -/
def scrubPages (s : State) : Nat := (((List.range 13).filter fun m => s.domOn (memDom m)).map fun m => memWords m / 64).sum

/-- R411: the visits of a sweep are spread evenly over its period, the first at its start. -/
def scrubDue (s : State) : Bool :=
  s.running && s.on Reg.MEM_CFG.SCRUB_EN && decide (s.mem.scrubDone * s.scrubPeriod ≤ s.mem.scrubTicks * s.scrubPages) &&
    decide (s.mem.scrubDone = 0 ∨ s.mem.scrubDone < s.scrubPages)

/-- R411: a tick of the scrubber's period. -/
def scrubTick (s : State) : State :=
  if ¬ s.on Reg.MEM_CFG.SCRUB_EN then s
  else if s.mem.scrubTicks + 1 < s.scrubPeriod then { s with mem := { s.mem with scrubTicks := s.mem.scrubTicks + 1 } }
  else { s with mem := { s.mem with scrubTicks := 0, scrubDone := 0 } }

/-- R411: the scrubber visits its next page. -/
def scrubVisit (s : State) : State :=
  if ¬ s.scrubDue then s else
  let s := { s with mem := { s.mem with scrubDone := s.mem.scrubDone + 1 } }
  match s.scrubFrom s.mem.scrubMem with
  | none => ({ s with mem := { s.mem with scrubMem := 0, scrubPage := 0 } }).ev Reg.MEM_EVT.SCRUB_WRAP
  | some m =>
    let p := if m = s.mem.scrubMem then s.mem.scrubPage else 0
    let s := (s.scrubPage m p).pmc 0x92
    if 64 * (p + 1) < memWords m then { s with mem := { s.mem with scrubMem := m, scrubPage := p + 1 } }
    else if (s.scrubFrom (m + 1)).isSome then { s with mem := { s.mem with scrubMem := m + 1, scrubPage := 0 } }
    else ({ s with mem := { s.mem with scrubMem := 0, scrubPage := 0 } }).ev Reg.MEM_EVT.SCRUB_WRAP

end Sys2Proof.Machine.State
end

