-- ==== Sys2Proof/Machine/Slots.lean ====
section
/-! DEFINITION. A codeword slot of a line lane: decision, counters, marking, and what goes on to the host lanes and to the loop
(spec/05_inner_code_and_fec_monitoring.md R109–R120, R124; spec/08 R173; spec/11 R248). -/
namespace Sys2Proof.Machine.State

/-- R30, R118, R119, R248: the RS symbols of a slot of lane `k` go toward its host lanes, with the marking of a slot marked uncorrected. In
LOOP-NEAR they are discarded. -/
def deliverSlot (s : State) (k : Nat) (mark : Bool) (syms : List Nat) : State :=
  if s.rxMode k = 10 then s else
  let mode := s.use Reg.IN_CFG.MARK_MODE [k]
  let hosts := s.igHosts k
  s.each hosts.zipIdx fun s (p : Nat × Nat) =>
    let lock := s.on Reg.OMI_STAT.LOCK [p.1]
    let mine := if hosts.length = 2 then (syms.zipIdx.filter fun q => q.2 % 2 = p.2).map (·.1) else syms
    let r := (s.hlane p.1).deliverN (s.pcsCode p.1) (p.1 - (s.pcsGroup p.1).headD 0) (mark && mode ≠ 0) (mode = 2 && lock) lock mine
    let s := s.setHlane p.1 fun _ => r.1
    s.whenB (r.2 ≠ 0) fun s => (s.inc Reg.IN_SHORT_CNT.COUNT [k] r.2).fecEv Reg.IN_EVT.MARK_SHORT k

/-- R248: LOOP-FAR keeps the payload of a slot for the same slot of a transmitted frame. -/
def loopSlot (s : State) (k slot : Nat) (syms : List Nat) : State :=
  s.whenB (s.rxMode k = 11) (·.setLane k fun l => { l with loop := l.loop ++ [(slot, syms.flatMap (msbBits 10))] })

/-- R116, R117, R124: the slots of lane `k` are forced. -/
def slotForced (s : State) (k : Nat) : Bool := s.forcing k || (s.frame k).st ≠ fsLOCKED

/-- R109–R120: one codeword slot of lane `k`, from the codes of its serving slice and, in a migration, of the candidate. A run of forced slots
goes on across a loss of lock (log entry 89). -/
def decodeSlot (s : State) (k slot : Nat) (even : Bool) (rx cand : RxCodes) : State :=
  if ((s.frame k).st ≠ fsLOCKED ∧ s.lockFmt k ≠ fmtSTANDARD) ∨ ¬ s.decoderOn k ∨ (s.lane k).dead then s else
  let s := s.countKnown k even
  let odd := slot % 2 = 1
  let w := slotBits (s.rxCfg (s.serving k)) (codesOf rx) rx.prev odd
  let d := s.decideSlot k slot even w.1 w.2
  let syms := s.slotSymbols k slot even w.1 (d.getD [])
  let forced := s.slotForced k
  let s := if forced then
      let s := ((s.inc Reg.IN_FORCED_CNT.COUNT [k]).pmc (0x48 + k)).capEv (16 + k)
      let s := if s.on Reg.IN_STAT.FORCING [k] then s else (s.put Reg.IN_STAT.FORCING 1 [k]).fecEv Reg.IN_EVT.FORCED_START k
      s.agreeSlot k none
    else
      let s := s.put Reg.IN_STAT.FORCING 0 [k]
      let other := match s.candidate with
        | some c => (slotBits (s.rxCfg c) (codesOf cand) cand.prev odd).1
        | none => []
      let s := s.agreeSlot k (d.map fun ps => (ps.length, disagree w.1 other ps))
      s.slotCount k (d.map List.length)
  (s.deliverSlot k (forced || d.isNone) syms).loopSlot k slot syms

end Sys2Proof.Machine.State
end

