-- ==== Sys2Proof/Machine/Tick.lean ====
section
/-! DEFINITION. The tick boundary (spec/01_machine.md R16): what it does at once, and what it makes due for the commands that carry
out the rest of the table: SET_APPLY, THROTTLE_APPLY, BAND_APPLY, TROWEL_UPDATE, TASK_RUN_START and the others (log entry 32). -/
namespace Sys2Proof.Machine.State

/-- R273, R274, R281: the sequencer's cycles of the tick that ends, beyond those of task runs: SCHED, and IDLE or HALTED. -/
def seqCycles (s : State) (waited : Nat) : State :=
  let s := match s.seq.waiting with
    | some (_, _, left) =>
      if s.seq.run.isNone ∨ s.seq.suspended ∨ s.seq.halted ∨ s.seq.clkStopped then s else s.waitPass (min waited left)
    | none => s
  let sched := s.schedCycles
  let rest := s.tickCycles - sched - s.seq.cyc
  let s := (s.pmcCycles [0x01, 0x07] sched).pmcCycles [0x01, if s.seq.halted then 0x08 else 0x06] rest
  s.sq fun q => { q with cyc := 0 }

/-- R282, R283: the tick that ends was an overrun, or was not. -/
def seqOverrun (s : State) : State :=
  if s.seq.run.isSome ∧ ¬ s.seq.halted ∧ ¬ s.seq.clkStopped ∧ ¬ s.seq.hold then s.overrun
  else if s.seq.halted ∨ s.seq.clkStopped then s
  else s.put Reg.SEQ_SCHED.CONSEC 0

/-- R271: COUNT falls by one. -/
def wdogTick (s : State) : State :=
  let n := s.get Reg.SEQ_WDOG.COUNT
  if s.get Reg.SEQ_WDOG.PERIOD = 0 ∨ s.seq.halted ∨ s.seq.clkStopped ∨ n = 0 then s else
  (s.put Reg.SEQ_WDOG.COUNT (n - 1)).sq fun q => { q with wdogDue := q.wdogDue || n = 1 }

/-- R271, R278, R279, R299: the sequencer at a new tick: the count, the slots that fall due, and a swap that is due. -/
def seqTick (s : State) : State :=
  if ¬ s.released ∨ ¬ s.domOn 42 then s else
  let idle := s.seq.run.isNone
  let s := s.put Reg.SEQ_TICKNUM.TICKS ((s.ticks + 1) % 2 ^ 48)
  let s :=
    if s.seq.clkStopped then s
    else if s.seq.resetting then
      s.each (List.range 32) fun s i => if s.get Reg.SEQ_TASK.EN [i] = 1 then s.put Reg.SEQ_TSTAT.PENDING 1 [i] else s
    else s.tasksDue s.ticks
  let swap := s.seq.revert.isSome || (s.get Reg.SEQ_SWAP.STATE = 1 && idle)
  s.sq fun q => { q with resetting := false, hold := false, swapDue := q.swapDue || swap }

/-- R16 step 1: the span that ends with the tick passes, and what is captured for the tick is captured. -/
def tickCapture (s : State) (m : TickMeas) : State :=
  let s := (s.flow m.span).pmcSnapshot
  let s := s.obsTick
  let s := s.each (List.range 8) txTick
  let s := s.eachMeas m.hosts fun s n x => if n < 16 then s.hostTick n x else s
  let s := s.whenB s.plumbOn fun s => s.each (List.range 8) latPublish
  let s := s.each (List.range 4) monSnapshot
  s.each (List.range 16) fun s i =>
    let x := s.loopInput i s.devRead
    if s.domOn 44 then s.setLoop i fun l => { l with x := x } else s

/-- A Set that has passed waits for this tick boundary (R288, R398). -/
def setDue (s : State) : Bool := s.set.passed.isSome && !s.supplyWarned

/-- R16 step 3, R318: where no Set is to be applied first, the results of the tick are committed, once the reading of the tick has been
published. -/
def commitNow (s : State) : State :=
  s.whenB (!s.setDue && s.publishing.isNone) fun s => s.each (List.range 9) (·.commitTick [] ·)

/-- R16 steps 3 to 5, and the slower engines that follow the tick. -/
def tickEngines (s : State) (m : TickMeas) : State :=
  let s := s.st fun x => { x with recent := false }
  let s := { s with ltx := s.ltx.map fun (x : TxPll) => { x with since := 0 } }
  let s := s.skimTick
  let s := (s.each (List.range 8) lineRateTick).each (List.range 16) rateTick
  let s := s.each (List.range 9) fun s i => (s.commitTick [] i).sliceTick i (m.icorr.getD i [])
  let s := s.commitNow
  let s := s.hkaFreeze
  let s := s.each (List.range 4) monTick
  let s := s.each (List.range 9) fcalTick
  let s := s.migTick
  let s := s.each (List.range 10) linkTick
  let s := s.eachMeas m.tmarks fun s j x => if j < 10 then s.tmarkSend j (s.departTime j 0 x) else s
  let s := { s with scr := { s.scr with proxy := s.scr.proxy.map (· - 1), bootWait := s.scr.bootWait - 1 } }
  let s := s.holdTick
  s.tt fun t => { t with sweepDue := true }

/-- What a tick boundary makes due for the commands that follow it. -/
def tickDue (s : State) : State :=
  let s := s.whenB s.setDue (·.arm dueSet 0)
  let s := s.whenB s.thm.pendLevel.isSome (·.arm dueThr 0)
  s.whenB s.bandsDue (·.arm dueBand 0)

/-- R16: a tick boundary. A FULL reset that waits takes its place; a WARM reset acts beside the rest. -/
def tickBoundary (s : State) (m : TickMeas) : State :=
  if ¬ s.running then s
  else if s.clk.rstReq = 2 then s.resetSelf rcFULL
  else
    let warm := s.clk.rstReq = 1
    let s := s.seqCycles m.waited.toNat
    let s := s.seqOverrun
    let s := s.tickCapture m
    let s := (s.plumbTick).thermalTick
    let s := s.tickEngines m
    let s := s.whenB warm fun s => (s.warmReset).ck fun c => { c with rstReq := 0 }
    let s := ((s.pwrTick).wakeTick).scrubTick
    let s := s.pw fun p => { p with retries := 0 }
    let s := s.wdogTick
    let s := match s.sec.startDue with
      | some sl => (s.startSlot sl).sc fun x => { x with startDue := none }
      | none => s
    let s := s.seqTick
    ((s.tickDue).capEv 47).ibiRefresh

end Sys2Proof.Machine.State
end

