-- ==== Sys2Proof/Machine/AccessRows.lean ====
section
/-! DEFINITION. Commands: the management interfaces, the JTAG port and register accesses (spec/22_management_access_and_register_map.md, spec/23_pins_electrical_package.md). -/
namespace Sys2Proof.Machine

/-- An SPI frame, where the device answers. -/
def State.spiRow (s : State) (f : State → State) : State := s.whenB s.answers f

/-- R444: An SPI READ frame reads one word and answers with status and data. -/
def execSpiRead (a : BitVec 24) (at_ : Instant) (s : State) : Res := .next (s.spiRow (·.spiRead a.toNat at_.toNat))

/-- R444: An SPI WRITE frame writes one word and answers with status. -/
def execSpiWrite (a : BitVec 24) (w : BitVec 48) (s : State) : Res := .next (s.spiRow (·.spiWrite a.toNat w))

/-- R448: A frame with a wrong CRC, an unknown opcode or an early CS_N rise is refused, counted or treated as a violation. -/
def execSpiMalformedFrame (octets : List Byte) (at_ : Instant) (s : State) : Res := .next (s.spiRow (·.spiFrame octets at_.toNat))

/-- R451: An I3C or I²C private write sets the address and writes words. -/
def execI3cPrivateWrite (target : BitVec 7) (data : List Byte) (err : Bool) (s : State) : Res :=
  .next (s.i3cWrite target.toNat data err)

/-- R452: An I3C or I²C private read returns words with read-ahead. -/
def execI3cPrivateRead (target : BitVec 7) (octets : BitVec 16) (at_ : Instant) (s : State) : Res :=
  .next (s.i3cRead target.toNat octets.toNat at_.toNat)

/-- R450: Dynamic address assignment by ENTDAA. -/
def execEntdaa (won : Bool) (da : BitVec 7) (s : State) : Res :=
  .next (s.whenB (s.answers && won && !s.on Reg.I3C_STAT.DA_VALID) (·.i3cAssign da.toNat))

/-- R450: Dynamic address assignment from the static address. -/
def execSetdasa (target da : BitVec 7) (s : State) : Res :=
  .next (s.whenB (s.answers && !s.on Reg.I3C_STAT.DA_VALID && target.toNat = s.i3cStatic) (·.i3cAssign da.toNat))

/-- R450: Assigns a new dynamic address. -/
def execSetnewda (target da : BitVec 7) (s : State) : Res :=
  .next (s.whenB (s.i3cAnswers target.toNat && s.on Reg.I3C_STAT.DA_VALID) (·.i3cAssign da.toNat))

/-- R450: Gives up the dynamic address. -/
def execRstdaa (s : State) : Res := .next (s.whenB s.answers (·.put Reg.I3C_STAT.DA_VALID 0))

/-- R450: Enables in-band interrupts. -/
def execEnec (s : State) : Res := .next (s.whenB s.answers (·.put Reg.I3C_STAT.IBI_EN 1))

/-- R450: Disables in-band interrupts. -/
def execDisec (s : State) : Res := .next (s.whenB s.answers (·.put Reg.I3C_STAT.IBI_EN 0))

/-- R450: Returns the provisioned ID. -/
def execGetpid (target : BitVec 7) (s : State) : Res := .next (s.i3cAnswer target.toNat s.pidWord)

/-- R450: Returns the BCR. -/
def execGetbcr (target : BitVec 7) (s : State) : Res := .next (s.i3cAnswer target.toNat 0x06)

/-- R450: Returns the DCR. -/
def execGetdcr (target : BitVec 7) (s : State) : Res := .next (s.i3cAnswer target.toNat 0x00)

/-- R450: Returns the target status. -/
def execGetstatus (target : BitVec 7) (s : State) : Res :=
  .next ((s.i3cAnswer target.toNat (BitVec.ofNat 48 (s.freeBits 16))).useFree)

/-- R453: A new enabled interrupt source makes the target request an IBI, repeated after each STOP while NACKed. -/
def execIbiRequest (acked : Bool) (s : State) : Res := .next (s.ibiRequest acked)

/-- R470: The JTAG EXTEST instruction. -/
def execExtest (cells : List Bool) (s : State) : Res := .next (s.jtagBoundary 0x00 cells 1)

/-- R470: The JTAG IDCODE instruction selects the 32-bit identification register. -/
def execIdcode (s : State) : Res := .next (s.jtagSelect 0x01 (BitVec.ofNat 88 s.idWord) 0)

/-- R470: The JTAG SAMPLE/PRELOAD instruction. -/
def execSamplePreload (cells : List Bool) (s : State) : Res := .next (s.jtagBoundary 0x02 cells 0)

/-- R470: The JTAG CLAMP instruction. -/
def execClamp (s : State) : Res := .next (s.jtagSelect 0x04 0 1)

/-- R470: The JTAG HIGHZ instruction. -/
def execHighz (s : State) : Res := .next (s.jtagSelect 0x05 0 2)

/-- R470: The IEEE 1149.6 EXTEST_PULSE instruction. -/
def execExtestPulse (cells : List Bool) (s : State) : Res := .next (s.jtagBoundary 0x09 cells 3)

/-- R470: The IEEE 1149.6 EXTEST_TRAIN instruction. -/
def execExtestTrain (cells : List Bool) (s : State) : Res := .next (s.jtagBoundary 0x0A cells 4)

/-- R470: The JTAG BYPASS instruction, also selected by any other code. -/
def execBypass (code : Byte) (s : State) : Res := .next (s.jtagSelect code.toNat 0 0)

/-- R471: Update-DR of REG_ACCESS starts a register access as master JTAG. -/
def execRegAccess (dr : BitVec 88) (at_ : Instant) (s : State) : Res := .next (s.jtagAccess dr at_.toNat)

/-- R8: A read of an RC counter by its block owner returns the count and clears it. -/
def execRcRead (m : Requester) (a : BitVec 24) (at_ : Instant) (s : State) : Res := .next (s.access m a.toNat none at_.toNat)

/-- R9: A read of the first part of an SN register captures the whole register. -/
def execSnRead (m : Requester) (a : BitVec 24) (at_ : Instant) (s : State) : Res := .next (s.access m a.toNat none at_.toNat)

/-- R443: A write to a register without a row of its own, live, undercoat or W1C, subject to ownership and locks. -/
def execRegisterWrite (m : Requester) (a : BitVec 24) (w : BitVec 48) (s : State) : Res := .next (s.accessW m a.toNat w)

end Sys2Proof.Machine
end

