-- ==== Sys2Proof/Machine/BoundaryRows.lean ====
section
/-! DEFINITION. Commands: ticks, Sets and application boundaries (spec/01_machine.md, spec/13_programming_the_device.md). -/
namespace Sys2Proof.Machine

/-- R19: a boundary fewer than 16 line DSP cycles after a tick boundary that applied new values is passed over. -/
def State.lateEnough (s : State) (cycles : Nat) : Bool := !s.set.recent || decide (16 ≤ cycles)

/-- R20: line lane `k`'s transmit PLL stands at the start of a frame of its count. -/
def State.atFrame (s : State) (k : Nat) : Bool := (s.ltxAt (k / 4)).place = 0

/-- R19, R20: a stage is at its application boundary, with its domains on: the transmit stages at the start of a frame of the PLL's count,
the Float at that of its own while it serves no lane. -/
def State.boundaryDue (s : State) : Stage → Bool
  | .rx k => s.domOn (17 + k) && s.lateEnough (s.slice (s.serving k)).cyc
  | .tx k => s.domOn (17 + k) && s.atFrame k && s.lateEnough (s.ltxAt (k / 4)).since
  | .float => s.domOn 25 && s.domOn 26 && !s.floatServes && s.lateEnough (s.slice 8).cyc

/-- What a stage takes at its boundary. -/
def State.boundaryTake (s : State) : Stage → State
  | .rx k => s.rxBoundary k
  | .tx k => s.sendBoundary k
  | .float => s.floatBoundary

/-- R19: the stage's application boundary. -/
def State.boundary (s : State) (g : Stage) : State := s.whenB (s.boundaryDue g) (·.boundaryTake g)

/-- R16: Every 768 crystal periods a tick boundary starts the tick table: counters are captured, results frozen, tasks scheduled
and TMARKs queued. -/
def execTickBoundary (m : TickMeas) (s : State) : Res := .next (s.tickBoundary m)

/-- R288: At the first tick boundary after a passed check, the device applies the snapshot of the undercoat to every live
register at once. -/
def execSetApply (s : State) : Res := .next (s.setApply)

/-- R19: At its application boundary a datapath stage takes the newly applied live values, including mode, format, crossbar,
DPS, squelch and throttle changes. -/
def execApplicationBoundary (stage : Stage) (m : Span) (s : State) : Res := .next (s.act true fun s => (s.flow m).boundary stage)

/-- R12: A line transmit PLL moves its reference between host lanes, the system PLL or line lanes at a transmit frame boundary
and counts the move. -/
def execLtxRefMove (p : Fin 2) (s : State) : Res :=
  .next (s.act (s.domOn 49 && (s.ltxAt p).place = 0) (·.ltxTake p))

end Sys2Proof.Machine
end

