-- ==== Sys2Proof/Machine/CaptureRows.lean ====
section
/-! DEFINITION. Commands: the capture engine (spec/17_capture_engine.md). -/
namespace Sys2Proof.Machine

/-- R365: capture command `cmd`, where a Set has armed it. -/
def State.capRow (s : State) (cmd : Nat) (f : State → State) : State := s.act (s.domOn 45) (·.capCommand cmd f)

/-- R365: Capture command NONE does nothing. -/
def execCapNone (s : State) : Res := .next (s.capRow 0 id)

/-- R365: ARM checks the layout and enters PREFILL. -/
def execCapArm (s : State) : Res := .next (s.capRow 1 (·.capArm))

/-- R365: DISARM aborts any capture and returns to IDLE. -/
def execCapDisarm (s : State) : Res := .next (s.capRow 2 (·.capAbort))

/-- R365: RELEASE frees the oldest unreleased segment. -/
def execCapRelease (s : State) : Res := .next (s.capRow 3 (·.capRelease))

/-- R365: FORCE raises Stencil event 57. -/
def execCapForce (s : State) : Res := .next (s.capRow 4 (·.capEv 57))

/-- R365: SCHED loads the armed schedule. -/
def execCapSched (s : State) : Res := .next (s.capRow 5 (·.capSched))

/-- R362: A Stencil counter reaches CNT_LIM, and the state's action is taken and it moves to NEXT. -/
def execStencilCountLimit (m : Span) (s : State) : Res := .next (s.act true (·.flow m))

/-- R362: A Stencil timer reaches TMR_LIM, and it takes TMR_ACT and moves to TMR_NEXT. -/
def execStencilTimeout (m : Span) (s : State) : Res := .next (s.act true (·.flow m))

/-- R366: Every stream has written PRE words, and the engine enters READY. -/
def execPrefillComplete (m : Span) (s : State) : Res := .next (s.act true (·.flow m))

/-- R366: A distributed trigger reaches its instant and becomes the trigger cycle. -/
def execPendingTriggerCycle (m : Span) (s : State) : Res := .next (s.act true (·.flow m))

/-- R367: The armed schedule's time is reached, and event 41 fires. -/
def execScheduleFire (at_ : Instant) (s : State) : Res := .next (s.act true (·.schedFire at_.toNat))

/-- R368: A capture ends, its index record is entered, and it enters IDLE or REARM. -/
def execCaptureComplete (m : Span) (s : State) : Res := .next (s.act true (·.flow m))

/-- R368: At the second tick boundary after completion, or after a RELEASE, the engine enters PREFILL or FULL. -/
def execCaptureRearm (s : State) : Res := .next (s.act true (·.capRearm))

end Sys2Proof.Machine
end

