-- ==== Sys2Proof/Machine/SeqRows.lean ====
section
/-! DEFINITION. Commands: the scheduler, the debug window, the watchdog, the performance counters, the journal and the image swap (spec/12_quaran_sequencer.md, spec/13_programming_the_device.md). -/
namespace Sys2Proof.Machine

/-- A write of SEQ_CTL that keeps EXC_ACT and BRK_EN as they read. -/
def State.seqCtl (s : State) (halt step : Bool) : Word :=
  BitVec.ofNat 48 (s.get Reg.SEQ_CTL.EXC_ACT * 2 ^ 10 + b2n step * 2 ^ 9 + b2n halt * 2 ^ 8 + s.get Reg.SEQ_CTL.BRK_EN)

/-- R272: the write of STEP, where it is this command's and not one that a bus write has left due. -/
def State.stepWrite (s : State) (by_ : Option Requester) : State :=
  match by_ with
  | some m => s.accessW m Reg.SEQ_CTL.base (s.seqCtl true true)
  | none => s

/-- R299, R300: the image slots are switched, into a trial or back from one. -/
def State.swapExecute (s : State) : State :=
  let r := s.seq.revert
  let s := (s.seqResetSeen.startSlot (1 - s.runningSlot)).sq fun q => { q with swapDue := false, revert := none }
  match r with
  | some c => (s.put Reg.SEQ_SWAP.STATE 3).put Reg.SEQ_SWAP.RESULT c
  | none => (s.put Reg.SEQ_SWAP.STATE 2).sq fun q => { q with trialEnd := s.ticks + 2 ^ s.get Reg.SEQ_SWAP.TRIAL }

/-- R279: The scheduler starts the highest-priority pending or suspended run. -/
def execTaskRunStart (s : State) : Res := .next (s.act true (·.runStart))

/-- R271: The watchdog COUNT reaches 0, and the sequencer core is reset. -/
def execWdogExpiry (s : State) : Res := .next (s.act true (·.wdogExpire))

/-- R283: Three consecutive overrun ticks declare a sequencer fault, which halts or restarts the sequencer. -/
def execSeqFault (s : State) : Res := .next (s.act true (·.seqFaultAct))

/-- R271: A write to SEQ_WDOG kicks or reloads the watchdog or changes its PERIOD. -/
def execWdogWrite (m : Requester) (w : BitVec 48) (s : State) : Res := .next (s.accessW m Reg.SEQ_WDOG.base w)

/-- R272: A write of HALT_REQ halts the sequencer at the next instruction boundary, or resumes it. -/
def execHaltReq (m : Requester) (halt : Bool) (s : State) : Res := .next (s.accessW m Reg.SEQ_CTL.base (s.seqCtl halt false))

/-- R272: A write of STEP while HALTED executes one instruction. -/
def execSeqStep (by_ : Option Requester) (at_ : Instant) (wait : Fin 13) (held : BitVec 10) (s : State) : Res :=
  .next (s.act true fun s => (s.stepWrite by_).seqStep at_.toNat wait held.toNat)

/-- R272: An access to SEQ_DBG_DATA reads or writes sequencer state, DMEM or IMEM. -/
def execSeqDbgAccess (m : Requester) (data : Option (BitVec 48)) (s : State) : Res :=
  .next (s.access m Reg.SEQ_DBG_DATA.base data)

/-- R265: A write of 1 to a doorbell bit sets event DB0–DB15. -/
def execSeqDoorbell (m : Requester) (db : BitVec 16) (s : State) : Res :=
  .next (s.accessW m Reg.SEQ_DOORBELL.base (db.setWidth 48))

/-- R274: A write to PMC_CNTi sets the count. -/
def execPmcCntWrite (m : Requester) (n : Fin 64) (w : BitVec 48) (s : State) : Res := .next (s.accessW m (Reg.PMC_CNT.addr [n]) w)

/-- R277: A write of 1 to PMC_CTL.CLR_ALL zeroes every counter. -/
def execClrAll (m : Requester) (s : State) : Res :=
  .next (s.accessW m Reg.PMC_CTL.base (BitVec.ofNat 48 (2 + s.get Reg.PMC_CTL.FREEZE)))

/-- R280: A write to SEQ_TASKs enables or disables a slot and sets its resume address. -/
def execSeqTaskWrite (m : Requester) (slot : Fin 32) (w : BitVec 48) (s : State) : Res :=
  .next (s.accessW m (Reg.SEQ_TASK.addr [slot]) w)

/-- R287: A write of GO requests a consistency check. -/
def execSetCmdGo (m : Requester) (s : State) : Res := .next (s.accessW m Reg.SET_CMD.base 1)

/-- R288: A consistency check ends, passed or failed, and is reported in SET_STATUS with SET_DONE raised. -/
def execSetCheckDone (s : State) : Res := .next (s.act true (·.checkDone))

/-- R296: JNL_CTL OPEN records the journal parameters and opens the journal, or refuses it as BAD_PLAN. -/
def execJnlOpen (m : Requester) (id : BitVec 16) (fwd nsteps : BitVec 8) (s : State) : Res :=
  .next (s.accessW m Reg.JNL_CTL.base (State.jnlWord 1 id.toNat fwd.toNat nsteps.toNat))

/-- R297: JNL_CTL STEP copies step DONE into the undercoat and requests a check. -/
def execJnlStep (m : Requester) (s : State) : Res := .next (s.accessW m Reg.JNL_CTL.base (State.jnlWord 2 0 0 0))

/-- R297: JNL_CTL ABORT rolls back every applied step. -/
def execJnlOpAbort (m : Requester) (s : State) : Res := .next (s.accessW m Reg.JNL_CTL.base (State.jnlWord 3 0 0 0))

/-- R296: A write to JNL_DATA writes a plan word into RB3, or is discarded. -/
def execJnlDataWrite (m : Requester) (w : BitVec 48) (s : State) : Res := .next (s.accessW m Reg.JNL_DATA.base w)

/-- R298: After release from a reset, an OPEN journal rolls forward one step per tick or rolls back, then closes. -/
def execJnlRoll (s : State) : Res := .next (s.act true (·.jnlRoll))

/-- R299: A write of SEQ_SWAP.REQ asks for an image swap, or is refused. -/
def execSwapReq (m : Requester) (s : State) : Res :=
  .next (s.accessW m Reg.SEQ_SWAP.base (BitVec.ofNat 48 (16 + s.get Reg.SEQ_SWAP.TRIAL)))

/-- R299: At a tick boundary that ends no run, the device resets the core, sets slot 0 and switches image slots. -/
def execSwapExecute (s : State) : Res := .next (s.act s.seq.swapDue (·.swapExecute))

/-- R300: A write of CONFIRM in TRIAL confirms the new image. -/
def execConfirm (m : Requester) (s : State) : Res :=
  .next (s.accessW m Reg.SEQ_SWAP.base (BitVec.ofNat 48 (32 + s.get Reg.SEQ_SWAP.TRIAL)))

/-- R300: The trial expires unconfirmed, and the device swaps back with REVERTED_TIMEOUT. -/
def execTrialTimeout (s : State) : Res :=
  .next (s.act (s.get Reg.SEQ_SWAP.STATE = 2 && s.seq.trialEnd ≤ s.ticks && s.seq.revert.isNone) (·.sq fun q => { q with revert := some 5 }))

end Sys2Proof.Machine
end

