-- ==== Sys2Proof/Machine/ClockRows.lean ====
section
/-! DEFINITION. Commands: references, PLLs and resets (spec/18_clocks_and_resets.md). -/
namespace Sys2Proof.Machine

/-- R382: a word written to RST_CMD that resets nothing: one that would reset is taken with TYPE NONE. -/
def rstIdle (w : Word) : Word :=
  if bits w.toNat 15 8 = 0xA5 ∧ (bits w.toNat 3 0 = 1 ∨ bits w.toNat 3 0 = 2) then w &&& BitVec.ofNat 48 (2 ^ 48 - 16) else w

/-- R372: A reference keeps its swing for 4,096 cycles and qualifies. -/
def execReferenceQualify (r : Fin 2) (s : State) : Res := .next (s.refQualify r)

/-- R376: A reference is lost, its PLL enters HOLD, and failover may switch SPL. -/
def execRefLoss (r : Fin 4) (s : State) : Res := .next (s.refLoss r)

/-- R376: HOLD passes 2 µs without a reference, and the PLL coasts. -/
def execCoast (p : Fin 5) (s : State) : Res := .next (s.coast p)

/-- R374: A PLL reaches LOCKED from LOCKING or returns from HOLD. -/
def execPllLock (p : Fin 5) (s : State) : Res := .next (s.pllLock p)

/-- R378: An old clock gives no edge within 64 new cycles, and the multiplexer forces the switch. -/
def execForcedSw (mux : Fin 9) (s : State) : Res := .next (s.forcedSwitch mux)

/-- R382: An RST_CMD with TYPE NONE, a reserved type or a wrong KEY does nothing. -/
def execRstNone (m : Requester) (w : BitVec 48) (s : State) : Res := .next (s.accessW m Reg.RST_CMD.base (rstIdle w))

/-- R382: RST_CMD WARM resets the sequencer core and interfaces and releases frozen masters at the next tick boundary. -/
def execWarmReset (m : Requester) (s : State) : Res := .next (s.accessW m Reg.RST_CMD.base 0xA501)

/-- R382: RST_CMD FULL performs a reset that reruns self-test at the next tick boundary. -/
def execFullReset (m : Requester) (s : State) : Res := .next (s.accessW m Reg.RST_CMD.base 0xA502)

/-- R383: RESET_N held low for 1 µs or more resets the device, and release proceeds to self-test. -/
def execPinReset (ns : BitVec 32) (s : State) : Res := .next (s.pinReset ns.toNat)

/-- R381: VIN_AON rises through its reset level, and a power-on reset starts. -/
def execPor (s : State) : Res := .next (s.resetSelf rcPOR)

end Sys2Proof.Machine
end

