-- ==== Sys2Proof/Machine/CommandRows.lean ====
section
/-! DEFINITION. Commands: host commands as firmware and the boot ROM carry them out (spec/13_programming_the_device.md R290–R295; log entry 31). -/
namespace Sys2Proof.Machine

/-- R294: The host command PING returns the image version, slot and tick count. -/
def execPing (c : Fin 8) (s : State) : Res := .next (s.act true (·.cmdPing c))

/-- R294: The host command REG_READ reads a register as master QUARAN. -/
def execRegRead (c : Fin 8) (at_ : Instant) (s : State) : Res := .next (s.act true (·.cmdRegRead c at_.toNat))

/-- R294: The host command SET requests a Set and completes on application or failure. -/
def execSetCommand (c : Fin 8) (s : State) : Res := .next (s.act true (·.cmdSetRow c))

/-- R294: The host command MODE carries out a journalled mode change. -/
def execModeCommand (c : Fin 8) (before : List (List (BitVec 24 × BitVec 48))) (fwd : BitVec 8) (s : State) : Res :=
  .next (s.act true (·.cmdMode c before fwd.toNat))

/-- R294: The host command PROFILE carries out an image-defined journalled profile. -/
def execProfileCommand (c : Fin 8) (plan : List (List (BitVec 24 × BitVec 48))) (fwd : BitVec 8) (s : State) : Res :=
  .next (s.act true (·.cmdProfile c plan fwd.toNat))

/-- R294: The host command DPS sets the data-path state of masked lanes. -/
def execDpsCommand (c : Fin 8) (s : State) : Res := .next (s.act true (·.cmdDps c))

/-- R294: The host command LOW_POWER enters or leaves the CMIS low-power state. -/
def execLowPowerCommand (c : Fin 8) (request : BitVec 48) (code : BitVec 4) (s : State) : Res :=
  .next (s.act true (·.cmdLowPower c request code.toNat))

/-- R294: The host command FLOAT issues a Float migration command. -/
def execFloatCommand (c : Fin 8) (s : State) : Res := .next (s.act true (·.cmdFloat c))

/-- R294: The host command TIME issues a Plumb adjustment command. -/
def execTimeCommand (c : Fin 8) (s : State) : Res := .next (s.act true (·.cmdTime c))

/-- R294: The host command LOOP moves a Trowel loop to a target state. -/
def execLoopCommand (c : Fin 8) (s : State) : Res := .next (s.act true (·.cmdLoop c))

/-- R294: The host command CAPTURE arms the capture engine. -/
def execCaptureCommand (c : Fin 8) (program : List (BitVec 24 × BitVec 48)) (s : State) : Res :=
  .next (s.act true (·.cmdCapture c program))

/-- R294: The host command IMAGE_SWAP requests a swap of image slots. -/
def execImageSwap (c : Fin 8) (s : State) : Res := .next (s.act true (·.cmdImageSwap c))

/-- R294: The host command IMAGE_INFO reports the version and verification of a slot. -/
def execImageInfo (c : Fin 8) (s : State) : Res := .next (s.act true (·.cmdImageInfo c))

/-- R294: The host command UNFREEZE releases a frozen master. -/
def execUnfreeze (c : Fin 8) (s : State) : Res := .next (s.act true (·.cmdUnfreeze c))

/-- R294: The host command JNL_ABORT closes the journal by rollback. -/
def execJnlAbort (c : Fin 8) (s : State) : Res := .next (s.act true (·.cmdJnlAbort c))

/-- R294: A command with an undefined opcode is completed with UNKNOWN_OP. -/
def execUnknownOp (c : Fin 8) (s : State) : Res := .next (s.act true (·.cmdUnknown c))

/-- R294: A command with opcode 0x80–0xFF does what the image defines. -/
def execImageDefinedCommand (c : Fin 8) (status : BitVec 8) (res1 res2 : BitVec 48) (s : State) : Res :=
  .next (s.act true (·.cmdImage c status.toNat res1 res2))

end Sys2Proof.Machine
end

