-- ==== Sys2Proof/Machine/FecRows.lean ====
section
/-! DEFINITION. Commands: codeword decoding and the outer-code monitors (spec/05_inner_code_and_monitoring.md). -/
namespace Sys2Proof.Machine

/-- R111: The decoder decides one codeword slot by Chase-II, marks it if needed and advances the inner-code counters. -/
def execCodewordDecode (k : Fin 8) (slot : BitVec 11) (even : Bool) (rx cand : RxCodes) (s : State) : Res :=
  .next (s.act true (·.decodeSlot k slot.toNat even rx cand))

/-- R123: An outer-code monitor decodes one RS(544,514) codeword of a locked group and advances its counters. -/
def execOuterCodeword (n : Fin 16) (ingress : Bool) (syms : List (BitVec 10 × BitVec 3)) (s : State) : Res :=
  .next (s.act true fun s => (s.outerWord n ingress (syms.map fun p => (p.1.toNat, p.2.toNat))).tteWord n ingress (syms.map (·.1.toNat)))

/-- R121: A monitor group gains or loses codeword lock and sets LOCK_GAINED or LOCK_LOST. -/
def execOuterLockChange (n : Fin 16) (ingress lock : Bool) (s : State) : Res := .next (s.act true fun s => (s.outerLock n ingress lock).tteUnlock n ingress)

end Sys2Proof.Machine
end

