-- ==== Sys2Proof/Machine/LineRows.lean ====
section
/-! DEFINITION. Commands: frame lock, format probe, pattern checkers and signal detect (spec/02_modes_and_line_format.md, spec/03_line_receive_conversion.md). -/
namespace Sys2Proof.Machine

/-- R68: in an abrupt return the phase shows when the own slice is LOCKED. -/
def State.abruptPhase (s : State) : State :=
  s.whenB (s.mig.abrupt && s.phase = phRET_CONVERGE && s.candidateLocked) (·.setPhase phRET_SWAP_WAIT)

/-- Frame lock `k` is in use: a lane's own, or that of a candidate slice, or of the Float in OBSERVE_RX (index 8; R20). -/
def State.lockUsed (s : State) (k : Nat) : Bool := k ≠ 8 || s.candidate.isSome || s.phase = phOBSERVE_RX

/-- A pattern checker's domain is on: of a line lane, or of a physical host lane. -/
def State.checkerOn (s : State) (host : Bool) (n : Nat) : Bool := if host then s.hspOn n else n < 8 && s.domOn (17 + n)

/-- R38: A lane in HUNT finds a candidate marker within LOCK_TOL bits of some lane's marker and enters VERIFY. -/
def execHuntMarkerMatch (k : Fin 9) (marker : BitVec 64) (s : State) : Res :=
  .next (s.act (s.lockUsed k) fun s => (s.huntMatch k marker.toNat).abruptPhase.ltxChoose)

/-- R38: At each expected marker position the lane counts a match or a miss, and this can advance VERIFY or end lock. -/
def execExpectedMarker (k : Fin 9) (header : BitVec 128) (s : State) : Res :=
  .next (s.act (s.lockUsed k) fun s => ((s.expectedMarker k header.toNat).openHosts k).abruptPhase.ltxChoose)

/-- R481: A Standard-format lane gains or loses inner-FEC alignment under IEEE 802.3dj and updates LOCK_STATE, its counters and
its events. -/
def execStandardAlignmentChange (k : Fin 9) (st : Fin 3) (s : State) : Res :=
  .next (s.act (s.lockUsed k) fun s => ((s.standardAlign k st).openHosts k).abruptPhase.ltxChoose)

/-- R43: After 64 marker periods in HUNT with timing locked, the device starts a format probe and sets PROBE_ACTIVE. -/
def execFormatProbeStart (k : Fin 8) (s : State) : Res := .next (s.act true (·.probeStart k))

/-- R43: A probe finds one foreign format at three consecutive positions, writes FAR_FMT and starts a new window. -/
def execFarFmtFound (k : Fin 8) (code : BitVec 2) (s : State) : Res := .next (s.act true (·.farFound k code.toNat))

/-- R43: A probe window of 64 marker periods ends without a find, writes NONE and starts a new window. -/
def execProbeWindowEnd (k : Fin 8) (s : State) : Res := .next (s.act true (·.probeEnd k))

/-- R45: A line or host pattern checker enters LOCKED after 128 consecutive matching symbols. -/
def execLinePatLock (_host : Bool) (_n : Fin 16) (m : Span) (s : State) : Res := .next (s.act true (·.flow m))

/-- R45: A checker that sees 32 wrong symbols in an aligned window of 1,024 returns to SEARCH and counts RESYNC. -/
def execLinePatResync (_host : Bool) (_n : Fin 16) (m : Span) (s : State) : Res := .next (s.act true (·.flow m))

/-- R49: The buffer amplitude crosses the signal-detect level, and SIG_DET sets or clears, with SIG_LOST on a fall. -/
def execSignalDetectChange (sl : Fin 9) (amp : BitVec 12) (s : State) : Res :=
  .next (s.act (s.domOn (if sl.val = 8 then 25 else 1 + sl)) (·.signalDetect sl amp.toNat))

end Sys2Proof.Machine
end

