-- ==== Sys2Proof/Machine/FloatRows.lean ====
section
/-! DEFINITION. Commands: the Float, health, takeover, noise measurements, timing lock and reacquisition (spec/03_line_receive_conversion.md, spec/04_equalisation_and_detection.md). -/
namespace Sys2Proof.Machine

/-- R60: the Float's selector moves to lane TARGET and CONVERGE starts; RETIRE is to end in RETIRED. -/
def State.converge (s : State) (retire : Bool) : State :=
  (s.mg fun m => { m with retire := retire }).beginConverge (s.get Reg.MIG_CTL.TARGET)

/-- R59: the Float observes lane TARGET in phase `p`. -/
def State.observe (s : State) (p : Nat) : State := ((s.floatConnect (s.get Reg.MIG_CTL.TARGET)).setPhase p).floatStep

/-- R67: two ticks have passed since the detection without a swap. -/
def State.takeoverLate (s : State) : State :=
  match s.mig.takeFor with
  | some k => s.whenB (2 ≤ s.mig.detTicks) (·.takeoverTimeout k)
  | none => s

/-- R59: Applying a changed SEQ with CMD NONE takes no action. -/
def execMigCmdNone (s : State) : Res := .next (s.act (s.migArmed 0) (·.migNone))

/-- R59: The FLOAT_CAL command runs foreground calibration of the Float from IDLE. -/
def execFloatCal (s : State) : Res :=
  .next (s.act (s.migArmed 1) fun s => s.migCommand (s.cmdRefusal 1) fun s => (s.setPhase phFLOAT_CAL).fcalBegin 8)

/-- R60: The MIGRATE command moves the Float's selector to lane TARGET and starts CONVERGE. -/
def execMigrate (s : State) : Res :=
  .next (s.act (s.migArmed 2) fun s => s.migCommand (s.cmdRefusal 2) fun s => s.converge false)

/-- R60: The RETURN command reconnects and seeds the own slice and enters RET_CONVERGE. -/
def execFloatReturn (s : State) : Res :=
  .next (s.act (s.migArmed 3 && !(s.level = 3 && s.cmdRefusal 3 = 0)) fun s => s.migCommand (s.cmdRefusal 3) (·.beginReturn))

/-- R63: The ABORT command aborts the Float's present phase with result 0x16, or completes a swap already due. -/
def execFloatAbort (s : State) : Res := .next (s.act (s.migArmed 4) (·.migAbortCmd))

/-- R59: The OBSERVE_RX command makes the Float observe lane TARGET's receive signal. -/
def execObserveRx (s : State) : Res :=
  .next (s.act (s.migArmed 5) fun s => s.migCommand (s.cmdRefusal 5) fun s => s.observe phOBSERVE_RX)

/-- R59: The OBSERVE_TX command makes the Float observe lane TARGET's transmit tap. -/
def execObserveTx (s : State) : Res :=
  .next (s.act (s.migArmed 6) fun s => s.migCommand (s.cmdRefusal 6) fun s => (s.observe phOBSERVE_TX).obsBegin)

/-- R59: The RETIRE command migrates to lane TARGET and ends in RETIRED. -/
def execRetire (s : State) : Res :=
  .next (s.act (s.migArmed 7) fun s => s.migCommand (s.cmdRefusal 7) fun s => (s.isEngage (s.get Reg.MIG_CTL.TARGET)).converge true)

/-- R60: The candidate slice holds timing and frame lock and CONV_MIN ticks have passed, so the agreement step begins. -/
def execConvergeDone (s : State) : Res :=
  .next (s.act s.convergeDue fun s => ((s.setPhase (s.phase + 1)).put Reg.MIG_STAT.TRIES_USED 0).latchPar)

/-- R63: Step 1 or 6 has lasted CONV_TIMEOUT ticks, and the migration aborts with 0x12. -/
def execConvTimeout (s : State) : Res := .next (s.act s.convTimedOut (·.migAbort 0x12))

/-- R61: An agreement window of 1,024 counted slots, or one ended at 64 uncorrected slots, passes or fails, and AGREE_TRIES
failures abort the migration. -/
def execAgreeWindowEnd (s : State) : Res := .next (s.act (s.agreeing && s.agreeFull) (·.agreeWindow))

/-- R62: At the swap boundary the decoder changes its LLR source between the slices, and the phase advances. -/
def execFloatSwap (m : Span) (s : State) : Res := .next (s.act true fun s => (s.flow m).migSwap)

/-- R65: A health detector trips, and the device declares a slice fault. -/
def execSliceFaultDetect (sl : Fin 9) (src : BitVec 4) (ss : Fin 64) (s : State) : Res :=
  .next (s.act (s.slicePowered sl) (·.sliceFault sl src.toNat ss))

/-- R68: The own slice of the returning lane is LOCKED, and the device swaps back without an agreement window. -/
def execAbruptReturnSwap (m : Span) (s : State) : Res :=
  .next (s.act true fun s => let s := s.flow m; s.whenB (s.mig.abrupt && s.candidateLocked) (·.abruptSwap))

/-- R66: The Float is locked on the faulted lane, swaps in at the next boundary, enters RETIRED and retires the own slice. -/
def execTakeoverSwap (m : Span) (s : State) : Res :=
  .next (s.act true fun s => let s := s.flow m; s.whenB (s.phase = phTAKEOVER && s.candidateLocked) (·.takeoverSwap))

/-- R67: Two ticks after detection without a swap, the takeover fails with 0x21. -/
def execTakeoverTimeout (s : State) : Res := .next (s.act true (·.takeoverLate))

/-- R72: An applied change of NOISE_REQ starts a noise measurement on an idle slice, or refuses it. -/
def execNoiseMeasureStart (sl : Fin 9) (s : State) : Res :=
  .next (s.act (s.armed State.dueNoise sl) fun s => (s.disarm State.dueNoise sl).noiseStart sl)

/-- R72: At the fourth tick boundary after the start, the device writes NOISE_RES and sets NOISE_DONE. -/
def execNoiseDone (sl : Fin 9) (worst : Fin 64) (worstRms allRms : BitVec 12) (s : State) : Res :=
  .next (s.act (s.noiseDue sl) (·.noiseDone sl worst worstRms.toNat allRms.toNat))

/-- R93: After ACQ_TICKS whole ticks in ACQUIRE, a slice enters TRACK. -/
def execAdaptTrackEntry (sl : Fin 9) (s : State) : Res :=
  .next (s.act (s.trackDue sl) (·.setSlice sl fun x => { x with adapt := adTRACK }))

/-- R96: A window of 1,024 line DSP cycles ends, and it sets or clears TR_LOCK after enough consecutive results. -/
def execTrLockWindow (m : Span) (s : State) : Res := .next (s.act true fun s => (s.flow m).abruptPhase)

/-- R99: After REACQ_TICKS unlocked ticks with signal, the slice loads a snapshot or the seed, enters ACQUIRE and counts REACQ.
-/
def execReacquire (sl : Fin 9) (s : State) : Res := .next (s.act (s.reacqDue sl) (·.reacquire sl))

end Sys2Proof.Machine
end

