-- ==== Sys2Proof/Machine/HostRows.lean ====
section
/-! DEFINITION. Commands: host lanes and the gearbox (spec/08_host_lanes_and_gearbox.md). -/
namespace Sys2Proof.Machine

/-- R164: A host lane's clock recovery gains or loses lock, and CDR_LOST is counted. -/
def execHostCdrLockChange (n : Fin 16) (lock : Bool) (s : State) : Res := .next (s.act true fun s => (s.hostCdr n lock).ltxChoose)

/-- R164: A host lane's differential input crosses 60 mVppd or 40 mVppd, so HS_RX_STAT.SIG_DET sets or clears, with
HS_EVT.SIG_LOST on a fall. -/
def execHostSignalDetectChange (n : Fin 16) (amp : BitVec 12) (s : State) : Res := .next (s.act true (·.hostSignal n amp.toNat))

/-- R168: A logical host lane finds two markers one period apart, enters LOCKED and fixes the symbol boundary. -/
def execAmLockGained (n : Fin 16) (m : Span) (s : State) : Res := .next (s.act true fun s => (s.flow m).amGained n)

/-- R168: After AM_LOL missed markers the lane returns to HUNT, sends the unlocked payload and counts the loss. -/
def execAmLockLost (n : Fin 16) (m : Span) (s : State) : Res :=
  .next (s.act true fun s => let s := s.flow m; s.whenB (s.amMissed n) (·.amLeave n true))

end Sys2Proof.Machine
end

