-- ==== Sys2Proof/Machine/MemoryRows.lean ====
section
/-! DEFINITION. Commands: stored-data protection, ownership and locks (spec/20_stored_data_protection.md). -/
namespace Sys2Proof.Machine

/-- R417: a write to MEM_TST_CTL with its key. -/
def tstWord (op mem : Nat) : Word := BitVec.ofNat 48 (0xC3 * 2 ^ 40 + op * 2 ^ 4 + mem)

/-- R411: The scrubber reads and corrects one page, poisoning and notifying where it cannot. -/
def execScrubVisit (s : State) : Res := .next (s.act true (·.scrubVisit))

/-- R417: A test operation NONE does nothing. -/
def execTstNone (m : Requester) (mem : BitVec 4) (s : State) : Res :=
  .next (s.accessW m Reg.MEM_TST_CTL.base (tstWord 0 mem.toNat))

/-- R417: Loads a stored word and its check bits without correction. -/
def execReadRaw (m : Requester) (mem : BitVec 4) (s : State) : Res :=
  .next (s.accessW m Reg.MEM_TST_CTL.base (tstWord 1 mem.toNat))

/-- R417: Writes test data, keeping the stored check bits. -/
def execWriteData (m : Requester) (mem : BitVec 4) (s : State) : Res :=
  .next (s.accessW m Reg.MEM_TST_CTL.base (tstWord 2 mem.toNat))

/-- R417: Writes test check bits, keeping the stored data. -/
def execWriteCheck (m : Requester) (mem : BitVec 4) (s : State) : Res :=
  .next (s.accessW m Reg.MEM_TST_CTL.base (tstWord 3 mem.toNat))

/-- R417: Writes test data and check bits as given. -/
def execWriteBoth (m : Requester) (mem : BitVec 4) (s : State) : Res :=
  .next (s.accessW m Reg.MEM_TST_CTL.base (tstWord 4 mem.toNat))

/-- R415: Removes the oldest error-log entry. -/
def execMemLogPop (m : Requester) (s : State) : Res := .next (s.accessW m Reg.MEM_LOG_POP.base 1)

/-- R420: Locks a register block against all writes. -/
def execMemLock (m : Requester) (w : BitVec 48) (s : State) : Res := .next (s.accessW m Reg.MEM_LOCK.base w)

/-- R422: A write to MEM_FRZ.RELEASE releases a frozen master. -/
def execRelease (m : Requester) (w : BitVec 48) (s : State) : Res := .next (s.accessW m Reg.MEM_FRZ.base w)

end Sys2Proof.Machine
end

