-- ==== Sys2Proof/Machine/MonitorRows.lean ====
section
/-! DEFINITION. Commands: the monitor chain and the housekeeping converter (spec/15_monitor_chain_and_housekeeping_adc.md). -/
namespace Sys2Proof.Machine

/-- R327: A monitor channel produces an FIR output after M × K inputs, and the detectors update. -/
def execMonOutput (_c : Fin 4) (m : Span) (s : State) : Res := .next (s.act true (·.flow m))

/-- R329: A write to MON_MIX sets W, taken at the next tick boundary. -/
def execMonMixWrite (m : Requester) (c : Fin 4) (w : BitVec 48) (s : State) : Res := .next (s.accessW m (Reg.MON_MIX.addr [c]) w)

/-- R335: A housekeeping conversion of a due entry completes and is aggregated. -/
def execHkaConversion (v aref : BitVec 32) (s : State) : Res := .next (s.act true (·.hkaConvert v.toNat aref.toNat))

end Sys2Proof.Machine
end

