-- ==== Sys2Proof/Machine/PlumbRows.lean ====
section
/-! DEFINITION. Commands: the Plumb (spec/09_plumb_timebase_and_latency.md). -/
namespace Sys2Proof.Machine

/-- R183: adjustment command `cmd` runs where a Set has armed it. -/
def State.adjRun (s : State) (cmd : Nat) (f : State → State) : State :=
  s.act (s.plumbOn && s.adjArmed cmd) fun s => f (s.disarm State.dueAdj 0)

/-- R183: An adjustment command NONE does nothing. -/
def execAdjNone (s : State) : Res := .next (s.adjRun 0 fun s => s.adjDone s.adjSeq 0)

/-- R183: The LOAD command sets Plumb time to the operands at the tick boundary. -/
def execAdjLoad (s : State) : Res := .next (s.adjRun 1 (·.adjLoad))

/-- R183: The STEP command adds the operands to Plumb time at the tick boundary. -/
def execAdjStep (s : State) : Res := .next (s.adjRun 2 (·.adjStep))

/-- R183: The SLEW command starts absorbing ADJ_NS at SLEW_RATE through Q. -/
def execAdjSlew (s : State) : Res := .next (s.adjRun 3 (·.adjSlew))

/-- R183: The MEASURE command takes ADJ_NS as a HOST source measurement. -/
def execAdjMeasure (s : State) : Res := .next (s.adjRun 4 (·.adjMeasure))

/-- R183: A slew has absorbed its offset, Q returns to 0 and the command completes. -/
def execSlewEnd (s : State) : Res := .next (s.act (s.plumbOn && s.slewOver) (·.slewEnd))

/-- R185: A PPS_IN edge is timestamped and accepted as a measurement, or rejected. -/
def execPpsInEdge (falling : Bool) (at_ : Instant) (s : State) : Res :=
  .next (s.act (s.plumbOn && s.on Reg.PLB_CTL.PPS_EDGE == falling) (·.ppsEdge at_.toNat))

/-- R186: At the first tick boundary after a valid measurement, the servo updates I and F or steps the time. -/
def execServoUpdate (s : State) : Res := .next (s.act s.plumbOn (·.servoUpdate))

/-- R185: No valid measurement arrives within the loss time, and the source loses qualification, which can lead to HOLDOVER. -/
def execSourceLoss (slot : Fin 4) (s : State) : Res := .next (s.act (s.plumbOn && s.slotLost slot) (·.loseSlot slot))

/-- R187: HOLDOVER has lasted HOLD_LIMIT × 65,536 ticks, and the state becomes HOLDOVER_EXPIRED. -/
def execHoldoverExpired (s : State) : Res := .next (s.act (s.plumbOn && s.holdOver) (·.setDisc dsEXPIRED))

/-- R191: A selected EVT input edge is timestamped, with an optional ring record and overrun flags. -/
def execEvtInputEdge (m : Fin 4) (falling : Bool) (at_ lasts : Instant) (s : State) : Res :=
  .next (s.act (s.plumbOn && s.evtSelects m falling && State.evtLasts lasts.toNat) (·.evtEdge m at_.toNat falling))

/-- R192: An applied change of EVTm_CFG.SEQ arms an EVT output, or sets EVT_LATE. -/
def execEvtArm (m : Fin 4) (s : State) : Res :=
  .next (s.act (s.plumbOn && s.armed State.dueEvt m) fun s => (s.disarm State.dueEvt m).evtArm m)

/-- R192: Plumb time reaches a scheduled time, and the EVT pin drives its pulse. -/
def execEvtOutputPulse (m : Fin 4) (s : State) : Res := .next (s.act s.plumbOn (·.evtPulse m))

/-- R193: Plumb time passes a whole second plus OFS, and PPS_OUT pulses unless gated. -/
def execPpsOutPulse (s : State) : Res := .next (s.act s.plumbOn (·.ppsPulse))

end Sys2Proof.Machine
end

