-- ==== Sys2Proof/Machine/PowerRows.lean ====
section
/-! DEFINITION. Commands: power requests, wake-up and supplies (spec/19_power_states_and_domains.md). -/
namespace Sys2Proof.Machine

/-- R388: a request word. -/
def pwrWord (op state count first : Nat) : Word := BitVec.ofNat 48 (op * 2 ^ 44 + state * 2 ^ 41 + count * 2 ^ 6 + first)

/-- R388: A request with OP NONE does nothing. -/
def execPwrNone (m : Requester) (s : State) : Res := .next (s.accessW m Reg.PWR_REQ.base 0)

/-- R387: DOM_ON requests power-up of a range of domains. -/
def execDomOn (m : Requester) (first count : BitVec 6) (s : State) : Res :=
  .next (s.accessW m Reg.PWR_REQ.base (pwrWord 1 0 count.toNat first.toNat))

/-- R387: DOM_OFF requests power-down of a range of domains. -/
def execDomOff (m : Requester) (first count : BitVec 6) (s : State) : Res :=
  .next (s.accessW m Reg.PWR_REQ.base (pwrWord 2 0 count.toNat first.toNat))

/-- R392: A STATE request moves the device to RUN, IDLE, SLEEP, DEEP or OFF. -/
def execPwrState (m : Requester) (st : BitVec 3) (s : State) : Res :=
  .next (s.accessW m Reg.PWR_REQ.base (pwrWord 3 st.toNat 0 0))

/-- R390: A request starts at the next tick boundary and is checked for refusal. -/
def execPwrRequestStart (s : State) : Res := .next (s.whenB s.running (·.pwrStart))

/-- R387: The next domain of a request switches on or off after its spacing interval. -/
def execDomainSwitch (s : State) : Res := .next (s.whenB s.running (·.domainSwitch))

/-- R387: A domain misses power-good within 20 µs, and the request ends with TIMEOUT. -/
def execPowerGoodTimeout (s : State) : Res := .next (s.whenB s.running (·.powerGoodTimeout))

/-- R387: At the tick boundary after the last switch, the request completes and PWR_DONE is raised. -/
def execPwrRequestDone (s : State) : Res := .next (s.whenB s.running (·.pwrDone))

/-- R392: The state entry reaches its point of no return, and the new state takes hold. -/
def execPointOfNoReturn (s : State) : Res := .next (s.whenB s.running (·.noReturn))

/-- R393: A qualified wake source ends IDLE, SLEEP or DEEP, or aborts a state entry at an abort point. -/
def execWake (src : BitVec 3) (s : State) : Res :=
  .next (s.whenB (src.toNat ≠ wkTIMER && !s.clk.held && !s.pwr.shutdown) (·.wakeBy src.toNat))

/-- R393: The AON wake timer expires and wakes the device. -/
def execWakeTimer (s : State) : Res := .next (s.whenB (!s.clk.held && !s.pwr.shutdown) (·.wakeBy wkTIMER))

/-- R395: A wake or start-up attempt fails, and the device retries or enters WAKE-FAIL. -/
def execWakeRetry (cause : Fin 3) (s : State) : Res := .next (s.wakeRetry cause)

/-- R396: The AON LDO holds its limit for 10 µs in DEEP, and the device wakes with BROWNOUT. -/
def execBrownout (s : State) : Res := .next (s.brownout)

/-- R398: A rail crosses its warning level, and Sets, journal steps and PWR requests are withheld. -/
def execSupWarn (rail : Fin 7) (s : State) : Res := .next (s.supWarn rail)

/-- R399: The last warning clears, and the latest passed snapshot is applied at the next tick. -/
def execSupplyWarningClear (rail : Fin 7) (s : State) : Res := .next (s.supClear rail)

/-- R398: A rail crosses its reset level, causing a POR, a PIN-type reset or an event. -/
def execSupReset (rail : Fin 7) (s : State) : Res := .next (s.supReset rail)

end Sys2Proof.Machine
end

