-- ==== Sys2Proof/Machine/QuaranRows.lean ====
section
/-! DEFINITION. Commands: the instructions of the Quaran (spec/12_quaran_sequencer.md R252–R270). Each issues where the sequencer can issue one. -/
namespace Sys2Proof.Machine

/-- R256: No operation. -/
def execNop (s : State) : Res := .next (s.issue State.iNop)

/-- R256: Wrapping add of two words. -/
def execAdd (rd ra rb : Fin 32) (s : State) : Res := .next (s.issue (State.iAdd rd ra rb))

/-- R258: Saturating add of two words. -/
def execAdds (rd ra rb : Fin 32) (s : State) : Res := .next (s.issue (State.iAdds rd ra rb))

/-- R256: Wrapping subtract. -/
def execSub (rd ra rb : Fin 32) (s : State) : Res := .next (s.issue (State.iSub rd ra rb))

/-- R258: Saturating subtract. -/
def execSubs (rd ra rb : Fin 32) (s : State) : Res := .next (s.issue (State.iSubs rd ra rb))

/-- R256: Bitwise and. -/
def execOpAnd (rd ra rb : Fin 32) (s : State) : Res := .next (s.issue (State.iLogic (fun a b => a &&& b) rd ra rb))

/-- R256: Bitwise or. -/
def execOpOr (rd ra rb : Fin 32) (s : State) : Res := .next (s.issue (State.iLogic (fun a b => a ||| b) rd ra rb))

/-- R256: Bitwise exclusive or. -/
def execOpXor (rd ra rb : Fin 32) (s : State) : Res := .next (s.issue (State.iLogic (fun a b => a ^^^ b) rd ra rb))

/-- R256: Shift left. -/
def execShl (rd ra rb : Fin 32) (s : State) : Res := .next (s.issue (State.iLogic State.shlW rd ra rb))

/-- R256: Logical shift right. -/
def execShr (rd ra rb : Fin 32) (s : State) : Res := .next (s.issue (State.iLogic State.shrW rd ra rb))

/-- R256: Arithmetic shift right. -/
def execSra (rd ra rb : Fin 32) (s : State) : Res := .next (s.issue (State.iLogic State.sraW rd ra rb))

/-- R256: Signed minimum. -/
def execOpMin (rd ra rb : Fin 32) (s : State) : Res := .next (s.issue (State.iLogic State.minW rd ra rb))

/-- R256: Signed maximum. -/
def execOpMax (rd ra rb : Fin 32) (s : State) : Res := .next (s.issue (State.iLogic State.maxW rd ra rb))

/-- R256: Unsigned minimum. -/
def execMinu (rd ra rb : Fin 32) (s : State) : Res := .next (s.issue (State.iLogic State.minuW rd ra rb))

/-- R256: Unsigned maximum. -/
def execMaxu (rd ra rb : Fin 32) (s : State) : Res := .next (s.issue (State.iLogic State.maxuW rd ra rb))

/-- R256: Wrapping add with an immediate. -/
def execAddi (rd ra : Fin 32) (imm : BitVec 30) (s : State) : Res := .next (s.issue (State.iAddi rd ra imm))

/-- R256: Saturating add with an immediate. -/
def execAddsi (rd ra : Fin 32) (imm : BitVec 30) (s : State) : Res := .next (s.issue (State.iAddsi rd ra imm))

/-- R256: Wrapping subtract of an immediate. -/
def execSubi (rd ra : Fin 32) (imm : BitVec 30) (s : State) : Res := .next (s.issue (State.iSubi rd ra imm))

/-- R256: Saturating subtract of an immediate. -/
def execSubsi (rd ra : Fin 32) (imm : BitVec 30) (s : State) : Res := .next (s.issue (State.iSubsi rd ra imm))

/-- R256: And with an immediate. -/
def execAndi (rd ra : Fin 32) (imm : BitVec 30) (s : State) : Res :=
  .next (s.issue (State.iLogici (fun a b => a &&& b) rd ra imm))

/-- R256: Or with an immediate. -/
def execOri (rd ra : Fin 32) (imm : BitVec 30) (s : State) : Res := .next (s.issue (State.iLogici (fun a b => a ||| b) rd ra imm))

/-- R256: Exclusive or with an immediate. -/
def execXori (rd ra : Fin 32) (imm : BitVec 30) (s : State) : Res :=
  .next (s.issue (State.iLogici (fun a b => a ^^^ b) rd ra imm))

/-- R256: Shift left by an immediate. -/
def execShli (rd ra : Fin 32) (imm : BitVec 30) (s : State) : Res := .next (s.issue (State.iLogici State.shlW rd ra imm))

/-- R256: Logical shift right by an immediate. -/
def execShri (rd ra : Fin 32) (imm : BitVec 30) (s : State) : Res := .next (s.issue (State.iLogici State.shrW rd ra imm))

/-- R256: Arithmetic shift right by an immediate. -/
def execSrai (rd ra : Fin 32) (imm : BitVec 30) (s : State) : Res := .next (s.issue (State.iLogici State.sraW rd ra imm))

/-- R256: Signed minimum with an immediate. -/
def execMini (rd ra : Fin 32) (imm : BitVec 30) (s : State) : Res := .next (s.issue (State.iLogici State.minW rd ra imm))

/-- R256: Signed maximum with an immediate. -/
def execMaxi (rd ra : Fin 32) (imm : BitVec 30) (s : State) : Res := .next (s.issue (State.iLogici State.maxW rd ra imm))

/-- R256: Unsigned minimum with an immediate. -/
def execMinui (rd ra : Fin 32) (imm : BitVec 30) (s : State) : Res := .next (s.issue (State.iLogici State.minuW rd ra imm))

/-- R256: Unsigned maximum with an immediate. -/
def execMaxui (rd ra : Fin 32) (imm : BitVec 30) (s : State) : Res := .next (s.issue (State.iLogici State.maxuW rd ra imm))

/-- R256: Loads a zero-extended 24-bit immediate. -/
def execMovlo (rd : Fin 32) (imm : BitVec 24) (s : State) : Res := .next (s.issue (State.iMovlo rd imm))

/-- R256: Loads the upper 24 bits of a word. -/
def execMovhi (rd : Fin 32) (imm : BitVec 24) (s : State) : Res := .next (s.issue (State.iMovhi rd imm))

/-- R256: Reads the flags into a word. -/
def execGetf (rd : Fin 32) (s : State) : Res := .next (s.issue (State.iGetf rd))

/-- R256: Writes the flags from a word. -/
def execPutf (ra : Fin 32) (s : State) : Res := .next (s.issue (State.iPutf ra))

/-- R253: Clears the sticky S flag. -/
def execClrs (s : State) : Res := .next (s.issue State.iClrs)

/-- R258: Exact product into an accumulator. -/
def execMul (ra rb : Fin 32) (u : Bool) (ac : Fin 2) (s : State) : Res := .next (s.issue (State.iMul ra rb u ac))

/-- R258: Wrapping multiply-accumulate. -/
def execMac (ra rb : Fin 32) (u : Bool) (ac : Fin 2) (s : State) : Res := .next (s.issue (State.iMac 1 false ra rb u ac))

/-- R258: Saturating multiply-accumulate. -/
def execMacs (ra rb : Fin 32) (u : Bool) (ac : Fin 2) (s : State) : Res := .next (s.issue (State.iMac 1 true ra rb u ac))

/-- R258: Wrapping multiply-subtract. -/
def execMsu (ra rb : Fin 32) (u : Bool) (ac : Fin 2) (s : State) : Res := .next (s.issue (State.iMac (-1) false ra rb u ac))

/-- R258: Saturating multiply-subtract. -/
def execMsus (ra rb : Fin 32) (u : Bool) (ac : Fin 2) (s : State) : Res := .next (s.issue (State.iMac (-1) true ra rb u ac))

/-- R256: Rounded arithmetic shift right of an accumulator. -/
def execAsr (ac : Fin 2) (sh : BitVec 7) (s : State) : Res := .next (s.issue (State.iAsr ac sh.toNat))

/-- R256: Wrapping shift left of an accumulator. -/
def execAsl (ac : Fin 2) (sh : BitVec 7) (s : State) : Res := .next (s.issue (State.iAsl ac sh.toNat))

/-- R259: Narrows an accumulator to a word with rounding and saturation. -/
def execRound (rd : Fin 32) (ac : Fin 2) (width : BitVec 6) (sh : BitVec 7) (s : State) : Res :=
  .next (s.issue (State.iRound rd ac width.toNat sh.toNat))

/-- R259: Counts the redundant sign bits of an accumulator. -/
def execNorm (rd : Fin 32) (ac : Fin 2) (s : State) : Res := .next (s.issue (State.iNorm rd ac))

/-- R256: Reads one part of an accumulator. -/
def execAccget (rd : Fin 32) (ac : Fin 2) (sh : BitVec 7) (s : State) : Res := .next (s.issue (State.iAccget rd ac sh.toNat))

/-- R256: Writes one part of an accumulator. -/
def execAccput (ra : Fin 32) (ac : Fin 2) (sh : BitVec 7) (s : State) : Res := .next (s.issue (State.iAccput ra ac sh.toNat))

/-- R260: Loads a DMEM word. -/
def execLd (rd ra : Fin 32) (imm : BitVec 30) (s : State) : Res := .next (s.issue (State.iLd rd ra imm))

/-- R260: Stores a DMEM word. -/
def execSt (rd ra : Fin 32) (imm : BitVec 30) (s : State) : Res := .next (s.issue (State.iSt rd ra imm))

/-- R261: Reads a register as master QUARAN. -/
def execInp (rd ra : Fin 32) (a24 : BitVec 24) (at_ : Instant) (wait : Fin 13) (s : State) : Res :=
  .next (s.issue (State.iInp rd ra a24 at_.toNat wait))

/-- R261: Writes a register as master QUARAN. -/
def execOutp (rs ra : Fin 32) (a24 : BitVec 24) (wait : Fin 13) (held : BitVec 10) (s : State) : Res :=
  .next (s.issue (State.iOutp rs ra a24 wait held.toNat))

/-- R263: Writes the undercoat of a staged register. -/
def execStg (rs ra : Fin 32) (a24 : BitVec 24) (wait : Fin 13) (held : BitVec 10) (s : State) : Res :=
  .next (s.issue (State.iStg rs ra a24 wait held.toNat))

/-- R264: Requests a consistency check of the whole undercoat. -/
def execOpSet (rd : Fin 32) (s : State) : Res := .next (s.issue (State.iSet rd))

/-- R257: Conditional branch. -/
def execBr (cond : Fin 32) (target : BitVec 15) (s : State) : Res := .next (s.issue (State.iBr cond target))

/-- R256: Jump to the address in a register. -/
def execJr (ra : Fin 32) (s : State) : Res := .next (s.issue (State.iJr ra))

/-- R256: Pushes the return address and jumps. -/
def execCall (target : BitVec 15) (s : State) : Res := .next (s.issue (State.iCall target))

/-- R256: Returns to the popped address. -/
def execRet (s : State) : Res := .next (s.issue State.iRet)

/-- R254: Ends the run, stores the resume address and discards held ring entries. -/
def execOpTick (target : BitVec 15) (s : State) : Res := .next (s.issue (State.iTick target))

/-- R265: Starts waiting for masked events or a cycle limit. -/
def execWaite (rd ra : Fin 32) (limit : BitVec 16) (s : State) : Res := .next (s.issue (State.iWaite rd ra limit.toNat))

/-- R265: A masked event arrives or the limit passes, and WAITE returns and clears the events it saw. -/
def execWaiteEnd (cycles : BitVec 16) (s : State) : Res := .next (s.act true (·.waiteEnd cycles.toNat))

/-- R256: Halts the sequencer if BRK_EN is 1, or else raises exception BRK. -/
def execOpBrk (s : State) : Res := .next (s.issue State.iBrk)

/-- R266: Writes one ring entry, held or published. -/
def execPush (rd ra : Fin 32) (h : Bool) (offset : BitVec 13) (wait : Fin 5) (s : State) : Res :=
  .next (s.issue (State.iPush rd ra h offset.toNat wait))

/-- R266: Reads one ring entry, held or consumed. -/
def execPop (rd ra : Fin 32) (h : Bool) (offset : BitVec 13) (wait : Fin 5) (s : State) : Res :=
  .next (s.issue (State.iPop rd ra h offset.toNat wait))

/-- R267: Enters a trace record into the trace ring. -/
def execTrc (rd : Fin 32) (at_ : Instant) (s : State) : Res := .next (s.issue (State.iTrc rd at_.toNat))

/-- R268: Hands a power request word to the PWR block. -/
def execPwr (rd ra : Fin 32) (s : State) : Res := .next (s.issue (State.iPwr rd ra))

/-- R255: The sequencer issues an instruction word whose opcode is undefined, which raises exception ILLEGAL. -/
def execUndefinedOpcode (w : BitVec 48) (s : State) : Res := .next (s.issue (State.iUndefined w))

end Sys2Proof.Machine
end

