-- ==== Sys2Proof/Machine/RingRows.lean ====
section
/-! DEFINITION. Commands: ring indices and the ring-store window (spec/10_time_transparent_engine.md R219–R228). -/
namespace Sys2Proof.Machine

/-- R221: A producer master writes PI, which publishes records or is refused with PI_BAD. -/
def execRngPiWrite (m : Requester) (r : Fin 8192) (w : BitVec 48) (s : State) : Res := .next (s.accessW m (Reg.RNG_PI.addr [r]) w)

/-- R221: A consumer master writes CI, which frees entries or is refused with CI_BAD. -/
def execRngCiWrite (m : Requester) (r : Fin 8192) (w : BitVec 48) (s : State) : Res := .next (s.accessW m (Reg.RNG_CI.addr [r]) w)

/-- R224: A write through the ring-store window stores a word or is a violation. -/
def execRingWindowWrite (m : Requester) (a : BitVec 18) (w : BitVec 48) (s : State) : Res :=
  .next (s.accessW m (Reg.RNG_WINDOW.base + a.toNat) w)

end Sys2Proof.Machine
end

