-- ==== Sys2Proof/Machine/ScrimRows.lean ====
section
/-! DEFINITION. Commands: Scrim links and the fabric (spec/11_scrim_links_and_fabric.md). -/
namespace Sys2Proof.Machine

/-- The message types of R240 that have rows of their own. -/
def namedType (t : Nat) : Bool := State.controlType t || [0x10, 0x11, 0x12, 0x20, 0x31, 0x32, 0x40, 0x41].contains t

/-- The symbols of link `j` end with an accepted frame of the kind `p`. -/
def State.frameRow (s : State) (j : Fin 10) (at_ : Instant) (l : LinkSpan) (p : State → SFrame → Bool) : State :=
  s.linkRow j at_.toNat (s.timeAt at_.toNat) l fun t e => match e with | .frame f => p t f | _ => false

/-- R231: A Scrim receiver gains code-group sync. -/
def execScrimSyncGain (j : Fin 10) (l : LinkSpan) (s : State) : Res :=
  .next (s.act true (·.linkRow j 0 (s.timeAt 0) l fun _ e => e = .gained))

/-- R231: A Scrim receiver loses sync on code errors or on its lane leaving LOCKED. -/
def execScrimSyncLoss (j : Fin 10) (l : LinkSpan) (s : State) : Res :=
  .next (s.act true (·.linkRow j 0 (s.timeAt 0) l fun _ e => e = .lost))

/-- R232: The elastic buffer overflows or runs empty, so a symbol is dropped or repeated and EB_SLIP is counted. -/
def execEbSlip (j : Fin 10) (l : LinkSpan) (s : State) : Res :=
  .next (s.act true (·.linkRow j 0 (s.timeAt 0) l fun _ e => e = .slip))

/-- R234: A received frame is discarded for a parse, length or CRC error and NAKed where required. -/
def execScrimBadFrame (j : Fin 10) (l : LinkSpan) (s : State) : Res :=
  .next (s.act true (·.linkRow j 0 (s.timeAt 0) l fun _ e => match e with | .cut _ _ => true | .stop _ => true | .code => true | _ => false))

/-- R239: An accepted frame for another address is routed on, or discarded as TTL or NO_ROUTE. -/
def execScrimForward (j : Fin 10) (at_ : Instant) (l : LinkSpan) (s : State) : Res :=
  .next (s.act true (·.frameRow j at_ l fun t f => !t.isLocal f && !State.controlType f.typ.toNat))

/-- R238: A received HELLO updates neighbour registers and the link state. -/
def execHello (j : Fin 10) (at_ : Instant) (l : LinkSpan) (s : State) : Res :=
  .next (s.act true (·.frameRow j at_ l fun _ f => f.typ = 0x01))

/-- R238: Each HELLO period an enabled synced link sends a HELLO. -/
def execHelloSend (j : Fin 10) (s : State) : Res := .next (s.act (s.helloDue j) (·.sendHello j))

/-- R238: No HELLO arrives for HELLO_LOSS periods, and the link leaves UP. -/
def execHelloLoss (j : Fin 10) (s : State) : Res := .next (s.act (s.helloLost j) fun s => s.linkLeave j lkSYNC)

/-- R236: A received ACK releases acknowledged frames, or is ignored as SEQ_BAD. -/
def execAck (j : Fin 10) (at_ : Instant) (l : LinkSpan) (s : State) : Res :=
  .next (s.act true (·.frameRow j at_ l fun _ f => f.typ = 0x02))

/-- R236: A received NAK resends frames from the named SEQ with RETX. -/
def execNak (j : Fin 10) (at_ : Instant) (l : LinkSpan) (s : State) : Res :=
  .next (s.act true (·.frameRow j at_ l fun _ f => f.typ = 0x03))

/-- R236: The oldest unacknowledged frame waits RTX_TICKS and is resent, and after RTX_MAX timeouts the link leaves UP. -/
def execRetxTimeout (j : Fin 10) (s : State) : Res := .next (s.act (s.rtxDue j) (·.rtxTimeout j))

/-- R243: A received TMARK is timestamped at arrival. -/
def execTmarkRx (j : Fin 10) (symbol : Fin 6) (at_ : Stamp) (l : LinkSpan) (s : State) : Res :=
  .next (s.act true (·.linkRow j 0 (s.arrivalTime j symbol at_) l fun _ e => e = .mark))

/-- R244: A received TIME frame yields theta and d_in, which are published and used as a source measurement. -/
def execTimeFrame (j : Fin 10) (at_ : Instant) (l : LinkSpan) (s : State) : Res :=
  .next (s.act true (·.frameRow j at_ l fun _ f => f.typ = 0x04))

/-- R242: A REG_RD message reads N words as master SCRIM and answers with REG_RSP. -/
def execRegRd (j : Fin 10) (at_ : Instant) (l : LinkSpan) (s : State) : Res :=
  .next (s.act true (·.frameRow j at_ l fun t f => t.isLocal f && f.typ = 0x10))

/-- R242: A REG_WR message writes N words as master SCRIM and answers with REG_RSP. -/
def execRegWr (j : Fin 10) (at_ : Instant) (l : LinkSpan) (s : State) : Res :=
  .next (s.act true (·.frameRow j at_ l fun t f => t.isLocal f && f.typ = 0x11))

/-- R242: A REG_RSP completes a proxy request and writes PROXY_STAT and PROXY_DATA. -/
def execRegRsp (j : Fin 10) (at_ : Instant) (l : LinkSpan) (s : State) : Res :=
  .next (s.act true (·.frameRow j at_ l fun t f => t.isLocal f && f.typ = 0x12))

/-- R242: A write of GO sends one REG_RD or REG_WR to PROXY_CTL.DST and sets BUSY. -/
def execProxyGo (m : Requester) (w : BitVec 48) (s : State) : Res := .next (s.accessW m Reg.PROXY_CTL.base (w ||| 1))

/-- R242: No REG_RSP arrives within 1,024 ticks, and the proxy ends with TIMEOUT. -/
def execProxyTimeout (s : State) : Res := .next (s.act (s.scr.proxy == some 0) (·.proxyEnd 5))

/-- R245: A received TRIG is presented to capture at the compensated instant. -/
def execTrigRx (j : Fin 10) (symbol : Fin 6) (at_ : Stamp) (l : LinkSpan) (s : State) : Res :=
  .next (s.act true (·.linkRow j 0 (s.arrivalTime j symbol at_) l fun _ e => e = .trig))

/-- R245: A TRIG_AT message delivers a trigger time to the capture engine. -/
def execTrigAt (j : Fin 10) (at_ : Instant) (l : LinkSpan) (s : State) : Res :=
  .next (s.act true (·.frameRow j at_ l fun t f => t.isLocal f && f.typ = 0x20))

/-- R249: A received BOOT_REQ is delivered to the FABRIC_RX ring for the serving peer. -/
def execBootReq (j : Fin 10) (at_ : Instant) (l : LinkSpan) (s : State) : Res :=
  .next (s.act true (·.frameRow j at_ l fun _ f => f.typ = 0x30))

/-- R249: A booting device sends BOOT_REQ on each UP link every 16 ticks. -/
def execBootReqSend (s : State) : Res := .next (s.act true (·.bootReqSend))

/-- R249: A BOOT_DATA at the expected offset is taken into the image, and others are discarded. -/
def execBootData (j : Fin 10) (at_ : Instant) (l : LinkSpan) (s : State) : Res :=
  .next (s.act true (·.frameRow j at_ l fun t f => t.isLocal f && f.typ = 0x31))

/-- R249: A BOOT_END with a matching length starts image verification. -/
def execBootEnd (j : Fin 10) (at_ : Instant) (l : LinkSpan) (s : State) : Res :=
  .next (s.act true (·.frameRow j at_ l fun t f => t.isLocal f && f.typ = 0x32))

/-- R248: A LOOP_CMD requests a far-end loop and is delivered to the FABRIC_RX ring. -/
def execLoopCmd (j : Fin 10) (at_ : Instant) (l : LinkSpan) (s : State) : Res :=
  .next (s.act true (·.frameRow j at_ l fun t f => t.isLocal f && f.typ = 0x40))

/-- R248: A LOOP_RSP answers a loop request and is delivered to the FABRIC_RX ring. -/
def execLoopRsp (j : Fin 10) (at_ : Instant) (l : LinkSpan) (s : State) : Res :=
  .next (s.act true (·.frameRow j at_ l fun t f => t.isLocal f && f.typ = 0x41))

/-- R241: A USER message is entered into the FABRIC_RX ring and acknowledged. -/
def execUserMessage (j : Fin 10) (at_ : Instant) (l : LinkSpan) (s : State) : Res :=
  .next (s.act true (·.frameRow j at_ l fun t f => t.isLocal f && !namedType f.typ.toNat))

/-- R241: A record in the FABRIC_TX ring is sent as a message, or rejected into TX_BAD_CNT. -/
def execFabricTxSend (at_ : Instant) (s : State) : Res := .next (s.act true (·.fabTxSend at_.toNat))

/-- R248: A loop FIFO nears its limit and drops or repeats data, counting LOOP_SLIP_CNT. -/
def execLoopSlip (s : State) : Res :=
  .next (s.act true (·.loopSlip))

end Sys2Proof.Machine
end

