-- ==== Sys2Proof/Machine/SecurityRows.lean ====
section
/-! DEFINITION. Commands: self-test, life cycle, image authentication and attestation (spec/21_self_test_life_cycle_and_authentication.md). -/
namespace Sys2Proof.Machine

/-- R426: After a reset that reruns self-test, the slices of power-up self-test run in order. -/
def execPowerupSelfTest (slice : Fin 10) (r : SelfTest) (s : State) : Res := .next (s.selfTest slice r)

/-- R427: Self-test ends, unusable domains are held off, and the rest is released, or the device stops on a critical failure. -/
def execSelfTestEnd (us : BitVec 20) (s : State) : Res := .next (s.whenB s.running (·.selfTestEnd us.toNat))

/-- R429: Starts an in-service memory test of a page range. -/
def execIsMemory (s : State) : Res := .next (s.act true fun s => s.isStart 1 s.isMemOk)

/-- R429: Starts an in-service logic test of a domain. -/
def execIsLogic (idle : Bool) (s : State) : Res := .next (s.act true fun s => s.isStart 2 (s.isLogicOk idle))

/-- R429: Starts an in-service check of a slice. -/
def execIsSlice (s : State) : Res := .next (s.act true fun s => s.isStart 3 s.isSliceOk)

/-- R429: An in-service test slice ends and restores its target, or the test is aborted by a service request. -/
def execIsSliceEnd (fail : Bool) (addr : BitVec 24) (last : Bool) (res : List Int) (s : State) : Res :=
  .next (s.act true (·.isSliceEnd fail addr.toNat last res))

/-- R432: A keyed LCS_CTL write requests a life-cycle move, which is checked, programmed and followed by a FULL reset. -/
def execLcsMove (m : Requester) (w : BitVec 48) (s : State) : Res := .next (s.accessW m Reg.LCS_CTL.base w)

/-- R434: Enabling scan or the JTAG debug master first clears and verifies every secret. -/
def execScanEnable (s : State) : Res := .next (s.scanEnable)

/-- R436: SEC_LOAD_CTL BEGIN empties a slot for loading. -/
def execLoadBegin (m : Requester) (slotB : Bool) (s : State) : Res :=
  .next (s.accessW m Reg.SEC_LOAD_CTL.base (BitVec.ofNat 48 (1 + 4 * b2n slotB)))

/-- R435: SEC_LOAD_CTL VERIFY starts verification of a slot. -/
def execLoadVerify (m : Requester) (slotB : Bool) (s : State) : Res :=
  .next (s.accessW m Reg.SEC_LOAD_CTL.base (BitVec.ofNat 48 (2 + 4 * b2n slotB)))

/-- R436: A write to SEC_LOAD_DATA stores an image word and advances the address. -/
def execSecLoadDataWrite (m : Requester) (w : BitVec 48) (s : State) : Res := .next (s.accessW m Reg.SEC_LOAD_DATA.base w)

/-- R435: Image verification ends with its result in SEC_IMGA or SEC_IMGB. -/
def execImageVerifyDone (s : State) : Res := .next (s.act true (·.verifyDone))

/-- R437: After self-test the boot ROM loads slot A from the strap-selected source and starts a verified image. -/
def execBoot (words : List (BitVec 48)) (s : State) : Res := .next (s.bootRead words)

/-- R437: No verified image within 262,144 ticks restarts a Scrim boot, or sets BOOT_FAIL after three restarts. -/
def execScrimBootTimeout (s : State) : Res := .next (s.act true (·.bootTimeout))

/-- R438: A keyed write advances the anti-rollback level. -/
def execSecArbAdv (m : Requester) (w : BitVec 48) (s : State) : Res := .next (s.accessW m Reg.SEC_ARB_ADV.base w)

/-- R438: A keyed write revokes a key slot. -/
def execSecRevoke (m : Requester) (w : BitVec 48) (s : State) : Res := .next (s.accessW m Reg.SEC_REVOKE.base w)

/-- R440: A write of SEC_ATT_CTL.GO requests an attestation report. -/
def execAttGo (m : Requester) (s : State) : Res := .next (s.accessW m Reg.SEC_ATT_CTL.base 1)

/-- R440: The attestation report is ready or refused. -/
def execAttestationDone (s : State) : Res := .next (s.act true (·.attDone))

end Sys2Proof.Machine
end

