-- ==== Sys2Proof/Machine/ThermalRows.lean ====
section
/-! DEFINITION. Commands: sensors, throttle, bands and foreground calibration (spec/14_skim_calibration_and_thermal.md). -/
namespace Sys2Proof.Machine

/-- R308: the changed throttle level is applied; below T3 a paused migration goes on (R18, R64). -/
def State.applyLevel (s : State) : State :=
  let s := s.disarm dueThr 0
  match s.thm.pendLevel with
  | none => s
  | some l =>
    let s := ((s.th fun t => { t with pendLevel := none }).put Reg.THM_STAT.THR_LEVEL l).thmEv Reg.THM_EVT.THR_CHG
    let s := s.whenB (l = 3) fun s => { s with cals := s.cals.map fun c => { c with stop := c.run } }
    let s := (s.each (List.range 4) State.monHalf).cp fun c => { c with odd := false }
    (s.capEv 51).whenB (s.mig.held && l < 3) fun s => (s.setPhase (s.phase + 1)).mg fun m => { m with held := false }

/-- R304: A sensor reading is published and limits, flags, throttle level and bands are evaluated. -/
def execSensorPublish (temp diff : Int) (s : State) : Res :=
  .next (s.whenB s.running fun s => (s.publishSensor temp diff).whenB s.publishing.isSome (·.commitNow))

/-- R308: A changed throttle level is applied at the next tick boundary, and THR_CHG is set. -/
def execThrottleApply (s : State) : Res := .next (s.act (s.armed dueThr 0) fun s => s.applyLevel.st fun x => { x with recent := true })

/-- R311: A changed temperature band is applied at the next tick boundary, and BAND_CHG is set. -/
def execBandApply (s : State) : Res := .next (s.act (s.armed dueBand 0) fun s => (s.disarm dueBand 0).applyBands.st fun x => { x with recent := true })

/-- R310: A comparator at or above 125 °C for 10 µs shuts the device down. -/
def execThermalShutdown (sensor : Fin 12) (s : State) : Res := .next (s.thermalShutdown sensor)

/-- R310: Every comparator below 100 °C for 1 ms restarts the device as after power-on. -/
def execThermalRestart (s : State) : Res := .next (s.thermalRestart)

/-- R316: An applied change of FCAL_CTL.SEQ starts foreground calibration of an idle own slice, or refuses it. -/
def execFcalStart (sl : Fin 8) (s : State) : Res :=
  .next (s.act (s.armed State.dueFcal sl && s.slicePowered sl) fun s => (s.disarm State.dueFcal sl).fcalStart sl)

/-- R315: A foreground calibration ends, keeps or restores the trims, and may store a point. -/
def execFcalDone (sl : Fin 9) (first again : CalMeas) (s : State) : Res :=
  .next (s.act true (·.fcalDone sl first again))

end Sys2Proof.Machine
end

