-- ==== Sys2Proof/Machine/TrowelRows.lean ====
section
/-! DEFINITION. Commands: the Trowel loops (spec/16_trowel_loops_and_bias_dacs.md). -/
namespace Sys2Proof.Machine

/-- R342: A due loop captures its input and updates or holds, then writes its DAC code. -/
def execTrowelUpdate (m : Fin 16) (s : State) : Res := .next (s.act true (·.loopUpdate m))

/-- R346: After LOCK_N small errors, STARTUP or RECOVERY becomes RUN. -/
def execTrwAutoRun (m : Fin 16) (s : State) : Res := .next (s.act (s.domOn 44) (·.autoApply m tsRUN))

/-- R346: After LOSS_N large errors, RUN becomes RECOVERY. -/
def execTrwAutoRecovery (m : Fin 16) (s : State) : Res := .next (s.act (s.domOn 44) (·.autoApply m tsRECOVERY))

/-- R344: A dither half-period begins, and the dithered code and reference change sign. -/
def execDitherHalf (m : Fin 16) (s : State) : Res := .next (s.act true (·.ditherHalf m))

/-- R346: A loop command moves the loop to OFF. -/
def execTrwCmdOff (m : Fin 16) (s : State) : Res := .next (s.act (s.domOn 44) (·.loopCommand m tsOFF))

/-- R345: A loop command moves the loop to STARTUP. -/
def execTrwCmdStartup (m : Fin 16) (s : State) : Res := .next (s.act (s.domOn 44) (·.loopCommand m tsSTARTUP))

/-- R345: A loop command moves the loop to RUN. -/
def execTrwCmdRun (m : Fin 16) (s : State) : Res := .next (s.act (s.domOn 44) (·.loopCommand m tsRUN))

/-- R345: A loop command moves the loop to TEST. -/
def execTrwCmdTest (m : Fin 16) (s : State) : Res := .next (s.act (s.domOn 44) (·.loopCommand m tsTEST))

/-- R345: A loop command moves the loop to RECOVERY with i from REC_CODE. -/
def execTrwCmdRecovery (m : Fin 16) (s : State) : Res := .next (s.act (s.domOn 44) (·.loopCommand m tsRECOVERY))

/-- R349: An applied Stipple SEQ with TYPE NONE ends a running stimulus. -/
def execStipNone (m : Fin 16) (s : State) : Res := .next (s.act (s.domOn 44) (·.stipNone m))

/-- R348: Starts a sine stimulus. -/
def execStipSine (m : Fin 16) (s : State) : Res := .next (s.act (s.domOn 44) (·.stipStart m stSINE))

/-- R348: Starts a square stimulus. -/
def execStipSquare (m : Fin 16) (s : State) : Res := .next (s.act (s.domOn 44) (·.stipStart m stSQUARE))

/-- R348: Starts a PRBS15 stimulus. -/
def execStipPrbs (m : Fin 16) (s : State) : Res := .next (s.act (s.domOn 44) (·.stipStart m stPRBS))

/-- R348: Starts a swept sine stimulus. -/
def execStipSwept (m : Fin 16) (s : State) : Res := .next (s.act (s.domOn 44) (·.stipStart m stSWEPT))

/-- R348: A sweep passes FTW_END and the stimulus ends. -/
def execStipDone (m : Fin 16) (s : State) : Res := .next (s.act (s.domOn 44) (·.stipDone m))

end Sys2Proof.Machine
end

