-- ==== Sys2Proof/Machine/TteRows.lean ====
section
/-! DEFINITION. Commands: the time-transparent engine and the flow table (spec/10_time_transparent_engine.md). -/
namespace Sys2Proof.Machine

/-- R204: The engine classifies a frame in a locked group and corrects, stores or looks up its residence time, or passes it
unaltered. -/
def execTteFrame (f : TteFrame) (s : State) : Res := .next (s.act true (·.tteFrame f))

/-- R207: A departure timestamp is compared with its prediction, and MISPREDICT is counted and the context updated. -/
def execDeparturePostcheck (ingress : Bool) (host : Fin 16) (at_ : Stamp) (s : State) : Res :=
  .next (s.act true (·.ttePostcheck ingress host at_))

/-- R216: The sweeper examines 16 buckets and invalidates expired entries. -/
def execFlowSweep (s : State) : Res := .next (s.act true (·.flowSweep))

/-- R227: An FLT_CMD write of 0 does nothing. -/
def execFltNop (m : Requester) (s : State) : Res := .next (s.accessW m Reg.FLT_CMD.base 0)

/-- R227: FLT_CMD 1 copies the selected entry into FLT_DATA0–3. -/
def execFltCopy (m : Requester) (s : State) : Res := .next (s.accessW m Reg.FLT_CMD.base 1)

/-- R227: FLT_CMD 2 invalidates the selected entry. -/
def execFltInvalidate (m : Requester) (s : State) : Res := .next (s.accessW m Reg.FLT_CMD.base 2)

/-- R227: FLT_CMD 3 starts invalidating every entry and sets BUSY. -/
def execFltFlush (m : Requester) (s : State) : Res := .next (s.accessW m Reg.FLT_CMD.base 3)

/-- R227: The flush has passed every bucket, and BUSY clears. -/
def execFltFlushDone (s : State) : Res := .next (s.act true (·.fltFlushDone))

end Sys2Proof.Machine
end

