-- ==== Sys2Proof/Machine/TxRows.lean ====
section
/-! DEFINITION. Commands: the line transmitters and the observation of a transmit tap (spec/06_line_transmit.md). -/
namespace Sys2Proof.Machine

/-- R136: A declared violation with MASK_ACT forces ZERO at the next transmit frame boundary. -/
def execMaskSquelch (k : Fin 8) (s : State) : Res :=
  .next (s.act (s.domOn (17 + k) && (s.ltxAt (k / 4)).place = 0) (·.maskSquelch k))

/-- R134: Two ticks after leaving IDLE, SETTLING clears and Render codes resume at the next transmit frame boundary. -/
def execSquelchSettleEnd (k : Fin 8) (s : State) : Res := .next (s.act (s.domOn (17 + k)) (·.settleEnd k))

/-- R137: The Float's correlation search over one tick aligns the observation or searches again. -/
def execTxobsAlignSearch (s : State) : Res := .next (s.act true (·.obsSearch))

/-- R138: An accumulation period ends, and the sums and counts are published with PERIOD_SEQ advanced. -/
def execTxobsPeriodPublish (s : State) : Res := .next (s.act true (·.obsPublish))

end Sys2Proof.Machine
end

