-- ==== Sys2Proof/Machine/Dispatch.lean ====
section
/-! DEFINITION. One arm per command: a direct call of its meaning. -/
namespace Sys2Proof.Machine

/-- The effect of a command on everything but the queue. -/
def exec (i : Instr) (s : State) : Host.Outcome State Fault Refusal :=
  match i with
  | .tickBoundary m => Sys2Proof.Machine.execTickBoundary m s
  | .setApply => Sys2Proof.Machine.execSetApply s
  | .applicationBoundary stage m => Sys2Proof.Machine.execApplicationBoundary stage m s
  | .ltxRefMove p => Sys2Proof.Machine.execLtxRefMove p s
  | .huntMarkerMatch k marker => Sys2Proof.Machine.execHuntMarkerMatch k marker s
  | .expectedMarker k header => Sys2Proof.Machine.execExpectedMarker k header s
  | .standardAlignmentChange k st => Sys2Proof.Machine.execStandardAlignmentChange k st s
  | .formatProbeStart k => Sys2Proof.Machine.execFormatProbeStart k s
  | .farFmtFound k code => Sys2Proof.Machine.execFarFmtFound k code s
  | .probeWindowEnd k => Sys2Proof.Machine.execProbeWindowEnd k s
  | .linePatLock host n m => Sys2Proof.Machine.execLinePatLock host n m s
  | .linePatResync host n m => Sys2Proof.Machine.execLinePatResync host n m s
  | .signalDetectChange sl amp => Sys2Proof.Machine.execSignalDetectChange sl amp s
  | .migCmdNone => Sys2Proof.Machine.execMigCmdNone s
  | .floatCal => Sys2Proof.Machine.execFloatCal s
  | .migrate => Sys2Proof.Machine.execMigrate s
  | .floatReturn => Sys2Proof.Machine.execFloatReturn s
  | .floatAbort => Sys2Proof.Machine.execFloatAbort s
  | .observeRx => Sys2Proof.Machine.execObserveRx s
  | .observeTx => Sys2Proof.Machine.execObserveTx s
  | .retire => Sys2Proof.Machine.execRetire s
  | .convergeDone => Sys2Proof.Machine.execConvergeDone s
  | .convTimeout => Sys2Proof.Machine.execConvTimeout s
  | .agreeWindowEnd => Sys2Proof.Machine.execAgreeWindowEnd s
  | .floatSwap m => Sys2Proof.Machine.execFloatSwap m s
  | .sliceFaultDetect sl src ss => Sys2Proof.Machine.execSliceFaultDetect sl src ss s
  | .abruptReturnSwap m => Sys2Proof.Machine.execAbruptReturnSwap m s
  | .takeoverSwap m => Sys2Proof.Machine.execTakeoverSwap m s
  | .takeoverTimeout => Sys2Proof.Machine.execTakeoverTimeout s
  | .noiseMeasureStart sl => Sys2Proof.Machine.execNoiseMeasureStart sl s
  | .noiseDone sl worst worstRms allRms => Sys2Proof.Machine.execNoiseDone sl worst worstRms allRms s
  | .adaptTrackEntry sl => Sys2Proof.Machine.execAdaptTrackEntry sl s
  | .trLockWindow m => Sys2Proof.Machine.execTrLockWindow m s
  | .reacquire sl => Sys2Proof.Machine.execReacquire sl s
  | .codewordDecode k slot even rx cand => Sys2Proof.Machine.execCodewordDecode k slot even rx cand s
  | .outerCodeword n ingress syms => Sys2Proof.Machine.execOuterCodeword n ingress syms s
  | .outerLockChange n ingress lock => Sys2Proof.Machine.execOuterLockChange n ingress lock s
  | .maskSquelch k => Sys2Proof.Machine.execMaskSquelch k s
  | .squelchSettleEnd k => Sys2Proof.Machine.execSquelchSettleEnd k s
  | .txobsAlignSearch => Sys2Proof.Machine.execTxobsAlignSearch s
  | .txobsPeriodPublish => Sys2Proof.Machine.execTxobsPeriodPublish s
  | .hostCdrLockChange n lock => Sys2Proof.Machine.execHostCdrLockChange n lock s
  | .amLockGained n m => Sys2Proof.Machine.execAmLockGained n m s
  | .amLockLost n m => Sys2Proof.Machine.execAmLockLost n m s
  | .adjNone => Sys2Proof.Machine.execAdjNone s
  | .adjLoad => Sys2Proof.Machine.execAdjLoad s
  | .adjStep => Sys2Proof.Machine.execAdjStep s
  | .adjSlew => Sys2Proof.Machine.execAdjSlew s
  | .adjMeasure => Sys2Proof.Machine.execAdjMeasure s
  | .slewEnd => Sys2Proof.Machine.execSlewEnd s
  | .ppsInEdge falling at_ => Sys2Proof.Machine.execPpsInEdge falling at_ s
  | .servoUpdate => Sys2Proof.Machine.execServoUpdate s
  | .sourceLoss slot => Sys2Proof.Machine.execSourceLoss slot s
  | .holdoverExpired => Sys2Proof.Machine.execHoldoverExpired s
  | .evtInputEdge m falling at_ lasts => Sys2Proof.Machine.execEvtInputEdge m falling at_ lasts s
  | .evtArm m => Sys2Proof.Machine.execEvtArm m s
  | .evtOutputPulse m => Sys2Proof.Machine.execEvtOutputPulse m s
  | .ppsOutPulse => Sys2Proof.Machine.execPpsOutPulse s
  | .tteFrame f => Sys2Proof.Machine.execTteFrame f s
  | .departurePostcheck ingress host at_ => Sys2Proof.Machine.execDeparturePostcheck ingress host at_ s
  | .flowSweep => Sys2Proof.Machine.execFlowSweep s
  | .fltNop m => Sys2Proof.Machine.execFltNop m s
  | .fltCopy m => Sys2Proof.Machine.execFltCopy m s
  | .fltInvalidate m => Sys2Proof.Machine.execFltInvalidate m s
  | .fltFlush m => Sys2Proof.Machine.execFltFlush m s
  | .fltFlushDone => Sys2Proof.Machine.execFltFlushDone s
  | .rngPiWrite m r w => Sys2Proof.Machine.execRngPiWrite m r w s
  | .rngCiWrite m r w => Sys2Proof.Machine.execRngCiWrite m r w s
  | .ringWindowWrite m a w => Sys2Proof.Machine.execRingWindowWrite m a w s
  | .scrimSyncGain j l => Sys2Proof.Machine.execScrimSyncGain j l s
  | .scrimSyncLoss j l => Sys2Proof.Machine.execScrimSyncLoss j l s
  | .ebSlip j l => Sys2Proof.Machine.execEbSlip j l s
  | .scrimBadFrame j l => Sys2Proof.Machine.execScrimBadFrame j l s
  | .scrimForward j at_ l => Sys2Proof.Machine.execScrimForward j at_ l s
  | .hello j at_ l => Sys2Proof.Machine.execHello j at_ l s
  | .helloSend j => Sys2Proof.Machine.execHelloSend j s
  | .helloLoss j => Sys2Proof.Machine.execHelloLoss j s
  | .ack j at_ l => Sys2Proof.Machine.execAck j at_ l s
  | .nak j at_ l => Sys2Proof.Machine.execNak j at_ l s
  | .retxTimeout j => Sys2Proof.Machine.execRetxTimeout j s
  | .tmarkRx j symbol at_ l => Sys2Proof.Machine.execTmarkRx j symbol at_ l s
  | .timeFrame j at_ l => Sys2Proof.Machine.execTimeFrame j at_ l s
  | .regRd j at_ l => Sys2Proof.Machine.execRegRd j at_ l s
  | .regWr j at_ l => Sys2Proof.Machine.execRegWr j at_ l s
  | .regRsp j at_ l => Sys2Proof.Machine.execRegRsp j at_ l s
  | .proxyGo m w => Sys2Proof.Machine.execProxyGo m w s
  | .proxyTimeout => Sys2Proof.Machine.execProxyTimeout s
  | .trigRx j symbol at_ l => Sys2Proof.Machine.execTrigRx j symbol at_ l s
  | .trigAt j at_ l => Sys2Proof.Machine.execTrigAt j at_ l s
  | .bootReq j at_ l => Sys2Proof.Machine.execBootReq j at_ l s
  | .bootReqSend => Sys2Proof.Machine.execBootReqSend s
  | .bootData j at_ l => Sys2Proof.Machine.execBootData j at_ l s
  | .bootEnd j at_ l => Sys2Proof.Machine.execBootEnd j at_ l s
  | .loopCmd j at_ l => Sys2Proof.Machine.execLoopCmd j at_ l s
  | .loopRsp j at_ l => Sys2Proof.Machine.execLoopRsp j at_ l s
  | .userMessage j at_ l => Sys2Proof.Machine.execUserMessage j at_ l s
  | .fabricTxSend at_ => Sys2Proof.Machine.execFabricTxSend at_ s
  | .loopSlip => Sys2Proof.Machine.execLoopSlip s
  | .nop => Sys2Proof.Machine.execNop s
  | .add rd ra rb => Sys2Proof.Machine.execAdd rd ra rb s
  | .adds rd ra rb => Sys2Proof.Machine.execAdds rd ra rb s
  | .sub rd ra rb => Sys2Proof.Machine.execSub rd ra rb s
  | .subs rd ra rb => Sys2Proof.Machine.execSubs rd ra rb s
  | .opAnd rd ra rb => Sys2Proof.Machine.execOpAnd rd ra rb s
  | .opOr rd ra rb => Sys2Proof.Machine.execOpOr rd ra rb s
  | .opXor rd ra rb => Sys2Proof.Machine.execOpXor rd ra rb s
  | .shl rd ra rb => Sys2Proof.Machine.execShl rd ra rb s
  | .shr rd ra rb => Sys2Proof.Machine.execShr rd ra rb s
  | .sra rd ra rb => Sys2Proof.Machine.execSra rd ra rb s
  | .opMin rd ra rb => Sys2Proof.Machine.execOpMin rd ra rb s
  | .opMax rd ra rb => Sys2Proof.Machine.execOpMax rd ra rb s
  | .minu rd ra rb => Sys2Proof.Machine.execMinu rd ra rb s
  | .maxu rd ra rb => Sys2Proof.Machine.execMaxu rd ra rb s
  | .addi rd ra imm => Sys2Proof.Machine.execAddi rd ra imm s
  | .addsi rd ra imm => Sys2Proof.Machine.execAddsi rd ra imm s
  | .subi rd ra imm => Sys2Proof.Machine.execSubi rd ra imm s
  | .subsi rd ra imm => Sys2Proof.Machine.execSubsi rd ra imm s
  | .andi rd ra imm => Sys2Proof.Machine.execAndi rd ra imm s
  | .ori rd ra imm => Sys2Proof.Machine.execOri rd ra imm s
  | .xori rd ra imm => Sys2Proof.Machine.execXori rd ra imm s
  | .shli rd ra imm => Sys2Proof.Machine.execShli rd ra imm s
  | .shri rd ra imm => Sys2Proof.Machine.execShri rd ra imm s
  | .srai rd ra imm => Sys2Proof.Machine.execSrai rd ra imm s
  | .mini rd ra imm => Sys2Proof.Machine.execMini rd ra imm s
  | .maxi rd ra imm => Sys2Proof.Machine.execMaxi rd ra imm s
  | .minui rd ra imm => Sys2Proof.Machine.execMinui rd ra imm s
  | .maxui rd ra imm => Sys2Proof.Machine.execMaxui rd ra imm s
  | .movlo rd imm => Sys2Proof.Machine.execMovlo rd imm s
  | .movhi rd imm => Sys2Proof.Machine.execMovhi rd imm s
  | .getf rd => Sys2Proof.Machine.execGetf rd s
  | .putf ra => Sys2Proof.Machine.execPutf ra s
  | .clrs => Sys2Proof.Machine.execClrs s
  | .mul ra rb u ac => Sys2Proof.Machine.execMul ra rb u ac s
  | .mac ra rb u ac => Sys2Proof.Machine.execMac ra rb u ac s
  | .macs ra rb u ac => Sys2Proof.Machine.execMacs ra rb u ac s
  | .msu ra rb u ac => Sys2Proof.Machine.execMsu ra rb u ac s
  | .msus ra rb u ac => Sys2Proof.Machine.execMsus ra rb u ac s
  | .asr ac sh => Sys2Proof.Machine.execAsr ac sh s
  | .asl ac sh => Sys2Proof.Machine.execAsl ac sh s
  | .round rd ac width sh => Sys2Proof.Machine.execRound rd ac width sh s
  | .norm rd ac => Sys2Proof.Machine.execNorm rd ac s
  | .accget rd ac sh => Sys2Proof.Machine.execAccget rd ac sh s
  | .accput ra ac sh => Sys2Proof.Machine.execAccput ra ac sh s
  | .ld rd ra imm => Sys2Proof.Machine.execLd rd ra imm s
  | .st rd ra imm => Sys2Proof.Machine.execSt rd ra imm s
  | .inp rd ra a24 at_ wait => Sys2Proof.Machine.execInp rd ra a24 at_ wait s
  | .outp rs ra a24 wait held => Sys2Proof.Machine.execOutp rs ra a24 wait held s
  | .stg rs ra a24 wait held => Sys2Proof.Machine.execStg rs ra a24 wait held s
  | .opSet rd => Sys2Proof.Machine.execOpSet rd s
  | .br cond target => Sys2Proof.Machine.execBr cond target s
  | .jr ra => Sys2Proof.Machine.execJr ra s
  | .call target => Sys2Proof.Machine.execCall target s
  | .ret => Sys2Proof.Machine.execRet s
  | .opTick target => Sys2Proof.Machine.execOpTick target s
  | .waite rd ra limit => Sys2Proof.Machine.execWaite rd ra limit s
  | .waiteEnd cycles => Sys2Proof.Machine.execWaiteEnd cycles s
  | .opBrk => Sys2Proof.Machine.execOpBrk s
  | .push rd ra h offset wait => Sys2Proof.Machine.execPush rd ra h offset wait s
  | .pop rd ra h offset wait => Sys2Proof.Machine.execPop rd ra h offset wait s
  | .trc rd at_ => Sys2Proof.Machine.execTrc rd at_ s
  | .pwr rd ra => Sys2Proof.Machine.execPwr rd ra s
  | .setCheckDone => Sys2Proof.Machine.execSetCheckDone s
  | .taskRunStart => Sys2Proof.Machine.execTaskRunStart s
  | .wdogExpiry => Sys2Proof.Machine.execWdogExpiry s
  | .seqFault => Sys2Proof.Machine.execSeqFault s
  | .wdogWrite m w => Sys2Proof.Machine.execWdogWrite m w s
  | .haltReq m halt => Sys2Proof.Machine.execHaltReq m halt s
  | .seqStep by_ at_ wait held => Sys2Proof.Machine.execSeqStep by_ at_ wait held s
  | .seqDbgAccess m data => Sys2Proof.Machine.execSeqDbgAccess m data s
  | .seqDoorbell m db => Sys2Proof.Machine.execSeqDoorbell m db s
  | .pmcCntWrite m n w => Sys2Proof.Machine.execPmcCntWrite m n w s
  | .clrAll m => Sys2Proof.Machine.execClrAll m s
  | .seqTaskWrite m slot w => Sys2Proof.Machine.execSeqTaskWrite m slot w s
  | .setCmdGo m => Sys2Proof.Machine.execSetCmdGo m s
  | .ping c => Sys2Proof.Machine.execPing c s
  | .regRead c at_ => Sys2Proof.Machine.execRegRead c at_ s
  | .setCommand c => Sys2Proof.Machine.execSetCommand c s
  | .modeCommand c before fwd => Sys2Proof.Machine.execModeCommand c before fwd s
  | .profileCommand c plan fwd => Sys2Proof.Machine.execProfileCommand c plan fwd s
  | .dpsCommand c => Sys2Proof.Machine.execDpsCommand c s
  | .lowPowerCommand c request code => Sys2Proof.Machine.execLowPowerCommand c request code s
  | .floatCommand c => Sys2Proof.Machine.execFloatCommand c s
  | .timeCommand c => Sys2Proof.Machine.execTimeCommand c s
  | .loopCommand c => Sys2Proof.Machine.execLoopCommand c s
  | .captureCommand c program => Sys2Proof.Machine.execCaptureCommand c program s
  | .imageSwap c => Sys2Proof.Machine.execImageSwap c s
  | .imageInfo c => Sys2Proof.Machine.execImageInfo c s
  | .unfreeze c => Sys2Proof.Machine.execUnfreeze c s
  | .jnlAbort c => Sys2Proof.Machine.execJnlAbort c s
  | .unknownOp c => Sys2Proof.Machine.execUnknownOp c s
  | .imageDefinedCommand c status res1 res2 => Sys2Proof.Machine.execImageDefinedCommand c status res1 res2 s
  | .jnlOpen m id fwd nsteps => Sys2Proof.Machine.execJnlOpen m id fwd nsteps s
  | .jnlStep m => Sys2Proof.Machine.execJnlStep m s
  | .jnlOpAbort m => Sys2Proof.Machine.execJnlOpAbort m s
  | .jnlDataWrite m w => Sys2Proof.Machine.execJnlDataWrite m w s
  | .jnlRoll => Sys2Proof.Machine.execJnlRoll s
  | .swapReq m => Sys2Proof.Machine.execSwapReq m s
  | .swapExecute => Sys2Proof.Machine.execSwapExecute s
  | .confirm m => Sys2Proof.Machine.execConfirm m s
  | .trialTimeout => Sys2Proof.Machine.execTrialTimeout s
  | .sensorPublish temp diff => Sys2Proof.Machine.execSensorPublish temp diff s
  | .throttleApply => Sys2Proof.Machine.execThrottleApply s
  | .bandApply => Sys2Proof.Machine.execBandApply s
  | .thermalShutdown sensor => Sys2Proof.Machine.execThermalShutdown sensor s
  | .thermalRestart => Sys2Proof.Machine.execThermalRestart s
  | .fcalStart sl => Sys2Proof.Machine.execFcalStart sl s
  | .fcalDone sl first again => Sys2Proof.Machine.execFcalDone sl first again s
  | .monOutput c m => Sys2Proof.Machine.execMonOutput c m s
  | .monMixWrite m c w => Sys2Proof.Machine.execMonMixWrite m c w s
  | .hkaConversion v aref => Sys2Proof.Machine.execHkaConversion v aref s
  | .trowelUpdate m => Sys2Proof.Machine.execTrowelUpdate m s
  | .trwAutoRun m => Sys2Proof.Machine.execTrwAutoRun m s
  | .trwAutoRecovery m => Sys2Proof.Machine.execTrwAutoRecovery m s
  | .ditherHalf m => Sys2Proof.Machine.execDitherHalf m s
  | .trwCmdOff m => Sys2Proof.Machine.execTrwCmdOff m s
  | .trwCmdStartup m => Sys2Proof.Machine.execTrwCmdStartup m s
  | .trwCmdRun m => Sys2Proof.Machine.execTrwCmdRun m s
  | .trwCmdTest m => Sys2Proof.Machine.execTrwCmdTest m s
  | .trwCmdRecovery m => Sys2Proof.Machine.execTrwCmdRecovery m s
  | .stipNone m => Sys2Proof.Machine.execStipNone m s
  | .stipSine m => Sys2Proof.Machine.execStipSine m s
  | .stipSquare m => Sys2Proof.Machine.execStipSquare m s
  | .stipPrbs m => Sys2Proof.Machine.execStipPrbs m s
  | .stipSwept m => Sys2Proof.Machine.execStipSwept m s
  | .stipDone m => Sys2Proof.Machine.execStipDone m s
  | .capNone => Sys2Proof.Machine.execCapNone s
  | .capArm => Sys2Proof.Machine.execCapArm s
  | .capDisarm => Sys2Proof.Machine.execCapDisarm s
  | .capRelease => Sys2Proof.Machine.execCapRelease s
  | .capForce => Sys2Proof.Machine.execCapForce s
  | .capSched => Sys2Proof.Machine.execCapSched s
  | .stencilCountLimit m => Sys2Proof.Machine.execStencilCountLimit m s
  | .stencilTimeout m => Sys2Proof.Machine.execStencilTimeout m s
  | .prefillComplete m => Sys2Proof.Machine.execPrefillComplete m s
  | .pendingTriggerCycle m => Sys2Proof.Machine.execPendingTriggerCycle m s
  | .scheduleFire at_ => Sys2Proof.Machine.execScheduleFire at_ s
  | .captureComplete m => Sys2Proof.Machine.execCaptureComplete m s
  | .captureRearm => Sys2Proof.Machine.execCaptureRearm s
  | .referenceQualify r => Sys2Proof.Machine.execReferenceQualify r s
  | .refLoss r => Sys2Proof.Machine.execRefLoss r s
  | .coast p => Sys2Proof.Machine.execCoast p s
  | .pllLock p => Sys2Proof.Machine.execPllLock p s
  | .forcedSw mux => Sys2Proof.Machine.execForcedSw mux s
  | .rstNone m w => Sys2Proof.Machine.execRstNone m w s
  | .warmReset m => Sys2Proof.Machine.execWarmReset m s
  | .fullReset m => Sys2Proof.Machine.execFullReset m s
  | .pinReset ns => Sys2Proof.Machine.execPinReset ns s
  | .por => Sys2Proof.Machine.execPor s
  | .pwrNone m => Sys2Proof.Machine.execPwrNone m s
  | .domOn m first count => Sys2Proof.Machine.execDomOn m first count s
  | .domOff m first count => Sys2Proof.Machine.execDomOff m first count s
  | .pwrState m st => Sys2Proof.Machine.execPwrState m st s
  | .pwrRequestStart => Sys2Proof.Machine.execPwrRequestStart s
  | .domainSwitch => Sys2Proof.Machine.execDomainSwitch s
  | .powerGoodTimeout => Sys2Proof.Machine.execPowerGoodTimeout s
  | .pwrRequestDone => Sys2Proof.Machine.execPwrRequestDone s
  | .pointOfNoReturn => Sys2Proof.Machine.execPointOfNoReturn s
  | .wake src => Sys2Proof.Machine.execWake src s
  | .wakeTimer => Sys2Proof.Machine.execWakeTimer s
  | .wakeRetry cause => Sys2Proof.Machine.execWakeRetry cause s
  | .brownout => Sys2Proof.Machine.execBrownout s
  | .supWarn rail => Sys2Proof.Machine.execSupWarn rail s
  | .supplyWarningClear rail => Sys2Proof.Machine.execSupplyWarningClear rail s
  | .supReset rail => Sys2Proof.Machine.execSupReset rail s
  | .scrubVisit => Sys2Proof.Machine.execScrubVisit s
  | .tstNone m mem => Sys2Proof.Machine.execTstNone m mem s
  | .readRaw m mem => Sys2Proof.Machine.execReadRaw m mem s
  | .writeData m mem => Sys2Proof.Machine.execWriteData m mem s
  | .writeCheck m mem => Sys2Proof.Machine.execWriteCheck m mem s
  | .writeBoth m mem => Sys2Proof.Machine.execWriteBoth m mem s
  | .memLogPop m => Sys2Proof.Machine.execMemLogPop m s
  | .memLock m w => Sys2Proof.Machine.execMemLock m w s
  | .release m w => Sys2Proof.Machine.execRelease m w s
  | .powerupSelfTest slice r => Sys2Proof.Machine.execPowerupSelfTest slice r s
  | .selfTestEnd us => Sys2Proof.Machine.execSelfTestEnd us s
  | .isMemory => Sys2Proof.Machine.execIsMemory s
  | .isLogic idle => Sys2Proof.Machine.execIsLogic idle s
  | .isSlice => Sys2Proof.Machine.execIsSlice s
  | .isSliceEnd fail addr last res => Sys2Proof.Machine.execIsSliceEnd fail addr last res s
  | .lcsMove m w => Sys2Proof.Machine.execLcsMove m w s
  | .scanEnable => Sys2Proof.Machine.execScanEnable s
  | .loadBegin m slotB => Sys2Proof.Machine.execLoadBegin m slotB s
  | .loadVerify m slotB => Sys2Proof.Machine.execLoadVerify m slotB s
  | .secLoadDataWrite m w => Sys2Proof.Machine.execSecLoadDataWrite m w s
  | .imageVerifyDone => Sys2Proof.Machine.execImageVerifyDone s
  | .boot words => Sys2Proof.Machine.execBoot words s
  | .scrimBootTimeout => Sys2Proof.Machine.execScrimBootTimeout s
  | .secArbAdv m w => Sys2Proof.Machine.execSecArbAdv m w s
  | .secRevoke m w => Sys2Proof.Machine.execSecRevoke m w s
  | .attGo m => Sys2Proof.Machine.execAttGo m s
  | .attestationDone => Sys2Proof.Machine.execAttestationDone s
  | .spiRead a at_ => Sys2Proof.Machine.execSpiRead a at_ s
  | .spiWrite a w => Sys2Proof.Machine.execSpiWrite a w s
  | .spiMalformedFrame octets at_ => Sys2Proof.Machine.execSpiMalformedFrame octets at_ s
  | .i3cPrivateWrite target data err => Sys2Proof.Machine.execI3cPrivateWrite target data err s
  | .i3cPrivateRead target octets at_ => Sys2Proof.Machine.execI3cPrivateRead target octets at_ s
  | .entdaa won da => Sys2Proof.Machine.execEntdaa won da s
  | .setdasa target da => Sys2Proof.Machine.execSetdasa target da s
  | .setnewda target da => Sys2Proof.Machine.execSetnewda target da s
  | .rstdaa => Sys2Proof.Machine.execRstdaa s
  | .enec => Sys2Proof.Machine.execEnec s
  | .disec => Sys2Proof.Machine.execDisec s
  | .getpid target => Sys2Proof.Machine.execGetpid target s
  | .getbcr target => Sys2Proof.Machine.execGetbcr target s
  | .getdcr target => Sys2Proof.Machine.execGetdcr target s
  | .getstatus target => Sys2Proof.Machine.execGetstatus target s
  | .ibiRequest acked => Sys2Proof.Machine.execIbiRequest acked s
  | .extest cells => Sys2Proof.Machine.execExtest cells s
  | .idcode => Sys2Proof.Machine.execIdcode s
  | .samplePreload cells => Sys2Proof.Machine.execSamplePreload cells s
  | .clamp => Sys2Proof.Machine.execClamp s
  | .highz => Sys2Proof.Machine.execHighz s
  | .extestPulse cells => Sys2Proof.Machine.execExtestPulse cells s
  | .extestTrain cells => Sys2Proof.Machine.execExtestTrain cells s
  | .bypass code => Sys2Proof.Machine.execBypass code s
  | .regAccess dr at_ => Sys2Proof.Machine.execRegAccess dr at_ s
  | .rcRead m a at_ => Sys2Proof.Machine.execRcRead m a at_ s
  | .snRead m a at_ => Sys2Proof.Machine.execSnRead m a at_ s
  | .registerWrite m a w => Sys2Proof.Machine.execRegisterWrite m a w s
  | .hostSignalDetectChange n amp => Sys2Proof.Machine.execHostSignalDetectChange n amp s
  | .undefinedOpcode w => Sys2Proof.Machine.execUndefinedOpcode w s

end Sys2Proof.Machine
end

