-- ==== Sys2Proof/WellFormed.lean ====
section
/-! DEFINITION. Which commands the outside world can form: the lengths of the lists that an operand holds. Every other operand is of a
type that holds nothing but what the specification admits. `exec` gives a meaning to every command, well formed or not. -/
namespace Sys2Proof

/-- No codes, or whole line DSP cycles of 64 codes: at least the four ahead of the span, one in it and the two after it. -/
def RxCodes.wellFormed (r : RxCodes) : Bool := decide (r.codes = [] ∨ (r.codes.length % 64 = 0 ∧ 448 ≤ r.codes.length))

/-- One entry for each slice, physical host receiver, line transmit PLL, physical host transmitter and line lane. -/
def Span.wellFormed (m : Span) : Bool :=
  decide (m.rx.length = 9 ∧ m.host.length = 16 ∧ m.cycles.length = 2 ∧ m.sent.length = 16 ∧ m.lats.length = 8) && m.rx.all RxCodes.wellFormed

/-- The adapted FFE taps c(−2) to c(5) and DFE taps 1 to 3 (R163). -/
def HostMeas.wellFormed (m : HostMeas) : Bool := decide (m.ffe.length = 8 ∧ m.dfe.length = 3)

/-- One entry for each slice, host lane, lane and link; the interleave estimates of a slice may be absent. -/
def TickMeas.wellFormed (m : TickMeas) : Bool :=
  m.span.wellFormed && decide (m.icorr.length = 9 ∧ m.hosts.length = 16 ∧ m.tmarks.length = 10) &&
  m.icorr.all (fun l => decide (l = [] ∨ l.length = 196)) && m.hosts.all HostMeas.wellFormed

/-- The trims of 64 sub-ADCs and four first-rank circuits, with codes in their ranges (R312), and their residuals. -/
def CalMeas.wellFormed (m : CalMeas) : Bool :=
  decide (m.off.length = 64 ∧ m.gain.length = 64 ∧ m.skew.length = 64 ∧ m.bw.length = 4 ∧ m.res.length = 196) &&
  m.off.all (fun v => decide (v.natAbs ≤ 31)) && m.gain.all (fun v => decide (v.natAbs ≤ 31)) &&
  m.skew.all (fun v => decide (v.natAbs ≤ 63)) && m.bw.all (fun v => decide (0 ≤ v ∧ v ≤ 31))

/-- The lists of a self-test slice's findings, where it has any: the calibrations of nine slices, 32 words of TX_DAC_TRIMm, 57 delays. -/
def SelfTest.wellFormed (r : SelfTest) : Bool :=
  decide (r.cals = [] ∨ r.cals.length = 9) && (r.cals.all fun p => p.1.wellFormed && p.2.wellFormed) &&
  decide ((r.dac = [] ∨ r.dac.length = 32) ∧ (r.dly = [] ∨ r.dly.length = 57))

/-- R296: the pairs of a journal's plan lie in words 16 to 4,095 of RB3. -/
def plansFit (p : List (List (BitVec 24 × Word))) : Bool := decide (2 * p.flatten.length ≤ 4080)

/-- The command is one that the outside world can form. -/
def Instr.wellFormed : Instr → Bool
  | .tickBoundary m => m.wellFormed
  | .applicationBoundary _ m => m.wellFormed
  | .linePatLock _ _ m => m.wellFormed
  | .linePatResync _ _ m => m.wellFormed
  | .floatSwap m => m.wellFormed
  | .abruptReturnSwap m => m.wellFormed
  | .takeoverSwap m => m.wellFormed
  | .trLockWindow m => m.wellFormed
  | .amLockGained _ m => m.wellFormed
  | .amLockLost _ m => m.wellFormed
  | .codewordDecode _ _ _ rx cand => rx.wellFormed && decide (rx.codes ≠ []) && cand.wellFormed
  | .outerCodeword _ _ syms => decide (syms.length = 544)
  | .tteFrame f => decide (4 ≤ f.data.length)
  | .modeCommand _ before _ => plansFit before
  | .profileCommand _ plan _ => plansFit plan
  | .fcalDone _ first again => first.wellFormed && again.wellFormed
  | .monOutput _ m => m.wellFormed
  | .stencilCountLimit m => m.wellFormed
  | .stencilTimeout m => m.wellFormed
  | .prefillComplete m => m.wellFormed
  | .pendingTriggerCycle m => m.wellFormed
  | .captureComplete m => m.wellFormed
  | .isSliceEnd _ _ _ res => decide (res = [] ∨ res.length = 196)
  | .powerupSelfTest _ r => r.wellFormed
  | .spiMalformedFrame octets _ => decide (octets ≠ [])
  | .setApply .. | .ltxRefMove .. | .huntMarkerMatch .. | .expectedMarker ..
  | .standardAlignmentChange .. | .formatProbeStart .. | .farFmtFound .. | .probeWindowEnd ..
  | .signalDetectChange .. | .migCmdNone .. | .floatCal .. | .migrate .. | .floatReturn ..
  | .floatAbort .. | .observeRx .. | .observeTx .. | .retire .. | .convergeDone .. | .convTimeout ..
  | .agreeWindowEnd .. | .sliceFaultDetect ..
  | .takeoverTimeout .. | .noiseMeasureStart .. | .noiseDone .. | .adaptTrackEntry ..
  | .reacquire .. | .outerLockChange .. | .maskSquelch .. | .squelchSettleEnd .. | .txobsAlignSearch ..
  | .txobsPeriodPublish .. | .hostCdrLockChange .. | .adjNone .. | .adjLoad ..
  | .adjStep .. | .adjSlew .. | .adjMeasure .. | .slewEnd .. | .ppsInEdge .. | .servoUpdate .. | .sourceLoss ..
  | .holdoverExpired .. | .evtInputEdge .. | .evtArm .. | .evtOutputPulse .. | .ppsOutPulse ..
  | .departurePostcheck .. | .flowSweep .. | .fltNop .. | .fltCopy .. | .fltInvalidate .. | .fltFlush ..
  | .fltFlushDone .. | .rngPiWrite .. | .rngCiWrite .. | .ringWindowWrite .. | .scrimSyncGain .. | .scrimSyncLoss ..
  | .ebSlip .. | .scrimBadFrame .. | .scrimForward .. | .hello .. | .ack .. | .nak .. | .timeFrame .. | .regRd ..
  | .regWr .. | .regRsp .. | .trigAt .. | .bootReq .. | .bootData .. | .bootEnd .. | .loopCmd .. | .loopRsp .. | .userMessage .. | .helloSend .. | .helloLoss .. | .retxTimeout .. | .tmarkRx .. | .proxyGo ..
  | .proxyTimeout .. | .trigRx .. | .bootReqSend .. | .fabricTxSend .. | .loopSlip .. | .nop .. | .add .. | .adds ..
  | .sub .. | .subs .. | .opAnd .. | .opOr .. | .opXor .. | .shl .. | .shr .. | .sra .. | .opMin .. | .opMax ..
  | .minu .. | .maxu .. | .addi .. | .addsi .. | .subi .. | .subsi .. | .andi .. | .ori .. | .xori .. | .shli ..
  | .shri .. | .srai .. | .mini .. | .maxi .. | .minui .. | .maxui .. | .movlo .. | .movhi .. | .getf .. | .putf ..
  | .clrs .. | .mul .. | .mac .. | .macs .. | .msu .. | .msus .. | .asr .. | .asl .. | .round .. | .norm ..
  | .accget .. | .accput .. | .ld .. | .st .. | .inp .. | .outp .. | .stg .. | .opSet .. | .br .. | .jr .. | .call ..
  | .ret .. | .opTick .. | .waite .. | .waiteEnd .. | .opBrk .. | .push .. | .pop .. | .trc .. | .pwr ..
  | .setCheckDone .. | .taskRunStart .. | .wdogExpiry .. | .seqFault .. | .wdogWrite .. | .haltReq .. | .seqStep ..
  | .seqDbgAccess .. | .seqDoorbell .. | .pmcCntWrite .. | .clrAll .. | .seqTaskWrite .. | .setCmdGo .. | .ping ..
  | .regRead .. | .setCommand .. | .dpsCommand .. | .lowPowerCommand .. | .floatCommand .. | .timeCommand ..
  | .loopCommand .. | .captureCommand .. | .imageSwap .. | .imageInfo .. | .unfreeze .. | .jnlAbort ..
  | .unknownOp .. | .imageDefinedCommand .. | .jnlOpen .. | .jnlStep .. | .jnlOpAbort .. | .jnlDataWrite ..
  | .jnlRoll .. | .swapReq .. | .swapExecute .. | .confirm .. | .trialTimeout .. | .sensorPublish ..
  | .throttleApply .. | .bandApply .. | .thermalShutdown .. | .thermalRestart .. | .fcalStart .. | .monMixWrite ..
  | .hkaConversion .. | .trowelUpdate .. | .trwAutoRun .. | .trwAutoRecovery .. | .ditherHalf .. | .trwCmdOff ..
  | .trwCmdStartup .. | .trwCmdRun .. | .trwCmdTest .. | .trwCmdRecovery .. | .stipNone .. | .stipSine ..
  | .stipSquare .. | .stipPrbs .. | .stipSwept .. | .stipDone .. | .capNone .. | .capArm .. | .capDisarm ..
  | .capRelease .. | .capForce .. | .capSched .. | .scheduleFire .. | .captureRearm .. | .referenceQualify ..
  | .refLoss .. | .coast .. | .pllLock .. | .forcedSw .. | .rstNone .. | .warmReset .. | .fullReset .. | .pinReset ..
  | .por .. | .pwrNone .. | .domOn .. | .domOff .. | .pwrState .. | .pwrRequestStart .. | .domainSwitch ..
  | .powerGoodTimeout .. | .pwrRequestDone .. | .pointOfNoReturn .. | .wake .. | .wakeTimer .. | .wakeRetry ..
  | .brownout .. | .supWarn .. | .supplyWarningClear .. | .supReset .. | .scrubVisit .. | .tstNone .. | .readRaw ..
  | .writeData .. | .writeCheck .. | .writeBoth .. | .memLogPop .. | .memLock .. | .release .. | .selfTestEnd ..
  | .isMemory .. | .isLogic .. | .isSlice .. | .lcsMove .. | .scanEnable .. | .loadBegin ..
  | .loadVerify .. | .secLoadDataWrite .. | .imageVerifyDone .. | .scrimBootTimeout .. | .secArbAdv ..
  | .secRevoke .. | .attGo .. | .attestationDone .. | .spiRead .. | .spiWrite .. | .i3cPrivateWrite ..
  | .i3cPrivateRead .. | .entdaa .. | .setdasa .. | .setnewda .. | .rstdaa .. | .enec .. | .disec .. | .getpid ..
  | .getbcr .. | .getdcr .. | .getstatus .. | .ibiRequest .. | .extest .. | .idcode .. | .samplePreload ..
  | .clamp .. | .highz .. | .extestPulse .. | .extestTrain .. | .boot .. | .bypass .. | .regAccess .. | .rcRead .. | .snRead ..
  | .registerWrite .. | .hostSignalDetectChange .. | .undefinedOpcode .. => true

end Sys2Proof
end

