-- ==== Sys2Proof/Safety.lean ====
section
/-! DEFINITION. What every state that the device can be in has in common: the register files and the protected memories keep their
canonical form, and what there is a fixed number of keeps that number. -/
namespace Sys2Proof

/-- The command is an instruction that the Quaran issues. -/
def Instr.isQuaran : Instr → Bool
  | .nop | .add .. | .adds .. | .sub .. | .subs .. | .opAnd .. | .opOr .. | .opXor .. | .shl .. | .shr .. | .sra .. | .opMin .. |
    .opMax .. | .minu .. | .maxu .. | .addi .. | .addsi .. | .subi .. | .subsi .. | .andi .. | .ori .. | .xori .. | .shli .. |
    .shri .. | .srai .. | .mini .. | .maxi .. | .minui .. | .maxui .. | .movlo .. | .movhi .. | .getf .. | .putf .. | .clrs |
    .mul .. | .mac .. | .macs .. | .msu .. | .msus .. | .asr .. | .asl .. | .round .. | .norm .. | .accget .. | .accput .. | .ld
    .. | .st .. | .inp .. | .outp .. | .stg .. | .opSet .. | .br .. | .jr .. | .call .. | .ret | .opTick .. | .waite .. | .opBrk
    | .push .. | .pop .. | .trc .. | .pwr .. | .undefinedOpcode .. => true
  | _ => false

end Sys2Proof

namespace Sys2Proof.Machine

/-- The canonical form of protected memory `m`: addresses strictly rising, and nothing listed that an unlisted word or page would read as.
The coefficient store holds the undercoat itself: it lists no page, and any word that test mode wrote. -/
abbrev Mem.wf (m : Nat) (x : Mem) : Prop :=
  x.cells.Pairwise (fun a b => a.1 < b.1) ∧ (m ≠ memCOEF → ∀ c ∈ x.cells, c.2 ≠ ⟨0, 0⟩) ∧
  x.pages.Pairwise (fun a b => a.1 < b.1) ∧ (∀ p ∈ x.pages, p.2 ≠ Page.zero) ∧ (m = memCOEF → x.pages = [])

/-- The canonical form of the thirteen memories of R405. -/
abbrev MemSt.wf (x : MemSt) : Prop := x.mems.length = 13 ∧ ∀ m < 13, Mem.wf m (x.mems.getD m ⟨[], []⟩)

namespace State

/-- The numbers of what there is a fixed number of: frame locks, slices, lanes, calibrations, logical and physical host lanes, monitor
channels, loops, command channels, words and accumulators of the sequencer. -/
abbrev shape (s : State) : List Nat :=
  [s.frames.length, s.slices.length, s.lanes.length, s.cals.length, s.hlanes.length, s.hrx.length, s.mons.length, s.loops.length,
   s.cmds.length, s.seq.w.length, s.seq.acc.length]

/-- Those numbers in the specification. -/
abbrev shapeStd : List Nat := [9, 9, 8, 9, 16, 16, 4, 16, 8, 32, 2]

/-- The form that every step keeps. -/
abbrev wf (s : State) : Prop :=
  RegFile.wf s.live ∧ RegFile.wf s.under ∧ RegFile.wf s.inUse ∧ RegFile.wf s.applied ∧ MemSt.wf s.mem ∧ s.shape = shapeStd

/-! What claims say of one command: which registers a count of performance may change, and how an instruction of the Quaran ends. -/

/-- The addresses of the performance counters and of their saturation bits (R274). -/
abbrev countsAt (a : Nat) : Prop := a = 0x4B0001 ∨ a = 0x4B0002 ∨ (0x4B0200 ≤ a ∧ a < 0x4B0240)

/-- No register but a performance counter differs. -/
abbrev sameButCounts (u t : State) : Prop := ∀ a, ¬ countsAt a → t.liveAt a = u.liveAt a

/-- The sequencer issues the instruction of a command: a run is current, its tick has a cycle left, and the word at its PC can be used. -/
abbrev canIssue (s : State) : Prop := s.wf ∧ s.issues = true ∧ s.fetch.2.1 = true

/-- From `u` the instruction's end leaves the sequencer as `q` says, but for its cycle account, the sources it presented last and its interlock history, counts
performance, and changes nothing else. -/
abbrev retires (u t : State) (q : Seq) : Prop :=
  t = { u with seq := t.seq, live := t.live } ∧
  t.seq = { q with cyc := t.seq.cyc, edge := t.seq.edge, ldRd := t.seq.ldRd, mac1 := t.seq.mac1, mac2 := t.seq.mac2 } ∧ sameButCounts u t

/-! What claims say of a write that an interface carries to the register bus (R443, R449, R451, R471, R482). -/

/-- What the interface of `q` keeps of a write at `a` that has had its effect with status `st` on the register bus. -/
def wrote (s : State) (q : Requester) (st a : Nat) : State :=
  match q with
  | .spi => s.ibiRefresh.spiDone st 1 a 0
  | .i3c => s.ibiRefresh.i3cDone ⟨1, st, a⟩
  | .jtag => s.ibiRefresh.jtagDone st a 0
  | .quaran => s.ibiRefresh
  | .scrim => (s.pmc 0x82).ibiRefresh

/-- What the interface of `q` keeps of a read at `a` that the register bus has answered with status `st` and word `w`. -/
def readDone (s : State) (q : Requester) (st a : Nat) (w : Word) : State :=
  match q with
  | .spi => s.ibiRefresh.spiDone st 1 a (if st = psOK then w else 0)
  | .i3c => (s.ibiRefresh.mgm fun x => { x with i3cData := [if st = psOK then w else 0] }).i3cDone ⟨1, st, a⟩
  | .jtag => s.ibiRefresh.jtagDone st a (if st = psOK then w else 0)
  | .quaran => s.ibiRefresh
  | .scrim => (s.pmc 0x82).ibiRefresh

/-- Nothing keeps an access by `q` from the register bus: the device is released, the master has a path and is not frozen. -/
abbrev busOpen (s : State) (q : Requester) : Prop :=
  s.released = true ∧ s.hasPath q = true ∧ s.frozen (masterOf q) = false

/-- A write by `q` at live address `a` reaches a register: nothing keeps it from the bus, and register `r` lies there, not fused off. -/
abbrev reaches (s : State) (q : Requester) (a : Nat) (r : Row) (i : List Nat) : Prop :=
  s.released = true ∧ s.hasPath q = true ∧ s.frozen (masterOf q) = false ∧ a < 0x800000 ∧ s.fusedAt a = false ∧ rowOf a = some (r, i)

/-- A write by `q` at live address `a` is permitted and meets a powered register. -/
abbrev mayWrite (s : State) (q : Requester) (a : Nat) : Prop :=
  ∃ r i, s.reaches q a r i ∧ s.writeCause (masterOf q) r a i = none ∧ s.domOn (domNum r a) = true

/-! What claims say of the command channels (R291, R292). -/

/-- The command at the head of channel `c`'s ring, and the state once it has been read and CI has passed it. -/
abbrev headCmd (s : State) (c : Nat) : HostCmd := cmdOf (s.cmdWords c).2 (s.get Reg.RNG_CI.INDEX [2 * c]) s.ticks
abbrev pastCmd (s : State) (c : Nat) : State := (s.cmdWords c).1.ringConsume (2 * c) 1

/-- Firmware holds command `h` of channel `c` in state `u`: it held it already, or takes it now, where who runs carries it out. -/
abbrev serves (s : State) (c : Nat) (h : HostCmd) (u : State) : Prop :=
  s.released = true ∧ s.fwRuns = true ∧
  ((s.cmdAt c = some h ∧ u = s) ∨
   (s.cmdAt c = none ∧ s.cmdWaits c = true ∧ h = s.headCmd c ∧ u = (s.pastCmd c).setCmd c (some h) ∧
    ((s.pastCmd c).seq.imageRuns = true ∨ romServes h.opcode = true)))

/-- A command that is still held 65,535 ticks after it was taken completes with TIMEOUT. -/
abbrev inTime (t : State) (c : Nat) : State :=
  match t.cmdAt c with
  | some g => if 65535 ≤ t.ticks - g.tick then t.cmdDone c g 5 else t
  | none => t

end State

/-- The words with word `rd` replaced; w0 takes no write. -/
abbrev Seq.withWord (q : Seq) (rd : Nat) (r : Word) : Seq := { q with w := if rd = 0 then q.w else q.w.set rd r }

/-- The next instruction of the running slot is to follow. -/
abbrev Seq.goesOn (q : Seq) : Seq := { q with pc := (q.pc + 1) % 32768 }

/-- A word result in rd with its flags (R253); the next instruction is to follow. -/
abbrev Seq.wordResult (q : Seq) (rd : Nat) (r : Word) (c v : Bool) : Seq :=
  { (q.withWord rd r).goesOn with z := decide (r = 0), n := r.msb, c := c, v := v }

/-- A result in accumulator `ac` with its flags (R253); the next instruction is to follow. -/
abbrev Seq.accResult (q : Seq) (ac : Nat) (r : BitVec 104) (v sat : Bool) : Seq :=
  { q.goesOn with acc := q.acc.set ac r, z := decide (r = 0), n := r.msb, c := false, v := v, sf := q.sf || sat }

end Sys2Proof.Machine
end

