-- ==== Sys2Proof/Certificates/Slice0/Obligations.lean ====
section
/-! DEFINITION. What the model is claimed to do, one statement for each group of rules. A statement about a command says that it completes
and in which state; `Sys2Proof.Safety` defines what the statements share. -/

open Sys2Proof Sys2Proof.Machine

/-- R258 (with R253 and R256): ADD, ADDS, SUB, SUBS and their immediate forms, MUL, MAC, MACS, MSU and MSUS. -/
def Obligations.QuaranExactArithmetic : Prop :=
  ∀ (s : State) (ra rb : Fin 32), s.canIssue →
  (∀ (rd : Fin 32) (b : Word) (plain sat lessPlain lessSat : Instr),
    (plain = .add rd ra rb ∧ sat = .adds rd ra rb ∧ lessPlain = .sub rd ra rb ∧ lessSat = .subs rd ra rb ∧ b = s.wreg rb) ∨
    (∃ imm : BitVec 30, plain = .addi rd ra imm ∧ sat = .addsi rd ra imm ∧ lessPlain = .subi rd ra imm ∧ lessSat = .subsi rd ra imm ∧
      b = imm.signExtend 48) →
    let a := s.wreg ra
    let limited (x : Int) : Int := if 2 ^ 47 - 1 < x then 2 ^ 47 - 1 else if x < -(2 ^ 47) then -(2 ^ 47) else x
    let outside (x : Int) : Bool := decide (2 ^ 47 - 1 < x) || decide (x < -(2 ^ 47))
    let sum : Int := a.toInt + b.toInt
    let dif : Int := a.toInt - b.toInt
    let sumC := decide (2 ^ 48 ≤ a.toNat + b.toNat)
    let difC := decide (2 ^ 48 ≤ a.toNat + (~~~b).toNat + 1)
    (∃ t, exec plain s = .next t ∧ s.fetch.1.retires t (s.seq.wordResult rd (BitVec.ofInt 48 sum) sumC (outside sum))) ∧
    (∃ t, exec sat s = .next t ∧ s.fetch.1.retires t
      { s.seq.wordResult rd (BitVec.ofInt 48 (limited sum)) sumC (outside sum) with sf := s.seq.sf || outside sum }) ∧
    (∃ t, exec lessPlain s = .next t ∧ s.fetch.1.retires t (s.seq.wordResult rd (BitVec.ofInt 48 dif) difC (outside dif))) ∧
    (∃ t, exec lessSat s = .next t ∧ s.fetch.1.retires t
      { s.seq.wordResult rd (BitVec.ofInt 48 (limited dif)) difC (outside dif) with sf := s.seq.sf || outside dif })) ∧
  (∀ (u : Bool) (ac : Fin 2),
    let product : Int := if u then (s.wreg ra).toNat * (s.wreg rb).toNat else (s.wreg ra).toInt * (s.wreg rb).toInt
    let more := (s.accAt ac).toInt + product
    let less := (s.accAt ac).toInt - product
    let limited (x : Int) : Int := if 2 ^ 103 - 1 < x then 2 ^ 103 - 1 else if x < -(2 ^ 103) then -(2 ^ 103) else x
    let outside (x : Int) : Bool := decide (2 ^ 103 - 1 < x) || decide (x < -(2 ^ 103))
    (∃ t, exec (.mul ra rb u ac) s = .next t ∧ (BitVec.ofInt 104 product).toInt = product ∧
      s.fetch.1.retires t (s.seq.accResult ac (BitVec.ofInt 104 product) false false)) ∧
    (∃ t, exec (.mac ra rb u ac) s = .next t ∧ s.fetch.1.retires t (s.seq.accResult ac (BitVec.ofInt 104 more) (outside more) false)) ∧
    (∃ t, exec (.msu ra rb u ac) s = .next t ∧ s.fetch.1.retires t (s.seq.accResult ac (BitVec.ofInt 104 less) (outside less) false)) ∧
    (∃ t, exec (.macs ra rb u ac) s = .next t ∧
      s.fetch.1.retires t (s.seq.accResult ac (BitVec.ofInt 104 (limited more)) (outside more) (outside more))) ∧
    (∃ t, exec (.msus ra rb u ac) s = .next t ∧
      s.fetch.1.retires t (s.seq.accResult ac (BitVec.ofInt 104 (limited less)) (outside less) (outside less))))

/-- R253 and R256: the instructions with a word result whose C and V are 0. R253 and R256: NOP and the instructions on the flags alone. -/
def Obligations.QuaranWordAndFlagMoves : Prop :=
  (
    ∀ (s : State) (rd ra : Fin 32), s.canIssue →
    let a := s.wreg ra
    let gives (c : Instr) (r : Word) : Prop := ∃ t, exec c s = .next t ∧ s.fetch.1.retires t (s.seq.wordResult rd r false false)
    let shifted (b : Word) (left right arith : Instr) : Prop :=
      let n := bits b.toNat 5 0
      gives left (if 48 ≤ n then 0 else BitVec.ofNat 48 (a.toNat * 2 ^ n)) ∧
      gives right (if 48 ≤ n then 0 else BitVec.ofNat 48 (a.toNat / 2 ^ n)) ∧
      gives arith (if 48 ≤ n then (if a.toInt < 0 then BitVec.allOnes 48 else 0) else BitVec.ofInt 48 (a.toInt / 2 ^ n))
    let chosen (b : Word) (least most leastU mostU : Instr) : Prop :=
      gives least (BitVec.ofInt 48 (min a.toInt b.toInt)) ∧ gives most (BitVec.ofInt 48 (max a.toInt b.toInt)) ∧
      gives leastU (BitVec.ofNat 48 (min a.toNat b.toNat)) ∧ gives mostU (BitVec.ofNat 48 (max a.toNat b.toNat))
    (∀ rb : Fin 32,
      let b := s.wreg rb
      gives (.opAnd rd ra rb) (a &&& b) ∧ gives (.opOr rd ra rb) (a ||| b) ∧ gives (.opXor rd ra rb) (a ^^^ b) ∧
      shifted b (.shl rd ra rb) (.shr rd ra rb) (.sra rd ra rb) ∧
      chosen b (.opMin rd ra rb) (.opMax rd ra rb) (.minu rd ra rb) (.maxu rd ra rb)) ∧
    (∀ imm : BitVec 30,
      let b := imm.signExtend 48
      gives (.andi rd ra imm) (a &&& b) ∧ gives (.ori rd ra imm) (a ||| b) ∧ gives (.xori rd ra imm) (a ^^^ b) ∧
      shifted b (.shli rd ra imm) (.shri rd ra imm) (.srai rd ra imm) ∧
      chosen b (.mini rd ra imm) (.maxi rd ra imm) (.minui rd ra imm) (.maxui rd ra imm)) ∧
    (∀ imm : BitVec 24, gives (.movlo rd imm) (BitVec.ofNat 48 imm.toNat) ∧
      gives (.movhi rd imm) (BitVec.ofNat 48 (imm.toNat * 2 ^ 24 + (s.wreg rd).toNat % 2 ^ 24)))) ∧
  (
    ∀ (s : State) (rd ra : Fin 32), s.canIssue →
    (∃ t, exec .nop s = .next t ∧ s.fetch.1.retires t s.seq.goesOn) ∧
    (∃ t, exec (.getf rd) s = .next t ∧ s.fetch.1.retires t ((s.seq.withWord rd
      (BitVec.ofNat 48 (16 * b2n s.seq.sf + 8 * b2n s.seq.v + 4 * b2n s.seq.c + 2 * b2n s.seq.n + b2n s.seq.z))).goesOn)) ∧
    (∃ t, exec (.putf ra) s = .next t ∧ s.fetch.1.retires t
      { s.seq.goesOn with
        sf := (s.wreg ra).getLsbD 4, v := (s.wreg ra).getLsbD 3, c := (s.wreg ra).getLsbD 2, n := (s.wreg ra).getLsbD 1
        z := (s.wreg ra).getLsbD 0 }) ∧
    (∃ t, exec .clrs s = .next t ∧ s.fetch.1.retires t { s.seq.goesOn with sf := false }))

/-- R259, with R256's rows ASR, ASL, ACCGET and ACCPUT. -/
def Obligations.QuaranAccumulatorForms : Prop :=
  ∀ (s : State) (rd ra : Fin 32) (ac : Fin 2) (sh : BitVec 7), s.canIssue →
  let acc := s.accAt ac
  let nearest (x r : Int) (n : Nat) : Prop := 2 * (x - r * 2 ^ n).natAbs ≤ 2 ^ n ∧ (2 * (x - r * 2 ^ n).natAbs = 2 ^ n → r % 2 = 0)
  (∀ w : BitVec 6,
    (1 ≤ w.toNat → w.toNat ≤ 48 → sh.toNat ≤ 103 → ∃ (t : State) (r : Int),
      exec (.round rd ac w sh) s = .next t ∧ nearest acc.toInt r sh.toNat ∧
      let hi : Int := 2 ^ (w.toNat - 1) - 1
      let lo : Int := -(2 ^ (w.toNat - 1))
      let out := decide (hi < r) || decide (r < lo)
      s.fetch.1.retires t { s.seq.wordResult rd (BitVec.ofInt 48 (if hi < r then hi else if r < lo then lo else r)) false out with
        sf := s.seq.sf || out }) ∧
    (w.toNat = 0 ∨ 48 < w.toNat ∨ 103 < sh.toNat → exec (.round rd ac w sh) s = .next (s.fetch.1.exception State.exILLEGAL 0))) ∧
  (∃ (t : State) (n : Nat), exec (.norm rd ac) s = .next t ∧ n ≤ 103 ∧
    (∀ j, 103 - n ≤ j → j ≤ 103 → acc.getLsbD j = acc.getLsbD 103) ∧ (n < 103 → acc.getLsbD (102 - n) ≠ acc.getLsbD 103) ∧
    s.fetch.1.retires t (s.seq.wordResult rd (BitVec.ofNat 48 n) false false)) ∧
  (∃ (t : State) (r : Int), exec (.asr ac sh) s = .next t ∧ nearest acc.toInt r sh.toNat ∧ (BitVec.ofInt 104 r).toInt = r ∧
    s.fetch.1.retires t (s.seq.accResult ac (BitVec.ofInt 104 r) false false)) ∧
  (∃ t, exec (.asl ac sh) s = .next t ∧
    let x := acc.toInt * 2 ^ sh.toNat
    s.fetch.1.retires t (s.seq.accResult ac (BitVec.ofInt 104 x) (decide (2 ^ 103 ≤ x) || decide (x < -(2 ^ 103))) false)) ∧
  (sh.toNat ≤ 2 →
    (∃ t, exec (.accget rd ac sh) s = .next t ∧ s.fetch.1.retires t ((s.seq.withWord rd
      (if sh.toNat = 0 then acc.extractLsb' 0 48 else if sh.toNat = 1 then acc.extractLsb' 48 48 else (acc.extractLsb' 96 8).signExtend 48)).goesOn)) ∧
    (∃ t, exec (.accput ra ac sh) s = .next t ∧ s.fetch.1.retires t { s.seq.goesOn with
      acc := s.seq.acc.set ac
        (if sh.toNat = 0 then acc.extractLsb' 48 56 ++ s.wreg ra
         else if sh.toNat = 1 then acc.extractLsb' 96 8 ++ s.wreg ra ++ acc.extractLsb' 0 48
         else (s.wreg ra).setWidth 8 ++ acc.extractLsb' 0 96) })) ∧
  (2 < sh.toNat → exec (.accget rd ac sh) s = .next (s.fetch.1.exception State.exILLEGAL 0) ∧
    exec (.accput ra ac sh) s = .next (s.fetch.1.exception State.exILLEGAL 0))

/-- R260: LD and ST. The word that an ST stores to is the one that `dmemAddr` gives. -/
def Obligations.QuaranDataMemory : Prop :=
  ∀ (s : State) (rd ra : Fin 32) (imm : BitVec 30), s.canIssue →
  let a := (s.wreg ra + imm.signExtend 48).toNat
  let u := s.fetch.1.whenB (s.fetch.1.isPageHit memDMEM a) State.isAbort
  (262143 < a → exec (.ld rd ra imm) s = .next (s.fetch.1.exception State.exDMEM_RANGE a) ∧
    exec (.st rd ra imm) s = .next (s.fetch.1.exception State.exDMEM_RANGE a)) ∧
  (a ≤ 262143 →
    ((u.memRead memDMEM a .quaran).2.1 = true → ∃ t, exec (.ld rd ra imm) s = .next t ∧
      (u.memRead memDMEM a .quaran).1.retires t (s.seq.withWord rd (u.memRead memDMEM a .quaran).2.2).goesOn) ∧
    ((u.memRead memDMEM a .quaran).2.1 = false →
      exec (.ld rd ra imm) s = .next ((u.memRead memDMEM a .quaran).1.exception State.exDMEM_UNC a)) ∧
    ((u.cell memDMEM a).syndrome = 0 → u.poisoned memDMEM a = false →
      u.memRead memDMEM a .quaran = (u, true, (u.cell memDMEM a).data)) ∧
    (∃ t, exec (.st rd ra imm) s = .next t ∧ (u.memWrite memDMEM a (s.wreg rd) .quaran).retires t s.seq.goesOn ∧
      t.cell memDMEM a = Cell.of (s.wreg rd) ∧
      ((u.cell memDMEM a).syndrome = 0 → (u.page memDMEM (a / 64)).badChecks = [] → ∀ m b, m ≠ memDMEM ∨ b ≠ a → t.cell m b = u.cell m b)))

/-- R257, with R256's rows JR, CALL and RET. -/
def Obligations.QuaranBranches : Prop :=
  ∀ (s : State) (ra cond : Fin 32) (target : BitVec 15), s.canIssue →
  let q := s.seq
  let taken : List Bool := [true, q.z, !q.z, q.n != q.v, q.n == q.v, !q.z && (q.n == q.v), q.z || (q.n != q.v), !q.c, q.c, q.v, q.sf, !q.v]
  (∀ h : cond.val < taken.length, ∃ t, exec (.br cond target) s = .next t ∧
    s.fetch.1.retires t { q with pc := if taken[cond.val] then target.toNat else (q.pc + 1) % 32768 }) ∧
  (12 ≤ cond.val → exec (.br cond target) s = .next (s.fetch.1.exception State.exILLEGAL 0)) ∧
  (∃ t, exec (.jr ra) s = .next t ∧ s.fetch.1.retires t { q with pc := bits (s.wreg ra).toNat 14 0 }) ∧
  (q.stack.length < 16 → ∃ t, exec (.call target) s = .next t ∧
    s.fetch.1.retires t { q with pc := target.toNat, stack := ((q.pc + 1) % 32768) :: q.stack }) ∧
  (16 ≤ q.stack.length → exec (.call target) s = .next (s.fetch.1.exception State.exSTACK 0)) ∧
  (∀ p rest, q.stack = p :: rest → ∃ t, exec .ret s = .next t ∧ s.fetch.1.retires t { q with pc := p % 32768, stack := rest }) ∧
  (q.stack = [] → exec .ret s = .next (s.fetch.1.exception State.exSTACK 0))

/-- R261 to R263: the port instructions. -/
def Obligations.QuaranPorts : Prop :=
  ∀ (s : State) (rd ra : Fin 32) (a24 : BitVec 24) (at_ : Instant) (wait : Fin 13) (held : BitVec 10), s.canIssue →
  let u := s.fetch.1
  let a := ((s.wreg ra).toNat + a24.toNat) % 2 ^ 24
  (∃ t, exec (.inp rd ra a24 at_ wait) s = .next t ∧
    let r := (u.pmc 0x10).portRead .quaran a at_.toNat
    let st := if r.2.1 = 6 then 0 else r.2.1
    r.1.retires t { (r.1.seq.withWord rd r.2.2).goesOn with pstat := st, c := decide (st ≠ 0) }) ∧
  (a < 0x800000 →
    let r := (u.pmc 0x11).portWrite .quaran a (s.wreg rd)
    let st := if r.2 = 6 then 0 else r.2
    (r.2 ≠ 3 → ∃ t, exec (.outp rd ra a24 wait held) s = .next t ∧
      r.1.ibiRefresh.retires t { r.1.seq.goesOn with pstat := st, c := decide (st ≠ 0) }) ∧
    (r.2 = 3 → exec (.outp rd ra a24 wait held) s =
      .next (((r.1.portStat 3).ibiRefresh.slots 0x05 (6 + wait) [0x09]).exception State.exPORT_VIOL a))) ∧
  (∀ (c : Instr) (l : Nat), (c = .stg rd ra a24 wait held ∧ l = a) ∨ (c = .outp rd ra a24 wait held ∧ 0x800000 ≤ a ∧ l = a - 0x800000) →
    (stagedAt l = false → exec c s = .next (u.exception State.exPORT_STG l)) ∧
    (stagedAt l = true →
      let r := (u.pmc 0x11).portWrite .quaran (l + 0x800000) (s.wreg rd)
      let st := if r.2 = 6 then 0 else r.2
      (r.2 ≠ 3 → ∃ t, exec c s = .next t ∧
        r.1.ibiRefresh.retires t { r.1.seq.goesOn with pstat := st, c := decide (st ≠ 0) }) ∧
      (r.2 = 3 → ∃ v : State, exec c s = .next (v.exception State.exPORT_VIOL (l + 0x800000)) ∧
        v = { r.1 with live := v.live, mgmt := v.mgmt, seq := v.seq } ∧
        v.seq = { r.1.seq with cyc := v.seq.cyc, edge := v.seq.edge, pstat := 3, c := true } ∧ r.1.sameButCounts v)))

/-- R264 and R268: SET and PWR. R265: WAITE, and the end of its wait. -/
def Obligations.QuaranRequestsAndWaits : Prop :=
  (
    ∀ (s : State) (rd ra : Fin 32), s.canIssue →
    let u := s.fetch.1
    let answered (base : State) (c : Instr) (ok : Bool) : Prop := ∃ t, exec c s = .next t ∧
      base.retires t { (s.seq.withWord rd (if ok then 0 else 1)).goesOn with z := ok }
    (u.set.check = none → u.get Reg.JNL_STAT.STATE < 2 →
      let v := u.startCheck .quaran State.ckPLAIN
      answered v (.opSet rd) true ∧
      v.set.check = some ⟨(u.set.count + 1) % 65536, .quaran, u.under, State.ckPLAIN, u.set.marks⟩ ∧ v.get Reg.SET_STATUS.STATE = 1 ∧
      v.get Reg.SET_STATUS.MASTER = 3) ∧
    (u.set.check ≠ none ∨ 2 ≤ u.get Reg.JNL_STAT.STATE → answered u (.opSet rd) false) ∧
    (u.pwr.req = none → bits (s.wreg ra).toNat 47 44 ≠ 0 →
      let v := u.pwrRequest .quaran (s.wreg ra)
      answered v (.pwr rd ra) true ∧ v.get Reg.PWR_STAT.BUSY = 1 ∧
      v.pwr.req = some ⟨s.wreg ra, .quaran, false, false, [], [], 0, prOK, false⟩) ∧
    (u.pwr.req = none → bits (s.wreg ra).toNat 47 44 = 0 → answered u (.pwr rd ra) true) ∧
    (u.pwr.req ≠ none → answered u (.pwr rd ra) false)) ∧
  (
    let ended (u t : State) (q : Seq) (rd : Nat) (mask : Word) : Prop :=
      let got := u.get Reg.SEQ_EVPEND.PEND &&& mask.toNat
      t = { u with seq := t.seq, live := t.live } ∧
      t.seq = { (q.withWord rd (BitVec.ofNat 48 got)).goesOn with
        z := decide (got = 0), waiting := none, cyc := t.seq.cyc, edge := t.seq.edge, ldRd := t.seq.ldRd, mac1 := t.seq.mac1, mac2 := t.seq.mac2 } ∧
      (∀ i, (t.get Reg.SEQ_EVPEND.PEND).testBit i = ((u.get Reg.SEQ_EVPEND.PEND).testBit i && !mask.getLsbD i)) ∧
      (∀ a, ¬ State.countsAt a → a ≠ Reg.SEQ_EVPEND.base → t.liveAt a = u.liveAt a)
    (∀ (s : State) (rd ra : Fin 32) (limit : BitVec 16), s.canIssue →
      let u := s.fetch.1
      let m := s.wreg ra
      (u.get Reg.SEQ_EVPEND.PEND &&& m.toNat ≠ 0 ∨ limit = 0 →
        ∃ t, exec (.waite rd ra limit) s = .next t ∧ ended u t s.seq rd m) ∧
      (u.get Reg.SEQ_EVPEND.PEND &&& m.toNat = 0 → limit ≠ 0 →
        exec (.waite rd ra limit) s = .next { u with seq := { u.seq with waiting := some (rd, m, limit.toNat) } })) ∧
    (∀ (s : State) (n : BitVec 16) (rd left : Nat) (m : Word), s.wf → s.released = true → s.seq.waiting = some (rd, m, left) →
      s.seq.run.isSome = true → s.seq.suspended = false → s.seq.halted = false → s.seq.resetting = false → s.seq.clkStopped = false →
      (s.get Reg.SEQ_EVPEND.PEND &&& m.toNat ≠ 0 ∨ left ≤ n.toNat → ∃ t, exec (.waiteEnd n) s = .next t ∧ ended s t s.seq rd m) ∧
      (s.get Reg.SEQ_EVPEND.PEND &&& m.toNat = 0 → n.toNat < left → exec (.waiteEnd n) s = .next s)))

/-- R254, R256, R267, R272 and R255: TICK, BRK, TRC and a word that is no instruction. -/
def Obligations.QuaranRunEnds : Prop :=
  ∀ (s : State) (rd : Fin 32) (target : BitVec 15) (at_ : Instant) (w : BitVec 48), s.canIssue →
  let u := s.fetch.1
  (∀ slot, s.seq.run = some slot → ∃ t, exec (.opTick target) s = .next t ∧ t = { u with seq := t.seq, live := t.live } ∧
    t.seq = { s.seq with
      run := none, suspended := false, waiting := none, heldPush := [], heldPop := [], pc := target.toNat
      cyc := t.seq.cyc, edge := t.seq.edge, ldRd := t.seq.ldRd, mac1 := t.seq.mac1, mac2 := t.seq.mac2 } ∧
    t.get Reg.SEQ_TSTAT.RESUME [slot] = target.toNat ∧ t.get Reg.SEQ_TSTAT.PENDING [slot] = 0 ∧
    (∀ a, ¬ State.countsAt a → a ≠ Reg.SEQ_TSTAT.addr [slot] → t.liveAt a = u.liveAt a)) ∧
  (u.on Reg.SEQ_CTL.BRK_EN = true → ∃ t, exec .opBrk s = .next t ∧ t = { u with seq := t.seq, live := t.live } ∧
    t.seq = { s.seq.goesOn with halted := true, cyc := t.seq.cyc, edge := t.seq.edge, ldRd := t.seq.ldRd, mac1 := t.seq.mac1, mac2 := t.seq.mac2 } ∧
    t.get Reg.SEQ_CTL.HALT_REQ = 1 ∧ t.get Reg.SEQ_EVT.HALTED = 1 ∧
    (∀ a, ¬ State.countsAt a → a ≠ Reg.SEQ_CTL.base → a ≠ Reg.SEQ_EVT.base → t.liveAt a = u.liveAt a)) ∧
  (u.on Reg.SEQ_CTL.BRK_EN = false → exec .opBrk s = .next (u.exception State.exBRK 0)) ∧
  (u.get Reg.SEQ_TRC_CFG.RING = 0 → ∃ t, exec (.trc rd at_) s = .next t ∧ u.retires t s.seq.goesOn) ∧
  (u.get Reg.SEQ_TRC_CFG.RING ≠ 0 → ∃ t, exec (.trc rd at_) s = .next t ∧
    let time := u.timeAt at_.toNat
    let v := u.enterRecord (u.get Reg.SEQ_TRC_CFG.RING) State.ringEVENT
      [[BitVec.ofNat 48 (5 * 2 ^ 44 + s.seq.task * 2 ^ 15 + s.seq.pc), State.secWord time, State.nsWord time, s.wreg rd]]
    v.retires t v.seq.goesOn) ∧
  (bits w.toNat 47 40 ∉ List.range 0x0F ++ [0x11, 0x12, 0x13, 0x14, 0x15, 0x16, 0x17, 0x18, 0x19, 0x1A, 0x1B, 0x1C, 0x1D, 0x1E,
      0x20, 0x21, 0x22, 0x23, 0x24, 0x30, 0x31, 0x32, 0x33, 0x34, 0x35, 0x36, 0x37, 0x38, 0x39, 0x3A, 0x40, 0x41, 0x48, 0x49, 0x4A, 0x4B,
      0x50, 0x51, 0x52, 0x53, 0x54, 0x55, 0x5F, 0x60, 0x61, 0x62, 0x63] →
    exec (.undefinedOpcode w) s = .next (u.exception State.exILLEGAL 0))

/-- R266: PUSH and POP. -/
def Obligations.QuaranRings : Prop :=
  ∀ (s : State) (rd ra : Fin 32) (h : Bool) (offset : BitVec 13) (wait : Fin 5), s.canIssue →
  let u := s.fetch.1
  let r := ((s.wreg ra).toNat + offset.toNat) % 8192
  let heldIn : Nat := (kvGet s.seq.heldPush r).getD 0
  let heldOut : Nat := (kvGet s.seq.heldPop r).getD 0
  let reached := u.frozen .quaran = false ∧ u.domOn 41 = true ∧ u.ringType r ≠ 0
  let mayPush := rd.val ≤ 28 ∧ reached ∧ u.get Reg.RNG_CFG.PROD [r] = 3
  let mayPop := rd.val ≠ 0 ∧ rd.val ≤ 28 ∧ reached ∧ u.get Reg.RNG_CFG.CONS [r] = 3
  let words := [s.wreg rd, s.wreg (rd + 1), s.wreg (rd + 2), s.wreg (rd + 3)]
  let stored := u.ringPut r (u.get Reg.RNG_PI.INDEX [r] + heldIn) words .quaran
  let from_ := u.ringWord r (u.get Reg.RNG_CI.INDEX [r] + heldOut)
  let ok (q : Seq) : Seq := { q.goesOn with pstat := 0, c := false }
  (mayPush → u.ringFill r + heldIn < u.ringSize r →
    (h = true → ∃ t, exec (.push rd ra h offset wait) s = .next t ∧
      stored.retires t { ok s.seq with heldPush := kvSet s.seq.heldPush r (heldIn + 1) }) ∧
    (h = false → ∃ t, exec (.push rd ra h offset wait) s = .next t ∧
      (stored.ringAdvance r (heldIn + 1)).retires t { ok s.seq with heldPush := kvDel s.seq.heldPush r })) ∧
  (mayPush → u.ringSize r ≤ u.ringFill r + heldIn → ∃ t, exec (.push rd ra h offset wait) s = .next t ∧
    u.retires t { s.seq.goesOn with pstat := 0, c := true, heldPush := kvDel s.seq.heldPush r }) ∧
  (mayPop → heldOut < u.ringFill r →
    (∀ i < 4, (u.cell memRING (from_ + i)).syndrome = 0 ∧ u.poisoned memRING (from_ + i) = false ∧
      u.isPageHit memRING (from_ + i) = false) →
    let word (i : Nat) : Word := (u.cell memRING (from_ + i)).data
    let taken : Seq := (((s.seq.withWord rd (word 0)).withWord (rd + 1) (word 1)).withWord (rd + 2) (word 2)).withWord (rd + 3) (word 3)
    (h = true → ∃ t, exec (.pop rd ra h offset wait) s = .next t ∧
      u.retires t { ok taken with heldPop := kvSet s.seq.heldPop r (heldOut + 1) }) ∧
    (h = false → ∃ t, exec (.pop rd ra h offset wait) s = .next t ∧
      (u.ringConsume r (heldOut + 1)).retires t { ok taken with heldPop := kvDel s.seq.heldPop r })) ∧
  (mayPop → u.ringFill r ≤ heldOut → ∃ t, exec (.pop rd ra h offset wait) s = .next t ∧
    u.retires t { s.seq.goesOn with pstat := 0, c := true }) ∧
  (∀ c : Instr, (c = .push rd ra h offset wait ∧ rd.val ≤ 28) ∨ (c = .pop rd ra h offset wait ∧ rd.val ≠ 0 ∧ rd.val ≤ 28) →
    (u.frozen .quaran = true → ∃ t, exec c s = .next t ∧ u.retires t { s.seq.goesOn with pstat := 2, c := true }) ∧
    (u.frozen .quaran = false → u.domOn 41 = false →
      ∃ t, exec c s = .next t ∧ u.retires t { s.seq.goesOn with pstat := 1, c := true })) ∧
  (∀ (c : Instr) (owner : FRef), (c = .push rd ra h offset wait ∧ owner = Reg.RNG_CFG.PROD ∧ rd.val ≤ 28) ∨
      (c = .pop rd ra h offset wait ∧ owner = Reg.RNG_CFG.CONS ∧ rd.val ≠ 0 ∧ rd.val ≤ 28) →
    u.frozen .quaran = false → u.domOn 41 = true → u.ringType r = 0 ∨ u.get owner [r] ≠ 3 →
    ∃ v : State, exec c s = .next (v.exception State.exPORT_VIOL r) ∧ v.seq.pstat = 3 ∧ v.frozen .quaran = true) ∧
  (28 < rd.val → exec (.push rd ra h offset wait) s = .next (u.exception State.exILLEGAL 0)) ∧
  (rd.val = 0 ∨ 28 < rd.val → exec (.pop rd ra h offset wait) s = .next (u.exception State.exILLEGAL 0))

/-- R270: taking an exception, as every raising instruction does. -/
def Obligations.QuaranExceptions : Prop :=
  ∀ (s : State) (cause addr slot : Nat), s.wf → 1 ≤ cause → cause ≤ 8 → s.seq.run = some slot → slot < 32 → s.seq.halted = false →
    s.seq.pc < 32768 →
  let t := s.exception cause addr
  t.get Reg.EXC_CNT.COUNT = min (s.get Reg.EXC_CNT.COUNT + 1) (2 ^ 48 - 1) ∧ t.get Reg.SEQ_EVT.EXC = 1 ∧
  t.seq.heldPush = [] ∧ t.seq.heldPop = [] ∧ t.seq.w = s.seq.w ∧ t.seq.acc = s.seq.acc ∧ t.flagsCode = s.flagsCode ∧ t.mem = s.mem ∧
  (s.get Reg.SEQ_EVT.EXC = 0 → t.get Reg.SEQ_EXC.CAUSE = cause ∧ t.get Reg.SEQ_EXC.TASK = slot ∧ t.get Reg.SEQ_EXC.PC = s.seq.pc ∧
    t.get Reg.SEQ_EXC_ADDR.ADDR = (if 3 ≤ cause ∧ cause ≤ 6 then addr % 2 ^ 24 else 0)) ∧
  (s.get Reg.SEQ_EVT.EXC = 1 → t.get Reg.SEQ_EXC.MORE = 1 ∧ t.get Reg.SEQ_EXC.CAUSE = s.get Reg.SEQ_EXC.CAUSE) ∧
  (s.get Reg.SEQ_CTL.EXC_ACT = 0 → t.seq.halted = true ∧ t.get Reg.SEQ_CTL.HALT_REQ = 1 ∧ t.seq.run = some slot) ∧
  (s.get Reg.SEQ_CTL.EXC_ACT = 1 → t.seq.run = none ∧ t.get Reg.SEQ_TSTAT.PENDING [slot] = 0 ∧
    t.get Reg.SEQ_TSTAT.RESUME [slot] = s.get Reg.SEQ_TSTAT.RESUME [slot] ∧ t.get Reg.SEQ_TASK.EN [slot] = s.get Reg.SEQ_TASK.EN [slot]) ∧
  (s.get Reg.SEQ_CTL.EXC_ACT = 2 → t.seq.run = none ∧ t.get Reg.SEQ_TASK.EN [slot] = 0 ∧ t.get Reg.SEQ_TSTAT.DISABLED [slot] = 1)

/-- R252, R270: when the instruction of a command takes effect. -/
def Obligations.QuaranIssues : Prop :=
  (∀ (c : Instr) (s : State), c.isQuaran = true → s.issues = false → exec c s = .next s) ∧
  (∀ (c : Instr) (s : State), c.isQuaran = true → s.issues = true → s.fetch.2.1 = false →
    exec c s = .next (s.fetch.1.exception State.exIMEM_UNC 0)) ∧
  (∀ (s : State), let a := s.seq.pc + (if s.seq.slotB then 32768 else 0)
    (s.cell memIMEM a).syndrome = 0 → s.poisoned memIMEM a = false → s.isPageHit memIMEM a = false →
    s.fetch = (s, true, (s.cell memIMEM a).data))

/-- R38 to R41: what a marker does in each of the three states. `abruptPhase` is what R68 adds while an abrupt return waits for the lock,
`openHosts` what R176 adds for a locked lane's host lanes, `ltxChoose` the choice of R12. -/
def Obligations.FrameLockStates : Prop :=
  ∀ (s : State) (k : Fin 9) (m : BitVec 64) (hdr : BitVec 128), s.wf → s.released = true → s.lockUsed k = true → s.lockRuns k = true →
    s.lockFmt k ≠ fmtSTANDARD →
  let f := s.frame k
  let tol := s.use Reg.FRM_CFG.LOCK_TOL [k]
  let rx := hdr.toNat % 16
  let hit : Prop := popCount 64 ((hdr.toNat >>> 64) ^^^ marker f.lane) ≤ tol
  let heard := if k.val = 8 then s else s.put Reg.FRM_STAT.RX_FC rx [k]
  let hunted (u : State) : Prop := exec (.huntMarkerMatch k m) s = .next u.abruptPhase.ltxChoose
  let expected (u : State) : Prop := exec (.expectedMarker k hdr) s = .next (u.openHosts k).abruptPhase.ltxChoose
  (∀ l, f.st = fsHUNT → markerLane m.toNat tol = some l →
    hunted (let u := s.setFrame k fun _ => ⟨fsVERIFY, l, 1, 0, none, false⟩
      if k.val = 8 then u else u.put Reg.FRM_STAT.RX_LANE l [k])) ∧
  (f.st = fsHUNT → markerLane m.toNat tol = none → hunted s) ∧
  (f.st = fsVERIFY → ¬ hit → expected (s.setFrame k fun _ => ⟨fsHUNT, 0, 0, 0, none, false⟩)) ∧
  (f.st = fsVERIFY → hit → f.matches_ + 1 < 3 → expected (heard.setFrame k fun f => { f with matches_ := f.matches_ + 1 })) ∧
  (f.st = fsVERIFY → hit → 3 ≤ f.matches_ + 1 → ∃ t : State, expected t ∧
    t.frame k = { f with st := fsLOCKED, misses := 0, fc := some rx, known := k.val = 8 || s.lockFmt k ≠ fmtSINGLE } ∧
    (k.val ≠ 8 → t.get Reg.FRM_STAT.RX_LANE [k] = f.lane % 8 ∧ t.get Reg.FRM_EVT.LOCK_GAINED [k] = 1 ∧
      t.get Reg.FRM_STAT.FAR_FMT [k] = 0 ∧ t.get Reg.FRM_STAT.PROBE_ACTIVE [k] = 0 ∧
      t.get Reg.FRM_STAT.LANE_SWAP [k] = (if f.lane ≠ k.val then 1 else 0) ∧
      (f.lane ≠ k.val → t.get Reg.FRM_EVT.LANE_SWAP_SEEN [k] = 1))) ∧
  (f.st = fsLOCKED →
    let count := match f.fc with
      | some c => (c + (if s.lockFmt k = fmtSINGLE then 2 else 1)) % 16
      | none => rx
    let lol := s.use Reg.FRM_CFG.LOL_COUNT [k]
    let kept (miss : Nat) :=
      let u := heard.setFrame k fun f => { f with fc := some count, misses := miss, known := true }
      if rx ≠ count ∧ k.val ≠ 8 then (u.inc Reg.FRM_FC_ERR_CNT.COUNT [k]).laneEv Reg.FRM_EVT.FC_ERR k else u
    (hit → 0 < lol → expected (kept 0)) ∧
    (¬ hit → f.misses + 1 < lol → expected (kept (f.misses + 1))) ∧
    (¬ hit → lol ≤ f.misses + 1 → expected ((kept (f.misses + 1)).lossOfFrame k)))

/-- R41, R14: what a loss of frame on lane `k` does. R481: alignment of lane `k` changes by the standard's own rules. -/
def Obligations.FrameLossAndAlignment : Prop :=
  (
    ∀ (s : State) (k : Nat), s.wf → k < 8 →
    let t := s.lossOfFrame k
    t.frame k = ⟨fsHUNT, 0, 0, 0, none, false⟩ ∧
    t.get Reg.FRM_LOL_CNT.COUNT [k] = min (s.get Reg.FRM_LOL_CNT.COUNT [k] + 1) (2 ^ 48 - 1) ∧
    t.get Reg.FRM_EVT.LOL [k] = 1 ∧ (∀ j ∈ [2, 3, 6, 7], t.get Reg.LAT.VALID [k, j] = 0) ∧
    (∀ e ∈ (t.lane k).lat.drop 2, e.bad = true) ∧ (t.lane k).rateHeld = true ∧
    (∀ j, j < 8 → j ≠ k → t.frame j = s.frame j)) ∧
  (
    ∀ (s : State) (k : Fin 9) (st : Fin 3), s.released = true → s.lockUsed k = true → s.lockRuns k = true → s.lockFmt k = fmtSTANDARD →
    let was := (s.frame k).st
    let moved (u : State) : Prop := exec (.standardAlignmentChange k st) s = .next (u.openHosts k).abruptPhase.ltxChoose
    let aligned (u : State) := u.setFrame k fun _ => ⟨st, 0, 0, 0, none, false⟩
    (was = st → moved s) ∧
    (was ≠ fsLOCKED → st.val = fsLOCKED → moved (
      let u := s.setFrame k fun _ => ⟨fsLOCKED, 0, 0, 0, some 0, true⟩
      if k.val = 8 then u else u.laneEv Reg.FRM_EVT.LOCK_GAINED k)) ∧
    (was ≠ fsLOCKED → st.val ≠ fsLOCKED → was ≠ st → moved (aligned s)) ∧
    (was = fsLOCKED → st.val ≠ fsLOCKED → moved (aligned (s.lossOfFrame k))))

/-- R43, R45, R49. `patCheck` is what a checker does with the symbols of a span. -/
def Obligations.ProbesAndCheckers : Prop :=
  ∀ s : State, s.released = true →
  (∀ k : Fin 8, s.use Reg.FRM_CFG.FORMAT [k] ≠ fmtSTANDARD → (s.frame k).st ≠ fsLOCKED → (s.slice (s.serving k)).trLock = true →
    s.domOn (17 + k) = true → s.get Reg.FRM_STAT.PROBE_ACTIVE [k] = 0 → 64 * s.markerPeriod k ≤ (s.lane k).huntCyc →
    exec (.formatProbeStart k) s = .next ((s.put Reg.FRM_STAT.PROBE_ACTIVE 1 [k]).setLane k fun l => { l with winCyc := 0 })) ∧
  (∀ (k : Fin 8) (code : BitVec 2), s.get Reg.FRM_STAT.PROBE_ACTIVE [k] = 1 →
    let newWindow (u : State) := u.setLane k fun l => { l with winCyc := 0 }
    (code = 3 ∨ (code = 2 ∧ s.use Reg.FRM_CFG.FORMAT [k] = fmtDOUBLE) →
      exec (.farFmtFound k code) s =
        .next ((newWindow (s.put Reg.FRM_STAT.FAR_FMT code.toNat [k])).laneEv Reg.FRM_EVT.FAR_FMT_FOUND k)) ∧
    (64 * s.markerPeriod k ≤ (s.lane k).winCyc →
      exec (.probeWindowEnd k) s = .next (newWindow (s.put Reg.FRM_STAT.FAR_FMT 0 [k])))) ∧
  (∀ (host : Bool) (n : Fin 16) (m : Span),
    exec (.linePatLock host n m) s = .next (s.flow m) ∧ exec (.linePatResync host n m) s = .next (s.flow m)) ∧
  (∀ (host : Bool) (n : Fin 16) (pat : Nat), s.wf → 1 ≤ pat → (host = false → n.val < 8) →
    let r := State.patRegs host
    let chk := s.patChk host n
    let sent (i : Nat) : Nat := (Config.patSymbol pat (chk.pos + i)).val
    (s.get r.1 [n] = 1 → chk.run < 128 →
      let t := s.patCheck host n pat ((List.range (128 - chk.run)).map sent)
      t.get r.1 [n] = 2 ∧ t.get r.2.1 [n] = s.get r.2.1 [n]) ∧
    (∀ x : Fin 4, s.get r.1 [n] = 2 → 31 ≤ chk.errs → x.val ≠ sent 0 →
      let t := s.patCheck host n pat [x]
      t.get r.1 [n] = 1 ∧ t.get r.2.1 [n] = min 255 (s.get r.2.1 [n] + 1) ∧
      t.get r.2.2.1 [n] = min (s.get r.2.2.1 [n] + 1) (2 ^ 48 - 1) ∧ t.get r.2.2.2.1 [n] = min (s.get r.2.2.2.1 [n] + 1) (2 ^ 48 - 1))) ∧
  (∀ (sl : Fin 9) (amp : BitVec 12), s.domOn (if sl.val = 8 then 25 else 1 + sl) = true →
    let level := 50 + 10 * s.use Reg.RX_AFE.SD_THRESH [sl]
    let moved (t : State) (bit : Nat) := t.get Reg.RX_STAT.SIG_DET [sl] = bit ∧ t.frames = s.frames
    (s.wf → s.get Reg.RX_STAT.SIG_DET [sl] = 0 → level < amp.toNat →
      ∃ t, exec (.signalDetectChange sl amp) s = .next t ∧ moved t 1 ∧
        ((s.slice sl).adapt = adHOLD → (t.slice sl).adapt = adACQUIRE ∧ (t.slice sl).acqTicks = 0)) ∧
    (s.wf → s.get Reg.RX_STAT.SIG_DET [sl] = 1 → amp.toNat ^ 20 * 1000 ≤ level ^ 20 →
      ∃ t, exec (.signalDetectChange sl amp) s = .next t ∧ moved t 0 ∧ t.get Reg.RX_EVT.SIG_LOST [sl] = 1 ∧
        ((s.slice sl).adapt ≠ adOFF → (t.slice sl).adapt = adHOLD)))

/-- R59, R60, R63: the commands of the Float. A RETURN waits while T3 pauses the migration (R64). -/
def Obligations.FloatCommands : Prop :=
  ∀ s : State, s.released = true →
  let seq := s.get Reg.MIG_CTL.SEQ
  let lane := s.get Reg.MIG_CTL.TARGET
  let idle := decide (s.phase = phIDLE)
  let refused := (s.disarm State.dueMig 0).migDone seq
  let begun := (s.disarm State.dueMig 0).mg fun m => { m with seq := some seq }
  let command (c : Instr) (n : Nat) (r : Nat) (effect : State) : Prop := s.migArmed n = true →
    (r = 0 → exec c s = .next effect) ∧ (r ≠ 0 → exec c s = .next (refused r))
  (∀ here throttled needsLane, let r := s.migRefusal here throttled needsLane
    (s.floatOk = false ∨ s.phase = phRETIRED → r = 3) ∧
    (s.floatOk = true → s.phase ≠ phRETIRED → (here = false → r = 1) ∧
      (here = true → (throttled = true → s.level = 3 → r = 4) ∧ ((throttled && decide (s.level = 3)) = false →
        r = if needsLane && (!s.mapped lane || !s.slicePowered lane || s.retired lane || !(s.slice (s.serving lane)).trLock) then 2 else 0)))) ∧
  command .migCmdNone 0 0 (refused 0) ∧
  command .floatCal 1 (s.migRefusal idle true false) ((begun.setPhase phFLOAT_CAL).fcalBegin 8) ∧
  command .migrate 2 (s.migRefusal idle true true) ((begun.mg fun m => { m with retire := false }).beginConverge lane) ∧
  (s.level ≠ 3 → command .floatReturn 3 (s.migRefusal (s.phase = phSERVE) false false) begun.beginReturn) ∧
  command .observeRx 5 (s.migRefusal idle false true) ((begun.floatConnect lane).setPhase phOBSERVE_RX).floatStep ∧
  command .observeTx 6 (s.migRefusal idle false true) ((begun.floatConnect lane).setPhase phOBSERVE_TX).floatStep.obsBegin ∧
  command .retire 7 (s.migRefusal idle false true) (((begun.isEngage lane).mg fun m => { m with retire := true }).beginConverge lane) ∧
  command .floatAbort 4
    (s.migRefusal (!s.mig.abrupt && decide (s.phase ∈ [phFLOAT_CAL, phCONVERGE, phAGREE, phSWAP_WAIT, phRET_CONVERGE, phRET_AGREE,
      phRET_SWAP_WAIT, phOBSERVE_RX, phOBSERVE_TX])) false false)
    (let v := s.disarm State.dueMig 0
     if s.phase = phSWAP_WAIT ∨ s.phase = phRET_SWAP_WAIT then v.mg fun m => { m with abortSeq := some seq }
     else (v.migAbort 0x16).migDone seq 0x16)

/-- R60 to R63: steps 1 to 3 and 6 to 8 of the migration table. -/
def Obligations.FloatMigration : Prop :=
  ∀ s : State, s.released = true →
  (s.convergeDue = true → exec .convergeDone s = .next (((s.setPhase (s.phase + 1)).put Reg.MIG_STAT.TRIES_USED 0).latchPar)) ∧
  (s.convTimedOut = true → exec .convTimeout s = .next (s.migAbort 0x12)) ∧
  (s.agreeing = true → s.agreeFull = true →
    let w := s.mig
    let v := ((s.put Reg.AGREE_LAST.E_SERV w.eServ).put Reg.AGREE_LAST.E_CAND w.eCand).put Reg.AGREE_LAST.UNC w.unc
    let tries := s.get Reg.MIG_STAT.TRIES_USED + 1
    let passes : Prop := w.same = true ∧ s.candidateLocked = true ∧ w.unc < 64 ∧
      8 * w.eCand ≤ (8 + s.migPar Reg.MIG_CTL.AGREE_SLACK) * w.eServ + 8 * s.migPar Reg.MIG_CTL.AGREE_ABS
    let answers (t : State) : Prop := exec .agreeWindowEnd s = .next t
    (passes → s.level ≠ 3 → answers (v.setPhase (s.phase + 1))) ∧
    (passes → s.level = 3 → answers (v.mg fun m => { m with held := true })) ∧
    (¬ passes → tries < s.migPar Reg.MIG_CTL.AGREE_TRIES → answers (v.put Reg.MIG_STAT.TRIES_USED tries).latchPar) ∧
    (¬ passes → s.migPar Reg.MIG_CTL.AGREE_TRIES ≤ tries → answers ((v.put Reg.MIG_STAT.TRIES_USED tries).migAbort 0x13))) ∧
  (∀ m : Span, let u := s.flow m
    let k := u.floatLane
    let seq := u.mig.seq.getD (u.get Reg.MIG_STAT.SEQ_DONE)
    let answers (t : State) : Prop := exec (.floatSwap m) s = .next t
    let reported (t : State) (q : Nat) : State := ((t.migDone q 0x16).floatEv Reg.MIG_EVT.ABORT).inc Reg.ABORT_CNT.COUNT
    u.quaranDown = false →
    (u.phase = phSWAP_WAIT →
      let v := ((u.swapIn k).mg fun _ => Mig.idle).floatEv Reg.MIG_EVT.SWAPPED
      (u.mig.abortSeq = none → u.mig.retire = true → answers (((v.setPhase phRETIRED).retireSlice k).migDone seq 0)) ∧
      (u.mig.abortSeq = none → u.mig.retire = false → answers (((v.showSlice k 1).loadSkew k).migDone seq 0)) ∧
      (∀ q, u.mig.abortSeq = some q → answers (reported ((v.showSlice k 1).loadSkew k) q))) ∧
    (u.phase = phRET_SWAP_WAIT → u.mig.abrupt = false →
      let v := u.swapBack.floatEv Reg.MIG_EVT.RETURNED
      (u.mig.abortSeq = none → answers (v.migDone seq 0)) ∧ (∀ q, u.mig.abortSeq = some q → answers (reported v q))))

/-- R63: what an abort does and where none applies. -/
def Obligations.MigrationAborts : Prop :=
  ∀ (s : State) (r : Nat), s.wf →
  (s.phase ∈ [phIDLE, phSERVE, phRETIRED, phTAKEOVER] ∨ s.mig.abrupt = true → s.migAbort r = s) ∧
  (s.mig.abrupt = false → r < 256 → r ≠ 4 →
    let t := s.migAbort r
    let reported : Prop := t.get Reg.MIG_STAT.LAST_RESULT = r ∧ t.get Reg.MIG_EVT.ABORT = 1 ∧
      t.get Reg.ABORT_CNT.COUNT = min (s.get Reg.ABORT_CNT.COUNT + 1) (2 ^ 48 - 1) ∧ (∀ j, j < 8 → t.frame j = s.frame j)
    (s.phase ∈ [phCONVERGE, phAGREE, phSWAP_WAIT, phOBSERVE_RX, phOBSERVE_TX] → t.phase = phIDLE ∧ t.mig = Mig.idle ∧ reported) ∧
    (s.phase ∈ [phRET_CONVERGE, phRET_AGREE, phRET_SWAP_WAIT] → t.phase = phSERVE ∧ t.mig = Mig.idle ∧ reported))

/-- R65 to R68: slice faults and takeovers. -/
def Obligations.SliceFaults : Prop :=
  ∀ s : State, s.released = true →
  (∀ (sl : Fin 9) (bits4 : BitVec 4) (ss : Fin 64), s.slicePowered sl = true → s.uses Reg.RX_CTL.HEALTH_EN [sl] = true →
    let src := if s.sigDet sl then bits4.toNat else bits4.toNat / 4 * 4
    let old := s.get Reg.RX_STAT.FAULT_SRC [sl]
    let seen := s.put Reg.RX_STAT.FAULT_SRC (old ||| src) [sl]
    let noted := if src % 4 ≠ 0 ∧ old % 4 = 0 then seen.put Reg.RX_STAT.FAULT_SS ss [sl] else seen
    let declared := ((noted.setSliceState sl 2).laneEv Reg.RX_EVT.FAULT sl).capEv 45
    let answers (t : State) : Prop := exec (.sliceFaultDetect sl bits4 ss) s = .next t
    src ≠ 0 →
    (s.get Reg.RX_STAT.SLICE_STATE [sl] ∈ [2, 3] → answers noted) ∧
    (s.get Reg.RX_STAT.SLICE_STATE [sl] ∉ [2, 3] →
      (sl.val = 8 → answers declared.floatFault) ∧
      (sl.val ≠ 8 → declared.floatServes = true → declared.floatLane = sl → declared.phase ≠ phRETIRED → answers (declared.ownFaultWhileServed sl)) ∧
      (sl.val ≠ 8 → declared.floatServes = true → declared.floatLane = sl → declared.phase = phRETIRED → answers (declared.retireSlice sl)) ∧
      (sl.val ≠ 8 → (declared.floatServes && decide (declared.floatLane = sl)) = false →
        answers (if declared.mapped sl then declared.takeover sl else declared)))) ∧
  (∀ k : Nat, (s.get Reg.MIG_CTL.TAKEOVER_EN = 0 → s.takeover k = (s.migResult 0x22).floatEv Reg.MIG_EVT.TAKEOVER_FAIL) ∧
    (s.get Reg.MIG_CTL.TAKEOVER_EN = 1 → s.floatOk = false ∨ s.phase = phRETIRED ∨ s.phase = phTAKEOVER ∨ s.mig.takeFor ≠ none →
      s.takeover k = (s.migResult 0x20).floatEv Reg.MIG_EVT.TAKEOVER_FAIL) ∧
    (s.get Reg.MIG_CTL.TAKEOVER_EN = 1 → s.floatOk = true → s.mig.takeFor = none → s.phase = phIDLE →
      s.takeover k = ((s.setLane k fun l => { l with marking := true }).beginTakeover k 0))) ∧
  (∀ m : Span, let u := s.flow m
    u.mig.abrupt = true → u.candidateLocked = true →
    let v := u.swapBack.floatEv Reg.MIG_EVT.RETURNED
    (∀ j, u.mig.takeFor = some j → v.floatOk = true → exec (.abruptReturnSwap m) s = .next (v.beginTakeover j u.mig.detTicks)) ∧
    (∀ j, u.mig.takeFor = some j → v.floatOk = false → exec (.abruptReturnSwap m) s = .next (v.takeoverLost j 0x20)) ∧
    (u.mig.takeFor = none → exec (.abruptReturnSwap m) s = .next v)) ∧
  (∀ m : Span, let u := s.flow m
    u.phase = phTAKEOVER → u.candidateLocked = true → let k := u.floatLane
    let v := (((u.swapIn k).setPhase phRETIRED).mg fun _ => Mig.idle).floatEv Reg.MIG_EVT.SWAPPED
    exec (.takeoverSwap m) s = .next
      ((((v.setLane k fun l => { l with dead := false }).floatEv Reg.MIG_EVT.TAKEOVER).laneEv Reg.RX_EVT.TAKEOVER k).retireSlice k)) ∧
  (∀ k, s.mig.takeFor = some k → 2 ≤ s.mig.detTicks →
    let v := s.takeoverLost k 0x21
    exec .takeoverTimeout s = .next (if v.phase = phTAKEOVER then v.floatPark else v.mg fun m => { m with takeFor := none }))

/-- R72, R93, R96, R98, R99: what happens to one slice. `lockWindow` is the end of a window of 1,024 line DSP cycles. -/
def Obligations.SliceAdaptation : Prop :=
  ∀ (s : State) (sl : Fin 9), s.wf → s.released = true →
  let x := s.slice sl
  let idle : Prop := if sl.val = 8 then s.phase = phIDLE else
    s.mapped sl = false ∨ ((s.slice (s.serving sl)).trLock = false ∧ s.sigDet sl = false) ∨ s.serving sl = 8
  (s.armed State.dueNoise sl = true → idle →
    exec (.noiseMeasureStart sl) s = .next ((((s.disarm State.dueNoise sl).isEngage sl).put Reg.RX_STAT.NOISE_BUSY 1 [sl]).setSlice sl fun x =>
      { x with noiseEnd := some (s.thm.tick + 4) })) ∧
  (s.armed State.dueNoise sl = true → ¬ idle →
    exec (.noiseMeasureStart sl) s = .next ((s.disarm State.dueNoise sl).laneEv Reg.RX_EVT.NOISE_REFUSED sl)) ∧
  (∀ (worst : Fin 64) (a b : BitVec 12) (at_ : Nat), x.noiseEnd = some at_ → at_ ≤ s.thm.tick →
    ∃ t, exec (.noiseDone sl worst a b) s = .next t ∧
      t.liveAt (Reg.NOISE_RES.addr [sl]) = BitVec.ofNat 48 (worst * 2 ^ 24 + a.toNat * 2 ^ 12 + b.toNat) ∧
      t.get Reg.RX_STAT.NOISE_BUSY [sl] = 0 ∧ t.get Reg.RX_EVT.NOISE_DONE [sl] = 1 ∧
      t.slice sl = { x with noiseEnd := none, trLock := false, passRun := 0, failRun := 0, win := ⟨0, 0, 0⟩, goodTick := false, unlocked := 0 }) ∧
  (x.adapt = adACQUIRE → s.use Reg.FFE_CTL.ACQ_TICKS [sl] ≤ x.acqTicks →
    exec (.adaptTrackEntry sl) s = .next (s.setSlice sl fun x => { x with adapt := adTRACK })) ∧
  (∀ m : Span, exec (.trLockWindow m) s = .next (s.flow m).abruptPhase) ∧
  (∀ w : TrWindow,
    let n := 1024 * s.symsOf sl
    let power := s.tgtA sl * s.tgtA sl
    s.windowPasses sl w = true ↔ w.u.natAbs * 32 ≤ power * 16 * n ∧ 10 ^ (6 + s.use Reg.TR_CTL.LOCK_SNR [sl]) * w.e2.toNat ^ 10 ≤ (5 * power * 256 * n) ^ 10) ∧
  (let t := s.lockWindow sl
   (x.trLock = true ∨ x.passRun = 0 →
     t true = s.setSlice sl fun x => { x with passRun := min 2 (x.passRun + 1), failRun := 0 }) ∧
   (x.trLock = false → 1 ≤ x.passRun → ((t true).slice sl).trLock = true ∧
     (sl.val ≠ 8 → s.serving sl = sl → (t true).get Reg.EQ_EVT.TR_LOCK_GAINED [sl] = 1)) ∧
   (x.trLock = false ∨ x.failRun < 3 →
     t false = s.setSlice sl fun x => { x with passRun := 0, failRun := min 4 (x.failRun + 1) }) ∧
   (x.trLock = true → 3 ≤ x.failRun → ((t false).slice sl).trLock = false ∧
     (x.adapt = adTRACK → ((t false).slice sl).adapt = adHOLD) ∧
     (sl.val ≠ 8 → s.serving sl = sl → (t false).get Reg.EQ_EVT.TR_LOCK_LOST [sl] = 1))) ∧
  (s.use Reg.EQ_CTL.REACQ_TICKS [sl] ≤ x.unlocked → x.adapt ≠ adOFF → ∃ t, exec (.reacquire sl) s = .next t ∧
    (t.slice sl).lastSeed = some (State.reacqSnapshot x) ∧ (t.slice sl).unlocked = 0 ∧ (t.slice sl).acqTicks = 0 ∧
    (t.slice sl).adapt = (if s.sigDet sl then adACQUIRE else adHOLD) ∧
    (∀ g, x.snaps.find? (·.good) = some g → State.reacqSnapshot x = true →
      (t.slice sl).coefs = g.bank.coefs ∧ (t.slice sl).icorr = g.bank.icorr) ∧
    (State.reacqSnapshot x = false → (t.slice sl).coefs = { Coefs.seed with c := State.seedCoefs (s.mainPos sl) }) ∧
    (sl.val ≠ 8 → s.serving sl = sl → t.get Reg.EQ_EVT.REACQ [sl] = 1 ∧
      t.get Reg.REACQ_CNT.COUNT [sl] = min (s.get Reg.REACQ_CNT.COUNT [sl] + 1) (2 ^ 48 - 1)))

/-- R111, R116 to R120, R124: a codeword slot of lane `k`; the bits changed are those of the Chase decoder, on the descrambled word, or in the
Standard format over the standard's own code. -/
def Obligations.SlotCounters : Prop :=
  ∀ (s : State) (k : Fin 8) (slot : BitVec 11) (even : Bool) (rx cand : RxCodes),
    s.wf → s.released = true → (s.frame k).st = fsLOCKED ∨ s.lockFmt k = fmtSTANDARD → s.decoderOn k = true → (s.lane k).dead = false →
  let c := Instr.codewordDecode k slot even rx cand
  let hard (sl : Nat) (r : RxCodes) := slotBits (s.rxCfg sl) (State.codesOf r) r.prev (decide (slot.toNat % 2 = 1))
  let mine := hard (s.serving k) rx
  let plain := (mine.1.zip (s.scrambleOf k slot.toNat even)).map fun p => p.1 != p.2
  let effort := effortN (s.get Reg.IN_STAT.EFFORT_NOW [k])
  let changed : Option (List Nat) := if s.lockFmt k = fmtSTANDARD then chaseBy Config.stdHard mine.1 mine.2 effort
    else chase plain mine.2 effort
  let forced := (s.countKnown k even).slotForced k
  let window : Prop := s.agreeing = true ∧ s.floatLane = k ∧ s.agreeFull = false
  let same := s.mig.same && (s.countKnown k even).candidateLocked
  let up (t : State) (f : FRef) (i : List Nat) (n : Nat) : Prop := t.get f i = min (s.get f i + n) (2 ^ 48 - 1)
  (forced = true → ∃ t, exec c s = .next t ∧ up t Reg.IN_FORCED_CNT.COUNT [k] 1 ∧ t.get Reg.IN_STAT.FORCING [k] = 1 ∧
    (s.get Reg.IN_STAT.FORCING [k] = 0 → t.get Reg.IN_EVT.FORCED_START [k] = 1) ∧
    up t Reg.IN_CW_CNT.COUNT [k] 0 ∧ up t Reg.IN_UNC_CNT.COUNT [k] 0 ∧ up t Reg.IN_CORR_CNT.COUNT [k] 0 ∧ up t Reg.IN_BIT_CNT.COUNT [k] 0 ∧
    (window → t.mig = { s.mig with unc := s.mig.unc + 1, same := same })) ∧
  (forced = false → changed = none → ∃ t, exec c s = .next t ∧ up t Reg.IN_CW_CNT.COUNT [k] 1 ∧ up t Reg.IN_UNC_CNT.COUNT [k] 1 ∧
    t.get Reg.IN_EVT.UNC_SEEN [k] = 1 ∧ up t Reg.IN_CORR_CNT.COUNT [k] 0 ∧ up t Reg.IN_BIT_CNT.COUNT [k] 0 ∧ up t Reg.IN_FORCED_CNT.COUNT [k] 0 ∧
    (window → t.mig = { s.mig with unc := s.mig.unc + 1, same := same })) ∧
  (∀ ps, forced = false → changed = some ps → ∃ t, exec c s = .next t ∧ t.get Reg.IN_STAT.FORCING [k] = 0 ∧
    up t Reg.IN_CW_CNT.COUNT [k] 1 ∧ up t Reg.IN_UNC_CNT.COUNT [k] 0 ∧
    up t Reg.IN_CORR_CNT.COUNT [k] (if ps = [] then 0 else 1) ∧ up t Reg.IN_BIT_CNT.COUNT [k] ps.length ∧
    (∀ j : Fin 7, up t Reg.IN_HIST.COUNT [k, j] (if ps.length = j + 1 then 1 else 0)) ∧ up t Reg.IN_FORCED_CNT.COUNT [k] 0 ∧
    (∀ sl, window → s.candidate = some sl → t.mig = { s.mig with
      slots := s.mig.slots + 1, eServ := s.mig.eServ + ps.length, eCand := s.mig.eCand + State.disagree mine.1 (hard sl cand).1 ps,
      same := same }))

/-- R121, R123: the monitors of logical host lane `n`'s group, ingress or egress. -/
def Obligations.OuterMonitors : Prop :=
  ∀ (s : State) (n : Fin 16) (ig : Bool), s.wf → s.released = true → 1 ≤ s.pcsCode n → s.pcsCode n ≤ 4 →
  let g := s.pcsGroup n
  let lead := g.headD 0
  let up (t : State) (i : List Nat) (d : Nat) : Prop := t.get (State.omCnt ig) i = min (s.get (State.omCnt ig) i + d) (2 ^ 48 - 1)
  (∀ lock : Bool, s.get (State.omLock ig) [n] ≠ b2n lock → ∃ t, exec (.outerLockChange n ig lock) s = .next t ∧
    ∀ h ∈ g, t.get (State.omLock ig) [h] = b2n lock ∧
      t.get (match ig, lock with
        | true, true => Reg.OMI_EVT.LOCK_GAINED | true, false => Reg.OMI_EVT.LOCK_LOST
        | false, true => Reg.OME_EVT.LOCK_GAINED | false, false => Reg.OME_EVT.LOCK_LOST) [h] = 1) ∧
  (∀ l : List (BitVec 10 × BitVec 3), s.get (State.omLock ig) [n] = 1 →
    let syms := l.map fun p => (p.1.toNat, p.2.toNat)
    (Rs.decode 30 (syms.map (·.1)) = none → ∃ t, exec (.outerCodeword n ig l) s = .next t ∧
      up t [lead, 0] 1 ∧ up t [lead, 1] 1 ∧ up t [lead, 2] 1 ∧
      ∀ h ∈ g, t.get (if ig then Reg.OMI_EVT.UNC_SEEN else Reg.OME_EVT.UNC_SEEN) [h] = 1) ∧
    (∀ errs, Rs.decode 30 (syms.map (·.1)) = some errs → ∃ t, exec (.outerCodeword n ig l) s = .next t ∧
      up t [lead, 0] 1 ∧ up t [lead, 1] (if errs = [] then 0 else 1) ∧ up t [lead, 2] 0 ∧
      (let b := State.omHist ig
       t.get b [lead, min 15 errs.length] = min (s.get b [lead, min 15 errs.length] + 1) (2 ^ 48 - 1)) ∧
      ∀ o, o < g.length →
        let h := g.getD o 0
        let mine := errs.filter fun e => decide ((syms.getD e.1 (0, 0)).2 = o)
        up t [h, 3] mine.length ∧ up t [h, 5] (10 * (syms.filter fun x => decide (x.2 = o)).length)))

/-- R134, R136, R137, R138. -/
def Obligations.TransmitSquelchAndObservation : Prop :=
  ∀ s : State, s.wf → s.released = true →
  (∀ k : Fin 8, s.domOn (17 + k) = true →
    ((s.lane k).maskDue = true → (s.ltxAt (k / 4)).place = 0 → (s.lane k).maskSq = true ∨ s.releases k = false → exec (.maskSquelch k) s =
      .next (((s.setLane k fun l => { l with maskDue := false, maskSq := true }).laneEv Reg.TX_EVT.MASK_SQ k).squelchRefresh k)) ∧
    ((s.lane k).maskDue = true → (s.ltxAt (k / 4)).place = 0 → (s.lane k).maskSq = false → s.releases k = true → exec (.maskSquelch k) s =
      .next (s.setLane k fun l => { l with maskDue := false, maskSq := false })) ∧
    (s.get Reg.TX_STAT.SETTLING [k] = 1 → (s.lane k).settle ≤ s.thm.tick →
      exec (.squelchSettleEnd k) s = .next (s.put Reg.TX_STAT.SETTLING 0 [k]))) ∧
  (∀ (r : Int × Int × Int) (d : Nat), s.obs.found = some (r, d) → s.phase = phOBSERVE_TX → (s.slice 8).trLock = true →
    let answers (t : State) : Prop := exec .txobsAlignSearch s = .next t
    let used : State := { s with obs := { s.obs with found := none } }
    let shown := used.put Reg.TXOBS_STAT.CORR (if 0 < r.1 then min 255 (sqrtRound (r.1 * r.1 * 65536).toNat (r.2.1 * r.2.2).toNat) else 0)
    (s.get Reg.TXOBS_STAT.ALIGNED = 1 → corrAtLeast r 8 = true → answers used) ∧
    (s.get Reg.TXOBS_STAT.ALIGNED = 1 → corrAtLeast r 8 = false → answers
      { (s.put Reg.TXOBS_STAT.ALIGNED 0).put Reg.TXOBS_STAT.RESTARTS (min 255 (s.get Reg.TXOBS_STAT.RESTARTS + 1)) with obs := TxObs.start_ }) ∧
    (s.get Reg.TXOBS_STAT.ALIGNED = 0 → corrAtLeast r 9 = false → answers shown) ∧
    (s.get Reg.TXOBS_STAT.ALIGNED = 0 → corrAtLeast r 9 = true → answers
      { (shown.put Reg.TXOBS_STAT.ALIGNED 1).put Reg.TXOBS_STAT.DELAY d with obs := { s.obs with start := true, found := none } })) ∧
  (s.obs.run = true → s.obs.left = 0 → ∃ t, exec .txobsPeriodPublish s = .next t ∧
    t.get Reg.TXOBS_STAT.PERIOD_SEQ = (s.get Reg.TXOBS_STAT.PERIOD_SEQ + 1) % 2 ^ 16 ∧
    t.obs = { TxObs.start_ with
      run := true, left := 2 ^ s.use Reg.TXOBS_CTL.ACC_TICKS, ys := s.obs.ys, found := s.obs.found } ∧
    ∀ i, i < 64 →
      let shown := s.use Reg.TXOBS_CTL.KEY ≠ 1 ∨ i < 16
      (shown → t.get Reg.TXOBS_SUM.SUM [i] = enc 48 (s.obs.sums.getD i 0) ∧ t.get Reg.TXOBS_CNT.COUNT [i] = s.obs.cnts.getD i 0 % 2 ^ 48) ∧
      (¬ shown → t.get Reg.TXOBS_SUM.SUM [i] = 0 ∧ t.get Reg.TXOBS_CNT.COUNT [i] = 0))

/-- R164, R168, R171, R177: what happens on physical lane `n` and on logical lane `n`. -/
def Obligations.HostLanes : Prop :=
  ∀ (s : State) (n : Fin 16), s.wf → s.released = true →
  let k : Nat := n / 2
  let lockBit := if n.val % 2 = 0 then Reg.PAIR_STAT.LOCK_A else Reg.PAIR_STAT.LOCK_B
  (s.hspOn n = true →
    (∀ amp : BitVec 12, (60 < amp.toNat → exec (.hostSignalDetectChange n amp) s = .next (s.put Reg.HS_RX_STAT.SIG_DET 1 [n])) ∧
      (amp.toNat < 40 → s.get Reg.HS_RX_STAT.SIG_DET [n] = 1 → exec (.hostSignalDetectChange n amp) s =
        .next ((s.put Reg.HS_RX_STAT.SIG_DET 0 [n]).hostEv Reg.HS_EVT.SIG_LOST n)) ∧
      (40 ≤ amp.toNat → amp.toNat ≤ 60 → exec (.hostSignalDetectChange n amp) s = .next s)) ∧
    (s.get Reg.HS_RX_STAT.SIG_DET [n] = 1 → exec (.hostCdrLockChange n true) s = .next (s.put Reg.HS_RX_STAT.CDR_LOCK 1 [n]).ltxChoose) ∧
    (s.get Reg.HS_RX_STAT.CDR_LOCK [n] = 1 → exec (.hostCdrLockChange n false) s =
      .next ((((s.put Reg.HS_RX_STAT.CDR_LOCK 0 [n]).inc Reg.HS_CDR_LOL_CNT.COUNT [n]).hostEv Reg.HS_EVT.CDR_LOST n).capEv 55).ltxChoose)) ∧
  (∀ (m : Span) (typ b : Nat), let u := s.flow m
    let v := u.setHlane n HLane.lock
    u.wf → (u.hlane n).locked = false → (u.hlane n).found = some (typ, b) → 1 ≤ typ → typ ≤ 4 → u.hspOn (u.rxPhys n) = true →
    u.domOn (17 + u.hostHome n) = true → ∃ t, exec (.amLockGained n m) s = .next t ∧
      (t.hlane n).locked = true ∧ (t.hlane n).typ = typ ∧ (t.hlane n).anchor = b ∧ (t.hlane n).joined = false ∧
      (∀ j, j ≠ n.val → t.hlane j = u.hlane j) ∧ t.get lockBit [k] = 1 ∧
      (u.pcsCode n ≠ 0 → u.pcsCode n ≠ typ → t.get Reg.PAIR_EVT.PCS_MISMATCH [k] = 1) ∧
      (v.deskewable k = true → u.get Reg.PAIR_STAT.DESKEWED [k] = 0 →
        let skew := pairSkew (v.hlane (2 * k)) (v.hlane (2 * k + 1))
        let stays : Int := (u.hlane (if n.val % 2 = 0 then n + 1 else n - 1 : Nat)).delay
        let d := if n.val % 2 = 0 then stays + skew else stays - skew
        t.getS Reg.PAIR_STAT.SKEW [k] = satS 10 skew ∧
        (0 ≤ d → d ≤ 256 → t.get Reg.PAIR_STAT.DESKEWED [k] = 1 ∧ (t.hlane n).delay = d) ∧
        (d < 0 ∨ 256 < d → t.get Reg.PAIR_STAT.DESKEWED [k] = 0 ∧ t.get Reg.PAIR_EVT.DESKEW_FAIL [k] = 1)) ∧
      (v.deskewable k = false → t.get Reg.PAIR_STAT.SKEW [k] = 0 ∧ t.get Reg.PAIR_STAT.DESKEWED [k] = 0)) ∧
  (∀ m : Span, let u := s.flow m
    u.wf → (u.hlane n).locked = true → u.get Reg.GBX_CFG.AM_LOL ≤ (u.hlane n).misses → ∃ t, exec (.amLockLost n m) s = .next t ∧
    t.hlane n = (u.hlane n).unlock ∧ (∀ j, j ≠ n.val → t.hlane j = u.hlane j) ∧
    t.get lockBit [k] = 0 ∧ t.get Reg.PAIR_EVT.AM_LOST [k] = 1 ∧ t.get Reg.PAIR_STAT.DESKEWED [k] = 0 ∧
    t.get Reg.AM_LOL_CNT.COUNT [n] = min (u.get Reg.AM_LOL_CNT.COUNT [n] + 1) (2 ^ 48 - 1))

/-- R183, R184: the adjustment commands, and the end of a slew. -/
def Obligations.PlumbAdjustments : Prop :=
  ∀ s : State, s.released = true → s.plumbOn = true →
  let u := s.disarm State.dueAdj 0
  let seq := s.get Reg.ADJ_CTL.SEQ
  let sec := s.getS Reg.ADJ_SEC.SEC
  let ns := s.getS Reg.ADJ_NS.NS
  let moved (t : State) (time : Int) : Prop := t.time40 = time % (2 ^ 48 * sec40) ∧ t.plb.slew = none ∧ (∀ x ∈ t.plb.slots, x.skip = true) ∧
    t.get Reg.ADJ_STAT.SEQ_DONE = seq ∧ t.get Reg.ADJ_STAT.RESULT = 0 ∧ t.get Reg.PLB_EVT.ADJ_DONE = 1
  (s.adjArmed 0 = true → exec .adjNone s = .next (u.adjDone seq 0)) ∧
  (s.adjArmed 1 = true →
    (0 ≤ sec → 0 ≤ ns → ns < sec16 → ∃ t, exec .adjLoad s = .next t ∧ moved t (sec * sec40 + ns * 2 ^ 24)) ∧
    (sec < 0 ∨ ns < 0 ∨ sec16 ≤ ns → exec .adjLoad s = .next (u.slewAbandon.adjDone seq 2))) ∧
  (s.adjArmed 2 = true →
    let time := s.time40 + sec * sec40 + ns * 2 ^ 24
    (ns.natAbs < sec16 → 0 ≤ time → ∃ t, exec .adjStep s = .next t ∧ moved t time) ∧
    (sec16 ≤ ns.natAbs ∨ time < 0 → exec .adjStep s = .next (u.slewAbandon.adjDone seq 2))) ∧
  (s.adjArmed 3 = true →
    let st := s.get Reg.DISC_STAT.STATE
    (st = dsACQUIRE ∨ st = dsLOCKED → exec .adjSlew s = .next (u.adjDone seq 1)) ∧
    (st ≠ dsACQUIRE → st ≠ dsLOCKED → sec ≠ 0 → exec .adjSlew s = .next (u.adjDone seq 2)) ∧
    (st ≠ dsACQUIRE → st ≠ dsLOCKED → sec = 0 → ns = 0 → exec .adjSlew s = .next (u.slewAbandon.adjDone seq 0)) ∧
    (st ≠ dsACQUIRE → st ≠ dsLOCKED → sec = 0 → ns ≠ 0 → ∃ t, exec .adjSlew s = .next t ∧ t.get Reg.ADJ_STAT.SLEWING = 1 ∧
      t.plb = { s.plb with slew := some ⟨decide (ns < 0), ns.natAbs * 2 ^ 24,
        (rhe ((s.get Reg.ADJ_CTL.SLEW_RATE : Int) * 128 * 2 ^ 40) (10 ^ 8)).toNat, seq⟩ })) ∧
  (s.adjArmed 4 = true →
    (s.slotOf 5 = none → exec .adjMeasure s = .next (u.adjDone seq 3)) ∧
    (s.slotOf 5 ≠ none → exec .adjMeasure s = .next ((u.measure 5 ns s.plb.cyc).adjDone seq 0))) ∧
  (∀ w, s.plb.slew = some w → w.left = 0 →
    exec .slewEnd s = .next (((s.pl fun p => { p with slew := none }).put Reg.ADJ_STAT.SLEWING 0).adjDone w.seq 0))

/-- R185 to R188: what disciplines the Plumb. -/
def Obligations.PlumbDiscipline : Prop :=
  ∀ s : State, s.released = true → s.plumbOn = true →
  (∀ (falling : Bool) (p : Instant), s.on Reg.PLB_CTL.PPS_EDGE = falling →
    let el := s.elapsedAt p.toNat
    let time := s.timeAt p.toNat
    let accepted : Prop := ∀ l, s.plb.ppsLast = some l → ((el : Int) - l - sec40).natAbs ≤ 10 ^ 6 * 2 ^ 40
    let e := time - s.dly Reg.DLY_PPS.DLY 0
    (¬ accepted → s.slotOf 1 = none → exec (.ppsInEdge falling p) s = .next (s.plbEv Reg.PLB_EVT.PPS_REJECT)) ∧
    (∀ i, ¬ accepted → s.slotOf 1 = some i → exec (.ppsInEdge falling p) s = .next ((s.pl fun x =>
      { x with slots := upd x.slots i fun y => if y.qualified then y else { y with run := 0 } }).plbEv Reg.PLB_EVT.PPS_REJECT)) ∧
    (accepted → exec (.ppsInEdge falling p) s = .next (
      ((((s.pl fun x => { x with ppsLast := some el }).setLive Reg.PPS_TS_SEC.base (State.secWord time)).setLive Reg.PPS_TS_NS.base
        (State.nsWord time)).measure 1 (e - rhe e sec16.toNat * sec16) (s.cycleAt p.toNat))))) ∧
  (s.plb.meas = none → exec .servoUpdate s = .next s) ∧
  (∀ e c, s.plb.meas = some (e, c) →
    let u := s.pl fun p => { p with meas := none }
    let big : Prop := s.get Reg.PLB_CTL.STEP_THRESH ≠ 0 ∧ 2 ^ (s.get Reg.PLB_CTL.STEP_THRESH + 20) ≤ e.natAbs
    (s.get Reg.DISC_STAT.STATE = dsLOCKED → big → s.plb.outliers ≠ 2 → exec .servoUpdate s =
      .next ((u.pl fun p => { p with outliers := p.outliers + 1 }).plbEv Reg.PLB_EVT.OUTLIER)) ∧
    (s.get Reg.DISC_STAT.STATE = dsLOCKED → big → s.plb.outliers = 2 → exec .servoUpdate s =
      .next ((((u.pl fun p => { p with outliers := 0, slots := p.slots.map fun y => { y with inRun := 0 } }).plbEv
        Reg.PLB_EVT.OUTLIER).setDisc dsACQUIRE).servoAcquire e c)) ∧
    (s.get Reg.DISC_STAT.STATE ≠ dsLOCKED ∨ ¬ big → exec .servoUpdate s =
      .next ((u.pl fun p => { p with outliers := 0 }).servoAcquire e c))) ∧
  (∀ (u : State) (e : Int) (c : Nat),
    let th := u.get Reg.PLB_CTL.STEP_THRESH
    (th ≠ 0 → 2 ^ (th + 20) ≤ e.natAbs → u.plb.stepped = false → u.servoAcquire e c =
      (((u.setTime40 (u.time40 - e * 2 ^ 24)).spanStep.plbEv Reg.PLB_EVT.AUTO_STEP).lockCount e)) ∧
    (th = 0 ∨ e.natAbs < 2 ^ (th + 20) → 0 < c → ∃ v, u.servoAcquire e c = State.lockCount v e ∧
      let i := rhe (u.plb.integ * (c * 2 ^ u.get Reg.PLB_CTL.KI : Nat) - e * 2 ^ 40) (c * 2 ^ u.get Reg.PLB_CTL.KI)
      let held := clampI (-(703687442 * 65536)) (703687442 * 65536) i
      let f := rhe (held * (c * 2 ^ u.get Reg.PLB_CTL.KP : Nat) - e * 2 ^ 40) (65536 * (c * 2 ^ u.get Reg.PLB_CTL.KP))
      v.plb = { u.plb with integ := held } ∧ v.getS Reg.FREQ_NOW.F = clampI (-703687442) 703687442 f ∧
      (i ≠ held ∨ f.natAbs > 703687442 → v.get Reg.PLB_EVT.FREQ_LIM = 1)) ∧
    (∀ i, u.slotOf (u.get Reg.DISC_STAT.SRC_NOW) = some i → u.plb.slots.length = 4 →
      let run := if e.natAbs ≤ 2 ^ (u.get Reg.PLB_CTL.LOCK_THRESH + 13) then min 16 ((u.srcSlot i).inRun + 1) else 0
      (u.lockCount e).plb = { u.plb with slots := upd u.plb.slots i fun y => { y with inRun := run } } ∧
      (u.lockCount e).get Reg.DISC_STAT.STATE = if run = 16 then dsLOCKED else dsACQUIRE) ∧
    (u.slotOf (u.get Reg.DISC_STAT.SRC_NOW) = none → u.lockCount e = u)) ∧
  (∀ slot : Fin 4, (s.srcSlot slot).qualified = true →
    (if s.slotCode slot = 1 then 250000 else 2 ^ s.get Reg.PLB_CTL.LOSS_TICKS) ≤ (s.srcSlot slot).age → exec (.sourceLoss slot) s =
    .next (s.pl fun p => { p with slots := upd p.slots slot fun y => { y with run := 0, qualified := false } }).reselect) ∧
  (∀ u : State,
    let best := ((List.range 4).filter fun i => (u.srcSlot i).qualified).head?
    let next := (best.map u.slotCode).getD 0
    next ≠ u.get Reg.DISC_STAT.SRC_NOW → next < 8 →
      let t := u.reselect
      t.get Reg.DISC_STAT.SRC_NOW = next ∧ t.get Reg.PLB_EVT.SRC_SWITCH = 1 ∧ t.plb = { u.plb with outliers := 0, meas := none } ∧
      (next = 0 → t.get Reg.DISC_STAT.STATE = dsHOLDOVER ∧ t.get Reg.FREQ_NOW.F = enc (Reg.FREQ_NOW.F.hi + 1 - Reg.FREQ_NOW.F.lo) (rshr u.plb.integ 16)) ∧
      (next ≠ 0 → t.get Reg.DISC_STAT.HOLD_TICKS = 0 ∧ t.get Reg.DISC_STAT.STATE =
        if u.get Reg.DISC_STAT.SRC_NOW ≠ 0 ∧ (u.srcSlot (best.getD 0)).inRun = 16 then dsLOCKED else dsACQUIRE)) ∧
  (s.get Reg.DISC_STAT.STATE = dsHOLDOVER → s.get Reg.PLB_CTL.HOLD_LIMIT ≠ 0 →
    s.get Reg.PLB_CTL.HOLD_LIMIT * 65536 ≤ s.get Reg.DISC_STAT.HOLD_TICKS →
    ∃ t, exec .holdoverExpired s = .next t ∧ t.get Reg.DISC_STAT.STATE = dsEXPIRED ∧
    t.get Reg.PLB_EVT.STATE_CHG = 1 ∧ t.get Reg.FREQ_NOW.F = s.get Reg.FREQ_NOW.F ∧ t.plb = s.plb)

/-- R191 to R193. -/
def Obligations.PlumbPins : Prop :=
  ∀ s : State, s.released = true → s.plumbOn = true →
  (∀ (m : Fin 4) (falling : Bool) (p lasts : Instant),
    s.get Reg.EVT_CFG.MODE [m] = 3 ∨ (s.get Reg.EVT_CFG.MODE [m] = 1 ∧ falling = false) ∨ (s.get Reg.EVT_CFG.MODE [m] = 2 ∧ falling = true) →
    2 * 100 * 65536 ≤ lasts.toNat * 128 →
    let el := s.elapsedAt p.toNat
    let time := s.timeAt p.toNat
    let near : Prop := ∃ l, (s.evtPin m).lastEdge = some l ∧ el < l + 20 * 2 ^ 40
    let u := (s.capEv (36 + m)).setEvt m fun x => { x with lastEdge := some el }
    (near → exec (.evtInputEdge m falling p lasts) s = .next (u.evtEv Reg.PLB_EVT.EVT_OVR m)) ∧
    (¬ near → exec (.evtInputEdge m falling p lasts) s = .next (
      let u := u.whenB (u.evtPin m).unread (·.evtEv Reg.PLB_EVT.EVT_OVR m)
      let v := (u.setLive (Reg.EVT_TS_SEC.addr [m]) (State.secWord time)).setLive (Reg.EVT_TS_NS.addr [m]) (State.nsWord time)
      let v := (v.setEvt m fun x => { x with unread := true }).evtEv Reg.PLB_EVT.EVT_IN m
      let r := s.get Reg.EVT_CFG.RING [m]
      if r = 0 then v else v.enterRecord r State.ringTIMESTAMP
        [[BitVec.ofNat 48 (2 ^ 44 + m * 2 ^ 18 + b2n falling * 2 ^ 17), State.secWord time, State.nsWord time, 0]]))) ∧
  (∀ (m : Fin 4) (falling : Bool) (p lasts : Instant), lasts.toNat * 128 < 2 * 100 * 65536 → exec (.evtInputEdge m falling p lasts) s = .next s) ∧
  (∀ m : Fin 4, s.armed State.dueEvt m = true → s.get Reg.EVT_CFG.MODE [m] = 4 ∨ s.get Reg.EVT_CFG.MODE [m] = 5 →
    let first := s.getS Reg.EVT_SCHED_SEC.SEC [m] * sec16 + s.get Reg.EVT_SCHED_NS.NS [m]
    let late : Prop := 5 * (first * 2 ^ 24 - s.time40) < fiveTicks40
    let u := s.disarm State.dueEvt m
    (¬ late → exec (.evtArm m) s = .next (u.setEvt m fun x => { x with next := some first })) ∧
    (late → exec (.evtArm m) s = .next ((u.setEvt m fun x => { x with next := none }).evtEv Reg.PLB_EVT.EVT_LATE m))) ∧
  (∀ (m : Fin 4) (at_ : Int), (s.evtPin m).next = some at_ →
    let per : Int := s.get Reg.EVT_PERIOD.NS [m]
    let again := s.get Reg.EVT_CFG.MODE [m] = 5 ∧ 0 < per
    let rise := 16 * s.plb.cyc + rhe (3840 * 16 * (at_ * 2 ^ 24 - s.time40)) (s.timeNext40 - s.time40).toNat
    (s.time40 ≤ at_ * 2 ^ 24 → at_ * 2 ^ 24 < s.timeNext40 → exec (.evtOutputPulse m) s = .next (s.setEvt m fun x =>
      { x with next := if again then some (at_ + per) else none, pulse := some (rise, rise + 16 * s.get Reg.EVT_CFG.WIDTH [m]) })) ∧
    (s.time40 ≤ at_ * 2 ^ 24 → s.timeNext40 ≤ at_ * 2 ^ 24 → exec (.evtOutputPulse m) s = .next s) ∧
    (at_ * 2 ^ 24 < s.time40 → ∃ later : Option Int, exec (.evtOutputPulse m) s = .next (s.setEvt m fun x => { x with next := later }) ∧
      (¬ again → later = none) ∧ (again → ∃ n : Nat, later = some (at_ + n * per) ∧
        s.time40 ≤ (at_ + n * per) * 2 ^ 24 ∧ (at_ + n * per - per) * 2 ^ 24 < s.time40))) ∧
  (let ofs := s.getS Reg.PPS_OUT_CTL.OFS * 65536
   let gated := s.get Reg.PPS_OUT_CTL.EN = 0 ∨
     (s.get Reg.PPS_OUT_CTL.GATE = 1 ∧ (s.get Reg.DISC_STAT.STATE = dsFREE_RUN ∨ s.get Reg.DISC_STAT.STATE = dsEXPIRED))
   (gated → exec .ppsOutPulse s = .next s) ∧
   (∀ second : Int,
     let at_ := second * sec16 + ofs
     s.time40 ≤ at_ * 2 ^ 24 → (at_ - sec16) * 2 ^ 24 < s.time40 →
     let due := at_ * 2 ^ 24 < s.timeNext40 ∧ ∀ l, s.plb.ppsOut = some l → l < second
     let rise := s.plb.el + (at_ * 2 ^ 24 - s.time40).toNat
     (¬ gated → due → exec .ppsOutPulse s = .next (s.pl fun p => { p with
       ppsOut := some second, ppsHigh := some (rise, rise + s.get Reg.PPS_OUT_CTL.WIDTH * (1000 * 2 ^ 40)) })) ∧
     (¬ due → exec .ppsOutPulse s = .next s)))

/-- R201, R202, R204, R207, R211, R218: one frame of logical host lane `f.host`, and the departure of a message. -/
def Obligations.TteFrames : Prop :=
  ∀ (s : State), s.wf → s.released = true →
  (∀ f : TteFrame,
    let n : Nat := f.host
    let u := (s.flushTo f.flushed.toNat).tt fun t => { t with out := f.data }
    let answers (t : State) : Prop := exec (.tteFrame f) s = .next t
    (s.hostLane n = none → answers u) ∧
    (∀ k, s.hostLane n = some k →
      let g := s.ttGroup k
      let st := if g = 0 then s.get Reg.TTE_STAT.STATE0 else s.get Reg.TTE_STAT.STATE1
      let works := (s.isT && s.domOn 39 && s.domOn 40 && decide (st ≠ 0) && decide (s.pcsCode n ≠ 0) && s.on (State.omLock f.ingress) [n])
      (works = false → answers u) ∧
      (works = true → tteClassify f.data = none → answers u) ∧
      (∀ c, works = true → tteClassify f.data = some c →
        let typ := if c.early = none then octField f.data c.ptp 1 % 16 else 0
        let other := c.early = none ∧ octField f.data (c.ptp + 1) 1 % 16 = 2 ∧ isEvent typ = false ∧ isFollower typ = false
        let arr := u.tteArrival k n f.ingress f.arrival
        let m : TteMsg := {
          ingress := f.ingress, group := g, link := (u.pcsGroup n).headD n, typ := typ
          domain := if c.early = none then octField f.data (c.ptp + 4) 1 else 0
          seq := if c.early = none then octField f.data (c.ptp + 30) 2 else 0
          port := if c.early = none then octField f.data (c.ptp + 28) 2 else 0
          clock := if c.early = none then octField f.data (c.ptp + 20) 8 else 0
          arrival := arr.1, arrivalEl := arr.2, predicted := u.residence k n f.ingress f.rest.toNat, entry := none }
        (other → answers u) ∧
        (¬ other → st = 1 → answers (u.tteCause g tcPASSED m 0 0)) ∧
        (∀ cause, ¬ other → st ≠ 1 → tteCheck f (u.tteUnc f) c = some cause → answers (u.tteCause g cause m 0 0)) ∧
        (¬ other → st ≠ 1 → tteCheck f (u.tteUnc f) c = none →
          (isEvent typ = true → answers (u.tteEvent f c m m.predicted)) ∧
          (isEvent typ = false → u.get Reg.TTE_CFG.TWO_STEP [g] = 1 → answers (u.tteFollower f c m)) ∧
          (isEvent typ = false → u.get Reg.TTE_CFG.TWO_STEP [g] = 0 → answers u))))) ∧
  (∀ (g cause : Nat) (m : TteMsg) (detail time : Nat), g < 2 → cause < 0x17 →
    (s.tteCause g cause m detail time).get Reg.TTE_CNT.COUNT [g, cause] = min (s.get Reg.TTE_CNT.COUNT [g, cause] + 1) (2 ^ 48 - 1)) ∧
  (∀ (ingress : Bool) (host : Fin 16) (p : Stamp),
    let c := Instr.departurePostcheck ingress host p
    let waits := s.tte.waiting.find? fun m => m.ingress = ingress && m.link = host.val
    (waits = none → exec c s = .next s) ∧
    (∀ m k, waits = some m → s.hostLane host = some k →
      let diff := s.tteDeparture k host ingress p - m.arrivalEl - m.predicted
      let u := s.tt fun t => { t with waiting := t.waiting.erase m }
      let v := match m.entry with
        | none => u
        | some e =>
          let r := u.flowRead e
          match r.2 with
          | none => r.1
          | some w =>
            if flowKeyOf w = ⟨m.typ, m.link, m.domain, m.seq, m.port, m.clock⟩ ∧ (w.getD 0 0).getLsbD 40 = ingress then
              r.1.memWrite memFLOW (4 * e + 2)
                (BitVec.ofNat 48 (setBits (w.getD 2 0).toNat 31 0 (satU 31 (m.predicted + diff)).toNat)) .device
            else r.1
      exec c s = .next (if v.get Reg.TTE_CFG.PRED_TOL [m.group] * 65536 < diff.natAbs * 100
        then v.tteCause m.group tcMISPREDICT m (enc 24 (satS 24 diff)) 0 else v))) ∧
  (∀ (x : TteStream) (a b w : List Nat), x.buf = [a, b] →
    let r := diffRun x.diff ((List.range 5140).map x.delta.contains)
    let d := (List.range 514).map fun i => bitsValue ((r.1.drop (10 * i)).take 10)
    (x.word w).buf = [b, w] ∧ (x.word w).diff = r.2 ∧
    ((∀ y ∈ d, y = 0) → (x.word w).sent = a) ∧
    (¬ (∀ y ∈ d, y = 0) → (x.word w).sent = (a.zip (d ++ Rs.encode 30 d)).map fun q => q.1 ^^^ q.2))

/-- R208, R209: the octets of a frame after `t` (in 2^−16 ns) was added to its correctionField. -/
def Obligations.TteRewrite : Prop :=
  ∀ (d : List Byte) (c : TteClass) (t : Int), c.ptp + 20 ≤ d.length → (c.carrier ≠ .ethernet → c.udp + 8 ≤ c.ptp) →
  let d' := (tteRewrite d c t).1
  let old := sx 64 (octField d (c.ptp + 8) 8)
  d'.length = d.length ∧ d'.drop (d.length - 4) = fcsOf d' ∧
  (∀ i, i < d.length - 4 → i < c.ptp + 8 ∨ c.ptp + 16 ≤ i → (c.carrier ≠ .ethernet → i ≠ c.udp + 6 ∧ i ≠ c.udp + 7) →
    d'.getD i 0 = d.getD i 0) ∧
  (old < 2 ^ 63 - 1 → old + t ≤ 2 ^ 63 - 1 → -(2 ^ 63) ≤ old + t → sx 64 (octField d' (c.ptp + 8) 8) = old + t ∧ (tteRewrite d c t).2 = false) ∧
  (old = 2 ^ 63 - 1 ∨ 2 ^ 63 - 1 < old + t → octField d' (c.ptp + 8) 8 = 2 ^ 63 - 1 ∧ (tteRewrite d c t).2 = true)

/-- R216, R227. -/
def Obligations.FlowTable : Prop :=
  ∀ s : State, s.wf → s.released = true →
  let e := s.get Reg.FLT_ADDR.INDEX
  (∀ q : Requester, s.mayWrite q Reg.FLT_CMD.base →
    let answers (c : Instr) (t : State) : Prop := exec c s = .next (t.wrote q psOK Reg.FLT_CMD.base)
    answers (.fltNop q) s ∧
    (s.fltReady = false → answers (.fltCopy q) s ∧ answers (.fltInvalidate q) s ∧ answers (.fltFlush q) s) ∧
    (s.fltReady = true →
      (∃ v, answers (.fltCopy q) v ∧ ((∀ i < 4, (s.cell memFLOW (4 * e + i)).syndrome = 0 ∧ s.poisoned memFLOW (4 * e + i) = false) →
        (∀ i < 4, v.liveAt (Reg.FLT_DATA.addr [i]) = (s.cell memFLOW (4 * e + i)).data) ∧
        (∀ a, (∀ i < 4, a ≠ Reg.FLT_DATA.addr [i]) → v.liveAt a = s.liveAt a) ∧ v.mem = s.mem)) ∧
      (let w := (s.cell memFLOW (4 * e)).data
       answers (.fltInvalidate q) (if w.getLsbD 47 then s.memWrite memFLOW (4 * e) (BitVec.ofNat 48 (w.toNat - 2 ^ 47)) .device else s)) ∧
      answers (.fltFlush q) ((s.put Reg.FLT_STAT.BUSY 1).tt fun t => { t with flush := some 0 }))) ∧
  (∀ p, s.tte.flush = some p →
    exec .fltFlushDone s = .next (((s.flushTo 4096).put Reg.FLT_STAT.BUSY 0).tt fun t => { t with flush := none })) ∧
  (s.tte.sweepDue = true → s.domOn 39 = true → s.domOn 40 = true → ∃ t, exec .flowSweep s = .next t ∧
    t.tte = { s.tte with sweep := (s.tte.sweep + 16) % 4096, sweepDue := false }) ∧
  (s.tte.sweepDue = false → exec .flowSweep s = .next s)

/-- R221, R224: the index registers of ring `r` and the window. R221, R222. -/
def Obligations.RingIndicesAndRecords : Prop :=
  (
    ∀ (s : State) (q : Requester), s.released = true →
    (∀ (r : Fin 8192) (w : BitVec 48), s.domOn 41 = true →
      let v := w.toNat % 65536
      let m := masterOf q
      let pi := Reg.RNG_PI.addr [r]
      let ci := Reg.RNG_CI.addr [r]
      let fillPi := (v + 65536 - s.get Reg.RNG_CI.INDEX [r]) % 65536
      let fillCi := (s.get Reg.RNG_PI.INDEX [r] + 65536 - v) % 65536
      (s.mayWrite q pi →
        (s.ringType r = 0 ∨ s.get Reg.RNG_CFG.PROD [r] ≠ m.code →
          exec (.rngPiWrite q r w) s = .next ((s.violate m vcRING pi).wrote q psVIOLATION pi)) ∧
        (s.ringType r ≠ 0 → s.get Reg.RNG_CFG.PROD [r] = m.code →
          (fillPi < s.ringFill r ∨ s.ringSize r < fillPi →
            exec (.rngPiWrite q r w) s = .next ((s.ev Reg.RNG_STAT.PI_BAD [r]).wrote q psOK pi)) ∧
          (s.ringFill r ≤ fillPi → fillPi ≤ s.ringSize r →
            let t := s.ringTouch r fun s => s.put Reg.RNG_PI.INDEX v [r]
            exec (.rngPiWrite q r w) s = .next ((t.whenB (m ≠ .quaran && decide (r.val < 16) && decide (s.ringType r = State.ringCOMMAND) &&
              decide (t.ringFill r ≠ s.ringFill r)) (·.wakeBy wkRING)).wrote q psOK pi)))) ∧
      (s.mayWrite q ci →
        (s.ringType r = 0 ∨ s.get Reg.RNG_CFG.CONS [r] ≠ m.code →
          exec (.rngCiWrite q r w) s = .next ((s.violate m vcRING ci).wrote q psVIOLATION ci)) ∧
        (s.ringType r ≠ 0 → s.get Reg.RNG_CFG.CONS [r] = m.code →
          (s.ringFill r < fillCi → exec (.rngCiWrite q r w) s = .next ((s.ev Reg.RNG_STAT.CI_BAD [r]).wrote q psOK ci)) ∧
          (fillCi ≤ s.ringFill r →
            exec (.rngCiWrite q r w) s = .next ((s.ringTouch r fun s => s.put Reg.RNG_CI.INDEX v [r]).wrote q psOK ci))))) ∧
    (∀ (a : BitVec 18) (w : BitVec 48), s.mayWrite q (Reg.RNG_WINDOW.base + a.toNat) →
      let x := 2 ^ 18 * s.get Reg.RNG_WIN.PAGE + a.toNat
      exec (.ringWindowWrite q a w) s = .next (((s.whenB (s.isPageHit memRING x) State.isAbort).memWrite memRING x w (masterOf q)).wrote q psOK
        (Reg.RNG_WINDOW.base + a.toNat)))) ∧
  (
    ∀ (s : State) (r ty : Nat) (entries : List (List Word)), s.wf → r < 8192 →
    let t := s.enterRecord r ty entries
    let n := entries.length
    let pi := s.get Reg.RNG_PI.INDEX [r]
    (s.ringType r ≠ ty ∨ s.domOn 41 = false → t = s) ∧
    (s.ringType r = ty → s.domOn 41 = true → s.ringSize r < s.ringFill r + n →
      t.get Reg.RNG_STAT.LOST [r] = min 65535 (s.get Reg.RNG_STAT.LOST [r] + 1) ∧ t.get Reg.RNG_STAT.OVF [r] = 1 ∧
      t.get Reg.RNG_PI.INDEX [r] = pi ∧ t.mem = s.mem ∧ t.ringCounts r = ((s.ringCounts r).1, (s.ringCounts r).2 + 1)) ∧
    (s.ringType r = ty → s.domOn 41 = true → s.ringFill r + n ≤ s.ringSize r →
      t.get Reg.RNG_PI.INDEX [r] = (pi + n) % 65536 ∧ t.get Reg.RNG_STAT.LOST [r] = s.get Reg.RNG_STAT.LOST [r] ∧
      t.ringCounts r = (((s.ringCounts r).1 + 1) % 65536, 0)) ∧
    (∀ x, s.ringWord r x = s.get Reg.RNG_CFG.BASE [r] + 4 * (x % 2 ^ s.get Reg.RNG_CFG.SIZE_EXP [r])))

/-- R231, R232, R234, R236, R238, R248, R250: link `j`. `v` is the state once the symbols `l` of the span, and what they brought about before
its last event, have had their effect. -/
def Obligations.ScrimLinkStates : Prop :=
  ∀ (s : State) (j : Fin 10), s.released = true →
  let k := s.link j
  (∀ (l : LinkSpan) (t : State) (pre : List LinkEvt) (e : LinkEvt), s.linkIn j l = (t, pre ++ [e]) →
    let v := pre.foldl (fun v e => v.linkEffect j 0 (s.timeAt 0) e) t
    (e = .gained → v.linkRuns j = true →
      (let u := v.setLink j fun l => { l with sync := true }
       exec (.scrimSyncGain j l) s =
         .next (if u.linkState j = lkDOWN ∨ u.linkState j = lkOFF then u.put Reg.LINK_STAT.STATE lkSYNC [j] else u))) ∧
    (e = .lost →
      (let u := v.setLink j fun l => { l with sync := false, rx := { LinkRx.start with disp := l.rx.disp, sh := l.rx.sh, ph := l.rx.ph } }
       exec (.scrimSyncLoss j l) s = .next (if u.linkState j = lkOFF then u else u.linkLeave j lkDOWN))) ∧
    (e = .slip → exec (.ebSlip j l) s = .next (((v.inc Reg.SCR_VIOL_CNT.COUNT [0x10 - 1]).ev Reg.SCR_EVT.VIOL).seqEv 10)) ∧
    (e = .code → exec (.scrimBadFrame j l) s = .next ((v.viol vCODE).inc Reg.CODE_ERR_CNT.COUNT [j])) ∧
    (∀ (code : Nat) (nak : Bool), e = .cut code nak →
      let u := ((v.inc Reg.SCR_VIOL_CNT.COUNT [code - 1]).ev Reg.SCR_EVT.VIOL).seqEv 10
      let answered := nak = true ∧ (u.linkState j = lkUP ∨ u.linkState j = lkLOOPED)
      (answered → exec (.scrimBadFrame j l) s = .next (u.sendNak j)) ∧
      (¬ answered → exec (.scrimBadFrame j l) s = .next u)) ∧
    (∀ nak : Bool, e = .stop nak →
      let answered := nak = true ∧ (v.linkState j = lkUP ∨ v.linkState j = lkLOOPED)
      (answered → exec (.scrimBadFrame j l) s = .next (v.sendNak j)) ∧
      (¬ answered → exec (.scrimBadFrame j l) s = .next v))) ∧
  (s.linkRuns j = true → k.sync = true → 2 ^ s.get Reg.SCR_CFG.HELLO_EXP ≤ k.sinceHello → exec (.helloSend j) s =
    .next ((s.sendCtl j 1 0 (s.helloPayload j)).setLink j fun l => { l with sinceHello := 0 })) ∧
  (s.linkState j = lkUP ∨ s.linkState j = lkLOOPED → s.get Reg.SCR_CFG.HELLO_LOSS * 2 ^ s.get Reg.SCR_CFG.HELLO_EXP ≤ k.helloAge →
    exec (.helloLoss j) s = .next (s.linkLeave j lkSYNC)) ∧
  (∀ a rest, k.ages = a :: rest → s.get Reg.SCR_CFG.RTX_TICKS ≤ a →
    let u := s.setLink j fun l => { l with timeouts := l.timeouts + 1 }
    (k.timeouts + 1 < s.get Reg.SCR_CFG.RTX_MAX → j < s.scr.links.length → exec (.retxTimeout j) s = .next (u.resend j 0)) ∧
    (s.get Reg.SCR_CFG.RTX_MAX ≤ k.timeouts + 1 → j < s.scr.links.length → exec (.retxTimeout j) s = .next (u.linkLeave j lkSYNC))) ∧
  (∀ n < 16, s.txMode (s.hostHome n) = 10 → (∀ i < n, 64 < (s.hlane i).tx.length ∧ (s.hlane i).tx.length < 960) → s.domOn 48 = true →
    let h := s.hlane n
    let counted (u : State) : State := ((u.inc Reg.LOOP_SLIP_CNT.COUNT).ev Reg.SCR_EVT.LOOP_SLIP).seqEv 10
    (960 ≤ h.tx.length → exec .loopSlip s = .next (counted (s.setHlane n fun _ => { h with tx := h.tx.drop 544 }))) ∧
    (h.tx.length ≤ 64 → h.txPast.length = 544 →
      exec .loopSlip s = .next (counted (s.setHlane n fun _ => { h with tx := h.txPast.reverse ++ h.tx }))))

/-- R235, R236, R238, R243, R244, R249, R250: the control frames. A span of symbols ends with frame `f`; `v` is the state before its effect,
and `u` has counted the frame. -/
def Obligations.ScrimControlFrames : Prop :=
  (∀ (s : State) (j : Fin 10) (p : Instant) (l : LinkSpan) (t : State) (pre : List LinkEvt) (f : SFrame), s.released = true →
    s.linkIn j l = (t, pre ++ [.frame f]) →
    let v := pre.foldl (fun v e => v.linkEffect j p.toNat (s.timeAt p.toNat) e) t
    v.linkRuns j = true → (v.link j).sync = true → lkSYNC ≤ v.linkState j →
    let u := (v.inc Reg.RX_FRAME_CNT.COUNT [j]).pmc (0x70 + j)
    let w := if 8 ≤ j.val then u.wakeBy wkSCRIM else u
    (f.typ = 0x01 → exec (.hello j p l) s = .next (if f.noack then u.helloRx j f.data else u.viol vPROTO)) ∧
    (u.linkState j = lkUP ∨ u.linkState j = lkLOOPED →
      (f.typ = 0x02 → exec (.ack j p l) s = .next (if f.data = [] then w.ackRx j f.seq else w.viol vPROTO)) ∧
      (f.typ = 0x03 → exec (.nak j p l) s = .next (if f.data = [] then w.nakRx j f.seq else w.viol vPROTO)) ∧
      (f.typ = 0x04 → exec (.timeFrame j p l) s = .next (if f.noack then w.timeRx j p.toNat f else w.viol vPROTO)) ∧
      (f.typ = 0x30 →
        (f.noack = false → exec (.bootReq j p l) s = .next (w.viol vPROTO)) ∧
        (f.noack = true → w.scrimBoots = true → exec (.bootReq j p l) s = .next (w.viol vBAD_TYPE)) ∧
        (f.noack = true → w.scrimBoots = false →
          (∀ x, w.toRing j p.toNat f = .done x → exec (.bootReq j p l) s = .next x) ∧
          (w.toRing j p.toNat f = .badType → exec (.bootReq j p l) s = .next (w.viol vBAD_TYPE)) ∧
          (w.toRing j p.toNat f = .busy → exec (.bootReq j p l) s = .next (w.viol vRX_BUSY)))))) ∧
  (∀ (s : State) (j : Nat) (n : BitVec 16), j < s.scr.links.length →
    let l := s.link j
    let d := (n - (l.txSeq - BitVec.ofNat 16 l.unacked.length)).toNat
    (l.unacked.length < d → s.ackRx j n = s.viol vSEQ_BAD ∧ s.nakRx j n = s.viol vSEQ_BAD) ∧
    (d = 0 → s.ackRx j n = s) ∧
    (0 < d → d ≤ l.unacked.length → l.waiting = [] →
      ((s.ackRx j n).link j).unacked = l.unacked.drop d ∧ ((s.ackRx j n).link j).timeouts = 0) ∧
    (d ≤ l.unacked.length → ((s.nakRx j n).link j).unacked =
      l.unacked.take d ++ (l.unacked.drop d).map fun f => { f with retx := true })) ∧
  (∀ (s : State) (j at_ : Nat) (f : SFrame) (t1 t4 : Int) (no : Byte),
    let l := s.link j
    let peer := BitVec.ofNat 8 (octField f.data 0 1)
    l.rxArrival = some t4 → l.marks.find? (·.1 = BitVec.ofNat 8 (octField f.data 5 1)) = some (no, t1) → s.plumbOn = false →
      let t3 := State.extendTime (s.timeAt at_) (octField f.data 1 4)
      let t2 := State.extendTime (s.timeAt at_) (octField f.data 6 4)
      let theta := rhe ((t4 - t3) - (t2 - t1) + s.getS Reg.TT_ASYM.ASYM [j]) 2
      s.timeRx j at_ f = (((s.setLink j fun l => { l with rxMark := some (peer, t4), rxArrival := none }).putI Reg.TT_THETA.THETA theta [j]).putI
        Reg.TT_DIN.DIN ((t4 - t3) - theta) [j]).put Reg.TT_DIN.VALID 1 [j])

/-- R235 to R242, R245, R249, R250: a span of symbols ends with a frame of each type that needs an ACK. `v` is the state before its effect,
and `w` has counted the frame. -/
def Obligations.ScrimMessages : Prop :=
  ∀ (s : State) (j : Fin 10) (p : Instant) (l : LinkSpan) (t : State) (pre : List LinkEvt) (f : SFrame), s.released = true →
    s.linkIn j l = (t, pre ++ [.frame f]) →
  let v := pre.foldl (fun v e => v.linkEffect j p.toNat (s.timeAt p.toNat) e) t
  v.linkRuns j = true → (v.link j).sync = true → f.noack = false →
  let u := (v.inc Reg.RX_FRAME_CNT.COUNT [j]).pmc (0x70 + j)
  lkSYNC ≤ v.linkState j → u.linkState j = lkUP ∨ u.linkState j = lkLOOPED →
  let w := if 8 ≤ j.val then u.wakeBy wkSCRIM else u
  let ahead := (f.seq - (w.link j).rxSeq).toNat
  let acked (x : State) := (x.setLink j fun l => { l with rxSeq := l.rxSeq + 1, nakArmed := true }).sendAck j
  let fresh := w.isLocal f = true ∧ w.msnNew f.src f.msn = true
  let kept (x : State) := acked (x.msnKeep f.src f.msn)
  (∀ c : Instr,
    (t.isLocal f = true ∧ (c, f.typ) ∈ ([(.regRd j p l, 0x10), (.regWr j p l, 0x11), (.regRsp j p l, 0x12), (.trigAt j p l, 0x20),
      (.bootData j p l, 0x31), (.bootEnd j p l, 0x32), (.loopCmd j p l, 0x40), (.loopRsp j p l, 0x41)] : List (Instr × Byte))) ∨
    (t.isLocal f = true ∧ c = .userMessage j p l ∧ namedType f.typ.toNat = false) ∨
    (t.isLocal f = false ∧ c = .scrimForward j p l ∧ State.controlType f.typ.toNat = false) →
    (0 < ahead → ahead < 32768 → exec c s = .next (w.sendNak j)) ∧
    (32768 ≤ ahead → exec c s = .next (w.sendAck j)) ∧
    (ahead = 0 → w.isLocal f = false →
      (w.route f.dst.toNat = none → exec c s = .next (acked (w.viol vNO_ROUTE))) ∧
      (∀ k, w.route f.dst.toNat = some k →
        (f.hops = 0 → exec c s = .next (acked (w.viol vTTL))) ∧
        (f.hops ≠ 0 → w.bufferFull f = true → exec c s = .next (w.viol vRX_BUSY)) ∧
        (f.hops ≠ 0 → w.bufferFull f = false → exec c s = .next (acked (w.sendFrame k { f with hops := f.hops - 1 }))))) ∧
    (ahead = 0 → w.isLocal f = true → w.msnNew f.src f.msn = false → exec c s = .next (acked (w.viol vDUP))) ∧
    (ahead = 0 → fresh →
      (∀ x, w.takeMessage j p.toNat f = .done x → exec c s = .next (kept x)) ∧
      (w.takeMessage j p.toNat f = .badType → exec c s = .next (acked (w.viol vBAD_TYPE))) ∧
      (w.takeMessage j p.toNat f = .busy → exec c s = .next (w.viol vRX_BUSY)))) ∧
  (ahead = 0 → t.isLocal f = true → fresh →
    (f.typ = 0x10 → exec (.regRd j p l) s = .next (kept (w.regRequest j p.toNat f false))) ∧
    (f.typ = 0x11 → exec (.regWr j p l) s = .next (kept (w.regRequest j p.toNat f true))) ∧
    (f.typ = 0x12 → w.get Reg.PROXY_STAT.BUSY = 1 → exec (.regRsp j p l) s = .next (kept (w.proxyRsp f.data))) ∧
    (f.typ = 0x20 → exec (.trigAt j p l) s =
      .next (kept (w.trigAt (sx 48 (octField f.data 0 6) * sec16 + octField f.data 6 6) (octField f.data 12 1)))) ∧
    (f.typ = 0x31 → w.scrimBoots = true → exec (.bootData j p l) s = .next (kept (w.bootData f))) ∧
    (f.typ = 0x32 → w.scrimBoots = true →
      exec (.bootEnd j p l) s = .next (kept (if octField f.data 0 4 = w.sec.bootOfs then w.secVerify 0 else w))) ∧
    (∀ x, w.toRing j p.toNat f = .done x →
      (f.typ = 0x40 → exec (.loopCmd j p l) s = .next (kept x)) ∧
      (f.typ = 0x41 → exec (.loopRsp j p l) s = .next (kept x)) ∧
      (0x50 ≤ f.typ.toNat → f.typ.toNat ≤ 0x7F → exec (.userMessage j p l) s = .next (kept x))))

/-- R229, R241 to R243, R245, R249. -/
def Obligations.ScrimServices : Prop :=
  (∀ (rd : Bool) (b : Byte), symOf rd (groupOf rd (.data b)) = .data b) ∧
  (∀ (rd : Bool) (b : Byte), b.toNat ∈ kGroups.map (·.1) → symOf rd (groupOf rd (.ctl b)) = .ctl b) ∧
  ∀ s : State, s.released = true →
  (∀ (j : Fin 10) (symbol : Fin 6) (at_ : Stamp) (l : LinkSpan) (t : State) (pre : List LinkEvt) (e : LinkEvt), s.linkIn j l = (t, pre ++ [e]) →
    let arr := s.arrivalTime j symbol at_
    let v := pre.foldl (fun v e => v.linkEffect j 0 arr e) t
    (e = .mark → exec (.tmarkRx j symbol at_ l) s = .next (v.setLink j fun l => { l with rxArrival := some arr })) ∧
    (e = .trig → v.linkState j = lkUP → v.get Reg.LINK_CFG.TRIG_RX_EN [j] = 1 →
      let lat : Int := v.get Reg.SCR_CFG2.TRIG_LAT * 65536
      let listens (u : State) : Prop := u.domOn 45 = true ∧ u.capState ≠ ceIDLE ∧ u.capState < ceREARM
      (v.get Reg.TT_DIN.VALID [j] = 0 →
        let u := v.linkEv Reg.LINK_EVT.TRIG_UNCOMP j
        (listens u → exec (.trigRx j symbol at_ l) s = .next (u.cp fun e => { e with trigs := e.trigs ++ [arr + lat] })) ∧
        (¬ listens u → exec (.trigRx j symbol at_ l) s = .next u)) ∧
      (v.get Reg.TT_DIN.VALID [j] = 1 →
        let fire := arr - v.get Reg.TT_DIN.DIN [j] + lat
        let u := if fire < arr then v.linkEv Reg.LINK_EVT.TRIG_LATE j else v
        (listens u → exec (.trigRx j symbol at_ l) s = .next (u.cp fun e => { e with trigs := e.trigs ++ [max fire arr] })) ∧
        (¬ listens u → exec (.trigRx j symbol at_ l) s = .next u)))) ∧
  (∀ (q : Requester) (w : Word), s.mayWrite q Reg.PROXY_CTL.base →
    let u := s.fieldsWrite Reg.PROXY_CTL Reg.PROXY_CTL.base (w ||| 1)
    let answers (t : State) : Prop := exec (.proxyGo q w) s = .next (t.wrote q psOK Reg.PROXY_CTL.base)
    (u.get Reg.PROXY_STAT.BUSY = 1 → answers u) ∧
    (u.get Reg.PROXY_STAT.BUSY = 0 →
      let r := u.sendMessage (BitVec.ofNat 16 (u.get Reg.PROXY_CTL.DST)) (u.get Reg.PROXY_CTL.LINK)
        (if u.on Reg.PROXY_CTL.WRITE then 0x11 else 0x10)
        (octets 3 (u.get Reg.PROXY_ADDR.ADDR) ++ octets 1 1 ++ (if u.on Reg.PROXY_CTL.WRITE then octets 6 (u.get Reg.PROXY_DATA.DATA) else []))
      (r.2 = true → answers { r.1.put Reg.PROXY_STAT.BUSY 1 with scr := { r.1.scr with proxy := some 1024 } }) ∧
      (r.2 = false → answers (r.1.proxyEnd 6)))) ∧
  (s.scr.proxy = some 0 → exec .proxyTimeout s = .next (s.proxyEnd 5)) ∧
  (s.scrimBoots = true → s.scr.bootWait = 0 → s.linkUp 8 = true ∨ s.linkUp 9 = true → ∃ t, exec .bootReqSend s = .next t ∧ t.scr.bootWait = 16 ∧
    (s.linkUp 8 = true → t.get Reg.TX_FRAME_CNT.COUNT [8] = min (s.get Reg.TX_FRAME_CNT.COUNT [8] + 1) (2 ^ 48 - 1)) ∧
    (s.linkUp 9 = true → t.get Reg.TX_FRAME_CNT.COUNT [9] = min (s.get Reg.TX_FRAME_CNT.COUNT [9] + 1) (2 ^ 48 - 1))) ∧
  (∀ (p : Instant) (v : State), s.domOn 48 = true → s.fabTxNext = (v, none) → exec (.fabricTxSend p) s = .next v) ∧
  (∀ (p : Instant) (v : State) (n : Nat) (ok : Bool) (ws : List Word), s.domOn 48 = true → s.fabTxNext = (v, some (n, ok, ws)) →
    let g (i : Nat) : Nat := (ws.getD i 0).toNat
    let typ := bits (g 0) 15 8
    let len := bits (g 3) 8 0
    let m := v.nextMsn.2
    let u : State := { v.nextMsn.1 with scr := { v.nextMsn.1.scr with tx := v.nextMsn.1.scr.tx ++ [(m, n, false)] } }
    let good := ok = true ∧ State.txType typ = true ∧ len ≤ 256 ∧ 1 + (len + 23) / 24 ≤ n
    let f : SFrame := ⟨BitVec.ofNat 16 (bits (g 3) 47 32), v.nextMsn.1.srcAddr, BitVec.ofNat 8 typ, 15, false, false, 0, m,
      ((ws.drop 4).flatMap wordBytes).take len⟩
    let j := bits (g 0) 19 16
    (¬ good →
      let x := ((v.inc Reg.TX_BAD_CNT.COUNT).ev Reg.SCR_EVT.TX_BAD).seqEv 10
      exec (.fabricTxSend p) s =
        .next ({ x with scr := { x.scr with tx := x.scr.tx ++ [(x.scr.msn, n, true)] } }.fabTxDone (x.scr.tx.length + 1))) ∧
    (good → f.dst = 0xFFFF → exec (.fabricTxSend p) s =
      .next (if u.linkUp j = true ∨ u.linkState j = lkLOOPED then u.sendFrame j f else u.noRoute f)) ∧
    (good → f.dst ≠ 0xFFFF → u.isLocal f = false → exec (.fabricTxSend p) s = .next (u.sendOn f)) ∧
    (∀ t, good → f.dst ≠ 0xFFFF → u.isLocal f = true → u.takeMessage j p.toNat f = .done t →
      exec (.fabricTxSend p) s = .next (t.fabTxFinish m)))

/-- R254, R269, R272, R279, R282. -/
def Obligations.SequencerRuns : Prop :=
  ∀ s : State, s.wf → s.released = true →
  (s.mayRun = true →
    (s.seq.run.isSome = true → exec .taskRunStart s = .next { s with seq := { s.seq with suspended := false } }) ∧
    (∀ k < 32, s.seq.run = none → s.get Reg.SEQ_TSTAT.PENDING [k] = 1 →
      (∀ i < 32, s.get Reg.SEQ_TSTAT.PENDING [i] = 1 → s.get Reg.SEQ_TASK.PRIO [k] < s.get Reg.SEQ_TASK.PRIO [i] ∨
        (s.get Reg.SEQ_TASK.PRIO [k] = s.get Reg.SEQ_TASK.PRIO [i] ∧ k ≤ i)) →
      ∃ t : State, exec .taskRunStart s = .next t ∧ t = { s with seq := t.seq, live := t.live } ∧ State.sameButCounts s t ∧
        t.seq = { s.seq with run := some k, task := k, pc := s.get Reg.SEQ_TSTAT.RESUME [k], z := false, n := false, c := false, v := false,
                             stack := [], ldRd := none, mac1 := none, mac2 := none, cyc := s.seq.cyc + 2
                             edge := ([0x01, 0x04], s.seq.edge.2) }) ∧
    (s.seq.run = none → (∀ i < 32, s.get Reg.SEQ_TSTAT.PENDING [i] = 0) → exec .taskRunStart s = .next s)) ∧
  (∀ q : Requester, s.mayWrite q Reg.SEQ_CTL.base →
    let answers (h : Bool) (t : State) : Prop := exec (.haltReq q h) s = .next (t.wrote q psOK Reg.SEQ_CTL.base)
    (s.seq.halted = false → answers true ((((s.put Reg.SEQ_CTL.HALT_REQ 1).ev Reg.SEQ_EVT.HALTED).sq fun x => { x with halted := true })) ∧
      answers false (s.put Reg.SEQ_CTL.HALT_REQ 0)) ∧
    (s.seq.halted = true → answers true (s.put Reg.SEQ_CTL.HALT_REQ 1) ∧
      answers false ((s.put Reg.SEQ_CTL.HALT_REQ 0).sq fun x =>
        { x with halted := false, suspended := x.run.isSome, hold := true }) ∧
      (∀ (p : Instant) (n : Fin 13) (h : BitVec 10), exec (.seqStep (some q) p n h) s =
        exec (.seqStep none p n h) (((s.put Reg.SEQ_CTL.HALT_REQ 1).sq fun x => { x with stepDue := true }).wrote q psOK Reg.SEQ_CTL.base)))) ∧
  (∀ (p : Instant) (n : Fin 13) (h : BitVec 10), s.seq.halted = true → s.seq.stepDue = true →
    let u := { s with seq := { s.seq with stepDue := false, halted := false, suspended := false, cyc := 0 } }
    let done (v : State) : State :=
      (((v.put Reg.SEQ_CTL.HALT_REQ 1).ev Reg.SEQ_EVT.HALTED).sq fun x =>
        { x with suspended := s.seq.suspended && x.run.isSome, cyc := x.cyc + s.seq.cyc, halted := true })
    (s.seq.run = none → exec (.seqStep none p n h) s = .next { s with seq := { s.seq with stepDue := false } }) ∧
    (s.seq.run.isSome = true →
      (∀ rd m left, s.seq.waiting = some (rd, m, left) →
        (s.get Reg.SEQ_EVPEND.PEND &&& m.toNat ≠ 0 ∨ left = 0 → exec (.seqStep none p n h) s = .next (done (u.waitEnd rd m))) ∧
        (s.get Reg.SEQ_EVPEND.PEND &&& m.toNat = 0 → left ≠ 0 → exec (.seqStep none p n h) s = .next (done (u.waitPass 1)))) ∧
      (∀ v w f, s.seq.waiting = none → s.seq.resetting = false → s.seq.clkStopped = false → u.fetch = (v, true, w) →
        State.wordOp w p.toNat n h.toNat = some f → (f v).seq.halted = false → (f v).seq.waiting = none →
        exec (.seqStep none p n h) s = .next (done (f v)))))

/-- R271, R283, R299, R300, R438. -/
def Obligations.SequencerResets : Prop :=
  ∀ s : State, s.wf → s.released = true →
  let cleared (t : State) : Prop := t.seq.w = List.replicate 32 0 ∧ t.seq.acc = List.replicate 2 0 ∧ t.seq.z = false ∧ t.seq.n = false ∧
    t.seq.c = false ∧ t.seq.v = false ∧ t.seq.sf = false ∧ t.seq.stack = [] ∧ t.seq.run = none ∧ t.seq.heldPush = [] ∧ t.seq.heldPop = [] ∧
    t.seq.halted = false ∧ t.seq.resetting = true ∧ t.mem = s.mem ∧ t.under = s.under ∧ t.rings = s.rings ∧ t.set = s.set ∧
    t.pwr = s.pwr ∧ t.get Reg.SEQ_WDOG.COUNT = 16 * s.get Reg.SEQ_WDOG.PERIOD ∧
    (∀ i < 32, t.get Reg.SEQ_TSTAT.RESUME [i] = s.get Reg.SEQ_TASK.ENTRY [i] ∧ t.get Reg.SEQ_TSTAT.PENDING [i] = 0) ∧
    t.get Reg.RST_CAUSE.CODE = 7
  let trial : Prop := s.get Reg.SEQ_SWAP.STATE = 2
  (s.seq.wdogDue = true → ∃ t : State, exec .wdogExpiry s = .next t ∧ cleared t ∧
    t.get Reg.WDOG_CNT.COUNT = min (s.get Reg.WDOG_CNT.COUNT + 1) (2 ^ 48 - 1) ∧ t.get Reg.SEQ_EVT.WDOG = 1 ∧
    t.seq.revert = if trial then some 4 else s.seq.revert) ∧
  (s.seq.faultDue = true →
    let u := (((s.put Reg.SEQ_SCHED.FAULT 1).inc Reg.FAULT_CNT.COUNT).put Reg.SEQ_SCHED.CONSEC 0).sq fun x => { x with faultDue := false }
    (s.get Reg.SEQ_SCHED.FAULT_ACT = 0 → exec .seqFault s = .next (u.halt.sq fun x => { x with revert := if trial then some 4 else x.revert })) ∧
    (s.get Reg.SEQ_SCHED.FAULT_ACT = 1 → ∃ t : State, exec .seqFault s = .next t ∧ cleared t ∧ t.get Reg.SEQ_SCHED.FAULT = 1 ∧
      t.get Reg.SEQ_SCHED.CONSEC = 0 ∧ t.get Reg.WDOG_CNT.COUNT = s.get Reg.WDOG_CNT.COUNT ∧
      t.get Reg.FAULT_CNT.COUNT = min (s.get Reg.FAULT_CNT.COUNT + 1) (2 ^ 48 - 1) ∧ t.seq.revert = if trial then some 4 else s.seq.revert)) ∧
  (∀ (q : Requester) (w : Word), s.mayWrite q Reg.SEQ_WDOG.base →
    let p := bits w.toNat 7 0
    let answers (t : State) : Prop := exec (.wdogWrite q w) s = .next (t.wrote q psOK Reg.SEQ_WDOG.base)
    (p ≠ s.get Reg.SEQ_WDOG.PERIOD → answers ((s.put Reg.SEQ_WDOG.PERIOD p).put Reg.SEQ_WDOG.COUNT (16 * p))) ∧
    (p = s.get Reg.SEQ_WDOG.PERIOD → bits w.toNat 15 8 = 0x5A → q = .quaran → answers (s.put Reg.SEQ_WDOG.COUNT (16 * p))) ∧
    (p = s.get Reg.SEQ_WDOG.PERIOD → bits w.toNat 15 8 ≠ 0x5A ∨ q ≠ .quaran → answers s)) ∧
  (∀ q : Requester, s.mayWrite q Reg.SEQ_SWAP.base →
    let other := 1 - s.runningSlot
    let r := s.get (State.imgResult other)
    let old := r = irROLLBACK ∨ (r = irOK ∧ s.get (State.imgLevel other) < s.get Reg.SEC_ARB.LEVEL)
    let answers (t : State) : Prop := exec (.swapReq q) s = .next (t.wrote q psOK Reg.SEQ_SWAP.base)
    (s.get Reg.JNL_STAT.STATE ≠ 0 → answers (s.put Reg.SEQ_SWAP.RESULT 3)) ∧
    (s.get Reg.JNL_STAT.STATE = 0 →
      (s.get Reg.SEQ_SWAP.STATE = 1 ∨ trial → answers s) ∧
      (s.get Reg.SEQ_SWAP.STATE ≠ 1 → ¬ trial →
        (old → answers (s.put Reg.SEQ_SWAP.RESULT 2)) ∧
        (¬ old → r ≠ irOK ∨ s.imgBad other = true → answers (s.put Reg.SEQ_SWAP.RESULT 1)) ∧
        (¬ old → r = irOK → s.imgBad other = false → answers ((s.put Reg.SEQ_SWAP.STATE 1).put Reg.SEQ_SWAP.RESULT 0)))) ∧
    (trial →
      let u := (s.put Reg.SEQ_SWAP.STATE 0).put Reg.SEQ_SWAP.RESULT 0
      (s.get Reg.SEC_CFG.ARB_AUTO = 0 → exec (.confirm q) s = .next (u.wrote q psOK Reg.SEQ_SWAP.base)) ∧
      (s.get Reg.SEC_CFG.ARB_AUTO = 1 → exec (.confirm q) s =
        .next ((u.put Reg.SEC_ARB.LEVEL (max (s.get Reg.SEC_ARB.LEVEL) (min 64 (s.get (State.imgLevel s.runningSlot))))).wrote q psOK Reg.SEQ_SWAP.base))) ∧
    (¬ trial → exec (.confirm q) s = .next (s.wrote q psOK Reg.SEQ_SWAP.base))) ∧
  (s.seq.swapDue = true → ∃ t : State, exec .swapExecute s = .next t ∧ t.runningSlot = 1 - s.runningSlot ∧ t.seq.run = none ∧
    t.seq.swapDue = false ∧ t.mem = s.mem ∧ t.under = s.under ∧ t.rings = s.rings ∧ t.jnl = s.jnl ∧
    (∀ i < 32, i ≠ 0 → t.get Reg.SEQ_TASK.EN [i] = 0 ∧ t.get Reg.SEQ_TSTAT.PENDING [i] = 0) ∧ t.get Reg.SEQ_TASK.EN [0] = 1 ∧
    t.get Reg.SEQ_TASK.PRIO [0] = 0 ∧ t.get Reg.SEQ_TASK.PER [0] = 0 ∧ t.get Reg.SEQ_TASK.ENTRY [0] = 0 ∧
    (s.seq.revert = none → t.get Reg.SEQ_SWAP.STATE = 2 ∧ t.seq.trialEnd = s.ticks + 2 ^ s.get Reg.SEQ_SWAP.TRIAL) ∧
    (∀ c, s.seq.revert = some c → c < 256 → t.get Reg.SEQ_SWAP.STATE = 3 ∧ t.get Reg.SEQ_SWAP.RESULT = c)) ∧
  (trial → s.seq.revert = none →
    (s.seq.trialEnd ≤ s.ticks → exec .trialTimeout s = .next { s with seq := { s.seq with revert := some 5 } }) ∧
    (s.ticks < s.seq.trialEnd → exec .trialTimeout s = .next s))

/-- R265, R272, R274, R277, R280. -/
def Obligations.SequencerRegisters : Prop :=
  ∀ (s : State) (q : Requester), s.wf →
  let a := s.get Reg.SEQ_DBG_ADDR.ADDR
  let clear : Prop := s.isPageHit memDMEM (a - 0x100000) = false ∧ s.isPageHit memIMEM (a - 0x200000) = false
  (s.busOpen q → s.domOn 42 = true →
    let reads (t : State) (st : Nat) (w : Word) : Prop := exec (.seqDbgAccess q none) s = .next (t.readDone q st Reg.SEQ_DBG_DATA.base w)
    (a < 0x20 → reads s psOK (if a = 0 then 0 else s.seq.w.getD a 0)) ∧
    (0x20 ≤ a → a < 0x23 → reads s psOK (State.accPart (s.seq.acc.getD 0 0) (a - 0x20))) ∧
    (0x24 ≤ a → a < 0x27 → reads s psOK (State.accPart (s.seq.acc.getD 1 0) (a - 0x24))) ∧
    (a = 0x28 → reads s psOK (BitVec.ofNat 48 s.flagsCode)) ∧
    (a = 0x29 → reads s psOK (BitVec.ofNat 48 s.seq.pc)) ∧
    (a = 0x23 ∨ a = 0x27 ∨ (0x2A ≤ a ∧ a < 0x100000) → reads s psOK 0) ∧
    ((0x140000 ≤ a ∧ a < 0x200000) ∨ 0x210000 ≤ a → clear → reads s psOK 0) ∧
    (∀ t w, 0x100000 ≤ a → a < 0x140000 → clear →
      (s.memRead memDMEM (a - 0x100000) (masterOf q) = (t, true, w) → reads t psOK w) ∧
      (s.memRead memDMEM (a - 0x100000) (masterOf q) = (t, false, w) → reads t psPOISON w)) ∧
    (∀ t w, 0x200000 ≤ a → a < 0x210000 → clear →
      (s.memRead memIMEM (a - 0x200000) (masterOf q) = (t, true, w) → reads t psOK w) ∧
      (s.memRead memIMEM (a - 0x200000) (masterOf q) = (t, false, w) → reads t psPOISON w))) ∧
  (∀ w : BitVec 48, s.mayWrite q Reg.SEQ_DBG_DATA.base →
    let answers (t : State) : Prop := exec (.seqDbgAccess q (some w)) s = .next (t.wrote q psOK Reg.SEQ_DBG_DATA.base)
    (s.seq.halted = false → a < 0x100000 → answers s) ∧
    (s.seq.halted = true →
      (a = 0 → answers s) ∧
      (0 < a → a < 0x20 → answers { s with seq := { s.seq with w := s.seq.w.set a w } }) ∧
      (0x20 ≤ a → a < 0x23 → answers { s with seq := { s.seq with
        acc := s.seq.acc.set 0 (State.accWithPart (s.seq.acc.getD 0 0) (a - 0x20) w) } }) ∧
      (0x24 ≤ a → a < 0x27 → answers { s with seq := { s.seq with
        acc := s.seq.acc.set 1 (State.accWithPart (s.seq.acc.getD 1 0) (a - 0x24) w) } }) ∧
      (a = 0x28 → answers { s with seq := { s.seq with
        sf := w.getLsbD 4, v := w.getLsbD 3, c := w.getLsbD 2, n := w.getLsbD 1, z := w.getLsbD 0 } }) ∧
      (a = 0x29 → answers { s with seq := { s.seq with pc := w.toNat % 32768, waiting := none } }) ∧
      (0x100000 ≤ a → a < 0x140000 → clear →
        answers (s.memWrite memDMEM (a - 0x100000) w (masterOf q)))) ∧
    (0x200000 ≤ a → a < 0x210000 → clear →
      answers (s.memWrite memIMEM (a - 0x200000) w (masterOf q)))) ∧
  (∀ db : BitVec 16, s.mayWrite q Reg.SEQ_DOORBELL.base →
    exec (.seqDoorbell q db) s = .next ((s.put Reg.SEQ_EVPEND.PEND
      (s.get Reg.SEQ_EVPEND.PEND ||| db.toNat * 2 ^ 16)).wrote q psOK Reg.SEQ_DOORBELL.base)) ∧
  (∀ (n : Fin 64) (w : BitVec 48), s.mayWrite q (Reg.PMC_CNT.addr [n]) →
    exec (.pmcCntWrite q n w) s = .next ((s.setLive (Reg.PMC_CNT.addr [n]) w).wrote q psOK (Reg.PMC_CNT.addr [n]))) ∧
  (s.mayWrite q Reg.PMC_CTL.base → ∃ t : State, exec (.clrAll q) s = .next (t.wrote q psOK Reg.PMC_CTL.base) ∧
    t = { s with live := t.live } ∧ (∀ n < 64, t.get Reg.PMC_CNT.COUNT [n] = 0) ∧
    (∀ x, ¬ (0x4B0200 ≤ x ∧ x < 0x4B0240) → t.liveAt x = s.liveAt x)) ∧
  (∀ (k : Fin 32) (w : BitVec 48), s.mayWrite q (Reg.SEQ_TASK.addr [k]) →
    ∃ t : State, exec (.seqTaskWrite q k w) s = .next (t.wrote q psOK (Reg.SEQ_TASK.addr [k])) ∧ t = { s with live := t.live } ∧
      t.liveAt (Reg.SEQ_TASK.addr [k]) = w &&& BitVec.ofNat 48 Reg.SEQ_TASK.mask ∧
      t.get Reg.SEQ_TSTAT.RESUME [k] = (if (s.get Reg.SEQ_TASK.EN [k] = 0 ∧ w.getLsbD 47 = true) ∨ bits w.toNat 14 0 ≠ s.get Reg.SEQ_TASK.ENTRY [k]
        then bits w.toNat 14 0 else s.get Reg.SEQ_TSTAT.RESUME [k]) ∧
      t.get Reg.SEQ_TSTAT.DISABLED [k] = (if w.getLsbD 47 then 0 else s.get Reg.SEQ_TSTAT.DISABLED [k]) ∧
      t.get Reg.SEQ_TSTAT.PENDING [k] = (if w.getLsbD 47 then s.get Reg.SEQ_TSTAT.PENDING [k] else 0) ∧
      (∀ x, x ≠ Reg.SEQ_TASK.addr [k] → x ≠ Reg.SEQ_TSTAT.addr [k] → t.liveAt x = s.liveAt x))

/-- R284, R285, R287 to R289, R458. -/
def Obligations.SetChecksAndApplication : Prop :=
  ∀ s : State, s.wf →
  (∀ q : Requester, s.mayWrite q Reg.SET_CMD.base →
    let answers (t : State) : Prop := exec (.setCmdGo q) s = .next (t.wrote q psOK Reg.SET_CMD.base)
    let num := (s.set.count + 1) % 65536
    (s.set.check.isSome = true ∨ 2 ≤ s.get Reg.JNL_STAT.STATE → answers s) ∧
    (s.set.check = none → s.get Reg.JNL_STAT.STATE < 2 →
      answers { ((((s.put Reg.SET_STATUS.CHECK num).put Reg.SET_STATUS.MASTER (masterOf q).code).put Reg.SET_STATUS.STATE 1).put
        Reg.SET_STATUS.REASON 0).put Reg.SET_STATUS.ADDR 0 with
        set := { s.set with count := num, marks := [], check := some ⟨num, masterOf q, s.under, 0, s.set.marks⟩ } })) ∧
  (∀ c, s.released = true → s.set.check = some c →
    let done (u : State) : State := ((s.set.held.foldl (fun (v : State) p => v.setUnder p.1 p.2) { u with set := { u.set with held := [] } })).seqEv 0
    (s.judge c = none → exec .setCheckDone s =
      .next (done { s.put Reg.SET_STATUS.STATE 2 with
        set := { s.set with check := none, passed := some { c with marks := State.listUnion c.marks (s.set.passed.elim [] (·.marks)) } } })) ∧
    (∀ code a, s.judge c = some (code, a) →
      let u := { ((s.put Reg.SET_STATUS.STATE 4).put Reg.SET_STATUS.REASON code).put Reg.SET_STATUS.ADDR a with
        set := { s.set with check := none, marks := State.listUnion s.set.marks c.marks } }
      (c.jnl = 0 → exec .setCheckDone s = .next (done u)) ∧
      (c.jnl = 1 → exec .setCheckDone s = .next (done (u.put Reg.JNL_STAT.BUSY 0).jnlMirror)) ∧
      (1 < c.jnl → exec .setCheckDone s = .next (done (u.jnlClose 4)))) ∧
    (State.chkReserved c.snap ≠ [] → s.judge c = some (0x01, (State.chkReserved c.snap).min?.getD 0)) ∧
    (State.chkReserved c.snap = [] → s.set.poison ≠ [] → s.judge c = some (0x02, s.set.poison.min?.getD 0)) ∧
    (State.chkReserved c.snap = [] → s.set.poison = [] → s.chkPart c.snap ≠ [] →
      s.judge c = some (0x03, (s.chkPart c.snap).min?.getD 0)) ∧
    (s.judge c = none → s.chkDomain c.snap = [] ∧ s.chkFormat c.snap = [] ∧ s.chkPlan c.snap = [] ∧ State.chkXbar c.snap = [] ∧
      State.chkPcs c.snap = [] ∧ State.chkTimeGroup c.snap = [] ∧ State.chkSource c.snap = [] ∧ State.chkPattern c.snap = [] ∧
      State.chkFir c.snap = [] ∧ State.chkRender c.snap = [] ∧ s.chkSpan c.snap = [] ∧ s.chkLayout c.snap = [] ∧
      State.chkRingRef c.snap = [] ∧ State.chkOwner c.snap = [] ∧ s.chkJnl c = [])) ∧
  (s.released = true → s.set.check = none → exec .setCheckDone s = .next s) ∧
  (s.set.passed = none → exec .setApply s = .next s) ∧
  (∀ c, s.set.passed = some c → s.armed dueSet 0 = true → s.running = true → s.supplyWarned = false →
    let l := s.changes c.snap c.marks
    let w := c.marks.filter stagedAt
    ∃ u : State, exec .setApply s = .next (((u.setEffects s l w).each (List.range 9) (·.commitTick w ·)).jnlApplied s c.jnl l) ∧
      (∀ a, stagedAt a = true → u.liveAt a = if l.contains a then RegFile.get c.snap a else s.liveAt a) ∧
      u.under = s.under ∧ u.mem = s.mem ∧
      (RegFile.get c.snap Reg.OUTER_CFG.base = s.liveAt Reg.OUTER_CFG.base → u.seq = s.seq) ∧
      u.set.passed = none ∧ u.set.marks = s.set.marks ∧ u.set.seeded = w.filter (fun a => (State.coefOf a).isSome) ∧ u.armed dueSet 0 = false ∧
      u.get Reg.SET_APPLIED.CHECK = c.num % 65536 ∧ u.get Reg.SET_APPLIED.TICK = s.ticks % 2 ^ 32 ∧
      (s.get Reg.SET_STATUS.STATE = 2 → s.set.count = c.num → u.get Reg.SET_STATUS.STATE = 3))

/-- R287, R296 to R298. The refusal of NSTEPS 0 and what an unusable plan word does are the model's choices (log entry 34). -/
def Obligations.JournalOperations : Prop :=
  ∀ s : State, s.wf →
  let st := s.get Reg.JNL_STAT.STATE
  let n := s.jnl.pairs
  let stage (u : State) (m : Master) (kind k : Nat) : State :=
    let v := (u.planRead (k + 1)).1
    ((((State.stepPairs v.planPairs k).foldl (fun (v : State) p => v.stageDirect p.1 p.2) v).put Reg.JNL_STAT.BUSY 1).startCheck m kind).jnlMirror
  let unable := ((s.put Reg.JNL_STAT.STATE 3).put Reg.JNL_STAT.BUSY 1)
  let found := unable.settleRun (memRB + 3) 4096 (4096 + 2 * n)
  let back (m : Master) : State :=
    ((((List.range n).reverse.foldl (fun (v : State) i => v.stageDirect (bits (v.cell (memRB + 3) (4096 + 2 * i)).data.toNat 23 0)
      (v.cell (memRB + 3) (4097 + 2 * i)).data) found).jn fun j => { j with rollDue := false }).startCheck m 3).jnlMirror
  (∀ (q : Requester), s.mayWrite q Reg.JNL_CTL.base →
    (∀ (id : BitVec 16) (fwd nsteps : BitVec 8),
      let answers (t : State) : Prop := exec (.jnlOpen q id fwd nsteps) s = .next (t.wrote q psOK Reg.JNL_CTL.base)
      let v := (s.planRead nsteps.toNat).1
      let usable := (s.planRead nsteps.toNat).2
      let short : Prop := nsteps = 0 ∨ nsteps.toNat < fwd.toNat ∨ (v.planPairs.filter (·.1)).length < nsteps.toNat
      (st ≠ 0 → answers s) ∧
      (st = 0 → usable = false → answers (v.put Reg.JNL_STAT.OUTCOME 4).jnlMirror) ∧
      (st = 0 → usable = true → short → answers (v.put Reg.JNL_STAT.OUTCOME 5).jnlMirror) ∧
      (st = 0 → usable = true → ¬ short →
        answers ((((((((v.put Reg.JNL_STAT.ID id.toNat).put Reg.JNL_STAT.NSTEPS nsteps.toNat).put Reg.JNL_STAT.FWD fwd.toNat).put
        Reg.JNL_STAT.DONE 0).put Reg.JNL_STAT.STATE 1).put Reg.JNL_STAT.OUTCOME 0).jn fun _ => ⟨0, false, false, 0⟩).jnlMirror))) ∧
    (
      let answers (t : State) : Prop := exec (.jnlStep q) s = .next (t.wrote q psOK Reg.JNL_CTL.base)
      let r := s.planRead (s.get Reg.JNL_STAT.DONE + 1)
      (st ≠ 1 ∨ s.get Reg.JNL_STAT.BUSY = 1 ∨ s.set.check.isSome = true ∨ s.supplyWarned = true → answers s) ∧
      (st = 1 → s.get Reg.JNL_STAT.BUSY = 0 → s.set.check = none → s.supplyWarned = false →
        (r.2 = true → answers (stage s (masterOf q) 1 (s.get Reg.JNL_STAT.DONE))) ∧
        (r.2 = false → answers (r.1.jnlClose 4)))) ∧
    (
      let answers (t : State) : Prop := exec (.jnlOpAbort q) s = .next (t.wrote q psOK Reg.JNL_CTL.base)
      (st ≠ 1 → answers s) ∧
      (st = 1 → s.set.check.isSome = true ∨ s.set.passed.isSome = true ∨ s.supplyWarned = true →
        answers (unable.jn fun j => { j with rollDue := true, stagedLost := false }).jnlMirror) ∧
      (st = 1 → s.set.check = none → s.set.passed = none → s.supplyWarned = false →
        (n = 0 → answers (found.jnlClose 3)) ∧
        (0 < n → found.rb3Usable 4096 (4096 + 2 * n) = true → answers (back (masterOf q))) ∧
        (0 < n → found.rb3Usable 4096 (4096 + 2 * n) = false → answers (found.jnlClose 4))))) ∧
  (∀ (q : Requester) (w : BitVec 48), s.mayWrite q Reg.JNL_DATA.base →
    let a := s.get Reg.JNL_ADDR.WORD
    let answers (t : State) : Prop := exec (.jnlDataWrite q w) s = .next (t.wrote q psOK Reg.JNL_DATA.base)
    (a = 0 ∨ 4096 ≤ a ∨ (16 ≤ a ∧ st ≠ 0) → answers s) ∧
    (0 < a → a < 16 ∨ (a < 4096 ∧ st = 0) → answers (s.rbWrite 3 a w (masterOf q)))) ∧
  (s.released = true →
    let free : Prop := s.supplyWarned = false ∧ s.set.check = none ∧ s.set.passed = none
    let d := s.get Reg.JNL_STAT.DONE
    let fwd := s.get Reg.JNL_STAT.FWD
    let answers (t : State) : Prop := exec .jnlRoll s = .next t
    (st = 0 ∨ ¬ free → answers s) ∧
    (free → s.jnl.rollDue = false → st = 1 ∨ st = 3 → answers s) ∧
    (free → s.jnl.rollDue = true → st = 3 ∨ (st = 1 ∧ d < fwd) → s.jnl.stagedLost = true → answers (s.jnlClose 3)) ∧
    (free → s.jnl.rollDue = true → st = 3 ∨ (st = 1 ∧ d < fwd) → s.jnl.stagedLost = false →
      (n = 0 → answers (found.jnlClose 3)) ∧ (0 < n → found.rb3Usable 4096 (4096 + 2 * n) = true → answers (back .device))) ∧
    (free → s.jnl.rollDue = true → st = 1 → fwd ≤ d →
      let k := if s.jnl.stagedLost then 0 else d
      let u := (s.put Reg.JNL_STAT.STATE 2).jn fun j => { j with rollDue := false, step := k }
      (s.get Reg.JNL_STAT.NSTEPS ≤ k → answers (u.jnlClose 2)) ∧
      (k < s.get Reg.JNL_STAT.NSTEPS → (u.planRead (k + 1)).2 = true → answers (stage u .device 2 k))) ∧
    (free → s.jnl.rollDue = false → st = 2 → (s.planRead (s.jnl.step + 1)).2 = true → answers (stage s .device 2 s.jnl.step)))

/-- R16, R271, R274, R278, R279, R282, R283, R382. -/
def Obligations.TickBoundaries : Prop :=
  ∀ s : State, s.wf →
  (∀ m : TickMeas,
    (s.running = false → exec (.tickBoundary m) s = .next s) ∧
    (s.running = true → s.clk.rstReq = 2 → exec (.tickBoundary m) s = .next (s.resetSelf 2)) ∧
    (s.running = true → s.clk.rstReq ≠ 2 →
      let ended := ((s.seqCycles m.waited.toNat).seqOverrun.tickCapture m).plumbTick.thermalTick.tickEngines m
      let ready := ended.whenB (s.clk.rstReq = 1) fun s => (s.warmReset).ck fun c => { c with rstReq := 0 }
      let slow := ((ready.pwrTick.wakeTick.scrubTick).pw fun p => { p with retries := 0 }).wdogTick
      let u := match slow.sec.startDue with
        | some sl => (slow.startSlot sl).sc fun x => { x with startDue := none }
        | none => slow
      exec (.tickBoundary m) s = .next ((u.seqTick.tickDue.capEv 47).ibiRefresh) ∧
      u.wf ∧ u.pending = s.pending ∧ u.part.variant = s.part.variant)) ∧
  (s.plumbOn = true → s.plb.slew = none →
    let t := s.plumbTick
    t.plb.el = s.plb.el + 3840 * s.plumbInc ∧ t.plb.cyc = s.plb.cyc + 3840 ∧ t.plb.stepped = false ∧ t.plb.slew = none ∧
    t.time40 = (s.time40 + 3840 * s.plumbInc) % (2 ^ 48 * sec40) ∧ t.live = s.live ∧ t.seq = s.seq) ∧
  (s.plumbOn = false → s.plumbTick = s) ∧
  (
    let t := s.tickDue
    (s.set.passed.isSome = true → s.supplyWarned = false → t.armed dueSet 0 = true) ∧
    (s.thm.pendLevel.isSome = true → t.armed dueThr 0 = true) ∧ (s.bandsDue = true → t.armed dueBand 0 = true) ∧
    t = { s with due := t.due }) ∧
  (s.released = true → s.domOn 42 = true →
    let t := s.seqTick
    t.ticks = (s.ticks + 1) % 2 ^ 48 ∧ t.seq.resetting = false ∧ t.seq.hold = false ∧
    (t.seq.swapDue = (s.seq.swapDue || s.seq.revert.isSome || (s.get Reg.SEQ_SWAP.STATE == 1 && s.seq.run.isNone))) ∧
    (∀ i < 32, s.get Reg.SEQ_TASK.EN [i] = 1 → s.seq.clkStopped = false →
      (s.seq.resetting = true ∨ t.ticks % 2 ^ s.get Reg.SEQ_TASK.PER [i] = s.get Reg.SEQ_TASK.PHASE [i] % 2 ^ s.get Reg.SEQ_TASK.PER [i] →
        t.get Reg.SEQ_TSTAT.PENDING [i] = 1)) ∧
    (∀ i < 32, s.seq.resetting = false → s.get Reg.SEQ_TASK.EN [i] = 0 ∨
        t.ticks % 2 ^ s.get Reg.SEQ_TASK.PER [i] ≠ s.get Reg.SEQ_TASK.PHASE [i] % 2 ^ s.get Reg.SEQ_TASK.PER [i] →
      t.get Reg.SEQ_TSTAT.PENDING [i] = s.get Reg.SEQ_TSTAT.PENDING [i])) ∧
  (s.seq.run.isSome = true → s.seq.halted = false → s.seq.clkStopped = false → s.seq.hold = false →
    let t := s.seqOverrun
    t.seq.suspended = true ∧ t.seq.run = s.seq.run ∧ t.get Reg.OVR_CNT.COUNT = min (s.get Reg.OVR_CNT.COUNT + 1) (2 ^ 48 - 1) ∧
    t.get Reg.SEQ_SCHED.CONSEC = min 3 (s.get Reg.SEQ_SCHED.CONSEC + 1) ∧
    (t.seq.faultDue = true ↔ s.seq.faultDue = true ∨ 2 ≤ s.get Reg.SEQ_SCHED.CONSEC)) ∧
  (s.seq.run = none → s.seq.halted = false → s.seq.clkStopped = false → s.seqOverrun = s.put Reg.SEQ_SCHED.CONSEC 0) ∧
  (0 < s.get Reg.SEQ_WDOG.PERIOD → s.seq.halted = false → s.seq.clkStopped = false → 0 < s.get Reg.SEQ_WDOG.COUNT →
    s.wdogTick = (s.put Reg.SEQ_WDOG.COUNT (s.get Reg.SEQ_WDOG.COUNT - 1)).sq fun q =>
      { q with wdogDue := q.wdogDue || s.get Reg.SEQ_WDOG.COUNT = 1 }) ∧
  (s.get Reg.SEQ_WDOG.PERIOD = 0 ∨ s.seq.halted = true → s.wdogTick = s) ∧
  (
    let t := s.pmcSnapshot
    (∀ i < 64, t.get Reg.PMC_SNAP.COUNT [i] = s.get Reg.PMC_CNT.COUNT [i]) ∧ t = { s with live := t.live } ∧
      (∀ a, ¬ (0x4B0300 ≤ a ∧ a < 0x4B0340) → t.liveAt a = s.liveAt a))

/-- R12, R19, R20, R248, R376. -/
def Obligations.ApplicationBoundaries : Prop :=
  ∀ s : State, s.wf → s.released = true →
  (∀ m : Span,
    let u := s.flow m
    (∀ k : Fin 8,
      let rx : Prop := u.domOn (17 + k) = true ∧ (u.set.recent = false ∨ 16 ≤ (u.slice (u.serving k)).cyc)
      let tx : Prop := u.domOn (17 + k) = true ∧ (u.ltxAt (k / 4)).place = 0 ∧ (u.set.recent = false ∨ 16 ≤ (u.ltxAt (k / 4)).since)
      (rx → exec (.applicationBoundary (.rx k) m) s = .next (u.rxBoundary k)) ∧ (¬ rx → exec (.applicationBoundary (.rx k) m) s = .next u) ∧
      (tx → exec (.applicationBoundary (.tx k) m) s = .next (u.sendBoundary k)) ∧ (¬ tx → exec (.applicationBoundary (.tx k) m) s = .next u)) ∧
    (let own : Prop := u.domOn 25 = true ∧ u.domOn 26 = true ∧ u.floatServes = false ∧ (u.set.recent = false ∨ 16 ≤ (u.slice 8).cyc)
     (own → u.floatAtRx u.floatLane = false → exec (.applicationBoundary .float m) s = .next u.floatStep) ∧
     (¬ own ∨ u.floatAtRx u.floatLane = true → exec (.applicationBoundary .float m) s = .next u))) ∧
  (∀ k : Fin 8, let b := State.laneBase k
    let mine (a : Nat) : Prop := (b ≤ a ∧ a ≤ b + 1) ∨ (b + 0x10 ≤ a ∧ a ≤ b + 0x14) ∨ (b + 0x80 ≤ a ∧ a ≤ b + 0xAB) ∨ a = b + 0x40 ∨ a = b + 0x48
    (s.takeRx k) = { s with inUse := (s.takeRx k).inUse } ∧
    (∀ a, mine a → RegFile.get (s.takeRx k).inUse a = s.liveAt a) ∧
    (∀ a, ¬ mine a → RegFile.get (s.takeRx k).inUse a = RegFile.get s.inUse a) ∧
    (∀ a, mine a → RegFile.get (s.rxBoundary k).inUse a = s.liveAt a) ∧
    (∀ a, a = b + 0xC0 ∨ (b + 0xC2 ≤ a ∧ a ≤ b + 0xC5) ∨ (b + 0x200 ≤ a ∧ a ≤ b + 0x3FF) →
      RegFile.get (s.txBoundary k).inUse a = s.liveAt a)) ∧
  (∀ p : Fin 2,
    (s.domOn 49 = false ∨ (s.ltxAt p).place ≠ 0 → exec (.ltxRefMove p) s = .next s) ∧
    (s.domOn 49 = true → (s.ltxAt p).place = 0 →
      let now := s.get (State.ltxRef p)
      let chosen := (s.ltxAt p).want
      let u := ((s.put (State.ltxRef p) chosen).inc Reg.LTX_MOVE_CNT.COUNT).ev Reg.CKG_EVT.LTX_MOVE
      (chosen = now → exec (.ltxRefMove p) s = .next s) ∧
      (chosen ≠ now → chosen < 32 → exec (.ltxRefMove p) s = .next (if s.pllState (2 + p) = 4 then u.put (State.pllRef (2 + p)) 1
          else if s.pllState (2 + p) = 3 then u.put (State.pllRef (2 + p)) 2 else u))) ∧
    (s.ltx.length = 2 →
      let held := (s.ltxAt p).want
      let want := (s.ltxChoose.ltxAt p).want
      let group := pllHosts s.mode p s.fmt
      s.mode ≠ 11 →
        (held ∈ group → s.refLane held = true → want = held) ∧
        (held ∉ group ∨ s.refLane held = false → ∀ n ∈ group, s.refLane n = true → (∀ j ∈ group, s.refLane j = true → n ≤ j) → want = n) ∧
        ((∀ j ∈ group, s.refLane j = false) → want = 16)))

/-- R303, R304, R306 to R308, R310, R311, R313, R316. -/
def Obligations.ThermalEvents : Prop :=
  ∀ s : State, s.wf →
  (∀ (temp diff : Int),
    (s.running = false ∨ s.publishing = none → exec (.sensorPublish temp diff) s = .next s) ∧
    (∀ n, s.running = true → s.publishing = some n →
      let dead : Prop := diff < (Config.biasWindow n).1 ∨ (Config.biasWindow n).2 < diff ∨ temp < -60 * 16 ∨ 175 * 16 < temp
      ∃ t : State, exec (.sensorPublish temp diff) s = .next t.commitNow ∧ t = { s with live := t.live, thm := t.thm } ∧
        (s.set.passed = none → t.commitNow = (List.range 9).foldl (fun v i => v.commitTick [] i) t) ∧
        (s.set.passed.isSome = true → s.supplyWarned = false → t.commitNow = t) ∧
        t.thm.fresh = false ∧ t.published n = true ∧
        (t.broken n = true ↔ s.broken n = true ∨ dead) ∧
        (t.broken n = true → t.get Reg.TS.TEMP [n] = 0x7FF ∧ t.get Reg.TS.FAULT [n] = 1) ∧
        (s.broken n = false → dead → t.get Reg.THM_EVT.SENS_FAULT = 1) ∧
        (s.broken n = false → ¬ dead → t.reading n = satS 12 temp) ∧
        (let old (i : Nat) : Bool := (s.get Reg.LIM_STAT.FLAGS).testBit (4 * n + i)
         let now (i : Nat) : Bool := (t.get Reg.LIM_STAT.FLAGS).testBit (4 * n + i)
         let h : Int := 16 * s.get Reg.THM_CFG.HYST
         let r := t.reading n
         (now 0 = true ↔ r ≤ s.getS Reg.THM_LIM.LO_ALARM [n] * 16 + if old 0 then h else 0) ∧
         (now 1 = true ↔ r ≤ s.getS Reg.THM_LIM.LO_WARN [n] * 16 + if old 1 then h else 0) ∧
         (now 2 = true ↔ t.broken n = true ∨ s.getS Reg.THM_LIM.HI_WARN [n] * 16 - (if old 2 then h else 0) ≤ r) ∧
         (now 3 = true ↔ t.broken n = true ∨ s.getS Reg.THM_LIM.HI_ALARM [n] * 16 - (if old 3 then h else 0) ≤ r) ∧
         (old 0 ≠ now 0 → t.get Reg.THM_EVT.LO_ALARM = 1) ∧ (old 3 ≠ now 3 → t.get Reg.THM_EVT.HI_ALARM = 1)) ∧
        (let l := max (if s.get Reg.THM_CFG.AUTO_EN = 1 then t.thm.levels.foldl max 0 else 0) (s.get Reg.THM_CFG.THR_FORCE)
         t.thm.pendLevel = if l = s.get Reg.THM_STAT.THR_LEVEL then none else some l))) ∧
  (s.released = true →
    let u := s.disarm dueThr 0
    let applied (x : State) : State := { x with set := { x.set with recent := true } }
    (s.armed dueThr 0 = false → exec .throttleApply s = .next s) ∧
    (s.armed dueThr 0 = true → s.thm.pendLevel = none → exec .throttleApply s = .next (applied u)) ∧
    (∀ l, s.armed dueThr 0 = true → s.thm.pendLevel = some l →
      let a := (((u.th fun x => { x with pendLevel := none }).put Reg.THM_STAT.THR_LEVEL l).ev Reg.THM_EVT.THR_CHG).seqEv 5
      let b := if l = 3 then { a with cals := a.cals.map fun c => { c with stop := c.run } } else a
      let v := (((List.range 4).foldl State.monHalf b).cp fun c => { c with odd := false }).capEv 51
      (s.mig.held = false ∨ 3 ≤ l → exec .throttleApply s = .next (applied v)) ∧
      (s.mig.held = true → l < 3 →
        exec .throttleApply s = .next (applied ((v.setPhase (s.phase + 1)).mg fun x => { x with held := false }))))) ∧
  (s.released = true → (∀ n < 9, s.thm.pendBands.getD n 0 < 4) →
    (s.armed dueBand 0 = false → exec .bandApply s = .next s) ∧
    (s.armed dueBand 0 = true → ∃ t : State, exec .bandApply s = .next t ∧ t.armed dueBand 0 = false ∧
      (∀ n < 9,
        let b := s.thm.pendBands.getD n 0
        (t.cal n).band = b ∧
        (b ≠ (s.cal n).band → bits (t.get Reg.BAND_STAT.BANDS) (2 * n + 1) (2 * n) = b ∧ t.get Reg.THM_EVT.BAND_CHG = 1 ∧
          (s.sliceFree n = true → t.get Reg.SKIM_STAT.SKEW_PEND [n] = 0 ∧
            (t.cal n).trims.skew = (s.cal n).skewSets.getD b (s.cal n).trims.skew) ∧
          (s.sliceFree n = false → t.get Reg.SKIM_STAT.SKEW_PEND [n] = 1 ∧ (t.cal n).trims = (s.cal n).trims))))) ∧
  (∀ n : Fin 12,
    (s.broken n = true ∨ s.pwr.shutdown = true → exec (.thermalShutdown n) s = .next s) ∧
    (s.broken n = false → s.pwr.shutdown = false → ∃ t : State, exec (.thermalShutdown n) s = .next t ∧
      t = { s with live := t.live, pwr := t.pwr } ∧ t.pwr.shutdown = true ∧ t.faultLow = true ∧ t.get Reg.SHUT_STAT.SENSOR = n ∧
      t.get Reg.SHUT_STAT.COUNT = min 65535 (s.get Reg.SHUT_STAT.COUNT + 1) ∧
      (∀ d < 57, t.domOn d = true ↔ d ∈ [0, 52, 53, 54, 55]))) ∧
  (s.pwr.shutdown = false → exec .thermalRestart s = .next s) ∧
  (s.pwr.shutdown = true → ∃ t : State, exec .thermalRestart s = .next t ∧ t.pwr.shutdown = false ∧ t.get Reg.RST_CAUSE.CODE = 3 ∧
    t.get Reg.THM_EVT.SHUT_SEEN = 1 ∧ t.liveAt Reg.SHUT_STAT.base = s.liveAt Reg.SHUT_STAT.base ∧
    (∀ b < 4, t.memAt (memRB + b) = s.memAt (memRB + b)) ∧ t.pending = s.pending) ∧
  (∀ k : Fin 8, s.released = true → s.armed State.dueFcal k = true → s.slicePowered k = true →
    let u := s.disarm State.dueFcal k
    let refused (r : Nat) : State :=
      (((u.put Reg.FCAL_STAT.RESULT r [k]).put Reg.FCAL_STAT.SEQ_DONE (s.get Reg.FCAL_CTL.SEQ [k]) [k]).ev Reg.SKIM_EVT.FCAL_DONE [k]).seqEv 6
    let engaged : Prop := s.floatLane = k ∧ s.phase ≠ phIDLE ∧ s.phase ≠ phFLOAT_CAL ∧ s.phase ≠ phSERVE
    let barred : Prop := s.inputIdle k = false ∨ engaged ∨ s.retired k = true ∨ s.get Reg.RX_STAT.NOISE_BUSY [k] = 1 ∨ (s.cal k).run = true
    (barred → exec (.fcalStart k) s = .next (refused 1)) ∧
    (¬ barred → s.get Reg.THM_STAT.THR_LEVEL = 3 → exec (.fcalStart k) s = .next (refused 2)) ∧
    (¬ barred → s.get Reg.THM_STAT.THR_LEVEL ≠ 3 → exec (.fcalStart k) s = .next (u.fcalBegin k) ∧
      ((u.fcalBegin k).cal k).run = true ∧ ((u.fcalBegin k).cal k).before = ((u.loadSkew k).cal k).trims))

/-- R315 to R317, R323, R327, R329, R331, R335. -/
def Obligations.CalibrationEndAndMonitors : Prop :=
  ∀ s : State, s.wf →
  (∀ (sl : Fin 9) (first again : CalMeas), s.released = true →
    let run := exec (.fcalDone sl first again) s
    let ph := s.get Reg.FCAL_CTL.PHASES [sl]
    let o := (s.cal sl).trims
    let best (p : Nat) : CalMeas := if State.phaseAtEnd (State.measTrims first) p then again else first
    let found : Trims := ⟨if ph.testBit 0 then (best 0).off else o.off, if ph.testBit 1 then (best 1).gain else o.gain,
      if ph.testBit 2 then (best 2).skew else o.skew, if ph.testBit 3 then (best 3).bw else o.bw⟩
    let v := if State.residualsBad first.res then again else first
    let ready : Prop := (s.cal sl).run = true ∧ s.get Reg.FCAL_STAT.STATE [sl] = 5 ∧ (s.cal sl).left = 0
    (¬ ready → run = .next s) ∧
    (ready → sl.val ≠ 8 →
      let u := s.setLive (Reg.FCAL_QUAL.addr [sl]) (State.fcalQual v.res v.spur.toNat)
      let failed (r : Nat) : State :=
        let w := u.fcalFail sl r
        if w.serving sl = 8 then (w.retireSlice sl).setPhase phRETIRED else w
      (State.trimsAtEnd ph found = true → run = .next (failed 0x10)) ∧
      (State.trimsAtEnd ph found = false → State.residualsBad v.res = true → run = .next (failed 0x11)) ∧
      (State.trimsAtEnd ph found = false → State.residualsBad v.res = false →
        run = .next ((u.setCal sl fun c => { c with trims := found }).fcalPass sl))) ∧
    (ready → sl.val = 8 → ∃ t : State, run = .next t ∧ (t.cal 8).run = false ∧
      (State.trimsAtEnd ph found = true ∨ State.residualsBad v.res = true →
        let x := (t.cal 8).trims
        let was := (s.cal 8).before
        x.off = was.off ∧ x.gain = was.gain ∧ x.bw = was.bw ∧ (s.get Reg.SKIM_STAT.SKEW_PEND [8] = 0 → x = was)))) ∧
  (∀ (c : Fin 4) (m : Span), s.released = true → exec (.monOutput c m) s = .next (s.flow m)) ∧
  (∀ (c : Fin 4) (l : List LaneCycle), s.domOn 46 = true → s.get Reg.MON_STAT.NOCLK [c] = 0 → s.monClock c = true → (s.mon c).restart = false →
    (s.monPass c l).1 = l.foldl (fun u x => (u.monCycle c x).1) s) ∧
  (∀ (c : Fin 4) (x : LaneCycle),
    let u := s.setMon c fun m => { m with odd := !m.odd }
    (s.get Reg.MON_STAT.HALF [c] = 1 ∧ (s.mon c).odd = true → s.monCycle c x = (u, none)) ∧
    (s.get Reg.MON_STAT.HALF [c] = 0 ∨ (s.mon c).odd = false → (s.monCycle c x).1 = u.monInput c (u.monValue c x))) ∧
  (∀ (c : Fin 4) (i : MonInput), (s.mon c).restart = false →
    (s.mon c).mcnt + 1 < s.monM c → ∃ t : State, s.monInput c i = t ∧ (t.mon c).mcnt = (s.mon c).mcnt + 1 ∧
      (t.mon c).hist = (s.mon c).hist ∧ (t.mon c).comb = (s.mon c).comb ∧ t.get Reg.MON_OUT.SEQ [c] = s.get Reg.MON_OUT.SEQ [c]) ∧
  (∀ c : Fin 4, s.get Reg.MON_STAT.SWAP_PEND [c] = 0 → s.use Reg.MON_CFG.MODE [c] = 0 →
    let t := s.monFirOut c
    let y := (monFir ((List.range 16).map fun j => s.useS (if s.use Reg.MON_CFG.ACTIVE [c] = 1 then Reg.MON_FIRB.COEF else Reg.MON_FIRA.COEF) [c, j])
      (s.mon c).hist).1
    t.getS Reg.MON_OUT.OUT [c] = y ∧ t.get Reg.MON_OUT.SEQ [c] = (s.get Reg.MON_OUT.SEQ [c] + 1) % 2 ^ (Reg.MON_OUT.SEQ.hi + 1 - Reg.MON_OUT.SEQ.lo) ∧
    t.get Reg.MON_OUT.UNSETTLED [c] = (if 0 < (s.mon c).unsettled then 1 else 0) ∧
    (t.mon c).unsettled = (s.mon c).unsettled - 1 ∧ (t.mon c).kcnt = 0 ∧ (t.mon c).peak = max (s.mon c).peak y.natAbs) ∧
  (∀ (q : Requester) (c : Fin 4) (w : BitVec 48), s.mayWrite q (Reg.MON_MIX.addr [c]) →
    (bits w.toNat 8 0 ≤ 256 → exec (.monMixWrite q c w) s =
      .next ((s.put Reg.MON_MIX.W (bits w.toNat 8 0) [c]).wrote q psOK (Reg.MON_MIX.addr [c]))) ∧
    (256 < bits w.toNat 8 0 → exec (.monMixWrite q c w) s = .next (s.wrote q psOK (Reg.MON_MIX.addr [c])))) ∧
  (∀ v aref : BitVec 32, s.released = true →
    (s.domOn 47 = false → exec (.hkaConversion v aref) s = .next s) ∧
    (∀ i < 16, s.domOn 47 = true →
      let fits (j : Nat) : Prop := s.get Reg.HKA_SEQ.EN [j] = 1 ∧ s.ticks % 2 ^ s.get Reg.HKA_SEQ.TPER [j] = j % 2 ^ s.get Reg.HKA_SEQ.TPER [j] ∧
        (s.hkaAcc j).count ≤ s.get Reg.HKA_SEQ.REPEAT [j] ∧
        s.hka.used + (12 * (s.get Reg.HKA_SEQ.TSAMP [j] + 1) + 12) ≤ 240
      fits i → (∀ j < i, ¬ fits j) →
      let vref := if s.get Reg.HKA_CFG.REF = 1 then aref.toNat else 1250000000
      let c := State.hkaCode (s.hkaVolts (s.get Reg.HKA_SEQ.INPUT [i]) v.toNat) vref (s.get Reg.HKA_SEQ.GAIN [i]) (s.get Reg.HKA_SEQ.INPUT [i])
      exec (.hkaConversion v aref) s = .next { s with hka := {
        used := s.hka.used + (12 * (s.get Reg.HKA_SEQ.TSAMP [i] + 1) + 12)
        acc := s.hka.acc.modify i fun a => ⟨a.sum + c, a.count + 1, min a.min c, max a.max c⟩ } })) ∧
  (∀ (input v : Nat), input < 16 ∨ (32 ≤ input ∧ input < 39) ∨ input = 40 ∨ 41 < input → s.hkaVolts input v = 4095 * v) ∧
  (∀ (b : Fin 16) (v : Nat),
    let volts := s.hkaVolts (16 + b) v
    let code : Int := s.get Reg.BDC_STAT.CODE_NOW [b]
    let span := s.get Reg.BDC_CFG.SPAN [b]
    (s.get Reg.BDC_CFG.EN [b] = 0 → span ≠ 3 → volts = 0) ∧
    (s.get Reg.BDC_CFG.EN [b] = 0 → span = 3 → volts = 4095 * s.bmid) ∧
    (s.get Reg.BDC_CFG.EN [b] = 1 → (span = 0 → volts = 1250000000 * code) ∧ (span = 1 → volts = 2500000000 * code) ∧
      (span = 2 → volts = 3000000000 * code) ∧ (span = 3 → volts = 4095 * (s.bmid - 1250000000) + 2500000000 * code)))

/-- R340 to R344, R346, R353. -/
def Obligations.TrowelUpdates : Prop :=
  ∀ (s : State) (m : Fin 16), s.wf → s.released = true →
  let l := s.loop m
  let b := s.loopBdac m
  let due : Prop := s.domOn 44 = true ∧ s.ticks % 2 ^ s.get Reg.TRW_CFG.PER [m] = s.get Reg.TRW_CFG.PHASE [m] % 2 ^ s.get Reg.TRW_CFG.PER [m] ∧
    s.loopState m ≠ 0 ∧ l.lastTick ≠ some s.ticks
  let limited (c : Int) : Nat := (max 0 (min 4095 c)).toNat
  (¬ due → exec (.trowelUpdate m) s = .next s) ∧
  (due → l.x = none → ∃ t : State, exec (.trowelUpdate m) s = .next t ∧
    t.get Reg.HOLD_CNT.COUNT [m] = min (s.get Reg.HOLD_CNT.COUNT [m] + 1) (2 ^ 48 - 1) ∧ t.get Reg.TRW_EVT.HOLD [m] = 1 ∧
    t.loop m = { l with lastTick := some s.ticks } ∧ t.get Reg.TRW_STAT.OUT [m] = limited (l.base + s.dither m) ∧
    t.get Reg.BDC_STAT.CODE_NOW [b] = limited (l.base + s.dither m)) ∧
  (∀ x, due → l.x = some x → s.get Reg.TRW_CFG.NOTCH_EN [m] = 0 → s.get Reg.TRW_STAT.STIP_RUN [m] = 0 →
    let d := if s.get Reg.TRW_CFG.POL [m] = 1 then s.getS Reg.TRW_SP.SP [m] - x else x - s.getS Reg.TRW_SP.SP [m]
    let ksh := s.get Reg.TRW_CFG.KSH [m]
    let test : Prop := s.loopState m = 3
    let sum := l.i + rshr (s.getS Reg.TRW_GAIN.KI [m] * d) (16 + ksh)
    let i := if test then l.i else sx 48 (enc 48 sum)
    let u := rshr (s.get Reg.TRW_OUT.OUT_BASE [m] * 2 ^ (40 + ksh) + (if test then 0 else s.getS Reg.TRW_GAIN.KP [m] * d) + i * 2 ^ (16 + ksh)) (40 + ksh)
    let code := u + s.dither m
    ∃ t : State, exec (.trowelUpdate m) s = .next t ∧ (t.loop m).i = i ∧ (t.loop m).base = u ∧
      t.get Reg.TRW_STAT.OUT [m] = limited code ∧ t.get Reg.BDC_STAT.CODE_NOW [b] = limited code ∧ t.get Reg.BDC_STAT.LOOP [b] = m ∧
      (code < 0 ∨ 4095 < code → t.get Reg.CLAMP_CNT.COUNT [m] = min (s.get Reg.CLAMP_CNT.COUNT [m] + 1) (2 ^ 48 - 1) ∧ t.get Reg.TRW_EVT.CLAMP [m] = 1) ∧
      (¬ test → sx 48 (enc 48 sum) ≠ sum →
        t.get Reg.WRAP_CNT.COUNT [m] = min (s.get Reg.WRAP_CNT.COUNT [m] + 1) (2 ^ 48 - 1) ∧ t.get Reg.TRW_EVT.WRAP [m] = 1) ∧
      (t.loop m).lockRun = (if d.natAbs < s.get Reg.TRW_THR.LOCK_TH [m] * 2 ^ 16 then l.lockRun + 1 else 0) ∧
      (t.loop m).lossRun = (if s.get Reg.TRW_THR.LOSS_TH [m] * 2 ^ 16 ≤ d.natAbs then l.lossRun + 1 else 0)) ∧
  (∀ e : Int, s.get Reg.TRW_CFG.NOTCH_EN [m] = 1 →
    let c (j : Nat) := s.getS Reg.TRW_NBQ.COEF [m, j]
    let v := rshr (c 0 * e + c 1 * l.e1 + c 2 * l.e2 - c 3 * l.d1 - c 4 * l.d2) 21
    (s.notch m e).2 = satS 48 v ∧ ((s.notch m e).1.loop m) = { l with e1 := e, e2 := l.e1, d1 := satS 48 v, d2 := l.d1 }) ∧
  (∀ e : Int, s.get Reg.TRW_CFG.NOTCH_EN [m] = 0 → s.notch m e = (s, e)) ∧
  (let half : Prop := s.domOn 44 = true ∧ s.get Reg.TRW_OUT.DITH_EN [m] = 1 ∧ s.loopState m ≠ 0 ∧
      s.ticks % 2 ^ s.get Reg.TRW_OUT.DITH_HP [m] = 0 ∧ l.lastHalf ≠ some s.ticks
   let amp : Int := s.get Reg.TRW_OUT.DITH_AMP [m]
   let sign : Int := if s.ticks / 2 ^ s.get Reg.TRW_OUT.DITH_HP [m] % 2 = 0 then amp else -amp
   (¬ half → exec (.ditherHalf m) s = .next s) ∧
   (half → ∃ t : State, exec (.ditherHalf m) s = .next t ∧ t.get Reg.BDC_STAT.CODE_NOW [b] = limited (l.base + sign) ∧
     t.get Reg.TRW_STAT.OUT [m] = limited (l.base + sign) ∧ t.loop m = { l with lastHalf := some s.ticks }))

/-- R345, R346, R348, R349, R353. -/
def Obligations.TrowelStates : Prop :=
  ∀ (s : State) (m : Fin 16), s.wf → s.released = true → s.domOn 44 = true →
  let l := s.loop m
  let b := s.loopBdac m
  let old := s.loopState m
  let running : Prop := s.get Reg.TRW_STAT.STIP_RUN [m] = 1
  (∀ (c : Instr) (st : Nat), (c, st) ∈ [(.trwCmdOff m, 0), (.trwCmdStartup m, 1), (.trwCmdRun m, 2), (.trwCmdTest m, 3), (.trwCmdRecovery m, 4)] →
    (s.armed State.dueLoop m = false ∨ s.get Reg.TRW_CMD.STATE [m] ≠ st → exec c s = .next s) ∧
    (s.armed State.dueLoop m = true → s.get Reg.TRW_CMD.STATE [m] = st → exec c s = .next ((s.disarm State.dueLoop m).loopEnter m st))) ∧
  (∀ st < 5,
    let t := s.loopEnter m st
    let code : Int := s.get Reg.BDC_STAT.CODE_NOW [b]
    let base : Int := s.get Reg.TRW_OUT.OUT_BASE [m]
    t = { s with live := t.live, loops := t.loops } ∧ t.loopState m = st ∧ (t.loop m).auto = none ∧ (t.loop m).lockRun = 0 ∧
    (t.loop m).lossRun = 0 ∧
    t.get Reg.BDC_STAT.DRIVEN [b] = (if st = 0 then 0 else 1) ∧ t.get Reg.BDC_STAT.CODE_NOW [b] = s.get Reg.BDC_STAT.CODE_NOW [b] ∧
    (t.loop m).i = (if st = 4 then (s.get Reg.TRW_OUT.REC_CODE [m] - base) * 2 ^ 24
      else if old = 0 ∧ (st = 1 ∨ st = 3) then (code - base) * 2 ^ 24 else l.i) ∧
    (st = 1 ∨ st = 4 ∨ (st = 3 ∧ old = 0) → (t.loop m).e1 = 0 ∧ (t.loop m).e2 = 0 ∧ (t.loop m).d1 = 0 ∧ (t.loop m).d2 = 0) ∧
    (st ≠ old → t.get Reg.TRW_EVT.STATE_CHG [m] = 1) ∧
    (running → st = 0 ∨ st = 2 → t.get Reg.TRW_STAT.STIP_RUN [m] = 0 ∧ t.get Reg.TRW_STAT.STIP_TRUNC [m] = 1 ∧ t.get Reg.TRW_EVT.STIP_END [m] = 1)) ∧
  (∀ target at_, l.auto = some (target, at_) →
    let goes : Prop := at_ < s.ticks ∧ s.armed State.dueLoop m = false ∧ ¬ running
    (target = 2 → goes → exec (.trwAutoRun m) s = .next (((s.loopEnter m 2).ev Reg.TRW_EVT.LOCK [m]).seqEv 12)) ∧
    (target = 4 → goes →
      let u := (((s.loopEnter m 4).ev Reg.TRW_EVT.LOSS [m]).seqEv 12).capEv 50
      exec (.trwAutoRecovery m) s = .next (if s.get Reg.TRC_CTL.FRZ_ON_LOSS [m] = 1 then u.put Reg.TRC_CTL.FREEZE 1 [m] else u)) ∧
    (target ≠ 2 ∨ ¬ goes → exec (.trwAutoRun m) s = .next s) ∧ (target ≠ 4 ∨ ¬ goes → exec (.trwAutoRecovery m) s = .next s)) ∧
  (l.auto = none → exec (.trwAutoRun m) s = .next s ∧ exec (.trwAutoRecovery m) s = .next s) ∧
  (let ended (u : State) (f : FRef) : State := (((u.put Reg.TRW_STAT.STIP_RUN 0 [m]).put f 1 [m]).ev Reg.TRW_EVT.STIP_END [m]).seqEv 12
   let u := s.disarm State.dueStip m
   (∀ (c : Instr) (ty : Nat), (c, ty) ∈ [(.stipSine m, 1), (.stipSquare m, 2), (.stipPrbs m, 3), (.stipSwept m, 4)] →
     let armed : Prop := s.armed State.dueStip m = true ∧ s.armed State.dueLoop m = false ∧ s.get Reg.TRW_STIP.TYPE [m] = ty
     (¬ armed → exec c s = .next s) ∧
     (armed → old = 0 ∨ old = 2 → exec c s = .next (((u.put Reg.TRW_STAT.STIP_REFUSED 1 [m]).ev Reg.TRW_EVT.STIP_END [m]).seqEv 12)) ∧
     (armed → old ≠ 0 → old ≠ 2 → ∃ t : State, exec c s = .next t ∧ t.get Reg.TRW_STAT.STIP_RUN [m] = 1 ∧ t.get Reg.TRW_STAT.STIP_DONE [m] = 0 ∧
       t.get Reg.TRW_STAT.STIP_TRUNC [m] = 0 ∧ t.get Reg.TRW_STAT.STIP_REFUSED [m] = 0 ∧ t.get Reg.TRW_RESPI.SUM [m] = 0 ∧
       t.get Reg.TRW_RESPQ.SUM [m] = 0 ∧ t.get Reg.TRW_RESPN.N [m] = 0 ∧
       t.loop m = { l with phase := 0, prbs := 0x7FFF, ftwNow := s.get Reg.TRW_STIP.FTW [m] })) ∧
   (s.armed State.dueStip m = true → s.get Reg.TRW_STIP.TYPE [m] = 0 →
     (running → exec (.stipNone m) s = .next (ended u Reg.TRW_STAT.STIP_TRUNC)) ∧ (¬ running → exec (.stipNone m) s = .next u)) ∧
   (let past : Prop := running ∧ s.get Reg.TRW_STIP.TYPE [m] = 4 ∧ s.get Reg.TRW_SWP.FTW_END [m] < l.ftwNow
    (past → exec (.stipDone m) s = .next (ended s Reg.TRW_STAT.STIP_DONE)) ∧ (¬ past → exec (.stipDone m) s = .next s)))

/-- R245, R360, R364, R365, R367, R368. Which of several failed checks of ARM is reported is a free value (log entry 1). -/
def Obligations.CaptureCommands : Prop :=
  ∀ s : State, s.wf → s.released = true →
  let u := s.disarm State.dueCap 0
  let st := s.capState
  let failed (v : State) (r : Nat) : State := ((v.put Reg.CAP_STAT.ARM_RESULT r).ev Reg.CAP_EVT.ARM_FAIL).seqEv 11
  let prefilled (v t : State) : Prop := t.capState = 1 ∧ t.get Reg.CAP_STAT.STENCIL = 0 ∧ t.get Reg.CAP_STAT.SEG_NOW = v.cap.num % v.capNseg ∧
    t.cap.cnt = 0 ∧ t.cap.tmr = 0 ∧ t.cap.ignored = 0 ∧ t.cap.trig = none ∧ t.cap.streams.map (·.x) = v.capStreams ∧
    (∀ x ∈ t.cap.streams, x.words = 0 ∧ x.fill = 0)
  (∀ (c : Instr) (n : Nat), (c, n) ∈ [(.capNone, 0), (.capArm, 1), (.capDisarm, 2), (.capRelease, 3), (.capForce, 4), (.capSched, 5)] →
    s.domOn 45 = false ∨ s.armed State.dueCap 0 = false ∨ s.get Reg.CAP_CMD.CMD ≠ n → exec c s = .next s) ∧
  (s.domOn 45 = true → s.armed State.dueCap 0 = true →
    (s.get Reg.CAP_CMD.CMD = 0 → exec .capNone s = .next u) ∧
    (s.get Reg.CAP_CMD.CMD = 1 →
      (st ≠ 0 → exec .capArm s = .next (failed u 7)) ∧
      (st = 0 → s.armFails = [] → ∃ t, exec .capArm s = .next t ∧ prefilled s t ∧ t.get Reg.CAP_STAT.ARM_RESULT = 0) ∧
      (∀ r, st = 0 → s.armFails = [r] → exec .capArm s = .next (failed u r)) ∧
      (st = 0 → 1 < s.armFails.length → ∃ r ∈ s.armFails, exec .capArm s = .next (failed u.useFree r))) ∧
    (s.get Reg.CAP_CMD.CMD = 2 →
      (1 ≤ st → st ≤ 4 → exec .capDisarm s = .next (u.capEnd 0 false true)) ∧
      (st = 0 ∨ 4 < st → exec .capDisarm s = .next ((u.put Reg.CAP_STAT.STATE 0).cp fun e => { e with rearm := none }))) ∧
    (s.get Reg.CAP_CMD.CMD = 3 →
      let n := s.get Reg.CAP_STAT.UNRELEASED
      let v := u.put Reg.CAP_STAT.UNRELEASED (n - 1)
      let frees : Prop := st = 6 ∧ s.cap.rearm = none ∧ n - 1 < s.get Reg.CAP_CFG.NSEG_CODE + 1
      (n = 0 → exec .capRelease s = .next u) ∧
      (0 < n → frees → exec .capRelease s = .next (v.cp fun e => { e with rearm := some (s.thm.tick + 1) })) ∧
      (0 < n → ¬ frees → exec .capRelease s = .next v)) ∧
    (s.get Reg.CAP_CMD.CMD = 4 → exec .capForce s = .next (u.capEv 57)) ∧
    (s.get Reg.CAP_CMD.CMD = 5 →
      let t := s.getS Reg.CAP_SCHED_SEC.SEC * sec16 + s.get Reg.CAP_SCHED_NS.NS
      let late : Prop := 5 * (t * 2 ^ 24 - s.time40) < fiveTicks40
      (late → exec .capSched s = .next (((u.put Reg.CAP_ARMED_SEC.ARMED 0).ev Reg.CAP_EVT.SCHED_LATE).seqEv 11)) ∧
      (¬ late → exec .capSched s = .next (((u.put Reg.CAP_ARMED_SEC.ARMED 1).put Reg.CAP_ARMED_SEC.SEC
        (State.secWord t).toNat).setLive (Reg.CAP_ARMED_NS.addr []) (State.nsWord t))))) ∧
  (2 ∈ s.armFails ↔ ∃ x ∈ s.capStreams, s.get Reg.CAP_STR_A.LEN [x] ≤ s.get Reg.CAP_STR_B.PRE [x]) ∧
  (4 ∈ s.armFails ↔ s.capStreams = []) ∧ (5 ∈ s.armFails ↔ s.capClock = false) ∧ (6 ∈ s.armFails ↔ s.get Reg.THM_STAT.THR_LEVEL = 3) ∧
  (∀ p : Instant,
    let t := s.getS Reg.CAP_ARMED_SEC.SEC * sec16 + s.get Reg.CAP_ARMED_NS.NS
    let fires : Prop := s.domOn 45 = true ∧ s.get Reg.CAP_ARMED_SEC.ARMED = 1 ∧ t ≤ s.timeAt p.toNat
    (fires → exec (.scheduleFire p) s = .next ((s.put Reg.CAP_ARMED_SEC.ARMED 0).capEv 41)) ∧ (¬ fires → exec (.scheduleFire p) s = .next s)) ∧
  (let goes : Prop := s.domOn 45 = true ∧ (((st = 5 ∨ st = 6) ∧ ∃ t ≤ s.thm.tick, s.cap.rearm = some t) ∨ (st = 7 ∧ s.get Reg.THM_STAT.THR_LEVEL < 3))
   let room : Prop := s.get Reg.CAP_STAT.UNRELEASED < s.get Reg.CAP_CFG.NSEG_CODE + 1
   (¬ goes → exec .captureRearm s = .next s) ∧
   (goes → room → ∃ t, exec .captureRearm s = .next t ∧ prefilled s t) ∧
   (goes → ¬ room → exec .captureRearm s = .next ((s.put Reg.CAP_STAT.STATE 6).cp fun e => { e with rearm := none })))

/-- R356, R362, R364, R366, R368. -/
def Obligations.CaptureCycles : Prop :=
  ∀ s : State, s.wf →
  (∀ m : Span, s.released = true → ∀ c ∈ ([.stencilCountLimit m, .stencilTimeout m, .prefillComplete m, .pendingTriggerCycle m, .captureComplete m] : List Instr),
    exec c s = .next (s.flow m)) ∧
  (∀ (l : List LaneCycle) (outs : List (List (Option Int))) (trig : Stamp), s.capRuns = false → s.capPass l outs trig = s) ∧
  (∀ (x : LaneCycle) (outs : List (Option Int)) (trig : Stamp),
    let u := s.cp fun e => { e with odd := !e.odd }
    let passed : Prop := 1 ≤ s.get Reg.THM_STAT.THR_LEVEL ∧ s.cap.odd = true
    (passed → s.capTake x outs trig = u) ∧
    (¬ passed → s.capTake x outs trig = u.capCycle ⟨cycleInstant x.num, (List.range 4).map fun i => u.capItem i x outs, trig⟩)) ∧
  (∀ c : CapCycle,
    let u := s.capItems c
    (s.capRuns = true → s.capCycle c = (s.capFront c).capBack c) ∧ (s.capRuns = false → s.capCycle c = s) ∧
    (u.capState = 1 → u.prefilled = true → s.capFront c = u.put Reg.CAP_STAT.STATE 2) ∧
    (u.capState ≠ 1 ∨ u.prefilled = false → s.capFront c = u) ∧
    (s.pendDue c = true ↔ s.capState = 3 ∧ ∃ t, s.cap.pend = some t ∧ t < s.timeAt c.start.toNat + s.capLen)) ∧
  (∀ ev : BitVec 64,
    let q := s.get Reg.CAP_STAT.STENCIL
    let mask := s.get Reg.ST_EVLO.EVENTS [q] + s.get Reg.ST_CTL.EVENTS [q] * 2 ^ 48
    let hit := (ev &&& BitVec.ofNat 64 mask).toNat
    let cond : Prop := mask ≠ 0 ∧ ((s.get Reg.ST_CTL.MODE [q] = 1 ∧ hit = mask) ∨ (s.get Reg.ST_CTL.MODE [q] = 0 ∧ hit ≠ 0))
    let cl := s.get Reg.ST_CNT.CNT_LIM [q]
    let tl := s.get Reg.ST_TMR.TMR_LIM [q]
    let tmr := (s.cap.tmr + 1) % 2 ^ 32
    let act := State.StencilStep.count (s.get Reg.ST_CTL.ACT [q]) (s.get Reg.ST_CTL.NEXT [q])
    let rest (cnt : Nat) : State.StencilStep :=
      if tl ≠ 0 ∧ tmr = tl then .timeout (s.get Reg.ST_CTL.TMR_ACT [q]) (s.get Reg.ST_CTL.TMR_NEXT [q]) else .stay cnt tmr
    let steps (cnt : Nat) : Prop := s.stencilStep ev = if cl ≠ 0 ∧ cnt = cl then act else rest cnt
    (cond → steps ((s.cap.cnt + 1) % 2 ^ 32)) ∧ (¬ cond → s.get Reg.ST_CTL.CONSEC [q] = 1 → steps 0) ∧
    (¬ cond → s.get Reg.ST_CTL.CONSEC [q] = 0 → steps s.cap.cnt)) ∧
  (∀ c : CapCycle,
    let st := s.capState
    let ignored (f : FRef) : State := (((s.inc f).ev Reg.CAP_EVT.IGNORED).seqEv 11).cp fun e => { e with ignored := min 65535 (e.ignored + 1) }
    (st = 1 → s.capAction 1 c = ignored Reg.CAP_EARLY_CNT.COUNT) ∧ (st = 5 → s.capAction 1 c = ignored Reg.CAP_REARM_CNT.COUNT) ∧
    (st = 3 ∨ st = 4 ∨ st = 6 → s.capAction 1 c = ignored Reg.CAP_BUSY_CNT.COUNT) ∧
    (st = 2 → s.get Reg.CAP_CFG.DIST = 0 → s.capAction 1 c = { s.put Reg.CAP_STAT.STATE 4 with cap := { s.cap with
      trig := some (s.timeAt c.start.toNat), pend := none
      streams := s.cap.streams.map fun t => { t with trig := some (t.got.getD t.words) } } }) ∧
    (st = 2 → s.get Reg.CAP_CFG.DIST = 1 →
      let sent := s.trigLinks.foldl (fun v j => v.setLink j fun l => { l with tx := { l.tx with trig := true } }) s
      s.capAction 1 c = { sent.put Reg.CAP_STAT.STATE 3 with cap := { s.cap with
        pend := some (s.departTime (s.trigLinks.headD 0) 0 c.depart + s.get Reg.SCR_CFG2.TRIG_LAT * 65536), dist := true } }) ∧
    (st = 3 → s.capAction 2 c = { s.put Reg.CAP_STAT.STATE 2 with cap := { s.cap with pend := none, dist := false } }) ∧
    (st ≠ 3 → s.capAction 2 c = s.capEnd (if s.get Reg.CAP_CFG.AUTO_REARM = 1 then 5 else 0) false false) ∧ s.capAction 0 c = s) ∧
  (∀ (goal : Nat) (suspended aborted : Bool), goal < 8 → s.get Reg.CAP_CFG.RING = 0 →
    let t := s.capEnd goal suspended aborted
    t.capState = goal ∧ t.get Reg.CAP_STAT.CAP_SEQ = (s.get Reg.CAP_STAT.CAP_SEQ + 1) % 65536 ∧
    t.get Reg.CAP_STAT.UNRELEASED = min 15 (s.get Reg.CAP_STAT.UNRELEASED + 1) ∧ t.get Reg.CAP_EVT.DONE = 1 ∧
    t.cap.num = s.cap.num + 1 ∧ t.cap.streams = [] ∧ t.cap.rearm = (if goal = 5 then some (s.thm.tick + 2) else none))

/-- R372 to R374, R376 to R378, R381 to R383. Whether a pulse between 100 ns and 1 us acts is a free value (log entry 1). -/
def Obligations.ClocksAndResets : Prop :=
  ∀ s : State, s.wf →
  let refFld (r : Nat) : FRef := if r = 0 then Reg.CKG_STAT.XTAL_OK else Reg.CKG_STAT.REFCLK_OK
  let spl := s.get Reg.CKG_STAT.SPL
  let now := s.get Reg.CKG_STAT.REF_NOW
  let held (u : State) (p : Nat) : State :=
    if u.pllState p = 2 then (u.put (State.pllRef p) 3).ev Reg.CKG_EVT.LOCK_LOST
    else if u.pllState p = 1 then u.put (State.pllRef p) 3 else u
  let fed (p : Nat) : Prop := p ≠ 0 ∨ s.refOk now = true
  (∀ r : Fin 2,
    (s.running = false ∨ s.refOk r = true → exec (.referenceQualify r) s = .next s) ∧
    (s.running = true → s.refOk r = false →
      let u := (s.put (refFld r) 1).ck fun c => if r.val = 0 then { c with sinceX := s.thm.tick } else { c with sinceR := s.thm.tick }
      (spl = 0 → r.val = 0 → exec (.referenceQualify r) s = .next ((u.put Reg.CKG_STAT.REF_NOW 0).put Reg.CKG_STAT.SPL 1)) ∧
      (spl = 4 → now = r → exec (.referenceQualify r) s = .next (u.put Reg.CKG_STAT.SPL 1)) ∧
      (¬ (spl = 0 ∧ r.val = 0) → ¬ (spl = 4 ∧ now = r) → exec (.referenceQualify r) s = .next u))) ∧
  (∀ r : Fin 4,
    (s.running = false → exec (.refLoss r) s = .next s) ∧
    (s.running = true → 2 ≤ r.val →
      let used : Prop := (s.pllState r = 2 ∨ s.pllState r = 1) ∧ s.get (State.ltxRef (r - 2)) ≠ 16
      (used → exec (.refLoss r) s = .next (held (s.ev Reg.CKG_EVT.REF_LOST) r)) ∧ (¬ used → exec (.refLoss r) s = .next s)) ∧
    (s.running = true → r.val < 2 →
      let u := (s.put (refFld r) 0).ev Reg.CKG_EVT.REF_LOST
      let fails : Prop := s.get Reg.CKG_CFG.REF_SEL = 0 ∧ s.get Reg.CKG_CFG.FAILOVER = 1 ∧ s.refSteady (1 - r) = true
      (s.refOk r = false → exec (.refLoss r) s = .next s) ∧
      (s.refOk r = true → now ≠ r → exec (.refLoss r) s = .next u) ∧
      (s.refOk r = true → now = r → ¬ fails → exec (.refLoss r) s = .next (held u 0)) ∧
      (s.refOk r = true → now = r → fails →
        exec (.refLoss r) s = .next (((held u 0).put Reg.CKG_STAT.REF_NOW (1 - r)).ev Reg.CKG_EVT.FAILOVER)))) ∧
  (∀ p : Fin 5,
    let f := State.pllRef p
    let st := s.pllState p
    let lost : Prop := ¬ (p.val = 0 ∧ s.refOk now = true)
    (s.running = true → st = 3 → lost → exec (.coast p) s = .next ((s.put f 4).ev Reg.CKG_EVT.COAST)) ∧
    (s.running = false ∨ st ≠ 3 ∨ ¬ lost → exec (.coast p) s = .next s) ∧
    (s.running = true → st = 1 ∨ st = 3 → fed p → exec (.pllLock p) s = .next (s.put f 2)) ∧
    (st ≠ 0 → ¬ fed p → exec (.pllLock p) s = .next s) ∧
    (s.running = true → st = 0 → p.val = 0 → s.refOk 0 = false → s.refOk 1 = true →
      exec (.pllLock p) s = .next ((s.put Reg.CKG_STAT.REF_NOW 1).put f 2)) ∧
    (s.running = false ∨ st = 2 ∨ 4 ≤ st ∨ (st = 0 ∧ p.val ≠ 0) → exec (.pllLock p) s = .next s)) ∧
  (∀ m : Fin 9,
    (s.running = true → exec (.forcedSw m) s = .next (((s.put Reg.CKG_STAT.LAST_FSW m).inc Reg.FSW_CNT.COUNT).ev Reg.CKG_EVT.FORCED_SW)) ∧
    (s.running = false → exec (.forcedSw m) s = .next s)) ∧
  (∀ (q : Requester) (w : BitVec 48), s.mayWrite q Reg.RST_CMD.base →
    exec (.rstNone q w) s = .next (s.wrote q psOK Reg.RST_CMD.base) ∧
    exec (.warmReset q) s = .next ((s.ck fun c => { c with rstReq := max c.rstReq 1 }).wrote q psOK Reg.RST_CMD.base) ∧
    exec (.fullReset q) s = .next ((s.ck fun c => { c with rstReq := max c.rstReq 2 }).wrote q psOK Reg.RST_CMD.base)) ∧
  (∀ ns : BitVec 32,
    (ns.toNat < 100 ∨ s.pwr.shutdown = true → exec (.pinReset ns) s = .next s) ∧
    (1000 ≤ ns.toNat → s.pwr.shutdown = false → exec (.pinReset ns) s = .next (s.resetSelf 1)) ∧
    (100 ≤ ns.toNat → ns.toNat < 1000 → s.pwr.shutdown = false →
      exec (.pinReset ns) s = .next s.useFree ∨ exec (.pinReset ns) s = .next (s.useFree.resetSelf 1))) ∧
  exec .por s = .next (s.resetSelf 0) ∧
  (∀ code < 6,
    let t := s.resetSelf code
    t.get Reg.RST_CAUSE.CODE = code ∧ (t.get Reg.RST_SEEN.SEEN).testBit code = true ∧ t.pending = s.pending ∧ t.free = s.free ∧
    (∀ a, stagedAt a = true → t.liveAt a = resetWord a ∧ t.underAt a = resetWord a) ∧ t.seq = State.seqReset ∧ t.rings = [] ∧
    t.part.strap = s.part.pins ∧ t.get Reg.LCS_STAT.STATE = s.get Reg.LCS_STAT.STATE ∧
    (∀ b < 4, t.memAt (memRB + b) = if code = 0 ∨ code = 4 then ⟨[], []⟩ else s.memAt (memRB + b)) ∧
    (∀ m < 13, ¬ (memRB ≤ m ∧ m < memRB + 4) → t.memAt m = ⟨[], []⟩) ∧
    (code ≠ 0 → code ≠ 4 → t.liveAt Reg.SHUT_STAT.base = s.liveAt Reg.SHUT_STAT.base)) ∧
  (let t := s.warmReset
   t.get Reg.RST_CAUSE.CODE = 6 ∧ t.get Reg.MEM_FRZ.FROZEN = 0 ∧ t.seq.run = none ∧ t.seq.resetting = true ∧ t.under = s.under ∧ t.mem = s.mem ∧
   t.rings = s.rings ∧ t.plb = s.plb ∧ t.mgmt.i3cAddr = 0 ∧ t.mgmt.jtagIr = s.mgmt.jtagIr ∧
   (∀ a, stagedAt a = true → t.liveAt a = s.liveAt a) ∧ (t.jnl.rollDue = true ↔ s.jnl.rollDue = true ∨ s.get Reg.JNL_STAT.STATE ≠ 0))

/-- R387 to R393, R395, R396, R398, R399. -/
def Obligations.PowerRequestsAndSupplies : Prop :=
  ∀ s : State, s.wf →
  let ends (u : State) (r : Nat) : State :=
    (((({ u with pwr := { u.pwr with req := none } } : State).put Reg.PWR_STAT.BUSY 0).put Reg.PWR_STAT.RESULT r).ev Reg.PWR_EVT.DONE).seqEv 2
  (∀ q : Requester, s.mayWrite q Reg.PWR_REQ.base →
    let answers (c : Instr) (t : State) : Prop := exec c s = .next (t.wrote q psOK Reg.PWR_REQ.base)
    answers (.pwrNone q) s ∧
    (∀ (c : Instr) (w : Word), ((∃ a n, c = .domOn q a n ∧ w = BitVec.ofNat 48 (2 ^ 44 + n.toNat * 64 + a.toNat)) ∨
        (∃ a n, c = .domOff q a n ∧ w = BitVec.ofNat 48 (2 * 2 ^ 44 + n.toNat * 64 + a.toNat)) ∨
        (∃ x, c = .pwrState q x ∧ w = BitVec.ofNat 48 (3 * 2 ^ 44 + x.toNat * 2 ^ 41))) →
      (s.pwr.req.isSome = true → answers c s) ∧
      (s.pwr.req = none → answers c (({ s with pwr := { s.pwr with
        req := some ⟨w, masterOf q, false, false, [], [], 0, 0, false⟩ } } : State).put Reg.PWR_STAT.BUSY 1)))) ∧
  (s.running = false ∨ s.pwr.req = none → exec .pwrRequestStart s = .next s ∧ exec .domainSwitch s = .next s ∧
    exec .powerGoodTimeout s = .next s ∧ exec .pwrRequestDone s = .next s ∧ exec .pointOfNoReturn s = .next s) ∧
  (∀ r, s.running = true → s.pwr.req = some r →
    let op := reqOp r.word
    let st := reqState r.word
    let first := reqFirst r.word
    let last := reqLast r.word
    (r.started = true ∨ r.due = false → exec .pwrRequestStart s = .next s) ∧
    (r.started = false → r.due = true →
      (badReq r.word = true → exec .pwrRequestStart s = .next (ends s 3)) ∧
      (badReq r.word = false → s.supplyWarned = true → exec .pwrRequestStart s = .next (ends s 5)) ∧
      (badReq r.word = false → s.supplyWarned = false →
        (∀ d, s.refuser r.word = some d → exec .pwrRequestStart s =
          .next (ends (((s.inc Reg.PWR_REFUSE_CNT.COUNT).put Reg.PWR_STAT.REFUSER d).ev Reg.PWR_EVT.REFUSED) 1)) ∧
        (s.refuser r.word = none → s.sec.isRun = false → s.phase = phIDLE →
          let l := (List.range 57).filter fun d => decide (first ≤ d) && decide (d ≤ last)
          let goes (todo : List Nat) (step result : Nat) : Prop := exec .pwrRequestStart s = .next { s with pwr := { s.pwr with
            req := some { r with started := true, due := false, todo := todo, step := step, result := result } } }
          (op = 1 → goes (l.filter fun d => !s.domOn d && !s.domBarred d) 0 (if l.any s.domBarred then 4 else 0)) ∧
          (op = 2 → goes (l.filter s.domOn).reverse 0 0) ∧
          (op = 3 → st = 0 → s.pwr.state = .run → exec .pwrRequestStart s = .next (ends s 0)) ∧
          (op = 3 → st = 0 → s.pwr.state ≠ .run → exec .pwrRequestStart s = .next
            ((s.put Reg.PWR_STAT.WAKE_SRC 2).wakeBegin.setReq fun x => { x with started := true })) ∧
          (op = 3 → st = 1 → exec .pwrRequestStart s = .next (ends s.enterIdle 0)) ∧
          (op = 3 → 2 ≤ st → goes (((heldOff st).filter fun d =>
            s.domOn d && !([0, 49, 50, 51, 52, 53, 54, 55, 56].contains d)).reverse) 2 0)))) ∧
    (∀ d rest, r.started = true → r.todo = d :: rest → r.aborting = false →
      let u := { s with pwr := { s.pwr with req := some { r with todo := rest, due := false } } }
      (op = 1 → exec .domainSwitch s = .next (u.domainOn d)) ∧ (op = 2 → exec .domainSwitch s = .next (u.domainOff d)) ∧
      (op = 3 → exec .domainSwitch s = .next ((u.setDom d false).setReq fun x => { x with done := d :: x.done }).domRefresh)) ∧
    (r.started = true → op = 1 → r.todo ≠ [] → exec .powerGoodTimeout s = .next (ends s 6)) ∧
    (r.started = false ∨ op ≠ 1 ∨ r.todo = [] → exec .powerGoodTimeout s = .next s) ∧
    (r.started = true → r.due = true → r.todo = [] →
      (r.aborting = false → op ≠ 3 → exec .pwrRequestDone s = .next (ends s r.result)) ∧
      (r.aborting = true → exec .pwrRequestDone s = .next (ends
        ((({ s with pwr := { s.pwr with waking := false } } : State).inc Reg.PWR_ABORT_CNT.COUNT).ev Reg.PWR_EVT.ABORTED) 2))) ∧
    (r.started = false ∨ r.due = false ∨ r.todo ≠ [] → exec .pwrRequestDone s = .next s) ∧
    (r.started = true → r.aborting = false → op = 3 →
      (st = 2 → r.step = 3 → exec .pointOfNoReturn s = .next (ends
        (({ r.done.foldl (fun v d => v.domainOff d) s with pwr := { (r.done.foldl (fun v d => v.domainOff d) s).pwr with
          state := .sleep, stopped := [49, 50].filter r.done.contains } } : State).put Reg.PWR_STAT.STATE 2) 0)) ∧
      (st = 3 → r.step = 4 → ∃ t : State, exec .pointOfNoReturn s = .next t ∧ t.pwr.state = .deep ∧ t.pwr.req = none ∧ t.live = (ends s 0).live) ∧
      (st = 4 → r.step = 4 → ∃ t : State, exec .pointOfNoReturn s = .next t ∧ t.pwr.state = .off ∧ t.pwr.req = none ∧ t.pwr.on = 0))) ∧
  (s.clk.held = false → s.pwr.shutdown = false →
    ∀ (c : Instr) (n : Nat), ((∃ x : BitVec 3, c = .wake x ∧ n = x.toNat ∧ n ≠ 7) ∨ (c = .wakeTimer ∧ n = 7)) →
      (s.wakeEnabled n = false → exec c s = .next s) ∧
      (s.wakeEnabled n = true →
        let src (u : State) : State := u.put Reg.PWR_STAT.WAKE_SRC n
        (s.pwr.state = .deep → State.wakeActs n 3 = true → exec c s = .next (src (s.resetSelf 5))) ∧
        (s.pwr.state = .off → n = 1 → exec c s = .next (src (s.resetSelf 4))) ∧
        ((s.pwr.state = .idle ∨ s.pwr.state = .sleep) → s.pwr.req = none → State.wakeActs n s.stateCode = true →
          let woken : State := s.pwr.stopped.foldl (fun v d => v.domainOn d) s
          exec c s = .next (src { woken with pwr := { woken.pwr with waking := true, stopped := [] } })) ∧
        (∀ r, (s.pwr.state = .run ∨ s.pwr.state = .idle ∨ s.pwr.state = .sleep) → s.pwr.req = some r → r.started = true → reqOp r.word = 3 →
          2 ≤ reqState r.word → r.aborting = false → State.wakeActs n (reqState r.word) = true →
          exec c s = .next (((src s).put Reg.PWR_STAT.ABORT_STEP (if r.done = [] ∧ r.step = 2 then 1 else r.step)).setReq fun x =>
            { x with aborting := true, due := false, todo := r.done })))) ∧
  (∀ cause : Fin 3,
    (s.running = false ∨ s.thm.tick ≠ 0 → exec (.wakeRetry cause) s = .next s) ∧
    (s.running = true → s.thm.tick = 0 →
      (s.pwr.retries < 3 → exec (.wakeRetry cause) s = .next (((({ s.inc Reg.WAKE_RETRY_CNT.COUNT with
        pwr := { s.pwr with retries := s.pwr.retries + 1 } } : State).put Reg.CKG_STAT.XTAL_OK 0).put Reg.CKG_STAT.REFCLK_OK 0).put Reg.CKG_STAT.SPL 0)) ∧
      (3 ≤ s.pwr.retries → exec (.wakeRetry cause) s = .next { s.put Reg.PWR_STAT.FAIL_CAUSE cause with
        pwr := { s.pwr with state := .wakeFail, on := 1 } }))) ∧
  (s.pwr.state = .deep → exec .brownout s = .next (((s.ev Reg.PWR_EVT.BROWNOUT).resetSelf 5).put Reg.PWR_STAT.WAKE_SRC 8)) ∧
  (s.pwr.state ≠ .deep → exec .brownout s = .next s) ∧
  (∀ x : Fin 7,
    let rails := s.get Reg.PWR_SUP_STAT.RAILS
    let set (v : Nat) : State := s.put Reg.PWR_SUP_STAT.RAILS (setBits rails (2 * x + 1) (2 * x) v)
    let warned : State := ((set 1).inc Reg.SUP_WARN_CNT.COUNT).ev Reg.PWR_EVT.SUP_WARN
    (s.railWatched x = false ∨ rails.testBit (2 * x) = true → exec (.supWarn x) s = .next s) ∧
    (s.railWatched x = true → rails.testBit (2 * x) = false →
      exec (.supWarn x) s = .next warned) ∧
    (s.railWatched x = false → exec (.supReset x) s = .next s) ∧
    (s.railWatched x = true → x.val = 0 → exec (.supReset x) s = .next (s.resetSelf 0)) ∧
    (s.railWatched x = true → 1 ≤ x.val → x.val ≤ 3 → ∃ t : State, exec (.supReset x) s = .next t ∧ t.clk.held = true ∧
      t.get Reg.RST_CAUSE.CODE = 1 ∧ t.get Reg.PWR_EVT.SUP_RESET = 1) ∧
    (s.railWatched x = true → 4 ≤ x.val →
      (rails.testBit (2 * x) = true → exec (.supReset x) s = .next ((set 3).ev Reg.PWR_EVT.SUP_RESET)) ∧
      (rails.testBit (2 * x) = false → exec (.supReset x) s = .next ((warned.railBits x 3).ev Reg.PWR_EVT.SUP_RESET))) ∧
    (let still : Prop := ∃ j, 1 ≤ j ∧ j ≤ 3 ∧ j ≠ x.val ∧ rails.testBit (2 * j + 1) = true
     let freed : State := if (set 0).supplyWarned then set 0 else (set 0).storeHeld
     (still ∨ s.clk.held = false → exec (.supplyWarningClear x) s = .next freed) ∧
     (¬ still → s.clk.held = true → exec (.supplyWarningClear x) s = .next { freed with
       part := { freed.part with strap := freed.part.pins }, clk := { freed.clk with held := false } })))

/-- R291 to R295. That a row takes a command and then goes on with it is the model's reading (log entry 31). -/
def Obligations.HostCommandsAtOnce : Prop :=
  ∀ (s : State) (c : Fin 8) (at_ : Instant) (status fwd : BitVec 8) (x y : Word) (code : BitVec 4) (before : List (List (BitVec 24 × Word)))
    (program : List (BitVec 24 × Word)), s.wf →
  let rows : List (Instr × (Nat → Bool)) := [(.ping c, (· == 1)), (.regRead c at_, (· == 2)), (.setCommand c, (· == 3)),
    (.modeCommand c before fwd, (· == 4)), (.profileCommand c before fwd, (· == 5)), (.dpsCommand c, (· == 6)), (.lowPowerCommand c x code, (· == 7)),
    (.floatCommand c, (· == 8)), (.timeCommand c, (· == 9)), (.loopCommand c, (· == 10)), (.captureCommand c program, (· == 11)),
    (.imageSwap c, (· == 12)), (.imageInfo c, (· == 13)), (.unfreeze c, (· == 14)), (.jnlAbort c, (· == 15)),
    (.unknownOp c, fun o => o == 0 || (16 ≤ o && o < 128)), (.imageDefinedCommand c status x y, fun o => 128 ≤ o)]
  (∀ r ∈ rows,
    (s.released = false ∨ s.fwRuns = false ∨ (∃ h, s.cmdAt c = some h ∧ r.2 h.opcode = false) ∨
      (s.cmdAt c = none ∧ (s.cmdWaits c = false ∨ r.2 (s.headCmd c).opcode = false)) → exec r.1 s = .next s) ∧
    (s.released = true → s.fwRuns = true → s.cmdAt c = none → s.cmdWaits c = true → r.2 (s.headCmd c).opcode = true →
      (s.pastCmd c).seq.imageRuns = false → (s.headCmd c).opcode ≠ 1 → (s.headCmd c).opcode ≠ 2 → (s.headCmd c).opcode ≠ 13 →
      exec r.1 s = .next ((s.pastCmd c).cmdDone c (s.headCmd c) 8))) ∧
  (∀ (h : HostCmd) (u : State), s.serves c h u →
    let slot := u.seq.slotB.toNat
    let i := h.op1.toNat % 2
    let m := h.op1.toNat % 8
    (h.opcode = 1 → exec (.ping c) s =
      .next (u.cmdDone c h 0 (BitVec.ofNat 48 (u.get (State.imgVersion slot) * 2 ^ 16 + slot)) (BitVec.ofNat 48 u.ticks))) ∧
    (h.opcode = 2 →
      let r := (u.pmc 0x10).portRead .quaran (h.op1.toNat % 2 ^ 24) at_.toNat
      (r.2.1 ≠ psPOISON → exec (.regRead c at_) s = .next (r.1.cmdDone c h 0 r.2.2 (BitVec.ofNat 48 r.2.1))) ∧
      (r.2.1 = psPOISON → exec (.regRead c at_) s = .next (r.1.cmdDone c h 0 r.2.2 (BitVec.ofNat 48 psOK)))) ∧
    (h.opcode = 13 →
      let info (n : Nat) : Prop := exec (.imageInfo c) s =
        .next (u.cmdDone c h 0 (BitVec.ofNat 48 (u.get (State.imgVersion i))) (BitVec.ofNat 48 n))
      let signed : Prop := u.get (State.imgResult i) = irOK ∨ u.get (State.imgResult i) = irROLLBACK
      (¬ signed → info 0) ∧ (signed → u.get (State.imgLevel i) < u.get Reg.SEC_ARB.LEVEL → info 1) ∧
      (signed → u.get Reg.SEC_ARB.LEVEL ≤ u.get (State.imgLevel i) → info 3)) ∧
    (h.opcode = 14 →
      (6 ≤ m → exec (.unfreeze c) s = .next (u.cmdDone c h 2)) ∧
      (m < 6 → exec (.unfreeze c) s = .next ((u.fwWrite Reg.MEM_FRZ.base (BitVec.ofNat 48 (2 ^ (8 + m)))).cmdDone c h 0
        (BitVec.ofNat 48 ((u.get Reg.MEM_FRZ.FROZEN).testBit m).toNat)))) ∧
    (h.opcode = 0 ∨ (16 ≤ h.opcode ∧ h.opcode < 128) → exec (.unknownOp c) s = .next (u.cmdDone c h 1)) ∧
    (128 ≤ h.opcode → exec (.imageDefinedCommand c status x y) s = .next (u.cmdDone c h status.toNat x y))) ∧
  (∀ (h : HostCmd) (st : Nat), let t := s.cmdDone c h st x y
    t.get Reg.RNG_PI.INDEX [2 * c.val + 1] = (s.get Reg.RNG_PI.INDEX [2 * c.val + 1] + 1) % 65536 ∧ t.cmdAt c = none ∧
    (∀ d : Fin 8, d ≠ c → t.cmdAt d = s.cmdAt d))

/-- R59, R174, R183, R268, R292, R294 to R297, R300, R365. The stages of a command are the model's (log entry 31). -/
def Obligations.HostCommandsThatWait : Prop :=
  ∀ (s : State) (c : Fin 8) (h : HostCmd) (u : State), s.wf → s.serves c h u →
  let stays (i : Instr) (t : State) : Prop := exec i s = .next (t.inTime c)
  let done (i : Instr) (st : Nat) (x y : Word) : Prop := exec i s = .next (u.cmdDone c h st x y)
  let report (n : Nat) : Word := BitVec.ofNat 48 (n * 2 ^ 32 + u.get Reg.SET_STATUS.REASON * 2 ^ 24 + u.get Reg.SET_STATUS.ADDR)
  let failed : Prop := u.get Reg.SET_STATUS.CHECK = h.num % 1024 ∧ u.get Reg.SET_STATUS.STATE = 4
  let applied : Prop := ¬ failed ∧ (u.get Reg.SET_APPLIED.CHECK + 65536 - h.num) % 65536 < 32768
  let asks (i : Instr) (k : Nat) (note : Word) (v : State) : Prop :=
    (u.mayCheck 0 = false → stays i u) ∧
    (u.mayCheck 0 = true → stays i ((v.startCheck .quaran 0).setCmd c
      (some { h with stage := k + 1, num := (v.startCheck .quaran 0).set.count, note := note })))
  let awaits (i : Instr) : Prop := (failed → done i 4 (report h.num) 0) ∧ (¬ failed → ¬ applied → stays i u)
  let code (n : Nat) : Nat := if n = 0 then 0 else 3
  let word (n : Nat) : Word := BitVec.ofNat 48 n
  let op : Nat := h.op1.toNat
  (h.opcode = 3 →
    (h.stage = 0 → asks (.setCommand c) 0 h.note u) ∧
    (h.stage = 1 → awaits (.setCommand c) ∧ (applied → done (.setCommand c) 0 (word (h.num * 2 ^ 32)) u.appliedTick))) ∧
  (h.opcode = 6 →
    let mask := op % 2 ^ 16
    let dps := op / 2 ^ 16 % 4
    (dps = 3 → done (.dpsCommand c) 2 0 0) ∧ (dps ≠ 3 → u.is1608 = true → 256 ≤ mask → done (.dpsCommand c) 6 0 0) ∧
    (dps ≠ 3 → u.is1608 = false ∨ mask < 256 →
      (h.stage = 0 → ∃ w : Word, asks (.dpsCommand c) 0 h.note (u.fwStage Reg.DPS.base w) ∧
        ∀ n < 16, (w.toNat / 2 ^ (2 * n)) % 4 = if mask.testBit n then dps else ((u.underAt Reg.DPS.base).toNat / 2 ^ (2 * n)) % 4) ∧
      (h.stage = 1 → awaits (.dpsCommand c) ∧ (applied → done (.dpsCommand c) 0 (word (h.num * 2 ^ 32)) u.appliedTick)))) ∧
  (∀ (i : Instr) (steps : List (List (BitVec 24 × Word))) (fwd : BitVec 8),
    (h.opcode = 4 ∧ op % 16 < 14 ∧ (u.isT = true ∨ op / 16 % 4 = 0) ∧ ∃ before, i = .modeCommand c before fwd ∧ steps = before ++ [u.modeStep h]) ∨
    (h.opcode = 5 ∧ i = .profileCommand c steps fwd) →
    let st := u.get Reg.JNL_STAT.STATE
    let opened := (u.writePlan steps).fwWrite Reg.JNL_CTL.base (State.jnlWord 1 h.tag fwd.toNat steps.length)
    (h.stage = 0 → st ≠ 0 → stays i u) ∧
    (h.stage = 0 → st = 0 → opened.get Reg.JNL_STAT.STATE ≠ 0 → stays i (opened.setCmd c (some { h with stage := 1 }))) ∧
    (0 < h.stage → st = 1 → h.stage < 3 → u.get Reg.JNL_STAT.BUSY = 0 → u.set.check = none →
      (h.stage = 2 → u.get Reg.SET_STATUS.STATE = 4 → ∃ g, g.stage = 3 ∧ stays i ((u.setCmd c (some g)).fwWrite Reg.JNL_CTL.base 3)) ∧
      (h.stage = 1 ∨ u.get Reg.SET_STATUS.STATE ≠ 4 → u.set.passed = none →
        stays i ((u.setCmd c (some { h with stage := 2 })).fwWrite Reg.JNL_CTL.base 2))) ∧
    (0 < h.stage → st = 0 →
      let out := u.get Reg.JNL_STAT.OUTCOME
      ∃ r : Word, (h.stage = 3 → r = h.note) ∧ (out = 1 ∨ out = 2 → done i 0 r (word out)) ∧ (out ≠ 1 → out ≠ 2 → done i 7 r (word out)))) ∧
  (∀ before fwd, h.opcode = 4 → (14 ≤ op % 16 → done (.modeCommand c before fwd) 2 0 0) ∧
    (op % 16 < 14 → u.isT = false → op / 16 % 4 ≠ 0 → done (.modeCommand c before fwd) 6 0 0)) ∧
  (∀ (request : Word) (mode : BitVec 4), h.opcode = 7 →
    let i : Instr := .lowPowerCommand c request mode
    let asksPower (k : Nat) (w : Word) : Prop :=
      (u.pwr.req.isSome = true → stays i u) ∧
      (u.pwr.req = none → stays i ((u.setCmd c (some { h with stage := k + 1 })).pwrRequest .quaran w))
    let r := u.get Reg.PWR_STAT.RESULT
    let ended (k : Nat) : Prop := h.stage = k + 1 ∧ u.pwr.req = none
    (h.op1.getLsbD 0 = true →
      (h.stage = 0 → asks i 0 h.note ((u.fwStage Reg.MODE.base 0).fwStage Reg.DPS.base 0)) ∧
      (h.stage = 1 → awaits i ∧ (applied → asksPower 2 (word (3 * 2 ^ 44 + 2 * 2 ^ 41)))) ∧
      (ended 2 → done i (code r) (word r) 0)) ∧
    (h.op1.getLsbD 0 = false →
      (h.stage = 0 → asksPower 0 (word (3 * 2 ^ 44))) ∧ (ended 0 → r ≠ 0 → done i 3 (word r) 0) ∧
      (ended 0 → r = 0 → stays i ((u.setCmd c (some { h with stage := 3, note := 0 })).pwrRequest .quaran request)) ∧ (ended 2 → r ≠ 0 → done i 3 (word r) 0) ∧
      (ended 2 → r = 0 → u.mayCheck 0 = true → ∃ g : HostCmd, g.stage = 5 ∧
        stays i (((u.fwStage Reg.MODE.base (word mode.toNat)).startCheck .quaran 0).setCmd c (some g))) ∧
      (h.stage = 5 → awaits i ∧ (applied → done i (code h.note.toNat) h.note 0)))) ∧
  (∀ (i : Instr) (seq stat : Nat) (res : Nat) (staged : State) (k : Nat),
    (h.opcode = 8 ∧ i = .floatCommand c ∧ seq = (u.get Reg.MIG_CTL.SEQ + 1) % 16 ∧ stat = u.get Reg.MIG_STAT.SEQ_DONE ∧
      res = u.get Reg.MIG_STAT.LAST_RESULT ∧ k = 0 ∧ staged = ((u.fwField Reg.MIG_CTL.CMD [] (op % 8)).fwField Reg.MIG_CTL.TARGET []
        (op / 16 % 8)).fwField Reg.MIG_CTL.SEQ [] seq) ∨
    (h.opcode = 9 ∧ op % 16 < 5 ∧ i = .timeCommand c ∧ seq = (u.get Reg.ADJ_CTL.SEQ + 1) % 16 ∧ stat = u.get Reg.ADJ_STAT.SEQ_DONE ∧
      res = u.get Reg.ADJ_STAT.RESULT ∧ k = 0 ∧ staged = ((u.fwStage Reg.ADJ_SEC.base h.op2).fwStage Reg.ADJ_NS.base h.op3).fwStage
        Reg.ADJ_CTL.base (word (op / 256 % 256 * 256 + op % 16 * 16 + seq))) →
    (h.stage = 0 → asks i 0 (word seq) staged) ∧
    (h.stage = 1 → awaits i ∧ (applied → stays i (u.setCmd c (some { h with stage := 2 })))) ∧
    (h.stage = 2 → (stat ≠ h.note.toNat → stays i u) ∧ (stat = h.note.toNat → done i (code res) (word res) 0))) ∧
  (h.opcode = 9 → 5 ≤ op % 16 → done (.timeCommand c) 2 0 0) ∧
  (h.opcode = 10 →
    let l := op % 16
    let goal := op / 16 % 8
    (5 ≤ goal → done (.loopCommand c) 2 0 0) ∧
    (goal < 5 →
      (h.stage = 0 → asks (.loopCommand c) 0 h.note (u.fwStage (Reg.TRW_CMD.base + l * 0x40) (word (goal * 16 + (u.get Reg.TRW_CMD.SEQ [l] + 1) % 16)))) ∧
      (h.stage = 1 → awaits (.loopCommand c) ∧ (applied → stays (.loopCommand c) (u.setCmd c (some { h with stage := 2 })))) ∧
      (h.stage = 2 → (u.loopState l ≠ goal → stays (.loopCommand c) u) ∧ (u.loopState l = goal → done (.loopCommand c) 0 (word goal) 0)))) ∧
  (∀ program, h.opcode = 11 →
    let i : Instr := .captureCommand c program
    let cap (v : State) (n : Nat) : State := v.fwStage Reg.CAP_CMD.base (word (n * 16 + (v.get Reg.CAP_CMD.SEQ + 1) % 16))
    let r := u.get Reg.CAP_STAT.ARM_RESULT
    let ends : Prop := (r = 0 → done i 0 (u.liveAt Reg.CAP_STAT.base) 0) ∧ (r ≠ 0 → done i 3 (word r) 0)
    let timed : Prop := h.op2 ≠ 0 ∨ h.op3 ≠ 0
    (h.stage = 0 → asks i 0 h.note (cap (program.foldl (fun (v : State) p => v.fwStage p.1.toNat p.2) u) 1)) ∧
    (h.stage = 1 → awaits i ∧ (applied → stays i (u.setCmd c (some { h with stage := 2 })))) ∧
    (h.stage = 2 → (u.armed State.dueCap 0 = true → stays i u) ∧
      (u.armed State.dueCap 0 = false → timed → r = 0 → stays i (u.setCmd c (some { h with stage := 3 }))) ∧
      (u.armed State.dueCap 0 = false → ¬ timed ∨ r ≠ 0 → ends)) ∧
    (h.stage = 3 → asks i 3 h.note (cap ((u.fwStage Reg.CAP_SCHED_SEC.base h.op2).fwStage Reg.CAP_SCHED_NS.base h.op3) 5)) ∧
    (h.stage = 4 → awaits i ∧ (applied → ends))) ∧
  (h.opcode = 12 →
    let asked := u.fwWrite Reg.SEQ_SWAP.base (word (u.get Reg.SEQ_SWAP.TRIAL + 16))
    let waits (v : State) : Prop := v.get Reg.SEQ_SWAP.STATE = 1 ∨ v.get Reg.SEQ_SWAP.STATE = 2
    (h.stage = 0 → waits asked → stays (.imageSwap c) (asked.setCmd c (some { h with stage := 1 }))) ∧
    (h.stage = 0 → ¬ waits asked → exec (.imageSwap c) s = .next (asked.cmdDone c h 3 (word (asked.get Reg.SEQ_SWAP.RESULT)) 0)) ∧
    (h.stage = 1 → waits u → stays (.imageSwap c) u) ∧
    (h.stage = 1 → ¬ waits u → done (.imageSwap c) (code (u.get Reg.SEQ_SWAP.RESULT)) (word (u.get Reg.SEQ_SWAP.RESULT)) 0)) ∧
  (h.opcode = 15 →
    (u.get Reg.JNL_STAT.STATE = 0 → done (.jnlAbort c) 0 0 (word (u.get Reg.JNL_STAT.OUTCOME))) ∧
    (0 < h.stage → u.get Reg.JNL_STAT.STATE ≠ 0 → stays (.jnlAbort c) u) ∧
    (h.stage = 0 → u.get Reg.JNL_STAT.STATE ≠ 0 →
      let v := (u.fwWrite Reg.JNL_CTL.base 3).setCmd c (some { h with stage := 1 })
      (v.get Reg.JNL_STAT.STATE ≠ 0 → stays (.jnlAbort c) v) ∧
      (v.get Reg.JNL_STAT.STATE = 0 →
        exec (.jnlAbort c) s = .next (v.cmdDone c h 0 0 (word (v.get Reg.JNL_STAT.OUTCOME))))))

/-- R401, R402, R407 to R409 to R411, R413, R415, R417, R420, R422. -/
def Obligations.MemoryProtection : Prop :=
  ∀ s : State, s.wf →
  (∀ (m a : Nat) (w : Word) (who : Master), m < 13 → m ≠ memCOEF → a < memWords m →
    let t := s.memWrite m a w who
    t.cell m a = Cell.of w ∧ (t.cell m a).syndrome = 0 ∧ t.poisoned m a = false ∧ t.memRead m a who 0 = (t, true, w) ∧
    let intact : Prop := (∀ i, (s.page m (a / 64)).badMap i = false) ∧ (s.page m (a / 64)).badChecks = []
    ((s.cell m a).syndrome = 0 → intact → (∀ n b, n ≠ m ∨ b ≠ a → n ≠ memCOEF → t.cell n b = s.cell n b ∧ t.poisoned n b = s.poisoned n b) ∧
      t.live = s.live ∧ t.mem.log = s.mem.log ∧
      (s.poisoned m a = true → s.memRead m a who 0 = (s.memReport 4 m who 0 a 0 0 0, false, 0)) ∧
      (∀ mask : Word,
        (s.poisoned m a = true → s.memNarrow m a mask w who = (s.memReport 5 m who 1 a 0 0 0, false)) ∧
        (s.poisoned m a = false →
          s.memNarrow m a mask w who = (s.memWrite m a (((s.cell m a).data &&& ~~~mask) ||| (w &&& mask)) who, true))))) ∧
  (∀ (m p : Nat) (who : Master) (how : Nat), m < 13 → hasPage m = true → m ≠ memCOEF →
    let g := s.page m p
    let t := s.pageSound m p who how
    (t.page m p).badChecks = [] ∧ (∀ i, (t.page m p).badMap i = false) ∧
    ((∀ i, g.badMap i = false) → g.badChecks = [] → t = s) ∧
    (∀ j < 64, g.badMap (j / 48) = true → (s.cell m (64 * p + j)).single = some 0 → t.poisoned m (64 * p + j) = true)) ∧
  (s.released = true →
    let at0 (u : State) (m p : Nat) : State := { u with mem := { u.mem with scrubMem := m, scrubPage := p } }
    let period := 8192 * s.get Reg.MEM_CFG.SCRUB_PERIOD
    let pages := (((List.range 13).filter fun m => s.domOn (memDom m)).map fun m => memWords m / 64).sum
    let made := s.mem.scrubDone
    let due : Prop := s.running = true ∧ s.get Reg.MEM_CFG.SCRUB_EN = 1 ∧ made * period ≤ s.mem.scrubTicks * pages ∧ (made = 0 ∨ made < pages)
    let v : State := { s with mem := { s.mem with scrubDone := made + 1 } }
    (¬ due → exec .scrubVisit s = .next s) ∧
    (due →
      let off (m : Nat) : Bool := !s.domOn (memDom m)
      ((∀ m, s.mem.scrubMem ≤ m → m < 13 → off m = true) → exec .scrubVisit s = .next ((at0 v 0 0).ev Reg.MEM_EVT.SCRUB_WRAP)) ∧
      (∀ m, s.mem.scrubMem ≤ m → m < 13 → off m = false → (∀ k, s.mem.scrubMem ≤ k → k < m → off k = true) →
        ∃ p, (m = s.mem.scrubMem → p = s.mem.scrubPage) ∧ (m ≠ s.mem.scrubMem → p = 0) ∧
          let u := (v.scrubPage m p).pmc 0x92
          (64 * (p + 1) < memWords m → exec .scrubVisit s = .next (at0 u m (p + 1))) ∧
          (memWords m ≤ 64 * (p + 1) → ∃ t, exec .scrubVisit s = .next t ∧ t.mem.scrubPage = 0 ∧
            (t.mem.scrubMem = m + 1 ∨ (t.mem.scrubMem = 0 ∧ t.get Reg.MEM_EVT.SCRUB_WRAP = 1)))))) ∧
  (s.released = false → exec .scrubVisit s = .next s) ∧
  (∀ (q : Requester),
    (∀ mem : BitVec 4, s.mayWrite q Reg.MEM_TST_CTL.base →
      let answers (i : Instr) (t : State) : Prop := exec i s = .next (t.wrote q psOK Reg.MEM_TST_CTL.base)
      let m := mem.toNat
      let a := s.get Reg.MEM_TST_ADDR.ADDR
      let u := if s.isPageHit m a then s.isAbort else s
      let c := s.cell m a
      let d : Word := BitVec.ofNat 48 (s.get Reg.MEM_TST_DATA.DATA)
      let k : BitVec 8 := BitVec.ofNat 8 (s.get Reg.MEM_TST_CHK.CHK)
      (12 < m ∨ memWords m ≤ a → ∀ i ∈ [Instr.tstNone q mem, .readRaw q mem, .writeData q mem, .writeCheck q mem, .writeBoth q mem], answers i s) ∧
      (m ≤ 12 → a < memWords m →
        answers (.tstNone q mem) u ∧
        answers (.readRaw q mem) ((u.put Reg.MEM_TST_DATA.DATA c.data.toNat).put Reg.MEM_TST_CHK.CHK c.check.toNat) ∧
        answers (.writeData q mem) (u.setCell m a ⟨d, c.check⟩) ∧ answers (.writeCheck q mem) (u.setCell m a ⟨c.data, k⟩) ∧
        answers (.writeBoth q mem) (u.setCell m a ⟨d, k⟩))) ∧
    (s.mayWrite q Reg.MEM_LOG_POP.base →
      let l := s.mem.log.tail
      exec (.memLogPop q) s = .next (({ s with mem := { s.mem with log := l } }.put Reg.MEM_STAT.LOG_FILL l.length).wrote q psOK
        Reg.MEM_LOG_POP.base)) ∧
    (∀ w : Word, s.mayWrite q Reg.MEM_LOCK.base → ∃ t, exec (.memLock q w) s = .next (State.wrote t q psOK Reg.MEM_LOCK.base) ∧
      (∀ b < 24, t.lockedBlock b = (s.lockedBlock b || w.getLsbD b)) ∧ (∀ a, a ≠ Reg.MEM_LOCK.base → t.liveAt a = s.liveAt a)) ∧
    (∀ w : Word, s.mayWrite q Reg.MEM_FRZ.base → ∃ t, exec (.release q w) s = .next (State.wrote t q psOK Reg.MEM_FRZ.base) ∧
      (∀ c < 6, (t.get Reg.MEM_FRZ.FROZEN).testBit c =
        ((s.get Reg.MEM_FRZ.FROZEN).testBit c && !(w.getLsbD (8 + c) && c != (masterOf q).code))) ∧
      (∀ a, a ≠ Reg.MEM_FRZ.base → t.liveAt a = s.liveAt a)))

/-- R426 to R429, R432, R434 to R438, R440. Whether OTP programming verifies is a free value (log entries 1 and 12). -/
def Obligations.SelfTestAndSecurity : Prop :=
  ∀ s : State, s.wf →
  (∀ (sl : Fin 10) (r : SelfTest),
    let due : Prop := s.running = true ∧ s.bst = 0 ∧ s.thm.tick ≠ 0 ∧ s.get Reg.BST_SLICE.RUN [sl.val] = 0 ∧
      ∀ i < sl.val, s.get Reg.BST_SLICE.RUN [i] = 1
    let v := if sl.val = 0 then s.rbCheck else s
    let budget := [4000, 8000, 60000, 40000, 6000, 5000, 3000, 20000, 20000, 9000].getD sl 0
    let fails := State.testFails sl r
    let found := v.testDomains sl fails
    (∀ b < 57, fails.getLsbD b = true ↔ r.fails.getLsbD b = true ∨ (budget ≤ r.used.toNat ∧ b = r.testing.val) ∨
      (sl.val = 7 ∧ ∃ p, r.cals[b]? = some p ∧ State.calFails p = true)) ∧
    (¬ due → exec (.powerupSelfTest sl r) s = .next s) ∧
    (due → ∃ t, exec (.powerupSelfTest sl r) s = .next t ∧ t.get Reg.BST_SLICE.RUN [sl.val] = 1 ∧
      t.get Reg.BST_SLICE.USED [sl.val] = r.used.toNat ∧ t.get Reg.BST_SLICE.OVERTIME [sl.val] = (decide (budget ≤ r.used.toNat)).toNat ∧
      (found.2 ≠ 0 ∨ found.1 ≠ [] → t.get Reg.BST_SLICE.PASS [sl.val] = 0) ∧ (fails = 0 → t.get Reg.BST_SLICE.PASS [sl.val] = 1) ∧
      (found.2 = 0 → t.bst = 0) ∧ (found.2 ≠ 0 → t.bst = 3 ∧ t.get Reg.BST_CRIT.CAUSE = found.2))) ∧
  (∀ us : BitVec 20,
    let due : Prop := s.running = true ∧ s.bst = 0 ∧ ∀ i < 10, s.get Reg.BST_SLICE.RUN [i] = 1
    (¬ due → exec (.selfTestEnd us) s = .next s) ∧
    (due → s.domBarred 56 = false → ∃ t, exec (.selfTestEnd us) s = .next t ∧ t.get Reg.BST_STAT.TIME = us.toNat ∧ t.sec.booting = true ∧
      ((∀ i < 10, s.get Reg.BST_SLICE.PASS [i] = 1) → t.bst = 1) ∧ ((∃ i < 10, s.get Reg.BST_SLICE.PASS [i] = 0) → t.bst = 2) ∧
      ∀ d < 57, s.domBarred d = true → t.domOn d = false)) ∧
  (∀ (idle : Bool) (i : Instr) (n : Nat) (ok : Bool), s.released = true →
    let k := s.get Reg.BST_IS_CTL.TARGET
    let d := k + 16 * (s.get Reg.BST_IS_CTL.FIRST % 4)
    (i = .isMemory ∧ n = 1 ∧ ok = (decide (k ≤ 12) && s.domOn (memDom k))) ∨
    (i = .isLogic idle ∧ n = 2 ∧ ok = (decide (d ≤ 56) && s.domOn d && !s.neededDomains.contains d && !s.domainWork d && idle)) ∨
    (i = .isSlice ∧ n = 3 ∧ ok = (decide (k ≤ 8) && s.slicePowered k && s.inputIdle k)) →
    let mine : Prop := s.armed State.dueIs 0 = true ∧ s.get Reg.BST_IS_CTL.TEST = n
    let u := s.disarm State.dueIs 0
    (¬ mine → exec i s = .next s) ∧
    (mine → ok = true → exec i s = .next ({ u with sec := { u.sec with isRun := true } }.put Reg.BST_IS_STAT.SLICES 0)) ∧
    (mine → ok = false → exec i s = .next ((u.put Reg.BST_IS_STAT.RESULT 3).put Reg.BST_IS_STAT.SEQ_DONE (s.get Reg.BST_IS_CTL.SEQ)))) ∧
  (∀ (failOp : Bool) (addrOp : BitVec 24) (last : Bool) (res : List Int), s.released = true →
    let slice : Prop := s.get Reg.BST_IS_CTL.TEST = 3
    let fail := if slice then State.residualsBad res else failOp
    let addr := if slice then State.subAdcBad res else addrOp.toNat
    let i : Instr := .isSliceEnd failOp addrOp last res
    let n := s.get Reg.BST_IS_STAT.SLICES
    let before : Prop := n ≠ 0 ∧ s.get Reg.BST_IS_STAT.RESULT = 1
    (s.sec.isRun = false → exec i s = .next s) ∧
    (s.sec.isRun = true → ∃ t, exec i s = .next t ∧ t.get Reg.BST_IS_STAT.SLICES = min 4095 (n + 1) ∧
      (fail = true → ¬ before → t.get Reg.BST_IS_STAT.RESULT = 1 ∧ t.get Reg.BST_IS_STAT.FAIL_ADDR = addr) ∧
      (n = 0 → fail = false → t.get Reg.BST_IS_STAT.RESULT = 0) ∧
      (s.get Reg.BST_IS_CTL.TEST = 1 → (t.sec.isRun = false ↔ s.get Reg.BST_IS_CTL.COUNT ≤ n)) ∧
      (s.get Reg.BST_IS_CTL.TEST = 2 → (t.sec.isRun = false ↔ last = true)) ∧ (s.get Reg.BST_IS_CTL.TEST = 3 → t.sec.isRun = false) ∧
      (t.sec.isRun = false → t.get Reg.BST_IS_STAT.SEQ_DONE = s.get Reg.BST_IS_CTL.SEQ))) ∧
  (∀ (q : Requester) (w : Word), s.mayWrite q Reg.LCS_CTL.base →
    let answers (t : State) : Prop := exec (.lcsMove q w) s = .next (t.wrote q psOK Reg.LCS_CTL.base)
    let u := s.useFree
    let programs : Prop := s.freeBits 1 = 1
    let l := s.lcs
    let goal := w.toNat % 8
    let lost (v : State) : State := { v with sec := { v.sec with seed := 2 ^ 256 - 1 } }.put Reg.LCS_STAT.IDENTITY_PRESENT 0
    let allowed : Prop := (l = 0 ∧ goal = 1) ∨ (l = 1 ∧ goal = 2) ∨ ((l = 1 ∨ l = 2) ∧ goal = 3) ∨ (l ≠ 4 ∧ goal = 4)
    let complete : Prop := u.get Reg.LCS_STAT.IDENTITY_PRESENT = 1 ∧ u.sec.certBase ≠ [] ∧ ∃ k, u.sec.keys.head? = some k ∧ k.present = true
    (w.toNat / 2 ^ 40 ≠ 0x96 → answers u) ∧
    (w.toNat / 2 ^ 40 = 0x96 →
      (¬ allowed → answers (u.put Reg.LCS_RESULT.RESULT 1)) ∧
      (allowed → goal = 1 → ¬ complete → answers (u.put Reg.LCS_RESULT.RESULT 2)) ∧
      (allowed → goal = 3 → u.tokenValid = false → answers (u.put Reg.LCS_RESULT.RESULT 3)) ∧
      (allowed → (goal = 1 → complete) → (goal = 3 → u.tokenValid = true) →
        (¬ programs → goal ≠ 3 → answers (u.put Reg.LCS_RESULT.RESULT 4)) ∧
        (¬ programs → goal = 3 → answers ((lost u).put Reg.LCS_RESULT.RESULT 4)) ∧
        (programs → goal ≠ 3 → answers ((u.put Reg.LCS_STAT.STATE goal).resetSelf rcFULL)) ∧
        (programs → goal = 3 → answers (((lost u).put Reg.LCS_STAT.STATE 3).resetSelf rcFULL))))) ∧
  ((s.lcs = 0 ∨ s.lcs = 3 → exec .scanEnable s = .next (({ s with sec := { s.sec with seedBlocked := true, epoch := none, attesting := false } }.put
      Reg.LCS_STAT.SECRETS_CLEARED 1).put Reg.LCS_STAT.SCAN_OPEN 1)) ∧
    (s.lcs ≠ 0 → s.lcs ≠ 3 → exec .scanEnable s = .next s)) ∧
  (∀ (q : Requester) (b : Bool), s.mayWrite q Reg.SEC_LOAD_CTL.base →
    let slot := b.toNat
    let answers (i : Instr) (t : State) : Prop := exec i s = .next (t.wrote q psOK Reg.SEC_LOAD_CTL.base)
    let trial : Prop := s.get Reg.SEQ_SWAP.STATE = 2
    (s.isRunning slot = true → answers (.loadBegin q b) (s.put Reg.SEC_LOAD_STAT.RESULT 1)) ∧
    (s.isRunning slot = false → trial → answers (.loadBegin q b) (s.put Reg.SEC_LOAD_STAT.RESULT 2)) ∧
    (s.isRunning slot = false → ¬ trial → ∃ t : State, answers (.loadBegin q b) t ∧ t.image slot = [] ∧ t.get (State.imgResult slot) = 1 ∧
      t.get Reg.SEC_LOAD_ADDR.OFFSET = 0 ∧ t.get Reg.SEC_LOAD_STAT.RESULT = 0 ∧ t.sec.loadSlot = some slot ∧ t.image (1 - slot) = s.image (1 - slot)) ∧
    (∃ t : State, answers (.loadVerify q b) t ∧ t.get Reg.SEC_LOAD_STAT.BUSY = 1 ∧ slot ∈ t.sec.verifying ∧
      (slot ∉ s.sec.verifying → t.sec.verifying = s.sec.verifying ++ [slot]))) ∧
  (∀ (q : Requester) (w : Word), s.mayWrite q Reg.SEC_LOAD_DATA.base →
    let answers (t : State) : Prop := exec (.secLoadDataWrite q w) s = .next (t.wrote q psOK Reg.SEC_LOAD_DATA.base)
    let o := s.get Reg.SEC_LOAD_ADDR.OFFSET
    (∀ slot, s.sec.loadSlot = some slot → s.isRunning slot = false → answers ((s.storeImage slot o w).put Reg.SEC_LOAD_ADDR.OFFSET (o + 1))) ∧
    (s.sec.loadSlot = none ∨ (∃ slot, s.sec.loadSlot = some slot ∧ s.isRunning slot = true) → answers s)) ∧
  (∀ slot : Fin 2,
    let w (o : Nat) : Nat := s.imgWord slot o
    let n := w 2 % 2 ^ 16
    (s.image slot = [] → s.verifyImage slot = 1) ∧
    (s.verifyImage slot = 0 → w 0 = 0x445833320001 ∧ 1 ≤ n ∧ n ≤ 32768 ∧ (s.image slot).length = 477 + n ∧
      (w 1).testBit (s.part.variant - 1) = true ∧ s.imgBad slot = false ∧ s.get Reg.SEC_ARB.LEVEL ≤ w 1 / 256 % 256 ∧
      ∃ e l, s.imgKey slot = some (e, l) ∧ Config.sha384 (s.imgTrailer slot 0 97) = e ∧ Config.sha256 (s.imgTrailer slot 33 56) = l ∧
        Config.ecdsaVerify (s.imgTrailer slot 0 97) (s.imgTrailer slot 17 96) (s.imgOctets slot) = true ∧
        Config.lmsVerify (s.imgTrailer slot 33 56) (s.imgTrailer slot 43 2508) (s.imgOctets slot) = true) ∧
    (∀ rest, s.released = true → s.sec.verifying = slot.val :: rest →
      let r := (s.imgSettle slot).verifyImage slot
      ∃ t, exec .imageVerifyDone s = .next t ∧ t.get (State.imgResult slot) = r ∧ t.get (State.imgVersion slot) = w 1 / 2 ^ 16 ∧
        t.get (State.imgLevel slot) = w 1 / 256 % 256 ∧ t.sec.verifying = rest ∧ (rest = [] → t.get Reg.SEC_LOAD_STAT.BUSY = 0) ∧
        (s.sec.booting = true → r = 0 → slot.val = 0 ∨ s.bootSrc = 0 → t.sec.startDue = some slot.val ∧ t.sec.booting = false) ∧
        (s.sec.booting = false ∨ r ≠ 0 → t.sec.startDue = s.sec.startDue))) ∧
  (s.released = true → s.sec.verifying = [] → exec .imageVerifyDone s = .next s) ∧
  (∀ words : List Word,
    let load (slot : Nat) : State :=
      ((words.zipIdx.foldl (fun (v : State) p => v.storeImage slot p.2 p.1) (s.setImage slot [])).secVerify slot)
    (s.bootSrc ≠ 0 ∨ s.released = false → exec (.boot words) s = .next s) ∧
    (s.bootSrc = 0 → s.released = true →
      (s.sec.imageA = [] → s.sec.booting = true → exec (.boot words) s = .next (load 0)) ∧
      (s.sec.imageA ≠ [] ∨ s.sec.booting = false → s.sec.imageB = [] → s.sec.verifying = [] → s.isRunning 1 = false →
        exec (.boot words) s = .next (load 1)) ∧
      (s.sec.imageA ≠ [] ∨ s.sec.booting = false → s.sec.imageB ≠ [] ∨ s.sec.verifying ≠ [] ∨ s.isRunning 1 = true →
        exec (.boot words) s = .next s))) ∧
  (s.released = true →
    let timedOut (t : Nat) : Prop := s.sec.bootTick = some t ∧ s.sec.booting = true ∧ s.bootSrc = 2 ∧ t + 262144 ≤ s.ticks
    ((∀ t, ¬ timedOut t) → exec .scrimBootTimeout s = .next s) ∧
    (∀ t, timedOut t → s.sec.bootRestarts < 3 → exec .scrimBootTimeout s = .next { s with sec := { s.sec with
      imageA := [], bootOfs := 0, bootRestarts := s.sec.bootRestarts + 1, bootTick := some s.ticks } }) ∧
    (∀ t, timedOut t → 3 ≤ s.sec.bootRestarts →
      exec .scrimBootTimeout s = .next ({ s with sec := { s.sec with bootTick := none } }.put Reg.BST_STAT.BOOT_FAIL 1))) ∧
  (∀ (q : Requester) (w : Word),
    let key : Prop := w.toNat / 2 ^ 40 = 0x69
    (s.mayWrite q Reg.SEC_ARB_ADV.base →
      let t := w.toNat % 128
      let may : Prop := key ∧ s.seq.imageRuns = true ∧ t ≤ s.get (State.imgLevel s.seq.slotB.toNat)
      let answers (t : State) : Prop := exec (.secArbAdv q w) s = .next (t.wrote q psOK Reg.SEC_ARB_ADV.base)
      (¬ may → answers s) ∧ (may → answers (s.put Reg.SEC_ARB.LEVEL (max (s.get Reg.SEC_ARB.LEVEL) (min 64 t))))) ∧
    (s.mayWrite q Reg.SEC_REVOKE.base →
      let k := w.toNat % 4
      let answers (t : State) : Prop := exec (.secRevoke q w) s = .next (t.wrote q psOK Reg.SEC_REVOKE.base)
      (¬ key → answers s) ∧
      (key → ∃ t : State, answers t ∧ (t.get Reg.SEC_KEYS.SLOTS).testBit (2 * k + 1) = true ∧
        (∀ y, t.sec.keys[k]? = some y → y.revoked = true) ∧ (∀ j, j ≠ k → t.sec.keys[j]? = s.sec.keys[j]?)))) ∧
  (∀ q : Requester, s.mayWrite q Reg.SEC_ATT_CTL.base →
    let answers (t : State) : Prop := exec (.attGo q) s = .next (t.wrote q psOK Reg.SEC_ATT_CTL.base)
    let nonce := (List.range 6).map fun i => s.liveAt (Reg.SEC_ATT_NONCE.addr [i])
    let able : Prop := s.get Reg.SEC_CFG.ATT_EN = 1 ∧ (s.lcs = 1 ∨ s.lcs = 2)
    (s.sec.attesting = true → answers (s.put Reg.SEC_ATT_STAT.RESULT 4)) ∧
    (s.sec.attesting = false → ¬ able → answers (s.put Reg.SEC_ATT_STAT.RESULT 1)) ∧
    (s.sec.attesting = false → able →
      (s.sec.epoch = none → 8192 ≤ s.sec.epochs → answers (s.put Reg.SEC_ATT_STAT.RESULT 3)) ∧
      (s.sec.epoch.isSome = true → 1024 ≤ s.sec.leaves → answers (s.put Reg.SEC_ATT_STAT.RESULT 2)) ∧
      (s.sec.epoch.isSome = true → s.sec.leaves < 1024 →
        answers ({ s with sec := { s.sec with attesting := true, attNonce := nonce } }.put Reg.SEC_ATT_STAT.BUSY 1)) ∧
      (s.sec.epoch = none → s.sec.epochs < 8192 → ∃ t : State, answers t ∧ t.sec.epoch = some s.sec.epochs ∧ t.sec.epochs = s.sec.epochs + 1 ∧
        t.sec.leaves = 0 ∧ t.sec.attesting = true ∧ t.sec.attNonce = nonce ∧ t.get Reg.SEC_ATT_STAT.BUSY = 1 ∧ t.get Reg.SEC_ATT_STAT.LEAVES = 1024))) ∧
  (s.released = true →
    (s.sec.attesting = false → exec .attestationDone s = .next s) ∧
    (s.sec.attesting = true → ∃ t, exec .attestationDone s = .next t ∧ t.sec.attesting = false ∧ t.sec.leaves = s.sec.leaves + 1 ∧
      t.get Reg.SEC_ATT_STAT.BUSY = 0 ∧ t.get Reg.SEC_ATT_STAT.RESULT = 0 ∧ t.sec.report.length = 460 ∧
      t.sec.report[25]? = some (BitVec.ofNat 48 s.ticks) ∧ t.sec.report[0]? = some (BitVec.ofNat 48 (2 ^ 44 + s.lcs * 2 ^ 41 +
        s.get Reg.SEC_ARB.LEVEL * 2 ^ 34 + s.seq.slotB.toNat * 2 ^ 33 + (s.sec.epoch.getD 0) * 2 ^ 20 + s.sec.leaves * 2 ^ 10))))

/-- R428, R444, R448 to R454, R470, R471, R482. The address recorded of a cut private write is a free value (log entry 1). -/
def Obligations.ManagementInterfaces : Prop :=
  ∀ s : State, s.wf →
  (∀ (a : BitVec 24) (p : Instant) (w : Word),
    let n := a.toNat
    let recorded (i : Instr) (st : Nat) : Prop := exec i s = .next (s.spiDone st 0 n 0)
    let rd := s.busRead .spi n p.toNat
    let wr := s.busWrite .spi n w
    (s.answers = false → exec (.spiRead a p) s = .next s ∧ exec (.spiWrite a w) s = .next s) ∧
    (s.answers = true →
      (s.bst = 0 → State.servedInTest n = false → recorded (.spiRead a p) 7 ∧ recorded (.spiWrite a w) 7) ∧
      (s.bst = 3 → recorded (.spiWrite a w) 2 ∧ (State.servedAfterCritical n = false → recorded (.spiRead a p) 2)) ∧
      (s.released = true → s.frozen .spi = true → recorded (.spiRead a p) 2 ∧ recorded (.spiWrite a w) 2) ∧
      (s.busOpen .spi → exec (.spiRead a p) s = .next (rd.1.readDone .spi rd.2.1 n rd.2.2) ∧
        exec (.spiWrite a w) s = .next (wr.1.wrote .spi wr.2 n)) ∧
      (s.bst = 0 → s.frozen .spi = false → State.servedInTest n = true → exec (.spiRead a p) s = .next (rd.1.readDone .spi rd.2.1 n rd.2.2)))) ∧
  (∀ (st words n : Nat) (x : Word), (s.spiDone st words n x).mgmt =
    { s.mgmt with spiStatus := st, spiData := x, spiCrc := crc16Bytes (BitVec.ofNat 8 st :: wordBytes x) }) ∧
  (∀ (l : List Byte) (p : Instant), s.answers = true →
    let op : Byte := l.getD 0 0
    let len := if op = 2 then 12 else 6
    let a := octField l 1 3
    let crc := crc16Bytes (l.take (len - 2)) = octField l (len - 2) 2
    let row : Instr := .spiMalformedFrame l p
    (l.length < len → exec row s = .next (s.inc Reg.SPI_ABORT_CNT.COUNT)) ∧
    (len ≤ l.length → ¬ crc → exec row s = .next ((s.inc Reg.SPI_CRC_CNT.COUNT).spiDone 5 0 a 0)) ∧
    (len ≤ l.length → crc →
      (op = 2 → exec row s = .next (s.spiWrite a (BitVec.ofNat 48 (octField l 4 6)))) ∧ (op = 11 → exec row s = .next (s.spiRead a p.toNat)) ∧
      (op ≠ 2 → op ≠ 11 →
        (s.bst = 0 → exec row s = .next (s.spiDone 7 0 a 0)) ∧ (s.bst = 3 → exec row s = .next (s.spiDone 2 0 a 0)) ∧
        (s.released = true → s.frozen .spi = true → exec row s = .next (s.spiDone 2 0 a 0)) ∧
        (s.released = true → s.frozen .spi = false → exec row s = .next ((s.violate .spi 3 a).spiDone 3 0 a 0))))) ∧
  (∀ (target : BitVec 7) (l : List Byte) (err : Bool) (n : BitVec 16) (p : Instant),
    let mine : Prop := s.answers = true ∧ target.toNat = s.i3cTarget
    let v := if err = true then s.inc Reg.I3C_ERR_CNT.COUNT else s
    let write : Instr := .i3cPrivateWrite target l err
    (¬ mine → exec write s = .next s ∧ exec (.i3cPrivateRead target n p) s = .next s) ∧
    (mine →
      (l = [] → exec write s = .next v) ∧
      (l.length = 1 ∨ l.length = 2 → s.busOpen .i3c → exec write s = .next ((v.useFree.violate .i3c 3 (v.freeBits 24)).i3cDone ⟨0, 3, v.freeBits 24⟩)) ∧
      (∀ gs : List (List Byte), 3 ≤ l.length → l.drop 3 = gs.flatten → (∀ g ∈ gs.dropLast, g.length = 6) →
        (∀ g, gs.getLast? = some g → 1 ≤ g.length ∧ g.length ≤ 6) →
        let a := octField l 0 3
        let u := { v with mgmt := { v.mgmt with i3cAddr := (a + gs.length) % 2 ^ 24 } }
        let r := u.i3cWords a gs ⟨0, 0, a⟩
        (gs = [] → exec write s = .next u) ∧ (gs ≠ [] → exec write s = .next (r.1.i3cDone r.2))) ∧
      (∃ t, exec (.i3cPrivateRead target n p) s = .next t ∧ t.mgmt.i3cAddr = (s.mgmt.i3cAddr + n.toNat / 6) % 2 ^ 24 ∧
        t.mgmt.i3cData.length = (n.toNat + 5) / 6) ∧
      (0 < n.toNat → n.toNat < 6 → s.busOpen .i3c → s.mgmt.i3cAddr < 2 ^ 24 →
        let r := s.busRead .i3c s.mgmt.i3cAddr p.toNat
        let x : Word := if r.2.1 = 0 then r.2.2 else 0
        let u := r.1.ibiRefresh
        exec (.i3cPrivateRead target n p) s = .next ({ u with mgmt := { u.mgmt with
          i3cAddr := s.mgmt.i3cAddr, i3cData := [x] } }.i3cDone ⟨1, r.2.1, s.mgmt.i3cAddr⟩)))) ∧
  (∀ (a : Nat) (gs hs : List (List Byte)) (x : State.I3cTally),
    let r := s.i3cWords a gs x
    s.i3cWords a (gs ++ hs) x = r.1.i3cWords (a + gs.length) hs r.2) ∧
  (∀ (a : Nat) (g : List Byte) (x : State.I3cTally), s.busOpen .i3c → a < 2 ^ 24 →
    let whole := s.busWrite .i3c a (bytesWord g)
    let keep := 48 - 8 * g.length
    let part := s.busWriteM .i3c a (BitVec.ofNat 48 (2 ^ 48 - 2 ^ keep)) (bytesWord (g ++ List.replicate (6 - g.length) 0))
    (g.length = 6 → s.i3cWords a [g] x = (whole.1.ibiRefresh, x.add whole.2 a true)) ∧
    (g.length < 6 → s.narrowOk a = true → s.i3cWords a [g] x = (part.1.ibiRefresh, x.add part.2 a true)) ∧
    (g.length < 6 → s.narrowOk a = false → s.i3cWords a [g] x = (s.violate .i3c 3 a, x.add 3 a false))) ∧
  (∀ (target da : BitVec 7) (won : Bool),
    let has : Prop := s.get Reg.I3C_STAT.DA_VALID = 1
    let given := (s.put Reg.I3C_STAT.DA da.toNat).put Reg.I3C_STAT.DA_VALID 1
    let static := 0x58 + s.part.strap / 2 % 4
    let said (c : Instr) (x : Word) : Prop :=
      (s.answers = true → target.toNat = s.i3cTarget → exec c s = .next { s with mgmt := { s.mgmt with i3cData := [x] } }) ∧
      (s.answers = false ∨ target.toNat ≠ s.i3cTarget → exec c s = .next s)
    let id := s.sec.identity.toNat
    (has → s.i3cTarget = s.get Reg.I3C_STAT.DA) ∧ (¬ has → s.i3cTarget = static) ∧
    (s.answers = true →
      (¬ has → exec (.entdaa true da) s = .next given ∧ exec (.setdasa (BitVec.ofNat 7 static) da) s = .next given) ∧
      (has → target.toNat = s.get Reg.I3C_STAT.DA → exec (.setnewda target da) s = .next given) ∧
      exec .rstdaa s = .next (s.put Reg.I3C_STAT.DA_VALID 0) ∧ exec .enec s = .next (s.put Reg.I3C_STAT.IBI_EN 1) ∧
      exec .disec s = .next (s.put Reg.I3C_STAT.IBI_EN 0)) ∧
    (s.answers = false ∨ won = false ∨ has → exec (.entdaa won da) s = .next s) ∧
    (s.answers = false ∨ has ∨ target.toNat ≠ static → exec (.setdasa target da) s = .next s) ∧
    (s.answers = false ∨ ¬ has ∨ target.toNat ≠ s.i3cTarget → exec (.setnewda target da) s = .next s) ∧
    (s.answers = false → exec .rstdaa s = .next s ∧ exec .enec s = .next s ∧ exec .disec s = .next s) ∧
    said (.getpid target) (BitVec.ofNat 48 (id / 2 ^ 32 % 2 ^ 15 * 2 ^ 33 + 2 ^ 32 + id % 2 ^ 32)) ∧ said (.getbcr target) 6 ∧ said (.getdcr target) 0 ∧
    (∃ t x, exec (.getstatus target) s = .next t ∧ t.live = s.live ∧
      (s.answers = true → target.toNat = s.i3cTarget → t.mgmt = { s.mgmt with i3cData := [x] }))) ∧
  (∀ acked : Bool,
    let source := s.intWord &&& (s.liveAt Reg.INT_EN.base).toNat
    let may : Prop := s.answers = true ∧ s.get Reg.I3C_STAT.IBI_EN = 1 ∧ s.get Reg.I3C_STAT.DA_VALID = 1 ∧ source ≠ 0
    ∃ t, exec (.ibiRequest acked) s = .next t ∧ t.live = s.live ∧ (¬ may → t.mgmt.ibiPend = false) ∧
      (may → s.mgmt.ibiLevel = true → s.mgmt.ibiPend = false → t = s) ∧
      (may → s.mgmt.ibiLevel = false ∨ s.mgmt.ibiPend = true → t.mgmt.ibiLevel = true ∧ t.mgmt.ibiPend = !acked ∧ t.mgmt.ibiByte = source % 256)) ∧
  (∀ (cells : List Bool) (code : Byte) (dr : BitVec 88) (p : Instant),
    let selects (i : Instr) (ir : Nat) (x : BitVec 88) (mode : Nat) : Prop :=
      exec i s = .next { s with mgmt := { s.mgmt with jtagIr := ir, jtagDr := x, jtagMode := mode } }
    let scans (i : Instr) (ir mode : Nat) : Prop :=
      exec i s = .next { s with mgmt := { s.mgmt with jtagIr := ir, jtagDr := 0, jtagMode := mode, boundary := cells } }
    let a := (dr.toNat / 2 ^ 48) % 2 ^ 24
    let v := { s with mgmt := { s.mgmt with jtagIr := 0x20, jtagDr := 0, jtagMode := 0 } }
    scans (.extest cells) 0 1 ∧ scans (.samplePreload cells) 2 0 ∧ scans (.extestPulse cells) 9 3 ∧ scans (.extestTrain cells) 10 4 ∧
    selects .clamp 4 0 1 ∧ selects .highz 5 0 2 ∧ selects (.bypass code) code.toNat 0 0 ∧
    selects .idcode 1 (BitVec.ofNat 88 (s.part.stepping / 16 % 16 * 2 ^ 28 + (if s.is1608 = true then 0x1608 else 0x3208) * 2 ^ 12 + 0x5D3)) 0 ∧
    (s.lcs ≠ 0 → s.lcs ≠ 3 ∨ s.answers = false → selects (.regAccess dr p) 0x20 0 0) ∧
    (s.busOpen .jtag →
      (dr.getLsbD 87 = true → let r := v.busWrite .jtag a (BitVec.ofNat 48 dr.toNat)
        exec (.regAccess dr p) s = .next (r.1.wrote .jtag r.2 a)) ∧
      (dr.getLsbD 87 = false → let r := v.busRead .jtag a p.toNat
        exec (.regAccess dr p) s = .next (r.1.readDone .jtag r.2.1 a r.2.2))))

/-- R2, R3, R8, R9, R284, R418, R442, R482. -/
def Obligations.RegisterReads : Prop :=
  ∀ (s : State) (q : Requester) (a : BitVec 24) (p : Instant), s.wf →
  let m := masterOf q
  let n := a.toNat
  let r := s.busRead m n p.toNat
  (∀ i ∈ [Instr.rcRead q a p, .snRead q a p],
    (s.answers = false ∨ s.hasPath q = false → exec i s = .next s) ∧
    (s.released = false → q = .quaran ∨ q = .scrim → exec i s = .next s) ∧
    (s.busOpen q → exec i s = .next (r.1.readDone q r.2.1 n r.2.2))) ∧
  (0x800000 ≤ n →
    let l := n - 0x800000
    (stagedAt l = false → r = (s, 4, 0)) ∧
    (stagedAt l = true → l ∈ s.set.poison → r.2 = (6, 0)) ∧
    (stagedAt l = true → l ∉ s.set.poison → r = (s, 0, s.underAt l))) ∧
  (n < 0x800000 →
    (s.fusedAt n = true → r = (s, 0, 0)) ∧
    (s.fusedAt n = false → rowOf n = none → r = (s, 4, 0)) ∧
    (∀ row i, s.fusedAt n = false → rowOf n = some (row, i) →
      (s.domOn (domNum row n) = false → r = (s, 1, 0)) ∧
      (s.domOn (domNum row n) = true →
        (row.acc = .wo → r = (s, 0, 0)) ∧
        (row.acc = .rc → (s.ownsBlock m (blockOf n) = true → r = (s.setLive n 0, 0, s.liveAt n)) ∧
          (s.ownsBlock m (blockOf n) = false → r = (s, 0, s.liveAt n))) ∧
        (row.acc = .sn → r.2.1 = 0 ∧ r.1.live = s.live ∧ r.1.mem = s.mem)))) ∧
  (∀ p' : Instant, s.domOn 38 = true →
    let first := s.busRead m Reg.TIME_SEC.base p.toNat
    let later := first.1.busRead m Reg.TIME_NS.base p'.toNat
    first.2 = (0, State.secWord (s.timeAt p.toNat)) ∧ later = (first.1, 0, State.nsWord (s.timeAt p.toNat))) ∧
  (∀ (k : Fin 16) (p' : Instant) (x : Word), s.domOn 47 = true →
    let first := s.busRead m (Reg.HKA_SUM.addr [k.val]) p.toNat
    let mm := Reg.HKA_MM.addr [k.val]
    ((first.1.setLive mm x).busRead m mm p'.toNat).2 = (0, s.viewNow mm p.toNat))

/-- R2, R3, R5, R6, R284, R287, R418 to R421, R442, R482; the fields on INT_EN, THM_EVT and PMC_SEL0. -/
def Obligations.RegisterWrites : Prop :=
  ∀ (s : State) (q : Requester) (a : BitVec 24) (w : Word), s.wf →
  let m := masterOf q
  let n := a.toNat
  let l := n % 0x800000
  let r := s.busWrite m n w
  (s.answers = false ∨ s.hasPath q = false → exec (.registerWrite q a w) s = .next s) ∧
  (s.released = false → q = .quaran ∨ q = .scrim → exec (.registerWrite q a w) s = .next s) ∧
  (s.busOpen q → exec (.registerWrite q a w) s = .next (r.1.wrote q r.2 n)) ∧
  let fused : Prop := n < 0x800000 ∧ s.fusedAt n = true
  (fused → r = (s, 0)) ∧
  (¬ fused → rowOf l = none → r = (s, 4)) ∧
  (∀ row i, ¬ fused → rowOf l = some (row, i) →
    let permits : Prop := s.writeCause m row l i = none
    (0x800000 ≤ n → row.acc ≠ .st → r = (s, 4)) ∧
    (n < 0x800000 ∨ row.acc = .st →
      (∀ c, s.writeCause m row l i = some c → r = (s.violate m c n, 3)) ∧
      (permits → 0x800000 ≤ n →
        let x := w &&& BitVec.ofNat 48 row.mask
        (s.set.check = none → r.2 = 0 ∧ r.1.underAt l = x ∧ l ∈ r.1.set.marks ∧ l ∉ r.1.set.poison ∧ r.1.live = s.live ∧
          ∀ b, b ≠ l → r.1.underAt b = s.underAt b) ∧
        (s.set.check.isSome = true → r = ({ s with set := { s.set with held := s.set.held ++ [(l, x)] } }, 0))) ∧
      (permits → n < 0x800000 → s.domOn (domNum row l) = false → r = (s, 1)) ∧
      (permits → n < 0x800000 → s.domOn (domNum row l) = true → row.acc = .st → r = (s, 0))) ∧
    (s.lockedBlock (blockOf l) = true → s.writeCause m row l i = some 2) ∧
    (s.lockedBlock (blockOf l) = false → s.ownExempt m row i = false → s.ownsBlock m (blockOf l) = false → s.writeCause m row l i = some 1)) ∧
  (∀ c : Nat, c < 16 →
    let t := s.violate m c n
    t.frozen m = true ∧ (∀ k, k ≠ m → t.frozen k = s.frozen k) ∧ t.get Reg.MEM_EVT.VIOL = 1 ∧
    (s.get Reg.MEM_EVT.VIOL = 0 → t.get Reg.MEM_VIOL.MASTER = m.code ∧ t.get Reg.MEM_VIOL.CAUSE = c ∧ t.get Reg.MEM_VIOL.ADDR = n) ∧
    (s.get Reg.MEM_EVT.VIOL = 1 → t.liveAt Reg.MEM_VIOL.base = s.liveAt Reg.MEM_VIOL.base)) ∧
  (s.mayWrite q Reg.INT_EN.base →
    (s.busWrite m Reg.INT_EN.base w).2 = 0 ∧ (s.busWrite m Reg.INT_EN.base w).1.liveAt Reg.INT_EN.base =
      (s.liveAt Reg.INT_EN.base &&& ~~~15) ||| (w &&& 15)) ∧
  (s.mayWrite q Reg.THM_EVT.base →
    (s.busWrite m Reg.THM_EVT.base w).1.liveAt Reg.THM_EVT.base = s.liveAt Reg.THM_EVT.base &&& ~~~(w &&& 0xFF)) ∧
  (s.mayWrite q Reg.PMC_SEL.base →
    let t := (s.busWrite m Reg.PMC_SEL.base w).1
    let code := w.toNat % 256
    t.get Reg.PMC_SEL.MODE = w.toNat / 256 % 2 ∧
    (code = 14 ∨ code = 15 → t.get Reg.PMC_SEL.EVENT = s.get Reg.PMC_SEL.EVENT) ∧ (code < 14 → t.get Reg.PMC_SEL.EVENT = code))

/-- The queue and the idling are the model's choices (log entry 40). -/
def Obligations.StepRunsFrontCommand : Prop :=
  ∀ (s : State) (c : Instr) (rest : List Instr), step { s with pending := c :: rest } = exec c { s with pending := rest } ∧
    step { s with pending := [] } = .next { s with pending := [] }

/-- R16, R252, R271, R381, R384, R386, R426, R435. That PLB and RGS are on is the model's choice (log entry 9). -/
def Obligations.ResetState : Prop :=
  let r := State.reset
  r.wf ∧ (∀ a, r.liveAt a = resetWord a ∧ r.underAt a = resetWord a) ∧ r.bst = 0 ∧ r.released = false ∧ r.ticks = 0 ∧
  (∀ p ∈ [(Reg.MODE.base, 0), (Reg.INT_EN.base, 0xF), (Reg.MEM_CFG.base, 0x332), (Reg.SEQ_CTL.base, 0x400), (Reg.SEC_IMGA.base, 1),
    (Reg.SEC_IMGB.base, 1), (Reg.PWR_CFG.base, 0x20000000D), (Reg.MEM_FRZ.base, 0), (Reg.MEM_LOCK.base, 0), (Reg.RST_CAUSE.base, 0)],
    r.liveAt p.1 = BitVec.ofNat 48 p.2) ∧
  (∀ d ∈ [0, 42, 43, 51, 52, 53, 54, 55, 56], r.domOn d = true) ∧ (∀ d < 38, d ≠ 0 → r.domOn d = false) ∧
  (∀ i < 32, r.seq.w[i]? = some 0) ∧ r.seq.imageRuns = false ∧ r.seq.slotB = false ∧ r.image 0 = [] ∧ r.image 1 = [] ∧
  r.set.check = none ∧ r.set.passed = none ∧ r.get Reg.JNL_STAT.STATE = 0 ∧ r.pending = []

/-- R1, R443: every command, in every state. -/
def Obligations.CommandsKeepQueueAndPart : Prop :=
  ∀ (c : Instr) (s : State), ∃ t, exec c s = .next t ∧ t.pending = s.pending ∧ t.part.variant = s.part.variant ∧
    t.part.stepping = s.part.stepping ∧ t.part.pins = s.part.pins

/-- The form is `State.wf`; it holds at reset (`ResetState`). -/
def Obligations.StepKeepsForm : Prop :=
  ∀ s t : State, s.wf → step s = .next t → t.wf
end

