-- ==== Sys2Proof/Laws/Bus.lean ====
section
/-! SUPPORT. What a write by a master does that reaches the register bus: the one lemma of each outcome. -/
namespace Sys2Proof.Machine.State

theorem gate_open {s : State} {m : Master} {a : Nat} {w : Bool} (h : s.released = true) (hf : s.frozen m = false) :
    s.gate m a w false = (s, none) := by
  simp only [released, Bool.and_eq_true, decide_eq_true_eq, ne_eq] at h
  obtain ⟨⟨_, h1⟩, h2⟩ := h
  simp [gate, h1, h2, hf]

/-- A write that reaches the bus does what the bus does, and the interface records it. -/
theorem accessW_bus {s : State} {q : Requester} {a : Nat} {w : Word} (h : s.released = true) (hp : s.hasPath q = true)
    (hf : s.frozen (masterOf q) = false) :
    s.accessW q a w = (s.busWrite (masterOf q) a w).1.wrote q (s.busWrite (masterOf q) a w).2 a := by
  have hr : s.answers = true := by
    simp only [released, Bool.and_eq_true] at h
    exact h.1.1
  unfold accessW access
  cases q <;>
    simp [hr, h, hp, wrote, spiWrite, extWrite, portWrite, masterOf, b2n] at hf ⊢ <;>
    simp [gate_open h hf, hf, busWrite]

/-- A permitted write to a powered register, other than a ring index, does what that register's write does. -/
theorem busWrite_reg {s : State} {q : Requester} {a : Nat} {w : Word} {r : Row} {i : List Nat} (h : s.reaches q a r i)
    (hc : s.writeCause (masterOf q) r a i = none) (hd : s.domOn (domNum r a) = true) (hp : r.base ≠ Reg.RNG_PI.base)
    (hq : r.base ≠ Reg.RNG_CI.base) : s.busWrite (masterOf q) a w = s.regWrite (masterOf q) r a i (BitVec.allOnes 48) w := by
  obtain ⟨_, _, _, ha, hz, hr⟩ := h
  have : ¬ 0x800000 ≤ a := by omega
  simp [busWrite, busWriteM, this, hz, hr, hc, hd, hp, hq]

/-- What a permitted write of a whole word by `q` does. -/
theorem accessW_reg {s : State} {q : Requester} {a : Nat} {w : Word} {r : Row} {i : List Nat} (h : s.reaches q a r i)
    (hc : s.writeCause (masterOf q) r a i = none) (hd : s.domOn (domNum r a) = true) (hp : r.base ≠ Reg.RNG_PI.base)
    (hq : r.base ≠ Reg.RNG_CI.base) :
    s.accessW q a w = (s.regWrite (masterOf q) r a i (BitVec.allOnes 48) w).1.wrote q
      (s.regWrite (masterOf q) r a i (BitVec.allOnes 48) w).2 a := by
  rw [accessW_bus h.1 h.2.1 h.2.2.1, busWrite_reg h hc hd hp hq]

/-- A write that R421 does not permit is a violation. -/
theorem accessW_violation {s : State} {q : Requester} {a : Nat} {w : Word} {r : Row} {i : List Nat} {c : Nat} (h : s.reaches q a r i)
    (hc : s.writeCause (masterOf q) r a i = some c) :
    s.accessW q a w = (s.violate (masterOf q) c a).wrote q psVIOLATION a := by
  rw [accessW_bus h.1 h.2.1 h.2.2.1]
  obtain ⟨_, _, _, ha, hz, hr⟩ := h
  have : ¬ 0x800000 ≤ a := by omega
  simp [busWrite, busWriteM, this, hz, hr, hc]

end Sys2Proof.Machine.State
end

