-- ==== Sys2Proof/Laws/Files.lean ====
section
/-! SUPPORT. Lists keyed by address, register files and protected memories: what reads back after a write, and that every operation
keeps the canonical form. -/
namespace Sys2Proof.Machine

@[simp] theorem upd_length {α : Type} (l : List α) (i : Nat) (f : α → α) : (upd l i f).length = l.length := by
  induction l generalizing i with
  | nil => rfl
  | cons a t ih => cases i <;> simp [upd, ih]

theorem upd_getD {α : Type} (l : List α) (i j : Nat) (f : α → α) (d : α) :
    (upd l i f).getD j d = if i = j ∧ j < l.length then f (l.getD j d) else l.getD j d := by
  induction l generalizing i j with
  | nil => simp [upd]
  | cons a t ih =>
    cases i with
    | zero => cases j <;> simp [upd]
    | succ i =>
      cases j with
      | zero => simp [upd]
      | succ j => simpa [upd, List.getD_cons_succ] using ih i j

/-- Keys strictly rising. -/
abbrev Rising {α : Type} (l : List (Nat × α)) : Prop := l.Pairwise (fun x y => x.1 < y.1)

theorem kvSet_mem {α : Type} {l : List (Nat × α)} {k : Nat} {v : α} {p : Nat × α} (h : p ∈ kvSet l k v) : p = (k, v) ∨ p ∈ l := by
  induction l with
  | nil => simpa [kvSet] using h
  | cons b t ih =>
    simp only [kvSet] at h
    split at h
    · simpa using h
    · split at h
      · rcases List.mem_cons.1 h with h | h
        · exact .inl h
        · exact .inr (List.mem_cons_of_mem _ h)
      · rcases List.mem_cons.1 h with h | h
        · exact .inr (h ▸ List.mem_cons_self)
        · exact (ih h).imp id (List.mem_cons_of_mem _)

theorem kvDel_mem {α : Type} {l : List (Nat × α)} {k : Nat} {p : Nat × α} (h : p ∈ kvDel l k) : p ∈ l := by
  induction l with
  | nil => simp [kvDel] at h
  | cons b t ih =>
    simp only [kvDel] at h
    split at h
    · exact h
    · split at h
      · exact List.mem_cons_of_mem _ h
      · rcases List.mem_cons.1 h with h | h
        · exact h ▸ List.mem_cons_self
        · exact List.mem_cons_of_mem _ (ih h)

theorem kvSet_rising {α : Type} {l : List (Nat × α)} (h : Rising l) (k : Nat) (v : α) : Rising (kvSet l k v) := by
  induction l with
  | nil => simp [kvSet, Rising]
  | cons b t ih =>
    obtain ⟨hb, ht⟩ := List.pairwise_cons.1 h
    simp only [kvSet]
    split
    · rename_i hk
      refine List.pairwise_cons.2 ⟨fun p hp => ?_, h⟩
      rcases List.mem_cons.1 hp with hp | hp
      · exact hp ▸ hk
      · exact Nat.lt_trans hk (hb p hp)
    · split
      · rename_i hk
        exact List.pairwise_cons.2 ⟨fun p hp => by simpa [hk] using hb p hp, ht⟩
      · refine List.pairwise_cons.2 ⟨fun p hp => ?_, ih ht⟩
        rcases kvSet_mem hp with hp | hp
        · subst hp; simp only; omega
        · exact hb p hp

theorem kvDel_rising {α : Type} {l : List (Nat × α)} (h : Rising l) (k : Nat) : Rising (kvDel l k) := by
  induction l with
  | nil => simp [kvDel, Rising]
  | cons b t ih =>
    obtain ⟨hb, ht⟩ := List.pairwise_cons.1 h
    simp only [kvDel]
    split
    · exact h
    · split
      · exact ht
      · exact List.pairwise_cons.2 ⟨fun p hp => hb p (kvDel_mem hp), ih ht⟩

/-- Reading a key after it was set gives the value. -/
theorem kvGet_kvSet_same {α : Type} (l : List (Nat × α)) (k : Nat) (v : α) : kvGet (kvSet l k v) k = some v := by
  induction l with
  | nil => simp [kvSet, kvGet]
  | cons b t ih =>
    simp only [kvSet]
    split
    · simp [kvGet]
    · split
      · simp [kvGet]
      · simp only [kvGet]
        rw [if_neg (by omega), if_neg (by omega), ih]

/-- Setting a key leaves every other key as it was. -/
theorem kvGet_kvSet_other {α : Type} (l : List (Nat × α)) {k j : Nat} (v : α) (h : j ≠ k) (hl : Rising l) :
    kvGet (kvSet l k v) j = kvGet l j := by
  induction l with
  | nil => simp [kvSet, kvGet]; omega
  | cons b t ih =>
    obtain ⟨hb, ht⟩ := List.pairwise_cons.1 hl
    simp only [kvSet]
    split
    · rename_i hk
      simp only [kvGet]
      by_cases hj : j < k
      · rw [if_pos hj, if_pos (by omega)]
      · rw [if_neg hj, if_neg h]
    · split
      · rename_i hk
        simp only [kvGet, hk]
        split
        · rfl
        · rw [if_neg (by omega), if_neg (by omega)]
      · simp only [kvGet, ih ht]

theorem kvGet_none_of_lt {α : Type} {l : List (Nat × α)} {k : Nat} (h : ∀ p ∈ l, k < p.1) : kvGet l k = none := by
  cases l with
  | nil => rfl
  | cons b t => simp [kvGet, h b List.mem_cons_self]

/-- A removed key is absent. -/
theorem kvGet_kvDel_same {α : Type} (l : List (Nat × α)) (k : Nat) (hl : Rising l) : kvGet (kvDel l k) k = none := by
  induction l with
  | nil => rfl
  | cons b t ih =>
    obtain ⟨hb, ht⟩ := List.pairwise_cons.1 hl
    simp only [kvDel]
    split
    · rename_i hk; simp [kvGet, hk]
    · split
      · rename_i hk
        exact kvGet_none_of_lt fun p hp => by have := hb p hp; omega
      · simp only [kvGet]
        rw [if_neg (by omega), if_neg (by omega), ih ht]

/-- Removing a key leaves every other key as it was. -/
theorem kvGet_kvDel_other {α : Type} (l : List (Nat × α)) {k j : Nat} (h : j ≠ k) (hl : Rising l) :
    kvGet (kvDel l k) j = kvGet l j := by
  induction l with
  | nil => rfl
  | cons b t ih =>
    obtain ⟨hb, ht⟩ := List.pairwise_cons.1 hl
    simp only [kvDel]
    split
    · rfl
    · split
      · rename_i hk
        simp only [kvGet]
        split
        · exact kvGet_none_of_lt fun p hp => by have := hb p hp; omega
        · rw [if_neg (by omega)]
      · simp only [kvGet, ih ht]

theorem kvGet_mem {α : Type} {l : List (Nat × α)} {k : Nat} {v : α} (h : kvGet l k = some v) : (k, v) ∈ l := by
  induction l with
  | nil => simp [kvGet] at h
  | cons b t ih =>
    simp only [kvGet] at h
    split at h
    · cases h
    · split at h
      · rename_i hk; cases h; simp [hk]
      · exact List.mem_cons_of_mem _ (ih h)

/-! Register files. -/

theorem RegFile.set_wf {f : List (Nat × Word)} (h : RegFile.wf f) (a : Nat) (w : Word) : RegFile.wf (RegFile.set f a w) := by
  unfold RegFile.set
  split
  · exact ⟨kvDel_rising h.1 a, fun p hp => h.2 p (kvDel_mem hp)⟩
  · rename_i hw
    refine ⟨kvSet_rising h.1 a w, fun p hp => ?_⟩
    rcases kvSet_mem hp with hp | hp
    · subst hp; exact hw
    · exact h.2 p hp

theorem RegFile.filter_wf {f : List (Nat × Word)} (h : RegFile.wf f) (p : Nat × Word → Bool) : RegFile.wf (f.filter p) :=
  ⟨h.1.filter p, fun q hq => h.2 q (List.mem_filter.1 hq).1⟩

/-- A register reads as it was written. -/
theorem RegFile.get_set_same {f : List (Nat × Word)} (h : RegFile.wf f) (a : Nat) (w : Word) :
    RegFile.get (RegFile.set f a w) a = w := by
  unfold RegFile.get RegFile.set
  split
  · rename_i hw; rw [kvGet_kvDel_same f a h.1, hw]; rfl
  · rw [kvGet_kvSet_same]; rfl

/-- A write of one register leaves every other as it was. -/
theorem RegFile.get_set_other {f : List (Nat × Word)} (h : RegFile.wf f) {a b : Nat} (w : Word) (hb : b ≠ a) :
    RegFile.get (RegFile.set f a w) b = RegFile.get f b := by
  unfold RegFile.get RegFile.set
  split
  · rw [kvGet_kvDel_other f hb h.1]
  · rw [kvGet_kvSet_other f w hb h.1]

/-- The splice of `takeIn` is canonical. -/
theorem RegFile.splice_wf {f g : List (Nat × Word)} (hf : RegFile.wf f) (hg : RegFile.wf g) {lo hi : Nat} (hlh : lo ≤ hi) :
    RegFile.wf ((f.filter fun p => p.1 < lo) ++ State.within g lo hi ++ f.filter fun p => decide (hi < p.1)) := by
  have m1 : ∀ p ∈ f.filter (fun p => decide (p.1 < lo)), p ∈ f ∧ p.1 < lo := fun p hp => by simpa using hp
  have m2 : ∀ p ∈ State.within g lo hi, p ∈ g ∧ lo ≤ p.1 ∧ p.1 ≤ hi := fun p hp => by simpa [State.within] using hp
  have m3 : ∀ p ∈ f.filter (fun p => decide (hi < p.1)), p ∈ f ∧ hi < p.1 := fun p hp => by simpa using hp
  refine ⟨?_, ?_⟩
  · refine List.pairwise_append.2 ⟨List.pairwise_append.2 ⟨hf.1.filter _, hg.1.filter _, ?_⟩, hf.1.filter _, ?_⟩
    · intro a ha b hb; have := m1 a ha; have := m2 b hb; omega
    · intro a ha b hb
      have := m3 b hb
      rcases List.mem_append.1 ha with ha | ha
      · have := m1 a ha; omega
      · have := m2 a ha; omega
  · intro p hp
    rcases List.mem_append.1 hp with hp | hp
    · rcases List.mem_append.1 hp with hp | hp
      · exact hf.2 p (m1 p hp).1
      · exact hg.2 p (m2 p hp).1
    · exact hf.2 p (m3 p hp).1

end Sys2Proof.Machine
end

