-- ==== Sys2Proof/Laws/Kept.lean ====
section
/-! SUPPORT. What a property of states needs for every command to keep it: that it looks at nothing but the fixed facts of the part, the
register files, the protected memories, the queue and the shape, and that the few operations that write those keep it. `Kept P` says so;
the files `Laws/Kept*.lean` prove, for every operation, that it keeps every such property. -/
namespace Sys2Proof.Machine
open State

/-- The property holds on after every primitive change of the state. -/
structure Kept (P : State → Prop) : Prop where
  same : ∀ {s t : State}, P s → t.part.variant = s.part.variant → t.part.stepping = s.part.stepping → t.part.pins = s.part.pins →
    t.live = s.live → t.under = s.under → t.inUse = s.inUse → t.applied = s.applied → t.mem.mems = s.mem.mems →
    t.pending = s.pending → (s.shape = shapeStd → t.shape = shapeStd) → P t
  live : ∀ {s : State}, P s → ∀ a w, P { s with live := RegFile.set s.live a w }
  liveFilter : ∀ {s : State}, P s → ∀ p, P { s with live := s.live.filter p }
  under : ∀ {s : State}, P s → ∀ a w, P { s with under := RegFile.set s.under a w }
  inUse : ∀ {s : State}, P s → ∀ a w, P { s with inUse := RegFile.set s.inUse a w }
  takeIn : ∀ {s : State}, P s → ∀ lo hi, lo ≤ hi → P (s.takeIn lo hi)
  applied : ∀ {s : State}, P s → ∀ a w, P { s with applied := RegFile.set s.applied a w }
  setCell : ∀ {s : State}, P s → ∀ m a c, P (s.setCell m a c)
  setPage : ∀ {s : State}, P s → ∀ m p g, P (s.setPage m p g)
  clearMem : ∀ {s : State}, P s → ∀ m, P (s.clearMem m)
  delCell : ∀ {s : State}, P s → ∀ a, P (s.setMem memCOEF fun x => { x with cells := kvDel x.cells a })
  fresh : ∀ {s t : State}, P s → t.part.variant = s.part.variant → t.part.stepping = s.part.stepping → t.part.pins = s.part.pins →
    t.live = [] → t.under = [] → t.inUse = [] → t.applied = [] →
    (t.mem.mems = memReset.mems ∨
      t.mem.mems = memReset.mems.zipIdx.map fun p => if 7 ≤ p.2 && p.2 ≤ 10 then s.memAt p.2 else p.1) →
    t.pending = s.pending → t.shape = shapeStd → P t

variable {P : State → Prop}

theorem each_kept {α : Type} {s : State} (h : P s) {l : List α} {f : State → α → State} (hf : ∀ t x, P t → P (f t x)) : P (s.each l f) := by
  unfold State.each
  induction l generalizing s with
  | nil => exact h
  | cons a l ih => exact ih (hf _ _ h)

theorem foldl_kept {α : Type} {s : State} (h : P s) {l : List α} {f : State → α → State} (hf : ∀ t x, P t → P (f t x)) :
    P (l.foldl f s) := each_kept h hf

theorem foldl_fst_kept {α β : Type} {p : State × β} (h : P p.1) {l : List α} {f : State × β → α → State × β}
    (hf : ∀ p x, P p.1 → P (f p x).1) : P (l.foldl f p).1 := by
  induction l generalizing p with
  | nil => exact h
  | cons a l ih => exact ih (hf _ _ h)

theorem whenB_kept {s : State} (h : P s) {c : Bool} {f : State → State} (hf : ∀ t, P t → P (f t)) : P (s.whenB c f) := by
  unfold State.whenB
  split
  · exact hf _ h
  · exact h

theorem ite_kept {c : Prop} [Decidable c] {a b : State} (ha : P a) (hb : P b) : P (if c then a else b) := by
  split <;> assumption

theorem ite_fst_kept {α : Type} {c : Prop} [Decidable c] {a b : State × α} (ha : P a.1) (hb : P b.1) : P (if c then a else b).1 := by
  split <;> assumption

theorem fst_kept {α : Type} {a : State × α} {t : State} {x : α} (e : a = (t, x)) (h : P a.1) : P t := by
  subst e; exact h

theorem foldl_snd_kept {α β : Type} {p : β × State} (h : P p.2) {l : List α} {f : β × State → α → β × State}
    (hf : ∀ p x, P p.2 → P (f p x).2) : P (l.foldl f p).2 := by
  induction l generalizing p with
  | nil => exact h
  | cons a l ih => exact ih (hf _ _ h)

theorem ite_snd_kept {α : Type} {c : Prop} [Decidable c] {a b : α × State} (ha : P a.2) (hb : P b.2) : P (if c then a else b).2 := by
  split <;> assumption

theorem snd_kept {α : Type} {a : α × State} {t : State} {x : α} (e : a = (x, t)) (h : P a.2) : P t := by
  subst e; exact h

/-- A change of anything else keeps the property. -/
theorem Kept.of (hP : Kept P) {s t : State} (e9 : t.pending = s.pending) (e : s.shape = shapeStd → t.shape = shapeStd)
    (e1 : t.part.variant = s.part.variant) (e2 : t.part.stepping = s.part.stepping) (e3 : t.part.pins = s.part.pins)
    (e4 : t.live = s.live) (e5 : t.under = s.under) (e6 : t.inUse = s.inUse) (e7 : t.applied = s.applied)
    (e8 : t.mem.mems = s.mem.mems) (h : P s) : P t := hP.same h e1 e2 e3 e4 e5 e6 e7 e8 e9 e

/-- The state that a taken message leaves has the property. -/
def Taken.keeps (P : State → Prop) : Taken → Prop
  | .done s => P s
  | .badType => True
  | .busy => True

/-- The state, where there is one, has the property. -/
def optKeeps (P : State → Prop) : Option State → Prop
  | some s => P s
  | none => True

/-- The step, where there is one, keeps the property. -/
def funKeeps (P : State → Prop) : Option (State → State) → Prop
  | some f => ∀ s, P s → P (f s)
  | none => True

theorem funKeeps_some {x : Option (State → State)} {f : State → State} (e : x = some f) (h : funKeeps P x) {s : State} (hs : P s) : P (f s) := by
  subst e; exact h s hs

theorem taken_kept {x : Taken} {t : State} (e : x = .done t) (h : x.keeps P) : P t := by subst e; exact h

theorem some_kept {x : Option State} {t : State} (e : x = some t) (h : optKeeps P x) : P t := by subst e; exact h

theorem State.setLive_kept (hP : Kept P) {s : State} (h : P s) (a : Nat) (w : Word) : P (s.setLive a w) := hP.live h a w

theorem State.setUnder_kept (hP : Kept P) {s : State} (h : P s) (a : Nat) (w : Word) : P (s.setUnder a w) :=
  hP.same (hP.under h a w) rfl rfl rfl rfl rfl rfl rfl rfl rfl id

theorem State.take_kept (hP : Kept P) {s : State} (h : P s) (a : Nat) : P (s.take a) := hP.inUse h a _

theorem State.takeIn_kept (hP : Kept P) {s : State} (h : P s) (lo hi : Nat) (hlh : lo ≤ hi := by omega) : P (s.takeIn lo hi) :=
  hP.takeIn h lo hi hlh

theorem State.setCell_kept (hP : Kept P) {s : State} (h : P s) (m a : Nat) (c : Cell) : P (s.setCell m a c) := hP.setCell h m a c

theorem State.setPage_kept (hP : Kept P) {s : State} (h : P s) (m p : Nat) (g : Page) : P (s.setPage m p g) := hP.setPage h m p g

theorem State.clearMem_kept (hP : Kept P) {s : State} (h : P s) (m : Nat) : P (s.clearMem m) := hP.clearMem h m

theorem State.sq_kept (hP : Kept P) {s : State} (h : P s) (f : Seq → Seq)
    (hf : ∀ q : Seq, q.w.length = 32 ∧ q.acc.length = 2 → (f q).w.length = 32 ∧ (f q).acc.length = 2) : P (s.sq f) := by
  refine hP.same h rfl rfl rfl rfl rfl rfl rfl rfl rfl fun e => ?_
  have := hf s.seq
  simp_all [shape, State.sq]

end Sys2Proof.Machine
end

