-- ==== Sys2Proof/Laws/KeptOps.lean ====
section
/-! SUPPORT. What the operations of `Sys2Proof.Machine.Ops` keep (`Sys2Proof.Laws.Kept`). -/
namespace Sys2Proof.Machine
open State
set_option linter.all false
variable {P : State → Prop}

theorem State.put_kept (hP : Kept P) {s : State} (h : P s) (f : FRef) (v : Nat) (i : List Nat) : P (State.put s f v i) := by
  unfold State.put
  repeat' first
    | with_reducible assumption
    | with_reducible apply State.setLive_kept hP

theorem State.putI_kept (hP : Kept P) {s : State} (h : P s) (f : FRef) (v : Int) (i : List Nat) : P (State.putI s f v i) := by
  unfold State.putI
  repeat' first
    | with_reducible assumption
    | with_reducible apply State.put_kept hP

theorem State.ev_kept (hP : Kept P) {s : State} (h : P s) (f : FRef) (i : List Nat) : P (State.ev s f i) := by
  unfold State.ev
  repeat' first
    | with_reducible assumption
    | with_reducible apply State.put_kept hP

theorem State.evIf_kept (hP : Kept P) {s : State} (h : P s) (c : Bool) (f : FRef) (i : List Nat) : P (State.evIf s c f i) := by
  unfold State.evIf
  repeat' first
    | with_reducible assumption
    | with_reducible apply ite_kept
    | with_reducible apply ite_fst_kept
    | with_reducible apply State.put_kept hP
    | split

theorem State.inc_kept (hP : Kept P) {s : State} (h : P s) (f : FRef) (i : List Nat) (n : Nat) : P (State.inc s f i n) := by
  unfold State.inc
  repeat' first
    | with_reducible assumption
    | with_reducible apply State.put_kept hP

theorem State.useFree_kept (hP : Kept P) {s : State} (h : P s)  : P (State.useFree s) := by
  unfold State.useFree
  repeat' first
    | with_reducible assumption
    | (extract_lets +onlyGivenNames x; refine (fun hx => ?_ : P x → _) ?_; clear_value x; rotate_left; subst x; rotate_right)
    | (extract_lets +onlyGivenNames x; refine (fun hx => ?_ : P x.1 → _) ?_; clear_value x; rotate_left; subst x; rotate_right)
    | (extract_lets +onlyGivenNames x; clear_value x)
    | extract_lets +onlyGivenNames x
    | (apply Kept.of hP
       · dsimp only <;> exact rfl
       · first | exact id | (intro _; simp_all only [shape, shapeStd, List.cons.injEq, upd_length, List.length_set, List.length_map, List.length_range, List.length_replicate, and_true, true_and, and_self]; done)
       iterate 8 (· exact rfl))

theorem State.seqEv_kept (hP : Kept P) {s : State} (h : P s) (b : Nat) : P (State.seqEv s b) := by
  unfold State.seqEv
  repeat' first
    | with_reducible assumption
    | with_reducible apply State.put_kept hP

theorem State.laneEv_kept (hP : Kept P) {s : State} (h : P s) (f : FRef) (k : Nat) : P (State.laneEv s f k) := by
  unfold State.laneEv
  repeat' first
    | with_reducible assumption
    | with_reducible apply State.ev_kept hP
    | with_reducible apply State.seqEv_kept hP

theorem State.floatEv_kept (hP : Kept P) {s : State} (h : P s) (f : FRef) : P (State.floatEv s f) := by
  unfold State.floatEv
  repeat' first
    | with_reducible assumption
    | with_reducible apply State.ev_kept hP
    | with_reducible apply State.seqEv_kept hP

theorem State.pmc_kept (hP : Kept P) {s : State} (h : P s) (code : Nat) (n : Nat) (rises : Nat) : P (State.pmc s code n rises) := by
  unfold State.pmc
  repeat' first
    | with_reducible assumption
    | intro _
    | (extract_lets +onlyGivenNames x; refine (fun hx => ?_ : P x → _) ?_; clear_value x; rotate_left; subst x; rotate_right)
    | (extract_lets +onlyGivenNames x; refine (fun hx => ?_ : P x.1 → _) ?_; clear_value x; rotate_left; subst x; rotate_right)
    | (extract_lets +onlyGivenNames x; clear_value x)
    | extract_lets +onlyGivenNames x
    | with_reducible apply ite_kept
    | with_reducible apply ite_fst_kept
    | with_reducible apply each_kept
    | with_reducible apply State.inc_kept hP
    | with_reducible apply State.put_kept hP
    | split

theorem State.capEv_kept (hP : Kept P) {s : State} (h : P s) (b : Nat) : P (State.capEv s b) := by
  unfold State.capEv
  repeat' first
    | with_reducible assumption
    | (extract_lets +onlyGivenNames x; refine (fun hx => ?_ : P x → _) ?_; clear_value x; rotate_left; subst x; rotate_right)
    | (extract_lets +onlyGivenNames x; refine (fun hx => ?_ : P x.1 → _) ?_; clear_value x; rotate_left; subst x; rotate_right)
    | (extract_lets +onlyGivenNames x; clear_value x)
    | extract_lets +onlyGivenNames x
    | with_reducible apply ite_kept
    | with_reducible apply ite_fst_kept
    | with_reducible apply State.st_kept hP
    | split
    | (apply Kept.of hP
       · dsimp only <;> exact rfl
       · first | exact id | (intro _; simp_all only [shape, shapeStd, List.cons.injEq, upd_length, List.length_set, List.length_map, List.length_range, List.length_replicate, and_true, true_and, and_self]; done)
       iterate 8 (· exact rfl))

theorem State.arm_kept (hP : Kept P) {s : State} (h : P s) (kind : Nat) (i : Nat) : P (State.arm s kind i) := by
  unfold State.arm
  repeat' first
    | with_reducible assumption
    | (extract_lets +onlyGivenNames x; refine (fun hx => ?_ : P x → _) ?_; clear_value x; rotate_left; subst x; rotate_right)
    | (extract_lets +onlyGivenNames x; refine (fun hx => ?_ : P x.1 → _) ?_; clear_value x; rotate_left; subst x; rotate_right)
    | (extract_lets +onlyGivenNames x; clear_value x)
    | extract_lets +onlyGivenNames x
    | with_reducible apply ite_kept
    | with_reducible apply ite_fst_kept
    | split
    | (apply Kept.of hP
       · dsimp only <;> exact rfl
       · first | exact id | (intro _; simp_all only [shape, shapeStd, List.cons.injEq, upd_length, List.length_set, List.length_map, List.length_range, List.length_replicate, and_true, true_and, and_self]; done)
       iterate 8 (· exact rfl))

theorem State.disarm_kept (hP : Kept P) {s : State} (h : P s) (kind : Nat) (i : Nat) : P (State.disarm s kind i) := by
  unfold State.disarm
  repeat' first
    | with_reducible assumption
    | (extract_lets +onlyGivenNames x; refine (fun hx => ?_ : P x → _) ?_; clear_value x; rotate_left; subst x; rotate_right)
    | (extract_lets +onlyGivenNames x; refine (fun hx => ?_ : P x.1 → _) ?_; clear_value x; rotate_left; subst x; rotate_right)
    | (extract_lets +onlyGivenNames x; clear_value x)
    | extract_lets +onlyGivenNames x
    | (apply Kept.of hP
       · dsimp only <;> exact rfl
       · first | exact id | (intro _; simp_all only [shape, shapeStd, List.cons.injEq, upd_length, List.length_set, List.length_map, List.length_range, List.length_replicate, and_true, true_and, and_self]; done)
       iterate 8 (· exact rfl))

end Sys2Proof.Machine
end

