-- ==== Sys2Proof/Laws/KeptMem.lean ====
section
/-! SUPPORT. What the operations of `Sys2Proof.Machine.Mem` keep (`Sys2Proof.Laws.Kept`). -/
namespace Sys2Proof.Machine
open State
set_option linter.all false
variable {P : State → Prop}

theorem State.memReport_kept (hP : Kept P) {s : State} (h : P s) (cls : Nat) (m : Nat) (who : Master) (how : Nat) (a : Nat) (syn : Nat) (nsym : Nat) (npois : Nat) : P (State.memReport s cls m who how a syn nsym npois) := by
  unfold State.memReport
  repeat' first
    | with_reducible assumption
    | intro _
    | (extract_lets +onlyGivenNames x; refine (fun hx => ?_ : P x → _) ?_; clear_value x; rotate_left; subst x; rotate_right)
    | (extract_lets +onlyGivenNames x; refine (fun hx => ?_ : P x.1 → _) ?_; clear_value x; rotate_left; subst x; rotate_right)
    | extract_lets +onlyGivenNames x
    | with_reducible apply ite_kept
    | with_reducible apply ite_fst_kept
    | with_reducible apply whenB_kept
    | with_reducible apply State.capEv_kept hP
    | with_reducible apply State.ev_kept hP
    | with_reducible apply State.evIf_kept hP
    | with_reducible apply State.inc_kept hP
    | with_reducible apply State.pmc_kept hP
    | with_reducible apply State.put_kept hP
    | with_reducible apply State.seqEv_kept hP
    | with_reducible apply State.setLive_kept hP
    | split
    | (refine fst_kept (by assumption) ?_)
    | (apply Kept.of hP
       · dsimp only <;> exact rfl
       · first | exact id | (intro _; simp_all only [shape, shapeStd, List.cons.injEq, upd_length, List.length_set, List.length_map, List.length_range, List.length_replicate, and_true, true_and, and_self]; done)
       iterate 8 (· exact rfl))

theorem State.storeWord_kept (hP : Kept P) {s : State} (h : P s) (m a : Nat) (w : Word) : P (State.storeWord s m a w) := by
  unfold State.storeWord
  split
  · rename_i hm
    subst hm
    have h1 := hP.delCell h a
    dsimp only
    split
    · exact hP.under h1 _ _
    · exact State.setCell_kept hP h1 _ _ _
  · exact State.setCell_kept hP h _ _ _

theorem State.setPoison_kept (hP : Kept P) {s : State} (h : P s) (m : Nat) (a : Nat) (v : Bool) : P (State.setPoison s m a v) := by
  unfold State.setPoison
  repeat' first
    | with_reducible assumption
    | (extract_lets +onlyGivenNames x; refine (fun hx => ?_ : P x → _) ?_; clear_value x; rotate_left; subst x; rotate_right)
    | (extract_lets +onlyGivenNames x; refine (fun hx => ?_ : P x.1 → _) ?_; clear_value x; rotate_left; subst x; rotate_right)
    | (extract_lets +onlyGivenNames x; clear_value x)
    | extract_lets +onlyGivenNames x
    | with_reducible apply ite_kept
    | with_reducible apply ite_fst_kept
    | with_reducible apply State.setPage_kept hP
    | split
    | (refine fst_kept (by assumption) ?_)
    | (apply Kept.of hP
       · dsimp only <;> exact rfl
       · first | exact id | (intro _; simp_all only [shape, shapeStd, List.cons.injEq, upd_length, List.length_set, List.length_map, List.length_range, List.length_replicate, and_true, true_and, and_self]; done)
       iterate 8 (· exact rfl))

theorem State.recode_kept (hP : Kept P) {s : State} (h : P s) (m : Nat) (p : Nat) : P (State.recode s m p) := by
  unfold State.recode
  repeat' first
    | with_reducible assumption
    | with_reducible apply State.setPage_kept hP

theorem State.poisonPage_kept (hP : Kept P) {s : State} (h : P s) (m : Nat) (p : Nat) (who : Master) (how : Nat) : P (State.poisonPage s m p who how) := by
  unfold State.poisonPage
  repeat' first
    | with_reducible assumption
    | intro _
    | (extract_lets +onlyGivenNames x; refine (fun hx => ?_ : P x → _) ?_; clear_value x; rotate_left; subst x; rotate_right)
    | (extract_lets +onlyGivenNames x; refine (fun hx => ?_ : P x.1 → _) ?_; clear_value x; rotate_left; subst x; rotate_right)
    | (extract_lets +onlyGivenNames x; clear_value x)
    | extract_lets +onlyGivenNames x
    | with_reducible apply ite_kept
    | with_reducible apply ite_fst_kept
    | with_reducible apply each_kept
    | with_reducible apply State.memReport_kept hP
    | with_reducible apply State.recode_kept hP
    | with_reducible apply State.setPoison_kept hP
    | with_reducible apply State.storeWord_kept hP
    | split
    | (refine fst_kept (by assumption) ?_)
    | (apply Kept.of hP
       · dsimp only <;> exact rfl
       · first | exact id | (intro _; simp_all only [shape, shapeStd, List.cons.injEq, upd_length, List.length_set, List.length_map, List.length_range, List.length_replicate, and_true, true_and, and_self]; done)
       iterate 8 (· exact rfl))

theorem State.rebuildMap_kept (hP : Kept P) {s : State} (h : P s) (m : Nat) (p : Nat) (i : Nat) (who : Master) (how : Nat) : P (State.rebuildMap s m p i who how) := by
  unfold State.rebuildMap
  repeat' first
    | with_reducible assumption
    | intro _
    | (extract_lets +onlyGivenNames x; refine (fun hx => ?_ : P x → _) ?_; clear_value x; rotate_left; subst x; rotate_right)
    | (extract_lets +onlyGivenNames x; refine (fun hx => ?_ : P x.1 → _) ?_; clear_value x; rotate_left; subst x; rotate_right)
    | (extract_lets +onlyGivenNames x; clear_value x)
    | extract_lets +onlyGivenNames x
    | with_reducible apply ite_kept
    | with_reducible apply ite_fst_kept
    | with_reducible apply each_kept
    | with_reducible apply State.memReport_kept hP
    | with_reducible apply State.setPage_kept hP
    | split
    | (apply Kept.of hP
       · dsimp only <;> exact rfl
       · first | exact id | (intro _; simp_all only [shape, shapeStd, List.cons.injEq, upd_length, List.length_set, List.length_map, List.length_range, List.length_replicate, and_true, true_and, and_self]; done)
       iterate 8 (· exact rfl))

theorem State.pageSound_kept (hP : Kept P) {s : State} (h : P s) (m : Nat) (p : Nat) (who : Master) (how : Nat) : P (State.pageSound s m p who how) := by
  unfold State.pageSound
  repeat' first
    | with_reducible assumption
    | intro _
    | (extract_lets +onlyGivenNames x; refine (fun hx => ?_ : P x → _) ?_; clear_value x; rotate_left; subst x; rotate_right)
    | (extract_lets +onlyGivenNames x; refine (fun hx => ?_ : P x.1 → _) ?_; clear_value x; rotate_left; subst x; rotate_right)
    | (extract_lets +onlyGivenNames x; clear_value x)
    | extract_lets +onlyGivenNames x
    | with_reducible apply ite_kept
    | with_reducible apply ite_fst_kept
    | with_reducible apply each_kept
    | with_reducible apply State.memReport_kept hP
    | with_reducible apply State.poisonPage_kept hP
    | with_reducible apply State.rebuildMap_kept hP
    | split
    | (refine fst_kept (by assumption) ?_)
    | (apply Kept.of hP
       · dsimp only <;> exact rfl
       · first | exact id | (intro _; simp_all only [shape, shapeStd, List.cons.injEq, upd_length, List.length_set, List.length_map, List.length_range, List.length_replicate, and_true, true_and, and_self]; done)
       iterate 8 (· exact rfl))

theorem State.pageDecode_kept (hP : Kept P) {s : State} (h : P s) (m : Nat) (a : Nat) (who : Master) (how : Nat) : P (State.pageDecode s m a who how) := by
  unfold State.pageDecode
  repeat' first
    | with_reducible assumption
    | intro _
    | (extract_lets +onlyGivenNames x; refine (fun hx => ?_ : P x → _) ?_; clear_value x; rotate_left; subst x; rotate_right)
    | (extract_lets +onlyGivenNames x; refine (fun hx => ?_ : P x.1 → _) ?_; clear_value x; rotate_left; subst x; rotate_right)
    | (extract_lets +onlyGivenNames x; clear_value x)
    | extract_lets +onlyGivenNames x
    | with_reducible apply ite_kept
    | with_reducible apply ite_fst_kept
    | with_reducible apply each_kept
    | with_reducible apply State.memReport_kept hP
    | with_reducible apply State.poisonPage_kept hP
    | with_reducible apply State.setPage_kept hP
    | with_reducible apply State.storeWord_kept hP
    | split
    | (refine fst_kept (by assumption) ?_)
    | (apply Kept.of hP
       · dsimp only <;> exact rfl
       · first | exact id | (intro _; simp_all only [shape, shapeStd, List.cons.injEq, upd_length, List.length_set, List.length_map, List.length_range, List.length_replicate, and_true, true_and, and_self]; done)
       iterate 8 (· exact rfl))

theorem State.settle_kept (hP : Kept P) {s : State} (h : P s) (m : Nat) (a : Nat) (who : Master) (how : Nat) : P (State.settle s m a who how) := by
  unfold State.settle
  repeat' first
    | with_reducible assumption
    | intro _
    | (extract_lets +onlyGivenNames x; refine (fun hx => ?_ : P x → _) ?_; clear_value x; rotate_left; subst x; rotate_right)
    | (extract_lets +onlyGivenNames x; refine (fun hx => ?_ : P x.1 → _) ?_; clear_value x; rotate_left; subst x; rotate_right)
    | (extract_lets +onlyGivenNames x; clear_value x)
    | extract_lets +onlyGivenNames x
    | with_reducible apply ite_kept
    | with_reducible apply ite_fst_kept
    | with_reducible apply whenB_kept
    | with_reducible apply State.memReport_kept hP
    | with_reducible apply State.pageDecode_kept hP
    | with_reducible apply State.pageSound_kept hP
    | with_reducible apply State.storeWord_kept hP
    | split
    | (refine fst_kept (by assumption) ?_)
    | (apply Kept.of hP
       · dsimp only <;> exact rfl
       · first | exact id | (intro _; simp_all only [shape, shapeStd, List.cons.injEq, upd_length, List.length_set, List.length_map, List.length_range, List.length_replicate, and_true, true_and, and_self]; done)
       iterate 8 (· exact rfl))

theorem State.memRead_kept (hP : Kept P) {s : State} (h : P s) (m : Nat) (a : Nat) (who : Master) (how : Nat) : P (State.memRead s m a who how).1 := by
  unfold State.memRead
  repeat' first
    | with_reducible assumption
    | (extract_lets +onlyGivenNames x; refine (fun hx => ?_ : P x → _) ?_; clear_value x; rotate_left; subst x; rotate_right)
    | (extract_lets +onlyGivenNames x; refine (fun hx => ?_ : P x.1 → _) ?_; clear_value x; rotate_left; subst x; rotate_right)
    | (extract_lets +onlyGivenNames x; clear_value x)
    | extract_lets +onlyGivenNames x
    | with_reducible apply ite_kept
    | with_reducible apply ite_fst_kept
    | with_reducible apply State.memReport_kept hP
    | with_reducible apply State.settle_kept hP
    | split

theorem State.settleRun_kept (hP : Kept P) {s : State} (h : P s) (m : Nat) (lo : Nat) (hi : Nat) : P (State.settleRun s m lo hi) := by
  unfold State.settleRun
  repeat' first
    | with_reducible assumption
    | intro _
    | (extract_lets +onlyGivenNames x; refine (fun hx => ?_ : P x → _) ?_; clear_value x; rotate_left; subst x; rotate_right)
    | (extract_lets +onlyGivenNames x; refine (fun hx => ?_ : P x.1 → _) ?_; clear_value x; rotate_left; subst x; rotate_right)
    | (extract_lets +onlyGivenNames x; clear_value x)
    | extract_lets +onlyGivenNames x
    | with_reducible apply each_kept
    | with_reducible apply State.pageSound_kept hP
    | with_reducible apply State.settle_kept hP

theorem State.memWrite_kept (hP : Kept P) {s : State} (h : P s) (m : Nat) (a : Nat) (w : Word) (who : Master) : P (State.memWrite s m a w who) := by
  unfold State.memWrite
  repeat' first
    | with_reducible assumption
    | intro _
    | (extract_lets +onlyGivenNames x; refine (fun hx => ?_ : P x → _) ?_; clear_value x; rotate_left; subst x; rotate_right)
    | (extract_lets +onlyGivenNames x; refine (fun hx => ?_ : P x.1 → _) ?_; clear_value x; rotate_left; subst x; rotate_right)
    | (extract_lets +onlyGivenNames x; clear_value x)
    | extract_lets +onlyGivenNames x
    | with_reducible apply ite_kept
    | with_reducible apply ite_fst_kept
    | with_reducible apply State.pageSound_kept hP
    | with_reducible apply State.poisonPage_kept hP
    | with_reducible apply State.setCell_kept hP
    | with_reducible apply State.setPage_kept hP
    | with_reducible apply State.setPoison_kept hP
    | with_reducible apply State.settle_kept hP
    | with_reducible apply State.storeWord_kept hP
    | split

theorem State.memNarrow_kept (hP : Kept P) {s : State} (h : P s) (m : Nat) (a : Nat) (mask : Word) (w : Word) (who : Master) : P (State.memNarrow s m a mask w who).1 := by
  unfold State.memNarrow
  repeat' first
    | with_reducible assumption
    | (extract_lets +onlyGivenNames x; refine (fun hx => ?_ : P x → _) ?_; clear_value x; rotate_left; subst x; rotate_right)
    | (extract_lets +onlyGivenNames x; refine (fun hx => ?_ : P x.1 → _) ?_; clear_value x; rotate_left; subst x; rotate_right)
    | (extract_lets +onlyGivenNames x; clear_value x)
    | extract_lets +onlyGivenNames x
    | with_reducible apply ite_kept
    | with_reducible apply ite_fst_kept
    | with_reducible apply State.memReport_kept hP
    | with_reducible apply State.memWrite_kept hP
    | with_reducible apply State.settle_kept hP
    | split

theorem State.memWrites_kept (hP : Kept P) {s : State} (h : P s) (m : Nat) (a : Nat) (ws : List Word) (who : Master) : P (State.memWrites s m a ws who) := by
  unfold State.memWrites
  repeat' first
    | with_reducible assumption
    | intro _
    | with_reducible apply each_kept
    | with_reducible apply State.memWrite_kept hP

theorem State.rbWrite_kept (hP : Kept P) {s : State} (h : P s) (b : Nat) (a : Nat) (w : Word) (who : Master) : P (State.rbWrite s b a w who) := by
  unfold State.rbWrite
  repeat' first
    | with_reducible assumption
    | intro _
    | (extract_lets +onlyGivenNames x; refine (fun hx => ?_ : P x → _) ?_; clear_value x; rotate_left; subst x; rotate_right)
    | (extract_lets +onlyGivenNames x; refine (fun hx => ?_ : P x.1 → _) ?_; clear_value x; rotate_left; subst x; rotate_right)
    | (extract_lets +onlyGivenNames x; clear_value x)
    | extract_lets +onlyGivenNames x
    | with_reducible apply State.memWrite_kept hP
    | (apply Kept.of hP
       · dsimp only <;> exact rfl
       · first | exact id | (intro _; simp_all only [shape, shapeStd, List.cons.injEq, upd_length, List.length_set, List.length_map, List.length_range, List.length_replicate, and_true, true_and, and_self]; done)
       iterate 8 (· exact rfl))

theorem State.rbNarrow_kept (hP : Kept P) {s : State} (h : P s) (b : Nat) (a : Nat) (mask : Word) (w : Word) (who : Master) : P (State.rbNarrow s b a mask w who).1 := by
  unfold State.rbNarrow
  repeat' first
    | with_reducible assumption
    | intro _
    | (extract_lets +onlyGivenNames x; refine (fun hx => ?_ : P x → _) ?_; clear_value x; rotate_left; subst x; rotate_right)
    | (extract_lets +onlyGivenNames x; refine (fun hx => ?_ : P x.1 → _) ?_; clear_value x; rotate_left; subst x; rotate_right)
    | (extract_lets +onlyGivenNames x; clear_value x)
    | extract_lets +onlyGivenNames x
    | with_reducible apply State.memNarrow_kept hP
    | split
    | (refine fst_kept (by assumption) ?_)
    | (apply Kept.of hP
       · dsimp only <;> exact rfl
       · first | exact id | (intro _; simp_all only [shape, shapeStd, List.cons.injEq, upd_length, List.length_set, List.length_map, List.length_range, List.length_replicate, and_true, true_and, and_self]; done)
       iterate 8 (· exact rfl))

end Sys2Proof.Machine
end

