-- ==== Sys2Proof/Laws/KeptRings.lean ====
section
/-! SUPPORT. What the operations of `Sys2Proof.Machine.Rings` keep (`Sys2Proof.Laws.Kept`). -/
namespace Sys2Proof.Machine
open State
set_option linter.all false
variable {P : State → Prop}

theorem State.ringTouch_kept (hP : Kept P) {s : State} (h : P s) (r : Nat) (f : State → State) (hf : ∀ t, P t → P (f t)) : P (State.ringTouch s r f) := by
  unfold State.ringTouch
  repeat' first
    | with_reducible assumption
    | intro _
    | (extract_lets +onlyGivenNames x; refine (fun hx => ?_ : P x → _) ?_; clear_value x; rotate_left; subst x; rotate_right)
    | (extract_lets +onlyGivenNames x; refine (fun hx => ?_ : P x.1 → _) ?_; clear_value x; rotate_left; subst x; rotate_right)
    | (extract_lets +onlyGivenNames x; clear_value x)
    | extract_lets +onlyGivenNames x
    | with_reducible apply whenB_kept
    | with_reducible apply State.evIf_kept hP
    | with_reducible apply State.seqEv_kept hP
    | with_reducible apply hf

theorem State.ringPut_kept (hP : Kept P) {s : State} (h : P s) (r : Nat) (x : Nat) (ws : List Word) (who : Master) : P (State.ringPut s r x ws who) := by
  unfold State.ringPut
  repeat' first
    | with_reducible assumption
    | with_reducible apply State.memWrites_kept hP
    | with_reducible apply State.take_kept hP

theorem State.ringAdvance_kept (hP : Kept P) {s : State} (h : P s) (r : Nat) (n : Nat) : P (State.ringAdvance s r n) := by
  unfold State.ringAdvance
  repeat' first
    | with_reducible assumption
    | intro _
    | with_reducible apply State.put_kept hP
    | with_reducible apply State.ringTouch_kept hP

theorem State.ringConsume_kept (hP : Kept P) {s : State} (h : P s) (r : Nat) (n : Nat) : P (State.ringConsume s r n) := by
  unfold State.ringConsume
  repeat' first
    | with_reducible assumption
    | intro _
    | with_reducible apply State.put_kept hP
    | with_reducible apply State.ringTouch_kept hP

theorem State.enterRecord_kept (hP : Kept P) {s : State} (h : P s) (r : Nat) (ty : Nat) (entries : List (List Word)) : P (State.enterRecord s r ty entries) := by
  unfold State.enterRecord
  repeat' first
    | with_reducible assumption
    | intro _
    | (extract_lets +onlyGivenNames x; refine (fun hx => ?_ : P x → _) ?_; clear_value x; rotate_left; subst x; rotate_right)
    | (extract_lets +onlyGivenNames x; refine (fun hx => ?_ : P x.1 → _) ?_; clear_value x; rotate_left; subst x; rotate_right)
    | (extract_lets +onlyGivenNames x; clear_value x)
    | extract_lets +onlyGivenNames x
    | with_reducible apply ite_kept
    | with_reducible apply ite_fst_kept
    | with_reducible apply each_kept
    | with_reducible apply State.ev_kept hP
    | with_reducible apply State.put_kept hP
    | with_reducible apply State.ringAdvance_kept hP
    | with_reducible apply State.ringPut_kept hP
    | with_reducible apply State.ringTouch_kept hP
    | split
    | (refine fst_kept (by assumption) ?_)
    | (apply Kept.of hP
       · dsimp only <;> exact rfl
       · first | exact id | (intro _; simp_all only [shape, shapeStd, List.cons.injEq, upd_length, List.length_set, List.length_map, List.length_range, List.length_replicate, and_true, true_and, and_self]; done)
       iterate 8 (· exact rfl))

theorem State.writePi_kept (hP : Kept P) {s : State} (h : P s) (m : Master) (r : Nat) (v : Nat) : P (State.writePi s m r v).1 := by
  unfold State.writePi
  repeat' first
    | with_reducible assumption
    | intro _
    | (extract_lets +onlyGivenNames x; refine (fun hx => ?_ : P x → _) ?_; clear_value x; rotate_left; subst x; rotate_right)
    | (extract_lets +onlyGivenNames x; refine (fun hx => ?_ : P x.1 → _) ?_; clear_value x; rotate_left; subst x; rotate_right)
    | (extract_lets +onlyGivenNames x; clear_value x)
    | extract_lets +onlyGivenNames x
    | with_reducible apply ite_kept
    | with_reducible apply ite_fst_kept
    | with_reducible apply State.ev_kept hP
    | with_reducible apply State.put_kept hP
    | with_reducible apply State.ringTouch_kept hP
    | split

theorem State.writeCi_kept (hP : Kept P) {s : State} (h : P s) (m : Master) (r : Nat) (v : Nat) : P (State.writeCi s m r v).1 := by
  unfold State.writeCi
  repeat' first
    | with_reducible assumption
    | intro _
    | (extract_lets +onlyGivenNames x; refine (fun hx => ?_ : P x → _) ?_; clear_value x; rotate_left; subst x; rotate_right)
    | (extract_lets +onlyGivenNames x; refine (fun hx => ?_ : P x.1 → _) ?_; clear_value x; rotate_left; subst x; rotate_right)
    | (extract_lets +onlyGivenNames x; clear_value x)
    | extract_lets +onlyGivenNames x
    | with_reducible apply ite_kept
    | with_reducible apply ite_fst_kept
    | with_reducible apply State.ev_kept hP
    | with_reducible apply State.put_kept hP
    | with_reducible apply State.ringTouch_kept hP
    | split

theorem State.ringClear_kept (hP : Kept P) {s : State} (h : P s) (r : Nat) : P (State.ringClear s r) := by
  unfold State.ringClear
  repeat' first
    | with_reducible assumption
    | (extract_lets +onlyGivenNames x; refine (fun hx => ?_ : P x → _) ?_; clear_value x; rotate_left; subst x; rotate_right)
    | (extract_lets +onlyGivenNames x; refine (fun hx => ?_ : P x.1 → _) ?_; clear_value x; rotate_left; subst x; rotate_right)
    | (extract_lets +onlyGivenNames x; clear_value x)
    | extract_lets +onlyGivenNames x
    | with_reducible apply State.put_kept hP
    | (apply Kept.of hP
       · dsimp only <;> exact rfl
       · first | exact id | (intro _; simp_all only [shape, shapeStd, List.cons.injEq, upd_length, List.length_set, List.length_map, List.length_range, List.length_replicate, and_true, true_and, and_self]; done)
       iterate 8 (· exact rfl))

end Sys2Proof.Machine
end

