-- ==== Sys2Proof/Laws/KeptSeqr.lean ====
section
/-! SUPPORT. What the operations of `Sys2Proof.Machine.Seqr` keep (`Sys2Proof.Laws.Kept`). -/
namespace Sys2Proof.Machine
open State
set_option linter.all false
variable {P : State → Prop}

theorem State.setW_kept (hP : Kept P) {s : State} (h : P s) (i : Nat) (v : Word) : P (State.setW s i v) := by
  unfold State.setW
  repeat' first
    | with_reducible assumption
    | intro _
    | (extract_lets +onlyGivenNames x; refine (fun hx => ?_ : P x → _) ?_; clear_value x; rotate_left; subst x; rotate_right)
    | (extract_lets +onlyGivenNames x; refine (fun hx => ?_ : P x.1 → _) ?_; clear_value x; rotate_left; subst x; rotate_right)
    | extract_lets +onlyGivenNames x
    | with_reducible apply ite_kept
    | with_reducible apply ite_fst_kept
    | with_reducible apply State.sq_kept hP
    | split
    | (apply Kept.of hP
       · dsimp only <;> exact rfl
       · first | exact id | (intro _; simp_all only [shape, shapeStd, List.cons.injEq, upd_length, List.length_set, List.length_map, List.length_range, List.length_replicate, and_true, true_and, and_self]; done)
       iterate 8 (· exact rfl))
    | exact And.intro rfl rfl
    | exact ‹_ ∧ _›
    | (simp only [upd_length]; assumption)

theorem State.setAcc_kept (hP : Kept P) {s : State} (h : P s) (i : Nat) (v : BitVec 104) : P (State.setAcc s i v) := by
  unfold State.setAcc
  repeat' first
    | with_reducible assumption
    | intro _
    | (extract_lets +onlyGivenNames x; refine (fun hx => ?_ : P x → _) ?_; clear_value x; rotate_left; subst x; rotate_right)
    | (extract_lets +onlyGivenNames x; refine (fun hx => ?_ : P x.1 → _) ?_; clear_value x; rotate_left; subst x; rotate_right)
    | extract_lets +onlyGivenNames x
    | with_reducible apply State.sq_kept hP
    | (apply Kept.of hP
       · dsimp only <;> exact rfl
       · first | exact id | (intro _; simp_all only [shape, shapeStd, List.cons.injEq, upd_length, List.length_set, List.length_map, List.length_range, List.length_replicate, and_true, true_and, and_self]; done)
       iterate 8 (· exact rfl))
    | exact And.intro rfl rfl
    | exact ‹_ ∧ _›
    | (simp only [upd_length]; assumption)

theorem State.setFlags_kept (hP : Kept P) {s : State} (h : P s) (n : Nat) : P (State.setFlags s n) := by
  unfold State.setFlags
  repeat' first
    | with_reducible assumption
    | intro _
    | (extract_lets +onlyGivenNames x; refine (fun hx => ?_ : P x → _) ?_; clear_value x; rotate_left; subst x; rotate_right)
    | (extract_lets +onlyGivenNames x; refine (fun hx => ?_ : P x.1 → _) ?_; clear_value x; rotate_left; subst x; rotate_right)
    | extract_lets +onlyGivenNames x
    | with_reducible apply State.sq_kept hP
    | (apply Kept.of hP
       · dsimp only <;> exact rfl
       · first | exact id | (intro _; simp_all only [shape, shapeStd, List.cons.injEq, upd_length, List.length_set, List.length_map, List.length_range, List.length_replicate, and_true, true_and, and_self]; done)
       iterate 8 (· exact rfl))
    | exact And.intro rfl rfl
    | exact ‹_ ∧ _›

theorem State.pmcCycles_kept (hP : Kept P) {s : State} (h : P s) (codes : List Nat) (n : Nat) : P (State.pmcCycles s codes n) := by
  unfold State.pmcCycles
  repeat' first
    | with_reducible assumption
    | intro _
    | (extract_lets +onlyGivenNames x; refine (fun hx => ?_ : P x → _) ?_; clear_value x; rotate_left; subst x; rotate_right)
    | (extract_lets +onlyGivenNames x; refine (fun hx => ?_ : P x.1 → _) ?_; clear_value x; rotate_left; subst x; rotate_right)
    | extract_lets +onlyGivenNames x
    | with_reducible apply ite_kept
    | with_reducible apply ite_fst_kept
    | with_reducible apply each_kept
    | with_reducible apply State.pmc_kept hP
    | with_reducible apply State.sq_kept hP
    | split
    | (apply Kept.of hP
       · dsimp only <;> exact rfl
       · first | exact id | (intro _; simp_all only [shape, shapeStd, List.cons.injEq, upd_length, List.length_set, List.length_map, List.length_range, List.length_replicate, and_true, true_and, and_self]; done)
       iterate 8 (· exact rfl))
    | exact And.intro rfl rfl
    | exact ‹_ ∧ _›

theorem State.slots_kept (hP : Kept P) {s : State} (h : P s) (code : Nat) (n : Nat) (also : List Nat) : P (State.slots s code n also) := by
  unfold State.slots
  repeat' first
    | with_reducible assumption
    | intro _
    | (extract_lets +onlyGivenNames x; refine (fun hx => ?_ : P x → _) ?_; clear_value x; rotate_left; subst x; rotate_right)
    | (extract_lets +onlyGivenNames x; refine (fun hx => ?_ : P x.1 → _) ?_; clear_value x; rotate_left; subst x; rotate_right)
    | extract_lets +onlyGivenNames x
    | with_reducible apply State.pmcCycles_kept hP
    | with_reducible apply State.sq_kept hP
    | (apply Kept.of hP
       · dsimp only <;> exact rfl
       · first | exact id | (intro _; simp_all only [shape, shapeStd, List.cons.injEq, upd_length, List.length_set, List.length_map, List.length_range, List.length_replicate, and_true, true_and, and_self]; done)
       iterate 8 (· exact rfl))
    | exact And.intro rfl rfl
    | exact ‹_ ∧ _›

theorem State.dropHeld_kept (hP : Kept P) {s : State} (h : P s)  : P (State.dropHeld s) := by
  unfold State.dropHeld
  repeat' first
    | with_reducible assumption
    | intro _
    | (extract_lets +onlyGivenNames x; refine (fun hx => ?_ : P x → _) ?_; clear_value x; rotate_left; subst x; rotate_right)
    | (extract_lets +onlyGivenNames x; refine (fun hx => ?_ : P x.1 → _) ?_; clear_value x; rotate_left; subst x; rotate_right)
    | extract_lets +onlyGivenNames x
    | with_reducible apply State.sq_kept hP
    | (apply Kept.of hP
       · dsimp only <;> exact rfl
       · first | exact id | (intro _; simp_all only [shape, shapeStd, List.cons.injEq, upd_length, List.length_set, List.length_map, List.length_range, List.length_replicate, and_true, true_and, and_self]; done)
       iterate 8 (· exact rfl))
    | exact And.intro rfl rfl
    | exact ‹_ ∧ _›

theorem State.halt_kept (hP : Kept P) {s : State} (h : P s)  : P (State.halt s) := by
  unfold State.halt
  repeat' first
    | with_reducible assumption
    | intro _
    | (extract_lets +onlyGivenNames x; refine (fun hx => ?_ : P x → _) ?_; clear_value x; rotate_left; subst x; rotate_right)
    | (extract_lets +onlyGivenNames x; refine (fun hx => ?_ : P x.1 → _) ?_; clear_value x; rotate_left; subst x; rotate_right)
    | extract_lets +onlyGivenNames x
    | with_reducible apply ite_kept
    | with_reducible apply ite_fst_kept
    | with_reducible apply State.ev_kept hP
    | with_reducible apply State.put_kept hP
    | with_reducible apply State.sq_kept hP
    | split
    | (apply Kept.of hP
       · dsimp only <;> exact rfl
       · first | exact id | (intro _; simp_all only [shape, shapeStd, List.cons.injEq, upd_length, List.length_set, List.length_map, List.length_range, List.length_replicate, and_true, true_and, and_self]; done)
       iterate 8 (· exact rfl))
    | exact And.intro rfl rfl
    | exact ‹_ ∧ _›

theorem State.resume_kept (hP : Kept P) {s : State} (h : P s)  : P (State.resume s) := by
  unfold State.resume
  repeat' first
    | with_reducible assumption
    | intro _
    | (extract_lets +onlyGivenNames x; refine (fun hx => ?_ : P x → _) ?_; clear_value x; rotate_left; subst x; rotate_right)
    | (extract_lets +onlyGivenNames x; refine (fun hx => ?_ : P x.1 → _) ?_; clear_value x; rotate_left; subst x; rotate_right)
    | extract_lets +onlyGivenNames x
    | with_reducible apply ite_kept
    | with_reducible apply ite_fst_kept
    | with_reducible apply State.put_kept hP
    | with_reducible apply State.sq_kept hP
    | split
    | (apply Kept.of hP
       · dsimp only <;> exact rfl
       · first | exact id | (intro _; simp_all only [shape, shapeStd, List.cons.injEq, upd_length, List.length_set, List.length_map, List.length_range, List.length_replicate, and_true, true_and, and_self]; done)
       iterate 8 (· exact rfl))
    | exact And.intro rfl rfl
    | exact ‹_ ∧ _›

theorem State.coreReset_kept (hP : Kept P) {s : State} (h : P s)  : P (State.coreReset s) := by
  unfold State.coreReset
  repeat' first
    | with_reducible assumption
    | intro _
    | (extract_lets +onlyGivenNames x; refine (fun hx => ?_ : P x → _) ?_; clear_value x; rotate_left; subst x; rotate_right)
    | (extract_lets +onlyGivenNames x; refine (fun hx => ?_ : P x.1 → _) ?_; clear_value x; rotate_left; subst x; rotate_right)
    | extract_lets +onlyGivenNames x
    | with_reducible apply each_kept
    | with_reducible apply State.put_kept hP
    | with_reducible apply State.sq_kept hP
    | (apply Kept.of hP
       · dsimp only <;> exact rfl
       · first | exact id | (intro _; simp_all only [shape, shapeStd, List.cons.injEq, upd_length, List.length_set, List.length_map, List.length_range, List.length_replicate, and_true, true_and, and_self]; done)
       iterate 8 (· exact rfl))
    | exact And.intro rfl rfl
    | exact ‹_ ∧ _›

theorem State.endRun_kept (hP : Kept P) {s : State} (h : P s)  : P (State.endRun s) := by
  unfold State.endRun
  repeat' first
    | with_reducible assumption
    | intro _
    | (extract_lets +onlyGivenNames x; refine (fun hx => ?_ : P x → _) ?_; clear_value x; rotate_left; subst x; rotate_right)
    | (extract_lets +onlyGivenNames x; refine (fun hx => ?_ : P x.1 → _) ?_; clear_value x; rotate_left; subst x; rotate_right)
    | extract_lets +onlyGivenNames x
    | with_reducible apply State.dropHeld_kept hP
    | with_reducible apply State.put_kept hP
    | with_reducible apply State.sq_kept hP
    | split
    | (refine fst_kept (by assumption) ?_)
    | (apply Kept.of hP
       · dsimp only <;> exact rfl
       · first | exact id | (intro _; simp_all only [shape, shapeStd, List.cons.injEq, upd_length, List.length_set, List.length_map, List.length_range, List.length_replicate, and_true, true_and, and_self]; done)
       iterate 8 (· exact rfl))
    | exact And.intro rfl rfl
    | exact ‹_ ∧ _›

theorem State.disableSlot_kept (hP : Kept P) {s : State} (h : P s) (t : Nat) : P (State.disableSlot s t) := by
  unfold State.disableSlot
  repeat' first
    | with_reducible assumption
    | with_reducible apply State.put_kept hP

theorem State.exception_kept (hP : Kept P) {s : State} (h : P s) (cause : Nat) (addr : Nat) : P (State.exception s cause addr) := by
  unfold State.exception
  repeat' first
    | with_reducible assumption
    | (extract_lets +onlyGivenNames x; refine (fun hx => ?_ : P x → _) ?_; clear_value x; rotate_left; subst x; rotate_right)
    | (extract_lets +onlyGivenNames x; refine (fun hx => ?_ : P x.1 → _) ?_; clear_value x; rotate_left; subst x; rotate_right)
    | (extract_lets +onlyGivenNames x; clear_value x)
    | extract_lets +onlyGivenNames x
    | with_reducible apply ite_kept
    | with_reducible apply ite_fst_kept
    | with_reducible apply State.capEv_kept hP
    | with_reducible apply State.disableSlot_kept hP
    | with_reducible apply State.dropHeld_kept hP
    | with_reducible apply State.endRun_kept hP
    | with_reducible apply State.ev_kept hP
    | with_reducible apply State.halt_kept hP
    | with_reducible apply State.inc_kept hP
    | with_reducible apply State.pmc_kept hP
    | with_reducible apply State.put_kept hP
    | with_reducible apply State.slots_kept hP
    | split
    | (refine fst_kept (by assumption) ?_)
    | (apply Kept.of hP
       · dsimp only <;> exact rfl
       · first | exact id | (intro _; simp_all only [shape, shapeStd, List.cons.injEq, upd_length, List.length_set, List.length_map, List.length_range, List.length_replicate, and_true, true_and, and_self]; done)
       iterate 8 (· exact rfl))

theorem State.retire_kept (hP : Kept P) {s : State} (h : P s) (npc : Nat) (reads : List Nat) (accR : Option Nat) (back : Nat) (port : Nat) (wasted : Nat) (ld : Option Nat) (mac : Option Nat) : P (State.retire s npc reads accR back port wasted ld mac) := by
  unfold State.retire
  repeat' first
    | with_reducible assumption
    | intro _
    | (extract_lets +onlyGivenNames x; refine (fun hx => ?_ : P x → _) ?_; clear_value x; rotate_left; subst x; rotate_right)
    | (extract_lets +onlyGivenNames x; refine (fun hx => ?_ : P x.1 → _) ?_; clear_value x; rotate_left; subst x; rotate_right)
    | extract_lets +onlyGivenNames x
    | with_reducible apply ite_kept
    | with_reducible apply ite_fst_kept
    | with_reducible apply State.slots_kept hP
    | with_reducible apply State.sq_kept hP
    | split
    | (refine fst_kept (by assumption) ?_)
    | (apply Kept.of hP
       · dsimp only <;> exact rfl
       · first | exact id | (intro _; simp_all only [shape, shapeStd, List.cons.injEq, upd_length, List.length_set, List.length_map, List.length_range, List.length_replicate, and_true, true_and, and_self]; done)
       iterate 8 (· exact rfl))
    | exact And.intro rfl rfl
    | exact ‹_ ∧ _›

theorem State.dbgRead_kept (hP : Kept P) {s : State} (h : P s) (who : Master) : P (State.dbgRead s who).1 := by
  unfold State.dbgRead
  repeat' first
    | with_reducible assumption
    | (extract_lets +onlyGivenNames x; refine (fun hx => ?_ : P x → _) ?_; clear_value x; rotate_left; subst x; rotate_right)
    | (extract_lets +onlyGivenNames x; refine (fun hx => ?_ : P x.1 → _) ?_; clear_value x; rotate_left; subst x; rotate_right)
    | (extract_lets +onlyGivenNames x; clear_value x)
    | extract_lets +onlyGivenNames x
    | with_reducible apply ite_kept
    | with_reducible apply ite_fst_kept
    | with_reducible apply State.memRead_kept hP
    | split

theorem State.dbgWrite_kept (hP : Kept P) {s : State} (h : P s) (w : Word) (who : Master) : P (State.dbgWrite s w who) := by
  unfold State.dbgWrite
  repeat' first
    | with_reducible assumption
    | intro _
    | (extract_lets +onlyGivenNames x; refine (fun hx => ?_ : P x → _) ?_; clear_value x; rotate_left; subst x; rotate_right)
    | (extract_lets +onlyGivenNames x; refine (fun hx => ?_ : P x.1 → _) ?_; clear_value x; rotate_left; subst x; rotate_right)
    | extract_lets +onlyGivenNames x
    | with_reducible apply ite_kept
    | with_reducible apply ite_fst_kept
    | with_reducible apply State.memWrite_kept hP
    | with_reducible apply State.setAcc_kept hP
    | with_reducible apply State.setFlags_kept hP
    | with_reducible apply State.setW_kept hP
    | with_reducible apply State.sq_kept hP
    | split
    | (apply Kept.of hP
       · dsimp only <;> exact rfl
       · first | exact id | (intro _; simp_all only [shape, shapeStd, List.cons.injEq, upd_length, List.length_set, List.length_map, List.length_range, List.length_replicate, and_true, true_and, and_self]; done)
       iterate 8 (· exact rfl))
    | exact And.intro rfl rfl
    | exact ‹_ ∧ _›

theorem State.wdogWrite_kept (hP : Kept P) {s : State} (h : P s) (m : Master) (w : Word) : P (State.wdogWrite s m w) := by
  unfold State.wdogWrite
  repeat' first
    | with_reducible assumption
    | (extract_lets +onlyGivenNames x; refine (fun hx => ?_ : P x → _) ?_; clear_value x; rotate_left; subst x; rotate_right)
    | (extract_lets +onlyGivenNames x; refine (fun hx => ?_ : P x.1 → _) ?_; clear_value x; rotate_left; subst x; rotate_right)
    | (extract_lets +onlyGivenNames x; clear_value x)
    | extract_lets +onlyGivenNames x
    | with_reducible apply ite_kept
    | with_reducible apply ite_fst_kept
    | with_reducible apply State.put_kept hP
    | split

theorem State.seqCtlWrite_kept (hP : Kept P) {s : State} (h : P s) (w : Word) : P (State.seqCtlWrite s w) := by
  unfold State.seqCtlWrite
  repeat' first
    | with_reducible assumption
    | intro _
    | (extract_lets +onlyGivenNames x; refine (fun hx => ?_ : P x → _) ?_; clear_value x; rotate_left; subst x; rotate_right)
    | (extract_lets +onlyGivenNames x; refine (fun hx => ?_ : P x.1 → _) ?_; clear_value x; rotate_left; subst x; rotate_right)
    | extract_lets +onlyGivenNames x
    | with_reducible apply ite_kept
    | with_reducible apply ite_fst_kept
    | with_reducible apply State.halt_kept hP
    | with_reducible apply State.put_kept hP
    | with_reducible apply State.resume_kept hP
    | with_reducible apply State.sq_kept hP
    | split
    | (apply Kept.of hP
       · dsimp only <;> exact rfl
       · first | exact id | (intro _; simp_all only [shape, shapeStd, List.cons.injEq, upd_length, List.length_set, List.length_map, List.length_range, List.length_replicate, and_true, true_and, and_self]; done)
       iterate 8 (· exact rfl))
    | exact And.intro rfl rfl
    | exact ‹_ ∧ _›

theorem State.taskWrite_kept (hP : Kept P) {s : State} (h : P s) (i : Nat) (w : Word) : P (State.taskWrite s i w) := by
  unfold State.taskWrite
  repeat' first
    | with_reducible assumption
    | (extract_lets +onlyGivenNames x; refine (fun hx => ?_ : P x → _) ?_; clear_value x; rotate_left; subst x; rotate_right)
    | (extract_lets +onlyGivenNames x; refine (fun hx => ?_ : P x.1 → _) ?_; clear_value x; rotate_left; subst x; rotate_right)
    | (extract_lets +onlyGivenNames x; clear_value x)
    | extract_lets +onlyGivenNames x
    | with_reducible apply ite_kept
    | with_reducible apply ite_fst_kept
    | with_reducible apply State.put_kept hP
    | with_reducible apply State.setLive_kept hP
    | split

theorem State.doorbell_kept (hP : Kept P) {s : State} (h : P s) (w : Word) : P (State.doorbell s w) := by
  unfold State.doorbell
  repeat' first
    | with_reducible assumption
    | with_reducible apply State.put_kept hP

theorem State.pmcCtlWrite_kept (hP : Kept P) {s : State} (h : P s) (w : Word) : P (State.pmcCtlWrite s w) := by
  unfold State.pmcCtlWrite
  repeat' first
    | with_reducible assumption
    | intro _
    | (extract_lets +onlyGivenNames x; refine (fun hx => ?_ : P x → _) ?_; clear_value x; rotate_left; subst x; rotate_right)
    | (extract_lets +onlyGivenNames x; refine (fun hx => ?_ : P x.1 → _) ?_; clear_value x; rotate_left; subst x; rotate_right)
    | (extract_lets +onlyGivenNames x; clear_value x)
    | extract_lets +onlyGivenNames x
    | with_reducible apply ite_kept
    | with_reducible apply ite_fst_kept
    | with_reducible apply each_kept
    | with_reducible apply State.put_kept hP
    | split

theorem State.pmcSnapshot_kept (hP : Kept P) {s : State} (h : P s)  : P (State.pmcSnapshot s) := by
  unfold State.pmcSnapshot
  repeat' first
    | with_reducible assumption
    | intro _
    | with_reducible apply each_kept
    | with_reducible apply State.put_kept hP

theorem State.overrun_kept (hP : Kept P) {s : State} (h : P s)  : P (State.overrun s) := by
  unfold State.overrun
  repeat' first
    | with_reducible assumption
    | intro _
    | (extract_lets +onlyGivenNames x; refine (fun hx => ?_ : P x → _) ?_; clear_value x; rotate_left; subst x; rotate_right)
    | (extract_lets +onlyGivenNames x; refine (fun hx => ?_ : P x.1 → _) ?_; clear_value x; rotate_left; subst x; rotate_right)
    | extract_lets +onlyGivenNames x
    | with_reducible apply State.inc_kept hP
    | with_reducible apply State.pmc_kept hP
    | with_reducible apply State.put_kept hP
    | with_reducible apply State.sq_kept hP
    | (apply Kept.of hP
       · dsimp only <;> exact rfl
       · first | exact id | (intro _; simp_all only [shape, shapeStd, List.cons.injEq, upd_length, List.length_set, List.length_map, List.length_range, List.length_replicate, and_true, true_and, and_self]; done)
       iterate 8 (· exact rfl))
    | exact And.intro rfl rfl
    | exact ‹_ ∧ _›

theorem State.tasksDue_kept (hP : Kept P) {s : State} (h : P s) (t : Nat) : P (State.tasksDue s t) := by
  unfold State.tasksDue
  repeat' first
    | with_reducible assumption
    | intro _
    | (extract_lets +onlyGivenNames x; refine (fun hx => ?_ : P x → _) ?_; clear_value x; rotate_left; subst x; rotate_right)
    | (extract_lets +onlyGivenNames x; refine (fun hx => ?_ : P x.1 → _) ?_; clear_value x; rotate_left; subst x; rotate_right)
    | (extract_lets +onlyGivenNames x; clear_value x)
    | extract_lets +onlyGivenNames x
    | with_reducible apply ite_kept
    | with_reducible apply ite_fst_kept
    | with_reducible apply each_kept
    | with_reducible apply State.inc_kept hP
    | with_reducible apply State.put_kept hP
    | split

end Sys2Proof.Machine
end

