-- ==== Sys2Proof/Laws/KeptScrimOps.lean ====
section
/-! SUPPORT. What the operations of `Sys2Proof.Machine.ScrimOps` keep (`Sys2Proof.Laws.Kept`). -/
namespace Sys2Proof.Machine
open State
set_option linter.all false
variable {P : State → Prop}

theorem State.setLink_kept (hP : Kept P) {s : State} (h : P s) (j : Nat) (f : Link → Link) : P (State.setLink s j f) := by
  unfold State.setLink
  repeat' first
    | with_reducible assumption
    | (extract_lets +onlyGivenNames x; refine (fun hx => ?_ : P x → _) ?_; clear_value x; rotate_left; subst x; rotate_right)
    | (extract_lets +onlyGivenNames x; refine (fun hx => ?_ : P x.1 → _) ?_; clear_value x; rotate_left; subst x; rotate_right)
    | (extract_lets +onlyGivenNames x; clear_value x)
    | extract_lets +onlyGivenNames x
    | (apply Kept.of hP
       · dsimp only <;> exact rfl
       · first | exact id | (intro _; simp_all only [shape, shapeStd, List.cons.injEq, upd_length, List.length_set, List.length_map, List.length_range, List.length_replicate, and_true, true_and, and_self]; done)
       iterate 8 (· exact rfl))

theorem State.viol_kept (hP : Kept P) {s : State} (h : P s) (c : Nat) : P (State.viol s c) := by
  unfold State.viol
  repeat' first
    | with_reducible assumption
    | with_reducible apply State.ev_kept hP
    | with_reducible apply State.inc_kept hP
    | with_reducible apply State.seqEv_kept hP

theorem State.linkEv_kept (hP : Kept P) {s : State} (h : P s) (f : FRef) (j : Nat) : P (State.linkEv s f j) := by
  unfold State.linkEv
  repeat' first
    | with_reducible assumption
    | with_reducible apply State.ev_kept hP
    | with_reducible apply State.seqEv_kept hP

theorem State.transmit_kept (hP : Kept P) {s : State} (h : P s) (j : Nat) (f : SFrame) : P (State.transmit s j f) := by
  unfold State.transmit
  repeat' first
    | with_reducible assumption
    | intro _
    | (extract_lets +onlyGivenNames x; refine (fun hx => ?_ : P x → _) ?_; clear_value x; rotate_left; subst x; rotate_right)
    | (extract_lets +onlyGivenNames x; refine (fun hx => ?_ : P x.1 → _) ?_; clear_value x; rotate_left; subst x; rotate_right)
    | (extract_lets +onlyGivenNames x; clear_value x)
    | extract_lets +onlyGivenNames x
    | with_reducible apply State.inc_kept hP
    | with_reducible apply State.setLink_kept hP
    | (apply Kept.of hP
       · dsimp only <;> exact rfl
       · first | exact id | (intro _; simp_all only [shape, shapeStd, List.cons.injEq, upd_length, List.length_set, List.length_map, List.length_range, List.length_replicate, and_true, true_and, and_self]; done)
       iterate 8 (· exact rfl))

theorem State.sendCtl_kept (hP : Kept P) {s : State} (h : P s) (j : Nat) (typ : Nat) (seq : BitVec 16) (data : List Byte) : P (State.sendCtl s j typ seq data) := by
  unfold State.sendCtl
  repeat' first
    | with_reducible assumption
    | with_reducible apply State.transmit_kept hP

theorem State.sendFrame_kept (hP : Kept P) {s : State} (h : P s) (j : Nat) (f : SFrame) : P (State.sendFrame s j f) := by
  unfold State.sendFrame
  repeat' first
    | with_reducible assumption
    | intro _
    | (extract_lets +onlyGivenNames x; refine (fun hx => ?_ : P x → _) ?_; clear_value x; rotate_left; subst x; rotate_right)
    | (extract_lets +onlyGivenNames x; refine (fun hx => ?_ : P x.1 → _) ?_; clear_value x; rotate_left; subst x; rotate_right)
    | (extract_lets +onlyGivenNames x; clear_value x)
    | extract_lets +onlyGivenNames x
    | with_reducible apply ite_kept
    | with_reducible apply ite_fst_kept
    | with_reducible apply State.setLink_kept hP
    | with_reducible apply State.transmit_kept hP
    | split
    | (apply Kept.of hP
       · dsimp only <;> exact rfl
       · first | exact id | (intro _; simp_all only [shape, shapeStd, List.cons.injEq, upd_length, List.length_set, List.length_map, List.length_range, List.length_replicate, and_true, true_and, and_self]; done)
       iterate 8 (· exact rfl))

theorem State.pump_kept (hP : Kept P) {s : State} (h : P s) (j n : Nat) : P (State.pump s j n) := by
  induction n generalizing s with
  | zero => exact h
  | succ n ih =>
    unfold State.pump
    extract_lets l
    split
    · exact h
    · refine ite_kept h ?_
      exact ih (State.setLink_kept hP (State.transmit_kept hP h _ _) _ _)

theorem State.fabTxDone_kept (hP : Kept P) {s : State} (h : P s) (n : Nat) : P (State.fabTxDone s n) := by
  induction n generalizing s with
  | zero => exact h
  | succ n ih =>
    unfold State.fabTxDone
    split
    · refine ih (State.ringConsume_kept hP ?_ _ _)
      exact hP.same h rfl rfl rfl rfl rfl rfl rfl rfl rfl id
    · exact h

theorem State.fabTxFinish_kept (hP : Kept P) {s : State} (h : P s) (msn : BitVec 16) : P (State.fabTxFinish s msn) := by
  unfold State.fabTxFinish
  repeat' first
    | with_reducible assumption
    | intro _
    | (extract_lets +onlyGivenNames x; refine (fun hx => ?_ : P x → _) ?_; clear_value x; rotate_left; subst x; rotate_right)
    | (extract_lets +onlyGivenNames x; refine (fun hx => ?_ : P x.1 → _) ?_; clear_value x; rotate_left; subst x; rotate_right)
    | (extract_lets +onlyGivenNames x; clear_value x)
    | extract_lets +onlyGivenNames x
    | with_reducible apply ite_kept
    | with_reducible apply ite_fst_kept
    | with_reducible apply State.fabTxDone_kept hP
    | split
    | (apply Kept.of hP
       · dsimp only <;> exact rfl
       · first | exact id | (intro _; simp_all only [shape, shapeStd, List.cons.injEq, upd_length, List.length_set, List.length_map, List.length_range, List.length_replicate, and_true, true_and, and_self]; done)
       iterate 8 (· exact rfl))

theorem State.noRoute_kept (hP : Kept P) {s : State} (h : P s) (f : SFrame) : P (State.noRoute s f) := by
  unfold State.noRoute
  repeat' first
    | with_reducible assumption
    | (extract_lets +onlyGivenNames x; refine (fun hx => ?_ : P x → _) ?_; clear_value x; rotate_left; subst x; rotate_right)
    | (extract_lets +onlyGivenNames x; refine (fun hx => ?_ : P x.1 → _) ?_; clear_value x; rotate_left; subst x; rotate_right)
    | (extract_lets +onlyGivenNames x; clear_value x)
    | extract_lets +onlyGivenNames x
    | with_reducible apply ite_kept
    | with_reducible apply ite_fst_kept
    | with_reducible apply State.fabTxFinish_kept hP
    | with_reducible apply State.viol_kept hP
    | split

theorem State.sendOn_kept (hP : Kept P) {s : State} (h : P s) (f : SFrame) : P (State.sendOn s f) := by
  unfold State.sendOn
  repeat' first
    | with_reducible assumption
    | (extract_lets +onlyGivenNames x; refine (fun hx => ?_ : P x → _) ?_; clear_value x; rotate_left; subst x; rotate_right)
    | (extract_lets +onlyGivenNames x; refine (fun hx => ?_ : P x.1 → _) ?_; clear_value x; rotate_left; subst x; rotate_right)
    | (extract_lets +onlyGivenNames x; clear_value x)
    | extract_lets +onlyGivenNames x
    | with_reducible apply State.noRoute_kept hP
    | with_reducible apply State.sendFrame_kept hP
    | split
    | (refine fst_kept (by assumption) ?_)
    | (apply Kept.of hP
       · dsimp only <;> exact rfl
       · first | exact id | (intro _; simp_all only [shape, shapeStd, List.cons.injEq, upd_length, List.length_set, List.length_map, List.length_range, List.length_replicate, and_true, true_and, and_self]; done)
       iterate 8 (· exact rfl))

theorem State.linkLeave_kept (hP : Kept P) {s : State} (h : P s) (j : Nat) (st : Nat) : P (State.linkLeave s j st) := by
  unfold State.linkLeave
  repeat' first
    | with_reducible assumption
    | intro _
    | (extract_lets +onlyGivenNames x; refine (fun hx => ?_ : P x → _) ?_; clear_value x; rotate_left; subst x; rotate_right)
    | (extract_lets +onlyGivenNames x; refine (fun hx => ?_ : P x.1 → _) ?_; clear_value x; rotate_left; subst x; rotate_right)
    | (extract_lets +onlyGivenNames x; clear_value x)
    | extract_lets +onlyGivenNames x
    | with_reducible apply ite_kept
    | with_reducible apply ite_fst_kept
    | with_reducible apply whenB_kept
    | with_reducible apply each_kept
    | with_reducible apply State.capEv_kept hP
    | with_reducible apply State.inc_kept hP
    | with_reducible apply State.linkEv_kept hP
    | with_reducible apply State.put_kept hP
    | with_reducible apply State.sendOn_kept hP
    | with_reducible apply State.setLink_kept hP
    | with_reducible apply State.setLive_kept hP
    | with_reducible apply State.st_kept hP
    | split
    | (apply Kept.of hP
       · dsimp only <;> exact rfl
       · first | exact id | (intro _; simp_all only [shape, shapeStd, List.cons.injEq, upd_length, List.length_set, List.length_map, List.length_range, List.length_replicate, and_true, true_and, and_self]; done)
       iterate 8 (· exact rfl))

theorem State.scrimSyncLost_kept (hP : Kept P) {s : State} (h : P s) (j : Nat) : P (State.scrimSyncLost s j) := by
  unfold State.scrimSyncLost
  repeat' first
    | with_reducible assumption
    | intro _
    | (extract_lets +onlyGivenNames x; refine (fun hx => ?_ : P x → _) ?_; clear_value x; rotate_left; subst x; rotate_right)
    | (extract_lets +onlyGivenNames x; refine (fun hx => ?_ : P x.1 → _) ?_; clear_value x; rotate_left; subst x; rotate_right)
    | (extract_lets +onlyGivenNames x; clear_value x)
    | extract_lets +onlyGivenNames x
    | with_reducible apply ite_kept
    | with_reducible apply ite_fst_kept
    | with_reducible apply State.linkLeave_kept hP
    | with_reducible apply State.setLink_kept hP
    | split
    | (apply Kept.of hP
       · dsimp only <;> exact rfl
       · first | exact id | (intro _; simp_all only [shape, shapeStd, List.cons.injEq, upd_length, List.length_set, List.length_map, List.length_range, List.length_replicate, and_true, true_and, and_self]; done)
       iterate 8 (· exact rfl))

theorem State.scrimSyncGained_kept (hP : Kept P) {s : State} (h : P s) (j : Nat) : P (State.scrimSyncGained s j) := by
  unfold State.scrimSyncGained
  repeat' first
    | with_reducible assumption
    | intro _
    | (extract_lets +onlyGivenNames x; refine (fun hx => ?_ : P x → _) ?_; clear_value x; rotate_left; subst x; rotate_right)
    | (extract_lets +onlyGivenNames x; refine (fun hx => ?_ : P x.1 → _) ?_; clear_value x; rotate_left; subst x; rotate_right)
    | (extract_lets +onlyGivenNames x; clear_value x)
    | extract_lets +onlyGivenNames x
    | with_reducible apply ite_kept
    | with_reducible apply ite_fst_kept
    | with_reducible apply State.put_kept hP
    | with_reducible apply State.setLink_kept hP
    | split
    | (apply Kept.of hP
       · dsimp only <;> exact rfl
       · first | exact id | (intro _; simp_all only [shape, shapeStd, List.cons.injEq, upd_length, List.length_set, List.length_map, List.length_range, List.length_replicate, and_true, true_and, and_self]; done)
       iterate 8 (· exact rfl))

theorem State.linkRefresh_kept (hP : Kept P) {s : State} (h : P s) (j : Nat) : P (State.linkRefresh s j) := by
  unfold State.linkRefresh
  repeat' first
    | with_reducible assumption
    | intro _
    | (extract_lets +onlyGivenNames x; refine (fun hx => ?_ : P x → _) ?_; clear_value x; rotate_left; subst x; rotate_right)
    | (extract_lets +onlyGivenNames x; refine (fun hx => ?_ : P x.1 → _) ?_; clear_value x; rotate_left; subst x; rotate_right)
    | (extract_lets +onlyGivenNames x; clear_value x)
    | extract_lets +onlyGivenNames x
    | with_reducible apply ite_kept
    | with_reducible apply ite_fst_kept
    | with_reducible apply State.linkLeave_kept hP
    | with_reducible apply State.put_kept hP
    | with_reducible apply State.setLink_kept hP
    | split
    | (apply Kept.of hP
       · dsimp only <;> exact rfl
       · first | exact id | (intro _; simp_all only [shape, shapeStd, List.cons.injEq, upd_length, List.length_set, List.length_map, List.length_range, List.length_replicate, and_true, true_and, and_self]; done)
       iterate 8 (· exact rfl))

theorem State.linksRefresh_kept (hP : Kept P) {s : State} (h : P s)  : P (State.linksRefresh s) := by
  unfold State.linksRefresh
  repeat' first
    | with_reducible assumption
    | intro _
    | with_reducible apply each_kept
    | with_reducible apply State.linkRefresh_kept hP

theorem State.sendAck_kept (hP : Kept P) {s : State} (h : P s) (j : Nat) : P (State.sendAck s j) := by
  unfold State.sendAck
  repeat' first
    | with_reducible assumption
    | intro _
    | (extract_lets +onlyGivenNames x; refine (fun hx => ?_ : P x → _) ?_; clear_value x; rotate_left; subst x; rotate_right)
    | (extract_lets +onlyGivenNames x; refine (fun hx => ?_ : P x.1 → _) ?_; clear_value x; rotate_left; subst x; rotate_right)
    | (extract_lets +onlyGivenNames x; clear_value x)
    | extract_lets +onlyGivenNames x
    | with_reducible apply ite_kept
    | with_reducible apply ite_fst_kept
    | with_reducible apply State.sendCtl_kept hP
    | with_reducible apply State.setLink_kept hP
    | split
    | (apply Kept.of hP
       · dsimp only <;> exact rfl
       · first | exact id | (intro _; simp_all only [shape, shapeStd, List.cons.injEq, upd_length, List.length_set, List.length_map, List.length_range, List.length_replicate, and_true, true_and, and_self]; done)
       iterate 8 (· exact rfl))

theorem State.sendNak_kept (hP : Kept P) {s : State} (h : P s) (j : Nat) : P (State.sendNak s j) := by
  unfold State.sendNak
  repeat' first
    | with_reducible assumption
    | intro _
    | (extract_lets +onlyGivenNames x; refine (fun hx => ?_ : P x → _) ?_; clear_value x; rotate_left; subst x; rotate_right)
    | (extract_lets +onlyGivenNames x; refine (fun hx => ?_ : P x.1 → _) ?_; clear_value x; rotate_left; subst x; rotate_right)
    | (extract_lets +onlyGivenNames x; clear_value x)
    | extract_lets +onlyGivenNames x
    | with_reducible apply ite_kept
    | with_reducible apply ite_fst_kept
    | with_reducible apply State.sendCtl_kept hP
    | with_reducible apply State.setLink_kept hP
    | split
    | (apply Kept.of hP
       · dsimp only <;> exact rfl
       · first | exact id | (intro _; simp_all only [shape, shapeStd, List.cons.injEq, upd_length, List.length_set, List.length_map, List.length_range, List.length_replicate, and_true, true_and, and_self]; done)
       iterate 8 (· exact rfl))

theorem State.resend_kept (hP : Kept P) {s : State} (h : P s) (j : Nat) (i : Nat) : P (State.resend s j i) := by
  unfold State.resend
  repeat' first
    | with_reducible assumption
    | intro _
    | (extract_lets +onlyGivenNames x; refine (fun hx => ?_ : P x → _) ?_; clear_value x; rotate_left; subst x; rotate_right)
    | (extract_lets +onlyGivenNames x; refine (fun hx => ?_ : P x.1 → _) ?_; clear_value x; rotate_left; subst x; rotate_right)
    | (extract_lets +onlyGivenNames x; clear_value x)
    | extract_lets +onlyGivenNames x
    | with_reducible apply each_kept
    | with_reducible apply State.inc_kept hP
    | with_reducible apply State.setLink_kept hP
    | with_reducible apply State.take_kept hP
    | with_reducible apply State.transmit_kept hP
    | (apply Kept.of hP
       · dsimp only <;> exact rfl
       · first | exact id | (intro _; simp_all only [shape, shapeStd, List.cons.injEq, upd_length, List.length_set, List.length_map, List.length_range, List.length_replicate, and_true, true_and, and_self]; done)
       iterate 8 (· exact rfl))

theorem State.ackRx_kept (hP : Kept P) {s : State} (h : P s) (j : Nat) (n : BitVec 16) : P (State.ackRx s j n) := by
  unfold State.ackRx
  repeat' first
    | with_reducible assumption
    | intro _
    | (extract_lets +onlyGivenNames x; refine (fun hx => ?_ : P x → _) ?_; clear_value x; rotate_left; subst x; rotate_right)
    | (extract_lets +onlyGivenNames x; refine (fun hx => ?_ : P x.1 → _) ?_; clear_value x; rotate_left; subst x; rotate_right)
    | (extract_lets +onlyGivenNames x; clear_value x)
    | extract_lets +onlyGivenNames x
    | with_reducible apply ite_kept
    | with_reducible apply ite_fst_kept
    | with_reducible apply each_kept
    | with_reducible apply State.fabTxFinish_kept hP
    | with_reducible apply State.pump_kept hP
    | with_reducible apply State.setLink_kept hP
    | with_reducible apply State.take_kept hP
    | with_reducible apply State.viol_kept hP
    | split
    | (apply Kept.of hP
       · dsimp only <;> exact rfl
       · first | exact id | (intro _; simp_all only [shape, shapeStd, List.cons.injEq, upd_length, List.length_set, List.length_map, List.length_range, List.length_replicate, and_true, true_and, and_self]; done)
       iterate 8 (· exact rfl))

theorem State.nakRx_kept (hP : Kept P) {s : State} (h : P s) (j : Nat) (n : BitVec 16) : P (State.nakRx s j n) := by
  unfold State.nakRx
  repeat' first
    | with_reducible assumption
    | (extract_lets +onlyGivenNames x; refine (fun hx => ?_ : P x → _) ?_; clear_value x; rotate_left; subst x; rotate_right)
    | (extract_lets +onlyGivenNames x; refine (fun hx => ?_ : P x.1 → _) ?_; clear_value x; rotate_left; subst x; rotate_right)
    | (extract_lets +onlyGivenNames x; clear_value x)
    | extract_lets +onlyGivenNames x
    | with_reducible apply ite_kept
    | with_reducible apply ite_fst_kept
    | with_reducible apply State.resend_kept hP
    | with_reducible apply State.viol_kept hP
    | split

theorem State.rtxTimeout_kept (hP : Kept P) {s : State} (h : P s) (j : Nat) : P (State.rtxTimeout s j) := by
  unfold State.rtxTimeout
  repeat' first
    | with_reducible assumption
    | intro _
    | (extract_lets +onlyGivenNames x; refine (fun hx => ?_ : P x → _) ?_; clear_value x; rotate_left; subst x; rotate_right)
    | (extract_lets +onlyGivenNames x; refine (fun hx => ?_ : P x.1 → _) ?_; clear_value x; rotate_left; subst x; rotate_right)
    | (extract_lets +onlyGivenNames x; clear_value x)
    | extract_lets +onlyGivenNames x
    | with_reducible apply ite_kept
    | with_reducible apply ite_fst_kept
    | with_reducible apply State.linkLeave_kept hP
    | with_reducible apply State.resend_kept hP
    | with_reducible apply State.setLink_kept hP
    | split
    | (apply Kept.of hP
       · dsimp only <;> exact rfl
       · first | exact id | (intro _; simp_all only [shape, shapeStd, List.cons.injEq, upd_length, List.length_set, List.length_map, List.length_range, List.length_replicate, and_true, true_and, and_self]; done)
       iterate 8 (· exact rfl))

theorem State.sendHello_kept (hP : Kept P) {s : State} (h : P s) (j : Nat) : P (State.sendHello s j) := by
  unfold State.sendHello
  repeat' first
    | with_reducible assumption
    | intro _
    | (extract_lets +onlyGivenNames x; refine (fun hx => ?_ : P x → _) ?_; clear_value x; rotate_left; subst x; rotate_right)
    | (extract_lets +onlyGivenNames x; refine (fun hx => ?_ : P x.1 → _) ?_; clear_value x; rotate_left; subst x; rotate_right)
    | (extract_lets +onlyGivenNames x; clear_value x)
    | extract_lets +onlyGivenNames x
    | with_reducible apply State.sendCtl_kept hP
    | with_reducible apply State.setLink_kept hP
    | (apply Kept.of hP
       · dsimp only <;> exact rfl
       · first | exact id | (intro _; simp_all only [shape, shapeStd, List.cons.injEq, upd_length, List.length_set, List.length_map, List.length_range, List.length_replicate, and_true, true_and, and_self]; done)
       iterate 8 (· exact rfl))

theorem State.helloRx_kept (hP : Kept P) {s : State} (h : P s) (j : Nat) (p : List Byte) : P (State.helloRx s j p) := by
  unfold State.helloRx
  repeat' first
    | with_reducible assumption
    | intro _
    | (extract_lets +onlyGivenNames x; refine (fun hx => ?_ : P x → _) ?_; clear_value x; rotate_left; subst x; rotate_right)
    | (extract_lets +onlyGivenNames x; refine (fun hx => ?_ : P x.1 → _) ?_; clear_value x; rotate_left; subst x; rotate_right)
    | (extract_lets +onlyGivenNames x; clear_value x)
    | extract_lets +onlyGivenNames x
    | with_reducible apply ite_kept
    | with_reducible apply ite_fst_kept
    | with_reducible apply State.inc_kept hP
    | with_reducible apply State.linkEv_kept hP
    | with_reducible apply State.linkLeave_kept hP
    | with_reducible apply State.put_kept hP
    | with_reducible apply State.setLink_kept hP
    | with_reducible apply State.setLive_kept hP
    | with_reducible apply State.viol_kept hP
    | split
    | (refine fst_kept (by assumption) ?_)
    | (apply Kept.of hP
       · dsimp only <;> exact rfl
       · first | exact id | (intro _; simp_all only [shape, shapeStd, List.cons.injEq, upd_length, List.length_set, List.length_map, List.length_range, List.length_replicate, and_true, true_and, and_self]; done)
       iterate 8 (· exact rfl))

theorem State.tmarkSend_kept (hP : Kept P) {s : State} (h : P s) (j : Nat) (t1 : Int) : P (State.tmarkSend s j t1) := by
  unfold State.tmarkSend
  repeat' first
    | with_reducible assumption
    | intro _
    | (extract_lets +onlyGivenNames x; refine (fun hx => ?_ : P x → _) ?_; clear_value x; rotate_left; subst x; rotate_right)
    | (extract_lets +onlyGivenNames x; refine (fun hx => ?_ : P x.1 → _) ?_; clear_value x; rotate_left; subst x; rotate_right)
    | (extract_lets +onlyGivenNames x; clear_value x)
    | extract_lets +onlyGivenNames x
    | with_reducible apply ite_kept
    | with_reducible apply ite_fst_kept
    | with_reducible apply State.sendCtl_kept hP
    | with_reducible apply State.setLink_kept hP
    | with_reducible apply State.take_kept hP
    | split
    | (refine fst_kept (by assumption) ?_)
    | (apply Kept.of hP
       · dsimp only <;> exact rfl
       · first | exact id | (intro _; simp_all only [shape, shapeStd, List.cons.injEq, upd_length, List.length_set, List.length_map, List.length_range, List.length_replicate, and_true, true_and, and_self]; done)
       iterate 8 (· exact rfl))

theorem State.tmarkRx_kept (hP : Kept P) {s : State} (h : P s) (j : Nat) (t4 : Int) : P (State.tmarkRx s j t4) := by
  unfold State.tmarkRx
  repeat' first
    | with_reducible assumption
    | intro _
    | (extract_lets +onlyGivenNames x; refine (fun hx => ?_ : P x → _) ?_; clear_value x; rotate_left; subst x; rotate_right)
    | (extract_lets +onlyGivenNames x; refine (fun hx => ?_ : P x.1 → _) ?_; clear_value x; rotate_left; subst x; rotate_right)
    | (extract_lets +onlyGivenNames x; clear_value x)
    | extract_lets +onlyGivenNames x
    | with_reducible apply State.setLink_kept hP
    | (apply Kept.of hP
       · dsimp only <;> exact rfl
       · first | exact id | (intro _; simp_all only [shape, shapeStd, List.cons.injEq, upd_length, List.length_set, List.length_map, List.length_range, List.length_replicate, and_true, true_and, and_self]; done)
       iterate 8 (· exact rfl))

theorem State.linkTick_kept (hP : Kept P) {s : State} (h : P s) (j : Nat) : P (State.linkTick s j) := by
  unfold State.linkTick
  repeat' first
    | with_reducible assumption
    | intro _
    | (extract_lets +onlyGivenNames x; refine (fun hx => ?_ : P x → _) ?_; clear_value x; rotate_left; subst x; rotate_right)
    | (extract_lets +onlyGivenNames x; refine (fun hx => ?_ : P x.1 → _) ?_; clear_value x; rotate_left; subst x; rotate_right)
    | (extract_lets +onlyGivenNames x; clear_value x)
    | extract_lets +onlyGivenNames x
    | with_reducible apply State.setLink_kept hP
    | (apply Kept.of hP
       · dsimp only <;> exact rfl
       · first | exact id | (intro _; simp_all only [shape, shapeStd, List.cons.injEq, upd_length, List.length_set, List.length_map, List.length_range, List.length_replicate, and_true, true_and, and_self]; done)
       iterate 8 (· exact rfl))

theorem State.linkSend_kept (hP : Kept P) {s : State} (h : P s) (j : Nat) : P (State.linkSend s j).2 := by
  unfold State.linkSend
  repeat' first
    | with_reducible assumption
    | intro _
    | (extract_lets +onlyGivenNames x; refine (fun hx => ?_ : P x → _) ?_; clear_value x; rotate_left; subst x; rotate_right)
    | (extract_lets +onlyGivenNames x; refine (fun hx => ?_ : P x.1 → _) ?_; clear_value x; rotate_left; subst x; rotate_right)
    | (extract_lets +onlyGivenNames x; refine (fun hx => ?_ : P x.2 → _) ?_; clear_value x; rotate_left; subst x; rotate_right)
    | (extract_lets +onlyGivenNames x; clear_value x)
    | extract_lets +onlyGivenNames x
    | with_reducible apply ite_kept
    | with_reducible apply ite_fst_kept
    | with_reducible apply ite_snd_kept
    | with_reducible apply State.setLink_kept hP
    | split
    | (refine fst_kept (by assumption) ?_)
    | (refine snd_kept (by assumption) ?_)
    | (apply Kept.of hP
       · dsimp only <;> exact rfl
       · first | exact id | (intro _; simp_all only [shape, shapeStd, List.cons.injEq, upd_length, List.length_set, List.length_map, List.length_range, List.length_replicate, and_true, true_and, and_self]; done)
       iterate 8 (· exact rfl))

theorem State.nextMsn_kept (hP : Kept P) {s : State} (h : P s)  : P (State.nextMsn s).1 := by
  unfold State.nextMsn
  repeat' first
    | with_reducible assumption
    | (extract_lets +onlyGivenNames x; refine (fun hx => ?_ : P x → _) ?_; clear_value x; rotate_left; subst x; rotate_right)
    | (extract_lets +onlyGivenNames x; refine (fun hx => ?_ : P x.1 → _) ?_; clear_value x; rotate_left; subst x; rotate_right)
    | (extract_lets +onlyGivenNames x; clear_value x)
    | extract_lets +onlyGivenNames x
    | (apply Kept.of hP
       · dsimp only <;> exact rfl
       · first | exact id | (intro _; simp_all only [shape, shapeStd, List.cons.injEq, upd_length, List.length_set, List.length_map, List.length_range, List.length_replicate, and_true, true_and, and_self]; done)
       iterate 8 (· exact rfl))

theorem State.sendMessage_kept (hP : Kept P) {s : State} (h : P s) (dst : BitVec 16) (j : Nat) (typ : Nat) (data : List Byte) : P (State.sendMessage s dst j typ data).1 := by
  unfold State.sendMessage
  repeat' first
    | with_reducible assumption
    | (extract_lets +onlyGivenNames x; refine (fun hx => ?_ : P x → _) ?_; clear_value x; rotate_left; subst x; rotate_right)
    | (extract_lets +onlyGivenNames x; refine (fun hx => ?_ : P x.1 → _) ?_; clear_value x; rotate_left; subst x; rotate_right)
    | (extract_lets +onlyGivenNames x; clear_value x)
    | extract_lets +onlyGivenNames x
    | with_reducible apply ite_kept
    | with_reducible apply ite_fst_kept
    | with_reducible apply State.nextMsn_kept hP
    | with_reducible apply State.sendFrame_kept hP
    | with_reducible apply State.viol_kept hP
    | split
    | (refine fst_kept (by assumption) ?_)
    | (apply Kept.of hP
       · dsimp only <;> exact rfl
       · first | exact id | (intro _; simp_all only [shape, shapeStd, List.cons.injEq, upd_length, List.length_set, List.length_map, List.length_range, List.length_replicate, and_true, true_and, and_self]; done)
       iterate 8 (· exact rfl))

theorem State.proxyEnd_kept (hP : Kept P) {s : State} (h : P s) (status : Nat) : P (State.proxyEnd s status) := by
  unfold State.proxyEnd
  repeat' first
    | with_reducible assumption
    | (extract_lets +onlyGivenNames x; refine (fun hx => ?_ : P x → _) ?_; clear_value x; rotate_left; subst x; rotate_right)
    | (extract_lets +onlyGivenNames x; refine (fun hx => ?_ : P x.1 → _) ?_; clear_value x; rotate_left; subst x; rotate_right)
    | (extract_lets +onlyGivenNames x; clear_value x)
    | extract_lets +onlyGivenNames x
    | with_reducible apply State.ev_kept hP
    | with_reducible apply State.put_kept hP
    | with_reducible apply State.seqEv_kept hP
    | (apply Kept.of hP
       · dsimp only <;> exact rfl
       · first | exact id | (intro _; simp_all only [shape, shapeStd, List.cons.injEq, upd_length, List.length_set, List.length_map, List.length_range, List.length_replicate, and_true, true_and, and_self]; done)
       iterate 8 (· exact rfl))

theorem State.proxyGo_kept (hP : Kept P) {s : State} (h : P s)  : P (State.proxyGo s) := by
  unfold State.proxyGo
  repeat' first
    | with_reducible assumption
    | (extract_lets +onlyGivenNames x; refine (fun hx => ?_ : P x → _) ?_; clear_value x; rotate_left; subst x; rotate_right)
    | (extract_lets +onlyGivenNames x; refine (fun hx => ?_ : P x.1 → _) ?_; clear_value x; rotate_left; subst x; rotate_right)
    | (extract_lets +onlyGivenNames x; clear_value x)
    | extract_lets +onlyGivenNames x
    | with_reducible apply ite_kept
    | with_reducible apply ite_fst_kept
    | with_reducible apply State.proxyEnd_kept hP
    | with_reducible apply State.put_kept hP
    | with_reducible apply State.sendMessage_kept hP
    | split
    | (refine fst_kept (by assumption) ?_)
    | (apply Kept.of hP
       · dsimp only <;> exact rfl
       · first | exact id | (intro _; simp_all only [shape, shapeStd, List.cons.injEq, upd_length, List.length_set, List.length_map, List.length_range, List.length_replicate, and_true, true_and, and_self]; done)
       iterate 8 (· exact rfl))

theorem State.proxyRsp_kept (hP : Kept P) {s : State} (h : P s) (p : List Byte) : P (State.proxyRsp s p) := by
  unfold State.proxyRsp
  repeat' first
    | with_reducible assumption
    | (extract_lets +onlyGivenNames x; refine (fun hx => ?_ : P x → _) ?_; clear_value x; rotate_left; subst x; rotate_right)
    | (extract_lets +onlyGivenNames x; refine (fun hx => ?_ : P x.1 → _) ?_; clear_value x; rotate_left; subst x; rotate_right)
    | (extract_lets +onlyGivenNames x; clear_value x)
    | extract_lets +onlyGivenNames x
    | with_reducible apply ite_kept
    | with_reducible apply ite_fst_kept
    | with_reducible apply State.proxyEnd_kept hP
    | with_reducible apply State.put_kept hP
    | split

theorem State.msnKeep_kept (hP : Kept P) {s : State} (h : P s) (src : BitVec 16) (msn : BitVec 16) : P (State.msnKeep s src msn) := by
  unfold State.msnKeep
  repeat' first
    | with_reducible assumption
    | (extract_lets +onlyGivenNames x; refine (fun hx => ?_ : P x → _) ?_; clear_value x; rotate_left; subst x; rotate_right)
    | (extract_lets +onlyGivenNames x; refine (fun hx => ?_ : P x.1 → _) ?_; clear_value x; rotate_left; subst x; rotate_right)
    | (extract_lets +onlyGivenNames x; clear_value x)
    | extract_lets +onlyGivenNames x
    | with_reducible apply State.take_kept hP
    | (apply Kept.of hP
       · dsimp only <;> exact rfl
       · first | exact id | (intro _; simp_all only [shape, shapeStd, List.cons.injEq, upd_length, List.length_set, List.length_map, List.length_range, List.length_replicate, and_true, true_and, and_self]; done)
       iterate 8 (· exact rfl))

theorem State.inbandDown_kept (hP : Kept P) {s : State} (h : P s) (k : Nat) : P (State.inbandDown s k) := by
  unfold State.inbandDown
  repeat' first
    | with_reducible assumption
    | with_reducible apply ite_kept
    | with_reducible apply ite_fst_kept
    | with_reducible apply State.scrimSyncLost_kept hP
    | split

end Sys2Proof.Machine
end

