-- ==== Sys2Proof/Laws/KeptFloat.lean ====
section
/-! SUPPORT. What the operations of `Sys2Proof.Machine.Float` keep (`Sys2Proof.Laws.Kept`). -/
namespace Sys2Proof.Machine
open State
set_option linter.all false
variable {P : State → Prop}

theorem State.mg_kept (hP : Kept P) {s : State} (h : P s) (f : Mig → Mig) : P (State.mg s f) := by
  unfold State.mg
  repeat' first
    | with_reducible assumption
    | (extract_lets +onlyGivenNames x; refine (fun hx => ?_ : P x → _) ?_; clear_value x; rotate_left; subst x; rotate_right)
    | (extract_lets +onlyGivenNames x; refine (fun hx => ?_ : P x.1 → _) ?_; clear_value x; rotate_left; subst x; rotate_right)
    | (extract_lets +onlyGivenNames x; clear_value x)
    | extract_lets +onlyGivenNames x
    | (apply Kept.of hP
       · dsimp only <;> exact rfl
       · first | exact id | (intro _; simp_all only [shape, shapeStd, List.cons.injEq, upd_length, List.length_set, List.length_map, List.length_range, List.length_replicate, and_true, true_and, and_self]; done)
       iterate 8 (· exact rfl))

theorem State.setPhase_kept (hP : Kept P) {s : State} (h : P s) (p : Nat) : P (State.setPhase s p) := by
  unfold State.setPhase
  repeat' first
    | with_reducible assumption
    | with_reducible apply State.put_kept hP

theorem State.setFloatLane_kept (hP : Kept P) {s : State} (h : P s) (k : Nat) : P (State.setFloatLane s k) := by
  unfold State.setFloatLane
  repeat' first
    | with_reducible assumption
    | with_reducible apply State.put_kept hP

theorem State.migResult_kept (hP : Kept P) {s : State} (h : P s) (r : Nat) : P (State.migResult s r) := by
  unfold State.migResult
  repeat' first
    | with_reducible assumption
    | with_reducible apply State.put_kept hP

theorem State.migDone_kept (hP : Kept P) {s : State} (h : P s) (seq : Nat) (r : Nat) : P (State.migDone s seq r) := by
  unfold State.migDone
  repeat' first
    | with_reducible assumption
    | (extract_lets +onlyGivenNames x; refine (fun hx => ?_ : P x → _) ?_; clear_value x; rotate_left; subst x; rotate_right)
    | (extract_lets +onlyGivenNames x; refine (fun hx => ?_ : P x.1 → _) ?_; clear_value x; rotate_left; subst x; rotate_right)
    | (extract_lets +onlyGivenNames x; clear_value x)
    | extract_lets +onlyGivenNames x
    | with_reducible apply ite_kept
    | with_reducible apply ite_fst_kept
    | with_reducible apply State.migResult_kept hP
    | with_reducible apply State.put_kept hP
    | with_reducible apply State.seqEv_kept hP
    | split

theorem State.setSliceState_kept (hP : Kept P) {s : State} (h : P s) (sl : Nat) (v : Nat) : P (State.setSliceState s sl v) := by
  unfold State.setSliceState
  repeat' first
    | with_reducible assumption
    | with_reducible apply State.put_kept hP

theorem State.retireSlice_kept (hP : Kept P) {s : State} (h : P s) (k : Nat) : P (State.retireSlice s k) := by
  unfold State.retireSlice
  repeat' first
    | with_reducible assumption
    | (extract_lets +onlyGivenNames x; refine (fun hx => ?_ : P x → _) ?_; clear_value x; rotate_left; subst x; rotate_right)
    | (extract_lets +onlyGivenNames x; refine (fun hx => ?_ : P x.1 → _) ?_; clear_value x; rotate_left; subst x; rotate_right)
    | (extract_lets +onlyGivenNames x; clear_value x)
    | extract_lets +onlyGivenNames x
    | with_reducible apply State.laneEv_kept hP
    | with_reducible apply State.put_kept hP
    | with_reducible apply State.setSliceState_kept hP

theorem State.floatTake_kept (hP : Kept P) {s : State} (h : P s)  : P (State.floatTake s) := by
  unfold State.floatTake
  dsimp only
  repeat' first
    | with_reducible assumption
    | intro _
    | (extract_lets +onlyGivenNames x; refine (fun hx => ?_ : P x → _) ?_; clear_value x; rotate_left; subst x; rotate_right)
    | (extract_lets +onlyGivenNames x; refine (fun hx => ?_ : P x.1 → _) ?_; clear_value x; rotate_left; subst x; rotate_right)
    | (extract_lets +onlyGivenNames x; clear_value x)
    | extract_lets +onlyGivenNames x
    | with_reducible apply each_kept
    | (apply Kept.of hP
       · dsimp only <;> exact rfl
       · first | exact id | (intro _; simp_all only [shape, shapeStd, List.cons.injEq, upd_length, List.length_set, List.length_map, List.length_range, List.length_replicate, and_true, true_and, and_self]; done)
       iterate 8 (· exact rfl))
    | with_reducible apply hP.inUse

theorem State.obsEnd_kept (hP : Kept P) {s : State} (h : P s)  : P (State.obsEnd s) := by
  unfold State.obsEnd
  repeat' first
    | with_reducible assumption
    | (extract_lets +onlyGivenNames x; refine (fun hx => ?_ : P x → _) ?_; clear_value x; rotate_left; subst x; rotate_right)
    | (extract_lets +onlyGivenNames x; refine (fun hx => ?_ : P x.1 → _) ?_; clear_value x; rotate_left; subst x; rotate_right)
    | (extract_lets +onlyGivenNames x; clear_value x)
    | extract_lets +onlyGivenNames x
    | with_reducible apply State.put_kept hP
    | (apply Kept.of hP
       · dsimp only <;> exact rfl
       · first | exact id | (intro _; simp_all only [shape, shapeStd, List.cons.injEq, upd_length, List.length_set, List.length_map, List.length_range, List.length_replicate, and_true, true_and, and_self]; done)
       iterate 8 (· exact rfl))

theorem State.floatPark_kept (hP : Kept P) {s : State} (h : P s)  : P (State.floatPark s) := by
  unfold State.floatPark
  repeat' first
    | with_reducible assumption
    | intro _
    | (extract_lets +onlyGivenNames x; refine (fun hx => ?_ : P x → _) ?_; clear_value x; rotate_left; subst x; rotate_right)
    | (extract_lets +onlyGivenNames x; refine (fun hx => ?_ : P x.1 → _) ?_; clear_value x; rotate_left; subst x; rotate_right)
    | (extract_lets +onlyGivenNames x; clear_value x)
    | extract_lets +onlyGivenNames x
    | with_reducible apply whenB_kept
    | with_reducible apply State.activate_kept hP
    | with_reducible apply State.candHunt_kept hP
    | with_reducible apply State.floatTake_kept hP
    | with_reducible apply State.loadSkew_kept hP
    | with_reducible apply State.mg_kept hP
    | with_reducible apply State.obsEnd_kept hP
    | with_reducible apply State.setPhase_kept hP
    | with_reducible apply State.setSlice_kept hP
    | (apply Kept.of hP
       · dsimp only <;> exact rfl
       · first | exact id | (intro _; simp_all only [shape, shapeStd, List.cons.injEq, upd_length, List.length_set, List.length_map, List.length_range, List.length_replicate, and_true, true_and, and_self]; done)
       iterate 8 (· exact rfl))

theorem State.floatConnect_kept (hP : Kept P) {s : State} (h : P s) (k : Nat) : P (State.floatConnect s k) := by
  unfold State.floatConnect
  repeat' first
    | with_reducible assumption
    | (extract_lets +onlyGivenNames x; refine (fun hx => ?_ : P x → _) ?_; clear_value x; rotate_left; subst x; rotate_right)
    | (extract_lets +onlyGivenNames x; refine (fun hx => ?_ : P x.1 → _) ?_; clear_value x; rotate_left; subst x; rotate_right)
    | (extract_lets +onlyGivenNames x; clear_value x)
    | extract_lets +onlyGivenNames x
    | with_reducible apply State.candHunt_kept hP
    | with_reducible apply State.connectSlice_kept hP
    | with_reducible apply State.isEngage_kept hP
    | with_reducible apply State.put_kept hP
    | with_reducible apply State.setFloatLane_kept hP

theorem State.floatPga_kept (hP : Kept P) {s : State} (h : P s) (k : Nat) : P (State.floatPga s k) := by
  unfold State.floatPga
  repeat' first
    | with_reducible assumption
    | with_reducible apply State.put_kept hP

theorem State.latchPar_kept (hP : Kept P) {s : State} (h : P s)  : P (State.latchPar s) := by
  unfold State.latchPar
  repeat' first
    | with_reducible assumption
    | intro _
    | (extract_lets +onlyGivenNames x; refine (fun hx => ?_ : P x → _) ?_; clear_value x; rotate_left; subst x; rotate_right)
    | (extract_lets +onlyGivenNames x; refine (fun hx => ?_ : P x.1 → _) ?_; clear_value x; rotate_left; subst x; rotate_right)
    | (extract_lets +onlyGivenNames x; clear_value x)
    | extract_lets +onlyGivenNames x
    | with_reducible apply State.mg_kept hP
    | with_reducible apply State.slots_kept hP
    | (apply Kept.of hP
       · dsimp only <;> exact rfl
       · first | exact id | (intro _; simp_all only [shape, shapeStd, List.cons.injEq, upd_length, List.length_set, List.length_map, List.length_range, List.length_replicate, and_true, true_and, and_self]; done)
       iterate 8 (· exact rfl))

theorem State.beginConverge_kept (hP : Kept P) {s : State} (h : P s) (k : Nat) : P (State.beginConverge s k) := by
  unfold State.beginConverge
  repeat' first
    | with_reducible assumption
    | intro _
    | (extract_lets +onlyGivenNames x; refine (fun hx => ?_ : P x → _) ?_; clear_value x; rotate_left; subst x; rotate_right)
    | (extract_lets +onlyGivenNames x; refine (fun hx => ?_ : P x.1 → _) ?_; clear_value x; rotate_left; subst x; rotate_right)
    | (extract_lets +onlyGivenNames x; clear_value x)
    | extract_lets +onlyGivenNames x
    | with_reducible apply State.floatConnect_kept hP
    | with_reducible apply State.floatPga_kept hP
    | with_reducible apply State.floatTake_kept hP
    | with_reducible apply State.latchPar_kept hP
    | with_reducible apply State.mg_kept hP
    | with_reducible apply State.seedSlice_kept hP
    | with_reducible apply State.setPhase_kept hP
    | (apply Kept.of hP
       · dsimp only <;> exact rfl
       · first | exact id | (intro _; simp_all only [shape, shapeStd, List.cons.injEq, upd_length, List.length_set, List.length_map, List.length_range, List.length_replicate, and_true, true_and, and_self]; done)
       iterate 8 (· exact rfl))

theorem State.beginReturn_kept (hP : Kept P) {s : State} (h : P s)  : P (State.beginReturn s) := by
  unfold State.beginReturn
  repeat' first
    | with_reducible assumption
    | intro _
    | (extract_lets +onlyGivenNames x; refine (fun hx => ?_ : P x → _) ?_; clear_value x; rotate_left; subst x; rotate_right)
    | (extract_lets +onlyGivenNames x; refine (fun hx => ?_ : P x.1 → _) ?_; clear_value x; rotate_left; subst x; rotate_right)
    | (extract_lets +onlyGivenNames x; clear_value x)
    | extract_lets +onlyGivenNames x
    | with_reducible apply State.candHunt_kept hP
    | with_reducible apply State.connectSlice_kept hP
    | with_reducible apply State.latchPar_kept hP
    | with_reducible apply State.mg_kept hP
    | with_reducible apply State.seedSlice_kept hP
    | with_reducible apply State.setPhase_kept hP
    | (apply Kept.of hP
       · dsimp only <;> exact rfl
       · first | exact id | (intro _; simp_all only [shape, shapeStd, List.cons.injEq, upd_length, List.length_set, List.length_map, List.length_range, List.length_replicate, and_true, true_and, and_self]; done)
       iterate 8 (· exact rfl))

theorem State.migAbort_kept (hP : Kept P) {s : State} (h : P s) (r : Nat) : P (State.migAbort s r) := by
  unfold State.migAbort
  repeat' first
    | with_reducible assumption
    | intro _
    | (extract_lets +onlyGivenNames x; refine (fun hx => ?_ : P x → _) ?_; clear_value x; rotate_left; subst x; rotate_right)
    | (extract_lets +onlyGivenNames x; refine (fun hx => ?_ : P x.1 → _) ?_; clear_value x; rotate_left; subst x; rotate_right)
    | (extract_lets +onlyGivenNames x; clear_value x)
    | extract_lets +onlyGivenNames x
    | with_reducible apply ite_kept
    | with_reducible apply ite_fst_kept
    | with_reducible apply State.candHunt_kept hP
    | with_reducible apply State.fcalStop_kept hP
    | with_reducible apply State.floatEv_kept hP
    | with_reducible apply State.floatPark_kept hP
    | with_reducible apply State.inc_kept hP
    | with_reducible apply State.mg_kept hP
    | with_reducible apply State.migDone_kept hP
    | with_reducible apply State.setPhase_kept hP
    | split
    | (refine fst_kept (by assumption) ?_)
    | (apply Kept.of hP
       · dsimp only <;> exact rfl
       · first | exact id | (intro _; simp_all only [shape, shapeStd, List.cons.injEq, upd_length, List.length_set, List.length_map, List.length_range, List.length_replicate, and_true, true_and, and_self]; done)
       iterate 8 (· exact rfl))

theorem State.candidateOther_kept (hP : Kept P) {s : State} (h : P s) (counts : Bool) : P (State.candidateOther s counts) := by
  unfold State.candidateOther
  repeat' first
    | with_reducible assumption
    | (extract_lets +onlyGivenNames x; refine (fun hx => ?_ : P x → _) ?_; clear_value x; rotate_left; subst x; rotate_right)
    | (extract_lets +onlyGivenNames x; refine (fun hx => ?_ : P x.1 → _) ?_; clear_value x; rotate_left; subst x; rotate_right)
    | (extract_lets +onlyGivenNames x; clear_value x)
    | extract_lets +onlyGivenNames x
    | with_reducible apply ite_kept
    | with_reducible apply ite_fst_kept
    | with_reducible apply State.migAbort_kept hP
    | with_reducible apply State.st_kept hP
    | split

theorem State.showLocked_kept (hP : Kept P) {s : State} (h : P s) (k : Nat) (l : Nat) : P (State.showLocked s k l) := by
  unfold State.showLocked
  repeat' first
    | with_reducible assumption
    | intro _
    | (extract_lets +onlyGivenNames x; refine (fun hx => ?_ : P x → _) ?_; clear_value x; rotate_left; subst x; rotate_right)
    | (extract_lets +onlyGivenNames x; refine (fun hx => ?_ : P x.1 → _) ?_; clear_value x; rotate_left; subst x; rotate_right)
    | (extract_lets +onlyGivenNames x; clear_value x)
    | extract_lets +onlyGivenNames x
    | with_reducible apply ite_kept
    | with_reducible apply ite_fst_kept
    | with_reducible apply State.laneEv_kept hP
    | with_reducible apply State.put_kept hP
    | with_reducible apply State.setLane_kept hP
    | split
    | (apply Kept.of hP
       · dsimp only <;> exact rfl
       · first | exact id | (intro _; simp_all only [shape, shapeStd, List.cons.injEq, upd_length, List.length_set, List.length_map, List.length_range, List.length_replicate, and_true, true_and, and_self]; done)
       iterate 8 (· exact rfl))

theorem State.takeFrame_kept (hP : Kept P) {s : State} (h : P s) (k : Nat) : P (State.takeFrame s k) := by
  unfold State.takeFrame
  repeat' first
    | with_reducible assumption
    | intro _
    | (extract_lets +onlyGivenNames x; refine (fun hx => ?_ : P x → _) ?_; clear_value x; rotate_left; subst x; rotate_right)
    | (extract_lets +onlyGivenNames x; refine (fun hx => ?_ : P x.1 → _) ?_; clear_value x; rotate_left; subst x; rotate_right)
    | (extract_lets +onlyGivenNames x; clear_value x)
    | extract_lets +onlyGivenNames x
    | with_reducible apply ite_kept
    | with_reducible apply ite_fst_kept
    | with_reducible apply State.candHunt_kept hP
    | with_reducible apply State.setFrame_kept hP
    | with_reducible apply State.showLocked_kept hP
    | with_reducible apply State.st_kept hP
    | split

theorem State.showSlice_kept (hP : Kept P) {s : State} (h : P s) (sl : Nat) (v : Nat) : P (State.showSlice s sl v) := by
  unfold State.showSlice
  repeat' first
    | with_reducible assumption
    | with_reducible apply ite_kept
    | with_reducible apply ite_fst_kept
    | with_reducible apply State.setSliceState_kept hP
    | split

theorem State.swapIn_kept (hP : Kept P) {s : State} (h : P s) (k : Nat) : P (State.swapIn s k) := by
  unfold State.swapIn
  repeat' first
    | with_reducible assumption
    | intro _
    | (extract_lets +onlyGivenNames x; refine (fun hx => ?_ : P x → _) ?_; clear_value x; rotate_left; subst x; rotate_right)
    | (extract_lets +onlyGivenNames x; refine (fun hx => ?_ : P x.1 → _) ?_; clear_value x; rotate_left; subst x; rotate_right)
    | (extract_lets +onlyGivenNames x; clear_value x)
    | extract_lets +onlyGivenNames x
    | with_reducible apply State.capEv_kept hP
    | with_reducible apply State.inc_kept hP
    | with_reducible apply State.publishCoefs_kept hP
    | with_reducible apply State.setLane_kept hP
    | with_reducible apply State.setPhase_kept hP
    | with_reducible apply State.takeFrame_kept hP
    | (apply Kept.of hP
       · dsimp only <;> exact rfl
       · first | exact id | (intro _; simp_all only [shape, shapeStd, List.cons.injEq, upd_length, List.length_set, List.length_map, List.length_range, List.length_replicate, and_true, true_and, and_self]; done)
       iterate 8 (· exact rfl))

theorem State.swapBack_kept (hP : Kept P) {s : State} (h : P s)  : P (State.swapBack s) := by
  unfold State.swapBack
  repeat' first
    | with_reducible assumption
    | intro _
    | (extract_lets +onlyGivenNames x; refine (fun hx => ?_ : P x → _) ?_; clear_value x; rotate_left; subst x; rotate_right)
    | (extract_lets +onlyGivenNames x; refine (fun hx => ?_ : P x.1 → _) ?_; clear_value x; rotate_left; subst x; rotate_right)
    | (extract_lets +onlyGivenNames x; clear_value x)
    | extract_lets +onlyGivenNames x
    | with_reducible apply State.capEv_kept hP
    | with_reducible apply State.floatPark_kept hP
    | with_reducible apply State.inc_kept hP
    | with_reducible apply State.publishCoefs_kept hP
    | with_reducible apply State.setLane_kept hP
    | with_reducible apply State.showSlice_kept hP
    | with_reducible apply State.takeFrame_kept hP
    | (apply Kept.of hP
       · dsimp only <;> exact rfl
       · first | exact id | (intro _; simp_all only [shape, shapeStd, List.cons.injEq, upd_length, List.length_set, List.length_map, List.length_range, List.length_replicate, and_true, true_and, and_self]; done)
       iterate 8 (· exact rfl))

theorem State.reportAbort_kept (hP : Kept P) {s : State} (h : P s) (a : Option Nat) : P (State.reportAbort s a) := by
  unfold State.reportAbort
  repeat' first
    | with_reducible assumption
    | (extract_lets +onlyGivenNames x; refine (fun hx => ?_ : P x → _) ?_; clear_value x; rotate_left; subst x; rotate_right)
    | (extract_lets +onlyGivenNames x; refine (fun hx => ?_ : P x.1 → _) ?_; clear_value x; rotate_left; subst x; rotate_right)
    | (extract_lets +onlyGivenNames x; clear_value x)
    | extract_lets +onlyGivenNames x
    | with_reducible apply State.floatEv_kept hP
    | with_reducible apply State.inc_kept hP
    | with_reducible apply State.migDone_kept hP
    | split
    | (refine fst_kept (by assumption) ?_)
    | (apply Kept.of hP
       · dsimp only <;> exact rfl
       · first | exact id | (intro _; simp_all only [shape, shapeStd, List.cons.injEq, upd_length, List.length_set, List.length_map, List.length_range, List.length_replicate, and_true, true_and, and_self]; done)
       iterate 8 (· exact rfl))

theorem State.migSwap_kept (hP : Kept P) {s : State} (h : P s)  : P (State.migSwap s) := by
  unfold State.migSwap
  repeat' first
    | with_reducible assumption
    | intro _
    | (extract_lets +onlyGivenNames x; refine (fun hx => ?_ : P x → _) ?_; clear_value x; rotate_left; subst x; rotate_right)
    | (extract_lets +onlyGivenNames x; refine (fun hx => ?_ : P x.1 → _) ?_; clear_value x; rotate_left; subst x; rotate_right)
    | (extract_lets +onlyGivenNames x; clear_value x)
    | extract_lets +onlyGivenNames x
    | with_reducible apply ite_kept
    | with_reducible apply ite_fst_kept
    | with_reducible apply State.floatEv_kept hP
    | with_reducible apply State.loadSkew_kept hP
    | with_reducible apply State.mg_kept hP
    | with_reducible apply State.migDone_kept hP
    | with_reducible apply State.reportAbort_kept hP
    | with_reducible apply State.retire_kept hP
    | with_reducible apply State.retireSlice_kept hP
    | with_reducible apply State.setPhase_kept hP
    | with_reducible apply State.showSlice_kept hP
    | with_reducible apply State.swapBack_kept hP
    | with_reducible apply State.swapIn_kept hP
    | split

theorem State.beginTakeover_kept (hP : Kept P) {s : State} (h : P s) (k : Nat) (age : Nat) : P (State.beginTakeover s k age) := by
  unfold State.beginTakeover
  repeat' first
    | with_reducible assumption
    | intro _
    | (extract_lets +onlyGivenNames x; refine (fun hx => ?_ : P x → _) ?_; clear_value x; rotate_left; subst x; rotate_right)
    | (extract_lets +onlyGivenNames x; refine (fun hx => ?_ : P x.1 → _) ?_; clear_value x; rotate_left; subst x; rotate_right)
    | (extract_lets +onlyGivenNames x; clear_value x)
    | extract_lets +onlyGivenNames x
    | with_reducible apply State.floatConnect_kept hP
    | with_reducible apply State.floatPga_kept hP
    | with_reducible apply State.floatTake_kept hP
    | with_reducible apply State.mg_kept hP
    | with_reducible apply State.put_kept hP
    | with_reducible apply State.seedSlice_kept hP
    | with_reducible apply State.setPhase_kept hP
    | with_reducible apply State.setSlice_kept hP
    | split
    | (refine fst_kept (by assumption) ?_)
    | (apply Kept.of hP
       · dsimp only <;> exact rfl
       · first | exact id | (intro _; simp_all only [shape, shapeStd, List.cons.injEq, upd_length, List.length_set, List.length_map, List.length_range, List.length_replicate, and_true, true_and, and_self]; done)
       iterate 8 (· exact rfl))

theorem State.takeoverFail_kept (hP : Kept P) {s : State} (h : P s) (r : Nat) : P (State.takeoverFail s r) := by
  unfold State.takeoverFail
  repeat' first
    | with_reducible assumption
    | with_reducible apply State.floatEv_kept hP
    | with_reducible apply State.migResult_kept hP

theorem State.takeoverLost_kept (hP : Kept P) {s : State} (h : P s) (k : Nat) (r : Nat) : P (State.takeoverLost s k r) := by
  unfold State.takeoverLost
  repeat' first
    | with_reducible assumption
    | intro _
    | (extract_lets +onlyGivenNames x; refine (fun hx => ?_ : P x → _) ?_; clear_value x; rotate_left; subst x; rotate_right)
    | (extract_lets +onlyGivenNames x; refine (fun hx => ?_ : P x.1 → _) ?_; clear_value x; rotate_left; subst x; rotate_right)
    | (extract_lets +onlyGivenNames x; clear_value x)
    | extract_lets +onlyGivenNames x
    | with_reducible apply State.setLane_kept hP
    | with_reducible apply State.takeoverFail_kept hP
    | (apply Kept.of hP
       · dsimp only <;> exact rfl
       · first | exact id | (intro _; simp_all only [shape, shapeStd, List.cons.injEq, upd_length, List.length_set, List.length_map, List.length_range, List.length_replicate, and_true, true_and, and_self]; done)
       iterate 8 (· exact rfl))

theorem State.takeover_kept (hP : Kept P) {s : State} (h : P s) (k : Nat) : P (State.takeover s k) := by
  unfold State.takeover
  repeat' first
    | with_reducible assumption
    | intro _
    | (extract_lets +onlyGivenNames x; refine (fun hx => ?_ : P x → _) ?_; clear_value x; rotate_left; subst x; rotate_right)
    | (extract_lets +onlyGivenNames x; refine (fun hx => ?_ : P x.1 → _) ?_; clear_value x; rotate_left; subst x; rotate_right)
    | (extract_lets +onlyGivenNames x; clear_value x)
    | extract_lets +onlyGivenNames x
    | with_reducible apply ite_kept
    | with_reducible apply ite_fst_kept
    | with_reducible apply State.beginReturn_kept hP
    | with_reducible apply State.beginTakeover_kept hP
    | with_reducible apply State.fcalStop_kept hP
    | with_reducible apply State.floatEv_kept hP
    | with_reducible apply State.inc_kept hP
    | with_reducible apply State.mg_kept hP
    | with_reducible apply State.migAbort_kept hP
    | with_reducible apply State.migDone_kept hP
    | with_reducible apply State.migResult_kept hP
    | with_reducible apply State.setLane_kept hP
    | with_reducible apply State.takeoverFail_kept hP
    | split
    | (refine fst_kept (by assumption) ?_)
    | (apply Kept.of hP
       · dsimp only <;> exact rfl
       · first | exact id | (intro _; simp_all only [shape, shapeStd, List.cons.injEq, upd_length, List.length_set, List.length_map, List.length_range, List.length_replicate, and_true, true_and, and_self]; done)
       iterate 8 (· exact rfl))

theorem State.ownFaultWhileServed_kept (hP : Kept P) {s : State} (h : P s) (k : Nat) : P (State.ownFaultWhileServed s k) := by
  unfold State.ownFaultWhileServed
  repeat' first
    | with_reducible assumption
    | intro _
    | (extract_lets +onlyGivenNames x; refine (fun hx => ?_ : P x → _) ?_; clear_value x; rotate_left; subst x; rotate_right)
    | (extract_lets +onlyGivenNames x; refine (fun hx => ?_ : P x.1 → _) ?_; clear_value x; rotate_left; subst x; rotate_right)
    | (extract_lets +onlyGivenNames x; clear_value x)
    | extract_lets +onlyGivenNames x
    | with_reducible apply ite_kept
    | with_reducible apply ite_fst_kept
    | with_reducible apply State.candHunt_kept hP
    | with_reducible apply State.fcalStop_kept hP
    | with_reducible apply State.floatEv_kept hP
    | with_reducible apply State.inc_kept hP
    | with_reducible apply State.laneEv_kept hP
    | with_reducible apply State.mg_kept hP
    | with_reducible apply State.migDone_kept hP
    | with_reducible apply State.retireSlice_kept hP
    | with_reducible apply State.setLane_kept hP
    | with_reducible apply State.setPhase_kept hP
    | with_reducible apply State.takeoverLost_kept hP
    | split
    | (refine fst_kept (by assumption) ?_)
    | (apply Kept.of hP
       · dsimp only <;> exact rfl
       · first | exact id | (intro _; simp_all only [shape, shapeStd, List.cons.injEq, upd_length, List.length_set, List.length_map, List.length_range, List.length_replicate, and_true, true_and, and_self]; done)
       iterate 8 (· exact rfl))

theorem State.floatFault_kept (hP : Kept P) {s : State} (h : P s)  : P (State.floatFault s) := by
  unfold State.floatFault
  repeat' first
    | with_reducible assumption
    | (extract_lets +onlyGivenNames x; refine (fun hx => ?_ : P x → _) ?_; clear_value x; rotate_left; subst x; rotate_right)
    | (extract_lets +onlyGivenNames x; refine (fun hx => ?_ : P x.1 → _) ?_; clear_value x; rotate_left; subst x; rotate_right)
    | (extract_lets +onlyGivenNames x; clear_value x)
    | extract_lets +onlyGivenNames x
    | with_reducible apply ite_kept
    | with_reducible apply ite_fst_kept
    | with_reducible apply State.floatEv_kept hP
    | with_reducible apply State.floatPark_kept hP
    | with_reducible apply State.migAbort_kept hP
    | with_reducible apply State.put_kept hP
    | with_reducible apply State.takeoverLost_kept hP
    | split

theorem State.sliceFault_kept (hP : Kept P) {s : State} (h : P s) (sl : Nat) (src : Nat) (ss : Nat) : P (State.sliceFault s sl src ss) := by
  unfold State.sliceFault
  repeat' first
    | with_reducible assumption
    | (extract_lets +onlyGivenNames x; refine (fun hx => ?_ : P x → _) ?_; clear_value x; rotate_left; subst x; rotate_right)
    | (extract_lets +onlyGivenNames x; refine (fun hx => ?_ : P x.1 → _) ?_; clear_value x; rotate_left; subst x; rotate_right)
    | (extract_lets +onlyGivenNames x; clear_value x)
    | extract_lets +onlyGivenNames x
    | with_reducible apply ite_kept
    | with_reducible apply ite_fst_kept
    | with_reducible apply State.capEv_kept hP
    | with_reducible apply State.floatFault_kept hP
    | with_reducible apply State.laneEv_kept hP
    | with_reducible apply State.ownFaultWhileServed_kept hP
    | with_reducible apply State.put_kept hP
    | with_reducible apply State.retireSlice_kept hP
    | with_reducible apply State.setSliceState_kept hP
    | with_reducible apply State.st_kept hP
    | with_reducible apply State.takeover_kept hP
    | split

theorem State.takeoverSwap_kept (hP : Kept P) {s : State} (h : P s)  : P (State.takeoverSwap s) := by
  unfold State.takeoverSwap
  repeat' first
    | with_reducible assumption
    | intro _
    | (extract_lets +onlyGivenNames x; refine (fun hx => ?_ : P x → _) ?_; clear_value x; rotate_left; subst x; rotate_right)
    | (extract_lets +onlyGivenNames x; refine (fun hx => ?_ : P x.1 → _) ?_; clear_value x; rotate_left; subst x; rotate_right)
    | (extract_lets +onlyGivenNames x; clear_value x)
    | extract_lets +onlyGivenNames x
    | with_reducible apply State.floatEv_kept hP
    | with_reducible apply State.laneEv_kept hP
    | with_reducible apply State.mg_kept hP
    | with_reducible apply State.retireSlice_kept hP
    | with_reducible apply State.setLane_kept hP
    | with_reducible apply State.setPhase_kept hP
    | with_reducible apply State.swapIn_kept hP
    | (apply Kept.of hP
       · dsimp only <;> exact rfl
       · first | exact id | (intro _; simp_all only [shape, shapeStd, List.cons.injEq, upd_length, List.length_set, List.length_map, List.length_range, List.length_replicate, and_true, true_and, and_self]; done)
       iterate 8 (· exact rfl))

theorem State.takeoverTimeout_kept (hP : Kept P) {s : State} (h : P s) (k : Nat) : P (State.takeoverTimeout s k) := by
  unfold State.takeoverTimeout
  repeat' first
    | with_reducible assumption
    | intro _
    | (extract_lets +onlyGivenNames x; refine (fun hx => ?_ : P x → _) ?_; clear_value x; rotate_left; subst x; rotate_right)
    | (extract_lets +onlyGivenNames x; refine (fun hx => ?_ : P x.1 → _) ?_; clear_value x; rotate_left; subst x; rotate_right)
    | (extract_lets +onlyGivenNames x; clear_value x)
    | extract_lets +onlyGivenNames x
    | with_reducible apply ite_kept
    | with_reducible apply ite_fst_kept
    | with_reducible apply State.floatPark_kept hP
    | with_reducible apply State.mg_kept hP
    | with_reducible apply State.takeoverLost_kept hP
    | split
    | (apply Kept.of hP
       · dsimp only <;> exact rfl
       · first | exact id | (intro _; simp_all only [shape, shapeStd, List.cons.injEq, upd_length, List.length_set, List.length_map, List.length_range, List.length_replicate, and_true, true_and, and_self]; done)
       iterate 8 (· exact rfl))

theorem State.abruptSwap_kept (hP : Kept P) {s : State} (h : P s)  : P (State.abruptSwap s) := by
  unfold State.abruptSwap
  repeat' first
    | with_reducible assumption
    | (extract_lets +onlyGivenNames x; refine (fun hx => ?_ : P x → _) ?_; clear_value x; rotate_left; subst x; rotate_right)
    | (extract_lets +onlyGivenNames x; refine (fun hx => ?_ : P x.1 → _) ?_; clear_value x; rotate_left; subst x; rotate_right)
    | (extract_lets +onlyGivenNames x; clear_value x)
    | extract_lets +onlyGivenNames x
    | with_reducible apply ite_kept
    | with_reducible apply ite_fst_kept
    | with_reducible apply State.beginTakeover_kept hP
    | with_reducible apply State.floatEv_kept hP
    | with_reducible apply State.swapBack_kept hP
    | with_reducible apply State.takeoverLost_kept hP
    | split
    | (refine fst_kept (by assumption) ?_)
    | (apply Kept.of hP
       · dsimp only <;> exact rfl
       · first | exact id | (intro _; simp_all only [shape, shapeStd, List.cons.injEq, upd_length, List.length_set, List.length_map, List.length_range, List.length_replicate, and_true, true_and, and_self]; done)
       iterate 8 (· exact rfl))

theorem State.migCommand_kept (hP : Kept P) {s : State} (h : P s) (r : Nat) (f : State → State) (hf : ∀ t, P t → P (f t)) : P (State.migCommand s r f) := by
  unfold State.migCommand
  repeat' first
    | with_reducible assumption
    | intro _
    | (extract_lets +onlyGivenNames x; refine (fun hx => ?_ : P x → _) ?_; clear_value x; rotate_left; subst x; rotate_right)
    | (extract_lets +onlyGivenNames x; refine (fun hx => ?_ : P x.1 → _) ?_; clear_value x; rotate_left; subst x; rotate_right)
    | (extract_lets +onlyGivenNames x; clear_value x)
    | extract_lets +onlyGivenNames x
    | with_reducible apply ite_kept
    | with_reducible apply ite_fst_kept
    | with_reducible apply State.disarm_kept hP
    | with_reducible apply State.mg_kept hP
    | with_reducible apply State.migDone_kept hP
    | with_reducible apply hf
    | split
    | (apply Kept.of hP
       · dsimp only <;> exact rfl
       · first | exact id | (intro _; simp_all only [shape, shapeStd, List.cons.injEq, upd_length, List.length_set, List.length_map, List.length_range, List.length_replicate, and_true, true_and, and_self]; done)
       iterate 8 (· exact rfl))

theorem State.migNone_kept (hP : Kept P) {s : State} (h : P s)  : P (State.migNone s) := by
  unfold State.migNone
  repeat' first
    | with_reducible assumption
    | with_reducible apply State.disarm_kept hP
    | with_reducible apply State.migDone_kept hP

theorem State.migAbortCmd_kept (hP : Kept P) {s : State} (h : P s)  : P (State.migAbortCmd s) := by
  unfold State.migAbortCmd
  repeat' first
    | with_reducible assumption
    | intro _
    | (extract_lets +onlyGivenNames x; refine (fun hx => ?_ : P x → _) ?_; clear_value x; rotate_left; subst x; rotate_right)
    | (extract_lets +onlyGivenNames x; refine (fun hx => ?_ : P x.1 → _) ?_; clear_value x; rotate_left; subst x; rotate_right)
    | (extract_lets +onlyGivenNames x; clear_value x)
    | extract_lets +onlyGivenNames x
    | with_reducible apply ite_kept
    | with_reducible apply ite_fst_kept
    | with_reducible apply State.disarm_kept hP
    | with_reducible apply State.mg_kept hP
    | with_reducible apply State.migAbort_kept hP
    | with_reducible apply State.migDone_kept hP
    | split
    | (apply Kept.of hP
       · dsimp only <;> exact rfl
       · first | exact id | (intro _; simp_all only [shape, shapeStd, List.cons.injEq, upd_length, List.length_set, List.length_map, List.length_range, List.length_replicate, and_true, true_and, and_self]; done)
       iterate 8 (· exact rfl))

theorem State.agreeSlot_kept (hP : Kept P) {s : State} (h : P s) (k : Nat) (d : Option (Nat × Nat)) : P (State.agreeSlot s k d) := by
  unfold State.agreeSlot
  repeat' first
    | with_reducible assumption
    | intro _
    | (extract_lets +onlyGivenNames x; refine (fun hx => ?_ : P x → _) ?_; clear_value x; rotate_left; subst x; rotate_right)
    | (extract_lets +onlyGivenNames x; refine (fun hx => ?_ : P x.1 → _) ?_; clear_value x; rotate_left; subst x; rotate_right)
    | (extract_lets +onlyGivenNames x; clear_value x)
    | extract_lets +onlyGivenNames x
    | with_reducible apply ite_kept
    | with_reducible apply ite_fst_kept
    | with_reducible apply State.mg_kept hP
    | with_reducible apply State.slots_kept hP
    | split
    | (refine fst_kept (by assumption) ?_)
    | (apply Kept.of hP
       · dsimp only <;> exact rfl
       · first | exact id | (intro _; simp_all only [shape, shapeStd, List.cons.injEq, upd_length, List.length_set, List.length_map, List.length_range, List.length_replicate, and_true, true_and, and_self]; done)
       iterate 8 (· exact rfl))

theorem State.agreeWindow_kept (hP : Kept P) {s : State} (h : P s)  : P (State.agreeWindow s) := by
  unfold State.agreeWindow
  repeat' first
    | with_reducible assumption
    | intro _
    | (extract_lets +onlyGivenNames x; refine (fun hx => ?_ : P x → _) ?_; clear_value x; rotate_left; subst x; rotate_right)
    | (extract_lets +onlyGivenNames x; refine (fun hx => ?_ : P x.1 → _) ?_; clear_value x; rotate_left; subst x; rotate_right)
    | (extract_lets +onlyGivenNames x; clear_value x)
    | extract_lets +onlyGivenNames x
    | with_reducible apply ite_kept
    | with_reducible apply ite_fst_kept
    | with_reducible apply State.latchPar_kept hP
    | with_reducible apply State.mg_kept hP
    | with_reducible apply State.migAbort_kept hP
    | with_reducible apply State.put_kept hP
    | with_reducible apply State.setPhase_kept hP
    | split
    | (apply Kept.of hP
       · dsimp only <;> exact rfl
       · first | exact id | (intro _; simp_all only [shape, shapeStd, List.cons.injEq, upd_length, List.length_set, List.length_map, List.length_range, List.length_replicate, and_true, true_and, and_self]; done)
       iterate 8 (· exact rfl))

theorem State.migTick_kept (hP : Kept P) {s : State} (h : P s)  : P (State.migTick s) := by
  unfold State.migTick
  repeat' first
    | with_reducible assumption
    | intro _
    | (extract_lets +onlyGivenNames x; refine (fun hx => ?_ : P x → _) ?_; clear_value x; rotate_left; subst x; rotate_right)
    | (extract_lets +onlyGivenNames x; refine (fun hx => ?_ : P x.1 → _) ?_; clear_value x; rotate_left; subst x; rotate_right)
    | (extract_lets +onlyGivenNames x; clear_value x)
    | extract_lets +onlyGivenNames x
    | with_reducible apply ite_kept
    | with_reducible apply ite_fst_kept
    | with_reducible apply State.candidateOther_kept hP
    | with_reducible apply State.mg_kept hP
    | with_reducible apply State.setPhase_kept hP
    | split
    | (apply Kept.of hP
       · dsimp only <;> exact rfl
       · first | exact id | (intro _; simp_all only [shape, shapeStd, List.cons.injEq, upd_length, List.length_set, List.length_map, List.length_range, List.length_replicate, and_true, true_and, and_self]; done)
       iterate 8 (· exact rfl))

theorem State.candidateLost_kept (hP : Kept P) {s : State} (h : P s) (sl : Nat) : P (State.candidateLost s sl) := by
  unfold State.candidateLost
  repeat' first
    | with_reducible assumption
    | with_reducible apply ite_kept
    | with_reducible apply ite_fst_kept
    | with_reducible apply State.migAbort_kept hP
    | split

theorem State.obsRestart_kept (hP : Kept P) {s : State} (h : P s) (again : Bool) : P (State.obsRestart s again) := by
  unfold State.obsRestart
  repeat' first
    | with_reducible assumption
    | (extract_lets +onlyGivenNames x; refine (fun hx => ?_ : P x → _) ?_; clear_value x; rotate_left; subst x; rotate_right)
    | (extract_lets +onlyGivenNames x; refine (fun hx => ?_ : P x.1 → _) ?_; clear_value x; rotate_left; subst x; rotate_right)
    | (extract_lets +onlyGivenNames x; clear_value x)
    | extract_lets +onlyGivenNames x
    | with_reducible apply State.put_kept hP
    | (apply Kept.of hP
       · dsimp only <;> exact rfl
       · first | exact id | (intro _; simp_all only [shape, shapeStd, List.cons.injEq, upd_length, List.length_set, List.length_map, List.length_range, List.length_replicate, and_true, true_and, and_self]; done)
       iterate 8 (· exact rfl))

theorem State.obsLost_kept (hP : Kept P) {s : State} (h : P s)  : P (State.obsLost s) := by
  unfold State.obsLost
  repeat' first
    | with_reducible assumption
    | with_reducible apply ite_kept
    | with_reducible apply ite_fst_kept
    | with_reducible apply State.obsRestart_kept hP
    | with_reducible apply State.put_kept hP
    | split

theorem State.lockWindow_kept (hP : Kept P) {s : State} (h : P s) (sl : Nat) (pass : Bool) : P (State.lockWindow s sl pass) := by
  unfold State.lockWindow
  repeat' first
    | with_reducible assumption
    | intro _
    | (extract_lets +onlyGivenNames x; refine (fun hx => ?_ : P x → _) ?_; clear_value x; rotate_left; subst x; rotate_right)
    | (extract_lets +onlyGivenNames x; refine (fun hx => ?_ : P x.1 → _) ?_; clear_value x; rotate_left; subst x; rotate_right)
    | (extract_lets +onlyGivenNames x; clear_value x)
    | extract_lets +onlyGivenNames x
    | with_reducible apply ite_kept
    | with_reducible apply ite_fst_kept
    | with_reducible apply whenB_kept
    | with_reducible apply State.candidateLost_kept hP
    | with_reducible apply State.obsLost_kept hP
    | with_reducible apply State.probeStop_kept hP
    | with_reducible apply State.setSlice_kept hP
    | with_reducible apply State.sliceEv_kept hP
    | split
    | (apply Kept.of hP
       · dsimp only <;> exact rfl
       · first | exact id | (intro _; simp_all only [shape, shapeStd, List.cons.injEq, upd_length, List.length_set, List.length_map, List.length_range, List.length_replicate, and_true, true_and, and_self]; done)
       iterate 8 (· exact rfl))

theorem State.huntCycle_kept (hP : Kept P) {s : State} (h : P s) (k : Nat) : P (State.huntCycle s k) := by
  unfold State.huntCycle
  repeat' first
    | with_reducible assumption
    | intro _
    | (extract_lets +onlyGivenNames x; refine (fun hx => ?_ : P x → _) ?_; clear_value x; rotate_left; subst x; rotate_right)
    | (extract_lets +onlyGivenNames x; refine (fun hx => ?_ : P x.1 → _) ?_; clear_value x; rotate_left; subst x; rotate_right)
    | (extract_lets +onlyGivenNames x; clear_value x)
    | extract_lets +onlyGivenNames x
    | with_reducible apply ite_kept
    | with_reducible apply ite_fst_kept
    | with_reducible apply State.setLane_kept hP
    | with_reducible apply State.st_kept hP
    | split
    | (apply Kept.of hP
       · dsimp only <;> exact rfl
       · first | exact id | (intro _; simp_all only [shape, shapeStd, List.cons.injEq, upd_length, List.length_set, List.length_map, List.length_range, List.length_replicate, and_true, true_and, and_self]; done)
       iterate 8 (· exact rfl))

theorem State.cycleStep_kept (hP : Kept P) {s : State} (h : P s) (sl : Nat) (u : Int × Int) : P (State.cycleStep s sl u) := by
  unfold State.cycleStep
  repeat' first
    | with_reducible assumption
    | intro _
    | (extract_lets +onlyGivenNames x; refine (fun hx => ?_ : P x → _) ?_; clear_value x; rotate_left; subst x; rotate_right)
    | (extract_lets +onlyGivenNames x; refine (fun hx => ?_ : P x.1 → _) ?_; clear_value x; rotate_left; subst x; rotate_right)
    | (extract_lets +onlyGivenNames x; clear_value x)
    | extract_lets +onlyGivenNames x
    | with_reducible apply ite_kept
    | with_reducible apply ite_fst_kept
    | with_reducible apply whenB_kept
    | with_reducible apply State.huntCycle_kept hP
    | with_reducible apply State.lockWindow_kept hP
    | with_reducible apply State.setSlice_kept hP
    | with_reducible apply State.timingCycle_kept hP
    | split
    | (refine fst_kept (by assumption) ?_)
    | (apply Kept.of hP
       · dsimp only <;> exact rfl
       · first | exact id | (intro _; simp_all only [shape, shapeStd, List.cons.injEq, upd_length, List.length_set, List.length_map, List.length_range, List.length_replicate, and_true, true_and, and_self]; done)
       iterate 8 (· exact rfl))

theorem State.sliceFlow_kept (hP : Kept P) {s : State} (h : P s) (sl : Nat) (r : RxCodes) : P (State.sliceFlow s sl r) := by
  unfold State.sliceFlow
  repeat' first
    | with_reducible assumption
    | intro _
    | (extract_lets +onlyGivenNames x; refine (fun hx => ?_ : P x → _) ?_; clear_value x; rotate_left; subst x; rotate_right)
    | (extract_lets +onlyGivenNames x; refine (fun hx => ?_ : P x.1 → _) ?_; clear_value x; rotate_left; subst x; rotate_right)
    | (extract_lets +onlyGivenNames x; clear_value x)
    | extract_lets +onlyGivenNames x
    | with_reducible apply ite_kept
    | with_reducible apply ite_fst_kept
    | with_reducible apply whenB_kept
    | with_reducible apply each_kept
    | with_reducible apply State.cycleStep_kept hP
    | with_reducible apply State.inc_kept hP
    | with_reducible apply State.satCount_kept hP
    | with_reducible apply State.setSlice_kept hP
    | split
    | (apply Kept.of hP
       · dsimp only <;> exact rfl
       · first | exact id | (intro _; simp_all only [shape, shapeStd, List.cons.injEq, upd_length, List.length_set, List.length_map, List.length_range, List.length_replicate, and_true, true_and, and_self]; done)
       iterate 8 (· exact rfl))

theorem State.noiseStart_kept (hP : Kept P) {s : State} (h : P s) (sl : Nat) : P (State.noiseStart s sl) := by
  unfold State.noiseStart
  repeat' first
    | with_reducible assumption
    | intro _
    | (extract_lets +onlyGivenNames x; refine (fun hx => ?_ : P x → _) ?_; clear_value x; rotate_left; subst x; rotate_right)
    | (extract_lets +onlyGivenNames x; refine (fun hx => ?_ : P x.1 → _) ?_; clear_value x; rotate_left; subst x; rotate_right)
    | (extract_lets +onlyGivenNames x; clear_value x)
    | extract_lets +onlyGivenNames x
    | with_reducible apply ite_kept
    | with_reducible apply ite_fst_kept
    | with_reducible apply State.isEngage_kept hP
    | with_reducible apply State.laneEv_kept hP
    | with_reducible apply State.put_kept hP
    | with_reducible apply State.setSlice_kept hP
    | split
    | (apply Kept.of hP
       · dsimp only <;> exact rfl
       · first | exact id | (intro _; simp_all only [shape, shapeStd, List.cons.injEq, upd_length, List.length_set, List.length_map, List.length_range, List.length_replicate, and_true, true_and, and_self]; done)
       iterate 8 (· exact rfl))

theorem State.noiseDone_kept (hP : Kept P) {s : State} (h : P s) (sl : Nat) (worst : Nat) (worstRms : Nat) (allRms : Nat) : P (State.noiseDone s sl worst worstRms allRms) := by
  unfold State.noiseDone
  repeat' first
    | with_reducible assumption
    | intro _
    | (extract_lets +onlyGivenNames x; refine (fun hx => ?_ : P x → _) ?_; clear_value x; rotate_left; subst x; rotate_right)
    | (extract_lets +onlyGivenNames x; refine (fun hx => ?_ : P x.1 → _) ?_; clear_value x; rotate_left; subst x; rotate_right)
    | (extract_lets +onlyGivenNames x; clear_value x)
    | extract_lets +onlyGivenNames x
    | with_reducible apply State.connectSlice_kept hP
    | with_reducible apply State.laneEv_kept hP
    | with_reducible apply State.put_kept hP
    | with_reducible apply State.setLive_kept hP
    | with_reducible apply State.setSlice_kept hP
    | (apply Kept.of hP
       · dsimp only <;> exact rfl
       · first | exact id | (intro _; simp_all only [shape, shapeStd, List.cons.injEq, upd_length, List.length_set, List.length_map, List.length_range, List.length_replicate, and_true, true_and, and_self]; done)
       iterate 8 (· exact rfl))

theorem State.floatCalEnd_kept (hP : Kept P) {s : State} (h : P s) (ok : Bool) : P (State.floatCalEnd s ok) := by
  unfold State.floatCalEnd
  repeat' first
    | with_reducible assumption
    | (extract_lets +onlyGivenNames x; refine (fun hx => ?_ : P x → _) ?_; clear_value x; rotate_left; subst x; rotate_right)
    | (extract_lets +onlyGivenNames x; refine (fun hx => ?_ : P x.1 → _) ?_; clear_value x; rotate_left; subst x; rotate_right)
    | (extract_lets +onlyGivenNames x; clear_value x)
    | extract_lets +onlyGivenNames x
    | with_reducible apply ite_kept
    | with_reducible apply ite_fst_kept
    | with_reducible apply State.floatEv_kept hP
    | with_reducible apply State.floatPark_kept hP
    | with_reducible apply State.migDone_kept hP
    | with_reducible apply State.put_kept hP
    | with_reducible apply State.setSliceState_kept hP
    | split

theorem State.fcalDone_kept (hP : Kept P) {s : State} (h : P s) (sl : Nat) (m : CalMeas) (m' : CalMeas) : P (State.fcalDone s sl m m') := by
  unfold State.fcalDone
  repeat' first
    | with_reducible assumption
    | intro _
    | (extract_lets +onlyGivenNames x; refine (fun hx => ?_ : P x → _) ?_; clear_value x; rotate_left; subst x; rotate_right)
    | (extract_lets +onlyGivenNames x; refine (fun hx => ?_ : P x.1 → _) ?_; clear_value x; rotate_left; subst x; rotate_right)
    | (extract_lets +onlyGivenNames x; clear_value x)
    | extract_lets +onlyGivenNames x
    | with_reducible apply ite_kept
    | with_reducible apply ite_fst_kept
    | with_reducible apply State.fcalFail_kept hP
    | with_reducible apply State.fcalPass_kept hP
    | with_reducible apply State.floatCalEnd_kept hP
    | with_reducible apply State.retireSlice_kept hP
    | with_reducible apply State.setCal_kept hP
    | with_reducible apply State.setLive_kept hP
    | with_reducible apply State.setPhase_kept hP
    | split
    | (apply Kept.of hP
       · dsimp only <;> exact rfl
       · first | exact id | (intro _; simp_all only [shape, shapeStd, List.cons.injEq, upd_length, List.length_set, List.length_map, List.length_range, List.length_replicate, and_true, true_and, and_self]; done)
       iterate 8 (· exact rfl))

theorem State.fcalTick_kept (hP : Kept P) {s : State} (h : P s) (sl : Nat) : P (State.fcalTick s sl) := by
  unfold State.fcalTick
  repeat' first
    | with_reducible assumption
    | intro _
    | (extract_lets +onlyGivenNames x; refine (fun hx => ?_ : P x → _) ?_; clear_value x; rotate_left; subst x; rotate_right)
    | (extract_lets +onlyGivenNames x; refine (fun hx => ?_ : P x.1 → _) ?_; clear_value x; rotate_left; subst x; rotate_right)
    | (extract_lets +onlyGivenNames x; clear_value x)
    | extract_lets +onlyGivenNames x
    | with_reducible apply ite_kept
    | with_reducible apply ite_fst_kept
    | with_reducible apply State.fcalStop_kept hP
    | with_reducible apply State.migAbort_kept hP
    | with_reducible apply State.put_kept hP
    | with_reducible apply State.setCal_kept hP
    | with_reducible apply State.st_kept hP
    | split
    | (apply Kept.of hP
       · dsimp only <;> exact rfl
       · first | exact id | (intro _; simp_all only [shape, shapeStd, List.cons.injEq, upd_length, List.length_set, List.length_map, List.length_range, List.length_replicate, and_true, true_and, and_self]; done)
       iterate 8 (· exact rfl))

theorem State.remapRetired_kept (hP : Kept P) {s : State} (h : P s) (k : Nat) : P (State.remapRetired s k) := by
  unfold State.remapRetired
  repeat' first
    | with_reducible assumption
    | with_reducible apply ite_kept
    | with_reducible apply ite_fst_kept
    | with_reducible apply State.takeover_kept hP
    | with_reducible apply State.takeoverLost_kept hP
    | split

end Sys2Proof.Machine
end

