-- ==== Sys2Proof/Laws/KeptCapture.lean ====
section
/-! SUPPORT. What the operations of `Sys2Proof.Machine.Capture` keep (`Sys2Proof.Laws.Kept`). -/
namespace Sys2Proof.Machine
open State
set_option linter.all false
variable {P : State → Prop}

theorem State.cp_kept (hP : Kept P) {s : State} (h : P s) (f : Cap → Cap) : P (State.cp s f) := by
  unfold State.cp
  repeat' first
    | with_reducible assumption
    | (extract_lets +onlyGivenNames x; refine (fun hx => ?_ : P x → _) ?_; clear_value x; rotate_left; subst x; rotate_right)
    | (extract_lets +onlyGivenNames x; refine (fun hx => ?_ : P x.1 → _) ?_; clear_value x; rotate_left; subst x; rotate_right)
    | (extract_lets +onlyGivenNames x; clear_value x)
    | extract_lets +onlyGivenNames x
    | (apply Kept.of hP
       · dsimp only <;> exact rfl
       · first | exact id | (intro _; simp_all only [shape, shapeStd, List.cons.injEq, upd_length, List.length_set, List.length_map, List.length_range, List.length_replicate, and_true, true_and, and_self]; done)
       iterate 8 (· exact rfl))

theorem State.setCapState_kept (hP : Kept P) {s : State} (h : P s) (v : Nat) : P (State.setCapState s v) := by
  unfold State.setCapState
  repeat' first
    | with_reducible assumption
    | with_reducible apply State.put_kept hP

theorem State.engineEv_kept (hP : Kept P) {s : State} (h : P s) (f : FRef) : P (State.engineEv s f) := by
  unfold State.engineEv
  repeat' first
    | with_reducible assumption
    | with_reducible apply State.ev_kept hP
    | with_reducible apply State.seqEv_kept hP

theorem State.enterPrefill_kept (hP : Kept P) {s : State} (h : P s)  : P (State.enterPrefill s) := by
  unfold State.enterPrefill
  repeat' first
    | with_reducible assumption
    | intro _
    | (extract_lets +onlyGivenNames x; refine (fun hx => ?_ : P x → _) ?_; clear_value x; rotate_left; subst x; rotate_right)
    | (extract_lets +onlyGivenNames x; refine (fun hx => ?_ : P x.1 → _) ?_; clear_value x; rotate_left; subst x; rotate_right)
    | (extract_lets +onlyGivenNames x; clear_value x)
    | extract_lets +onlyGivenNames x
    | with_reducible apply each_kept
    | with_reducible apply State.cp_kept hP
    | with_reducible apply State.memWrites_kept hP
    | with_reducible apply State.put_kept hP
    | with_reducible apply State.setCapState_kept hP
    | (apply Kept.of hP
       · dsimp only <;> exact rfl
       · first | exact id | (intro _; simp_all only [shape, shapeStd, List.cons.injEq, upd_length, List.length_set, List.length_map, List.length_range, List.length_replicate, and_true, true_and, and_self]; done)
       iterate 8 (· exact rfl))

theorem State.putStreamWord_kept (hP : Kept P) {s : State} (h : P s) (x : Nat) (words : Nat) (w : Nat) : P (State.putStreamWord s x words w) := by
  unfold State.putStreamWord
  repeat' first
    | with_reducible assumption
    | with_reducible apply State.memWrite_kept hP

theorem State.streamItem_kept (hP : Kept P) {s : State} (h : P s) (t : CapStream) (v : Int) : P (State.streamItem s t v).1 := by
  unfold State.streamItem
  repeat' first
    | with_reducible assumption
    | (extract_lets +onlyGivenNames x; refine (fun hx => ?_ : P x → _) ?_; clear_value x; rotate_left; subst x; rotate_right)
    | (extract_lets +onlyGivenNames x; refine (fun hx => ?_ : P x.1 → _) ?_; clear_value x; rotate_left; subst x; rotate_right)
    | (extract_lets +onlyGivenNames x; clear_value x)
    | extract_lets +onlyGivenNames x
    | with_reducible apply ite_kept
    | with_reducible apply ite_fst_kept
    | with_reducible apply State.memRead_kept hP
    | with_reducible apply State.memWrite_kept hP
    | with_reducible apply State.putStreamWord_kept hP
    | with_reducible apply State.take_kept hP
    | split
    | (refine fst_kept (by assumption) ?_)
    | (apply Kept.of hP
       · dsimp only <;> exact rfl
       · first | exact id | (intro _; simp_all only [shape, shapeStd, List.cons.injEq, upd_length, List.length_set, List.length_map, List.length_range, List.length_replicate, and_true, true_and, and_self]; done)
       iterate 8 (· exact rfl))

theorem State.capItems_kept (hP : Kept P) {s : State} (h : P s) (c : CapCycle) : P (State.capItems s c) := by
  unfold State.capItems
  refine State.cp_kept hP (foldl_fst_kept h fun p t hp => ?_) _
  dsimp only
  split
  · exact hp
  · split
    · exact hp
    · exact State.streamItem_kept hP hp _ _

theorem State.capFront_kept (hP : Kept P) {s : State} (h : P s) (c : CapCycle) : P (State.capFront s c) := by
  unfold State.capFront
  repeat' first
    | with_reducible assumption
    | (extract_lets +onlyGivenNames x; refine (fun hx => ?_ : P x → _) ?_; clear_value x; rotate_left; subst x; rotate_right)
    | (extract_lets +onlyGivenNames x; refine (fun hx => ?_ : P x.1 → _) ?_; clear_value x; rotate_left; subst x; rotate_right)
    | (extract_lets +onlyGivenNames x; clear_value x)
    | extract_lets +onlyGivenNames x
    | with_reducible apply ite_kept
    | with_reducible apply ite_fst_kept
    | with_reducible apply State.capItems_kept hP
    | with_reducible apply State.setCapState_kept hP
    | split

theorem State.capEnd_kept (hP : Kept P) {s : State} (h : P s) (st : Nat) (suspended : Bool) (aborted : Bool) : P (State.capEnd s st suspended aborted) := by
  unfold State.capEnd
  repeat' first
    | with_reducible assumption
    | intro _
    | (extract_lets +onlyGivenNames x; refine (fun hx => ?_ : P x → _) ?_; clear_value x; rotate_left; subst x; rotate_right)
    | (extract_lets +onlyGivenNames x; refine (fun hx => ?_ : P x.1 → _) ?_; clear_value x; rotate_left; subst x; rotate_right)
    | (extract_lets +onlyGivenNames x; clear_value x)
    | extract_lets +onlyGivenNames x
    | with_reducible apply ite_kept
    | with_reducible apply ite_fst_kept
    | with_reducible apply each_kept
    | with_reducible apply State.cp_kept hP
    | with_reducible apply State.engineEv_kept hP
    | with_reducible apply State.enterRecord_kept hP
    | with_reducible apply State.put_kept hP
    | with_reducible apply State.putStreamWord_kept hP
    | with_reducible apply State.setCapState_kept hP
    | with_reducible apply State.st_kept hP
    | split
    | (refine fst_kept (by assumption) ?_)
    | (apply Kept.of hP
       · dsimp only <;> exact rfl
       · first | exact id | (intro _; simp_all only [shape, shapeStd, List.cons.injEq, upd_length, List.length_set, List.length_map, List.length_range, List.length_replicate, and_true, true_and, and_self]; done)
       iterate 8 (· exact rfl))

theorem State.capTrigger_kept (hP : Kept P) {s : State} (h : P s) (c : CapCycle) : P (State.capTrigger s c) := by
  unfold State.capTrigger
  repeat' first
    | with_reducible assumption
    | intro _
    | (extract_lets +onlyGivenNames x; refine (fun hx => ?_ : P x → _) ?_; clear_value x; rotate_left; subst x; rotate_right)
    | (extract_lets +onlyGivenNames x; refine (fun hx => ?_ : P x.1 → _) ?_; clear_value x; rotate_left; subst x; rotate_right)
    | (extract_lets +onlyGivenNames x; clear_value x)
    | extract_lets +onlyGivenNames x
    | with_reducible apply State.cp_kept hP
    | with_reducible apply State.setCapState_kept hP
    | (apply Kept.of hP
       · dsimp only <;> exact rfl
       · first | exact id | (intro _; simp_all only [shape, shapeStd, List.cons.injEq, upd_length, List.length_set, List.length_map, List.length_range, List.length_replicate, and_true, true_and, and_self]; done)
       iterate 8 (· exact rfl))

theorem State.capIgnore_kept (hP : Kept P) {s : State} (h : P s) (f : FRef) : P (State.capIgnore s f) := by
  unfold State.capIgnore
  repeat' first
    | with_reducible assumption
    | intro _
    | (extract_lets +onlyGivenNames x; refine (fun hx => ?_ : P x → _) ?_; clear_value x; rotate_left; subst x; rotate_right)
    | (extract_lets +onlyGivenNames x; refine (fun hx => ?_ : P x.1 → _) ?_; clear_value x; rotate_left; subst x; rotate_right)
    | (extract_lets +onlyGivenNames x; clear_value x)
    | extract_lets +onlyGivenNames x
    | with_reducible apply State.cp_kept hP
    | with_reducible apply State.engineEv_kept hP
    | with_reducible apply State.inc_kept hP
    | (apply Kept.of hP
       · dsimp only <;> exact rfl
       · first | exact id | (intro _; simp_all only [shape, shapeStd, List.cons.injEq, upd_length, List.length_set, List.length_map, List.length_range, List.length_replicate, and_true, true_and, and_self]; done)
       iterate 8 (· exact rfl))

theorem State.capAction_kept (hP : Kept P) {s : State} (h : P s) (act : Nat) (c : CapCycle) : P (State.capAction s act c) := by
  unfold State.capAction
  repeat' first
    | with_reducible assumption
    | intro _
    | (extract_lets +onlyGivenNames x; refine (fun hx => ?_ : P x → _) ?_; clear_value x; rotate_left; subst x; rotate_right)
    | (extract_lets +onlyGivenNames x; refine (fun hx => ?_ : P x.1 → _) ?_; clear_value x; rotate_left; subst x; rotate_right)
    | (extract_lets +onlyGivenNames x; clear_value x)
    | extract_lets +onlyGivenNames x
    | with_reducible apply ite_kept
    | with_reducible apply ite_fst_kept
    | with_reducible apply each_kept
    | with_reducible apply State.act_kept hP
    | with_reducible apply State.capEnd_kept hP
    | with_reducible apply State.capIgnore_kept hP
    | with_reducible apply State.capTrigger_kept hP
    | with_reducible apply State.cp_kept hP
    | with_reducible apply State.setCapState_kept hP
    | with_reducible apply State.setLink_kept hP
    | with_reducible apply State.st_kept hP
    | split
    | (apply Kept.of hP
       · dsimp only <;> exact rfl
       · first | exact id | (intro _; simp_all only [shape, shapeStd, List.cons.injEq, upd_length, List.length_set, List.length_map, List.length_range, List.length_replicate, and_true, true_and, and_self]; done)
       iterate 8 (· exact rfl))

theorem State.stencilMove_kept (hP : Kept P) {s : State} (h : P s) (act : Nat) (q : Nat) (c : CapCycle) : P (State.stencilMove s act q c) := by
  unfold State.stencilMove
  repeat' first
    | with_reducible assumption
    | intro _
    | (extract_lets +onlyGivenNames x; refine (fun hx => ?_ : P x → _) ?_; clear_value x; rotate_left; subst x; rotate_right)
    | (extract_lets +onlyGivenNames x; refine (fun hx => ?_ : P x.1 → _) ?_; clear_value x; rotate_left; subst x; rotate_right)
    | (extract_lets +onlyGivenNames x; clear_value x)
    | extract_lets +onlyGivenNames x
    | with_reducible apply ite_kept
    | with_reducible apply ite_fst_kept
    | with_reducible apply State.act_kept hP
    | with_reducible apply State.capAction_kept hP
    | with_reducible apply State.capEnd_kept hP
    | with_reducible apply State.cp_kept hP
    | with_reducible apply State.put_kept hP
    | split
    | (apply Kept.of hP
       · dsimp only <;> exact rfl
       · first | exact id | (intro _; simp_all only [shape, shapeStd, List.cons.injEq, upd_length, List.length_set, List.length_map, List.length_range, List.length_replicate, and_true, true_and, and_self]; done)
       iterate 8 (· exact rfl))

theorem State.capBack_kept (hP : Kept P) {s : State} (h : P s) (c : CapCycle) : P (State.capBack s c) := by
  unfold State.capBack
  repeat' first
    | with_reducible assumption
    | intro _
    | (extract_lets +onlyGivenNames x; refine (fun hx => ?_ : P x → _) ?_; clear_value x; rotate_left; subst x; rotate_right)
    | (extract_lets +onlyGivenNames x; refine (fun hx => ?_ : P x.1 → _) ?_; clear_value x; rotate_left; subst x; rotate_right)
    | (extract_lets +onlyGivenNames x; clear_value x)
    | extract_lets +onlyGivenNames x
    | with_reducible apply ite_kept
    | with_reducible apply ite_fst_kept
    | with_reducible apply State.act_kept hP
    | with_reducible apply State.capEnd_kept hP
    | with_reducible apply State.capTrigger_kept hP
    | with_reducible apply State.cp_kept hP
    | with_reducible apply State.ev_kept hP
    | with_reducible apply State.stencilMove_kept hP
    | split
    | (refine fst_kept (by assumption) ?_)
    | (apply Kept.of hP
       · dsimp only <;> exact rfl
       · first | exact id | (intro _; simp_all only [shape, shapeStd, List.cons.injEq, upd_length, List.length_set, List.length_map, List.length_range, List.length_replicate, and_true, true_and, and_self]; done)
       iterate 8 (· exact rfl))

theorem State.capCycle_kept (hP : Kept P) {s : State} (h : P s) (c : CapCycle) : P (State.capCycle s c) := by
  unfold State.capCycle
  repeat' first
    | with_reducible assumption
    | with_reducible apply ite_kept
    | with_reducible apply ite_fst_kept
    | with_reducible apply State.capBack_kept hP
    | with_reducible apply State.capFront_kept hP
    | split

theorem State.capCommand_kept (hP : Kept P) {s : State} (h : P s) (cmd : Nat) (f : State → State) (hf : ∀ t, P t → P (f t)) : P (State.capCommand s cmd f) := by
  unfold State.capCommand
  repeat' first
    | with_reducible assumption
    | with_reducible apply ite_kept
    | with_reducible apply ite_fst_kept
    | with_reducible apply State.disarm_kept hP
    | with_reducible apply hf
    | split

theorem State.capArm_kept (hP : Kept P) {s : State} (h : P s)  : P (State.capArm s) := by
  unfold State.capArm
  repeat' first
    | with_reducible assumption
    | (extract_lets +onlyGivenNames x; refine (fun hx => ?_ : P x → _) ?_; clear_value x; rotate_left; subst x; rotate_right)
    | (extract_lets +onlyGivenNames x; refine (fun hx => ?_ : P x.1 → _) ?_; clear_value x; rotate_left; subst x; rotate_right)
    | (extract_lets +onlyGivenNames x; clear_value x)
    | extract_lets +onlyGivenNames x
    | with_reducible apply ite_kept
    | with_reducible apply ite_fst_kept
    | with_reducible apply State.engineEv_kept hP
    | with_reducible apply State.enterPrefill_kept hP
    | with_reducible apply State.put_kept hP
    | with_reducible apply State.useFree_kept hP
    | split
    | (refine fst_kept (by assumption) ?_)
    | (apply Kept.of hP
       · dsimp only <;> exact rfl
       · first | exact id | (intro _; simp_all only [shape, shapeStd, List.cons.injEq, upd_length, List.length_set, List.length_map, List.length_range, List.length_replicate, and_true, true_and, and_self]; done)
       iterate 8 (· exact rfl))

theorem State.capAbort_kept (hP : Kept P) {s : State} (h : P s)  : P (State.capAbort s) := by
  unfold State.capAbort
  repeat' first
    | with_reducible assumption
    | intro _
    | (extract_lets +onlyGivenNames x; refine (fun hx => ?_ : P x → _) ?_; clear_value x; rotate_left; subst x; rotate_right)
    | (extract_lets +onlyGivenNames x; refine (fun hx => ?_ : P x.1 → _) ?_; clear_value x; rotate_left; subst x; rotate_right)
    | (extract_lets +onlyGivenNames x; clear_value x)
    | extract_lets +onlyGivenNames x
    | with_reducible apply ite_kept
    | with_reducible apply ite_fst_kept
    | with_reducible apply State.capEnd_kept hP
    | with_reducible apply State.cp_kept hP
    | with_reducible apply State.setCapState_kept hP
    | split
    | (apply Kept.of hP
       · dsimp only <;> exact rfl
       · first | exact id | (intro _; simp_all only [shape, shapeStd, List.cons.injEq, upd_length, List.length_set, List.length_map, List.length_range, List.length_replicate, and_true, true_and, and_self]; done)
       iterate 8 (· exact rfl))

theorem State.capRelease_kept (hP : Kept P) {s : State} (h : P s)  : P (State.capRelease s) := by
  unfold State.capRelease
  repeat' first
    | with_reducible assumption
    | intro _
    | (extract_lets +onlyGivenNames x; refine (fun hx => ?_ : P x → _) ?_; clear_value x; rotate_left; subst x; rotate_right)
    | (extract_lets +onlyGivenNames x; refine (fun hx => ?_ : P x.1 → _) ?_; clear_value x; rotate_left; subst x; rotate_right)
    | (extract_lets +onlyGivenNames x; clear_value x)
    | extract_lets +onlyGivenNames x
    | with_reducible apply ite_kept
    | with_reducible apply ite_fst_kept
    | with_reducible apply State.cp_kept hP
    | with_reducible apply State.put_kept hP
    | split
    | (apply Kept.of hP
       · dsimp only <;> exact rfl
       · first | exact id | (intro _; simp_all only [shape, shapeStd, List.cons.injEq, upd_length, List.length_set, List.length_map, List.length_range, List.length_replicate, and_true, true_and, and_self]; done)
       iterate 8 (· exact rfl))

theorem State.schedLoad_kept (hP : Kept P) {s : State} (h : P s) (t : Int) : P (State.schedLoad s t) := by
  unfold State.schedLoad
  repeat' first
    | with_reducible assumption
    | with_reducible apply ite_kept
    | with_reducible apply ite_fst_kept
    | with_reducible apply State.engineEv_kept hP
    | with_reducible apply State.put_kept hP
    | with_reducible apply State.setLive_kept hP
    | split

theorem State.capSched_kept (hP : Kept P) {s : State} (h : P s)  : P (State.capSched s) := by
  unfold State.capSched
  repeat' first
    | with_reducible assumption
    | with_reducible apply State.schedLoad_kept hP

theorem State.schedFire_kept (hP : Kept P) {s : State} (h : P s) (p : Nat) : P (State.schedFire s p) := by
  unfold State.schedFire
  repeat' first
    | with_reducible assumption
    | (extract_lets +onlyGivenNames x; refine (fun hx => ?_ : P x → _) ?_; clear_value x; rotate_left; subst x; rotate_right)
    | (extract_lets +onlyGivenNames x; refine (fun hx => ?_ : P x.1 → _) ?_; clear_value x; rotate_left; subst x; rotate_right)
    | (extract_lets +onlyGivenNames x; clear_value x)
    | extract_lets +onlyGivenNames x
    | with_reducible apply ite_kept
    | with_reducible apply ite_fst_kept
    | with_reducible apply State.capEv_kept hP
    | with_reducible apply State.put_kept hP
    | split

theorem State.trigAt_kept (hP : Kept P) {s : State} (h : P s) (t : Int) (num : Nat) : P (State.trigAt s t num) := by
  unfold State.trigAt
  repeat' first
    | with_reducible assumption
    | with_reducible apply ite_kept
    | with_reducible apply ite_fst_kept
    | with_reducible apply State.capEv_kept hP
    | with_reducible apply State.schedLoad_kept hP
    | split

theorem State.trigRx_kept (hP : Kept P) {s : State} (h : P s) (j : Nat) (t : Int) : P (State.trigRx s j t) := by
  unfold State.trigRx
  repeat' first
    | with_reducible assumption
    | intro _
    | (extract_lets +onlyGivenNames x; refine (fun hx => ?_ : P x → _) ?_; clear_value x; rotate_left; subst x; rotate_right)
    | (extract_lets +onlyGivenNames x; refine (fun hx => ?_ : P x.1 → _) ?_; clear_value x; rotate_left; subst x; rotate_right)
    | (extract_lets +onlyGivenNames x; clear_value x)
    | extract_lets +onlyGivenNames x
    | with_reducible apply ite_kept
    | with_reducible apply ite_fst_kept
    | with_reducible apply State.cp_kept hP
    | with_reducible apply State.linkEv_kept hP
    | split
    | (apply Kept.of hP
       · dsimp only <;> exact rfl
       · first | exact id | (intro _; simp_all only [shape, shapeStd, List.cons.injEq, upd_length, List.length_set, List.length_map, List.length_range, List.length_replicate, and_true, true_and, and_self]; done)
       iterate 8 (· exact rfl))

theorem State.capRearm_kept (hP : Kept P) {s : State} (h : P s)  : P (State.capRearm s) := by
  unfold State.capRearm
  repeat' first
    | with_reducible assumption
    | intro _
    | (extract_lets +onlyGivenNames x; refine (fun hx => ?_ : P x → _) ?_; clear_value x; rotate_left; subst x; rotate_right)
    | (extract_lets +onlyGivenNames x; refine (fun hx => ?_ : P x.1 → _) ?_; clear_value x; rotate_left; subst x; rotate_right)
    | (extract_lets +onlyGivenNames x; clear_value x)
    | extract_lets +onlyGivenNames x
    | with_reducible apply ite_kept
    | with_reducible apply ite_fst_kept
    | with_reducible apply State.cp_kept hP
    | with_reducible apply State.enterPrefill_kept hP
    | with_reducible apply State.setCapState_kept hP
    | with_reducible apply State.st_kept hP
    | split
    | (refine fst_kept (by assumption) ?_)
    | (apply Kept.of hP
       · dsimp only <;> exact rfl
       · first | exact id | (intro _; simp_all only [shape, shapeStd, List.cons.injEq, upd_length, List.length_set, List.length_map, List.length_range, List.length_replicate, and_true, true_and, and_self]; done)
       iterate 8 (· exact rfl))

theorem State.capClockRefresh_kept (hP : Kept P) {s : State} (h : P s)  : P (State.capClockRefresh s) := by
  unfold State.capClockRefresh
  repeat' first
    | with_reducible assumption
    | with_reducible apply ite_kept
    | with_reducible apply ite_fst_kept
    | with_reducible apply State.capAbort_kept hP
    | split

end Sys2Proof.Machine
end

