-- ==== Sys2Proof/Laws/KeptTte.lean ====
section
/-! SUPPORT. What the operations of `Sys2Proof.Machine.Tte` keep (`Sys2Proof.Laws.Kept`). -/
namespace Sys2Proof.Machine
open State
set_option linter.all false
variable {P : State → Prop}

theorem State.tt_kept (hP : Kept P) {s : State} (h : P s) (f : Tte → Tte) : P (State.tt s f) := by
  unfold State.tt
  repeat' first
    | with_reducible assumption
    | (extract_lets +onlyGivenNames x; refine (fun hx => ?_ : P x → _) ?_; clear_value x; rotate_left; subst x; rotate_right)
    | (extract_lets +onlyGivenNames x; refine (fun hx => ?_ : P x.1 → _) ?_; clear_value x; rotate_left; subst x; rotate_right)
    | (extract_lets +onlyGivenNames x; clear_value x)
    | extract_lets +onlyGivenNames x
    | (apply Kept.of hP
       · dsimp only <;> exact rfl
       · first | exact id | (intro _; simp_all only [shape, shapeStd, List.cons.injEq, upd_length, List.length_set, List.length_map, List.length_range, List.length_replicate, and_true, true_and, and_self]; done)
       iterate 8 (· exact rfl))

theorem State.tteEv_kept (hP : Kept P) {s : State} (h : P s) (f : FRef) : P (State.tteEv s f) := by
  unfold State.tteEv
  repeat' first
    | with_reducible assumption
    | with_reducible apply State.ev_kept hP
    | with_reducible apply State.seqEv_kept hP

theorem State.flowClear_kept (hP : Kept P) {s : State} (h : P s) (e : Nat) : P (State.flowClear s e) := by
  unfold State.flowClear
  repeat' first
    | with_reducible assumption
    | (extract_lets +onlyGivenNames x; refine (fun hx => ?_ : P x → _) ?_; clear_value x; rotate_left; subst x; rotate_right)
    | (extract_lets +onlyGivenNames x; refine (fun hx => ?_ : P x.1 → _) ?_; clear_value x; rotate_left; subst x; rotate_right)
    | (extract_lets +onlyGivenNames x; clear_value x)
    | extract_lets +onlyGivenNames x
    | with_reducible apply ite_kept
    | with_reducible apply ite_fst_kept
    | with_reducible apply State.memWrite_kept hP
    | split

theorem State.flowRead_kept (hP : Kept P) {s : State} (h : P s) (e : Nat) : P (State.flowRead s e).1 := by
  unfold State.flowRead
  split
  rename_i s' ok ws heq
  have h1 : P s' := fst_kept heq (foldl_fst_kept h fun p i hp => State.memRead_kept hP hp _ _ _ _)
  split
  · exact h1
  · exact State.memWrites_kept hP h1 _ _ _ _

theorem State.flushTo_kept (hP : Kept P) {s : State} (h : P s) (n : Nat) : P (State.flushTo s n) := by
  unfold State.flushTo
  repeat' first
    | with_reducible assumption
    | intro _
    | (extract_lets +onlyGivenNames x; refine (fun hx => ?_ : P x → _) ?_; clear_value x; rotate_left; subst x; rotate_right)
    | (extract_lets +onlyGivenNames x; refine (fun hx => ?_ : P x.1 → _) ?_; clear_value x; rotate_left; subst x; rotate_right)
    | (extract_lets +onlyGivenNames x; clear_value x)
    | extract_lets +onlyGivenNames x
    | with_reducible apply each_kept
    | with_reducible apply State.flowClear_kept hP
    | with_reducible apply State.tt_kept hP
    | split
    | (refine fst_kept (by assumption) ?_)
    | (apply Kept.of hP
       · dsimp only <;> exact rfl
       · first | exact id | (intro _; simp_all only [shape, shapeStd, List.cons.injEq, upd_length, List.length_set, List.length_map, List.length_range, List.length_replicate, and_true, true_and, and_self]; done)
       iterate 8 (· exact rfl))

theorem State.flowStore_kept (hP : Kept P) {s : State} (h : P s) (g : Nat) (k : FlowKey) (ingress : Bool) (time : Nat) :
    P (State.flowStore s g k ingress time).1 := by
  unfold State.flowStore
  extract_lets b ways put
  split
  rename_i s' read heq
  have h1 : P s' := fst_kept heq (foldl_fst_kept h fun p i hp => State.flowRead_kept hP hp _)
  extract_lets live age e0
  have hput : ∀ t e, P t → P (put t e) := fun t e ht => State.memWrites_kept hP ht _ _ _ _
  clear_value live age put e0
  split
  · exact hput _ _ h1
  · split
    · exact hput _ _ h1
    · split
      · exact h1
      · exact hput _ _ h1

theorem State.flowLookup_kept (hP : Kept P) {s : State} (h : P s) (g : Nat) (k : FlowKey) (ingress : Bool) : P (State.flowLookup s g k ingress).1 := by
  unfold State.flowLookup
  extract_lets b
  split
  rename_i s' hit heq
  have h1 : P s' := fst_kept heq (foldl_fst_kept h fun p i hp => State.flowRead_kept hP hp _)
  split
  · exact h1
  · extract_lets t
    have h2 : P t := State.flowClear_kept hP h1 _
    clear_value t
    split
    · exact h2
    · exact h2

theorem State.tteCause_kept (hP : Kept P) {s : State} (h : P s) (g : Nat) (cause : Nat) (m : TteMsg) (detail : Nat) (time : Nat) : P (State.tteCause s g cause m detail time) := by
  unfold State.tteCause
  repeat' first
    | with_reducible assumption
    | (extract_lets +onlyGivenNames x; refine (fun hx => ?_ : P x → _) ?_; clear_value x; rotate_left; subst x; rotate_right)
    | (extract_lets +onlyGivenNames x; refine (fun hx => ?_ : P x.1 → _) ?_; clear_value x; rotate_left; subst x; rotate_right)
    | (extract_lets +onlyGivenNames x; clear_value x)
    | extract_lets +onlyGivenNames x
    | with_reducible apply ite_kept
    | with_reducible apply ite_fst_kept
    | with_reducible apply State.capEv_kept hP
    | with_reducible apply State.enterRecord_kept hP
    | with_reducible apply State.inc_kept hP
    | with_reducible apply State.tteEv_kept hP
    | split

theorem State.setTteStream_kept (hP : Kept P) {s : State} (h : P s) (n : Nat) (ingress : Bool) (f : TteStream → TteStream) : P (State.setTteStream s n ingress f) := by
  unfold State.setTteStream
  repeat' first
    | with_reducible assumption
    | intro _
    | (extract_lets +onlyGivenNames x; refine (fun hx => ?_ : P x → _) ?_; clear_value x; rotate_left; subst x; rotate_right)
    | (extract_lets +onlyGivenNames x; refine (fun hx => ?_ : P x.1 → _) ?_; clear_value x; rotate_left; subst x; rotate_right)
    | (extract_lets +onlyGivenNames x; clear_value x)
    | extract_lets +onlyGivenNames x
    | with_reducible apply State.tt_kept hP
    | (apply Kept.of hP
       · dsimp only <;> exact rfl
       · first | exact id | (intro _; simp_all only [shape, shapeStd, List.cons.injEq, upd_length, List.length_set, List.length_map, List.length_range, List.length_replicate, and_true, true_and, and_self]; done)
       iterate 8 (· exact rfl))

theorem State.tteWord_kept (hP : Kept P) {s : State} (h : P s) (n : Nat) (ingress : Bool) (w : List Nat) : P (State.tteWord s n ingress w) := by
  unfold State.tteWord
  repeat' first
    | with_reducible assumption
    | with_reducible apply ite_kept
    | with_reducible apply ite_fst_kept
    | with_reducible apply State.setTteStream_kept hP
    | split

theorem State.tteUnlock_kept (hP : Kept P) {s : State} (h : P s) (n : Nat) (ingress : Bool) : P (State.tteUnlock s n ingress) := by
  unfold State.tteUnlock
  repeat' first
    | with_reducible assumption
    | intro _
    | with_reducible apply ite_kept
    | with_reducible apply ite_fst_kept
    | with_reducible apply State.setTteStream_kept hP
    | split

theorem State.tteRelease_kept (hP : Kept P) {s : State} (h : P s) (f : TteFrame) (d : List Byte) : P (State.tteRelease s f d) := by
  unfold State.tteRelease
  repeat' first
    | with_reducible assumption
    | intro _
    | (extract_lets +onlyGivenNames x; refine (fun hx => ?_ : P x → _) ?_; clear_value x; rotate_left; subst x; rotate_right)
    | (extract_lets +onlyGivenNames x; refine (fun hx => ?_ : P x.1 → _) ?_; clear_value x; rotate_left; subst x; rotate_right)
    | (extract_lets +onlyGivenNames x; clear_value x)
    | extract_lets +onlyGivenNames x
    | with_reducible apply ite_kept
    | with_reducible apply ite_fst_kept
    | with_reducible apply State.setTteStream_kept hP
    | with_reducible apply State.tt_kept hP
    | split
    | (apply Kept.of hP
       · dsimp only <;> exact rfl
       · first | exact id | (intro _; simp_all only [shape, shapeStd, List.cons.injEq, upd_length, List.length_set, List.length_map, List.length_range, List.length_replicate, and_true, true_and, and_self]; done)
       iterate 8 (· exact rfl))

theorem State.tteEvent_kept (hP : Kept P) {s : State} (h : P s) (f : TteFrame) (c : TteClass) (m : TteMsg) (res : Int) : P (State.tteEvent s f c m res) := by
  unfold State.tteEvent
  repeat' first
    | with_reducible assumption
    | intro _
    | (extract_lets +onlyGivenNames x; refine (fun hx => ?_ : P x → _) ?_; clear_value x; rotate_left; subst x; rotate_right)
    | (extract_lets +onlyGivenNames x; refine (fun hx => ?_ : P x.1 → _) ?_; clear_value x; rotate_left; subst x; rotate_right)
    | (extract_lets +onlyGivenNames x; clear_value x)
    | extract_lets +onlyGivenNames x
    | with_reducible apply ite_kept
    | with_reducible apply ite_fst_kept
    | with_reducible apply State.flowStore_kept hP
    | with_reducible apply State.tt_kept hP
    | with_reducible apply State.tteCause_kept hP
    | with_reducible apply State.tteRelease_kept hP
    | split
    | (refine fst_kept (by assumption) ?_)
    | (apply Kept.of hP
       · dsimp only <;> exact rfl
       · first | exact id | (intro _; simp_all only [shape, shapeStd, List.cons.injEq, upd_length, List.length_set, List.length_map, List.length_range, List.length_replicate, and_true, true_and, and_self]; done)
       iterate 8 (· exact rfl))

theorem State.tteFollower_kept (hP : Kept P) {s : State} (h : P s) (f : TteFrame) (c : TteClass) (m : TteMsg) :
    P (State.tteFollower s f c m) := by
  unfold State.tteFollower
  extract_lets d id
  split
  rename_i s' sum found cause e heq
  have h1 : P s' := fst_kept heq (foldl_fst_kept h fun p i hp => State.flowLookup_kept hP hp _ _ _)
  split
  · exact State.tteCause_kept hP h1 _ _ _ _ _
  · split
    extract_lets t
    exact State.tteCause_kept hP (State.tteRelease_kept hP h1 _ _) _ _ _ _ _

theorem State.tteFrame_kept (hP : Kept P) {s : State} (h : P s) (f : TteFrame) : P (State.tteFrame s f) := by
  unfold State.tteFrame
  extract_lets n s1 s2
  have h2 : P s2 := State.tt_kept hP (State.flushTo_kept hP h _) _
  clear_value s2
  refine ite_kept h2 ?_
  split
  · extract_lets +onlyGivenNames g st seen typ arr
    refine ite_kept h2 ?_
    extract_lets +onlyGivenNames res m
    clear_value m
    refine ite_kept (State.tteCause_kept hP h2 _ _ _ _ _) ?_
    split
    · exact State.tteCause_kept hP h2 _ _ _ _ _
    · exact ite_kept (State.tteEvent_kept hP h2 _ _ _ _) (ite_kept (State.tteFollower_kept hP h2 _ _ _) h2)
  · exact h2

theorem State.ttePostcheck_kept (hP : Kept P) {s : State} (h : P s) (ingress : Bool) (link : Nat) (p : Stamp) : P (State.ttePostcheck s ingress link p) := by
  unfold State.ttePostcheck
  repeat' first
    | with_reducible assumption
    | intro _
    | (extract_lets +onlyGivenNames x; refine (fun hx => ?_ : P x → _) ?_; clear_value x; rotate_left; subst x; rotate_right)
    | (extract_lets +onlyGivenNames x; refine (fun hx => ?_ : P x.1 → _) ?_; clear_value x; rotate_left; subst x; rotate_right)
    | (extract_lets +onlyGivenNames x; clear_value x)
    | extract_lets +onlyGivenNames x
    | with_reducible apply ite_kept
    | with_reducible apply ite_fst_kept
    | with_reducible apply State.flowRead_kept hP
    | with_reducible apply State.memWrite_kept hP
    | with_reducible apply State.tt_kept hP
    | with_reducible apply State.tteCause_kept hP
    | split
    | (refine fst_kept (by assumption) ?_)
    | (apply Kept.of hP
       · dsimp only <;> exact rfl
       · first | exact id | (intro _; simp_all only [shape, shapeStd, List.cons.injEq, upd_length, List.length_set, List.length_map, List.length_range, List.length_replicate, and_true, true_and, and_self]; done)
       iterate 8 (· exact rfl))

theorem State.flowSweep_kept (hP : Kept P) {s : State} (h : P s)  : P (State.flowSweep s) := by
  unfold State.flowSweep
  repeat' first
    | with_reducible assumption
    | intro _
    | (extract_lets +onlyGivenNames x; refine (fun hx => ?_ : P x → _) ?_; clear_value x; rotate_left; subst x; rotate_right)
    | (extract_lets +onlyGivenNames x; refine (fun hx => ?_ : P x.1 → _) ?_; clear_value x; rotate_left; subst x; rotate_right)
    | (extract_lets +onlyGivenNames x; clear_value x)
    | extract_lets +onlyGivenNames x
    | with_reducible apply ite_kept
    | with_reducible apply ite_fst_kept
    | with_reducible apply each_kept
    | with_reducible apply State.flowClear_kept hP
    | with_reducible apply State.flowRead_kept hP
    | with_reducible apply State.tt_kept hP
    | with_reducible apply State.tteCause_kept hP
    | split
    | (refine fst_kept (by assumption) ?_)
    | (apply Kept.of hP
       · dsimp only <;> exact rfl
       · first | exact id | (intro _; simp_all only [shape, shapeStd, List.cons.injEq, upd_length, List.length_set, List.length_map, List.length_range, List.length_replicate, and_true, true_and, and_self]; done)
       iterate 8 (· exact rfl))

theorem State.fltCopy_kept (hP : Kept P) {s : State} (h : P s)  : P (State.fltCopy s) := by
  unfold State.fltCopy
  repeat' first
    | with_reducible assumption
    | intro _
    | (extract_lets +onlyGivenNames x; refine (fun hx => ?_ : P x → _) ?_; clear_value x; rotate_left; subst x; rotate_right)
    | (extract_lets +onlyGivenNames x; refine (fun hx => ?_ : P x.1 → _) ?_; clear_value x; rotate_left; subst x; rotate_right)
    | (extract_lets +onlyGivenNames x; clear_value x)
    | extract_lets +onlyGivenNames x
    | with_reducible apply ite_kept
    | with_reducible apply ite_fst_kept
    | with_reducible apply each_kept
    | with_reducible apply State.memRead_kept hP
    | with_reducible apply State.setLive_kept hP
    | split

theorem State.fltInvalidate_kept (hP : Kept P) {s : State} (h : P s)  : P (State.fltInvalidate s) := by
  unfold State.fltInvalidate
  repeat' first
    | with_reducible assumption
    | with_reducible apply ite_kept
    | with_reducible apply ite_fst_kept
    | with_reducible apply State.flowClear_kept hP
    | split

theorem State.fltFlush_kept (hP : Kept P) {s : State} (h : P s)  : P (State.fltFlush s) := by
  unfold State.fltFlush
  repeat' first
    | with_reducible assumption
    | intro _
    | (extract_lets +onlyGivenNames x; refine (fun hx => ?_ : P x → _) ?_; clear_value x; rotate_left; subst x; rotate_right)
    | (extract_lets +onlyGivenNames x; refine (fun hx => ?_ : P x.1 → _) ?_; clear_value x; rotate_left; subst x; rotate_right)
    | (extract_lets +onlyGivenNames x; clear_value x)
    | extract_lets +onlyGivenNames x
    | with_reducible apply ite_kept
    | with_reducible apply ite_fst_kept
    | with_reducible apply State.put_kept hP
    | with_reducible apply State.tt_kept hP
    | split
    | (apply Kept.of hP
       · dsimp only <;> exact rfl
       · first | exact id | (intro _; simp_all only [shape, shapeStd, List.cons.injEq, upd_length, List.length_set, List.length_map, List.length_range, List.length_replicate, and_true, true_and, and_self]; done)
       iterate 8 (· exact rfl))

theorem State.fltFlushDone_kept (hP : Kept P) {s : State} (h : P s)  : P (State.fltFlushDone s) := by
  unfold State.fltFlushDone
  repeat' first
    | with_reducible assumption
    | intro _
    | (extract_lets +onlyGivenNames x; refine (fun hx => ?_ : P x → _) ?_; clear_value x; rotate_left; subst x; rotate_right)
    | (extract_lets +onlyGivenNames x; refine (fun hx => ?_ : P x.1 → _) ?_; clear_value x; rotate_left; subst x; rotate_right)
    | (extract_lets +onlyGivenNames x; clear_value x)
    | extract_lets +onlyGivenNames x
    | with_reducible apply ite_kept
    | with_reducible apply ite_fst_kept
    | with_reducible apply State.flushTo_kept hP
    | with_reducible apply State.put_kept hP
    | with_reducible apply State.tt_kept hP
    | split
    | (apply Kept.of hP
       · dsimp only <;> exact rfl
       · first | exact id | (intro _; simp_all only [shape, shapeStd, List.cons.injEq, upd_length, List.length_set, List.length_map, List.length_range, List.length_replicate, and_true, true_and, and_self]; done)
       iterate 8 (· exact rfl))

theorem State.flowInvalidateAll_kept (hP : Kept P) {s : State} (h : P s)  : P (State.flowInvalidateAll s) := by
  unfold State.flowInvalidateAll
  repeat' first
    | with_reducible assumption
    | intro _
    | with_reducible apply each_kept
    | with_reducible apply State.flowClear_kept hP

theorem State.tteRefresh_kept (hP : Kept P) {s : State} (h : P s) (g : Nat) : P (State.tteRefresh s g) := by
  unfold State.tteRefresh
  repeat' first
    | with_reducible assumption
    | (extract_lets +onlyGivenNames x; refine (fun hx => ?_ : P x → _) ?_; clear_value x; rotate_left; subst x; rotate_right)
    | (extract_lets +onlyGivenNames x; refine (fun hx => ?_ : P x.1 → _) ?_; clear_value x; rotate_left; subst x; rotate_right)
    | (extract_lets +onlyGivenNames x; clear_value x)
    | extract_lets +onlyGivenNames x
    | with_reducible apply ite_kept
    | with_reducible apply ite_fst_kept
    | with_reducible apply State.put_kept hP
    | with_reducible apply State.tteEv_kept hP
    | split

theorem State.tteBoundary_kept (hP : Kept P) {s : State} (h : P s) (k : Nat) : P (State.tteBoundary s k) := by
  unfold State.tteBoundary
  repeat' first
    | with_reducible assumption
    | with_reducible apply ite_kept
    | with_reducible apply ite_fst_kept
    | with_reducible apply State.tteRefresh_kept hP
    | split

end Sys2Proof.Machine
end

