-- ==== Sys2Proof/Laws/KeptDomains.lean ====
section
/-! SUPPORT. What the operations of `Sys2Proof.Machine.Domains` keep (`Sys2Proof.Laws.Kept`). -/
namespace Sys2Proof.Machine
open State
set_option linter.all false
variable {P : State → Prop}

theorem State.pw_kept (hP : Kept P) {s : State} (h : P s) (f : Pwr → Pwr) : P (State.pw s f) := by
  unfold State.pw
  repeat' first
    | with_reducible assumption
    | (extract_lets +onlyGivenNames x; refine (fun hx => ?_ : P x → _) ?_; clear_value x; rotate_left; subst x; rotate_right)
    | (extract_lets +onlyGivenNames x; refine (fun hx => ?_ : P x.1 → _) ?_; clear_value x; rotate_left; subst x; rotate_right)
    | (extract_lets +onlyGivenNames x; clear_value x)
    | extract_lets +onlyGivenNames x
    | (apply Kept.of hP
       · dsimp only <;> exact rfl
       · first | exact id | (intro _; simp_all only [shape, shapeStd, List.cons.injEq, upd_length, List.length_set, List.length_map, List.length_range, List.length_replicate, and_true, true_and, and_self]; done)
       iterate 8 (· exact rfl))

theorem State.setDom_kept (hP : Kept P) {s : State} (h : P s) (d : Nat) (v : Bool) : P (State.setDom s d v) := by
  unfold State.setDom
  repeat' first
    | with_reducible assumption
    | intro _
    | (extract_lets +onlyGivenNames x; refine (fun hx => ?_ : P x → _) ?_; clear_value x; rotate_left; subst x; rotate_right)
    | (extract_lets +onlyGivenNames x; refine (fun hx => ?_ : P x.1 → _) ?_; clear_value x; rotate_left; subst x; rotate_right)
    | (extract_lets +onlyGivenNames x; clear_value x)
    | extract_lets +onlyGivenNames x
    | with_reducible apply ite_kept
    | with_reducible apply ite_fst_kept
    | with_reducible apply State.pw_kept hP
    | split
    | (apply Kept.of hP
       · dsimp only <;> exact rfl
       · first | exact id | (intro _; simp_all only [shape, shapeStd, List.cons.injEq, upd_length, List.length_set, List.length_map, List.length_range, List.length_replicate, and_true, true_and, and_self]; done)
       iterate 8 (· exact rfl))

theorem State.domRefresh_kept (hP : Kept P) {s : State} (h : P s)  : P (State.domRefresh s) := by
  unfold State.domRefresh
  repeat' first
    | with_reducible assumption
    | intro _
    | (extract_lets +onlyGivenNames x; refine (fun hx => ?_ : P x → _) ?_; clear_value x; rotate_left; subst x; rotate_right)
    | (extract_lets +onlyGivenNames x; refine (fun hx => ?_ : P x.1 → _) ?_; clear_value x; rotate_left; subst x; rotate_right)
    | (extract_lets +onlyGivenNames x; clear_value x)
    | extract_lets +onlyGivenNames x
    | with_reducible apply each_kept
    | with_reducible apply State.capClockRefresh_kept hP
    | with_reducible apply State.linksRefresh_kept hP
    | with_reducible apply State.monClockRefresh_kept hP
    | with_reducible apply State.squelchRefresh_kept hP

theorem State.clearRegs_kept (hP : Kept P) {s : State} (h : P s) (d : Nat) : P (State.clearRegs s d) := by
  unfold State.clearRegs
  extract_lets +onlyGivenNames o s1 s2
  have h1 : P s1 := hP.liveFilter h _
  have h2 : P s2 := each_kept h1 fun t k ht => State.put_kept hP (State.put_kept hP (whenB_kept ht fun _ h => State.put_kept hP h _ _ _) _ _ _) _ _ _
  exact State.put_kept hP (State.put_kept hP h2 _ _ _) _ _ _

theorem State.setPlls_kept (hP : Kept P) {s : State} (h : P s) (d : Nat) (code : Nat) : P (State.setPlls s d code) := by
  unfold State.setPlls
  repeat' first
    | with_reducible assumption
    | with_reducible apply ite_kept
    | with_reducible apply ite_fst_kept
    | with_reducible apply State.put_kept hP
    | split

theorem State.sliceOff_kept (hP : Kept P) {s : State} (h : P s) (sl : Nat) : P (State.sliceOff s sl) := by
  unfold State.sliceOff
  repeat' first
    | with_reducible assumption
    | intro _
    | (extract_lets +onlyGivenNames x; refine (fun hx => ?_ : P x → _) ?_; clear_value x; rotate_left; subst x; rotate_right)
    | (extract_lets +onlyGivenNames x; refine (fun hx => ?_ : P x.1 → _) ?_; clear_value x; rotate_left; subst x; rotate_right)
    | (extract_lets +onlyGivenNames x; clear_value x)
    | extract_lets +onlyGivenNames x
    | with_reducible apply State.fcalStop_kept hP
    | with_reducible apply State.probeStop_kept hP
    | with_reducible apply State.setSlice_kept hP
    | (apply Kept.of hP
       · dsimp only <;> exact rfl
       · first | exact id | (intro _; simp_all only [shape, shapeStd, List.cons.injEq, upd_length, List.length_set, List.length_map, List.length_range, List.length_replicate, and_true, true_and, and_self]; done)
       iterate 8 (· exact rfl))

theorem State.clearDom_kept (hP : Kept P) {s : State} (h : P s) (d : Nat) : P (State.clearDom s d) := by
  unfold State.clearDom
  repeat' first
    | with_reducible assumption
    | intro _
    | (extract_lets +onlyGivenNames x; refine (fun hx => ?_ : P x → _) ?_; clear_value x; rotate_left; subst x; rotate_right)
    | (extract_lets +onlyGivenNames x; refine (fun hx => ?_ : P x.1 → _) ?_; clear_value x; rotate_left; subst x; rotate_right)
    | extract_lets +onlyGivenNames x
    | with_reducible apply ite_kept
    | with_reducible apply ite_fst_kept
    | with_reducible apply each_kept
    | with_reducible apply State.amOff_kept hP
    | with_reducible apply State.candHunt_kept hP
    | with_reducible apply State.clearMem_kept hP
    | with_reducible apply State.inbandDown_kept hP
    | with_reducible apply State.setFrame_kept hP
    | with_reducible apply State.setLane_kept hP
    | with_reducible apply State.sliceOff_kept hP
    | with_reducible apply State.sq_kept hP
    | split
    | (apply Kept.of hP
       · dsimp only <;> exact rfl
       · first | exact id | (intro _; simp_all only [shape, shapeStd, List.cons.injEq, upd_length, List.length_set, List.length_map, List.length_range, List.length_replicate, and_true, true_and, and_self]; done)
       iterate 8 (· exact rfl))
    | exact And.intro rfl rfl
    | exact ‹_ ∧ _›
    | (simp only [upd_length]; assumption)

theorem State.domainOff_kept (hP : Kept P) {s : State} (h : P s) (d : Nat) : P (State.domainOff s d) := by
  unfold State.domainOff
  repeat' first
    | with_reducible assumption
    | intro _
    | (extract_lets +onlyGivenNames x; refine (fun hx => ?_ : P x → _) ?_; clear_value x; rotate_left; subst x; rotate_right)
    | (extract_lets +onlyGivenNames x; refine (fun hx => ?_ : P x.1 → _) ?_; clear_value x; rotate_left; subst x; rotate_right)
    | (extract_lets +onlyGivenNames x; clear_value x)
    | extract_lets +onlyGivenNames x
    | with_reducible apply whenB_kept
    | with_reducible apply State.capAbort_kept hP
    | with_reducible apply State.clearDom_kept hP
    | with_reducible apply State.clearRegs_kept hP
    | with_reducible apply State.domRefresh_kept hP
    | with_reducible apply State.setDom_kept hP
    | with_reducible apply State.setPlls_kept hP

theorem State.loadGain_kept (hP : Kept P) {s : State} (h : P s) (a : Nat) : P (State.loadGain s a) := by
  unfold State.loadGain
  repeat' first
    | with_reducible assumption
    | intro _
    | (extract_lets +onlyGivenNames x; refine (fun hx => ?_ : P x → _) ?_; clear_value x; rotate_left; subst x; rotate_right)
    | (extract_lets +onlyGivenNames x; refine (fun hx => ?_ : P x.1 → _) ?_; clear_value x; rotate_left; subst x; rotate_right)
    | (extract_lets +onlyGivenNames x; clear_value x)
    | extract_lets +onlyGivenNames x
    | with_reducible apply State.setSlice_kept hP
    | split
    | (refine fst_kept (by assumption) ?_)
    | (apply Kept.of hP
       · dsimp only <;> exact rfl
       · first | exact id | (intro _; simp_all only [shape, shapeStd, List.cons.injEq, upd_length, List.length_set, List.length_map, List.length_range, List.length_replicate, and_true, true_and, and_self]; done)
       iterate 8 (· exact rfl))

theorem State.takeApplied_kept (hP : Kept P) {s : State} (h : P s) (d : Nat) : P (State.takeApplied s d) := by
  unfold State.takeApplied
  repeat' first
    | with_reducible assumption
    | intro _
    | (extract_lets +onlyGivenNames x; refine (fun hx => ?_ : P x → _) ?_; clear_value x; rotate_left; subst x; rotate_right)
    | (extract_lets +onlyGivenNames x; refine (fun hx => ?_ : P x.1 → _) ?_; clear_value x; rotate_left; subst x; rotate_right)
    | (extract_lets +onlyGivenNames x; clear_value x)
    | extract_lets +onlyGivenNames x
    | with_reducible apply ite_kept
    | with_reducible apply ite_fst_kept
    | with_reducible apply whenB_kept
    | with_reducible apply each_kept
    | with_reducible apply State.activate_kept hP
    | with_reducible apply State.floatTake_kept hP
    | with_reducible apply State.loadGain_kept hP
    | with_reducible apply State.loadSeed_kept hP
    | with_reducible apply State.setLive_kept hP
    | with_reducible apply State.take_kept hP
    | split

theorem State.domainOn_kept (hP : Kept P) {s : State} (h : P s) (d : Nat) : P (State.domainOn s d) := by
  unfold State.domainOn
  repeat' first
    | with_reducible assumption
    | intro _
    | (extract_lets +onlyGivenNames x; refine (fun hx => ?_ : P x → _) ?_; clear_value x; rotate_left; subst x; rotate_right)
    | (extract_lets +onlyGivenNames x; refine (fun hx => ?_ : P x.1 → _) ?_; clear_value x; rotate_left; subst x; rotate_right)
    | (extract_lets +onlyGivenNames x; clear_value x)
    | extract_lets +onlyGivenNames x
    | with_reducible apply whenB_kept
    | with_reducible apply each_kept
    | with_reducible apply State.coreReset_kept hP
    | with_reducible apply State.domRefresh_kept hP
    | with_reducible apply State.setDom_kept hP
    | with_reducible apply State.setLive_kept hP
    | with_reducible apply State.setMon_kept hP
    | with_reducible apply State.setPlls_kept hP
    | with_reducible apply State.takeApplied_kept hP
    | (apply Kept.of hP
       · dsimp only <;> exact rfl
       · first | exact id | (intro _; simp_all only [shape, shapeStd, List.cons.injEq, upd_length, List.length_set, List.length_map, List.length_range, List.length_replicate, and_true, true_and, and_self]; done)
       iterate 8 (· exact rfl))

end Sys2Proof.Machine
end

