-- ==== Sys2Proof/Laws/KeptResets.lean ====
section
/-! SUPPORT. What the operations of `Sys2Proof.Machine.Resets` keep (`Sys2Proof.Laws.Kept`). -/
namespace Sys2Proof.Machine
open State
set_option linter.all false
variable {P : State → Prop}

theorem State.jn_kept (hP : Kept P) {s : State} (h : P s) (f : Jnl → Jnl) : P (State.jn s f) := by
  unfold State.jn
  repeat' first
    | with_reducible assumption
    | (extract_lets +onlyGivenNames x; refine (fun hx => ?_ : P x → _) ?_; clear_value x; rotate_left; subst x; rotate_right)
    | (extract_lets +onlyGivenNames x; refine (fun hx => ?_ : P x.1 → _) ?_; clear_value x; rotate_left; subst x; rotate_right)
    | (extract_lets +onlyGivenNames x; clear_value x)
    | extract_lets +onlyGivenNames x
    | (apply Kept.of hP
       · dsimp only <;> exact rfl
       · first | exact id | (intro _; simp_all only [shape, shapeStd, List.cons.injEq, upd_length, List.length_set, List.length_map, List.length_range, List.length_replicate, and_true, true_and, and_self]; done)
       iterate 8 (· exact rfl))

theorem State.ck_kept (hP : Kept P) {s : State} (h : P s) (f : Clk → Clk) : P (State.ck s f) := by
  unfold State.ck
  repeat' first
    | with_reducible assumption
    | (extract_lets +onlyGivenNames x; refine (fun hx => ?_ : P x → _) ?_; clear_value x; rotate_left; subst x; rotate_right)
    | (extract_lets +onlyGivenNames x; refine (fun hx => ?_ : P x.1 → _) ?_; clear_value x; rotate_left; subst x; rotate_right)
    | (extract_lets +onlyGivenNames x; clear_value x)
    | extract_lets +onlyGivenNames x
    | (apply Kept.of hP
       · dsimp only <;> exact rfl
       · first | exact id | (intro _; simp_all only [shape, shapeStd, List.cons.injEq, upd_length, List.length_set, List.length_map, List.length_range, List.length_replicate, and_true, true_and, and_self]; done)
       iterate 8 (· exact rfl))

theorem State.refQualify_kept (hP : Kept P) {s : State} (h : P s) (r : Nat) : P (State.refQualify s r) := by
  unfold State.refQualify
  repeat' first
    | with_reducible assumption
    | intro _
    | (extract_lets +onlyGivenNames x; refine (fun hx => ?_ : P x → _) ?_; clear_value x; rotate_left; subst x; rotate_right)
    | (extract_lets +onlyGivenNames x; refine (fun hx => ?_ : P x.1 → _) ?_; clear_value x; rotate_left; subst x; rotate_right)
    | (extract_lets +onlyGivenNames x; clear_value x)
    | extract_lets +onlyGivenNames x
    | with_reducible apply ite_kept
    | with_reducible apply ite_fst_kept
    | with_reducible apply State.ck_kept hP
    | with_reducible apply State.put_kept hP
    | split
    | (apply Kept.of hP
       · dsimp only <;> exact rfl
       · first | exact id | (intro _; simp_all only [shape, shapeStd, List.cons.injEq, upd_length, List.length_set, List.length_map, List.length_range, List.length_replicate, and_true, true_and, and_self]; done)
       iterate 8 (· exact rfl))

theorem State.pllHold_kept (hP : Kept P) {s : State} (h : P s) (p : Nat) : P (State.pllHold s p) := by
  unfold State.pllHold
  repeat' first
    | with_reducible assumption
    | with_reducible apply ite_kept
    | with_reducible apply ite_fst_kept
    | with_reducible apply State.ev_kept hP
    | with_reducible apply State.put_kept hP
    | split

theorem State.refLoss_kept (hP : Kept P) {s : State} (h : P s) (r : Nat) : P (State.refLoss s r) := by
  unfold State.refLoss
  repeat' first
    | with_reducible assumption
    | (extract_lets +onlyGivenNames x; refine (fun hx => ?_ : P x → _) ?_; clear_value x; rotate_left; subst x; rotate_right)
    | (extract_lets +onlyGivenNames x; refine (fun hx => ?_ : P x.1 → _) ?_; clear_value x; rotate_left; subst x; rotate_right)
    | (extract_lets +onlyGivenNames x; clear_value x)
    | extract_lets +onlyGivenNames x
    | with_reducible apply ite_kept
    | with_reducible apply ite_fst_kept
    | with_reducible apply State.ev_kept hP
    | with_reducible apply State.pllHold_kept hP
    | with_reducible apply State.put_kept hP
    | split

theorem State.coast_kept (hP : Kept P) {s : State} (h : P s) (p : Nat) : P (State.coast s p) := by
  unfold State.coast
  repeat' first
    | with_reducible assumption
    | with_reducible apply ite_kept
    | with_reducible apply ite_fst_kept
    | with_reducible apply State.ev_kept hP
    | with_reducible apply State.put_kept hP
    | split

theorem State.pllLock_kept (hP : Kept P) {s : State} (h : P s) (p : Nat) : P (State.pllLock s p) := by
  unfold State.pllLock
  repeat' first
    | with_reducible assumption
    | (extract_lets +onlyGivenNames x; refine (fun hx => ?_ : P x → _) ?_; clear_value x; rotate_left; subst x; rotate_right)
    | (extract_lets +onlyGivenNames x; refine (fun hx => ?_ : P x.1 → _) ?_; clear_value x; rotate_left; subst x; rotate_right)
    | (extract_lets +onlyGivenNames x; clear_value x)
    | extract_lets +onlyGivenNames x
    | with_reducible apply ite_kept
    | with_reducible apply ite_fst_kept
    | with_reducible apply State.put_kept hP
    | with_reducible apply State.st_kept hP
    | split

theorem State.forcedSwitch_kept (hP : Kept P) {s : State} (h : P s) (m : Nat) : P (State.forcedSwitch s m) := by
  unfold State.forcedSwitch
  repeat' first
    | with_reducible assumption
    | with_reducible apply ite_kept
    | with_reducible apply ite_fst_kept
    | with_reducible apply State.ev_kept hP
    | with_reducible apply State.inc_kept hP
    | with_reducible apply State.put_kept hP
    | split

theorem State.refSelect_kept (hP : Kept P) {s : State} (h : P s)  : P (State.refSelect s) := by
  unfold State.refSelect
  repeat' first
    | with_reducible assumption
    | (extract_lets +onlyGivenNames x; refine (fun hx => ?_ : P x → _) ?_; clear_value x; rotate_left; subst x; rotate_right)
    | (extract_lets +onlyGivenNames x; refine (fun hx => ?_ : P x.1 → _) ?_; clear_value x; rotate_left; subst x; rotate_right)
    | (extract_lets +onlyGivenNames x; clear_value x)
    | extract_lets +onlyGivenNames x
    | with_reducible apply ite_kept
    | with_reducible apply ite_fst_kept
    | with_reducible apply State.put_kept hP
    | split

theorem State.ltxTake_kept (hP : Kept P) {s : State} (h : P s) (p : Nat) : P (State.ltxTake s p) := by
  unfold State.ltxTake
  repeat' first
    | with_reducible assumption
    | (extract_lets +onlyGivenNames x; refine (fun hx => ?_ : P x → _) ?_; clear_value x; rotate_left; subst x; rotate_right)
    | (extract_lets +onlyGivenNames x; refine (fun hx => ?_ : P x.1 → _) ?_; clear_value x; rotate_left; subst x; rotate_right)
    | (extract_lets +onlyGivenNames x; clear_value x)
    | extract_lets +onlyGivenNames x
    | with_reducible apply ite_kept
    | with_reducible apply ite_fst_kept
    | with_reducible apply State.ltxMove_kept hP
    | with_reducible apply State.put_kept hP
    | split

theorem State.rbClear_kept (hP : Kept P) {s : State} (h : P s) (b : Nat) : P (State.rbClear s b) := by
  unfold State.rbClear
  repeat' first
    | with_reducible assumption
    | intro _
    | (extract_lets +onlyGivenNames x; refine (fun hx => ?_ : P x → _) ?_; clear_value x; rotate_left; subst x; rotate_right)
    | (extract_lets +onlyGivenNames x; refine (fun hx => ?_ : P x.1 → _) ?_; clear_value x; rotate_left; subst x; rotate_right)
    | (extract_lets +onlyGivenNames x; clear_value x)
    | extract_lets +onlyGivenNames x
    | with_reducible apply State.clearMem_kept hP
    | with_reducible apply State.pw_kept hP
    | (apply Kept.of hP
       · dsimp only <;> exact rfl
       · first | exact id | (intro _; simp_all only [shape, shapeStd, List.cons.injEq, upd_length, List.length_set, List.length_map, List.length_range, List.length_replicate, and_true, true_and, and_self]; done)
       iterate 8 (· exact rfl))

theorem State.jnlLoad_kept (hP : Kept P) {s : State} (h : P s)  : P (State.jnlLoad s) := by
  unfold State.jnlLoad
  repeat' first
    | with_reducible assumption
    | with_reducible apply State.setLive_kept hP

theorem State.rbCheck_kept (hP : Kept P) {s : State} (h : P s)  : P (State.rbCheck s) := by
  unfold State.rbCheck
  repeat' first
    | with_reducible assumption
    | intro _
    | (extract_lets +onlyGivenNames x; refine (fun hx => ?_ : P x → _) ?_; clear_value x; rotate_left; subst x; rotate_right)
    | (extract_lets +onlyGivenNames x; refine (fun hx => ?_ : P x.1 → _) ?_; clear_value x; rotate_left; subst x; rotate_right)
    | (extract_lets +onlyGivenNames x; clear_value x)
    | extract_lets +onlyGivenNames x
    | with_reducible apply ite_kept
    | with_reducible apply ite_fst_kept
    | with_reducible apply each_kept
    | with_reducible apply State.ev_kept hP
    | with_reducible apply State.jnlLoad_kept hP
    | with_reducible apply State.put_kept hP
    | with_reducible apply State.rbClear_kept hP
    | with_reducible apply State.settle_kept hP
    | split

theorem State.otpRegs_kept (hP : Kept P) {t : State} (h : P t) (s : State) : P (State.otpRegs s t) :=
  State.put_kept hP (State.put_kept hP (State.put_kept hP (State.put_kept hP (State.put_kept hP h _ _ _) _ _ _) _ _ _) _ _ _) _ _ _

theorem State.resetBase_kept (hP : Kept P) {s : State} (h : P s) (lost : Bool) : P (State.resetBase s lost) := by
  refine hP.fresh h rfl rfl rfl rfl rfl rfl rfl ?_ rfl rfl
  cases lost
  · exact .inr rfl
  · exact .inl rfl

theorem State.resetSelf_kept (hP : Kept P) {s : State} (h : P s) (code : Nat) : P (State.resetSelf s code) := by
  unfold State.resetSelf
  extract_lets lost t1 t2 t3 t4 refs t5 t6 t7 t8 seen t9
  have h1 : P t1 := State.resetBase_kept hP h _
  have h2 : P t2 := State.otpRegs_kept hP h1 _
  have h3 : P t3 := ite_kept h2 (each_kept h2 fun t a ht => State.setLive_kept hP ht _ _)
  have h4 : P t4 := State.put_kept hP (State.put_kept hP (State.put_kept hP h3 _ _ _) _ _ _) _ _ _
  have h5 : P t5 := ite_kept h4 (State.put_kept hP (State.put_kept hP h4 _ _ _) _ _ _)
  have h6 : P t6 := State.put_kept hP (State.put_kept hP (State.put_kept hP (State.put_kept hP h5 _ _ _) _ _ _) _ _ _) _ _ _
  have h7 : P t7 := State.put_kept hP (State.put_kept hP h6 _ _ _) _ _ _
  have h8 : P t8 := State.put_kept hP h7 _ _ _
  have h9 : P t9 := State.put_kept hP (State.put_kept hP h8 _ _ _) _ _ _
  exact whenB_kept h9 fun t ht => State.ev_kept hP ht _ _

theorem State.mgmtClear_kept (hP : Kept P) {s : State} (h : P s)  : P (State.mgmtClear s) := by
  unfold State.mgmtClear
  repeat' first
    | with_reducible assumption
    | (extract_lets +onlyGivenNames x; refine (fun hx => ?_ : P x → _) ?_; clear_value x; rotate_left; subst x; rotate_right)
    | (extract_lets +onlyGivenNames x; refine (fun hx => ?_ : P x.1 → _) ?_; clear_value x; rotate_left; subst x; rotate_right)
    | (extract_lets +onlyGivenNames x; clear_value x)
    | extract_lets +onlyGivenNames x
    | with_reducible apply State.boundary_kept hP
    | (apply Kept.of hP
       · dsimp only <;> exact rfl
       · first | exact id | (intro _; simp_all only [shape, shapeStd, List.cons.injEq, upd_length, List.length_set, List.length_map, List.length_range, List.length_replicate, and_true, true_and, and_self]; done)
       iterate 8 (· exact rfl))

theorem State.warmReset_kept (hP : Kept P) {s : State} (h : P s)  : P (State.warmReset s) := by
  unfold State.warmReset
  repeat' first
    | with_reducible assumption
    | intro _
    | (extract_lets +onlyGivenNames x; refine (fun hx => ?_ : P x → _) ?_; clear_value x; rotate_left; subst x; rotate_right)
    | (extract_lets +onlyGivenNames x; refine (fun hx => ?_ : P x.1 → _) ?_; clear_value x; rotate_left; subst x; rotate_right)
    | (extract_lets +onlyGivenNames x; clear_value x)
    | extract_lets +onlyGivenNames x
    | with_reducible apply whenB_kept
    | with_reducible apply State.coreReset_kept hP
    | with_reducible apply State.jn_kept hP
    | with_reducible apply State.mgmtClear_kept hP
    | with_reducible apply State.put_kept hP
    | (apply Kept.of hP
       · dsimp only <;> exact rfl
       · first | exact id | (intro _; simp_all only [shape, shapeStd, List.cons.injEq, upd_length, List.length_set, List.length_map, List.length_range, List.length_replicate, and_true, true_and, and_self]; done)
       iterate 8 (· exact rfl))

theorem State.seqResetSeen_kept (hP : Kept P) {s : State} (h : P s)  : P (State.seqResetSeen s) := by
  unfold State.seqResetSeen
  repeat' first
    | with_reducible assumption
    | with_reducible apply State.put_kept hP

theorem State.rstCmd_kept (hP : Kept P) {s : State} (h : P s) (w : Word) : P (State.rstCmd s w) := by
  unfold State.rstCmd
  repeat' first
    | with_reducible assumption
    | intro _
    | (extract_lets +onlyGivenNames x; refine (fun hx => ?_ : P x → _) ?_; clear_value x; rotate_left; subst x; rotate_right)
    | (extract_lets +onlyGivenNames x; refine (fun hx => ?_ : P x.1 → _) ?_; clear_value x; rotate_left; subst x; rotate_right)
    | (extract_lets +onlyGivenNames x; clear_value x)
    | extract_lets +onlyGivenNames x
    | with_reducible apply ite_kept
    | with_reducible apply ite_fst_kept
    | with_reducible apply State.ck_kept hP
    | split
    | (apply Kept.of hP
       · dsimp only <;> exact rfl
       · first | exact id | (intro _; simp_all only [shape, shapeStd, List.cons.injEq, upd_length, List.length_set, List.length_map, List.length_range, List.length_replicate, and_true, true_and, and_self]; done)
       iterate 8 (· exact rfl))

end Sys2Proof.Machine
end

