-- ==== Sys2Proof/Laws/KeptPower.lean ====
section
/-! SUPPORT. What the operations of `Sys2Proof.Machine.Power` keep (`Sys2Proof.Laws.Kept`). -/
namespace Sys2Proof.Machine
open State
set_option linter.all false
variable {P : State → Prop}

theorem State.pwrEv_kept (hP : Kept P) {s : State} (h : P s) (f : FRef) : P (State.pwrEv s f) := by
  unfold State.pwrEv
  repeat' first
    | with_reducible assumption
    | with_reducible apply State.ev_kept hP

theorem State.pwrEnd_kept (hP : Kept P) {s : State} (h : P s) (result : Nat) : P (State.pwrEnd s result) := by
  unfold State.pwrEnd
  repeat' first
    | with_reducible assumption
    | intro _
    | (extract_lets +onlyGivenNames x; refine (fun hx => ?_ : P x → _) ?_; clear_value x; rotate_left; subst x; rotate_right)
    | (extract_lets +onlyGivenNames x; refine (fun hx => ?_ : P x.1 → _) ?_; clear_value x; rotate_left; subst x; rotate_right)
    | (extract_lets +onlyGivenNames x; clear_value x)
    | extract_lets +onlyGivenNames x
    | with_reducible apply State.ev_kept hP
    | with_reducible apply State.put_kept hP
    | with_reducible apply State.pw_kept hP
    | with_reducible apply State.seqEv_kept hP
    | (apply Kept.of hP
       · dsimp only <;> exact rfl
       · first | exact id | (intro _; simp_all only [shape, shapeStd, List.cons.injEq, upd_length, List.length_set, List.length_map, List.length_range, List.length_replicate, and_true, true_and, and_self]; done)
       iterate 8 (· exact rfl))

theorem State.pwrRefuse_kept (hP : Kept P) {s : State} (h : P s) (d : Nat) : P (State.pwrRefuse s d) := by
  unfold State.pwrRefuse
  repeat' first
    | with_reducible assumption
    | with_reducible apply State.ev_kept hP
    | with_reducible apply State.inc_kept hP
    | with_reducible apply State.put_kept hP
    | with_reducible apply State.pwrEnd_kept hP

theorem State.floatPowerOff_kept (hP : Kept P) {s : State} (h : P s) (named : Nat → Bool) : P (State.floatPowerOff s named) := by
  unfold State.floatPowerOff
  repeat' first
    | with_reducible assumption
    | intro _
    | (extract_lets +onlyGivenNames x; refine (fun hx => ?_ : P x → _) ?_; clear_value x; rotate_left; subst x; rotate_right)
    | (extract_lets +onlyGivenNames x; refine (fun hx => ?_ : P x.1 → _) ?_; clear_value x; rotate_left; subst x; rotate_right)
    | (extract_lets +onlyGivenNames x; clear_value x)
    | extract_lets +onlyGivenNames x
    | with_reducible apply ite_kept
    | with_reducible apply ite_fst_kept
    | with_reducible apply State.floatPark_kept hP
    | with_reducible apply State.migAbort_kept hP
    | with_reducible apply State.setLane_kept hP
    | with_reducible apply State.takeoverFail_kept hP
    | split
    | (apply Kept.of hP
       · dsimp only <;> exact rfl
       · first | exact id | (intro _; simp_all only [shape, shapeStd, List.cons.injEq, upd_length, List.length_set, List.length_map, List.length_range, List.length_replicate, and_true, true_and, and_self]; done)
       iterate 8 (· exact rfl))

theorem State.pwrRequest_kept (hP : Kept P) {s : State} (h : P s) (m : Master) (w : Word) : P (State.pwrRequest s m w) := by
  unfold State.pwrRequest
  repeat' first
    | with_reducible assumption
    | intro _
    | (extract_lets +onlyGivenNames x; refine (fun hx => ?_ : P x → _) ?_; clear_value x; rotate_left; subst x; rotate_right)
    | (extract_lets +onlyGivenNames x; refine (fun hx => ?_ : P x.1 → _) ?_; clear_value x; rotate_left; subst x; rotate_right)
    | (extract_lets +onlyGivenNames x; clear_value x)
    | extract_lets +onlyGivenNames x
    | with_reducible apply ite_kept
    | with_reducible apply ite_fst_kept
    | with_reducible apply State.put_kept hP
    | with_reducible apply State.pw_kept hP
    | split
    | (apply Kept.of hP
       · dsimp only <;> exact rfl
       · first | exact id | (intro _; simp_all only [shape, shapeStd, List.cons.injEq, upd_length, List.length_set, List.length_map, List.length_range, List.length_replicate, and_true, true_and, and_self]; done)
       iterate 8 (· exact rfl))

theorem State.wakeBegin_kept (hP : Kept P) {s : State} (h : P s)  : P (State.wakeBegin s) := by
  unfold State.wakeBegin
  repeat' first
    | with_reducible assumption
    | intro _
    | (extract_lets +onlyGivenNames x; refine (fun hx => ?_ : P x → _) ?_; clear_value x; rotate_left; subst x; rotate_right)
    | (extract_lets +onlyGivenNames x; refine (fun hx => ?_ : P x.1 → _) ?_; clear_value x; rotate_left; subst x; rotate_right)
    | (extract_lets +onlyGivenNames x; clear_value x)
    | extract_lets +onlyGivenNames x
    | with_reducible apply each_kept
    | with_reducible apply State.domainOn_kept hP
    | with_reducible apply State.pw_kept hP
    | (apply Kept.of hP
       · dsimp only <;> exact rfl
       · first | exact id | (intro _; simp_all only [shape, shapeStd, List.cons.injEq, upd_length, List.length_set, List.length_map, List.length_range, List.length_replicate, and_true, true_and, and_self]; done)
       iterate 8 (· exact rfl))

theorem State.enterRun_kept (hP : Kept P) {s : State} (h : P s)  : P (State.enterRun s) := by
  unfold State.enterRun
  repeat' first
    | with_reducible assumption
    | intro _
    | (extract_lets +onlyGivenNames x; refine (fun hx => ?_ : P x → _) ?_; clear_value x; rotate_left; subst x; rotate_right)
    | (extract_lets +onlyGivenNames x; refine (fun hx => ?_ : P x.1 → _) ?_; clear_value x; rotate_left; subst x; rotate_right)
    | extract_lets +onlyGivenNames x
    | with_reducible apply whenB_kept
    | with_reducible apply each_kept
    | with_reducible apply State.domainOn_kept hP
    | with_reducible apply State.put_kept hP
    | with_reducible apply State.pw_kept hP
    | with_reducible apply State.sq_kept hP
    | (apply Kept.of hP
       · dsimp only <;> exact rfl
       · first | exact id | (intro _; simp_all only [shape, shapeStd, List.cons.injEq, upd_length, List.length_set, List.length_map, List.length_range, List.length_replicate, and_true, true_and, and_self]; done)
       iterate 8 (· exact rfl))
    | exact And.intro rfl rfl
    | exact ‹_ ∧ _›

theorem State.enterIdle_kept (hP : Kept P) {s : State} (h : P s)  : P (State.enterIdle s) := by
  unfold State.enterIdle
  repeat' first
    | with_reducible assumption
    | intro _
    | (extract_lets +onlyGivenNames x; refine (fun hx => ?_ : P x → _) ?_; clear_value x; rotate_left; subst x; rotate_right)
    | (extract_lets +onlyGivenNames x; refine (fun hx => ?_ : P x.1 → _) ?_; clear_value x; rotate_left; subst x; rotate_right)
    | extract_lets +onlyGivenNames x
    | with_reducible apply whenB_kept
    | with_reducible apply each_kept
    | with_reducible apply State.domainOn_kept hP
    | with_reducible apply State.put_kept hP
    | with_reducible apply State.pw_kept hP
    | with_reducible apply State.sq_kept hP
    | (apply Kept.of hP
       · dsimp only <;> exact rfl
       · first | exact id | (intro _; simp_all only [shape, shapeStd, List.cons.injEq, upd_length, List.length_set, List.length_map, List.length_range, List.length_replicate, and_true, true_and, and_self]; done)
       iterate 8 (· exact rfl))
    | exact And.intro rfl rfl
    | exact ‹_ ∧ _›

theorem State.setReq_kept (hP : Kept P) {s : State} (h : P s) (f : PwrReq → PwrReq) : P (State.setReq s f) := by
  unfold State.setReq
  repeat' first
    | with_reducible assumption
    | intro _
    | (extract_lets +onlyGivenNames x; refine (fun hx => ?_ : P x → _) ?_; clear_value x; rotate_left; subst x; rotate_right)
    | (extract_lets +onlyGivenNames x; refine (fun hx => ?_ : P x.1 → _) ?_; clear_value x; rotate_left; subst x; rotate_right)
    | (extract_lets +onlyGivenNames x; clear_value x)
    | extract_lets +onlyGivenNames x
    | with_reducible apply State.pw_kept hP
    | (apply Kept.of hP
       · dsimp only <;> exact rfl
       · first | exact id | (intro _; simp_all only [shape, shapeStd, List.cons.injEq, upd_length, List.length_set, List.length_map, List.length_range, List.length_replicate, and_true, true_and, and_self]; done)
       iterate 8 (· exact rfl))

theorem State.pwrStart_kept (hP : Kept P) {s : State} (h : P s) : P (State.pwrStart s) := by
  unfold State.pwrStart
  split
  · exact h
  · refine ite_kept h ?_
    extract_lets w op st l named s1 s2 go
    have h1 : P s1 := whenB_kept h fun t ht => State.isAbort_kept hP ht
    have h2 : P s2 := State.floatPowerOff_kept hP h1 _
    have hg : ∀ a b c, P (go a b c) := fun a b c => State.setReq_kept hP h2 _
    clear_value s2 go
    refine ite_kept (State.pwrEnd_kept hP h _) (ite_kept (State.pwrEnd_kept hP h _) ?_)
    split
    · exact State.pwrRefuse_kept hP h _
    · refine ite_kept (hg _ _ _) (ite_kept (hg _ _ _) (ite_kept (ite_kept (State.pwrEnd_kept hP h2 _) ?_) (ite_kept ?_ (hg _ _ _))))
      · exact State.setReq_kept hP (State.wakeBegin_kept hP (State.put_kept hP h2 _ _ _)) _
      · exact State.pwrEnd_kept hP (State.enterIdle_kept hP h2) _

theorem State.domainSwitch_kept (hP : Kept P) {s : State} (h : P s)  : P (State.domainSwitch s) := by
  unfold State.domainSwitch
  repeat' first
    | with_reducible assumption
    | intro _
    | (extract_lets +onlyGivenNames x; refine (fun hx => ?_ : P x → _) ?_; clear_value x; rotate_left; subst x; rotate_right)
    | (extract_lets +onlyGivenNames x; refine (fun hx => ?_ : P x.1 → _) ?_; clear_value x; rotate_left; subst x; rotate_right)
    | (extract_lets +onlyGivenNames x; clear_value x)
    | extract_lets +onlyGivenNames x
    | with_reducible apply ite_kept
    | with_reducible apply ite_fst_kept
    | with_reducible apply whenB_kept
    | with_reducible apply State.domRefresh_kept hP
    | with_reducible apply State.domainOff_kept hP
    | with_reducible apply State.domainOn_kept hP
    | with_reducible apply State.setDom_kept hP
    | with_reducible apply State.setPlls_kept hP
    | with_reducible apply State.setReq_kept hP
    | split
    | (refine fst_kept (by assumption) ?_)
    | (apply Kept.of hP
       · dsimp only <;> exact rfl
       · first | exact id | (intro _; simp_all only [shape, shapeStd, List.cons.injEq, upd_length, List.length_set, List.length_map, List.length_range, List.length_replicate, and_true, true_and, and_self]; done)
       iterate 8 (· exact rfl))

theorem State.powerGoodTimeout_kept (hP : Kept P) {s : State} (h : P s)  : P (State.powerGoodTimeout s) := by
  unfold State.powerGoodTimeout
  repeat' first
    | with_reducible assumption
    | (extract_lets +onlyGivenNames x; refine (fun hx => ?_ : P x → _) ?_; clear_value x; rotate_left; subst x; rotate_right)
    | (extract_lets +onlyGivenNames x; refine (fun hx => ?_ : P x.1 → _) ?_; clear_value x; rotate_left; subst x; rotate_right)
    | (extract_lets +onlyGivenNames x; clear_value x)
    | extract_lets +onlyGivenNames x
    | with_reducible apply ite_kept
    | with_reducible apply ite_fst_kept
    | with_reducible apply State.pwrEnd_kept hP
    | split
    | (refine fst_kept (by assumption) ?_)
    | (apply Kept.of hP
       · dsimp only <;> exact rfl
       · first | exact id | (intro _; simp_all only [shape, shapeStd, List.cons.injEq, upd_length, List.length_set, List.length_map, List.length_range, List.length_replicate, and_true, true_and, and_self]; done)
       iterate 8 (· exact rfl))

theorem State.pwrDone_kept (hP : Kept P) {s : State} (h : P s)  : P (State.pwrDone s) := by
  unfold State.pwrDone
  repeat' first
    | with_reducible assumption
    | intro _
    | (extract_lets +onlyGivenNames x; refine (fun hx => ?_ : P x → _) ?_; clear_value x; rotate_left; subst x; rotate_right)
    | (extract_lets +onlyGivenNames x; refine (fun hx => ?_ : P x.1 → _) ?_; clear_value x; rotate_left; subst x; rotate_right)
    | (extract_lets +onlyGivenNames x; clear_value x)
    | extract_lets +onlyGivenNames x
    | with_reducible apply ite_kept
    | with_reducible apply ite_fst_kept
    | with_reducible apply State.ev_kept hP
    | with_reducible apply State.inc_kept hP
    | with_reducible apply State.pw_kept hP
    | with_reducible apply State.pwrEnd_kept hP
    | split
    | (refine fst_kept (by assumption) ?_)
    | (apply Kept.of hP
       · dsimp only <;> exact rfl
       · first | exact id | (intro _; simp_all only [shape, shapeStd, List.cons.injEq, upd_length, List.length_set, List.length_map, List.length_range, List.length_replicate, and_true, true_and, and_self]; done)
       iterate 8 (· exact rfl))

theorem State.pwrTick_kept (hP : Kept P) {s : State} (h : P s)  : P (State.pwrTick s) := by
  unfold State.pwrTick
  repeat' first
    | with_reducible assumption
    | intro _
    | (extract_lets +onlyGivenNames x; refine (fun hx => ?_ : P x → _) ?_; clear_value x; rotate_left; subst x; rotate_right)
    | (extract_lets +onlyGivenNames x; refine (fun hx => ?_ : P x.1 → _) ?_; clear_value x; rotate_left; subst x; rotate_right)
    | (extract_lets +onlyGivenNames x; clear_value x)
    | extract_lets +onlyGivenNames x
    | with_reducible apply ite_kept
    | with_reducible apply ite_fst_kept
    | with_reducible apply each_kept
    | with_reducible apply State.domRefresh_kept hP
    | with_reducible apply State.setDom_kept hP
    | with_reducible apply State.setPlls_kept hP
    | with_reducible apply State.setReq_kept hP
    | split
    | (refine fst_kept (by assumption) ?_)
    | (apply Kept.of hP
       · dsimp only <;> exact rfl
       · first | exact id | (intro _; simp_all only [shape, shapeStd, List.cons.injEq, upd_length, List.length_set, List.length_map, List.length_range, List.length_replicate, and_true, true_and, and_self]; done)
       iterate 8 (· exact rfl))

theorem State.noReturn_kept (hP : Kept P) {s : State} (h : P s)  : P (State.noReturn s) := by
  unfold State.noReturn
  repeat' first
    | with_reducible assumption
    | intro _
    | (extract_lets +onlyGivenNames x; refine (fun hx => ?_ : P x → _) ?_; clear_value x; rotate_left; subst x; rotate_right)
    | (extract_lets +onlyGivenNames x; refine (fun hx => ?_ : P x.1 → _) ?_; clear_value x; rotate_left; subst x; rotate_right)
    | (extract_lets +onlyGivenNames x; clear_value x)
    | extract_lets +onlyGivenNames x
    | with_reducible apply ite_kept
    | with_reducible apply ite_fst_kept
    | with_reducible apply each_kept
    | with_reducible apply State.domainOff_kept hP
    | with_reducible apply State.put_kept hP
    | with_reducible apply State.pw_kept hP
    | with_reducible apply State.pwrEnd_kept hP
    | with_reducible apply State.st_kept hP
    | split
    | (refine fst_kept (by assumption) ?_)
    | (apply Kept.of hP
       · dsimp only <;> exact rfl
       · first | exact id | (intro _; simp_all only [shape, shapeStd, List.cons.injEq, upd_length, List.length_set, List.length_map, List.length_range, List.length_replicate, and_true, true_and, and_self]; done)
       iterate 8 (· exact rfl))

theorem State.wakeBy_kept (hP : Kept P) {s : State} (h : P s) (src : Nat) : P (State.wakeBy s src) := by
  unfold State.wakeBy
  refine ite_kept h ?_
  extract_lets src'
  have hs : ∀ t, P t → P (src' t) := fun t ht => State.put_kept hP ht _ _ _
  clear_value src'
  split
  · exact ite_kept (hs _ (State.resetSelf_kept hP h _)) h
  · exact ite_kept (hs _ (State.resetSelf_kept hP h _)) h
  · exact h
  · split
    · refine ite_kept (ite_kept h ?_) (ite_kept (hs _ (State.wakeBegin_kept hP h)) h)
      exact State.setReq_kept hP (State.put_kept hP (hs _ h) _ _ _) _
    · exact ite_kept (hs _ (State.wakeBegin_kept hP h)) h

theorem State.wakeTick_kept (hP : Kept P) {s : State} (h : P s)  : P (State.wakeTick s) := by
  unfold State.wakeTick
  repeat' first
    | with_reducible assumption
    | intro _
    | (extract_lets +onlyGivenNames x; refine (fun hx => ?_ : P x → _) ?_; clear_value x; rotate_left; subst x; rotate_right)
    | (extract_lets +onlyGivenNames x; refine (fun hx => ?_ : P x.1 → _) ?_; clear_value x; rotate_left; subst x; rotate_right)
    | (extract_lets +onlyGivenNames x; clear_value x)
    | extract_lets +onlyGivenNames x
    | with_reducible apply ite_kept
    | with_reducible apply ite_fst_kept
    | with_reducible apply State.enterRun_kept hP
    | with_reducible apply State.pwrEnd_kept hP
    | split
    | (refine fst_kept (by assumption) ?_)
    | (apply Kept.of hP
       · dsimp only <;> exact rfl
       · first | exact id | (intro _; simp_all only [shape, shapeStd, List.cons.injEq, upd_length, List.length_set, List.length_map, List.length_range, List.length_replicate, and_true, true_and, and_self]; done)
       iterate 8 (· exact rfl))

theorem State.wakeRetry_kept (hP : Kept P) {s : State} (h : P s) (cause : Nat) : P (State.wakeRetry s cause) := by
  unfold State.wakeRetry
  repeat' first
    | with_reducible assumption
    | intro _
    | (extract_lets +onlyGivenNames x; refine (fun hx => ?_ : P x → _) ?_; clear_value x; rotate_left; subst x; rotate_right)
    | (extract_lets +onlyGivenNames x; refine (fun hx => ?_ : P x.1 → _) ?_; clear_value x; rotate_left; subst x; rotate_right)
    | (extract_lets +onlyGivenNames x; clear_value x)
    | extract_lets +onlyGivenNames x
    | with_reducible apply ite_kept
    | with_reducible apply ite_fst_kept
    | with_reducible apply State.inc_kept hP
    | with_reducible apply State.put_kept hP
    | with_reducible apply State.pw_kept hP
    | split
    | (apply Kept.of hP
       · dsimp only <;> exact rfl
       · first | exact id | (intro _; simp_all only [shape, shapeStd, List.cons.injEq, upd_length, List.length_set, List.length_map, List.length_range, List.length_replicate, and_true, true_and, and_self]; done)
       iterate 8 (· exact rfl))

theorem State.brownout_kept (hP : Kept P) {s : State} (h : P s)  : P (State.brownout s) := by
  unfold State.brownout
  repeat' first
    | with_reducible assumption
    | with_reducible apply ite_kept
    | with_reducible apply ite_fst_kept
    | with_reducible apply State.ev_kept hP
    | with_reducible apply State.wakeBy_kept hP
    | split

theorem State.railBits_kept (hP : Kept P) {s : State} (h : P s) (r : Nat) (v : Nat) : P (State.railBits s r v) := by
  unfold State.railBits
  repeat' first
    | with_reducible assumption
    | with_reducible apply State.put_kept hP

theorem State.supWarn_kept (hP : Kept P) {s : State} (h : P s) (r : Nat) : P (State.supWarn s r) := by
  unfold State.supWarn
  repeat' first
    | with_reducible assumption
    | with_reducible apply ite_kept
    | with_reducible apply ite_fst_kept
    | with_reducible apply State.ev_kept hP
    | with_reducible apply State.inc_kept hP
    | with_reducible apply State.railBits_kept hP
    | split

theorem State.supReset_kept (hP : Kept P) {s : State} (h : P s) (r : Nat) : P (State.supReset s r) := by
  unfold State.supReset
  repeat' first
    | with_reducible assumption
    | intro _
    | (extract_lets +onlyGivenNames x; refine (fun hx => ?_ : P x → _) ?_; clear_value x; rotate_left; subst x; rotate_right)
    | (extract_lets +onlyGivenNames x; refine (fun hx => ?_ : P x.1 → _) ?_; clear_value x; rotate_left; subst x; rotate_right)
    | (extract_lets +onlyGivenNames x; clear_value x)
    | extract_lets +onlyGivenNames x
    | with_reducible apply ite_kept
    | with_reducible apply ite_fst_kept
    | with_reducible apply State.ck_kept hP
    | with_reducible apply State.ev_kept hP
    | with_reducible apply State.railBits_kept hP
    | with_reducible apply State.resetSelf_kept hP
    | with_reducible apply State.supWarn_kept hP
    | split
    | (apply Kept.of hP
       · dsimp only <;> exact rfl
       · first | exact id | (intro _; simp_all only [shape, shapeStd, List.cons.injEq, upd_length, List.length_set, List.length_map, List.length_range, List.length_replicate, and_true, true_and, and_self]; done)
       iterate 8 (· exact rfl))

theorem State.supClear_kept (hP : Kept P) {s : State} (h : P s) (r : Nat) : P (State.supClear s r) := by
  unfold State.supClear
  repeat' first
    | with_reducible assumption
    | intro _
    | (extract_lets +onlyGivenNames x; refine (fun hx => ?_ : P x → _) ?_; clear_value x; rotate_left; subst x; rotate_right)
    | (extract_lets +onlyGivenNames x; refine (fun hx => ?_ : P x.1 → _) ?_; clear_value x; rotate_left; subst x; rotate_right)
    | extract_lets +onlyGivenNames x
    | with_reducible apply ite_kept
    | with_reducible apply ite_fst_kept
    | with_reducible apply whenB_kept
    | with_reducible apply State.ck_kept hP
    | with_reducible apply State.railBits_kept hP
    | with_reducible apply State.storeHeld_kept hP
    | split
    | (apply Kept.of hP
       · dsimp only <;> exact rfl
       · first | exact id | (intro _; simp_all only [shape, shapeStd, List.cons.injEq, upd_length, List.length_set, List.length_map, List.length_range, List.length_replicate, and_true, true_and, and_self]; done)
       iterate 8 (· exact rfl))

theorem State.thermalShutdown_kept (hP : Kept P) {s : State} (h : P s) (n : Nat) : P (State.thermalShutdown s n) := by
  unfold State.thermalShutdown
  repeat' first
    | with_reducible assumption
    | intro _
    | (extract_lets +onlyGivenNames x; refine (fun hx => ?_ : P x → _) ?_; clear_value x; rotate_left; subst x; rotate_right)
    | (extract_lets +onlyGivenNames x; refine (fun hx => ?_ : P x.1 → _) ?_; clear_value x; rotate_left; subst x; rotate_right)
    | (extract_lets +onlyGivenNames x; clear_value x)
    | extract_lets +onlyGivenNames x
    | with_reducible apply ite_kept
    | with_reducible apply ite_fst_kept
    | with_reducible apply State.put_kept hP
    | with_reducible apply State.pw_kept hP
    | split
    | (apply Kept.of hP
       · dsimp only <;> exact rfl
       · first | exact id | (intro _; simp_all only [shape, shapeStd, List.cons.injEq, upd_length, List.length_set, List.length_map, List.length_range, List.length_replicate, and_true, true_and, and_self]; done)
       iterate 8 (· exact rfl))

theorem State.thermalRestart_kept (hP : Kept P) {s : State} (h : P s)  : P (State.thermalRestart s) := by
  unfold State.thermalRestart
  repeat' first
    | with_reducible assumption
    | with_reducible apply ite_kept
    | with_reducible apply ite_fst_kept
    | with_reducible apply State.resetSelf_kept hP
    | split

theorem State.pinReset_kept (hP : Kept P) {s : State} (h : P s) (ns : Nat) : P (State.pinReset s ns) := by
  unfold State.pinReset
  repeat' first
    | with_reducible assumption
    | with_reducible apply ite_kept
    | with_reducible apply ite_fst_kept
    | with_reducible apply State.resetSelf_kept hP
    | with_reducible apply State.useFree_kept hP
    | split

end Sys2Proof.Machine
end

