-- ==== Sys2Proof/Laws/KeptSetCheck.lean ====
section
/-! SUPPORT. What the operations of `Sys2Proof.Machine.SetCheck` keep (`Sys2Proof.Laws.Kept`). -/
namespace Sys2Proof.Machine
open State
set_option linter.all false
variable {P : State → Prop}

theorem State.heldWrites_kept (hP : Kept P) {s : State} (h : P s)  : P (State.heldWrites s) := by
  unfold State.heldWrites
  repeat' first
    | with_reducible assumption
    | intro _
    | (extract_lets +onlyGivenNames x; refine (fun hx => ?_ : P x → _) ?_; clear_value x; rotate_left; subst x; rotate_right)
    | (extract_lets +onlyGivenNames x; refine (fun hx => ?_ : P x.1 → _) ?_; clear_value x; rotate_left; subst x; rotate_right)
    | (extract_lets +onlyGivenNames x; clear_value x)
    | extract_lets +onlyGivenNames x
    | with_reducible apply each_kept
    | with_reducible apply State.setUnder_kept hP
    | with_reducible apply State.st_kept hP
    | (apply Kept.of hP
       · dsimp only <;> exact rfl
       · first | exact id | (intro _; simp_all only [shape, shapeStd, List.cons.injEq, upd_length, List.length_set, List.length_map, List.length_range, List.length_replicate, and_true, true_and, and_self]; done)
       iterate 8 (· exact rfl))

theorem State.jnlState_kept (hP : Kept P) {s : State} (h : P s) (st : Nat) : P (State.jnlState s st) := by
  unfold State.jnlState
  repeat' first
    | with_reducible assumption
    | with_reducible apply State.put_kept hP
    | with_reducible apply State.st_kept hP

theorem State.jnlBusy_kept (hP : Kept P) {s : State} (h : P s) (b : Bool) : P (State.jnlBusy s b) := by
  unfold State.jnlBusy
  repeat' first
    | with_reducible assumption
    | with_reducible apply State.put_kept hP

theorem State.jnlMirror_kept (hP : Kept P) {s : State} (h : P s)  : P (State.jnlMirror s) := by
  unfold State.jnlMirror
  repeat' first
    | with_reducible assumption
    | with_reducible apply State.rbWrite_kept hP

theorem State.jnlClose_kept (hP : Kept P) {s : State} (h : P s) (outcome : Nat) : P (State.jnlClose s outcome) := by
  unfold State.jnlClose
  repeat' first
    | with_reducible assumption
    | intro _
    | (extract_lets +onlyGivenNames x; refine (fun hx => ?_ : P x → _) ?_; clear_value x; rotate_left; subst x; rotate_right)
    | (extract_lets +onlyGivenNames x; refine (fun hx => ?_ : P x.1 → _) ?_; clear_value x; rotate_left; subst x; rotate_right)
    | (extract_lets +onlyGivenNames x; clear_value x)
    | extract_lets +onlyGivenNames x
    | with_reducible apply State.jn_kept hP
    | with_reducible apply State.jnlMirror_kept hP
    | with_reducible apply State.put_kept hP
    | (apply Kept.of hP
       · dsimp only <;> exact rfl
       · first | exact id | (intro _; simp_all only [shape, shapeStd, List.cons.injEq, upd_length, List.length_set, List.length_map, List.length_range, List.length_replicate, and_true, true_and, and_self]; done)
       iterate 8 (· exact rfl))

theorem State.checkDone_kept (hP : Kept P) {s : State} (h : P s)  : P (State.checkDone s) := by
  unfold State.checkDone
  repeat' first
    | with_reducible assumption
    | intro _
    | (extract_lets +onlyGivenNames x; refine (fun hx => ?_ : P x → _) ?_; clear_value x; rotate_left; subst x; rotate_right)
    | (extract_lets +onlyGivenNames x; refine (fun hx => ?_ : P x.1 → _) ?_; clear_value x; rotate_left; subst x; rotate_right)
    | (extract_lets +onlyGivenNames x; clear_value x)
    | extract_lets +onlyGivenNames x
    | with_reducible apply ite_kept
    | with_reducible apply ite_fst_kept
    | with_reducible apply State.heldWrites_kept hP
    | with_reducible apply State.jnlBusy_kept hP
    | with_reducible apply State.jnlClose_kept hP
    | with_reducible apply State.jnlMirror_kept hP
    | with_reducible apply State.put_kept hP
    | with_reducible apply State.seqEv_kept hP
    | with_reducible apply State.st_kept hP
    | split
    | (refine fst_kept (by assumption) ?_)
    | (apply Kept.of hP
       · dsimp only <;> exact rfl
       · first | exact id | (intro _; simp_all only [shape, shapeStd, List.cons.injEq, upd_length, List.length_set, List.length_map, List.length_range, List.length_replicate, and_true, true_and, and_self]; done)
       iterate 8 (· exact rfl))

end Sys2Proof.Machine
end

