-- ==== Sys2Proof/Laws/KeptSetApply.lean ====
section
/-! SUPPORT. What the operations of `Sys2Proof.Machine.SetApply` keep (`Sys2Proof.Laws.Kept`). -/
namespace Sys2Proof.Machine
open State
set_option linter.all false
variable {P : State → Prop}

theorem State.writeLive_kept (hP : Kept P) {s : State} (h : P s) (u : Snap) (l : List Nat) : P (State.writeLive s u l) := by
  unfold State.writeLive
  repeat' first
    | with_reducible assumption
    | intro _
    | (extract_lets +onlyGivenNames x; refine (fun hx => ?_ : P x → _) ?_; clear_value x; rotate_left; subst x; rotate_right)
    | (extract_lets +onlyGivenNames x; refine (fun hx => ?_ : P x.1 → _) ?_; clear_value x; rotate_left; subst x; rotate_right)
    | (extract_lets +onlyGivenNames x; clear_value x)
    | extract_lets +onlyGivenNames x
    | with_reducible apply ite_kept
    | with_reducible apply ite_fst_kept
    | with_reducible apply each_kept
    | with_reducible apply State.setLive_kept hP
    | split
    | (apply Kept.of hP
       · dsimp only <;> exact rfl
       · first | exact id | (intro _; simp_all only [shape, shapeStd, List.cons.injEq, upd_length, List.length_set, List.length_map, List.length_range, List.length_replicate, and_true, true_and, and_self]; done)
       iterate 8 (· exact rfl))
    | with_reducible apply hP.applied

theorem State.armStarts_kept (hP : Kept P) {s : State} (h : P s) (o : State) (l : List Nat) : P (State.armStarts s o l) := by
  unfold State.armStarts
  repeat' first
    | with_reducible assumption
    | intro _
    | (extract_lets +onlyGivenNames x; refine (fun hx => ?_ : P x → _) ?_; clear_value x; rotate_left; subst x; rotate_right)
    | (extract_lets +onlyGivenNames x; refine (fun hx => ?_ : P x.1 → _) ?_; clear_value x; rotate_left; subst x; rotate_right)
    | (extract_lets +onlyGivenNames x; clear_value x)
    | extract_lets +onlyGivenNames x
    | with_reducible apply whenB_kept
    | with_reducible apply each_kept
    | with_reducible apply State.arm_kept hP

theorem State.setFloat_kept (hP : Kept P) {s : State} (h : P s) (o : State) (l : List Nat) : P (State.setFloat s o l) := by
  unfold State.setFloat
  repeat' first
    | with_reducible assumption
    | intro _
    | (extract_lets +onlyGivenNames x; refine (fun hx => ?_ : P x → _) ?_; clear_value x; rotate_left; subst x; rotate_right)
    | (extract_lets +onlyGivenNames x; refine (fun hx => ?_ : P x.1 → _) ?_; clear_value x; rotate_left; subst x; rotate_right)
    | (extract_lets +onlyGivenNames x; clear_value x)
    | extract_lets +onlyGivenNames x
    | with_reducible apply ite_kept
    | with_reducible apply ite_fst_kept
    | with_reducible apply State.beginConverge_kept hP
    | with_reducible apply State.latchPar_kept hP
    | with_reducible apply State.migAbort_kept hP
    | with_reducible apply State.put_kept hP
    | split

theorem State.setEffects_kept (hP : Kept P) {s : State} (h : P s) (o : State) (l : List Nat) (w : List Nat) : P (State.setEffects s o l w) := by
  unfold State.setEffects
  repeat' first
    | with_reducible assumption
    | intro _
    | (extract_lets +onlyGivenNames x; refine (fun hx => ?_ : P x → _) ?_; clear_value x; rotate_left; subst x; rotate_right)
    | (extract_lets +onlyGivenNames x; refine (fun hx => ?_ : P x.1 → _) ?_; clear_value x; rotate_left; subst x; rotate_right)
    | (extract_lets +onlyGivenNames x; clear_value x)
    | extract_lets +onlyGivenNames x
    | with_reducible apply ite_kept
    | with_reducible apply ite_fst_kept
    | with_reducible apply whenB_kept
    | with_reducible apply each_kept
    | with_reducible apply State.armStarts_kept hP
    | with_reducible apply State.bdacApplied_kept hP
    | with_reducible apply State.capEv_kept hP
    | with_reducible apply State.domRefresh_kept hP
    | with_reducible apply State.evalLevel_kept hP
    | with_reducible apply State.floatPga_kept hP
    | with_reducible apply State.flowInvalidateAll_kept hP
    | with_reducible apply State.hostEv_kept hP
    | with_reducible apply State.isAbort_kept hP
    | with_reducible apply State.loadGain_kept hP
    | with_reducible apply State.loadSeed_kept hP
    | with_reducible apply State.ltxChoose_kept hP
    | with_reducible apply State.monApplied_kept hP
    | with_reducible apply State.prioChanged_kept hP
    | with_reducible apply State.refSelect_kept hP
    | with_reducible apply State.ringClear_kept hP
    | with_reducible apply State.setFloat_kept hP
    | split
    | (refine fst_kept (by assumption) ?_)

theorem State.rb3Writes_kept (hP : Kept P) {s : State} (h : P s) (l : List (Nat × Word)) : P (State.rb3Writes s l) := by
  unfold State.rb3Writes
  repeat' first
    | with_reducible assumption
    | intro _
    | (extract_lets +onlyGivenNames x; refine (fun hx => ?_ : P x → _) ?_; clear_value x; rotate_left; subst x; rotate_right)
    | (extract_lets +onlyGivenNames x; refine (fun hx => ?_ : P x.1 → _) ?_; clear_value x; rotate_left; subst x; rotate_right)
    | (extract_lets +onlyGivenNames x; clear_value x)
    | extract_lets +onlyGivenNames x
    | with_reducible apply each_kept
    | with_reducible apply State.memWrite_kept hP
    | with_reducible apply State.pw_kept hP
    | (apply Kept.of hP
       · dsimp only <;> exact rfl
       · first | exact id | (intro _; simp_all only [shape, shapeStd, List.cons.injEq, upd_length, List.length_set, List.length_map, List.length_range, List.length_replicate, and_true, true_and, and_self]; done)
       iterate 8 (· exact rfl))

theorem State.jnlApplied_kept (hP : Kept P) {s : State} (h : P s) (o : State) (kind : Nat) (l : List Nat) : P (State.jnlApplied s o kind l) := by
  unfold State.jnlApplied
  repeat' first
    | with_reducible assumption
    | intro _
    | (extract_lets +onlyGivenNames x; refine (fun hx => ?_ : P x → _) ?_; clear_value x; rotate_left; subst x; rotate_right)
    | (extract_lets +onlyGivenNames x; refine (fun hx => ?_ : P x.1 → _) ?_; clear_value x; rotate_left; subst x; rotate_right)
    | (extract_lets +onlyGivenNames x; clear_value x)
    | extract_lets +onlyGivenNames x
    | with_reducible apply ite_kept
    | with_reducible apply ite_fst_kept
    | with_reducible apply State.jn_kept hP
    | with_reducible apply State.jnlBusy_kept hP
    | with_reducible apply State.jnlClose_kept hP
    | with_reducible apply State.jnlMirror_kept hP
    | with_reducible apply State.put_kept hP
    | with_reducible apply State.rb3Writes_kept hP
    | split
    | (apply Kept.of hP
       · dsimp only <;> exact rfl
       · first | exact id | (intro _; simp_all only [shape, shapeStd, List.cons.injEq, upd_length, List.length_set, List.length_map, List.length_range, List.length_replicate, and_true, true_and, and_self]; done)
       iterate 8 (· exact rfl))

theorem State.setApply_kept (hP : Kept P) {s : State} (h : P s)  : P (State.setApply s) := by
  unfold State.setApply
  repeat' first
    | with_reducible assumption
    | intro _
    | (extract_lets +onlyGivenNames x; refine (fun hx => ?_ : P x → _) ?_; clear_value x; rotate_left; subst x; rotate_right)
    | (extract_lets +onlyGivenNames x; refine (fun hx => ?_ : P x.1 → _) ?_; clear_value x; rotate_left; subst x; rotate_right)
    | (extract_lets +onlyGivenNames x; clear_value x)
    | extract_lets +onlyGivenNames x
    | with_reducible apply ite_kept
    | with_reducible apply ite_fst_kept
    | with_reducible apply whenB_kept
    | with_reducible apply each_kept
    | with_reducible apply State.commitTick_kept hP
    | with_reducible apply State.disarm_kept hP
    | with_reducible apply State.jnlApplied_kept hP
    | with_reducible apply State.outerLock_kept hP
    | with_reducible apply State.put_kept hP
    | with_reducible apply State.setEffects_kept hP
    | with_reducible apply State.st_kept hP
    | with_reducible apply State.tteUnlock_kept hP
    | with_reducible apply State.writeLive_kept hP
    | split
    | (refine fst_kept (by assumption) ?_)
    | (apply Kept.of hP
       · dsimp only <;> exact rfl
       · first | exact id | (intro _; simp_all only [shape, shapeStd, List.cons.injEq, upd_length, List.length_set, List.length_map, List.length_range, List.length_replicate, and_true, true_and, and_self]; done)
       iterate 8 (· exact rfl))

theorem State.stageDirect_kept (hP : Kept P) {s : State} (h : P s) (a : Nat) (w : Word) : P (State.stageDirect s a w) := by
  unfold State.stageDirect
  repeat' first
    | with_reducible assumption
    | (extract_lets +onlyGivenNames x; refine (fun hx => ?_ : P x → _) ?_; clear_value x; rotate_left; subst x; rotate_right)
    | (extract_lets +onlyGivenNames x; refine (fun hx => ?_ : P x.1 → _) ?_; clear_value x; rotate_left; subst x; rotate_right)
    | (extract_lets +onlyGivenNames x; clear_value x)
    | extract_lets +onlyGivenNames x
    | with_reducible apply ite_kept
    | with_reducible apply ite_fst_kept
    | with_reducible apply State.setUnder_kept hP
    | with_reducible apply State.st_kept hP
    | split
    | (refine fst_kept (by assumption) ?_)
    | (apply Kept.of hP
       · dsimp only <;> exact rfl
       · first | exact id | (intro _; simp_all only [shape, shapeStd, List.cons.injEq, upd_length, List.length_set, List.length_map, List.length_range, List.length_replicate, and_true, true_and, and_self]; done)
       iterate 8 (· exact rfl))

theorem State.planRead_kept (hP : Kept P) {s : State} (h : P s) (k : Nat) : P (State.planRead s k).1 := by
  unfold State.planRead
  repeat' first
    | with_reducible assumption
    | (extract_lets +onlyGivenNames x; refine (fun hx => ?_ : P x → _) ?_; clear_value x; rotate_left; subst x; rotate_right)
    | (extract_lets +onlyGivenNames x; refine (fun hx => ?_ : P x.1 → _) ?_; clear_value x; rotate_left; subst x; rotate_right)
    | (extract_lets +onlyGivenNames x; clear_value x)
    | extract_lets +onlyGivenNames x
    | with_reducible apply State.settleRun_kept hP

theorem State.jnlOpen_kept (hP : Kept P) {s : State} (h : P s) (id : Nat) (fwd : Nat) (nsteps : Nat) : P (State.jnlOpen s id fwd nsteps) := by
  unfold State.jnlOpen
  repeat' first
    | with_reducible assumption
    | intro _
    | (extract_lets +onlyGivenNames x; refine (fun hx => ?_ : P x → _) ?_; clear_value x; rotate_left; subst x; rotate_right)
    | (extract_lets +onlyGivenNames x; refine (fun hx => ?_ : P x.1 → _) ?_; clear_value x; rotate_left; subst x; rotate_right)
    | (extract_lets +onlyGivenNames x; clear_value x)
    | extract_lets +onlyGivenNames x
    | with_reducible apply ite_kept
    | with_reducible apply ite_fst_kept
    | with_reducible apply State.jn_kept hP
    | with_reducible apply State.jnlMirror_kept hP
    | with_reducible apply State.planRead_kept hP
    | with_reducible apply State.put_kept hP
    | split

theorem State.jnlStage_kept (hP : Kept P) {s : State} (h : P s) (m : Master) (kind : Nat) (k : Nat) : P (State.jnlStage s m kind k) := by
  unfold State.jnlStage
  repeat' first
    | with_reducible assumption
    | intro _
    | (extract_lets +onlyGivenNames x; refine (fun hx => ?_ : P x → _) ?_; clear_value x; rotate_left; subst x; rotate_right)
    | (extract_lets +onlyGivenNames x; refine (fun hx => ?_ : P x.1 → _) ?_; clear_value x; rotate_left; subst x; rotate_right)
    | (extract_lets +onlyGivenNames x; clear_value x)
    | extract_lets +onlyGivenNames x
    | with_reducible apply ite_kept
    | with_reducible apply ite_fst_kept
    | with_reducible apply each_kept
    | with_reducible apply State.jnlBusy_kept hP
    | with_reducible apply State.jnlClose_kept hP
    | with_reducible apply State.jnlMirror_kept hP
    | with_reducible apply State.planRead_kept hP
    | with_reducible apply State.stageDirect_kept hP
    | with_reducible apply State.startCheck_kept hP
    | split

theorem State.jnlStep_kept (hP : Kept P) {s : State} (h : P s) (m : Master) : P (State.jnlStep s m) := by
  unfold State.jnlStep
  repeat' first
    | with_reducible assumption
    | with_reducible apply ite_kept
    | with_reducible apply ite_fst_kept
    | with_reducible apply State.jnlStage_kept hP
    | split

theorem State.jnlBack_kept (hP : Kept P) {s : State} (h : P s) (m : Master) : P (State.jnlBack s m) := by
  unfold State.jnlBack
  repeat' first
    | with_reducible assumption
    | intro _
    | (extract_lets +onlyGivenNames x; refine (fun hx => ?_ : P x → _) ?_; clear_value x; rotate_left; subst x; rotate_right)
    | (extract_lets +onlyGivenNames x; refine (fun hx => ?_ : P x.1 → _) ?_; clear_value x; rotate_left; subst x; rotate_right)
    | (extract_lets +onlyGivenNames x; clear_value x)
    | extract_lets +onlyGivenNames x
    | with_reducible apply ite_kept
    | with_reducible apply ite_fst_kept
    | with_reducible apply each_kept
    | with_reducible apply State.jn_kept hP
    | with_reducible apply State.jnlBusy_kept hP
    | with_reducible apply State.jnlClose_kept hP
    | with_reducible apply State.jnlMirror_kept hP
    | with_reducible apply State.put_kept hP
    | with_reducible apply State.settleRun_kept hP
    | with_reducible apply State.stageDirect_kept hP
    | with_reducible apply State.startCheck_kept hP
    | split
    | (apply Kept.of hP
       · dsimp only <;> exact rfl
       · first | exact id | (intro _; simp_all only [shape, shapeStd, List.cons.injEq, upd_length, List.length_set, List.length_map, List.length_range, List.length_replicate, and_true, true_and, and_self]; done)
       iterate 8 (· exact rfl))

theorem State.jnlAbort_kept (hP : Kept P) {s : State} (h : P s) (m : Master) : P (State.jnlAbort s m) := by
  unfold State.jnlAbort
  repeat' first
    | with_reducible assumption
    | intro _
    | (extract_lets +onlyGivenNames x; refine (fun hx => ?_ : P x → _) ?_; clear_value x; rotate_left; subst x; rotate_right)
    | (extract_lets +onlyGivenNames x; refine (fun hx => ?_ : P x.1 → _) ?_; clear_value x; rotate_left; subst x; rotate_right)
    | (extract_lets +onlyGivenNames x; clear_value x)
    | extract_lets +onlyGivenNames x
    | with_reducible apply ite_kept
    | with_reducible apply ite_fst_kept
    | with_reducible apply State.jn_kept hP
    | with_reducible apply State.jnlBack_kept hP
    | with_reducible apply State.jnlBusy_kept hP
    | with_reducible apply State.jnlMirror_kept hP
    | with_reducible apply State.put_kept hP
    | split
    | (apply Kept.of hP
       · dsimp only <;> exact rfl
       · first | exact id | (intro _; simp_all only [shape, shapeStd, List.cons.injEq, upd_length, List.length_set, List.length_map, List.length_range, List.length_replicate, and_true, true_and, and_self]; done)
       iterate 8 (· exact rfl))

theorem State.jnlRoll_kept (hP : Kept P) {s : State} (h : P s)  : P (State.jnlRoll s) := by
  unfold State.jnlRoll
  repeat' first
    | with_reducible assumption
    | intro _
    | (extract_lets +onlyGivenNames x; refine (fun hx => ?_ : P x → _) ?_; clear_value x; rotate_left; subst x; rotate_right)
    | (extract_lets +onlyGivenNames x; refine (fun hx => ?_ : P x.1 → _) ?_; clear_value x; rotate_left; subst x; rotate_right)
    | (extract_lets +onlyGivenNames x; clear_value x)
    | extract_lets +onlyGivenNames x
    | with_reducible apply ite_kept
    | with_reducible apply ite_fst_kept
    | with_reducible apply State.jn_kept hP
    | with_reducible apply State.jnlBack_kept hP
    | with_reducible apply State.jnlClose_kept hP
    | with_reducible apply State.jnlStage_kept hP
    | with_reducible apply State.put_kept hP
    | with_reducible apply State.st_kept hP
    | split
    | (apply Kept.of hP
       · dsimp only <;> exact rfl
       · first | exact id | (intro _; simp_all only [shape, shapeStd, List.cons.injEq, upd_length, List.length_set, List.length_map, List.length_range, List.length_replicate, and_true, true_and, and_self]; done)
       iterate 8 (· exact rfl))

theorem State.jnlDataWrite_kept (hP : Kept P) {s : State} (h : P s) (w : Word) (who : Master) : P (State.jnlDataWrite s w who) := by
  unfold State.jnlDataWrite
  repeat' first
    | with_reducible assumption
    | (extract_lets +onlyGivenNames x; refine (fun hx => ?_ : P x → _) ?_; clear_value x; rotate_left; subst x; rotate_right)
    | (extract_lets +onlyGivenNames x; refine (fun hx => ?_ : P x.1 → _) ?_; clear_value x; rotate_left; subst x; rotate_right)
    | (extract_lets +onlyGivenNames x; clear_value x)
    | extract_lets +onlyGivenNames x
    | with_reducible apply ite_kept
    | with_reducible apply ite_fst_kept
    | with_reducible apply State.rbWrite_kept hP
    | split

end Sys2Proof.Machine
end

