-- ==== Sys2Proof/Laws/KeptBoundary.lean ====
section
/-! SUPPORT. What the operations of `Sys2Proof.Machine.Boundary` keep (`Sys2Proof.Laws.Kept`). -/
namespace Sys2Proof.Machine
open State
set_option linter.all false
variable {P : State → Prop}

theorem State.mainMove_kept (hP : Kept P) {s : State} (h : P s) (sl : Nat) : P (State.mainMove s sl) := by
  unfold State.mainMove
  repeat' first
    | with_reducible assumption
    | intro _
    | (extract_lets +onlyGivenNames x; refine (fun hx => ?_ : P x → _) ?_; clear_value x; rotate_left; subst x; rotate_right)
    | (extract_lets +onlyGivenNames x; refine (fun hx => ?_ : P x.1 → _) ?_; clear_value x; rotate_left; subst x; rotate_right)
    | (extract_lets +onlyGivenNames x; clear_value x)
    | extract_lets +onlyGivenNames x
    | with_reducible apply ite_kept
    | with_reducible apply ite_fst_kept
    | with_reducible apply State.enterAcquire_kept hP
    | with_reducible apply State.publishCoefs_kept hP
    | with_reducible apply State.setSlice_kept hP
    | split
    | (apply Kept.of hP
       · dsimp only <;> exact rfl
       · first | exact id | (intro _; simp_all only [shape, shapeStd, List.cons.injEq, upd_length, List.length_set, List.length_map, List.length_range, List.length_replicate, and_true, true_and, and_self]; done)
       iterate 8 (· exact rfl))

theorem State.detThrottle_kept (hP : Kept P) {s : State} (h : P s) (sl : Nat) (old : Bool) : P (State.detThrottle s sl old) := by
  unfold State.detThrottle
  repeat' first
    | with_reducible assumption
    | intro _
    | (extract_lets +onlyGivenNames x; refine (fun hx => ?_ : P x → _) ?_; clear_value x; rotate_left; subst x; rotate_right)
    | (extract_lets +onlyGivenNames x; refine (fun hx => ?_ : P x.1 → _) ?_; clear_value x; rotate_left; subst x; rotate_right)
    | (extract_lets +onlyGivenNames x; clear_value x)
    | extract_lets +onlyGivenNames x
    | with_reducible apply ite_kept
    | with_reducible apply ite_fst_kept
    | with_reducible apply State.publishCoefs_kept hP
    | with_reducible apply State.setSlice_kept hP
    | with_reducible apply State.sliceEv_kept hP
    | with_reducible apply State.take_kept hP
    | split
    | (apply Kept.of hP
       · dsimp only <;> exact rfl
       · first | exact id | (intro _; simp_all only [shape, shapeStd, List.cons.injEq, upd_length, List.length_set, List.length_map, List.length_range, List.length_replicate, and_true, true_and, and_self]; done)
       iterate 8 (· exact rfl))

theorem State.sliceTake_kept (hP : Kept P) {s : State} (h : P s) (sl : Nat) (w : SliceWas) : P (State.sliceTake s sl w) := by
  unfold State.sliceTake
  repeat' first
    | with_reducible assumption
    | intro _
    | (extract_lets +onlyGivenNames x; refine (fun hx => ?_ : P x → _) ?_; clear_value x; rotate_left; subst x; rotate_right)
    | (extract_lets +onlyGivenNames x; refine (fun hx => ?_ : P x.1 → _) ?_; clear_value x; rotate_left; subst x; rotate_right)
    | (extract_lets +onlyGivenNames x; clear_value x)
    | extract_lets +onlyGivenNames x
    | with_reducible apply ite_kept
    | with_reducible apply ite_fst_kept
    | with_reducible apply State.activate_kept hP
    | with_reducible apply State.detThrottle_kept hP
    | with_reducible apply State.mainMove_kept hP
    | with_reducible apply State.setSlice_kept hP
    | split
    | (apply Kept.of hP
       · dsimp only <;> exact rfl
       · first | exact id | (intro _; simp_all only [shape, shapeStd, List.cons.injEq, upd_length, List.length_set, List.length_map, List.length_range, List.length_replicate, and_true, true_and, and_self]; done)
       iterate 8 (· exact rfl))

theorem State.takeRx_kept (hP : Kept P) {s : State} (h : P s) (k : Nat) : P (State.takeRx s k) := by
  unfold State.takeRx
  repeat' first
    | with_reducible assumption
    | (extract_lets +onlyGivenNames x; refine (fun hx => ?_ : P x → _) ?_; clear_value x; rotate_left; subst x; rotate_right)
    | (extract_lets +onlyGivenNames x; refine (fun hx => ?_ : P x.1 → _) ?_; clear_value x; rotate_left; subst x; rotate_right)
    | (extract_lets +onlyGivenNames x; clear_value x)
    | extract_lets +onlyGivenNames x
    | with_reducible refine State.takeIn_kept hP ?_ _ _ (by omega)

theorem State.floatStep_kept (hP : Kept P) {s : State} (h : P s)  : P (State.floatStep s) := by
  unfold State.floatStep
  repeat' first
    | with_reducible assumption
    | (extract_lets +onlyGivenNames x; refine (fun hx => ?_ : P x → _) ?_; clear_value x; rotate_left; subst x; rotate_right)
    | (extract_lets +onlyGivenNames x; refine (fun hx => ?_ : P x.1 → _) ?_; clear_value x; rotate_left; subst x; rotate_right)
    | (extract_lets +onlyGivenNames x; clear_value x)
    | extract_lets +onlyGivenNames x
    | with_reducible apply State.floatTake_kept hP
    | with_reducible apply State.sliceTake_kept hP

theorem State.floatUnmapped_kept (hP : Kept P) {s : State} (h : P s) (k : Nat) : P (State.floatUnmapped s k) := by
  unfold State.floatUnmapped
  repeat' first
    | with_reducible assumption
    | intro _
    | (extract_lets +onlyGivenNames x; refine (fun hx => ?_ : P x → _) ?_; clear_value x; rotate_left; subst x; rotate_right)
    | (extract_lets +onlyGivenNames x; refine (fun hx => ?_ : P x.1 → _) ?_; clear_value x; rotate_left; subst x; rotate_right)
    | (extract_lets +onlyGivenNames x; clear_value x)
    | extract_lets +onlyGivenNames x
    | with_reducible apply ite_kept
    | with_reducible apply ite_fst_kept
    | with_reducible apply State.floatPark_kept hP
    | with_reducible apply State.migResult_kept hP
    | with_reducible apply State.retireSlice_kept hP
    | with_reducible apply State.setLane_kept hP
    | split
    | (apply Kept.of hP
       · dsimp only <;> exact rfl
       · first | exact id | (intro _; simp_all only [shape, shapeStd, List.cons.injEq, upd_length, List.length_set, List.length_map, List.length_range, List.length_replicate, and_true, true_and, and_self]; done)
       iterate 8 (· exact rfl))

theorem State.rxBoundary_kept (hP : Kept P) {s : State} (h : P s) (k : Nat) : P (State.rxBoundary s k) := by
  unfold State.rxBoundary
  repeat' first
    | with_reducible assumption
    | intro _
    | (extract_lets +onlyGivenNames x; refine (fun hx => ?_ : P x → _) ?_; clear_value x; rotate_left; subst x; rotate_right)
    | (extract_lets +onlyGivenNames x; refine (fun hx => ?_ : P x.1 → _) ?_; clear_value x; rotate_left; subst x; rotate_right)
    | (extract_lets +onlyGivenNames x; clear_value x)
    | extract_lets +onlyGivenNames x
    | with_reducible apply ite_kept
    | with_reducible apply ite_fst_kept
    | with_reducible apply whenB_kept
    | with_reducible apply State.effortTake_kept hP
    | with_reducible apply State.floatStep_kept hP
    | with_reducible apply State.floatUnmapped_kept hP
    | with_reducible apply State.hostTxBoundary_kept hP
    | with_reducible apply State.patSelect_kept hP
    | with_reducible apply State.rehunt_kept hP
    | with_reducible apply State.remapRetired_kept hP
    | with_reducible apply State.sliceTake_kept hP
    | with_reducible apply State.take_kept hP
    | with_reducible apply State.takeRx_kept hP
    | with_reducible apply State.tteBoundary_kept hP
    | split
    | (apply Kept.of hP
       · dsimp only <;> exact rfl
       · first | exact id | (intro _; simp_all only [shape, shapeStd, List.cons.injEq, upd_length, List.length_set, List.length_map, List.length_range, List.length_replicate, and_true, true_and, and_self]; done)
       iterate 8 (· exact rfl))
    | with_reducible apply hP.inUse

theorem State.sendBoundary_kept (hP : Kept P) {s : State} (h : P s) (k : Nat) : P (State.sendBoundary s k) := by
  unfold State.sendBoundary
  repeat' first
    | with_reducible assumption
    | (extract_lets +onlyGivenNames x; refine (fun hx => ?_ : P x → _) ?_; clear_value x; rotate_left; subst x; rotate_right)
    | (extract_lets +onlyGivenNames x; refine (fun hx => ?_ : P x.1 → _) ?_; clear_value x; rotate_left; subst x; rotate_right)
    | (extract_lets +onlyGivenNames x; clear_value x)
    | extract_lets +onlyGivenNames x
    | with_reducible apply State.hostRxBoundary_kept hP
    | with_reducible apply State.tteBoundary_kept hP
    | with_reducible apply State.txBoundary_kept hP

theorem State.floatBoundary_kept (hP : Kept P) {s : State} (h : P s)  : P (State.floatBoundary s) := by
  unfold State.floatBoundary
  repeat' first
    | with_reducible assumption
    | intro _
    | with_reducible apply whenB_kept
    | with_reducible apply State.floatStep_kept hP

end Sys2Proof.Machine
end

