-- ==== Sys2Proof/Laws/KeptBus.lean ====
section
/-! SUPPORT. What the operations of `Sys2Proof.Machine.Bus` keep (`Sys2Proof.Laws.Kept`). -/
namespace Sys2Proof.Machine
open State
set_option linter.all false
variable {P : State → Prop}

theorem State.violate_kept (hP : Kept P) {s : State} (h : P s) (m : Master) (cause : Nat) (a : Nat) : P (State.violate s m cause a) := by
  unfold State.violate
  repeat' first
    | with_reducible assumption
    | (extract_lets +onlyGivenNames x; refine (fun hx => ?_ : P x → _) ?_; clear_value x; rotate_left; subst x; rotate_right)
    | (extract_lets +onlyGivenNames x; refine (fun hx => ?_ : P x.1 → _) ?_; clear_value x; rotate_left; subst x; rotate_right)
    | (extract_lets +onlyGivenNames x; clear_value x)
    | extract_lets +onlyGivenNames x
    | with_reducible apply ite_kept
    | with_reducible apply ite_fst_kept
    | with_reducible apply State.ev_kept hP
    | with_reducible apply State.inc_kept hP
    | with_reducible apply State.put_kept hP
    | split

theorem State.releaseWrite_kept (hP : Kept P) {s : State} (h : P s) (m : Master) (w : Word) : P (State.releaseWrite s m w) := by
  unfold State.releaseWrite
  repeat' first
    | with_reducible assumption
    | (extract_lets +onlyGivenNames x; refine (fun hx => ?_ : P x → _) ?_; clear_value x; rotate_left; subst x; rotate_right)
    | (extract_lets +onlyGivenNames x; refine (fun hx => ?_ : P x.1 → _) ?_; clear_value x; rotate_left; subst x; rotate_right)
    | (extract_lets +onlyGivenNames x; clear_value x)
    | extract_lets +onlyGivenNames x
    | with_reducible apply ite_kept
    | with_reducible apply ite_fst_kept
    | with_reducible apply State.put_kept hP
    | split

theorem State.windowRead_kept (hP : Kept P) {s : State} (h : P s) (mem : Nat) (a : Nat) (m : Master) : P (State.windowRead s mem a m).1 := by
  unfold State.windowRead
  repeat' first
    | with_reducible assumption
    | intro _
    | (extract_lets +onlyGivenNames x; refine (fun hx => ?_ : P x → _) ?_; clear_value x; rotate_left; subst x; rotate_right)
    | (extract_lets +onlyGivenNames x; refine (fun hx => ?_ : P x.1 → _) ?_; clear_value x; rotate_left; subst x; rotate_right)
    | (extract_lets +onlyGivenNames x; clear_value x)
    | extract_lets +onlyGivenNames x
    | with_reducible apply ite_kept
    | with_reducible apply ite_fst_kept
    | with_reducible apply whenB_kept
    | with_reducible apply State.isAbort_kept hP
    | with_reducible apply State.memRead_kept hP
    | split
    | (refine fst_kept (by assumption) ?_)

theorem State.regRead_kept (hP : Kept P) {s : State} (h : P s) (m : Master) (r : Row) (a : Nat) (i : List Nat) (p : Nat) : P (State.regRead s m r a i p).1 := by
  unfold State.regRead
  repeat' first
    | with_reducible assumption
    | intro _
    | (extract_lets +onlyGivenNames x; refine (fun hx => ?_ : P x → _) ?_; clear_value x; rotate_left; subst x; rotate_right)
    | (extract_lets +onlyGivenNames x; refine (fun hx => ?_ : P x.1 → _) ?_; clear_value x; rotate_left; subst x; rotate_right)
    | (extract_lets +onlyGivenNames x; clear_value x)
    | extract_lets +onlyGivenNames x
    | with_reducible apply ite_kept
    | with_reducible apply ite_fst_kept
    | with_reducible apply whenB_kept
    | with_reducible apply foldl_kept
    | with_reducible apply foldl_fst_kept
    | with_reducible apply foldl_snd_kept
    | with_reducible apply State.dbgRead_kept hP
    | with_reducible apply State.evtRead_kept hP
    | with_reducible apply State.isAbort_kept hP
    | with_reducible apply State.setLive_kept hP
    | with_reducible apply State.useFree_kept hP
    | with_reducible apply State.windowRead_kept hP
    | split
    | (refine fst_kept (by assumption) ?_)
    | (apply Kept.of hP
       · dsimp only <;> exact rfl
       · first | exact id | (intro _; simp_all only [shape, shapeStd, List.cons.injEq, upd_length, List.length_set, List.length_map, List.length_range, List.length_replicate, and_true, true_and, and_self]; done)
       iterate 8 (· exact rfl))

theorem State.busRead_kept (hP : Kept P) {s : State} (h : P s) (m : Master) (a : Nat) (p : Nat) : P (State.busRead s m a p).1 := by
  unfold State.busRead
  repeat' first
    | with_reducible assumption
    | (extract_lets +onlyGivenNames x; refine (fun hx => ?_ : P x → _) ?_; clear_value x; rotate_left; subst x; rotate_right)
    | (extract_lets +onlyGivenNames x; refine (fun hx => ?_ : P x.1 → _) ?_; clear_value x; rotate_left; subst x; rotate_right)
    | (extract_lets +onlyGivenNames x; clear_value x)
    | extract_lets +onlyGivenNames x
    | with_reducible apply ite_kept
    | with_reducible apply ite_fst_kept
    | with_reducible apply State.memReport_kept hP
    | with_reducible apply State.regRead_kept hP
    | with_reducible apply State.useFree_kept hP
    | split
    | (refine fst_kept (by assumption) ?_)
    | (apply Kept.of hP
       · dsimp only <;> exact rfl
       · first | exact id | (intro _; simp_all only [shape, shapeStd, List.cons.injEq, upd_length, List.length_set, List.length_map, List.length_range, List.length_replicate, and_true, true_and, and_self]; done)
       iterate 8 (· exact rfl))

theorem State.fieldsWrite_kept (hP : Kept P) {s : State} (h : P s) (r : Row) (a : Nat) (w : Word) : P (State.fieldsWrite s r a w) := by
  unfold State.fieldsWrite
  repeat' first
    | with_reducible assumption
    | intro _
    | (extract_lets +onlyGivenNames x; refine (fun hx => ?_ : P x → _) ?_; clear_value x; rotate_left; subst x; rotate_right)
    | (extract_lets +onlyGivenNames x; refine (fun hx => ?_ : P x.1 → _) ?_; clear_value x; rotate_left; subst x; rotate_right)
    | (extract_lets +onlyGivenNames x; clear_value x)
    | extract_lets +onlyGivenNames x
    | with_reducible apply ite_kept
    | with_reducible apply ite_fst_kept
    | with_reducible apply foldl_kept
    | with_reducible apply foldl_fst_kept
    | with_reducible apply foldl_snd_kept
    | with_reducible apply State.setLive_kept hP
    | split
    | (refine fst_kept (by assumption) ?_)
    | (apply Kept.of hP
       · dsimp only <;> exact rfl
       · first | exact id | (intro _; simp_all only [shape, shapeStd, List.cons.injEq, upd_length, List.length_set, List.length_map, List.length_range, List.length_replicate, and_true, true_and, and_self]; done)
       iterate 8 (· exact rfl))

theorem State.swapReq_kept (hP : Kept P) {s : State} (h : P s)  : P (State.swapReq s) := by
  unfold State.swapReq
  dsimp only
  repeat' first
    | with_reducible assumption
    | (extract_lets +onlyGivenNames x; refine (fun hx => ?_ : P x → _) ?_; clear_value x; rotate_left; subst x; rotate_right)
    | (extract_lets +onlyGivenNames x; refine (fun hx => ?_ : P x.1 → _) ?_; clear_value x; rotate_left; subst x; rotate_right)
    | (extract_lets +onlyGivenNames x; clear_value x)
    | extract_lets +onlyGivenNames x
    | with_reducible apply ite_kept
    | with_reducible apply ite_fst_kept
    | with_reducible apply State.put_kept hP
    | split

theorem State.swapConfirm_kept (hP : Kept P) {s : State} (h : P s)  : P (State.swapConfirm s) := by
  unfold State.swapConfirm
  repeat' first
    | with_reducible assumption
    | intro _
    | (extract_lets +onlyGivenNames x; refine (fun hx => ?_ : P x → _) ?_; clear_value x; rotate_left; subst x; rotate_right)
    | (extract_lets +onlyGivenNames x; refine (fun hx => ?_ : P x.1 → _) ?_; clear_value x; rotate_left; subst x; rotate_right)
    | (extract_lets +onlyGivenNames x; clear_value x)
    | extract_lets +onlyGivenNames x
    | with_reducible apply ite_kept
    | with_reducible apply ite_fst_kept
    | with_reducible apply whenB_kept
    | with_reducible apply State.arbTo_kept hP
    | with_reducible apply State.put_kept hP
    | split

theorem State.swapWrite_kept (hP : Kept P) {s : State} (h : P s) (w : Word) : P (State.swapWrite s w) := by
  unfold State.swapWrite
  repeat' first
    | with_reducible assumption
    | intro _
    | (extract_lets +onlyGivenNames x; refine (fun hx => ?_ : P x → _) ?_; clear_value x; rotate_left; subst x; rotate_right)
    | (extract_lets +onlyGivenNames x; refine (fun hx => ?_ : P x.1 → _) ?_; clear_value x; rotate_left; subst x; rotate_right)
    | (extract_lets +onlyGivenNames x; clear_value x)
    | extract_lets +onlyGivenNames x
    | with_reducible apply whenB_kept
    | with_reducible apply State.put_kept hP
    | with_reducible apply State.swapConfirm_kept hP
    | with_reducible apply State.swapReq_kept hP

theorem State.jnlCtl_kept (hP : Kept P) {s : State} (h : P s) (m : Master) (w : Word) : P (State.jnlCtl s m w) := by
  unfold State.jnlCtl
  repeat' first
    | with_reducible assumption
    | (extract_lets +onlyGivenNames x; refine (fun hx => ?_ : P x → _) ?_; clear_value x; rotate_left; subst x; rotate_right)
    | (extract_lets +onlyGivenNames x; refine (fun hx => ?_ : P x.1 → _) ?_; clear_value x; rotate_left; subst x; rotate_right)
    | (extract_lets +onlyGivenNames x; clear_value x)
    | extract_lets +onlyGivenNames x
    | with_reducible apply State.jnlAbort_kept hP
    | with_reducible apply State.jnlOpen_kept hP
    | with_reducible apply State.jnlStep_kept hP
    | split
    | (refine fst_kept (by assumption) ?_)
    | (apply Kept.of hP
       · dsimp only <;> exact rfl
       · first | exact id | (intro _; simp_all only [shape, shapeStd, List.cons.injEq, upd_length, List.length_set, List.length_map, List.length_range, List.length_replicate, and_true, true_and, and_self]; done)
       iterate 8 (· exact rfl))

theorem State.tstRead_kept (hP : Kept P) {s : State} (h : P s) (mem : Nat) : P (State.tstRead s mem) := by
  unfold State.tstRead
  repeat' first
    | with_reducible assumption
    | (extract_lets +onlyGivenNames x; refine (fun hx => ?_ : P x → _) ?_; clear_value x; rotate_left; subst x; rotate_right)
    | (extract_lets +onlyGivenNames x; refine (fun hx => ?_ : P x.1 → _) ?_; clear_value x; rotate_left; subst x; rotate_right)
    | (extract_lets +onlyGivenNames x; clear_value x)
    | extract_lets +onlyGivenNames x
    | with_reducible apply State.put_kept hP

theorem State.tstWriteData_kept (hP : Kept P) {s : State} (h : P s) (mem : Nat) : P (State.tstWriteData s mem) := by
  unfold State.tstWriteData
  repeat' first
    | with_reducible assumption
    | with_reducible apply State.setCell_kept hP

theorem State.tstWriteCheck_kept (hP : Kept P) {s : State} (h : P s) (mem : Nat) : P (State.tstWriteCheck s mem) := by
  unfold State.tstWriteCheck
  repeat' first
    | with_reducible assumption
    | with_reducible apply State.setCell_kept hP

theorem State.tstWriteBoth_kept (hP : Kept P) {s : State} (h : P s) (mem : Nat) : P (State.tstWriteBoth s mem) := by
  unfold State.tstWriteBoth
  repeat' first
    | with_reducible assumption
    | with_reducible apply State.setCell_kept hP

theorem State.tstCtl_kept (hP : Kept P) {s : State} (h : P s) (w : Word) : P (State.tstCtl s w) := by
  unfold State.tstCtl
  repeat' first
    | with_reducible assumption
    | intro _
    | (extract_lets +onlyGivenNames x; refine (fun hx => ?_ : P x → _) ?_; clear_value x; rotate_left; subst x; rotate_right)
    | (extract_lets +onlyGivenNames x; refine (fun hx => ?_ : P x.1 → _) ?_; clear_value x; rotate_left; subst x; rotate_right)
    | (extract_lets +onlyGivenNames x; clear_value x)
    | extract_lets +onlyGivenNames x
    | with_reducible apply ite_kept
    | with_reducible apply ite_fst_kept
    | with_reducible apply whenB_kept
    | with_reducible apply State.isAbort_kept hP
    | with_reducible apply State.tstRead_kept hP
    | with_reducible apply State.tstWriteBoth_kept hP
    | with_reducible apply State.tstWriteCheck_kept hP
    | with_reducible apply State.tstWriteData_kept hP
    | split
    | (refine fst_kept (by assumption) ?_)
    | (apply Kept.of hP
       · dsimp only <;> exact rfl
       · first | exact id | (intro _; simp_all only [shape, shapeStd, List.cons.injEq, upd_length, List.length_set, List.length_map, List.length_range, List.length_replicate, and_true, true_and, and_self]; done)
       iterate 8 (· exact rfl))

theorem State.logPop_kept (hP : Kept P) {s : State} (h : P s)  : P (State.logPop s) := by
  unfold State.logPop
  repeat' first
    | with_reducible assumption
    | (extract_lets +onlyGivenNames x; refine (fun hx => ?_ : P x → _) ?_; clear_value x; rotate_left; subst x; rotate_right)
    | (extract_lets +onlyGivenNames x; refine (fun hx => ?_ : P x.1 → _) ?_; clear_value x; rotate_left; subst x; rotate_right)
    | extract_lets +onlyGivenNames x
    | with_reducible apply State.put_kept hP
    | (apply Kept.of hP
       · dsimp only <;> exact rfl
       · first | exact id | (intro _; simp_all only [shape, shapeStd, List.cons.injEq, upd_length, List.length_set, List.length_map, List.length_range, List.length_replicate, and_true, true_and, and_self]; done)
       iterate 8 (· exact rfl))

theorem State.fltCmd_kept (hP : Kept P) {s : State} (h : P s) (w : Word) : P (State.fltCmd s w) := by
  unfold State.fltCmd
  repeat' first
    | with_reducible assumption
    | (extract_lets +onlyGivenNames x; refine (fun hx => ?_ : P x → _) ?_; clear_value x; rotate_left; subst x; rotate_right)
    | (extract_lets +onlyGivenNames x; refine (fun hx => ?_ : P x.1 → _) ?_; clear_value x; rotate_left; subst x; rotate_right)
    | (extract_lets +onlyGivenNames x; clear_value x)
    | extract_lets +onlyGivenNames x
    | with_reducible apply State.fltCopy_kept hP
    | with_reducible apply State.fltFlush_kept hP
    | with_reducible apply State.fltInvalidate_kept hP
    | split
    | (refine fst_kept (by assumption) ?_)
    | (apply Kept.of hP
       · dsimp only <;> exact rfl
       · first | exact id | (intro _; simp_all only [shape, shapeStd, List.cons.injEq, upd_length, List.length_set, List.length_map, List.length_range, List.length_replicate, and_true, true_and, and_self]; done)
       iterate 8 (· exact rfl))

theorem State.secLoadCtl_kept (hP : Kept P) {s : State} (h : P s) (w : Word) : P (State.secLoadCtl s w) := by
  unfold State.secLoadCtl
  repeat' first
    | with_reducible assumption
    | (extract_lets +onlyGivenNames x; refine (fun hx => ?_ : P x → _) ?_; clear_value x; rotate_left; subst x; rotate_right)
    | (extract_lets +onlyGivenNames x; refine (fun hx => ?_ : P x.1 → _) ?_; clear_value x; rotate_left; subst x; rotate_right)
    | (extract_lets +onlyGivenNames x; clear_value x)
    | extract_lets +onlyGivenNames x
    | with_reducible apply State.secBegin_kept hP
    | with_reducible apply State.secVerify_kept hP
    | split
    | (refine fst_kept (by assumption) ?_)
    | (apply Kept.of hP
       · dsimp only <;> exact rfl
       · first | exact id | (intro _; simp_all only [shape, shapeStd, List.cons.injEq, upd_length, List.length_set, List.length_map, List.length_range, List.length_replicate, and_true, true_and, and_self]; done)
       iterate 8 (· exact rfl))

theorem State.windowWrite_kept (hP : Kept P) {s : State} (h : P s) (mem : Nat) (a : Nat) (m : Master) (mask : Word) (w : Word) : P (State.windowWrite s mem a m mask w).1 := by
  unfold State.windowWrite
  repeat' first
    | with_reducible assumption
    | intro _
    | (extract_lets +onlyGivenNames x; refine (fun hx => ?_ : P x → _) ?_; clear_value x; rotate_left; subst x; rotate_right)
    | (extract_lets +onlyGivenNames x; refine (fun hx => ?_ : P x.1 → _) ?_; clear_value x; rotate_left; subst x; rotate_right)
    | (extract_lets +onlyGivenNames x; clear_value x)
    | extract_lets +onlyGivenNames x
    | with_reducible apply ite_kept
    | with_reducible apply ite_fst_kept
    | with_reducible apply whenB_kept
    | with_reducible apply State.isAbort_kept hP
    | with_reducible apply State.memNarrow_kept hP
    | with_reducible apply State.memWrite_kept hP
    | with_reducible apply State.rbNarrow_kept hP
    | with_reducible apply State.rbWrite_kept hP
    | split
    | (refine fst_kept (by assumption) ?_)

theorem State.regWrite_kept (hP : Kept P) {s : State} (h : P s) (m : Master) (r : Row) (a : Nat) (i : List Nat) (mask w : Word) :
    P (State.regWrite s m r a i mask w).1 := by
  unfold State.regWrite
  extract_lets b k ok d e t
  have hok : ∀ x, P x → P (ok x).1 := fun x hx => hx
  have hw : ∀ u v, P (State.windowWrite s u v m mask w).1 := fun u v => State.windowWrite_kept hP h _ _ _ _ _
  have ht : P t := whenB_kept h fun t ht => State.put_kept hP ht _ _ _
  clear_value b ok d e t
  repeat' first
    | with_reducible assumption
    | intro _
    | with_reducible apply ite_fst_kept
    | exact hw _ _
    | with_reducible apply hok
    | with_reducible apply ite_kept
    | with_reducible apply whenB_kept
    | with_reducible apply State.ringTouch_kept hP
    | with_reducible apply State.fieldsWrite_kept hP
    | with_reducible apply State.releaseWrite_kept hP
    | with_reducible apply State.startCheck_kept hP
    | with_reducible apply State.rstCmd_kept hP
    | with_reducible apply State.pwrRequest_kept hP
    | with_reducible apply State.lcsMove_kept hP
    | with_reducible apply State.tokWrite_kept hP
    | with_reducible apply State.fltCmd_kept hP
    | with_reducible apply State.seqCtlWrite_kept hP
    | with_reducible apply State.wdogWrite_kept hP
    | with_reducible apply State.doorbell_kept hP
    | with_reducible apply State.dbgWrite_kept hP
    | with_reducible apply State.swapWrite_kept hP
    | with_reducible apply State.jnlCtl_kept hP
    | with_reducible apply State.jnlDataWrite_kept hP
    | with_reducible apply State.taskWrite_kept hP
    | with_reducible apply State.logPop_kept hP
    | with_reducible apply State.put_kept hP
    | with_reducible apply State.tstCtl_kept hP
    | with_reducible apply State.pmcCtlWrite_kept hP
    | with_reducible apply State.secLoadCtl_kept hP
    | with_reducible apply State.secLoadData_kept hP
    | with_reducible apply State.arbAdvance_kept hP
    | with_reducible apply State.revoke_kept hP
    | with_reducible apply State.attGo_kept hP
    | with_reducible apply State.proxyGo_kept hP
    | with_reducible apply State.useFree_kept hP
    | with_reducible apply State.isAbort_kept hP

theorem State.busWriteM_kept (hP : Kept P) {s : State} (h : P s) (m : Master) (a : Nat) (mask : Word) (w : Word) : P (State.busWriteM s m a mask w).1 := by
  unfold State.busWriteM
  repeat' first
    | with_reducible assumption
    | intro _
    | (extract_lets +onlyGivenNames x; refine (fun hx => ?_ : P x → _) ?_; clear_value x; rotate_left; subst x; rotate_right)
    | (extract_lets +onlyGivenNames x; refine (fun hx => ?_ : P x.1 → _) ?_; clear_value x; rotate_left; subst x; rotate_right)
    | (extract_lets +onlyGivenNames x; clear_value x)
    | extract_lets +onlyGivenNames x
    | with_reducible apply ite_kept
    | with_reducible apply ite_fst_kept
    | with_reducible apply whenB_kept
    | with_reducible apply State.regWrite_kept hP
    | with_reducible apply State.setUnder_kept hP
    | with_reducible apply State.st_kept hP
    | with_reducible apply State.violate_kept hP
    | with_reducible apply State.wakeBy_kept hP
    | with_reducible apply State.writeCi_kept hP
    | with_reducible apply State.writePi_kept hP
    | split
    | (refine fst_kept (by assumption) ?_)
    | (apply Kept.of hP
       · dsimp only <;> exact rfl
       · first | exact id | (intro _; simp_all only [shape, shapeStd, List.cons.injEq, upd_length, List.length_set, List.length_map, List.length_range, List.length_replicate, and_true, true_and, and_self]; done)
       iterate 8 (· exact rfl))

theorem State.busWrite_kept (hP : Kept P) {s : State} (h : P s) (m : Master) (a : Nat) (w : Word) : P (State.busWrite s m a w).1 := by
  unfold State.busWrite
  repeat' first
    | with_reducible assumption
    | with_reducible apply State.busWriteM_kept hP

theorem State.portRead_kept (hP : Kept P) {s : State} (h : P s) (m : Master) (a : Nat) (p : Nat) : P (State.portRead s m a p).1 := by
  unfold State.portRead
  repeat' first
    | with_reducible assumption
    | with_reducible apply ite_kept
    | with_reducible apply ite_fst_kept
    | with_reducible apply State.busRead_kept hP
    | split

theorem State.portWrite_kept (hP : Kept P) {s : State} (h : P s) (m : Master) (a : Nat) (w : Word) : P (State.portWrite s m a w).1 := by
  unfold State.portWrite
  repeat' first
    | with_reducible assumption
    | with_reducible apply ite_kept
    | with_reducible apply ite_fst_kept
    | with_reducible apply State.busWrite_kept hP
    | split

end Sys2Proof.Machine
end

