-- ==== Sys2Proof/Laws/KeptScrimRx.lean ====
section
/-! SUPPORT. What the operations of `Sys2Proof.Machine.ScrimRx` keep (`Sys2Proof.Laws.Kept`). -/
namespace Sys2Proof.Machine
open State
set_option linter.all false
variable {P : State → Prop}

theorem State.toRing_kept (hP : Kept P) {s : State} (h : P s) (j at_ : Nat) (f : SFrame) : Taken.keeps P (State.toRing s j at_ f) := by
  unfold State.toRing
  repeat' first
    | exact trivial
    | extract_lets
    | split
    | exact State.enterRecord_kept hP h _ _ _

theorem State.regAnswer_kept (hP : Kept P) {s : State} (h : P s) (j : Nat) (f : SFrame) (status : Nat) (ws : List Word) : P (State.regAnswer s j f status ws) := by
  unfold State.regAnswer
  repeat' first
    | with_reducible assumption
    | intro _
    | (extract_lets +onlyGivenNames x; refine (fun hx => ?_ : P x → _) ?_; clear_value x; rotate_left; subst x; rotate_right)
    | (extract_lets +onlyGivenNames x; refine (fun hx => ?_ : P x.1 → _) ?_; clear_value x; rotate_left; subst x; rotate_right)
    | (extract_lets +onlyGivenNames x; clear_value x)
    | extract_lets +onlyGivenNames x
    | with_reducible apply ite_kept
    | with_reducible apply ite_fst_kept
    | with_reducible apply State.sendMessage_kept hP
    | split

theorem State.regReads_kept (hP : Kept P) {s : State} (h : P s) (at_ a n : Nat) : P (State.regReads s at_ a n).1 := by
  induction n generalizing s a with
  | zero => exact h
  | succ n ih => exact ih (State.busRead_kept hP (State.pmc_kept hP h _ _ _) _ _ _) _

theorem State.regWrites_kept (hP : Kept P) {s : State} (h : P s) (a : Nat) (l : List Word) : P (State.regWrites s a l).1 := by
  induction l generalizing s a with
  | nil => exact h
  | cons w l ih =>
    have h1 := State.busWrite_kept hP (State.pmc_kept hP h 0x82 1 1) .scrim (a % 2 ^ 24) w
    unfold State.regWrites
    dsimp only
    split
    · exact h1
    · exact ih h1 _

theorem State.regRequest_kept (hP : Kept P) {s : State} (h : P s) (j : Nat) (at_ : Nat) (f : SFrame) (write : Bool) : P (State.regRequest s j at_ f write) := by
  unfold State.regRequest
  repeat' first
    | with_reducible assumption
    | (extract_lets +onlyGivenNames x; refine (fun hx => ?_ : P x → _) ?_; clear_value x; rotate_left; subst x; rotate_right)
    | (extract_lets +onlyGivenNames x; refine (fun hx => ?_ : P x.1 → _) ?_; clear_value x; rotate_left; subst x; rotate_right)
    | (extract_lets +onlyGivenNames x; clear_value x)
    | extract_lets +onlyGivenNames x
    | with_reducible apply ite_kept
    | with_reducible apply ite_fst_kept
    | with_reducible apply State.regAnswer_kept hP
    | with_reducible apply State.regReads_kept hP
    | with_reducible apply State.regWrites_kept hP
    | with_reducible apply State.viol_kept hP
    | split
    | (refine fst_kept (by assumption) ?_)

theorem State.bootData_kept (hP : Kept P) {s : State} (h : P s) (f : SFrame) : P (State.bootData s f) := by
  unfold State.bootData
  repeat' first
    | with_reducible assumption
    | intro _
    | (extract_lets +onlyGivenNames x; refine (fun hx => ?_ : P x → _) ?_; clear_value x; rotate_left; subst x; rotate_right)
    | (extract_lets +onlyGivenNames x; refine (fun hx => ?_ : P x.1 → _) ?_; clear_value x; rotate_left; subst x; rotate_right)
    | (extract_lets +onlyGivenNames x; clear_value x)
    | extract_lets +onlyGivenNames x
    | with_reducible apply ite_kept
    | with_reducible apply ite_fst_kept
    | with_reducible apply each_kept
    | with_reducible apply State.sc_kept hP
    | with_reducible apply State.storeImage_kept hP
    | split
    | (apply Kept.of hP
       · dsimp only <;> exact rfl
       · first | exact id | (intro _; simp_all only [shape, shapeStd, List.cons.injEq, upd_length, List.length_set, List.length_map, List.length_range, List.length_replicate, and_true, true_and, and_self]; done)
       iterate 8 (· exact rfl))

theorem State.bootEnd_kept (hP : Kept P) {s : State} (h : P s) (f : SFrame) : P (State.bootEnd s f) := by
  unfold State.bootEnd
  repeat' first
    | with_reducible assumption
    | with_reducible apply ite_kept
    | with_reducible apply ite_fst_kept
    | with_reducible apply State.secVerify_kept hP
    | split

theorem State.linkMeasure_kept (hP : Kept P) {s : State} (h : P s) (j : Nat) (at_ : Nat) (e : Int) : P (State.linkMeasure s j at_ e) := by
  unfold State.linkMeasure
  repeat' first
    | with_reducible assumption
    | intro _
    | (extract_lets +onlyGivenNames x; refine (fun hx => ?_ : P x → _) ?_; clear_value x; rotate_left; subst x; rotate_right)
    | (extract_lets +onlyGivenNames x; refine (fun hx => ?_ : P x.1 → _) ?_; clear_value x; rotate_left; subst x; rotate_right)
    | (extract_lets +onlyGivenNames x; clear_value x)
    | extract_lets +onlyGivenNames x
    | with_reducible apply whenB_kept
    | with_reducible apply State.measure_kept hP

theorem State.timeRx_kept (hP : Kept P) {s : State} (h : P s) (j : Nat) (at_ : Nat) (f : SFrame) : P (State.timeRx s j at_ f) := by
  unfold State.timeRx
  repeat' first
    | with_reducible assumption
    | intro _
    | (extract_lets +onlyGivenNames x; refine (fun hx => ?_ : P x → _) ?_; clear_value x; rotate_left; subst x; rotate_right)
    | (extract_lets +onlyGivenNames x; refine (fun hx => ?_ : P x.1 → _) ?_; clear_value x; rotate_left; subst x; rotate_right)
    | (extract_lets +onlyGivenNames x; clear_value x)
    | extract_lets +onlyGivenNames x
    | with_reducible apply ite_kept
    | with_reducible apply ite_fst_kept
    | with_reducible apply State.linkMeasure_kept hP
    | with_reducible apply State.put_kept hP
    | with_reducible apply State.putI_kept hP
    | with_reducible apply State.setLink_kept hP
    | split
    | (refine fst_kept (by assumption) ?_)
    | (apply Kept.of hP
       · dsimp only <;> exact rfl
       · first | exact id | (intro _; simp_all only [shape, shapeStd, List.cons.injEq, upd_length, List.length_set, List.length_map, List.length_range, List.length_replicate, and_true, true_and, and_self]; done)
       iterate 8 (· exact rfl))

theorem State.trigAtRx_kept (hP : Kept P) {s : State} (h : P s) (f : SFrame) : P (State.trigAtRx s f) := by
  unfold State.trigAtRx
  repeat' first
    | with_reducible assumption
    | with_reducible apply State.trigAt_kept hP

theorem State.takeMessage_kept (hP : Kept P) {s : State} (h : P s) (j at_ : Nat) (f : SFrame) : Taken.keeps P (State.takeMessage s j at_ f) := by
  unfold State.takeMessage
  repeat' first
    | exact trivial
    | extract_lets
    | split
    | exact State.regRequest_kept hP h _ _ _ _
    | exact State.proxyRsp_kept hP h _
    | exact State.trigAtRx_kept hP h _
    | exact State.bootData_kept hP h _
    | exact State.bootEnd_kept hP h _
    | exact State.toRing_kept hP h _ _ _

theorem State.takeFrameRx_kept (hP : Kept P) {s : State} (h : P s) (j at_ : Nat) (f : SFrame) : optKeeps P (State.takeFrameRx s j at_ f) := by
  unfold State.takeFrameRx
  repeat' first
    | exact trivial
    | extract_lets
    | split
    | exact State.viol_kept hP h _
    | exact State.sendFrame_kept hP h _ _
    | exact State.msnKeep_kept hP (taken_kept (by assumption) (State.takeMessage_kept hP h _ _ _)) _ _

theorem State.rxNumbered_kept (hP : Kept P) {s : State} (h : P s) (j : Nat) (at_ : Nat) (f : SFrame) : P (State.rxNumbered s j at_ f) := by
  unfold State.rxNumbered
  repeat' first
    | with_reducible assumption
    | intro _
    | (extract_lets +onlyGivenNames x; refine (fun hx => ?_ : P x → _) ?_; clear_value x; rotate_left; subst x; rotate_right)
    | (extract_lets +onlyGivenNames x; refine (fun hx => ?_ : P x.1 → _) ?_; clear_value x; rotate_left; subst x; rotate_right)
    | (extract_lets +onlyGivenNames x; clear_value x)
    | extract_lets +onlyGivenNames x
    | with_reducible apply ite_kept
    | with_reducible apply ite_fst_kept
    | refine some_kept (by assumption) (State.takeFrameRx_kept hP ?_ _ _ _)
    | with_reducible apply State.sendAck_kept hP
    | with_reducible apply State.sendNak_kept hP
    | with_reducible apply State.setLink_kept hP
    | with_reducible apply State.viol_kept hP
    | split
    | (refine fst_kept (by assumption) ?_)
    | (apply Kept.of hP
       · dsimp only <;> exact rfl
       · first | exact id | (intro _; simp_all only [shape, shapeStd, List.cons.injEq, upd_length, List.length_set, List.length_map, List.length_range, List.length_replicate, and_true, true_and, and_self]; done)
       iterate 8 (· exact rfl))

theorem State.rxControl_kept (hP : Kept P) {s : State} (h : P s) (j : Nat) (at_ : Nat) (f : SFrame) : P (State.rxControl s j at_ f) := by
  unfold State.rxControl
  repeat' first
    | with_reducible assumption
    | (extract_lets +onlyGivenNames x; refine (fun hx => ?_ : P x → _) ?_; clear_value x; rotate_left; subst x; rotate_right)
    | (extract_lets +onlyGivenNames x; refine (fun hx => ?_ : P x.1 → _) ?_; clear_value x; rotate_left; subst x; rotate_right)
    | (extract_lets +onlyGivenNames x; clear_value x)
    | extract_lets +onlyGivenNames x
    | with_reducible apply ite_kept
    | with_reducible apply ite_fst_kept
    | refine taken_kept (by assumption) (State.toRing_kept hP ?_ _ _ _)
    | with_reducible apply State.ackRx_kept hP
    | with_reducible apply State.helloRx_kept hP
    | with_reducible apply State.nakRx_kept hP
    | with_reducible apply State.timeRx_kept hP
    | with_reducible apply State.viol_kept hP
    | split
    | (refine fst_kept (by assumption) ?_)
    | (apply Kept.of hP
       · dsimp only <;> exact rfl
       · first | exact id | (intro _; simp_all only [shape, shapeStd, List.cons.injEq, upd_length, List.length_set, List.length_map, List.length_range, List.length_replicate, and_true, true_and, and_self]; done)
       iterate 8 (· exact rfl))

theorem State.rxFrame_kept (hP : Kept P) {s : State} (h : P s) (j : Nat) (at_ : Nat) (f : SFrame) : P (State.rxFrame s j at_ f) := by
  unfold State.rxFrame
  repeat' first
    | with_reducible assumption
    | intro _
    | (extract_lets +onlyGivenNames x; refine (fun hx => ?_ : P x → _) ?_; clear_value x; rotate_left; subst x; rotate_right)
    | (extract_lets +onlyGivenNames x; refine (fun hx => ?_ : P x.1 → _) ?_; clear_value x; rotate_left; subst x; rotate_right)
    | (extract_lets +onlyGivenNames x; clear_value x)
    | extract_lets +onlyGivenNames x
    | with_reducible apply ite_kept
    | with_reducible apply ite_fst_kept
    | with_reducible apply whenB_kept
    | with_reducible apply State.inc_kept hP
    | with_reducible apply State.pmc_kept hP
    | with_reducible apply State.rxControl_kept hP
    | with_reducible apply State.rxNumbered_kept hP
    | with_reducible apply State.wakeBy_kept hP
    | split

theorem State.linkGroup_kept (hP : Kept P) {s : State} (h : P s) (j : Nat) (g : Nat) : P (State.linkGroup s j g).1 := by
  unfold State.linkGroup
  repeat' first
    | with_reducible assumption
    | intro _
    | (extract_lets +onlyGivenNames x; refine (fun hx => ?_ : P x → _) ?_; clear_value x; rotate_left; subst x; rotate_right)
    | (extract_lets +onlyGivenNames x; refine (fun hx => ?_ : P x.1 → _) ?_; clear_value x; rotate_left; subst x; rotate_right)
    | (extract_lets +onlyGivenNames x; clear_value x)
    | extract_lets +onlyGivenNames x
    | with_reducible apply ite_kept
    | with_reducible apply ite_fst_kept
    | with_reducible apply State.setLink_kept hP
    | split
    | (apply Kept.of hP
       · dsimp only <;> exact rfl
       · first | exact id | (intro _; simp_all only [shape, shapeStd, List.cons.injEq, upd_length, List.length_set, List.length_map, List.length_range, List.length_replicate, and_true, true_and, and_self]; done)
       iterate 8 (· exact rfl))

theorem State.linkBack_kept (hP : Kept P) {s : State} (h : P s) (j : Nat) : P (State.linkBack s j).1 := by
  unfold State.linkBack
  repeat' first
    | with_reducible assumption
    | intro _
    | (extract_lets +onlyGivenNames x; refine (fun hx => ?_ : P x → _) ?_; clear_value x; rotate_left; subst x; rotate_right)
    | (extract_lets +onlyGivenNames x; refine (fun hx => ?_ : P x.1 → _) ?_; clear_value x; rotate_left; subst x; rotate_right)
    | (extract_lets +onlyGivenNames x; clear_value x)
    | extract_lets +onlyGivenNames x
    | with_reducible apply ite_kept
    | with_reducible apply ite_fst_kept
    | with_reducible apply State.linkGroup_kept hP
    | with_reducible apply State.setLink_kept hP
    | split
    | (refine fst_kept (by assumption) ?_)
    | (apply Kept.of hP
       · dsimp only <;> exact rfl
       · first | exact id | (intro _; simp_all only [shape, shapeStd, List.cons.injEq, upd_length, List.length_set, List.length_map, List.length_range, List.length_replicate, and_true, true_and, and_self]; done)
       iterate 8 (· exact rfl))

theorem State.linkPeriod_kept (hP : Kept P) {s : State} (h : P s) (j : Nat) : P (State.linkPeriod s j).1 := by
  unfold State.linkPeriod
  repeat' first
    | with_reducible assumption
    | intro _
    | (extract_lets +onlyGivenNames x; refine (fun hx => ?_ : P x → _) ?_; clear_value x; rotate_left; subst x; rotate_right)
    | (extract_lets +onlyGivenNames x; refine (fun hx => ?_ : P x.1 → _) ?_; clear_value x; rotate_left; subst x; rotate_right)
    | (extract_lets +onlyGivenNames x; refine (fun hx => ?_ : P x.2 → _) ?_; clear_value x; rotate_left; subst x; rotate_right)
    | (extract_lets +onlyGivenNames x; clear_value x)
    | extract_lets +onlyGivenNames x
    | with_reducible apply ite_kept
    | with_reducible apply ite_fst_kept
    | with_reducible apply ite_snd_kept
    | with_reducible apply State.linkBack_kept hP
    | with_reducible apply State.linkSend_kept hP
    | with_reducible apply State.setLink_kept hP
    | split
    | (apply Kept.of hP
       · dsimp only <;> exact rfl
       · first | exact id | (intro _; simp_all only [shape, shapeStd, List.cons.injEq, upd_length, List.length_set, List.length_map, List.length_range, List.length_replicate, and_true, true_and, and_self]; done)
       iterate 8 (· exact rfl))

theorem State.linkIn_kept (hP : Kept P) {s : State} (h : P s) (j : Nat) (l : List (Option (BitVec 10))) : P (State.linkIn s j l).1 := by
  unfold State.linkIn
  refine foldl_fst_kept h fun p x hp => ?_
  dsimp only
  split
  · exact ite_fst_kept (State.linkGroup_kept hP hp _ _) hp
  · exact State.linkPeriod_kept hP hp _

theorem State.cutNak_kept (hP : Kept P) {s : State} (h : P s) (j : Nat) (nak : Bool) : P (State.cutNak s j nak) := by
  unfold State.cutNak
  repeat' first
    | with_reducible assumption
    | intro _
    | with_reducible apply whenB_kept
    | with_reducible apply State.sendNak_kept hP

theorem State.linkEffect_kept (hP : Kept P) {s : State} (h : P s) (j at_ : Nat) (t : Int) (e : LinkEvt) : P (State.linkEffect s j at_ t e) := by
  cases e
  · exact State.scrimSyncGained_kept hP h _
  · exact State.scrimSyncLost_kept hP h _
  · exact State.viol_kept hP h _
  · exact State.inc_kept hP (State.viol_kept hP h _) _ _ _
  · exact State.tmarkRx_kept hP h _ _
  · exact State.trigRx_kept hP h _ _
  · exact State.cutNak_kept hP (State.viol_kept hP h _) _ _
  · exact State.cutNak_kept hP h _ _
  · exact State.rxFrame_kept hP h _ _ _

theorem State.linkRow_kept (hP : Kept P) {s : State} (h : P s) (j : Nat) (at_ : Nat) (t : Int) (l : List (Option (BitVec 10))) (p : State → LinkEvt → Bool) : P (State.linkRow s j at_ t l p) := by
  unfold State.linkRow
  repeat' first
    | with_reducible assumption
    | intro _
    | (extract_lets +onlyGivenNames x; refine (fun hx => ?_ : P x → _) ?_; clear_value x; rotate_left; subst x; rotate_right)
    | (extract_lets +onlyGivenNames x; refine (fun hx => ?_ : P x.1 → _) ?_; clear_value x; rotate_left; subst x; rotate_right)
    | (extract_lets +onlyGivenNames x; clear_value x)
    | extract_lets +onlyGivenNames x
    | with_reducible apply whenB_kept
    | with_reducible apply each_kept
    | with_reducible apply State.linkEffect_kept hP
    | with_reducible apply State.linkIn_kept hP
    | split
    | (refine fst_kept (by assumption) ?_)
    | (apply Kept.of hP
       · dsimp only <;> exact rfl
       · first | exact id | (intro _; simp_all only [shape, shapeStd, List.cons.injEq, upd_length, List.length_set, List.length_map, List.length_range, List.length_replicate, and_true, true_and, and_self]; done)
       iterate 8 (· exact rfl))

theorem State.deviceReads_kept (hP : Kept P) {s : State} (h : P s) (a : Nat) (n : Nat) : P (State.deviceReads s a n).1 := by
  unfold State.deviceReads
  repeat' first
    | with_reducible assumption
    | intro _
    | (extract_lets +onlyGivenNames x; refine (fun hx => ?_ : P x → _) ?_; clear_value x; rotate_left; subst x; rotate_right)
    | (extract_lets +onlyGivenNames x; refine (fun hx => ?_ : P x.1 → _) ?_; clear_value x; rotate_left; subst x; rotate_right)
    | (extract_lets +onlyGivenNames x; clear_value x)
    | extract_lets +onlyGivenNames x
    | with_reducible apply foldl_kept
    | with_reducible apply foldl_fst_kept
    | with_reducible apply foldl_snd_kept
    | with_reducible apply State.memRead_kept hP

theorem State.fabTxNext_kept (hP : Kept P) {s : State} (h : P s)  : P (State.fabTxNext s).1 := by
  unfold State.fabTxNext
  repeat' first
    | with_reducible assumption
    | intro _
    | (extract_lets +onlyGivenNames x; refine (fun hx => ?_ : P x → _) ?_; clear_value x; rotate_left; subst x; rotate_right)
    | (extract_lets +onlyGivenNames x; refine (fun hx => ?_ : P x.1 → _) ?_; clear_value x; rotate_left; subst x; rotate_right)
    | (extract_lets +onlyGivenNames x; clear_value x)
    | extract_lets +onlyGivenNames x
    | with_reducible apply ite_kept
    | with_reducible apply ite_fst_kept
    | with_reducible apply foldl_kept
    | with_reducible apply foldl_fst_kept
    | with_reducible apply foldl_snd_kept
    | with_reducible apply State.deviceReads_kept hP
    | split

theorem State.fabTxBad_kept (hP : Kept P) {s : State} (h : P s) (n : Nat) : P (State.fabTxBad s n) := by
  unfold State.fabTxBad
  repeat' first
    | with_reducible assumption
    | (extract_lets +onlyGivenNames x; refine (fun hx => ?_ : P x → _) ?_; clear_value x; rotate_left; subst x; rotate_right)
    | (extract_lets +onlyGivenNames x; refine (fun hx => ?_ : P x.1 → _) ?_; clear_value x; rotate_left; subst x; rotate_right)
    | (extract_lets +onlyGivenNames x; clear_value x)
    | extract_lets +onlyGivenNames x
    | with_reducible apply State.ev_kept hP
    | with_reducible apply State.fabTxDone_kept hP
    | with_reducible apply State.inc_kept hP
    | with_reducible apply State.seqEv_kept hP
    | (apply Kept.of hP
       · dsimp only <;> exact rfl
       · first | exact id | (intro _; simp_all only [shape, shapeStd, List.cons.injEq, upd_length, List.length_set, List.length_map, List.length_range, List.length_replicate, and_true, true_and, and_self]; done)
       iterate 8 (· exact rfl))

theorem State.fabTxSend_kept (hP : Kept P) {s : State} (h : P s) (at_ : Nat) : P (State.fabTxSend s at_) := by
  unfold State.fabTxSend
  refine ite_kept h ?_
  split
  · rename_i e
    exact fst_kept e (State.fabTxNext_kept hP h)
  rename_i s0 n ok ws e
  have h0 : P s0 := fst_kept e (State.fabTxNext_kept hP h)
  clear e
  extract_lets +onlyGivenNames g t len
  refine ite_kept (State.fabTxBad_kept hP h0 _) ?_
  have h1 : P s0.nextMsn.1 := State.nextMsn_kept hP h0
  generalize s0.nextMsn = q at h1 ⊢
  obtain ⟨s1, m⟩ := q
  dsimp -zeta only at h1 ⊢
  extract_lets +onlyGivenNames scr2 s2 dst f j
  have h2 : P s2 := hP.same h1 rfl rfl rfl rfl rfl rfl rfl rfl rfl id
  with_reducible apply ite_kept
  · exact ite_kept (State.sendFrame_kept hP h2 _ _) (State.noRoute_kept hP h2 _)
  with_reducible apply ite_kept ?_ (State.sendOn_kept hP h2 _)
  split
  · rename_i e
    exact State.fabTxFinish_kept hP (taken_kept e (State.takeMessage_kept hP h2 _ _ _)) _
  · exact State.fabTxFinish_kept hP (State.viol_kept hP h2 _) _
  · exact hP.same h2 rfl rfl rfl rfl rfl rfl rfl rfl rfl id

theorem State.bootReqSend_kept (hP : Kept P) {s : State} (h : P s)  : P (State.bootReqSend s) := by
  unfold State.bootReqSend
  repeat' first
    | with_reducible assumption
    | intro _
    | (extract_lets +onlyGivenNames x; refine (fun hx => ?_ : P x → _) ?_; clear_value x; rotate_left; subst x; rotate_right)
    | (extract_lets +onlyGivenNames x; refine (fun hx => ?_ : P x.1 → _) ?_; clear_value x; rotate_left; subst x; rotate_right)
    | (extract_lets +onlyGivenNames x; clear_value x)
    | extract_lets +onlyGivenNames x
    | with_reducible apply ite_kept
    | with_reducible apply ite_fst_kept
    | with_reducible apply each_kept
    | with_reducible apply State.sc_kept hP
    | with_reducible apply State.sendCtl_kept hP
    | split
    | (refine fst_kept (by assumption) ?_)
    | (apply Kept.of hP
       · dsimp only <;> exact rfl
       · first | exact id | (intro _; simp_all only [shape, shapeStd, List.cons.injEq, upd_length, List.length_set, List.length_map, List.length_range, List.length_replicate, and_true, true_and, and_self]; done)
       iterate 8 (· exact rfl))

end Sys2Proof.Machine
end

