-- ==== Sys2Proof/Laws/KeptMgmt.lean ====
section
/-! SUPPORT. What the operations of `Sys2Proof.Machine.Mgmt` keep (`Sys2Proof.Laws.Kept`). -/
namespace Sys2Proof.Machine
open State
set_option linter.all false
variable {P : State → Prop}

theorem State.mgm_kept (hP : Kept P) {s : State} (h : P s) (f : Mgmt → Mgmt) : P (State.mgm s f) := by
  unfold State.mgm
  repeat' first
    | with_reducible assumption
    | (extract_lets +onlyGivenNames x; refine (fun hx => ?_ : P x → _) ?_; clear_value x; rotate_left; subst x; rotate_right)
    | (extract_lets +onlyGivenNames x; refine (fun hx => ?_ : P x.1 → _) ?_; clear_value x; rotate_left; subst x; rotate_right)
    | (extract_lets +onlyGivenNames x; clear_value x)
    | extract_lets +onlyGivenNames x
    | (apply Kept.of hP
       · dsimp only <;> exact rfl
       · first | exact id | (intro _; simp_all only [shape, shapeStd, List.cons.injEq, upd_length, List.length_set, List.length_map, List.length_range, List.length_replicate, and_true, true_and, and_self]; done)
       iterate 8 (· exact rfl))

theorem State.gate_kept (hP : Kept P) {s : State} (h : P s) (m : Master) (a : Nat) (write : Bool) (malformed : Bool) : P (State.gate s m a write malformed).1 := by
  unfold State.gate
  repeat' first
    | with_reducible assumption
    | with_reducible apply ite_kept
    | with_reducible apply ite_fst_kept
    | with_reducible apply State.violate_kept hP
    | split

theorem State.ibiRefresh_kept (hP : Kept P) {s : State} (h : P s)  : P (State.ibiRefresh s) := by
  unfold State.ibiRefresh
  repeat' first
    | with_reducible assumption
    | intro _
    | (extract_lets +onlyGivenNames x; refine (fun hx => ?_ : P x → _) ?_; clear_value x; rotate_left; subst x; rotate_right)
    | (extract_lets +onlyGivenNames x; refine (fun hx => ?_ : P x.1 → _) ?_; clear_value x; rotate_left; subst x; rotate_right)
    | (extract_lets +onlyGivenNames x; clear_value x)
    | extract_lets +onlyGivenNames x
    | with_reducible apply State.mgm_kept hP
    | (apply Kept.of hP
       · dsimp only <;> exact rfl
       · first | exact id | (intro _; simp_all only [shape, shapeStd, List.cons.injEq, upd_length, List.length_set, List.length_map, List.length_range, List.length_replicate, and_true, true_and, and_self]; done)
       iterate 8 (· exact rfl))

theorem State.extRead_kept (hP : Kept P) {s : State} (h : P s) (m : Master) (a : Nat) (p : Nat) : P (State.extRead s m a p).1 := by
  unfold State.extRead
  repeat' first
    | with_reducible assumption
    | (extract_lets +onlyGivenNames x; refine (fun hx => ?_ : P x → _) ?_; clear_value x; rotate_left; subst x; rotate_right)
    | (extract_lets +onlyGivenNames x; refine (fun hx => ?_ : P x.1 → _) ?_; clear_value x; rotate_left; subst x; rotate_right)
    | (extract_lets +onlyGivenNames x; clear_value x)
    | extract_lets +onlyGivenNames x
    | with_reducible apply State.busRead_kept hP
    | with_reducible apply State.gate_kept hP
    | with_reducible apply State.ibiRefresh_kept hP
    | with_reducible apply State.st_kept hP
    | split
    | (refine fst_kept (by assumption) ?_)
    | (apply Kept.of hP
       · dsimp only <;> exact rfl
       · first | exact id | (intro _; simp_all only [shape, shapeStd, List.cons.injEq, upd_length, List.length_set, List.length_map, List.length_range, List.length_replicate, and_true, true_and, and_self]; done)
       iterate 8 (· exact rfl))

theorem State.extWrite_kept (hP : Kept P) {s : State} (h : P s) (m : Master) (a : Nat) (mask : Word) (w : Word) : P (State.extWrite s m a mask w).1 := by
  unfold State.extWrite
  repeat' first
    | with_reducible assumption
    | (extract_lets +onlyGivenNames x; refine (fun hx => ?_ : P x → _) ?_; clear_value x; rotate_left; subst x; rotate_right)
    | (extract_lets +onlyGivenNames x; refine (fun hx => ?_ : P x.1 → _) ?_; clear_value x; rotate_left; subst x; rotate_right)
    | (extract_lets +onlyGivenNames x; clear_value x)
    | extract_lets +onlyGivenNames x
    | with_reducible apply State.busWriteM_kept hP
    | with_reducible apply State.gate_kept hP
    | with_reducible apply State.ibiRefresh_kept hP
    | with_reducible apply State.st_kept hP
    | split
    | (refine fst_kept (by assumption) ?_)
    | (apply Kept.of hP
       · dsimp only <;> exact rfl
       · first | exact id | (intro _; simp_all only [shape, shapeStd, List.cons.injEq, upd_length, List.length_set, List.length_map, List.length_range, List.length_replicate, and_true, true_and, and_self]; done)
       iterate 8 (· exact rfl))

theorem State.spiDone_kept (hP : Kept P) {s : State} (h : P s) (status : Nat) (words : Nat) (a : Nat) (data : Word) : P (State.spiDone s status words a data) := by
  unfold State.spiDone
  repeat' first
    | with_reducible assumption
    | intro _
    | (extract_lets +onlyGivenNames x; refine (fun hx => ?_ : P x → _) ?_; clear_value x; rotate_left; subst x; rotate_right)
    | (extract_lets +onlyGivenNames x; refine (fun hx => ?_ : P x.1 → _) ?_; clear_value x; rotate_left; subst x; rotate_right)
    | (extract_lets +onlyGivenNames x; clear_value x)
    | extract_lets +onlyGivenNames x
    | with_reducible apply State.mgm_kept hP
    | with_reducible apply State.pmc_kept hP
    | with_reducible apply State.put_kept hP
    | (apply Kept.of hP
       · dsimp only <;> exact rfl
       · first | exact id | (intro _; simp_all only [shape, shapeStd, List.cons.injEq, upd_length, List.length_set, List.length_map, List.length_range, List.length_replicate, and_true, true_and, and_self]; done)
       iterate 8 (· exact rfl))

theorem State.spiRead_kept (hP : Kept P) {s : State} (h : P s) (a : Nat) (p : Nat) : P (State.spiRead s a p) := by
  unfold State.spiRead
  repeat' first
    | with_reducible assumption
    | (extract_lets +onlyGivenNames x; refine (fun hx => ?_ : P x → _) ?_; clear_value x; rotate_left; subst x; rotate_right)
    | (extract_lets +onlyGivenNames x; refine (fun hx => ?_ : P x.1 → _) ?_; clear_value x; rotate_left; subst x; rotate_right)
    | (extract_lets +onlyGivenNames x; clear_value x)
    | extract_lets +onlyGivenNames x
    | with_reducible apply ite_kept
    | with_reducible apply ite_fst_kept
    | with_reducible apply State.extRead_kept hP
    | with_reducible apply State.spiDone_kept hP
    | with_reducible apply State.st_kept hP
    | split
    | (refine fst_kept (by assumption) ?_)

theorem State.spiWrite_kept (hP : Kept P) {s : State} (h : P s) (a : Nat) (w : Word) : P (State.spiWrite s a w) := by
  unfold State.spiWrite
  repeat' first
    | with_reducible assumption
    | (extract_lets +onlyGivenNames x; refine (fun hx => ?_ : P x → _) ?_; clear_value x; rotate_left; subst x; rotate_right)
    | (extract_lets +onlyGivenNames x; refine (fun hx => ?_ : P x.1 → _) ?_; clear_value x; rotate_left; subst x; rotate_right)
    | (extract_lets +onlyGivenNames x; clear_value x)
    | extract_lets +onlyGivenNames x
    | with_reducible apply ite_kept
    | with_reducible apply ite_fst_kept
    | with_reducible apply State.extWrite_kept hP
    | with_reducible apply State.spiDone_kept hP
    | with_reducible apply State.st_kept hP
    | split
    | (refine fst_kept (by assumption) ?_)

theorem State.spiFrame_kept (hP : Kept P) {s : State} (h : P s) (l : List Byte) (p : Nat) : P (State.spiFrame s l p) := by
  unfold State.spiFrame
  repeat' first
    | with_reducible assumption
    | (extract_lets +onlyGivenNames x; refine (fun hx => ?_ : P x → _) ?_; clear_value x; rotate_left; subst x; rotate_right)
    | (extract_lets +onlyGivenNames x; refine (fun hx => ?_ : P x.1 → _) ?_; clear_value x; rotate_left; subst x; rotate_right)
    | (extract_lets +onlyGivenNames x; clear_value x)
    | extract_lets +onlyGivenNames x
    | with_reducible apply ite_kept
    | with_reducible apply ite_fst_kept
    | with_reducible apply State.gate_kept hP
    | with_reducible apply State.inc_kept hP
    | with_reducible apply State.spiDone_kept hP
    | with_reducible apply State.spiRead_kept hP
    | with_reducible apply State.spiWrite_kept hP
    | with_reducible apply State.st_kept hP
    | with_reducible apply State.take_kept hP
    | split
    | (refine fst_kept (by assumption) ?_)

theorem State.i3cDone_kept (hP : Kept P) {s : State} (h : P s) (t : I3cTally) : P (State.i3cDone s t) := by
  unfold State.i3cDone
  repeat' first
    | with_reducible assumption
    | with_reducible apply State.pmc_kept hP
    | with_reducible apply State.put_kept hP

theorem State.i3cWords_kept (hP : Kept P) {s : State} (h : P s) (a : Nat) (l : List (List Byte)) (t : I3cTally) :
    P (State.i3cWords s a l t).1 := by
  induction l generalizing s a t with
  | nil => exact h
  | cons g l ih =>
    unfold State.i3cWords
    dsimp only
    split
    · exact ih (State.extWrite_kept hP h _ _ _ _) _ _
    · split
      · exact ih (State.extWrite_kept hP h _ _ _ _) _ _
      · exact ih (State.gate_kept hP h _ _ _ _) _ _

theorem State.i3cWrite_kept (hP : Kept P) {s : State} (h : P s) (target : Nat) (l : List Byte) (err : Bool) : P (State.i3cWrite s target l err) := by
  unfold State.i3cWrite
  repeat' first
    | with_reducible assumption
    | intro _
    | (extract_lets +onlyGivenNames x; refine (fun hx => ?_ : P x → _) ?_; clear_value x; rotate_left; subst x; rotate_right)
    | (extract_lets +onlyGivenNames x; refine (fun hx => ?_ : P x.1 → _) ?_; clear_value x; rotate_left; subst x; rotate_right)
    | (extract_lets +onlyGivenNames x; clear_value x)
    | extract_lets +onlyGivenNames x
    | with_reducible apply ite_kept
    | with_reducible apply ite_fst_kept
    | with_reducible apply whenB_kept
    | with_reducible apply State.gate_kept hP
    | with_reducible apply State.i3cDone_kept hP
    | with_reducible apply State.i3cWords_kept hP
    | with_reducible apply State.inc_kept hP
    | with_reducible apply State.mgm_kept hP
    | with_reducible apply State.st_kept hP
    | with_reducible apply State.useFree_kept hP
    | split
    | (refine fst_kept (by assumption) ?_)
    | (apply Kept.of hP
       · dsimp only <;> exact rfl
       · first | exact id | (intro _; simp_all only [shape, shapeStd, List.cons.injEq, upd_length, List.length_set, List.length_map, List.length_range, List.length_replicate, and_true, true_and, and_self]; done)
       iterate 8 (· exact rfl))

theorem State.i3cAhead_kept (hP : Kept P) {s : State} (h : P s) (a : Nat) (p : Nat) (sent : Bool) : P (State.i3cAhead s a p sent).1 := by
  unfold State.i3cAhead
  repeat' first
    | with_reducible assumption
    | (extract_lets +onlyGivenNames x; refine (fun hx => ?_ : P x → _) ?_; clear_value x; rotate_left; subst x; rotate_right)
    | (extract_lets +onlyGivenNames x; refine (fun hx => ?_ : P x.1 → _) ?_; clear_value x; rotate_left; subst x; rotate_right)
    | (extract_lets +onlyGivenNames x; clear_value x)
    | extract_lets +onlyGivenNames x
    | with_reducible apply ite_kept
    | with_reducible apply ite_fst_kept
    | with_reducible apply State.extRead_kept hP
    | with_reducible apply State.st_kept hP
    | split
    | (refine fst_kept (by assumption) ?_)
    | (apply Kept.of hP
       · dsimp only <;> exact rfl
       · first | exact id | (intro _; simp_all only [shape, shapeStd, List.cons.injEq, upd_length, List.length_set, List.length_map, List.length_range, List.length_replicate, and_true, true_and, and_self]; done)
       iterate 8 (· exact rfl))

theorem State.i3cReads_kept (hP : Kept P) {s : State} (h : P s) (p n a sent : Nat) (t : I3cTally) (ws : List Word) :
    P (State.i3cReads s p n a sent t ws).1 := by
  induction n generalizing s a sent t ws with
  | zero => exact h
  | succ n ih => exact ih (State.i3cAhead_kept hP h _ _ _) _ _ _ _

theorem State.i3cRead_kept (hP : Kept P) {s : State} (h : P s) (target : Nat) (n : Nat) (p : Nat) : P (State.i3cRead s target n p) := by
  unfold State.i3cRead
  repeat' first
    | with_reducible assumption
    | intro _
    | (extract_lets +onlyGivenNames x; refine (fun hx => ?_ : P x → _) ?_; clear_value x; rotate_left; subst x; rotate_right)
    | (extract_lets +onlyGivenNames x; refine (fun hx => ?_ : P x.1 → _) ?_; clear_value x; rotate_left; subst x; rotate_right)
    | (extract_lets +onlyGivenNames x; clear_value x)
    | extract_lets +onlyGivenNames x
    | with_reducible apply ite_kept
    | with_reducible apply ite_fst_kept
    | with_reducible apply State.i3cDone_kept hP
    | with_reducible apply State.i3cReads_kept hP
    | with_reducible apply State.mgm_kept hP
    | split
    | (refine fst_kept (by assumption) ?_)
    | (apply Kept.of hP
       · dsimp only <;> exact rfl
       · first | exact id | (intro _; simp_all only [shape, shapeStd, List.cons.injEq, upd_length, List.length_set, List.length_map, List.length_range, List.length_replicate, and_true, true_and, and_self]; done)
       iterate 8 (· exact rfl))

theorem State.i3cAssign_kept (hP : Kept P) {s : State} (h : P s) (da : Nat) : P (State.i3cAssign s da) := by
  unfold State.i3cAssign
  repeat' first
    | with_reducible assumption
    | with_reducible apply State.put_kept hP

theorem State.i3cAnswer_kept (hP : Kept P) {s : State} (h : P s) (target : Nat) (w : Word) : P (State.i3cAnswer s target w) := by
  unfold State.i3cAnswer
  repeat' first
    | with_reducible assumption
    | intro _
    | (extract_lets +onlyGivenNames x; refine (fun hx => ?_ : P x → _) ?_; clear_value x; rotate_left; subst x; rotate_right)
    | (extract_lets +onlyGivenNames x; refine (fun hx => ?_ : P x.1 → _) ?_; clear_value x; rotate_left; subst x; rotate_right)
    | (extract_lets +onlyGivenNames x; clear_value x)
    | extract_lets +onlyGivenNames x
    | with_reducible apply ite_kept
    | with_reducible apply ite_fst_kept
    | with_reducible apply State.mgm_kept hP
    | split
    | (apply Kept.of hP
       · dsimp only <;> exact rfl
       · first | exact id | (intro _; simp_all only [shape, shapeStd, List.cons.injEq, upd_length, List.length_set, List.length_map, List.length_range, List.length_replicate, and_true, true_and, and_self]; done)
       iterate 8 (· exact rfl))

theorem State.ibiRequest_kept (hP : Kept P) {s : State} (h : P s) (acked : Bool) : P (State.ibiRequest s acked) := by
  unfold State.ibiRequest
  repeat' first
    | with_reducible assumption
    | intro _
    | (extract_lets +onlyGivenNames x; refine (fun hx => ?_ : P x → _) ?_; clear_value x; rotate_left; subst x; rotate_right)
    | (extract_lets +onlyGivenNames x; refine (fun hx => ?_ : P x.1 → _) ?_; clear_value x; rotate_left; subst x; rotate_right)
    | (extract_lets +onlyGivenNames x; clear_value x)
    | extract_lets +onlyGivenNames x
    | with_reducible apply ite_kept
    | with_reducible apply ite_fst_kept
    | with_reducible apply State.ibiRefresh_kept hP
    | with_reducible apply State.mgm_kept hP
    | split
    | (apply Kept.of hP
       · dsimp only <;> exact rfl
       · first | exact id | (intro _; simp_all only [shape, shapeStd, List.cons.injEq, upd_length, List.length_set, List.length_map, List.length_range, List.length_replicate, and_true, true_and, and_self]; done)
       iterate 8 (· exact rfl))

theorem State.jtagSelect_kept (hP : Kept P) {s : State} (h : P s) (code : Nat) (dr : BitVec 88) (mode : Nat) : P (State.jtagSelect s code dr mode) := by
  unfold State.jtagSelect
  repeat' first
    | with_reducible assumption
    | intro _
    | (extract_lets +onlyGivenNames x; refine (fun hx => ?_ : P x → _) ?_; clear_value x; rotate_left; subst x; rotate_right)
    | (extract_lets +onlyGivenNames x; refine (fun hx => ?_ : P x.1 → _) ?_; clear_value x; rotate_left; subst x; rotate_right)
    | (extract_lets +onlyGivenNames x; clear_value x)
    | extract_lets +onlyGivenNames x
    | with_reducible apply State.mgm_kept hP
    | (apply Kept.of hP
       · dsimp only <;> exact rfl
       · first | exact id | (intro _; simp_all only [shape, shapeStd, List.cons.injEq, upd_length, List.length_set, List.length_map, List.length_range, List.length_replicate, and_true, true_and, and_self]; done)
       iterate 8 (· exact rfl))

theorem State.jtagBoundary_kept (hP : Kept P) {s : State} (h : P s) (code : Nat) (cells : List Bool) (mode : Nat) : P (State.jtagBoundary s code cells mode) := by
  unfold State.jtagBoundary
  repeat' first
    | with_reducible assumption
    | intro _
    | (extract_lets +onlyGivenNames x; refine (fun hx => ?_ : P x → _) ?_; clear_value x; rotate_left; subst x; rotate_right)
    | (extract_lets +onlyGivenNames x; refine (fun hx => ?_ : P x.1 → _) ?_; clear_value x; rotate_left; subst x; rotate_right)
    | (extract_lets +onlyGivenNames x; clear_value x)
    | extract_lets +onlyGivenNames x
    | with_reducible apply State.boundary_kept hP
    | with_reducible apply State.jtagSelect_kept hP
    | with_reducible apply State.mgm_kept hP
    | (apply Kept.of hP
       · dsimp only <;> exact rfl
       · first | exact id | (intro _; simp_all only [shape, shapeStd, List.cons.injEq, upd_length, List.length_set, List.length_map, List.length_range, List.length_replicate, and_true, true_and, and_self]; done)
       iterate 8 (· exact rfl))

theorem State.jtagDone_kept (hP : Kept P) {s : State} (h : P s) (st : Nat) (a : Nat) (w : Word) : P (State.jtagDone s st a w) := by
  unfold State.jtagDone
  repeat' first
    | with_reducible assumption
    | intro _
    | (extract_lets +onlyGivenNames x; refine (fun hx => ?_ : P x → _) ?_; clear_value x; rotate_left; subst x; rotate_right)
    | (extract_lets +onlyGivenNames x; refine (fun hx => ?_ : P x.1 → _) ?_; clear_value x; rotate_left; subst x; rotate_right)
    | (extract_lets +onlyGivenNames x; clear_value x)
    | extract_lets +onlyGivenNames x
    | with_reducible apply State.mgm_kept hP
    | with_reducible apply State.st_kept hP
    | (apply Kept.of hP
       · dsimp only <;> exact rfl
       · first | exact id | (intro _; simp_all only [shape, shapeStd, List.cons.injEq, upd_length, List.length_set, List.length_map, List.length_range, List.length_replicate, and_true, true_and, and_self]; done)
       iterate 8 (· exact rfl))

theorem State.jtagAccess_kept (hP : Kept P) {s : State} (h : P s) (dr : BitVec 88) (p : Nat) : P (State.jtagAccess s dr p) := by
  unfold State.jtagAccess
  repeat' first
    | with_reducible assumption
    | (extract_lets +onlyGivenNames x; refine (fun hx => ?_ : P x → _) ?_; clear_value x; rotate_left; subst x; rotate_right)
    | (extract_lets +onlyGivenNames x; refine (fun hx => ?_ : P x.1 → _) ?_; clear_value x; rotate_left; subst x; rotate_right)
    | (extract_lets +onlyGivenNames x; clear_value x)
    | extract_lets +onlyGivenNames x
    | with_reducible apply ite_kept
    | with_reducible apply ite_fst_kept
    | with_reducible apply State.extRead_kept hP
    | with_reducible apply State.extWrite_kept hP
    | with_reducible apply State.jtagDone_kept hP
    | with_reducible apply State.jtagSelect_kept hP
    | with_reducible apply State.st_kept hP
    | split
    | (refine fst_kept (by assumption) ?_)

theorem State.act_kept (hP : Kept P) {s : State} (h : P s) (c : Bool) (f : State → State) (hf : ∀ t, P t → P (f t)) : P (State.act s c f) := by
  unfold State.act
  repeat' first
    | with_reducible assumption
    | intro _
    | with_reducible apply whenB_kept
    | with_reducible apply hf

theorem State.access_kept (hP : Kept P) {s : State} (h : P s) (q : Requester) (a : Nat) (w : Option Word) (p : Nat) : P (State.access s q a w p) := by
  unfold State.access
  repeat' first
    | with_reducible assumption
    | intro _
    | (extract_lets +onlyGivenNames x; refine (fun hx => ?_ : P x → _) ?_; clear_value x; rotate_left; subst x; rotate_right)
    | (extract_lets +onlyGivenNames x; refine (fun hx => ?_ : P x.1 → _) ?_; clear_value x; rotate_left; subst x; rotate_right)
    | (extract_lets +onlyGivenNames x; clear_value x)
    | extract_lets +onlyGivenNames x
    | with_reducible apply ite_kept
    | with_reducible apply ite_fst_kept
    | with_reducible apply State.extRead_kept hP
    | with_reducible apply State.extWrite_kept hP
    | with_reducible apply State.i3cDone_kept hP
    | with_reducible apply State.ibiRefresh_kept hP
    | with_reducible apply State.jtagDone_kept hP
    | with_reducible apply State.mgm_kept hP
    | with_reducible apply State.pmc_kept hP
    | with_reducible apply State.portRead_kept hP
    | with_reducible apply State.portWrite_kept hP
    | with_reducible apply State.spiRead_kept hP
    | with_reducible apply State.spiWrite_kept hP
    | with_reducible apply State.st_kept hP
    | split
    | (refine fst_kept (by assumption) ?_)
    | (apply Kept.of hP
       · dsimp only <;> exact rfl
       · first | exact id | (intro _; simp_all only [shape, shapeStd, List.cons.injEq, upd_length, List.length_set, List.length_map, List.length_range, List.length_replicate, and_true, true_and, and_self]; done)
       iterate 8 (· exact rfl))

theorem State.accessW_kept (hP : Kept P) {s : State} (h : P s) (q : Requester) (a : Nat) (w : Word) : P (State.accessW s q a w) := by
  unfold State.accessW
  repeat' first
    | with_reducible assumption
    | with_reducible apply State.access_kept hP

end Sys2Proof.Machine
end

