-- ==== Sys2Proof/Laws/KeptQuaran.lean ====
section
/-! SUPPORT. What the operations of `Sys2Proof.Machine.Quaran` keep (`Sys2Proof.Laws.Kept`). -/
namespace Sys2Proof.Machine
open State
set_option linter.all false
variable {P : State → Prop}

theorem State.fetch_kept (hP : Kept P) {s : State} (h : P s)  : P (State.fetch s).1 := by
  unfold State.fetch
  repeat' first
    | with_reducible assumption
    | intro _
    | (extract_lets +onlyGivenNames x; refine (fun hx => ?_ : P x → _) ?_; clear_value x; rotate_left; subst x; rotate_right)
    | (extract_lets +onlyGivenNames x; refine (fun hx => ?_ : P x.1 → _) ?_; clear_value x; rotate_left; subst x; rotate_right)
    | (extract_lets +onlyGivenNames x; clear_value x)
    | extract_lets +onlyGivenNames x
    | with_reducible apply whenB_kept
    | with_reducible apply State.isAbort_kept hP
    | with_reducible apply State.memRead_kept hP
    | with_reducible apply State.slots_kept hP
    | split
    | (refine fst_kept (by assumption) ?_)

theorem State.issue_kept (hP : Kept P) {s : State} (h : P s) (f : State → State) (hf : ∀ t, P t → P (f t)) : P (State.issue s f) := by
  unfold State.issue
  repeat' first
    | with_reducible assumption
    | (extract_lets +onlyGivenNames x; refine (fun hx => ?_ : P x → _) ?_; clear_value x; rotate_left; subst x; rotate_right)
    | (extract_lets +onlyGivenNames x; refine (fun hx => ?_ : P x.1 → _) ?_; clear_value x; rotate_left; subst x; rotate_right)
    | (extract_lets +onlyGivenNames x; clear_value x)
    | extract_lets +onlyGivenNames x
    | with_reducible apply ite_kept
    | with_reducible apply ite_fst_kept
    | with_reducible apply State.exception_kept hP
    | with_reducible apply State.fetch_kept hP
    | with_reducible apply hf
    | split
    | (refine fst_kept (by assumption) ?_)

theorem State.flagW_kept (hP : Kept P) {s : State} (h : P s) (r : Word) (c : Bool) (v : Bool) : P (State.flagW s r c v) := by
  unfold State.flagW
  repeat' first
    | with_reducible assumption
    | intro _
    | (extract_lets +onlyGivenNames x; refine (fun hx => ?_ : P x → _) ?_; clear_value x; rotate_left; subst x; rotate_right)
    | (extract_lets +onlyGivenNames x; refine (fun hx => ?_ : P x.1 → _) ?_; clear_value x; rotate_left; subst x; rotate_right)
    | extract_lets +onlyGivenNames x
    | with_reducible apply State.sq_kept hP
    | (apply Kept.of hP
       · dsimp only <;> exact rfl
       · first | exact id | (intro _; simp_all only [shape, shapeStd, List.cons.injEq, upd_length, List.length_set, List.length_map, List.length_range, List.length_replicate, and_true, true_and, and_self]; done)
       iterate 8 (· exact rfl))
    | exact And.intro rfl rfl
    | exact ‹_ ∧ _›

theorem State.flagA_kept (hP : Kept P) {s : State} (h : P s) (r : BitVec 104) (v : Bool) : P (State.flagA s r v) := by
  unfold State.flagA
  repeat' first
    | with_reducible assumption
    | intro _
    | (extract_lets +onlyGivenNames x; refine (fun hx => ?_ : P x → _) ?_; clear_value x; rotate_left; subst x; rotate_right)
    | (extract_lets +onlyGivenNames x; refine (fun hx => ?_ : P x.1 → _) ?_; clear_value x; rotate_left; subst x; rotate_right)
    | extract_lets +onlyGivenNames x
    | with_reducible apply State.sq_kept hP
    | (apply Kept.of hP
       · dsimp only <;> exact rfl
       · first | exact id | (intro _; simp_all only [shape, shapeStd, List.cons.injEq, upd_length, List.length_set, List.length_map, List.length_range, List.length_replicate, and_true, true_and, and_self]; done)
       iterate 8 (· exact rfl))
    | exact And.intro rfl rfl
    | exact ‹_ ∧ _›

theorem State.flagS_kept (hP : Kept P) {s : State} (h : P s) (b : Bool) : P (State.flagS s b) := by
  unfold State.flagS
  repeat' first
    | with_reducible assumption
    | intro _
    | (extract_lets +onlyGivenNames x; refine (fun hx => ?_ : P x → _) ?_; clear_value x; rotate_left; subst x; rotate_right)
    | (extract_lets +onlyGivenNames x; refine (fun hx => ?_ : P x.1 → _) ?_; clear_value x; rotate_left; subst x; rotate_right)
    | extract_lets +onlyGivenNames x
    | with_reducible apply whenB_kept
    | with_reducible apply State.sq_kept hP
    | (apply Kept.of hP
       · dsimp only <;> exact rfl
       · first | exact id | (intro _; simp_all only [shape, shapeStd, List.cons.injEq, upd_length, List.length_set, List.length_map, List.length_range, List.length_replicate, and_true, true_and, and_self]; done)
       iterate 8 (· exact rfl))
    | exact And.intro rfl rfl
    | exact ‹_ ∧ _›

theorem State.flagC_kept (hP : Kept P) {s : State} (h : P s) (b : Bool) : P (State.flagC s b) := by
  unfold State.flagC
  repeat' first
    | with_reducible assumption
    | intro _
    | (extract_lets +onlyGivenNames x; refine (fun hx => ?_ : P x → _) ?_; clear_value x; rotate_left; subst x; rotate_right)
    | (extract_lets +onlyGivenNames x; refine (fun hx => ?_ : P x.1 → _) ?_; clear_value x; rotate_left; subst x; rotate_right)
    | extract_lets +onlyGivenNames x
    | with_reducible apply State.sq_kept hP
    | (apply Kept.of hP
       · dsimp only <;> exact rfl
       · first | exact id | (intro _; simp_all only [shape, shapeStd, List.cons.injEq, upd_length, List.length_set, List.length_map, List.length_range, List.length_replicate, and_true, true_and, and_self]; done)
       iterate 8 (· exact rfl))
    | exact And.intro rfl rfl
    | exact ‹_ ∧ _›

theorem State.finish_kept (hP : Kept P) {s : State} (h : P s) (rd : Nat) (r : Word) (c : Bool) (v : Bool) (reads : List Nat) : P (State.finish s rd r c v reads) := by
  unfold State.finish
  repeat' first
    | with_reducible assumption
    | with_reducible apply State.flagW_kept hP
    | with_reducible apply State.retire_kept hP
    | with_reducible apply State.setW_kept hP

theorem State.addWords_kept (hP : Kept P) {s : State} (h : P s) (sat : Bool) (rd : Nat) (a : Word) (b : Word) (reads : List Nat) : P (State.addWords s sat rd a b reads) := by
  unfold State.addWords
  repeat' first
    | with_reducible assumption
    | (extract_lets +onlyGivenNames x; refine (fun hx => ?_ : P x → _) ?_; clear_value x; rotate_left; subst x; rotate_right)
    | (extract_lets +onlyGivenNames x; refine (fun hx => ?_ : P x.1 → _) ?_; clear_value x; rotate_left; subst x; rotate_right)
    | (extract_lets +onlyGivenNames x; clear_value x)
    | extract_lets +onlyGivenNames x
    | with_reducible apply ite_kept
    | with_reducible apply ite_fst_kept
    | with_reducible apply State.finish_kept hP
    | with_reducible apply State.flagS_kept hP
    | split

theorem State.subWords_kept (hP : Kept P) {s : State} (h : P s) (sat : Bool) (rd : Nat) (a : Word) (b : Word) (reads : List Nat) : P (State.subWords s sat rd a b reads) := by
  unfold State.subWords
  repeat' first
    | with_reducible assumption
    | (extract_lets +onlyGivenNames x; refine (fun hx => ?_ : P x → _) ?_; clear_value x; rotate_left; subst x; rotate_right)
    | (extract_lets +onlyGivenNames x; refine (fun hx => ?_ : P x.1 → _) ?_; clear_value x; rotate_left; subst x; rotate_right)
    | (extract_lets +onlyGivenNames x; clear_value x)
    | extract_lets +onlyGivenNames x
    | with_reducible apply ite_kept
    | with_reducible apply ite_fst_kept
    | with_reducible apply State.finish_kept hP
    | with_reducible apply State.flagS_kept hP
    | split

theorem State.logic_kept (hP : Kept P) {s : State} (h : P s) (f : Word → Word → Word) (rd : Nat) (a : Word) (b : Word) (reads : List Nat) : P (State.logic s f rd a b reads) := by
  unfold State.logic
  repeat' first
    | with_reducible assumption
    | with_reducible apply State.finish_kept hP

theorem State.iAdd_kept (hP : Kept P) {s : State} (h : P s) (rd : Nat) (ra : Nat) (rb : Nat) : P (State.iAdd rd ra rb s) := by
  unfold State.iAdd
  repeat' first
    | with_reducible assumption
    | with_reducible apply State.addWords_kept hP

theorem State.iAdds_kept (hP : Kept P) {s : State} (h : P s) (rd : Nat) (ra : Nat) (rb : Nat) : P (State.iAdds rd ra rb s) := by
  unfold State.iAdds
  repeat' first
    | with_reducible assumption
    | with_reducible apply State.addWords_kept hP

theorem State.iSub_kept (hP : Kept P) {s : State} (h : P s) (rd : Nat) (ra : Nat) (rb : Nat) : P (State.iSub rd ra rb s) := by
  unfold State.iSub
  repeat' first
    | with_reducible assumption
    | with_reducible apply State.subWords_kept hP

theorem State.iSubs_kept (hP : Kept P) {s : State} (h : P s) (rd : Nat) (ra : Nat) (rb : Nat) : P (State.iSubs rd ra rb s) := by
  unfold State.iSubs
  repeat' first
    | with_reducible assumption
    | with_reducible apply State.subWords_kept hP

theorem State.iLogic_kept (hP : Kept P) {s : State} (h : P s) (f : Word → Word → Word) (rd : Nat) (ra : Nat) (rb : Nat) : P (State.iLogic f rd ra rb s) := by
  unfold State.iLogic
  repeat' first
    | with_reducible assumption
    | with_reducible apply State.logic_kept hP

theorem State.iAddi_kept (hP : Kept P) {s : State} (h : P s) (rd : Nat) (ra : Nat) (i : BitVec 30) : P (State.iAddi rd ra i s) := by
  unfold State.iAddi
  repeat' first
    | with_reducible assumption
    | with_reducible apply State.addWords_kept hP

theorem State.iAddsi_kept (hP : Kept P) {s : State} (h : P s) (rd : Nat) (ra : Nat) (i : BitVec 30) : P (State.iAddsi rd ra i s) := by
  unfold State.iAddsi
  repeat' first
    | with_reducible assumption
    | with_reducible apply State.addWords_kept hP

theorem State.iSubi_kept (hP : Kept P) {s : State} (h : P s) (rd : Nat) (ra : Nat) (i : BitVec 30) : P (State.iSubi rd ra i s) := by
  unfold State.iSubi
  repeat' first
    | with_reducible assumption
    | with_reducible apply State.subWords_kept hP

theorem State.iSubsi_kept (hP : Kept P) {s : State} (h : P s) (rd : Nat) (ra : Nat) (i : BitVec 30) : P (State.iSubsi rd ra i s) := by
  unfold State.iSubsi
  repeat' first
    | with_reducible assumption
    | with_reducible apply State.subWords_kept hP

theorem State.iLogici_kept (hP : Kept P) {s : State} (h : P s) (f : Word → Word → Word) (rd : Nat) (ra : Nat) (i : BitVec 30) : P (State.iLogici f rd ra i s) := by
  unfold State.iLogici
  repeat' first
    | with_reducible assumption
    | with_reducible apply State.logic_kept hP

theorem State.iNop_kept (hP : Kept P) {s : State} (h : P s)  : P (State.iNop s) := by
  unfold State.iNop
  repeat' first
    | with_reducible assumption
    | with_reducible apply State.retire_kept hP

theorem State.iMovlo_kept (hP : Kept P) {s : State} (h : P s) (rd : Nat) (i : BitVec 24) : P (State.iMovlo rd i s) := by
  unfold State.iMovlo
  repeat' first
    | with_reducible assumption
    | with_reducible apply State.finish_kept hP

theorem State.iMovhi_kept (hP : Kept P) {s : State} (h : P s) (rd : Nat) (i : BitVec 24) : P (State.iMovhi rd i s) := by
  unfold State.iMovhi
  repeat' first
    | with_reducible assumption
    | with_reducible apply State.finish_kept hP

theorem State.iGetf_kept (hP : Kept P) {s : State} (h : P s) (rd : Nat) : P (State.iGetf rd s) := by
  unfold State.iGetf
  repeat' first
    | with_reducible assumption
    | with_reducible apply State.retire_kept hP
    | with_reducible apply State.setW_kept hP

theorem State.iPutf_kept (hP : Kept P) {s : State} (h : P s) (ra : Nat) : P (State.iPutf ra s) := by
  unfold State.iPutf
  repeat' first
    | with_reducible assumption
    | with_reducible apply State.retire_kept hP
    | with_reducible apply State.setFlags_kept hP

theorem State.iClrs_kept (hP : Kept P) {s : State} (h : P s)  : P (State.iClrs s) := by
  unfold State.iClrs
  repeat' first
    | with_reducible assumption
    | intro _
    | (extract_lets +onlyGivenNames x; refine (fun hx => ?_ : P x → _) ?_; clear_value x; rotate_left; subst x; rotate_right)
    | (extract_lets +onlyGivenNames x; refine (fun hx => ?_ : P x.1 → _) ?_; clear_value x; rotate_left; subst x; rotate_right)
    | extract_lets +onlyGivenNames x
    | with_reducible apply State.retire_kept hP
    | with_reducible apply State.sq_kept hP
    | (apply Kept.of hP
       · dsimp only <;> exact rfl
       · first | exact id | (intro _; simp_all only [shape, shapeStd, List.cons.injEq, upd_length, List.length_set, List.length_map, List.length_range, List.length_replicate, and_true, true_and, and_self]; done)
       iterate 8 (· exact rfl))
    | exact And.intro rfl rfl
    | exact ‹_ ∧ _›

theorem State.accTake_kept (hP : Kept P) {s : State} (h : P s) (ac : Nat) (x : Int) (sat : Bool) : P (State.accTake s ac x sat) := by
  unfold State.accTake
  repeat' first
    | with_reducible assumption
    | (extract_lets +onlyGivenNames x; refine (fun hx => ?_ : P x → _) ?_; clear_value x; rotate_left; subst x; rotate_right)
    | (extract_lets +onlyGivenNames x; refine (fun hx => ?_ : P x.1 → _) ?_; clear_value x; rotate_left; subst x; rotate_right)
    | (extract_lets +onlyGivenNames x; clear_value x)
    | extract_lets +onlyGivenNames x
    | with_reducible apply ite_kept
    | with_reducible apply ite_fst_kept
    | with_reducible apply State.flagA_kept hP
    | with_reducible apply State.flagS_kept hP
    | with_reducible apply State.setAcc_kept hP
    | split

theorem State.iMul_kept (hP : Kept P) {s : State} (h : P s) (ra : Nat) (rb : Nat) (u : Bool) (ac : Nat) : P (State.iMul ra rb u ac s) := by
  unfold State.iMul
  repeat' first
    | with_reducible assumption
    | with_reducible apply State.accTake_kept hP
    | with_reducible apply State.retire_kept hP

theorem State.iMac_kept (hP : Kept P) {s : State} (h : P s) (sign : Int) (sat : Bool) (ra : Nat) (rb : Nat) (u : Bool) (ac : Nat) : P (State.iMac sign sat ra rb u ac s) := by
  unfold State.iMac
  repeat' first
    | with_reducible assumption
    | with_reducible apply State.accTake_kept hP
    | with_reducible apply State.retire_kept hP

theorem State.iAsr_kept (hP : Kept P) {s : State} (h : P s) (ac : Nat) (sh : Nat) : P (State.iAsr ac sh s) := by
  unfold State.iAsr
  repeat' first
    | with_reducible assumption
    | with_reducible apply State.accTake_kept hP
    | with_reducible apply State.retire_kept hP

theorem State.iAsl_kept (hP : Kept P) {s : State} (h : P s) (ac : Nat) (sh : Nat) : P (State.iAsl ac sh s) := by
  unfold State.iAsl
  repeat' first
    | with_reducible assumption
    | with_reducible apply State.accTake_kept hP
    | with_reducible apply State.retire_kept hP

theorem State.iRound_kept (hP : Kept P) {s : State} (h : P s) (rd : Nat) (ac : Nat) (w : Nat) (sh : Nat) : P (State.iRound rd ac w sh s) := by
  unfold State.iRound
  repeat' first
    | with_reducible assumption
    | (extract_lets +onlyGivenNames x; refine (fun hx => ?_ : P x → _) ?_; clear_value x; rotate_left; subst x; rotate_right)
    | (extract_lets +onlyGivenNames x; refine (fun hx => ?_ : P x.1 → _) ?_; clear_value x; rotate_left; subst x; rotate_right)
    | (extract_lets +onlyGivenNames x; clear_value x)
    | extract_lets +onlyGivenNames x
    | with_reducible apply ite_kept
    | with_reducible apply ite_fst_kept
    | with_reducible apply State.exception_kept hP
    | with_reducible apply State.flagS_kept hP
    | with_reducible apply State.flagW_kept hP
    | with_reducible apply State.retire_kept hP
    | with_reducible apply State.setW_kept hP
    | split

theorem State.iNorm_kept (hP : Kept P) {s : State} (h : P s) (rd : Nat) (ac : Nat) : P (State.iNorm rd ac s) := by
  unfold State.iNorm
  repeat' first
    | with_reducible assumption
    | (extract_lets +onlyGivenNames x; refine (fun hx => ?_ : P x → _) ?_; clear_value x; rotate_left; subst x; rotate_right)
    | (extract_lets +onlyGivenNames x; refine (fun hx => ?_ : P x.1 → _) ?_; clear_value x; rotate_left; subst x; rotate_right)
    | (extract_lets +onlyGivenNames x; clear_value x)
    | extract_lets +onlyGivenNames x
    | with_reducible apply State.flagW_kept hP
    | with_reducible apply State.retire_kept hP
    | with_reducible apply State.setW_kept hP

theorem State.iAccget_kept (hP : Kept P) {s : State} (h : P s) (rd : Nat) (ac : Nat) (sh : Nat) : P (State.iAccget rd ac sh s) := by
  unfold State.iAccget
  repeat' first
    | with_reducible assumption
    | with_reducible apply ite_kept
    | with_reducible apply ite_fst_kept
    | with_reducible apply State.exception_kept hP
    | with_reducible apply State.retire_kept hP
    | with_reducible apply State.setW_kept hP
    | split

theorem State.iAccput_kept (hP : Kept P) {s : State} (h : P s) (ra : Nat) (ac : Nat) (sh : Nat) : P (State.iAccput ra ac sh s) := by
  unfold State.iAccput
  repeat' first
    | with_reducible assumption
    | with_reducible apply ite_kept
    | with_reducible apply ite_fst_kept
    | with_reducible apply State.exception_kept hP
    | with_reducible apply State.retire_kept hP
    | with_reducible apply State.setAcc_kept hP
    | split

theorem State.iLd_kept (hP : Kept P) {s : State} (h : P s) (rd : Nat) (ra : Nat) (i : BitVec 30) : P (State.iLd rd ra i s) := by
  unfold State.iLd
  repeat' first
    | with_reducible assumption
    | intro _
    | (extract_lets +onlyGivenNames x; refine (fun hx => ?_ : P x → _) ?_; clear_value x; rotate_left; subst x; rotate_right)
    | (extract_lets +onlyGivenNames x; refine (fun hx => ?_ : P x.1 → _) ?_; clear_value x; rotate_left; subst x; rotate_right)
    | (extract_lets +onlyGivenNames x; clear_value x)
    | extract_lets +onlyGivenNames x
    | with_reducible apply ite_kept
    | with_reducible apply ite_fst_kept
    | with_reducible apply whenB_kept
    | with_reducible apply State.exception_kept hP
    | with_reducible apply State.isAbort_kept hP
    | with_reducible apply State.memRead_kept hP
    | with_reducible apply State.retire_kept hP
    | with_reducible apply State.setW_kept hP
    | split
    | (refine fst_kept (by assumption) ?_)

theorem State.iSt_kept (hP : Kept P) {s : State} (h : P s) (rd : Nat) (ra : Nat) (i : BitVec 30) : P (State.iSt rd ra i s) := by
  unfold State.iSt
  repeat' first
    | with_reducible assumption
    | intro _
    | (extract_lets +onlyGivenNames x; refine (fun hx => ?_ : P x → _) ?_; clear_value x; rotate_left; subst x; rotate_right)
    | (extract_lets +onlyGivenNames x; refine (fun hx => ?_ : P x.1 → _) ?_; clear_value x; rotate_left; subst x; rotate_right)
    | (extract_lets +onlyGivenNames x; clear_value x)
    | extract_lets +onlyGivenNames x
    | with_reducible apply ite_kept
    | with_reducible apply ite_fst_kept
    | with_reducible apply whenB_kept
    | with_reducible apply State.exception_kept hP
    | with_reducible apply State.isAbort_kept hP
    | with_reducible apply State.memWrite_kept hP
    | with_reducible apply State.retire_kept hP
    | split

theorem State.portStat_kept (hP : Kept P) {s : State} (h : P s) (st : Nat) : P (State.portStat s st) := by
  unfold State.portStat
  repeat' first
    | with_reducible assumption
    | intro _
    | (extract_lets +onlyGivenNames x; refine (fun hx => ?_ : P x → _) ?_; clear_value x; rotate_left; subst x; rotate_right)
    | (extract_lets +onlyGivenNames x; refine (fun hx => ?_ : P x.1 → _) ?_; clear_value x; rotate_left; subst x; rotate_right)
    | extract_lets +onlyGivenNames x
    | with_reducible apply ite_kept
    | with_reducible apply ite_fst_kept
    | with_reducible apply whenB_kept
    | with_reducible apply State.flagC_kept hP
    | with_reducible apply State.pmc_kept hP
    | with_reducible apply State.sq_kept hP
    | with_reducible apply State.st_kept hP
    | split
    | (apply Kept.of hP
       · dsimp only <;> exact rfl
       · first | exact id | (intro _; simp_all only [shape, shapeStd, List.cons.injEq, upd_length, List.length_set, List.length_map, List.length_range, List.length_replicate, and_true, true_and, and_self]; done)
       iterate 8 (· exact rfl))
    | exact And.intro rfl rfl
    | exact ‹_ ∧ _›

theorem State.iInp_kept (hP : Kept P) {s : State} (h : P s) (rd : Nat) (ra : Nat) (a24 : BitVec 24) (at_ : Nat) (wait : Nat) : P (State.iInp rd ra a24 at_ wait s) := by
  unfold State.iInp
  repeat' first
    | with_reducible assumption
    | (extract_lets +onlyGivenNames x; refine (fun hx => ?_ : P x → _) ?_; clear_value x; rotate_left; subst x; rotate_right)
    | (extract_lets +onlyGivenNames x; refine (fun hx => ?_ : P x.1 → _) ?_; clear_value x; rotate_left; subst x; rotate_right)
    | (extract_lets +onlyGivenNames x; clear_value x)
    | extract_lets +onlyGivenNames x
    | with_reducible apply State.pmc_kept hP
    | with_reducible apply State.portRead_kept hP
    | with_reducible apply State.portStat_kept hP
    | with_reducible apply State.retire_kept hP
    | with_reducible apply State.setW_kept hP
    | with_reducible apply State.st_kept hP
    | split
    | (refine fst_kept (by assumption) ?_)

theorem State.portEnd_kept (hP : Kept P) {s : State} (h : P s) (st : Nat) (a : Nat) (stall : Nat) (reads : List Nat) : P (State.portEnd s st a stall reads) := by
  unfold State.portEnd
  repeat' first
    | with_reducible assumption
    | (extract_lets +onlyGivenNames x; refine (fun hx => ?_ : P x → _) ?_; clear_value x; rotate_left; subst x; rotate_right)
    | (extract_lets +onlyGivenNames x; refine (fun hx => ?_ : P x.1 → _) ?_; clear_value x; rotate_left; subst x; rotate_right)
    | (extract_lets +onlyGivenNames x; clear_value x)
    | extract_lets +onlyGivenNames x
    | with_reducible apply ite_kept
    | with_reducible apply ite_fst_kept
    | with_reducible apply State.exception_kept hP
    | with_reducible apply State.ibiRefresh_kept hP
    | with_reducible apply State.portStat_kept hP
    | with_reducible apply State.retire_kept hP
    | with_reducible apply State.slots_kept hP
    | with_reducible apply State.st_kept hP
    | split

theorem State.stage_kept (hP : Kept P) {s : State} (h : P s) (l : Nat) (w : Word) (wait : Nat) (held : Nat) (reads : List Nat) : P (State.stage s l w wait held reads) := by
  unfold State.stage
  repeat' first
    | with_reducible assumption
    | (extract_lets +onlyGivenNames x; refine (fun hx => ?_ : P x → _) ?_; clear_value x; rotate_left; subst x; rotate_right)
    | (extract_lets +onlyGivenNames x; refine (fun hx => ?_ : P x.1 → _) ?_; clear_value x; rotate_left; subst x; rotate_right)
    | (extract_lets +onlyGivenNames x; clear_value x)
    | extract_lets +onlyGivenNames x
    | with_reducible apply ite_kept
    | with_reducible apply ite_fst_kept
    | with_reducible apply State.exception_kept hP
    | with_reducible apply State.pmc_kept hP
    | with_reducible apply State.portEnd_kept hP
    | with_reducible apply State.portWrite_kept hP
    | with_reducible apply State.slots_kept hP
    | with_reducible apply State.st_kept hP
    | split
    | (refine fst_kept (by assumption) ?_)

theorem State.iStg_kept (hP : Kept P) {s : State} (h : P s) (rs : Nat) (ra : Nat) (a24 : BitVec 24) (wait : Nat) (held : Nat) : P (State.iStg rs ra a24 wait held s) := by
  unfold State.iStg
  repeat' first
    | with_reducible assumption
    | with_reducible apply State.stage_kept hP

theorem State.iOutp_kept (hP : Kept P) {s : State} (h : P s) (rs : Nat) (ra : Nat) (a24 : BitVec 24) (wait : Nat) (held : Nat) : P (State.iOutp rs ra a24 wait held s) := by
  unfold State.iOutp
  repeat' first
    | with_reducible assumption
    | (extract_lets +onlyGivenNames x; refine (fun hx => ?_ : P x → _) ?_; clear_value x; rotate_left; subst x; rotate_right)
    | (extract_lets +onlyGivenNames x; refine (fun hx => ?_ : P x.1 → _) ?_; clear_value x; rotate_left; subst x; rotate_right)
    | (extract_lets +onlyGivenNames x; clear_value x)
    | extract_lets +onlyGivenNames x
    | with_reducible apply ite_kept
    | with_reducible apply ite_fst_kept
    | with_reducible apply State.pmc_kept hP
    | with_reducible apply State.portEnd_kept hP
    | with_reducible apply State.portWrite_kept hP
    | with_reducible apply State.st_kept hP
    | with_reducible apply State.stage_kept hP
    | split
    | (refine fst_kept (by assumption) ?_)

theorem State.requested_kept (hP : Kept P) {s : State} (h : P s) (rd : Nat) (ok : Bool) (reads : List Nat) : P (State.requested s rd ok reads) := by
  unfold State.requested
  repeat' first
    | with_reducible assumption
    | intro _
    | (extract_lets +onlyGivenNames x; refine (fun hx => ?_ : P x → _) ?_; clear_value x; rotate_left; subst x; rotate_right)
    | (extract_lets +onlyGivenNames x; refine (fun hx => ?_ : P x.1 → _) ?_; clear_value x; rotate_left; subst x; rotate_right)
    | extract_lets +onlyGivenNames x
    | with_reducible apply ite_kept
    | with_reducible apply ite_fst_kept
    | with_reducible apply State.retire_kept hP
    | with_reducible apply State.setW_kept hP
    | with_reducible apply State.sq_kept hP
    | split
    | (apply Kept.of hP
       · dsimp only <;> exact rfl
       · first | exact id | (intro _; simp_all only [shape, shapeStd, List.cons.injEq, upd_length, List.length_set, List.length_map, List.length_range, List.length_replicate, and_true, true_and, and_self]; done)
       iterate 8 (· exact rfl))
    | exact And.intro rfl rfl
    | exact ‹_ ∧ _›

theorem State.iSet_kept (hP : Kept P) {s : State} (h : P s) (rd : Nat) : P (State.iSet rd s) := by
  unfold State.iSet
  repeat' first
    | with_reducible assumption
    | intro _
    | (extract_lets +onlyGivenNames x; refine (fun hx => ?_ : P x → _) ?_; clear_value x; rotate_left; subst x; rotate_right)
    | (extract_lets +onlyGivenNames x; refine (fun hx => ?_ : P x.1 → _) ?_; clear_value x; rotate_left; subst x; rotate_right)
    | (extract_lets +onlyGivenNames x; clear_value x)
    | extract_lets +onlyGivenNames x
    | with_reducible apply whenB_kept
    | with_reducible apply State.pmc_kept hP
    | with_reducible apply State.requested_kept hP
    | with_reducible apply State.startCheck_kept hP

theorem State.iBr_kept (hP : Kept P) {s : State} (h : P s) (c : Nat) (t : BitVec 15) : P (State.iBr c t s) := by
  unfold State.iBr
  repeat' first
    | with_reducible assumption
    | with_reducible apply ite_kept
    | with_reducible apply ite_fst_kept
    | with_reducible apply State.exception_kept hP
    | with_reducible apply State.retire_kept hP
    | split

theorem State.iJr_kept (hP : Kept P) {s : State} (h : P s) (ra : Nat) : P (State.iJr ra s) := by
  unfold State.iJr
  repeat' first
    | with_reducible assumption
    | with_reducible apply State.retire_kept hP

theorem State.iCall_kept (hP : Kept P) {s : State} (h : P s) (t : BitVec 15) : P (State.iCall t s) := by
  unfold State.iCall
  repeat' first
    | with_reducible assumption
    | intro _
    | (extract_lets +onlyGivenNames x; refine (fun hx => ?_ : P x → _) ?_; clear_value x; rotate_left; subst x; rotate_right)
    | (extract_lets +onlyGivenNames x; refine (fun hx => ?_ : P x.1 → _) ?_; clear_value x; rotate_left; subst x; rotate_right)
    | extract_lets +onlyGivenNames x
    | with_reducible apply ite_kept
    | with_reducible apply ite_fst_kept
    | with_reducible apply State.exception_kept hP
    | with_reducible apply State.retire_kept hP
    | with_reducible apply State.sq_kept hP
    | split
    | (apply Kept.of hP
       · dsimp only <;> exact rfl
       · first | exact id | (intro _; simp_all only [shape, shapeStd, List.cons.injEq, upd_length, List.length_set, List.length_map, List.length_range, List.length_replicate, and_true, true_and, and_self]; done)
       iterate 8 (· exact rfl))
    | exact And.intro rfl rfl
    | exact ‹_ ∧ _›

theorem State.iRet_kept (hP : Kept P) {s : State} (h : P s)  : P (State.iRet s) := by
  unfold State.iRet
  repeat' first
    | with_reducible assumption
    | intro _
    | (extract_lets +onlyGivenNames x; refine (fun hx => ?_ : P x → _) ?_; clear_value x; rotate_left; subst x; rotate_right)
    | (extract_lets +onlyGivenNames x; refine (fun hx => ?_ : P x.1 → _) ?_; clear_value x; rotate_left; subst x; rotate_right)
    | extract_lets +onlyGivenNames x
    | with_reducible apply State.exception_kept hP
    | with_reducible apply State.retire_kept hP
    | with_reducible apply State.sq_kept hP
    | with_reducible apply State.st_kept hP
    | split
    | (refine fst_kept (by assumption) ?_)
    | (apply Kept.of hP
       · dsimp only <;> exact rfl
       · first | exact id | (intro _; simp_all only [shape, shapeStd, List.cons.injEq, upd_length, List.length_set, List.length_map, List.length_range, List.length_replicate, and_true, true_and, and_self]; done)
       iterate 8 (· exact rfl))
    | exact And.intro rfl rfl
    | exact ‹_ ∧ _›

theorem State.iTick_kept (hP : Kept P) {s : State} (h : P s) (t : BitVec 15) : P (State.iTick t s) := by
  unfold State.iTick
  repeat' first
    | with_reducible assumption
    | (extract_lets +onlyGivenNames x; refine (fun hx => ?_ : P x → _) ?_; clear_value x; rotate_left; subst x; rotate_right)
    | (extract_lets +onlyGivenNames x; refine (fun hx => ?_ : P x.1 → _) ?_; clear_value x; rotate_left; subst x; rotate_right)
    | (extract_lets +onlyGivenNames x; clear_value x)
    | extract_lets +onlyGivenNames x
    | with_reducible apply State.endRun_kept hP
    | with_reducible apply State.pmc_kept hP
    | with_reducible apply State.put_kept hP
    | with_reducible apply State.retire_kept hP

theorem State.waitEnd_kept (hP : Kept P) {s : State} (h : P s) (rd : Nat) (mask : Word) : P (State.waitEnd s rd mask) := by
  unfold State.waitEnd
  repeat' first
    | with_reducible assumption
    | intro _
    | (extract_lets +onlyGivenNames x; refine (fun hx => ?_ : P x → _) ?_; clear_value x; rotate_left; subst x; rotate_right)
    | (extract_lets +onlyGivenNames x; refine (fun hx => ?_ : P x.1 → _) ?_; clear_value x; rotate_left; subst x; rotate_right)
    | extract_lets +onlyGivenNames x
    | with_reducible apply State.put_kept hP
    | with_reducible apply State.retire_kept hP
    | with_reducible apply State.setW_kept hP
    | with_reducible apply State.sq_kept hP
    | (apply Kept.of hP
       · dsimp only <;> exact rfl
       · first | exact id | (intro _; simp_all only [shape, shapeStd, List.cons.injEq, upd_length, List.length_set, List.length_map, List.length_range, List.length_replicate, and_true, true_and, and_self]; done)
       iterate 8 (· exact rfl))
    | exact And.intro rfl rfl
    | exact ‹_ ∧ _›

theorem State.iWaite_kept (hP : Kept P) {s : State} (h : P s) (rd : Nat) (ra : Nat) (limit : Nat) : P (State.iWaite rd ra limit s) := by
  unfold State.iWaite
  repeat' first
    | with_reducible assumption
    | intro _
    | (extract_lets +onlyGivenNames x; refine (fun hx => ?_ : P x → _) ?_; clear_value x; rotate_left; subst x; rotate_right)
    | (extract_lets +onlyGivenNames x; refine (fun hx => ?_ : P x.1 → _) ?_; clear_value x; rotate_left; subst x; rotate_right)
    | extract_lets +onlyGivenNames x
    | with_reducible apply ite_kept
    | with_reducible apply ite_fst_kept
    | with_reducible apply State.sq_kept hP
    | with_reducible apply State.waitEnd_kept hP
    | split
    | (apply Kept.of hP
       · dsimp only <;> exact rfl
       · first | exact id | (intro _; simp_all only [shape, shapeStd, List.cons.injEq, upd_length, List.length_set, List.length_map, List.length_range, List.length_replicate, and_true, true_and, and_self]; done)
       iterate 8 (· exact rfl))
    | exact And.intro rfl rfl
    | exact ‹_ ∧ _›

theorem State.waitPass_kept (hP : Kept P) {s : State} (h : P s) (n : Nat) : P (State.waitPass s n) := by
  unfold State.waitPass
  repeat' first
    | with_reducible assumption
    | intro _
    | (extract_lets +onlyGivenNames x; refine (fun hx => ?_ : P x → _) ?_; clear_value x; rotate_left; subst x; rotate_right)
    | (extract_lets +onlyGivenNames x; refine (fun hx => ?_ : P x.1 → _) ?_; clear_value x; rotate_left; subst x; rotate_right)
    | extract_lets +onlyGivenNames x
    | with_reducible apply State.slots_kept hP
    | with_reducible apply State.sq_kept hP
    | (apply Kept.of hP
       · dsimp only <;> exact rfl
       · first | exact id | (intro _; simp_all only [shape, shapeStd, List.cons.injEq, upd_length, List.length_set, List.length_map, List.length_range, List.length_replicate, and_true, true_and, and_self]; done)
       iterate 8 (· exact rfl))
    | exact And.intro rfl rfl
    | exact ‹_ ∧ _›

theorem State.waiteEnd_kept (hP : Kept P) {s : State} (h : P s) (n : Nat) : P (State.waiteEnd s n) := by
  unfold State.waiteEnd
  repeat' first
    | with_reducible assumption
    | (extract_lets +onlyGivenNames x; refine (fun hx => ?_ : P x → _) ?_; clear_value x; rotate_left; subst x; rotate_right)
    | (extract_lets +onlyGivenNames x; refine (fun hx => ?_ : P x.1 → _) ?_; clear_value x; rotate_left; subst x; rotate_right)
    | (extract_lets +onlyGivenNames x; clear_value x)
    | extract_lets +onlyGivenNames x
    | with_reducible apply ite_kept
    | with_reducible apply ite_fst_kept
    | with_reducible apply State.waitEnd_kept hP
    | with_reducible apply State.waitPass_kept hP
    | split
    | (refine fst_kept (by assumption) ?_)
    | (apply Kept.of hP
       · dsimp only <;> exact rfl
       · first | exact id | (intro _; simp_all only [shape, shapeStd, List.cons.injEq, upd_length, List.length_set, List.length_map, List.length_range, List.length_replicate, and_true, true_and, and_self]; done)
       iterate 8 (· exact rfl))

theorem State.iBrk_kept (hP : Kept P) {s : State} (h : P s)  : P (State.iBrk s) := by
  unfold State.iBrk
  repeat' first
    | with_reducible assumption
    | with_reducible apply ite_kept
    | with_reducible apply ite_fst_kept
    | with_reducible apply State.exception_kept hP
    | with_reducible apply State.halt_kept hP
    | with_reducible apply State.retire_kept hP
    | split

theorem State.ringPort_kept (hP : Kept P) {s : State} (h : P s) (owner : FRef) (r : Nat) (stall : Nat) (reads : List Nat) (f : State → State) (hf : ∀ t, P t → P (f t)) : P (State.ringPort s owner r stall reads f) := by
  unfold State.ringPort
  repeat' first
    | with_reducible assumption
    | (extract_lets +onlyGivenNames x; refine (fun hx => ?_ : P x → _) ?_; clear_value x; rotate_left; subst x; rotate_right)
    | (extract_lets +onlyGivenNames x; refine (fun hx => ?_ : P x.1 → _) ?_; clear_value x; rotate_left; subst x; rotate_right)
    | (extract_lets +onlyGivenNames x; clear_value x)
    | extract_lets +onlyGivenNames x
    | with_reducible apply ite_kept
    | with_reducible apply ite_fst_kept
    | with_reducible apply State.exception_kept hP
    | with_reducible apply State.portStat_kept hP
    | with_reducible apply State.retire_kept hP
    | with_reducible apply State.slots_kept hP
    | with_reducible apply State.violate_kept hP
    | with_reducible apply hf
    | split

theorem State.iPush_kept (hP : Kept P) {s : State} (h : P s) (rd : Nat) (ra : Nat) (h : Bool) (ofs : Nat) (wait : Nat) : P (State.iPush rd ra h ofs wait s) := by
  unfold State.iPush
  repeat' first
    | with_reducible assumption
    | intro _
    | (extract_lets +onlyGivenNames x; refine (fun hx => ?_ : P x → _) ?_; clear_value x; rotate_left; subst x; rotate_right)
    | (extract_lets +onlyGivenNames x; refine (fun hx => ?_ : P x.1 → _) ?_; clear_value x; rotate_left; subst x; rotate_right)
    | extract_lets +onlyGivenNames x
    | with_reducible apply ite_kept
    | with_reducible apply ite_fst_kept
    | with_reducible apply State.exception_kept hP
    | with_reducible apply State.flagC_kept hP
    | with_reducible apply State.pmc_kept hP
    | with_reducible apply State.retire_kept hP
    | with_reducible apply State.ringAdvance_kept hP
    | with_reducible apply State.ringPort_kept hP
    | with_reducible apply State.ringPut_kept hP
    | with_reducible apply State.sq_kept hP
    | split
    | (apply Kept.of hP
       · dsimp only <;> exact rfl
       · first | exact id | (intro _; simp_all only [shape, shapeStd, List.cons.injEq, upd_length, List.length_set, List.length_map, List.length_range, List.length_replicate, and_true, true_and, and_self]; done)
       iterate 8 (· exact rfl))
    | exact And.intro rfl rfl
    | exact ‹_ ∧ _›

theorem State.iPop_kept (hP : Kept P) {s : State} (h : P s) (rd : Nat) (ra : Nat) (h : Bool) (ofs : Nat) (wait : Nat) : P (State.iPop rd ra h ofs wait s) := by
  unfold State.iPop
  repeat' first
    | with_reducible assumption
    | intro _
    | (extract_lets +onlyGivenNames x; refine (fun hx => ?_ : P x → _) ?_; clear_value x; rotate_left; subst x; rotate_right)
    | (extract_lets +onlyGivenNames x; refine (fun hx => ?_ : P x.1 → _) ?_; clear_value x; rotate_left; subst x; rotate_right)
    | extract_lets +onlyGivenNames x
    | with_reducible apply ite_kept
    | with_reducible apply ite_fst_kept
    | with_reducible apply whenB_kept
    | with_reducible apply each_kept
    | with_reducible apply State.exception_kept hP
    | with_reducible apply State.flagC_kept hP
    | with_reducible apply State.isAbort_kept hP
    | with_reducible apply State.memRead_kept hP
    | with_reducible apply State.pmc_kept hP
    | with_reducible apply State.retire_kept hP
    | with_reducible apply State.ringConsume_kept hP
    | with_reducible apply State.ringPort_kept hP
    | with_reducible apply State.setW_kept hP
    | with_reducible apply State.sq_kept hP
    | split
    | (refine fst_kept (by assumption) ?_)
    | (apply Kept.of hP
       · dsimp only <;> exact rfl
       · first | exact id | (intro _; simp_all only [shape, shapeStd, List.cons.injEq, upd_length, List.length_set, List.length_map, List.length_range, List.length_replicate, and_true, true_and, and_self]; done)
       iterate 8 (· exact rfl))
    | exact And.intro rfl rfl
    | exact ‹_ ∧ _›

theorem State.iTrc_kept (hP : Kept P) {s : State} (h : P s) (rd : Nat) (at_ : Nat) : P (State.iTrc rd at_ s) := by
  unfold State.iTrc
  repeat' first
    | with_reducible assumption
    | (extract_lets +onlyGivenNames x; refine (fun hx => ?_ : P x → _) ?_; clear_value x; rotate_left; subst x; rotate_right)
    | (extract_lets +onlyGivenNames x; refine (fun hx => ?_ : P x.1 → _) ?_; clear_value x; rotate_left; subst x; rotate_right)
    | (extract_lets +onlyGivenNames x; clear_value x)
    | extract_lets +onlyGivenNames x
    | with_reducible apply ite_kept
    | with_reducible apply ite_fst_kept
    | with_reducible apply State.enterRecord_kept hP
    | with_reducible apply State.retire_kept hP
    | split

theorem State.iPwr_kept (hP : Kept P) {s : State} (h : P s) (rd : Nat) (ra : Nat) : P (State.iPwr rd ra s) := by
  unfold State.iPwr
  repeat' first
    | with_reducible assumption
    | (extract_lets +onlyGivenNames x; refine (fun hx => ?_ : P x → _) ?_; clear_value x; rotate_left; subst x; rotate_right)
    | (extract_lets +onlyGivenNames x; refine (fun hx => ?_ : P x.1 → _) ?_; clear_value x; rotate_left; subst x; rotate_right)
    | (extract_lets +onlyGivenNames x; clear_value x)
    | extract_lets +onlyGivenNames x
    | with_reducible apply State.pwrRequest_kept hP
    | with_reducible apply State.requested_kept hP

theorem State.wordOp_kept (hP : Kept P) (w : Word) (at_ wait held : Nat) : funKeeps P (State.wordOp w at_ wait held) := by
  unfold State.wordOp
  extract_lets n rd ra rb imm a24 tgt u ac wd sh sure none40 rOk aOk fR fI fM pOk qOk
  have hS : ∀ c f, (∀ t, P t → P (f t)) → funKeeps P (sure c f) := by
    intro c f hf
    show funKeeps P (if c = true then some f else none)
    split
    · exact hf
    · trivial
  have hR : ∀ f : Nat → Nat → Nat → State → State, (∀ a b c t, P t → P (f a b c t)) → funKeeps P (fR f) := fun f hf => hS _ _ (hf _ _ _)
  have hI : ∀ f : Nat → Nat → BitVec 30 → State → State, (∀ a b c t, P t → P (f a b c t)) → funKeeps P (fI f) := fun f hf => hf _ _ _
  have hM : ∀ f : Nat → Nat → Bool → Nat → State → State, (∀ a b c d t, P t → P (f a b c d t)) → funKeeps P (fM f) :=
    fun f hf => hS _ _ (hf _ _ _ _)
  clear_value fR fI fM sure
  split
  all_goals first
    | exact trivial
    | apply hS
    | apply hR
    | apply hI
    | apply hM
  all_goals
    intros
    first
    | with_reducible apply State.iNop_kept hP
    | with_reducible apply State.iAdd_kept hP
    | with_reducible apply State.iAdds_kept hP
    | with_reducible apply State.iSub_kept hP
    | with_reducible apply State.iSubs_kept hP
    | with_reducible apply State.iAddi_kept hP
    | with_reducible apply State.iAddsi_kept hP
    | with_reducible apply State.iSubi_kept hP
    | with_reducible apply State.iSubsi_kept hP
    | with_reducible apply State.iMovlo_kept hP
    | with_reducible apply State.iMovhi_kept hP
    | with_reducible apply State.iGetf_kept hP
    | with_reducible apply State.iPutf_kept hP
    | with_reducible apply State.iClrs_kept hP
    | with_reducible apply State.iMul_kept hP
    | with_reducible apply State.iMac_kept hP
    | with_reducible apply State.iAsr_kept hP
    | with_reducible apply State.iAsl_kept hP
    | with_reducible apply State.iRound_kept hP
    | with_reducible apply State.iNorm_kept hP
    | with_reducible apply State.iAccget_kept hP
    | with_reducible apply State.iAccput_kept hP
    | with_reducible apply State.iLd_kept hP
    | with_reducible apply State.iSt_kept hP
    | with_reducible apply State.iInp_kept hP
    | with_reducible apply State.iOutp_kept hP
    | with_reducible apply State.iStg_kept hP
    | with_reducible apply State.iSet_kept hP
    | with_reducible apply State.iBr_kept hP
    | with_reducible apply State.iJr_kept hP
    | with_reducible apply State.iCall_kept hP
    | with_reducible apply State.iRet_kept hP
    | with_reducible apply State.iTick_kept hP
    | with_reducible apply State.iWaite_kept hP
    | with_reducible apply State.iBrk_kept hP
    | with_reducible apply State.iPush_kept hP
    | with_reducible apply State.iPop_kept hP
    | with_reducible apply State.iTrc_kept hP
    | with_reducible apply State.iPwr_kept hP
    | with_reducible apply State.iLogic_kept hP
    | with_reducible apply State.iLogici_kept hP
    assumption

theorem State.iUndefined_kept (hP : Kept P) {s : State} (h : P s) (w : Word) : P (State.iUndefined w s) := by
  unfold State.iUndefined
  repeat' first
    | with_reducible assumption
    | (extract_lets +onlyGivenNames x; refine (fun hx => ?_ : P x → _) ?_; clear_value x; rotate_left; subst x; rotate_right)
    | (extract_lets +onlyGivenNames x; refine (fun hx => ?_ : P x.1 → _) ?_; clear_value x; rotate_left; subst x; rotate_right)
    | (extract_lets +onlyGivenNames x; clear_value x)
    | extract_lets +onlyGivenNames x
    | with_reducible apply State.exception_kept hP
    | split
    | (refine fst_kept (by assumption) ?_)
    | (apply Kept.of hP
       · dsimp only <;> exact rfl
       · first | exact id | (intro _; simp_all only [shape, shapeStd, List.cons.injEq, upd_length, List.length_set, List.length_map, List.length_range, List.length_replicate, and_true, true_and, and_self]; done)
       iterate 8 (· exact rfl))

theorem State.issueNext_kept (hP : Kept P) {s : State} (h : P s) (at_ : Nat) (wait : Nat) (held : Nat) : P (State.issueNext s at_ wait held) := by
  unfold State.issueNext
  repeat' first
    | with_reducible assumption
    | (extract_lets +onlyGivenNames x; refine (fun hx => ?_ : P x → _) ?_; clear_value x; rotate_left; subst x; rotate_right)
    | (extract_lets +onlyGivenNames x; refine (fun hx => ?_ : P x.1 → _) ?_; clear_value x; rotate_left; subst x; rotate_right)
    | (extract_lets +onlyGivenNames x; clear_value x)
    | extract_lets +onlyGivenNames x
    | with_reducible apply ite_kept
    | with_reducible apply ite_fst_kept
    | refine funKeeps_some (by assumption) (State.wordOp_kept hP _ _ _ _) ?_
    | with_reducible apply State.exception_kept hP
    | with_reducible apply State.fetch_kept hP
    | split
    | (refine fst_kept (by assumption) ?_)
    | (apply Kept.of hP
       · dsimp only <;> exact rfl
       · first | exact id | (intro _; simp_all only [shape, shapeStd, List.cons.injEq, upd_length, List.length_set, List.length_map, List.length_range, List.length_replicate, and_true, true_and, and_self]; done)
       iterate 8 (· exact rfl))

theorem State.seqStep_kept (hP : Kept P) {s : State} (h : P s) (at_ : Nat) (wait : Nat) (held : Nat) : P (State.seqStep s at_ wait held) := by
  unfold State.seqStep
  repeat' first
    | with_reducible assumption
    | intro _
    | (extract_lets +onlyGivenNames x; refine (fun hx => ?_ : P x → _) ?_; clear_value x; rotate_left; subst x; rotate_right)
    | (extract_lets +onlyGivenNames x; refine (fun hx => ?_ : P x.1 → _) ?_; clear_value x; rotate_left; subst x; rotate_right)
    | extract_lets +onlyGivenNames x
    | with_reducible apply ite_kept
    | with_reducible apply ite_fst_kept
    | with_reducible apply State.halt_kept hP
    | with_reducible apply State.issueNext_kept hP
    | with_reducible apply State.sq_kept hP
    | with_reducible apply State.waitEnd_kept hP
    | with_reducible apply State.waitPass_kept hP
    | split
    | (refine fst_kept (by assumption) ?_)
    | (apply Kept.of hP
       · dsimp only <;> exact rfl
       · first | exact id | (intro _; simp_all only [shape, shapeStd, List.cons.injEq, upd_length, List.length_set, List.length_map, List.length_range, List.length_replicate, and_true, true_and, and_self]; done)
       iterate 8 (· exact rfl))
    | exact And.intro rfl rfl
    | exact ‹_ ∧ _›

theorem State.runStart_kept (hP : Kept P) {s : State} (h : P s)  : P (State.runStart s) := by
  unfold State.runStart
  repeat' first
    | with_reducible assumption
    | intro _
    | (extract_lets +onlyGivenNames x; refine (fun hx => ?_ : P x → _) ?_; clear_value x; rotate_left; subst x; rotate_right)
    | (extract_lets +onlyGivenNames x; refine (fun hx => ?_ : P x.1 → _) ?_; clear_value x; rotate_left; subst x; rotate_right)
    | extract_lets +onlyGivenNames x
    | with_reducible apply ite_kept
    | with_reducible apply ite_fst_kept
    | with_reducible apply State.slots_kept hP
    | with_reducible apply State.sq_kept hP
    | split
    | (refine fst_kept (by assumption) ?_)
    | (apply Kept.of hP
       · dsimp only <;> exact rfl
       · first | exact id | (intro _; simp_all only [shape, shapeStd, List.cons.injEq, upd_length, List.length_set, List.length_map, List.length_range, List.length_replicate, and_true, true_and, and_self]; done)
       iterate 8 (· exact rfl))
    | exact And.intro rfl rfl
    | exact ‹_ ∧ _›

theorem State.wdogExpire_kept (hP : Kept P) {s : State} (h : P s)  : P (State.wdogExpire s) := by
  unfold State.wdogExpire
  repeat' first
    | with_reducible assumption
    | intro _
    | (extract_lets +onlyGivenNames x; refine (fun hx => ?_ : P x → _) ?_; clear_value x; rotate_left; subst x; rotate_right)
    | (extract_lets +onlyGivenNames x; refine (fun hx => ?_ : P x.1 → _) ?_; clear_value x; rotate_left; subst x; rotate_right)
    | extract_lets +onlyGivenNames x
    | with_reducible apply ite_kept
    | with_reducible apply ite_fst_kept
    | with_reducible apply State.coreReset_kept hP
    | with_reducible apply State.ev_kept hP
    | with_reducible apply State.inc_kept hP
    | with_reducible apply State.seqResetSeen_kept hP
    | with_reducible apply State.sq_kept hP
    | split
    | (apply Kept.of hP
       · dsimp only <;> exact rfl
       · first | exact id | (intro _; simp_all only [shape, shapeStd, List.cons.injEq, upd_length, List.length_set, List.length_map, List.length_range, List.length_replicate, and_true, true_and, and_self]; done)
       iterate 8 (· exact rfl))
    | exact And.intro rfl rfl
    | exact ‹_ ∧ _›

theorem State.seqFaultAct_kept (hP : Kept P) {s : State} (h : P s)  : P (State.seqFaultAct s) := by
  unfold State.seqFaultAct
  repeat' first
    | with_reducible assumption
    | intro _
    | (extract_lets +onlyGivenNames x; refine (fun hx => ?_ : P x → _) ?_; clear_value x; rotate_left; subst x; rotate_right)
    | (extract_lets +onlyGivenNames x; refine (fun hx => ?_ : P x.1 → _) ?_; clear_value x; rotate_left; subst x; rotate_right)
    | extract_lets +onlyGivenNames x
    | with_reducible apply ite_kept
    | with_reducible apply ite_fst_kept
    | with_reducible apply State.coreReset_kept hP
    | with_reducible apply State.halt_kept hP
    | with_reducible apply State.inc_kept hP
    | with_reducible apply State.put_kept hP
    | with_reducible apply State.seqResetSeen_kept hP
    | with_reducible apply State.sq_kept hP
    | split
    | (apply Kept.of hP
       · dsimp only <;> exact rfl
       · first | exact id | (intro _; simp_all only [shape, shapeStd, List.cons.injEq, upd_length, List.length_set, List.length_map, List.length_range, List.length_replicate, and_true, true_and, and_self]; done)
       iterate 8 (· exact rfl))
    | exact And.intro rfl rfl
    | exact ‹_ ∧ _›

end Sys2Proof.Machine
end

