-- ==== Sys2Proof/Laws/KeptHostCmd.lean ====
section
/-! SUPPORT. What the operations of `Sys2Proof.Machine.HostCmd` keep (`Sys2Proof.Laws.Kept`). -/
namespace Sys2Proof.Machine
open State
set_option linter.all false
variable {P : State → Prop}

theorem State.setCmd_kept (hP : Kept P) {s : State} (h : P s) (c : Nat) (h : Option HostCmd) : P (State.setCmd s c h) := by
  unfold State.setCmd
  repeat' first
    | with_reducible assumption
    | intro _
    | (extract_lets +onlyGivenNames x; refine (fun hx => ?_ : P x → _) ?_; clear_value x; rotate_left; subst x; rotate_right)
    | (extract_lets +onlyGivenNames x; refine (fun hx => ?_ : P x.1 → _) ?_; clear_value x; rotate_left; subst x; rotate_right)
    | (extract_lets +onlyGivenNames x; clear_value x)
    | extract_lets +onlyGivenNames x
    | (apply Kept.of hP
       · dsimp only <;> exact rfl
       · first | exact id | (intro _; simp_all only [shape, shapeStd, List.cons.injEq, upd_length, List.length_set, List.length_map, List.length_range, List.length_replicate, and_true, true_and, and_self]; done)
       iterate 8 (· exact rfl))

theorem State.cmdDone_kept (hP : Kept P) {s : State} (h : P s) (c : Nat) (h : HostCmd) (status : Nat) (res1 : Word) (res2 : Word) : P (State.cmdDone s c h status res1 res2) := by
  unfold State.cmdDone
  repeat' first
    | with_reducible assumption
    | (extract_lets +onlyGivenNames x; refine (fun hx => ?_ : P x → _) ?_; clear_value x; rotate_left; subst x; rotate_right)
    | (extract_lets +onlyGivenNames x; refine (fun hx => ?_ : P x.1 → _) ?_; clear_value x; rotate_left; subst x; rotate_right)
    | (extract_lets +onlyGivenNames x; clear_value x)
    | extract_lets +onlyGivenNames x
    | with_reducible apply State.ringAdvance_kept hP
    | with_reducible apply State.ringPut_kept hP
    | with_reducible apply State.setCmd_kept hP
    | (apply Kept.of hP
       · dsimp only <;> exact rfl
       · first | exact id | (intro _; simp_all only [shape, shapeStd, List.cons.injEq, upd_length, List.length_set, List.length_map, List.length_range, List.length_replicate, and_true, true_and, and_self]; done)
       iterate 8 (· exact rfl))

theorem State.cmdWords_kept (hP : Kept P) {s : State} (h : P s) (c : Nat) : P (State.cmdWords s c).1 :=
  foldl_fst_kept h fun p i hp => State.memRead_kept hP hp _ _ _ _

theorem State.cmdRow_kept (hP : Kept P) {s : State} (h : P s) (c : Nat) (is : Nat → Bool) (go : State → HostCmd → State) (hgo : ∀ t x0, P t → P (go t x0)) : P (State.cmdRow s c is go) := by
  unfold State.cmdRow
  dsimp only
  repeat' first
    | with_reducible assumption
    | (extract_lets +onlyGivenNames x; refine (fun hx => ?_ : P x → _) ?_; clear_value x; rotate_left; subst x; rotate_right)
    | (extract_lets +onlyGivenNames x; refine (fun hx => ?_ : P x.1 → _) ?_; clear_value x; rotate_left; subst x; rotate_right)
    | (extract_lets +onlyGivenNames x; clear_value x)
    | extract_lets +onlyGivenNames x
    | with_reducible apply ite_kept
    | with_reducible apply ite_fst_kept
    | with_reducible apply State.cmdDone_kept hP
    | with_reducible apply State.cmdWords_kept hP
    | with_reducible apply State.ringConsume_kept hP
    | with_reducible apply State.setCmd_kept hP
    | with_reducible apply hgo
    | split
    | (refine fst_kept (by assumption) ?_)
    | (apply Kept.of hP
       · dsimp only <;> exact rfl
       · first | exact id | (intro _; simp_all only [shape, shapeStd, List.cons.injEq, upd_length, List.length_set, List.length_map, List.length_range, List.length_replicate, and_true, true_and, and_self]; done)
       iterate 8 (· exact rfl))

theorem State.fwWrite_kept (hP : Kept P) {s : State} (h : P s) (a : Nat) (w : Word) : P (State.fwWrite s a w) := by
  unfold State.fwWrite
  repeat' first
    | with_reducible assumption
    | with_reducible apply State.ibiRefresh_kept hP
    | with_reducible apply State.portWrite_kept hP

theorem State.fwStage_kept (hP : Kept P) {s : State} (h : P s) (a : Nat) (w : Word) : P (State.fwStage s a w) := by
  unfold State.fwStage
  repeat' first
    | with_reducible assumption
    | with_reducible apply State.fwWrite_kept hP

theorem State.fwField_kept (hP : Kept P) {s : State} (h : P s) (f : FRef) (i : List Nat) (v : Nat) : P (State.fwField s f i v) := by
  unfold State.fwField
  repeat' first
    | with_reducible assumption
    | with_reducible apply State.fwStage_kept hP

theorem State.cmdSet_kept (hP : Kept P) {s : State} (h : P s) (c : Nat) (h : HostCmd) (first : Nat) (stageIt : State → State) (hstageIt : ∀ t, P t → P (stageIt t)) (after : State → HostCmd → State) (hafter : ∀ t x0, P t → P (after t x0)) : P (State.cmdSet s c h first stageIt after) := by
  unfold State.cmdSet
  repeat' first
    | with_reducible assumption
    | (extract_lets +onlyGivenNames x; refine (fun hx => ?_ : P x → _) ?_; clear_value x; rotate_left; subst x; rotate_right)
    | (extract_lets +onlyGivenNames x; refine (fun hx => ?_ : P x.1 → _) ?_; clear_value x; rotate_left; subst x; rotate_right)
    | (extract_lets +onlyGivenNames x; clear_value x)
    | extract_lets +onlyGivenNames x
    | with_reducible apply ite_kept
    | with_reducible apply ite_fst_kept
    | with_reducible apply State.cmdDone_kept hP
    | with_reducible apply State.setCmd_kept hP
    | with_reducible apply State.stage_kept hP
    | with_reducible apply State.startCheck_kept hP
    | with_reducible apply hstageIt
    | with_reducible apply hafter
    | split
    | (apply Kept.of hP
       · dsimp only <;> exact rfl
       · first | exact id | (intro _; simp_all only [shape, shapeStd, List.cons.injEq, upd_length, List.length_set, List.length_map, List.length_range, List.length_replicate, and_true, true_and, and_self]; done)
       iterate 8 (· exact rfl))

theorem State.cmdPing_kept (hP : Kept P) {s : State} (h : P s) (c : Nat) : P (State.cmdPing s c) := by
  unfold State.cmdPing
  repeat' first
    | with_reducible assumption
    | intro _
    | with_reducible apply State.cmdDone_kept hP
    | with_reducible apply State.cmdRow_kept hP

theorem State.cmdRegRead_kept (hP : Kept P) {s : State} (h : P s) (c : Nat) (at_ : Nat) : P (State.cmdRegRead s c at_) := by
  unfold State.cmdRegRead
  repeat' first
    | with_reducible assumption
    | intro _
    | (extract_lets +onlyGivenNames x; refine (fun hx => ?_ : P x → _) ?_; clear_value x; rotate_left; subst x; rotate_right)
    | (extract_lets +onlyGivenNames x; refine (fun hx => ?_ : P x.1 → _) ?_; clear_value x; rotate_left; subst x; rotate_right)
    | (extract_lets +onlyGivenNames x; clear_value x)
    | extract_lets +onlyGivenNames x
    | with_reducible apply ite_kept
    | with_reducible apply ite_fst_kept
    | with_reducible apply State.cmdDone_kept hP
    | with_reducible apply State.cmdRow_kept hP
    | with_reducible apply State.pmc_kept hP
    | with_reducible apply State.portRead_kept hP
    | with_reducible apply State.st_kept hP
    | split
    | (refine fst_kept (by assumption) ?_)

theorem State.cmdSetRow_kept (hP : Kept P) {s : State} (h : P s) (c : Nat) : P (State.cmdSetRow s c) :=
  State.cmdRow_kept hP h _ _ _ fun _ _ ht => State.cmdSet_kept hP ht _ _ _ _ (fun _ hu => hu) _ fun _ _ hv => State.cmdDone_kept hP hv _ _ _ _ _

theorem State.cmdDps_kept (hP : Kept P) {s : State} (h : P s) (c : Nat) : P (State.cmdDps s c) := by
  unfold State.cmdDps
  repeat' first
    | with_reducible assumption
    | intro _
    | (extract_lets +onlyGivenNames x; refine (fun hx => ?_ : P x → _) ?_; clear_value x; rotate_left; subst x; rotate_right)
    | (extract_lets +onlyGivenNames x; refine (fun hx => ?_ : P x.1 → _) ?_; clear_value x; rotate_left; subst x; rotate_right)
    | (extract_lets +onlyGivenNames x; clear_value x)
    | extract_lets +onlyGivenNames x
    | with_reducible apply ite_kept
    | with_reducible apply ite_fst_kept
    | with_reducible apply State.cmdDone_kept hP
    | with_reducible apply State.cmdRow_kept hP
    | with_reducible apply State.cmdSet_kept hP
    | with_reducible apply State.fwStage_kept hP
    | split

theorem State.writePlan_kept (hP : Kept P) {s : State} (h : P s) (steps : List (List (BitVec 24 × Word))) : P (State.writePlan s steps) := by
  unfold State.writePlan
  repeat' first
    | with_reducible assumption
    | intro _
    | with_reducible apply each_kept
    | with_reducible apply State.fwWrite_kept hP

theorem State.cmdJournal_kept (hP : Kept P) {s : State} (h : P s) (c : Nat) (h : HostCmd) (steps : List (List (BitVec 24 × Word))) (fwd : Nat) : P (State.cmdJournal s c h steps fwd) := by
  unfold State.cmdJournal
  repeat' first
    | with_reducible assumption
    | (extract_lets +onlyGivenNames x; refine (fun hx => ?_ : P x → _) ?_; clear_value x; rotate_left; subst x; rotate_right)
    | (extract_lets +onlyGivenNames x; refine (fun hx => ?_ : P x.1 → _) ?_; clear_value x; rotate_left; subst x; rotate_right)
    | (extract_lets +onlyGivenNames x; clear_value x)
    | extract_lets +onlyGivenNames x
    | with_reducible apply ite_kept
    | with_reducible apply ite_fst_kept
    | with_reducible apply State.cmdDone_kept hP
    | with_reducible apply State.fwWrite_kept hP
    | with_reducible apply State.setCmd_kept hP
    | with_reducible apply State.st_kept hP
    | with_reducible apply State.stage_kept hP
    | with_reducible apply State.writePlan_kept hP
    | split
    | (apply Kept.of hP
       · dsimp only <;> exact rfl
       · first | exact id | (intro _; simp_all only [shape, shapeStd, List.cons.injEq, upd_length, List.length_set, List.length_map, List.length_range, List.length_replicate, and_true, true_and, and_self]; done)
       iterate 8 (· exact rfl))

theorem State.cmdMode_kept (hP : Kept P) {s : State} (h : P s) (c : Nat) (before : List (List (BitVec 24 × Word))) (fwd : Nat) : P (State.cmdMode s c before fwd) := by
  unfold State.cmdMode
  repeat' first
    | with_reducible assumption
    | intro _
    | with_reducible apply ite_kept
    | with_reducible apply ite_fst_kept
    | with_reducible apply State.cmdDone_kept hP
    | with_reducible apply State.cmdJournal_kept hP
    | with_reducible apply State.cmdRow_kept hP
    | split

theorem State.cmdProfile_kept (hP : Kept P) {s : State} (h : P s) (c : Nat) (plan : List (List (BitVec 24 × Word))) (fwd : Nat) : P (State.cmdProfile s c plan fwd) := by
  unfold State.cmdProfile
  repeat' first
    | with_reducible assumption
    | intro _
    | with_reducible apply State.cmdJournal_kept hP
    | with_reducible apply State.cmdRow_kept hP

theorem State.cmdPwr_kept (hP : Kept P) {s : State} (h : P s) (c : Nat) (h : HostCmd) (first : Nat) (w : Word) (after : State → HostCmd → State) (hafter : ∀ t x0, P t → P (after t x0)) : P (State.cmdPwr s c h first w after) := by
  unfold State.cmdPwr
  repeat' first
    | with_reducible assumption
    | (extract_lets +onlyGivenNames x; refine (fun hx => ?_ : P x → _) ?_; clear_value x; rotate_left; subst x; rotate_right)
    | (extract_lets +onlyGivenNames x; refine (fun hx => ?_ : P x.1 → _) ?_; clear_value x; rotate_left; subst x; rotate_right)
    | (extract_lets +onlyGivenNames x; clear_value x)
    | extract_lets +onlyGivenNames x
    | with_reducible apply ite_kept
    | with_reducible apply ite_fst_kept
    | with_reducible apply State.pwrRequest_kept hP
    | with_reducible apply State.setCmd_kept hP
    | with_reducible apply State.stage_kept hP
    | with_reducible apply hafter
    | split
    | (apply Kept.of hP
       · dsimp only <;> exact rfl
       · first | exact id | (intro _; simp_all only [shape, shapeStd, List.cons.injEq, upd_length, List.length_set, List.length_map, List.length_range, List.length_replicate, and_true, true_and, and_self]; done)
       iterate 8 (· exact rfl))

theorem State.cmdLowPower_kept (hP : Kept P) {s : State} (h : P s) (c : Nat) (request : Word) (code : Nat) : P (State.cmdLowPower s c request code) := by
  unfold State.cmdLowPower
  dsimp only
  repeat' first
    | with_reducible assumption
    | intro _
    | (extract_lets +onlyGivenNames x; refine (fun hx => ?_ : P x → _) ?_; clear_value x; rotate_left; subst x; rotate_right)
    | (extract_lets +onlyGivenNames x; refine (fun hx => ?_ : P x.1 → _) ?_; clear_value x; rotate_left; subst x; rotate_right)
    | (extract_lets +onlyGivenNames x; clear_value x)
    | extract_lets +onlyGivenNames x
    | with_reducible apply ite_kept
    | with_reducible apply ite_fst_kept
    | with_reducible apply State.cmdDone_kept hP
    | with_reducible apply State.cmdPwr_kept hP
    | with_reducible apply State.cmdRow_kept hP
    | with_reducible apply State.cmdSet_kept hP
    | with_reducible apply State.fwStage_kept hP
    | with_reducible apply State.stage_kept hP
    | split
    | (apply Kept.of hP
       · dsimp only <;> exact rfl
       · first | exact id | (intro _; simp_all only [shape, shapeStd, List.cons.injEq, upd_length, List.length_set, List.length_map, List.length_range, List.length_replicate, and_true, true_and, and_self]; done)
       iterate 8 (· exact rfl))

theorem State.cmdFloat_kept (hP : Kept P) {s : State} (h : P s) (c : Nat) : P (State.cmdFloat s c) := by
  unfold State.cmdFloat
  repeat' first
    | with_reducible assumption
    | intro _
    | (extract_lets +onlyGivenNames x; refine (fun hx => ?_ : P x → _) ?_; clear_value x; rotate_left; subst x; rotate_right)
    | (extract_lets +onlyGivenNames x; refine (fun hx => ?_ : P x.1 → _) ?_; clear_value x; rotate_left; subst x; rotate_right)
    | (extract_lets +onlyGivenNames x; clear_value x)
    | extract_lets +onlyGivenNames x
    | with_reducible apply ite_kept
    | with_reducible apply ite_fst_kept
    | with_reducible apply State.cmdDone_kept hP
    | with_reducible apply State.cmdRow_kept hP
    | with_reducible apply State.cmdSet_kept hP
    | with_reducible apply State.fwField_kept hP
    | with_reducible apply State.setCmd_kept hP
    | with_reducible apply State.stage_kept hP
    | split
    | (apply Kept.of hP
       · dsimp only <;> exact rfl
       · first | exact id | (intro _; simp_all only [shape, shapeStd, List.cons.injEq, upd_length, List.length_set, List.length_map, List.length_range, List.length_replicate, and_true, true_and, and_self]; done)
       iterate 8 (· exact rfl))

theorem State.cmdTime_kept (hP : Kept P) {s : State} (h : P s) (c : Nat) : P (State.cmdTime s c) := by
  unfold State.cmdTime
  repeat' first
    | with_reducible assumption
    | intro _
    | (extract_lets +onlyGivenNames x; refine (fun hx => ?_ : P x → _) ?_; clear_value x; rotate_left; subst x; rotate_right)
    | (extract_lets +onlyGivenNames x; refine (fun hx => ?_ : P x.1 → _) ?_; clear_value x; rotate_left; subst x; rotate_right)
    | (extract_lets +onlyGivenNames x; clear_value x)
    | extract_lets +onlyGivenNames x
    | with_reducible apply ite_kept
    | with_reducible apply ite_fst_kept
    | with_reducible apply State.cmdDone_kept hP
    | with_reducible apply State.cmdRow_kept hP
    | with_reducible apply State.cmdSet_kept hP
    | with_reducible apply State.fwStage_kept hP
    | with_reducible apply State.setCmd_kept hP
    | with_reducible apply State.stage_kept hP
    | split
    | (apply Kept.of hP
       · dsimp only <;> exact rfl
       · first | exact id | (intro _; simp_all only [shape, shapeStd, List.cons.injEq, upd_length, List.length_set, List.length_map, List.length_range, List.length_replicate, and_true, true_and, and_self]; done)
       iterate 8 (· exact rfl))

theorem State.cmdLoop_kept (hP : Kept P) {s : State} (h : P s) (c : Nat) : P (State.cmdLoop s c) := by
  unfold State.cmdLoop
  repeat' first
    | with_reducible assumption
    | intro _
    | (extract_lets +onlyGivenNames x; refine (fun hx => ?_ : P x → _) ?_; clear_value x; rotate_left; subst x; rotate_right)
    | (extract_lets +onlyGivenNames x; refine (fun hx => ?_ : P x.1 → _) ?_; clear_value x; rotate_left; subst x; rotate_right)
    | (extract_lets +onlyGivenNames x; clear_value x)
    | extract_lets +onlyGivenNames x
    | with_reducible apply ite_kept
    | with_reducible apply ite_fst_kept
    | with_reducible apply State.cmdDone_kept hP
    | with_reducible apply State.cmdRow_kept hP
    | with_reducible apply State.cmdSet_kept hP
    | with_reducible apply State.fwStage_kept hP
    | with_reducible apply State.setCmd_kept hP
    | with_reducible apply State.stage_kept hP
    | split
    | (apply Kept.of hP
       · dsimp only <;> exact rfl
       · first | exact id | (intro _; simp_all only [shape, shapeStd, List.cons.injEq, upd_length, List.length_set, List.length_map, List.length_range, List.length_replicate, and_true, true_and, and_self]; done)
       iterate 8 (· exact rfl))

theorem State.cmdCapture_kept (hP : Kept P) {s : State} (h : P s) (c : Nat) (program : List (BitVec 24 × Word)) : P (State.cmdCapture s c program) := by
  unfold State.cmdCapture
  dsimp only
  repeat' first
    | with_reducible assumption
    | intro _
    | (extract_lets +onlyGivenNames x; refine (fun hx => ?_ : P x → _) ?_; clear_value x; rotate_left; subst x; rotate_right)
    | (extract_lets +onlyGivenNames x; refine (fun hx => ?_ : P x.1 → _) ?_; clear_value x; rotate_left; subst x; rotate_right)
    | (extract_lets +onlyGivenNames x; clear_value x)
    | extract_lets +onlyGivenNames x
    | with_reducible apply ite_kept
    | with_reducible apply ite_fst_kept
    | with_reducible apply each_kept
    | with_reducible apply State.cmdDone_kept hP
    | with_reducible apply State.cmdRow_kept hP
    | with_reducible apply State.cmdSet_kept hP
    | with_reducible apply State.fwStage_kept hP
    | with_reducible apply State.setCmd_kept hP
    | with_reducible apply State.stage_kept hP
    | split
    | (apply Kept.of hP
       · dsimp only <;> exact rfl
       · first | exact id | (intro _; simp_all only [shape, shapeStd, List.cons.injEq, upd_length, List.length_set, List.length_map, List.length_range, List.length_replicate, and_true, true_and, and_self]; done)
       iterate 8 (· exact rfl))

theorem State.cmdImageSwap_kept (hP : Kept P) {s : State} (h : P s) (c : Nat) : P (State.cmdImageSwap s c) := by
  unfold State.cmdImageSwap
  repeat' first
    | with_reducible assumption
    | intro _
    | (extract_lets +onlyGivenNames x; refine (fun hx => ?_ : P x → _) ?_; clear_value x; rotate_left; subst x; rotate_right)
    | (extract_lets +onlyGivenNames x; refine (fun hx => ?_ : P x.1 → _) ?_; clear_value x; rotate_left; subst x; rotate_right)
    | (extract_lets +onlyGivenNames x; clear_value x)
    | extract_lets +onlyGivenNames x
    | with_reducible apply ite_kept
    | with_reducible apply ite_fst_kept
    | with_reducible apply State.cmdDone_kept hP
    | with_reducible apply State.cmdRow_kept hP
    | with_reducible apply State.fwWrite_kept hP
    | with_reducible apply State.setCmd_kept hP
    | with_reducible apply State.stage_kept hP
    | split
    | (apply Kept.of hP
       · dsimp only <;> exact rfl
       · first | exact id | (intro _; simp_all only [shape, shapeStd, List.cons.injEq, upd_length, List.length_set, List.length_map, List.length_range, List.length_replicate, and_true, true_and, and_self]; done)
       iterate 8 (· exact rfl))

theorem State.cmdImageInfo_kept (hP : Kept P) {s : State} (h : P s) (c : Nat) : P (State.cmdImageInfo s c) := by
  unfold State.cmdImageInfo
  repeat' first
    | with_reducible assumption
    | intro _
    | (extract_lets +onlyGivenNames x; refine (fun hx => ?_ : P x → _) ?_; clear_value x; rotate_left; subst x; rotate_right)
    | (extract_lets +onlyGivenNames x; refine (fun hx => ?_ : P x.1 → _) ?_; clear_value x; rotate_left; subst x; rotate_right)
    | (extract_lets +onlyGivenNames x; clear_value x)
    | extract_lets +onlyGivenNames x
    | with_reducible apply State.cmdDone_kept hP
    | with_reducible apply State.cmdRow_kept hP

theorem State.cmdUnfreeze_kept (hP : Kept P) {s : State} (h : P s) (c : Nat) : P (State.cmdUnfreeze s c) := by
  unfold State.cmdUnfreeze
  repeat' first
    | with_reducible assumption
    | intro _
    | (extract_lets +onlyGivenNames x; refine (fun hx => ?_ : P x → _) ?_; clear_value x; rotate_left; subst x; rotate_right)
    | (extract_lets +onlyGivenNames x; refine (fun hx => ?_ : P x.1 → _) ?_; clear_value x; rotate_left; subst x; rotate_right)
    | (extract_lets +onlyGivenNames x; clear_value x)
    | extract_lets +onlyGivenNames x
    | with_reducible apply ite_kept
    | with_reducible apply ite_fst_kept
    | with_reducible apply State.cmdDone_kept hP
    | with_reducible apply State.cmdRow_kept hP
    | with_reducible apply State.fwWrite_kept hP
    | split

theorem State.cmdJnlAbort_kept (hP : Kept P) {s : State} (h : P s) (c : Nat) : P (State.cmdJnlAbort s c) := by
  unfold State.cmdJnlAbort
  repeat' first
    | with_reducible assumption
    | intro _
    | (extract_lets +onlyGivenNames x; refine (fun hx => ?_ : P x → _) ?_; clear_value x; rotate_left; subst x; rotate_right)
    | (extract_lets +onlyGivenNames x; refine (fun hx => ?_ : P x.1 → _) ?_; clear_value x; rotate_left; subst x; rotate_right)
    | (extract_lets +onlyGivenNames x; clear_value x)
    | extract_lets +onlyGivenNames x
    | with_reducible apply ite_kept
    | with_reducible apply ite_fst_kept
    | with_reducible apply State.cmdDone_kept hP
    | with_reducible apply State.cmdRow_kept hP
    | with_reducible apply State.fwWrite_kept hP
    | with_reducible apply State.setCmd_kept hP
    | with_reducible apply State.stage_kept hP
    | split
    | (apply Kept.of hP
       · dsimp only <;> exact rfl
       · first | exact id | (intro _; simp_all only [shape, shapeStd, List.cons.injEq, upd_length, List.length_set, List.length_map, List.length_range, List.length_replicate, and_true, true_and, and_self]; done)
       iterate 8 (· exact rfl))

theorem State.cmdUnknown_kept (hP : Kept P) {s : State} (h : P s) (c : Nat) : P (State.cmdUnknown s c) := by
  unfold State.cmdUnknown
  repeat' first
    | with_reducible assumption
    | intro _
    | with_reducible apply State.cmdDone_kept hP
    | with_reducible apply State.cmdRow_kept hP

theorem State.cmdImage_kept (hP : Kept P) {s : State} (h : P s) (c : Nat) (status : Nat) (res1 : Word) (res2 : Word) : P (State.cmdImage s c status res1 res2) := by
  unfold State.cmdImage
  repeat' first
    | with_reducible assumption
    | intro _
    | with_reducible apply State.cmdDone_kept hP
    | with_reducible apply State.cmdRow_kept hP

end Sys2Proof.Machine
end

