-- ==== Sys2Proof/Laws/KeptSlots.lean ====
section
/-! SUPPORT. What the operations of `Sys2Proof.Machine.Slots` keep (`Sys2Proof.Laws.Kept`). -/
namespace Sys2Proof.Machine
open State
set_option linter.all false
variable {P : State → Prop}

theorem State.deliverSlot_kept (hP : Kept P) {s : State} (h : P s) (k : Nat) (mark : Bool) (syms : List Nat) : P (State.deliverSlot s k mark syms) := by
  unfold State.deliverSlot
  repeat' first
    | with_reducible assumption
    | intro _
    | (extract_lets +onlyGivenNames x; refine (fun hx => ?_ : P x → _) ?_; clear_value x; rotate_left; subst x; rotate_right)
    | (extract_lets +onlyGivenNames x; refine (fun hx => ?_ : P x.1 → _) ?_; clear_value x; rotate_left; subst x; rotate_right)
    | (extract_lets +onlyGivenNames x; clear_value x)
    | extract_lets +onlyGivenNames x
    | with_reducible apply ite_kept
    | with_reducible apply ite_fst_kept
    | with_reducible apply whenB_kept
    | with_reducible apply each_kept
    | with_reducible apply State.fecEv_kept hP
    | with_reducible apply State.inc_kept hP
    | with_reducible apply State.setHlane_kept hP
    | split

theorem State.loopSlot_kept (hP : Kept P) {s : State} (h : P s) (k : Nat) (slot : Nat) (syms : List Nat) : P (State.loopSlot s k slot syms) := by
  unfold State.loopSlot
  repeat' first
    | with_reducible assumption
    | intro _
    | (extract_lets +onlyGivenNames x; refine (fun hx => ?_ : P x → _) ?_; clear_value x; rotate_left; subst x; rotate_right)
    | (extract_lets +onlyGivenNames x; refine (fun hx => ?_ : P x.1 → _) ?_; clear_value x; rotate_left; subst x; rotate_right)
    | (extract_lets +onlyGivenNames x; clear_value x)
    | extract_lets +onlyGivenNames x
    | with_reducible apply whenB_kept
    | with_reducible apply State.setLane_kept hP
    | (apply Kept.of hP
       · dsimp only <;> exact rfl
       · first | exact id | (intro _; simp_all only [shape, shapeStd, List.cons.injEq, upd_length, List.length_set, List.length_map, List.length_range, List.length_replicate, and_true, true_and, and_self]; done)
       iterate 8 (· exact rfl))

theorem State.decodeSlot_kept (hP : Kept P) {s : State} (h : P s) (k : Nat) (slot : Nat) (even : Bool) (rx : RxCodes) (cand : RxCodes) : P (State.decodeSlot s k slot even rx cand) := by
  unfold State.decodeSlot
  repeat' first
    | with_reducible assumption
    | intro _
    | (extract_lets +onlyGivenNames x; refine (fun hx => ?_ : P x → _) ?_; clear_value x; rotate_left; subst x; rotate_right)
    | (extract_lets +onlyGivenNames x; refine (fun hx => ?_ : P x.1 → _) ?_; clear_value x; rotate_left; subst x; rotate_right)
    | (extract_lets +onlyGivenNames x; clear_value x)
    | extract_lets +onlyGivenNames x
    | with_reducible apply ite_kept
    | with_reducible apply ite_fst_kept
    | with_reducible apply State.agreeSlot_kept hP
    | with_reducible apply State.capEv_kept hP
    | with_reducible apply State.countKnown_kept hP
    | with_reducible apply State.deliverSlot_kept hP
    | with_reducible apply State.fecEv_kept hP
    | with_reducible apply State.inc_kept hP
    | with_reducible apply State.loopSlot_kept hP
    | with_reducible apply State.pmc_kept hP
    | with_reducible apply State.put_kept hP
    | with_reducible apply State.slotCount_kept hP
    | with_reducible apply State.st_kept hP
    | split
    | (refine fst_kept (by assumption) ?_)
    | (apply Kept.of hP
       · dsimp only <;> exact rfl
       · first | exact id | (intro _; simp_all only [shape, shapeStd, List.cons.injEq, upd_length, List.length_set, List.length_map, List.length_range, List.length_replicate, and_true, true_and, and_self]; done)
       iterate 8 (· exact rfl))

end Sys2Proof.Machine
end

