-- ==== Sys2Proof/Laws/KeptTick.lean ====
section
/-! SUPPORT. What the operations of `Sys2Proof.Machine.Tick` keep (`Sys2Proof.Laws.Kept`). -/
namespace Sys2Proof.Machine
open State
set_option linter.all false
variable {P : State → Prop}

theorem State.seqCycles_kept (hP : Kept P) {s : State} (h : P s) (waited : Nat) : P (State.seqCycles s waited) := by
  unfold State.seqCycles
  repeat' first
    | with_reducible assumption
    | intro _
    | (extract_lets +onlyGivenNames x; refine (fun hx => ?_ : P x → _) ?_; clear_value x; rotate_left; subst x; rotate_right)
    | (extract_lets +onlyGivenNames x; refine (fun hx => ?_ : P x.1 → _) ?_; clear_value x; rotate_left; subst x; rotate_right)
    | extract_lets +onlyGivenNames x
    | with_reducible apply ite_kept
    | with_reducible apply ite_fst_kept
    | with_reducible apply State.pmcCycles_kept hP
    | with_reducible apply State.sq_kept hP
    | with_reducible apply State.waitPass_kept hP
    | split
    | (refine fst_kept (by assumption) ?_)
    | (apply Kept.of hP
       · dsimp only <;> exact rfl
       · first | exact id | (intro _; simp_all only [shape, shapeStd, List.cons.injEq, upd_length, List.length_set, List.length_map, List.length_range, List.length_replicate, and_true, true_and, and_self]; done)
       iterate 8 (· exact rfl))
    | exact And.intro rfl rfl
    | exact ‹_ ∧ _›

theorem State.seqOverrun_kept (hP : Kept P) {s : State} (h : P s)  : P (State.seqOverrun s) := by
  unfold State.seqOverrun
  repeat' first
    | with_reducible assumption
    | with_reducible apply ite_kept
    | with_reducible apply ite_fst_kept
    | with_reducible apply State.overrun_kept hP
    | with_reducible apply State.put_kept hP
    | split

theorem State.wdogTick_kept (hP : Kept P) {s : State} (h : P s)  : P (State.wdogTick s) := by
  unfold State.wdogTick
  repeat' first
    | with_reducible assumption
    | intro _
    | (extract_lets +onlyGivenNames x; refine (fun hx => ?_ : P x → _) ?_; clear_value x; rotate_left; subst x; rotate_right)
    | (extract_lets +onlyGivenNames x; refine (fun hx => ?_ : P x.1 → _) ?_; clear_value x; rotate_left; subst x; rotate_right)
    | extract_lets +onlyGivenNames x
    | with_reducible apply ite_kept
    | with_reducible apply ite_fst_kept
    | with_reducible apply State.put_kept hP
    | with_reducible apply State.sq_kept hP
    | split
    | (apply Kept.of hP
       · dsimp only <;> exact rfl
       · first | exact id | (intro _; simp_all only [shape, shapeStd, List.cons.injEq, upd_length, List.length_set, List.length_map, List.length_range, List.length_replicate, and_true, true_and, and_self]; done)
       iterate 8 (· exact rfl))
    | exact And.intro rfl rfl
    | exact ‹_ ∧ _›

theorem State.seqTick_kept (hP : Kept P) {s : State} (h : P s)  : P (State.seqTick s) := by
  unfold State.seqTick
  repeat' first
    | with_reducible assumption
    | intro _
    | (extract_lets +onlyGivenNames x; refine (fun hx => ?_ : P x → _) ?_; clear_value x; rotate_left; subst x; rotate_right)
    | (extract_lets +onlyGivenNames x; refine (fun hx => ?_ : P x.1 → _) ?_; clear_value x; rotate_left; subst x; rotate_right)
    | extract_lets +onlyGivenNames x
    | with_reducible apply ite_kept
    | with_reducible apply ite_fst_kept
    | with_reducible apply each_kept
    | with_reducible apply State.put_kept hP
    | with_reducible apply State.sq_kept hP
    | with_reducible apply State.tasksDue_kept hP
    | split
    | (apply Kept.of hP
       · dsimp only <;> exact rfl
       · first | exact id | (intro _; simp_all only [shape, shapeStd, List.cons.injEq, upd_length, List.length_set, List.length_map, List.length_range, List.length_replicate, and_true, true_and, and_self]; done)
       iterate 8 (· exact rfl))
    | exact And.intro rfl rfl
    | exact ‹_ ∧ _›

theorem State.tickCapture_kept (hP : Kept P) {s : State} (h : P s) (m : TickMeas) : P (State.tickCapture s m) := by
  unfold State.tickCapture
  repeat' first
    | with_reducible assumption
    | intro _
    | (extract_lets +onlyGivenNames x; refine (fun hx => ?_ : P x → _) ?_; clear_value x; rotate_left; subst x; rotate_right)
    | (extract_lets +onlyGivenNames x; refine (fun hx => ?_ : P x.1 → _) ?_; clear_value x; rotate_left; subst x; rotate_right)
    | (extract_lets +onlyGivenNames x; clear_value x)
    | extract_lets +onlyGivenNames x
    | with_reducible apply ite_kept
    | with_reducible apply ite_fst_kept
    | with_reducible apply whenB_kept
    | with_reducible apply each_kept
    | with_reducible apply State.eachMeas_kept hP
    | with_reducible apply State.flow_kept hP
    | with_reducible apply State.hostTick_kept hP
    | with_reducible apply State.latPublish_kept hP
    | with_reducible apply State.monSnapshot_kept hP
    | with_reducible apply State.obsTick_kept hP
    | with_reducible apply State.pmcSnapshot_kept hP
    | with_reducible apply State.setLoop_kept hP
    | with_reducible apply State.txTick_kept hP
    | split
    | (apply Kept.of hP
       · dsimp only <;> exact rfl
       · first | exact id | (intro _; simp_all only [shape, shapeStd, List.cons.injEq, upd_length, List.length_set, List.length_map, List.length_range, List.length_replicate, and_true, true_and, and_self]; done)
       iterate 8 (· exact rfl))

theorem State.commitNow_kept (hP : Kept P) {s : State} (h : P s)  : P (State.commitNow s) := by
  unfold State.commitNow
  repeat' first
    | with_reducible assumption
    | intro _
    | with_reducible apply whenB_kept
    | with_reducible apply each_kept
    | with_reducible apply State.commitTick_kept hP

theorem State.tickEngines_kept (hP : Kept P) {s : State} (h : P s) (m : TickMeas) : P (State.tickEngines s m) := by
  unfold State.tickEngines
  repeat' first
    | with_reducible assumption
    | intro _
    | (extract_lets +onlyGivenNames x; refine (fun hx => ?_ : P x → _) ?_; clear_value x; rotate_left; subst x; rotate_right)
    | (extract_lets +onlyGivenNames x; refine (fun hx => ?_ : P x.1 → _) ?_; clear_value x; rotate_left; subst x; rotate_right)
    | (extract_lets +onlyGivenNames x; clear_value x)
    | extract_lets +onlyGivenNames x
    | with_reducible apply ite_kept
    | with_reducible apply ite_fst_kept
    | with_reducible apply each_kept
    | with_reducible apply State.commitNow_kept hP
    | with_reducible apply State.commitTick_kept hP
    | with_reducible apply State.eachMeas_kept hP
    | with_reducible apply State.fcalTick_kept hP
    | with_reducible apply State.hkaFreeze_kept hP
    | with_reducible apply State.holdTick_kept hP
    | with_reducible apply State.lineRateTick_kept hP
    | with_reducible apply State.linkTick_kept hP
    | with_reducible apply State.migTick_kept hP
    | with_reducible apply State.monTick_kept hP
    | with_reducible apply State.rateTick_kept hP
    | with_reducible apply State.skimTick_kept hP
    | with_reducible apply State.sliceTick_kept hP
    | with_reducible apply State.st_kept hP
    | with_reducible apply State.tmarkSend_kept hP
    | with_reducible apply State.tt_kept hP
    | split
    | (apply Kept.of hP
       · dsimp only <;> exact rfl
       · first | exact id | (intro _; simp_all only [shape, shapeStd, List.cons.injEq, upd_length, List.length_set, List.length_map, List.length_range, List.length_replicate, and_true, true_and, and_self]; done)
       iterate 8 (· exact rfl))

theorem State.tickDue_kept (hP : Kept P) {s : State} (h : P s)  : P (State.tickDue s) := by
  unfold State.tickDue
  repeat' first
    | with_reducible assumption
    | intro _
    | (extract_lets +onlyGivenNames x; refine (fun hx => ?_ : P x → _) ?_; clear_value x; rotate_left; subst x; rotate_right)
    | (extract_lets +onlyGivenNames x; refine (fun hx => ?_ : P x.1 → _) ?_; clear_value x; rotate_left; subst x; rotate_right)
    | (extract_lets +onlyGivenNames x; clear_value x)
    | extract_lets +onlyGivenNames x
    | with_reducible apply whenB_kept
    | with_reducible apply State.arm_kept hP

theorem State.tickBoundary_kept (hP : Kept P) {s : State} (h : P s) (m : TickMeas) : P (State.tickBoundary s m) := by
  unfold State.tickBoundary
  repeat' first
    | with_reducible assumption
    | intro _
    | (extract_lets +onlyGivenNames x; refine (fun hx => ?_ : P x → _) ?_; clear_value x; rotate_left; subst x; rotate_right)
    | (extract_lets +onlyGivenNames x; refine (fun hx => ?_ : P x.1 → _) ?_; clear_value x; rotate_left; subst x; rotate_right)
    | (extract_lets +onlyGivenNames x; clear_value x)
    | extract_lets +onlyGivenNames x
    | with_reducible apply ite_kept
    | with_reducible apply ite_fst_kept
    | with_reducible apply whenB_kept
    | with_reducible apply State.capEv_kept hP
    | with_reducible apply State.ck_kept hP
    | with_reducible apply State.ibiRefresh_kept hP
    | with_reducible apply State.plumbTick_kept hP
    | with_reducible apply State.pw_kept hP
    | with_reducible apply State.pwrTick_kept hP
    | with_reducible apply State.resetSelf_kept hP
    | with_reducible apply State.sc_kept hP
    | with_reducible apply State.scrubTick_kept hP
    | with_reducible apply State.seqCycles_kept hP
    | with_reducible apply State.seqOverrun_kept hP
    | with_reducible apply State.seqTick_kept hP
    | with_reducible apply State.startSlot_kept hP
    | with_reducible apply State.thermalTick_kept hP
    | with_reducible apply State.tickCapture_kept hP
    | with_reducible apply State.tickDue_kept hP
    | with_reducible apply State.tickEngines_kept hP
    | with_reducible apply State.wakeTick_kept hP
    | with_reducible apply State.warmReset_kept hP
    | with_reducible apply State.wdogTick_kept hP
    | split
    | (refine fst_kept (by assumption) ?_)
    | (apply Kept.of hP
       · dsimp only <;> exact rfl
       · first | exact id | (intro _; simp_all only [shape, shapeStd, List.cons.injEq, upd_length, List.length_set, List.length_map, List.length_range, List.length_replicate, and_true, true_and, and_self]; done)
       iterate 8 (· exact rfl))

end Sys2Proof.Machine
end

