-- ==== Sys2Proof/Laws/KeptAccessRows.lean ====
section
/-! SUPPORT. What the operations of `Sys2Proof.Machine.AccessRows` keep (`Sys2Proof.Laws.Kept`). -/
namespace Sys2Proof.Machine
open State
set_option linter.all false
variable {P : State → Prop}

theorem State.spiRow_kept (hP : Kept P) {s : State} (h : P s) (f : State → State) (hf : ∀ t, P t → P (f t)) : P (State.spiRow s f) := by
  unfold State.spiRow
  repeat' first
    | with_reducible assumption
    | intro _
    | with_reducible apply whenB_kept
    | with_reducible apply hf

end Sys2Proof.Machine
end

