-- ==== Sys2Proof/Laws/KeptBoundaryRows.lean ====
section
/-! SUPPORT. What the operations of `Sys2Proof.Machine.BoundaryRows` keep (`Sys2Proof.Laws.Kept`). -/
namespace Sys2Proof.Machine
open State
set_option linter.all false
variable {P : State → Prop}

theorem State.boundaryTake_kept (hP : Kept P) {s : State} (h : P s) (g : Stage) : P (State.boundaryTake s g) := by
  cases g
  · exact State.rxBoundary_kept hP h _
  · exact State.sendBoundary_kept hP h _
  · exact State.floatBoundary_kept hP h

theorem State.boundary_kept (hP : Kept P) {s : State} (h : P s) (g : Stage) : P (State.boundary s g) := by
  cases g
  · exact whenB_kept h fun t ht => State.rxBoundary_kept hP ht _
  · exact whenB_kept h fun t ht => State.sendBoundary_kept hP ht _
  · exact whenB_kept h fun t ht => State.floatBoundary_kept hP ht

end Sys2Proof.Machine
end

