-- ==== Sys2Proof/Laws/KeptLineRows.lean ====
section
/-! SUPPORT. What the operations of `Sys2Proof.Machine.LineRows` keep (`Sys2Proof.Laws.Kept`). -/
namespace Sys2Proof.Machine
open State
set_option linter.all false
variable {P : State → Prop}

theorem State.abruptPhase_kept (hP : Kept P) {s : State} (h : P s)  : P (State.abruptPhase s) := by
  unfold State.abruptPhase
  repeat' first
    | with_reducible assumption
    | intro _
    | with_reducible apply whenB_kept
    | with_reducible apply State.setPhase_kept hP

end Sys2Proof.Machine
end

