-- ==== Sys2Proof/Laws/KeptFloatRows.lean ====
section
/-! SUPPORT. What the operations of `Sys2Proof.Machine.FloatRows` keep (`Sys2Proof.Laws.Kept`). -/
namespace Sys2Proof.Machine
open State
set_option linter.all false
variable {P : State → Prop}

theorem State.converge_kept (hP : Kept P) {s : State} (h : P s) (retire : Bool) : P (State.converge s retire) := by
  unfold State.converge
  repeat' first
    | with_reducible assumption
    | intro _
    | (extract_lets +onlyGivenNames x; refine (fun hx => ?_ : P x → _) ?_; clear_value x; rotate_left; subst x; rotate_right)
    | (extract_lets +onlyGivenNames x; refine (fun hx => ?_ : P x.1 → _) ?_; clear_value x; rotate_left; subst x; rotate_right)
    | (extract_lets +onlyGivenNames x; clear_value x)
    | extract_lets +onlyGivenNames x
    | with_reducible apply State.beginConverge_kept hP
    | with_reducible apply State.mg_kept hP
    | with_reducible apply State.retire_kept hP
    | (apply Kept.of hP
       · dsimp only <;> exact rfl
       · first | exact id | (intro _; simp_all only [shape, shapeStd, List.cons.injEq, upd_length, List.length_set, List.length_map, List.length_range, List.length_replicate, and_true, true_and, and_self]; done)
       iterate 8 (· exact rfl))

theorem State.observe_kept (hP : Kept P) {s : State} (h : P s) (p : Nat) : P (State.observe s p) := by
  unfold State.observe
  repeat' first
    | with_reducible assumption
    | with_reducible apply State.floatConnect_kept hP
    | with_reducible apply State.floatStep_kept hP
    | with_reducible apply State.setPhase_kept hP

theorem State.takeoverLate_kept (hP : Kept P) {s : State} (h : P s)  : P (State.takeoverLate s) := by
  unfold State.takeoverLate
  repeat' first
    | with_reducible assumption
    | intro _
    | (extract_lets +onlyGivenNames x; refine (fun hx => ?_ : P x → _) ?_; clear_value x; rotate_left; subst x; rotate_right)
    | (extract_lets +onlyGivenNames x; refine (fun hx => ?_ : P x.1 → _) ?_; clear_value x; rotate_left; subst x; rotate_right)
    | (extract_lets +onlyGivenNames x; clear_value x)
    | extract_lets +onlyGivenNames x
    | with_reducible apply whenB_kept
    | with_reducible apply State.takeoverTimeout_kept hP
    | split
    | (refine fst_kept (by assumption) ?_)
    | (apply Kept.of hP
       · dsimp only <;> exact rfl
       · first | exact id | (intro _; simp_all only [shape, shapeStd, List.cons.injEq, upd_length, List.length_set, List.length_map, List.length_range, List.length_replicate, and_true, true_and, and_self]; done)
       iterate 8 (· exact rfl))

end Sys2Proof.Machine
end

