-- ==== Sys2Proof/Laws/KeptPlumbRows.lean ====
section
/-! SUPPORT. What the operations of `Sys2Proof.Machine.PlumbRows` keep (`Sys2Proof.Laws.Kept`). -/
namespace Sys2Proof.Machine
open State
set_option linter.all false
variable {P : State → Prop}

theorem State.adjRun_kept (hP : Kept P) {s : State} (h : P s) (cmd : Nat) (f : State → State) (hf : ∀ t, P t → P (f t)) : P (State.adjRun s cmd f) := by
  unfold State.adjRun
  repeat' first
    | with_reducible assumption
    | intro _
    | with_reducible apply State.act_kept hP
    | with_reducible apply State.disarm_kept hP
    | with_reducible apply hf

end Sys2Proof.Machine
end

