-- ==== Sys2Proof/Laws/KeptThermalRows.lean ====
section
/-! SUPPORT. What the operations of `Sys2Proof.Machine.ThermalRows` keep (`Sys2Proof.Laws.Kept`). -/
namespace Sys2Proof.Machine
open State
set_option linter.all false
variable {P : State → Prop}

theorem State.applyLevel_kept (hP : Kept P) {s : State} (h : P s)  : P (State.applyLevel s) := by
  unfold State.applyLevel
  repeat' first
    | with_reducible assumption
    | intro _
    | (extract_lets +onlyGivenNames x; refine (fun hx => ?_ : P x → _) ?_; clear_value x; rotate_left; subst x; rotate_right)
    | (extract_lets +onlyGivenNames x; refine (fun hx => ?_ : P x.1 → _) ?_; clear_value x; rotate_left; subst x; rotate_right)
    | (extract_lets +onlyGivenNames x; clear_value x)
    | extract_lets +onlyGivenNames x
    | with_reducible apply whenB_kept
    | with_reducible apply each_kept
    | with_reducible apply State.capEv_kept hP
    | with_reducible apply State.cp_kept hP
    | with_reducible apply State.disarm_kept hP
    | with_reducible apply State.mg_kept hP
    | with_reducible apply State.monHalf_kept hP
    | with_reducible apply State.put_kept hP
    | with_reducible apply State.setPhase_kept hP
    | with_reducible apply State.th_kept hP
    | with_reducible apply State.thmEv_kept hP
    | split
    | (refine fst_kept (by assumption) ?_)
    | (apply Kept.of hP
       · dsimp only <;> exact rfl
       · first | exact id | (intro _; simp_all only [shape, shapeStd, List.cons.injEq, upd_length, List.length_set, List.length_map, List.length_range, List.length_replicate, and_true, true_and, and_self]; done)
       iterate 8 (· exact rfl))

end Sys2Proof.Machine
end

