-- ==== Sys2Proof/Laws/KeptRows.lean ====
section
/-! SUPPORT. What every command keeps (`Sys2Proof.Laws.Kept`). -/
namespace Sys2Proof.Machine
open State
set_option linter.all false
variable {P : State → Prop}

/-- The next state, where the outcome is one, has the property. -/
def resKeeps (P : State → Prop) : Res → Prop
  | .next t => P t
  | .fault _ => True
  | .refused _ => True

theorem execTickBoundary_kept (hP : Kept P) {s : State} (hs : P s) (m : TickMeas) : resKeeps P (execTickBoundary m s) := by
  unfold execTickBoundary
  show P _
  repeat' first
    | with_reducible assumption
    | with_reducible apply State.tickBoundary_kept hP

theorem execSetApply_kept (hP : Kept P) {s : State} (hs : P s)  : resKeeps P (execSetApply s) := by
  unfold execSetApply
  show P _
  repeat' first
    | with_reducible assumption
    | with_reducible apply State.setApply_kept hP

theorem execApplicationBoundary_kept (hP : Kept P) {s : State} (hs : P s) (stage : Stage) (m : Span) : resKeeps P (execApplicationBoundary stage m s) := by
  unfold execApplicationBoundary
  show P _
  repeat' first
    | with_reducible assumption
    | intro _
    | with_reducible apply State.boundary_kept hP
    | with_reducible apply State.act_kept hP
    | with_reducible apply State.flow_kept hP
    | with_reducible apply State.stage_kept hP

theorem execLtxRefMove_kept (hP : Kept P) {s : State} (hs : P s) (p : Fin 2) : resKeeps P (execLtxRefMove p s) := by
  unfold execLtxRefMove
  show P _
  repeat' first
    | with_reducible assumption
    | intro _
    | with_reducible apply State.act_kept hP
    | with_reducible apply State.ltxTake_kept hP

theorem execHuntMarkerMatch_kept (hP : Kept P) {s : State} (hs : P s) (k : Fin 9) (marker : BitVec 64) : resKeeps P (execHuntMarkerMatch k marker s) := by
  unfold execHuntMarkerMatch
  show P _
  repeat' first
    | with_reducible assumption
    | intro _
    | with_reducible apply State.abruptPhase_kept hP
    | with_reducible apply State.act_kept hP
    | with_reducible apply State.huntMatch_kept hP
    | with_reducible apply State.ltxChoose_kept hP

theorem execExpectedMarker_kept (hP : Kept P) {s : State} (hs : P s) (k : Fin 9) (header : BitVec 128) : resKeeps P (execExpectedMarker k header s) := by
  unfold execExpectedMarker
  show P _
  repeat' first
    | with_reducible assumption
    | intro _
    | with_reducible apply State.abruptPhase_kept hP
    | with_reducible apply State.act_kept hP
    | with_reducible apply State.expectedMarker_kept hP
    | with_reducible apply State.ltxChoose_kept hP
    | with_reducible apply State.openHosts_kept hP

theorem execStandardAlignmentChange_kept (hP : Kept P) {s : State} (hs : P s) (k : Fin 9) (st : Fin 3) : resKeeps P (execStandardAlignmentChange k st s) := by
  unfold execStandardAlignmentChange
  show P _
  repeat' first
    | with_reducible assumption
    | intro _
    | with_reducible apply State.abruptPhase_kept hP
    | with_reducible apply State.act_kept hP
    | with_reducible apply State.ltxChoose_kept hP
    | with_reducible apply State.openHosts_kept hP
    | with_reducible apply State.st_kept hP
    | with_reducible apply State.standardAlign_kept hP

theorem execFormatProbeStart_kept (hP : Kept P) {s : State} (hs : P s) (k : Fin 8) : resKeeps P (execFormatProbeStart k s) := by
  unfold execFormatProbeStart
  show P _
  repeat' first
    | with_reducible assumption
    | intro _
    | with_reducible apply State.act_kept hP
    | with_reducible apply State.probeStart_kept hP

theorem execFarFmtFound_kept (hP : Kept P) {s : State} (hs : P s) (k : Fin 8) (code : BitVec 2) : resKeeps P (execFarFmtFound k code s) := by
  unfold execFarFmtFound
  show P _
  repeat' first
    | with_reducible assumption
    | intro _
    | with_reducible apply State.act_kept hP
    | with_reducible apply State.farFound_kept hP

theorem execProbeWindowEnd_kept (hP : Kept P) {s : State} (hs : P s) (k : Fin 8) : resKeeps P (execProbeWindowEnd k s) := by
  unfold execProbeWindowEnd
  show P _
  repeat' first
    | with_reducible assumption
    | intro _
    | with_reducible apply State.act_kept hP
    | with_reducible apply State.probeEnd_kept hP

theorem execLinePatLock_kept (hP : Kept P) {s : State} (hs : P s) (_host : Bool) (_n : Fin 16) (m : Span) : resKeeps P (execLinePatLock _host _n m s) := by
  unfold execLinePatLock
  show P _
  repeat' first
    | with_reducible assumption
    | intro _
    | with_reducible apply State.act_kept hP
    | with_reducible apply State.flow_kept hP

theorem execLinePatResync_kept (hP : Kept P) {s : State} (hs : P s) (_host : Bool) (_n : Fin 16) (m : Span) : resKeeps P (execLinePatResync _host _n m s) := by
  unfold execLinePatResync
  show P _
  repeat' first
    | with_reducible assumption
    | intro _
    | with_reducible apply State.act_kept hP
    | with_reducible apply State.flow_kept hP

theorem execSignalDetectChange_kept (hP : Kept P) {s : State} (hs : P s) (sl : Fin 9) (amp : BitVec 12) : resKeeps P (execSignalDetectChange sl amp s) := by
  unfold execSignalDetectChange
  show P _
  repeat' first
    | with_reducible assumption
    | intro _
    | with_reducible apply ite_kept
    | with_reducible apply ite_fst_kept
    | with_reducible apply State.act_kept hP
    | with_reducible apply State.signalDetect_kept hP
    | split

theorem execMigCmdNone_kept (hP : Kept P) {s : State} (hs : P s)  : resKeeps P (execMigCmdNone s) := by
  unfold execMigCmdNone
  show P _
  repeat' first
    | with_reducible assumption
    | intro _
    | with_reducible apply State.act_kept hP
    | with_reducible apply State.migNone_kept hP

theorem execFloatCal_kept (hP : Kept P) {s : State} (hs : P s)  : resKeeps P (execFloatCal s) := by
  unfold execFloatCal
  show P _
  repeat' first
    | with_reducible assumption
    | intro _
    | with_reducible apply State.act_kept hP
    | with_reducible apply State.fcalBegin_kept hP
    | with_reducible apply State.migCommand_kept hP
    | with_reducible apply State.setPhase_kept hP

theorem execMigrate_kept (hP : Kept P) {s : State} (hs : P s)  : resKeeps P (execMigrate s) := by
  unfold execMigrate
  show P _
  repeat' first
    | with_reducible assumption
    | intro _
    | with_reducible apply State.act_kept hP
    | with_reducible apply State.converge_kept hP
    | with_reducible apply State.migCommand_kept hP

theorem execFloatReturn_kept (hP : Kept P) {s : State} (hs : P s)  : resKeeps P (execFloatReturn s) := by
  unfold execFloatReturn
  show P _
  repeat' first
    | with_reducible assumption
    | intro _
    | with_reducible apply State.act_kept hP
    | with_reducible apply State.beginReturn_kept hP
    | with_reducible apply State.migCommand_kept hP

theorem execFloatAbort_kept (hP : Kept P) {s : State} (hs : P s)  : resKeeps P (execFloatAbort s) := by
  unfold execFloatAbort
  show P _
  repeat' first
    | with_reducible assumption
    | intro _
    | with_reducible apply State.act_kept hP
    | with_reducible apply State.migAbortCmd_kept hP

theorem execObserveRx_kept (hP : Kept P) {s : State} (hs : P s)  : resKeeps P (execObserveRx s) := by
  unfold execObserveRx
  show P _
  repeat' first
    | with_reducible assumption
    | intro _
    | with_reducible apply State.act_kept hP
    | with_reducible apply State.migCommand_kept hP
    | with_reducible apply State.observe_kept hP

theorem execObserveTx_kept (hP : Kept P) {s : State} (hs : P s)  : resKeeps P (execObserveTx s) := by
  unfold execObserveTx
  show P _
  repeat' first
    | with_reducible assumption
    | intro _
    | with_reducible apply State.act_kept hP
    | with_reducible apply State.migCommand_kept hP
    | with_reducible apply State.obsBegin_kept hP
    | with_reducible apply State.observe_kept hP

theorem execRetire_kept (hP : Kept P) {s : State} (hs : P s)  : resKeeps P (execRetire s) := by
  unfold execRetire
  show P _
  repeat' first
    | with_reducible assumption
    | intro _
    | with_reducible apply State.act_kept hP
    | with_reducible apply State.converge_kept hP
    | with_reducible apply State.isEngage_kept hP
    | with_reducible apply State.migCommand_kept hP

theorem execConvergeDone_kept (hP : Kept P) {s : State} (hs : P s)  : resKeeps P (execConvergeDone s) := by
  unfold execConvergeDone
  show P _
  repeat' first
    | with_reducible assumption
    | intro _
    | with_reducible apply State.act_kept hP
    | with_reducible apply State.latchPar_kept hP
    | with_reducible apply State.put_kept hP
    | with_reducible apply State.setPhase_kept hP

theorem execConvTimeout_kept (hP : Kept P) {s : State} (hs : P s)  : resKeeps P (execConvTimeout s) := by
  unfold execConvTimeout
  show P _
  repeat' first
    | with_reducible assumption
    | intro _
    | with_reducible apply State.act_kept hP
    | with_reducible apply State.migAbort_kept hP

theorem execAgreeWindowEnd_kept (hP : Kept P) {s : State} (hs : P s)  : resKeeps P (execAgreeWindowEnd s) := by
  unfold execAgreeWindowEnd
  show P _
  repeat' first
    | with_reducible assumption
    | intro _
    | with_reducible apply State.act_kept hP
    | with_reducible apply State.agreeWindow_kept hP

theorem execFloatSwap_kept (hP : Kept P) {s : State} (hs : P s) (m : Span) : resKeeps P (execFloatSwap m s) := by
  unfold execFloatSwap
  show P _
  repeat' first
    | with_reducible assumption
    | intro _
    | with_reducible apply State.act_kept hP
    | with_reducible apply State.flow_kept hP
    | with_reducible apply State.migSwap_kept hP

theorem execSliceFaultDetect_kept (hP : Kept P) {s : State} (hs : P s) (sl : Fin 9) (src : BitVec 4) (ss : Fin 64) : resKeeps P (execSliceFaultDetect sl src ss s) := by
  unfold execSliceFaultDetect
  show P _
  repeat' first
    | with_reducible assumption
    | intro _
    | with_reducible apply State.act_kept hP
    | with_reducible apply State.sliceFault_kept hP

theorem execAbruptReturnSwap_kept (hP : Kept P) {s : State} (hs : P s) (m : Span) : resKeeps P (execAbruptReturnSwap m s) := by
  unfold execAbruptReturnSwap
  show P _
  repeat' first
    | with_reducible assumption
    | intro _
    | (extract_lets +onlyGivenNames x; refine (fun hx => ?_ : P x → _) ?_; clear_value x; rotate_left; subst x; rotate_right)
    | (extract_lets +onlyGivenNames x; refine (fun hx => ?_ : P x.1 → _) ?_; clear_value x; rotate_left; subst x; rotate_right)
    | (extract_lets +onlyGivenNames x; clear_value x)
    | extract_lets +onlyGivenNames x
    | with_reducible apply whenB_kept
    | with_reducible apply State.abruptSwap_kept hP
    | with_reducible apply State.act_kept hP
    | with_reducible apply State.flow_kept hP

theorem execTakeoverSwap_kept (hP : Kept P) {s : State} (hs : P s) (m : Span) : resKeeps P (execTakeoverSwap m s) := by
  unfold execTakeoverSwap
  show P _
  repeat' first
    | with_reducible assumption
    | intro _
    | (extract_lets +onlyGivenNames x; refine (fun hx => ?_ : P x → _) ?_; clear_value x; rotate_left; subst x; rotate_right)
    | (extract_lets +onlyGivenNames x; refine (fun hx => ?_ : P x.1 → _) ?_; clear_value x; rotate_left; subst x; rotate_right)
    | (extract_lets +onlyGivenNames x; clear_value x)
    | extract_lets +onlyGivenNames x
    | with_reducible apply whenB_kept
    | with_reducible apply State.act_kept hP
    | with_reducible apply State.flow_kept hP
    | with_reducible apply State.takeoverSwap_kept hP

theorem execTakeoverTimeout_kept (hP : Kept P) {s : State} (hs : P s)  : resKeeps P (execTakeoverTimeout s) := by
  unfold execTakeoverTimeout
  show P _
  repeat' first
    | with_reducible assumption
    | intro _
    | with_reducible apply State.act_kept hP
    | with_reducible apply State.takeoverLate_kept hP

theorem execNoiseMeasureStart_kept (hP : Kept P) {s : State} (hs : P s) (sl : Fin 9) : resKeeps P (execNoiseMeasureStart sl s) := by
  unfold execNoiseMeasureStart
  show P _
  repeat' first
    | with_reducible assumption
    | intro _
    | with_reducible apply State.act_kept hP
    | with_reducible apply State.disarm_kept hP
    | with_reducible apply State.noiseStart_kept hP

theorem execNoiseDone_kept (hP : Kept P) {s : State} (hs : P s) (sl : Fin 9) (worst : Fin 64) (worstRms : BitVec 12) (allRms : BitVec 12) : resKeeps P (execNoiseDone sl worst worstRms allRms s) := by
  unfold execNoiseDone
  show P _
  repeat' first
    | with_reducible assumption
    | intro _
    | with_reducible apply State.act_kept hP
    | with_reducible apply State.noiseDone_kept hP

theorem execAdaptTrackEntry_kept (hP : Kept P) {s : State} (hs : P s) (sl : Fin 9) : resKeeps P (execAdaptTrackEntry sl s) := by
  unfold execAdaptTrackEntry
  show P _
  repeat' first
    | with_reducible assumption
    | intro _
    | (extract_lets +onlyGivenNames x; refine (fun hx => ?_ : P x → _) ?_; clear_value x; rotate_left; subst x; rotate_right)
    | (extract_lets +onlyGivenNames x; refine (fun hx => ?_ : P x.1 → _) ?_; clear_value x; rotate_left; subst x; rotate_right)
    | (extract_lets +onlyGivenNames x; clear_value x)
    | extract_lets +onlyGivenNames x
    | with_reducible apply State.act_kept hP
    | with_reducible apply State.setSlice_kept hP
    | (apply Kept.of hP
       · dsimp only <;> exact rfl
       · first | exact id | (intro _; simp_all only [shape, shapeStd, List.cons.injEq, upd_length, List.length_set, List.length_map, List.length_range, List.length_replicate, and_true, true_and, and_self]; done)
       iterate 8 (· exact rfl))

theorem execTrLockWindow_kept (hP : Kept P) {s : State} (hs : P s) (m : Span) : resKeeps P (execTrLockWindow m s) := by
  unfold execTrLockWindow
  show P _
  repeat' first
    | with_reducible assumption
    | intro _
    | with_reducible apply State.abruptPhase_kept hP
    | with_reducible apply State.act_kept hP
    | with_reducible apply State.flow_kept hP

theorem execReacquire_kept (hP : Kept P) {s : State} (hs : P s) (sl : Fin 9) : resKeeps P (execReacquire sl s) := by
  unfold execReacquire
  show P _
  repeat' first
    | with_reducible assumption
    | intro _
    | with_reducible apply State.act_kept hP
    | with_reducible apply State.reacquire_kept hP

theorem execCodewordDecode_kept (hP : Kept P) {s : State} (hs : P s) (k : Fin 8) (slot : BitVec 11) (even : Bool) (rx : RxCodes) (cand : RxCodes) : resKeeps P (execCodewordDecode k slot even rx cand s) := by
  unfold execCodewordDecode
  show P _
  repeat' first
    | with_reducible assumption
    | intro _
    | with_reducible apply State.act_kept hP
    | with_reducible apply State.decodeSlot_kept hP

theorem execOuterCodeword_kept (hP : Kept P) {s : State} (hs : P s) (n : Fin 16) (ingress : Bool) (syms : List (BitVec 10 × BitVec 3)) : resKeeps P (execOuterCodeword n ingress syms s) := by
  unfold execOuterCodeword
  show P _
  repeat' first
    | with_reducible assumption
    | intro _
    | with_reducible apply State.act_kept hP
    | with_reducible apply State.outerWord_kept hP
    | with_reducible apply State.tteWord_kept hP

theorem execOuterLockChange_kept (hP : Kept P) {s : State} (hs : P s) (n : Fin 16) (ingress : Bool) (lock : Bool) : resKeeps P (execOuterLockChange n ingress lock s) := by
  unfold execOuterLockChange
  show P _
  repeat' first
    | with_reducible assumption
    | intro _
    | with_reducible apply State.act_kept hP
    | with_reducible apply State.outerLock_kept hP
    | with_reducible apply State.tteUnlock_kept hP

theorem execMaskSquelch_kept (hP : Kept P) {s : State} (hs : P s) (k : Fin 8) : resKeeps P (execMaskSquelch k s) := by
  unfold execMaskSquelch
  show P _
  repeat' first
    | with_reducible assumption
    | intro _
    | with_reducible apply State.act_kept hP
    | with_reducible apply State.maskSquelch_kept hP

theorem execSquelchSettleEnd_kept (hP : Kept P) {s : State} (hs : P s) (k : Fin 8) : resKeeps P (execSquelchSettleEnd k s) := by
  unfold execSquelchSettleEnd
  show P _
  repeat' first
    | with_reducible assumption
    | intro _
    | with_reducible apply State.act_kept hP
    | with_reducible apply State.settleEnd_kept hP

theorem execTxobsAlignSearch_kept (hP : Kept P) {s : State} (hs : P s)  : resKeeps P (execTxobsAlignSearch s) := by
  unfold execTxobsAlignSearch
  show P _
  repeat' first
    | with_reducible assumption
    | intro _
    | with_reducible apply State.act_kept hP
    | with_reducible apply State.obsSearch_kept hP

theorem execTxobsPeriodPublish_kept (hP : Kept P) {s : State} (hs : P s)  : resKeeps P (execTxobsPeriodPublish s) := by
  unfold execTxobsPeriodPublish
  show P _
  repeat' first
    | with_reducible assumption
    | intro _
    | with_reducible apply State.act_kept hP
    | with_reducible apply State.obsPublish_kept hP

theorem execHostCdrLockChange_kept (hP : Kept P) {s : State} (hs : P s) (n : Fin 16) (lock : Bool) : resKeeps P (execHostCdrLockChange n lock s) := by
  unfold execHostCdrLockChange
  show P _
  repeat' first
    | with_reducible assumption
    | intro _
    | with_reducible apply State.act_kept hP
    | with_reducible apply State.hostCdr_kept hP
    | with_reducible apply State.ltxChoose_kept hP

theorem execAmLockGained_kept (hP : Kept P) {s : State} (hs : P s) (n : Fin 16) (m : Span) : resKeeps P (execAmLockGained n m s) := by
  unfold execAmLockGained
  show P _
  repeat' first
    | with_reducible assumption
    | intro _
    | with_reducible apply State.act_kept hP
    | with_reducible apply State.amGained_kept hP
    | with_reducible apply State.flow_kept hP

theorem execAmLockLost_kept (hP : Kept P) {s : State} (hs : P s) (n : Fin 16) (m : Span) : resKeeps P (execAmLockLost n m s) := by
  unfold execAmLockLost
  show P _
  repeat' first
    | with_reducible assumption
    | intro _
    | (extract_lets +onlyGivenNames x; refine (fun hx => ?_ : P x → _) ?_; clear_value x; rotate_left; subst x; rotate_right)
    | (extract_lets +onlyGivenNames x; refine (fun hx => ?_ : P x.1 → _) ?_; clear_value x; rotate_left; subst x; rotate_right)
    | (extract_lets +onlyGivenNames x; clear_value x)
    | extract_lets +onlyGivenNames x
    | with_reducible apply whenB_kept
    | with_reducible apply State.act_kept hP
    | with_reducible apply State.amLeave_kept hP
    | with_reducible apply State.flow_kept hP

theorem execAdjNone_kept (hP : Kept P) {s : State} (hs : P s)  : resKeeps P (execAdjNone s) := by
  unfold execAdjNone
  show P _
  repeat' first
    | with_reducible assumption
    | intro _
    | with_reducible apply State.adjDone_kept hP
    | with_reducible apply State.adjRun_kept hP

theorem execAdjLoad_kept (hP : Kept P) {s : State} (hs : P s)  : resKeeps P (execAdjLoad s) := by
  unfold execAdjLoad
  show P _
  repeat' first
    | with_reducible assumption
    | intro _
    | with_reducible apply State.adjLoad_kept hP
    | with_reducible apply State.adjRun_kept hP

theorem execAdjStep_kept (hP : Kept P) {s : State} (hs : P s)  : resKeeps P (execAdjStep s) := by
  unfold execAdjStep
  show P _
  repeat' first
    | with_reducible assumption
    | intro _
    | with_reducible apply State.adjRun_kept hP
    | with_reducible apply State.adjStep_kept hP

theorem execAdjSlew_kept (hP : Kept P) {s : State} (hs : P s)  : resKeeps P (execAdjSlew s) := by
  unfold execAdjSlew
  show P _
  repeat' first
    | with_reducible assumption
    | intro _
    | with_reducible apply State.adjRun_kept hP
    | with_reducible apply State.adjSlew_kept hP

theorem execAdjMeasure_kept (hP : Kept P) {s : State} (hs : P s)  : resKeeps P (execAdjMeasure s) := by
  unfold execAdjMeasure
  show P _
  repeat' first
    | with_reducible assumption
    | intro _
    | with_reducible apply State.adjMeasure_kept hP
    | with_reducible apply State.adjRun_kept hP

theorem execSlewEnd_kept (hP : Kept P) {s : State} (hs : P s)  : resKeeps P (execSlewEnd s) := by
  unfold execSlewEnd
  show P _
  repeat' first
    | with_reducible assumption
    | intro _
    | with_reducible apply State.act_kept hP
    | with_reducible apply State.slewEnd_kept hP

theorem execPpsInEdge_kept (hP : Kept P) {s : State} (hs : P s) (falling : Bool) (at_ : Instant) : resKeeps P (execPpsInEdge falling at_ s) := by
  unfold execPpsInEdge
  show P _
  repeat' first
    | with_reducible assumption
    | intro _
    | with_reducible apply State.act_kept hP
    | with_reducible apply State.ppsEdge_kept hP

theorem execServoUpdate_kept (hP : Kept P) {s : State} (hs : P s)  : resKeeps P (execServoUpdate s) := by
  unfold execServoUpdate
  show P _
  repeat' first
    | with_reducible assumption
    | intro _
    | with_reducible apply State.act_kept hP
    | with_reducible apply State.servoUpdate_kept hP

theorem execSourceLoss_kept (hP : Kept P) {s : State} (hs : P s) (slot : Fin 4) : resKeeps P (execSourceLoss slot s) := by
  unfold execSourceLoss
  show P _
  repeat' first
    | with_reducible assumption
    | intro _
    | with_reducible apply State.act_kept hP
    | with_reducible apply State.loseSlot_kept hP

theorem execHoldoverExpired_kept (hP : Kept P) {s : State} (hs : P s)  : resKeeps P (execHoldoverExpired s) := by
  unfold execHoldoverExpired
  show P _
  repeat' first
    | with_reducible assumption
    | intro _
    | with_reducible apply State.act_kept hP
    | with_reducible apply State.setDisc_kept hP

theorem execEvtInputEdge_kept (hP : Kept P) {s : State} (hs : P s) (m : Fin 4) (falling : Bool) (at_ : Instant) (lasts : Instant) : resKeeps P (execEvtInputEdge m falling at_ lasts s) := by
  unfold execEvtInputEdge
  show P _
  repeat' first
    | with_reducible assumption
    | intro _
    | with_reducible apply State.act_kept hP
    | with_reducible apply State.evtEdge_kept hP

theorem execEvtArm_kept (hP : Kept P) {s : State} (hs : P s) (m : Fin 4) : resKeeps P (execEvtArm m s) := by
  unfold execEvtArm
  show P _
  repeat' first
    | with_reducible assumption
    | intro _
    | with_reducible apply State.act_kept hP
    | with_reducible apply State.disarm_kept hP
    | with_reducible apply State.evtArm_kept hP

theorem execEvtOutputPulse_kept (hP : Kept P) {s : State} (hs : P s) (m : Fin 4) : resKeeps P (execEvtOutputPulse m s) := by
  unfold execEvtOutputPulse
  show P _
  repeat' first
    | with_reducible assumption
    | intro _
    | with_reducible apply State.act_kept hP
    | with_reducible apply State.evtPulse_kept hP

theorem execPpsOutPulse_kept (hP : Kept P) {s : State} (hs : P s)  : resKeeps P (execPpsOutPulse s) := by
  unfold execPpsOutPulse
  show P _
  repeat' first
    | with_reducible assumption
    | intro _
    | with_reducible apply State.act_kept hP
    | with_reducible apply State.ppsPulse_kept hP

theorem execTteFrame_kept (hP : Kept P) {s : State} (hs : P s) (f : TteFrame) : resKeeps P (execTteFrame f s) := by
  unfold execTteFrame
  show P _
  repeat' first
    | with_reducible assumption
    | intro _
    | with_reducible apply State.act_kept hP
    | with_reducible apply State.tteFrame_kept hP

theorem execDeparturePostcheck_kept (hP : Kept P) {s : State} (hs : P s) (ingress : Bool) (host : Fin 16) (at_ : Stamp) : resKeeps P (execDeparturePostcheck ingress host at_ s) := by
  unfold execDeparturePostcheck
  show P _
  repeat' first
    | with_reducible assumption
    | intro _
    | with_reducible apply State.act_kept hP
    | with_reducible apply State.ttePostcheck_kept hP

theorem execFlowSweep_kept (hP : Kept P) {s : State} (hs : P s)  : resKeeps P (execFlowSweep s) := by
  unfold execFlowSweep
  show P _
  repeat' first
    | with_reducible assumption
    | intro _
    | with_reducible apply State.act_kept hP
    | with_reducible apply State.flowSweep_kept hP

theorem execFltNop_kept (hP : Kept P) {s : State} (hs : P s) (m : Requester) : resKeeps P (execFltNop m s) := by
  unfold execFltNop
  show P _
  repeat' first
    | with_reducible assumption
    | with_reducible apply State.accessW_kept hP

theorem execFltCopy_kept (hP : Kept P) {s : State} (hs : P s) (m : Requester) : resKeeps P (execFltCopy m s) := by
  unfold execFltCopy
  show P _
  repeat' first
    | with_reducible assumption
    | with_reducible apply State.accessW_kept hP

theorem execFltInvalidate_kept (hP : Kept P) {s : State} (hs : P s) (m : Requester) : resKeeps P (execFltInvalidate m s) := by
  unfold execFltInvalidate
  show P _
  repeat' first
    | with_reducible assumption
    | with_reducible apply State.accessW_kept hP

theorem execFltFlush_kept (hP : Kept P) {s : State} (hs : P s) (m : Requester) : resKeeps P (execFltFlush m s) := by
  unfold execFltFlush
  show P _
  repeat' first
    | with_reducible assumption
    | with_reducible apply State.accessW_kept hP

theorem execFltFlushDone_kept (hP : Kept P) {s : State} (hs : P s)  : resKeeps P (execFltFlushDone s) := by
  unfold execFltFlushDone
  show P _
  repeat' first
    | with_reducible assumption
    | intro _
    | with_reducible apply State.act_kept hP
    | with_reducible apply State.fltFlushDone_kept hP

theorem execRngPiWrite_kept (hP : Kept P) {s : State} (hs : P s) (m : Requester) (r : Fin 8192) (w : BitVec 48) : resKeeps P (execRngPiWrite m r w s) := by
  unfold execRngPiWrite
  show P _
  repeat' first
    | with_reducible assumption
    | with_reducible apply State.accessW_kept hP

theorem execRngCiWrite_kept (hP : Kept P) {s : State} (hs : P s) (m : Requester) (r : Fin 8192) (w : BitVec 48) : resKeeps P (execRngCiWrite m r w s) := by
  unfold execRngCiWrite
  show P _
  repeat' first
    | with_reducible assumption
    | with_reducible apply State.accessW_kept hP

theorem execRingWindowWrite_kept (hP : Kept P) {s : State} (hs : P s) (m : Requester) (a : BitVec 18) (w : BitVec 48) : resKeeps P (execRingWindowWrite m a w s) := by
  unfold execRingWindowWrite
  show P _
  repeat' first
    | with_reducible assumption
    | with_reducible apply State.accessW_kept hP

theorem execScrimSyncGain_kept (hP : Kept P) {s : State} (hs : P s) (j : Fin 10) (l : LinkSpan) : resKeeps P (execScrimSyncGain j l s) := by
  unfold execScrimSyncGain
  show P _
  repeat' first
    | with_reducible assumption
    | intro _
    | with_reducible apply State.act_kept hP
    | with_reducible apply State.linkRow_kept hP

theorem execScrimSyncLoss_kept (hP : Kept P) {s : State} (hs : P s) (j : Fin 10) (l : LinkSpan) : resKeeps P (execScrimSyncLoss j l s) := by
  unfold execScrimSyncLoss
  show P _
  repeat' first
    | with_reducible assumption
    | intro _
    | with_reducible apply State.act_kept hP
    | with_reducible apply State.linkRow_kept hP

theorem execEbSlip_kept (hP : Kept P) {s : State} (hs : P s) (j : Fin 10) (l : LinkSpan) : resKeeps P (execEbSlip j l s) := by
  unfold execEbSlip
  show P _
  repeat' first
    | with_reducible assumption
    | intro _
    | with_reducible apply State.act_kept hP
    | with_reducible apply State.linkRow_kept hP

theorem execScrimBadFrame_kept (hP : Kept P) {s : State} (hs : P s) (j : Fin 10) (l : LinkSpan) : resKeeps P (execScrimBadFrame j l s) := by
  unfold execScrimBadFrame
  show P _
  repeat' first
    | with_reducible assumption
    | intro _
    | (extract_lets +onlyGivenNames x; refine (fun hx => ?_ : P x → _) ?_; clear_value x; rotate_left; subst x; rotate_right)
    | (extract_lets +onlyGivenNames x; refine (fun hx => ?_ : P x.1 → _) ?_; clear_value x; rotate_left; subst x; rotate_right)
    | (extract_lets +onlyGivenNames x; clear_value x)
    | extract_lets +onlyGivenNames x
    | with_reducible apply State.act_kept hP
    | with_reducible apply State.linkRow_kept hP
    | split
    | (refine fst_kept (by assumption) ?_)
    | (apply Kept.of hP
       · dsimp only <;> exact rfl
       · first | exact id | (intro _; simp_all only [shape, shapeStd, List.cons.injEq, upd_length, List.length_set, List.length_map, List.length_range, List.length_replicate, and_true, true_and, and_self]; done)
       iterate 8 (· exact rfl))

theorem execScrimForward_kept (hP : Kept P) {s : State} (hs : P s) (j : Fin 10) (at_ : Instant) (l : LinkSpan) : resKeeps P (execScrimForward j at_ l s) := by
  unfold execScrimForward
  show P _
  repeat' first
    | with_reducible assumption
    | intro _
    | with_reducible apply State.act_kept hP
    | with_reducible apply State.frameRow_kept hP

theorem execHello_kept (hP : Kept P) {s : State} (hs : P s) (j : Fin 10) (at_ : Instant) (l : LinkSpan) : resKeeps P (execHello j at_ l s) := by
  unfold execHello
  show P _
  repeat' first
    | with_reducible assumption
    | intro _
    | with_reducible apply State.act_kept hP
    | with_reducible apply State.frameRow_kept hP

theorem execHelloSend_kept (hP : Kept P) {s : State} (hs : P s) (j : Fin 10) : resKeeps P (execHelloSend j s) := by
  unfold execHelloSend
  show P _
  repeat' first
    | with_reducible assumption
    | intro _
    | with_reducible apply State.act_kept hP
    | with_reducible apply State.sendHello_kept hP

theorem execHelloLoss_kept (hP : Kept P) {s : State} (hs : P s) (j : Fin 10) : resKeeps P (execHelloLoss j s) := by
  unfold execHelloLoss
  show P _
  repeat' first
    | with_reducible assumption
    | intro _
    | with_reducible apply State.act_kept hP
    | with_reducible apply State.linkLeave_kept hP

theorem execAck_kept (hP : Kept P) {s : State} (hs : P s) (j : Fin 10) (at_ : Instant) (l : LinkSpan) : resKeeps P (execAck j at_ l s) := by
  unfold execAck
  show P _
  repeat' first
    | with_reducible assumption
    | intro _
    | with_reducible apply State.act_kept hP
    | with_reducible apply State.frameRow_kept hP

theorem execNak_kept (hP : Kept P) {s : State} (hs : P s) (j : Fin 10) (at_ : Instant) (l : LinkSpan) : resKeeps P (execNak j at_ l s) := by
  unfold execNak
  show P _
  repeat' first
    | with_reducible assumption
    | intro _
    | with_reducible apply State.act_kept hP
    | with_reducible apply State.frameRow_kept hP

theorem execRetxTimeout_kept (hP : Kept P) {s : State} (hs : P s) (j : Fin 10) : resKeeps P (execRetxTimeout j s) := by
  unfold execRetxTimeout
  show P _
  repeat' first
    | with_reducible assumption
    | intro _
    | with_reducible apply State.act_kept hP
    | with_reducible apply State.rtxTimeout_kept hP

theorem execTmarkRx_kept (hP : Kept P) {s : State} (hs : P s) (j : Fin 10) (symbol : Fin 6) (at_ : Stamp) (l : LinkSpan) : resKeeps P (execTmarkRx j symbol at_ l s) := by
  unfold execTmarkRx
  show P _
  repeat' first
    | with_reducible assumption
    | intro _
    | with_reducible apply State.act_kept hP
    | with_reducible apply State.linkRow_kept hP

theorem execTimeFrame_kept (hP : Kept P) {s : State} (hs : P s) (j : Fin 10) (at_ : Instant) (l : LinkSpan) : resKeeps P (execTimeFrame j at_ l s) := by
  unfold execTimeFrame
  show P _
  repeat' first
    | with_reducible assumption
    | intro _
    | with_reducible apply State.act_kept hP
    | with_reducible apply State.frameRow_kept hP

theorem execRegRd_kept (hP : Kept P) {s : State} (hs : P s) (j : Fin 10) (at_ : Instant) (l : LinkSpan) : resKeeps P (execRegRd j at_ l s) := by
  unfold execRegRd
  show P _
  repeat' first
    | with_reducible assumption
    | intro _
    | with_reducible apply State.act_kept hP
    | with_reducible apply State.frameRow_kept hP

theorem execRegWr_kept (hP : Kept P) {s : State} (hs : P s) (j : Fin 10) (at_ : Instant) (l : LinkSpan) : resKeeps P (execRegWr j at_ l s) := by
  unfold execRegWr
  show P _
  repeat' first
    | with_reducible assumption
    | intro _
    | with_reducible apply State.act_kept hP
    | with_reducible apply State.frameRow_kept hP

theorem execRegRsp_kept (hP : Kept P) {s : State} (hs : P s) (j : Fin 10) (at_ : Instant) (l : LinkSpan) : resKeeps P (execRegRsp j at_ l s) := by
  unfold execRegRsp
  show P _
  repeat' first
    | with_reducible assumption
    | intro _
    | with_reducible apply State.act_kept hP
    | with_reducible apply State.frameRow_kept hP

theorem execProxyGo_kept (hP : Kept P) {s : State} (hs : P s) (m : Requester) (w : BitVec 48) : resKeeps P (execProxyGo m w s) := by
  unfold execProxyGo
  show P _
  repeat' first
    | with_reducible assumption
    | with_reducible apply State.accessW_kept hP

theorem execProxyTimeout_kept (hP : Kept P) {s : State} (hs : P s)  : resKeeps P (execProxyTimeout s) := by
  unfold execProxyTimeout
  show P _
  repeat' first
    | with_reducible assumption
    | intro _
    | with_reducible apply State.act_kept hP
    | with_reducible apply State.proxyEnd_kept hP

theorem execTrigRx_kept (hP : Kept P) {s : State} (hs : P s) (j : Fin 10) (symbol : Fin 6) (at_ : Stamp) (l : LinkSpan) : resKeeps P (execTrigRx j symbol at_ l s) := by
  unfold execTrigRx
  show P _
  repeat' first
    | with_reducible assumption
    | intro _
    | with_reducible apply State.act_kept hP
    | with_reducible apply State.linkRow_kept hP

theorem execTrigAt_kept (hP : Kept P) {s : State} (hs : P s) (j : Fin 10) (at_ : Instant) (l : LinkSpan) : resKeeps P (execTrigAt j at_ l s) := by
  unfold execTrigAt
  show P _
  repeat' first
    | with_reducible assumption
    | intro _
    | with_reducible apply State.act_kept hP
    | with_reducible apply State.frameRow_kept hP

theorem execBootReq_kept (hP : Kept P) {s : State} (hs : P s) (j : Fin 10) (at_ : Instant) (l : LinkSpan) : resKeeps P (execBootReq j at_ l s) := by
  unfold execBootReq
  show P _
  repeat' first
    | with_reducible assumption
    | intro _
    | with_reducible apply State.act_kept hP
    | with_reducible apply State.frameRow_kept hP

theorem execBootReqSend_kept (hP : Kept P) {s : State} (hs : P s)  : resKeeps P (execBootReqSend s) := by
  unfold execBootReqSend
  show P _
  repeat' first
    | with_reducible assumption
    | intro _
    | with_reducible apply State.act_kept hP
    | with_reducible apply State.bootReqSend_kept hP

theorem execBootData_kept (hP : Kept P) {s : State} (hs : P s) (j : Fin 10) (at_ : Instant) (l : LinkSpan) : resKeeps P (execBootData j at_ l s) := by
  unfold execBootData
  show P _
  repeat' first
    | with_reducible assumption
    | intro _
    | with_reducible apply State.act_kept hP
    | with_reducible apply State.frameRow_kept hP

theorem execBootEnd_kept (hP : Kept P) {s : State} (hs : P s) (j : Fin 10) (at_ : Instant) (l : LinkSpan) : resKeeps P (execBootEnd j at_ l s) := by
  unfold execBootEnd
  show P _
  repeat' first
    | with_reducible assumption
    | intro _
    | with_reducible apply State.act_kept hP
    | with_reducible apply State.frameRow_kept hP

theorem execLoopCmd_kept (hP : Kept P) {s : State} (hs : P s) (j : Fin 10) (at_ : Instant) (l : LinkSpan) : resKeeps P (execLoopCmd j at_ l s) := by
  unfold execLoopCmd
  show P _
  repeat' first
    | with_reducible assumption
    | intro _
    | with_reducible apply State.act_kept hP
    | with_reducible apply State.frameRow_kept hP

theorem execLoopRsp_kept (hP : Kept P) {s : State} (hs : P s) (j : Fin 10) (at_ : Instant) (l : LinkSpan) : resKeeps P (execLoopRsp j at_ l s) := by
  unfold execLoopRsp
  show P _
  repeat' first
    | with_reducible assumption
    | intro _
    | with_reducible apply State.act_kept hP
    | with_reducible apply State.frameRow_kept hP

theorem execUserMessage_kept (hP : Kept P) {s : State} (hs : P s) (j : Fin 10) (at_ : Instant) (l : LinkSpan) : resKeeps P (execUserMessage j at_ l s) := by
  unfold execUserMessage
  show P _
  repeat' first
    | with_reducible assumption
    | intro _
    | with_reducible apply State.act_kept hP
    | with_reducible apply State.frameRow_kept hP

theorem execFabricTxSend_kept (hP : Kept P) {s : State} (hs : P s) (at_ : Instant) : resKeeps P (execFabricTxSend at_ s) := by
  unfold execFabricTxSend
  show P _
  repeat' first
    | with_reducible assumption
    | intro _
    | with_reducible apply State.act_kept hP
    | with_reducible apply State.fabTxSend_kept hP

theorem execLoopSlip_kept (hP : Kept P) {s : State} (hs : P s)  : resKeeps P (execLoopSlip s) := by
  unfold execLoopSlip
  show P _
  repeat' first
    | with_reducible assumption
    | intro _
    | with_reducible apply State.act_kept hP
    | with_reducible apply State.loopSlip_kept hP

theorem execNop_kept (hP : Kept P) {s : State} (hs : P s)  : resKeeps P (execNop s) := by
  unfold execNop
  show P _
  repeat' first
    | with_reducible assumption
    | intro _
    | with_reducible apply State.iNop_kept hP
    | with_reducible apply State.issue_kept hP

theorem execAdd_kept (hP : Kept P) {s : State} (hs : P s) (rd : Fin 32) (ra : Fin 32) (rb : Fin 32) : resKeeps P (execAdd rd ra rb s) := by
  unfold execAdd
  show P _
  repeat' first
    | with_reducible assumption
    | intro _
    | with_reducible apply State.iAdd_kept hP
    | with_reducible apply State.issue_kept hP

theorem execAdds_kept (hP : Kept P) {s : State} (hs : P s) (rd : Fin 32) (ra : Fin 32) (rb : Fin 32) : resKeeps P (execAdds rd ra rb s) := by
  unfold execAdds
  show P _
  repeat' first
    | with_reducible assumption
    | intro _
    | with_reducible apply State.iAdds_kept hP
    | with_reducible apply State.issue_kept hP

theorem execSub_kept (hP : Kept P) {s : State} (hs : P s) (rd : Fin 32) (ra : Fin 32) (rb : Fin 32) : resKeeps P (execSub rd ra rb s) := by
  unfold execSub
  show P _
  repeat' first
    | with_reducible assumption
    | intro _
    | with_reducible apply State.iSub_kept hP
    | with_reducible apply State.issue_kept hP

theorem execSubs_kept (hP : Kept P) {s : State} (hs : P s) (rd : Fin 32) (ra : Fin 32) (rb : Fin 32) : resKeeps P (execSubs rd ra rb s) := by
  unfold execSubs
  show P _
  repeat' first
    | with_reducible assumption
    | intro _
    | with_reducible apply State.iSubs_kept hP
    | with_reducible apply State.issue_kept hP

theorem execOpAnd_kept (hP : Kept P) {s : State} (hs : P s) (rd : Fin 32) (ra : Fin 32) (rb : Fin 32) : resKeeps P (execOpAnd rd ra rb s) := by
  unfold execOpAnd
  show P _
  repeat' first
    | with_reducible assumption
    | intro _
    | with_reducible apply State.iLogic_kept hP
    | with_reducible apply State.issue_kept hP

theorem execOpOr_kept (hP : Kept P) {s : State} (hs : P s) (rd : Fin 32) (ra : Fin 32) (rb : Fin 32) : resKeeps P (execOpOr rd ra rb s) := by
  unfold execOpOr
  show P _
  repeat' first
    | with_reducible assumption
    | intro _
    | with_reducible apply State.iLogic_kept hP
    | with_reducible apply State.issue_kept hP

theorem execOpXor_kept (hP : Kept P) {s : State} (hs : P s) (rd : Fin 32) (ra : Fin 32) (rb : Fin 32) : resKeeps P (execOpXor rd ra rb s) := by
  unfold execOpXor
  show P _
  repeat' first
    | with_reducible assumption
    | intro _
    | with_reducible apply State.iLogic_kept hP
    | with_reducible apply State.issue_kept hP

theorem execShl_kept (hP : Kept P) {s : State} (hs : P s) (rd : Fin 32) (ra : Fin 32) (rb : Fin 32) : resKeeps P (execShl rd ra rb s) := by
  unfold execShl
  show P _
  repeat' first
    | with_reducible assumption
    | intro _
    | with_reducible apply State.iLogic_kept hP
    | with_reducible apply State.issue_kept hP

theorem execShr_kept (hP : Kept P) {s : State} (hs : P s) (rd : Fin 32) (ra : Fin 32) (rb : Fin 32) : resKeeps P (execShr rd ra rb s) := by
  unfold execShr
  show P _
  repeat' first
    | with_reducible assumption
    | intro _
    | with_reducible apply State.iLogic_kept hP
    | with_reducible apply State.issue_kept hP

theorem execSra_kept (hP : Kept P) {s : State} (hs : P s) (rd : Fin 32) (ra : Fin 32) (rb : Fin 32) : resKeeps P (execSra rd ra rb s) := by
  unfold execSra
  show P _
  repeat' first
    | with_reducible assumption
    | intro _
    | with_reducible apply State.iLogic_kept hP
    | with_reducible apply State.issue_kept hP

theorem execOpMin_kept (hP : Kept P) {s : State} (hs : P s) (rd : Fin 32) (ra : Fin 32) (rb : Fin 32) : resKeeps P (execOpMin rd ra rb s) := by
  unfold execOpMin
  show P _
  repeat' first
    | with_reducible assumption
    | intro _
    | with_reducible apply State.iLogic_kept hP
    | with_reducible apply State.issue_kept hP

theorem execOpMax_kept (hP : Kept P) {s : State} (hs : P s) (rd : Fin 32) (ra : Fin 32) (rb : Fin 32) : resKeeps P (execOpMax rd ra rb s) := by
  unfold execOpMax
  show P _
  repeat' first
    | with_reducible assumption
    | intro _
    | with_reducible apply State.iLogic_kept hP
    | with_reducible apply State.issue_kept hP

theorem execMinu_kept (hP : Kept P) {s : State} (hs : P s) (rd : Fin 32) (ra : Fin 32) (rb : Fin 32) : resKeeps P (execMinu rd ra rb s) := by
  unfold execMinu
  show P _
  repeat' first
    | with_reducible assumption
    | intro _
    | with_reducible apply State.iLogic_kept hP
    | with_reducible apply State.issue_kept hP

theorem execMaxu_kept (hP : Kept P) {s : State} (hs : P s) (rd : Fin 32) (ra : Fin 32) (rb : Fin 32) : resKeeps P (execMaxu rd ra rb s) := by
  unfold execMaxu
  show P _
  repeat' first
    | with_reducible assumption
    | intro _
    | with_reducible apply State.iLogic_kept hP
    | with_reducible apply State.issue_kept hP

theorem execAddi_kept (hP : Kept P) {s : State} (hs : P s) (rd : Fin 32) (ra : Fin 32) (imm : BitVec 30) : resKeeps P (execAddi rd ra imm s) := by
  unfold execAddi
  show P _
  repeat' first
    | with_reducible assumption
    | intro _
    | with_reducible apply State.iAddi_kept hP
    | with_reducible apply State.issue_kept hP

theorem execAddsi_kept (hP : Kept P) {s : State} (hs : P s) (rd : Fin 32) (ra : Fin 32) (imm : BitVec 30) : resKeeps P (execAddsi rd ra imm s) := by
  unfold execAddsi
  show P _
  repeat' first
    | with_reducible assumption
    | intro _
    | with_reducible apply State.iAddsi_kept hP
    | with_reducible apply State.issue_kept hP

theorem execSubi_kept (hP : Kept P) {s : State} (hs : P s) (rd : Fin 32) (ra : Fin 32) (imm : BitVec 30) : resKeeps P (execSubi rd ra imm s) := by
  unfold execSubi
  show P _
  repeat' first
    | with_reducible assumption
    | intro _
    | with_reducible apply State.iSubi_kept hP
    | with_reducible apply State.issue_kept hP

theorem execSubsi_kept (hP : Kept P) {s : State} (hs : P s) (rd : Fin 32) (ra : Fin 32) (imm : BitVec 30) : resKeeps P (execSubsi rd ra imm s) := by
  unfold execSubsi
  show P _
  repeat' first
    | with_reducible assumption
    | intro _
    | with_reducible apply State.iSubsi_kept hP
    | with_reducible apply State.issue_kept hP

theorem execAndi_kept (hP : Kept P) {s : State} (hs : P s) (rd : Fin 32) (ra : Fin 32) (imm : BitVec 30) : resKeeps P (execAndi rd ra imm s) := by
  unfold execAndi
  show P _
  repeat' first
    | with_reducible assumption
    | intro _
    | with_reducible apply State.iLogici_kept hP
    | with_reducible apply State.issue_kept hP

theorem execOri_kept (hP : Kept P) {s : State} (hs : P s) (rd : Fin 32) (ra : Fin 32) (imm : BitVec 30) : resKeeps P (execOri rd ra imm s) := by
  unfold execOri
  show P _
  repeat' first
    | with_reducible assumption
    | intro _
    | with_reducible apply State.iLogici_kept hP
    | with_reducible apply State.issue_kept hP

theorem execXori_kept (hP : Kept P) {s : State} (hs : P s) (rd : Fin 32) (ra : Fin 32) (imm : BitVec 30) : resKeeps P (execXori rd ra imm s) := by
  unfold execXori
  show P _
  repeat' first
    | with_reducible assumption
    | intro _
    | with_reducible apply State.iLogici_kept hP
    | with_reducible apply State.issue_kept hP

theorem execShli_kept (hP : Kept P) {s : State} (hs : P s) (rd : Fin 32) (ra : Fin 32) (imm : BitVec 30) : resKeeps P (execShli rd ra imm s) := by
  unfold execShli
  show P _
  repeat' first
    | with_reducible assumption
    | intro _
    | with_reducible apply State.iLogici_kept hP
    | with_reducible apply State.issue_kept hP

theorem execShri_kept (hP : Kept P) {s : State} (hs : P s) (rd : Fin 32) (ra : Fin 32) (imm : BitVec 30) : resKeeps P (execShri rd ra imm s) := by
  unfold execShri
  show P _
  repeat' first
    | with_reducible assumption
    | intro _
    | with_reducible apply State.iLogici_kept hP
    | with_reducible apply State.issue_kept hP

theorem execSrai_kept (hP : Kept P) {s : State} (hs : P s) (rd : Fin 32) (ra : Fin 32) (imm : BitVec 30) : resKeeps P (execSrai rd ra imm s) := by
  unfold execSrai
  show P _
  repeat' first
    | with_reducible assumption
    | intro _
    | with_reducible apply State.iLogici_kept hP
    | with_reducible apply State.issue_kept hP

theorem execMini_kept (hP : Kept P) {s : State} (hs : P s) (rd : Fin 32) (ra : Fin 32) (imm : BitVec 30) : resKeeps P (execMini rd ra imm s) := by
  unfold execMini
  show P _
  repeat' first
    | with_reducible assumption
    | intro _
    | with_reducible apply State.iLogici_kept hP
    | with_reducible apply State.issue_kept hP

theorem execMaxi_kept (hP : Kept P) {s : State} (hs : P s) (rd : Fin 32) (ra : Fin 32) (imm : BitVec 30) : resKeeps P (execMaxi rd ra imm s) := by
  unfold execMaxi
  show P _
  repeat' first
    | with_reducible assumption
    | intro _
    | with_reducible apply State.iLogici_kept hP
    | with_reducible apply State.issue_kept hP

theorem execMinui_kept (hP : Kept P) {s : State} (hs : P s) (rd : Fin 32) (ra : Fin 32) (imm : BitVec 30) : resKeeps P (execMinui rd ra imm s) := by
  unfold execMinui
  show P _
  repeat' first
    | with_reducible assumption
    | intro _
    | with_reducible apply State.iLogici_kept hP
    | with_reducible apply State.issue_kept hP

theorem execMaxui_kept (hP : Kept P) {s : State} (hs : P s) (rd : Fin 32) (ra : Fin 32) (imm : BitVec 30) : resKeeps P (execMaxui rd ra imm s) := by
  unfold execMaxui
  show P _
  repeat' first
    | with_reducible assumption
    | intro _
    | with_reducible apply State.iLogici_kept hP
    | with_reducible apply State.issue_kept hP

theorem execMovlo_kept (hP : Kept P) {s : State} (hs : P s) (rd : Fin 32) (imm : BitVec 24) : resKeeps P (execMovlo rd imm s) := by
  unfold execMovlo
  show P _
  repeat' first
    | with_reducible assumption
    | intro _
    | with_reducible apply State.iMovlo_kept hP
    | with_reducible apply State.issue_kept hP

theorem execMovhi_kept (hP : Kept P) {s : State} (hs : P s) (rd : Fin 32) (imm : BitVec 24) : resKeeps P (execMovhi rd imm s) := by
  unfold execMovhi
  show P _
  repeat' first
    | with_reducible assumption
    | intro _
    | with_reducible apply State.iMovhi_kept hP
    | with_reducible apply State.issue_kept hP

theorem execGetf_kept (hP : Kept P) {s : State} (hs : P s) (rd : Fin 32) : resKeeps P (execGetf rd s) := by
  unfold execGetf
  show P _
  repeat' first
    | with_reducible assumption
    | intro _
    | with_reducible apply State.iGetf_kept hP
    | with_reducible apply State.issue_kept hP

theorem execPutf_kept (hP : Kept P) {s : State} (hs : P s) (ra : Fin 32) : resKeeps P (execPutf ra s) := by
  unfold execPutf
  show P _
  repeat' first
    | with_reducible assumption
    | intro _
    | with_reducible apply State.iPutf_kept hP
    | with_reducible apply State.issue_kept hP

theorem execClrs_kept (hP : Kept P) {s : State} (hs : P s)  : resKeeps P (execClrs s) := by
  unfold execClrs
  show P _
  repeat' first
    | with_reducible assumption
    | intro _
    | with_reducible apply State.iClrs_kept hP
    | with_reducible apply State.issue_kept hP

theorem execMul_kept (hP : Kept P) {s : State} (hs : P s) (ra : Fin 32) (rb : Fin 32) (u : Bool) (ac : Fin 2) : resKeeps P (execMul ra rb u ac s) := by
  unfold execMul
  show P _
  repeat' first
    | with_reducible assumption
    | intro _
    | with_reducible apply State.iMul_kept hP
    | with_reducible apply State.issue_kept hP

theorem execMac_kept (hP : Kept P) {s : State} (hs : P s) (ra : Fin 32) (rb : Fin 32) (u : Bool) (ac : Fin 2) : resKeeps P (execMac ra rb u ac s) := by
  unfold execMac
  show P _
  repeat' first
    | with_reducible assumption
    | intro _
    | with_reducible apply State.iMac_kept hP
    | with_reducible apply State.issue_kept hP

theorem execMacs_kept (hP : Kept P) {s : State} (hs : P s) (ra : Fin 32) (rb : Fin 32) (u : Bool) (ac : Fin 2) : resKeeps P (execMacs ra rb u ac s) := by
  unfold execMacs
  show P _
  repeat' first
    | with_reducible assumption
    | intro _
    | with_reducible apply State.iMac_kept hP
    | with_reducible apply State.issue_kept hP

theorem execMsu_kept (hP : Kept P) {s : State} (hs : P s) (ra : Fin 32) (rb : Fin 32) (u : Bool) (ac : Fin 2) : resKeeps P (execMsu ra rb u ac s) := by
  unfold execMsu
  show P _
  repeat' first
    | with_reducible assumption
    | intro _
    | with_reducible apply State.iMac_kept hP
    | with_reducible apply State.issue_kept hP

theorem execMsus_kept (hP : Kept P) {s : State} (hs : P s) (ra : Fin 32) (rb : Fin 32) (u : Bool) (ac : Fin 2) : resKeeps P (execMsus ra rb u ac s) := by
  unfold execMsus
  show P _
  repeat' first
    | with_reducible assumption
    | intro _
    | with_reducible apply State.iMac_kept hP
    | with_reducible apply State.issue_kept hP

theorem execAsr_kept (hP : Kept P) {s : State} (hs : P s) (ac : Fin 2) (sh : BitVec 7) : resKeeps P (execAsr ac sh s) := by
  unfold execAsr
  show P _
  repeat' first
    | with_reducible assumption
    | intro _
    | with_reducible apply State.iAsr_kept hP
    | with_reducible apply State.issue_kept hP

theorem execAsl_kept (hP : Kept P) {s : State} (hs : P s) (ac : Fin 2) (sh : BitVec 7) : resKeeps P (execAsl ac sh s) := by
  unfold execAsl
  show P _
  repeat' first
    | with_reducible assumption
    | intro _
    | with_reducible apply State.iAsl_kept hP
    | with_reducible apply State.issue_kept hP

theorem execRound_kept (hP : Kept P) {s : State} (hs : P s) (rd : Fin 32) (ac : Fin 2) (width : BitVec 6) (sh : BitVec 7) : resKeeps P (execRound rd ac width sh s) := by
  unfold execRound
  show P _
  repeat' first
    | with_reducible assumption
    | intro _
    | with_reducible apply State.iRound_kept hP
    | with_reducible apply State.issue_kept hP

theorem execNorm_kept (hP : Kept P) {s : State} (hs : P s) (rd : Fin 32) (ac : Fin 2) : resKeeps P (execNorm rd ac s) := by
  unfold execNorm
  show P _
  repeat' first
    | with_reducible assumption
    | intro _
    | with_reducible apply State.iNorm_kept hP
    | with_reducible apply State.issue_kept hP

theorem execAccget_kept (hP : Kept P) {s : State} (hs : P s) (rd : Fin 32) (ac : Fin 2) (sh : BitVec 7) : resKeeps P (execAccget rd ac sh s) := by
  unfold execAccget
  show P _
  repeat' first
    | with_reducible assumption
    | intro _
    | with_reducible apply State.iAccget_kept hP
    | with_reducible apply State.issue_kept hP

theorem execAccput_kept (hP : Kept P) {s : State} (hs : P s) (ra : Fin 32) (ac : Fin 2) (sh : BitVec 7) : resKeeps P (execAccput ra ac sh s) := by
  unfold execAccput
  show P _
  repeat' first
    | with_reducible assumption
    | intro _
    | with_reducible apply State.iAccput_kept hP
    | with_reducible apply State.issue_kept hP

theorem execLd_kept (hP : Kept P) {s : State} (hs : P s) (rd : Fin 32) (ra : Fin 32) (imm : BitVec 30) : resKeeps P (execLd rd ra imm s) := by
  unfold execLd
  show P _
  repeat' first
    | with_reducible assumption
    | intro _
    | with_reducible apply State.iLd_kept hP
    | with_reducible apply State.issue_kept hP

theorem execSt_kept (hP : Kept P) {s : State} (hs : P s) (rd : Fin 32) (ra : Fin 32) (imm : BitVec 30) : resKeeps P (execSt rd ra imm s) := by
  unfold execSt
  show P _
  repeat' first
    | with_reducible assumption
    | intro _
    | with_reducible apply State.iSt_kept hP
    | with_reducible apply State.issue_kept hP

theorem execInp_kept (hP : Kept P) {s : State} (hs : P s) (rd : Fin 32) (ra : Fin 32) (a24 : BitVec 24) (at_ : Instant) (wait : Fin 13) : resKeeps P (execInp rd ra a24 at_ wait s) := by
  unfold execInp
  show P _
  repeat' first
    | with_reducible assumption
    | intro _
    | with_reducible apply State.iInp_kept hP
    | with_reducible apply State.issue_kept hP

theorem execOutp_kept (hP : Kept P) {s : State} (hs : P s) (rs : Fin 32) (ra : Fin 32) (a24 : BitVec 24) (wait : Fin 13) (held : BitVec 10) : resKeeps P (execOutp rs ra a24 wait held s) := by
  unfold execOutp
  show P _
  repeat' first
    | with_reducible assumption
    | intro _
    | with_reducible apply State.iOutp_kept hP
    | with_reducible apply State.issue_kept hP

theorem execStg_kept (hP : Kept P) {s : State} (hs : P s) (rs : Fin 32) (ra : Fin 32) (a24 : BitVec 24) (wait : Fin 13) (held : BitVec 10) : resKeeps P (execStg rs ra a24 wait held s) := by
  unfold execStg
  show P _
  repeat' first
    | with_reducible assumption
    | intro _
    | with_reducible apply State.iStg_kept hP
    | with_reducible apply State.issue_kept hP

theorem execOpSet_kept (hP : Kept P) {s : State} (hs : P s) (rd : Fin 32) : resKeeps P (execOpSet rd s) := by
  unfold execOpSet
  show P _
  repeat' first
    | with_reducible assumption
    | intro _
    | with_reducible apply State.iSet_kept hP
    | with_reducible apply State.issue_kept hP

theorem execBr_kept (hP : Kept P) {s : State} (hs : P s) (cond : Fin 32) (target : BitVec 15) : resKeeps P (execBr cond target s) := by
  unfold execBr
  show P _
  repeat' first
    | with_reducible assumption
    | intro _
    | with_reducible apply State.iBr_kept hP
    | with_reducible apply State.issue_kept hP

theorem execJr_kept (hP : Kept P) {s : State} (hs : P s) (ra : Fin 32) : resKeeps P (execJr ra s) := by
  unfold execJr
  show P _
  repeat' first
    | with_reducible assumption
    | intro _
    | with_reducible apply State.iJr_kept hP
    | with_reducible apply State.issue_kept hP

theorem execCall_kept (hP : Kept P) {s : State} (hs : P s) (target : BitVec 15) : resKeeps P (execCall target s) := by
  unfold execCall
  show P _
  repeat' first
    | with_reducible assumption
    | intro _
    | with_reducible apply State.iCall_kept hP
    | with_reducible apply State.issue_kept hP

theorem execRet_kept (hP : Kept P) {s : State} (hs : P s)  : resKeeps P (execRet s) := by
  unfold execRet
  show P _
  repeat' first
    | with_reducible assumption
    | intro _
    | with_reducible apply State.iRet_kept hP
    | with_reducible apply State.issue_kept hP

theorem execOpTick_kept (hP : Kept P) {s : State} (hs : P s) (target : BitVec 15) : resKeeps P (execOpTick target s) := by
  unfold execOpTick
  show P _
  repeat' first
    | with_reducible assumption
    | intro _
    | with_reducible apply State.iTick_kept hP
    | with_reducible apply State.issue_kept hP

theorem execWaite_kept (hP : Kept P) {s : State} (hs : P s) (rd : Fin 32) (ra : Fin 32) (limit : BitVec 16) : resKeeps P (execWaite rd ra limit s) := by
  unfold execWaite
  show P _
  repeat' first
    | with_reducible assumption
    | intro _
    | with_reducible apply State.iWaite_kept hP
    | with_reducible apply State.issue_kept hP

theorem execWaiteEnd_kept (hP : Kept P) {s : State} (hs : P s) (cycles : BitVec 16) : resKeeps P (execWaiteEnd cycles s) := by
  unfold execWaiteEnd
  show P _
  repeat' first
    | with_reducible assumption
    | intro _
    | with_reducible apply State.act_kept hP
    | with_reducible apply State.waiteEnd_kept hP

theorem execOpBrk_kept (hP : Kept P) {s : State} (hs : P s)  : resKeeps P (execOpBrk s) := by
  unfold execOpBrk
  show P _
  repeat' first
    | with_reducible assumption
    | intro _
    | with_reducible apply State.iBrk_kept hP
    | with_reducible apply State.issue_kept hP

theorem execPush_kept (hP : Kept P) {s : State} (hs : P s) (rd : Fin 32) (ra : Fin 32) (h : Bool) (offset : BitVec 13) (wait : Fin 5) : resKeeps P (execPush rd ra h offset wait s) := by
  unfold execPush
  show P _
  repeat' first
    | with_reducible assumption
    | intro _
    | with_reducible apply State.iPush_kept hP
    | with_reducible apply State.issue_kept hP

theorem execPop_kept (hP : Kept P) {s : State} (hs : P s) (rd : Fin 32) (ra : Fin 32) (h : Bool) (offset : BitVec 13) (wait : Fin 5) : resKeeps P (execPop rd ra h offset wait s) := by
  unfold execPop
  show P _
  repeat' first
    | with_reducible assumption
    | intro _
    | with_reducible apply State.iPop_kept hP
    | with_reducible apply State.issue_kept hP

theorem execTrc_kept (hP : Kept P) {s : State} (hs : P s) (rd : Fin 32) (at_ : Instant) : resKeeps P (execTrc rd at_ s) := by
  unfold execTrc
  show P _
  repeat' first
    | with_reducible assumption
    | intro _
    | with_reducible apply State.iTrc_kept hP
    | with_reducible apply State.issue_kept hP

theorem execPwr_kept (hP : Kept P) {s : State} (hs : P s) (rd : Fin 32) (ra : Fin 32) : resKeeps P (execPwr rd ra s) := by
  unfold execPwr
  show P _
  repeat' first
    | with_reducible assumption
    | intro _
    | with_reducible apply State.iPwr_kept hP
    | with_reducible apply State.issue_kept hP

theorem execSetCheckDone_kept (hP : Kept P) {s : State} (hs : P s)  : resKeeps P (execSetCheckDone s) := by
  unfold execSetCheckDone
  show P _
  repeat' first
    | with_reducible assumption
    | intro _
    | with_reducible apply State.act_kept hP
    | with_reducible apply State.checkDone_kept hP

theorem execTaskRunStart_kept (hP : Kept P) {s : State} (hs : P s)  : resKeeps P (execTaskRunStart s) := by
  unfold execTaskRunStart
  show P _
  repeat' first
    | with_reducible assumption
    | intro _
    | with_reducible apply State.act_kept hP
    | with_reducible apply State.runStart_kept hP

theorem execWdogExpiry_kept (hP : Kept P) {s : State} (hs : P s)  : resKeeps P (execWdogExpiry s) := by
  unfold execWdogExpiry
  show P _
  repeat' first
    | with_reducible assumption
    | intro _
    | with_reducible apply State.act_kept hP
    | with_reducible apply State.wdogExpire_kept hP

theorem execSeqFault_kept (hP : Kept P) {s : State} (hs : P s)  : resKeeps P (execSeqFault s) := by
  unfold execSeqFault
  show P _
  repeat' first
    | with_reducible assumption
    | intro _
    | with_reducible apply State.act_kept hP
    | with_reducible apply State.seqFaultAct_kept hP

theorem execWdogWrite_kept (hP : Kept P) {s : State} (hs : P s) (m : Requester) (w : BitVec 48) : resKeeps P (execWdogWrite m w s) := by
  unfold execWdogWrite
  show P _
  repeat' first
    | with_reducible assumption
    | with_reducible apply State.accessW_kept hP

theorem execHaltReq_kept (hP : Kept P) {s : State} (hs : P s) (m : Requester) (halt : Bool) : resKeeps P (execHaltReq m halt s) := by
  unfold execHaltReq
  show P _
  repeat' first
    | with_reducible assumption
    | with_reducible apply State.accessW_kept hP
    | with_reducible apply State.halt_kept hP

theorem execSeqStep_kept (hP : Kept P) {s : State} (hs : P s) (by_ : Option Requester) (at_ : Instant) (wait : Fin 13) (held : BitVec 10) : resKeeps P (execSeqStep by_ at_ wait held s) := by
  unfold execSeqStep
  show P _
  repeat' first
    | with_reducible assumption
    | intro _
    | with_reducible apply State.act_kept hP
    | with_reducible apply State.seqStep_kept hP
    | with_reducible apply State.stepWrite_kept hP

theorem execSeqDbgAccess_kept (hP : Kept P) {s : State} (hs : P s) (m : Requester) (data : Option (BitVec 48)) : resKeeps P (execSeqDbgAccess m data s) := by
  unfold execSeqDbgAccess
  show P _
  repeat' first
    | with_reducible assumption
    | with_reducible apply State.access_kept hP

theorem execSeqDoorbell_kept (hP : Kept P) {s : State} (hs : P s) (m : Requester) (db : BitVec 16) : resKeeps P (execSeqDoorbell m db s) := by
  unfold execSeqDoorbell
  show P _
  repeat' first
    | with_reducible assumption
    | with_reducible apply State.accessW_kept hP

theorem execPmcCntWrite_kept (hP : Kept P) {s : State} (hs : P s) (m : Requester) (n : Fin 64) (w : BitVec 48) : resKeeps P (execPmcCntWrite m n w s) := by
  unfold execPmcCntWrite
  show P _
  repeat' first
    | with_reducible assumption
    | with_reducible apply State.accessW_kept hP

theorem execClrAll_kept (hP : Kept P) {s : State} (hs : P s) (m : Requester) : resKeeps P (execClrAll m s) := by
  unfold execClrAll
  show P _
  repeat' first
    | with_reducible assumption
    | with_reducible apply State.accessW_kept hP

theorem execSeqTaskWrite_kept (hP : Kept P) {s : State} (hs : P s) (m : Requester) (slot : Fin 32) (w : BitVec 48) : resKeeps P (execSeqTaskWrite m slot w s) := by
  unfold execSeqTaskWrite
  show P _
  repeat' first
    | with_reducible assumption
    | with_reducible apply State.accessW_kept hP

theorem execSetCmdGo_kept (hP : Kept P) {s : State} (hs : P s) (m : Requester) : resKeeps P (execSetCmdGo m s) := by
  unfold execSetCmdGo
  show P _
  repeat' first
    | with_reducible assumption
    | with_reducible apply State.accessW_kept hP

theorem execPing_kept (hP : Kept P) {s : State} (hs : P s) (c : Fin 8) : resKeeps P (execPing c s) := by
  unfold execPing
  show P _
  repeat' first
    | with_reducible assumption
    | intro _
    | with_reducible apply State.act_kept hP
    | with_reducible apply State.cmdPing_kept hP

theorem execRegRead_kept (hP : Kept P) {s : State} (hs : P s) (c : Fin 8) (at_ : Instant) : resKeeps P (execRegRead c at_ s) := by
  unfold execRegRead
  show P _
  repeat' first
    | with_reducible assumption
    | intro _
    | with_reducible apply State.act_kept hP
    | with_reducible apply State.cmdRegRead_kept hP

theorem execSetCommand_kept (hP : Kept P) {s : State} (hs : P s) (c : Fin 8) : resKeeps P (execSetCommand c s) := by
  unfold execSetCommand
  show P _
  repeat' first
    | with_reducible assumption
    | intro _
    | with_reducible apply State.act_kept hP
    | with_reducible apply State.cmdSetRow_kept hP

theorem execModeCommand_kept (hP : Kept P) {s : State} (hs : P s) (c : Fin 8) (before : List (List (BitVec 24 × BitVec 48))) (fwd : BitVec 8) : resKeeps P (execModeCommand c before fwd s) := by
  unfold execModeCommand
  show P _
  repeat' first
    | with_reducible assumption
    | intro _
    | with_reducible apply State.act_kept hP
    | with_reducible apply State.cmdMode_kept hP

theorem execProfileCommand_kept (hP : Kept P) {s : State} (hs : P s) (c : Fin 8) (plan : List (List (BitVec 24 × BitVec 48))) (fwd : BitVec 8) : resKeeps P (execProfileCommand c plan fwd s) := by
  unfold execProfileCommand
  show P _
  repeat' first
    | with_reducible assumption
    | intro _
    | with_reducible apply State.act_kept hP
    | with_reducible apply State.cmdProfile_kept hP

theorem execDpsCommand_kept (hP : Kept P) {s : State} (hs : P s) (c : Fin 8) : resKeeps P (execDpsCommand c s) := by
  unfold execDpsCommand
  show P _
  repeat' first
    | with_reducible assumption
    | intro _
    | with_reducible apply State.act_kept hP
    | with_reducible apply State.cmdDps_kept hP

theorem execLowPowerCommand_kept (hP : Kept P) {s : State} (hs : P s) (c : Fin 8) (request : BitVec 48) (code : BitVec 4) : resKeeps P (execLowPowerCommand c request code s) := by
  unfold execLowPowerCommand
  show P _
  repeat' first
    | with_reducible assumption
    | intro _
    | with_reducible apply State.act_kept hP
    | with_reducible apply State.cmdLowPower_kept hP

theorem execFloatCommand_kept (hP : Kept P) {s : State} (hs : P s) (c : Fin 8) : resKeeps P (execFloatCommand c s) := by
  unfold execFloatCommand
  show P _
  repeat' first
    | with_reducible assumption
    | intro _
    | with_reducible apply State.act_kept hP
    | with_reducible apply State.cmdFloat_kept hP

theorem execTimeCommand_kept (hP : Kept P) {s : State} (hs : P s) (c : Fin 8) : resKeeps P (execTimeCommand c s) := by
  unfold execTimeCommand
  show P _
  repeat' first
    | with_reducible assumption
    | intro _
    | with_reducible apply State.act_kept hP
    | with_reducible apply State.cmdTime_kept hP

theorem execLoopCommand_kept (hP : Kept P) {s : State} (hs : P s) (c : Fin 8) : resKeeps P (execLoopCommand c s) := by
  unfold execLoopCommand
  show P _
  repeat' first
    | with_reducible assumption
    | intro _
    | with_reducible apply State.act_kept hP
    | with_reducible apply State.cmdLoop_kept hP

theorem execCaptureCommand_kept (hP : Kept P) {s : State} (hs : P s) (c : Fin 8) (program : List (BitVec 24 × BitVec 48)) : resKeeps P (execCaptureCommand c program s) := by
  unfold execCaptureCommand
  show P _
  repeat' first
    | with_reducible assumption
    | intro _
    | with_reducible apply State.act_kept hP
    | with_reducible apply State.cmdCapture_kept hP

theorem execImageSwap_kept (hP : Kept P) {s : State} (hs : P s) (c : Fin 8) : resKeeps P (execImageSwap c s) := by
  unfold execImageSwap
  show P _
  repeat' first
    | with_reducible assumption
    | intro _
    | with_reducible apply State.act_kept hP
    | with_reducible apply State.cmdImageSwap_kept hP

theorem execImageInfo_kept (hP : Kept P) {s : State} (hs : P s) (c : Fin 8) : resKeeps P (execImageInfo c s) := by
  unfold execImageInfo
  show P _
  repeat' first
    | with_reducible assumption
    | intro _
    | with_reducible apply State.act_kept hP
    | with_reducible apply State.cmdImageInfo_kept hP

theorem execUnfreeze_kept (hP : Kept P) {s : State} (hs : P s) (c : Fin 8) : resKeeps P (execUnfreeze c s) := by
  unfold execUnfreeze
  show P _
  repeat' first
    | with_reducible assumption
    | intro _
    | with_reducible apply State.act_kept hP
    | with_reducible apply State.cmdUnfreeze_kept hP

theorem execJnlAbort_kept (hP : Kept P) {s : State} (hs : P s) (c : Fin 8) : resKeeps P (execJnlAbort c s) := by
  unfold execJnlAbort
  show P _
  repeat' first
    | with_reducible assumption
    | intro _
    | with_reducible apply State.act_kept hP
    | with_reducible apply State.cmdJnlAbort_kept hP

theorem execUnknownOp_kept (hP : Kept P) {s : State} (hs : P s) (c : Fin 8) : resKeeps P (execUnknownOp c s) := by
  unfold execUnknownOp
  show P _
  repeat' first
    | with_reducible assumption
    | intro _
    | with_reducible apply State.act_kept hP
    | with_reducible apply State.cmdUnknown_kept hP

theorem execImageDefinedCommand_kept (hP : Kept P) {s : State} (hs : P s) (c : Fin 8) (status : BitVec 8) (res1 : BitVec 48) (res2 : BitVec 48) : resKeeps P (execImageDefinedCommand c status res1 res2 s) := by
  unfold execImageDefinedCommand
  show P _
  repeat' first
    | with_reducible assumption
    | intro _
    | with_reducible apply State.act_kept hP
    | with_reducible apply State.cmdImage_kept hP

theorem execJnlOpen_kept (hP : Kept P) {s : State} (hs : P s) (m : Requester) (id : BitVec 16) (fwd : BitVec 8) (nsteps : BitVec 8) : resKeeps P (execJnlOpen m id fwd nsteps s) := by
  unfold execJnlOpen
  show P _
  repeat' first
    | with_reducible assumption
    | with_reducible apply State.accessW_kept hP
    | exact ‹P _›

theorem execJnlStep_kept (hP : Kept P) {s : State} (hs : P s) (m : Requester) : resKeeps P (execJnlStep m s) := by
  unfold execJnlStep
  show P _
  repeat' first
    | with_reducible assumption
    | with_reducible apply State.accessW_kept hP

theorem execJnlOpAbort_kept (hP : Kept P) {s : State} (hs : P s) (m : Requester) : resKeeps P (execJnlOpAbort m s) := by
  unfold execJnlOpAbort
  show P _
  repeat' first
    | with_reducible assumption
    | with_reducible apply State.accessW_kept hP

theorem execJnlDataWrite_kept (hP : Kept P) {s : State} (hs : P s) (m : Requester) (w : BitVec 48) : resKeeps P (execJnlDataWrite m w s) := by
  unfold execJnlDataWrite
  show P _
  repeat' first
    | with_reducible assumption
    | with_reducible apply State.accessW_kept hP

theorem execJnlRoll_kept (hP : Kept P) {s : State} (hs : P s)  : resKeeps P (execJnlRoll s) := by
  unfold execJnlRoll
  show P _
  repeat' first
    | with_reducible assumption
    | intro _
    | with_reducible apply State.act_kept hP
    | with_reducible apply State.jnlRoll_kept hP

theorem execSwapReq_kept (hP : Kept P) {s : State} (hs : P s) (m : Requester) : resKeeps P (execSwapReq m s) := by
  unfold execSwapReq
  show P _
  repeat' first
    | with_reducible assumption
    | with_reducible apply State.accessW_kept hP

theorem execSwapExecute_kept (hP : Kept P) {s : State} (hs : P s)  : resKeeps P (execSwapExecute s) := by
  unfold execSwapExecute
  show P _
  repeat' first
    | with_reducible assumption
    | intro _
    | with_reducible apply State.act_kept hP
    | with_reducible apply State.swapExecute_kept hP

theorem execConfirm_kept (hP : Kept P) {s : State} (hs : P s) (m : Requester) : resKeeps P (execConfirm m s) := by
  unfold execConfirm
  show P _
  repeat' first
    | with_reducible assumption
    | with_reducible apply State.accessW_kept hP

theorem execTrialTimeout_kept (hP : Kept P) {s : State} (hs : P s)  : resKeeps P (execTrialTimeout s) := by
  unfold execTrialTimeout
  show P _
  repeat' first
    | with_reducible assumption
    | intro _
    | (extract_lets +onlyGivenNames x; refine (fun hx => ?_ : P x → _) ?_; clear_value x; rotate_left; subst x; rotate_right)
    | (extract_lets +onlyGivenNames x; refine (fun hx => ?_ : P x.1 → _) ?_; clear_value x; rotate_left; subst x; rotate_right)
    | (extract_lets +onlyGivenNames x; clear_value x)
    | extract_lets +onlyGivenNames x
    | with_reducible apply State.act_kept hP
    | with_reducible apply State.sq_kept hP
    | (apply Kept.of hP
       · dsimp only <;> exact rfl
       · first | exact id | (intro _; simp_all only [shape, shapeStd, List.cons.injEq, upd_length, List.length_set, List.length_map, List.length_range, List.length_replicate, and_true, true_and, and_self]; done)
       iterate 8 (· exact rfl))
    | exact And.intro rfl rfl
    | exact ‹_ ∧ _›

theorem execSensorPublish_kept (hP : Kept P) {s : State} (hs : P s) (temp : Int) (diff : Int) : resKeeps P (execSensorPublish temp diff s) := by
  unfold execSensorPublish
  show P _
  repeat' first
    | with_reducible assumption
    | intro _
    | with_reducible apply whenB_kept
    | with_reducible apply State.commitNow_kept hP
    | with_reducible apply State.publishSensor_kept hP

theorem execThrottleApply_kept (hP : Kept P) {s : State} (hs : P s)  : resKeeps P (execThrottleApply s) := by
  unfold execThrottleApply
  show P _
  repeat' first
    | with_reducible assumption
    | intro _
    | (extract_lets +onlyGivenNames x; refine (fun hx => ?_ : P x → _) ?_; clear_value x; rotate_left; subst x; rotate_right)
    | (extract_lets +onlyGivenNames x; refine (fun hx => ?_ : P x.1 → _) ?_; clear_value x; rotate_left; subst x; rotate_right)
    | (extract_lets +onlyGivenNames x; clear_value x)
    | extract_lets +onlyGivenNames x
    | with_reducible apply State.act_kept hP
    | with_reducible apply State.applyLevel_kept hP
    | with_reducible apply State.st_kept hP
    | (apply Kept.of hP
       · dsimp only <;> exact rfl
       · first | exact id | (intro _; simp_all only [shape, shapeStd, List.cons.injEq, upd_length, List.length_set, List.length_map, List.length_range, List.length_replicate, and_true, true_and, and_self]; done)
       iterate 8 (· exact rfl))

theorem execBandApply_kept (hP : Kept P) {s : State} (hs : P s)  : resKeeps P (execBandApply s) := by
  unfold execBandApply
  show P _
  repeat' first
    | with_reducible assumption
    | intro _
    | (extract_lets +onlyGivenNames x; refine (fun hx => ?_ : P x → _) ?_; clear_value x; rotate_left; subst x; rotate_right)
    | (extract_lets +onlyGivenNames x; refine (fun hx => ?_ : P x.1 → _) ?_; clear_value x; rotate_left; subst x; rotate_right)
    | (extract_lets +onlyGivenNames x; clear_value x)
    | extract_lets +onlyGivenNames x
    | with_reducible apply State.act_kept hP
    | with_reducible apply State.applyBands_kept hP
    | with_reducible apply State.disarm_kept hP
    | with_reducible apply State.st_kept hP
    | (apply Kept.of hP
       · dsimp only <;> exact rfl
       · first | exact id | (intro _; simp_all only [shape, shapeStd, List.cons.injEq, upd_length, List.length_set, List.length_map, List.length_range, List.length_replicate, and_true, true_and, and_self]; done)
       iterate 8 (· exact rfl))

theorem execThermalShutdown_kept (hP : Kept P) {s : State} (hs : P s) (sensor : Fin 12) : resKeeps P (execThermalShutdown sensor s) := by
  unfold execThermalShutdown
  show P _
  repeat' first
    | with_reducible assumption
    | with_reducible apply State.thermalShutdown_kept hP

theorem execThermalRestart_kept (hP : Kept P) {s : State} (hs : P s)  : resKeeps P (execThermalRestart s) := by
  unfold execThermalRestart
  show P _
  repeat' first
    | with_reducible assumption
    | with_reducible apply State.thermalRestart_kept hP

theorem execFcalStart_kept (hP : Kept P) {s : State} (hs : P s) (sl : Fin 8) : resKeeps P (execFcalStart sl s) := by
  unfold execFcalStart
  show P _
  repeat' first
    | with_reducible assumption
    | intro _
    | with_reducible apply State.act_kept hP
    | with_reducible apply State.disarm_kept hP
    | with_reducible apply State.fcalStart_kept hP

theorem execFcalDone_kept (hP : Kept P) {s : State} (hs : P s) (sl : Fin 9) (first : CalMeas) (again : CalMeas) : resKeeps P (execFcalDone sl first again s) := by
  unfold execFcalDone
  show P _
  repeat' first
    | with_reducible assumption
    | intro _
    | with_reducible apply State.act_kept hP
    | with_reducible apply State.fcalDone_kept hP

theorem execMonOutput_kept (hP : Kept P) {s : State} (hs : P s) (_c : Fin 4) (m : Span) : resKeeps P (execMonOutput _c m s) := by
  unfold execMonOutput
  show P _
  repeat' first
    | with_reducible assumption
    | intro _
    | with_reducible apply State.act_kept hP
    | with_reducible apply State.flow_kept hP

theorem execMonMixWrite_kept (hP : Kept P) {s : State} (hs : P s) (m : Requester) (c : Fin 4) (w : BitVec 48) : resKeeps P (execMonMixWrite m c w s) := by
  unfold execMonMixWrite
  show P _
  repeat' first
    | with_reducible assumption
    | with_reducible apply State.accessW_kept hP

theorem execHkaConversion_kept (hP : Kept P) {s : State} (hs : P s) (v : BitVec 32) (aref : BitVec 32) : resKeeps P (execHkaConversion v aref s) := by
  unfold execHkaConversion
  show P _
  repeat' first
    | with_reducible assumption
    | intro _
    | with_reducible apply State.act_kept hP
    | with_reducible apply State.hkaConvert_kept hP

theorem execTrowelUpdate_kept (hP : Kept P) {s : State} (hs : P s) (m : Fin 16) : resKeeps P (execTrowelUpdate m s) := by
  unfold execTrowelUpdate
  show P _
  repeat' first
    | with_reducible assumption
    | intro _
    | with_reducible apply State.act_kept hP
    | with_reducible apply State.loopUpdate_kept hP

theorem execTrwAutoRun_kept (hP : Kept P) {s : State} (hs : P s) (m : Fin 16) : resKeeps P (execTrwAutoRun m s) := by
  unfold execTrwAutoRun
  show P _
  repeat' first
    | with_reducible assumption
    | intro _
    | with_reducible apply State.act_kept hP
    | with_reducible apply State.autoApply_kept hP

theorem execTrwAutoRecovery_kept (hP : Kept P) {s : State} (hs : P s) (m : Fin 16) : resKeeps P (execTrwAutoRecovery m s) := by
  unfold execTrwAutoRecovery
  show P _
  repeat' first
    | with_reducible assumption
    | intro _
    | with_reducible apply State.act_kept hP
    | with_reducible apply State.autoApply_kept hP

theorem execDitherHalf_kept (hP : Kept P) {s : State} (hs : P s) (m : Fin 16) : resKeeps P (execDitherHalf m s) := by
  unfold execDitherHalf
  show P _
  repeat' first
    | with_reducible assumption
    | intro _
    | with_reducible apply State.act_kept hP
    | with_reducible apply State.ditherHalf_kept hP

theorem execTrwCmdOff_kept (hP : Kept P) {s : State} (hs : P s) (m : Fin 16) : resKeeps P (execTrwCmdOff m s) := by
  unfold execTrwCmdOff
  show P _
  repeat' first
    | with_reducible assumption
    | intro _
    | with_reducible apply State.act_kept hP
    | with_reducible apply State.loopCommand_kept hP

theorem execTrwCmdStartup_kept (hP : Kept P) {s : State} (hs : P s) (m : Fin 16) : resKeeps P (execTrwCmdStartup m s) := by
  unfold execTrwCmdStartup
  show P _
  repeat' first
    | with_reducible assumption
    | intro _
    | with_reducible apply State.act_kept hP
    | with_reducible apply State.loopCommand_kept hP

theorem execTrwCmdRun_kept (hP : Kept P) {s : State} (hs : P s) (m : Fin 16) : resKeeps P (execTrwCmdRun m s) := by
  unfold execTrwCmdRun
  show P _
  repeat' first
    | with_reducible assumption
    | intro _
    | with_reducible apply State.act_kept hP
    | with_reducible apply State.loopCommand_kept hP

theorem execTrwCmdTest_kept (hP : Kept P) {s : State} (hs : P s) (m : Fin 16) : resKeeps P (execTrwCmdTest m s) := by
  unfold execTrwCmdTest
  show P _
  repeat' first
    | with_reducible assumption
    | intro _
    | with_reducible apply State.act_kept hP
    | with_reducible apply State.loopCommand_kept hP

theorem execTrwCmdRecovery_kept (hP : Kept P) {s : State} (hs : P s) (m : Fin 16) : resKeeps P (execTrwCmdRecovery m s) := by
  unfold execTrwCmdRecovery
  show P _
  repeat' first
    | with_reducible assumption
    | intro _
    | with_reducible apply State.act_kept hP
    | with_reducible apply State.loopCommand_kept hP

theorem execStipNone_kept (hP : Kept P) {s : State} (hs : P s) (m : Fin 16) : resKeeps P (execStipNone m s) := by
  unfold execStipNone
  show P _
  repeat' first
    | with_reducible assumption
    | intro _
    | with_reducible apply State.act_kept hP
    | with_reducible apply State.stipNone_kept hP

theorem execStipSine_kept (hP : Kept P) {s : State} (hs : P s) (m : Fin 16) : resKeeps P (execStipSine m s) := by
  unfold execStipSine
  show P _
  repeat' first
    | with_reducible assumption
    | intro _
    | with_reducible apply State.act_kept hP
    | with_reducible apply State.stipStart_kept hP

theorem execStipSquare_kept (hP : Kept P) {s : State} (hs : P s) (m : Fin 16) : resKeeps P (execStipSquare m s) := by
  unfold execStipSquare
  show P _
  repeat' first
    | with_reducible assumption
    | intro _
    | with_reducible apply State.act_kept hP
    | with_reducible apply State.stipStart_kept hP

theorem execStipPrbs_kept (hP : Kept P) {s : State} (hs : P s) (m : Fin 16) : resKeeps P (execStipPrbs m s) := by
  unfold execStipPrbs
  show P _
  repeat' first
    | with_reducible assumption
    | intro _
    | with_reducible apply State.act_kept hP
    | with_reducible apply State.stipStart_kept hP

theorem execStipSwept_kept (hP : Kept P) {s : State} (hs : P s) (m : Fin 16) : resKeeps P (execStipSwept m s) := by
  unfold execStipSwept
  show P _
  repeat' first
    | with_reducible assumption
    | intro _
    | with_reducible apply State.act_kept hP
    | with_reducible apply State.stipStart_kept hP

theorem execStipDone_kept (hP : Kept P) {s : State} (hs : P s) (m : Fin 16) : resKeeps P (execStipDone m s) := by
  unfold execStipDone
  show P _
  repeat' first
    | with_reducible assumption
    | intro _
    | with_reducible apply State.act_kept hP
    | with_reducible apply State.stipDone_kept hP

theorem execCapNone_kept (hP : Kept P) {s : State} (hs : P s)  : resKeeps P (execCapNone s) := by
  unfold execCapNone
  show P _
  repeat' first
    | with_reducible assumption
    | intro _
    | with_reducible apply State.capRow_kept hP
    | exact ‹P _›

theorem execCapArm_kept (hP : Kept P) {s : State} (hs : P s)  : resKeeps P (execCapArm s) := by
  unfold execCapArm
  show P _
  repeat' first
    | with_reducible assumption
    | intro _
    | with_reducible apply State.capArm_kept hP
    | with_reducible apply State.capRow_kept hP

theorem execCapDisarm_kept (hP : Kept P) {s : State} (hs : P s)  : resKeeps P (execCapDisarm s) := by
  unfold execCapDisarm
  show P _
  repeat' first
    | with_reducible assumption
    | intro _
    | with_reducible apply State.capAbort_kept hP
    | with_reducible apply State.capRow_kept hP

theorem execCapRelease_kept (hP : Kept P) {s : State} (hs : P s)  : resKeeps P (execCapRelease s) := by
  unfold execCapRelease
  show P _
  repeat' first
    | with_reducible assumption
    | intro _
    | with_reducible apply State.capRelease_kept hP
    | with_reducible apply State.capRow_kept hP

theorem execCapForce_kept (hP : Kept P) {s : State} (hs : P s)  : resKeeps P (execCapForce s) := by
  unfold execCapForce
  show P _
  repeat' first
    | with_reducible assumption
    | intro _
    | with_reducible apply State.capEv_kept hP
    | with_reducible apply State.capRow_kept hP

theorem execCapSched_kept (hP : Kept P) {s : State} (hs : P s)  : resKeeps P (execCapSched s) := by
  unfold execCapSched
  show P _
  repeat' first
    | with_reducible assumption
    | intro _
    | with_reducible apply State.capRow_kept hP
    | with_reducible apply State.capSched_kept hP

theorem execStencilCountLimit_kept (hP : Kept P) {s : State} (hs : P s) (m : Span) : resKeeps P (execStencilCountLimit m s) := by
  unfold execStencilCountLimit
  show P _
  repeat' first
    | with_reducible assumption
    | intro _
    | with_reducible apply State.act_kept hP
    | with_reducible apply State.flow_kept hP

theorem execStencilTimeout_kept (hP : Kept P) {s : State} (hs : P s) (m : Span) : resKeeps P (execStencilTimeout m s) := by
  unfold execStencilTimeout
  show P _
  repeat' first
    | with_reducible assumption
    | intro _
    | with_reducible apply State.act_kept hP
    | with_reducible apply State.flow_kept hP

theorem execPrefillComplete_kept (hP : Kept P) {s : State} (hs : P s) (m : Span) : resKeeps P (execPrefillComplete m s) := by
  unfold execPrefillComplete
  show P _
  repeat' first
    | with_reducible assumption
    | intro _
    | with_reducible apply State.act_kept hP
    | with_reducible apply State.flow_kept hP

theorem execPendingTriggerCycle_kept (hP : Kept P) {s : State} (hs : P s) (m : Span) : resKeeps P (execPendingTriggerCycle m s) := by
  unfold execPendingTriggerCycle
  show P _
  repeat' first
    | with_reducible assumption
    | intro _
    | with_reducible apply State.act_kept hP
    | with_reducible apply State.flow_kept hP

theorem execScheduleFire_kept (hP : Kept P) {s : State} (hs : P s) (at_ : Instant) : resKeeps P (execScheduleFire at_ s) := by
  unfold execScheduleFire
  show P _
  repeat' first
    | with_reducible assumption
    | intro _
    | with_reducible apply State.act_kept hP
    | with_reducible apply State.schedFire_kept hP

theorem execCaptureComplete_kept (hP : Kept P) {s : State} (hs : P s) (m : Span) : resKeeps P (execCaptureComplete m s) := by
  unfold execCaptureComplete
  show P _
  repeat' first
    | with_reducible assumption
    | intro _
    | with_reducible apply State.act_kept hP
    | with_reducible apply State.flow_kept hP

theorem execCaptureRearm_kept (hP : Kept P) {s : State} (hs : P s)  : resKeeps P (execCaptureRearm s) := by
  unfold execCaptureRearm
  show P _
  repeat' first
    | with_reducible assumption
    | intro _
    | with_reducible apply State.act_kept hP
    | with_reducible apply State.capRearm_kept hP

theorem execReferenceQualify_kept (hP : Kept P) {s : State} (hs : P s) (r : Fin 2) : resKeeps P (execReferenceQualify r s) := by
  unfold execReferenceQualify
  show P _
  repeat' first
    | with_reducible assumption
    | with_reducible apply State.refQualify_kept hP

theorem execRefLoss_kept (hP : Kept P) {s : State} (hs : P s) (r : Fin 4) : resKeeps P (execRefLoss r s) := by
  unfold execRefLoss
  show P _
  repeat' first
    | with_reducible assumption
    | with_reducible apply State.refLoss_kept hP

theorem execCoast_kept (hP : Kept P) {s : State} (hs : P s) (p : Fin 5) : resKeeps P (execCoast p s) := by
  unfold execCoast
  show P _
  repeat' first
    | with_reducible assumption
    | with_reducible apply State.coast_kept hP

theorem execPllLock_kept (hP : Kept P) {s : State} (hs : P s) (p : Fin 5) : resKeeps P (execPllLock p s) := by
  unfold execPllLock
  show P _
  repeat' first
    | with_reducible assumption
    | with_reducible apply State.pllLock_kept hP

theorem execForcedSw_kept (hP : Kept P) {s : State} (hs : P s) (mux : Fin 9) : resKeeps P (execForcedSw mux s) := by
  unfold execForcedSw
  show P _
  repeat' first
    | with_reducible assumption
    | with_reducible apply State.forcedSwitch_kept hP

theorem execRstNone_kept (hP : Kept P) {s : State} (hs : P s) (m : Requester) (w : BitVec 48) : resKeeps P (execRstNone m w s) := by
  unfold execRstNone
  show P _
  repeat' first
    | with_reducible assumption
    | with_reducible apply State.accessW_kept hP

theorem execWarmReset_kept (hP : Kept P) {s : State} (hs : P s) (m : Requester) : resKeeps P (execWarmReset m s) := by
  unfold execWarmReset
  show P _
  repeat' first
    | with_reducible assumption
    | with_reducible apply State.accessW_kept hP

theorem execFullReset_kept (hP : Kept P) {s : State} (hs : P s) (m : Requester) : resKeeps P (execFullReset m s) := by
  unfold execFullReset
  show P _
  repeat' first
    | with_reducible assumption
    | with_reducible apply State.accessW_kept hP

theorem execPinReset_kept (hP : Kept P) {s : State} (hs : P s) (ns : BitVec 32) : resKeeps P (execPinReset ns s) := by
  unfold execPinReset
  show P _
  repeat' first
    | with_reducible assumption
    | with_reducible apply State.pinReset_kept hP

theorem execPor_kept (hP : Kept P) {s : State} (hs : P s)  : resKeeps P (execPor s) := by
  unfold execPor
  show P _
  repeat' first
    | with_reducible assumption
    | with_reducible apply State.resetSelf_kept hP

theorem execPwrNone_kept (hP : Kept P) {s : State} (hs : P s) (m : Requester) : resKeeps P (execPwrNone m s) := by
  unfold execPwrNone
  show P _
  repeat' first
    | with_reducible assumption
    | with_reducible apply State.accessW_kept hP

theorem execDomOn_kept (hP : Kept P) {s : State} (hs : P s) (m : Requester) (first : BitVec 6) (count : BitVec 6) : resKeeps P (execDomOn m first count s) := by
  unfold execDomOn
  show P _
  repeat' first
    | with_reducible assumption
    | with_reducible apply State.accessW_kept hP

theorem execDomOff_kept (hP : Kept P) {s : State} (hs : P s) (m : Requester) (first : BitVec 6) (count : BitVec 6) : resKeeps P (execDomOff m first count s) := by
  unfold execDomOff
  show P _
  repeat' first
    | with_reducible assumption
    | with_reducible apply State.accessW_kept hP

theorem execPwrState_kept (hP : Kept P) {s : State} (hs : P s) (m : Requester) (st : BitVec 3) : resKeeps P (execPwrState m st s) := by
  unfold execPwrState
  show P _
  repeat' first
    | with_reducible assumption
    | with_reducible apply State.accessW_kept hP
    | with_reducible apply State.st_kept hP

theorem execPwrRequestStart_kept (hP : Kept P) {s : State} (hs : P s)  : resKeeps P (execPwrRequestStart s) := by
  unfold execPwrRequestStart
  show P _
  repeat' first
    | with_reducible assumption
    | intro _
    | with_reducible apply whenB_kept
    | with_reducible apply State.pwrStart_kept hP

theorem execDomainSwitch_kept (hP : Kept P) {s : State} (hs : P s)  : resKeeps P (execDomainSwitch s) := by
  unfold execDomainSwitch
  show P _
  repeat' first
    | with_reducible assumption
    | intro _
    | with_reducible apply whenB_kept
    | with_reducible apply State.domainSwitch_kept hP

theorem execPowerGoodTimeout_kept (hP : Kept P) {s : State} (hs : P s)  : resKeeps P (execPowerGoodTimeout s) := by
  unfold execPowerGoodTimeout
  show P _
  repeat' first
    | with_reducible assumption
    | intro _
    | with_reducible apply whenB_kept
    | with_reducible apply State.powerGoodTimeout_kept hP

theorem execPwrRequestDone_kept (hP : Kept P) {s : State} (hs : P s)  : resKeeps P (execPwrRequestDone s) := by
  unfold execPwrRequestDone
  show P _
  repeat' first
    | with_reducible assumption
    | intro _
    | with_reducible apply whenB_kept
    | with_reducible apply State.pwrDone_kept hP

theorem execPointOfNoReturn_kept (hP : Kept P) {s : State} (hs : P s)  : resKeeps P (execPointOfNoReturn s) := by
  unfold execPointOfNoReturn
  show P _
  repeat' first
    | with_reducible assumption
    | intro _
    | with_reducible apply whenB_kept
    | with_reducible apply State.noReturn_kept hP

theorem execWake_kept (hP : Kept P) {s : State} (hs : P s) (src : BitVec 3) : resKeeps P (execWake src s) := by
  unfold execWake
  show P _
  repeat' first
    | with_reducible assumption
    | intro _
    | with_reducible apply whenB_kept
    | with_reducible apply State.wakeBy_kept hP

theorem execWakeTimer_kept (hP : Kept P) {s : State} (hs : P s)  : resKeeps P (execWakeTimer s) := by
  unfold execWakeTimer
  show P _
  repeat' first
    | with_reducible assumption
    | intro _
    | with_reducible apply whenB_kept
    | with_reducible apply State.wakeBy_kept hP

theorem execWakeRetry_kept (hP : Kept P) {s : State} (hs : P s) (cause : Fin 3) : resKeeps P (execWakeRetry cause s) := by
  unfold execWakeRetry
  show P _
  repeat' first
    | with_reducible assumption
    | with_reducible apply State.wakeRetry_kept hP

theorem execBrownout_kept (hP : Kept P) {s : State} (hs : P s)  : resKeeps P (execBrownout s) := by
  unfold execBrownout
  show P _
  repeat' first
    | with_reducible assumption
    | with_reducible apply State.brownout_kept hP

theorem execSupWarn_kept (hP : Kept P) {s : State} (hs : P s) (rail : Fin 7) : resKeeps P (execSupWarn rail s) := by
  unfold execSupWarn
  show P _
  repeat' first
    | with_reducible assumption
    | with_reducible apply State.supWarn_kept hP

theorem execSupplyWarningClear_kept (hP : Kept P) {s : State} (hs : P s) (rail : Fin 7) : resKeeps P (execSupplyWarningClear rail s) := by
  unfold execSupplyWarningClear
  show P _
  repeat' first
    | with_reducible assumption
    | with_reducible apply State.supClear_kept hP

theorem execSupReset_kept (hP : Kept P) {s : State} (hs : P s) (rail : Fin 7) : resKeeps P (execSupReset rail s) := by
  unfold execSupReset
  show P _
  repeat' first
    | with_reducible assumption
    | with_reducible apply State.supReset_kept hP

theorem execScrubVisit_kept (hP : Kept P) {s : State} (hs : P s)  : resKeeps P (execScrubVisit s) := by
  unfold execScrubVisit
  show P _
  repeat' first
    | with_reducible assumption
    | intro _
    | with_reducible apply State.act_kept hP
    | with_reducible apply State.scrubVisit_kept hP

theorem execTstNone_kept (hP : Kept P) {s : State} (hs : P s) (m : Requester) (mem : BitVec 4) : resKeeps P (execTstNone m mem s) := by
  unfold execTstNone
  show P _
  repeat' first
    | with_reducible assumption
    | with_reducible apply State.accessW_kept hP

theorem execReadRaw_kept (hP : Kept P) {s : State} (hs : P s) (m : Requester) (mem : BitVec 4) : resKeeps P (execReadRaw m mem s) := by
  unfold execReadRaw
  show P _
  repeat' first
    | with_reducible assumption
    | with_reducible apply State.accessW_kept hP

theorem execWriteData_kept (hP : Kept P) {s : State} (hs : P s) (m : Requester) (mem : BitVec 4) : resKeeps P (execWriteData m mem s) := by
  unfold execWriteData
  show P _
  repeat' first
    | with_reducible assumption
    | with_reducible apply State.accessW_kept hP

theorem execWriteCheck_kept (hP : Kept P) {s : State} (hs : P s) (m : Requester) (mem : BitVec 4) : resKeeps P (execWriteCheck m mem s) := by
  unfold execWriteCheck
  show P _
  repeat' first
    | with_reducible assumption
    | with_reducible apply State.accessW_kept hP

theorem execWriteBoth_kept (hP : Kept P) {s : State} (hs : P s) (m : Requester) (mem : BitVec 4) : resKeeps P (execWriteBoth m mem s) := by
  unfold execWriteBoth
  show P _
  repeat' first
    | with_reducible assumption
    | with_reducible apply State.accessW_kept hP

theorem execMemLogPop_kept (hP : Kept P) {s : State} (hs : P s) (m : Requester) : resKeeps P (execMemLogPop m s) := by
  unfold execMemLogPop
  show P _
  repeat' first
    | with_reducible assumption
    | with_reducible apply State.accessW_kept hP

theorem execMemLock_kept (hP : Kept P) {s : State} (hs : P s) (m : Requester) (w : BitVec 48) : resKeeps P (execMemLock m w s) := by
  unfold execMemLock
  show P _
  repeat' first
    | with_reducible assumption
    | with_reducible apply State.accessW_kept hP

theorem execRelease_kept (hP : Kept P) {s : State} (hs : P s) (m : Requester) (w : BitVec 48) : resKeeps P (execRelease m w s) := by
  unfold execRelease
  show P _
  repeat' first
    | with_reducible assumption
    | with_reducible apply State.accessW_kept hP

theorem execPowerupSelfTest_kept (hP : Kept P) {s : State} (hs : P s) (slice : Fin 10) (r : SelfTest) : resKeeps P (execPowerupSelfTest slice r s) := by
  unfold execPowerupSelfTest
  show P _
  repeat' first
    | with_reducible assumption
    | with_reducible apply State.selfTest_kept hP

theorem execSelfTestEnd_kept (hP : Kept P) {s : State} (hs : P s) (us : BitVec 20) : resKeeps P (execSelfTestEnd us s) := by
  unfold execSelfTestEnd
  show P _
  repeat' first
    | with_reducible assumption
    | intro _
    | with_reducible apply whenB_kept
    | with_reducible apply State.selfTestEnd_kept hP

theorem execIsMemory_kept (hP : Kept P) {s : State} (hs : P s)  : resKeeps P (execIsMemory s) := by
  unfold execIsMemory
  show P _
  repeat' first
    | with_reducible assumption
    | intro _
    | with_reducible apply State.act_kept hP
    | with_reducible apply State.isStart_kept hP

theorem execIsLogic_kept (hP : Kept P) {s : State} (hs : P s) (idle : Bool) : resKeeps P (execIsLogic idle s) := by
  unfold execIsLogic
  show P _
  repeat' first
    | with_reducible assumption
    | intro _
    | with_reducible apply State.act_kept hP
    | with_reducible apply State.isStart_kept hP

theorem execIsSlice_kept (hP : Kept P) {s : State} (hs : P s)  : resKeeps P (execIsSlice s) := by
  unfold execIsSlice
  show P _
  repeat' first
    | with_reducible assumption
    | intro _
    | with_reducible apply State.act_kept hP
    | with_reducible apply State.isStart_kept hP

theorem execIsSliceEnd_kept (hP : Kept P) {s : State} (hs : P s) (fail : Bool) (addr : BitVec 24) (last : Bool) (res : List Int) : resKeeps P (execIsSliceEnd fail addr last res s) := by
  unfold execIsSliceEnd
  show P _
  repeat' first
    | with_reducible assumption
    | intro _
    | with_reducible apply State.act_kept hP
    | with_reducible apply State.isSliceEnd_kept hP

theorem execLcsMove_kept (hP : Kept P) {s : State} (hs : P s) (m : Requester) (w : BitVec 48) : resKeeps P (execLcsMove m w s) := by
  unfold execLcsMove
  show P _
  repeat' first
    | with_reducible assumption
    | with_reducible apply State.accessW_kept hP

theorem execScanEnable_kept (hP : Kept P) {s : State} (hs : P s)  : resKeeps P (execScanEnable s) := by
  unfold execScanEnable
  show P _
  repeat' first
    | with_reducible assumption
    | with_reducible apply State.scanEnable_kept hP

theorem execLoadBegin_kept (hP : Kept P) {s : State} (hs : P s) (m : Requester) (slotB : Bool) : resKeeps P (execLoadBegin m slotB s) := by
  unfold execLoadBegin
  show P _
  repeat' first
    | with_reducible assumption
    | with_reducible apply State.accessW_kept hP

theorem execLoadVerify_kept (hP : Kept P) {s : State} (hs : P s) (m : Requester) (slotB : Bool) : resKeeps P (execLoadVerify m slotB s) := by
  unfold execLoadVerify
  show P _
  repeat' first
    | with_reducible assumption
    | with_reducible apply State.accessW_kept hP

theorem execSecLoadDataWrite_kept (hP : Kept P) {s : State} (hs : P s) (m : Requester) (w : BitVec 48) : resKeeps P (execSecLoadDataWrite m w s) := by
  unfold execSecLoadDataWrite
  show P _
  repeat' first
    | with_reducible assumption
    | with_reducible apply State.accessW_kept hP

theorem execImageVerifyDone_kept (hP : Kept P) {s : State} (hs : P s)  : resKeeps P (execImageVerifyDone s) := by
  unfold execImageVerifyDone
  show P _
  repeat' first
    | with_reducible assumption
    | intro _
    | with_reducible apply State.act_kept hP
    | with_reducible apply State.verifyDone_kept hP

theorem execBoot_kept (hP : Kept P) {s : State} (hs : P s) (words : List (BitVec 48)) : resKeeps P (execBoot words s) := by
  unfold execBoot
  show P _
  repeat' first
    | with_reducible assumption
    | with_reducible apply State.bootRead_kept hP

theorem execScrimBootTimeout_kept (hP : Kept P) {s : State} (hs : P s)  : resKeeps P (execScrimBootTimeout s) := by
  unfold execScrimBootTimeout
  show P _
  repeat' first
    | with_reducible assumption
    | intro _
    | with_reducible apply State.act_kept hP
    | with_reducible apply State.bootTimeout_kept hP

theorem execSecArbAdv_kept (hP : Kept P) {s : State} (hs : P s) (m : Requester) (w : BitVec 48) : resKeeps P (execSecArbAdv m w s) := by
  unfold execSecArbAdv
  show P _
  repeat' first
    | with_reducible assumption
    | with_reducible apply State.accessW_kept hP

theorem execSecRevoke_kept (hP : Kept P) {s : State} (hs : P s) (m : Requester) (w : BitVec 48) : resKeeps P (execSecRevoke m w s) := by
  unfold execSecRevoke
  show P _
  repeat' first
    | with_reducible assumption
    | with_reducible apply State.accessW_kept hP

theorem execAttGo_kept (hP : Kept P) {s : State} (hs : P s) (m : Requester) : resKeeps P (execAttGo m s) := by
  unfold execAttGo
  show P _
  repeat' first
    | with_reducible assumption
    | with_reducible apply State.accessW_kept hP

theorem execAttestationDone_kept (hP : Kept P) {s : State} (hs : P s)  : resKeeps P (execAttestationDone s) := by
  unfold execAttestationDone
  show P _
  repeat' first
    | with_reducible assumption
    | intro _
    | with_reducible apply State.act_kept hP
    | with_reducible apply State.attDone_kept hP

theorem execSpiRead_kept (hP : Kept P) {s : State} (hs : P s) (a : BitVec 24) (at_ : Instant) : resKeeps P (execSpiRead a at_ s) := by
  unfold execSpiRead
  show P _
  repeat' first
    | with_reducible assumption
    | intro _
    | with_reducible apply State.spiRead_kept hP
    | with_reducible apply State.spiRow_kept hP

theorem execSpiWrite_kept (hP : Kept P) {s : State} (hs : P s) (a : BitVec 24) (w : BitVec 48) : resKeeps P (execSpiWrite a w s) := by
  unfold execSpiWrite
  show P _
  repeat' first
    | with_reducible assumption
    | intro _
    | with_reducible apply State.spiRow_kept hP
    | with_reducible apply State.spiWrite_kept hP

theorem execSpiMalformedFrame_kept (hP : Kept P) {s : State} (hs : P s) (octets : List Byte) (at_ : Instant) : resKeeps P (execSpiMalformedFrame octets at_ s) := by
  unfold execSpiMalformedFrame
  show P _
  repeat' first
    | with_reducible assumption
    | intro _
    | with_reducible apply State.spiFrame_kept hP
    | with_reducible apply State.spiRow_kept hP

theorem execI3cPrivateWrite_kept (hP : Kept P) {s : State} (hs : P s) (target : BitVec 7) (data : List Byte) (err : Bool) : resKeeps P (execI3cPrivateWrite target data err s) := by
  unfold execI3cPrivateWrite
  show P _
  repeat' first
    | with_reducible assumption
    | with_reducible apply State.i3cWrite_kept hP

theorem execI3cPrivateRead_kept (hP : Kept P) {s : State} (hs : P s) (target : BitVec 7) (octets : BitVec 16) (at_ : Instant) : resKeeps P (execI3cPrivateRead target octets at_ s) := by
  unfold execI3cPrivateRead
  show P _
  repeat' first
    | with_reducible assumption
    | with_reducible apply State.i3cRead_kept hP

theorem execEntdaa_kept (hP : Kept P) {s : State} (hs : P s) (won : Bool) (da : BitVec 7) : resKeeps P (execEntdaa won da s) := by
  unfold execEntdaa
  show P _
  repeat' first
    | with_reducible assumption
    | intro _
    | with_reducible apply whenB_kept
    | with_reducible apply State.i3cAssign_kept hP

theorem execSetdasa_kept (hP : Kept P) {s : State} (hs : P s) (target : BitVec 7) (da : BitVec 7) : resKeeps P (execSetdasa target da s) := by
  unfold execSetdasa
  show P _
  repeat' first
    | with_reducible assumption
    | intro _
    | with_reducible apply whenB_kept
    | with_reducible apply State.i3cAssign_kept hP

theorem execSetnewda_kept (hP : Kept P) {s : State} (hs : P s) (target : BitVec 7) (da : BitVec 7) : resKeeps P (execSetnewda target da s) := by
  unfold execSetnewda
  show P _
  repeat' first
    | with_reducible assumption
    | intro _
    | with_reducible apply whenB_kept
    | with_reducible apply State.i3cAssign_kept hP

theorem execRstdaa_kept (hP : Kept P) {s : State} (hs : P s)  : resKeeps P (execRstdaa s) := by
  unfold execRstdaa
  show P _
  repeat' first
    | with_reducible assumption
    | intro _
    | with_reducible apply whenB_kept
    | with_reducible apply State.put_kept hP

theorem execEnec_kept (hP : Kept P) {s : State} (hs : P s)  : resKeeps P (execEnec s) := by
  unfold execEnec
  show P _
  repeat' first
    | with_reducible assumption
    | intro _
    | with_reducible apply whenB_kept
    | with_reducible apply State.put_kept hP

theorem execDisec_kept (hP : Kept P) {s : State} (hs : P s)  : resKeeps P (execDisec s) := by
  unfold execDisec
  show P _
  repeat' first
    | with_reducible assumption
    | intro _
    | with_reducible apply whenB_kept
    | with_reducible apply State.put_kept hP

theorem execGetpid_kept (hP : Kept P) {s : State} (hs : P s) (target : BitVec 7) : resKeeps P (execGetpid target s) := by
  unfold execGetpid
  show P _
  repeat' first
    | with_reducible assumption
    | with_reducible apply State.i3cAnswer_kept hP

theorem execGetbcr_kept (hP : Kept P) {s : State} (hs : P s) (target : BitVec 7) : resKeeps P (execGetbcr target s) := by
  unfold execGetbcr
  show P _
  repeat' first
    | with_reducible assumption
    | with_reducible apply State.i3cAnswer_kept hP

theorem execGetdcr_kept (hP : Kept P) {s : State} (hs : P s) (target : BitVec 7) : resKeeps P (execGetdcr target s) := by
  unfold execGetdcr
  show P _
  repeat' first
    | with_reducible assumption
    | with_reducible apply State.i3cAnswer_kept hP

theorem execGetstatus_kept (hP : Kept P) {s : State} (hs : P s) (target : BitVec 7) : resKeeps P (execGetstatus target s) := by
  unfold execGetstatus
  show P _
  repeat' first
    | with_reducible assumption
    | with_reducible apply State.i3cAnswer_kept hP
    | with_reducible apply State.useFree_kept hP

theorem execIbiRequest_kept (hP : Kept P) {s : State} (hs : P s) (acked : Bool) : resKeeps P (execIbiRequest acked s) := by
  unfold execIbiRequest
  show P _
  repeat' first
    | with_reducible assumption
    | with_reducible apply State.ibiRequest_kept hP

theorem execExtest_kept (hP : Kept P) {s : State} (hs : P s) (cells : List Bool) : resKeeps P (execExtest cells s) := by
  unfold execExtest
  show P _
  repeat' first
    | with_reducible assumption
    | with_reducible apply State.jtagBoundary_kept hP

theorem execIdcode_kept (hP : Kept P) {s : State} (hs : P s)  : resKeeps P (execIdcode s) := by
  unfold execIdcode
  show P _
  repeat' first
    | with_reducible assumption
    | with_reducible apply State.jtagSelect_kept hP

theorem execSamplePreload_kept (hP : Kept P) {s : State} (hs : P s) (cells : List Bool) : resKeeps P (execSamplePreload cells s) := by
  unfold execSamplePreload
  show P _
  repeat' first
    | with_reducible assumption
    | with_reducible apply State.jtagBoundary_kept hP

theorem execClamp_kept (hP : Kept P) {s : State} (hs : P s)  : resKeeps P (execClamp s) := by
  unfold execClamp
  show P _
  repeat' first
    | with_reducible assumption
    | with_reducible apply State.jtagSelect_kept hP

theorem execHighz_kept (hP : Kept P) {s : State} (hs : P s)  : resKeeps P (execHighz s) := by
  unfold execHighz
  show P _
  repeat' first
    | with_reducible assumption
    | with_reducible apply State.jtagSelect_kept hP

theorem execExtestPulse_kept (hP : Kept P) {s : State} (hs : P s) (cells : List Bool) : resKeeps P (execExtestPulse cells s) := by
  unfold execExtestPulse
  show P _
  repeat' first
    | with_reducible assumption
    | with_reducible apply State.jtagBoundary_kept hP

theorem execExtestTrain_kept (hP : Kept P) {s : State} (hs : P s) (cells : List Bool) : resKeeps P (execExtestTrain cells s) := by
  unfold execExtestTrain
  show P _
  repeat' first
    | with_reducible assumption
    | with_reducible apply State.jtagBoundary_kept hP

theorem execBypass_kept (hP : Kept P) {s : State} (hs : P s) (code : Byte) : resKeeps P (execBypass code s) := by
  unfold execBypass
  show P _
  repeat' first
    | with_reducible assumption
    | with_reducible apply State.jtagSelect_kept hP

theorem execRegAccess_kept (hP : Kept P) {s : State} (hs : P s) (dr : BitVec 88) (at_ : Instant) : resKeeps P (execRegAccess dr at_ s) := by
  unfold execRegAccess
  show P _
  repeat' first
    | with_reducible assumption
    | with_reducible apply State.jtagAccess_kept hP

theorem execRcRead_kept (hP : Kept P) {s : State} (hs : P s) (m : Requester) (a : BitVec 24) (at_ : Instant) : resKeeps P (execRcRead m a at_ s) := by
  unfold execRcRead
  show P _
  repeat' first
    | with_reducible assumption
    | with_reducible apply State.access_kept hP

theorem execSnRead_kept (hP : Kept P) {s : State} (hs : P s) (m : Requester) (a : BitVec 24) (at_ : Instant) : resKeeps P (execSnRead m a at_ s) := by
  unfold execSnRead
  show P _
  repeat' first
    | with_reducible assumption
    | with_reducible apply State.access_kept hP

theorem execRegisterWrite_kept (hP : Kept P) {s : State} (hs : P s) (m : Requester) (a : BitVec 24) (w : BitVec 48) : resKeeps P (execRegisterWrite m a w s) := by
  unfold execRegisterWrite
  show P _
  repeat' first
    | with_reducible assumption
    | with_reducible apply State.accessW_kept hP

theorem execHostSignalDetectChange_kept (hP : Kept P) {s : State} (hs : P s) (n : Fin 16) (amp : BitVec 12) : resKeeps P (execHostSignalDetectChange n amp s) := by
  unfold execHostSignalDetectChange
  show P _
  repeat' first
    | with_reducible assumption
    | intro _
    | with_reducible apply State.act_kept hP
    | with_reducible apply State.hostSignal_kept hP

theorem execUndefinedOpcode_kept (hP : Kept P) {s : State} (hs : P s) (w : BitVec 48) : resKeeps P (execUndefinedOpcode w s) := by
  unfold execUndefinedOpcode
  show P _
  repeat' first
    | with_reducible assumption
    | intro _
    | with_reducible apply State.iUndefined_kept hP
    | with_reducible apply State.issue_kept hP

/-- Every command keeps every property that is kept by the primitive changes. -/
theorem exec_kept (hP : Kept P) {s : State} (hs : P s) (c : Instr) : resKeeps P (exec c s) := by
  cases c with
  | tickBoundary m => exact execTickBoundary_kept hP hs m
  | setApply => exact execSetApply_kept hP hs
  | applicationBoundary stage m => exact execApplicationBoundary_kept hP hs stage m
  | ltxRefMove p => exact execLtxRefMove_kept hP hs p
  | huntMarkerMatch k marker => exact execHuntMarkerMatch_kept hP hs k marker
  | expectedMarker k header => exact execExpectedMarker_kept hP hs k header
  | standardAlignmentChange k st => exact execStandardAlignmentChange_kept hP hs k st
  | formatProbeStart k => exact execFormatProbeStart_kept hP hs k
  | farFmtFound k code => exact execFarFmtFound_kept hP hs k code
  | probeWindowEnd k => exact execProbeWindowEnd_kept hP hs k
  | linePatLock host n m => exact execLinePatLock_kept hP hs host n m
  | linePatResync host n m => exact execLinePatResync_kept hP hs host n m
  | signalDetectChange sl amp => exact execSignalDetectChange_kept hP hs sl amp
  | migCmdNone => exact execMigCmdNone_kept hP hs
  | floatCal => exact execFloatCal_kept hP hs
  | migrate => exact execMigrate_kept hP hs
  | floatReturn => exact execFloatReturn_kept hP hs
  | floatAbort => exact execFloatAbort_kept hP hs
  | observeRx => exact execObserveRx_kept hP hs
  | observeTx => exact execObserveTx_kept hP hs
  | retire => exact execRetire_kept hP hs
  | convergeDone => exact execConvergeDone_kept hP hs
  | convTimeout => exact execConvTimeout_kept hP hs
  | agreeWindowEnd => exact execAgreeWindowEnd_kept hP hs
  | floatSwap m => exact execFloatSwap_kept hP hs m
  | sliceFaultDetect sl src ss => exact execSliceFaultDetect_kept hP hs sl src ss
  | abruptReturnSwap m => exact execAbruptReturnSwap_kept hP hs m
  | takeoverSwap m => exact execTakeoverSwap_kept hP hs m
  | takeoverTimeout => exact execTakeoverTimeout_kept hP hs
  | noiseMeasureStart sl => exact execNoiseMeasureStart_kept hP hs sl
  | noiseDone sl worst worstRms allRms => exact execNoiseDone_kept hP hs sl worst worstRms allRms
  | adaptTrackEntry sl => exact execAdaptTrackEntry_kept hP hs sl
  | trLockWindow m => exact execTrLockWindow_kept hP hs m
  | reacquire sl => exact execReacquire_kept hP hs sl
  | codewordDecode k slot even rx cand => exact execCodewordDecode_kept hP hs k slot even rx cand
  | outerCodeword n ingress syms => exact execOuterCodeword_kept hP hs n ingress syms
  | outerLockChange n ingress lock => exact execOuterLockChange_kept hP hs n ingress lock
  | maskSquelch k => exact execMaskSquelch_kept hP hs k
  | squelchSettleEnd k => exact execSquelchSettleEnd_kept hP hs k
  | txobsAlignSearch => exact execTxobsAlignSearch_kept hP hs
  | txobsPeriodPublish => exact execTxobsPeriodPublish_kept hP hs
  | hostCdrLockChange n lock => exact execHostCdrLockChange_kept hP hs n lock
  | amLockGained n m => exact execAmLockGained_kept hP hs n m
  | amLockLost n m => exact execAmLockLost_kept hP hs n m
  | adjNone => exact execAdjNone_kept hP hs
  | adjLoad => exact execAdjLoad_kept hP hs
  | adjStep => exact execAdjStep_kept hP hs
  | adjSlew => exact execAdjSlew_kept hP hs
  | adjMeasure => exact execAdjMeasure_kept hP hs
  | slewEnd => exact execSlewEnd_kept hP hs
  | ppsInEdge falling at_ => exact execPpsInEdge_kept hP hs falling at_
  | servoUpdate => exact execServoUpdate_kept hP hs
  | sourceLoss slot => exact execSourceLoss_kept hP hs slot
  | holdoverExpired => exact execHoldoverExpired_kept hP hs
  | evtInputEdge m falling at_ lasts => exact execEvtInputEdge_kept hP hs m falling at_ lasts
  | evtArm m => exact execEvtArm_kept hP hs m
  | evtOutputPulse m => exact execEvtOutputPulse_kept hP hs m
  | ppsOutPulse => exact execPpsOutPulse_kept hP hs
  | tteFrame f => exact execTteFrame_kept hP hs f
  | departurePostcheck ingress host at_ => exact execDeparturePostcheck_kept hP hs ingress host at_
  | flowSweep => exact execFlowSweep_kept hP hs
  | fltNop m => exact execFltNop_kept hP hs m
  | fltCopy m => exact execFltCopy_kept hP hs m
  | fltInvalidate m => exact execFltInvalidate_kept hP hs m
  | fltFlush m => exact execFltFlush_kept hP hs m
  | fltFlushDone => exact execFltFlushDone_kept hP hs
  | rngPiWrite m r w => exact execRngPiWrite_kept hP hs m r w
  | rngCiWrite m r w => exact execRngCiWrite_kept hP hs m r w
  | ringWindowWrite m a w => exact execRingWindowWrite_kept hP hs m a w
  | scrimSyncGain j l => exact execScrimSyncGain_kept hP hs j l
  | scrimSyncLoss j l => exact execScrimSyncLoss_kept hP hs j l
  | ebSlip j l => exact execEbSlip_kept hP hs j l
  | scrimBadFrame j l => exact execScrimBadFrame_kept hP hs j l
  | scrimForward j at_ l => exact execScrimForward_kept hP hs j at_ l
  | hello j at_ l => exact execHello_kept hP hs j at_ l
  | helloSend j => exact execHelloSend_kept hP hs j
  | helloLoss j => exact execHelloLoss_kept hP hs j
  | ack j at_ l => exact execAck_kept hP hs j at_ l
  | nak j at_ l => exact execNak_kept hP hs j at_ l
  | retxTimeout j => exact execRetxTimeout_kept hP hs j
  | tmarkRx j symbol at_ l => exact execTmarkRx_kept hP hs j symbol at_ l
  | timeFrame j at_ l => exact execTimeFrame_kept hP hs j at_ l
  | regRd j at_ l => exact execRegRd_kept hP hs j at_ l
  | regWr j at_ l => exact execRegWr_kept hP hs j at_ l
  | regRsp j at_ l => exact execRegRsp_kept hP hs j at_ l
  | proxyGo m w => exact execProxyGo_kept hP hs m w
  | proxyTimeout => exact execProxyTimeout_kept hP hs
  | trigRx j symbol at_ l => exact execTrigRx_kept hP hs j symbol at_ l
  | trigAt j at_ l => exact execTrigAt_kept hP hs j at_ l
  | bootReq j at_ l => exact execBootReq_kept hP hs j at_ l
  | bootReqSend => exact execBootReqSend_kept hP hs
  | bootData j at_ l => exact execBootData_kept hP hs j at_ l
  | bootEnd j at_ l => exact execBootEnd_kept hP hs j at_ l
  | loopCmd j at_ l => exact execLoopCmd_kept hP hs j at_ l
  | loopRsp j at_ l => exact execLoopRsp_kept hP hs j at_ l
  | userMessage j at_ l => exact execUserMessage_kept hP hs j at_ l
  | fabricTxSend at_ => exact execFabricTxSend_kept hP hs at_
  | loopSlip => exact execLoopSlip_kept hP hs
  | nop => exact execNop_kept hP hs
  | add rd ra rb => exact execAdd_kept hP hs rd ra rb
  | adds rd ra rb => exact execAdds_kept hP hs rd ra rb
  | sub rd ra rb => exact execSub_kept hP hs rd ra rb
  | subs rd ra rb => exact execSubs_kept hP hs rd ra rb
  | opAnd rd ra rb => exact execOpAnd_kept hP hs rd ra rb
  | opOr rd ra rb => exact execOpOr_kept hP hs rd ra rb
  | opXor rd ra rb => exact execOpXor_kept hP hs rd ra rb
  | shl rd ra rb => exact execShl_kept hP hs rd ra rb
  | shr rd ra rb => exact execShr_kept hP hs rd ra rb
  | sra rd ra rb => exact execSra_kept hP hs rd ra rb
  | opMin rd ra rb => exact execOpMin_kept hP hs rd ra rb
  | opMax rd ra rb => exact execOpMax_kept hP hs rd ra rb
  | minu rd ra rb => exact execMinu_kept hP hs rd ra rb
  | maxu rd ra rb => exact execMaxu_kept hP hs rd ra rb
  | addi rd ra imm => exact execAddi_kept hP hs rd ra imm
  | addsi rd ra imm => exact execAddsi_kept hP hs rd ra imm
  | subi rd ra imm => exact execSubi_kept hP hs rd ra imm
  | subsi rd ra imm => exact execSubsi_kept hP hs rd ra imm
  | andi rd ra imm => exact execAndi_kept hP hs rd ra imm
  | ori rd ra imm => exact execOri_kept hP hs rd ra imm
  | xori rd ra imm => exact execXori_kept hP hs rd ra imm
  | shli rd ra imm => exact execShli_kept hP hs rd ra imm
  | shri rd ra imm => exact execShri_kept hP hs rd ra imm
  | srai rd ra imm => exact execSrai_kept hP hs rd ra imm
  | mini rd ra imm => exact execMini_kept hP hs rd ra imm
  | maxi rd ra imm => exact execMaxi_kept hP hs rd ra imm
  | minui rd ra imm => exact execMinui_kept hP hs rd ra imm
  | maxui rd ra imm => exact execMaxui_kept hP hs rd ra imm
  | movlo rd imm => exact execMovlo_kept hP hs rd imm
  | movhi rd imm => exact execMovhi_kept hP hs rd imm
  | getf rd => exact execGetf_kept hP hs rd
  | putf ra => exact execPutf_kept hP hs ra
  | clrs => exact execClrs_kept hP hs
  | mul ra rb u ac => exact execMul_kept hP hs ra rb u ac
  | mac ra rb u ac => exact execMac_kept hP hs ra rb u ac
  | macs ra rb u ac => exact execMacs_kept hP hs ra rb u ac
  | msu ra rb u ac => exact execMsu_kept hP hs ra rb u ac
  | msus ra rb u ac => exact execMsus_kept hP hs ra rb u ac
  | asr ac sh => exact execAsr_kept hP hs ac sh
  | asl ac sh => exact execAsl_kept hP hs ac sh
  | round rd ac width sh => exact execRound_kept hP hs rd ac width sh
  | norm rd ac => exact execNorm_kept hP hs rd ac
  | accget rd ac sh => exact execAccget_kept hP hs rd ac sh
  | accput ra ac sh => exact execAccput_kept hP hs ra ac sh
  | ld rd ra imm => exact execLd_kept hP hs rd ra imm
  | st rd ra imm => exact execSt_kept hP hs rd ra imm
  | inp rd ra a24 at_ wait => exact execInp_kept hP hs rd ra a24 at_ wait
  | outp rs ra a24 wait held => exact execOutp_kept hP hs rs ra a24 wait held
  | stg rs ra a24 wait held => exact execStg_kept hP hs rs ra a24 wait held
  | opSet rd => exact execOpSet_kept hP hs rd
  | br cond target => exact execBr_kept hP hs cond target
  | jr ra => exact execJr_kept hP hs ra
  | call target => exact execCall_kept hP hs target
  | ret => exact execRet_kept hP hs
  | opTick target => exact execOpTick_kept hP hs target
  | waite rd ra limit => exact execWaite_kept hP hs rd ra limit
  | waiteEnd cycles => exact execWaiteEnd_kept hP hs cycles
  | opBrk => exact execOpBrk_kept hP hs
  | push rd ra h offset wait => exact execPush_kept hP hs rd ra h offset wait
  | pop rd ra h offset wait => exact execPop_kept hP hs rd ra h offset wait
  | trc rd at_ => exact execTrc_kept hP hs rd at_
  | pwr rd ra => exact execPwr_kept hP hs rd ra
  | setCheckDone => exact execSetCheckDone_kept hP hs
  | taskRunStart => exact execTaskRunStart_kept hP hs
  | wdogExpiry => exact execWdogExpiry_kept hP hs
  | seqFault => exact execSeqFault_kept hP hs
  | wdogWrite m w => exact execWdogWrite_kept hP hs m w
  | haltReq m halt => exact execHaltReq_kept hP hs m halt
  | seqStep by_ at_ wait held => exact execSeqStep_kept hP hs by_ at_ wait held
  | seqDbgAccess m data => exact execSeqDbgAccess_kept hP hs m data
  | seqDoorbell m db => exact execSeqDoorbell_kept hP hs m db
  | pmcCntWrite m n w => exact execPmcCntWrite_kept hP hs m n w
  | clrAll m => exact execClrAll_kept hP hs m
  | seqTaskWrite m slot w => exact execSeqTaskWrite_kept hP hs m slot w
  | setCmdGo m => exact execSetCmdGo_kept hP hs m
  | ping c => exact execPing_kept hP hs c
  | regRead c at_ => exact execRegRead_kept hP hs c at_
  | setCommand c => exact execSetCommand_kept hP hs c
  | modeCommand c before fwd => exact execModeCommand_kept hP hs c before fwd
  | profileCommand c plan fwd => exact execProfileCommand_kept hP hs c plan fwd
  | dpsCommand c => exact execDpsCommand_kept hP hs c
  | lowPowerCommand c request code => exact execLowPowerCommand_kept hP hs c request code
  | floatCommand c => exact execFloatCommand_kept hP hs c
  | timeCommand c => exact execTimeCommand_kept hP hs c
  | loopCommand c => exact execLoopCommand_kept hP hs c
  | captureCommand c program => exact execCaptureCommand_kept hP hs c program
  | imageSwap c => exact execImageSwap_kept hP hs c
  | imageInfo c => exact execImageInfo_kept hP hs c
  | unfreeze c => exact execUnfreeze_kept hP hs c
  | jnlAbort c => exact execJnlAbort_kept hP hs c
  | unknownOp c => exact execUnknownOp_kept hP hs c
  | imageDefinedCommand c status res1 res2 => exact execImageDefinedCommand_kept hP hs c status res1 res2
  | jnlOpen m id fwd nsteps => exact execJnlOpen_kept hP hs m id fwd nsteps
  | jnlStep m => exact execJnlStep_kept hP hs m
  | jnlOpAbort m => exact execJnlOpAbort_kept hP hs m
  | jnlDataWrite m w => exact execJnlDataWrite_kept hP hs m w
  | jnlRoll => exact execJnlRoll_kept hP hs
  | swapReq m => exact execSwapReq_kept hP hs m
  | swapExecute => exact execSwapExecute_kept hP hs
  | confirm m => exact execConfirm_kept hP hs m
  | trialTimeout => exact execTrialTimeout_kept hP hs
  | sensorPublish temp diff => exact execSensorPublish_kept hP hs temp diff
  | throttleApply => exact execThrottleApply_kept hP hs
  | bandApply => exact execBandApply_kept hP hs
  | thermalShutdown sensor => exact execThermalShutdown_kept hP hs sensor
  | thermalRestart => exact execThermalRestart_kept hP hs
  | fcalStart sl => exact execFcalStart_kept hP hs sl
  | fcalDone sl first again => exact execFcalDone_kept hP hs sl first again
  | monOutput c m => exact execMonOutput_kept hP hs c m
  | monMixWrite m c w => exact execMonMixWrite_kept hP hs m c w
  | hkaConversion v aref => exact execHkaConversion_kept hP hs v aref
  | trowelUpdate m => exact execTrowelUpdate_kept hP hs m
  | trwAutoRun m => exact execTrwAutoRun_kept hP hs m
  | trwAutoRecovery m => exact execTrwAutoRecovery_kept hP hs m
  | ditherHalf m => exact execDitherHalf_kept hP hs m
  | trwCmdOff m => exact execTrwCmdOff_kept hP hs m
  | trwCmdStartup m => exact execTrwCmdStartup_kept hP hs m
  | trwCmdRun m => exact execTrwCmdRun_kept hP hs m
  | trwCmdTest m => exact execTrwCmdTest_kept hP hs m
  | trwCmdRecovery m => exact execTrwCmdRecovery_kept hP hs m
  | stipNone m => exact execStipNone_kept hP hs m
  | stipSine m => exact execStipSine_kept hP hs m
  | stipSquare m => exact execStipSquare_kept hP hs m
  | stipPrbs m => exact execStipPrbs_kept hP hs m
  | stipSwept m => exact execStipSwept_kept hP hs m
  | stipDone m => exact execStipDone_kept hP hs m
  | capNone => exact execCapNone_kept hP hs
  | capArm => exact execCapArm_kept hP hs
  | capDisarm => exact execCapDisarm_kept hP hs
  | capRelease => exact execCapRelease_kept hP hs
  | capForce => exact execCapForce_kept hP hs
  | capSched => exact execCapSched_kept hP hs
  | stencilCountLimit m => exact execStencilCountLimit_kept hP hs m
  | stencilTimeout m => exact execStencilTimeout_kept hP hs m
  | prefillComplete m => exact execPrefillComplete_kept hP hs m
  | pendingTriggerCycle m => exact execPendingTriggerCycle_kept hP hs m
  | scheduleFire at_ => exact execScheduleFire_kept hP hs at_
  | captureComplete m => exact execCaptureComplete_kept hP hs m
  | captureRearm => exact execCaptureRearm_kept hP hs
  | referenceQualify r => exact execReferenceQualify_kept hP hs r
  | refLoss r => exact execRefLoss_kept hP hs r
  | coast p => exact execCoast_kept hP hs p
  | pllLock p => exact execPllLock_kept hP hs p
  | forcedSw mux => exact execForcedSw_kept hP hs mux
  | rstNone m w => exact execRstNone_kept hP hs m w
  | warmReset m => exact execWarmReset_kept hP hs m
  | fullReset m => exact execFullReset_kept hP hs m
  | pinReset ns => exact execPinReset_kept hP hs ns
  | por => exact execPor_kept hP hs
  | pwrNone m => exact execPwrNone_kept hP hs m
  | domOn m first count => exact execDomOn_kept hP hs m first count
  | domOff m first count => exact execDomOff_kept hP hs m first count
  | pwrState m st => exact execPwrState_kept hP hs m st
  | pwrRequestStart => exact execPwrRequestStart_kept hP hs
  | domainSwitch => exact execDomainSwitch_kept hP hs
  | powerGoodTimeout => exact execPowerGoodTimeout_kept hP hs
  | pwrRequestDone => exact execPwrRequestDone_kept hP hs
  | pointOfNoReturn => exact execPointOfNoReturn_kept hP hs
  | wake src => exact execWake_kept hP hs src
  | wakeTimer => exact execWakeTimer_kept hP hs
  | wakeRetry cause => exact execWakeRetry_kept hP hs cause
  | brownout => exact execBrownout_kept hP hs
  | supWarn rail => exact execSupWarn_kept hP hs rail
  | supplyWarningClear rail => exact execSupplyWarningClear_kept hP hs rail
  | supReset rail => exact execSupReset_kept hP hs rail
  | scrubVisit => exact execScrubVisit_kept hP hs
  | tstNone m mem => exact execTstNone_kept hP hs m mem
  | readRaw m mem => exact execReadRaw_kept hP hs m mem
  | writeData m mem => exact execWriteData_kept hP hs m mem
  | writeCheck m mem => exact execWriteCheck_kept hP hs m mem
  | writeBoth m mem => exact execWriteBoth_kept hP hs m mem
  | memLogPop m => exact execMemLogPop_kept hP hs m
  | memLock m w => exact execMemLock_kept hP hs m w
  | release m w => exact execRelease_kept hP hs m w
  | powerupSelfTest slice r => exact execPowerupSelfTest_kept hP hs slice r
  | selfTestEnd us => exact execSelfTestEnd_kept hP hs us
  | isMemory => exact execIsMemory_kept hP hs
  | isLogic idle => exact execIsLogic_kept hP hs idle
  | isSlice => exact execIsSlice_kept hP hs
  | isSliceEnd fail addr last res => exact execIsSliceEnd_kept hP hs fail addr last res
  | lcsMove m w => exact execLcsMove_kept hP hs m w
  | scanEnable => exact execScanEnable_kept hP hs
  | loadBegin m slotB => exact execLoadBegin_kept hP hs m slotB
  | loadVerify m slotB => exact execLoadVerify_kept hP hs m slotB
  | secLoadDataWrite m w => exact execSecLoadDataWrite_kept hP hs m w
  | imageVerifyDone => exact execImageVerifyDone_kept hP hs
  | boot words => exact execBoot_kept hP hs words
  | scrimBootTimeout => exact execScrimBootTimeout_kept hP hs
  | secArbAdv m w => exact execSecArbAdv_kept hP hs m w
  | secRevoke m w => exact execSecRevoke_kept hP hs m w
  | attGo m => exact execAttGo_kept hP hs m
  | attestationDone => exact execAttestationDone_kept hP hs
  | spiRead a at_ => exact execSpiRead_kept hP hs a at_
  | spiWrite a w => exact execSpiWrite_kept hP hs a w
  | spiMalformedFrame octets at_ => exact execSpiMalformedFrame_kept hP hs octets at_
  | i3cPrivateWrite target data err => exact execI3cPrivateWrite_kept hP hs target data err
  | i3cPrivateRead target octets at_ => exact execI3cPrivateRead_kept hP hs target octets at_
  | entdaa won da => exact execEntdaa_kept hP hs won da
  | setdasa target da => exact execSetdasa_kept hP hs target da
  | setnewda target da => exact execSetnewda_kept hP hs target da
  | rstdaa => exact execRstdaa_kept hP hs
  | enec => exact execEnec_kept hP hs
  | disec => exact execDisec_kept hP hs
  | getpid target => exact execGetpid_kept hP hs target
  | getbcr target => exact execGetbcr_kept hP hs target
  | getdcr target => exact execGetdcr_kept hP hs target
  | getstatus target => exact execGetstatus_kept hP hs target
  | ibiRequest acked => exact execIbiRequest_kept hP hs acked
  | extest cells => exact execExtest_kept hP hs cells
  | idcode => exact execIdcode_kept hP hs
  | samplePreload cells => exact execSamplePreload_kept hP hs cells
  | clamp => exact execClamp_kept hP hs
  | highz => exact execHighz_kept hP hs
  | extestPulse cells => exact execExtestPulse_kept hP hs cells
  | extestTrain cells => exact execExtestTrain_kept hP hs cells
  | bypass code => exact execBypass_kept hP hs code
  | regAccess dr at_ => exact execRegAccess_kept hP hs dr at_
  | rcRead m a at_ => exact execRcRead_kept hP hs m a at_
  | snRead m a at_ => exact execSnRead_kept hP hs m a at_
  | registerWrite m a w => exact execRegisterWrite_kept hP hs m a w
  | hostSignalDetectChange n amp => exact execHostSignalDetectChange_kept hP hs n amp
  | undefinedOpcode w => exact execUndefinedOpcode_kept hP hs w

end Sys2Proof.Machine
end

