-- ==== Sys2Proof/Laws/State.lean ====
section
/-! SUPPORT. What each update of the state leaves of each field, and what a field of a register reads as after a write. -/
namespace Sys2Proof.Machine
namespace State

/-! Fields after `setLive`. -/
@[simp] theorem setLive_part (s : State) (a : Nat) (w : Word) : (s.setLive a w).part = s.part := rfl
@[simp] theorem setLive_under (s : State) (a : Nat) (w : Word) : (s.setLive a w).under = s.under := rfl
@[simp] theorem setLive_inUse (s : State) (a : Nat) (w : Word) : (s.setLive a w).inUse = s.inUse := rfl
@[simp] theorem setLive_snap (s : State) (a : Nat) (w : Word) : (s.setLive a w).snap = s.snap := rfl
@[simp] theorem setLive_applied (s : State) (a : Nat) (w : Word) : (s.setLive a w).applied = s.applied := rfl
@[simp] theorem setLive_seq (s : State) (a : Nat) (w : Word) : (s.setLive a w).seq = s.seq := rfl
@[simp] theorem setLive_set (s : State) (a : Nat) (w : Word) : (s.setLive a w).set = s.set := rfl
@[simp] theorem setLive_mem (s : State) (a : Nat) (w : Word) : (s.setLive a w).mem = s.mem := rfl
@[simp] theorem setLive_pwr (s : State) (a : Nat) (w : Word) : (s.setLive a w).pwr = s.pwr := rfl
@[simp] theorem setLive_clk (s : State) (a : Nat) (w : Word) : (s.setLive a w).clk = s.clk := rfl
@[simp] theorem setLive_mgmt (s : State) (a : Nat) (w : Word) : (s.setLive a w).mgmt = s.mgmt := rfl
@[simp] theorem setLive_sec (s : State) (a : Nat) (w : Word) : (s.setLive a w).sec = s.sec := rfl
@[simp] theorem setLive_cmds (s : State) (a : Nat) (w : Word) : (s.setLive a w).cmds = s.cmds := rfl
@[simp] theorem setLive_rings (s : State) (a : Nat) (w : Word) : (s.setLive a w).rings = s.rings := rfl
@[simp] theorem setLive_frames (s : State) (a : Nat) (w : Word) : (s.setLive a w).frames = s.frames := rfl
@[simp] theorem setLive_slices (s : State) (a : Nat) (w : Word) : (s.setLive a w).slices = s.slices := rfl
@[simp] theorem setLive_mig (s : State) (a : Nat) (w : Word) : (s.setLive a w).mig = s.mig := rfl
@[simp] theorem setLive_lanes (s : State) (a : Nat) (w : Word) : (s.setLive a w).lanes = s.lanes := rfl
@[simp] theorem setLive_ltx (s : State) (a : Nat) (w : Word) : (s.setLive a w).ltx = s.ltx := rfl
@[simp] theorem setLive_cals (s : State) (a : Nat) (w : Word) : (s.setLive a w).cals = s.cals := rfl
@[simp] theorem setLive_thm (s : State) (a : Nat) (w : Word) : (s.setLive a w).thm = s.thm := rfl
@[simp] theorem setLive_due (s : State) (a : Nat) (w : Word) : (s.setLive a w).due = s.due := rfl
@[simp] theorem setLive_scr (s : State) (a : Nat) (w : Word) : (s.setLive a w).scr = s.scr := rfl
@[simp] theorem setLive_plb (s : State) (a : Nat) (w : Word) : (s.setLive a w).plb = s.plb := rfl
@[simp] theorem setLive_obs (s : State) (a : Nat) (w : Word) : (s.setLive a w).obs = s.obs := rfl
@[simp] theorem setLive_hlanes (s : State) (a : Nat) (w : Word) : (s.setLive a w).hlanes = s.hlanes := rfl
@[simp] theorem setLive_hrx (s : State) (a : Nat) (w : Word) : (s.setLive a w).hrx = s.hrx := rfl
@[simp] theorem setLive_tte (s : State) (a : Nat) (w : Word) : (s.setLive a w).tte = s.tte := rfl
@[simp] theorem setLive_mons (s : State) (a : Nat) (w : Word) : (s.setLive a w).mons = s.mons := rfl
@[simp] theorem setLive_hka (s : State) (a : Nat) (w : Word) : (s.setLive a w).hka = s.hka := rfl
@[simp] theorem setLive_loops (s : State) (a : Nat) (w : Word) : (s.setLive a w).loops = s.loops := rfl
@[simp] theorem setLive_cap (s : State) (a : Nat) (w : Word) : (s.setLive a w).cap = s.cap := rfl
@[simp] theorem setLive_jnl (s : State) (a : Nat) (w : Word) : (s.setLive a w).jnl = s.jnl := rfl
@[simp] theorem setLive_free (s : State) (a : Nat) (w : Word) : (s.setLive a w).free = s.free := rfl
@[simp] theorem setLive_pending (s : State) (a : Nat) (w : Word) : (s.setLive a w).pending = s.pending := rfl
/-! Fields after `setUnder`. -/
@[simp] theorem setUnder_part (s : State) (a : Nat) (w : Word) : (s.setUnder a w).part = s.part := rfl
@[simp] theorem setUnder_live (s : State) (a : Nat) (w : Word) : (s.setUnder a w).live = s.live := rfl
@[simp] theorem setUnder_inUse (s : State) (a : Nat) (w : Word) : (s.setUnder a w).inUse = s.inUse := rfl
@[simp] theorem setUnder_snap (s : State) (a : Nat) (w : Word) : (s.setUnder a w).snap = s.snap := rfl
@[simp] theorem setUnder_applied (s : State) (a : Nat) (w : Word) : (s.setUnder a w).applied = s.applied := rfl
@[simp] theorem setUnder_seq (s : State) (a : Nat) (w : Word) : (s.setUnder a w).seq = s.seq := rfl
@[simp] theorem setUnder_mem (s : State) (a : Nat) (w : Word) : (s.setUnder a w).mem = s.mem := rfl
@[simp] theorem setUnder_pwr (s : State) (a : Nat) (w : Word) : (s.setUnder a w).pwr = s.pwr := rfl
@[simp] theorem setUnder_clk (s : State) (a : Nat) (w : Word) : (s.setUnder a w).clk = s.clk := rfl
@[simp] theorem setUnder_mgmt (s : State) (a : Nat) (w : Word) : (s.setUnder a w).mgmt = s.mgmt := rfl
@[simp] theorem setUnder_sec (s : State) (a : Nat) (w : Word) : (s.setUnder a w).sec = s.sec := rfl
@[simp] theorem setUnder_cmds (s : State) (a : Nat) (w : Word) : (s.setUnder a w).cmds = s.cmds := rfl
@[simp] theorem setUnder_rings (s : State) (a : Nat) (w : Word) : (s.setUnder a w).rings = s.rings := rfl
@[simp] theorem setUnder_frames (s : State) (a : Nat) (w : Word) : (s.setUnder a w).frames = s.frames := rfl
@[simp] theorem setUnder_slices (s : State) (a : Nat) (w : Word) : (s.setUnder a w).slices = s.slices := rfl
@[simp] theorem setUnder_mig (s : State) (a : Nat) (w : Word) : (s.setUnder a w).mig = s.mig := rfl
@[simp] theorem setUnder_lanes (s : State) (a : Nat) (w : Word) : (s.setUnder a w).lanes = s.lanes := rfl
@[simp] theorem setUnder_ltx (s : State) (a : Nat) (w : Word) : (s.setUnder a w).ltx = s.ltx := rfl
@[simp] theorem setUnder_cals (s : State) (a : Nat) (w : Word) : (s.setUnder a w).cals = s.cals := rfl
@[simp] theorem setUnder_thm (s : State) (a : Nat) (w : Word) : (s.setUnder a w).thm = s.thm := rfl
@[simp] theorem setUnder_due (s : State) (a : Nat) (w : Word) : (s.setUnder a w).due = s.due := rfl
@[simp] theorem setUnder_scr (s : State) (a : Nat) (w : Word) : (s.setUnder a w).scr = s.scr := rfl
@[simp] theorem setUnder_plb (s : State) (a : Nat) (w : Word) : (s.setUnder a w).plb = s.plb := rfl
@[simp] theorem setUnder_obs (s : State) (a : Nat) (w : Word) : (s.setUnder a w).obs = s.obs := rfl
@[simp] theorem setUnder_hlanes (s : State) (a : Nat) (w : Word) : (s.setUnder a w).hlanes = s.hlanes := rfl
@[simp] theorem setUnder_hrx (s : State) (a : Nat) (w : Word) : (s.setUnder a w).hrx = s.hrx := rfl
@[simp] theorem setUnder_tte (s : State) (a : Nat) (w : Word) : (s.setUnder a w).tte = s.tte := rfl
@[simp] theorem setUnder_mons (s : State) (a : Nat) (w : Word) : (s.setUnder a w).mons = s.mons := rfl
@[simp] theorem setUnder_hka (s : State) (a : Nat) (w : Word) : (s.setUnder a w).hka = s.hka := rfl
@[simp] theorem setUnder_loops (s : State) (a : Nat) (w : Word) : (s.setUnder a w).loops = s.loops := rfl
@[simp] theorem setUnder_cap (s : State) (a : Nat) (w : Word) : (s.setUnder a w).cap = s.cap := rfl
@[simp] theorem setUnder_jnl (s : State) (a : Nat) (w : Word) : (s.setUnder a w).jnl = s.jnl := rfl
@[simp] theorem setUnder_free (s : State) (a : Nat) (w : Word) : (s.setUnder a w).free = s.free := rfl
@[simp] theorem setUnder_pending (s : State) (a : Nat) (w : Word) : (s.setUnder a w).pending = s.pending := rfl
/-! Fields after `put`. -/
@[simp] theorem put_part (s : State) (f : FRef) (v : Nat) (i : List Nat) : (s.put f v i).part = s.part := rfl
@[simp] theorem put_under (s : State) (f : FRef) (v : Nat) (i : List Nat) : (s.put f v i).under = s.under := rfl
@[simp] theorem put_inUse (s : State) (f : FRef) (v : Nat) (i : List Nat) : (s.put f v i).inUse = s.inUse := rfl
@[simp] theorem put_snap (s : State) (f : FRef) (v : Nat) (i : List Nat) : (s.put f v i).snap = s.snap := rfl
@[simp] theorem put_applied (s : State) (f : FRef) (v : Nat) (i : List Nat) : (s.put f v i).applied = s.applied := rfl
@[simp] theorem put_seq (s : State) (f : FRef) (v : Nat) (i : List Nat) : (s.put f v i).seq = s.seq := rfl
@[simp] theorem put_set (s : State) (f : FRef) (v : Nat) (i : List Nat) : (s.put f v i).set = s.set := rfl
@[simp] theorem put_mem (s : State) (f : FRef) (v : Nat) (i : List Nat) : (s.put f v i).mem = s.mem := rfl
@[simp] theorem put_pwr (s : State) (f : FRef) (v : Nat) (i : List Nat) : (s.put f v i).pwr = s.pwr := rfl
@[simp] theorem put_clk (s : State) (f : FRef) (v : Nat) (i : List Nat) : (s.put f v i).clk = s.clk := rfl
@[simp] theorem put_mgmt (s : State) (f : FRef) (v : Nat) (i : List Nat) : (s.put f v i).mgmt = s.mgmt := rfl
@[simp] theorem put_sec (s : State) (f : FRef) (v : Nat) (i : List Nat) : (s.put f v i).sec = s.sec := rfl
@[simp] theorem put_cmds (s : State) (f : FRef) (v : Nat) (i : List Nat) : (s.put f v i).cmds = s.cmds := rfl
@[simp] theorem put_rings (s : State) (f : FRef) (v : Nat) (i : List Nat) : (s.put f v i).rings = s.rings := rfl
@[simp] theorem put_frames (s : State) (f : FRef) (v : Nat) (i : List Nat) : (s.put f v i).frames = s.frames := rfl
@[simp] theorem put_slices (s : State) (f : FRef) (v : Nat) (i : List Nat) : (s.put f v i).slices = s.slices := rfl
@[simp] theorem put_mig (s : State) (f : FRef) (v : Nat) (i : List Nat) : (s.put f v i).mig = s.mig := rfl
@[simp] theorem put_lanes (s : State) (f : FRef) (v : Nat) (i : List Nat) : (s.put f v i).lanes = s.lanes := rfl
@[simp] theorem put_ltx (s : State) (f : FRef) (v : Nat) (i : List Nat) : (s.put f v i).ltx = s.ltx := rfl
@[simp] theorem put_cals (s : State) (f : FRef) (v : Nat) (i : List Nat) : (s.put f v i).cals = s.cals := rfl
@[simp] theorem put_thm (s : State) (f : FRef) (v : Nat) (i : List Nat) : (s.put f v i).thm = s.thm := rfl
@[simp] theorem put_due (s : State) (f : FRef) (v : Nat) (i : List Nat) : (s.put f v i).due = s.due := rfl
@[simp] theorem put_scr (s : State) (f : FRef) (v : Nat) (i : List Nat) : (s.put f v i).scr = s.scr := rfl
@[simp] theorem put_plb (s : State) (f : FRef) (v : Nat) (i : List Nat) : (s.put f v i).plb = s.plb := rfl
@[simp] theorem put_obs (s : State) (f : FRef) (v : Nat) (i : List Nat) : (s.put f v i).obs = s.obs := rfl
@[simp] theorem put_hlanes (s : State) (f : FRef) (v : Nat) (i : List Nat) : (s.put f v i).hlanes = s.hlanes := rfl
@[simp] theorem put_hrx (s : State) (f : FRef) (v : Nat) (i : List Nat) : (s.put f v i).hrx = s.hrx := rfl
@[simp] theorem put_tte (s : State) (f : FRef) (v : Nat) (i : List Nat) : (s.put f v i).tte = s.tte := rfl
@[simp] theorem put_mons (s : State) (f : FRef) (v : Nat) (i : List Nat) : (s.put f v i).mons = s.mons := rfl
@[simp] theorem put_hka (s : State) (f : FRef) (v : Nat) (i : List Nat) : (s.put f v i).hka = s.hka := rfl
@[simp] theorem put_loops (s : State) (f : FRef) (v : Nat) (i : List Nat) : (s.put f v i).loops = s.loops := rfl
@[simp] theorem put_cap (s : State) (f : FRef) (v : Nat) (i : List Nat) : (s.put f v i).cap = s.cap := rfl
@[simp] theorem put_jnl (s : State) (f : FRef) (v : Nat) (i : List Nat) : (s.put f v i).jnl = s.jnl := rfl
@[simp] theorem put_free (s : State) (f : FRef) (v : Nat) (i : List Nat) : (s.put f v i).free = s.free := rfl
@[simp] theorem put_pending (s : State) (f : FRef) (v : Nat) (i : List Nat) : (s.put f v i).pending = s.pending := rfl
/-! Fields after `putI`. -/
@[simp] theorem putI_part (s : State) (f : FRef) (v : Int) (i : List Nat) : (s.putI f v i).part = s.part := rfl
@[simp] theorem putI_under (s : State) (f : FRef) (v : Int) (i : List Nat) : (s.putI f v i).under = s.under := rfl
@[simp] theorem putI_inUse (s : State) (f : FRef) (v : Int) (i : List Nat) : (s.putI f v i).inUse = s.inUse := rfl
@[simp] theorem putI_snap (s : State) (f : FRef) (v : Int) (i : List Nat) : (s.putI f v i).snap = s.snap := rfl
@[simp] theorem putI_applied (s : State) (f : FRef) (v : Int) (i : List Nat) : (s.putI f v i).applied = s.applied := rfl
@[simp] theorem putI_seq (s : State) (f : FRef) (v : Int) (i : List Nat) : (s.putI f v i).seq = s.seq := rfl
@[simp] theorem putI_set (s : State) (f : FRef) (v : Int) (i : List Nat) : (s.putI f v i).set = s.set := rfl
@[simp] theorem putI_mem (s : State) (f : FRef) (v : Int) (i : List Nat) : (s.putI f v i).mem = s.mem := rfl
@[simp] theorem putI_pwr (s : State) (f : FRef) (v : Int) (i : List Nat) : (s.putI f v i).pwr = s.pwr := rfl
@[simp] theorem putI_clk (s : State) (f : FRef) (v : Int) (i : List Nat) : (s.putI f v i).clk = s.clk := rfl
@[simp] theorem putI_mgmt (s : State) (f : FRef) (v : Int) (i : List Nat) : (s.putI f v i).mgmt = s.mgmt := rfl
@[simp] theorem putI_sec (s : State) (f : FRef) (v : Int) (i : List Nat) : (s.putI f v i).sec = s.sec := rfl
@[simp] theorem putI_cmds (s : State) (f : FRef) (v : Int) (i : List Nat) : (s.putI f v i).cmds = s.cmds := rfl
@[simp] theorem putI_rings (s : State) (f : FRef) (v : Int) (i : List Nat) : (s.putI f v i).rings = s.rings := rfl
@[simp] theorem putI_frames (s : State) (f : FRef) (v : Int) (i : List Nat) : (s.putI f v i).frames = s.frames := rfl
@[simp] theorem putI_slices (s : State) (f : FRef) (v : Int) (i : List Nat) : (s.putI f v i).slices = s.slices := rfl
@[simp] theorem putI_mig (s : State) (f : FRef) (v : Int) (i : List Nat) : (s.putI f v i).mig = s.mig := rfl
@[simp] theorem putI_lanes (s : State) (f : FRef) (v : Int) (i : List Nat) : (s.putI f v i).lanes = s.lanes := rfl
@[simp] theorem putI_ltx (s : State) (f : FRef) (v : Int) (i : List Nat) : (s.putI f v i).ltx = s.ltx := rfl
@[simp] theorem putI_cals (s : State) (f : FRef) (v : Int) (i : List Nat) : (s.putI f v i).cals = s.cals := rfl
@[simp] theorem putI_thm (s : State) (f : FRef) (v : Int) (i : List Nat) : (s.putI f v i).thm = s.thm := rfl
@[simp] theorem putI_due (s : State) (f : FRef) (v : Int) (i : List Nat) : (s.putI f v i).due = s.due := rfl
@[simp] theorem putI_scr (s : State) (f : FRef) (v : Int) (i : List Nat) : (s.putI f v i).scr = s.scr := rfl
@[simp] theorem putI_plb (s : State) (f : FRef) (v : Int) (i : List Nat) : (s.putI f v i).plb = s.plb := rfl
@[simp] theorem putI_obs (s : State) (f : FRef) (v : Int) (i : List Nat) : (s.putI f v i).obs = s.obs := rfl
@[simp] theorem putI_hlanes (s : State) (f : FRef) (v : Int) (i : List Nat) : (s.putI f v i).hlanes = s.hlanes := rfl
@[simp] theorem putI_hrx (s : State) (f : FRef) (v : Int) (i : List Nat) : (s.putI f v i).hrx = s.hrx := rfl
@[simp] theorem putI_tte (s : State) (f : FRef) (v : Int) (i : List Nat) : (s.putI f v i).tte = s.tte := rfl
@[simp] theorem putI_mons (s : State) (f : FRef) (v : Int) (i : List Nat) : (s.putI f v i).mons = s.mons := rfl
@[simp] theorem putI_hka (s : State) (f : FRef) (v : Int) (i : List Nat) : (s.putI f v i).hka = s.hka := rfl
@[simp] theorem putI_loops (s : State) (f : FRef) (v : Int) (i : List Nat) : (s.putI f v i).loops = s.loops := rfl
@[simp] theorem putI_cap (s : State) (f : FRef) (v : Int) (i : List Nat) : (s.putI f v i).cap = s.cap := rfl
@[simp] theorem putI_jnl (s : State) (f : FRef) (v : Int) (i : List Nat) : (s.putI f v i).jnl = s.jnl := rfl
@[simp] theorem putI_free (s : State) (f : FRef) (v : Int) (i : List Nat) : (s.putI f v i).free = s.free := rfl
@[simp] theorem putI_pending (s : State) (f : FRef) (v : Int) (i : List Nat) : (s.putI f v i).pending = s.pending := rfl
/-! Fields after `ev`. -/
@[simp] theorem ev_part (s : State) (f : FRef) (i : List Nat) : (s.ev f i).part = s.part := rfl
@[simp] theorem ev_under (s : State) (f : FRef) (i : List Nat) : (s.ev f i).under = s.under := rfl
@[simp] theorem ev_inUse (s : State) (f : FRef) (i : List Nat) : (s.ev f i).inUse = s.inUse := rfl
@[simp] theorem ev_snap (s : State) (f : FRef) (i : List Nat) : (s.ev f i).snap = s.snap := rfl
@[simp] theorem ev_applied (s : State) (f : FRef) (i : List Nat) : (s.ev f i).applied = s.applied := rfl
@[simp] theorem ev_seq (s : State) (f : FRef) (i : List Nat) : (s.ev f i).seq = s.seq := rfl
@[simp] theorem ev_set (s : State) (f : FRef) (i : List Nat) : (s.ev f i).set = s.set := rfl
@[simp] theorem ev_mem (s : State) (f : FRef) (i : List Nat) : (s.ev f i).mem = s.mem := rfl
@[simp] theorem ev_pwr (s : State) (f : FRef) (i : List Nat) : (s.ev f i).pwr = s.pwr := rfl
@[simp] theorem ev_clk (s : State) (f : FRef) (i : List Nat) : (s.ev f i).clk = s.clk := rfl
@[simp] theorem ev_mgmt (s : State) (f : FRef) (i : List Nat) : (s.ev f i).mgmt = s.mgmt := rfl
@[simp] theorem ev_sec (s : State) (f : FRef) (i : List Nat) : (s.ev f i).sec = s.sec := rfl
@[simp] theorem ev_cmds (s : State) (f : FRef) (i : List Nat) : (s.ev f i).cmds = s.cmds := rfl
@[simp] theorem ev_rings (s : State) (f : FRef) (i : List Nat) : (s.ev f i).rings = s.rings := rfl
@[simp] theorem ev_frames (s : State) (f : FRef) (i : List Nat) : (s.ev f i).frames = s.frames := rfl
@[simp] theorem ev_slices (s : State) (f : FRef) (i : List Nat) : (s.ev f i).slices = s.slices := rfl
@[simp] theorem ev_mig (s : State) (f : FRef) (i : List Nat) : (s.ev f i).mig = s.mig := rfl
@[simp] theorem ev_lanes (s : State) (f : FRef) (i : List Nat) : (s.ev f i).lanes = s.lanes := rfl
@[simp] theorem ev_ltx (s : State) (f : FRef) (i : List Nat) : (s.ev f i).ltx = s.ltx := rfl
@[simp] theorem ev_cals (s : State) (f : FRef) (i : List Nat) : (s.ev f i).cals = s.cals := rfl
@[simp] theorem ev_thm (s : State) (f : FRef) (i : List Nat) : (s.ev f i).thm = s.thm := rfl
@[simp] theorem ev_due (s : State) (f : FRef) (i : List Nat) : (s.ev f i).due = s.due := rfl
@[simp] theorem ev_scr (s : State) (f : FRef) (i : List Nat) : (s.ev f i).scr = s.scr := rfl
@[simp] theorem ev_plb (s : State) (f : FRef) (i : List Nat) : (s.ev f i).plb = s.plb := rfl
@[simp] theorem ev_obs (s : State) (f : FRef) (i : List Nat) : (s.ev f i).obs = s.obs := rfl
@[simp] theorem ev_hlanes (s : State) (f : FRef) (i : List Nat) : (s.ev f i).hlanes = s.hlanes := rfl
@[simp] theorem ev_hrx (s : State) (f : FRef) (i : List Nat) : (s.ev f i).hrx = s.hrx := rfl
@[simp] theorem ev_tte (s : State) (f : FRef) (i : List Nat) : (s.ev f i).tte = s.tte := rfl
@[simp] theorem ev_mons (s : State) (f : FRef) (i : List Nat) : (s.ev f i).mons = s.mons := rfl
@[simp] theorem ev_hka (s : State) (f : FRef) (i : List Nat) : (s.ev f i).hka = s.hka := rfl
@[simp] theorem ev_loops (s : State) (f : FRef) (i : List Nat) : (s.ev f i).loops = s.loops := rfl
@[simp] theorem ev_cap (s : State) (f : FRef) (i : List Nat) : (s.ev f i).cap = s.cap := rfl
@[simp] theorem ev_jnl (s : State) (f : FRef) (i : List Nat) : (s.ev f i).jnl = s.jnl := rfl
@[simp] theorem ev_free (s : State) (f : FRef) (i : List Nat) : (s.ev f i).free = s.free := rfl
@[simp] theorem ev_pending (s : State) (f : FRef) (i : List Nat) : (s.ev f i).pending = s.pending := rfl
/-! Fields after `inc`. -/
@[simp] theorem inc_part (s : State) (f : FRef) (i : List Nat) (n : Nat) : (s.inc f i n).part = s.part := rfl
@[simp] theorem inc_under (s : State) (f : FRef) (i : List Nat) (n : Nat) : (s.inc f i n).under = s.under := rfl
@[simp] theorem inc_inUse (s : State) (f : FRef) (i : List Nat) (n : Nat) : (s.inc f i n).inUse = s.inUse := rfl
@[simp] theorem inc_snap (s : State) (f : FRef) (i : List Nat) (n : Nat) : (s.inc f i n).snap = s.snap := rfl
@[simp] theorem inc_applied (s : State) (f : FRef) (i : List Nat) (n : Nat) : (s.inc f i n).applied = s.applied := rfl
@[simp] theorem inc_seq (s : State) (f : FRef) (i : List Nat) (n : Nat) : (s.inc f i n).seq = s.seq := rfl
@[simp] theorem inc_set (s : State) (f : FRef) (i : List Nat) (n : Nat) : (s.inc f i n).set = s.set := rfl
@[simp] theorem inc_mem (s : State) (f : FRef) (i : List Nat) (n : Nat) : (s.inc f i n).mem = s.mem := rfl
@[simp] theorem inc_pwr (s : State) (f : FRef) (i : List Nat) (n : Nat) : (s.inc f i n).pwr = s.pwr := rfl
@[simp] theorem inc_clk (s : State) (f : FRef) (i : List Nat) (n : Nat) : (s.inc f i n).clk = s.clk := rfl
@[simp] theorem inc_mgmt (s : State) (f : FRef) (i : List Nat) (n : Nat) : (s.inc f i n).mgmt = s.mgmt := rfl
@[simp] theorem inc_sec (s : State) (f : FRef) (i : List Nat) (n : Nat) : (s.inc f i n).sec = s.sec := rfl
@[simp] theorem inc_cmds (s : State) (f : FRef) (i : List Nat) (n : Nat) : (s.inc f i n).cmds = s.cmds := rfl
@[simp] theorem inc_rings (s : State) (f : FRef) (i : List Nat) (n : Nat) : (s.inc f i n).rings = s.rings := rfl
@[simp] theorem inc_frames (s : State) (f : FRef) (i : List Nat) (n : Nat) : (s.inc f i n).frames = s.frames := rfl
@[simp] theorem inc_slices (s : State) (f : FRef) (i : List Nat) (n : Nat) : (s.inc f i n).slices = s.slices := rfl
@[simp] theorem inc_mig (s : State) (f : FRef) (i : List Nat) (n : Nat) : (s.inc f i n).mig = s.mig := rfl
@[simp] theorem inc_lanes (s : State) (f : FRef) (i : List Nat) (n : Nat) : (s.inc f i n).lanes = s.lanes := rfl
@[simp] theorem inc_ltx (s : State) (f : FRef) (i : List Nat) (n : Nat) : (s.inc f i n).ltx = s.ltx := rfl
@[simp] theorem inc_cals (s : State) (f : FRef) (i : List Nat) (n : Nat) : (s.inc f i n).cals = s.cals := rfl
@[simp] theorem inc_thm (s : State) (f : FRef) (i : List Nat) (n : Nat) : (s.inc f i n).thm = s.thm := rfl
@[simp] theorem inc_due (s : State) (f : FRef) (i : List Nat) (n : Nat) : (s.inc f i n).due = s.due := rfl
@[simp] theorem inc_scr (s : State) (f : FRef) (i : List Nat) (n : Nat) : (s.inc f i n).scr = s.scr := rfl
@[simp] theorem inc_plb (s : State) (f : FRef) (i : List Nat) (n : Nat) : (s.inc f i n).plb = s.plb := rfl
@[simp] theorem inc_obs (s : State) (f : FRef) (i : List Nat) (n : Nat) : (s.inc f i n).obs = s.obs := rfl
@[simp] theorem inc_hlanes (s : State) (f : FRef) (i : List Nat) (n : Nat) : (s.inc f i n).hlanes = s.hlanes := rfl
@[simp] theorem inc_hrx (s : State) (f : FRef) (i : List Nat) (n : Nat) : (s.inc f i n).hrx = s.hrx := rfl
@[simp] theorem inc_tte (s : State) (f : FRef) (i : List Nat) (n : Nat) : (s.inc f i n).tte = s.tte := rfl
@[simp] theorem inc_mons (s : State) (f : FRef) (i : List Nat) (n : Nat) : (s.inc f i n).mons = s.mons := rfl
@[simp] theorem inc_hka (s : State) (f : FRef) (i : List Nat) (n : Nat) : (s.inc f i n).hka = s.hka := rfl
@[simp] theorem inc_loops (s : State) (f : FRef) (i : List Nat) (n : Nat) : (s.inc f i n).loops = s.loops := rfl
@[simp] theorem inc_cap (s : State) (f : FRef) (i : List Nat) (n : Nat) : (s.inc f i n).cap = s.cap := rfl
@[simp] theorem inc_jnl (s : State) (f : FRef) (i : List Nat) (n : Nat) : (s.inc f i n).jnl = s.jnl := rfl
@[simp] theorem inc_free (s : State) (f : FRef) (i : List Nat) (n : Nat) : (s.inc f i n).free = s.free := rfl
@[simp] theorem inc_pending (s : State) (f : FRef) (i : List Nat) (n : Nat) : (s.inc f i n).pending = s.pending := rfl
/-! Fields after `seqEv`. -/
@[simp] theorem seqEv_part (s : State) (b : Nat) : (s.seqEv b).part = s.part := rfl
@[simp] theorem seqEv_under (s : State) (b : Nat) : (s.seqEv b).under = s.under := rfl
@[simp] theorem seqEv_inUse (s : State) (b : Nat) : (s.seqEv b).inUse = s.inUse := rfl
@[simp] theorem seqEv_snap (s : State) (b : Nat) : (s.seqEv b).snap = s.snap := rfl
@[simp] theorem seqEv_applied (s : State) (b : Nat) : (s.seqEv b).applied = s.applied := rfl
@[simp] theorem seqEv_seq (s : State) (b : Nat) : (s.seqEv b).seq = s.seq := rfl
@[simp] theorem seqEv_set (s : State) (b : Nat) : (s.seqEv b).set = s.set := rfl
@[simp] theorem seqEv_mem (s : State) (b : Nat) : (s.seqEv b).mem = s.mem := rfl
@[simp] theorem seqEv_pwr (s : State) (b : Nat) : (s.seqEv b).pwr = s.pwr := rfl
@[simp] theorem seqEv_clk (s : State) (b : Nat) : (s.seqEv b).clk = s.clk := rfl
@[simp] theorem seqEv_mgmt (s : State) (b : Nat) : (s.seqEv b).mgmt = s.mgmt := rfl
@[simp] theorem seqEv_sec (s : State) (b : Nat) : (s.seqEv b).sec = s.sec := rfl
@[simp] theorem seqEv_cmds (s : State) (b : Nat) : (s.seqEv b).cmds = s.cmds := rfl
@[simp] theorem seqEv_rings (s : State) (b : Nat) : (s.seqEv b).rings = s.rings := rfl
@[simp] theorem seqEv_frames (s : State) (b : Nat) : (s.seqEv b).frames = s.frames := rfl
@[simp] theorem seqEv_slices (s : State) (b : Nat) : (s.seqEv b).slices = s.slices := rfl
@[simp] theorem seqEv_mig (s : State) (b : Nat) : (s.seqEv b).mig = s.mig := rfl
@[simp] theorem seqEv_lanes (s : State) (b : Nat) : (s.seqEv b).lanes = s.lanes := rfl
@[simp] theorem seqEv_ltx (s : State) (b : Nat) : (s.seqEv b).ltx = s.ltx := rfl
@[simp] theorem seqEv_cals (s : State) (b : Nat) : (s.seqEv b).cals = s.cals := rfl
@[simp] theorem seqEv_thm (s : State) (b : Nat) : (s.seqEv b).thm = s.thm := rfl
@[simp] theorem seqEv_due (s : State) (b : Nat) : (s.seqEv b).due = s.due := rfl
@[simp] theorem seqEv_scr (s : State) (b : Nat) : (s.seqEv b).scr = s.scr := rfl
@[simp] theorem seqEv_plb (s : State) (b : Nat) : (s.seqEv b).plb = s.plb := rfl
@[simp] theorem seqEv_obs (s : State) (b : Nat) : (s.seqEv b).obs = s.obs := rfl
@[simp] theorem seqEv_hlanes (s : State) (b : Nat) : (s.seqEv b).hlanes = s.hlanes := rfl
@[simp] theorem seqEv_hrx (s : State) (b : Nat) : (s.seqEv b).hrx = s.hrx := rfl
@[simp] theorem seqEv_tte (s : State) (b : Nat) : (s.seqEv b).tte = s.tte := rfl
@[simp] theorem seqEv_mons (s : State) (b : Nat) : (s.seqEv b).mons = s.mons := rfl
@[simp] theorem seqEv_hka (s : State) (b : Nat) : (s.seqEv b).hka = s.hka := rfl
@[simp] theorem seqEv_loops (s : State) (b : Nat) : (s.seqEv b).loops = s.loops := rfl
@[simp] theorem seqEv_cap (s : State) (b : Nat) : (s.seqEv b).cap = s.cap := rfl
@[simp] theorem seqEv_jnl (s : State) (b : Nat) : (s.seqEv b).jnl = s.jnl := rfl
@[simp] theorem seqEv_free (s : State) (b : Nat) : (s.seqEv b).free = s.free := rfl
@[simp] theorem seqEv_pending (s : State) (b : Nat) : (s.seqEv b).pending = s.pending := rfl
/-! Fields after `take`. -/
@[simp] theorem take_part (s : State) (a : Nat) : (s.take a).part = s.part := rfl
@[simp] theorem take_live (s : State) (a : Nat) : (s.take a).live = s.live := rfl
@[simp] theorem take_under (s : State) (a : Nat) : (s.take a).under = s.under := rfl
@[simp] theorem take_snap (s : State) (a : Nat) : (s.take a).snap = s.snap := rfl
@[simp] theorem take_applied (s : State) (a : Nat) : (s.take a).applied = s.applied := rfl
@[simp] theorem take_seq (s : State) (a : Nat) : (s.take a).seq = s.seq := rfl
@[simp] theorem take_set (s : State) (a : Nat) : (s.take a).set = s.set := rfl
@[simp] theorem take_mem (s : State) (a : Nat) : (s.take a).mem = s.mem := rfl
@[simp] theorem take_pwr (s : State) (a : Nat) : (s.take a).pwr = s.pwr := rfl
@[simp] theorem take_clk (s : State) (a : Nat) : (s.take a).clk = s.clk := rfl
@[simp] theorem take_mgmt (s : State) (a : Nat) : (s.take a).mgmt = s.mgmt := rfl
@[simp] theorem take_sec (s : State) (a : Nat) : (s.take a).sec = s.sec := rfl
@[simp] theorem take_cmds (s : State) (a : Nat) : (s.take a).cmds = s.cmds := rfl
@[simp] theorem take_rings (s : State) (a : Nat) : (s.take a).rings = s.rings := rfl
@[simp] theorem take_frames (s : State) (a : Nat) : (s.take a).frames = s.frames := rfl
@[simp] theorem take_slices (s : State) (a : Nat) : (s.take a).slices = s.slices := rfl
@[simp] theorem take_mig (s : State) (a : Nat) : (s.take a).mig = s.mig := rfl
@[simp] theorem take_lanes (s : State) (a : Nat) : (s.take a).lanes = s.lanes := rfl
@[simp] theorem take_ltx (s : State) (a : Nat) : (s.take a).ltx = s.ltx := rfl
@[simp] theorem take_cals (s : State) (a : Nat) : (s.take a).cals = s.cals := rfl
@[simp] theorem take_thm (s : State) (a : Nat) : (s.take a).thm = s.thm := rfl
@[simp] theorem take_due (s : State) (a : Nat) : (s.take a).due = s.due := rfl
@[simp] theorem take_scr (s : State) (a : Nat) : (s.take a).scr = s.scr := rfl
@[simp] theorem take_plb (s : State) (a : Nat) : (s.take a).plb = s.plb := rfl
@[simp] theorem take_obs (s : State) (a : Nat) : (s.take a).obs = s.obs := rfl
@[simp] theorem take_hlanes (s : State) (a : Nat) : (s.take a).hlanes = s.hlanes := rfl
@[simp] theorem take_hrx (s : State) (a : Nat) : (s.take a).hrx = s.hrx := rfl
@[simp] theorem take_tte (s : State) (a : Nat) : (s.take a).tte = s.tte := rfl
@[simp] theorem take_mons (s : State) (a : Nat) : (s.take a).mons = s.mons := rfl
@[simp] theorem take_hka (s : State) (a : Nat) : (s.take a).hka = s.hka := rfl
@[simp] theorem take_loops (s : State) (a : Nat) : (s.take a).loops = s.loops := rfl
@[simp] theorem take_cap (s : State) (a : Nat) : (s.take a).cap = s.cap := rfl
@[simp] theorem take_jnl (s : State) (a : Nat) : (s.take a).jnl = s.jnl := rfl
@[simp] theorem take_free (s : State) (a : Nat) : (s.take a).free = s.free := rfl
@[simp] theorem take_pending (s : State) (a : Nat) : (s.take a).pending = s.pending := rfl
/-! Fields after `takeIn`. -/
@[simp] theorem takeIn_part (s : State) (lo hi : Nat) : (s.takeIn lo hi).part = s.part := rfl
@[simp] theorem takeIn_live (s : State) (lo hi : Nat) : (s.takeIn lo hi).live = s.live := rfl
@[simp] theorem takeIn_under (s : State) (lo hi : Nat) : (s.takeIn lo hi).under = s.under := rfl
@[simp] theorem takeIn_snap (s : State) (lo hi : Nat) : (s.takeIn lo hi).snap = s.snap := rfl
@[simp] theorem takeIn_applied (s : State) (lo hi : Nat) : (s.takeIn lo hi).applied = s.applied := rfl
@[simp] theorem takeIn_seq (s : State) (lo hi : Nat) : (s.takeIn lo hi).seq = s.seq := rfl
@[simp] theorem takeIn_set (s : State) (lo hi : Nat) : (s.takeIn lo hi).set = s.set := rfl
@[simp] theorem takeIn_mem (s : State) (lo hi : Nat) : (s.takeIn lo hi).mem = s.mem := rfl
@[simp] theorem takeIn_pwr (s : State) (lo hi : Nat) : (s.takeIn lo hi).pwr = s.pwr := rfl
@[simp] theorem takeIn_clk (s : State) (lo hi : Nat) : (s.takeIn lo hi).clk = s.clk := rfl
@[simp] theorem takeIn_mgmt (s : State) (lo hi : Nat) : (s.takeIn lo hi).mgmt = s.mgmt := rfl
@[simp] theorem takeIn_sec (s : State) (lo hi : Nat) : (s.takeIn lo hi).sec = s.sec := rfl
@[simp] theorem takeIn_cmds (s : State) (lo hi : Nat) : (s.takeIn lo hi).cmds = s.cmds := rfl
@[simp] theorem takeIn_rings (s : State) (lo hi : Nat) : (s.takeIn lo hi).rings = s.rings := rfl
@[simp] theorem takeIn_frames (s : State) (lo hi : Nat) : (s.takeIn lo hi).frames = s.frames := rfl
@[simp] theorem takeIn_slices (s : State) (lo hi : Nat) : (s.takeIn lo hi).slices = s.slices := rfl
@[simp] theorem takeIn_mig (s : State) (lo hi : Nat) : (s.takeIn lo hi).mig = s.mig := rfl
@[simp] theorem takeIn_lanes (s : State) (lo hi : Nat) : (s.takeIn lo hi).lanes = s.lanes := rfl
@[simp] theorem takeIn_ltx (s : State) (lo hi : Nat) : (s.takeIn lo hi).ltx = s.ltx := rfl
@[simp] theorem takeIn_cals (s : State) (lo hi : Nat) : (s.takeIn lo hi).cals = s.cals := rfl
@[simp] theorem takeIn_thm (s : State) (lo hi : Nat) : (s.takeIn lo hi).thm = s.thm := rfl
@[simp] theorem takeIn_due (s : State) (lo hi : Nat) : (s.takeIn lo hi).due = s.due := rfl
@[simp] theorem takeIn_scr (s : State) (lo hi : Nat) : (s.takeIn lo hi).scr = s.scr := rfl
@[simp] theorem takeIn_plb (s : State) (lo hi : Nat) : (s.takeIn lo hi).plb = s.plb := rfl
@[simp] theorem takeIn_obs (s : State) (lo hi : Nat) : (s.takeIn lo hi).obs = s.obs := rfl
@[simp] theorem takeIn_hlanes (s : State) (lo hi : Nat) : (s.takeIn lo hi).hlanes = s.hlanes := rfl
@[simp] theorem takeIn_hrx (s : State) (lo hi : Nat) : (s.takeIn lo hi).hrx = s.hrx := rfl
@[simp] theorem takeIn_tte (s : State) (lo hi : Nat) : (s.takeIn lo hi).tte = s.tte := rfl
@[simp] theorem takeIn_mons (s : State) (lo hi : Nat) : (s.takeIn lo hi).mons = s.mons := rfl
@[simp] theorem takeIn_hka (s : State) (lo hi : Nat) : (s.takeIn lo hi).hka = s.hka := rfl
@[simp] theorem takeIn_loops (s : State) (lo hi : Nat) : (s.takeIn lo hi).loops = s.loops := rfl
@[simp] theorem takeIn_cap (s : State) (lo hi : Nat) : (s.takeIn lo hi).cap = s.cap := rfl
@[simp] theorem takeIn_jnl (s : State) (lo hi : Nat) : (s.takeIn lo hi).jnl = s.jnl := rfl
@[simp] theorem takeIn_free (s : State) (lo hi : Nat) : (s.takeIn lo hi).free = s.free := rfl
@[simp] theorem takeIn_pending (s : State) (lo hi : Nat) : (s.takeIn lo hi).pending = s.pending := rfl
/-! Fields after `useFree`. -/
@[simp] theorem useFree_part (s : State)  : (s.useFree).part = s.part := rfl
@[simp] theorem useFree_live (s : State)  : (s.useFree).live = s.live := rfl
@[simp] theorem useFree_under (s : State)  : (s.useFree).under = s.under := rfl
@[simp] theorem useFree_inUse (s : State)  : (s.useFree).inUse = s.inUse := rfl
@[simp] theorem useFree_snap (s : State)  : (s.useFree).snap = s.snap := rfl
@[simp] theorem useFree_applied (s : State)  : (s.useFree).applied = s.applied := rfl
@[simp] theorem useFree_seq (s : State)  : (s.useFree).seq = s.seq := rfl
@[simp] theorem useFree_set (s : State)  : (s.useFree).set = s.set := rfl
@[simp] theorem useFree_mem (s : State)  : (s.useFree).mem = s.mem := rfl
@[simp] theorem useFree_pwr (s : State)  : (s.useFree).pwr = s.pwr := rfl
@[simp] theorem useFree_clk (s : State)  : (s.useFree).clk = s.clk := rfl
@[simp] theorem useFree_mgmt (s : State)  : (s.useFree).mgmt = s.mgmt := rfl
@[simp] theorem useFree_sec (s : State)  : (s.useFree).sec = s.sec := rfl
@[simp] theorem useFree_cmds (s : State)  : (s.useFree).cmds = s.cmds := rfl
@[simp] theorem useFree_rings (s : State)  : (s.useFree).rings = s.rings := rfl
@[simp] theorem useFree_frames (s : State)  : (s.useFree).frames = s.frames := rfl
@[simp] theorem useFree_slices (s : State)  : (s.useFree).slices = s.slices := rfl
@[simp] theorem useFree_mig (s : State)  : (s.useFree).mig = s.mig := rfl
@[simp] theorem useFree_lanes (s : State)  : (s.useFree).lanes = s.lanes := rfl
@[simp] theorem useFree_ltx (s : State)  : (s.useFree).ltx = s.ltx := rfl
@[simp] theorem useFree_cals (s : State)  : (s.useFree).cals = s.cals := rfl
@[simp] theorem useFree_thm (s : State)  : (s.useFree).thm = s.thm := rfl
@[simp] theorem useFree_due (s : State)  : (s.useFree).due = s.due := rfl
@[simp] theorem useFree_scr (s : State)  : (s.useFree).scr = s.scr := rfl
@[simp] theorem useFree_plb (s : State)  : (s.useFree).plb = s.plb := rfl
@[simp] theorem useFree_obs (s : State)  : (s.useFree).obs = s.obs := rfl
@[simp] theorem useFree_hlanes (s : State)  : (s.useFree).hlanes = s.hlanes := rfl
@[simp] theorem useFree_hrx (s : State)  : (s.useFree).hrx = s.hrx := rfl
@[simp] theorem useFree_tte (s : State)  : (s.useFree).tte = s.tte := rfl
@[simp] theorem useFree_mons (s : State)  : (s.useFree).mons = s.mons := rfl
@[simp] theorem useFree_hka (s : State)  : (s.useFree).hka = s.hka := rfl
@[simp] theorem useFree_loops (s : State)  : (s.useFree).loops = s.loops := rfl
@[simp] theorem useFree_cap (s : State)  : (s.useFree).cap = s.cap := rfl
@[simp] theorem useFree_jnl (s : State)  : (s.useFree).jnl = s.jnl := rfl
@[simp] theorem useFree_pending (s : State)  : (s.useFree).pending = s.pending := rfl
/-! Fields after `disarm`. -/
@[simp] theorem disarm_part (s : State) (k i : Nat) : (s.disarm k i).part = s.part := rfl
@[simp] theorem disarm_live (s : State) (k i : Nat) : (s.disarm k i).live = s.live := rfl
@[simp] theorem disarm_under (s : State) (k i : Nat) : (s.disarm k i).under = s.under := rfl
@[simp] theorem disarm_inUse (s : State) (k i : Nat) : (s.disarm k i).inUse = s.inUse := rfl
@[simp] theorem disarm_snap (s : State) (k i : Nat) : (s.disarm k i).snap = s.snap := rfl
@[simp] theorem disarm_applied (s : State) (k i : Nat) : (s.disarm k i).applied = s.applied := rfl
@[simp] theorem disarm_seq (s : State) (k i : Nat) : (s.disarm k i).seq = s.seq := rfl
@[simp] theorem disarm_set (s : State) (k i : Nat) : (s.disarm k i).set = s.set := rfl
@[simp] theorem disarm_mem (s : State) (k i : Nat) : (s.disarm k i).mem = s.mem := rfl
@[simp] theorem disarm_pwr (s : State) (k i : Nat) : (s.disarm k i).pwr = s.pwr := rfl
@[simp] theorem disarm_clk (s : State) (k i : Nat) : (s.disarm k i).clk = s.clk := rfl
@[simp] theorem disarm_mgmt (s : State) (k i : Nat) : (s.disarm k i).mgmt = s.mgmt := rfl
@[simp] theorem disarm_sec (s : State) (k i : Nat) : (s.disarm k i).sec = s.sec := rfl
@[simp] theorem disarm_cmds (s : State) (k i : Nat) : (s.disarm k i).cmds = s.cmds := rfl
@[simp] theorem disarm_rings (s : State) (k i : Nat) : (s.disarm k i).rings = s.rings := rfl
@[simp] theorem disarm_frames (s : State) (k i : Nat) : (s.disarm k i).frames = s.frames := rfl
@[simp] theorem disarm_slices (s : State) (k i : Nat) : (s.disarm k i).slices = s.slices := rfl
@[simp] theorem disarm_mig (s : State) (k i : Nat) : (s.disarm k i).mig = s.mig := rfl
@[simp] theorem disarm_lanes (s : State) (k i : Nat) : (s.disarm k i).lanes = s.lanes := rfl
@[simp] theorem disarm_ltx (s : State) (k i : Nat) : (s.disarm k i).ltx = s.ltx := rfl
@[simp] theorem disarm_cals (s : State) (k i : Nat) : (s.disarm k i).cals = s.cals := rfl
@[simp] theorem disarm_thm (s : State) (k i : Nat) : (s.disarm k i).thm = s.thm := rfl
@[simp] theorem disarm_scr (s : State) (k i : Nat) : (s.disarm k i).scr = s.scr := rfl
@[simp] theorem disarm_plb (s : State) (k i : Nat) : (s.disarm k i).plb = s.plb := rfl
@[simp] theorem disarm_obs (s : State) (k i : Nat) : (s.disarm k i).obs = s.obs := rfl
@[simp] theorem disarm_hlanes (s : State) (k i : Nat) : (s.disarm k i).hlanes = s.hlanes := rfl
@[simp] theorem disarm_hrx (s : State) (k i : Nat) : (s.disarm k i).hrx = s.hrx := rfl
@[simp] theorem disarm_tte (s : State) (k i : Nat) : (s.disarm k i).tte = s.tte := rfl
@[simp] theorem disarm_mons (s : State) (k i : Nat) : (s.disarm k i).mons = s.mons := rfl
@[simp] theorem disarm_hka (s : State) (k i : Nat) : (s.disarm k i).hka = s.hka := rfl
@[simp] theorem disarm_loops (s : State) (k i : Nat) : (s.disarm k i).loops = s.loops := rfl
@[simp] theorem disarm_cap (s : State) (k i : Nat) : (s.disarm k i).cap = s.cap := rfl
@[simp] theorem disarm_jnl (s : State) (k i : Nat) : (s.disarm k i).jnl = s.jnl := rfl
@[simp] theorem disarm_free (s : State) (k i : Nat) : (s.disarm k i).free = s.free := rfl
@[simp] theorem disarm_pending (s : State) (k i : Nat) : (s.disarm k i).pending = s.pending := rfl
/-! Fields after `sq`. -/
@[simp] theorem sq_part (s : State) (f : Seq → Seq) : (s.sq f).part = s.part := rfl
@[simp] theorem sq_live (s : State) (f : Seq → Seq) : (s.sq f).live = s.live := rfl
@[simp] theorem sq_under (s : State) (f : Seq → Seq) : (s.sq f).under = s.under := rfl
@[simp] theorem sq_inUse (s : State) (f : Seq → Seq) : (s.sq f).inUse = s.inUse := rfl
@[simp] theorem sq_snap (s : State) (f : Seq → Seq) : (s.sq f).snap = s.snap := rfl
@[simp] theorem sq_applied (s : State) (f : Seq → Seq) : (s.sq f).applied = s.applied := rfl
@[simp] theorem sq_seq (s : State) (f : Seq → Seq) : (s.sq f).seq = f s.seq := rfl
@[simp] theorem sq_set (s : State) (f : Seq → Seq) : (s.sq f).set = s.set := rfl
@[simp] theorem sq_mem (s : State) (f : Seq → Seq) : (s.sq f).mem = s.mem := rfl
@[simp] theorem sq_pwr (s : State) (f : Seq → Seq) : (s.sq f).pwr = s.pwr := rfl
@[simp] theorem sq_clk (s : State) (f : Seq → Seq) : (s.sq f).clk = s.clk := rfl
@[simp] theorem sq_mgmt (s : State) (f : Seq → Seq) : (s.sq f).mgmt = s.mgmt := rfl
@[simp] theorem sq_sec (s : State) (f : Seq → Seq) : (s.sq f).sec = s.sec := rfl
@[simp] theorem sq_cmds (s : State) (f : Seq → Seq) : (s.sq f).cmds = s.cmds := rfl
@[simp] theorem sq_rings (s : State) (f : Seq → Seq) : (s.sq f).rings = s.rings := rfl
@[simp] theorem sq_frames (s : State) (f : Seq → Seq) : (s.sq f).frames = s.frames := rfl
@[simp] theorem sq_slices (s : State) (f : Seq → Seq) : (s.sq f).slices = s.slices := rfl
@[simp] theorem sq_mig (s : State) (f : Seq → Seq) : (s.sq f).mig = s.mig := rfl
@[simp] theorem sq_lanes (s : State) (f : Seq → Seq) : (s.sq f).lanes = s.lanes := rfl
@[simp] theorem sq_ltx (s : State) (f : Seq → Seq) : (s.sq f).ltx = s.ltx := rfl
@[simp] theorem sq_cals (s : State) (f : Seq → Seq) : (s.sq f).cals = s.cals := rfl
@[simp] theorem sq_thm (s : State) (f : Seq → Seq) : (s.sq f).thm = s.thm := rfl
@[simp] theorem sq_due (s : State) (f : Seq → Seq) : (s.sq f).due = s.due := rfl
@[simp] theorem sq_scr (s : State) (f : Seq → Seq) : (s.sq f).scr = s.scr := rfl
@[simp] theorem sq_plb (s : State) (f : Seq → Seq) : (s.sq f).plb = s.plb := rfl
@[simp] theorem sq_obs (s : State) (f : Seq → Seq) : (s.sq f).obs = s.obs := rfl
@[simp] theorem sq_hlanes (s : State) (f : Seq → Seq) : (s.sq f).hlanes = s.hlanes := rfl
@[simp] theorem sq_hrx (s : State) (f : Seq → Seq) : (s.sq f).hrx = s.hrx := rfl
@[simp] theorem sq_tte (s : State) (f : Seq → Seq) : (s.sq f).tte = s.tte := rfl
@[simp] theorem sq_mons (s : State) (f : Seq → Seq) : (s.sq f).mons = s.mons := rfl
@[simp] theorem sq_hka (s : State) (f : Seq → Seq) : (s.sq f).hka = s.hka := rfl
@[simp] theorem sq_loops (s : State) (f : Seq → Seq) : (s.sq f).loops = s.loops := rfl
@[simp] theorem sq_cap (s : State) (f : Seq → Seq) : (s.sq f).cap = s.cap := rfl
@[simp] theorem sq_jnl (s : State) (f : Seq → Seq) : (s.sq f).jnl = s.jnl := rfl
@[simp] theorem sq_free (s : State) (f : Seq → Seq) : (s.sq f).free = s.free := rfl
@[simp] theorem sq_pending (s : State) (f : Seq → Seq) : (s.sq f).pending = s.pending := rfl
@[simp] theorem sq_get (s : State) (f : Seq → Seq) (g : FRef) (i : List Nat) : (s.sq f).get g i = s.get g i := rfl
@[simp] theorem sq_on (s : State) (f : Seq → Seq) (g : FRef) (i : List Nat) : (s.sq f).on g i = s.on g i := rfl
@[simp] theorem sq_liveAt (s : State) (f : Seq → Seq) (a : Nat) : (s.sq f).liveAt a = s.liveAt a := rfl
/-! Fields after `st`. -/
@[simp] theorem st_part (s : State) (f : SetSt → SetSt) : (s.st f).part = s.part := rfl
@[simp] theorem st_live (s : State) (f : SetSt → SetSt) : (s.st f).live = s.live := rfl
@[simp] theorem st_under (s : State) (f : SetSt → SetSt) : (s.st f).under = s.under := rfl
@[simp] theorem st_inUse (s : State) (f : SetSt → SetSt) : (s.st f).inUse = s.inUse := rfl
@[simp] theorem st_snap (s : State) (f : SetSt → SetSt) : (s.st f).snap = s.snap := rfl
@[simp] theorem st_applied (s : State) (f : SetSt → SetSt) : (s.st f).applied = s.applied := rfl
@[simp] theorem st_seq (s : State) (f : SetSt → SetSt) : (s.st f).seq = s.seq := rfl
@[simp] theorem st_set (s : State) (f : SetSt → SetSt) : (s.st f).set = f s.set := rfl
@[simp] theorem st_mem (s : State) (f : SetSt → SetSt) : (s.st f).mem = s.mem := rfl
@[simp] theorem st_pwr (s : State) (f : SetSt → SetSt) : (s.st f).pwr = s.pwr := rfl
@[simp] theorem st_clk (s : State) (f : SetSt → SetSt) : (s.st f).clk = s.clk := rfl
@[simp] theorem st_mgmt (s : State) (f : SetSt → SetSt) : (s.st f).mgmt = s.mgmt := rfl
@[simp] theorem st_sec (s : State) (f : SetSt → SetSt) : (s.st f).sec = s.sec := rfl
@[simp] theorem st_cmds (s : State) (f : SetSt → SetSt) : (s.st f).cmds = s.cmds := rfl
@[simp] theorem st_rings (s : State) (f : SetSt → SetSt) : (s.st f).rings = s.rings := rfl
@[simp] theorem st_frames (s : State) (f : SetSt → SetSt) : (s.st f).frames = s.frames := rfl
@[simp] theorem st_slices (s : State) (f : SetSt → SetSt) : (s.st f).slices = s.slices := rfl
@[simp] theorem st_mig (s : State) (f : SetSt → SetSt) : (s.st f).mig = s.mig := rfl
@[simp] theorem st_lanes (s : State) (f : SetSt → SetSt) : (s.st f).lanes = s.lanes := rfl
@[simp] theorem st_ltx (s : State) (f : SetSt → SetSt) : (s.st f).ltx = s.ltx := rfl
@[simp] theorem st_cals (s : State) (f : SetSt → SetSt) : (s.st f).cals = s.cals := rfl
@[simp] theorem st_thm (s : State) (f : SetSt → SetSt) : (s.st f).thm = s.thm := rfl
@[simp] theorem st_due (s : State) (f : SetSt → SetSt) : (s.st f).due = s.due := rfl
@[simp] theorem st_scr (s : State) (f : SetSt → SetSt) : (s.st f).scr = s.scr := rfl
@[simp] theorem st_plb (s : State) (f : SetSt → SetSt) : (s.st f).plb = s.plb := rfl
@[simp] theorem st_obs (s : State) (f : SetSt → SetSt) : (s.st f).obs = s.obs := rfl
@[simp] theorem st_hlanes (s : State) (f : SetSt → SetSt) : (s.st f).hlanes = s.hlanes := rfl
@[simp] theorem st_hrx (s : State) (f : SetSt → SetSt) : (s.st f).hrx = s.hrx := rfl
@[simp] theorem st_tte (s : State) (f : SetSt → SetSt) : (s.st f).tte = s.tte := rfl
@[simp] theorem st_mons (s : State) (f : SetSt → SetSt) : (s.st f).mons = s.mons := rfl
@[simp] theorem st_hka (s : State) (f : SetSt → SetSt) : (s.st f).hka = s.hka := rfl
@[simp] theorem st_loops (s : State) (f : SetSt → SetSt) : (s.st f).loops = s.loops := rfl
@[simp] theorem st_cap (s : State) (f : SetSt → SetSt) : (s.st f).cap = s.cap := rfl
@[simp] theorem st_jnl (s : State) (f : SetSt → SetSt) : (s.st f).jnl = s.jnl := rfl
@[simp] theorem st_free (s : State) (f : SetSt → SetSt) : (s.st f).free = s.free := rfl
@[simp] theorem st_pending (s : State) (f : SetSt → SetSt) : (s.st f).pending = s.pending := rfl
@[simp] theorem st_get (s : State) (f : SetSt → SetSt) (g : FRef) (i : List Nat) : (s.st f).get g i = s.get g i := rfl
@[simp] theorem st_on (s : State) (f : SetSt → SetSt) (g : FRef) (i : List Nat) : (s.st f).on g i = s.on g i := rfl
@[simp] theorem st_liveAt (s : State) (f : SetSt → SetSt) (a : Nat) : (s.st f).liveAt a = s.liveAt a := rfl
/-! Fields after `pw`. -/
@[simp] theorem pw_part (s : State) (f : Pwr → Pwr) : (s.pw f).part = s.part := rfl
@[simp] theorem pw_live (s : State) (f : Pwr → Pwr) : (s.pw f).live = s.live := rfl
@[simp] theorem pw_under (s : State) (f : Pwr → Pwr) : (s.pw f).under = s.under := rfl
@[simp] theorem pw_inUse (s : State) (f : Pwr → Pwr) : (s.pw f).inUse = s.inUse := rfl
@[simp] theorem pw_snap (s : State) (f : Pwr → Pwr) : (s.pw f).snap = s.snap := rfl
@[simp] theorem pw_applied (s : State) (f : Pwr → Pwr) : (s.pw f).applied = s.applied := rfl
@[simp] theorem pw_seq (s : State) (f : Pwr → Pwr) : (s.pw f).seq = s.seq := rfl
@[simp] theorem pw_set (s : State) (f : Pwr → Pwr) : (s.pw f).set = s.set := rfl
@[simp] theorem pw_mem (s : State) (f : Pwr → Pwr) : (s.pw f).mem = s.mem := rfl
@[simp] theorem pw_pwr (s : State) (f : Pwr → Pwr) : (s.pw f).pwr = f s.pwr := rfl
@[simp] theorem pw_clk (s : State) (f : Pwr → Pwr) : (s.pw f).clk = s.clk := rfl
@[simp] theorem pw_mgmt (s : State) (f : Pwr → Pwr) : (s.pw f).mgmt = s.mgmt := rfl
@[simp] theorem pw_sec (s : State) (f : Pwr → Pwr) : (s.pw f).sec = s.sec := rfl
@[simp] theorem pw_cmds (s : State) (f : Pwr → Pwr) : (s.pw f).cmds = s.cmds := rfl
@[simp] theorem pw_rings (s : State) (f : Pwr → Pwr) : (s.pw f).rings = s.rings := rfl
@[simp] theorem pw_frames (s : State) (f : Pwr → Pwr) : (s.pw f).frames = s.frames := rfl
@[simp] theorem pw_slices (s : State) (f : Pwr → Pwr) : (s.pw f).slices = s.slices := rfl
@[simp] theorem pw_mig (s : State) (f : Pwr → Pwr) : (s.pw f).mig = s.mig := rfl
@[simp] theorem pw_lanes (s : State) (f : Pwr → Pwr) : (s.pw f).lanes = s.lanes := rfl
@[simp] theorem pw_ltx (s : State) (f : Pwr → Pwr) : (s.pw f).ltx = s.ltx := rfl
@[simp] theorem pw_cals (s : State) (f : Pwr → Pwr) : (s.pw f).cals = s.cals := rfl
@[simp] theorem pw_thm (s : State) (f : Pwr → Pwr) : (s.pw f).thm = s.thm := rfl
@[simp] theorem pw_due (s : State) (f : Pwr → Pwr) : (s.pw f).due = s.due := rfl
@[simp] theorem pw_scr (s : State) (f : Pwr → Pwr) : (s.pw f).scr = s.scr := rfl
@[simp] theorem pw_plb (s : State) (f : Pwr → Pwr) : (s.pw f).plb = s.plb := rfl
@[simp] theorem pw_obs (s : State) (f : Pwr → Pwr) : (s.pw f).obs = s.obs := rfl
@[simp] theorem pw_hlanes (s : State) (f : Pwr → Pwr) : (s.pw f).hlanes = s.hlanes := rfl
@[simp] theorem pw_hrx (s : State) (f : Pwr → Pwr) : (s.pw f).hrx = s.hrx := rfl
@[simp] theorem pw_tte (s : State) (f : Pwr → Pwr) : (s.pw f).tte = s.tte := rfl
@[simp] theorem pw_mons (s : State) (f : Pwr → Pwr) : (s.pw f).mons = s.mons := rfl
@[simp] theorem pw_hka (s : State) (f : Pwr → Pwr) : (s.pw f).hka = s.hka := rfl
@[simp] theorem pw_loops (s : State) (f : Pwr → Pwr) : (s.pw f).loops = s.loops := rfl
@[simp] theorem pw_cap (s : State) (f : Pwr → Pwr) : (s.pw f).cap = s.cap := rfl
@[simp] theorem pw_jnl (s : State) (f : Pwr → Pwr) : (s.pw f).jnl = s.jnl := rfl
@[simp] theorem pw_free (s : State) (f : Pwr → Pwr) : (s.pw f).free = s.free := rfl
@[simp] theorem pw_pending (s : State) (f : Pwr → Pwr) : (s.pw f).pending = s.pending := rfl
@[simp] theorem pw_get (s : State) (f : Pwr → Pwr) (g : FRef) (i : List Nat) : (s.pw f).get g i = s.get g i := rfl
@[simp] theorem pw_on (s : State) (f : Pwr → Pwr) (g : FRef) (i : List Nat) : (s.pw f).on g i = s.on g i := rfl
@[simp] theorem pw_liveAt (s : State) (f : Pwr → Pwr) (a : Nat) : (s.pw f).liveAt a = s.liveAt a := rfl
/-! Fields after `ck`. -/
@[simp] theorem ck_part (s : State) (f : Clk → Clk) : (s.ck f).part = s.part := rfl
@[simp] theorem ck_live (s : State) (f : Clk → Clk) : (s.ck f).live = s.live := rfl
@[simp] theorem ck_under (s : State) (f : Clk → Clk) : (s.ck f).under = s.under := rfl
@[simp] theorem ck_inUse (s : State) (f : Clk → Clk) : (s.ck f).inUse = s.inUse := rfl
@[simp] theorem ck_snap (s : State) (f : Clk → Clk) : (s.ck f).snap = s.snap := rfl
@[simp] theorem ck_applied (s : State) (f : Clk → Clk) : (s.ck f).applied = s.applied := rfl
@[simp] theorem ck_seq (s : State) (f : Clk → Clk) : (s.ck f).seq = s.seq := rfl
@[simp] theorem ck_set (s : State) (f : Clk → Clk) : (s.ck f).set = s.set := rfl
@[simp] theorem ck_mem (s : State) (f : Clk → Clk) : (s.ck f).mem = s.mem := rfl
@[simp] theorem ck_pwr (s : State) (f : Clk → Clk) : (s.ck f).pwr = s.pwr := rfl
@[simp] theorem ck_clk (s : State) (f : Clk → Clk) : (s.ck f).clk = f s.clk := rfl
@[simp] theorem ck_mgmt (s : State) (f : Clk → Clk) : (s.ck f).mgmt = s.mgmt := rfl
@[simp] theorem ck_sec (s : State) (f : Clk → Clk) : (s.ck f).sec = s.sec := rfl
@[simp] theorem ck_cmds (s : State) (f : Clk → Clk) : (s.ck f).cmds = s.cmds := rfl
@[simp] theorem ck_rings (s : State) (f : Clk → Clk) : (s.ck f).rings = s.rings := rfl
@[simp] theorem ck_frames (s : State) (f : Clk → Clk) : (s.ck f).frames = s.frames := rfl
@[simp] theorem ck_slices (s : State) (f : Clk → Clk) : (s.ck f).slices = s.slices := rfl
@[simp] theorem ck_mig (s : State) (f : Clk → Clk) : (s.ck f).mig = s.mig := rfl
@[simp] theorem ck_lanes (s : State) (f : Clk → Clk) : (s.ck f).lanes = s.lanes := rfl
@[simp] theorem ck_ltx (s : State) (f : Clk → Clk) : (s.ck f).ltx = s.ltx := rfl
@[simp] theorem ck_cals (s : State) (f : Clk → Clk) : (s.ck f).cals = s.cals := rfl
@[simp] theorem ck_thm (s : State) (f : Clk → Clk) : (s.ck f).thm = s.thm := rfl
@[simp] theorem ck_due (s : State) (f : Clk → Clk) : (s.ck f).due = s.due := rfl
@[simp] theorem ck_scr (s : State) (f : Clk → Clk) : (s.ck f).scr = s.scr := rfl
@[simp] theorem ck_plb (s : State) (f : Clk → Clk) : (s.ck f).plb = s.plb := rfl
@[simp] theorem ck_obs (s : State) (f : Clk → Clk) : (s.ck f).obs = s.obs := rfl
@[simp] theorem ck_hlanes (s : State) (f : Clk → Clk) : (s.ck f).hlanes = s.hlanes := rfl
@[simp] theorem ck_hrx (s : State) (f : Clk → Clk) : (s.ck f).hrx = s.hrx := rfl
@[simp] theorem ck_tte (s : State) (f : Clk → Clk) : (s.ck f).tte = s.tte := rfl
@[simp] theorem ck_mons (s : State) (f : Clk → Clk) : (s.ck f).mons = s.mons := rfl
@[simp] theorem ck_hka (s : State) (f : Clk → Clk) : (s.ck f).hka = s.hka := rfl
@[simp] theorem ck_loops (s : State) (f : Clk → Clk) : (s.ck f).loops = s.loops := rfl
@[simp] theorem ck_cap (s : State) (f : Clk → Clk) : (s.ck f).cap = s.cap := rfl
@[simp] theorem ck_jnl (s : State) (f : Clk → Clk) : (s.ck f).jnl = s.jnl := rfl
@[simp] theorem ck_free (s : State) (f : Clk → Clk) : (s.ck f).free = s.free := rfl
@[simp] theorem ck_pending (s : State) (f : Clk → Clk) : (s.ck f).pending = s.pending := rfl
@[simp] theorem ck_get (s : State) (f : Clk → Clk) (g : FRef) (i : List Nat) : (s.ck f).get g i = s.get g i := rfl
@[simp] theorem ck_on (s : State) (f : Clk → Clk) (g : FRef) (i : List Nat) : (s.ck f).on g i = s.on g i := rfl
@[simp] theorem ck_liveAt (s : State) (f : Clk → Clk) (a : Nat) : (s.ck f).liveAt a = s.liveAt a := rfl
/-! Fields after `mgm`. -/
@[simp] theorem mgm_part (s : State) (f : Mgmt → Mgmt) : (s.mgm f).part = s.part := rfl
@[simp] theorem mgm_live (s : State) (f : Mgmt → Mgmt) : (s.mgm f).live = s.live := rfl
@[simp] theorem mgm_under (s : State) (f : Mgmt → Mgmt) : (s.mgm f).under = s.under := rfl
@[simp] theorem mgm_inUse (s : State) (f : Mgmt → Mgmt) : (s.mgm f).inUse = s.inUse := rfl
@[simp] theorem mgm_snap (s : State) (f : Mgmt → Mgmt) : (s.mgm f).snap = s.snap := rfl
@[simp] theorem mgm_applied (s : State) (f : Mgmt → Mgmt) : (s.mgm f).applied = s.applied := rfl
@[simp] theorem mgm_seq (s : State) (f : Mgmt → Mgmt) : (s.mgm f).seq = s.seq := rfl
@[simp] theorem mgm_set (s : State) (f : Mgmt → Mgmt) : (s.mgm f).set = s.set := rfl
@[simp] theorem mgm_mem (s : State) (f : Mgmt → Mgmt) : (s.mgm f).mem = s.mem := rfl
@[simp] theorem mgm_pwr (s : State) (f : Mgmt → Mgmt) : (s.mgm f).pwr = s.pwr := rfl
@[simp] theorem mgm_clk (s : State) (f : Mgmt → Mgmt) : (s.mgm f).clk = s.clk := rfl
@[simp] theorem mgm_mgmt (s : State) (f : Mgmt → Mgmt) : (s.mgm f).mgmt = f s.mgmt := rfl
@[simp] theorem mgm_sec (s : State) (f : Mgmt → Mgmt) : (s.mgm f).sec = s.sec := rfl
@[simp] theorem mgm_cmds (s : State) (f : Mgmt → Mgmt) : (s.mgm f).cmds = s.cmds := rfl
@[simp] theorem mgm_rings (s : State) (f : Mgmt → Mgmt) : (s.mgm f).rings = s.rings := rfl
@[simp] theorem mgm_frames (s : State) (f : Mgmt → Mgmt) : (s.mgm f).frames = s.frames := rfl
@[simp] theorem mgm_slices (s : State) (f : Mgmt → Mgmt) : (s.mgm f).slices = s.slices := rfl
@[simp] theorem mgm_mig (s : State) (f : Mgmt → Mgmt) : (s.mgm f).mig = s.mig := rfl
@[simp] theorem mgm_lanes (s : State) (f : Mgmt → Mgmt) : (s.mgm f).lanes = s.lanes := rfl
@[simp] theorem mgm_ltx (s : State) (f : Mgmt → Mgmt) : (s.mgm f).ltx = s.ltx := rfl
@[simp] theorem mgm_cals (s : State) (f : Mgmt → Mgmt) : (s.mgm f).cals = s.cals := rfl
@[simp] theorem mgm_thm (s : State) (f : Mgmt → Mgmt) : (s.mgm f).thm = s.thm := rfl
@[simp] theorem mgm_due (s : State) (f : Mgmt → Mgmt) : (s.mgm f).due = s.due := rfl
@[simp] theorem mgm_scr (s : State) (f : Mgmt → Mgmt) : (s.mgm f).scr = s.scr := rfl
@[simp] theorem mgm_plb (s : State) (f : Mgmt → Mgmt) : (s.mgm f).plb = s.plb := rfl
@[simp] theorem mgm_obs (s : State) (f : Mgmt → Mgmt) : (s.mgm f).obs = s.obs := rfl
@[simp] theorem mgm_hlanes (s : State) (f : Mgmt → Mgmt) : (s.mgm f).hlanes = s.hlanes := rfl
@[simp] theorem mgm_hrx (s : State) (f : Mgmt → Mgmt) : (s.mgm f).hrx = s.hrx := rfl
@[simp] theorem mgm_tte (s : State) (f : Mgmt → Mgmt) : (s.mgm f).tte = s.tte := rfl
@[simp] theorem mgm_mons (s : State) (f : Mgmt → Mgmt) : (s.mgm f).mons = s.mons := rfl
@[simp] theorem mgm_hka (s : State) (f : Mgmt → Mgmt) : (s.mgm f).hka = s.hka := rfl
@[simp] theorem mgm_loops (s : State) (f : Mgmt → Mgmt) : (s.mgm f).loops = s.loops := rfl
@[simp] theorem mgm_cap (s : State) (f : Mgmt → Mgmt) : (s.mgm f).cap = s.cap := rfl
@[simp] theorem mgm_jnl (s : State) (f : Mgmt → Mgmt) : (s.mgm f).jnl = s.jnl := rfl
@[simp] theorem mgm_free (s : State) (f : Mgmt → Mgmt) : (s.mgm f).free = s.free := rfl
@[simp] theorem mgm_pending (s : State) (f : Mgmt → Mgmt) : (s.mgm f).pending = s.pending := rfl
@[simp] theorem mgm_get (s : State) (f : Mgmt → Mgmt) (g : FRef) (i : List Nat) : (s.mgm f).get g i = s.get g i := rfl
@[simp] theorem mgm_on (s : State) (f : Mgmt → Mgmt) (g : FRef) (i : List Nat) : (s.mgm f).on g i = s.on g i := rfl
@[simp] theorem mgm_liveAt (s : State) (f : Mgmt → Mgmt) (a : Nat) : (s.mgm f).liveAt a = s.liveAt a := rfl
/-! Fields after `sc`. -/
@[simp] theorem sc_part (s : State) (f : Sec → Sec) : (s.sc f).part = s.part := rfl
@[simp] theorem sc_live (s : State) (f : Sec → Sec) : (s.sc f).live = s.live := rfl
@[simp] theorem sc_under (s : State) (f : Sec → Sec) : (s.sc f).under = s.under := rfl
@[simp] theorem sc_inUse (s : State) (f : Sec → Sec) : (s.sc f).inUse = s.inUse := rfl
@[simp] theorem sc_snap (s : State) (f : Sec → Sec) : (s.sc f).snap = s.snap := rfl
@[simp] theorem sc_applied (s : State) (f : Sec → Sec) : (s.sc f).applied = s.applied := rfl
@[simp] theorem sc_seq (s : State) (f : Sec → Sec) : (s.sc f).seq = s.seq := rfl
@[simp] theorem sc_set (s : State) (f : Sec → Sec) : (s.sc f).set = s.set := rfl
@[simp] theorem sc_mem (s : State) (f : Sec → Sec) : (s.sc f).mem = s.mem := rfl
@[simp] theorem sc_pwr (s : State) (f : Sec → Sec) : (s.sc f).pwr = s.pwr := rfl
@[simp] theorem sc_clk (s : State) (f : Sec → Sec) : (s.sc f).clk = s.clk := rfl
@[simp] theorem sc_mgmt (s : State) (f : Sec → Sec) : (s.sc f).mgmt = s.mgmt := rfl
@[simp] theorem sc_sec (s : State) (f : Sec → Sec) : (s.sc f).sec = f s.sec := rfl
@[simp] theorem sc_cmds (s : State) (f : Sec → Sec) : (s.sc f).cmds = s.cmds := rfl
@[simp] theorem sc_rings (s : State) (f : Sec → Sec) : (s.sc f).rings = s.rings := rfl
@[simp] theorem sc_frames (s : State) (f : Sec → Sec) : (s.sc f).frames = s.frames := rfl
@[simp] theorem sc_slices (s : State) (f : Sec → Sec) : (s.sc f).slices = s.slices := rfl
@[simp] theorem sc_mig (s : State) (f : Sec → Sec) : (s.sc f).mig = s.mig := rfl
@[simp] theorem sc_lanes (s : State) (f : Sec → Sec) : (s.sc f).lanes = s.lanes := rfl
@[simp] theorem sc_ltx (s : State) (f : Sec → Sec) : (s.sc f).ltx = s.ltx := rfl
@[simp] theorem sc_cals (s : State) (f : Sec → Sec) : (s.sc f).cals = s.cals := rfl
@[simp] theorem sc_thm (s : State) (f : Sec → Sec) : (s.sc f).thm = s.thm := rfl
@[simp] theorem sc_due (s : State) (f : Sec → Sec) : (s.sc f).due = s.due := rfl
@[simp] theorem sc_scr (s : State) (f : Sec → Sec) : (s.sc f).scr = s.scr := rfl
@[simp] theorem sc_plb (s : State) (f : Sec → Sec) : (s.sc f).plb = s.plb := rfl
@[simp] theorem sc_obs (s : State) (f : Sec → Sec) : (s.sc f).obs = s.obs := rfl
@[simp] theorem sc_hlanes (s : State) (f : Sec → Sec) : (s.sc f).hlanes = s.hlanes := rfl
@[simp] theorem sc_hrx (s : State) (f : Sec → Sec) : (s.sc f).hrx = s.hrx := rfl
@[simp] theorem sc_tte (s : State) (f : Sec → Sec) : (s.sc f).tte = s.tte := rfl
@[simp] theorem sc_mons (s : State) (f : Sec → Sec) : (s.sc f).mons = s.mons := rfl
@[simp] theorem sc_hka (s : State) (f : Sec → Sec) : (s.sc f).hka = s.hka := rfl
@[simp] theorem sc_loops (s : State) (f : Sec → Sec) : (s.sc f).loops = s.loops := rfl
@[simp] theorem sc_cap (s : State) (f : Sec → Sec) : (s.sc f).cap = s.cap := rfl
@[simp] theorem sc_jnl (s : State) (f : Sec → Sec) : (s.sc f).jnl = s.jnl := rfl
@[simp] theorem sc_free (s : State) (f : Sec → Sec) : (s.sc f).free = s.free := rfl
@[simp] theorem sc_pending (s : State) (f : Sec → Sec) : (s.sc f).pending = s.pending := rfl
@[simp] theorem sc_get (s : State) (f : Sec → Sec) (g : FRef) (i : List Nat) : (s.sc f).get g i = s.get g i := rfl
@[simp] theorem sc_on (s : State) (f : Sec → Sec) (g : FRef) (i : List Nat) : (s.sc f).on g i = s.on g i := rfl
@[simp] theorem sc_liveAt (s : State) (f : Sec → Sec) (a : Nat) : (s.sc f).liveAt a = s.liveAt a := rfl
/-! Fields after `mg`. -/
@[simp] theorem mg_part (s : State) (f : Mig → Mig) : (s.mg f).part = s.part := rfl
@[simp] theorem mg_live (s : State) (f : Mig → Mig) : (s.mg f).live = s.live := rfl
@[simp] theorem mg_under (s : State) (f : Mig → Mig) : (s.mg f).under = s.under := rfl
@[simp] theorem mg_inUse (s : State) (f : Mig → Mig) : (s.mg f).inUse = s.inUse := rfl
@[simp] theorem mg_snap (s : State) (f : Mig → Mig) : (s.mg f).snap = s.snap := rfl
@[simp] theorem mg_applied (s : State) (f : Mig → Mig) : (s.mg f).applied = s.applied := rfl
@[simp] theorem mg_seq (s : State) (f : Mig → Mig) : (s.mg f).seq = s.seq := rfl
@[simp] theorem mg_set (s : State) (f : Mig → Mig) : (s.mg f).set = s.set := rfl
@[simp] theorem mg_mem (s : State) (f : Mig → Mig) : (s.mg f).mem = s.mem := rfl
@[simp] theorem mg_pwr (s : State) (f : Mig → Mig) : (s.mg f).pwr = s.pwr := rfl
@[simp] theorem mg_clk (s : State) (f : Mig → Mig) : (s.mg f).clk = s.clk := rfl
@[simp] theorem mg_mgmt (s : State) (f : Mig → Mig) : (s.mg f).mgmt = s.mgmt := rfl
@[simp] theorem mg_sec (s : State) (f : Mig → Mig) : (s.mg f).sec = s.sec := rfl
@[simp] theorem mg_cmds (s : State) (f : Mig → Mig) : (s.mg f).cmds = s.cmds := rfl
@[simp] theorem mg_rings (s : State) (f : Mig → Mig) : (s.mg f).rings = s.rings := rfl
@[simp] theorem mg_frames (s : State) (f : Mig → Mig) : (s.mg f).frames = s.frames := rfl
@[simp] theorem mg_slices (s : State) (f : Mig → Mig) : (s.mg f).slices = s.slices := rfl
@[simp] theorem mg_mig (s : State) (f : Mig → Mig) : (s.mg f).mig = f s.mig := rfl
@[simp] theorem mg_lanes (s : State) (f : Mig → Mig) : (s.mg f).lanes = s.lanes := rfl
@[simp] theorem mg_ltx (s : State) (f : Mig → Mig) : (s.mg f).ltx = s.ltx := rfl
@[simp] theorem mg_cals (s : State) (f : Mig → Mig) : (s.mg f).cals = s.cals := rfl
@[simp] theorem mg_thm (s : State) (f : Mig → Mig) : (s.mg f).thm = s.thm := rfl
@[simp] theorem mg_due (s : State) (f : Mig → Mig) : (s.mg f).due = s.due := rfl
@[simp] theorem mg_scr (s : State) (f : Mig → Mig) : (s.mg f).scr = s.scr := rfl
@[simp] theorem mg_plb (s : State) (f : Mig → Mig) : (s.mg f).plb = s.plb := rfl
@[simp] theorem mg_obs (s : State) (f : Mig → Mig) : (s.mg f).obs = s.obs := rfl
@[simp] theorem mg_hlanes (s : State) (f : Mig → Mig) : (s.mg f).hlanes = s.hlanes := rfl
@[simp] theorem mg_hrx (s : State) (f : Mig → Mig) : (s.mg f).hrx = s.hrx := rfl
@[simp] theorem mg_tte (s : State) (f : Mig → Mig) : (s.mg f).tte = s.tte := rfl
@[simp] theorem mg_mons (s : State) (f : Mig → Mig) : (s.mg f).mons = s.mons := rfl
@[simp] theorem mg_hka (s : State) (f : Mig → Mig) : (s.mg f).hka = s.hka := rfl
@[simp] theorem mg_loops (s : State) (f : Mig → Mig) : (s.mg f).loops = s.loops := rfl
@[simp] theorem mg_cap (s : State) (f : Mig → Mig) : (s.mg f).cap = s.cap := rfl
@[simp] theorem mg_jnl (s : State) (f : Mig → Mig) : (s.mg f).jnl = s.jnl := rfl
@[simp] theorem mg_free (s : State) (f : Mig → Mig) : (s.mg f).free = s.free := rfl
@[simp] theorem mg_pending (s : State) (f : Mig → Mig) : (s.mg f).pending = s.pending := rfl
@[simp] theorem mg_get (s : State) (f : Mig → Mig) (g : FRef) (i : List Nat) : (s.mg f).get g i = s.get g i := rfl
@[simp] theorem mg_on (s : State) (f : Mig → Mig) (g : FRef) (i : List Nat) : (s.mg f).on g i = s.on g i := rfl
@[simp] theorem mg_liveAt (s : State) (f : Mig → Mig) (a : Nat) : (s.mg f).liveAt a = s.liveAt a := rfl
/-! Fields after `th`. -/
@[simp] theorem th_part (s : State) (f : Thermal → Thermal) : (s.th f).part = s.part := rfl
@[simp] theorem th_live (s : State) (f : Thermal → Thermal) : (s.th f).live = s.live := rfl
@[simp] theorem th_under (s : State) (f : Thermal → Thermal) : (s.th f).under = s.under := rfl
@[simp] theorem th_inUse (s : State) (f : Thermal → Thermal) : (s.th f).inUse = s.inUse := rfl
@[simp] theorem th_snap (s : State) (f : Thermal → Thermal) : (s.th f).snap = s.snap := rfl
@[simp] theorem th_applied (s : State) (f : Thermal → Thermal) : (s.th f).applied = s.applied := rfl
@[simp] theorem th_seq (s : State) (f : Thermal → Thermal) : (s.th f).seq = s.seq := rfl
@[simp] theorem th_set (s : State) (f : Thermal → Thermal) : (s.th f).set = s.set := rfl
@[simp] theorem th_mem (s : State) (f : Thermal → Thermal) : (s.th f).mem = s.mem := rfl
@[simp] theorem th_pwr (s : State) (f : Thermal → Thermal) : (s.th f).pwr = s.pwr := rfl
@[simp] theorem th_clk (s : State) (f : Thermal → Thermal) : (s.th f).clk = s.clk := rfl
@[simp] theorem th_mgmt (s : State) (f : Thermal → Thermal) : (s.th f).mgmt = s.mgmt := rfl
@[simp] theorem th_sec (s : State) (f : Thermal → Thermal) : (s.th f).sec = s.sec := rfl
@[simp] theorem th_cmds (s : State) (f : Thermal → Thermal) : (s.th f).cmds = s.cmds := rfl
@[simp] theorem th_rings (s : State) (f : Thermal → Thermal) : (s.th f).rings = s.rings := rfl
@[simp] theorem th_frames (s : State) (f : Thermal → Thermal) : (s.th f).frames = s.frames := rfl
@[simp] theorem th_slices (s : State) (f : Thermal → Thermal) : (s.th f).slices = s.slices := rfl
@[simp] theorem th_mig (s : State) (f : Thermal → Thermal) : (s.th f).mig = s.mig := rfl
@[simp] theorem th_lanes (s : State) (f : Thermal → Thermal) : (s.th f).lanes = s.lanes := rfl
@[simp] theorem th_ltx (s : State) (f : Thermal → Thermal) : (s.th f).ltx = s.ltx := rfl
@[simp] theorem th_cals (s : State) (f : Thermal → Thermal) : (s.th f).cals = s.cals := rfl
@[simp] theorem th_thm (s : State) (f : Thermal → Thermal) : (s.th f).thm = f s.thm := rfl
@[simp] theorem th_due (s : State) (f : Thermal → Thermal) : (s.th f).due = s.due := rfl
@[simp] theorem th_scr (s : State) (f : Thermal → Thermal) : (s.th f).scr = s.scr := rfl
@[simp] theorem th_plb (s : State) (f : Thermal → Thermal) : (s.th f).plb = s.plb := rfl
@[simp] theorem th_obs (s : State) (f : Thermal → Thermal) : (s.th f).obs = s.obs := rfl
@[simp] theorem th_hlanes (s : State) (f : Thermal → Thermal) : (s.th f).hlanes = s.hlanes := rfl
@[simp] theorem th_hrx (s : State) (f : Thermal → Thermal) : (s.th f).hrx = s.hrx := rfl
@[simp] theorem th_tte (s : State) (f : Thermal → Thermal) : (s.th f).tte = s.tte := rfl
@[simp] theorem th_mons (s : State) (f : Thermal → Thermal) : (s.th f).mons = s.mons := rfl
@[simp] theorem th_hka (s : State) (f : Thermal → Thermal) : (s.th f).hka = s.hka := rfl
@[simp] theorem th_loops (s : State) (f : Thermal → Thermal) : (s.th f).loops = s.loops := rfl
@[simp] theorem th_cap (s : State) (f : Thermal → Thermal) : (s.th f).cap = s.cap := rfl
@[simp] theorem th_jnl (s : State) (f : Thermal → Thermal) : (s.th f).jnl = s.jnl := rfl
@[simp] theorem th_free (s : State) (f : Thermal → Thermal) : (s.th f).free = s.free := rfl
@[simp] theorem th_pending (s : State) (f : Thermal → Thermal) : (s.th f).pending = s.pending := rfl
@[simp] theorem th_get (s : State) (f : Thermal → Thermal) (g : FRef) (i : List Nat) : (s.th f).get g i = s.get g i := rfl
@[simp] theorem th_on (s : State) (f : Thermal → Thermal) (g : FRef) (i : List Nat) : (s.th f).on g i = s.on g i := rfl
@[simp] theorem th_liveAt (s : State) (f : Thermal → Thermal) (a : Nat) : (s.th f).liveAt a = s.liveAt a := rfl
/-! Fields after `pl`. -/
@[simp] theorem pl_part (s : State) (f : Plumb → Plumb) : (s.pl f).part = s.part := rfl
@[simp] theorem pl_live (s : State) (f : Plumb → Plumb) : (s.pl f).live = s.live := rfl
@[simp] theorem pl_under (s : State) (f : Plumb → Plumb) : (s.pl f).under = s.under := rfl
@[simp] theorem pl_inUse (s : State) (f : Plumb → Plumb) : (s.pl f).inUse = s.inUse := rfl
@[simp] theorem pl_snap (s : State) (f : Plumb → Plumb) : (s.pl f).snap = s.snap := rfl
@[simp] theorem pl_applied (s : State) (f : Plumb → Plumb) : (s.pl f).applied = s.applied := rfl
@[simp] theorem pl_seq (s : State) (f : Plumb → Plumb) : (s.pl f).seq = s.seq := rfl
@[simp] theorem pl_set (s : State) (f : Plumb → Plumb) : (s.pl f).set = s.set := rfl
@[simp] theorem pl_mem (s : State) (f : Plumb → Plumb) : (s.pl f).mem = s.mem := rfl
@[simp] theorem pl_pwr (s : State) (f : Plumb → Plumb) : (s.pl f).pwr = s.pwr := rfl
@[simp] theorem pl_clk (s : State) (f : Plumb → Plumb) : (s.pl f).clk = s.clk := rfl
@[simp] theorem pl_mgmt (s : State) (f : Plumb → Plumb) : (s.pl f).mgmt = s.mgmt := rfl
@[simp] theorem pl_sec (s : State) (f : Plumb → Plumb) : (s.pl f).sec = s.sec := rfl
@[simp] theorem pl_cmds (s : State) (f : Plumb → Plumb) : (s.pl f).cmds = s.cmds := rfl
@[simp] theorem pl_rings (s : State) (f : Plumb → Plumb) : (s.pl f).rings = s.rings := rfl
@[simp] theorem pl_frames (s : State) (f : Plumb → Plumb) : (s.pl f).frames = s.frames := rfl
@[simp] theorem pl_slices (s : State) (f : Plumb → Plumb) : (s.pl f).slices = s.slices := rfl
@[simp] theorem pl_mig (s : State) (f : Plumb → Plumb) : (s.pl f).mig = s.mig := rfl
@[simp] theorem pl_lanes (s : State) (f : Plumb → Plumb) : (s.pl f).lanes = s.lanes := rfl
@[simp] theorem pl_ltx (s : State) (f : Plumb → Plumb) : (s.pl f).ltx = s.ltx := rfl
@[simp] theorem pl_cals (s : State) (f : Plumb → Plumb) : (s.pl f).cals = s.cals := rfl
@[simp] theorem pl_thm (s : State) (f : Plumb → Plumb) : (s.pl f).thm = s.thm := rfl
@[simp] theorem pl_due (s : State) (f : Plumb → Plumb) : (s.pl f).due = s.due := rfl
@[simp] theorem pl_scr (s : State) (f : Plumb → Plumb) : (s.pl f).scr = s.scr := rfl
@[simp] theorem pl_plb (s : State) (f : Plumb → Plumb) : (s.pl f).plb = f s.plb := rfl
@[simp] theorem pl_obs (s : State) (f : Plumb → Plumb) : (s.pl f).obs = s.obs := rfl
@[simp] theorem pl_hlanes (s : State) (f : Plumb → Plumb) : (s.pl f).hlanes = s.hlanes := rfl
@[simp] theorem pl_hrx (s : State) (f : Plumb → Plumb) : (s.pl f).hrx = s.hrx := rfl
@[simp] theorem pl_tte (s : State) (f : Plumb → Plumb) : (s.pl f).tte = s.tte := rfl
@[simp] theorem pl_mons (s : State) (f : Plumb → Plumb) : (s.pl f).mons = s.mons := rfl
@[simp] theorem pl_hka (s : State) (f : Plumb → Plumb) : (s.pl f).hka = s.hka := rfl
@[simp] theorem pl_loops (s : State) (f : Plumb → Plumb) : (s.pl f).loops = s.loops := rfl
@[simp] theorem pl_cap (s : State) (f : Plumb → Plumb) : (s.pl f).cap = s.cap := rfl
@[simp] theorem pl_jnl (s : State) (f : Plumb → Plumb) : (s.pl f).jnl = s.jnl := rfl
@[simp] theorem pl_free (s : State) (f : Plumb → Plumb) : (s.pl f).free = s.free := rfl
@[simp] theorem pl_pending (s : State) (f : Plumb → Plumb) : (s.pl f).pending = s.pending := rfl
@[simp] theorem pl_get (s : State) (f : Plumb → Plumb) (g : FRef) (i : List Nat) : (s.pl f).get g i = s.get g i := rfl
@[simp] theorem pl_on (s : State) (f : Plumb → Plumb) (g : FRef) (i : List Nat) : (s.pl f).on g i = s.on g i := rfl
@[simp] theorem pl_liveAt (s : State) (f : Plumb → Plumb) (a : Nat) : (s.pl f).liveAt a = s.liveAt a := rfl
/-! Fields after `tt`. -/
@[simp] theorem tt_part (s : State) (f : Tte → Tte) : (s.tt f).part = s.part := rfl
@[simp] theorem tt_live (s : State) (f : Tte → Tte) : (s.tt f).live = s.live := rfl
@[simp] theorem tt_under (s : State) (f : Tte → Tte) : (s.tt f).under = s.under := rfl
@[simp] theorem tt_inUse (s : State) (f : Tte → Tte) : (s.tt f).inUse = s.inUse := rfl
@[simp] theorem tt_snap (s : State) (f : Tte → Tte) : (s.tt f).snap = s.snap := rfl
@[simp] theorem tt_applied (s : State) (f : Tte → Tte) : (s.tt f).applied = s.applied := rfl
@[simp] theorem tt_seq (s : State) (f : Tte → Tte) : (s.tt f).seq = s.seq := rfl
@[simp] theorem tt_set (s : State) (f : Tte → Tte) : (s.tt f).set = s.set := rfl
@[simp] theorem tt_mem (s : State) (f : Tte → Tte) : (s.tt f).mem = s.mem := rfl
@[simp] theorem tt_pwr (s : State) (f : Tte → Tte) : (s.tt f).pwr = s.pwr := rfl
@[simp] theorem tt_clk (s : State) (f : Tte → Tte) : (s.tt f).clk = s.clk := rfl
@[simp] theorem tt_mgmt (s : State) (f : Tte → Tte) : (s.tt f).mgmt = s.mgmt := rfl
@[simp] theorem tt_sec (s : State) (f : Tte → Tte) : (s.tt f).sec = s.sec := rfl
@[simp] theorem tt_cmds (s : State) (f : Tte → Tte) : (s.tt f).cmds = s.cmds := rfl
@[simp] theorem tt_rings (s : State) (f : Tte → Tte) : (s.tt f).rings = s.rings := rfl
@[simp] theorem tt_frames (s : State) (f : Tte → Tte) : (s.tt f).frames = s.frames := rfl
@[simp] theorem tt_slices (s : State) (f : Tte → Tte) : (s.tt f).slices = s.slices := rfl
@[simp] theorem tt_mig (s : State) (f : Tte → Tte) : (s.tt f).mig = s.mig := rfl
@[simp] theorem tt_lanes (s : State) (f : Tte → Tte) : (s.tt f).lanes = s.lanes := rfl
@[simp] theorem tt_ltx (s : State) (f : Tte → Tte) : (s.tt f).ltx = s.ltx := rfl
@[simp] theorem tt_cals (s : State) (f : Tte → Tte) : (s.tt f).cals = s.cals := rfl
@[simp] theorem tt_thm (s : State) (f : Tte → Tte) : (s.tt f).thm = s.thm := rfl
@[simp] theorem tt_due (s : State) (f : Tte → Tte) : (s.tt f).due = s.due := rfl
@[simp] theorem tt_scr (s : State) (f : Tte → Tte) : (s.tt f).scr = s.scr := rfl
@[simp] theorem tt_plb (s : State) (f : Tte → Tte) : (s.tt f).plb = s.plb := rfl
@[simp] theorem tt_obs (s : State) (f : Tte → Tte) : (s.tt f).obs = s.obs := rfl
@[simp] theorem tt_hlanes (s : State) (f : Tte → Tte) : (s.tt f).hlanes = s.hlanes := rfl
@[simp] theorem tt_hrx (s : State) (f : Tte → Tte) : (s.tt f).hrx = s.hrx := rfl
@[simp] theorem tt_tte (s : State) (f : Tte → Tte) : (s.tt f).tte = f s.tte := rfl
@[simp] theorem tt_mons (s : State) (f : Tte → Tte) : (s.tt f).mons = s.mons := rfl
@[simp] theorem tt_hka (s : State) (f : Tte → Tte) : (s.tt f).hka = s.hka := rfl
@[simp] theorem tt_loops (s : State) (f : Tte → Tte) : (s.tt f).loops = s.loops := rfl
@[simp] theorem tt_cap (s : State) (f : Tte → Tte) : (s.tt f).cap = s.cap := rfl
@[simp] theorem tt_jnl (s : State) (f : Tte → Tte) : (s.tt f).jnl = s.jnl := rfl
@[simp] theorem tt_free (s : State) (f : Tte → Tte) : (s.tt f).free = s.free := rfl
@[simp] theorem tt_pending (s : State) (f : Tte → Tte) : (s.tt f).pending = s.pending := rfl
@[simp] theorem tt_get (s : State) (f : Tte → Tte) (g : FRef) (i : List Nat) : (s.tt f).get g i = s.get g i := rfl
@[simp] theorem tt_on (s : State) (f : Tte → Tte) (g : FRef) (i : List Nat) : (s.tt f).on g i = s.on g i := rfl
@[simp] theorem tt_liveAt (s : State) (f : Tte → Tte) (a : Nat) : (s.tt f).liveAt a = s.liveAt a := rfl
/-! Fields after `cp`. -/
@[simp] theorem cp_part (s : State) (f : Cap → Cap) : (s.cp f).part = s.part := rfl
@[simp] theorem cp_live (s : State) (f : Cap → Cap) : (s.cp f).live = s.live := rfl
@[simp] theorem cp_under (s : State) (f : Cap → Cap) : (s.cp f).under = s.under := rfl
@[simp] theorem cp_inUse (s : State) (f : Cap → Cap) : (s.cp f).inUse = s.inUse := rfl
@[simp] theorem cp_snap (s : State) (f : Cap → Cap) : (s.cp f).snap = s.snap := rfl
@[simp] theorem cp_applied (s : State) (f : Cap → Cap) : (s.cp f).applied = s.applied := rfl
@[simp] theorem cp_seq (s : State) (f : Cap → Cap) : (s.cp f).seq = s.seq := rfl
@[simp] theorem cp_set (s : State) (f : Cap → Cap) : (s.cp f).set = s.set := rfl
@[simp] theorem cp_mem (s : State) (f : Cap → Cap) : (s.cp f).mem = s.mem := rfl
@[simp] theorem cp_pwr (s : State) (f : Cap → Cap) : (s.cp f).pwr = s.pwr := rfl
@[simp] theorem cp_clk (s : State) (f : Cap → Cap) : (s.cp f).clk = s.clk := rfl
@[simp] theorem cp_mgmt (s : State) (f : Cap → Cap) : (s.cp f).mgmt = s.mgmt := rfl
@[simp] theorem cp_sec (s : State) (f : Cap → Cap) : (s.cp f).sec = s.sec := rfl
@[simp] theorem cp_cmds (s : State) (f : Cap → Cap) : (s.cp f).cmds = s.cmds := rfl
@[simp] theorem cp_rings (s : State) (f : Cap → Cap) : (s.cp f).rings = s.rings := rfl
@[simp] theorem cp_frames (s : State) (f : Cap → Cap) : (s.cp f).frames = s.frames := rfl
@[simp] theorem cp_slices (s : State) (f : Cap → Cap) : (s.cp f).slices = s.slices := rfl
@[simp] theorem cp_mig (s : State) (f : Cap → Cap) : (s.cp f).mig = s.mig := rfl
@[simp] theorem cp_lanes (s : State) (f : Cap → Cap) : (s.cp f).lanes = s.lanes := rfl
@[simp] theorem cp_ltx (s : State) (f : Cap → Cap) : (s.cp f).ltx = s.ltx := rfl
@[simp] theorem cp_cals (s : State) (f : Cap → Cap) : (s.cp f).cals = s.cals := rfl
@[simp] theorem cp_thm (s : State) (f : Cap → Cap) : (s.cp f).thm = s.thm := rfl
@[simp] theorem cp_due (s : State) (f : Cap → Cap) : (s.cp f).due = s.due := rfl
@[simp] theorem cp_scr (s : State) (f : Cap → Cap) : (s.cp f).scr = s.scr := rfl
@[simp] theorem cp_plb (s : State) (f : Cap → Cap) : (s.cp f).plb = s.plb := rfl
@[simp] theorem cp_obs (s : State) (f : Cap → Cap) : (s.cp f).obs = s.obs := rfl
@[simp] theorem cp_hlanes (s : State) (f : Cap → Cap) : (s.cp f).hlanes = s.hlanes := rfl
@[simp] theorem cp_hrx (s : State) (f : Cap → Cap) : (s.cp f).hrx = s.hrx := rfl
@[simp] theorem cp_tte (s : State) (f : Cap → Cap) : (s.cp f).tte = s.tte := rfl
@[simp] theorem cp_mons (s : State) (f : Cap → Cap) : (s.cp f).mons = s.mons := rfl
@[simp] theorem cp_hka (s : State) (f : Cap → Cap) : (s.cp f).hka = s.hka := rfl
@[simp] theorem cp_loops (s : State) (f : Cap → Cap) : (s.cp f).loops = s.loops := rfl
@[simp] theorem cp_cap (s : State) (f : Cap → Cap) : (s.cp f).cap = f s.cap := rfl
@[simp] theorem cp_jnl (s : State) (f : Cap → Cap) : (s.cp f).jnl = s.jnl := rfl
@[simp] theorem cp_free (s : State) (f : Cap → Cap) : (s.cp f).free = s.free := rfl
@[simp] theorem cp_pending (s : State) (f : Cap → Cap) : (s.cp f).pending = s.pending := rfl
@[simp] theorem cp_get (s : State) (f : Cap → Cap) (g : FRef) (i : List Nat) : (s.cp f).get g i = s.get g i := rfl
@[simp] theorem cp_on (s : State) (f : Cap → Cap) (g : FRef) (i : List Nat) : (s.cp f).on g i = s.on g i := rfl
@[simp] theorem cp_liveAt (s : State) (f : Cap → Cap) (a : Nat) : (s.cp f).liveAt a = s.liveAt a := rfl
/-! Fields after `jn`. -/
@[simp] theorem jn_part (s : State) (f : Jnl → Jnl) : (s.jn f).part = s.part := rfl
@[simp] theorem jn_live (s : State) (f : Jnl → Jnl) : (s.jn f).live = s.live := rfl
@[simp] theorem jn_under (s : State) (f : Jnl → Jnl) : (s.jn f).under = s.under := rfl
@[simp] theorem jn_inUse (s : State) (f : Jnl → Jnl) : (s.jn f).inUse = s.inUse := rfl
@[simp] theorem jn_snap (s : State) (f : Jnl → Jnl) : (s.jn f).snap = s.snap := rfl
@[simp] theorem jn_applied (s : State) (f : Jnl → Jnl) : (s.jn f).applied = s.applied := rfl
@[simp] theorem jn_seq (s : State) (f : Jnl → Jnl) : (s.jn f).seq = s.seq := rfl
@[simp] theorem jn_set (s : State) (f : Jnl → Jnl) : (s.jn f).set = s.set := rfl
@[simp] theorem jn_mem (s : State) (f : Jnl → Jnl) : (s.jn f).mem = s.mem := rfl
@[simp] theorem jn_pwr (s : State) (f : Jnl → Jnl) : (s.jn f).pwr = s.pwr := rfl
@[simp] theorem jn_clk (s : State) (f : Jnl → Jnl) : (s.jn f).clk = s.clk := rfl
@[simp] theorem jn_mgmt (s : State) (f : Jnl → Jnl) : (s.jn f).mgmt = s.mgmt := rfl
@[simp] theorem jn_sec (s : State) (f : Jnl → Jnl) : (s.jn f).sec = s.sec := rfl
@[simp] theorem jn_cmds (s : State) (f : Jnl → Jnl) : (s.jn f).cmds = s.cmds := rfl
@[simp] theorem jn_rings (s : State) (f : Jnl → Jnl) : (s.jn f).rings = s.rings := rfl
@[simp] theorem jn_frames (s : State) (f : Jnl → Jnl) : (s.jn f).frames = s.frames := rfl
@[simp] theorem jn_slices (s : State) (f : Jnl → Jnl) : (s.jn f).slices = s.slices := rfl
@[simp] theorem jn_mig (s : State) (f : Jnl → Jnl) : (s.jn f).mig = s.mig := rfl
@[simp] theorem jn_lanes (s : State) (f : Jnl → Jnl) : (s.jn f).lanes = s.lanes := rfl
@[simp] theorem jn_ltx (s : State) (f : Jnl → Jnl) : (s.jn f).ltx = s.ltx := rfl
@[simp] theorem jn_cals (s : State) (f : Jnl → Jnl) : (s.jn f).cals = s.cals := rfl
@[simp] theorem jn_thm (s : State) (f : Jnl → Jnl) : (s.jn f).thm = s.thm := rfl
@[simp] theorem jn_due (s : State) (f : Jnl → Jnl) : (s.jn f).due = s.due := rfl
@[simp] theorem jn_scr (s : State) (f : Jnl → Jnl) : (s.jn f).scr = s.scr := rfl
@[simp] theorem jn_plb (s : State) (f : Jnl → Jnl) : (s.jn f).plb = s.plb := rfl
@[simp] theorem jn_obs (s : State) (f : Jnl → Jnl) : (s.jn f).obs = s.obs := rfl
@[simp] theorem jn_hlanes (s : State) (f : Jnl → Jnl) : (s.jn f).hlanes = s.hlanes := rfl
@[simp] theorem jn_hrx (s : State) (f : Jnl → Jnl) : (s.jn f).hrx = s.hrx := rfl
@[simp] theorem jn_tte (s : State) (f : Jnl → Jnl) : (s.jn f).tte = s.tte := rfl
@[simp] theorem jn_mons (s : State) (f : Jnl → Jnl) : (s.jn f).mons = s.mons := rfl
@[simp] theorem jn_hka (s : State) (f : Jnl → Jnl) : (s.jn f).hka = s.hka := rfl
@[simp] theorem jn_loops (s : State) (f : Jnl → Jnl) : (s.jn f).loops = s.loops := rfl
@[simp] theorem jn_cap (s : State) (f : Jnl → Jnl) : (s.jn f).cap = s.cap := rfl
@[simp] theorem jn_jnl (s : State) (f : Jnl → Jnl) : (s.jn f).jnl = f s.jnl := rfl
@[simp] theorem jn_free (s : State) (f : Jnl → Jnl) : (s.jn f).free = s.free := rfl
@[simp] theorem jn_pending (s : State) (f : Jnl → Jnl) : (s.jn f).pending = s.pending := rfl
@[simp] theorem jn_get (s : State) (f : Jnl → Jnl) (g : FRef) (i : List Nat) : (s.jn f).get g i = s.get g i := rfl
@[simp] theorem jn_on (s : State) (f : Jnl → Jnl) (g : FRef) (i : List Nat) : (s.jn f).on g i = s.on g i := rfl
@[simp] theorem jn_liveAt (s : State) (f : Jnl → Jnl) (a : Nat) : (s.jn f).liveAt a = s.liveAt a := rfl
/-! Fields after `setSlice`. -/
@[simp] theorem setSlice_part (s : State) (n : Nat) (f : Slice → Slice) : (s.setSlice n f).part = s.part := rfl
@[simp] theorem setSlice_live (s : State) (n : Nat) (f : Slice → Slice) : (s.setSlice n f).live = s.live := rfl
@[simp] theorem setSlice_under (s : State) (n : Nat) (f : Slice → Slice) : (s.setSlice n f).under = s.under := rfl
@[simp] theorem setSlice_inUse (s : State) (n : Nat) (f : Slice → Slice) : (s.setSlice n f).inUse = s.inUse := rfl
@[simp] theorem setSlice_snap (s : State) (n : Nat) (f : Slice → Slice) : (s.setSlice n f).snap = s.snap := rfl
@[simp] theorem setSlice_applied (s : State) (n : Nat) (f : Slice → Slice) : (s.setSlice n f).applied = s.applied := rfl
@[simp] theorem setSlice_seq (s : State) (n : Nat) (f : Slice → Slice) : (s.setSlice n f).seq = s.seq := rfl
@[simp] theorem setSlice_set (s : State) (n : Nat) (f : Slice → Slice) : (s.setSlice n f).set = s.set := rfl
@[simp] theorem setSlice_mem (s : State) (n : Nat) (f : Slice → Slice) : (s.setSlice n f).mem = s.mem := rfl
@[simp] theorem setSlice_pwr (s : State) (n : Nat) (f : Slice → Slice) : (s.setSlice n f).pwr = s.pwr := rfl
@[simp] theorem setSlice_clk (s : State) (n : Nat) (f : Slice → Slice) : (s.setSlice n f).clk = s.clk := rfl
@[simp] theorem setSlice_mgmt (s : State) (n : Nat) (f : Slice → Slice) : (s.setSlice n f).mgmt = s.mgmt := rfl
@[simp] theorem setSlice_sec (s : State) (n : Nat) (f : Slice → Slice) : (s.setSlice n f).sec = s.sec := rfl
@[simp] theorem setSlice_cmds (s : State) (n : Nat) (f : Slice → Slice) : (s.setSlice n f).cmds = s.cmds := rfl
@[simp] theorem setSlice_rings (s : State) (n : Nat) (f : Slice → Slice) : (s.setSlice n f).rings = s.rings := rfl
@[simp] theorem setSlice_frames (s : State) (n : Nat) (f : Slice → Slice) : (s.setSlice n f).frames = s.frames := rfl
@[simp] theorem setSlice_slices (s : State) (n : Nat) (f : Slice → Slice) : (s.setSlice n f).slices = upd s.slices n f := rfl
@[simp] theorem setSlice_mig (s : State) (n : Nat) (f : Slice → Slice) : (s.setSlice n f).mig = s.mig := rfl
@[simp] theorem setSlice_lanes (s : State) (n : Nat) (f : Slice → Slice) : (s.setSlice n f).lanes = s.lanes := rfl
@[simp] theorem setSlice_ltx (s : State) (n : Nat) (f : Slice → Slice) : (s.setSlice n f).ltx = s.ltx := rfl
@[simp] theorem setSlice_cals (s : State) (n : Nat) (f : Slice → Slice) : (s.setSlice n f).cals = s.cals := rfl
@[simp] theorem setSlice_thm (s : State) (n : Nat) (f : Slice → Slice) : (s.setSlice n f).thm = s.thm := rfl
@[simp] theorem setSlice_due (s : State) (n : Nat) (f : Slice → Slice) : (s.setSlice n f).due = s.due := rfl
@[simp] theorem setSlice_scr (s : State) (n : Nat) (f : Slice → Slice) : (s.setSlice n f).scr = s.scr := rfl
@[simp] theorem setSlice_plb (s : State) (n : Nat) (f : Slice → Slice) : (s.setSlice n f).plb = s.plb := rfl
@[simp] theorem setSlice_obs (s : State) (n : Nat) (f : Slice → Slice) : (s.setSlice n f).obs = s.obs := rfl
@[simp] theorem setSlice_hlanes (s : State) (n : Nat) (f : Slice → Slice) : (s.setSlice n f).hlanes = s.hlanes := rfl
@[simp] theorem setSlice_hrx (s : State) (n : Nat) (f : Slice → Slice) : (s.setSlice n f).hrx = s.hrx := rfl
@[simp] theorem setSlice_tte (s : State) (n : Nat) (f : Slice → Slice) : (s.setSlice n f).tte = s.tte := rfl
@[simp] theorem setSlice_mons (s : State) (n : Nat) (f : Slice → Slice) : (s.setSlice n f).mons = s.mons := rfl
@[simp] theorem setSlice_hka (s : State) (n : Nat) (f : Slice → Slice) : (s.setSlice n f).hka = s.hka := rfl
@[simp] theorem setSlice_loops (s : State) (n : Nat) (f : Slice → Slice) : (s.setSlice n f).loops = s.loops := rfl
@[simp] theorem setSlice_cap (s : State) (n : Nat) (f : Slice → Slice) : (s.setSlice n f).cap = s.cap := rfl
@[simp] theorem setSlice_jnl (s : State) (n : Nat) (f : Slice → Slice) : (s.setSlice n f).jnl = s.jnl := rfl
@[simp] theorem setSlice_free (s : State) (n : Nat) (f : Slice → Slice) : (s.setSlice n f).free = s.free := rfl
@[simp] theorem setSlice_pending (s : State) (n : Nat) (f : Slice → Slice) : (s.setSlice n f).pending = s.pending := rfl
@[simp] theorem setSlice_get (s : State) (n : Nat) (f : Slice → Slice) (g : FRef) (i : List Nat) : (s.setSlice n f).get g i = s.get g i := rfl
@[simp] theorem setSlice_on (s : State) (n : Nat) (f : Slice → Slice) (g : FRef) (i : List Nat) : (s.setSlice n f).on g i = s.on g i := rfl
@[simp] theorem setSlice_liveAt (s : State) (n : Nat) (f : Slice → Slice) (a : Nat) : (s.setSlice n f).liveAt a = s.liveAt a := rfl
/-! Fields after `setFrame`. -/
@[simp] theorem setFrame_part (s : State) (n : Nat) (f : FrameLock → FrameLock) : (s.setFrame n f).part = s.part := rfl
@[simp] theorem setFrame_live (s : State) (n : Nat) (f : FrameLock → FrameLock) : (s.setFrame n f).live = s.live := rfl
@[simp] theorem setFrame_under (s : State) (n : Nat) (f : FrameLock → FrameLock) : (s.setFrame n f).under = s.under := rfl
@[simp] theorem setFrame_inUse (s : State) (n : Nat) (f : FrameLock → FrameLock) : (s.setFrame n f).inUse = s.inUse := rfl
@[simp] theorem setFrame_snap (s : State) (n : Nat) (f : FrameLock → FrameLock) : (s.setFrame n f).snap = s.snap := rfl
@[simp] theorem setFrame_applied (s : State) (n : Nat) (f : FrameLock → FrameLock) : (s.setFrame n f).applied = s.applied := rfl
@[simp] theorem setFrame_seq (s : State) (n : Nat) (f : FrameLock → FrameLock) : (s.setFrame n f).seq = s.seq := rfl
@[simp] theorem setFrame_set (s : State) (n : Nat) (f : FrameLock → FrameLock) : (s.setFrame n f).set = s.set := rfl
@[simp] theorem setFrame_mem (s : State) (n : Nat) (f : FrameLock → FrameLock) : (s.setFrame n f).mem = s.mem := rfl
@[simp] theorem setFrame_pwr (s : State) (n : Nat) (f : FrameLock → FrameLock) : (s.setFrame n f).pwr = s.pwr := rfl
@[simp] theorem setFrame_clk (s : State) (n : Nat) (f : FrameLock → FrameLock) : (s.setFrame n f).clk = s.clk := rfl
@[simp] theorem setFrame_mgmt (s : State) (n : Nat) (f : FrameLock → FrameLock) : (s.setFrame n f).mgmt = s.mgmt := rfl
@[simp] theorem setFrame_sec (s : State) (n : Nat) (f : FrameLock → FrameLock) : (s.setFrame n f).sec = s.sec := rfl
@[simp] theorem setFrame_cmds (s : State) (n : Nat) (f : FrameLock → FrameLock) : (s.setFrame n f).cmds = s.cmds := rfl
@[simp] theorem setFrame_rings (s : State) (n : Nat) (f : FrameLock → FrameLock) : (s.setFrame n f).rings = s.rings := rfl
@[simp] theorem setFrame_frames (s : State) (n : Nat) (f : FrameLock → FrameLock) : (s.setFrame n f).frames = upd s.frames n f := rfl
@[simp] theorem setFrame_slices (s : State) (n : Nat) (f : FrameLock → FrameLock) : (s.setFrame n f).slices = s.slices := rfl
@[simp] theorem setFrame_mig (s : State) (n : Nat) (f : FrameLock → FrameLock) : (s.setFrame n f).mig = s.mig := rfl
@[simp] theorem setFrame_lanes (s : State) (n : Nat) (f : FrameLock → FrameLock) : (s.setFrame n f).lanes = s.lanes := rfl
@[simp] theorem setFrame_ltx (s : State) (n : Nat) (f : FrameLock → FrameLock) : (s.setFrame n f).ltx = s.ltx := rfl
@[simp] theorem setFrame_cals (s : State) (n : Nat) (f : FrameLock → FrameLock) : (s.setFrame n f).cals = s.cals := rfl
@[simp] theorem setFrame_thm (s : State) (n : Nat) (f : FrameLock → FrameLock) : (s.setFrame n f).thm = s.thm := rfl
@[simp] theorem setFrame_due (s : State) (n : Nat) (f : FrameLock → FrameLock) : (s.setFrame n f).due = s.due := rfl
@[simp] theorem setFrame_scr (s : State) (n : Nat) (f : FrameLock → FrameLock) : (s.setFrame n f).scr = s.scr := rfl
@[simp] theorem setFrame_plb (s : State) (n : Nat) (f : FrameLock → FrameLock) : (s.setFrame n f).plb = s.plb := rfl
@[simp] theorem setFrame_obs (s : State) (n : Nat) (f : FrameLock → FrameLock) : (s.setFrame n f).obs = s.obs := rfl
@[simp] theorem setFrame_hlanes (s : State) (n : Nat) (f : FrameLock → FrameLock) : (s.setFrame n f).hlanes = s.hlanes := rfl
@[simp] theorem setFrame_hrx (s : State) (n : Nat) (f : FrameLock → FrameLock) : (s.setFrame n f).hrx = s.hrx := rfl
@[simp] theorem setFrame_tte (s : State) (n : Nat) (f : FrameLock → FrameLock) : (s.setFrame n f).tte = s.tte := rfl
@[simp] theorem setFrame_mons (s : State) (n : Nat) (f : FrameLock → FrameLock) : (s.setFrame n f).mons = s.mons := rfl
@[simp] theorem setFrame_hka (s : State) (n : Nat) (f : FrameLock → FrameLock) : (s.setFrame n f).hka = s.hka := rfl
@[simp] theorem setFrame_loops (s : State) (n : Nat) (f : FrameLock → FrameLock) : (s.setFrame n f).loops = s.loops := rfl
@[simp] theorem setFrame_cap (s : State) (n : Nat) (f : FrameLock → FrameLock) : (s.setFrame n f).cap = s.cap := rfl
@[simp] theorem setFrame_jnl (s : State) (n : Nat) (f : FrameLock → FrameLock) : (s.setFrame n f).jnl = s.jnl := rfl
@[simp] theorem setFrame_free (s : State) (n : Nat) (f : FrameLock → FrameLock) : (s.setFrame n f).free = s.free := rfl
@[simp] theorem setFrame_pending (s : State) (n : Nat) (f : FrameLock → FrameLock) : (s.setFrame n f).pending = s.pending := rfl
@[simp] theorem setFrame_get (s : State) (n : Nat) (f : FrameLock → FrameLock) (g : FRef) (i : List Nat) : (s.setFrame n f).get g i = s.get g i := rfl
@[simp] theorem setFrame_on (s : State) (n : Nat) (f : FrameLock → FrameLock) (g : FRef) (i : List Nat) : (s.setFrame n f).on g i = s.on g i := rfl
@[simp] theorem setFrame_liveAt (s : State) (n : Nat) (f : FrameLock → FrameLock) (a : Nat) : (s.setFrame n f).liveAt a = s.liveAt a := rfl
/-! Fields after `setLane`. -/
@[simp] theorem setLane_part (s : State) (n : Nat) (f : Lane → Lane) : (s.setLane n f).part = s.part := rfl
@[simp] theorem setLane_live (s : State) (n : Nat) (f : Lane → Lane) : (s.setLane n f).live = s.live := rfl
@[simp] theorem setLane_under (s : State) (n : Nat) (f : Lane → Lane) : (s.setLane n f).under = s.under := rfl
@[simp] theorem setLane_inUse (s : State) (n : Nat) (f : Lane → Lane) : (s.setLane n f).inUse = s.inUse := rfl
@[simp] theorem setLane_snap (s : State) (n : Nat) (f : Lane → Lane) : (s.setLane n f).snap = s.snap := rfl
@[simp] theorem setLane_applied (s : State) (n : Nat) (f : Lane → Lane) : (s.setLane n f).applied = s.applied := rfl
@[simp] theorem setLane_seq (s : State) (n : Nat) (f : Lane → Lane) : (s.setLane n f).seq = s.seq := rfl
@[simp] theorem setLane_set (s : State) (n : Nat) (f : Lane → Lane) : (s.setLane n f).set = s.set := rfl
@[simp] theorem setLane_mem (s : State) (n : Nat) (f : Lane → Lane) : (s.setLane n f).mem = s.mem := rfl
@[simp] theorem setLane_pwr (s : State) (n : Nat) (f : Lane → Lane) : (s.setLane n f).pwr = s.pwr := rfl
@[simp] theorem setLane_clk (s : State) (n : Nat) (f : Lane → Lane) : (s.setLane n f).clk = s.clk := rfl
@[simp] theorem setLane_mgmt (s : State) (n : Nat) (f : Lane → Lane) : (s.setLane n f).mgmt = s.mgmt := rfl
@[simp] theorem setLane_sec (s : State) (n : Nat) (f : Lane → Lane) : (s.setLane n f).sec = s.sec := rfl
@[simp] theorem setLane_cmds (s : State) (n : Nat) (f : Lane → Lane) : (s.setLane n f).cmds = s.cmds := rfl
@[simp] theorem setLane_rings (s : State) (n : Nat) (f : Lane → Lane) : (s.setLane n f).rings = s.rings := rfl
@[simp] theorem setLane_frames (s : State) (n : Nat) (f : Lane → Lane) : (s.setLane n f).frames = s.frames := rfl
@[simp] theorem setLane_slices (s : State) (n : Nat) (f : Lane → Lane) : (s.setLane n f).slices = s.slices := rfl
@[simp] theorem setLane_mig (s : State) (n : Nat) (f : Lane → Lane) : (s.setLane n f).mig = s.mig := rfl
@[simp] theorem setLane_lanes (s : State) (n : Nat) (f : Lane → Lane) : (s.setLane n f).lanes = upd s.lanes n f := rfl
@[simp] theorem setLane_ltx (s : State) (n : Nat) (f : Lane → Lane) : (s.setLane n f).ltx = s.ltx := rfl
@[simp] theorem setLane_cals (s : State) (n : Nat) (f : Lane → Lane) : (s.setLane n f).cals = s.cals := rfl
@[simp] theorem setLane_thm (s : State) (n : Nat) (f : Lane → Lane) : (s.setLane n f).thm = s.thm := rfl
@[simp] theorem setLane_due (s : State) (n : Nat) (f : Lane → Lane) : (s.setLane n f).due = s.due := rfl
@[simp] theorem setLane_scr (s : State) (n : Nat) (f : Lane → Lane) : (s.setLane n f).scr = s.scr := rfl
@[simp] theorem setLane_plb (s : State) (n : Nat) (f : Lane → Lane) : (s.setLane n f).plb = s.plb := rfl
@[simp] theorem setLane_obs (s : State) (n : Nat) (f : Lane → Lane) : (s.setLane n f).obs = s.obs := rfl
@[simp] theorem setLane_hlanes (s : State) (n : Nat) (f : Lane → Lane) : (s.setLane n f).hlanes = s.hlanes := rfl
@[simp] theorem setLane_hrx (s : State) (n : Nat) (f : Lane → Lane) : (s.setLane n f).hrx = s.hrx := rfl
@[simp] theorem setLane_tte (s : State) (n : Nat) (f : Lane → Lane) : (s.setLane n f).tte = s.tte := rfl
@[simp] theorem setLane_mons (s : State) (n : Nat) (f : Lane → Lane) : (s.setLane n f).mons = s.mons := rfl
@[simp] theorem setLane_hka (s : State) (n : Nat) (f : Lane → Lane) : (s.setLane n f).hka = s.hka := rfl
@[simp] theorem setLane_loops (s : State) (n : Nat) (f : Lane → Lane) : (s.setLane n f).loops = s.loops := rfl
@[simp] theorem setLane_cap (s : State) (n : Nat) (f : Lane → Lane) : (s.setLane n f).cap = s.cap := rfl
@[simp] theorem setLane_jnl (s : State) (n : Nat) (f : Lane → Lane) : (s.setLane n f).jnl = s.jnl := rfl
@[simp] theorem setLane_free (s : State) (n : Nat) (f : Lane → Lane) : (s.setLane n f).free = s.free := rfl
@[simp] theorem setLane_pending (s : State) (n : Nat) (f : Lane → Lane) : (s.setLane n f).pending = s.pending := rfl
@[simp] theorem setLane_get (s : State) (n : Nat) (f : Lane → Lane) (g : FRef) (i : List Nat) : (s.setLane n f).get g i = s.get g i := rfl
@[simp] theorem setLane_on (s : State) (n : Nat) (f : Lane → Lane) (g : FRef) (i : List Nat) : (s.setLane n f).on g i = s.on g i := rfl
@[simp] theorem setLane_liveAt (s : State) (n : Nat) (f : Lane → Lane) (a : Nat) : (s.setLane n f).liveAt a = s.liveAt a := rfl
/-! Fields after `setLtx`. -/
@[simp] theorem setLtx_part (s : State) (n : Nat) (f : TxPll → TxPll) : (s.setLtx n f).part = s.part := rfl
@[simp] theorem setLtx_live (s : State) (n : Nat) (f : TxPll → TxPll) : (s.setLtx n f).live = s.live := rfl
@[simp] theorem setLtx_under (s : State) (n : Nat) (f : TxPll → TxPll) : (s.setLtx n f).under = s.under := rfl
@[simp] theorem setLtx_inUse (s : State) (n : Nat) (f : TxPll → TxPll) : (s.setLtx n f).inUse = s.inUse := rfl
@[simp] theorem setLtx_snap (s : State) (n : Nat) (f : TxPll → TxPll) : (s.setLtx n f).snap = s.snap := rfl
@[simp] theorem setLtx_applied (s : State) (n : Nat) (f : TxPll → TxPll) : (s.setLtx n f).applied = s.applied := rfl
@[simp] theorem setLtx_seq (s : State) (n : Nat) (f : TxPll → TxPll) : (s.setLtx n f).seq = s.seq := rfl
@[simp] theorem setLtx_set (s : State) (n : Nat) (f : TxPll → TxPll) : (s.setLtx n f).set = s.set := rfl
@[simp] theorem setLtx_mem (s : State) (n : Nat) (f : TxPll → TxPll) : (s.setLtx n f).mem = s.mem := rfl
@[simp] theorem setLtx_pwr (s : State) (n : Nat) (f : TxPll → TxPll) : (s.setLtx n f).pwr = s.pwr := rfl
@[simp] theorem setLtx_clk (s : State) (n : Nat) (f : TxPll → TxPll) : (s.setLtx n f).clk = s.clk := rfl
@[simp] theorem setLtx_mgmt (s : State) (n : Nat) (f : TxPll → TxPll) : (s.setLtx n f).mgmt = s.mgmt := rfl
@[simp] theorem setLtx_sec (s : State) (n : Nat) (f : TxPll → TxPll) : (s.setLtx n f).sec = s.sec := rfl
@[simp] theorem setLtx_cmds (s : State) (n : Nat) (f : TxPll → TxPll) : (s.setLtx n f).cmds = s.cmds := rfl
@[simp] theorem setLtx_rings (s : State) (n : Nat) (f : TxPll → TxPll) : (s.setLtx n f).rings = s.rings := rfl
@[simp] theorem setLtx_frames (s : State) (n : Nat) (f : TxPll → TxPll) : (s.setLtx n f).frames = s.frames := rfl
@[simp] theorem setLtx_slices (s : State) (n : Nat) (f : TxPll → TxPll) : (s.setLtx n f).slices = s.slices := rfl
@[simp] theorem setLtx_mig (s : State) (n : Nat) (f : TxPll → TxPll) : (s.setLtx n f).mig = s.mig := rfl
@[simp] theorem setLtx_lanes (s : State) (n : Nat) (f : TxPll → TxPll) : (s.setLtx n f).lanes = s.lanes := rfl
@[simp] theorem setLtx_ltx (s : State) (n : Nat) (f : TxPll → TxPll) : (s.setLtx n f).ltx = upd s.ltx n f := rfl
@[simp] theorem setLtx_cals (s : State) (n : Nat) (f : TxPll → TxPll) : (s.setLtx n f).cals = s.cals := rfl
@[simp] theorem setLtx_thm (s : State) (n : Nat) (f : TxPll → TxPll) : (s.setLtx n f).thm = s.thm := rfl
@[simp] theorem setLtx_due (s : State) (n : Nat) (f : TxPll → TxPll) : (s.setLtx n f).due = s.due := rfl
@[simp] theorem setLtx_scr (s : State) (n : Nat) (f : TxPll → TxPll) : (s.setLtx n f).scr = s.scr := rfl
@[simp] theorem setLtx_plb (s : State) (n : Nat) (f : TxPll → TxPll) : (s.setLtx n f).plb = s.plb := rfl
@[simp] theorem setLtx_obs (s : State) (n : Nat) (f : TxPll → TxPll) : (s.setLtx n f).obs = s.obs := rfl
@[simp] theorem setLtx_hlanes (s : State) (n : Nat) (f : TxPll → TxPll) : (s.setLtx n f).hlanes = s.hlanes := rfl
@[simp] theorem setLtx_hrx (s : State) (n : Nat) (f : TxPll → TxPll) : (s.setLtx n f).hrx = s.hrx := rfl
@[simp] theorem setLtx_tte (s : State) (n : Nat) (f : TxPll → TxPll) : (s.setLtx n f).tte = s.tte := rfl
@[simp] theorem setLtx_mons (s : State) (n : Nat) (f : TxPll → TxPll) : (s.setLtx n f).mons = s.mons := rfl
@[simp] theorem setLtx_hka (s : State) (n : Nat) (f : TxPll → TxPll) : (s.setLtx n f).hka = s.hka := rfl
@[simp] theorem setLtx_loops (s : State) (n : Nat) (f : TxPll → TxPll) : (s.setLtx n f).loops = s.loops := rfl
@[simp] theorem setLtx_cap (s : State) (n : Nat) (f : TxPll → TxPll) : (s.setLtx n f).cap = s.cap := rfl
@[simp] theorem setLtx_jnl (s : State) (n : Nat) (f : TxPll → TxPll) : (s.setLtx n f).jnl = s.jnl := rfl
@[simp] theorem setLtx_free (s : State) (n : Nat) (f : TxPll → TxPll) : (s.setLtx n f).free = s.free := rfl
@[simp] theorem setLtx_pending (s : State) (n : Nat) (f : TxPll → TxPll) : (s.setLtx n f).pending = s.pending := rfl
@[simp] theorem setLtx_get (s : State) (n : Nat) (f : TxPll → TxPll) (g : FRef) (i : List Nat) : (s.setLtx n f).get g i = s.get g i := rfl
@[simp] theorem setLtx_on (s : State) (n : Nat) (f : TxPll → TxPll) (g : FRef) (i : List Nat) : (s.setLtx n f).on g i = s.on g i := rfl
@[simp] theorem setLtx_liveAt (s : State) (n : Nat) (f : TxPll → TxPll) (a : Nat) : (s.setLtx n f).liveAt a = s.liveAt a := rfl
/-! Fields after `setHlane`. -/
@[simp] theorem setHlane_part (s : State) (n : Nat) (f : HLane → HLane) : (s.setHlane n f).part = s.part := rfl
@[simp] theorem setHlane_live (s : State) (n : Nat) (f : HLane → HLane) : (s.setHlane n f).live = s.live := rfl
@[simp] theorem setHlane_under (s : State) (n : Nat) (f : HLane → HLane) : (s.setHlane n f).under = s.under := rfl
@[simp] theorem setHlane_inUse (s : State) (n : Nat) (f : HLane → HLane) : (s.setHlane n f).inUse = s.inUse := rfl
@[simp] theorem setHlane_snap (s : State) (n : Nat) (f : HLane → HLane) : (s.setHlane n f).snap = s.snap := rfl
@[simp] theorem setHlane_applied (s : State) (n : Nat) (f : HLane → HLane) : (s.setHlane n f).applied = s.applied := rfl
@[simp] theorem setHlane_seq (s : State) (n : Nat) (f : HLane → HLane) : (s.setHlane n f).seq = s.seq := rfl
@[simp] theorem setHlane_set (s : State) (n : Nat) (f : HLane → HLane) : (s.setHlane n f).set = s.set := rfl
@[simp] theorem setHlane_mem (s : State) (n : Nat) (f : HLane → HLane) : (s.setHlane n f).mem = s.mem := rfl
@[simp] theorem setHlane_pwr (s : State) (n : Nat) (f : HLane → HLane) : (s.setHlane n f).pwr = s.pwr := rfl
@[simp] theorem setHlane_clk (s : State) (n : Nat) (f : HLane → HLane) : (s.setHlane n f).clk = s.clk := rfl
@[simp] theorem setHlane_mgmt (s : State) (n : Nat) (f : HLane → HLane) : (s.setHlane n f).mgmt = s.mgmt := rfl
@[simp] theorem setHlane_sec (s : State) (n : Nat) (f : HLane → HLane) : (s.setHlane n f).sec = s.sec := rfl
@[simp] theorem setHlane_cmds (s : State) (n : Nat) (f : HLane → HLane) : (s.setHlane n f).cmds = s.cmds := rfl
@[simp] theorem setHlane_rings (s : State) (n : Nat) (f : HLane → HLane) : (s.setHlane n f).rings = s.rings := rfl
@[simp] theorem setHlane_frames (s : State) (n : Nat) (f : HLane → HLane) : (s.setHlane n f).frames = s.frames := rfl
@[simp] theorem setHlane_slices (s : State) (n : Nat) (f : HLane → HLane) : (s.setHlane n f).slices = s.slices := rfl
@[simp] theorem setHlane_mig (s : State) (n : Nat) (f : HLane → HLane) : (s.setHlane n f).mig = s.mig := rfl
@[simp] theorem setHlane_lanes (s : State) (n : Nat) (f : HLane → HLane) : (s.setHlane n f).lanes = s.lanes := rfl
@[simp] theorem setHlane_ltx (s : State) (n : Nat) (f : HLane → HLane) : (s.setHlane n f).ltx = s.ltx := rfl
@[simp] theorem setHlane_cals (s : State) (n : Nat) (f : HLane → HLane) : (s.setHlane n f).cals = s.cals := rfl
@[simp] theorem setHlane_thm (s : State) (n : Nat) (f : HLane → HLane) : (s.setHlane n f).thm = s.thm := rfl
@[simp] theorem setHlane_due (s : State) (n : Nat) (f : HLane → HLane) : (s.setHlane n f).due = s.due := rfl
@[simp] theorem setHlane_scr (s : State) (n : Nat) (f : HLane → HLane) : (s.setHlane n f).scr = s.scr := rfl
@[simp] theorem setHlane_plb (s : State) (n : Nat) (f : HLane → HLane) : (s.setHlane n f).plb = s.plb := rfl
@[simp] theorem setHlane_obs (s : State) (n : Nat) (f : HLane → HLane) : (s.setHlane n f).obs = s.obs := rfl
@[simp] theorem setHlane_hlanes (s : State) (n : Nat) (f : HLane → HLane) : (s.setHlane n f).hlanes = upd s.hlanes n f := rfl
@[simp] theorem setHlane_hrx (s : State) (n : Nat) (f : HLane → HLane) : (s.setHlane n f).hrx = s.hrx := rfl
@[simp] theorem setHlane_tte (s : State) (n : Nat) (f : HLane → HLane) : (s.setHlane n f).tte = s.tte := rfl
@[simp] theorem setHlane_mons (s : State) (n : Nat) (f : HLane → HLane) : (s.setHlane n f).mons = s.mons := rfl
@[simp] theorem setHlane_hka (s : State) (n : Nat) (f : HLane → HLane) : (s.setHlane n f).hka = s.hka := rfl
@[simp] theorem setHlane_loops (s : State) (n : Nat) (f : HLane → HLane) : (s.setHlane n f).loops = s.loops := rfl
@[simp] theorem setHlane_cap (s : State) (n : Nat) (f : HLane → HLane) : (s.setHlane n f).cap = s.cap := rfl
@[simp] theorem setHlane_jnl (s : State) (n : Nat) (f : HLane → HLane) : (s.setHlane n f).jnl = s.jnl := rfl
@[simp] theorem setHlane_free (s : State) (n : Nat) (f : HLane → HLane) : (s.setHlane n f).free = s.free := rfl
@[simp] theorem setHlane_pending (s : State) (n : Nat) (f : HLane → HLane) : (s.setHlane n f).pending = s.pending := rfl
@[simp] theorem setHlane_get (s : State) (n : Nat) (f : HLane → HLane) (g : FRef) (i : List Nat) : (s.setHlane n f).get g i = s.get g i := rfl
@[simp] theorem setHlane_on (s : State) (n : Nat) (f : HLane → HLane) (g : FRef) (i : List Nat) : (s.setHlane n f).on g i = s.on g i := rfl
@[simp] theorem setHlane_liveAt (s : State) (n : Nat) (f : HLane → HLane) (a : Nat) : (s.setHlane n f).liveAt a = s.liveAt a := rfl
/-! Fields after `setMon`. -/
@[simp] theorem setMon_part (s : State) (n : Nat) (f : Mon → Mon) : (s.setMon n f).part = s.part := rfl
@[simp] theorem setMon_live (s : State) (n : Nat) (f : Mon → Mon) : (s.setMon n f).live = s.live := rfl
@[simp] theorem setMon_under (s : State) (n : Nat) (f : Mon → Mon) : (s.setMon n f).under = s.under := rfl
@[simp] theorem setMon_inUse (s : State) (n : Nat) (f : Mon → Mon) : (s.setMon n f).inUse = s.inUse := rfl
@[simp] theorem setMon_snap (s : State) (n : Nat) (f : Mon → Mon) : (s.setMon n f).snap = s.snap := rfl
@[simp] theorem setMon_applied (s : State) (n : Nat) (f : Mon → Mon) : (s.setMon n f).applied = s.applied := rfl
@[simp] theorem setMon_seq (s : State) (n : Nat) (f : Mon → Mon) : (s.setMon n f).seq = s.seq := rfl
@[simp] theorem setMon_set (s : State) (n : Nat) (f : Mon → Mon) : (s.setMon n f).set = s.set := rfl
@[simp] theorem setMon_mem (s : State) (n : Nat) (f : Mon → Mon) : (s.setMon n f).mem = s.mem := rfl
@[simp] theorem setMon_pwr (s : State) (n : Nat) (f : Mon → Mon) : (s.setMon n f).pwr = s.pwr := rfl
@[simp] theorem setMon_clk (s : State) (n : Nat) (f : Mon → Mon) : (s.setMon n f).clk = s.clk := rfl
@[simp] theorem setMon_mgmt (s : State) (n : Nat) (f : Mon → Mon) : (s.setMon n f).mgmt = s.mgmt := rfl
@[simp] theorem setMon_sec (s : State) (n : Nat) (f : Mon → Mon) : (s.setMon n f).sec = s.sec := rfl
@[simp] theorem setMon_cmds (s : State) (n : Nat) (f : Mon → Mon) : (s.setMon n f).cmds = s.cmds := rfl
@[simp] theorem setMon_rings (s : State) (n : Nat) (f : Mon → Mon) : (s.setMon n f).rings = s.rings := rfl
@[simp] theorem setMon_frames (s : State) (n : Nat) (f : Mon → Mon) : (s.setMon n f).frames = s.frames := rfl
@[simp] theorem setMon_slices (s : State) (n : Nat) (f : Mon → Mon) : (s.setMon n f).slices = s.slices := rfl
@[simp] theorem setMon_mig (s : State) (n : Nat) (f : Mon → Mon) : (s.setMon n f).mig = s.mig := rfl
@[simp] theorem setMon_lanes (s : State) (n : Nat) (f : Mon → Mon) : (s.setMon n f).lanes = s.lanes := rfl
@[simp] theorem setMon_ltx (s : State) (n : Nat) (f : Mon → Mon) : (s.setMon n f).ltx = s.ltx := rfl
@[simp] theorem setMon_cals (s : State) (n : Nat) (f : Mon → Mon) : (s.setMon n f).cals = s.cals := rfl
@[simp] theorem setMon_thm (s : State) (n : Nat) (f : Mon → Mon) : (s.setMon n f).thm = s.thm := rfl
@[simp] theorem setMon_due (s : State) (n : Nat) (f : Mon → Mon) : (s.setMon n f).due = s.due := rfl
@[simp] theorem setMon_scr (s : State) (n : Nat) (f : Mon → Mon) : (s.setMon n f).scr = s.scr := rfl
@[simp] theorem setMon_plb (s : State) (n : Nat) (f : Mon → Mon) : (s.setMon n f).plb = s.plb := rfl
@[simp] theorem setMon_obs (s : State) (n : Nat) (f : Mon → Mon) : (s.setMon n f).obs = s.obs := rfl
@[simp] theorem setMon_hlanes (s : State) (n : Nat) (f : Mon → Mon) : (s.setMon n f).hlanes = s.hlanes := rfl
@[simp] theorem setMon_hrx (s : State) (n : Nat) (f : Mon → Mon) : (s.setMon n f).hrx = s.hrx := rfl
@[simp] theorem setMon_tte (s : State) (n : Nat) (f : Mon → Mon) : (s.setMon n f).tte = s.tte := rfl
@[simp] theorem setMon_mons (s : State) (n : Nat) (f : Mon → Mon) : (s.setMon n f).mons = upd s.mons n f := rfl
@[simp] theorem setMon_hka (s : State) (n : Nat) (f : Mon → Mon) : (s.setMon n f).hka = s.hka := rfl
@[simp] theorem setMon_loops (s : State) (n : Nat) (f : Mon → Mon) : (s.setMon n f).loops = s.loops := rfl
@[simp] theorem setMon_cap (s : State) (n : Nat) (f : Mon → Mon) : (s.setMon n f).cap = s.cap := rfl
@[simp] theorem setMon_jnl (s : State) (n : Nat) (f : Mon → Mon) : (s.setMon n f).jnl = s.jnl := rfl
@[simp] theorem setMon_free (s : State) (n : Nat) (f : Mon → Mon) : (s.setMon n f).free = s.free := rfl
@[simp] theorem setMon_pending (s : State) (n : Nat) (f : Mon → Mon) : (s.setMon n f).pending = s.pending := rfl
@[simp] theorem setMon_get (s : State) (n : Nat) (f : Mon → Mon) (g : FRef) (i : List Nat) : (s.setMon n f).get g i = s.get g i := rfl
@[simp] theorem setMon_on (s : State) (n : Nat) (f : Mon → Mon) (g : FRef) (i : List Nat) : (s.setMon n f).on g i = s.on g i := rfl
@[simp] theorem setMon_liveAt (s : State) (n : Nat) (f : Mon → Mon) (a : Nat) : (s.setMon n f).liveAt a = s.liveAt a := rfl
/-! Fields after `setCal`. -/
@[simp] theorem setCal_part (s : State) (n : Nat) (f : Cal → Cal) : (s.setCal n f).part = s.part := rfl
@[simp] theorem setCal_live (s : State) (n : Nat) (f : Cal → Cal) : (s.setCal n f).live = s.live := rfl
@[simp] theorem setCal_under (s : State) (n : Nat) (f : Cal → Cal) : (s.setCal n f).under = s.under := rfl
@[simp] theorem setCal_inUse (s : State) (n : Nat) (f : Cal → Cal) : (s.setCal n f).inUse = s.inUse := rfl
@[simp] theorem setCal_snap (s : State) (n : Nat) (f : Cal → Cal) : (s.setCal n f).snap = s.snap := rfl
@[simp] theorem setCal_applied (s : State) (n : Nat) (f : Cal → Cal) : (s.setCal n f).applied = s.applied := rfl
@[simp] theorem setCal_seq (s : State) (n : Nat) (f : Cal → Cal) : (s.setCal n f).seq = s.seq := rfl
@[simp] theorem setCal_set (s : State) (n : Nat) (f : Cal → Cal) : (s.setCal n f).set = s.set := rfl
@[simp] theorem setCal_mem (s : State) (n : Nat) (f : Cal → Cal) : (s.setCal n f).mem = s.mem := rfl
@[simp] theorem setCal_pwr (s : State) (n : Nat) (f : Cal → Cal) : (s.setCal n f).pwr = s.pwr := rfl
@[simp] theorem setCal_clk (s : State) (n : Nat) (f : Cal → Cal) : (s.setCal n f).clk = s.clk := rfl
@[simp] theorem setCal_mgmt (s : State) (n : Nat) (f : Cal → Cal) : (s.setCal n f).mgmt = s.mgmt := rfl
@[simp] theorem setCal_sec (s : State) (n : Nat) (f : Cal → Cal) : (s.setCal n f).sec = s.sec := rfl
@[simp] theorem setCal_cmds (s : State) (n : Nat) (f : Cal → Cal) : (s.setCal n f).cmds = s.cmds := rfl
@[simp] theorem setCal_rings (s : State) (n : Nat) (f : Cal → Cal) : (s.setCal n f).rings = s.rings := rfl
@[simp] theorem setCal_frames (s : State) (n : Nat) (f : Cal → Cal) : (s.setCal n f).frames = s.frames := rfl
@[simp] theorem setCal_slices (s : State) (n : Nat) (f : Cal → Cal) : (s.setCal n f).slices = s.slices := rfl
@[simp] theorem setCal_mig (s : State) (n : Nat) (f : Cal → Cal) : (s.setCal n f).mig = s.mig := rfl
@[simp] theorem setCal_lanes (s : State) (n : Nat) (f : Cal → Cal) : (s.setCal n f).lanes = s.lanes := rfl
@[simp] theorem setCal_ltx (s : State) (n : Nat) (f : Cal → Cal) : (s.setCal n f).ltx = s.ltx := rfl
@[simp] theorem setCal_cals (s : State) (n : Nat) (f : Cal → Cal) : (s.setCal n f).cals = upd s.cals n f := rfl
@[simp] theorem setCal_thm (s : State) (n : Nat) (f : Cal → Cal) : (s.setCal n f).thm = s.thm := rfl
@[simp] theorem setCal_due (s : State) (n : Nat) (f : Cal → Cal) : (s.setCal n f).due = s.due := rfl
@[simp] theorem setCal_scr (s : State) (n : Nat) (f : Cal → Cal) : (s.setCal n f).scr = s.scr := rfl
@[simp] theorem setCal_plb (s : State) (n : Nat) (f : Cal → Cal) : (s.setCal n f).plb = s.plb := rfl
@[simp] theorem setCal_obs (s : State) (n : Nat) (f : Cal → Cal) : (s.setCal n f).obs = s.obs := rfl
@[simp] theorem setCal_hlanes (s : State) (n : Nat) (f : Cal → Cal) : (s.setCal n f).hlanes = s.hlanes := rfl
@[simp] theorem setCal_hrx (s : State) (n : Nat) (f : Cal → Cal) : (s.setCal n f).hrx = s.hrx := rfl
@[simp] theorem setCal_tte (s : State) (n : Nat) (f : Cal → Cal) : (s.setCal n f).tte = s.tte := rfl
@[simp] theorem setCal_mons (s : State) (n : Nat) (f : Cal → Cal) : (s.setCal n f).mons = s.mons := rfl
@[simp] theorem setCal_hka (s : State) (n : Nat) (f : Cal → Cal) : (s.setCal n f).hka = s.hka := rfl
@[simp] theorem setCal_loops (s : State) (n : Nat) (f : Cal → Cal) : (s.setCal n f).loops = s.loops := rfl
@[simp] theorem setCal_cap (s : State) (n : Nat) (f : Cal → Cal) : (s.setCal n f).cap = s.cap := rfl
@[simp] theorem setCal_jnl (s : State) (n : Nat) (f : Cal → Cal) : (s.setCal n f).jnl = s.jnl := rfl
@[simp] theorem setCal_free (s : State) (n : Nat) (f : Cal → Cal) : (s.setCal n f).free = s.free := rfl
@[simp] theorem setCal_pending (s : State) (n : Nat) (f : Cal → Cal) : (s.setCal n f).pending = s.pending := rfl
@[simp] theorem setCal_get (s : State) (n : Nat) (f : Cal → Cal) (g : FRef) (i : List Nat) : (s.setCal n f).get g i = s.get g i := rfl
@[simp] theorem setCal_on (s : State) (n : Nat) (f : Cal → Cal) (g : FRef) (i : List Nat) : (s.setCal n f).on g i = s.on g i := rfl
@[simp] theorem setCal_liveAt (s : State) (n : Nat) (f : Cal → Cal) (a : Nat) : (s.setCal n f).liveAt a = s.liveAt a := rfl
/-! Fields after `setLoop`. -/
@[simp] theorem setLoop_part (s : State) (n : Nat) (f : Loop → Loop) : (s.setLoop n f).part = s.part := rfl
@[simp] theorem setLoop_live (s : State) (n : Nat) (f : Loop → Loop) : (s.setLoop n f).live = s.live := rfl
@[simp] theorem setLoop_under (s : State) (n : Nat) (f : Loop → Loop) : (s.setLoop n f).under = s.under := rfl
@[simp] theorem setLoop_inUse (s : State) (n : Nat) (f : Loop → Loop) : (s.setLoop n f).inUse = s.inUse := rfl
@[simp] theorem setLoop_snap (s : State) (n : Nat) (f : Loop → Loop) : (s.setLoop n f).snap = s.snap := rfl
@[simp] theorem setLoop_applied (s : State) (n : Nat) (f : Loop → Loop) : (s.setLoop n f).applied = s.applied := rfl
@[simp] theorem setLoop_seq (s : State) (n : Nat) (f : Loop → Loop) : (s.setLoop n f).seq = s.seq := rfl
@[simp] theorem setLoop_set (s : State) (n : Nat) (f : Loop → Loop) : (s.setLoop n f).set = s.set := rfl
@[simp] theorem setLoop_mem (s : State) (n : Nat) (f : Loop → Loop) : (s.setLoop n f).mem = s.mem := rfl
@[simp] theorem setLoop_pwr (s : State) (n : Nat) (f : Loop → Loop) : (s.setLoop n f).pwr = s.pwr := rfl
@[simp] theorem setLoop_clk (s : State) (n : Nat) (f : Loop → Loop) : (s.setLoop n f).clk = s.clk := rfl
@[simp] theorem setLoop_mgmt (s : State) (n : Nat) (f : Loop → Loop) : (s.setLoop n f).mgmt = s.mgmt := rfl
@[simp] theorem setLoop_sec (s : State) (n : Nat) (f : Loop → Loop) : (s.setLoop n f).sec = s.sec := rfl
@[simp] theorem setLoop_cmds (s : State) (n : Nat) (f : Loop → Loop) : (s.setLoop n f).cmds = s.cmds := rfl
@[simp] theorem setLoop_rings (s : State) (n : Nat) (f : Loop → Loop) : (s.setLoop n f).rings = s.rings := rfl
@[simp] theorem setLoop_frames (s : State) (n : Nat) (f : Loop → Loop) : (s.setLoop n f).frames = s.frames := rfl
@[simp] theorem setLoop_slices (s : State) (n : Nat) (f : Loop → Loop) : (s.setLoop n f).slices = s.slices := rfl
@[simp] theorem setLoop_mig (s : State) (n : Nat) (f : Loop → Loop) : (s.setLoop n f).mig = s.mig := rfl
@[simp] theorem setLoop_lanes (s : State) (n : Nat) (f : Loop → Loop) : (s.setLoop n f).lanes = s.lanes := rfl
@[simp] theorem setLoop_ltx (s : State) (n : Nat) (f : Loop → Loop) : (s.setLoop n f).ltx = s.ltx := rfl
@[simp] theorem setLoop_cals (s : State) (n : Nat) (f : Loop → Loop) : (s.setLoop n f).cals = s.cals := rfl
@[simp] theorem setLoop_thm (s : State) (n : Nat) (f : Loop → Loop) : (s.setLoop n f).thm = s.thm := rfl
@[simp] theorem setLoop_due (s : State) (n : Nat) (f : Loop → Loop) : (s.setLoop n f).due = s.due := rfl
@[simp] theorem setLoop_scr (s : State) (n : Nat) (f : Loop → Loop) : (s.setLoop n f).scr = s.scr := rfl
@[simp] theorem setLoop_plb (s : State) (n : Nat) (f : Loop → Loop) : (s.setLoop n f).plb = s.plb := rfl
@[simp] theorem setLoop_obs (s : State) (n : Nat) (f : Loop → Loop) : (s.setLoop n f).obs = s.obs := rfl
@[simp] theorem setLoop_hlanes (s : State) (n : Nat) (f : Loop → Loop) : (s.setLoop n f).hlanes = s.hlanes := rfl
@[simp] theorem setLoop_hrx (s : State) (n : Nat) (f : Loop → Loop) : (s.setLoop n f).hrx = s.hrx := rfl
@[simp] theorem setLoop_tte (s : State) (n : Nat) (f : Loop → Loop) : (s.setLoop n f).tte = s.tte := rfl
@[simp] theorem setLoop_mons (s : State) (n : Nat) (f : Loop → Loop) : (s.setLoop n f).mons = s.mons := rfl
@[simp] theorem setLoop_hka (s : State) (n : Nat) (f : Loop → Loop) : (s.setLoop n f).hka = s.hka := rfl
@[simp] theorem setLoop_loops (s : State) (n : Nat) (f : Loop → Loop) : (s.setLoop n f).loops = upd s.loops n f := rfl
@[simp] theorem setLoop_cap (s : State) (n : Nat) (f : Loop → Loop) : (s.setLoop n f).cap = s.cap := rfl
@[simp] theorem setLoop_jnl (s : State) (n : Nat) (f : Loop → Loop) : (s.setLoop n f).jnl = s.jnl := rfl
@[simp] theorem setLoop_free (s : State) (n : Nat) (f : Loop → Loop) : (s.setLoop n f).free = s.free := rfl
@[simp] theorem setLoop_pending (s : State) (n : Nat) (f : Loop → Loop) : (s.setLoop n f).pending = s.pending := rfl
@[simp] theorem setLoop_get (s : State) (n : Nat) (f : Loop → Loop) (g : FRef) (i : List Nat) : (s.setLoop n f).get g i = s.get g i := rfl
@[simp] theorem setLoop_on (s : State) (n : Nat) (f : Loop → Loop) (g : FRef) (i : List Nat) : (s.setLoop n f).on g i = s.on g i := rfl
@[simp] theorem setLoop_liveAt (s : State) (n : Nat) (f : Loop → Loop) (a : Nat) : (s.setLoop n f).liveAt a = s.liveAt a := rfl
@[simp] theorem useFree_get (s : State) (g : FRef) (i : List Nat) : s.useFree.get g i = s.get g i := rfl
@[simp] theorem take_get (s : State) (a : Nat) (g : FRef) (i : List Nat) : (s.take a).get g i = s.get g i := rfl
@[simp] theorem takeIn_get (s : State) (lo hi : Nat) (g : FRef) (i : List Nat) : (s.takeIn lo hi).get g i = s.get g i := rfl
@[simp] theorem disarm_get (s : State) (k j : Nat) (g : FRef) (i : List Nat) : (s.disarm k j).get g i = s.get g i := rfl
@[simp] theorem whenB_true (s : State) (f : State → State) : s.whenB true f = f s := rfl
@[simp] theorem whenB_false (s : State) (f : State → State) : s.whenB false f = s := rfl

end State

/-! Bit fields of naturals. -/

theorem bits_testBit (n hi lo i : Nat) : (bits n hi lo).testBit i = (decide (i < hi + 1 - lo) && n.testBit (lo + i)) := by
  simp [bits, Nat.testBit_mod_two_pow, Nat.testBit_shiftRight]

theorem bits_lt (n hi lo : Nat) : bits n hi lo < 2 ^ (hi + 1 - lo) := Nat.mod_lt _ (Nat.two_pow_pos _)

theorem setBits_testBit (n v i : Nat) {hi lo : Nat} (h : lo ≤ hi + 1) :
    (setBits n hi lo v).testBit i = if lo ≤ i ∧ i ≤ hi then v.testBit (i - lo) else n.testBit i := by
  generalize hw : hi + 1 - lo = w
  have hn : n = 2 ^ lo * (2 ^ w * (n / 2 ^ lo / 2 ^ w) + n / 2 ^ lo % 2 ^ w) + n % 2 ^ lo := by
    rw [Nat.div_add_mod, Nat.div_add_mod]
  have hb : bits n hi lo = n / 2 ^ lo % 2 ^ w := by simp [bits, hw, Nat.shiftRight_eq_div_pow]
  have hs : setBits n hi lo v = 2 ^ lo * (2 ^ w * (n / 2 ^ lo / 2 ^ w) + v % 2 ^ w) + n % 2 ^ lo := by
    unfold setBits
    rw [hb, hw]
    generalize hq : n / 2 ^ lo / 2 ^ w = q at *
    generalize hr : n / 2 ^ lo % 2 ^ w = r at *
    generalize hl : n % 2 ^ lo = l at *
    have : n = 2 ^ lo * (2 ^ w * q) + r * 2 ^ lo + l := by rw [hn, Nat.mul_add, Nat.mul_comm r]
    have e2 : 2 ^ lo * (2 ^ w * q + v % 2 ^ w) = 2 ^ lo * (2 ^ w * q) + v % 2 ^ w * 2 ^ lo := by
      rw [Nat.mul_add, Nat.mul_comm (v % 2 ^ w)]
    omega
  have hl : n % 2 ^ lo < 2 ^ lo := Nat.mod_lt _ (Nat.two_pow_pos _)
  have hv : v % 2 ^ w < 2 ^ w := Nat.mod_lt _ (Nat.two_pow_pos _)
  rw [hs, Nat.testBit_two_pow_mul_add _ hl]
  split
  · rename_i h1
    rw [if_neg (by omega), Nat.testBit_mod_two_pow]; simp [h1]
  · rename_i h1
    rw [Nat.testBit_two_pow_mul_add _ hv]
    split
    · rename_i h2
      rw [if_pos (by omega), Nat.testBit_mod_two_pow]; simp [h2]
    · rename_i h2
      rw [if_neg (by omega), ← Nat.shiftRight_eq_div_pow, ← Nat.shiftRight_eq_div_pow, Nat.testBit_shiftRight, Nat.testBit_shiftRight]
      congr 1; omega

theorem setBits_lt {n hi lo k : Nat} (v : Nat) (hn : n < 2 ^ k) (hk : hi < k) (hl : lo ≤ hi + 1) : setBits n hi lo v < 2 ^ k := by
  refine Nat.lt_pow_two_of_testBit _ fun i hi' => ?_
  rw [setBits_testBit _ _ _ hl, if_neg (by omega)]
  exact Nat.testBit_lt_two_pow (Nat.lt_of_lt_of_le hn (Nat.pow_le_pow_right (by decide) hi'))

/-- A field reads as it was written. -/
theorem bits_setBits_same (n v : Nat) {hi lo : Nat} (h : lo ≤ hi + 1) : bits (setBits n hi lo v) hi lo = v % 2 ^ (hi + 1 - lo) := by
  refine Nat.eq_of_testBit_eq fun i => ?_
  rw [bits_testBit, setBits_testBit _ _ _ h, Nat.testBit_mod_two_pow]
  by_cases hi' : i < hi + 1 - lo
  · rw [if_pos (by omega), Nat.add_sub_cancel_left]
  · simp [hi']

/-- A write of one field leaves a field beside it as it was. -/
theorem bits_setBits_other (n v : Nat) {hi lo hi' lo' : Nat} (h : lo ≤ hi + 1) (hd : hi < lo' ∨ hi' < lo) :
    bits (setBits n hi lo v) hi' lo' = bits n hi' lo' := by
  refine Nat.eq_of_testBit_eq fun i => ?_
  rw [bits_testBit, bits_testBit, setBits_testBit _ _ _ h]
  by_cases hi1 : i < hi' + 1 - lo'
  · rw [if_neg (by omega)]
  · simp [hi1]

namespace State
variable {s : State}

theorem liveAt_setLive_same (h : RegFile.wf s.live) (a : Nat) (w : Word) : (s.setLive a w).liveAt a = w :=
  RegFile.get_set_same h a w

theorem liveAt_setLive_other (h : RegFile.wf s.live) {a b : Nat} (w : Word) (hb : b ≠ a) : (s.setLive a w).liveAt b = s.liveAt b :=
  RegFile.get_set_other h w hb

theorem setLive_wf (h : RegFile.wf s.live) (a : Nat) (w : Word) : RegFile.wf (s.setLive a w).live := RegFile.set_wf h a w

theorem put_wf (h : RegFile.wf s.live) (f : FRef) (v : Nat) (i : List Nat) : RegFile.wf (s.put f v i).live := RegFile.set_wf h _ _

theorem ev_wf (h : RegFile.wf s.live) (f : FRef) (i : List Nat) : RegFile.wf (s.ev f i).live := RegFile.set_wf h _ _

theorem inc_wf (h : RegFile.wf s.live) (f : FRef) (i : List Nat) (n : Nat) : RegFile.wf (s.inc f i n).live := RegFile.set_wf h _ _

theorem seqEv_wf (h : RegFile.wf s.live) (b : Nat) : RegFile.wf (s.seqEv b).live := RegFile.set_wf h _ _

/-- A write of a field leaves every other register as it was. -/
theorem liveAt_put_other (h : RegFile.wf s.live) {f : FRef} {i : List Nat} {b : Nat} (v : Nat) (hb : b ≠ f.addr i) :
    (s.put f v i).liveAt b = s.liveAt b := RegFile.get_set_other h _ hb

/-- A field of another register is left as it was. -/
theorem get_put_other (h : RegFile.wf s.live) {f g : FRef} {i j : List Nat} (v : Nat) (hb : g.addr j ≠ f.addr i) :
    (s.put f v i).get g j = s.get g j := by
  unfold State.get; rw [liveAt_put_other h v hb]

theorem liveAt_put_same (h : RegFile.wf s.live) {f : FRef} {i : List Nat} (v : Nat) (hf : f.hi < 48) (hl : f.lo ≤ f.hi + 1) :
    ((s.put f v i).liveAt (f.addr i)).toNat = setBits (s.liveAt (f.addr i)).toNat f.hi f.lo v := by
  unfold State.put
  rw [liveAt_setLive_same h, BitVec.toNat_ofNat, Nat.mod_eq_of_lt (setBits_lt v (BitVec.isLt _) hf hl)]

/-- A field reads as it was written, limited to its width. -/
theorem get_put_same (h : RegFile.wf s.live) {f : FRef} {i : List Nat} (v : Nat) (hf : f.hi < 48) (hl : f.lo ≤ f.hi + 1) :
    (s.put f v i).get f i = v % 2 ^ (f.hi + 1 - f.lo) := by
  unfold State.get; rw [liveAt_put_same h v hf hl, bits_setBits_same _ _ hl]

/-- Another field of the same register is left as it was. -/
theorem get_put_beside (h : RegFile.wf s.live) {f g : FRef} {i j : List Nat} (v : Nat) (hf : f.hi < 48) (hl : f.lo ≤ f.hi + 1)
    (ha : g.addr j = f.addr i) (hd : f.hi < g.lo ∨ g.hi < f.lo) : (s.put f v i).get g j = s.get g j := by
  unfold State.get; rw [ha, liveAt_put_same h v hf hl, bits_setBits_other _ _ hl hd]

/-- A field that lies elsewhere is left as it was: in another register, or beside the written one. -/
theorem get_put_ne (h : RegFile.wf s.live) {f g : FRef} {i j : List Nat} (v : Nat) (hf : f.hi < 48) (hl : f.lo ≤ f.hi + 1)
    (hd : g.addr j = f.addr i → f.hi < g.lo ∨ g.hi < f.lo) : (s.put f v i).get g j = s.get g j := by
  by_cases ha : g.addr j = f.addr i
  · exact get_put_beside h v hf hl ha (hd ha)
  · exact get_put_other h v ha

/-- A field is smaller than its width allows. -/
theorem get_lt (s : State) (f : FRef) (i : List Nat) : s.get f i < 2 ^ (f.hi + 1 - f.lo) := bits_lt _ _ _

/-- A counter after an event: one more, or its greatest value (R8). -/
theorem get_inc_same (h : RegFile.wf s.live) {f : FRef} {i : List Nat} (n : Nat) (hf : f.hi < 48) (hl : f.lo ≤ f.hi + 1) :
    (s.inc f i n).get f i = min (s.get f i + n) (2 ^ (f.hi + 1 - f.lo) - 1) := by
  unfold State.inc
  rw [get_put_same h _ hf hl, Nat.mod_eq_of_lt]
  have := Nat.two_pow_pos (f.hi + 1 - f.lo)
  omega

end State
end Sys2Proof.Machine
end

