-- ==== Sys2Proof/Laws/Quiet.lean ====
section
/-! SUPPORT. What reading and writing the protected memories may change: registers, memories, the undercoat and its poison, the Stencil's
pulses, and the in-service test that a use of its page ends. Every property that looks at nothing else is kept. -/
namespace Sys2Proof.Machine
open State
set_option linter.all false

/-- The property looks at nothing that a use of a memory may change. -/
def Quiet (P : State → Prop) : Prop :=
  ∀ {s t : State}, P s → t = { s with
    live := t.live, mem := t.mem, under := t.under, set := t.set, cap := t.cap, sec := t.sec } → P t

variable {P : State → Prop}

/-- A field that a use of a memory leaves is such a property. -/
theorem Quiet.seq (q : Seq) : Quiet fun s => s.seq = q := fun h e => by rw [e]; exact h
theorem Quiet.pending (q : List Instr) : Quiet fun s => s.pending = q := fun h e => by rw [e]; exact h
theorem Quiet.pwr (q : Pwr) : Quiet fun s => s.pwr = q := fun h e => by rw [e]; exact h


theorem State.put_quiet (hP : Quiet P) {s : State} (h : P s) (f : FRef) (v : Nat) (i : List Nat) : P (s.put f v i) := hP h rfl

theorem State.inc_quiet (hP : Quiet P) {s : State} (h : P s) (f : FRef) (i : List Nat) (n : Nat) : P (s.inc f i n) := hP h rfl

theorem State.ev_quiet (hP : Quiet P) {s : State} (h : P s) (f : FRef) (i : List Nat) : P (s.ev f i) := hP h rfl

theorem State.seqEv_quiet (hP : Quiet P) {s : State} (h : P s) (b : Nat) : P (s.seqEv b) := hP h rfl

theorem State.setLive_quiet (hP : Quiet P) {s : State} (h : P s) (a : Nat) (w : Word) : P (s.setLive a w) := hP h rfl

theorem State.setMem_quiet (hP : Quiet P) {s : State} (h : P s) (m : Nat) (g : Mem → Mem) : P (s.setMem m g) := hP h rfl

theorem State.setCell_quiet (hP : Quiet P) {s : State} (h : P s) (m a : Nat) (c : Cell) : P (s.setCell m a c) := hP h rfl

theorem State.setPage_quiet (hP : Quiet P) {s : State} (h : P s) (m p : Nat) (g : Page) : P (s.setPage m p g) := hP h rfl

theorem State.evIf_quiet (hP : Quiet P) {s : State} (h : P s) (c : Bool) (f : FRef) (i : List Nat) : P (s.evIf c f i) := by
  unfold State.evIf; split
  · exact hP h rfl
  · exact h

theorem State.capEv_quiet (hP : Quiet P) {s : State} (h : P s) (b : Nat) : P (s.capEv b) := by
  unfold State.capEv
  dsimp only
  split
  · exact hP h rfl
  · exact h

theorem State.pmc_quiet (hP : Quiet P) {s : State} (h : P s) (c n r : Nat) : P (s.pmc c n r) := by
  unfold State.pmc
  split
  · exact h
  · refine each_kept h fun t p ht => ?_
    dsimp only
    refine ite_kept ?_ ht
    have h1 := State.inc_quiet hP ht Reg.PMC_CNT.COUNT [p.1 - 0x4B0100] (if p.2.toNat.testBit 8 then r else n)
    exact ite_kept (ite_kept (State.put_quiet hP h1 _ _ _) (State.put_quiet hP h1 _ _ _)) h1

theorem State.isAbort_quiet (hP : Quiet P) {s : State} (h : P s) : P s.isAbort := by
  unfold State.isAbort
  refine ite_kept h ?_
  have h1 : P { s with sec := { s.sec with isRun := false } } := hP h rfl
  exact State.inc_quiet hP (State.put_quiet hP (State.put_quiet hP h1 _ _ _) _ _ _) _ _ _

theorem State.storeWord_quiet (hP : Quiet P) {s : State} (h : P s) (m a : Nat) (w : Word) : P (State.storeWord s m a w) := by
  unfold State.storeWord
  split
  · dsimp only
    split <;> exact hP h rfl
  · exact hP h rfl

theorem State.memReport_quiet (hP : Quiet P) {s : State} (h : P s) (cls : Nat) (m : Nat) (who : Master) (how : Nat) (a : Nat) (syn : Nat) (nsym : Nat) (npois : Nat) : P (State.memReport s cls m who how a syn nsym npois) := by
  unfold State.memReport
  repeat' first
    | with_reducible assumption
    | intro _
    | (extract_lets +onlyGivenNames x; refine (fun hx => ?_ : P x → _) ?_; clear_value x; rotate_left; subst x; rotate_right)
    | (extract_lets +onlyGivenNames x; refine (fun hx => ?_ : P x.1 → _) ?_; clear_value x; rotate_left; subst x; rotate_right)
    | extract_lets +onlyGivenNames x
    | with_reducible apply ite_kept
    | with_reducible apply ite_fst_kept
    | with_reducible apply whenB_kept
    | with_reducible apply State.capEv_quiet hP
    | with_reducible apply State.ev_quiet hP
    | with_reducible apply State.evIf_quiet hP
    | with_reducible apply State.inc_quiet hP
    | with_reducible apply State.pmc_quiet hP
    | with_reducible apply State.put_quiet hP
    | with_reducible apply State.seqEv_quiet hP
    | with_reducible apply State.setLive_quiet hP
    | split
    | (refine fst_kept (by assumption) ?_)
    | (refine hP ?_ rfl)

theorem State.setPoison_quiet (hP : Quiet P) {s : State} (h : P s) (m : Nat) (a : Nat) (v : Bool) : P (State.setPoison s m a v) := by
  unfold State.setPoison
  repeat' first
    | with_reducible assumption
    | (extract_lets +onlyGivenNames x; refine (fun hx => ?_ : P x → _) ?_; clear_value x; rotate_left; subst x; rotate_right)
    | (extract_lets +onlyGivenNames x; refine (fun hx => ?_ : P x.1 → _) ?_; clear_value x; rotate_left; subst x; rotate_right)
    | (extract_lets +onlyGivenNames x; clear_value x)
    | extract_lets +onlyGivenNames x
    | with_reducible apply ite_kept
    | with_reducible apply ite_fst_kept
    | with_reducible apply State.setPage_quiet hP
    | split
    | (refine fst_kept (by assumption) ?_)
    | (refine hP ?_ rfl)

theorem State.recode_quiet (hP : Quiet P) {s : State} (h : P s) (m : Nat) (p : Nat) : P (State.recode s m p) := by
  unfold State.recode
  repeat' first
    | with_reducible assumption
    | with_reducible apply State.setPage_quiet hP

theorem State.poisonPage_quiet (hP : Quiet P) {s : State} (h : P s) (m : Nat) (p : Nat) (who : Master) (how : Nat) : P (State.poisonPage s m p who how) := by
  unfold State.poisonPage
  repeat' first
    | with_reducible assumption
    | intro _
    | (extract_lets +onlyGivenNames x; refine (fun hx => ?_ : P x → _) ?_; clear_value x; rotate_left; subst x; rotate_right)
    | (extract_lets +onlyGivenNames x; refine (fun hx => ?_ : P x.1 → _) ?_; clear_value x; rotate_left; subst x; rotate_right)
    | (extract_lets +onlyGivenNames x; clear_value x)
    | extract_lets +onlyGivenNames x
    | with_reducible apply ite_kept
    | with_reducible apply ite_fst_kept
    | with_reducible apply each_kept
    | with_reducible apply State.memReport_quiet hP
    | with_reducible apply State.recode_quiet hP
    | with_reducible apply State.setPoison_quiet hP
    | with_reducible apply State.storeWord_quiet hP
    | split
    | (refine fst_kept (by assumption) ?_)
    | (refine hP ?_ rfl)

theorem State.rebuildMap_quiet (hP : Quiet P) {s : State} (h : P s) (m : Nat) (p : Nat) (i : Nat) (who : Master) (how : Nat) : P (State.rebuildMap s m p i who how) := by
  unfold State.rebuildMap
  repeat' first
    | with_reducible assumption
    | intro _
    | (extract_lets +onlyGivenNames x; refine (fun hx => ?_ : P x → _) ?_; clear_value x; rotate_left; subst x; rotate_right)
    | (extract_lets +onlyGivenNames x; refine (fun hx => ?_ : P x.1 → _) ?_; clear_value x; rotate_left; subst x; rotate_right)
    | (extract_lets +onlyGivenNames x; clear_value x)
    | extract_lets +onlyGivenNames x
    | with_reducible apply ite_kept
    | with_reducible apply ite_fst_kept
    | with_reducible apply each_kept
    | with_reducible apply State.memReport_quiet hP
    | with_reducible apply State.setPage_quiet hP
    | split
    | (refine hP ?_ rfl)

theorem State.pageSound_quiet (hP : Quiet P) {s : State} (h : P s) (m : Nat) (p : Nat) (who : Master) (how : Nat) : P (State.pageSound s m p who how) := by
  unfold State.pageSound
  repeat' first
    | with_reducible assumption
    | intro _
    | (extract_lets +onlyGivenNames x; refine (fun hx => ?_ : P x → _) ?_; clear_value x; rotate_left; subst x; rotate_right)
    | (extract_lets +onlyGivenNames x; refine (fun hx => ?_ : P x.1 → _) ?_; clear_value x; rotate_left; subst x; rotate_right)
    | (extract_lets +onlyGivenNames x; clear_value x)
    | extract_lets +onlyGivenNames x
    | with_reducible apply ite_kept
    | with_reducible apply ite_fst_kept
    | with_reducible apply each_kept
    | with_reducible apply State.memReport_quiet hP
    | with_reducible apply State.poisonPage_quiet hP
    | with_reducible apply State.rebuildMap_quiet hP
    | split
    | (refine fst_kept (by assumption) ?_)
    | (refine hP ?_ rfl)

theorem State.pageDecode_quiet (hP : Quiet P) {s : State} (h : P s) (m : Nat) (a : Nat) (who : Master) (how : Nat) : P (State.pageDecode s m a who how) := by
  unfold State.pageDecode
  repeat' first
    | with_reducible assumption
    | intro _
    | (extract_lets +onlyGivenNames x; refine (fun hx => ?_ : P x → _) ?_; clear_value x; rotate_left; subst x; rotate_right)
    | (extract_lets +onlyGivenNames x; refine (fun hx => ?_ : P x.1 → _) ?_; clear_value x; rotate_left; subst x; rotate_right)
    | (extract_lets +onlyGivenNames x; clear_value x)
    | extract_lets +onlyGivenNames x
    | with_reducible apply ite_kept
    | with_reducible apply ite_fst_kept
    | with_reducible apply each_kept
    | with_reducible apply State.memReport_quiet hP
    | with_reducible apply State.poisonPage_quiet hP
    | with_reducible apply State.setPage_quiet hP
    | with_reducible apply State.storeWord_quiet hP
    | split
    | (refine fst_kept (by assumption) ?_)
    | (refine hP ?_ rfl)

theorem State.settle_quiet (hP : Quiet P) {s : State} (h : P s) (m : Nat) (a : Nat) (who : Master) (how : Nat) : P (State.settle s m a who how) := by
  unfold State.settle
  repeat' first
    | with_reducible assumption
    | intro _
    | (extract_lets +onlyGivenNames x; refine (fun hx => ?_ : P x → _) ?_; clear_value x; rotate_left; subst x; rotate_right)
    | (extract_lets +onlyGivenNames x; refine (fun hx => ?_ : P x.1 → _) ?_; clear_value x; rotate_left; subst x; rotate_right)
    | (extract_lets +onlyGivenNames x; clear_value x)
    | extract_lets +onlyGivenNames x
    | with_reducible apply ite_kept
    | with_reducible apply ite_fst_kept
    | with_reducible apply whenB_kept
    | with_reducible apply State.memReport_quiet hP
    | with_reducible apply State.pageDecode_quiet hP
    | with_reducible apply State.pageSound_quiet hP
    | with_reducible apply State.storeWord_quiet hP
    | split
    | (refine fst_kept (by assumption) ?_)
    | (refine hP ?_ rfl)

theorem State.memRead_quiet (hP : Quiet P) {s : State} (h : P s) (m : Nat) (a : Nat) (who : Master) (how : Nat) : P (State.memRead s m a who how).1 := by
  unfold State.memRead
  repeat' first
    | with_reducible assumption
    | (extract_lets +onlyGivenNames x; refine (fun hx => ?_ : P x → _) ?_; clear_value x; rotate_left; subst x; rotate_right)
    | (extract_lets +onlyGivenNames x; refine (fun hx => ?_ : P x.1 → _) ?_; clear_value x; rotate_left; subst x; rotate_right)
    | (extract_lets +onlyGivenNames x; clear_value x)
    | extract_lets +onlyGivenNames x
    | with_reducible apply ite_kept
    | with_reducible apply ite_fst_kept
    | with_reducible apply State.memReport_quiet hP
    | with_reducible apply State.settle_quiet hP
    | split

theorem State.memWrite_quiet (hP : Quiet P) {s : State} (h : P s) (m : Nat) (a : Nat) (w : Word) (who : Master) : P (State.memWrite s m a w who) := by
  unfold State.memWrite
  repeat' first
    | with_reducible assumption
    | intro _
    | (extract_lets +onlyGivenNames x; refine (fun hx => ?_ : P x → _) ?_; clear_value x; rotate_left; subst x; rotate_right)
    | (extract_lets +onlyGivenNames x; refine (fun hx => ?_ : P x.1 → _) ?_; clear_value x; rotate_left; subst x; rotate_right)
    | (extract_lets +onlyGivenNames x; clear_value x)
    | extract_lets +onlyGivenNames x
    | with_reducible apply ite_kept
    | with_reducible apply ite_fst_kept
    | with_reducible apply State.pageSound_quiet hP
    | with_reducible apply State.poisonPage_quiet hP
    | with_reducible apply State.setCell_quiet hP
    | with_reducible apply State.setPage_quiet hP
    | with_reducible apply State.setPoison_quiet hP
    | with_reducible apply State.settle_quiet hP
    | with_reducible apply State.storeWord_quiet hP
    | split

theorem State.memNarrow_quiet (hP : Quiet P) {s : State} (h : P s) (m : Nat) (a : Nat) (mask : Word) (w : Word) (who : Master) : P (State.memNarrow s m a mask w who).1 := by
  unfold State.memNarrow
  repeat' first
    | with_reducible assumption
    | (extract_lets +onlyGivenNames x; refine (fun hx => ?_ : P x → _) ?_; clear_value x; rotate_left; subst x; rotate_right)
    | (extract_lets +onlyGivenNames x; refine (fun hx => ?_ : P x.1 → _) ?_; clear_value x; rotate_left; subst x; rotate_right)
    | (extract_lets +onlyGivenNames x; clear_value x)
    | extract_lets +onlyGivenNames x
    | with_reducible apply ite_kept
    | with_reducible apply ite_fst_kept
    | with_reducible apply State.memReport_quiet hP
    | with_reducible apply State.memWrite_quiet hP
    | with_reducible apply State.settle_quiet hP
    | split

theorem State.memWrites_quiet (hP : Quiet P) {s : State} (h : P s) (m : Nat) (a : Nat) (ws : List Word) (who : Master) : P (State.memWrites s m a ws who) := by
  unfold State.memWrites
  repeat' first
    | with_reducible assumption
    | intro _
    | with_reducible apply each_kept
    | with_reducible apply State.memWrite_quiet hP

end Sys2Proof.Machine
end

