-- ==== Sys2Proof/Laws/Wf.lean ====
section
/-! SUPPORT. The canonical form of the files and memories and the shape of the lists (`State.wf`), the queue, and the facts of the part
are kept by every primitive change, and so by every command (`exec_kept` of `Sys2Proof.Laws.KeptRows`). -/
namespace Sys2Proof.Machine
open State

/-- Replacing one memory by a well-formed one keeps the form. -/
theorem MemSt.wf_upd {x : MemSt} (h : MemSt.wf x) (m : Nat) (f : Mem → Mem)
    (hf : ∀ y, m < 13 → Mem.wf m y → Mem.wf m (f y)) : MemSt.wf { x with mems := upd x.mems m f } := by
  refine ⟨by simpa using h.1, fun j hj => ?_⟩
  show Mem.wf j ((upd x.mems m f).getD j _)
  rw [upd_getD]
  split
  · rename_i e
    obtain ⟨rfl, -⟩ := e
    exact hf _ hj (h.2 _ hj)
  · exact h.2 j hj

/-- An empty memory is in canonical form. -/
theorem Mem.wf_empty (m : Nat) : Mem.wf m ⟨[], []⟩ := by simp [Mem.wf]

theorem Mem.wf_kvSet_cell {m : Nat} {x : Mem} (h : Mem.wf m x) (a : Nat) (c : Cell) (hc : m ≠ memCOEF → c ≠ ⟨0, 0⟩) :
    Mem.wf m { x with cells := kvSet x.cells a c } := by
  refine ⟨kvSet_rising h.1 a c, fun hm p hp => ?_, h.2.2⟩
  rcases kvSet_mem hp with rfl | hp
  · exact hc hm
  · exact h.2.1 hm p hp

theorem Mem.wf_kvDel_cell {m : Nat} {x : Mem} (h : Mem.wf m x) (a : Nat) : Mem.wf m { x with cells := kvDel x.cells a } :=
  ⟨kvDel_rising h.1 a, fun hm p hp => h.2.1 hm p (kvDel_mem hp), h.2.2⟩

theorem Mem.wf_kvSet_page {m : Nat} {x : Mem} (h : Mem.wf m x) (p : Nat) (g : Page) (hm : m ≠ memCOEF)
    (hg : g ≠ Page.zero) : Mem.wf m { x with pages := kvSet x.pages p g } := by
  refine ⟨h.1, h.2.1, kvSet_rising h.2.2.1 p g, fun q hq => ?_, fun e => absurd e hm⟩
  rcases kvSet_mem hq with rfl | hq
  · exact hg
  · exact h.2.2.2.1 q hq

theorem Mem.wf_kvDel_page {m : Nat} {x : Mem} (h : Mem.wf m x) (p : Nat) : Mem.wf m { x with pages := kvDel x.pages p } := by
  refine ⟨h.1, h.2.1, kvDel_rising h.2.2.1 p, fun q hq => h.2.2.2.1 q (kvDel_mem hq), fun e => ?_⟩
  show kvDel x.pages p = []
  rw [h.2.2.2.2 e]; rfl

/-- The form is kept by every primitive change. -/
theorem kept_wf : Kept State.wf where
  same h _ _ _ e4 e5 e6 e7 e8 _ e := by
    obtain ⟨h1, h2, h3, h4, h5, h6⟩ := h
    exact ⟨e4 ▸ h1, e5 ▸ h2, e6 ▸ h3, e7 ▸ h4, by unfold MemSt.wf; rw [e8]; exact h5, e h6⟩
  live h a w := ⟨RegFile.set_wf h.1 a w, h.2⟩
  liveFilter h p := ⟨RegFile.filter_wf h.1 p, h.2⟩
  under h a w := ⟨h.1, RegFile.set_wf h.2.1 a w, h.2.2⟩
  inUse h a w := ⟨h.1, h.2.1, RegFile.set_wf h.2.2.1 a w, h.2.2.2⟩
  takeIn h lo hi hlh := ⟨h.1, h.2.1, RegFile.splice_wf h.2.2.1 h.1 hlh, h.2.2.2⟩
  applied h a w := ⟨h.1, h.2.1, h.2.2.1, RegFile.set_wf h.2.2.2.1 a w, h.2.2.2.2⟩
  setCell h m a c := by
    refine ⟨h.1, h.2.1, h.2.2.1, h.2.2.2.1, MemSt.wf_upd h.2.2.2.2.1 m _ fun y _ hy => ?_, h.2.2.2.2.2⟩
    by_cases hc : m ≠ memCOEF ∧ c = ⟨0, 0⟩
    · simp only [if_pos hc]; exact Mem.wf_kvDel_cell hy a
    · simp only [if_neg hc]; exact Mem.wf_kvSet_cell hy a c fun hm e => hc ⟨hm, e⟩
  setPage h m p g := by
    refine ⟨h.1, h.2.1, h.2.2.1, h.2.2.2.1, MemSt.wf_upd h.2.2.2.2.1 m _ fun y _ hy => ?_, h.2.2.2.2.2⟩
    by_cases hc : m = memCOEF ∨ g = Page.zero
    · simp only [if_pos hc]; exact Mem.wf_kvDel_page hy p
    · simp only [if_neg hc]; exact Mem.wf_kvSet_page hy p g (fun e => hc (.inl e)) (fun e => hc (.inr e))
  clearMem h m :=
    ⟨h.1, h.2.1, h.2.2.1, h.2.2.2.1, MemSt.wf_upd h.2.2.2.2.1 m _ fun _ _ _ => Mem.wf_empty m, h.2.2.2.2.2⟩
  delCell h a :=
    ⟨h.1, h.2.1, h.2.2.1, h.2.2.2.1, MemSt.wf_upd h.2.2.2.2.1 memCOEF _ fun _ _ hy => Mem.wf_kvDel_cell hy a, h.2.2.2.2.2⟩
  fresh {s t} h _ _ _ e1 e2 e3 e4 e5 _ e6 := by
    have hn : RegFile.wf [] := ⟨List.Pairwise.nil, by simp⟩
    have hmem : MemSt.wf memReset := by
      refine ⟨rfl, fun m hm => ?_⟩
      have : memReset.mems.getD m ⟨[], []⟩ = ⟨[], []⟩ := by
        simp only [memReset, List.getD_eq_getElem?_getD, List.getElem?_replicate]
        split <;> rfl
      rw [this]; exact Mem.wf_empty m
    refine ⟨e1 ▸ hn, e2 ▸ hn, e3 ▸ hn, e4 ▸ hn, ?_, e6⟩
    unfold MemSt.wf
    rcases e5 with e | e
    · rw [e]; exact hmem
    · rw [e]
      refine ⟨rfl, fun m hm => ?_⟩
      have hs := h.2.2.2.2.1.2 m hm
      have hget : (memReset.mems.zipIdx.map fun p => if 7 ≤ p.2 && p.2 ≤ 10 then s.memAt p.2 else p.1).getD m ⟨[], []⟩ =
          if 7 ≤ m ∧ m ≤ 10 then s.memAt m else ⟨[], []⟩ := by
        have : m ∈ List.range 13 := List.mem_range.2 hm
        simp only [List.getD_eq_getElem?_getD, memReset, List.getElem?_map, List.getElem?_zipIdx, List.getElem?_replicate, hm, if_pos]
        simp
      rw [hget]
      split
      · exact hs
      · exact Mem.wf_empty m

/-- The queue is changed by no primitive change. -/
theorem kept_pending (q : List Instr) : Kept fun s => s.pending = q where
  same h _ _ _ _ _ _ _ _ e _ := e.trans h
  live h _ _ := h
  liveFilter h _ := h
  under h _ _ := h
  inUse h _ _ := h
  takeIn h _ _ _ := h
  applied h _ _ := h
  setCell h _ _ _ := h
  setPage h _ _ _ := h
  clearMem h _ := h
  delCell h _ := h
  fresh h _ _ _ _ _ _ _ _ e _ := e.trans h

/-- The variant, stepping and strap pins of the part are changed by no primitive change. -/
theorem kept_part (v st p : Nat) : Kept fun s => s.part.variant = v ∧ s.part.stepping = st ∧ s.part.pins = p where
  same h e1 e2 e3 _ _ _ _ _ _ _ := ⟨e1.trans h.1, e2.trans h.2.1, e3.trans h.2.2⟩
  live h _ _ := h
  liveFilter h _ := h
  under h _ _ := h
  inUse h _ _ := h
  takeIn h _ _ _ := h
  applied h _ _ := h
  setCell h _ _ _ := h
  setPage h _ _ _ := h
  clearMem h _ := h
  delCell h _ := h
  fresh h e1 e2 e3 _ _ _ _ _ _ _ := ⟨e1.trans h.1, e2.trans h.2.1, e3.trans h.2.2⟩

end Sys2Proof.Machine
end

