-- ==== Sys2Proof/Laws/Quaran.lean ====
section
/-! SUPPORT. What the Quaran's shared operations do: counting performance, fetching, taking a word from a memory, and retiring. -/
namespace Sys2Proof.Machine
open State

namespace State
variable {s u t : State}

/-- An operation applied along a list keeps what each application keeps. -/
theorem each_induct {α : Type} {P : State → Prop} {l : List α} {f : State → α → State} (h : P s) (hf : ∀ t x, x ∈ l → P t → P (f t x)) :
    P (s.each l f) := by
  unfold State.each
  induction l generalizing s with
  | nil => exact h
  | cons a l ih => exact ih (hf _ _ (List.mem_cons_self) h) fun t x hx => hf t x (List.mem_cons_of_mem _ hx)

/-- Only registers differ between two states, and of those only counts of performance. -/
def CountsOnly (u t : State) : Prop := t = { u with live := t.live } ∧ RegFile.wf t.live ∧ sameButCounts u t

theorem CountsOnly.refl (h : RegFile.wf s.live) : CountsOnly s s := ⟨rfl, h, fun _ _ => rfl⟩

theorem CountsOnly.trans {a b c : State} (h : CountsOnly a b) (k : CountsOnly b c) : CountsOnly a c :=
  ⟨by rw [k.1, h.1], k.2.1, fun x hx => (k.2.2 x hx).trans (h.2.2 x hx)⟩

theorem CountsOnly.put (h : RegFile.wf s.live) {f : FRef} {i : List Nat} (v : Nat) (hf : countsAt (f.addr i)) : CountsOnly s (s.put f v i) :=
  ⟨rfl, put_wf h _ _ _, fun a ha => liveAt_put_other h _ fun e => ha (e ▸ hf)⟩

theorem pmcCnt_addr (i : Nat) : Reg.PMC_CNT.COUNT.addr [i] = 0x4B0200 + i := by
  simp [FRef.addr, Reg.PMC_CNT.COUNT, addrOf]

/-- Counting performance changes nothing but the counters and their saturation bits. -/
theorem pmc_counts (h : RegFile.wf s.live) (code n r : Nat) : CountsOnly s (s.pmc code n r) := by
  unfold State.pmc
  split
  · exact .refl h
  · refine each_induct (P := CountsOnly s) (.refl h) fun t p hp ht => ?_
    simp only [List.mem_filter, Bool.and_eq_true, decide_eq_true_eq] at hp
    dsimp only
    have hi : countsAt (Reg.PMC_CNT.COUNT.addr [p.1 - 0x4B0100]) := by rw [pmcCnt_addr]; exact .inr (.inr (by omega))
    have step : CountsOnly t (t.inc Reg.PMC_CNT.COUNT [p.1 - 0x4B0100] (if p.2.toNat.testBit 8 then r else n)) :=
      .put ht.2.1 _ hi
    refine ite_kept (ite_kept (ite_kept ?_ ?_) ?_) ht
    · exact (ht.trans step).trans (.put step.2.1 _ (.inl rfl))
    · exact (ht.trans step).trans (.put step.2.1 _ (.inr (.inl rfl)))
    · exact ht.trans step

theorem pmc_wf (h : RegFile.wf s.live) (code n r : Nat) : RegFile.wf (s.pmc code n r).live := (pmc_counts h code n r).2.1

/-- The fields that counting performance leaves. -/
theorem pmc_eq (s : State) (code n r : Nat) : s.pmc code n r = { s with live := (s.pmc code n r).live } := by
  unfold State.pmc
  refine ite_kept (P := fun t => t = { s with live := t.live }) rfl ?_
  refine each_induct (P := fun t => t = { s with live := t.live }) rfl fun t p _ ht => ?_
  dsimp only
  have put (u : State) (f : FRef) (v : Nat) (i : List Nat) (hu : u = { s with live := u.live }) :
      u.put f v i = { s with live := (u.put f v i).live } := by
    rw [State.put, State.setLive]; rw [hu]
  have h1 := put t Reg.PMC_CNT.COUNT (min (t.get Reg.PMC_CNT.COUNT [p.1 - 0x4B0100] + (if p.2.toNat.testBit 8 then r else n))
    (2 ^ (Reg.PMC_CNT.COUNT.hi + 1 - Reg.PMC_CNT.COUNT.lo) - 1)) [p.1 - 0x4B0100] ht
  exact ite_kept (P := fun t => t = { s with live := t.live }) (ite_kept (P := fun t => t = { s with live := t.live })
    (ite_kept (P := fun t => t = { s with live := t.live }) (put _ _ _ _ h1) (put _ _ _ _ h1)) h1) ht

@[simp] theorem pmc_seq (s : State) (c n r : Nat) : (s.pmc c n r).seq = s.seq := by rw [pmc_eq]
@[simp] theorem pmc_mem (s : State) (c n r : Nat) : (s.pmc c n r).mem = s.mem := by rw [pmc_eq]

/-- From `u`, the sequencer has come to `q` but for the cycle account and the sources it presented last, and performance has been
counted. -/
def Ran (u t : State) (q : Seq) : Prop :=
  t = { u with seq := t.seq, live := t.live } ∧ t.seq = { q with cyc := t.seq.cyc, edge := t.seq.edge } ∧ RegFile.wf t.live ∧ sameButCounts u t

theorem Ran.sq {q : Seq} (h : Ran u t q) (f : Seq → Seq)
    (hf : ∀ n e, f { q with cyc := n, edge := e } =
      { f q with cyc := (f { q with cyc := n, edge := e }).cyc, edge := (f { q with cyc := n, edge := e }).edge }) : Ran u (t.sq f) (f q) := by
  obtain ⟨h1, h2, h3, h4⟩ := h
  refine ⟨by rw [h1]; rfl, ?_, h3, h4⟩
  show f t.seq = { f q with cyc := (f t.seq).cyc, edge := (f t.seq).edge }
  rw [h2]; exact hf _ _

theorem Ran.pmc {q : Seq} (h : Ran u t q) (c n r : Nat) : Ran u (t.pmc c n r) q := by
  obtain ⟨h1, h2, h3, h4⟩ := h
  have k := pmc_counts h3 c n r
  refine ⟨?_, by rw [pmc_seq]; exact h2, k.2.1, fun a ha => (k.2.2 a ha).trans (h4 a ha)⟩
  rw [pmc_eq, h1]

theorem Ran.pmcCycles {q : Seq} (h : Ran u t q) (codes : List Nat) (n : Nat) : Ran u (t.pmcCycles codes n) q := by
  unfold State.pmcCycles
  split
  · exact h
  · exact (each_induct (P := fun x => Ran u x q) h fun x c _ hx => hx.pmc c n _).sq (fun q => { q with edge := (codes, q.edge.2) }) fun _ _ => rfl

theorem Ran.slots {q : Seq} (h : Ran u t q) (c n : Nat) (also : List Nat) : Ran u (t.slots c n also) q := by
  have k := (h.pmcCycles ([0x01, c] ++ also) n).sq (fun q => { q with cyc := q.cyc + n }) fun _ _ => rfl
  obtain ⟨k1, k2, k3, k4⟩ := k
  exact ⟨k1, k2, k3, k4⟩

theorem Ran.refl (h : RegFile.wf u.live) : Ran u u u.seq := ⟨rfl, rfl, h, fun _ _ => rfl⟩

/-- A retiring instruction moves the PC, counts its cycles, and keeps what it had done. -/
theorem Ran.retire {q q' : Seq} (h : Ran u t q) (npc : Nat) (reads : List Nat) (accR : Option Nat) (back port wasted : Nat)
    (ld mac : Option Nat)
    (hq : { q with pc := npc % 32768, cyc := 0, edge := ([], []), ldRd := none, mac1 := none, mac2 := none } =
      { q' with cyc := 0, edge := ([], []), ldRd := none, mac1 := none, mac2 := none }) :
    u.retires (t.retire npc reads accR back port wasted ld mac) q' := by
  unfold State.retire
  dsimp only
  have k := ((((h.slots 0x05 (
    (match t.seq.ldRd with | some r => if reads.contains r ∧ r ≠ 0 then 1 else 0 | none => 0) +
    (match accR with | some a => if t.seq.mac1 = some a then 2 else if t.seq.mac2 = some a then 1 else 0 | none => 0)) [0x0A]).slots
      0x05 port [0x09]).slots 0x05 back []))
  generalize State.slots _ 0x05 back = r at k ⊢
  have k := (k.slots 0x02 1 r.seq.edge.2).slots 0x03 wasted []
  generalize State.slots _ 0x03 wasted = r' at k ⊢
  obtain ⟨k1, k2, k3, k4⟩ := k
  refine ⟨?_, ?_, k4⟩
  · rw [k1]; rfl
  · show { r'.seq with pc := npc % 32768, ldRd := ld, mac2 := r'.seq.mac1, mac1 := mac, edge := (r'.seq.edge.1, []) } = _
    have hm := congrArg Seq.mac1 k2
    rw [k2]
    simp only [Seq.mk.injEq] at hq ⊢
    simp [hq]
    exact hm.symm

/-! Memories: what settling, reading and storing leave alone. -/

theorem memRead_seq (s : State) (m a : Nat) (who : Master) (how : Nat) : (s.memRead m a who how).1.seq = s.seq :=
  State.memRead_quiet (Quiet.seq s.seq) rfl m a who how

theorem memWrite_seq (s : State) (m a : Nat) (w : Word) (who : Master) : (s.memWrite m a w who).seq = s.seq :=
  State.memWrite_quiet (Quiet.seq s.seq) rfl m a w who

theorem isAbort_seq (s : State) : s.isAbort.seq = s.seq := State.isAbort_quiet (Quiet.seq s.seq) rfl

theorem whenB_seq {c : Bool} {f : State → State} (hf : ∀ t : State, (f t).seq = t.seq) : (s.whenB c f).seq = s.seq := by
  unfold State.whenB; split
  · exact hf s
  · rfl

/-- Settling an intact word changes nothing. -/
theorem settle_intact {m a : Nat} (who : Master) (how : Nat) (h : (s.cell m a).syndrome = 0)
    (hu : (hasPage m && s.unmapped m a) = false) : s.settle m a who how = s := by
  simp [State.settle, State.whenB, h, hu]

/-- Reading an intact word changes nothing and gives it. -/
theorem memRead_intact {m a : Nat} (who : Master) (how : Nat) (h : (s.cell m a).syndrome = 0) (hp : s.poisoned m a = false) :
    s.memRead m a who how = (s, true, (s.cell m a).data) := by
  have hu : (hasPage m && s.unmapped m a) = false := by
    unfold State.poisoned at hp
    revert hp
    cases hasPage m <;> cases s.unmapped m a <;> simp
  simp [State.memRead, settle_intact who how h hu, h, hp]

/-- Cycles of a slot leave the sequencer but for its cycle account and the sources it presented last. -/
theorem slots_seq (s : State) (c n : Nat) (also : List Nat) :
    (s.slots c n also).seq = { s.seq with cyc := (s.slots c n also).seq.cyc, edge := (s.slots c n also).seq.edge } := by
  unfold State.slots State.pmcCycles
  split
  · rfl
  · have k : (s.each ([0x01, c] ++ also) fun s c => s.pmc c n (if s.seq.edge.1.contains c then 0 else 1)).seq = s.seq :=
      each_induct (P := fun x => x.seq = s.seq) rfl fun x _ _ hx => (pmc_seq x _ _ _).trans hx
    simp only [State.sq, k]

/-- Fetching leaves the sequencer but for its cycle account. -/
theorem fetch_seq (s : State) : s.fetch.1.seq = { s.seq with cyc := s.fetch.1.seq.cyc, edge := s.fetch.1.seq.edge } := by
  unfold State.fetch
  simp only
  generalize hw : s.whenB (s.isPageHit memIMEM s.fetchAddr) State.isAbort = w
  have hw' : w.seq = s.seq := by rw [← hw]; exact whenB_seq isAbort_seq
  have hr : (w.memRead memIMEM s.fetchAddr .quaran).1.seq = s.seq := (memRead_seq _ _ _ _ _).trans hw'
  generalize (w.memRead memIMEM s.fetchAddr .quaran).1 = r at hr ⊢
  unfold State.whenB
  split
  · rw [slots_seq, hr]
  · rw [hr]

theorem fetch_wreg (s : State) (i : Nat) : s.fetch.1.wreg i = s.wreg i := by
  unfold State.wreg; rw [fetch_seq]

theorem fetch_acc (s : State) (i : Nat) : s.fetch.1.accAt i = s.accAt i := by
  unfold State.accAt; rw [fetch_seq]

/-- Where an instruction can issue, it acts on what the fetch leaves. -/
theorem issue_eq (h : s.canIssue) (f : State → State) : s.issue f = f s.fetch.1 := by
  unfold State.issue
  have h3 : s.fetch.2.1 = true := h.2.2
  simp [h.2.1, h3]

/-- Fetching keeps the form. -/
theorem fetch_wf (h : s.wf) : s.fetch.1.wf := by
  exact State.fetch_kept kept_wf h

/-- Replacing a list entry by a value. -/
theorem upd_const {α : Type} (l : List α) (i : Nat) (v : α) : upd l i (fun _ => v) = l.set i v := by
  induction l generalizing i with
  | nil => rfl
  | cons a t ih => cases i <;> simp [upd, ih]

/-- After a fetch the sequencer is where it was. -/
theorem fetch_ran (h : s.canIssue) : Ran s.fetch.1 s.fetch.1 s.seq :=
  ⟨rfl, fetch_seq s, (fetch_wf h.1).1, fun _ _ => rfl⟩

/-- A saturation sets S. -/
theorem Ran.flagS {q : Seq} (h : Ran u t q) (b : Bool) : Ran u (t.flagS b) { q with sf := q.sf || b } := by
  unfold State.flagS State.whenB
  cases b with
  | false => simpa using h
  | true =>
    have k := h.sq (fun q => { q with sf := true, edge := (q.edge.1, [0x18]) }) (fun _ _ => rfl)
    obtain ⟨k1, k2, k3, k4⟩ := k
    exact ⟨k1, by simpa using k2, k3, k4⟩

/-- A word result ends its instruction. -/
theorem Ran.finish {q : Seq} (h : Ran u t q) (rd : Nat) (r : Word) (c v : Bool) (reads : List Nat) :
    u.retires (t.finish rd r c v reads) (q.wordResult rd r c v) := by
  have hpc : t.nextPc = (q.pc + 1) % 32768 := by unfold State.nextPc; rw [h.2.1]
  have h1 := h.sq (fun q => { q with z := r = 0, n := r.msb, c := c, v := v }) (fun _ _ => rfl)
  unfold State.finish State.flagW State.setW
  split
  · refine h1.retire _ _ _ _ _ _ _ _ ?_
    simp [*]
  · refine (h1.sq (fun q => { q with w := upd q.w rd fun _ => r }) (fun _ _ => rfl)).retire _ _ _ _ _ _ _ _ ?_
    simp [*, upd_const]

theorem Ran.setW {q : Seq} (h : Ran u t q) (rd : Nat) (r : Word) : Ran u (t.setW rd r) (q.withWord rd r) := by
  unfold State.setW
  by_cases hr : rd = 0
  · simp only [hr, if_true]; exact h
  · have e : q.withWord rd r = { q with w := upd q.w rd fun _ => r } := by simp [Seq.withWord, hr, upd_const]
    rw [e, if_neg hr]
    exact h.sq (fun q => { q with w := upd q.w rd fun _ => r }) (fun _ _ => rfl)

theorem Ran.setAcc {q : Seq} (h : Ran u t q) (ac : Nat) (r : BitVec 104) : Ran u (t.setAcc ac r) { q with acc := q.acc.set ac r } := by
  simpa [State.setAcc, upd_const] using h.sq (fun q => { q with acc := upd q.acc ac fun _ => r }) (fun _ _ => rfl)

theorem Ran.nextPc {q : Seq} (h : Ran u t q) : t.nextPc = (q.pc + 1) % 32768 := by unfold State.nextPc; rw [h.2.1]

end State
end Sys2Proof.Machine
end

