-- ==== Sys2Proof/Tests/Slice0.lean ====
section
/-! SUPPORT. Witnesses that the hypotheses of every statement can be met, commands that are not well formed, and results that the
specification works out. -/
namespace Sys2Proof.Tests
open Sys2Proof.Machine
set_option Elab.async false

/-! ## Small states -/

/-- The device released (BST_STAT.STATE 1) with every domain on, otherwise as at reset. -/
def up : State := { State.reset with pwr := { State.reset.pwr with on := BitVec.allOnes 57 } }.put Reg.BST_STAT.STATE 1

/-- A released device with fields of live registers written: field, indices, value. -/
def upWith (l : List (FRef × List Nat × Nat)) : State := l.foldl (fun s x => s.put x.1 x.2.2 x.2.1) up

/-- A run of task slot 3 of the sequencer is current in `s`. -/
def running (s : State) : State := { s with seq := { s.seq with run := some 3 } }

/-- That sequencer with the words given, from w1 on. -/
def ranWith (ws : List Word) : State := running { up with seq := { up.seq with w := [0] ++ ws ++ List.replicate (31 - ws.length) 0 } }

/-- The state an outcome goes on to; where it stops, the state after reset. -/
def next (o : Host.Outcome State Fault Refusal) : State := match o with | .next t => t | _ => State.reset

/-- What an outcome goes on to has the property. -/
def goesTo (o : Host.Outcome State Fault Refusal) (p : State → Bool) : Bool := match o with | .next t => p t | _ => false

/-- A staged field of a stage's values in use is written. -/
def using_ (s : State) (f : FRef) (i : List Nat) (v : Nat) : State :=
  { s with inUse := RegFile.set s.inUse (f.addr i) (BitVec.ofNat 48 (setBits (RegFile.get s.inUse (f.addr i)).toNat f.hi f.lo v)) }

/-- A span in which the datapath takes in and sends nothing. -/
def noSpan : Span := ⟨[], [], [], [], [], ⟨0, 0⟩⟩

/-- A state after that span. -/
def flowed (s : State) : State := s.flow noSpan

/-- Mode `m` in use in every line lane. -/
def inMode (m : Nat) (s : State) : State := (List.range 8).foldl (fun s k =>
  { s with inUse := RegFile.set (RegFile.set s.inUse (State.rxModeAddr k) (BitVec.ofNat 48 m)) (State.txModeAddr k) (BitVec.ofNat 48 m) }) s

/-! ## Witnesses: the Quaran -/

theorem test_hyp_QuaranExactArithmetic : (ranWith [5, 7]).canIssue ∧
    (Instr.add 3 1 2 = .add 3 1 2 ∧ Instr.adds 3 1 2 = .adds 3 1 2 ∧ Instr.sub 3 1 2 = .sub 3 1 2 ∧ Instr.subs 3 1 2 = .subs 3 1 2 ∧
      (7 : Word) = (ranWith [5, 7]).wreg 2) ∧
    (Instr.addi 3 1 0x20000000 = .addi 3 1 0x20000000 ∧ (0xFFFFE0000000 : Word) = (0x20000000 : BitVec 30).signExtend 48) := by (try dsimp only); and_intros <;> decide +kernel

theorem test_hyp_QuaranWordAndFlagMoves : (ranWith [5, 48]).canIssue := by (try dsimp only); and_intros <;> decide +kernel

theorem test_hyp_QuaranAccumulatorForms : (ranWith []).canIssue ∧
    (1 ≤ (48 : BitVec 6).toNat ∧ (48 : BitVec 6).toNat ≤ 48 ∧ (103 : BitVec 7).toNat ≤ 103) ∧
    ((0 : BitVec 6).toNat = 0 ∧ 48 < (49 : BitVec 6).toNat ∧ 103 < (104 : BitVec 7).toNat) ∧
    (2 : BitVec 7).toNat ≤ 2 ∧ 2 < (3 : BitVec 7).toNat := by (try dsimp only); and_intros <;> decide +kernel

theorem test_hyp_QuaranDataMemory :
    (let s := ranWith [262144]
     s.canIssue ∧ 262143 < (s.wreg 1 + (0 : BitVec 30).signExtend 48).toNat) ∧
    (let s := ranWith [262144]
     let a := (s.wreg 1 + (0x3FFFFFFF : BitVec 30).signExtend 48).toNat
     s.canIssue ∧ a ≤ 262143 ∧ (s.fetch.1.memRead memDMEM a .quaran).2.1 = true ∧ (s.fetch.1.cell memDMEM a).syndrome = 0 ∧
       s.fetch.1.poisoned memDMEM a = false ∧ (s.fetch.1.page memDMEM (a / 64)).badChecks = []) ∧
    (let s := (ranWith []).setPoison memDMEM 9 true
     s.canIssue ∧ (s.fetch.1.memRead memDMEM 9 .quaran).2.1 = false) := by (try dsimp only); and_intros <;> decide +kernel

theorem test_hyp_QuaranBranches : (ranWith []).canIssue ∧ (11 : Fin 32).val < 12 ∧ 12 ≤ (12 : Fin 32).val ∧
    (ranWith []).seq.stack = [] ∧
    (let s : State := running { up with seq := { up.seq with stack := List.replicate 15 7 } }
     s.canIssue ∧ s.seq.stack.length < 16 ∧ s.seq.stack = 7 :: List.replicate 14 7) ∧
    (let s : State := running { up with seq := { up.seq with stack := List.replicate 16 7 } }
     s.canIssue ∧ 16 ≤ s.seq.stack.length) := by (try dsimp only); and_intros <;> decide +kernel

/-- A run with every block locked. -/
def lockedRun : State := (ranWith []).put Reg.MEM_LOCK.LOCK (2 ^ 24 - 1)

theorem test_hyp_QuaranPorts :
    let s := ranWith [5, 0x7FFFFF]
    let w := (s.fetch.1.pmc 0x11)
    s.canIssue ∧ (s.wreg 2).toNat % 2 ^ 24 < 0x800000 ∧ (w.portWrite .quaran Reg.FAULT_EN.base 5).2 ≠ 3 ∧ lockedRun.canIssue ∧
      ((lockedRun.fetch.1.pmc 0x11).portWrite .quaran Reg.FAULT_EN.base 5).2 = 3 ∧
      stagedAt 0 = false ∧ stagedAt Reg.FFE_TAP.base = true ∧
      (w.portWrite .quaran (Reg.FFE_TAP.base + 0x800000) 5).2 ≠ 3 ∧
      ((lockedRun.fetch.1.pmc 0x11).portWrite .quaran (Reg.FFE_TAP.base + 0x800000) 5).2 = 3 := by (try dsimp only); and_intros <;> decide +kernel

/-- A check in progress. -/
def aCheck : Check := ⟨1, .spi, [], 0, []⟩

theorem test_hyp_QuaranRequestsAndWaits_set :
    let s := ranWith [0x100000000000, 0x0FFFFFFFFFFF]
    let b := running { up with set := { up.set with check := some aCheck }, pwr := { up.pwr with req := some ⟨0, .spi, false, false, [], [], 0, 0, false⟩ } }
    let j := running (upWith [(Reg.JNL_STAT.STATE, [], 2)])
    s.canIssue ∧ s.fetch.1.set.check = none ∧ s.fetch.1.get Reg.JNL_STAT.STATE < 2 ∧ b.canIssue ∧ b.fetch.1.set.check ≠ none ∧
      j.canIssue ∧ 2 ≤ j.fetch.1.get Reg.JNL_STAT.STATE ∧
      s.fetch.1.pwr.req = none ∧ bits (s.wreg 1).toNat 47 44 ≠ 0 ∧ bits (s.wreg 2).toNat 47 44 = 0 ∧ b.fetch.1.pwr.req ≠ none := by
  (try dsimp only); and_intros <;> decide +kernel

/-- A run with event 10 pending. -/
def eventRun : State := (ranWith [0x400, 0x3FF]).put Reg.SEQ_EVPEND.PEND 0x400

theorem test_hyp_QuaranRequestsAndWaits_waite :
    eventRun.canIssue ∧ eventRun.fetch.1.get Reg.SEQ_EVPEND.PEND &&& (eventRun.wreg 1).toNat ≠ 0 ∧
    eventRun.fetch.1.get Reg.SEQ_EVPEND.PEND &&& (eventRun.wreg 2).toNat = 0 ∧ (1 : BitVec 16) ≠ 0 := by
  and_intros <;> decide +kernel

theorem test_hyp_QuaranRequestsAndWaits_waiteEnd :
    let s : State := { eventRun with seq := { eventRun.seq with waiting := some (4, 0x400, 9) } }
    let u : State := { eventRun with seq := { eventRun.seq with waiting := some (4, 0x3FF, 9) } }
    s.wf ∧ s.released = true ∧ s.seq.waiting = some (4, 0x400, 9) ∧
      s.seq.run.isSome = true ∧ s.seq.suspended = false ∧ s.seq.halted = false ∧ s.seq.resetting = false ∧ s.seq.clkStopped = false ∧
      s.get Reg.SEQ_EVPEND.PEND &&& (0x400 : Word).toNat ≠ 0 ∧ 9 ≤ (9 : BitVec 16).toNat ∧
      u.wf ∧ u.released = true ∧ u.get Reg.SEQ_EVPEND.PEND &&& (0x3FF : Word).toNat = 0 ∧ (8 : BitVec 16).toNat < 9 := by
  (try dsimp only); and_intros <;> decide +kernel

theorem test_hyp_QuaranRunEnds :
    let s := ranWith []
    let b := running (upWith [(Reg.SEQ_CTL.BRK_EN, [], 1)])
    let t := running (upWith [(Reg.SEQ_TRC_CFG.RING, [], 1)])
    s.canIssue ∧ s.seq.run = some 3 ∧ s.fetch.1.on Reg.SEQ_CTL.BRK_EN = false ∧ b.canIssue ∧ b.fetch.1.on Reg.SEQ_CTL.BRK_EN = true ∧
      s.fetch.1.get Reg.SEQ_TRC_CFG.RING = 0 ∧ t.canIssue ∧ t.fetch.1.get Reg.SEQ_TRC_CFG.RING ≠ 0 ∧
      bits (0x100000000000 : BitVec 48).toNat 47 40 = 0x10 ∧ bits (0x640000000000 : BitVec 48).toNat 47 40 = 0x64 := by
  (try dsimp only); and_intros <;> decide +kernel

/-- A run over ring 20, of 16 entries, produced and consumed by the Quaran, that holds `n` entries. -/
def ringRun (n : Nat) : State := running (upWith [(Reg.RNG_CFG.TYPE, [20], 5), (Reg.RNG_CFG.PROD, [20], 3), (Reg.RNG_CFG.CONS, [20], 3),
  (Reg.RNG_CFG.SIZE_EXP, [20], 4), (Reg.RNG_CFG.BASE, [20], 4096), (Reg.RNG_PI.INDEX, [20], n)])

theorem test_hyp_QuaranRings_owned :
    let s := ringRun 15
    let f := ringRun 16
    let m := ringRun 0
    ((0 : Word).toNat + (20 : BitVec 13).toNat) % 8192 = 20 ∧
    s.canIssue ∧ s.fetch.1.frozen .quaran = false ∧ s.fetch.1.domOn 41 = true ∧ s.fetch.1.ringType 20 ≠ 0 ∧
      s.fetch.1.get Reg.RNG_CFG.PROD [20] = 3 ∧ s.fetch.1.get Reg.RNG_CFG.CONS [20] = 3 ∧
      s.fetch.1.ringFill 20 + 0 < s.fetch.1.ringSize 20 ∧ f.canIssue ∧ f.fetch.1.ringSize 20 ≤ f.fetch.1.ringFill 20 + 0 ∧
      0 < s.fetch.1.ringFill 20 ∧
      (∀ i < 4, (s.fetch.1.cell memRING (s.fetch.1.ringWord 20 0 + i)).syndrome = 0 ∧
        s.fetch.1.poisoned memRING (s.fetch.1.ringWord 20 0 + i) = false ∧ s.fetch.1.isPageHit memRING (s.fetch.1.ringWord 20 0 + i) = false) ∧
      m.canIssue ∧ m.fetch.1.ringFill 20 ≤ 0 ∧ (28 : Fin 32).val ≤ 28 ∧ 28 < (29 : Fin 32).val := by
  (try dsimp only); and_intros <;> decide +kernel

theorem test_hyp_QuaranRings_kept :
    let s := (ranWith []).put Reg.MEM_FRZ.FROZEN 8
    let u : State := { ranWith [] with pwr := { up.pwr with on := up.pwr.on &&& 0x1FFFDFFFFFFFFFF } }
    s.canIssue ∧ s.fetch.1.frozen .quaran = true ∧ u.canIssue ∧ u.fetch.1.frozen .quaran = false ∧ u.fetch.1.domOn 41 = false ∧
      (ranWith []).canIssue ∧ (ranWith []).fetch.1.frozen .quaran = false ∧ (ranWith []).fetch.1.domOn 41 = true ∧
      (ranWith []).fetch.1.ringType 20 = 0 := by
  (try dsimp only); and_intros <;> decide +kernel

/-- A run with SEQ_EVT.EXC and SEQ_CTL.EXC_ACT as given. -/
def excRun (e a : Nat) : State := ((ranWith []).put Reg.SEQ_EVT.EXC e).put Reg.SEQ_CTL.EXC_ACT a

theorem test_hyp_QuaranExceptions : (excRun 0 0).wf ∧ (excRun 0 1).wf ∧ (excRun 0 2).wf ∧ (excRun 1 0).wf ∧ (excRun 1 1).wf ∧ (excRun 1 2).wf ∧ ∀ e < 2, ∀ a < 3, (excRun e a).seq.run = some 3 ∧
    (excRun e a).seq.halted = false ∧ (excRun e a).seq.pc < 32768 ∧
    (excRun e a).get Reg.SEQ_EVT.EXC = e ∧ (excRun e a).get Reg.SEQ_CTL.EXC_ACT = a := by
  and_intros <;> decide +kernel

theorem test_hyp_QuaranIssues :
    Instr.clrs.isQuaran = true ∧ up.issues = false ∧ (ranWith []).issues = true ∧
    ((ranWith []).setPoison memIMEM 0 true).fetch.2.1 = false ∧ ((ranWith []).setPoison memIMEM 0 true).issues = true ∧
    ((ranWith []).cell memIMEM 0).syndrome = 0 ∧ (ranWith []).poisoned memIMEM 0 = false ∧ (ranWith []).isPageHit memIMEM 0 = false := by
  and_intros <;> decide +kernel

/-! ## Witnesses: the line side -/

/-- Frame lock 2 as given, in lane mode 1 with the default format and LOL_COUNT 4. -/
def lockAt (st misses : Nat) (fc : Option Nat) : State := up.setFrame 2 fun _ => ⟨st, 2, 2, misses, fc, true⟩

/-- A frame header with lane 2's marker and a received frame count of 5. -/
def goodHdr : BitVec 128 := BitVec.ofNat 128 (marker 2 * 2 ^ 64 + 5)

theorem test_hyp_FrameLockStates :
    (lockAt 0 0 none).wf ∧ (lockAt 0 0 none).released = true ∧ (lockAt 0 0 none).lockUsed 2 = true ∧ (lockAt 0 0 none).lockRuns 2 = true ∧
    (lockAt 0 0 none).lockFmt 2 ≠ fmtSTANDARD ∧ ((lockAt 0 0 none).frame 2).st = fsHUNT ∧
    markerLane (marker 7 ^^^ 7) 3 = some 7 ∧ markerLane (marker 7 ^^^ 15) 3 = none ∧ up.use Reg.FRM_CFG.LOCK_TOL [2] = 3 ∧
    (lockAt 1 0 none).wf ∧ ((lockAt 1 0 none).frame 2).st = fsVERIFY ∧
    popCount 64 ((goodHdr.toNat >>> 64) ^^^ marker 2) ≤ 3 ∧ ¬ popCount 64 (((0 : BitVec 128).toNat >>> 64) ^^^ marker 2) ≤ 3 ∧
    ((lockAt 1 0 none).frame 2).matches_ + 1 = 3 ∧
    (lockAt 2 3 (some 4)).wf ∧ ((lockAt 2 3 (some 4)).frame 2).st = fsLOCKED ∧ (lockAt 2 3 (some 4)).get Reg.FRM_CFG.LOL_COUNT [2] = 4 ∧
    4 ≤ ((lockAt 2 3 (some 4)).frame 2).misses + 1 ∧ ((lockAt 2 2 (some 4)).frame 2).misses + 1 < 4 := by
  and_intros <;> decide +kernel

/-- Lane 2 in the Standard format with alignment state `st`. -/
def stdAt (st : Nat) : State := (using_ up Reg.FRM_CFG.FORMAT [2] 2).setFrame 2 fun _ => ⟨st, 0, 0, 0, none, false⟩

theorem test_hyp_FrameLossAndAlignment :
    up.wf ∧ (stdAt 2).released = true ∧ (stdAt 2).lockUsed 2 = true ∧ (stdAt 2).lockRuns 2 = true ∧ (stdAt 2).lockFmt 2 = fmtSTANDARD ∧
    ((stdAt 2).frame 2).st = fsLOCKED ∧ ((stdAt 1).frame 2).st ≠ fsLOCKED ∧ (stdAt 1).lockFmt 2 = fmtSTANDARD := by
  and_intros <;> decide +kernel

/-- A lane that may probe, with the status fields given. -/
def probing (l : List (FRef × List Nat × Nat)) : State :=
  ((upWith l).setSlice 2 fun x => { x with trLock := true }).setLane 2 fun x =>
    { x with huntCyc := 64 * (upWith l).markerPeriod 2, winCyc := 64 * (upWith l).markerPeriod 2 }

theorem test_hyp_ProbesAndCheckers :
    (probing []).released = true ∧ (probing []).use Reg.FRM_CFG.FORMAT [2] ≠ fmtSTANDARD ∧ ((probing []).frame 2).st ≠ fsLOCKED ∧
    ((probing []).slice ((probing []).serving 2)).trLock = true ∧ (probing []).domOn (17 + 2) = true ∧
    (probing []).get Reg.FRM_STAT.PROBE_ACTIVE [2] = 0 ∧ 64 * (probing []).markerPeriod 2 ≤ ((probing []).lane 2).huntCyc ∧
    (probing [(Reg.FRM_STAT.PROBE_ACTIVE, [2], 1)]).released = true ∧
    (probing [(Reg.FRM_STAT.PROBE_ACTIVE, [2], 1)]).get Reg.FRM_STAT.PROBE_ACTIVE [2] = 1 ∧
    64 * (probing [(Reg.FRM_STAT.PROBE_ACTIVE, [2], 1)]).markerPeriod 2 ≤ ((probing [(Reg.FRM_STAT.PROBE_ACTIVE, [2], 1)]).lane 2).winCyc ∧
    up.use Reg.FRM_CFG.FORMAT [2] = fmtDOUBLE := by
  and_intros <;> decide +kernel

theorem test_hyp_ProbesAndCheckers_checkers :
    let s := upWith [(Reg.HS_PAT_STAT.CHK_STATE, [15], 1)]
    let t := (upWith [(Reg.PAT_STAT.CHK_STATE, [7], 2)]).setLane 7 fun x => { x with chk := { x.chk with errs := 31 } }
    s.wf ∧ s.released = true ∧ s.get (State.patRegs true).1 [15] = 1 ∧ (s.patChk true 15).run < 128 ∧
    t.wf ∧ t.released = true ∧ t.get (State.patRegs false).1 [7] = 2 ∧ 31 ≤ (t.patChk false 7).errs ∧
    (∃ x : Fin 4, x.val ≠ (Config.patSymbol 1 ((t.patChk false 7).pos + 0)).val) ∧
    up.domOn 25 = true ∧ up.wf ∧ up.get Reg.RX_STAT.SIG_DET [8] = 0 ∧ 50 + 10 * up.use Reg.RX_AFE.SD_THRESH [8] < (101 : BitVec 12).toNat ∧
    (upWith [(Reg.RX_STAT.SIG_DET, [8], 1)]).wf ∧ (upWith [(Reg.RX_STAT.SIG_DET, [8], 1)]).get Reg.RX_STAT.SIG_DET [8] = 1 ∧
    (70 : BitVec 12).toNat ^ 20 * 1000 ≤ (50 + 10 * up.use Reg.RX_AFE.SD_THRESH [8]) ^ 20 := by
  (try dsimp only); and_intros <;> first | decide +kernel | exact ⟨Config.patSymbol 1 _ + 1, by generalize Config.patSymbol 1 _ = v; revert v; decide⟩

/-! ## Witnesses: the Float and the slices -/

/-- The Float in phase `ph`, serving or engaged with lane 2, an MIG_CTL command armed. -/
def floatAt (ph cmd : Nat) : State :=
  { upWith [(Reg.MODE.CODE, [], 1), (Reg.MIG_STAT.PHASE, [], ph), (Reg.MIG_STAT.LANE, [], 2), (Reg.MIG_CTL.TARGET, [], 2), (Reg.MIG_CTL.CMD, [], cmd)] with
    due := [(State.dueMig, 0)] }

/-- The same with the target's own slice locked. -/
def floatReady (ph cmd : Nat) : State := (floatAt ph cmd).setSlice 2 fun x => { x with trLock := true }

theorem test_hyp_FloatCommands :
    (floatReady 0 2).released = true ∧ (floatReady 0 2).migArmed 2 = true ∧ (floatReady 0 2).floatOk = true ∧ (floatReady 0 2).phase ≠ phRETIRED ∧
    (floatReady 0 2).migRefusal true true true = 0 ∧ (floatAt 0 2).migRefusal true true true = 2 ∧
    ((floatReady 0 2).put Reg.THM_STAT.THR_LEVEL 3).level = 3 ∧ (floatAt 9 4).phase = phRETIRED ∧ ((floatAt 0 0).put Reg.MIG_STAT.FLOAT_OK 0).floatOk = false ∧
    ([0, 1, 2, 5, 6, 7].all fun n => (floatReady 0 n).migArmed n && (floatReady 0 n).migRefusal true true true = 0) = true ∧
    (floatAt 5 3).migArmed 3 = true ∧ (floatAt 5 3).level ≠ 3 ∧ (floatAt 5 3).migRefusal true false false = 0 ∧
    (floatAt 4 4).migArmed 4 = true ∧ (floatAt 4 4).phase = phSWAP_WAIT ∧ (floatAt 2 4).migArmed 4 = true := by
  and_intros <;> decide +kernel

/-- Lane 2 and the candidate slice locked alike, in phase `ph`, with the engine's record `m`. -/
def candidateAt (ph : Nat) (m : Mig) : State :=
  let s := (floatReady ph 0).setSlice 8 fun x => { x with trLock := true }
  { (s.setFrame 2 fun _ => ⟨2, 2, 0, 0, some 4, true⟩).setFrame 8 fun _ => ⟨2, 2, 0, 0, some 4, true⟩ with mig := m }

/-- The engine's record with the parameters of MIG_CTL at reset. -/
def begunMig : Mig := { Mig.idle with ctl := up.liveAt Reg.MIG_CTL.base }

theorem test_hyp_FloatMigration :
    let busy := { Mig.idle with lockTicks := 4, stepTicks := 64, ctl := up.liveAt Reg.MIG_CTL.base }
    let s := candidateAt 2 busy
    let u : State := { floatAt 6 0 with mig := busy }
    s.released = true ∧ s.convergeDue = true ∧ u.released = true ∧ u.convTimedOut = true ∧
    (let a := candidateAt 3 { begunMig with slots := 1024, eServ := 800, eCand := 1016, unc := 63 }
     a.agreeing = true ∧ a.agreeFull = true ∧ a.mig.same = true ∧ a.candidateLocked = true ∧ a.mig.unc < 64 ∧ a.level ≠ 3 ∧
     8 * a.mig.eCand ≤ (8 + a.migPar Reg.MIG_CTL.AGREE_SLACK) * a.mig.eServ + 8 * a.migPar Reg.MIG_CTL.AGREE_ABS) ∧
    (candidateAt 7 { begunMig with unc := 64 }).agreeing = true ∧ (candidateAt 7 { begunMig with unc := 64 }).agreeFull = true ∧
    ((candidateAt 3 begunMig).put Reg.THM_STAT.THR_LEVEL 3).level = 3 ∧
    (candidateAt 3 begunMig).get Reg.MIG_STAT.TRIES_USED + 1 < (candidateAt 3 begunMig).migPar Reg.MIG_CTL.AGREE_TRIES ∧
    ((candidateAt 3 begunMig).put Reg.MIG_STAT.TRIES_USED 7).migPar Reg.MIG_CTL.AGREE_TRIES ≤ 7 + 1 ∧
    (candidateAt 4 Mig.idle).released = true ∧ (flowed (candidateAt 4 Mig.idle)).quaranDown = false ∧
    (flowed (candidateAt 4 Mig.idle)).phase = phSWAP_WAIT ∧ (flowed (candidateAt 4 Mig.idle)).mig.abortSeq = none ∧
    (flowed (candidateAt 4 Mig.idle)).mig.retire = false ∧ (flowed (candidateAt 4 { Mig.idle with retire := true })).mig.retire = true ∧
    (flowed (candidateAt 4 { Mig.idle with abortSeq := some 15 })).mig.abortSeq = some 15 ∧
    (flowed (candidateAt 8 Mig.idle)).phase = phRET_SWAP_WAIT ∧ (flowed (candidateAt 8 Mig.idle)).mig.abrupt = false := by
  (try dsimp only); and_intros <;> decide +kernel

theorem test_hyp_MigrationAborts :
    (floatAt 9 0).wf ∧ (floatAt 9 0).phase ∈ [phIDLE, phSERVE, phRETIRED, phTAKEOVER] ∧ (candidateAt 6 { Mig.idle with abrupt := true }).mig.abrupt = true ∧
    (floatAt 12 0).wf ∧ (floatAt 12 0).mig.abrupt = false ∧ (255 : Nat) < 256 ∧ (255 : Nat) ≠ 4 ∧
    (floatAt 12 0).phase ∈ [phCONVERGE, phAGREE, phSWAP_WAIT, phOBSERVE_RX, phOBSERVE_TX] ∧
    (floatAt 6 0).phase ∈ [phRET_CONVERGE, phRET_AGREE, phRET_SWAP_WAIT] := by
  and_intros <;> decide +kernel

/-- HEALTH_EN 1 for every slice. -/
def watched (s : State) : State := (List.range 9).foldl (fun s k => using_ s Reg.RX_CTL.HEALTH_EN [k] 1) s

theorem test_hyp_SliceFaults :
    (watched up).released = true ∧ (watched up).slicePowered 8 = true ∧ (watched up).uses Reg.RX_CTL.HEALTH_EN [8] = true ∧
    (watched up).sigDet 8 = false ∧ (4 : BitVec 4).toNat / 4 * 4 ≠ 0 ∧
    up.get Reg.RX_STAT.SLICE_STATE [8] ∉ [2, 3] ∧ (upWith [(Reg.RX_STAT.SLICE_STATE, [8], 3)]).get Reg.RX_STAT.SLICE_STATE [8] ∈ [2, 3] ∧
    (watched (floatAt 5 0)).slicePowered 2 = true ∧ (watched (floatAt 5 0)).uses Reg.RX_CTL.HEALTH_EN [2] = true ∧
    (floatAt 5 0).get Reg.RX_STAT.SLICE_STATE [2] ∉ [2, 3] ∧
    (∀ s ∈ [floatAt 5 0, floatAt 9 0], let d := (((s.put Reg.RX_STAT.FAULT_SRC 4 [2]).setSliceState 2 2).laneEv Reg.RX_EVT.FAULT 2).capEv 45
      d.floatServes = true ∧ d.floatLane = 2 ∧ (d.phase = phRETIRED ↔ s = floatAt 9 0)) ∧
    (let d := (((up.put Reg.RX_STAT.FAULT_SRC 4 [2]).setSliceState 2 2).laneEv Reg.RX_EVT.FAULT 2).capEv 45
     (d.floatServes && decide (d.floatLane = 2)) = false) := by
  (try dsimp only); and_intros <;> decide +kernel

/-- An abrupt return in progress. -/
def abruptReturn : State := candidateAt 6 { Mig.idle with abrupt := true, takeFor := some 3 }

theorem test_hyp_SliceFaults_takeover :
    (upWith [(Reg.MIG_CTL.TAKEOVER_EN, [], 0)]).released = true ∧ (upWith [(Reg.MIG_CTL.TAKEOVER_EN, [], 0)]).get Reg.MIG_CTL.TAKEOVER_EN = 0 ∧
    (floatAt 10 0).get Reg.MIG_CTL.TAKEOVER_EN = 1 ∧ (floatAt 10 0).phase = phTAKEOVER ∧
    up.get Reg.MIG_CTL.TAKEOVER_EN = 1 ∧ up.floatOk = true ∧ up.mig.takeFor = none ∧ up.phase = phIDLE ∧
    abruptReturn.released = true ∧ (flowed abruptReturn).mig.abrupt = true ∧ (flowed abruptReturn).candidateLocked = true ∧
    (flowed abruptReturn).mig.takeFor = some 3 ∧ ((flowed abruptReturn).swapBack.floatEv Reg.MIG_EVT.RETURNED).floatOk = true ∧
    (((flowed (abruptReturn.put Reg.MIG_STAT.FLOAT_OK 0)).swapBack).floatEv Reg.MIG_EVT.RETURNED).floatOk = false ∧
    (flowed (candidateAt 6 { Mig.idle with abrupt := true })).mig.takeFor = none ∧
    (flowed (candidateAt 10 Mig.idle)).phase = phTAKEOVER ∧ (flowed (candidateAt 10 Mig.idle)).candidateLocked = true ∧
    ({ floatAt 10 0 with mig := { Mig.idle with takeFor := some 3, detTicks := 2 } } : State).released = true := by
  and_intros <;> decide +kernel

/-- Slice 2 as `f` changes it. -/
def sliceAs (f : Slice → Slice) : State := up.setSlice 2 f

theorem test_hyp_SliceAdaptation :
    let n : State := { up with due := [(State.dueNoise, 2)] }
    let b : State := { floatReady 0 0 with due := [(State.dueNoise, 2)] }
    n.wf ∧ n.released = true ∧ n.armed State.dueNoise 2 = true ∧ n.mapped 2 = false ∧
    b.wf ∧ b.released = true ∧ b.armed State.dueNoise 2 = true ∧ b.mapped 2 = true ∧ (b.slice (b.serving 2)).trLock = true ∧ b.serving 2 = 2 ∧
    up.phase = phIDLE ∧ (floatAt 5 0).phase ≠ phIDLE ∧
    (sliceAs fun x => { x with noiseEnd := some 0 }).wf ∧ (sliceAs fun x => { x with noiseEnd := some 0 }).thm.tick = 0 ∧
    (sliceAs fun x => { x with adapt := adACQUIRE, acqTicks := 4 }).wf ∧
    (sliceAs fun x => { x with adapt := adACQUIRE, acqTicks := 4 }).use Reg.FFE_CTL.ACQ_TICKS [2] ≤ 4 ∧
    up.windowPasses 2 ⟨1024, 0, 0⟩ = true ∧ up.windowPasses 2 ⟨1024, 0, 2 ^ 60⟩ = false ∧
    (up.slice 2).trLock = false ∧ (up.slice 2).passRun = 0 ∧
    (sliceAs fun x => { x with passRun := 1 }).wf ∧ 1 ≤ ((sliceAs fun x => { x with passRun := 1 }).slice 2).passRun ∧ up.serving 2 = 2 ∧
    (sliceAs fun x => { x with trLock := true, failRun := 3 }).wf ∧ 3 ≤ ((sliceAs fun x => { x with trLock := true, failRun := 3 }).slice 2).failRun := by
  (try dsimp only); and_intros <;> decide +kernel

/-- A slice unlocked for eight ticks, with a good snapshot. -/
def unlockedSlice : State := sliceAs fun x => { x with
  adapt := adTRACK, unlocked := 8, snaps := [⟨false, x.bank⟩, ⟨true, { x.bank with icorr := [] }⟩] }

theorem test_hyp_SliceAdaptation_reacquisition :
    unlockedSlice.wf ∧ unlockedSlice.released = true ∧ unlockedSlice.use Reg.EQ_CTL.REACQ_TICKS [2] ≤ (unlockedSlice.slice 2).unlocked ∧
    (unlockedSlice.slice 2).adapt ≠ adOFF ∧ ((unlockedSlice.slice 2).snaps.find? (·.good)).isSome = true ∧
    State.reacqSnapshot (unlockedSlice.slice 2) = true ∧ State.reacqSnapshot (up.slice 2) = false ∧ unlockedSlice.serving 2 = 2 := by
  and_intros <;> decide +kernel

/-! ## Witnesses: decoding, monitors, transmit and host lanes -/

/-- Lane 2 LOCKED in the Standard format with `misses` missed markers. -/
def lockedLane (misses : Nat) : State := (using_ up Reg.FRM_CFG.FORMAT [2] 2).setFrame 2 fun _ => ⟨2, 2, 0, misses, some 4, true⟩

/-- The Float in AGREE with lane 2. -/
def inWindow (s : State) : State := (s.put Reg.MIG_STAT.PHASE 3).put Reg.MIG_STAT.LANE 2

theorem test_hyp_SlotCounters :
    (lockedLane 0).wf ∧ (lockedLane 0).released = true ∧ ((lockedLane 0).frame 2).st = fsLOCKED ∧ (lockedLane 0).decoderOn 2 = true ∧
    ((lockedLane 0).lane 2).dead = false ∧ ((lockedLane 0).countKnown 2 true).slotForced 2 = false ∧ (lockedLane 0).lockFmt 2 = fmtSTANDARD ∧
    (inWindow (lockedLane 0)).wf ∧ (inWindow (lockedLane 0)).agreeing = true ∧ (inWindow (lockedLane 0)).floatLane = 2 ∧
    (inWindow (lockedLane 0)).agreeFull = false ∧ (inWindow (lockedLane 0)).candidate = some 8 ∧
    ((inWindow (lockedLane 0)).countKnown 2 true).slotForced 2 = false ∧ ((inWindow (lockedLane 0)).frame 2).st = fsLOCKED ∧
    (lockedLane 1).wf ∧ ((lockedLane 1).frame 2).st = fsLOCKED ∧ ((lockedLane 1).countKnown 2 true).slotForced 2 = true := by
  and_intros <;> decide +kernel

/-- The monitors expect the type of code 4 on logical lane 15 and of code 1 on lane 0, and lane 15's egress group is locked. -/
def monitored : State := upWith [(Reg.OUTER_CFG.PCS, [], 4 * 2 ^ 45 + 1), (Reg.OME_STAT.LOCK, [15], 1)]

theorem test_hyp_OuterMonitors :
    monitored.wf ∧ monitored.released = true ∧ monitored.pcsCode 15 = 4 ∧ monitored.pcsCode 0 = 1 ∧
    monitored.get (State.omLock true) [0] ≠ b2n true ∧ monitored.get (State.omLock false) [15] ≠ b2n false ∧
    monitored.get (State.omLock false) [15] = 1 ∧ Rs.decode 30 (List.replicate 40 0) = some [] ∧
    Rs.decode 30 ((List.range 40).map fun i => if i < 20 then i * i + 1 else 0) = none := by
  and_intros <;> decide +kernel

/-- Lane 2 as `f` changes it. -/
def laneAs (f : Lane → Lane) : State := up.setLane 2 f

/-- Observing a transmit tap with the Float's timing locked and the alignment as given. -/
def observing (aligned : Nat) : State :=
  (upWith [(Reg.MIG_STAT.PHASE, [], 12), (Reg.TXOBS_STAT.ALIGNED, [], aligned)]).setSlice 8 fun x => { x with trLock := true }

theorem test_hyp_TransmitSquelchAndObservation :
    (laneAs fun l => { l with maskDue := true, maskSq := true }).wf ∧ (laneAs fun l => { l with maskDue := true, maskSq := true }).released = true ∧
    (laneAs fun l => { l with maskDue := true, maskSq := true }).domOn 19 = true ∧ ((laneAs fun l => { l with maskDue := true, maskSq := true }).lane 2).maskSq = true ∧
    (laneAs fun l => { l with maskDue := true }).wf ∧ ((laneAs fun l => { l with maskDue := true }).lane 2).maskDue = true ∧
    ((laneAs fun l => { l with maskDue := true }).lane 2).maskSq = false ∧ ((laneAs fun l => { l with maskDue := true }).ltxAt (2 / 4)).place = 0 ∧
    (laneAs fun l => { l with maskDue := true }).releases 2 = false ∧
    ((laneAs fun l => { l with maskDue := true }).put Reg.TX_CTL.AMP 3 [2]).releases 2 = true ∧
    (upWith [(Reg.TX_STAT.SETTLING, [2], 1)]).get Reg.TX_STAT.SETTLING [2] = 1 ∧ (up.lane 2).settle ≤ up.thm.tick ∧
    up.get Reg.TX_STAT.SETTLING [2] = 0 := by
  and_intros <;> decide +kernel

/-- What a search found. -/
def foundAt (aligned : Nat) (num : Int) : State := { observing aligned with obs := { TxObs.start_ with found := some ((num, 100, 100), 255) } }

theorem test_hyp_TransmitSquelchAndObservation_search :
    (foundAt 0 90).wf ∧ (foundAt 1 90).wf ∧ (∀ a < 2, (foundAt a 90).released = true ∧ (foundAt a 90).obs.found = some ((90, 100, 100), 255) ∧
      (foundAt a 90).phase = phOBSERVE_TX ∧ ((foundAt a 90).slice 8).trLock = true ∧ (foundAt a 90).get Reg.TXOBS_STAT.ALIGNED = a) ∧
    corrAtLeast (80, 100, 100) 8 = true ∧ corrAtLeast (79, 100, 100) 8 = false ∧ corrAtLeast (-80, 100, 100) 8 = false ∧
    corrAtLeast (90, 100, 100) 9 = true ∧ corrAtLeast (89, 100, 100) 9 = false ∧
    (let s : State := { up with obs := { TxObs.start_ with run := true } }
     s.wf ∧ s.released = true ∧ s.obs.run = true ∧ s.obs.left = 0 ∧ s.use Reg.TXOBS_CTL.KEY ≠ 1) := by
  and_intros <;> decide +kernel

/-- Physical lane 15 with clock recovery as given, and each logical lane as `f` changes it. -/
def hostAt (sig cdr : Nat) (f : HLane → HLane) : State :=
  { inMode 1 <| upWith [(Reg.MODE.CODE, [], 1), (Reg.HS_RX_STAT.SIG_DET, [15], sig), (Reg.HS_RX_STAT.CDR_LOCK, [15], cdr), (Reg.OUTER_CFG.PCS, [], 4 * 2 ^ 45 + 4 * 2 ^ 42)] with
    hlanes := ((List.range 16).map HLane.start).map f }

/-- A lane LOCKED on type 4 that has missed as many markers as GBX_CFG.AM_LOL at reset asks for. -/
def markedLane (h : HLane) : HLane := { h with locked := true, typ := 4, misses := up.get Reg.GBX_CFG.AM_LOL }

/-- A lane in HUNT that has found markers of type 1. -/
def foundLane (h : HLane) : HLane := { h with found := some (1, 40) }

theorem test_hyp_HostLanes :
    (hostAt 1 1 id).wf ∧ (hostAt 1 1 id).released = true ∧ (hostAt 1 1 id).hspOn 15 = true ∧ 60 < (61 : BitVec 12).toNat ∧
    (39 : BitVec 12).toNat < 40 ∧ (hostAt 1 1 id).get Reg.HS_RX_STAT.SIG_DET [15] = 1 ∧ (hostAt 1 1 id).get Reg.HS_RX_STAT.CDR_LOCK [15] = 1 ∧
    (let u := flowed (hostAt 1 0 foundLane)
     u.wf ∧ (u.hlane 15).locked = false ∧ (u.hlane 15).found = some (1, 40) ∧ u.hspOn (u.rxPhys 15) = true ∧
     u.domOn (17 + u.hostHome 15) = true ∧ u.pcsCode 15 ≠ 0 ∧ u.pcsCode 15 ≠ 1 ∧ u.get Reg.PAIR_STAT.DESKEWED [7] = 0) ∧
    ((flowed (hostAt 1 0 foundLane)).setHlane 15 HLane.lock).deskewable 7 = false ∧
    (let s := (hostAt 1 0 foundLane).setHlane 14 fun h => { h with locked := true, typ := 1, anchor := 30 }
     let u := flowed s
     u.wf ∧ (u.hlane 15).found = some (1, 40) ∧ u.get Reg.PAIR_STAT.DESKEWED [7] = 0 ∧
     (u.setHlane 15 HLane.lock).deskewable 7 = true) ∧
    (let u := flowed (hostAt 1 1 markedLane)
     u.wf ∧ (u.hlane 15).locked = true ∧ u.get Reg.GBX_CFG.AM_LOL ≤ (u.hlane 15).misses ∧ u.deskewable 7 = true) := by
  (try dsimp only); and_intros <;> decide +kernel

/-! ## Witnesses: the Plumb -/

/-- ADJ_CTL command `cmd` armed with its operands, in discipline state `st`. -/
def adjusting (cmd sec ns st : Nat) : State :=
  { upWith [(Reg.ADJ_CTL.CMD, [], cmd), (Reg.ADJ_SEC.SEC, [], sec), (Reg.ADJ_NS.NS, [], ns), (Reg.DISC_STAT.STATE, [], st)] with due := [(State.dueAdj, 0)] }

theorem test_hyp_PlumbAdjustments :
    ([0, 1, 2, 3, 4].all fun n => (adjusting n 0 0 0).released && (adjusting n 0 0 0).plumbOn && (adjusting n 0 0 0).adjArmed n) = true ∧
    0 ≤ (adjusting 1 7 0 0).getS Reg.ADJ_SEC.SEC ∧ 0 ≤ (adjusting 1 7 0 0).getS Reg.ADJ_NS.NS ∧
    (adjusting 1 7 (10 ^ 9 * 65536 - 1) 0).getS Reg.ADJ_NS.NS < sec16 ∧ sec16 ≤ (adjusting 1 7 (10 ^ 9 * 65536) 0).getS Reg.ADJ_NS.NS ∧
    (adjusting 1 (2 ^ 47) 0 0).getS Reg.ADJ_SEC.SEC < 0 ∧
    0 ≤ (adjusting 2 0 5 0).time40 + 0 * sec40 + 5 * 2 ^ 24 ∧ (adjusting 2 0 (2 ^ 48 - 1) 0).getS Reg.ADJ_NS.NS = -1 ∧ (adjusting 2 0 0 0).time40 = 0 ∧
    (adjusting 3 0 0 dsACQUIRE).get Reg.DISC_STAT.STATE = dsACQUIRE ∧ (adjusting 3 0 0 dsLOCKED).get Reg.DISC_STAT.STATE = dsLOCKED ∧
    (adjusting 3 1 0 0).get Reg.DISC_STAT.STATE ≠ dsACQUIRE ∧ (adjusting 3 1 0 0).get Reg.DISC_STAT.STATE ≠ dsLOCKED ∧
    (adjusting 3 1 0 0).getS Reg.ADJ_SEC.SEC ≠ 0 ∧ (adjusting 3 0 9 0).getS Reg.ADJ_NS.NS ≠ 0 ∧
    (adjusting 4 0 0 0).slotOf 5 = none ∧ ((adjusting 4 0 0 0).put Reg.PLB_CTL.SLOT2 5).slotOf 5 ≠ none ∧
    ({ Plumb.start with slew := some ⟨true, 0, 5, 3⟩ } : Plumb).slew = some ⟨true, 0, 5, 3⟩ := by
  and_intros <;> decide +kernel

/-- The Plumb in discipline state `st` with a measurement of `e` that waits and `n` outliers so far. -/
def measured (st : Nat) (e : Int) (n : Nat) : State :=
  (upWith [(Reg.DISC_STAT.STATE, [], st)]).pl fun p => { p with meas := some (e, 1000), outliers := n }

/-- Source 1 in slot 0, qualified and `age` ticks old with `n` measurements in LOCK_THRESH; on holdover for `hold` ticks. -/
def sourced (age n state hold : Nat) : State :=
  (upWith [(Reg.PLB_CTL.SLOT0, [], 1), (Reg.DISC_STAT.STATE, [], state), (Reg.DISC_STAT.HOLD_TICKS, [], hold)]).pl fun p =>
    { p with slots := upd p.slots 0 fun x => { x with qualified := true, age := age, inRun := n } }

theorem test_hyp_PlumbDiscipline :
    up.released = true ∧ up.plumbOn = true ∧ up.on Reg.PLB_CTL.PPS_EDGE = false ∧ up.plb.ppsLast = none ∧ up.slotOf 1 = none ∧
    (sourced 0 0 0 0).slotOf 1 = some 0 ∧ ((sourced 0 0 0 0).pl fun p => { p with ppsLast := some 0 }).plb.ppsLast = some 0 ∧
    ¬ (((sourced 0 0 0 0).elapsedAt 0 : Int) - (0 : Nat) - sec40).natAbs ≤ 10 ^ 6 * 2 ^ 40 ∧
    up.plb.meas = none ∧ (measured dsLOCKED (2 ^ 30) 2).plb.meas = some (2 ^ 30, 1000) ∧ (measured dsLOCKED (2 ^ 30) 2).released = true ∧
    (measured dsLOCKED (2 ^ 30) 2).plumbOn = true ∧
    (measured dsLOCKED (2 ^ 30) 2).get Reg.DISC_STAT.STATE = dsLOCKED ∧ up.get Reg.PLB_CTL.STEP_THRESH = 10 ∧ 2 ^ (10 + 20) ≤ ((2 : Int) ^ 30).natAbs ∧
    (measured dsLOCKED (2 ^ 30) 2).plb.outliers = 2 ∧ (measured dsLOCKED (2 ^ 30) 0).plb.outliers ≠ 2 ∧
    (measured dsACQUIRE 5 0).get Reg.DISC_STAT.STATE ≠ dsLOCKED ∧ ¬ 2 ^ (10 + 20) ≤ ((2 : Int) ^ 30 - 1).natAbs ∧
    up.plb.stepped = false ∧ (upWith [(Reg.PLB_CTL.STEP_THRESH, [], 0)]).get Reg.PLB_CTL.STEP_THRESH = 0 := by
  and_intros <;> decide +kernel

theorem test_hyp_PlumbDiscipline_sources :
    (let s := sourced 250000 0 0 0
     s.released = true ∧ s.plumbOn = true ∧ s.slotCode 0 = 1 ∧ 250000 ≤ (s.srcSlot 0).age ∧ (s.srcSlot 0).qualified = true) ∧
    ((sourced 0 0 0 0).put Reg.DISC_STAT.SRC_NOW 1).slotOf (((sourced 0 0 0 0).put Reg.DISC_STAT.SRC_NOW 1).get Reg.DISC_STAT.SRC_NOW) = some 0 ∧
    up.slotOf (up.get Reg.DISC_STAT.SRC_NOW) = none ∧
    (∀ s ∈ [sourced 0 16 0 0, (sourced 0 16 0 0).put Reg.DISC_STAT.SRC_NOW 3],
      ((((List.range 4).filter fun i => (s.srcSlot i).qualified).head?).map s.slotCode).getD 0 = 1 ∧ s.get Reg.DISC_STAT.SRC_NOW ≠ 1 ∧
      (s.srcSlot 0).inRun = 16) ∧
    ((((List.range 4).filter fun i => (up.srcSlot i).qualified).head?).map up.slotCode).getD 0 = 0 ∧
    (upWith [(Reg.DISC_STAT.SRC_NOW, [], 1)]).get Reg.DISC_STAT.SRC_NOW = 1 ∧
    (let s := sourced 0 0 dsHOLDOVER (11 * 65536)
     s.released = true ∧ s.plumbOn = true ∧ s.get Reg.DISC_STAT.STATE = dsHOLDOVER ∧ s.get Reg.PLB_CTL.HOLD_LIMIT ≠ 0 ∧
     s.get Reg.PLB_CTL.HOLD_LIMIT * 65536 ≤ s.get Reg.DISC_STAT.HOLD_TICKS) := by
  (try dsimp only); and_intros <;> decide +kernel

/-- EVT pin 3 in mode `mode` with its output's and its input's state as given. -/
def pinned (mode : Nat) (out : Option Int) (edge : Option Nat) : State :=
  { (upWith [(Reg.EVT_CFG.MODE, [3], mode), (Reg.EVT_PERIOD.NS, [3], 100)]).setEvt 3 fun x => { x with next := out, lastEdge := edge } with
    due := [(State.dueEvt, 3)] }

theorem test_hyp_PlumbPins :
    (pinned 2 none (some 0)).released = true ∧ (pinned 2 none (some 0)).plumbOn = true ∧ (pinned 2 none (some 0)).get Reg.EVT_CFG.MODE [3] = 2 ∧
    2 * 100 * 65536 ≤ (102400 : Instant).toNat * 128 ∧ (102399 : Instant).toNat * 128 < 2 * 100 * 65536 ∧
    ((pinned 2 none (some 0)).evtPin 3).lastEdge = some 0 ∧ (pinned 2 none (some 0)).elapsedAt 0 < 0 + 20 * 2 ^ 40 ∧
    ((pinned 3 none none).evtPin 3).lastEdge = none ∧ (pinned 3 none none).get Reg.EVT_CFG.MODE [3] = 3 ∧
    (pinned 5 none none).armed State.dueEvt 3 = true ∧ (pinned 5 none none).get Reg.EVT_CFG.MODE [3] = 5 ∧ (pinned 4 none none).get Reg.EVT_CFG.MODE [3] = 4 ∧
    (let s := (pinned 4 none none).put Reg.EVT_SCHED_SEC.SEC 1 [3]
     ¬ 5 * ((s.getS Reg.EVT_SCHED_SEC.SEC [3] * sec16 + s.get Reg.EVT_SCHED_NS.NS [3]) * 2 ^ 24 - s.time40) < fiveTicks40) ∧
    (let s := pinned 4 none none
     5 * ((s.getS Reg.EVT_SCHED_SEC.SEC [3] * sec16 + s.get Reg.EVT_SCHED_NS.NS [3]) * 2 ^ 24 - s.time40) < fiveTicks40) ∧
    ((pinned 5 (some 0) none).evtPin 3).next = some 0 ∧ (pinned 5 (some 0) none).time40 ≤ 0 * 2 ^ 24 ∧ 0 * 2 ^ 24 < (pinned 5 (some 0) none).timeNext40 ∧
    (pinned 5 (some sec16) none).timeNext40 ≤ sec16 * 2 ^ 24 ∧ (-1) * 2 ^ 24 < (pinned 5 (some (-1)) none).time40 ∧
    0 < (pinned 5 (some 0) none).get Reg.EVT_PERIOD.NS [3] := by
  (try dsimp only); and_intros <;> decide +kernel

/-- PPS_OUT on and not gated, with no second pulsed or with second 0. -/
def ppsOutAt (last : Option Int) : State := (upWith [(Reg.PPS_OUT_CTL.EN, [], 1), (Reg.PPS_OUT_CTL.GATE, [], 0)]).pl fun p => { p with ppsOut := last }

theorem test_hyp_PlumbPins_pps :
    up.get Reg.PPS_OUT_CTL.EN = 0 ∧ (ppsOutAt none).released = true ∧ (ppsOutAt none).plumbOn = true ∧ (ppsOutAt none).get Reg.PPS_OUT_CTL.EN = 1 ∧
    (ppsOutAt none).get Reg.PPS_OUT_CTL.GATE = 0 ∧
    (let at_ := 0 * sec16 + (ppsOutAt none).getS Reg.PPS_OUT_CTL.OFS * 65536
     (ppsOutAt none).time40 ≤ at_ * 2 ^ 24 ∧ (at_ - sec16) * 2 ^ 24 < (ppsOutAt none).time40 ∧ at_ * 2 ^ 24 < (ppsOutAt none).timeNext40) ∧
    (ppsOutAt none).plb.ppsOut = none ∧ (ppsOutAt (some 0)).plb.ppsOut = some 0 := by
  (try dsimp only); and_intros <;> decide +kernel

/-! ## Witnesses: the time-transparent engine, the flow table and the rings -/

/-- An Ethernet PTP message of type `typ` with messageLength `len`, with its FCS. -/
def ptpFrame (typ len : Nat) (fcsErr : Nat) : TteFrame :=
  let b : List Byte := List.replicate 12 0 ++ [0x88, 0xF7, BitVec.ofNat 8 typ, 2, 0, BitVec.ofNat 8 len] ++ List.replicate 50 0
  let d := b ++ fcsOf (b ++ [0, 0, 0, 0])
  { host := 0, ingress := true, place := 0, data := upd d 13 (· ^^^ BitVec.ofNat 8 fcsErr), pcsErr := false, arrival := ⟨0, 0⟩, rest := 0, flushed := 0 }

/-- Group 0's engine in state `st` (1 PASS, 2 RUN) over a locked group of host lane 0. -/
def engine (st two : Nat) : State :=
  inMode 1 (upWith [(Reg.MODE.CODE, [], 1), (Reg.TTE_STAT.STATE0, [], st), (Reg.OUTER_CFG.PCS, [], 1), (Reg.OMI_STAT.LOCK, [0], 1), (Reg.TTE_CFG.TWO_STEP, [0], two)])

set_option maxRecDepth 100000 in
theorem test_hyp_TteFrames :
    (engine 2 0).wf ∧ (engine 2 0).released = true ∧ up.hostLane 0 = none ∧ (engine 2 0).hostLane 0 = some 0 ∧ (engine 2 0).ttGroup 0 = 0 ∧
    (let u := engine 2 0
     (u.isT && u.domOn 39 && u.domOn 40 && decide (u.get Reg.TTE_STAT.STATE0 ≠ 0) && decide (u.pcsCode 0 ≠ 0) && u.on (State.omLock true) [0]) = true) ∧
    (engine 0 0).get Reg.TTE_STAT.STATE0 = 0 ∧ (engine 0 0).hostLane 0 = some 0 ∧ (engine 1 0).get Reg.TTE_STAT.STATE0 = 1 ∧
    tteClassify (ptpFrame 0 44 1).data = none ∧ tteClassify (ptpFrame 0 44 0).data = some ⟨.ethernet, 0, 14, none⟩ ∧
    (let f := ptpFrame 0 44 0
     ((((engine 2 0).flushTo f.flushed.toNat).tt fun t => { t with out := f.data }).tteUnc f) = false) ∧
    tteCheck (ptpFrame 0 44 0) false ⟨.ethernet, 0, 14, none⟩ = none ∧ tteCheck (ptpFrame 0 43 0) false ⟨.ethernet, 0, 14, none⟩ = some tcSHORT ∧
    isEvent 0 = true ∧ tteCheck (ptpFrame 8 44 0) false ⟨.ethernet, 0, 14, none⟩ = none ∧ isEvent 8 = false ∧ isFollower 8 = true ∧
    octField (ptpFrame 11 44 0).data 15 1 % 16 = 2 ∧ isEvent 11 = false ∧ isFollower 11 = false ∧
    (engine 2 1).get Reg.TTE_CFG.TWO_STEP [0] = 1 ∧ (engine 2 0).get Reg.TTE_CFG.TWO_STEP [0] = 0 ∧ (22 : Nat) < 0x17 := by
  (try dsimp only); and_intros <;> decide +kernel

/-- A message that waits for its post-check. -/
def waitingMsg : TteMsg :=
  { ingress := true, group := 0, link := 0, typ := 0, domain := 0, seq := 7, port := 0, clock := 0, arrival := 0, arrivalEl := 0, predicted := 0, entry := none }

theorem test_hyp_TteFrames_postcheck :
    (engine 2 0).tte.waiting.find? (fun m => m.ingress = true && m.link = (0 : Fin 16).val) = none ∧
    (let s := (engine 2 0).tt fun t => { t with waiting := [waitingMsg] }
     s.wf ∧ s.released = true ∧ s.hostLane 0 = some 0 ∧
     s.tte.waiting.find? (fun m => m.ingress = true && m.link = (0 : Fin 16).val) = some waitingMsg) ∧
    (⟨[[1], [2]], [], [], []⟩ : TteStream).buf = [[1], [2]] := by
  (try dsimp only); and_intros <;> decide +kernel

theorem test_hyp_TteRewrite : 14 + 20 ≤ (ptpFrame 0 44 0).data.length ∧ (Carrier.ipv4 14 ≠ .ethernet ∧ 34 + 8 ≤ 42) ∧
    sx 64 (octField (ptpFrame 0 44 0).data (14 + 8) 8) < 2 ^ 63 - 1 ∧
    sx 64 (octField (ptpFrame 0 44 0).data (14 + 8) 8) + (2 ^ 63 - 1) ≤ 2 ^ 63 - 1 ∧
    2 ^ 63 - 1 < sx 64 (octField (ptpFrame 0 44 0).data (14 + 8) 8) + 2 ^ 63 := by
  and_intros <;> decide +kernel

/-- A permitted write by SPI of a register of its own block. -/
theorem test_mayWrite_FLT_CMD (s : State) (h : s.reaches .spi Reg.FLT_CMD.base Reg.FLT_CMD [] ∧
    s.writeCause .spi Reg.FLT_CMD Reg.FLT_CMD.base [] = none ∧ s.domOn (domNum Reg.FLT_CMD Reg.FLT_CMD.base) = true) :
    s.mayWrite .spi Reg.FLT_CMD.base := ⟨Reg.FLT_CMD, [], h⟩

/-- SPI owns every block. -/
def spiUp (l : List (FRef × List Nat × Nat)) : State :=
  upWith ([(Reg.MEM_OWN0.OWN, [], 0x249249249249), (Reg.MEM_OWN1.OWN, [], 0x249249)] ++ l)

theorem test_hyp_FlowTable :
    (spiUp []).wf ∧ (spiUp []).released = true ∧ (spiUp []).mayWrite .spi Reg.FLT_CMD.base ∧ (spiUp []).fltReady = true ∧
    (∀ i < 4, ((spiUp []).cell memFLOW (4 * 0 + i)).syndrome = 0 ∧ (spiUp []).poisoned memFLOW (4 * 0 + i) = false) ∧
    ((spiUp []).tt fun t => { t with flush := some 9 }).wf ∧ ((spiUp []).tt fun t => { t with flush := some 9 }).fltReady = false ∧
    ((spiUp []).tt fun t => { t with flush := some 9 }).mayWrite .spi Reg.FLT_CMD.base ∧
    ((spiUp []).tt fun t => { t with flush := some 9 }).tte.flush = some 9 ∧
    ((spiUp []).tt fun t => { t with sweepDue := true }).wf ∧ ((spiUp []).tt fun t => { t with sweepDue := true }).tte.sweepDue = true ∧
    (spiUp []).domOn 39 = true ∧ (spiUp []).domOn 40 = true ∧ (spiUp []).tte.sweepDue = false := by
  and_intros <;> first | decide +kernel | exact test_mayWrite_FLT_CMD _ (by decide +kernel)

/-- Ring 8191, of 16 entries, produced and consumed by SPI, that holds `n` entries. -/
def spiRing (n : Nat) : State := spiUp [(Reg.RNG_CFG.TYPE, [8191], 2), (Reg.RNG_CFG.PROD, [8191], 1), (Reg.RNG_CFG.CONS, [8191], 1),
  (Reg.RNG_CFG.SIZE_EXP, [8191], 4), (Reg.RNG_CFG.BASE, [8191], 4096), (Reg.RNG_PI.INDEX, [8191], n)]

theorem test_hyp_RingIndicesAndRecords :
    (spiRing 15).released = true ∧ (spiRing 15).domOn 41 = true ∧
    (spiRing 15).mayWrite .spi (Reg.RNG_PI.addr [8191]) ∧ (spiRing 15).mayWrite .spi (Reg.RNG_CI.addr [8191]) ∧
    (spiUp []).mayWrite .spi (Reg.RNG_PI.addr [8191]) ∧ (spiUp []).mayWrite .spi (Reg.RNG_CI.addr [8191]) ∧ (spiUp []).ringType 8191 = 0 ∧
    (spiRing 15).ringType 8191 ≠ 0 ∧ (spiRing 15).get Reg.RNG_CFG.PROD [8191] = Master.spi.code ∧ (spiRing 15).get Reg.RNG_CFG.CONS [8191] = Master.spi.code ∧
    (spiRing 15).ringFill 8191 = 15 ∧ (spiRing 15).ringSize 8191 = 16 ∧ (spiRing 15).get Reg.RNG_CI.INDEX [8191] = 0 ∧
    ((14 : BitVec 48).toNat % 65536 + 65536 - 0) % 65536 < 15 ∧ 16 < ((17 : BitVec 48).toNat % 65536 + 65536 - 0) % 65536 ∧
    ((16 : BitVec 48).toNat % 65536 + 65536 - 0) % 65536 ≤ 16 ∧ 15 < (15 + 65536 - (65535 : BitVec 48).toNat % 65536) % 65536 := by
  and_intros <;> first | decide +kernel | exact ⟨Reg.RNG_PI, [8191], by decide +kernel⟩ | exact ⟨Reg.RNG_CI, [8191], by decide +kernel⟩

theorem test_hyp_RingIndicesAndRecords_window :
    (spiUp [(Reg.RNG_WIN.PAGE, [], 3), (Reg.RNG_CFG.TYPE, [5], 2), (Reg.RNG_CFG.PROD, [5], 1), (Reg.RNG_CFG.BASE, [5], 2 ^ 20 - 16)]).mayWrite .spi (Reg.RNG_WINDOW.base + (0x3FFFF : BitVec 18).toNat) :=
  ⟨Reg.RNG_WINDOW, [0x3FFFF], by decide +kernel⟩

theorem test_hyp_RingIndicesAndRecords_records :
    (spiRing 15).wf ∧ (8191 : Nat) < 8192 ∧ (spiRing 15).ringType 8191 ≠ 1 ∧ (spiRing 15).ringType 8191 = 2 ∧
    (spiRing 15).ringSize 8191 < (spiRing 15).ringFill 8191 + 2 ∧ (spiRing 15).ringFill 8191 + 1 ≤ (spiRing 15).ringSize 8191 := by
  and_intros <;> decide +kernel

/-! ## Witnesses: Scrim links and the fabric -/

/-- Link 9 in state `st` with its record as `f` changes it, our address 5, and whatever fields are given. -/
def linked (st : Nat) (l : List (FRef × List Nat × Nat)) (f : Link → Link) : State :=
  (upWith ([(Reg.LINK_STAT.STATE, [9], st), (Reg.SCR_CFG.ADDR, [], 5), (Reg.SCR_CFG.ADDR_VALID, [], 1)] ++ l)).setLink 9 f

/-- A frame for address `dst` with type `typ`. -/
def frameTo (dst typ : Nat) (noack : Bool) (seq : BitVec 16) (hops : BitVec 4) : SFrame :=
  ⟨BitVec.ofNat 16 dst, 77, BitVec.ofNat 8 typ, hops, noack, false, seq, 1, []⟩

/-- What the receiver of link 9 brings about in a span, and the state once it has taken the symbols. -/
def heardAs (s : State) (l : LinkSpan) (e : LinkEvt) : Bool := decide ((s.linkIn 9 l).2 = [e])
def heard (s : State) : State := (s.linkIn 9 [none]).1

/-- Link 9 synced in state `st`; its elastic buffer gives `y` next, with the octets `o` of a frame taken. -/
def receiving (st : Nat) (y : Sym) (o : Option (List Byte)) : State :=
  linked st [] fun l => { l with sync := true, rx := { l.rx with eb := y :: List.replicate 15 symFILL, frame := o } }

/-- Link 9 before sync, two IDLE sets and a comma heard, or synced with `n` symbols in its elastic buffer and the errors `e` counted. -/
def unsynced : State := linked lkDOWN [] fun l => { l with rx := { l.rx with idles := 2, comma := true } }
def buffered (n e : Nat) : State :=
  linked lkUP [] fun l => { l with sync := true, rx := { l.rx with eb := List.replicate n symIDLE2, errs := e } }

theorem test_hyp_ScrimLinkStates :
    unsynced.released = true ∧ heardAs unsynced [some (BitVec.ofNat 10 (groupOf false symIDLE2))] .gained = true ∧
    (unsynced.linkIn 9 [some (BitVec.ofNat 10 (groupOf false symIDLE2))]).1.linkRuns 9 = true ∧
    ((buffered 16 3).linkIn 9 [some 0]).2 = [.code] ++ [.lost] ∧ (buffered 16 3).released = true ∧
    heardAs (buffered 32 0) [some (BitVec.ofNat 10 (groupOf false symIDLE2))] .slip = true ∧ heardAs (buffered 16 0) [some 0] .code = true ∧
    heardAs (receiving lkUP symEOF (some [0, 5])) [none] (.cut 5 true) = true ∧ heardAs (receiving lkUP symABT (some [0, 5])) [none] (.cut 18 false) = true ∧
    heardAs (receiving lkUP .bad (some [0, 5])) [none] (.stop true) = true ∧ heardAs (receiving lkUP .bad (some [0, 5, 0, 1, 2, 8])) [none] (.stop false) = true ∧
    (((heard (receiving lkUP symEOF (some [0, 5]))).inc Reg.SCR_VIOL_CNT.COUNT [5 - 1]).linkState 9 = lkUP) ∧
    (let s := linked lkUP [] fun l => { l with sync := true, sinceHello := 16 }
     s.linkRuns 9 = true ∧ (s.link 9).sync = true ∧ 2 ^ s.get Reg.SCR_CFG.HELLO_EXP ≤ (s.link 9).sinceHello) ∧
    (let s := linked lkUP [] fun l => { l with helloAge := 64 }
     s.linkState 9 = lkUP ∧ s.get Reg.SCR_CFG.HELLO_LOSS * 2 ^ s.get Reg.SCR_CFG.HELLO_EXP ≤ (s.link 9).helloAge) := by
  (try dsimp only); and_intros <;> decide +kernel

/-- Link 9 with a frame sent whole 16 ticks ago, and `n` timeouts since a release. -/
def aged (n : Nat) : State := linked lkUP [] fun l => { l with unacked := [frameTo 3 0x50 false 0 15], ages := [16], timeouts := n }

/-- LOOP-NEAR with `n` symbols in the FIFO of lane 0 and 544 sent before; lane 1's FIFO is in the middle. -/
def loopedNear (n : Nat) : State :=
  ((inMode 10 (upWith [(Reg.MODE.CODE, [], 10)])).setHlane 0 fun h => { h with tx := List.replicate n 0, txPast := List.replicate 544 0 }).setHlane 1 fun h =>
    { h with tx := List.replicate 100 0 }

theorem test_hyp_ScrimLinkStates_timers :
    (aged 0).released = true ∧ ((aged 0).link 9).ages = [16] ∧ (aged 0).get Reg.SCR_CFG.RTX_TICKS ≤ 16 ∧
    ((aged 0).link 9).timeouts + 1 < (aged 0).get Reg.SCR_CFG.RTX_MAX ∧ (aged 3).get Reg.SCR_CFG.RTX_MAX ≤ ((aged 3).link 9).timeouts + 1 ∧
    (9 : Fin 10).val < (aged 0).scr.links.length ∧
    (∀ s ∈ [loopedNear 960, loopedNear 64, loopedNear 65], s.released = true ∧ s.txMode (s.hostHome 0) = 10 ∧ s.txMode (s.hostHome 1) = 10 ∧
      s.domOn 48 = true ∧ (s.hlane 0).txPast.length = 544) ∧
    960 ≤ ((loopedNear 960).hlane 0).tx.length ∧ ((loopedNear 64).hlane 0).tx.length ≤ 64 ∧
    (∀ i < 1, 64 < ((loopedNear 65).hlane i).tx.length ∧ ((loopedNear 65).hlane i).tx.length < 960) := by
  and_intros <;> decide +kernel

/-- Link 9 in UP, expecting SEQ `e`, with the EOF of frame `f` next in its elastic buffer. -/
def hearing (l : List (FRef × List Nat × Nat)) (e : BitVec 16) (f : SFrame) : State :=
  linked lkUP l fun l => { l with sync := true, rxSeq := e, rx := { l.rx with eb := symEOF :: List.replicate 15 symFILL, frame := some (frameOctets f) } }

/-- That state once the frame has been received and counted. -/
def counted (s : State) : State := (((heard s).inc Reg.RX_FRAME_CNT.COUNT [9]).pmc (0x70 + 9)).wakeBy wkSCRIM

/-- Ring 7 of type `ty` with `n` of its 4 entries in use. -/
def ring7 (ty n : Nat) : List (FRef × List Nat × Nat) :=
  [(Reg.SCR_CFG2.RX_RING, [], 7), (Reg.RNG_CFG.TYPE, [7], ty), (Reg.RNG_CFG.BASE, [7], 64), (Reg.RNG_PI.INDEX, [7], n)]

/-- What the message was taken as. -/
def isDone : Taken → Bool | .done _ => true | _ => false
def isBad : Taken → Bool | .badType => true | _ => false
def isBusy : Taken → Bool | .busy => true | _ => false

/-- A BOOT_REQ and an ACK. -/
def bootReqFrame : SFrame := frameTo 5 0x30 true 0 15
def ackFrame : SFrame := frameTo 5 0x02 true 0 15

theorem test_hyp_ScrimControlFrames :
    (∀ f ∈ [bootReqFrame, ackFrame, frameTo 5 0x03 true 0 15, frameTo 5 0x01 true 0 15, frameTo 5 0x01 false 0 15, frameTo 5 0x04 true 0 15,
      { ackFrame with data := [1] }],
      heardAs (hearing [] 0 f) [none] (.frame f) = true) ∧
    (let s := hearing [] 0 bootReqFrame
     s.released = true ∧ (heard s).linkRuns 9 = true ∧ ((heard s).link 9).sync = true ∧ lkSYNC ≤ (heard s).linkState 9 ∧
     (((heard s).inc Reg.RX_FRAME_CNT.COUNT [9]).pmc (0x70 + 9)).linkState 9 = lkUP ∧ (counted s).scrimBoots = false) ∧
    (let s : State := { hearing [] 0 bootReqFrame with sec := { up.sec with booting := true }, part := { up.part with strap := 16 } }
     heardAs s [none] (.frame bootReqFrame) = true ∧ (counted s).scrimBoots = true) ∧
    isDone ((counted (hearing (ring7 6 3) 0 bootReqFrame)).toRing 9 0 bootReqFrame) = true ∧
    isBad ((counted (hearing [] 0 bootReqFrame)).toRing 9 0 bootReqFrame) = true ∧
    isBusy ((counted (hearing (ring7 6 4) 0 bootReqFrame)).toRing 9 0 bootReqFrame) = true := by
  (try dsimp only); and_intros <;> decide +kernel

/-- Two frames not acknowledged; the next SEQ to send is 9. -/
def window2 : State := linked lkUP [] fun l =>
  { l with unacked := [frameTo 3 0x50 false 7 15, frameTo 3 0x50 false 8 15], txSeq := 9, rxArrival := some 100, marks := [(4, 50)] }

theorem test_hyp_ScrimControlFrames_window :
    9 < window2.scr.links.length ∧ (window2.link 9).unacked.length < ((10 : BitVec 16) - ((window2.link 9).txSeq - BitVec.ofNat 16 2)).toNat ∧
    ((7 : BitVec 16) - ((window2.link 9).txSeq - BitVec.ofNat 16 2)).toNat = 0 ∧
    0 < ((9 : BitVec 16) - ((window2.link 9).txSeq - BitVec.ofNat 16 2)).toNat ∧
    ((9 : BitVec 16) - ((window2.link 9).txSeq - BitVec.ofNat 16 2)).toNat ≤ (window2.link 9).unacked.length ∧ (window2.link 9).waiting = [] ∧
    (window2.link 9).rxArrival = some 100 ∧
    (window2.link 9).marks.find? (·.1 = BitVec.ofNat 8 (octField (List.replicate 5 (0 : Byte) ++ [4]) 5 1)) = some (4, 50) ∧
    ({ window2 with pwr := { up.pwr with on := 0 } } : State).plumbOn = false := by
  and_intros <;> decide +kernel

/-- A neighbour with address 6 on link 8, which is UP. -/
def neighbour : List (FRef × List Nat × Nat) := [(Reg.LINK_STAT.STATE, [8], 3), (Reg.NBR_INFO.ADDR_VALID, [8], 1), (Reg.NBR_INFO.ADDR, [8], 6)]

/-- A numbered frame to `dst` of type `typ`, and the state of link 9 that hears it, expecting SEQ `e`. -/
def msgTo (dst typ : Nat) : SFrame := frameTo dst typ false 7 15
def hears (l : List (FRef × List Nat × Nat)) (e : BitVec 16) (dst typ : Nat) : State := hearing l e (msgTo dst typ)

theorem test_hyp_ScrimMessages :
    (∀ typ ∈ [0x10, 0x11, 0x12, 0x20, 0x31, 0x32, 0x40, 0x41, 0x50, 0x7F],
      heardAs (hears [] 7 5 typ) [none] (.frame (msgTo 5 typ)) = true ∧ (heard (hears [] 7 5 typ)).isLocal (msgTo 5 typ) = true) ∧
    heardAs (hears [] 7 6 0x10) [none] (.frame (msgTo 6 0x10)) = true ∧ (heard (hears [] 7 6 0x10)).isLocal (msgTo 6 0x10) = false ∧
    (let s := hears [] 7 5 0x10
     s.released = true ∧ (heard s).linkRuns 9 = true ∧ ((heard s).link 9).sync = true ∧ (msgTo 5 0x10).noack = false ∧ lkSYNC ≤ (heard s).linkState 9 ∧
     (((heard s).inc Reg.RX_FRAME_CNT.COUNT [9]).pmc (0x70 + 9)).linkState 9 = lkUP ∧
     ((msgTo 5 0x10).seq - ((counted s).link 9).rxSeq).toNat = 0 ∧ (counted s).isLocal (msgTo 5 0x10) = true ∧ (counted s).msnNew 77 1 = true) ∧
    namedType 0x50 = false ∧ State.controlType 0x10 = false ∧
    ((msgTo 5 0x10).seq - ((counted (hears [] 6 5 0x10)).link 9).rxSeq).toNat = 1 ∧
    32768 ≤ ((msgTo 5 0x10).seq - ((counted (hears [] 8 5 0x10)).link 9).rxSeq).toNat ∧
    (counted (hears [] 7 6 0x10)).isLocal (msgTo 6 0x10) = false ∧ (counted (hears [] 7 6 0x10)).route 6 = none ∧
    (counted (hears neighbour 7 6 0x10)).route 6 = some 8 ∧ (counted (hears neighbour 7 6 0x10)).bufferFull (msgTo 6 0x10) = false ∧
    (let s := hears [] 7 5 0x10
     (counted { s with scr := { s.scr with sources := [(77, 1)] } }).msnNew 77 1 = false) := by
  (try dsimp only); and_intros <;> decide +kernel

theorem test_hyp_ScrimMessages_taken :
    isDone ((counted (hears [] 7 5 0x20)).takeMessage 9 0 (msgTo 5 0x20)) = true ∧
    isBad ((counted (hears [] 7 5 0x31)).takeMessage 9 0 (msgTo 5 0x31)) = true ∧
    isBusy ((counted (hears (ring7 6 4) 7 5 0x40)).takeMessage 9 0 (msgTo 5 0x40)) = true ∧
    (counted (hears [(Reg.PROXY_STAT.BUSY, [], 1)] 7 5 0x12)).get Reg.PROXY_STAT.BUSY = 1 ∧
    (counted { hears [] 7 5 0x31 with sec := { up.sec with booting := true }, part := { up.part with strap := 16 } }).scrimBoots = true ∧
    isDone ((counted (hears (ring7 6 3) 7 5 0x7F)).toRing 9 0 (msgTo 5 0x7F)) = true ∧ 0x50 ≤ (0x50 : Byte).toNat ∧ (0x7F : Byte).toNat ≤ 0x7F := by
  and_intros <;> decide +kernel

/-- The store of the frames full, so that none more can be held. -/
theorem test_hyp_ScrimMessages_full :
    (let s := (hears neighbour 7 6 0x10).setLink 9 fun l =>
       { l with waiting := List.replicate 400 { frameTo 6 0x50 false 7 15 with data := List.replicate 256 0 } }
     heardAs s [none] (.frame (msgTo 6 0x10)) = true ∧ (counted s).route 6 = some 8 ∧ (counted s).bufferFull (msgTo 6 0x10) = true) := by
  (try dsimp only); and_intros <;> decide +kernel

/-- Link 9 synced and UP, with the fields given. -/
def synced (l : List (FRef × List Nat × Nat)) : State := linked lkUP l fun l => { l with sync := true }

theorem test_hyp_ScrimServices :
    (synced []).released = true ∧ heardAs (synced []) [some 0x0F5] .mark = true ∧ heardAs (synced []) [some 0x0F3] .trig = true ∧
    (∀ s ∈ [synced [], synced [(Reg.TT_DIN.VALID, [9], 1)]], let v := (s.linkIn 9 [some 0x0F3]).1
      v.linkState 9 = lkUP ∧ v.get Reg.LINK_CFG.TRIG_RX_EN [9] = 1) ∧
    ((synced []).linkIn 9 [some 0x0F3]).1.get Reg.TT_DIN.VALID [9] = 0 ∧
    ((synced [(Reg.TT_DIN.VALID, [9], 1)]).linkIn 9 [some 0x0F3]).1.get Reg.TT_DIN.VALID [9] = 1 ∧
    (let v := ((synced [(Reg.CAP_STAT.STATE, [], 4)]).linkIn 9 [some 0x0F3]).1
     v.domOn 45 = true ∧ v.capState ≠ ceIDLE ∧ v.capState < ceREARM) ∧ ((synced []).linkIn 9 [some 0x0F3]).1.capState = ceIDLE ∧
    ({ up with scr := { up.scr with proxy := some 0 } } : State).scr.proxy = some 0 ∧
    (let s : State := { synced [] with sec := { up.sec with booting := true }, part := { up.part with strap := 16 } }
     s.scrimBoots = true ∧ s.scr.bootWait = 0 ∧ s.linkUp 9 = true ∧ s.released = true) ∧
    (0xBC : Byte).toNat ∈ kGroups.map (·.1) := by
  (try dsimp only); and_intros <;> decide +kernel

theorem test_hyp_ScrimServices_proxy :
    let s (l : List (FRef × List Nat × Nat)) := spiUp l
    (s []).mayWrite .spi Reg.PROXY_CTL.base ∧ (s [(Reg.PROXY_STAT.BUSY, [], 1)]).mayWrite .spi Reg.PROXY_CTL.base ∧
    ((s []).fieldsWrite Reg.PROXY_CTL Reg.PROXY_CTL.base (0 ||| 1)).get Reg.PROXY_STAT.BUSY = 0 ∧
    ((s [(Reg.PROXY_STAT.BUSY, [], 1)]).fieldsWrite Reg.PROXY_CTL Reg.PROXY_CTL.base (0 ||| 1)).get Reg.PROXY_STAT.BUSY = 1 ∧
    ((s []).sendMessage 6 0 0x10 []).2 = false ∧ ((s neighbour).sendMessage 6 0 0x10 []).2 = true := by
  (try dsimp only); and_intros <;> first | decide +kernel | exact ⟨Reg.PROXY_CTL, [], by decide +kernel⟩

/-- A FABRIC_TX ring with one record of two entries: type `typ`, length `len`, to `dst`, link 9. -/
def txRing (typ len dst : Nat) : State :=
  let cell (n : Nat) : Cell := Cell.of (BitVec.ofNat 48 n)
  ((synced [(Reg.SCR_CFG2.TX_RING, [], 8), (Reg.RNG_CFG.TYPE, [8], 7), (Reg.RNG_CFG.BASE, [8], 64), (Reg.RNG_PI.INDEX, [8], 2)]).setCell memRING 64
    (cell (9 * 2 ^ 16 + typ * 256 + 16))).setCell memRING 67 (cell (dst * 2 ^ 32 + len))

/-- The next record of that ring, and the state once it has been read. -/
def txRecord (s : State) : Option (Nat × Bool × List Word) := s.fabTxNext.2
def txRead (s : State) : State := s.fabTxNext.1

theorem test_hyp_ScrimServices_tx :
    (synced []).domOn 48 = true ∧ txRecord (synced []) = none ∧
    (txRing 0x50 24 6).domOn 48 = true ∧ (txRecord (txRing 0x50 24 6)).map (fun r => (r.1, r.2.1, bits (r.2.2.getD 3 0).toNat 8 0)) = some (2, true, 24) ∧
    (txRecord ((txRing 0x50 24 6).setPoison memRING 67 true)).map (fun r => (r.1, r.2.1)) = some (2, false) ∧
    State.txType 0x50 = true ∧ (24 : Nat) ≤ 256 ∧ 1 + (24 + 23) / 24 ≤ 2 ∧ ¬ 1 + (25 + 23) / 24 ≤ 2 ∧ State.txType 0x4F = false ∧
    (txRing 0x20 12 0xFFFF).released = true ∧ (txRead (txRing 0x50 24 6)).isLocal (frameTo 6 0x50 false 0 15) = false ∧
    (txRead (txRing 0x20 12 5)).isLocal (frameTo 5 0x20 false 0 15) = true ∧
    isDone ((txRead (txRing 0x20 12 5)).takeMessage 9 0 (frameTo 5 0x20 false 0 15)) = true := by
  and_intros <;> decide +kernel

/-! ## Witnesses: clocks, resets and power -/

theorem test_hyp_ClocksAndResets :
    up.wf ∧ up.running = true ∧ ({ up with clk := { up.clk with held := true } } : State).running = false ∧ up.refOk 0 = false ∧ up.refOk 1 = false ∧
    up.get Reg.CKG_STAT.SPL = 0 ∧ (upWith [(Reg.CKG_STAT.SPL, [], 4), (Reg.CKG_STAT.REF_NOW, [], 1)]).get Reg.CKG_STAT.SPL = 4 ∧
    (upWith [(Reg.CKG_STAT.SPL, [], 4), (Reg.CKG_STAT.REF_NOW, [], 1)]).get Reg.CKG_STAT.REF_NOW = 1 ∧
    (upWith [(Reg.CKG_STAT.LTXB, [], 2), (Reg.CKG_STAT.LTXB_REF, [], 17)]).pllState 3 = 2 ∧
    (upWith [(Reg.CKG_STAT.LTXB, [], 2), (Reg.CKG_STAT.LTXB_REF, [], 17)]).get (State.ltxRef (3 - 2)) ≠ 16 ∧ up.get (State.ltxRef 1) = 16 ∧
    (upWith [(Reg.CKG_STAT.XTAL_OK, [], 1)]).refOk 0 = true ∧ (upWith [(Reg.CKG_STAT.XTAL_OK, [], 1)]).get Reg.CKG_STAT.REF_NOW = 0 ∧
    (upWith [(Reg.CKG_STAT.XTAL_OK, [], 1)]).get Reg.CKG_CFG.REF_SEL = 0 ∧ (upWith [(Reg.CKG_STAT.XTAL_OK, [], 1)]).get Reg.CKG_CFG.FAILOVER = 1 ∧
    ((upWith [(Reg.CKG_STAT.XTAL_OK, [], 1), (Reg.CKG_STAT.REFCLK_OK, [], 1)]).th fun t => { t with tick := 204 }).refSteady 1 = true ∧
    ((upWith [(Reg.CKG_STAT.XTAL_OK, [], 1), (Reg.CKG_STAT.REFCLK_OK, [], 1)]).th fun t => { t with tick := 203 }).refSteady 1 = false ∧
    (upWith [(Reg.CKG_STAT.HPL, [], 3)]).pllState 4 = 3 ∧ (upWith [(Reg.CKG_STAT.HPL, [], 1)]).pllState 4 = 1 ∧
    (upWith [(Reg.CKG_STAT.SPL, [], 1)]).pllState 0 ≠ 0 ∧ (upWith [(Reg.CKG_STAT.SPL, [], 1)]).refOk 0 = false ∧ (upWith [(Reg.CKG_STAT.SPL, [], 1)]).get Reg.CKG_STAT.REF_NOW = 0 ∧
    (upWith [(Reg.CKG_STAT.REFCLK_OK, [], 1)]).pllState 0 = 0 ∧ (upWith [(Reg.CKG_STAT.REFCLK_OK, [], 1)]).refOk 1 = true ∧ (spiUp []).mayWrite .spi Reg.RST_CMD.base ∧
    (99 : BitVec 32).toNat < 100 ∧ 1000 ≤ (1000 : BitVec 32).toNat ∧ (999 : BitVec 32).toNat < 1000 ∧ up.pwr.shutdown = false ∧ stagedAt Reg.MODE.base = true := by
  and_intros <;> first | decide +kernel | exact ⟨Reg.RST_CMD, [], by decide +kernel⟩

/-- A power request with its word, and its progress as `f` changes it. -/
def asking (w : Nat) (f : PwrReq → PwrReq) : State :=
  { spiUp [] with pwr := { up.pwr with req := some (f ⟨BitVec.ofNat 48 w, .spi, false, true, [], [], 0, 0, false⟩) } }

theorem test_hyp_PowerRequests :
    (spiUp []).wf ∧ (spiUp []).mayWrite .spi Reg.PWR_REQ.base ∧ (spiUp []).pwr.req = none ∧ (asking 0 id).wf ∧ (asking 0 id).mayWrite .spi Reg.PWR_REQ.base ∧
    (asking 0 id).pwr.req.isSome = true ∧ (asking 0 id).running = true ∧ badReq (BitVec.ofNat 48 (3 * 2 ^ 44 + 5 * 2 ^ 41)) = true ∧
    badReq (BitVec.ofNat 48 (3 * 2 ^ 44 + 4 * 2 ^ 41)) = false ∧ (spiUp [(Reg.PWR_SUP_STAT.RAILS, [], 1)]).supplyWarned = true ∧ (spiUp []).supplyWarned = false ∧
    (asking (2 ^ 44 + 27 * 64 + 27) id).refuser (BitVec.ofNat 48 (2 ^ 44 + 27 * 64 + 27)) = none ∧
    (asking (2 * 2 ^ 44 + 43 * 64 + 43) id).refuser (BitVec.ofNat 48 (2 * 2 ^ 44 + 43 * 64 + 43)) = some 43 ∧
    (spiUp []).sec.isRun = false ∧ (spiUp []).phase = phIDLE ∧ reqOp (BitVec.ofNat 48 (3 * 2 ^ 44)) = 3 ∧ reqState (BitVec.ofNat 48 (3 * 2 ^ 44)) = 0 ∧
    (spiUp []).pwr.state = .run ∧ reqState (BitVec.ofNat 48 (3 * 2 ^ 44 + 4 * 2 ^ 41)) = 4 ∧
    (asking (3 * 2 ^ 44 + 4 * 2 ^ 41) id).refuser (BitVec.ofNat 48 (3 * 2 ^ 44 + 4 * 2 ^ 41)) = none := by
  and_intros <;> first | decide +kernel | exact ⟨Reg.PWR_REQ, [], by decide +kernel⟩

theorem test_hyp_PowerRequests_progress :
    let r : PwrReq := ⟨BitVec.ofNat 48 (3 * 2 ^ 44 + 2 * 2 ^ 41), .spi, true, true, [], [], 3, 0, false⟩
    let s : State := { up with pwr := { up.pwr with req := some r } }
    let u : State := { up with pwr := { up.pwr with req := some { r with aborting := true, todo := [5] } } }
    s.wf ∧ s.running = true ∧ s.pwr.req = some r ∧ r.started = true ∧ r.due = true ∧ r.todo = [] ∧ reqOp r.word = 3 ∧ reqState r.word = 2 ∧ r.step = 3 ∧
    u.wf ∧ u.running = true ∧ reqOp (BitVec.ofNat 48 (2 ^ 44)) = 1 ∧ reqOp (BitVec.ofNat 48 (2 * 2 ^ 44)) = 2 := by
  (try dsimp only); and_intros <;> decide +kernel

/-- Power state `p` with whatever fields are given. -/
def powered (p : PowerState) (l : List (FRef × List Nat × Nat)) : State := { upWith l with pwr := { up.pwr with state := p } }

theorem test_hyp_Wakes :
    (powered .deep []).wf ∧ (powered .deep []).clk.held = false ∧ (powered .deep []).pwr.shutdown = false ∧ (powered .deep []).wakeEnabled 1 = true ∧
    (powered .deep []).wakeEnabled 7 = false ∧ (powered .deep [(Reg.PWR_CFG.EN_TMR, [], 1), (Reg.PWR_CFG.WAKE_TMR, [], 1)]).wakeEnabled 7 = true ∧
    State.wakeActs 7 3 = true ∧ State.wakeActs 1 3 = true ∧ (powered .off []).pwr.state = .off ∧ (powered .off []).wf ∧
    (powered .sleep []).pwr.req = none ∧ (powered .sleep []).wakeEnabled wkRING = true ∧ State.wakeActs wkRING (powered .sleep []).stateCode = true ∧
    State.wakeActs 7 2 = true ∧ up.thm.tick = 0 ∧ up.pwr.retries < 3 ∧ ({ up with pwr := { up.pwr with retries := 3 } } : State).wf ∧
    (up.th fun t => { t with tick := 1 }).thm.tick ≠ 0 ∧ up.pwr.state ≠ .deep := by
  and_intros <;> decide +kernel

theorem test_hyp_Supplies :
    up.wf ∧ up.railWatched 6 = true ∧ (powered .deep []).railWatched 6 = false ∧ (upWith [(Reg.PWR_SUP_STAT.RAILS, [], 2 ^ 12)]).wf ∧
    ((upWith [(Reg.PWR_SUP_STAT.RAILS, [], 2 ^ 12)]).get Reg.PWR_SUP_STAT.RAILS).testBit (2 * 6) = true ∧ (up.get Reg.PWR_SUP_STAT.RAILS).testBit (2 * 6) = false ∧
    up.railWatched 0 = true ∧ up.railWatched 3 = true ∧ up.railWatched 4 = true ∧ up.clk.held = false ∧
    ((upWith [(Reg.PWR_SUP_STAT.RAILS, [], 2 ^ 7)]).get Reg.PWR_SUP_STAT.RAILS).testBit (2 * 3 + 1) = true ∧
    ({ up with clk := { up.clk with held := true } } : State).clk.held = true := by
  and_intros <;> decide +kernel

/-! ## Witnesses: the sequencer's runs, resets and registers -/

/-- The scheduler may run: an image has been started. -/
def imaged (l : List (FRef × List Nat × Nat)) (f : Seq → Seq) : State :=
  let s := spiUp l
  { s with seq := f { s.seq with imageRuns := true } }

theorem test_hyp_SequencerRuns :
    let s := imaged [(Reg.SEQ_TSTAT.PENDING, [31], 1), (Reg.SEQ_TSTAT.PENDING, [4], 1), (Reg.SEQ_TASK.PRIO, [4], 1), (Reg.SEQ_TSTAT.PENDING, [30], 1)] id
    let r := imaged [] fun q => { q with run := some 3, suspended := true }
    r.wf ∧ r.released = true ∧ r.mayRun = true ∧ r.seq.run.isSome = true ∧
    s.wf ∧ s.released = true ∧ s.mayRun = true ∧ s.seq.run = none ∧ s.get Reg.SEQ_TSTAT.PENDING [30] = 1 ∧
    (∀ i < 32, s.get Reg.SEQ_TSTAT.PENDING [i] = 1 → s.get Reg.SEQ_TASK.PRIO [30] < s.get Reg.SEQ_TASK.PRIO [i] ∨
        (s.get Reg.SEQ_TASK.PRIO [30] = s.get Reg.SEQ_TASK.PRIO [i] ∧ 30 ≤ i)) ∧
    (imaged [] id).mayRun = true ∧ (∀ i < 32, (imaged [] id).get Reg.SEQ_TSTAT.PENDING [i] = 0) := by
  (try dsimp only); and_intros <;> decide +kernel

/-- A halted sequencer with a STEP to carry out. -/
def stepping (f : Seq → Seq) : State := imaged [] fun q => f { q with halted := true, stepDue := true }

theorem test_hyp_SequencerRuns_halt :
    (stepping id).wf ∧ (stepping id).released = true ∧ (stepping id).mayWrite .spi Reg.SEQ_CTL.base ∧ (stepping id).seq.halted = true ∧
    (imaged [] id).mayWrite .spi Reg.SEQ_CTL.base ∧ (imaged [] id).seq.halted = false ∧ (stepping id).seq.stepDue = true ∧ (stepping id).seq.run = none ∧
    (stepping fun q => { q with run := some 3, waiting := some (1, 4, 0) }).wf ∧
    (stepping fun q => { q with run := some 3, waiting := some (1, 4, 0) }).seq.waiting = some (1, 4, 0) ∧
    (stepping fun q => { q with run := some 3, waiting := some (1, 4, 9) }).get Reg.SEQ_EVPEND.PEND &&& (4 : Word).toNat = 0 ∧
    (stepping fun q => { q with run := some 3 }).seq.waiting = none ∧ (stepping fun q => { q with run := some 3 }).seq.resetting = false ∧
    ({ stepping fun q => { q with run := some 3 } with seq := { (stepping fun q => { q with run := some 3 }).seq with
       stepDue := false, halted := false, suspended := false } } : State).fetch.2 = (true, 0) ∧
    (match State.wordOp 0 0 0 0 with
     | some f => (f (stepping fun q => { q with run := some 3, halted := false })).seq.halted = false ∧
         (f (stepping fun q => { q with run := some 3, halted := false })).seq.waiting = none
     | none => False) := by
  and_intros <;> first | decide +kernel | exact ⟨Reg.SEQ_CTL, [], by decide +kernel⟩

/-- The page record of a page of zeros is intact and marks nothing. -/
theorem test_zero_page : ∀ i < 64, Page.zero.badMap (i / 48) = false ∧ Page.zero.map.getLsbD i = false := by decide +kernel

/-- Nothing in a store that lists nothing is poisoned or in error. -/
theorem test_empty_store (s : State) (a : Nat) (h : s.memAt memCAL = ⟨[], []⟩) : s.poisoned memCAL a = false ∧ (s.cell memCAL a).syndrome = 0 := by
  have z := test_zero_page (a % 64) (Nat.mod_lt _ (by decide))
  have p : s.page memCAL (a / 64) = Page.zero := by simp only [State.page, h, kvGet]; simp [memCAL, memCOEF]
  constructor
  · simp only [State.poisoned, State.unmapped, p, z.1, z.2]; simp
  · simp only [State.cell, h, kvGet]; rw [if_neg (by decide)]; decide +kernel

/-- A swap to slot B that may be made, with an image of no words. -/
def swapping (l : List (FRef × List Nat × Nat)) : State := imaged ([(Reg.SEC_IMGB.RESULT, [], 0), (Reg.SEC_IMGB.LEVEL, [], 3), (Reg.SEC_ARB.LEVEL, [], 3)] ++ l) id

theorem test_hyp_SequencerResets :
    (imaged [] fun q => { q with wdogDue := true }).wf ∧ (imaged [] fun q => { q with wdogDue := true }).released = true ∧
    (imaged [] fun q => { q with wdogDue := true }).seq.wdogDue = true ∧ (imaged [] fun q => { q with faultDue := true }).wf ∧
    (imaged [] fun q => { q with faultDue := true }).seq.faultDue = true ∧ (imaged [(Reg.SEQ_SCHED.FAULT_ACT, [], 0)] id).get Reg.SEQ_SCHED.FAULT_ACT = 0 ∧
    (imaged [] id).get Reg.SEQ_SCHED.FAULT_ACT = 1 ∧ (imaged [(Reg.SEQ_SWAP.STATE, [], 2)] id).get Reg.SEQ_SWAP.STATE = 2 ∧
    (imaged [] id).mayWrite .spi Reg.SEQ_WDOG.base ∧ bits (0x5A01 : Word).toNat 7 0 ≠ (imaged [] id).get Reg.SEQ_WDOG.PERIOD ∧
    bits (0x5A00 : Word).toNat 7 0 = (imaged [] id).get Reg.SEQ_WDOG.PERIOD ∧ bits (0x5A00 : Word).toNat 15 8 = 0x5A ∧
    (up.mayWrite .quaran Reg.SEQ_WDOG.base) ∧
    (imaged [] fun q => { q with swapDue := true }).wf ∧ (imaged [] fun q => { q with swapDue := true }).seq.swapDue = true ∧
    (imaged [(Reg.SEQ_SWAP.STATE, [], 2)] id).seq.revert = none ∧ (imaged [(Reg.SEQ_SWAP.STATE, [], 2)] id).seq.trialEnd ≤ (imaged [(Reg.SEQ_SWAP.STATE, [], 2)] id).ticks ∧
    (imaged [] fun q => { q with trialEnd := 9, revert := some 255 }).ticks < 9 ∧ (255 : Nat) < 256 := by
  and_intros <;> first | decide +kernel | exact ⟨Reg.SEQ_WDOG, [], by decide +kernel⟩

theorem test_hyp_SequencerResets_swap :
    (swapping []).wf ∧ (swapping []).released = true ∧ (swapping []).mayWrite .spi Reg.SEQ_SWAP.base ∧
    (swapping [(Reg.JNL_STAT.STATE, [], 1)]).mayWrite .spi Reg.SEQ_SWAP.base ∧ (swapping [(Reg.JNL_STAT.STATE, [], 1)]).get Reg.JNL_STAT.STATE ≠ 0 ∧
    (swapping []).get Reg.JNL_STAT.STATE = 0 ∧ (swapping [(Reg.SEQ_SWAP.STATE, [], 1)]).get Reg.SEQ_SWAP.STATE = 1 ∧ (swapping []).get Reg.SEQ_SWAP.STATE = 0 ∧
    (swapping []).get (State.imgResult 1) = irOK ∧ ¬ (swapping []).get (State.imgLevel 1) < (swapping []).get Reg.SEC_ARB.LEVEL ∧
    (swapping [(Reg.SEC_ARB.LEVEL, [], 4)]).get (State.imgLevel 1) < 4 ∧ (swapping [(Reg.SEC_IMGB.RESULT, [], irROLLBACK)]).get (State.imgResult 1) = irROLLBACK ∧
    (swapping [(Reg.SEC_IMGB.RESULT, [], 1)]).get (State.imgResult 1) ≠ irOK ∧
    (swapping [(Reg.SEQ_SWAP.STATE, [], 2), (Reg.SEC_CFG.ARB_AUTO, [], 0)]).get Reg.SEC_CFG.ARB_AUTO = 0 ∧ (swapping []).get Reg.SEC_CFG.ARB_AUTO = 1 := by
  and_intros <;> first | decide +kernel | exact ⟨Reg.SEQ_SWAP, [], by decide +kernel⟩

theorem test_hyp_SequencerResets_imgGood : (swapping []).imgBad 1 = false := by
  have e : ∀ a, (swapping []).poisoned memCAL a = false ∧ ((swapping []).cell memCAL a).syndrome = 0 :=
    fun a => test_empty_store _ a (by decide +kernel)
  have n : (swapping []).imgN 1 = 0 := by decide +kernel
  simp only [State.imgBad, n, List.range_zero, List.any_nil, Bool.false_or, List.any_eq_false]
  intro i _
  split
  · rename_i a _
    simp [e a]
  · simp

/-- The debug window at `a`, halted or not. -/
def debugAt (a : Nat) (h : Bool) : State := { spiUp [(Reg.SEQ_DBG_ADDR.ADDR, [], a)] with seq := { up.seq with halted := h } }

theorem test_hyp_SequencerRegisters :
    (debugAt 31 true).wf ∧ (debugAt 31 true).busOpen .spi ∧ (debugAt 31 true).domOn 42 = true ∧ (debugAt 31 true).get Reg.SEQ_DBG_ADDR.ADDR = 31 ∧
    (debugAt 0x22 true).get Reg.SEQ_DBG_ADDR.ADDR < 0x23 ∧ (debugAt 0x26 true).get Reg.SEQ_DBG_ADDR.ADDR < 0x27 ∧
    (debugAt 0x13FFFF true).isPageHit memDMEM 0x3FFFF = false ∧ (debugAt 0x20FFFF true).isPageHit memIMEM 0xFFFF = false ∧
    (debugAt 0x13FFFF true).memRead memDMEM 0x3FFFF .spi = (debugAt 0x13FFFF true, true, 0) ∧
    (((debugAt 0x13FFFF true).setPoison memDMEM 0x3FFFF true).memRead memDMEM 0x3FFFF .spi).2.1 = false ∧
    (debugAt 0x20FFFF true).memRead memIMEM 0xFFFF .spi = (debugAt 0x20FFFF true, true, 0) ∧
    (((debugAt 0x20FFFF true).setPoison memIMEM 0xFFFF true).memRead memIMEM 0xFFFF .spi).2.1 = false ∧
    (debugAt 0x29 true).seq.halted = true ∧ (debugAt 0xFFFFF false).seq.halted = false ∧
    (debugAt 0x29 true).mayWrite .spi Reg.SEQ_DBG_DATA.base ∧ (debugAt 0xFFFFF false).mayWrite .spi Reg.SEQ_DBG_DATA.base ∧
    (spiUp []).mayWrite .spi Reg.SEQ_DOORBELL.base ∧ (spiUp []).mayWrite .spi (Reg.PMC_CNT.addr [63]) ∧ (spiUp []).mayWrite .spi Reg.PMC_CTL.base ∧
    (spiUp []).mayWrite .spi (Reg.SEQ_TASK.addr [31]) := by
  and_intros <;> first
    | decide +kernel | exact ⟨Reg.SEQ_DBG_DATA, [], by decide +kernel⟩ | exact ⟨Reg.SEQ_DOORBELL, [], by decide +kernel⟩
    | exact ⟨Reg.PMC_CNT, [63], by decide +kernel⟩ | exact ⟨Reg.PMC_CTL, [], by decide +kernel⟩ | exact ⟨Reg.SEQ_TASK, [31], by decide +kernel⟩

/-! ## Witnesses: Sets, the journal and the tick -/

/-- A check of master SPI with the snapshot and the journal kind given. -/
def chk (snap : List (Nat × Word)) (jnl : Nat) : Check := ⟨1, .spi, snap, jnl, []⟩

/-- That check in progress, with poisoned undercoat addresses. -/
def checking (snap : List (Nat × Word)) (jnl : Nat) (poison : List Nat) : State :=
  { spiUp [] with set := { up.set with check := some (chk snap jnl), poison := poison, count := 1 } }

/-- A snapshot whose RX_AFE of slice 0 holds the reserved PGA_GAIN 127. -/
def badSnap : List (Nat × Word) := [(Reg.RX_AFE.base, 127 * 64)]

theorem test_hyp_SetChecks :
    (spiUp []).wf ∧ (spiUp []).mayWrite .spi Reg.SET_CMD.base ∧ (spiUp []).set.check = none ∧ (spiUp []).get Reg.JNL_STAT.STATE < 2 ∧
    (checking [] 0 []).wf ∧ (checking [] 0 []).mayWrite .spi Reg.SET_CMD.base ∧ (checking [] 0 []).set.check.isSome = true ∧
    2 ≤ (spiUp [(Reg.JNL_STAT.STATE, [], 2)]).get Reg.JNL_STAT.STATE ∧ (spiUp [(Reg.JNL_STAT.STATE, [], 2)]).mayWrite .spi Reg.SET_CMD.base ∧
    (checking [] 0 []).released = true ∧ (checking [] 0 []).set.check = some (chk [] 0) ∧
    State.chkReserved badSnap ≠ [] ∧ State.chkReserved [] = [] ∧ (checking [] 0 [Reg.RX_AFE.base]).set.poison ≠ [] ∧ (checking [] 0 []).set.poison = [] ∧
    (spiUp []).set.passed = none := by
  and_intros <;> first | decide +kernel | exact ⟨Reg.SET_CMD, [], by decide +kernel⟩

theorem test_hyp_SetChecks_judged :
    (checking [] 0 []).judge (chk [] 0) = none ∧ (checking badSnap 1 []).judge (chk badSnap 1) = some (1, Reg.RX_AFE.base) ∧
    (1 < (2 : Nat)) := by
  and_intros <;> decide +kernel

/-- A passed snapshot that writes one register, with the mark of its write. -/
def passedCheck : Check := { chk [(Reg.TRW_SP.base, 5)] 0 with marks := [Reg.TRW_SP.base] }

/-- That snapshot at the tick boundary. -/
def passing : State := { spiUp [(Reg.SET_STATUS.STATE, [], 2)] with
  set := { up.set with passed := some passedCheck, count := 1 }, due := [(dueSet, 0)] }

theorem test_hyp_SetApplies :
    passing.wf ∧ passing.set.passed = some passedCheck ∧ passing.armed dueSet 0 = true ∧ passing.running = true ∧ passing.supplyWarned = false ∧
    passing.get Reg.SET_STATUS.STATE = 2 ∧ passing.set.count = passedCheck.num ∧ passing.changes passedCheck.snap passedCheck.marks = [Reg.TRW_SP.base] ∧
    RegFile.get passedCheck.snap Reg.OUTER_CFG.base = passing.liveAt Reg.OUTER_CFG.base := by
  and_intros <;> decide +kernel

/-- The journal in state `st` with `n` before-image pairs and whatever fields are given. -/
def journal (st n : Nat) (l : List (FRef × List Nat × Nat)) (f : Jnl → Jnl) : State :=
  { spiUp ([(Reg.JNL_STAT.STATE, [], st)] ++ l) with jnl := f { State.jnlReset with pairs := n } }

/-- A plan of one step, of no pair and the END mark alone. -/
def plan (s : State) : State := s.setCell (memRB + 3) 16 (Cell.of (BitVec.ofNat 48 (2 ^ 47)))

/-- A plan that cannot be read. -/
def noPlan (s : State) : State := s.setPoison (memRB + 3) 16 true

/-- Whether the plan's words of its first `n` steps can be used. -/
def planOk (s : State) (n : Nat) : Bool := (s.planRead n).2

theorem test_hyp_Journal_commands :
    (journal 0 0 [] id).wf ∧ (journal 0 0 [] id).mayWrite .spi Reg.JNL_CTL.base ∧ (journal 1 0 [] id).get Reg.JNL_STAT.STATE ≠ 0 ∧
    (journal 1 0 [] id).mayWrite .spi Reg.JNL_CTL.base ∧
    (plan (journal 0 0 [] id)).wf ∧ (plan (journal 0 0 [] id)).mayWrite .spi Reg.JNL_CTL.base ∧
    (noPlan (journal 0 0 [] id)).wf ∧ (noPlan (journal 0 0 [] id)).mayWrite .spi Reg.JNL_CTL.base ∧
    (journal 1 0 [] id).get Reg.JNL_STAT.STATE = 1 ∧ (journal 1 0 [] id).get Reg.JNL_STAT.BUSY = 0 ∧ (journal 1 0 [] id).set.check = none ∧
    (journal 1 0 [] id).supplyWarned = false ∧ (journal 1 0 [(Reg.JNL_STAT.BUSY, [], 1)] id).get Reg.JNL_STAT.BUSY = 1 ∧
    (journal 1 0 [] id).set.passed = none ∧ (journal 1 0 [] id).jnl.pairs = 0 := by
  and_intros <;> first | decide +kernel | exact ⟨Reg.JNL_CTL, [], by decide +kernel⟩

set_option maxRecDepth 200000 in
theorem test_hyp_Journal_open :
    planOk (journal 0 0 [] id) (0 : BitVec 8).toNat = true ∧ planOk (plan (journal 0 0 [] id)) (1 : BitVec 8).toNat = true ∧
    planOk (noPlan (journal 0 0 [] id)) (1 : BitVec 8).toNat = false := by
  and_intros <;> decide +kernel

set_option maxRecDepth 200000 in
theorem test_hyp_Journal_marks :
    ¬ (((plan (journal 0 0 [] id)).planRead (1 : BitVec 8).toNat).1.planPairs.filter (·.1)).length < (1 : BitVec 8).toNat := by
  decide +kernel

set_option maxRecDepth 200000 in
theorem test_hyp_Journal_step :
    planOk (plan (journal 1 0 [] id)) ((plan (journal 1 0 [] id)).get Reg.JNL_STAT.DONE + 1) = true ∧
    planOk (noPlan (journal 1 0 [] id)) ((noPlan (journal 1 0 [] id)).get Reg.JNL_STAT.DONE + 1) = false := by
  and_intros <;> decide +kernel

/-- What an ABORT, or a roll back, finds of the before-images. -/
def foundImages (s : State) : State :=
  ((s.put Reg.JNL_STAT.STATE 3).put Reg.JNL_STAT.BUSY 1).settleRun (memRB + 3) 4096 (4096 + 2 * s.jnl.pairs)

set_option maxRecDepth 200000 in
theorem test_hyp_Journal_images :
    (journal 1 1 [] id).jnl.pairs = 1 ∧ (foundImages (journal 1 1 [] id)).rb3Usable 4096 (4096 + 2 * 1) = true ∧
    (foundImages ((journal 1 1 [] id).setPoison (memRB + 3) 4097 true)).rb3Usable 4096 (4096 + 2 * 1) = false ∧
    ((journal 1 1 [] id).setPoison (memRB + 3) 4097 true).jnl.pairs = 1 ∧
    ((journal 1 1 [] id).setPoison (memRB + 3) 4097 true).mayWrite .spi Reg.JNL_CTL.base := by
  and_intros <;> first | decide +kernel | exact ⟨Reg.JNL_CTL, [], by decide +kernel⟩

theorem test_hyp_Journal_data :
    (journal 0 0 [(Reg.JNL_ADDR.WORD, [], 15)] id).mayWrite .spi Reg.JNL_DATA.base ∧ (journal 0 0 [(Reg.JNL_ADDR.WORD, [], 15)] id).get Reg.JNL_ADDR.WORD = 15 ∧
    (journal 0 0 [(Reg.JNL_ADDR.WORD, [], 4095)] id).get Reg.JNL_ADDR.WORD < 4096 ∧ 4096 ≤ (journal 0 0 [(Reg.JNL_ADDR.WORD, [], 4096)] id).get Reg.JNL_ADDR.WORD ∧
    (journal 1 0 [(Reg.JNL_ADDR.WORD, [], 16)] id).mayWrite .spi Reg.JNL_DATA.base ∧ 16 ≤ (journal 1 0 [(Reg.JNL_ADDR.WORD, [], 16)] id).get Reg.JNL_ADDR.WORD := by
  and_intros <;> first | decide +kernel | exact ⟨Reg.JNL_DATA, [], by decide +kernel⟩

set_option maxRecDepth 200000 in
theorem test_hyp_Journal_roll :
    let due := fun j : Jnl => { j with rollDue := true }
    (journal 1 0 [(Reg.JNL_STAT.FWD, [], 1)] due).released = true ∧ (journal 1 0 [(Reg.JNL_STAT.FWD, [], 1)] due).jnl.rollDue = true ∧
    (journal 1 0 [(Reg.JNL_STAT.FWD, [], 1)] due).get Reg.JNL_STAT.DONE < (journal 1 0 [(Reg.JNL_STAT.FWD, [], 1)] due).get Reg.JNL_STAT.FWD ∧
    (journal 3 0 [] due).get Reg.JNL_STAT.STATE = 3 ∧ (journal 3 0 [] due).jnl.stagedLost = false ∧ (journal 3 0 [] due).jnl.pairs = 0 ∧
    (journal 3 0 [] fun j => { j with rollDue := true, stagedLost := true }).jnl.stagedLost = true ∧
    (journal 1 0 [(Reg.JNL_STAT.NSTEPS, [], 1)] due).get Reg.JNL_STAT.FWD ≤ (journal 1 0 [(Reg.JNL_STAT.NSTEPS, [], 1)] due).get Reg.JNL_STAT.DONE ∧
    0 < (journal 1 0 [(Reg.JNL_STAT.NSTEPS, [], 1)] due).get Reg.JNL_STAT.NSTEPS ∧
    (journal 1 0 [(Reg.JNL_STAT.DONE, [], 1), (Reg.JNL_STAT.NSTEPS, [], 1)] due).get Reg.JNL_STAT.NSTEPS ≤ 1 ∧
    planOk (plan (journal 1 0 [(Reg.JNL_STAT.NSTEPS, [], 1)] due)) (0 + 1) = true ∧
    (journal 2 0 [] id).get Reg.JNL_STAT.STATE = 2 ∧ (journal 2 0 [] id).jnl.rollDue = false ∧
    planOk (plan (journal 2 0 [] id)) ((plan (journal 2 0 [] id)).jnl.step + 1) = true := by
  (try dsimp only); and_intros <;> decide +kernel

theorem test_hyp_TickBoundaries :
    up.wf ∧ up.running = true ∧ up.clk.rstReq ≠ 2 ∧ ({ up with clk := { up.clk with rstReq := 2 } } : State).wf ∧
    ({ up with clk := { up.clk with held := true } } : State).running = false ∧ up.released = true ∧ up.domOn 42 = true ∧
    (upWith [(Reg.SEQ_TASK.EN, [31], 1)]).get Reg.SEQ_TASK.EN [31] = 1 ∧ (upWith [(Reg.SEQ_TASK.EN, [31], 1)]).seq.clkStopped = false ∧
    (upWith [(Reg.SEQ_TASK.EN, [31], 1)]).seqTick.ticks % 2 ^ 0 = 0 ∧ up.seq.resetting = false ∧ up.get Reg.SEQ_TASK.EN [0] = 0 ∧
    (running up).seq.run.isSome = true ∧ (running up).seq.halted = false ∧ (running up).seq.hold = false ∧ up.seq.run = none ∧
    (upWith [(Reg.SEQ_TASK.EN, [31], 1), (Reg.SEQ_TASK.PER, [31], 1)]).seqTick.ticks % 2 ^ 1 ≠ 0 ∧
    up.plumbOn = true ∧ up.plb.slew = none ∧ ({ up with pwr := { up.pwr with on := 0 } } : State).plumbOn = false ∧
    passing.set.passed.isSome = true ∧ passing.supplyWarned = false ∧ (up.th fun t => { t with pendLevel := some 1 }).thm.pendLevel.isSome = true ∧
    0 < (upWith [(Reg.SEQ_WDOG.PERIOD, [], 1), (Reg.SEQ_WDOG.COUNT, [], 1)]).get Reg.SEQ_WDOG.PERIOD ∧
    (upWith [(Reg.SEQ_WDOG.PERIOD, [], 1), (Reg.SEQ_WDOG.COUNT, [], 1)]).get Reg.SEQ_WDOG.COUNT = 1 ∧ up.get Reg.SEQ_WDOG.PERIOD = 0 := by
  and_intros <;> decide +kernel

/-- A state in which no domain is on. -/
def unpowered : State := { up with pwr := State.pwrReset }

/-- Just after a tick boundary that applied a Set, with the cycles since then as given. -/
def setJust (n : Nat) : State :=
  ({ up with set := { up.set with recent := true } } : State).setSlice 2 (fun x => { x with cyc := n }) |>.setSlice 8 (fun x => { x with cyc := n })
    |>.setLtx 0 (fun x => { x with since := n })

theorem test_hyp_ApplicationBoundaries :
    up.wf ∧ up.released = true ∧ unpowered.wf ∧ unpowered.released = true ∧
    (let u := flowed up
     u.domOn 24 = true ∧ u.domOn 25 = true ∧ u.domOn 26 = true ∧ u.set.recent = false ∧ (u.ltxAt (7 / 4)).place = 0 ∧ u.floatServes = false ∧
     u.floatAtRx u.floatLane = false) ∧
    (let u := flowed unpowered
     u.domOn 24 = false ∧ u.domOn 25 = false) ∧
    (let u := flowed (setJust 16)
     u.set.recent = true ∧ 16 ≤ (u.slice (u.serving 2)).cyc ∧ 16 ≤ (u.ltxAt 0).since ∧ 16 ≤ (u.slice 8).cyc) ∧
    (let u := flowed (setJust 15)
     u.set.recent = true ∧ ¬ 16 ≤ (u.slice (u.serving 2)).cyc ∧ ¬ 16 ≤ (u.ltxAt 0).since ∧ ¬ 16 ≤ (u.slice 8).cyc) ∧
    (flowed (up.setLtx 1 fun x => { x with place := 1 })).ltxAt (7 / 4) ≠ ⟨0, 0, 16, 16⟩ ∧
    (flowed (floatAt 5 0)).floatServes = true := by
  (try dsimp only); and_intros <;> decide +kernel

theorem test_hyp_ApplicationBoundaries_references :
    up.domOn 49 = true ∧ unpowered.domOn 49 = false ∧ (up.ltxAt 0).place = 0 ∧ ((up.setLtx 0 fun x => { x with place := 1 }).ltxAt 0).place ≠ 0 ∧
    (up.ltxAt 0).want = up.get (State.ltxRef 0) ∧ ((up.setLtx 0 fun x => { x with want := 3 }).ltxAt 0).want = 3 ∧ (3 : Nat) ≠ up.get (State.ltxRef 0) ∧
    up.ltx.length = 2 ∧ up.mode ≠ 11 ∧ (up.ltxAt 0).want ∉ pllHosts up.mode 0 up.fmt ∧ (∀ j ∈ pllHosts up.mode 0 up.fmt, up.refLane j = false) ∧
    (let s : State := { upWith [(Reg.MODE.CODE, [], 1), (Reg.HS_RX_STAT.CDR_LOCK, [3], 1)] with hlanes := up.hlanes.map fun h => { h with locked := true } }
     3 ∈ pllHosts s.mode 0 s.fmt ∧ s.refLane 3 = true ∧ (∀ j ∈ pllHosts s.mode 0 s.fmt, s.refLane j = true → 3 ≤ j) ∧
       ((s.setLtx 0 fun x => { x with want := 3 }).ltxAt 0).want = 3) := by
  (try dsimp only); and_intros <;> decide +kernel

/-! ## Witnesses: temperature, monitors and Trowel loops -/

/-- The tick in which sensor 11 publishes. -/
def publishingAt : State := up.th fun x => { x with tick := 13, round := 1, fresh := true }

theorem test_hyp_ThermalEvents_publish :
    up.wf ∧ up.running = true ∧ up.publishing = none ∧ publishingAt.publishing = some 11 ∧ publishingAt.running = true ∧ publishingAt.wf ∧
    publishingAt.broken 11 = false ∧ publishingAt.set.passed = none ∧ (-961 : Int) < -60 * 16 ∧ ¬ (-960 : Int) < -60 * 16 ∧ 175 * 16 < (2801 : Int) ∧
    ¬ 175 * 16 < (2800 : Int) := by
  and_intros <;> decide +kernel

/-- A difference at each end of the window, and one below it. -/
theorem test_hyp_ThermalEvents_window (n : Nat) :
    (∀ d ∈ [(Config.biasWindow n).1, (Config.biasWindow n).2], ¬ (d < (Config.biasWindow n).1 ∨ (Config.biasWindow n).2 < d)) ∧
    (Config.biasWindow n).1 - 1 < (Config.biasWindow n).1 := by
  simp only [Config.biasWindow, List.mem_cons, List.not_mem_nil, or_false, forall_eq_or_imp, forall_eq]
  omega

/-- Starts `l` due, with the thermal record as `f` changes it. -/
def warm (l : List (Nat × Nat)) (f : Thermal → Thermal) : State := { up.th f with due := l }

theorem test_hyp_ThermalEvents :
    (warm [] id).wf ∧ (warm [] id).released = true ∧ (warm [] id).armed dueThr 0 = false ∧ (warm [(dueThr, 0)] id).armed dueThr 0 = true ∧
    (warm [(dueThr, 0)] id).thm.pendLevel = none ∧ (warm [(dueThr, 0)] fun x => { x with pendLevel := some 2 }).thm.pendLevel = some 2 ∧
    (warm [(dueThr, 0)] fun x => { x with pendLevel := some 2 }).mig.held = false ∧
    ({ warm [(dueThr, 0)] fun x => { x with pendLevel := some 2 } with mig := { Mig.idle with held := true } } : State).wf ∧
    (∀ n < 9, (warm [(dueBand, 0)] fun x => { x with pendBands := List.replicate 9 3 }).thm.pendBands.getD n 0 < 4) ∧
    (warm [(dueBand, 0)] fun x => { x with pendBands := List.replicate 9 3 }).armed dueBand 0 = true ∧
    3 ≠ ((warm [(dueBand, 0)] id).cal 8).band ∧ (warm [] id).sliceFree 8 = true ∧ (floatAt 5 0).sliceFree 8 = false ∧
    up.broken 11 = false ∧ up.pwr.shutdown = false ∧ ({ up with pwr := { up.pwr with shutdown := true } } : State).pwr.shutdown = true ∧
    ({ up with pwr := { up.pwr with shutdown := true } } : State).wf := by
  and_intros <;> decide +kernel

/-- A calibration start of slice 7 due. -/
def fcal (l : List (FRef × List Nat × Nat)) : State := { upWith l with due := [(State.dueFcal, 7)] }

theorem test_hyp_ThermalEvents_fcal :
    (fcal []).wf ∧ (fcal []).released = true ∧ (fcal []).armed State.dueFcal 7 = true ∧ (fcal []).slicePowered 7 = true ∧ (fcal []).inputIdle 7 = true ∧
    (fcal []).phase = phIDLE ∧ (fcal []).retired 7 = false ∧ (fcal []).get Reg.RX_STAT.NOISE_BUSY [7] = 0 ∧ ((fcal []).cal 7).run = false ∧
    (fcal [(Reg.RX_STAT.NOISE_BUSY, [7], 1)]).get Reg.RX_STAT.NOISE_BUSY [7] = 1 ∧ (fcal [(Reg.THM_STAT.THR_LEVEL, [], 3)]).get Reg.THM_STAT.THR_LEVEL = 3 := by
  and_intros <;> decide +kernel

/-- A calibration of slice `sl` whose last phase has ended. -/
def verified (sl : Nat) : State := (upWith [(Reg.FCAL_STAT.STATE, [sl], 5)]).setCal sl fun c => { c with run := true, left := 0 }

/-- What the phases find where every trim is `t` and every residual is small, or not. -/
def calFound (t : Int) (good : Bool) : CalMeas :=
  { off := List.replicate 64 t, gain := List.replicate 64 t, skew := List.replicate 64 t, bw := List.replicate 4 16
    res := (List.range 196).map fun i => if i < 192 ∧ i % 3 = 1 ∧ good then 8388608 else 0, spur := 0 }

theorem test_hyp_CalibrationEnd :
    (∀ sl ∈ [2, 8], ((verified sl).cal sl).run = true ∧ (verified sl).get Reg.FCAL_STAT.STATE [sl] = 5 ∧ ((verified sl).cal sl).left = 0 ∧
      (verified sl).released = true) ∧
    (verified 2).wf ∧ (verified 8).wf ∧ (up.cal 2).run = false ∧
    State.residualsBad (calFound 0 true).res = false ∧ State.residualsBad (calFound 0 false).res = true ∧
    State.trimsAtEnd 0 Trims.start = false ∧ State.trimsAtEnd 1 { Trims.start with off := List.replicate 64 31 } = true ∧
    (verified 8).get Reg.SKIM_STAT.SKEW_PEND [8] = 0 := by
  and_intros <;> decide +kernel

theorem test_hyp_Monitors :
    up.wf ∧ up.released = true ∧ up.domOn 46 = true ∧ up.get Reg.MON_STAT.NOCLK [3] = 0 ∧ up.monClock 3 = true ∧
    ((up.setMon 3 fun x => { x with restart := false }).mon 3).restart = false ∧ (up.get Reg.MON_STAT.SWAP_PEND [3]) = 0 ∧ up.use Reg.MON_CFG.MODE [3] = 0 ∧
    (let s := (upWith [(Reg.MON_STAT.HALF, [3], 1)]).setMon 3 fun x => { x with odd := true }
     s.get Reg.MON_STAT.HALF [3] = 1 ∧ (s.mon 3).odd = true) ∧ up.get Reg.MON_STAT.HALF [3] = 0 ∧
    (let s := (using_ up Reg.MON_CFG.M_CODE [3] 2).setMon 3 fun x => { x with restart := false, mcnt := 0 }
     (s.mon 3).restart = false ∧ (s.mon 3).mcnt + 1 < s.monM 3) ∧
    (spiUp []).mayWrite .spi (Reg.MON_MIX.addr [3]) ∧ bits (256 : BitVec 48).toNat 8 0 ≤ 256 ∧ 256 < bits (257 : BitVec 48).toNat 8 0 := by
  (try dsimp only); and_intros <;> first | decide +kernel | exact ⟨Reg.MON_MIX, [3], by decide +kernel⟩

/-- Bias output 15 with EN and SPAN as given. -/
def biasAt (en span : Nat) : State := upWith [(Reg.BDC_CFG.EN, [15], en), (Reg.BDC_CFG.SPAN, [15], span)]

theorem test_hyp_Housekeeping :
    ({ up with pwr := State.pwrReset } : State).domOn 47 = false ∧ up.domOn 47 = true ∧
    (let s := upWith [(Reg.HKA_SEQ.EN, [15], 1)]
     s.wf ∧ s.released = true ∧ s.get Reg.HKA_SEQ.EN [15] = 1 ∧ s.ticks % 2 ^ s.get Reg.HKA_SEQ.TPER [15] = 15 % 2 ^ s.get Reg.HKA_SEQ.TPER [15] ∧
     (s.hkaAcc 15).count ≤ s.get Reg.HKA_SEQ.REPEAT [15] ∧ s.hka.used + (12 * (s.get Reg.HKA_SEQ.TSAMP [15] + 1) + 12) ≤ 240 ∧
     ∀ j < 15, s.get Reg.HKA_SEQ.EN [j] = 0) ∧
    (∀ en < 2, ∀ span < 4, (biasAt en span).get Reg.BDC_CFG.EN [15] = en ∧ (biasAt en span).get Reg.BDC_CFG.SPAN [15] = span) := by
  (try dsimp only); and_intros <;> decide +kernel

/-- Loop 15 in state `st`, at tick 8, with its record as `f` changes it and its starts due. -/
def loopAt (st : Nat) (d : List (Nat × Nat)) (l : List (FRef × List Nat × Nat)) (f : Loop → Loop) : State :=
  let s := upWith ([(Reg.TRW_STAT.STATE, [15], st), (Reg.SEQ_TICKNUM.TICKS, [], 8)] ++ l)
  { s with loops := upd s.loops 15 f, due := d }

theorem test_hyp_TrowelUpdates :
    (loopAt 2 [] [] id).wf ∧ (loopAt 2 [] [] id).released = true ∧ (loopAt 2 [] [] id).domOn 44 = true ∧ (loopAt 2 [] [] id).loopState 15 ≠ 0 ∧
    (loopAt 2 [] [] id).ticks % 2 ^ (loopAt 2 [] [] id).get Reg.TRW_CFG.PER [15] = (loopAt 2 [] [] id).get Reg.TRW_CFG.PHASE [15] % 2 ^ (loopAt 2 [] [] id).get Reg.TRW_CFG.PER [15] ∧
    ((loopAt 2 [] [] id).loop 15).lastTick ≠ some (loopAt 2 [] [] id).ticks ∧ ((loopAt 2 [] [] id).loop 15).x = none ∧
    ((loopAt 2 [] [] fun l => { l with x := some 7 }).loop 15).x = some 7 ∧ (loopAt 2 [] [] id).get Reg.TRW_CFG.NOTCH_EN [15] = 0 ∧
    (loopAt 2 [] [] id).get Reg.TRW_STAT.STIP_RUN [15] = 0 ∧ (loopAt 2 [] [(Reg.TRW_CFG.NOTCH_EN, [15], 1)] id).get Reg.TRW_CFG.NOTCH_EN [15] = 1 ∧
    (loopAt 2 [] [(Reg.TRW_OUT.DITH_EN, [15], 1)] id).get Reg.TRW_OUT.DITH_EN [15] = 1 ∧ ((loopAt 2 [] [] id).loop 15).lastHalf ≠ some 8 := by
  and_intros <;> decide +kernel

theorem test_hyp_TrowelStates :
    (loopAt 0 [(State.dueLoop, 15)] [(Reg.TRW_CMD.STATE, [15], 4)] id).wf ∧ (loopAt 0 [(State.dueLoop, 15)] [(Reg.TRW_CMD.STATE, [15], 4)] id).domOn 44 = true ∧
    (loopAt 0 [(State.dueLoop, 15)] [(Reg.TRW_CMD.STATE, [15], 4)] id).armed State.dueLoop 15 = true ∧
    (loopAt 0 [(State.dueLoop, 15)] [(Reg.TRW_CMD.STATE, [15], 4)] id).get Reg.TRW_CMD.STATE [15] = 4 ∧ (loopAt 0 [] [] id).armed State.dueLoop 15 = false ∧
    (4 : Nat) < 5 ∧ (loopAt 1 [] [(Reg.TRW_STAT.STIP_RUN, [15], 1)] id).get Reg.TRW_STAT.STIP_RUN [15] = 1 ∧
    ((loopAt 1 [] [] fun l => { l with auto := some (2, 7) }).loop 15).auto = some (2, 7) ∧ 7 < (loopAt 1 [] [] id).ticks ∧
    ((loopAt 2 [] [] fun l => { l with auto := some (4, 7) }).loop 15).auto = some (4, 7) ∧
    (loopAt 2 [] [(Reg.TRC_CTL.FRZ_ON_LOSS, [15], 1)] id).get Reg.TRC_CTL.FRZ_ON_LOSS [15] = 1 ∧ ((loopAt 1 [] [] id).loop 15).auto = none ∧
    (loopAt 3 [(State.dueStip, 15)] [(Reg.TRW_STIP.TYPE, [15], 4)] id).armed State.dueStip 15 = true ∧
    (loopAt 3 [(State.dueStip, 15)] [(Reg.TRW_STIP.TYPE, [15], 4)] id).get Reg.TRW_STIP.TYPE [15] = 4 ∧
    (loopAt 3 [(State.dueStip, 15)] [] id).loopState 15 = 3 ∧ (loopAt 0 [(State.dueStip, 15)] [] id).loopState 15 = 0 ∧
    (loopAt 3 [(State.dueStip, 15)] [(Reg.TRW_STIP.TYPE, [15], 0)] id).get Reg.TRW_STIP.TYPE [15] = 0 ∧
    (loopAt 3 [] [(Reg.TRW_SWP.FTW_END, [15], 5)] fun l => { l with ftwNow := 6 }).get Reg.TRW_SWP.FTW_END [15] <
      ((loopAt 3 [] [(Reg.TRW_SWP.FTW_END, [15], 5)] fun l => { l with ftwNow := 6 }).loop 15).ftwNow := by
  and_intros <;> decide +kernel

/-! ## Witnesses: capture -/

/-- The capture engine in state `st`, command `cmd` armed, with whatever fields are given. -/
def capAt (st cmd : Nat) (l : List (FRef × List Nat × Nat)) : State :=
  { upWith ([(Reg.CAP_STAT.STATE, [], st), (Reg.CAP_CMD.CMD, [], cmd)] ++ l) with due := [(State.dueCap, 0)] }

/-- One stream of 16 words. -/
def oneStream (pre : Nat) : List (FRef × List Nat × Nat) := [(Reg.CAP_STR_A.EN, [0], 1), (Reg.CAP_STR_A.LEN, [0], 16), (Reg.CAP_STR_B.PRE, [0], pre)]

theorem test_hyp_CaptureCommands :
    (capAt 0 1 []).wf ∧ (capAt 0 1 []).released = true ∧ ({ up with due := [] } : State).armed State.dueCap 0 = false ∧ (capAt 0 1 []).domOn 45 = true ∧
    (capAt 0 1 []).armed State.dueCap 0 = true ∧ ([0, 1, 2, 3, 4, 5].all fun n => (capAt 0 n []).get Reg.CAP_CMD.CMD = n) = true ∧ (capAt 1 1 []).capState ≠ 0 ∧
    (capAt 0 1 (oneStream 15)).armFails = [] ∧ (capAt 0 1 (oneStream 16)).armFails = [2] ∧ (capAt 0 1 []).armFails = [4] ∧
    1 < ((capAt 0 1 (oneStream 16)).put Reg.THM_STAT.THR_LEVEL 3).armFails.length ∧ (capAt 4 2 []).capState = 4 ∧ 4 < (capAt 5 2 []).capState ∧
    (capAt 6 3 [(Reg.CAP_STAT.UNRELEASED, [], 1)]).get Reg.CAP_STAT.UNRELEASED = 1 ∧ (capAt 6 3 []).cap.rearm = none ∧
    1 - 1 < (capAt 6 3 []).get Reg.CAP_CFG.NSEG_CODE + 1 ∧ (capAt 6 3 []).get Reg.CAP_STAT.UNRELEASED = 0 ∧
    (∀ s ∈ [capAt 0 5 []], 5 * ((s.getS Reg.CAP_SCHED_SEC.SEC * sec16 + s.get Reg.CAP_SCHED_NS.NS) * 2 ^ 24 - s.time40) < fiveTicks40) ∧
    (∀ s ∈ [capAt 0 5 [(Reg.CAP_SCHED_SEC.SEC, [], 1)]], ¬ 5 * ((s.getS Reg.CAP_SCHED_SEC.SEC * sec16 + s.get Reg.CAP_SCHED_NS.NS) * 2 ^ 24 - s.time40) < fiveTicks40) := by
  and_intros <;> decide +kernel

theorem test_hyp_CaptureCommands_time :
    (capAt 0 0 [(Reg.CAP_ARMED_SEC.ARMED, [], 1)]).get Reg.CAP_ARMED_SEC.ARMED = 1 ∧
    (capAt 0 0 [(Reg.CAP_ARMED_SEC.ARMED, [], 1)]).getS Reg.CAP_ARMED_SEC.SEC * sec16 + (capAt 0 0 []).get Reg.CAP_ARMED_NS.NS ≤ (capAt 0 0 []).timeAt 0 ∧
    (capAt 5 0 []).capState = 5 ∧ ((capAt 5 0 []).cp fun e => { e with rearm := some 0 }).cap.rearm = some 0 ∧ (0 : Nat) ≤ (capAt 5 0 []).thm.tick ∧
    (capAt 7 0 []).capState = 7 ∧ (capAt 7 0 []).get Reg.THM_STAT.THR_LEVEL < 3 ∧
    (capAt 7 0 []).get Reg.CAP_STAT.UNRELEASED < (capAt 7 0 []).get Reg.CAP_CFG.NSEG_CODE + 1 ∧
    ¬ (capAt 7 0 [(Reg.CAP_STAT.UNRELEASED, [], 1)]).get Reg.CAP_STAT.UNRELEASED < (capAt 7 0 []).get Reg.CAP_CFG.NSEG_CODE + 1 := by
  and_intros <;> decide +kernel

/-- A cycle without items. -/
def quietCycle : CapCycle := ⟨0, [none, none, none, none], ⟨0, 0⟩⟩

/-- The engine READY with its Stencil in a state that goes on every cycle after `n` counts, or after `m` cycles. -/
def stencil (n m : Nat) : State := (capAt 2 0 ([(Reg.ST_CNT.CNT_LIM, [0], n), (Reg.ST_TMR.TMR_LIM, [0], m), (Reg.ST_CTL.MODE, [0], 0), (Reg.ST_EVLO.EVENTS, [0], 2)] ++ oneStream 15)).cp
  fun e => { e with pulses := 2 }

theorem test_hyp_CaptureCycles :
    (stencil 1 0).wf ∧ (stencil 1 0).released = true ∧ (stencil 1 0).capRuns = true ∧ (capAt 0 0 []).capRuns = false ∧
    (let s := (upWith [(Reg.THM_STAT.THR_LEVEL, [], 1)]).cp fun e => { e with odd := true }
     1 ≤ s.get Reg.THM_STAT.THR_LEVEL ∧ s.cap.odd = true) ∧ up.get Reg.THM_STAT.THR_LEVEL = 0 ∧
    ((capAt 1 0 (oneStream 0)).capItems quietCycle).capState = 1 ∧ ((capAt 1 0 (oneStream 0)).capItems quietCycle).prefilled = true ∧
    ((capAt 2 0 (oneStream 0)).capItems quietCycle).capState ≠ 1 ∧
    ((capAt 3 0 []).cp fun e => { e with pend := some 0 }).pendDue quietCycle = true := by
  (try dsimp only); and_intros <;> decide +kernel

theorem test_hyp_CaptureCycles_stencil :
    (stencil 1 0).get Reg.ST_EVLO.EVENTS [0] = 2 ∧ (stencil 1 0).get Reg.ST_CTL.MODE [0] = 0 ∧ ((2 : BitVec 64) &&& BitVec.ofNat 64 2).toNat ≠ 0 ∧
    ((0 : BitVec 64) &&& BitVec.ofNat 64 2).toNat = 0 ∧ (capAt 2 0 [(Reg.ST_CTL.MODE, [0], 1)]).get Reg.ST_CTL.MODE [0] = 1 ∧
    (capAt 2 0 [(Reg.ST_CTL.CONSEC, [0], 1)]).get Reg.ST_CTL.CONSEC [0] = 1 ∧ (stencil 1 0).get Reg.ST_CTL.CONSEC [0] = 0 ∧
    (stencil 1 0).capState = 2 ∧ (stencil 1 0).get Reg.CAP_CFG.DIST = 0 ∧ (capAt 2 0 [(Reg.CAP_CFG.DIST, [], 1)]).get Reg.CAP_CFG.DIST = 1 ∧
    (capAt 3 0 []).capState = 3 ∧ (capAt 6 0 []).capState = 6 ∧ (7 : Nat) < 8 ∧ (stencil 1 0).get Reg.CAP_CFG.RING = 0 := by
  and_intros <;> decide +kernel

/-! ## Witnesses: the command channels -/

/-- An image runs, and firmware holds a command of channel 7 at stage `stage`, with the fields given. -/
def holding (op : Nat) (op1 : Word) (stage : Nat) (l : List (FRef × List Nat × Nat)) (f : HostCmd → HostCmd := id) : State :=
  let s := upWith l
  { s with cmds := upd s.cmds 7 fun _ => some (f ⟨op, 9, 0, op1, 0, 0, stage, 0, 1, 0⟩), seq := { s.seq with imageRuns := true } }

/-- The command that firmware holds there. -/
def heldCmd (op : Nat) (op1 : Word) (stage : Nat) : HostCmd := ⟨op, 9, 0, op1, 0, 0, stage, 0, 1, 0⟩

theorem test_serves_held (s : State) (h : HostCmd) (r : s.released = true) (f : s.fwRuns = true) (c : s.cmdAt 7 = some h) : s.serves 7 h s :=
  ⟨r, f, .inl ⟨c, rfl⟩⟩

/-- Channel 7, with a command of opcode `op` waiting in its ring. -/
def waitingCmd (op : Nat) (runs : Bool) : State :=
  let s := spiUp [(Reg.RNG_CFG.TYPE, [14], 1), (Reg.RNG_CFG.PROD, [14], 1), (Reg.RNG_CFG.CONS, [14], 3), (Reg.RNG_CFG.SIZE_EXP, [14], 4),
    (Reg.RNG_CFG.BASE, [14], 4096), (Reg.RNG_PI.INDEX, [14], 1), (Reg.RNG_CFG.TYPE, [15], 2), (Reg.RNG_CFG.PROD, [15], 3),
    (Reg.RNG_CFG.CONS, [15], 1), (Reg.RNG_CFG.SIZE_EXP, [15], 4), (Reg.RNG_CFG.BASE, [15], 8192)]
  { s with seq := { s.seq with imageRuns := runs } }.setCell memRING (s.ringWord 14 0) (Cell.of (BitVec.ofNat 48 (2 ^ 44 + 5 * 2 ^ 20 + op * 2 ^ 12)))

theorem test_hyp_HostCommandsAtOnce :
    State.reset.wf ∧ State.reset.released = false ∧ ({ up with seq := { up.seq with halted := true } } : State).fwRuns = false ∧ up.wf ∧
    (holding 3 0 0 []).wf ∧ (holding 3 0 0 []).cmdAt 7 = some (heldCmd 3 0 0) ∧ (heldCmd 3 0 0).opcode ≠ 1 ∧ up.cmdAt 7 = none ∧ up.cmdWaits 7 = false ∧
    (waitingCmd 3 false).wf ∧ (waitingCmd 3 false).released = true ∧ (waitingCmd 3 false).fwRuns = true ∧ (waitingCmd 3 false).cmdAt 7 = none ∧
    (waitingCmd 3 false).cmdWaits 7 = true ∧ ((waitingCmd 3 false).headCmd 7).opcode = 3 ∧ ((waitingCmd 3 false).headCmd 7).tag = 5 ∧
    ((waitingCmd 3 false).pastCmd 7).seq.imageRuns = false := by
  and_intros <;> decide +kernel

theorem test_hyp_HostCommandsAtOnce_taken :
    (waitingCmd 200 true).wf ∧ (waitingCmd 200 true).serves 7 ((waitingCmd 200 true).headCmd 7)
      (((waitingCmd 200 true).pastCmd 7).setCmd 7 (some ((waitingCmd 200 true).headCmd 7))) ∧ 128 ≤ ((waitingCmd 200 true).headCmd 7).opcode :=
  ⟨by decide +kernel, ⟨by decide +kernel, by decide +kernel, .inr ⟨by decide +kernel, by decide +kernel, rfl, rfl, .inl (by decide +kernel)⟩⟩, by decide +kernel⟩

/-- REG_READ of a staged register of the undercoat whose home is poisoned. -/
def poisonRead : State := { holding 2 (BitVec.ofNat 48 (0x800000 + Reg.MODE.base)) 0 [] with set := { up.set with poison := [Reg.MODE.base] } }

theorem test_hyp_HostCommandsAtOnce_served :
    (holding 1 0 0 []).serves 7 (heldCmd 1 0 0) (holding 1 0 0 []) ∧ (holding 0 0 0 []).serves 7 (heldCmd 0 0 0) (holding 0 0 0 []) ∧
    (holding 127 0 0 []).serves 7 (heldCmd 127 0 0) (holding 127 0 0 []) ∧ (holding 255 0 0 []).serves 7 (heldCmd 255 0 0) (holding 255 0 0 []) ∧
    (holding 2 0xFFFFFF 0 []).serves 7 (heldCmd 2 0xFFFFFF 0) (holding 2 0xFFFFFF 0 []) ∧
    ((((holding 2 0xFFFFFF 0 []).pmc 0x10).portRead .quaran 0xFFFFFF 0).2.1 ≠ psPOISON) ∧
    poisonRead.serves 7 (heldCmd 2 (BitVec.ofNat 48 (0x800000 + Reg.MODE.base)) 0) poisonRead ∧
    (((poisonRead.pmc 0x10).portRead .quaran (0x800000 + Reg.MODE.base) 0).2.1 = psPOISON) ∧
    (holding 14 5 0 []).serves 7 (heldCmd 14 5 0) (holding 14 5 0 []) ∧ (holding 14 6 0 []).serves 7 (heldCmd 14 6 0) (holding 14 6 0 []) ∧
    (holding 13 1 0 []).serves 7 (heldCmd 13 1 0) (holding 13 1 0 []) ∧ (holding 13 1 0 []).get (State.imgResult 1) = 1 ∧
    (holding 13 0 0 [(Reg.SEC_IMGA.RESULT, [], 0), (Reg.SEC_ARB.LEVEL, [], 3), (Reg.SEC_IMGA.LEVEL, [], 2)]).get (State.imgResult 0) = irOK ∧
    (holding 13 0 0 [(Reg.SEC_IMGA.RESULT, [], 0), (Reg.SEC_ARB.LEVEL, [], 3), (Reg.SEC_IMGA.LEVEL, [], 2)]).get (State.imgLevel 0) <
      (holding 13 0 0 [(Reg.SEC_IMGA.RESULT, [], 0), (Reg.SEC_ARB.LEVEL, [], 3), (Reg.SEC_IMGA.LEVEL, [], 2)]).get Reg.SEC_ARB.LEVEL ∧
    (holding 13 0 0 [(Reg.SEC_IMGA.RESULT, [], 0), (Reg.SEC_ARB.LEVEL, [], 3), (Reg.SEC_IMGA.LEVEL, [], 3)]).get Reg.SEC_ARB.LEVEL ≤
      (holding 13 0 0 [(Reg.SEC_IMGA.RESULT, [], 0), (Reg.SEC_ARB.LEVEL, [], 3), (Reg.SEC_IMGA.LEVEL, [], 3)]).get (State.imgLevel 0) := by
  and_intros <;> first | decide +kernel | (refine test_serves_held _ _ ?_ ?_ ?_ <;> decide +kernel)

/-- A check that stops another. -/
def checkingToo (s : State) : State := { s with set := { s.set with check := some (chk [] 0) } }

theorem test_hyp_HostCommandsThatWait_sets :
    (holding 3 0 0 []).serves 7 (heldCmd 3 0 0) (holding 3 0 0 []) ∧ (holding 3 0 1 []).serves 7 (heldCmd 3 0 1) (holding 3 0 1 []) ∧
    (holding 3 0 1 []).wf ∧ (holding 3 0 0 []).mayCheck 0 = true ∧ (checkingToo (holding 3 0 0 [])).mayCheck 0 = false ∧
    (checkingToo (holding 3 0 0 [])).serves 7 (heldCmd 3 0 0) (checkingToo (holding 3 0 0 [])) ∧ (checkingToo (holding 3 0 0 [])).wf ∧
    (holding 3 0 1 [(Reg.SET_STATUS.CHECK, [], 1), (Reg.SET_STATUS.STATE, [], 4)]).get Reg.SET_STATUS.CHECK = (heldCmd 3 0 1).num % 1024 ∧
    (holding 3 0 1 [(Reg.SET_STATUS.CHECK, [], 1), (Reg.SET_STATUS.STATE, [], 4)]).get Reg.SET_STATUS.STATE = 4 ∧
    (holding 3 0 1 []).get Reg.SET_STATUS.STATE ≠ 4 ∧ 32768 ≤ ((holding 3 0 1 []).get Reg.SET_APPLIED.CHECK + 65536 - (heldCmd 3 0 1).num) % 65536 ∧
    ((holding 3 0 1 [(Reg.SET_APPLIED.CHECK, [], 1)]).get Reg.SET_APPLIED.CHECK + 65536 - (heldCmd 3 0 1).num) % 65536 < 32768 ∧
    (holding 6 (3 * 65536) 0 []).serves 7 (heldCmd 6 (3 * 65536) 0) (holding 6 (3 * 65536) 0 []) ∧ (holding 6 256 0 []).is1608 = false ∧
    ({ holding 6 256 0 [] with part := { up.part with variant := 3 } } : State).is1608 = true ∧
    ({ holding 6 256 0 [] with part := { up.part with variant := 3 } } : State).wf ∧
    ({ holding 6 256 0 [] with part := { up.part with variant := 3 } } : State).serves 7 (heldCmd 6 256 0) { holding 6 256 0 [] with part := { up.part with variant := 3 } } ∧
    (holding 6 0x1FFFF 0 []).serves 7 (heldCmd 6 0x1FFFF 0) (holding 6 0x1FFFF 0 []) := by
  and_intros <;> first | decide +kernel | (refine test_serves_held _ _ ?_ ?_ ?_ <;> decide +kernel)

theorem test_hyp_HostCommandsThatWait_journal :
    let s (op : Nat) (stage : Nat) (l : List (FRef × List Nat × Nat)) := holding op 0x1D stage l
    let h (op : Nat) (stage : Nat) := heldCmd op 0x1D stage
    (s 4 0 []).serves 7 (h 4 0) (s 4 0 []) ∧ (s 4 0 []).isT = true ∧ 0x1D % 16 < 14 ∧ (s 4 0 []).get Reg.JNL_STAT.STATE = 0 ∧
    (s 5 0 []).serves 7 (h 5 0) (s 5 0 []) ∧
    (s 4 0 [(Reg.JNL_STAT.STATE, [], 1)]).serves 7 (h 4 0) (s 4 0 [(Reg.JNL_STAT.STATE, [], 1)]) ∧ (s 4 0 [(Reg.JNL_STAT.STATE, [], 1)]).wf ∧
    (s 4 1 [(Reg.JNL_STAT.STATE, [], 1)]).serves 7 (h 4 1) (s 4 1 [(Reg.JNL_STAT.STATE, [], 1)]) ∧
    (s 4 1 [(Reg.JNL_STAT.STATE, [], 1)]).get Reg.JNL_STAT.BUSY = 0 ∧ (s 4 1 [(Reg.JNL_STAT.STATE, [], 1)]).set.check = none ∧
    (s 4 1 [(Reg.JNL_STAT.STATE, [], 1)]).set.passed = none ∧
    (s 5 2 [(Reg.JNL_STAT.STATE, [], 1), (Reg.SET_STATUS.STATE, [], 4)]).serves 7 (h 5 2) (s 5 2 [(Reg.JNL_STAT.STATE, [], 1), (Reg.SET_STATUS.STATE, [], 4)]) ∧
    (s 5 3 [(Reg.JNL_STAT.OUTCOME, [], 3)]).serves 7 (h 5 3) (s 5 3 [(Reg.JNL_STAT.OUTCOME, [], 3)]) ∧
    (s 5 2 [(Reg.JNL_STAT.OUTCOME, [], 1)]).serves 7 (h 5 2) (s 5 2 [(Reg.JNL_STAT.OUTCOME, [], 1)]) ∧ (s 5 2 [(Reg.JNL_STAT.OUTCOME, [], 1)]).get Reg.JNL_STAT.OUTCOME = 1 ∧
    (holding 4 14 0 []).serves 7 (heldCmd 4 14 0) (holding 4 14 0 []) ∧ ({ s 4 0 [] with part := { up.part with variant := 2 } } : State).isT = false ∧
    ({ s 4 0 [] with part := { up.part with variant := 2 } } : State).serves 7 (h 4 0) { s 4 0 [] with part := { up.part with variant := 2 } } ∧
    ({ s 4 0 [] with part := { up.part with variant := 2 } } : State).wf := by
  (try dsimp only); and_intros <;> first | decide +kernel | (refine test_serves_held _ _ ?_ ?_ ?_ <;> decide +kernel)

/-- A held command while a power request is open. -/
def asked (s : State) : State := { s with pwr := { s.pwr with req := (asking 0 id).pwr.req } }

theorem test_hyp_HostCommandsThatWait_power :
    (holding 7 1 0 []).serves 7 (heldCmd 7 1 0) (holding 7 1 0 []) ∧ (heldCmd 7 1 0).op1.getLsbD 0 = true ∧ (heldCmd 7 0 0).op1.getLsbD 0 = false ∧
    (holding 7 1 1 [(Reg.SET_APPLIED.CHECK, [], 1)]).serves 7 (heldCmd 7 1 1) (holding 7 1 1 [(Reg.SET_APPLIED.CHECK, [], 1)]) ∧
    (holding 7 1 3 []).serves 7 (heldCmd 7 1 3) (holding 7 1 3 []) ∧ (holding 7 1 3 []).pwr.req = none ∧ (holding 7 1 3 []).wf ∧
    (asked (holding 7 0 0 [])).wf ∧ (asked (holding 7 0 0 [])).serves 7 (heldCmd 7 0 0) (asked (holding 7 0 0 [])) ∧ (asked (holding 7 0 0 [])).pwr.req.isSome = true ∧
    (holding 7 0 0 []).serves 7 (heldCmd 7 0 0) (holding 7 0 0 []) ∧ (holding 7 0 1 []).serves 7 (heldCmd 7 0 1) (holding 7 0 1 []) ∧
    (holding 7 0 1 []).get Reg.PWR_STAT.RESULT = 0 ∧ (holding 7 0 1 [(Reg.PWR_STAT.RESULT, [], 2)]).get Reg.PWR_STAT.RESULT ≠ 0 ∧
    (holding 7 0 1 [(Reg.PWR_STAT.RESULT, [], 2)]).serves 7 (heldCmd 7 0 1) (holding 7 0 1 [(Reg.PWR_STAT.RESULT, [], 2)]) ∧
    (holding 7 0 3 [(Reg.PWR_STAT.RESULT, [], 2)]).serves 7 (heldCmd 7 0 3) (holding 7 0 3 [(Reg.PWR_STAT.RESULT, [], 2)]) ∧
    (holding 7 0 3 []).serves 7 (heldCmd 7 0 3) (holding 7 0 3 []) ∧ (holding 7 0 3 []).mayCheck 0 = true ∧
    (holding 7 0 5 []).serves 7 (heldCmd 7 0 5) (holding 7 0 5 []) := by
  and_intros <;> first | decide +kernel | (refine test_serves_held _ _ ?_ ?_ ?_ <;> decide +kernel)

theorem test_hyp_HostCommandsThatWait_blocks :
    (holding 8 0x71 0 []).serves 7 (heldCmd 8 0x71 0) (holding 8 0x71 0 []) ∧ (holding 8 0x71 2 []).serves 7 (heldCmd 8 0x71 2) (holding 8 0x71 2 []) ∧
    (holding 8 0x71 2 []).get Reg.MIG_STAT.SEQ_DONE = (heldCmd 8 0x71 2).note.toNat ∧
    (holding 8 0x71 2 [(Reg.MIG_STAT.SEQ_DONE, [], 9)]).serves 7 (heldCmd 8 0x71 2) (holding 8 0x71 2 [(Reg.MIG_STAT.SEQ_DONE, [], 9)]) ∧
    (holding 8 0x71 2 [(Reg.MIG_STAT.SEQ_DONE, [], 9)]).get Reg.MIG_STAT.SEQ_DONE ≠ (heldCmd 8 0x71 2).note.toNat ∧
    (holding 9 4 0 []).serves 7 (heldCmd 9 4 0) (holding 9 4 0 []) ∧ (heldCmd 9 4 0).op1.toNat % 16 < 5 ∧ 5 ≤ (heldCmd 9 5 0).op1.toNat % 16 ∧
    (holding 9 5 0 []).serves 7 (heldCmd 9 5 0) (holding 9 5 0 []) ∧
    (holding 10 0x5F 0 []).serves 7 (heldCmd 10 0x5F 0) (holding 10 0x5F 0 []) ∧ 5 ≤ (heldCmd 10 0x5F 0).op1.toNat / 16 % 8 ∧
    (holding 10 0x4F 0 []).serves 7 (heldCmd 10 0x4F 0) (holding 10 0x4F 0 []) ∧ (holding 10 0x4F 2 []).serves 7 (heldCmd 10 0x4F 2) (holding 10 0x4F 2 []) ∧
    (holding 10 0x4F 2 []).loopState 15 ≠ 4 ∧ (holding 10 0x4F 2 [(Reg.TRW_STAT.STATE, [15], 4)]).loopState 15 = 4 ∧
    (holding 11 0 0 []).serves 7 (heldCmd 11 0 0) (holding 11 0 0 []) ∧ (holding 11 0 2 []).serves 7 (heldCmd 11 0 2) (holding 11 0 2 []) ∧
    (holding 11 0 2 []).armed State.dueCap 0 = false ∧ ({ holding 11 0 2 [] with due := [(State.dueCap, 0)] } : State).armed State.dueCap 0 = true ∧
    (holding 11 0 2 [(Reg.CAP_STAT.ARM_RESULT, [], 1)]).get Reg.CAP_STAT.ARM_RESULT ≠ 0 ∧
    (holding 11 0 4 [] fun h => { h with op3 := 5 }).serves 7 { heldCmd 11 0 4 with op3 := 5 } (holding 11 0 4 [] fun h => { h with op3 := 5 }) ∧
    (holding 11 0 3 [] fun h => { h with op3 := 5 }).serves 7 { heldCmd 11 0 3 with op3 := 5 } (holding 11 0 3 [] fun h => { h with op3 := 5 }) := by
  and_intros <;> first | decide +kernel | (refine test_serves_held _ _ ?_ ?_ ?_ <;> decide +kernel)

theorem test_hyp_HostCommandsThatWait_images :
    (holding 12 0 0 []).serves 7 (heldCmd 12 0 0) (holding 12 0 0 []) ∧ (holding 12 0 1 []).serves 7 (heldCmd 12 0 1) (holding 12 0 1 []) ∧
    (((holding 12 0 0 []).fwWrite Reg.SEQ_SWAP.base (BitVec.ofNat 48 ((holding 12 0 0 []).get Reg.SEQ_SWAP.TRIAL + 16))).get Reg.SEQ_SWAP.STATE = 0) ∧
    (holding 12 0 1 [(Reg.SEQ_SWAP.STATE, [], 2)]).get Reg.SEQ_SWAP.STATE = 2 ∧
    (let s := holding 12 0 0 [(Reg.SEQ_SWAP.STATE, [], 1)]
     s.serves 7 (heldCmd 12 0 0) s ∧ (s.fwWrite Reg.SEQ_SWAP.base (BitVec.ofNat 48 (s.get Reg.SEQ_SWAP.TRIAL + 16))).get Reg.SEQ_SWAP.STATE = 1) ∧
    (holding 15 0 0 []).serves 7 (heldCmd 15 0 0) (holding 15 0 0 []) ∧
    (holding 15 0 1 [(Reg.JNL_STAT.STATE, [], 1)]).serves 7 (heldCmd 15 0 1) (holding 15 0 1 [(Reg.JNL_STAT.STATE, [], 1)]) ∧
    (holding 15 0 0 [(Reg.JNL_STAT.STATE, [], 1)]).serves 7 (heldCmd 15 0 0) (holding 15 0 0 [(Reg.JNL_STAT.STATE, [], 1)]) := by
  (try dsimp only); and_intros <;> first | decide +kernel | (refine test_serves_held _ _ ?_ ?_ ?_ <;> decide +kernel)
/-- An empty plan of one step stands in RB3, and firmware holds PROFILE. -/
def planStands : State := (holding 5 0 0 []).setCell 10 16 (Cell.of (BitVec.ofNat 48 (2 ^ 47)))

set_option maxRecDepth 200000 in
theorem test_hyp_HostCommandsThatWait_opened :
    planStands.wf ∧ planStands.serves 7 (heldCmd 5 0 0) planStands ∧ planStands.get Reg.JNL_STAT.STATE = 0 ∧
    ((planStands.writePlan [[]]).fwWrite Reg.JNL_CTL.base (State.jnlWord 1 9 0 1)).get Reg.JNL_STAT.STATE ≠ 0 := by
  exact ⟨by decide +kernel, test_serves_held _ _ (by decide +kernel) (by decide +kernel) (by decide +kernel), by decide +kernel, by decide +kernel⟩

/-! ## Witnesses: the protected memories -/

/-- The scrubber about to visit page `p` of memory `m`, with the domains given off. -/
def scrubAt (m p : Nat) (off : List Nat) : State :=
  let s := upWith [(Reg.MEM_CFG.SCRUB_EN, [], 1)]
  { s with mem := { s.mem with scrubMem := m, scrubPage := p }
           pwr := { s.pwr with on := BitVec.ofNat 57 (off.foldl (fun n d => n - 2 ^ d) (2 ^ 57 - 1)) } }

theorem test_hyp_MemoryProtection_use :
    up.wf ∧ (12 : Nat) < 13 ∧ 12 ≠ memCOEF ∧ 65535 < memWords 12 ∧ (up.cell 12 65535).syndrome = 0 ∧ (up.cell 2 1048575).syndrome = 0 ∧
    1048575 < memWords 2 ∧ up.poisoned 2 1048575 = false ∧ (up.setPoison 2 1048575 true).poisoned 2 1048575 = true ∧ (up.setPoison 2 1048575 true).wf ∧
    ((up.setPoison 2 1048575 true).cell 2 1048575).syndrome = 0 := by
  and_intros <;> decide +kernel

theorem test_hyp_MemoryProtection_scrub :
    (upWith [(Reg.MEM_CFG.SCRUB_EN, [], 0)]).wf ∧ (upWith [(Reg.MEM_CFG.SCRUB_EN, [], 0)]).get Reg.MEM_CFG.SCRUB_EN = 0 ∧
    (scrubAt 12 0 [44]).wf ∧ (scrubAt 12 0 [44]).released = true ∧ (scrubAt 12 0 [44]).get Reg.MEM_CFG.SCRUB_EN = 1 ∧
    (∀ m, (scrubAt 12 0 [44]).mem.scrubMem ≤ m → m < 13 → (scrubAt 12 0 [44]).domOn (memDom m) = false) ∧
    (scrubAt 11 255 []).wf ∧ (scrubAt 11 255 []).domOn (memDom 11) = true ∧ (scrubAt 11 255 []).mem.scrubMem = 11 ∧ memWords 11 ≤ 64 * (255 + 1) ∧
    64 * (254 + 1) < memWords 11 ∧ (scrubAt 11 254 []).mem.scrubPage = 254 ∧
    (scrubAt 6 9 [45]).domOn (memDom 6) = false ∧ (scrubAt 6 9 [45]).domOn (memDom 7) = true ∧ (scrubAt 6 9 [45]).wf ∧
    (∀ k, (scrubAt 6 9 [45]).mem.scrubMem ≤ k → k < 7 → (scrubAt 6 9 [45]).domOn (memDom k) = false) ∧ State.reset.wf ∧ State.reset.released = false := by
  and_intros <;> first
    | decide +kernel
    | (intro m h1 h2; rw [show m = 12 from by have : 12 ≤ m := h1; omega]; decide +kernel)
    | (intro m h1 h2; rw [show m = 6 from by have : 6 ≤ m := h1; omega]; decide +kernel)

theorem test_hyp_MemoryProtection_access :
    (spiUp []).wf ∧ (spiUp []).mayWrite .spi Reg.MEM_TST_CTL.base ∧ 12 < (13 : BitVec 4).toNat ∧ (12 : BitVec 4).toNat ≤ 12 ∧
    memWords 12 ≤ (spiUp [(Reg.MEM_TST_ADDR.ADDR, [], 65536)]).get Reg.MEM_TST_ADDR.ADDR ∧
    (spiUp [(Reg.MEM_TST_ADDR.ADDR, [], 65535)]).get Reg.MEM_TST_ADDR.ADDR < memWords 12 ∧
    (spiUp [(Reg.MEM_TST_ADDR.ADDR, [], 65535)]).mayWrite .spi Reg.MEM_TST_CTL.base ∧ (spiUp []).mayWrite .spi Reg.MEM_LOG_POP.base ∧
    (spiUp []).mayWrite .spi Reg.MEM_LOCK.base ∧ (spiUp []).mayWrite .spi Reg.MEM_FRZ.base := by
  and_intros <;> first
    | decide +kernel | exact ⟨Reg.MEM_TST_CTL, [], by decide +kernel⟩ | exact ⟨Reg.MEM_LOG_POP, [], by decide +kernel⟩
    | exact ⟨Reg.MEM_LOCK, [], by decide +kernel⟩ | exact ⟨Reg.MEM_FRZ, [], by decide +kernel⟩

/-- Page 16,383 of memory 2 with check words 1 and 4, and map words as given, past correction. -/
def brokenPage (maps : List Cell) : State := up.setPage 2 16383 ⟨[⟨0, 0⟩, ⟨0, 3⟩, ⟨0, 0⟩, ⟨0, 0⟩, ⟨0, 3⟩], maps⟩

theorem test_hyp_MemoryProtection_pages :
    (∀ i, (up.page 2 16383).badMap i = false) ∧ (up.page 2 16383).badChecks = [] ∧ hasPage 2 = true ∧ 2 ≠ memCOEF ∧
    (brokenPage [⟨0, 0⟩, ⟨0, 0⟩]).wf ∧ ((brokenPage [⟨0, 0⟩, ⟨0, 0⟩]).page 2 16383).badChecks = [1, 4] ∧
    (brokenPage [⟨0, 3⟩, ⟨0, 3⟩]).wf ∧ ((brokenPage [⟨0, 3⟩, ⟨0, 3⟩]).page 2 16383).badMap (0 / 48) = true ∧
    ((brokenPage [⟨0, 3⟩, ⟨0, 3⟩]).page 2 16383).badMap (63 / 48) = true ∧ ((brokenPage [⟨0, 3⟩, ⟨0, 3⟩]).cell 2 (64 * 16383 + 63)).single = some 0 := by
  and_intros <;> first | decide +kernel | (rw [show up.page 2 16383 = Page.zero by decide +kernel]; intro i; match i with | 0 => rfl | 1 => rfl | n + 2 => simp [Page.badMap, Page.mapWord, Page.zero]; decide +kernel)

/-- The scrubber with `done` visits made `ticks` ticks into a sweep of period 8,192 ticks. -/
def scrubbed (done ticks : Nat) : State :=
  let s := upWith [(Reg.MEM_CFG.SCRUB_EN, [], 1), (Reg.MEM_CFG.SCRUB_PERIOD, [], 1)]
  { s with mem := { s.mem with scrubDone := done, scrubTicks := ticks } }

/-- Visit `n` is due at tick n · period / pages, not before, and not twice. -/
theorem test_hyp_MemoryProtection_due :
    (scrubbed 0 0).running = true ∧ (scrubbed 0 0).get Reg.MEM_CFG.SCRUB_PERIOD = 1 ∧ (scrubbed 3 1).wf ∧
    (let pages := (((List.range 13).filter fun m => (scrubbed 0 0).domOn (memDom m)).map fun m => memWords m / 64).sum
     1 * 8192 ≤ 8192 * pages ∧ 1 < pages ∧ ¬ pages * 8192 ≤ 8191 * pages ∧ ¬ pages < pages ∧ pages ≠ 0) := by
  (try dsimp only); and_intros <;> decide +kernel

/-! ## Witnesses: self-test, life cycle, images, boot and attestation -/

/-- Power-up self-test under way after the first tick, with slices 0 to `n` - 1 run and `pass` of them passed. -/
def testing (n pass : Nat) : State :=
  let s := State.reset.th fun t => { t with tick := 1 }
  let t := (List.range n).foldl (fun s i => s.put Reg.BST_SLICE.RUN 1 [i]) s
  (List.range pass).foldl (fun s i => s.put Reg.BST_SLICE.PASS 1 [i]) t

theorem test_hyp_SelfTestAndSecurity_slices :
    (testing 9 8).wf ∧ (testing 9 8).running = true ∧ (testing 9 8).bst = 0 ∧ (testing 9 8).thm.tick ≠ 0 ∧ (testing 9 8).get Reg.BST_SLICE.RUN [9] = 0 ∧
    (∀ i < 9, (testing 9 8).get Reg.BST_SLICE.RUN [i] = 1) ∧ (testing 9 8).get Reg.BST_SLICE.RUN [8] ≠ 0 ∧
    ((testing 9 8).testDomains 9 1).1 ≠ [] ∧ ((testing 9 8).testDomains 9 1).2 = 0 ∧ ((testing 9 8).testDomains 9 0).1 = [] ∧
    (testing 0 0).get Reg.BST_SLICE.RUN [0] = 0 ∧ ((testing 0 0).rbCheck.testDomains 0 1).2 ≠ 0 ∧ State.reset.thm.tick = 0 ∧
    (∀ i < 10, (testing 10 10).get Reg.BST_SLICE.RUN [i] = 1) ∧ (testing 10 10).domBarred 56 = false ∧ (testing 10 10).wf ∧
    (∀ i < 10, (testing 10 10).get Reg.BST_SLICE.PASS [i] = 1) ∧ (testing 10 9).get Reg.BST_SLICE.PASS [9] = 0 ∧
    (((testing 10 9).unusable 11).domBarred 11 = true) ∧ ((testing 10 9).unusable 11).wf := by
  and_intros <;> decide +kernel

/-- The residuals of a slice without error, and a calibration that leaves them but for entry `i`. -/
def noResiduals : List Int := (List.replicate 64 [0, 8388608, 0]).flatten ++ List.replicate 4 0
def leaves (i : Nat) (v : Int) : CalMeas := ⟨List.replicate 64 0, List.replicate 64 0, List.replicate 64 0, List.replicate 4 16, noResiduals.set i v, 0⟩

theorem test_hyp_SelfTestAndSecurity_findings :
    State.testFails 7 ⟨0, 56, 19999, List.replicate 8 (leaves 0 262144, leaves 0 262143) ++ [(leaves 0 (-262144), leaves 195 524288)], [], []⟩ = 2 ^ 8 ∧
    State.testFails 4 ⟨1, 56, 6000, [], [], []⟩ = 2 ^ 56 + 1 ∧ State.testFails 4 ⟨0, 56, 5999, [], [], []⟩ = 0 ∧
    (testing 0 0).testDomains 0 0 = ([], 0) ∧ State.residualsBad noResiduals = false ∧ State.subAdcBad (leaves 70 (8388608 + 167773)).res = 23 ∧
    State.residualsBad (leaves 70 (8388608 + 167772)).res = false := by
  and_intros <;> decide +kernel

/-- An in-service test asked for: TEST, TARGET and FIRST. -/
def serviceTest (test target first : Nat) : State :=
  { upWith [(Reg.BST_IS_CTL.TEST, [], test), (Reg.BST_IS_CTL.TARGET, [], target), (Reg.BST_IS_CTL.FIRST, [], first)] with due := [(State.dueIs, 0)] }

/-- One in progress, with `n` slices done and the result given. -/
def serviceRuns (test n r : Nat) : State :=
  { upWith [(Reg.BST_IS_CTL.TEST, [], test), (Reg.BST_IS_STAT.SLICES, [], n), (Reg.BST_IS_STAT.RESULT, [], r), (Reg.BST_IS_CTL.COUNT, [], 1)] with
    sec := { up.sec with isRun := true } }

theorem test_hyp_SelfTestAndSecurity_inService :
    (serviceTest 1 12 0).wf ∧ (serviceTest 1 12 0).released = true ∧ (serviceTest 1 12 0).armed State.dueIs 0 = true ∧
    (serviceTest 1 12 0).get Reg.BST_IS_CTL.TEST = 1 ∧ (serviceTest 1 12 0).get Reg.BST_IS_CTL.TARGET ≤ 12 ∧ (serviceTest 1 12 0).domOn (memDom 12) = true ∧
    (serviceTest 1 13 0).get Reg.BST_IS_CTL.TARGET = 13 ∧ (serviceTest 2 8 3).get Reg.BST_IS_CTL.TARGET + 16 * ((serviceTest 2 8 3).get Reg.BST_IS_CTL.FIRST % 4) = 56 ∧
    (serviceTest 2 9 3).get Reg.BST_IS_CTL.TARGET + 16 * ((serviceTest 2 9 3).get Reg.BST_IS_CTL.FIRST % 4) = 57 ∧ (serviceTest 2 9 3).wf ∧
    (serviceTest 2 15 2).domOn 47 = true ∧ (serviceTest 2 15 2).neededDomains.contains 47 = false ∧
    (serviceTest 3 8 0).slicePowered 8 = true ∧ (serviceTest 3 8 0).inputIdle 8 = true ∧ (serviceTest 3 9 0).get Reg.BST_IS_CTL.TARGET = 9 ∧
    up.armed State.dueIs 0 = false ∧ up.sec.isRun = false ∧ (serviceRuns 1 0 0).wf ∧ (serviceRuns 1 0 0).sec.isRun = true ∧
    (serviceRuns 1 4095 1).get Reg.BST_IS_STAT.SLICES = 4095 ∧ (serviceRuns 1 4095 1).get Reg.BST_IS_STAT.RESULT = 1 ∧ (serviceRuns 3 0 0).get Reg.BST_IS_CTL.TEST = 3 ∧
    (serviceRuns 1 0 0).get Reg.BST_IS_STAT.SLICES < (serviceRuns 1 0 0).get Reg.BST_IS_CTL.COUNT ∧ (serviceRuns 2 0 0).get Reg.BST_IS_CTL.TEST = 2 := by
  and_intros <;> decide +kernel

/-- SPI in life-cycle state `l`, with the security record as `f` changes it. -/
def lifeAt (l : Nat) (more : List (FRef × List Nat × Nat)) (f : Sec → Sec) : State :=
  let s := spiUp ([(Reg.LCS_STAT.STATE, [], l)] ++ more)
  { s with sec := f s.sec }

/-- An identity, a certificate chain and key slot 0 are there. -/
def provisionable : State := lifeAt 0 [(Reg.LCS_STAT.IDENTITY_PRESENT, [], 1)] fun x => { x with certBase := [1], keys := [⟨true, false, 0, 0⟩] }

theorem test_hyp_SelfTestAndSecurity_lifeCycle :
    provisionable.wf ∧ provisionable.mayWrite .spi Reg.LCS_CTL.base ∧ (0x960000000001 : Word).toNat / 2 ^ 40 = 0x96 ∧ (0x950000000001 : Word).toNat / 2 ^ 40 ≠ 0x96 ∧
    provisionable.lcs = 0 ∧ (0x960000000001 : Word).toNat % 8 = 1 ∧ (0x960000000002 : Word).toNat % 8 = 2 ∧
    (let u := provisionable.useFree
     u.get Reg.LCS_STAT.IDENTITY_PRESENT = 1 ∧ u.sec.certBase ≠ [] ∧ u.sec.keys.head? = some ⟨true, false, 0, 0⟩) ∧
    (lifeAt 0 [] fun x => { x with certBase := [] }).useFree.sec.certBase = [] ∧ (lifeAt 0 [] fun x => { x with certBase := [] }).mayWrite .spi Reg.LCS_CTL.base ∧
    (lifeAt 2 [] id).mayWrite .spi Reg.LCS_CTL.base ∧ (lifeAt 2 [] id).lcs = 2 ∧ (0x960000000003 : Word).toNat % 8 = 3 ∧
    (lifeAt 2 [] fun x => { x with keys := [] }).useFree.tokenValid = false ∧ (lifeAt 2 [] fun x => { x with keys := [] }).wf ∧
    (lifeAt 4 [] id).lcs = 4 ∧ (lifeAt 3 [] id).lcs = 3 ∧ (lifeAt 3 [] id).mayWrite .spi Reg.LCS_CTL.base ∧ (0x960000000004 : Word).toNat % 8 = 4 := by
  (try dsimp only); and_intros <;> first | decide +kernel | exact ⟨Reg.LCS_CTL, [], by decide +kernel⟩

/-- Programming verifies or not: which of the two a move meets is a free value (log entries 1 and 12), and so is whether the token is valid. -/
theorem test_hyp_SelfTestAndSecurity_programs (n : Nat) (s : State) : (s.useFree.tokenValid = true ∨ s.useFree.tokenValid = false) ∧
    (State.freeBits { lifeAt 3 [] id with free := n } 1 = 1 ∨ State.freeBits { lifeAt 3 [] id with free := n } 1 ≠ 1) := by
  constructor
  · cases s.useFree.tokenValid <;> simp
  · exact Classical.em _

/-- Slot `slot` has the image given; slot B runs where `b` says so. -/
def slots (a b : List (Nat × Word)) (l : List (FRef × List Nat × Nat)) (f : Sec → Sec) : State :=
  lifeAt 2 l fun x => f { x with imageA := a, imageB := b }

theorem test_hyp_SelfTestAndSecurity_images :
    (slots [] [] [] id).wf ∧ (slots [] [] [] id).mayWrite .spi Reg.SEC_LOAD_CTL.base ∧ (slots [] [] [] id).isRunning 1 = false ∧
    (imaged [] fun q => { q with slotB := true }).isRunning 1 = true ∧ (imaged [] fun q => { q with slotB := true }).mayWrite .spi Reg.SEC_LOAD_CTL.base ∧
    (slots [] [] [(Reg.SEQ_SWAP.STATE, [], 2)] id).get Reg.SEQ_SWAP.STATE = 2 ∧ (slots [] [] [(Reg.SEQ_SWAP.STATE, [], 2)] id).mayWrite .spi Reg.SEC_LOAD_CTL.base ∧
    (slots [] [] [] id).get Reg.SEQ_SWAP.STATE ≠ 2 ∧ ¬ (1 ∈ (slots [] [] [] id).sec.verifying) ∧
    (slots [] [] [] fun x => { x with loadSlot := some 1 }).mayWrite .spi Reg.SEC_LOAD_DATA.base ∧
    (slots [] [] [] fun x => { x with loadSlot := some 1 }).sec.loadSlot = some 1 ∧ (slots [] [] [] id).mayWrite .spi Reg.SEC_LOAD_DATA.base ∧
    (slots [] [] [] id).sec.loadSlot = none ∧ (slots [] [] [] fun x => { x with loadSlot := some 1 }).isRunning 1 = false ∧
    (imaged [] fun q => { q with slotB := true }).isRunning 1 = true ∧ { (imaged [] fun q => { q with slotB := true }) with sec := { up.sec with loadSlot := some 1 } }.wf ∧ (slots [] [] [] id).image 1 = [] ∧ (slots [] [] [] id).released = true ∧
    (slots [] [] [] fun x => { x with verifying := [1, 0] }).sec.verifying = 1 :: [0] ∧ (slots [] [] [] fun x => { x with verifying := [1] }).sec.verifying = 1 :: [] ∧
    (slots [] [] [] fun x => { x with verifying := [1] }).wf ∧ (slots [] [] [] id).sec.verifying = [] ∧
    (slots [] [] [] fun x => { x with verifying := [1] }).verifyImage 1 ≠ 0 ∧ (slots [] [] [] fun x => { x with booting := false }).sec.booting = false := by
  and_intros <;> first | decide +kernel | exact ⟨Reg.SEC_LOAD_CTL, [], by decide +kernel⟩ | exact ⟨Reg.SEC_LOAD_DATA, [], by decide +kernel⟩

/-- The same with the strap's boot source. -/
def bootFrom (s : State) (src : Nat) : State := { s with part := { s.part with strap := src * 8 } }

/-- A boot over the Scrim, begun at tick 0, at tick `n`, after `k` restarts. -/
def scrimBoot (n k : Nat) : State :=
  bootFrom (slots [] [] [(Reg.SEQ_TICKNUM.TICKS, [], n)] fun x => { x with booting := true, bootTick := some 0, bootRestarts := k }) 2

theorem test_hyp_SelfTestAndSecurity_boot :
    (bootFrom (slots [] [] [] id) 0).wf ∧ (bootFrom (slots [] [] [] id) 1).bootSrc ≠ 0 ∧ (bootFrom (slots [] [] [] id) 0).bootSrc = 0 ∧
    (bootFrom (slots [] [] [] fun x => { x with booting := true }) 0).sec.booting = true ∧ (bootFrom (slots [] [] [] id) 0).sec.imageA = [] ∧
    (bootFrom (slots [(0, 1)] [] [] id) 0).sec.imageA ≠ [] ∧ (bootFrom (slots [(0, 1)] [] [] id) 0).sec.imageB = [] ∧
    (bootFrom (slots [(0, 1)] [] [] id) 0).sec.verifying = [] ∧ (bootFrom (slots [(0, 1)] [] [] id) 0).isRunning 1 = false ∧
    (bootFrom (slots [(0, 1)] [(0, 1)] [] id) 0).sec.imageB ≠ [] ∧ (scrimBoot 262144 2).wf ∧ (scrimBoot 262144 2).released = true ∧
    (scrimBoot 262144 2).sec.bootTick = some 0 ∧ (scrimBoot 262144 2).bootSrc = 2 ∧ 0 + 262144 ≤ (scrimBoot 262144 2).ticks ∧
    (scrimBoot 262144 2).sec.bootRestarts < 3 ∧ 3 ≤ (scrimBoot 262144 3).sec.bootRestarts ∧ (scrimBoot 262143 2).ticks < 0 + 262144 ∧
    up.sec.bootTick = none ∧ State.reset.released = false ∧ State.reset.wf := by
  and_intros <;> decide +kernel

theorem test_hyp_SelfTestAndSecurity_levels :
    (slots [] [] [] id).mayWrite .spi Reg.SEC_ARB_ADV.base ∧ (imaged [(Reg.SEC_IMGA.LEVEL, [], 5)] id).mayWrite .spi Reg.SEC_ARB_ADV.base ∧
    (0x690000000005 : Word).toNat / 2 ^ 40 = 0x69 ∧ (imaged [(Reg.SEC_IMGA.LEVEL, [], 5)] id).seq.imageRuns = true ∧
    (0x690000000005 : Word).toNat % 128 ≤ (imaged [(Reg.SEC_IMGA.LEVEL, [], 5)] id).get (State.imgLevel (imaged [(Reg.SEC_IMGA.LEVEL, [], 5)] id).seq.slotB.toNat) ∧
    (imaged [] id).get (State.imgLevel (imaged [] id).seq.slotB.toNat) < (0x690000000005 : Word).toNat % 128 ∧
    (slots [] [] [] id).mayWrite .spi Reg.SEC_REVOKE.base ∧ (0x680000000003 : Word).toNat / 2 ^ 40 ≠ 0x69 ∧ (imaged [] id).wf ∧
    (lifeAt 0 [(Reg.SEC_CFG.ATT_EN, [], 1)] id).lcs ≠ 1 := by
  and_intros <;> first | decide +kernel | exact ⟨Reg.SEC_ARB_ADV, [], by decide +kernel⟩ | exact ⟨Reg.SEC_REVOKE, [], by decide +kernel⟩

/-- Attestation enabled in the field, with the security record as `f` changes it. -/
def attests (f : Sec → Sec) : State := slots [] [] [(Reg.SEC_CFG.ATT_EN, [], 1)] f

theorem test_hyp_SelfTestAndSecurity_attestation :
    (attests id).wf ∧ (attests id).mayWrite .spi Reg.SEC_ATT_CTL.base ∧ (attests fun x => { x with attesting := true }).sec.attesting = true ∧
    (attests fun x => { x with attesting := true }).mayWrite .spi Reg.SEC_ATT_CTL.base ∧ (attests id).sec.attesting = false ∧
    (slots [] [] [(Reg.SEC_CFG.ATT_EN, [], 0)] id).get Reg.SEC_CFG.ATT_EN ≠ 1 ∧ (slots [] [] [(Reg.SEC_CFG.ATT_EN, [], 0)] id).mayWrite .spi Reg.SEC_ATT_CTL.base ∧
    (attests id).get Reg.SEC_CFG.ATT_EN = 1 ∧ (attests id).lcs = 2 ∧ (attests id).sec.epoch = none ∧ (attests id).sec.epochs < 8192 ∧
    8192 ≤ (attests fun x => { x with epochs := 8192 }).sec.epochs ∧ (attests fun x => { x with epoch := some 1, leaves := 1024 }).sec.epoch.isSome = true ∧
    1024 ≤ (attests fun x => { x with epoch := some 1, leaves := 1024 }).sec.leaves ∧ (attests fun x => { x with epoch := some 1, leaves := 1023 }).sec.leaves < 1024 ∧
    (attests id).released = true ∧ (lifeAt 1 [] id).lcs ≠ 0 ∧ (lifeAt 1 [] id).lcs ≠ 3 := by
  and_intros <;> first | decide +kernel | exact ⟨Reg.SEC_ATT_CTL, [], by decide +kernel⟩

/-! ## Witnesses: the management interfaces and the register bus -/

/-- Self-test state `st` (0 running, 3 critical). -/
def tested (st : Nat) : State := State.reset.put Reg.BST_STAT.STATE st

/-- `m` frozen in a released device. -/
def frozenUp (m : Master) : State := upWith [(Reg.MEM_FRZ.FROZEN, [], 2 ^ m.code)]

theorem test_hyp_ManagementInterfaces_spi :
    up.wf ∧ up.answers = true ∧ ({ up with clk := { up.clk with held := true } } : State).answers = false ∧ (tested 0).wf ∧ (tested 0).answers = true ∧
    (tested 0).bst = 0 ∧ State.servedInTest 0x1FFFF = true ∧ State.servedInTest 0x30000 = false ∧ (tested 0).frozen .spi = false ∧
    (tested 3).wf ∧ (tested 3).bst = 3 ∧ (tested 3).answers = true ∧ State.servedAfterCritical 0 = false ∧ State.servedAfterCritical 0x10000 = true ∧
    (frozenUp .spi).wf ∧ (frozenUp .spi).released = true ∧ (frozenUp .spi).frozen .spi = true ∧ up.busOpen .spi ∧ up.frozen .spi = false := by
  and_intros <;> decide +kernel

/-- A READ frame of address 0x010203 with a right CRC, and the CRC of any five octets. -/
def withCrc (l : List Byte) : List Byte := l ++ [BitVec.ofNat 8 (crc16Bytes l / 256), BitVec.ofNat 8 (crc16Bytes l)]

theorem test_hyp_ManagementInterfaces_frames :
    up.answers = true ∧ (withCrc [11, 1, 2, 3]).length = 6 ∧ crc16Bytes ((withCrc [11, 1, 2, 3]).take 4) = octField (withCrc [11, 1, 2, 3]) 4 2 ∧
    (withCrc [11, 1, 2]).length < 6 ∧ crc16Bytes ([11, 1, 2, 3, 0, 0]) ≠ octField [11, 1, 2, 3, 0, 0] 4 2 ∧
    (withCrc [2, 1, 2, 3, 0, 0, 0, 0, 0, 9]).length = 12 ∧
    crc16Bytes ((withCrc [2, 1, 2, 3, 0, 0, 0, 0, 0, 9]).take 10) = octField (withCrc [2, 1, 2, 3, 0, 0, 0, 0, 0, 9]) 10 2 ∧
    (withCrc [2, 1, 2, 3, 0, 0, 0, 0, 0]).length < 12 ∧ crc16Bytes ((withCrc [3, 1, 2, 3]).take 4) = octField (withCrc [3, 1, 2, 3]) 4 2 := by
  and_intros <;> decide +kernel

theorem test_hyp_ManagementInterfaces_i3c :
    up.answers = true ∧ (0x58 : BitVec 7).toNat = up.i3cTarget ∧ (0x59 : BitVec 7).toNat ≠ up.i3cTarget ∧ up.busOpen .i3c ∧
    ([1, 2, 3] : List Byte).drop 3 = ([] : List (List Byte)).flatten ∧ ([1, 2, 3, 4, 5, 6, 7, 8, 9, 10] : List Byte).drop 3 = [[4, 5, 6, 7, 8, 9], [10]].flatten ∧
    (∀ g ∈ ([[4, 5, 6, 7, 8, 9], [10]] : List (List Byte)).dropLast, g.length = 6) ∧ ([1, 2] : List Byte).length = 2 ∧ ([1] : List Byte).length = 1 ∧
    (0 : Nat) < (5 : BitVec 16).toNat ∧ (5 : BitVec 16).toNat < 6 ∧ up.mgmt.i3cAddr < 2 ^ 24 ∧
    up.narrowOk 0x2C0000 = true ∧ up.narrowOk 0x2FFFFF = true ∧ up.narrowOk 0x300000 = false ∧ 0xFFFFFF < 2 ^ 24 := by
  and_intros <;> decide +kernel

/-- The device has dynamic address 0x21, and answers in-band interrupts where an enabled source stands. -/
def addressed (l : List (FRef × List Nat × Nat)) : State := upWith ([(Reg.I3C_STAT.DA_VALID, [], 1), (Reg.I3C_STAT.DA, [], 0x21)] ++ l)

theorem test_hyp_ManagementInterfaces_addresses :
    (addressed []).wf ∧ (addressed []).get Reg.I3C_STAT.DA_VALID = 1 ∧ up.get Reg.I3C_STAT.DA_VALID ≠ 1 ∧ (0x21 : BitVec 7).toNat = (addressed []).get Reg.I3C_STAT.DA ∧
    (0x21 : BitVec 7).toNat = (addressed []).i3cTarget ∧ (addressed []).answers = true ∧ (0x58 : BitVec 7).toNat ≠ (addressed []).i3cTarget := by
  and_intros <;> decide +kernel

/-- An enabled interrupt source, with in-band interrupts enabled. -/
def interrupting (level pend : Bool) : State :=
  let s := addressed [(Reg.I3C_STAT.IBI_EN, [], 1), (Reg.MEM_EVT.VIOL, [], 1)]
  { s with mgmt := { s.mgmt with ibiLevel := level, ibiPend := pend } }

theorem test_hyp_ManagementInterfaces_ibi :
    (interrupting false false).wf ∧ (interrupting false false).answers = true ∧ (interrupting false false).get Reg.I3C_STAT.IBI_EN = 1 ∧
    (interrupting false false).get Reg.I3C_STAT.DA_VALID = 1 ∧ (interrupting false false).intWord &&& ((interrupting false false).liveAt Reg.INT_EN.base).toNat ≠ 0 ∧
    (interrupting true false).mgmt.ibiLevel = true ∧ (interrupting true false).mgmt.ibiPend = false ∧ (interrupting true true).mgmt.ibiPend = true ∧
    (addressed []).intWord &&& ((addressed []).liveAt Reg.INT_EN.base).toNat = 0 := by
  and_intros <;> decide +kernel

theorem test_hyp_ManagementInterfaces_jtag :
    (lifeAt 0 [] id).wf ∧ (lifeAt 0 [] id).busOpen .jtag ∧ (lifeAt 3 [] id).busOpen .jtag ∧ (lifeAt 2 [] id).lcs ≠ 0 ∧ (lifeAt 2 [] id).lcs ≠ 3 ∧
    (BitVec.ofNat 88 (2 ^ 87)).getLsbD 87 = true ∧ (BitVec.ofNat 88 (2 ^ 86)).getLsbD 87 = false := by
  and_intros <;> decide +kernel

/-- A DX3208 without the time-transparent engine, whose registers are fused off. -/
def fusedUp : State := { up with part := { up.part with variant := 2 } }

theorem test_hyp_RegisterReads :
    up.wf ∧ up.busOpen .spi ∧ up.busOpen .quaran ∧ ({ up with clk := { up.clk with held := true } } : State).answers = false ∧
    (lifeAt 2 [] id).hasPath .jtag = false ∧ (lifeAt 2 [] id).wf ∧ State.reset.released = false ∧
    fusedUp.wf ∧ fusedUp.fusedAt Reg.TTE_CFG.base = true ∧ up.fusedAt Reg.TTE_CFG.base = false ∧
    up.fusedAt 0x7FFFFF = false ∧ stagedAt 0x7FFFFF = false ∧ rowOf 0x7FFFFF = none ∧ stagedAt Reg.MODE.base = true ∧ up.fusedAt Reg.MODE.base = false ∧
    Reg.MODE.base ∈ poisonRead.set.poison ∧ poisonRead.wf ∧ ¬ (Reg.MODE.base ∈ up.set.poison) ∧
    rowOf Reg.SET_CMD.base = some (Reg.SET_CMD, []) ∧ up.fusedAt Reg.SET_CMD.base = false ∧ up.domOn (domNum Reg.SET_CMD Reg.SET_CMD.base) = true ∧
    (Reg.SET_CMD.acc == .wo) = true ∧ rowOf Reg.SPI_CRC_CNT.base = some (Reg.SPI_CRC_CNT, []) ∧ (Reg.SPI_CRC_CNT.acc == .rc) = true ∧
    (spiUp []).ownsBlock .spi (blockOf Reg.SPI_CRC_CNT.base) = true ∧ (spiUp []).ownsBlock .i3c (blockOf Reg.SPI_CRC_CNT.base) = false ∧
    rowOf Reg.TIME_SEC.base = some (Reg.TIME_SEC, []) ∧ (Reg.TIME_SEC.acc == .sn) = true ∧ up.domOn 38 = true ∧ up.domOn 47 = true ∧
    ({ up with pwr := State.pwrReset } : State).domOn (domNum Reg.RX_STAT Reg.RX_STAT.base) = false ∧ rowOf Reg.RX_STAT.base = some (Reg.RX_STAT, [0]) := by
  and_intros <;> decide +kernel

/-- SPI owns every block; that of the protected memories' registers is locked. -/
def lockedUp : State := spiUp [(Reg.MEM_LOCK.LOCK, [], 2 ^ blockOf Reg.MEM_CFG.base)]

theorem test_hyp_RegisterWrites :
    (spiUp []).wf ∧ (spiUp []).busOpen .spi ∧ (frozenUp .quaran).wf ∧ fusedUp.fusedAt (0xFFFFFF % 0x800000) = false ∧ rowOf (0xFFFFFF % 0x800000) = none ∧
    rowOf Reg.MODE.base = some (Reg.MODE, []) ∧ (Reg.MODE.acc == .st) = true ∧ (Reg.SET_CMD.acc == .st) = false ∧
    (spiUp []).writeCause .spi Reg.MODE Reg.MODE.base [] = none ∧ (spiUp []).writeCause .i3c Reg.MODE Reg.MODE.base [] = some 1 ∧
    (spiUp []).set.check = none ∧ (checkingToo (spiUp [])).set.check.isSome = true ∧ (checkingToo (spiUp [])).writeCause .spi Reg.MODE Reg.MODE.base [] = none ∧
    (spiUp []).lockedBlock (blockOf Reg.MODE.base) = false ∧ (spiUp []).ownExempt .i3c Reg.MODE [] = false ∧ (spiUp []).ownsBlock .i3c (blockOf Reg.MODE.base) = false ∧
    ({ spiUp [] with pwr := State.pwrReset } : State).writeCause .spi Reg.RX_STAT Reg.RX_STAT.base [0] = none ∧
    lockedUp.wf ∧ lockedUp.lockedBlock (blockOf Reg.MEM_CFG.base) = true ∧ lockedUp.writeCause .spi Reg.MEM_CFG Reg.MEM_CFG.base [] = some 2 ∧
    (15 : Nat) < 16 ∧ (upWith [(Reg.MEM_EVT.VIOL, [], 1)]).get Reg.MEM_EVT.VIOL = 1 ∧ up.get Reg.MEM_EVT.VIOL = 0 ∧
    (spiUp []).mayWrite .spi Reg.INT_EN.base ∧ (spiUp []).mayWrite .spi Reg.THM_EVT.base ∧ (spiUp []).mayWrite .spi Reg.PMC_SEL.base ∧
    (14 : Word).toNat % 256 = 14 ∧ (13 : Word).toNat % 256 < 14 := by
  and_intros <;> first | decide +kernel | exact ⟨Reg.INT_EN, [], by decide +kernel⟩ | exact ⟨Reg.THM_EVT, [], by decide +kernel⟩ | exact ⟨Reg.PMC_SEL, [0], by decide +kernel⟩

/-! ## Witnesses: steps -/

theorem test_hyp_StepKeepsForm : State.reset.wf ∧ goesTo (step { up with pending := [.rstdaa, .disec] }) (fun t => decide (t.pending = [.disec])) = true ∧
    ({ up with pending := [.rstdaa, .disec] } : State).wf := by
  and_intros <;> decide +kernel

theorem test_reset_answers : State.reset.pending = [] ∧ step State.reset = .next State.reset := ⟨by decide, rfl⟩

/-! ## Commands that the outside world cannot form: every check of `Instr.wellFormed` refuses a term -/

def okRx : RxCodes := ⟨List.replicate 448 0, 0⟩
def okSpan : Span := ⟨List.replicate 9 okRx, List.replicate 16 [], [0, 0], List.replicate 16 0, List.replicate 8 ⟨[], [], [], []⟩, ⟨0, 0⟩⟩
def okHost : HostMeas := ⟨0, 0, List.replicate 8 0, List.replicate 3 0⟩
def okTick : TickMeas := ⟨okSpan, List.replicate 9 (List.replicate 196 0), List.replicate 16 okHost, List.replicate 10 ⟨0, 0⟩, 0⟩

/-- Spans that name too few slices, hosts, PLLs, transmitters or lanes, or hold part of a cycle or too few codes. -/
def badSpans : List Span :=
  [{ okSpan with rx := List.replicate 8 okRx }, { okSpan with host := [] }, { okSpan with cycles := [0] }, { okSpan with sent := [] },
   { okSpan with lats := [] }, { okSpan with rx := ⟨List.replicate 384 0, 0⟩ :: List.replicate 8 okRx },
   { okSpan with rx := ⟨List.replicate 449 0, 0⟩ :: List.replicate 8 okRx }]

theorem test_refused_spans : okSpan.wellFormed = true ∧ ∀ m ∈ badSpans, ∀ c ∈ [Instr.tickBoundary { okTick with span := m }, .applicationBoundary .float m,
    .linePatLock false 0 m, .linePatResync false 0 m, .floatSwap m, .abruptReturnSwap m, .takeoverSwap m, .trLockWindow m, .amLockGained 0 m, .amLockLost 0 m,
    .monOutput 0 m, .stencilCountLimit m, .stencilTimeout m, .prefillComplete m, .pendingTriggerCycle m, .captureComplete m], c.wellFormed = false := by
  and_intros <;> decide +kernel

theorem test_refused_tick : (Instr.tickBoundary okTick).wellFormed = true ∧
    (∀ m ∈ [{ okTick with icorr := [] }, { okTick with icorr := [0] :: List.replicate 8 [] }, { okTick with hosts := [] }, { okTick with tmarks := [] },
      { okTick with hosts := { okHost with ffe := [] } :: List.replicate 15 okHost }, { okTick with hosts := { okHost with dfe := [] } :: List.replicate 15 okHost }],
      (Instr.tickBoundary m).wellFormed = false) := by
  and_intros <;> decide +kernel

def okCal : CalMeas := ⟨List.replicate 64 31, List.replicate 64 (-31), List.replicate 64 63, List.replicate 4 31, List.replicate 196 0, 0⟩
def badCals : List CalMeas :=
  [{ okCal with off := [] }, { okCal with gain := [] }, { okCal with skew := [] }, { okCal with bw := [] }, { okCal with res := [] },
   { okCal with off := List.replicate 64 32 }, { okCal with gain := List.replicate 64 (-32) }, { okCal with skew := List.replicate 64 64 },
   { okCal with bw := List.replicate 4 (-1) }]

theorem test_refused_calibrations : (Instr.fcalDone 0 okCal okCal).wellFormed = true ∧
    (∀ m ∈ badCals, (Instr.fcalDone 0 m okCal).wellFormed = false ∧ (Instr.fcalDone 0 okCal m).wellFormed = false ∧
      (Instr.powerupSelfTest 7 ⟨0, 0, 0, List.replicate 9 (m, okCal), [], []⟩).wellFormed = false) ∧
    (Instr.powerupSelfTest 4 ⟨0, 0, 0, [], [], []⟩).wellFormed = true ∧ (Instr.powerupSelfTest 7 ⟨0, 0, 0, List.replicate 9 (okCal, okCal), [], []⟩).wellFormed = true ∧
    (Instr.powerupSelfTest 7 ⟨0, 0, 0, List.replicate 8 (okCal, okCal), [], []⟩).wellFormed = false ∧
    (Instr.powerupSelfTest 8 ⟨0, 0, 0, [], [0], []⟩).wellFormed = false ∧ (Instr.powerupSelfTest 8 ⟨0, 0, 0, [], [], [0]⟩).wellFormed = false := by
  and_intros <;> decide +kernel

/-- A plan of 2,041 pairs in all. -/
def longPlan : List (List (BitVec 24 × Word)) := List.replicate 40 (List.replicate 51 (0, 0)) ++ [[(0, 0)]]

theorem test_refused_others : (Instr.codewordDecode 0 1 false ⟨List.replicate 447 0, 0⟩ okRx).wellFormed = false ∧
    (Instr.codewordDecode 0 1 false ⟨[], 0⟩ okRx).wellFormed = false ∧ (Instr.codewordDecode 0 1 false okRx ⟨[0], 0⟩).wellFormed = false ∧
    (Instr.outerCodeword 0 true (List.replicate 543 (0, 0))).wellFormed = false ∧ (Instr.tteFrame ⟨0, true, 0, [1, 2, 3], false, ⟨0, 0⟩, 0, 0⟩).wellFormed = false ∧
    (Instr.modeCommand 0 longPlan 0).wellFormed = false ∧ (Instr.profileCommand 0 longPlan 0).wellFormed = false ∧
    (Instr.profileCommand 0 (longPlan.take 40) 0).wellFormed = true ∧ (Instr.isSliceEnd false 0 true [0]).wellFormed = false ∧
    (Instr.spiMalformedFrame [] 0).wellFormed = false := by
  and_intros <;> decide +kernel

/-- No row of the table has bits. -/
theorem test_noWord (nbits w : Nat) (s : State) : decodeTableWord nbits w = none ∧ s.withFetchWord nbits w = s := ⟨rfl, rfl⟩

/-! ## Results that the specification works out -/

/-- The worked example of R259: MUL acc0, w1, w2, then ROUND to 12 bits by 31. -/
theorem test_mul_example : goesTo (exec (.mul 1 2 false 0) (ranWith [2001, 0x60000000])) (fun t => (t.accAt 0).toInt == 3222836084736) = true ∧
    goesTo (exec (.mul 1 2 false 0) (ranWith [0xFFFFFFFFF555, 0x60000000])) (fun t => (t.accAt 0).toInt == -4398583382016) = true := by
  and_intros <;> decide +kernel

def rounds (acc : Int) : State := { ranWith [] with seq := { (ranWith []).seq with acc := (ranWith []).seq.acc.set 0 (BitVec.ofInt 104 acc) } }
def roundGives (acc : Int) (r : Int) (v : Bool) : Bool :=
  goesTo (exec (.round 3 0 12 31) (rounds acc)) fun t => (t.wreg 3).toInt == r && t.seq.v == v && t.seq.sf == v

theorem test_round_example : roundGives 3222836084736 1501 false = true ∧ roundGives 3224446697472 1502 false = true ∧ roundGives 3230889148416 1504 false = true ∧
    roundGives 4833448820736 2047 true = true ∧ roundGives (-4398583382016) (-2048) false = true := by and_intros <;> decide +kernel

theorem test_norm_example : goesTo (exec (.norm 3 0) (rounds 3222836084736)) (fun t => t.wreg 3 == 61) = true := by decide +kernel

/-- R258: a saturating sum takes the limit and sets V and S; a wrapping one does not. -/
theorem test_adds_limit : goesTo (exec (.adds 3 1 2) (ranWith [0x7FFFFFFFFFFF, 1])) (fun t => t.wreg 3 == 0x7FFFFFFFFFFF && t.seq.v && t.seq.sf && !t.seq.c) = true ∧
    goesTo (exec (.add 3 1 2) (ranWith [0x7FFFFFFFFFFF, 1])) (fun t => t.wreg 3 == 0x800000000000 && t.seq.v && !t.seq.sf && t.seq.n) = true := by
  and_intros <;> decide +kernel

/-- SUBI of the example of R269: 0x1080 less 0x1100 is -128, with N = 1, V = 0; nothing is written to w0. -/
theorem test_subi_example : goesTo (exec (.subi 0 1 0x1100) (ranWith [0x1080])) (fun t => t.wreg 0 == 0 && t.seq.n && !t.seq.v && !t.seq.z) = true := by decide +kernel

/-- The example of R107: p0 = p1 = 1 alone. -/
def exampleWord : List Bool := innerEncode ([true, true] ++ List.replicate 118 false)
theorem test_innerCode_example : exampleWord.take 10 = [false, true, true, false, true, true, false, false, true, true] ∧ hamSyndrome exampleWord = 0 ∧
    hamSyndrome (flipAt exampleWord [9, 11]) = 0x5A ∧ hamClass (flipAt exampleWord [9, 11]) = none := by and_intros <;> decide +kernel

/-- The example of R111: test word 1 inverts c9, and the decoder flips c11. -/
theorem test_chase_example :
    let w := flipAt exampleWord [9, 11]
    chaseCandidate hamFlips w [9, 11, 40, 77, 101, 3] 0 = none ∧ chaseCandidate hamFlips w [9, 11, 40, 77, 101, 3] 1 = some [11, 9] ∧
    chaseCandidate hamFlips w [9, 11, 40, 77, 101, 3] 3 = some [9, 11] ∧
    chaseMetric ((List.range 128).map fun i => if i = 9 then 2 else if i = 11 then -3 else 12) [11, 9] = 5 := by (try dsimp only); and_intros <;> decide +kernel

/-- The example of R33: lane 2, frame count 5, slot 1. -/
theorem test_scramble_example : (slotScramble 2 5 1).take 8 = [false, false, false, true, false, false, false, true] := by decide +kernel

/-- The check values of R446 and R233, and the request of R446's example. -/
theorem test_crc_examples : crc16Bytes [0x31, 0x32, 0x33, 0x34, 0x35, 0x36, 0x37, 0x38, 0x39] = 0x29B1 ∧ crc16Bytes [0x0B, 0x08, 0x30, 0x18] = 0xA5D2 ∧
    crc32Bytes [0x31, 0x32, 0x33, 0x34, 0x35, 0x36, 0x37, 0x38, 0x39] = 0xCBF43926 := by and_intros <;> decide +kernel

/-- The example of R326: M = 1,000. -/
theorem test_cic_example : cicShift 1000 = 50 ∧ cicNrm 1000 = 9444733 := by and_intros <;> decide +kernel

/-- The example of R334: BDAC3 at 1.8 V, gain 2. -/
theorem test_hka_example : State.hkaCode (1800000000 * 4095) 1250000000 1 19 = 2949 := by decide +kernel

/-- The example that follows R62: 281 against 240 passes, 317 does not. -/
def agreeing : State := { upWith [(Reg.MIG_STAT.PHASE, [], 3), (Reg.MIG_CTL.AGREE_SLACK, [], 2), (Reg.MIG_CTL.AGREE_ABS, [], 16), (Reg.MIG_CTL.AGREE_TRIES, [], 3)] with mig := { Mig.idle with slots := 1024, eServ := 240, eCand := 317, unc := 1 } }
theorem test_agree_example : 8 * 281 ≤ (8 + agreeing.get Reg.MIG_CTL.AGREE_SLACK) * 240 + 8 * agreeing.get Reg.MIG_CTL.AGREE_ABS ∧
    agreeing.agreeWindow.get Reg.MIG_STAT.TRIES_USED = 1 := by and_intros <;> decide +kernel

/-- The example of R186: e = 12.5 ns over 781,250,000 cycles. -/
theorem test_servo_example : (upWith [(Reg.PLB_CTL.KP, [], 3), (Reg.PLB_CTL.KI, [], 8)] |>.servo 819200 781250000).getS Reg.FREQ_NOW.F = -2268 := by decide +kernel

/-- The example of R318, with a tie between an odd and an even code. -/
def examplePoints (a b : Int) : List CalPoint := [⟨608, [a], [], [], 0⟩, ⟨992, [b], [], [], 1⟩]
theorem test_interp_example : State.interp (examplePoints 6 11) 753 (fun p => p.off.getD 0 0) = 8 ∧ State.interp (examplePoints 6 11) 800 (fun p => p.off.getD 0 0) = 8 ∧
    State.interp (examplePoints 6 11) 1000 (fun p => p.off.getD 0 0) = 11 ∧ State.interp (examplePoints 7 12) 800 (fun p => p.off.getD 0 0) = 10 := by
  and_intros <;> decide +kernel

/-- The checksum of the example of R209. -/
theorem test_checksum_example : csumUpdate 0x3A5C [(0x0001, 0x00B2), (0x0000, 0xD880)] = 0x612A := by decide +kernel

/-- The settings of the example of R165: CMIS_PRE 2 and CMIS_POST 3. -/
theorem test_hostTaps_example : (using_ (using_ up Reg.HS_TX_CTL.CMIS_PRE [4] 2) Reg.HS_TX_CTL.CMIS_POST [4] 3).hostFirWord 4 0 = 0x3F0 * 2 ^ 10 + 0x0D8 ∧
    (using_ (using_ up Reg.HS_TX_CTL.CMIS_PRE [4] 2) Reg.HS_TX_CTL.CMIS_POST [4] 3).hostFirWord 4 1 = 0x3E8 * 2 ^ 20 := by and_intros <;> decide +kernel

/-- The ring filter's heater of the Trowel example: loop 2 in STARTUP at code 1,640, a slope of -37.5. -/
def ringHeater : State :=
  let s := upWith [(Reg.TRW_STAT.STATE, [2], 1), (Reg.TRW_CFG.PER, [2], 3), (Reg.TRW_CFG.KSH, [2], 4), (Reg.TRW_GAIN.KP, [2], 2 * 65536), (Reg.TRW_GAIN.KI, [2], 32768),
    (Reg.TRW_OUT.DITH_EN, [2], 1), (Reg.TRW_OUT.DITH_AMP, [2], 4), (Reg.TRW_OUT.DITH_HP, [2], 2), (Reg.SEQ_TICKNUM.TICKS, [], 8), (Reg.TRW_CFG.BDAC, [2], 5)]
  { s with loops := upd s.loops 2 fun l => { l with i := 1640 * 2 ^ 24, x := some (-75 * 2 ^ 23) } }

theorem test_trowel_example : goesTo (exec (.trowelUpdate 2) ringHeater) (fun t =>
    (t.loop 2).i == 1638 * 2 ^ 24 + 828125 * 2 ^ 24 / 1000000 && (t.loop 2).base == 1634 && t.get Reg.BDC_STAT.CODE_NOW [5] == 1638) = true := by decide +kernel

/-- The word of R388's example: DOM_ON of LRA0 to LRA7. -/
theorem test_power_word : reqOp 0x1000000001C1 = 1 := by decide +kernel

/-- The request of R446's example is served; with its last octet changed it counts as a CRC error (R446). -/
theorem test_spi_example : goesTo (exec (.spiMalformedFrame [0x0B, 0x08, 0x30, 0x18, 0xA5, 0xD2] 0) up) (fun t => t.get Reg.SPI_CRC_CNT.COUNT == 0) = true ∧
    goesTo (exec (.spiMalformedFrame [0x0B, 0x08, 0x30, 0x18, 0xA5, 0xD3] 0) up) (fun t => t.get Reg.SPI_CRC_CNT.COUNT == 1) = true := by
  and_intros <;> decide +kernel

/-- R419, R421: a write by a master that does not own the block freezes the writer and is recorded. -/
theorem test_violation : goesTo (exec (.registerWrite .i3c (BitVec.ofNat 24 Reg.INT_EN.base) 5) (spiUp [])) (fun t =>
    t.frozen .i3c && t.get Reg.MEM_EVT.VIOL == 1 && t.liveAt Reg.INT_EN.base == up.liveAt Reg.INT_EN.base) = true := by decide +kernel

/-- R6: a read by the owner clears a counter of class RC. -/
theorem test_rcRead : goesTo (exec (.rcRead .spi (BitVec.ofNat 24 Reg.SPI_CRC_CNT.base) 0) (spiUp [(Reg.SPI_CRC_CNT.COUNT, [], 7)])) (fun t =>
    t.get Reg.SPI_CRC_CNT.COUNT == 0) = true := by decide +kernel

end Sys2Proof.Tests
end

section
/-! SUPPORT. What every command keeps, and the register bus: the equation of each outcome of a read and of a write, what a violation does, and
what a plain register takes (R2 to R9, R284, R418 to R421, R442, R443, R482). -/
namespace Sys2Proof.Machine
open State

/-! ## Every command completes, and keeps what every operation keeps -/

/-- Every arm of `exec` ends in a next state: no command faults and none is refused. -/
theorem exec_next (c : Instr) (s : State) : ∃ t, exec c s = .next t := by
  cases c <;> exact ⟨_, rfl⟩

/-- What every primitive change of the state keeps, the state that a command leads to keeps. -/
theorem exec_next_kept {P : State → Prop} (hP : Kept P) {c : Instr} {s t : State} (hs : P s) (e : exec c s = .next t) : P t := by
  have h := exec_kept hP hs c
  rw [e] at h
  exact h

/-- A step keeps the form: it takes the front command off the queue, at which the form does not look, and runs it. -/
theorem step_wf {s t : State} (hs : s.wf) (e : step s = .next t) : t.wf := by
  unfold step at e
  split at e
  · cases e
    exact hs
  · rename_i c rest _
    have hq : State.wf { s with pending := rest } := hs
    exact exec_next_kept kept_wf hq e

/-- Settles O60: the form is kept by every operation, and so by the command that a step runs. -/
theorem stepKeepsForm : Obligations.StepKeepsForm := fun _ _ hs e => step_wf hs e

/-- Settles O59: the queue and the facts of the part are properties that every operation keeps. -/
theorem commandsKeepQueueAndPart : Obligations.CommandsKeepQueueAndPart := by
  intro c s
  obtain ⟨t, e⟩ := exec_next c s
  have hq : t.pending = s.pending := exec_next_kept (kept_pending s.pending) rfl e
  obtain ⟨hv, hst, hp⟩ := exec_next_kept (kept_part _ _ _) ⟨rfl, rfl, rfl⟩ e
  exact ⟨t, e, hq, hv, hst, hp⟩

/-! ## Rows of the register map -/

theorem findIn_mem {l : List Row} {a : Nat} {r : Row} {i : List Nat} (h : findIn l a = some (r, i)) : r ∈ l := by
  induction l with
  | nil => simp [findIn] at h
  | cons b l ih =>
    simp only [findIn] at h
    split at h
    · cases h
      exact List.mem_cons_self
    · exact List.mem_cons_of_mem _ (ih h)

/-- The register found at an address is one of the map. -/
theorem rowOf_mem {a : Nat} {r : Row} {i : List Nat} (h : rowOf a = some (r, i)) : r ∈ Reg.allRows := by
  have hm : r ∈ Reg.rowsAt a := findIn_mem h
  unfold Reg.rowsAt at hm
  unfold Reg.allRows
  simp only [List.mem_append]
  repeat' split at hm
  all_goals simp only [hm, true_or, or_true]

/-- The registers behind which a memory is read through a window. -/
def windowBases : List Nat :=
  [Reg.RNG_WINDOW.base, Reg.CAP_WINDOW.base, Reg.PWR_RB_DATA.base, Reg.JNL_DATA.base, Reg.TRC_DATA.base, Reg.SEQ_DBG_DATA.base]

/-- No snapshot register is a window. -/
theorem sn_not_window : ∀ r ∈ Reg.allRows, r.acc = .sn → r.base ∉ windowBases := by decide +kernel

/-- No staged register has a write of its own. -/
theorem st_plain : ∀ r ∈ Reg.allRows, r.acc = .st →
    r.base ≠ Reg.RNG_PI.base ∧ r.base ≠ Reg.RNG_CI.base ∧ r.base ≠ Reg.RNG_STAT.base ∧ r.base ≠ Reg.MEM_FRZ.base := by decide +kernel

namespace State
variable {s : State} {m : Master} {q : Requester} {a p : Nat} {w : Word} {r : Row} {i : List Nat}

/-! ## Accesses by a master -/

/-- Where the device does not answer, or the master has no path, an access does nothing. -/
theorem access_silent (h : s.answers = false ∨ s.hasPath q = false) (w : Option Word) : s.access q a w p = s := by
  unfold access
  rw [if_pos (by simpa using h)]

/-- The Quaran and the Scrim reach no register before the release. -/
theorem access_unreleased (h : s.released = false) (hq : q = .quaran ∨ q = .scrim) (w : Option Word) : s.access q a w p = s := by
  unfold access
  rcases hq with rfl | rfl <;> cases w <;> simp [h]

/-- A read that reaches the bus answers what the bus does, and the interface records it. -/
theorem accessR_bus (h : s.busOpen q) :
    s.access q a none p = (s.busRead (masterOf q) a p).1.readDone q (s.busRead (masterOf q) a p).2.1 a (s.busRead (masterOf q) a p).2.2 := by
  obtain ⟨hr, hp, hf⟩ := h
  have ha : s.answers = true := by
    simp only [released, Bool.and_eq_true] at hr
    exact hr.1.1
  have hg := gate_open (a := a) (w := false) hr hf
  unfold access
  rw [if_neg (by simp [ha, hp])]
  cases q <;> simp only [masterOf] at hf hg ⊢
  case spi => simp [spiRead, extRead, ha, hg, readDone, b2n]
  case i3c => simp [extRead, hg, readDone, b2n]
  case jtag => simp [extRead, hg, readDone]
  case quaran => simp [portRead, hr, hf, readDone]
  case scrim => simp [portRead, hr, hf, readDone]

/-! ## Reads on the register bus -/

theorem busRead_unstaged (ha : 0x800000 ≤ a) (h : stagedAt (a - 0x800000) = false) : s.busRead m a p = (s, psUNMAPPED, 0) := by
  simp [busRead, ha, h]

/-- R407: a poisoned undercoat word is reported and not given. -/
theorem busRead_poisoned (ha : 0x800000 ≤ a) (h : stagedAt (a - 0x800000) = true) (hp : a - 0x800000 ∈ s.set.poison) :
    (s.busRead m a p).2 = (psPOISON, 0) := by
  simp [busRead, ha, h, hp]

/-- R284: a staged undercoat address reads as the word last written there. -/
theorem busRead_under (ha : 0x800000 ≤ a) (h : stagedAt (a - 0x800000) = true) (hp : a - 0x800000 ∉ s.set.poison) :
    s.busRead m a p = (s, psOK, s.underAt (a - 0x800000)) := by
  simp [busRead, ha, h, hp]

theorem busRead_fused (ha : a < 0x800000) (h : s.fusedAt a = true) : s.busRead m a p = (s, psOK, 0) := by
  simp [busRead, Nat.not_le.2 ha, h]

theorem busRead_unmapped (ha : a < 0x800000) (h : s.fusedAt a = false) (hr : rowOf a = none) : s.busRead m a p = (s, psUNMAPPED, 0) := by
  simp [busRead, Nat.not_le.2 ha, h, hr]

theorem busRead_off (ha : a < 0x800000) (h : s.fusedAt a = false) (hr : rowOf a = some (r, i)) (hd : s.domOn (domNum r a) = false) :
    s.busRead m a p = (s, psUNPOWERED, 0) := by
  simp [busRead, Nat.not_le.2 ha, h, hr, hd]

/-- A read of a powered register answers what the register's read does. -/
theorem busRead_reg (ha : a < 0x800000) (h : s.fusedAt a = false) (hr : rowOf a = some (r, i)) (hd : s.domOn (domNum r a) = true) :
    s.busRead m a p = s.regRead m r a i p := by
  simp [busRead, Nat.not_le.2 ha, h, hr, hd]

theorem regRead_wo (h : r.acc = .wo) : s.regRead m r a i p = (s, psOK, 0) := by
  simp [regRead, h]

/-- R8: a counter answers its count, and the block's owner clears it. -/
theorem regRead_rc (h : r.acc = .rc) :
    s.regRead m r a i p = (if s.ownsBlock m (blockOf a) then s.setLive a 0 else s, psOK, s.liveAt a) := by
  simp [regRead, h]

/-- R9: a read of a snapshot register writes no register and no memory. -/
theorem regRead_sn (hr : rowOf a = some (r, i)) (h : r.acc = .sn) :
    (s.regRead m r a i p).2.1 = psOK ∧ (s.regRead m r a i p).1.live = s.live ∧ (s.regRead m r a i p).1.mem = s.mem := by
  have hw := sn_not_window r (rowOf_mem hr) h
  simp only [windowBases, List.mem_cons, List.not_mem_nil, or_false, not_or] at hw
  obtain ⟨h1, h2, h3, h4, h5, h6⟩ := hw
  unfold regRead
  simp only [h, h1, h2, h3, h4, h5, h6, if_false, show (Acc.sn == Acc.wo) = false from rfl, show (Acc.sn == Acc.rc) = false from rfl,
    Bool.false_eq_true]
  by_cases he : r.base = Reg.EVT_TS_SEC.base
  · simp [he, evtRead]
  · by_cases hl : snPart r i = true
    · simp [he, hl]
    · simp only [he, hl, if_false, Bool.false_eq_true, whenB]
      split <;> simp [useFree]

/-! ### Snapshots of the time and of the sums of the housekeeping converter -/

/-- A later part of an SN register is captured. -/
def capture (s : State) (a : Nat) (w : Word) : State := { s with snap := kvSet s.snap a w }

theorem busRead_timeSec (h : s.domOn 38 = true) :
    s.busRead m Reg.TIME_SEC.base p = (s.capture Reg.TIME_NS.base (nsWord (s.timeAt p)), psOK, secWord (s.timeAt p)) := by
  have hf : s.fusedAt Reg.TIME_SEC.base = false := by simp [fusedAt, Reg.TIME_SEC]
  rw [busRead_reg (r := Reg.TIME_SEC) (i := []) (by decide) hf (by decide) h]
  rfl

theorem busRead_timeNs (h : s.domOn 38 = true) :
    s.busRead m Reg.TIME_NS.base p = (s, psOK, (kvGet s.snap Reg.TIME_NS.base).getD (nsWord (s.timeAt p))) := by
  have hf : s.fusedAt Reg.TIME_NS.base = false := by simp [fusedAt, Reg.TIME_NS]
  rw [busRead_reg (r := Reg.TIME_NS) (i := []) (by decide) hf (by decide) h]
  rfl

theorem rowOf_hkaSum : ∀ k : Fin 16, rowOf (Reg.HKA_SUM.addr [k.val]) = some (Reg.HKA_SUM, [k.val]) := by decide +kernel
theorem rowOf_hkaMm : ∀ k : Fin 16, rowOf (Reg.HKA_MM.addr [k.val]) = some (Reg.HKA_MM, [k.val]) := by decide +kernel

theorem fusedAt_hka {a : Nat} (h : 0x280000 ≤ a) : s.fusedAt a = false := by
  have h1 : ¬ a < 0x280000 := by omega
  have h2 : ¬ a < 0x108000 := by omega
  simp [fusedAt, h1, h2]

theorem busRead_hkaSum (k : Fin 16) (h : s.domOn 47 = true) :
    (s.busRead m (Reg.HKA_SUM.addr [k.val]) p).1 = s.capture (Reg.HKA_MM.addr [k.val]) (s.viewNow (Reg.HKA_MM.addr [k.val]) p) := by
  have ha : Reg.HKA_SUM.addr [k.val] = 0x3B0020 + 2 * k.val := rfl
  have hb : Reg.HKA_MM.addr [k.val] = 0x3B0021 + 2 * k.val := rfl
  rw [busRead_reg (by omega) (fusedAt_hka (by omega)) (rowOf_hkaSum k) h,
    show Reg.HKA_MM.addr [k.val] = Reg.HKA_SUM.addr [k.val] + 1 by omega]
  rfl

theorem busRead_hkaMm (k : Fin 16) (h : s.domOn 47 = true) :
    (s.busRead m (Reg.HKA_MM.addr [k.val]) p).2 =
      (psOK, (kvGet s.snap (Reg.HKA_MM.addr [k.val])).getD (s.view Reg.HKA_MM (Reg.HKA_MM.addr [k.val]) [k.val] p)) := by
  have ha : Reg.HKA_MM.addr [k.val] = 0x3B0021 + 2 * k.val := rfl
  rw [busRead_reg (by omega) (fusedAt_hka (by omega)) (rowOf_hkaMm k) h]
  rfl

end State

/-- Settles O55: the outcomes of a read in the order of the bus, and what a first part captures. -/
theorem registerReads : Obligations.RegisterReads := by
  intro s q a p hs m n r
  refine ⟨?_, ?_, ?_, ?_, ?_⟩
  · intro i hi
    have hx : exec i s = .next (s.access q n none p.toNat) := by
      simp only [List.mem_cons, List.not_mem_nil, or_false] at hi
      rcases hi with rfl | rfl <;> rfl
    rw [hx]
    exact ⟨fun h => by rw [access_silent h], fun h hq => by rw [access_unreleased h hq], fun h => by rw [accessR_bus h]⟩
  · exact fun ha => ⟨busRead_unstaged ha, busRead_poisoned ha, busRead_under ha⟩
  · intro ha
    refine ⟨busRead_fused ha, busRead_unmapped ha, fun row i hf hr => ⟨busRead_off ha hf hr, fun hd => ?_⟩⟩
    have hreg : r = s.regRead m row n i p.toNat := busRead_reg ha hf hr hd
    rw [hreg]
    refine ⟨regRead_wo, fun hc => ?_, regRead_sn hr⟩
    rw [regRead_rc hc]
    constructor <;> intro ho <;> simp [ho, psOK]
  · intro p' hd
    dsimp only
    rw [busRead_timeSec hd]
    dsimp only
    rw [busRead_timeNs (s := s.capture _ _) hd]
    simp [capture, kvGet_kvSet_same, psOK]
  · intro k p' x hd
    dsimp only
    rw [busRead_hkaSum k hd, busRead_hkaMm (s := (s.capture _ _).setLive _ x) k hd]
    simp [capture, kvGet_kvSet_same, psOK]

theorem Master.code_lt (m : Master) : m.code < 6 := by cases m <;> decide

/-- A master is told by its code. -/
theorem Master.ofCode_code (m : Master) : Master.ofCode m.code = some m := by cases m <;> rfl

theorem Master.code_inj {m k : Master} (h : m.code = k.code) : m = k :=
  Option.some.inj (by rw [← Master.ofCode_code m, h, Master.ofCode_code])

/-! ## Fields of a plain register -/

/-- What a write of word `w` makes of one field of a register word `n` (R5, R6). -/
def fieldStep (w : Word) (n : Nat) (x : Field) : Nat :=
  match x.acc with
  | .rw => if x.rsv.any fun q => decide (q.1 ≤ bits w.toNat x.hi x.lo) && decide (bits w.toNat x.hi x.lo ≤ q.2) then n
    else setBits n x.hi x.lo (bits w.toNat x.hi x.lo)
  | .w1c => setBits n x.hi x.lo (bits n x.hi x.lo - (bits n x.hi x.lo &&& bits w.toNat x.hi x.lo))
  | .w1s => setBits n x.hi x.lo (bits n x.hi x.lo ||| bits w.toNat x.hi x.lo)
  | _ => n

theorem fieldsWrite_eq (s : State) (r : Row) (a : Nat) (w : Word) :
    s.fieldsWrite r a w = s.setLive a (BitVec.ofNat 48 (r.fields.foldl (fieldStep w) (s.liveAt a).toNat)) := rfl

/-- Bit `b` lies in field `x`. -/
def Field.covers (x : Field) (b : Nat) : Bool := decide (x.lo ≤ b) && decide (b ≤ x.hi)

theorem fieldStep_rw_testBit {x : Field} (ha : x.acc = .rw) (hr : x.rsv = []) (hl : x.lo ≤ x.hi + 1) (w : Word) (n b : Nat) :
    (fieldStep w n x).testBit b = if x.covers b then w.toNat.testBit b else n.testBit b := by
  simp only [fieldStep, ha, hr, List.any_nil, Bool.false_eq_true, if_false, setBits_testBit _ _ _ hl, Field.covers, Bool.and_eq_true,
    decide_eq_true_eq]
  split
  · rename_i h
    rw [bits_testBit, Nat.add_sub_cancel' h.1, decide_eq_true (by omega), Bool.true_and]
  · rfl

/-- A bit of class W1C falls where 1 is written. -/
theorem fieldStep_w1c_testBit {x : Field} (ha : x.acc = .w1c) (hl : x.lo = x.hi) (w : Word) (n b : Nat) :
    (fieldStep w n x).testBit b = if x.covers b then n.testBit b && !w.toNat.testBit b else n.testBit b := by
  have one (k : Nat) : bits k x.hi x.lo = (k.testBit x.hi).toNat := by
    rw [hl, bits, Nat.add_sub_cancel_left, Nat.pow_one, Nat.toNat_testBit, Nat.shiftRight_eq_div_pow]
  simp only [fieldStep, ha, setBits_testBit _ _ _ (show x.lo ≤ x.hi + 1 by omega), Field.covers, Bool.and_eq_true, decide_eq_true_eq]
  split
  · rename_i h
    obtain rfl : b = x.hi := by omega
    rw [one, one, hl, Nat.sub_self]
    cases n.testBit x.hi <;> cases w.toNat.testBit x.hi <;> rfl
  · rfl

/-- Fields without a reserved code take the written bits; every other bit stays. -/
theorem foldl_rw_testBit (w : Word) (b : Nat) {l : List Field} (h : ∀ x ∈ l, x.acc = .rw ∧ x.rsv = [] ∧ x.lo ≤ x.hi + 1) (n : Nat) :
    (l.foldl (fieldStep w) n).testBit b = if l.any (·.covers b) then w.toNat.testBit b else n.testBit b := by
  induction l generalizing n with
  | nil => rfl
  | cons x l ih =>
    obtain ⟨ha, hr, hl⟩ := h x List.mem_cons_self
    rw [List.foldl_cons, ih (fun y hy => h y (List.mem_cons_of_mem _ hy)), fieldStep_rw_testBit ha hr hl, List.any_cons]
    cases x.covers b <;> cases l.any (·.covers b) <;> rfl

/-- Bits of class W1C fall where 1 is written; every other bit stays. -/
theorem foldl_w1c_testBit (w : Word) (b : Nat) {l : List Field} (h : ∀ x ∈ l, x.acc = .w1c ∧ x.lo = x.hi) (n : Nat) :
    (l.foldl (fieldStep w) n).testBit b = (n.testBit b && !(l.any (·.covers b) && w.toNat.testBit b)) := by
  induction l generalizing n with
  | nil => simp
  | cons x l ih =>
    obtain ⟨ha, hl⟩ := h x List.mem_cons_self
    rw [List.foldl_cons, ih (fun y hy => h y (List.mem_cons_of_mem _ hy)), fieldStep_w1c_testBit ha hl, List.any_cons]
    cases x.covers b <;> cases l.any (·.covers b) <;> simp

/-- The reserved codes of PMC_SEL.EVENT (R6). -/
def pmcReserved (c : Nat) : Bool :=
  [(14, 15), (26, 63), (104, 111), (122, 127), (131, 143), (147, 255)].any fun q => decide (q.1 ≤ c) && decide (c ≤ q.2)

theorem pmcSel_fold (w : Word) (n : Nat) : Reg.PMC_SEL.fields.foldl (fieldStep w) n =
    if pmcReserved (w.toNat % 256) then setBits n 8 8 (w.toNat / 256 % 2)
    else setBits (setBits n 8 8 (w.toNat / 256 % 2)) 7 0 (w.toNat % 256) := by
  have h8 : bits w.toNat 8 8 = w.toNat / 256 % 2 := by simp [bits, Nat.shiftRight_eq_div_pow]
  have h7 : bits w.toNat 7 0 = w.toNat % 256 := by simp [bits]
  rw [← h8, ← h7]
  rfl

namespace State
variable {s : State} {m : Master} {q : Requester} {n : Nat} {w : Word} {row : Row} {i : List Nat}

/-! ## Writes on the register bus -/

/-- An undercoat write shows in its own word, marks the register and clears its poison. -/
theorem underAt_setUnder_same (h : RegFile.wf s.under) (l : Nat) (x : Word) : (s.setUnder l x).underAt l = x := RegFile.get_set_same h l x

theorem underAt_setUnder_other (h : RegFile.wf s.under) {l b : Nat} (x : Word) (hb : b ≠ l) : (s.setUnder l x).underAt b = s.underAt b :=
  RegFile.get_set_other h x hb

theorem setUnder_marked (s : State) (l : Nat) (x : Word) : l ∈ (s.setUnder l x).set.marks := by
  unfold setUnder
  split
  · rename_i h
    simpa using h
  · exact List.mem_cons_self

theorem setUnder_unpoisoned (s : State) (l : Nat) (x : Word) : l ∉ (s.setUnder l x).set.poison := by
  simp [setUnder]

theorem busWrite_fused (ha : n < 0x800000) (h : s.fusedAt n = true) : s.busWrite m n w = (s, psOK) := by
  simp [busWrite, busWriteM, ha, h]

/-- The live address of what a write at `n` names. -/
theorem liveIndex (hn : n < 2 ^ 24) : (if 0x800000 ≤ n then n - 0x800000 else n) = n % 0x800000 := by
  split <;> omega

section Unfused
variable (hn : n < 2 ^ 24) (hf : ¬ (n < 0x800000 ∧ s.fusedAt n = true))
include hn hf

theorem busWrite_unmapped (hr : rowOf (n % 0x800000) = none) : s.busWrite m n w = (s, psUNMAPPED) := by
  simp only [busWrite, busWriteM, liveIndex hn, if_neg hf, hr]

variable (hr : rowOf (n % 0x800000) = some (row, i))
include hr

theorem busWrite_unstaged (ha : 0x800000 ≤ n) (hs : row.acc ≠ .st) : s.busWrite m n w = (s, psUNMAPPED) := by
  simp only [busWrite, busWriteM, liveIndex hn, if_neg hf, hr, if_pos (And.intro ha hs)]

variable (hst : n < 0x800000 ∨ row.acc = .st)
include hst

theorem busWrite_violation {c : Nat} (hc : s.writeCause m row (n % 0x800000) i = some c) :
    s.busWrite m n w = (s.violate m c n, psVIOLATION) := by
  have hu : ¬ (0x800000 ≤ n ∧ row.acc ≠ .st) := by rintro ⟨h1, h2⟩; exact hst.elim (by omega) h2
  simp only [busWrite, busWriteM, liveIndex hn, if_neg hf, hr, if_neg hu, hc]

variable (hc : s.writeCause m row (n % 0x800000) i = none)
include hc

/-- A permitted undercoat write takes effect, or is held while a check runs (R284, R287). -/
theorem busWrite_under (ha : 0x800000 ≤ n) :
    s.busWrite m n w = (if s.set.check.isSome then
        { s with set := { s.set with held := s.set.held ++ [(n % 0x800000, w &&& BitVec.ofNat 48 row.mask)] } }
      else s.setUnder (n % 0x800000) (w &&& BitVec.ofNat 48 row.mask), psOK) := by
  have hu : ¬ (0x800000 ≤ n ∧ row.acc ≠ .st) := by rintro ⟨h1, h2⟩; exact hst.elim (by omega) h2
  simp only [busWrite, busWriteM, liveIndex hn, if_neg hf, hr, if_neg hu, hc, if_pos ha]
  split <;> rfl

omit hst in
theorem busWrite_off (ha : n < 0x800000) (hd : s.domOn (domNum row (n % 0x800000)) = false) : s.busWrite m n w = (s, psUNPOWERED) := by
  simp only [busWrite, busWriteM, liveIndex hn, if_neg hf, hr, hc, if_neg (Nat.not_le.2 ha), hd]
  simp [Nat.not_le.2 ha]

omit hst in
/-- R284: a live write to a staged register does nothing. -/
theorem busWrite_stagedLive (ha : n < 0x800000) (hd : s.domOn (domNum row (n % 0x800000)) = true) (hs : row.acc = .st) :
    s.busWrite m n w = (s, psOK) := by
  obtain ⟨h1, h2, h3, h4⟩ := st_plain row (rowOf_mem hr) hs
  simp only [busWrite, busWriteM, liveIndex hn, if_neg hf, hr, hc]
  simp [Nat.not_le.2 ha, hd, h1, h2, h3, h4, regWrite, hs]

end Unfused

/-! ## What a violation does (R421) -/

theorem writeCause_locked {a : Nat} (h : s.lockedBlock (blockOf a) = true) : s.writeCause m row a i = some vcLOCKED := by
  simp [writeCause, h]

theorem writeCause_notOwner {a : Nat} (hl : s.lockedBlock (blockOf a) = false) (he : s.ownExempt m row i = false)
    (ho : s.ownsBlock m (blockOf a) = false) : s.writeCause m row a i = some vcNOT_OWNER := by
  simp [writeCause, hl, he, ho]

/-- The record of a violation: the first since MEM_EVT.VIOL was clear stands. -/
def violRecord (s : State) (m : Master) (c a : Nat) : State :=
  if s.on Reg.MEM_EVT.VIOL then s else ((s.put Reg.MEM_VIOL.MASTER m.code).put Reg.MEM_VIOL.CAUSE c).put Reg.MEM_VIOL.ADDR a

theorem violate_eq (s : State) (m : Master) (c a : Nat) :
    s.violate m c a = (((s.violRecord m c a).inc Reg.VIOL_CNT.COUNT).ev Reg.MEM_EVT.VIOL).put Reg.MEM_FRZ.FROZEN
      ((s.violRecord m c a).get Reg.MEM_FRZ.FROZEN ||| 2 ^ m.code) := rfl

section Violation
variable (h : RegFile.wf s.live) (m : Master) (c a : Nat)
include h

theorem violRecord_wf : RegFile.wf (s.violRecord m c a).live := by
  unfold violRecord
  split
  · exact h
  · exact put_wf (put_wf (put_wf h _ _ _) _ _ _) _ _ _

/-- Recording a violation writes MEM_VIOL alone. -/
theorem violRecord_get_other {f : FRef} {j : List Nat} (hb : f.addr j ≠ Reg.MEM_VIOL.base) :
    (s.violRecord m c a).get f j = s.get f j := by
  unfold violRecord
  split
  · rfl
  · have h1 := put_wf h Reg.MEM_VIOL.MASTER m.code []
    rw [get_put_other (put_wf h1 _ _ _) _ hb, get_put_other h1 _ hb, get_put_other h _ hb]

/-- MEM_VIOL holds the master, the cause and the address of a violation that is recorded. -/
theorem violRecord_get (hv : s.get Reg.MEM_EVT.VIOL = 0) :
    (s.violRecord m c a).get Reg.MEM_VIOL.MASTER = m.code ∧ (s.violRecord m c a).get Reg.MEM_VIOL.CAUSE = c % 2 ^ 5 ∧
      (s.violRecord m c a).get Reg.MEM_VIOL.ADDR = a % 2 ^ 24 := by
  have hon : s.on Reg.MEM_EVT.VIOL = false := by simp [State.on, hv]
  have h1 := put_wf h Reg.MEM_VIOL.MASTER m.code []
  have h2 := put_wf h1 Reg.MEM_VIOL.CAUSE c []
  simp only [violRecord, hon, Bool.false_eq_true, if_false]
  refine ⟨?_, ?_, get_put_same h2 _ (by decide) (by decide)⟩
  · rw [get_put_beside (f := Reg.MEM_VIOL.ADDR) (g := Reg.MEM_VIOL.MASTER) h2 _ (by decide) (by decide) rfl (by decide),
      get_put_beside (f := Reg.MEM_VIOL.CAUSE) (g := Reg.MEM_VIOL.MASTER) h1 _ (by decide) (by decide) rfl (by decide),
      get_put_same h _ (by decide) (by decide)]
    exact Nat.mod_eq_of_lt (Nat.lt_trans m.code_lt (by decide))
  · rw [get_put_beside (f := Reg.MEM_VIOL.ADDR) (g := Reg.MEM_VIOL.CAUSE) h2 _ (by decide) (by decide) rfl (by decide)]
    exact get_put_same h1 _ (by decide) (by decide)

/-- A violation writes its record, its count, its event and the frozen masters. -/
theorem violate_liveAt {b : Nat} (h1 : b ≠ Reg.VIOL_CNT.base) (h2 : b ≠ Reg.MEM_EVT.base) (h3 : b ≠ Reg.MEM_FRZ.base) :
    (s.violate m c a).liveAt b = (s.violRecord m c a).liveAt b := by
  have k := violRecord_wf h m c a
  rw [violate_eq, liveAt_put_other (ev_wf (inc_wf k _ _ _) _ _) _ h3, State.ev, liveAt_put_other (inc_wf k _ _ _) _ h2, State.inc,
    liveAt_put_other k _ h1]

theorem violate_get_record {f : FRef} (hb : f.addr [] = Reg.MEM_VIOL.base) :
    (s.violate m c a).get f = (s.violRecord m c a).get f := by
  unfold State.get
  rw [hb, violate_liveAt h m c a (by decide) (by decide) (by decide)]

/-- A violation freezes its master and no other. -/
theorem violate_frozen (k : Master) : (s.violate m c a).frozen k = (decide (k = m) || s.frozen k) := by
  have hw := ev_wf (inc_wf (violRecord_wf h m c a) Reg.VIOL_CNT.COUNT [] 1) Reg.MEM_EVT.VIOL []
  have hlt : s.get Reg.MEM_FRZ.FROZEN ||| 2 ^ m.code < 2 ^ 6 :=
    Nat.or_lt_two_pow (get_lt s _ _) (Nat.pow_lt_pow_right (by decide) m.code_lt)
  unfold State.frozen
  rw [violate_eq, violRecord_get_other h m c a (by decide), get_put_same hw _ (by decide) (by decide)]
  rw [show Reg.MEM_FRZ.FROZEN.hi + 1 - Reg.MEM_FRZ.FROZEN.lo = 6 from rfl, Nat.mod_eq_of_lt hlt, Nat.testBit_or, Nat.testBit_two_pow, Bool.or_comm]
  congr 1
  exact decide_eq_decide.2 ⟨fun e => (Master.code_inj e).symm, fun e => e ▸ rfl⟩

/-- A violation sets MEM_EVT.VIOL. -/
theorem violate_event : (s.violate m c a).get Reg.MEM_EVT.VIOL = 1 := by
  have k := inc_wf (violRecord_wf h m c a) Reg.VIOL_CNT.COUNT [] 1
  rw [violate_eq, get_put_other (ev_wf k _ _) _ (by decide)]
  exact get_put_same k 1 (by decide) (by decide)

end Violation

/-! ## Plain registers: INT_EN, THM_EVT and PMC_SEL0 -/

/-- A permitted write to a powered register that has no write of its own writes its fields. -/
theorem busWrite_fields {a : Nat} (h : s.mayWrite q a) (hrow : rowOf a = some (row, i)) (hp : row.base ≠ Reg.RNG_PI.base)
    (hc : row.base ≠ Reg.RNG_CI.base)
    (hplain : s.regWrite (masterOf q) row a i (BitVec.allOnes 48) w = (s.fieldsWrite row a w, psOK)) :
    s.busWrite (masterOf q) a w = (s.fieldsWrite row a w, psOK) := by
  obtain ⟨r, j, hr, hn, hd⟩ := h
  have e : some (r, j) = some (row, i) := hr.2.2.2.2.2.symm.trans hrow
  cases e
  rw [busWrite_reg hr hn hd hp hc, hplain]

theorem busWrite_intEn (h : s.mayWrite q Reg.INT_EN.base) :
    s.busWrite (masterOf q) Reg.INT_EN.base w = (s.fieldsWrite Reg.INT_EN Reg.INT_EN.base w, psOK) :=
  busWrite_fields h (i := []) (by decide) (by decide) (by decide) rfl

theorem busWrite_thmEvt (h : s.mayWrite q Reg.THM_EVT.base) :
    s.busWrite (masterOf q) Reg.THM_EVT.base w = (s.fieldsWrite Reg.THM_EVT Reg.THM_EVT.base w, psOK) :=
  busWrite_fields h (i := []) (by decide) (by decide) (by decide) rfl

theorem busWrite_pmcSel (h : s.mayWrite q Reg.PMC_SEL.base) :
    s.busWrite (masterOf q) Reg.PMC_SEL.base w = (s.fieldsWrite Reg.PMC_SEL Reg.PMC_SEL.base w, psOK) :=
  busWrite_fields h (i := [0]) (by decide) (by decide) (by decide) rfl

theorem liveAt_fieldsWrite (h : RegFile.wf s.live) (r : Row) (a : Nat) (w : Word) :
    (s.fieldsWrite r a w).liveAt a = BitVec.ofNat 48 (r.fields.foldl (fieldStep w) (s.liveAt a).toNat) := by
  rw [fieldsWrite_eq, liveAt_setLive_same h]

theorem intEn_covers (b : Nat) : Reg.INT_EN.fields.any (·.covers b) = decide (b < 4) := by
  simp only [Reg.INT_EN, List.any_cons, List.any_nil, Field.covers]
  rw [Bool.eq_iff_iff]
  simp
  omega

theorem thmEvt_covers (b : Nat) : Reg.THM_EVT.fields.any (·.covers b) = decide (b < 8) := by
  simp only [Reg.THM_EVT, List.any_cons, List.any_nil, Field.covers]
  rw [Bool.eq_iff_iff]
  simp
  omega

theorem intEn_written (h : RegFile.wf s.live) (w : Word) : (s.fieldsWrite Reg.INT_EN Reg.INT_EN.base w).liveAt Reg.INT_EN.base =
    (s.liveAt Reg.INT_EN.base &&& ~~~15) ||| (w &&& 15) := by
  rw [liveAt_fieldsWrite h]
  refine BitVec.eq_of_getLsbD_eq fun b hb => ?_
  have hm : (15 : Word).getLsbD b = decide (b < 4) := Nat.testBit_two_pow_sub_one 4 b
  simp only [BitVec.getLsbD_ofNat, foldl_rw_testBit w b (l := Reg.INT_EN.fields) (by decide), intEn_covers, BitVec.getLsbD_or,
    BitVec.getLsbD_and, BitVec.getLsbD_not, hm, BitVec.testBit_toNat]
  by_cases h4 : b < 4 <;> simp [h4, hb]

theorem thmEvt_written (h : RegFile.wf s.live) (w : Word) : (s.fieldsWrite Reg.THM_EVT Reg.THM_EVT.base w).liveAt Reg.THM_EVT.base =
    s.liveAt Reg.THM_EVT.base &&& ~~~(w &&& 0xFF) := by
  rw [liveAt_fieldsWrite h]
  refine BitVec.eq_of_getLsbD_eq fun b hb => ?_
  have hm : (0xFF : Word).getLsbD b = decide (b < 8) := Nat.testBit_two_pow_sub_one 8 b
  simp only [BitVec.getLsbD_ofNat, foldl_w1c_testBit w b (l := Reg.THM_EVT.fields) (by decide), thmEvt_covers,
    BitVec.getLsbD_and, BitVec.getLsbD_not, hm, BitVec.testBit_toNat]
  by_cases h8 : b < 8 <;> simp [h8, hb]

/-- Bits above a field do not change it. -/
theorem bits_mod_two_pow (x : Nat) {hi lo k : Nat} (h : hi < k) : bits (x % 2 ^ k) hi lo = bits x hi lo := by
  refine Nat.eq_of_testBit_eq fun b => ?_
  rw [bits_testBit, bits_testBit, Nat.testBit_mod_two_pow]
  by_cases hb : b < hi + 1 - lo
  · simp [show lo + b < k by omega]
  · simp [hb]

/-- A field of a register whose fields were written. -/
theorem get_fieldsWrite (h : RegFile.wf s.live) (r : Row) (w : Word) {f : FRef} {j : List Nat} (hf : f.hi < 48) :
    (s.fieldsWrite r (f.addr j) w).get f j = bits (r.fields.foldl (fieldStep w) (s.liveAt (f.addr j)).toNat) f.hi f.lo := by
  unfold State.get
  rw [liveAt_fieldsWrite h, BitVec.toNat_ofNat, bits_mod_two_pow _ hf]

/-- PMC_SEL takes MODE, and EVENT where its code is not reserved (R6). -/
theorem pmcSel_written (h : RegFile.wf s.live) (w : Word) :
    (s.fieldsWrite Reg.PMC_SEL Reg.PMC_SEL.base w).get Reg.PMC_SEL.MODE = w.toNat / 256 % 2 ∧
    (s.fieldsWrite Reg.PMC_SEL Reg.PMC_SEL.base w).get Reg.PMC_SEL.EVENT =
      if pmcReserved (w.toNat % 256) then s.get Reg.PMC_SEL.EVENT else w.toNat % 256 := by
  have hm := get_fieldsWrite h Reg.PMC_SEL w (f := Reg.PMC_SEL.MODE) (j := []) (by decide)
  have he := get_fieldsWrite h Reg.PMC_SEL w (f := Reg.PMC_SEL.EVENT) (j := []) (by decide)
  have hold : s.get Reg.PMC_SEL.EVENT = bits (s.liveAt Reg.PMC_SEL.base).toNat 7 0 := rfl
  refine ⟨hm.trans ?_, he.trans ?_⟩
  · show bits (Reg.PMC_SEL.fields.foldl (fieldStep w) (s.liveAt Reg.PMC_SEL.base).toNat) 8 8 = _
    rw [pmcSel_fold]
    split
    · rw [bits_setBits_same _ _ (by decide)]; omega
    · rw [bits_setBits_other _ _ (by decide) (by decide), bits_setBits_same _ _ (by decide)]; omega
  · show bits (Reg.PMC_SEL.fields.foldl (fieldStep w) (s.liveAt Reg.PMC_SEL.base).toNat) 7 0 = _
    rw [pmcSel_fold, hold]
    split
    · rw [bits_setBits_other _ _ (by decide) (by decide)]
    · rw [bits_setBits_same _ _ (by decide)]; omega

end State

/-- Settles O56: the outcomes of a write in the order of the bus, what a violation does, and the fields of three plain registers. -/
theorem registerWrites : Obligations.RegisterWrites := by
  intro s q a w hs m n l r
  have hn : n < 2 ^ 24 := a.isLt
  obtain ⟨hlive, hunder, -⟩ := hs
  refine ⟨fun h => congrArg Host.Outcome.next (access_silent h _), fun h hq => congrArg Host.Outcome.next (access_unreleased h hq _),
    fun h => congrArg Host.Outcome.next (accessW_bus h.1 h.2.1 h.2.2), ?_⟩
  intro fused
  refine ⟨fun h => busWrite_fused h.1 h.2, busWrite_unmapped hn, fun row i hf hr => ?_, fun c hc => ?_, fun h => ?_, fun h => ?_, fun h => ?_⟩
  · intro permits
    refine ⟨busWrite_unstaged hn hf hr, fun hst => ⟨fun c => busWrite_violation hn hf hr hst, fun hc ha => ?_,
      busWrite_off hn hf hr, busWrite_stagedLive hn hf hr⟩, writeCause_locked, writeCause_notOwner⟩
    have hu := busWrite_under (w := w) hn hf hr hst hc ha
    constructor
    · intro hk
      have hr' : r = (s.setUnder l (w &&& BitVec.ofNat 48 row.mask), psOK) := by simpa [hk] using hu
      rw [hr']
      exact ⟨rfl, underAt_setUnder_same hunder _ _, setUnder_marked _ _ _, setUnder_unpoisoned _ _ _, rfl,
        fun b hb => underAt_setUnder_other hunder _ hb⟩
    · intro hk
      rw [if_pos hk] at hu
      exact hu
  · refine ⟨?_, fun k hk => ?_, violate_event hlive m c n, fun hv => ?_, fun hv => ?_⟩
    · simp [violate_frozen hlive]
    · simp [violate_frozen hlive, hk]
    · rw [violate_get_record hlive m c n rfl, violate_get_record hlive m c n rfl, violate_get_record hlive m c n rfl]
      obtain ⟨hm, hcause, haddr⟩ := violRecord_get hlive m c n hv
      exact ⟨hm, by rw [hcause]; omega, haddr.trans (Nat.mod_eq_of_lt hn)⟩
    · have hon : s.on Reg.MEM_EVT.VIOL = true := by simp [State.on, hv]
      rw [violate_liveAt hlive m c n (by decide) (by decide) (by decide), violRecord, if_pos hon]
  · rw [busWrite_intEn h]
    exact ⟨rfl, intEn_written hlive w⟩
  · rw [busWrite_thmEvt h]
    exact thmEvt_written hlive w
  · rw [busWrite_pmcSel h]
    obtain ⟨hm, he⟩ := pmcSel_written hlive w
    refine ⟨hm, fun hc => ?_, fun hc => ?_⟩
    · have hres : pmcReserved (w.toNat % 256) = true := by rcases hc with hc | hc <;> rw [hc] <;> rfl
      exact he.trans (if_pos hres)
    · have hfree : ¬ pmcReserved (w.toNat % 256) = true := by simp [pmcReserved]; omega
      exact he.trans (if_neg hfree)

end Sys2Proof.Machine
end

section
/-! SUPPORT. What frame locks, lanes and slices read as after an update, and how the commands of frame lock run. -/
namespace Sys2Proof.Machine
open State

namespace State
variable {s : State}

/-! ## Events and counters -/

theorem get_ev_same (h : RegFile.wf s.live) {f : FRef} {i : List Nat} (hf : f.hi < 48) (hl : f.lo ≤ f.hi) : (s.ev f i).get f i = 1 :=
  (get_put_same h 1 hf (by omega)).trans (Nat.mod_eq_of_lt (Nat.one_lt_two_pow (by omega)))

theorem get_ev_other (h : RegFile.wf s.live) {f g : FRef} {i j : List Nat} (hb : g.addr j ≠ f.addr i) : (s.ev f i).get g j = s.get g j :=
  get_put_other h 1 hb

theorem get_inc_other (h : RegFile.wf s.live) {f g : FRef} {i j : List Nat} (n : Nat) (hb : g.addr j ≠ f.addr i) :
    (s.inc f i n).get g j = s.get g j := get_put_other h _ hb

/-! ## Frame locks, lanes and slices after an update -/

theorem frame_setFrame_same {k : Nat} (hk : k < s.frames.length) (f : FrameLock → FrameLock) : (s.setFrame k f).frame k = f (s.frame k) :=
  (upd_getD _ _ _ _ _).trans (if_pos ⟨rfl, hk⟩)

theorem frame_setFrame_other {j k : Nat} (h : j ≠ k) (f : FrameLock → FrameLock) : (s.setFrame k f).frame j = s.frame j :=
  (upd_getD _ _ _ _ _).trans (if_neg fun e => h e.1.symm)

theorem lane_setLane_same {k : Nat} (hk : k < s.lanes.length) (f : Lane → Lane) : (s.setLane k f).lane k = f (s.lane k) :=
  (upd_getD _ _ _ _ _).trans (if_pos ⟨rfl, hk⟩)

theorem slice_setSlice_same {k : Nat} (hk : k < s.slices.length) (f : Slice → Slice) : (s.setSlice k f).slice k = f (s.slice k) :=
  (upd_getD _ _ _ _ _).trans (if_pos ⟨rfl, hk⟩)

/-- The form counts nine frame locks, nine slices and eight lanes. -/
theorem wf_counts (h : s.wf) : s.frames.length = 9 ∧ s.slices.length = 9 ∧ s.lanes.length = 8 := by
  obtain ⟨-, -, -, -, -, hshape⟩ := h
  simp only [shape, shapeStd, List.cons.injEq] at hshape
  obtain ⟨hf, hs, hl, -⟩ := hshape
  exact ⟨hf, hs, hl⟩

/-! ## The commands of frame lock -/

/-- A command of a released device acts where its own condition holds. -/
theorem act_of {c : Bool} (hr : s.released = true) (hc : c = true) (f : State → State) : s.act c f = f s := by
  simp [act, whenB, hr, hc]

theorem exec_expectedMarker {k : Fin 9} (hr : s.released = true) (hu : s.lockUsed k = true) (hdr : BitVec 128) :
    exec (.expectedMarker k hdr) s = .next (((s.expectedMarker k hdr.toNat).openHosts k).abruptPhase.ltxChoose) :=
  congrArg Host.Outcome.next (act_of hr hu _)

theorem exec_standardAlignmentChange {k : Fin 9} (hr : s.released = true) (hu : s.lockUsed k = true) (st : Fin 3) :
    exec (.standardAlignmentChange k st) s = .next (((s.standardAlign k st).openHosts k).abruptPhase.ltxChoose) :=
  congrArg Host.Outcome.next (act_of hr hu _)

/-! What follows a frame-lock command on the host side, in the Float's phase and at the transmit PLLs leaves the frame locks. -/

theorem openHosts_frames (s : State) (k : Nat) : (s.openHosts k).frames = s.frames := by
  unfold openHosts
  split
  · exact each_kept (P := fun t => t.frames = s.frames) rfl fun _ _ h => h
  · rfl

theorem abruptPhase_frames (s : State) : s.abruptPhase.frames = s.frames :=
  whenB_kept (P := fun t => t.frames = s.frames) rfl fun _ h => h

theorem ltxChoose_frames (s : State) : s.ltxChoose.frames = s.frames :=
  each_kept (P := fun t => t.frames = s.frames) rfl fun _ _ h => h

theorem relocked_frame (s : State) (k j : Nat) : (s.openHosts k).abruptPhase.ltxChoose.frame j = s.frame j := by
  simp only [frame, ltxChoose_frames, abruptPhase_frames, openHosts_frames]

end State

/-! ## A candidate that locks on another lane's marker (R63) -/

/-- The Float converges on lane 0, which is LOCKED on its own marker; its candidate frame lock has seen the marker of lane 1 twice. -/
def strayCandidate : State :=
  (({ State.reset with
      pwr := { State.reset.pwr with on := BitVec.allOnes 57 }
      frames := ⟨fsLOCKED, 0, 3, 0, some 0, true⟩ :: List.replicate 7 FrameLock.hunting ++ [⟨fsVERIFY, 1, 2, 0, none, false⟩] } : State).put
    Reg.BST_STAT.STATE bsPASSED).put Reg.MIG_STAT.PHASE phCONVERGE

/-- The header that brings the marker of lane 1 a third time. -/
def strayHeader : BitVec 128 := BitVec.ofNat 128 (marker 1 * 2 ^ 64)

theorem strayCandidate_wf : strayCandidate.wf := by decide +kernel

theorem strayCandidate_runs : strayCandidate.released = true ∧ strayCandidate.lockUsed 8 = true ∧ strayCandidate.lockRuns 8 = true ∧
    strayCandidate.lockFmt 8 ≠ fmtSTANDARD := by decide +kernel

/-- The lock it gains aborts the migration, and the abort sends the candidate's frame lock back to HUNT. -/
theorem strayCandidate_aborts : (strayCandidate.expectedMarker 8 strayHeader.toNat).frame 8 = FrameLock.hunting := by decide +kernel

/-- Refutes O12: a candidate slice whose third match is that of another lane's marker does not stay LOCKED, since R63 aborts its migration
(cause 0x11) at once and the Float parks. -/
theorem not_frameLockStates : ¬ Obligations.FrameLockStates := by
  intro h
  obtain ⟨hr, hu, hrun, hfmt⟩ := strayCandidate_runs
  have hhit : popCount 64 ((strayHeader.toNat >>> 64) ^^^ marker (strayCandidate.frame 8).lane) ≤ strayCandidate.use Reg.FRM_CFG.LOCK_TOL [8] := by
    decide +kernel
  obtain ⟨-, -, -, -, hlocks, -⟩ := h strayCandidate 8 0 strayHeader strayCandidate_wf hr hu hrun hfmt
  obtain ⟨t, ht, hframe, -⟩ := hlocks (by decide +kernel) hhit (by decide +kernel)
  have hhunt : t.frame 8 = FrameLock.hunting :=
    calc t.frame 8 = (t.openHosts 8).abruptPhase.ltxChoose.frame 8 := (relocked_frame t 8 8).symm
      _ = ((strayCandidate.expectedMarker 8 strayHeader.toNat).openHosts 8).abruptPhase.ltxChoose.frame 8 := by
        rw [exec_expectedMarker hr hu] at ht
        exact (congrArg (fun u : State => u.frame 8) (Host.Outcome.next.inj ht)).symm
      _ = FrameLock.hunting := (relocked_frame _ 8 8).trans strayCandidate_aborts
  exact absurd (congrArg FrameLock.st (hhunt.symm.trans hframe)) (by decide)

end Sys2Proof.Machine
end

section
/-! SUPPORT. What a loss of frame lock leaves of the line lanes: the Scrim link that goes down, the counts and events of the control world
and an abort of the Float write only registers above the line lanes' blocks and latency reports, or in the Float's own block. -/
namespace Sys2Proof.Machine
open State

/-- A register of a line lane's block, or of the blocks between those and the rings; the latency reports are among them. -/
abbrev lineReg (a : Nat) : Prop := a < 0x088000 ∨ (0x089000 ≤ a ∧ a < 0x280000)

theorem addrOf_base_le (b : Nat) (ss i : List Nat) : b ≤ addrOf b ss i := by
  induction ss generalizing b i with
  | nil => simp [addrOf]
  | cons s ss ih =>
    cases i with
    | nil => simp [addrOf]
    | cons i is => exact Nat.le_trans (Nat.le_add_right _ _) (ih _ _)

/-- From `s` to `t` the register file keeps its form, and the line lanes keep their registers, their frame locks and what else they hold. -/
structure LineKept (s t : State) : Prop where
  form : RegFile.wf t.live
  regs : ∀ a, lineReg a → t.liveAt a = s.liveAt a
  frames : ∀ j < 8, t.frame j = s.frame j
  lanes : t.lanes = s.lanes

namespace LineKept
variable {s t u : State}

theorem refl (h : RegFile.wf s.live) : LineKept s s := ⟨h, fun _ _ => rfl, fun _ _ => rfl, rfl⟩

/-- A field of a line register. -/
theorem get (h : LineKept s t) {f : FRef} {i : List Nat} (hf : lineReg (f.addr i)) : t.get f i = s.get f i := by
  unfold State.get
  rw [h.regs _ hf]

/-- A change of anything but registers, frame locks and lanes. -/
theorem same (h : LineKept s t) (hl : u.live = t.live) (hf : u.frames = t.frames) (hn : u.lanes = t.lanes) : LineKept s u where
  form := hl ▸ h.form
  regs a ha := by rw [← h.regs a ha, liveAt, liveAt, hl]
  frames j hj := by rw [← h.frames j hj, frame, frame, hf]
  lanes := hn.trans h.lanes

theorem setLive (h : LineKept s t) {a : Nat} (ha : ¬ lineReg a) (w : Word) : LineKept s (t.setLive a w) where
  form := setLive_wf h.form a w
  regs b hb := (liveAt_setLive_other h.form w (by rintro rfl; exact ha hb)).trans (h.regs b hb)
  frames := h.frames
  lanes := h.lanes

/-- Registers from the rings' block on are none of a line lane's. -/
theorem not_lineReg {f : FRef} (hf : 0x280000 ≤ f.base) (i : List Nat) : ¬ lineReg (f.addr i) := by
  have := addrOf_base_le f.base f.strides i
  unfold FRef.addr
  omega

/-- A write of a field that lies elsewhere: in the Float's block, or from the rings' block on. -/
theorem put (h : LineKept s t) {f : FRef} {i : List Nat} (hf : ¬ lineReg (f.addr i)) (v : Nat) : LineKept s (t.put f v i) := h.setLive hf _

theorem putHigh (h : LineKept s t) {f : FRef} (hf : 0x280000 ≤ f.base) (v : Nat) (i : List Nat) : LineKept s (t.put f v i) :=
  h.put (not_lineReg hf i) v

theorem inc (h : LineKept s t) {f : FRef} {i : List Nat} (hf : ¬ lineReg (f.addr i)) (n : Nat) : LineKept s (t.inc f i n) := h.put hf _

theorem seqEv (h : LineKept s t) (b : Nat) : LineKept s (t.seqEv b) := h.put (by decide) _

theorem evIf (h : LineKept s t) {f : FRef} {i : List Nat} (hf : ¬ lineReg (f.addr i)) (c : Bool) : LineKept s (t.evIf c f i) :=
  ite_kept (h.put hf 1) h

theorem capEv (h : LineKept s t) (b : Nat) : LineKept s (t.capEv b) := ite_kept (h.same rfl rfl rfl) h

theorem pmc (h : LineKept s t) (code n r : Nat) : LineKept s (t.pmc code n r) := by
  obtain ⟨heq, hform, hcounts⟩ := pmc_counts h.form code n r
  refine ⟨hform, fun a ha => (hcounts a fun hc => ?_).trans (h.regs a ha), fun j hj => ?_, ?_⟩
  · unfold countsAt at hc
    omega
  · rw [heq]
    exact h.frames j hj
  · rw [heq]
    exact h.lanes

/-! ## The in-band Scrim link goes down (R231, R237 to R239) -/

theorem setFabric (h : LineKept s t) (f : Fabric) : LineKept s { t with scr := f } := h.same rfl rfl rfl

theorem setLink (h : LineKept s t) (j : Nat) (f : Link → Link) : LineKept s (t.setLink j f) := h.setFabric _

theorem transmit (h : LineKept s t) (j : Nat) (f : SFrame) : LineKept s (t.transmit j f) :=
  (h.inc (not_lineReg (by decide) _) _).setLink j _

theorem sendFrame (h : LineKept s t) (j : Nat) (f : SFrame) : LineKept s (t.sendFrame j f) :=
  ite_kept ((h.transmit j _).setLink j _) (h.setLink j _)

theorem ringConsume (h : LineKept s t) (r n : Nat) : LineKept s (t.ringConsume r n) :=
  whenB_kept ((h.putHigh (by decide) _ _).evIf (not_lineReg (by decide) _) _) fun _ hx => hx.seqEv 1

theorem fabTxDone (h : LineKept s t) (n : Nat) : LineKept s (t.fabTxDone n) := by
  induction n generalizing t with
  | zero => exact h
  | succ n ih =>
    unfold State.fabTxDone
    split
    · rename_i rest _
      exact ih ((h.setFabric { t.scr with tx := rest }).ringConsume _ _)
    · exact h

theorem fabTxFinish (h : LineKept s t) (m : BitVec 16) : LineKept s (t.fabTxFinish m) := by
  have hmarked := h.setFabric
    { t.scr with tx := t.scr.tx.map fun (p : BitVec 16 × Nat × Bool) => if p.1 = m then (p.1, p.2.1, true) else p }
  exact hmarked.fabTxDone _

theorem viol (h : LineKept s t) (c : Nat) : LineKept s (t.viol c) :=
  ((h.inc (not_lineReg (by decide) _) _).put (by decide) _).seqEv 10

theorem noRoute (h : LineKept s t) (f : SFrame) : LineKept s (t.noRoute f) :=
  ite_kept ((h.viol _).fabTxFinish _) (h.viol _)

theorem sendOn (h : LineKept s t) (f : SFrame) : LineKept s (t.sendOn f) := by
  unfold State.sendOn
  split
  · exact h.sendFrame _ f
  · exact h.noRoute f

theorem linkEv (h : LineKept s t) {f : FRef} (hf : 0x280000 ≤ f.base) (j : Nat) : LineKept s (t.linkEv f j) :=
  (h.putHigh hf _ _).seqEv 10

theorem linkLeave (h : LineKept s t) (j st : Nat) : LineKept s (t.linkLeave j st) := by
  have hst : LineKept s (t.put Reg.LINK_STAT.STATE st [j]) := h.putHigh (by decide) st [j]
  have hlost : LineKept s ((((t.put Reg.LINK_STAT.STATE st [j]).inc Reg.UP_LOSS_CNT.COUNT [j]).linkEv Reg.LINK_EVT.UP_LOST j).whenB
      (t.linkState j = lkUP) (·.capEv 60)) :=
    whenB_kept ((hst.inc (not_lineReg (by decide) _) _).linkEv (by decide) j) fun _ hx => hx.capEv 60
  have nbr (r : Row) (hr : 0x280000 ≤ r.base) : ¬ lineReg (r.addr [j]) := by
    have := addrOf_base_le r.base (r.dims.map (·.1)) [j]
    unfold Row.addr
    omega
  have hnbr := ((hlost.setLive (nbr Reg.NBR_ID0 (by decide)) 0).setLive (nbr Reg.NBR_INFO (by decide)) 0).setLive
    (nbr Reg.NBR_FMT (by decide)) 0
  exact ite_kept hst (each_kept ((ite_kept hnbr hlost).setLink j _) fun _ f hx => hx.sendOn f)

theorem inbandDown (h : LineKept s t) (k : Nat) : LineKept s (t.inbandDown k) :=
  ite_kept (ite_kept (h.setLink k _) ((h.setLink k _).linkLeave k _)) h

/-! ## A migration is aborted (R63) -/

theorem setPhase (h : LineKept s t) (p : Nat) : LineKept s (t.setPhase p) := h.put (by decide) p

theorem mg (h : LineKept s t) (f : Mig → Mig) : LineKept s (t.mg f) := h.same rfl rfl rfl

theorem candHunt (h : LineKept s t) : LineKept s t.candHunt where
  form := h.form
  regs := h.regs
  frames j hj := (frame_setFrame_other (by omega) _).trans (h.frames j hj)
  lanes := h.lanes

theorem setInUse (h : LineKept s t) (l : List (Nat × Word)) : LineKept s { t with inUse := l } := h.same rfl rfl rfl

theorem setSlice (h : LineKept s t) (k : Nat) (f : Slice → Slice) : LineKept s (t.setSlice k f) := h.same rfl rfl rfl

theorem floatTake (h : LineKept s t) : LineKept s t.floatTake := by
  have hlane := each_kept (l := [0x00, 0x10, 0x11, 0x12, 0x13, 0x14]) h fun x o hx =>
    hx.setInUse (RegFile.set x.inUse (laneBase 8 + o) (x.liveAt (laneBase (t.cfgOf 8) + o)))
  have hown := each_kept (l := [0x01, 0x110]) hlane fun x o hx =>
    hx.setInUse (RegFile.set x.inUse (laneBase 8 + o) (x.liveAt (laneBase 8 + o)))
  exact hown.setInUse _

theorem loadSkew (h : LineKept s t) : LineKept s (t.loadSkew 8) :=
  ite_kept h (put (f := Reg.SKIM_STAT.SKEW_PEND) (i := [8]) (h.same rfl rfl rfl : LineKept s (t.setCal 8 _)) (by decide) 0)

theorem floatPark (h : LineKept s t) : LineKept s t.floatPark := by
  have hobs : LineKept s (t.whenB (t.phase = phOBSERVE_TX) obsEnd) :=
    whenB_kept h fun _ hx => (hx.put (by decide) 0).same rfl rfl rfl
  have hidle := ((hobs.setPhase phIDLE).mg fun _ => Mig.idle).candHunt
  have htaken := (hidle.setSlice 8 fun x => { x with trLock := false, passRun := 0, failRun := 0, win := ⟨0, 0, 0⟩ }).floatTake
  exact (htaken.setSlice 8 _).loadSkew

theorem migDone (h : LineKept s t) (q r : Nat) : LineKept s (t.migDone q r) := by
  have hr : LineKept s (t.migResult r) := h.put (by decide) r
  exact ite_kept hr ((hr.put (by decide) q).seqEv 3)

/-- An abort of a migration in one of its steps; only that of a Float's calibration, which is none, reaches another block. -/
theorem migAbort (h : LineKept s t) (hp : t.phase ≠ phFLOAT_CAL) (r : Nat) : LineKept s (t.migAbort r) := by
  have hback := ite_kept (c := phRET_CONVERGE ≤ t.phase ∧ t.phase ≤ phRET_SWAP_WAIT)
    ((h.setPhase phSERVE).mg fun _ => Mig.idle).candHunt h.floatPark
  unfold State.migAbort
  dsimp only
  rw [if_neg hp]
  refine ite_kept h ?_
  have hdone := hback.migDone (t.mig.seq.getD (t.get Reg.MIG_STAT.SEQ_DONE)) r
  cases t.mig.abortSeq with
  | none => exact ite_kept hdone (((hdone.put (by decide) 1).seqEv 6).inc (by decide) 1)
  | some q =>
    have hq := hdone.migDone q r
    exact ite_kept hq (((hq.put (by decide) 1).seqEv 6).inc (by decide) 1)

theorem laneLost (h : LineKept s t) (k : Nat) : LineKept s (t.laneLost k) := by
  unfold State.laneLost
  split
  · rename_i hk
    refine h.migAbort ?_ _
    simp only [phCONVERGE, phRET_CONVERGE, phFLOAT_CAL] at hk ⊢
    omega
  · exact h

end LineKept

end Sys2Proof.Machine
end

section
/-! SUPPORT. A counted loss of frame (R41, R14), and the alignment of a lane in the Standard format (R481). -/
namespace Sys2Proof.Machine
open State

namespace State
variable {s : State} {k : Nat}

/-! ## The latency reports become invalid -/

/-- The word of a latency report without VALID. -/
theorem bits_clear_valid (w : Word) : bits (w &&& 0x7FFFFFFFFFFF).toNat 47 47 = 0 := by
  refine Nat.eq_of_testBit_eq fun i => ?_
  rw [bits_testBit, Nat.zero_testBit]
  cases i with
  | zero => simp [show Nat.testBit 0x7FFFFFFFFFFF 47 = false by decide]
  | succ i => simp

theorem lat_addr (k j : Nat) : Reg.LAT.addr [k, j] = 0x200100 + 8 * k + j := by simp [Row.addr, Reg.LAT, addrOf]

theorem latValid_addr (k j : Nat) : Reg.LAT.VALID.addr [k, j] = 0x200100 + 8 * k + j := lat_addr k j

/-- VALID is cleared in the reports `l` of lane `k`; nothing else changes. -/
theorem each_clearValid (h : RegFile.wf s.live) (k : Nat) (l : List Nat) :
    let t := s.each l fun s j => s.setLive (Reg.LAT.addr [k, j]) (s.liveAt (Reg.LAT.addr [k, j]) &&& 0x7FFFFFFFFFFF)
    RegFile.wf t.live ∧ (∀ j ∈ l, t.get Reg.LAT.VALID [k, j] = 0) ∧ (∀ j, s.get Reg.LAT.VALID [k, j] = 0 → t.get Reg.LAT.VALID [k, j] = 0) ∧
      (∀ a < 0x200100, t.liveAt a = s.liveAt a) ∧ t.frames = s.frames ∧ t.lanes = s.lanes := by
  induction l generalizing s with
  | nil => exact ⟨h, by simp, fun _ hj => hj, fun _ _ => rfl, rfl, rfl⟩
  | cons i l ih =>
    let u := s.setLive (Reg.LAT.addr [k, i]) (s.liveAt (Reg.LAT.addr [k, i]) &&& 0x7FFFFFFFFFFF)
    have hi : u.get Reg.LAT.VALID [k, i] = 0 := by
      show bits (u.liveAt (Reg.LAT.addr [k, i])).toNat 47 47 = 0
      rw [liveAt_setLive_same h, bits_clear_valid]
    have hkeep (j : Nat) (hj : s.get Reg.LAT.VALID [k, j] = 0) : u.get Reg.LAT.VALID [k, j] = 0 := by
      by_cases e : j = i
      · exact e ▸ hi
      · have ha : Reg.LAT.addr [k, j] ≠ Reg.LAT.addr [k, i] := by rw [lat_addr, lat_addr]; omega
        show bits (u.liveAt (Reg.LAT.addr [k, j])).toNat 47 47 = 0
        rw [liveAt_setLive_other h _ ha]
        exact hj
    obtain ⟨hform, hin, hstay, hlow, hframes, hlanes⟩ := ih (s := u) (setLive_wf h _ _)
    refine ⟨hform, ?_, fun j hj => hstay j (hkeep j hj), fun a ha => (hlow a ha).trans (liveAt_setLive_other h _ ?_), hframes, hlanes⟩
    · intro j hj
      rcases List.mem_cons.1 hj with rfl | hj
      · exact hstay j hi
      · exact hin j hj
    · rw [lat_addr]
      omega

/-- R197: the ingress measurements of the present tick are bad. -/
theorem ingress_bad (l : List LatRun) :
    ∀ e ∈ (l.zipIdx.map fun q => if 2 ≤ q.2 then { q.1 with wait := [], bad := true } else q.1).drop 2, e.bad = true := by
  intro e he
  obtain ⟨i, hi, rfl⟩ := List.getElem_of_mem he
  simp

/-- What a lane that loses its lock holds: its ingress latency is invalid, in the reports and in the tick under way, and its host transmit
rate stands (R14, R41, R197). -/
structure LockGone (t : State) (k : Nat) : Prop where
  reports : ∀ j ∈ [2, 3, 6, 7], t.get Reg.LAT.VALID [k, j] = 0
  runs : ∀ e ∈ (t.lane k).lat.drop 2, e.bad = true
  rate : (t.lane k).rateHeld = true

theorem holdRate_latInvalid (h : RegFile.wf s.live) (hk : k < s.lanes.length) :
    let t := (s.holdRate k).latInvalid k
    LockGone t k ∧ RegFile.wf t.live ∧ (∀ a < 0x200100, t.liveAt a = s.liveAt a) ∧ t.frames = s.frames := by
  obtain ⟨hform, hvalid, -, hlow, hframes, hlanes⟩ := each_clearValid (s := s.holdRate k) h k [2, 3, 6, 7]
  unfold latInvalid
  dsimp only at hform hvalid hlow hframes hlanes ⊢
  generalize State.each (s.holdRate k) [2, 3, 6, 7] _ = u at *
  have hu : k < u.lanes.length := by
    rw [hlanes]
    exact (upd_length s.lanes k _).symm ▸ hk
  have hrate : (u.lane k).rateHeld = true := by
    rw [lane, hlanes]
    exact congrArg Lane.rateHeld (lane_setLane_same hk _)
  refine ⟨⟨hvalid, ?_, ?_⟩, hform, hlow, hframes⟩
  · rw [lane_setLane_same hu]
    exact ingress_bad _
  · rw [lane_setLane_same hu]
    exact hrate

theorem LockGone.of {t u : State} (h : LockGone t k) (hl : u.lanes = t.lanes)
    (hv : ∀ j ∈ [2, 3, 6, 7], u.get Reg.LAT.VALID [k, j] = t.get Reg.LAT.VALID [k, j]) : LockGone u k where
  reports j hj := (hv j hj).trans (h.reports j hj)
  runs := by
    rw [lane, hl]
    exact h.runs
  rate := by
    rw [lane, hl]
    exact h.rate

theorem LockGone.kept {t u : State} (h : LockGone t k) (hk : k < 8) (hu : LineKept t u) : LockGone u k := by
  refine h.of hu.lanes fun j hj => hu.get ?_
  simp only [List.mem_cons, List.not_mem_nil, or_false] at hj
  rw [latValid_addr]
  omega

/-! ## A loss of frame -/

theorem lolCnt_addr (k : Nat) : Reg.FRM_LOL_CNT.COUNT.addr [k] = 0x080043 + 0x1000 * k := by
  simp [FRef.addr, Reg.FRM_LOL_CNT.COUNT, addrOf]

theorem frmEvt_addr (k : Nat) : Reg.FRM_EVT.LOL.addr [k] = 0x080042 + 0x1000 * k := by simp [FRef.addr, Reg.FRM_EVT.LOL, addrOf]

theorem frmStat_addr (k : Nat) : Reg.FRM_STAT.LANE_SWAP.addr [k] = 0x080041 + 0x1000 * k := by
  simp [FRef.addr, Reg.FRM_STAT.LANE_SWAP, addrOf]

theorem lolCnt_line (hk : k < 8) : lineReg (Reg.FRM_LOL_CNT.COUNT.addr [k]) := by rw [lolCnt_addr]; omega

/-- A line lane leaves LOCKED: it hunts, and no other lane's lock and no count of its own changes. -/
theorem leaveLocked_line (h : s.wf) (hk : k < 8) :
    let t := s.leaveLocked k
    LockGone t k ∧ RegFile.wf t.live ∧ t.frame k = FrameLock.hunting ∧ (∀ j < 8, j ≠ k → t.frame j = s.frame j) ∧
      t.get Reg.FRM_LOL_CNT.COUNT [k] = s.get Reg.FRM_LOL_CNT.COUNT [k] := by
  obtain ⟨hframes, -, hlanes⟩ := wf_counts h
  have hkf : k < s.frames.length := by omega
  have hcnt := lolCnt_line hk
  have hlow : Reg.FRM_LOL_CNT.COUNT.addr [k] < 0x200100 := by rw [lolCnt_addr]; omega
  have hstat : Reg.FRM_LOL_CNT.COUNT.addr [k] ≠ Reg.FRM_STAT.LANE_SWAP.addr [k] := by rw [lolCnt_addr, frmStat_addr]; omega
  unfold leaveLocked
  rw [if_neg (show k ≠ 8 by omega)]
  have hform : RegFile.wf ((s.setFrame k fun _ => FrameLock.hunting).put Reg.FRM_STAT.LANE_SWAP 0 [k]).live := put_wf h.1 _ _ _
  have hkept := (LineKept.refl hform).inbandDown k
  have hcount := get_put_other (s := s.setFrame k fun _ => FrameLock.hunting) (f := Reg.FRM_STAT.LANE_SWAP) (i := [k]) h.1
    (g := Reg.FRM_LOL_CNT.COUNT) (j := [k]) 0 hstat
  dsimp only
  generalize State.inbandDown _ k = u at hkept ⊢
  obtain ⟨hgone, hwf, hregs, hfr⟩ := holdRate_latInvalid (s := u) (k := k) hkept.form (by rw [hkept.lanes]; exact hlanes.symm ▸ hk)
  generalize (u.holdRate k).latInvalid k = w at hgone hwf hregs hfr ⊢
  have hframe (j : Nat) (hj : j < 8) : w.frame j = (s.setFrame k fun _ => FrameLock.hunting).frame j := by
    rw [frame, hfr]
    exact hkept.frames j hj
  refine ⟨⟨hgone.reports, hgone.runs, hgone.rate⟩, hwf, ?_, fun j hj hne => ?_, ?_⟩
  · exact (hframe k hk).trans (frame_setFrame_same hkf _)
  · exact (hframe j hj).trans (frame_setFrame_other hne _)
  · calc w.get Reg.FRM_LOL_CNT.COUNT [k] = u.get Reg.FRM_LOL_CNT.COUNT [k] := by rw [State.get, hregs _ hlow, State.get]
      _ = _ := hkept.get hcnt
      _ = s.get Reg.FRM_LOL_CNT.COUNT [k] := hcount

/-- R41: a counted loss of frame of a line lane. -/
theorem lossOfFrame_line (h : s.wf) (hk : k < 8) :
    let t := s.lossOfFrame k
    LockGone t k ∧ t.frame k = FrameLock.hunting ∧ (∀ j < 8, j ≠ k → t.frame j = s.frame j) ∧
      t.get Reg.FRM_LOL_CNT.COUNT [k] = min (s.get Reg.FRM_LOL_CNT.COUNT [k] + 1) (2 ^ 48 - 1) ∧ t.get Reg.FRM_EVT.LOL [k] = 1 := by
  obtain ⟨hgone, hwf, hhunt, hothers, hcount⟩ := leaveLocked_line h hk
  have hcnt := lolCnt_line hk
  have hevt : lineReg (Reg.FRM_EVT.LOL.addr [k]) := by rw [frmEvt_addr]; omega
  have hcntEvt : Reg.FRM_LOL_CNT.COUNT.addr [k] ≠ Reg.FRM_EVT.LOL.addr [k] := by rw [lolCnt_addr, frmEvt_addr]; omega
  have hlatCnt (j : Nat) : Reg.LAT.VALID.addr [k, j] ≠ Reg.FRM_LOL_CNT.COUNT.addr [k] := by rw [latValid_addr, lolCnt_addr]; omega
  have hlatEvt (j : Nat) : Reg.LAT.VALID.addr [k, j] ≠ Reg.FRM_EVT.LOL.addr [k] := by rw [latValid_addr, frmEvt_addr]; omega
  unfold lossOfFrame
  rw [if_neg (show k ≠ 8 by omega)]
  dsimp only at hgone hwf hhunt hothers hcount ⊢
  generalize s.leaveLocked k = u at *
  have hincWf := inc_wf hwf Reg.FRM_LOL_CNT.COUNT [k] 1
  have hinc := get_inc_same hwf (f := Reg.FRM_LOL_CNT.COUNT) (i := [k]) 1 (by decide) (by decide)
  have hcounted := (get_ev_other hincWf hcntEvt).trans hinc
  have hraised := get_ev_same hincWf (f := Reg.FRM_EVT.LOL) (i := [k]) (by decide) (by decide)
  have hgoneV : LockGone ((u.inc Reg.FRM_LOL_CNT.COUNT [k]).ev Reg.FRM_EVT.LOL [k]) k :=
    hgone.of (by rw [ev_lanes, inc_lanes]) fun j _ => (get_ev_other hincWf (hlatEvt j)).trans (get_inc_other hwf 1 (hlatCnt j))
  have hkept := ((((LineKept.refl (ev_wf hincWf Reg.FRM_EVT.LOL [k])).seqEv 6).pmc (0x58 + k) 1 1).capEv k).laneLost k
  have hframes (j : Nat) : ((u.inc Reg.FRM_LOL_CNT.COUNT [k]).ev Reg.FRM_EVT.LOL [k]).frame j = u.frame j := by
    rw [frame, ev_frames, inc_frames, frame]
  unfold laneEv
  generalize (u.inc Reg.FRM_LOL_CNT.COUNT [k]).ev Reg.FRM_EVT.LOL [k] = v at *
  generalize (((v.seqEv 6).pmc (0x58 + k)).capEv k).laneLost k = t at hkept ⊢
  refine ⟨hgoneV.kept hk hkept, ?_, fun j hj hne => ?_, ?_, ?_⟩
  · rw [hkept.frames k hk, hframes, hhunt]
  · rw [hkept.frames j hj, hframes, hothers j hj hne]
  · rewrite [hkept.get hcnt, hcounted, hcount]
    rfl
  · rw [hkept.get hevt, hraised]

/-! ## The alignment of the Standard format -/

/-- An alignment that is reported as it is changes nothing. -/
theorem standardAlign_same {st : Nat} (h : (s.frame k).st = st) : s.standardAlign k st = s := by
  simp [standardAlign, h]

theorem standardAlign_gained (hf : s.lockFmt k = fmtSTANDARD) (hr : s.lockRuns k = true) (hs : (s.frame k).st ≠ fsLOCKED) :
    s.standardAlign k fsLOCKED = (let u := s.setFrame k fun _ => ⟨fsLOCKED, 0, 0, 0, some 0, true⟩
      if k = 8 then u else u.laneEv Reg.FRM_EVT.LOCK_GAINED k) := by
  simp [standardAlign, hf, hr, hs]

theorem standardAlign_moved {st : Nat} (hf : s.lockFmt k = fmtSTANDARD) (hr : s.lockRuns k = true) (hs : (s.frame k).st ≠ fsLOCKED)
    (ht : st ≠ fsLOCKED) (hne : (s.frame k).st ≠ st) : s.standardAlign k st = s.setFrame k fun _ => ⟨st, 0, 0, 0, none, false⟩ := by
  simp [standardAlign, hf, hr, hs, ht, hne]

theorem standardAlign_lost {st : Nat} (hf : s.lockFmt k = fmtSTANDARD) (hr : s.lockRuns k = true) (hs : (s.frame k).st = fsLOCKED)
    (ht : st ≠ fsLOCKED) : s.standardAlign k st = (s.lossOfFrame k).setFrame k fun _ => ⟨st, 0, 0, 0, none, false⟩ := by
  simp [standardAlign, hf, hr, hs, ht, ht.symm]

end State

/-- Settles O13: a loss of frame by what leaving LOCKED does and what its counts, events and the Float's abort leave alone; the alignment
by the cases of the present and the new state. -/
theorem frameLossAndAlignment : Obligations.FrameLossAndAlignment := by
  refine ⟨fun s k hs hk => ?_, fun s k st hr hu hrun hf => ?_⟩
  · obtain ⟨hgone, hhunt, hothers, hcount, hevent⟩ := lossOfFrame_line hs hk
    exact ⟨hhunt, hcount, hevent, hgone.reports, hgone.runs, hgone.rate, hothers⟩
  · dsimp only
    rw [exec_standardAlignmentChange hr hu]
    refine ⟨fun hsame => ?_, fun hwas hst => ?_, fun hwas hst hne => ?_, fun hwas hst => ?_⟩
    · rw [standardAlign_same hsame]
    · rw [hst, standardAlign_gained hf hrun hwas]
    · rw [standardAlign_moved hf hrun hwas hst hne]
    · rw [standardAlign_lost hf hrun hwas hst]

end Sys2Proof.Machine
end

section
/-! SUPPORT. Format probes, pattern checkers and signal detect (R43, R45, R49). -/
namespace Sys2Proof.Machine
open State

/-! ## A checker takes symbols (R45) -/

/-- The symbol that a pattern has at a place. -/
abbrev patAt (pat i : Nat) : Nat := (Config.patSymbol pat i).val

/-- In SEARCH a matching symbol extends the run, and moves the place by one. -/
theorem patStep_search_match {pat : Nat} {r : PatRun} (hst : r.st = 1) (hrun : r.chk.run ≠ 127) :
    ∃ recent, patStep pat r (patAt pat r.chk.pos) = { r with chk := ⟨r.chk.run + 1, r.chk.pos + 1, recent, 0, 0⟩ } := by
  refine ⟨(patStep pat r (patAt pat r.chk.pos)).chk.recent, ?_⟩
  simp [patStep, hst, hrun]

/-- The 128th matching symbol in a row locks. -/
theorem patStep_search_lock {pat : Nat} {r : PatRun} (hst : r.st = 1) (hrun : r.chk.run = 127) :
    ∃ chk, patStep pat r (patAt pat r.chk.pos) = { r with st := 2, chk := chk } := by
  refine ⟨(patStep pat r (patAt pat r.chk.pos)).chk, ?_⟩
  simp [patStep, hst, hrun]

/-- A LOCKED checker that takes the 32nd wrong symbol of its window counts it and returns to SEARCH. -/
theorem patStep_resync {pat x : Nat} {r : PatRun} (hst : r.st = 2) (herrs : 31 ≤ r.chk.errs) (hx : x ≠ patAt pat r.chk.pos) :
    ∃ chk bits, patStep pat r x = { st := 1, chk := chk, syms := r.syms + 1, errs := r.errs + 1, bits_ := bits, resyncs := r.resyncs + 1 } := by
  refine ⟨(patStep pat r x).chk, (patStep pat r x).bits_, ?_⟩
  simp [patStep, hst, hx, herrs, b2n]

/-- The symbols that complete a run of 128 lock the checker, and count nothing. -/
theorem patStep_run_locks (pat n : Nat) {r : PatRun} (hst : r.st = 1) (hrun : r.chk.run + n = 127) :
    ∃ chk, ((List.range (n + 1)).map fun i => patAt pat (r.chk.pos + i)).foldl (patStep pat) r = { r with st := 2, chk := chk } := by
  induction n generalizing r with
  | zero => simpa using patStep_search_lock hst hrun
  | succ n ih =>
    obtain ⟨recent, hstep⟩ := patStep_search_match (pat := pat) hst (by omega)
    rw [List.range_succ_eq_map, List.map_cons, List.foldl_cons, Nat.add_zero, hstep, List.map_map]
    obtain ⟨chk, hrest⟩ := ih (r := { r with chk := ⟨r.chk.run + 1, r.chk.pos + 1, recent, 0, 0⟩ }) hst (by simp only; omega)
    refine ⟨chk, Eq.trans ?_ hrest⟩
    congr 1
    refine List.map_congr_left fun i _ => ?_
    simp only [Function.comp_apply]
    rw [Nat.add_right_comm, Nat.add_assoc]

namespace State
variable {s : State}

/-- Where the registers of checker `n` lie: state and resync count share one, the three counters follow it. -/
theorem patRegs_fields (host : Bool) (n : Nat) :
    let r := patRegs host
    let a := r.1.addr [n]
    (r.1.hi = 1 ∧ r.1.lo = 0) ∧ (r.2.1.hi = 15 ∧ r.2.1.lo = 8) ∧ (r.2.2.1.hi = 47 ∧ r.2.2.1.lo = 0) ∧
      (r.2.2.2.1.hi = 47 ∧ r.2.2.2.1.lo = 0) ∧
      r.2.1.addr [n] = a ∧ r.2.2.1.addr [n] = a + 1 ∧ r.2.2.2.1.addr [n] = a + 2 ∧ r.2.2.2.2.addr [n] = a + 3 := by
  cases host <;>
    simp [patRegs, FRef.addr, addrOf, Reg.PAT_STAT.CHK_STATE, Reg.PAT_STAT.RESYNC, Reg.PAT_SYM_CNT.COUNT, Reg.PAT_SYM_ERR.COUNT,
      Reg.PAT_BIT_ERR.COUNT, Reg.HS_PAT_STAT.CHK_STATE, Reg.HS_PAT_STAT.RESYNC, Reg.HS_PAT_SYM_CNT.COUNT, Reg.HS_PAT_SYM_ERR.COUNT,
      Reg.HS_PAT_BIT_ERR.COUNT] <;> omega

theorem setPatChk_live (s : State) (host : Bool) (n : Nat) (c : PatChk) : (s.setPatChk host n c).live = s.live := by
  cases host <;> rfl

/-- What a span of symbols leaves in a checker's registers: the state, the count of returns to SEARCH, the symbols and the wrong ones. -/
theorem patCheck_get (h : RegFile.wf s.live) (host : Bool) (n : Nat) {pat : Nat} (hp : pat ≠ 0) (l : List Nat) :
    let r := patRegs host
    s.get r.1 [n] ≠ 0 →
    let o := l.foldl (patStep pat) ⟨s.get r.1 [n], s.patChk host n, 0, 0, 0, 0⟩
    let t := s.patCheck host n pat l
    t.get r.1 [n] = o.st % 4 ∧ t.get r.2.1 [n] = min 255 (s.get r.2.1 [n] + o.resyncs) ∧
      t.get r.2.2.1 [n] = min (s.get r.2.2.1 [n] + o.syms) (2 ^ 48 - 1) ∧
      t.get r.2.2.2.1 [n] = min (s.get r.2.2.2.1 [n] + o.errs) (2 ^ 48 - 1) := by
  obtain ⟨⟨hi1, lo1⟩, ⟨hi2, lo2⟩, ⟨hi3, lo3⟩, ⟨hi4, lo4⟩, ha2, ha3, ha4, ha5⟩ := patRegs_fields host n
  unfold patCheck
  generalize patRegs host = r at *
  obtain ⟨f1, f2, f3, f4, f5⟩ := r
  dsimp only at *
  intro hst
  rw [if_neg (by simp [hp, hst])]
  generalize List.foldl (patStep pat) _ l = o
  have hu : RegFile.wf (s.setPatChk host n o.chk).live := (setPatChk_live s host n o.chk).symm ▸ h
  have hget (f : FRef) (i : List Nat) : (s.setPatChk host n o.chk).get f i = s.get f i := by
    rewrite [State.get, liveAt, setPatChk_live]
    rfl
  generalize s.setPatChk host n o.chk = u at *
  have w1 := put_wf hu f1 o.st [n]
  have w2 := put_wf w1 f2 (min 255 (s.get f2 [n] + o.resyncs)) [n]
  have w3 := inc_wf w2 f3 [n] o.syms
  have w4 := inc_wf w3 f4 [n] o.errs
  have n12 : f1.addr [n] = f2.addr [n] → f2.hi < f1.lo ∨ f1.hi < f2.lo := by omega
  have n13 : f1.addr [n] ≠ f3.addr [n] := by omega
  have n14 : f1.addr [n] ≠ f4.addr [n] := by omega
  have n15 : f1.addr [n] ≠ f5.addr [n] := by omega
  have n34 : f3.addr [n] ≠ f4.addr [n] := by omega
  have n35 : f3.addr [n] ≠ f5.addr [n] := by omega
  have n45 : f4.addr [n] ≠ f5.addr [n] := by omega
  refine ⟨?_, ?_, ?_, ?_⟩
  · rewrite [get_inc_other w4 _ n15, get_inc_other w3 _ n14, get_inc_other w2 _ n13, get_put_ne w1 _ (by omega) (by omega) n12,
      get_put_same hu _ (by omega) (by omega), hi1, lo1]
    rfl
  · rw [get_inc_other w4 _ (ha2 ▸ n15), get_inc_other w3 _ (ha2 ▸ n14), get_inc_other w2 _ (ha2 ▸ n13),
      get_put_same w1 _ (by omega) (by omega), hi2, lo2]
    exact Nat.mod_eq_of_lt (by omega)
  · rewrite [get_inc_other w4 _ n35, get_inc_other w3 _ n34, get_inc_same w2 _ (by omega) (by omega), get_put_other w1 _ (ha2 ▸ n13.symm),
      get_put_other hu _ n13.symm, hget, hi3, lo3]
    rfl
  · rewrite [get_inc_other w4 _ n45, get_inc_same w3 _ (by omega) (by omega), get_inc_other w2 _ n34.symm, get_put_other w1 _ (ha2 ▸ n14.symm),
      get_put_other hu _ n14.symm, hget, hi4, lo4]
    rfl

/-- In SEARCH the rest of a run of 128 matching symbols locks the checker; it has resynchronised no more often. -/
theorem patCheck_locks (h : RegFile.wf s.live) (host : Bool) (n : Nat) {pat : Nat} (hp : pat ≠ 0)
    (hst : s.get (patRegs host).1 [n] = 1) (hrun : (s.patChk host n).run < 128) :
    let r := patRegs host
    let t := s.patCheck host n pat ((List.range (128 - (s.patChk host n).run)).map fun i => patAt pat ((s.patChk host n).pos + i))
    t.get r.1 [n] = 2 ∧ t.get r.2.1 [n] = s.get r.2.1 [n] := by
  intro r
  obtain ⟨-, ⟨hi, lo⟩, -⟩ := patRegs_fields host n
  have hbound : s.get r.2.1 [n] ≤ 255 := by
    have hlt := s.get_lt r.2.1 [n]
    rw [hi, lo] at hlt
    exact Nat.le_of_lt_succ hlt
  obtain ⟨d, hd⟩ := Nat.exists_eq_add_of_lt hrun
  rw [show 128 - (s.patChk host n).run = d + 1 by omega]
  obtain ⟨hstate, hresync, -⟩ :=
    patCheck_get h host n hp ((List.range (d + 1)).map fun i => patAt pat ((s.patChk host n).pos + i)) (by rw [hst]; decide)
  obtain ⟨chk, hlock⟩ := patStep_run_locks pat d (r := ⟨1, s.patChk host n, 0, 0, 0, 0⟩) rfl (by dsimp only; omega)
  rw [hst, hlock] at hstate hresync
  exact ⟨hstate, hresync.trans (Nat.min_eq_right hbound)⟩

/-- The 32nd wrong symbol of a window is counted, and the checker searches again. -/
theorem patCheck_resyncs (h : RegFile.wf s.live) (host : Bool) (n : Nat) {pat : Nat} (hp : pat ≠ 0) {x : Nat} :
    let r := patRegs host
    let chk := s.patChk host n
    s.get r.1 [n] = 2 → 31 ≤ chk.errs → x ≠ patAt pat chk.pos →
    let t := s.patCheck host n pat [x]
    t.get r.1 [n] = 1 ∧ t.get r.2.1 [n] = min 255 (s.get r.2.1 [n] + 1) ∧
      t.get r.2.2.1 [n] = min (s.get r.2.2.1 [n] + 1) (2 ^ 48 - 1) ∧ t.get r.2.2.2.1 [n] = min (s.get r.2.2.2.1 [n] + 1) (2 ^ 48 - 1) := by
  intro r chk hst herrs hx t
  obtain ⟨hstate, hresync, hsyms, hwrong⟩ := patCheck_get h host n hp [x] (by rw [hst]; decide)
  obtain ⟨chk', bits, hstep⟩ := patStep_resync (pat := pat) (r := ⟨2, chk, 0, 0, 0, 0⟩) rfl herrs hx
  rw [List.foldl_cons, List.foldl_nil, hst, hstep] at hstate hresync hsyms hwrong
  exact ⟨hstate, hresync, hsyms, hwrong⟩

/-! ## Signal detect (R49) -/

theorem sigDet_addr (n : Nat) : Reg.RX_STAT.SIG_DET.addr [n] = 0x080002 + 0x1000 * n := by simp [FRef.addr, Reg.RX_STAT.SIG_DET, addrOf]

theorem sigLost_addr (n : Nat) : Reg.RX_EVT.SIG_LOST.addr [n] = 0x080003 + 0x1000 * n := by simp [FRef.addr, Reg.RX_EVT.SIG_LOST, addrOf]

/-- With signal a slice whose adaptation is not off acquires afresh. -/
theorem enterAcquire_signal {sl : Nat} (hsl : sl < s.slices.length) (hd : s.sigDet sl = true) (ha : (s.slice sl).adapt ≠ adOFF) :
    ((s.enterAcquire sl).slice sl).adapt = adACQUIRE ∧ ((s.enterAcquire sl).slice sl).acqTicks = 0 := by
  unfold enterAcquire
  rw [slice_setSlice_same hsl, if_neg ha, if_pos hd]
  exact ⟨rfl, rfl⟩

/-- An amplitude above the level sets SIG_DET; a slice that held its adaptation acquires. -/
theorem signalDetect_rise (h : s.wf) {sl amp : Nat} (hsl : sl < 9) (hd : s.get Reg.RX_STAT.SIG_DET [sl] = 0)
    (ha : 50 + 10 * s.use Reg.RX_AFE.SD_THRESH [sl] < amp) :
    let t := s.signalDetect sl amp
    t.get Reg.RX_STAT.SIG_DET [sl] = 1 ∧ t.frames = s.frames ∧
      ((s.slice sl).adapt = adHOLD → (t.slice sl).adapt = adACQUIRE ∧ (t.slice sl).acqTicks = 0) := by
  obtain ⟨-, hslices, -⟩ := wf_counts h
  have hbit : (s.put Reg.RX_STAT.SIG_DET 1 [sl]).get Reg.RX_STAT.SIG_DET [sl] = 1 := get_put_same h.1 1 (by decide) (by decide)
  have hcount : sl < (s.put Reg.RX_STAT.SIG_DET 1 [sl]).slices.length := by
    rw [put_slices]
    omega
  have hslice : (s.put Reg.RX_STAT.SIG_DET 1 [sl]).slice sl = s.slice sl := congrArg (·.getD sl Slice.start) (put_slices s _ _ _)
  have hframes := put_frames s Reg.RX_STAT.SIG_DET 1 [sl]
  unfold signalDetect
  rw [if_pos ⟨by simp [sigDet, on, hd], ha⟩]
  dsimp only
  generalize s.put Reg.RX_STAT.SIG_DET 1 [sl] = u at *
  have hadapt : ((u.setSlice sl fun x => { x with sigTick := false }).slice sl).adapt = (s.slice sl).adapt := by
    rw [slice_setSlice_same hcount, hslice]
  rw [hadapt]
  split
  · rename_i hhold
    refine ⟨hbit, hframes, fun _ => enterAcquire_signal (by simpa using hcount) (decide_eq_true hbit) ?_⟩
    rw [hadapt, hhold]
    decide
  · rename_i hhold
    exact ⟨hbit, hframes, fun e => absurd e hhold⟩

/-- One at least 3 dB below it clears SIG_DET, and adaptation holds. -/
theorem signalDetect_fall (h : s.wf) {sl amp : Nat} (hsl : sl < 9) (hd : s.get Reg.RX_STAT.SIG_DET [sl] = 1)
    (ha : amp ^ 20 * 1000 ≤ (50 + 10 * s.use Reg.RX_AFE.SD_THRESH [sl]) ^ 20) :
    let t := s.signalDetect sl amp
    t.get Reg.RX_STAT.SIG_DET [sl] = 0 ∧ t.frames = s.frames ∧ t.get Reg.RX_EVT.SIG_LOST [sl] = 1 ∧
      ((s.slice sl).adapt ≠ adOFF → (t.slice sl).adapt = adHOLD) := by
  obtain ⟨-, hslices, -⟩ := wf_counts h
  have hpend : Reg.SEQ_EVPEND.PEND.addr [] = 0x300004 := rfl
  have nStatEvt : Reg.RX_STAT.SIG_DET.addr [sl] ≠ Reg.RX_EVT.SIG_LOST.addr [sl] := by rw [sigDet_addr, sigLost_addr]; omega
  have nStatPend : Reg.RX_STAT.SIG_DET.addr [sl] ≠ Reg.SEQ_EVPEND.PEND.addr [] := by rw [sigDet_addr, hpend]; omega
  have nEvtPend : Reg.RX_EVT.SIG_LOST.addr [sl] ≠ Reg.SEQ_EVPEND.PEND.addr [] := by rw [sigLost_addr, hpend]; omega
  have hw := put_wf h.1 Reg.RX_STAT.SIG_DET 0 [sl]
  have hw' := ev_wf hw Reg.RX_EVT.SIG_LOST [sl]
  have hbit : ((s.put Reg.RX_STAT.SIG_DET 0 [sl]).laneEv Reg.RX_EVT.SIG_LOST sl).get Reg.RX_STAT.SIG_DET [sl] = 0 :=
    (get_put_other hw' _ nStatPend).trans ((get_ev_other hw nStatEvt).trans (get_put_same h.1 0 (by decide) (by decide)))
  have hlost : ((s.put Reg.RX_STAT.SIG_DET 0 [sl]).laneEv Reg.RX_EVT.SIG_LOST sl).get Reg.RX_EVT.SIG_LOST [sl] = 1 :=
    (get_put_other hw' _ nEvtPend).trans (get_ev_same hw (by decide) (by decide))
  have hsl' : ((s.put Reg.RX_STAT.SIG_DET 0 [sl]).laneEv Reg.RX_EVT.SIG_LOST sl).slices = s.slices := by
    rw [laneEv, seqEv_slices, ev_slices, put_slices]
  have hframes : ((s.put Reg.RX_STAT.SIG_DET 0 [sl]).laneEv Reg.RX_EVT.SIG_LOST sl).frames = s.frames := by
    rw [laneEv, seqEv_frames, ev_frames, put_frames]
  unfold signalDetect
  rw [if_neg (by simp [sigDet, on, hd]), if_pos ⟨by simp [sigDet, on, hd], ha⟩]
  dsimp only
  generalize (s.put Reg.RX_STAT.SIG_DET 0 [sl]).laneEv Reg.RX_EVT.SIG_LOST sl = u at *
  refine ⟨hbit, hframes, hlost, fun hoff => ?_⟩
  have hslice : u.slice sl = s.slice sl := congrArg (·.getD sl Slice.start) hsl'
  have hcount : sl < u.slices.length := by
    rw [hsl', hslices]
    exact hsl
  rw [slice_setSlice_same hcount, hslice, if_neg hoff]

/-! ## The format probe (R43) -/

theorem exec_formatProbeStart {k : Fin 8} (hr : s.released = true) : exec (.formatProbeStart k) s = .next (s.probeStart k) :=
  congrArg Host.Outcome.next (act_of hr rfl _)

theorem exec_farFmtFound {k : Fin 8} {code : BitVec 2} (hr : s.released = true) :
    exec (.farFmtFound k code) s = .next (s.farFound k code.toNat) := congrArg Host.Outcome.next (act_of hr rfl _)

theorem exec_probeWindowEnd {k : Fin 8} (hr : s.released = true) : exec (.probeWindowEnd k) s = .next (s.probeEnd k) :=
  congrArg Host.Outcome.next (act_of hr rfl _)

theorem exec_signalDetectChange {sl : Fin 9} {amp : BitVec 12} (hr : s.released = true)
    (hd : s.domOn (if sl.val = 8 then 25 else 1 + sl) = true) :
    exec (.signalDetectChange sl amp) s = .next (s.signalDetect sl amp.toNat) := congrArg Host.Outcome.next (act_of hr hd _)

end State

/-- Settles O14: a probe's start, find and end meet their conditions, a checker's registers follow the symbols of its span one by one, and
signal detect compares the amplitude with its level. -/
theorem probesAndCheckers : Obligations.ProbesAndCheckers := by
  intro s hr
  refine ⟨fun k hf hlock htr hdom hidle hlong => ?_, fun k code hactive => ⟨fun hfind => ?_, fun hend => ?_⟩, fun host n m => ⟨?_, ?_⟩,
    fun host n pat hs hpat _ => ⟨?_, fun x hst herrs hx => ?_⟩, fun sl amp hdom => ⟨fun hs hd ha => ?_, fun hs hd ha => ?_⟩⟩
  · rw [exec_formatProbeStart hr, probeStart, if_pos]
    simp [mayProbe, on, hf, hlock, htr, hdom, hidle, hlong]
  · rw [exec_farFmtFound hr, farFound, if_pos]
    refine ⟨by simp [on, hactive], ?_⟩
    rcases hfind with rfl | ⟨rfl, hd⟩
    · rfl
    · simp [canFind, hd]
  · rw [exec_probeWindowEnd hr, probeEnd, if_pos ⟨by simp [on, hactive], hend⟩]
  · exact congrArg Host.Outcome.next (act_of hr rfl _)
  · exact congrArg Host.Outcome.next (act_of hr rfl _)
  · exact patCheck_locks hs.1 host n (by omega)
  · exact patCheck_resyncs hs.1 host n (by omega) hst herrs hx
  · obtain ⟨hbit, hframes, hadapt⟩ := signalDetect_rise hs sl.isLt hd ha
    exact ⟨_, exec_signalDetectChange hr hdom, ⟨hbit, hframes⟩, hadapt⟩
  · obtain ⟨hbit, hframes, hlost, hadapt⟩ := signalDetect_fall hs sl.isLt hd ha
    exact ⟨_, exec_signalDetectChange hr hdom, ⟨hbit, hframes⟩, hlost, hadapt⟩

end Sys2Proof.Machine
end

section
/-! SUPPORT. The squelches of a line transmitter and the observation of a transmit tap (R134, R136 to R138). -/
namespace Sys2Proof.Machine
open State

namespace State
variable {s : State}

/-! ## Squelches (R134, R136) -/

theorem upd_congr {α : Type} {l : List α} {i : Nat} {f g : α → α} {d : α} (h : f (l.getD i d) = g (l.getD i d)) :
    upd l i f = upd l i g := by
  induction l generalizing i with
  | nil => rfl
  | cons a t ih =>
    cases i with
    | zero => exact congrArg (· :: t) h
    | succ i => exact congrArg (a :: ·) (ih h)

/-- Two updates of a lane that agree on what it holds are the same. -/
theorem setLane_congr {k : Nat} {f g : Lane → Lane} (h : f (s.lane k) = g (s.lane k)) : s.setLane k f = s.setLane k g :=
  congrArg (fun l => { s with lanes := l }) (upd_congr h)

theorem exec_maskSquelch {k : Fin 8} (hr : s.released = true) (hd : s.domOn (17 + k) = true) (hp : (s.ltxAt (k / 4)).place = 0) :
    exec (.maskSquelch k) s = .next (s.maskSquelch k) :=
  congrArg Host.Outcome.next (act_of hr (by simp [hd, hp]) _)

/-- A due mask squelch that no Set releases at its boundary, or that finds one in force, takes force with its event. -/
theorem maskSquelch_forces {k : Nat} (hk : k < s.lanes.length) (hdue : (s.lane k).maskDue = true)
    (h : (s.lane k).maskSq = true ∨ s.releases k = false) :
    s.maskSquelch k = ((s.setLane k fun l => { l with maskDue := false, maskSq := true }).laneEv Reg.TX_EVT.MASK_SQ k).squelchRefresh k := by
  have hforce : ((s.lane k).maskSq || !s.releases k) = true := by simpa using h
  have hset : (s.setLane k fun l => { l with maskDue := false, maskSq := l.maskSq || !s.releases k }) =
      s.setLane k fun l => { l with maskDue := false, maskSq := true } := setLane_congr (by simp only [hforce])
  unfold maskSquelch
  rw [if_neg (not_not_intro hdue), hset]
  exact if_pos (by rw [lane_setLane_same hk])

/-- One that a Set releases at its boundary is dropped. -/
theorem maskSquelch_released {k : Nat} (hk : k < s.lanes.length) (hdue : (s.lane k).maskDue = true)
    (hsq : (s.lane k).maskSq = false) (hrel : s.releases k = true) :
    s.maskSquelch k = s.setLane k fun l => { l with maskDue := false, maskSq := false } := by
  have hset : (s.setLane k fun l => { l with maskDue := false, maskSq := l.maskSq || !s.releases k }) =
      s.setLane k fun l => { l with maskDue := false, maskSq := false } := setLane_congr (by simp [hsq, hrel])
  unfold maskSquelch
  rw [if_neg (not_not_intro hdue), hset]
  exact if_neg (by rw [lane_setLane_same hk]; exact Bool.false_ne_true)

theorem exec_squelchSettleEnd {k : Fin 8} (hr : s.released = true) (hd : s.domOn (17 + k) = true) :
    exec (.squelchSettleEnd k) s = .next (s.settleEnd k) := congrArg Host.Outcome.next (act_of hr hd _)

theorem settleEnd_due {k : Nat} (hs : s.get Reg.TX_STAT.SETTLING [k] = 1) (ht : (s.lane k).settle ≤ s.thm.tick) :
    s.settleEnd k = s.put Reg.TX_STAT.SETTLING 0 [k] := if_pos ⟨decide_eq_true hs, ht⟩

/-! ## The search for the alignment (R137) -/

/-- The state with another observation; its registers are the same. -/
def withObs (s : State) (o : TxObs) : State := { s with obs := o }

theorem withObs_get (s : State) (o : TxObs) (f : FRef) (i : List Nat) : (s.withObs o).get f i = s.get f i := rfl

theorem exec_txobsAlignSearch (hr : s.released = true) : exec .txobsAlignSearch s = .next s.obsSearch :=
  congrArg Host.Outcome.next (act_of hr rfl _)

/-- An aligned observation that loses its alignment counts a restart and holds nothing more. -/
theorem obsLost_aligned (h : RegFile.wf s.live) (ha : s.get Reg.TXOBS_STAT.ALIGNED = 1) :
    s.obsLost = { (s.put Reg.TXOBS_STAT.ALIGNED 0).put Reg.TXOBS_STAT.RESTARTS (min 255 (s.get Reg.TXOBS_STAT.RESTARTS + 1)) with
      obs := TxObs.start_ } := by
  have hcount : (s.put Reg.TXOBS_STAT.ALIGNED 0).get Reg.TXOBS_STAT.RESTARTS = s.get Reg.TXOBS_STAT.RESTARTS :=
    get_put_beside h 0 (by decide) (by decide) rfl (by decide)
  unfold obsLost obsRestart
  rw [if_pos (by simp [on, ha]), hcount]
  rfl

section Search
variable {r : Int × Int × Int} {d : Nat}

/-- The state once the search's result is used. -/
def foundUsed (s : State) : State := s.withObs { s.obs with found := none }

/-- The state once the correlation of a search before alignment is reported in CORR. -/
def corrShown (s : State) (r : Int × Int × Int) : State :=
  s.foundUsed.put Reg.TXOBS_STAT.CORR (if 0 < r.1 then min 255 (sqrtRound (r.1 * r.1 * 65536).toNat (r.2.1 * r.2.2).toNat) else 0)

/-- What a search does with its result while it observes: aligned it holds or loses the alignment, else it reports and may align. -/
theorem obsSearch_observing (hf : s.obs.found = some (r, d)) (hp : s.phase = phOBSERVE_TX) (hl : (s.slice 8).trLock = true) :
    s.obsSearch =
      if s.get Reg.TXOBS_STAT.ALIGNED = 1 then (if corrAtLeast r 8 then s.foundUsed else s.foundUsed.obsLost)
      else if corrAtLeast r 9 then
        { ((s.corrShown r).put Reg.TXOBS_STAT.ALIGNED 1).put Reg.TXOBS_STAT.DELAY d with obs := { s.obs with start := true, found := none } }
      else s.corrShown r := by
  have hgo : ¬ (s.foundUsed.phase ≠ phOBSERVE_TX ∨ ¬ (s.foundUsed.slice 8).trLock = true) := not_or.2 ⟨not_not_intro hp, not_not_intro hl⟩
  unfold obsSearch
  rw [hf]
  refine (if_neg hgo).trans ?_
  by_cases ha : s.get Reg.TXOBS_STAT.ALIGNED = 1
  · rw [if_pos ha]
    exact if_pos (decide_eq_true ha)
  · rw [if_neg ha]
    exact if_neg fun e => ha (of_decide_eq_true e)

end Search

/-! ## The end of a period (R138) -/

theorem exec_txobsPeriodPublish (hr : s.released = true) : exec .txobsPeriodPublish s = .next s.obsPublish :=
  congrArg Host.Outcome.next (act_of hr rfl _)

theorem obsSum_addr (i : Nat) : Reg.TXOBS_SUM.SUM.addr [i] = 0x088140 + i := by simp [FRef.addr, Reg.TXOBS_SUM.SUM, addrOf]

theorem obsCnt_addr (i : Nat) : Reg.TXOBS_CNT.COUNT.addr [i] = 0x088180 + i := by simp [FRef.addr, Reg.TXOBS_CNT.COUNT, addrOf]

theorem enc_lt (w : Nat) (x : Int) : enc w x < 2 ^ w := by
  have hpos : (0 : Int) < 2 ^ w := Int.pow_pos (by decide)
  have hcast : ((2 ^ w : Nat) : Int) = 2 ^ w := Int.natCast_pow 2 w
  unfold enc
  rw [Int.toNat_lt (Int.emod_nonneg x (Int.ne_of_gt hpos)), hcast]
  exact Int.emod_lt_of_pos x hpos

/-- A field reads the code of the integer written to it. -/
theorem get_putI_same (h : RegFile.wf s.live) {f : FRef} {i : List Nat} (v : Int) (hf : f.hi < 48) (hl : f.lo ≤ f.hi + 1) :
    (s.putI f v i).get f i = enc (f.hi + 1 - f.lo) v :=
  (get_put_same h _ hf hl).trans (Nat.mod_eq_of_lt (enc_lt _ v))

/-- The sum and the count of index `i` are published. -/
def publishEntry (v : Nat → Int) (c : Nat → Nat) (s : State) (i : Nat) : State :=
  (s.putI Reg.TXOBS_SUM.SUM (v i) [i]).put Reg.TXOBS_CNT.COUNT (c i) [i]

theorem publishEntry_wf (h : RegFile.wf s.live) (v : Nat → Int) (c : Nat → Nat) (i : Nat) : RegFile.wf (publishEntry v c s i).live :=
  put_wf (put_wf h _ _ _) _ _ _

/-- The entries of an index read what was published for it. -/
theorem publishEntry_same (h : RegFile.wf s.live) (v : Nat → Int) (c : Nat → Nat) (i : Nat) :
    (publishEntry v c s i).get Reg.TXOBS_SUM.SUM [i] = enc 48 (v i) ∧ (publishEntry v c s i).get Reg.TXOBS_CNT.COUNT [i] = c i % 2 ^ 48 := by
  have hw : RegFile.wf (s.putI Reg.TXOBS_SUM.SUM (v i) [i]).live := put_wf h _ _ _
  have hne : Reg.TXOBS_SUM.SUM.addr [i] ≠ Reg.TXOBS_CNT.COUNT.addr [i] := by rw [obsSum_addr, obsCnt_addr]; omega
  exact ⟨(get_put_other hw _ hne).trans (get_putI_same h _ (by decide) (by decide)), get_put_same hw _ (by decide) (by decide)⟩

/-- Every other register is left alone. -/
theorem publishEntry_other (h : RegFile.wf s.live) (v : Nat → Int) (c : Nat → Nat) {i a : Nat} (hs : a ≠ 0x088140 + i)
    (hc : a ≠ 0x088180 + i) : (publishEntry v c s i).liveAt a = s.liveAt a :=
  (liveAt_put_other (put_wf h _ _ _) _ (obsCnt_addr i ▸ hc)).trans (liveAt_put_other h _ (obsSum_addr i ▸ hs))

/-- The first `n` entries are published together, below which every register is left alone. -/
theorem each_publishEntry (h : RegFile.wf s.live) (v : Nat → Int) (c : Nat → Nat) {n : Nat} (hn : n ≤ 64) :
    let t := s.each (List.range n) (publishEntry v c)
    RegFile.wf t.live ∧ (∀ a < 0x088140, t.liveAt a = s.liveAt a) ∧
      ∀ i < n, t.get Reg.TXOBS_SUM.SUM [i] = enc 48 (v i) ∧ t.get Reg.TXOBS_CNT.COUNT [i] = c i % 2 ^ 48 := by
  induction n with
  | zero => exact ⟨h, fun _ _ => rfl, fun i hi => absurd hi (Nat.not_lt_zero i)⟩
  | succ n ih =>
    obtain ⟨hw, hlow, hin⟩ := ih (by omega)
    have hstep : s.each (List.range (n + 1)) (publishEntry v c) = publishEntry v c (s.each (List.range n) (publishEntry v c)) n := by
      simp [each, List.range_succ]
    rw [hstep]
    generalize s.each (List.range n) (publishEntry v c) = u at *
    refine ⟨publishEntry_wf hw v c n, fun a ha => (publishEntry_other hw v c (by omega) (by omega)).trans (hlow a ha), fun i hi => ?_⟩
    rcases Nat.lt_succ_iff_lt_or_eq.1 hi with hlt | rfl
    · obtain ⟨hsum, hcnt⟩ := hin i hlt
      unfold State.get at hsum hcnt ⊢
      rw [obsSum_addr] at hsum ⊢
      rw [obsCnt_addr] at hcnt ⊢
      rw [publishEntry_other hw v c (by omega) (by omega), publishEntry_other hw v c (by omega) (by omega)]
      exact ⟨hsum, hcnt⟩
    · exact publishEntry_same hw v c i

/-- Whether KEY lets the entries of index `i` be published as they are: all 64, or the first 16 under SUBDAC. -/
def entryShown (s : State) (i : Nat) : Bool := !s.uses Reg.TXOBS_CTL.KEY || decide (i < 16)

theorem entryShown_iff (s : State) (i : Nat) : s.entryShown i = true ↔ s.use Reg.TXOBS_CTL.KEY ≠ 1 ∨ i < 16 := by
  simp [entryShown, uses]

/-- The entries of the period, those not shown as 0. -/
def periodSum (s : State) (i : Nat) : Int := if s.entryShown i then s.obs.sums.getD i 0 else 0
def periodCnt (s : State) (i : Nat) : Nat := if s.entryShown i then s.obs.cnts.getD i 0 else 0

/-- The state with all 64 entries of the period published. -/
def entriesPublished (s : State) : State := s.each (List.range 64) (publishEntry s.periodSum s.periodCnt)

theorem entriesPublished_inUse (s : State) : s.entriesPublished.inUse = s.inUse :=
  each_kept (P := fun t => t.inUse = s.inUse) rfl fun _ _ h => h

/-- The observation as the next period finds it. -/
def nextPeriod (s : State) : TxObs :=
  { TxObs.start_ with run := true, left := 2 ^ s.use Reg.TXOBS_CTL.ACC_TICKS, ys := s.obs.ys, found := s.obs.found }

/-- PERIOD_SEQ counts a period. -/
def seqAdvanced (s : State) : State := s.put Reg.TXOBS_STAT.PERIOD_SEQ (s.get Reg.TXOBS_STAT.PERIOD_SEQ + 1)

/-- A write of a register leaves the values in use. -/
theorem use_put (s : State) (f g : FRef) (v : Nat) (i j : List Nat) : (s.put f v i).use g j = s.use g j := rfl

/-- At a period's end the entries are published, PERIOD_SEQ advances and the next period runs. The proof names the states in between, whose
64 writes would else be evaluated. -/
theorem obsPublish_ended (hrun : s.obs.run = true) (hleft : s.obs.left = 0) :
    s.obsPublish = s.entriesPublished.seqAdvanced.withObs s.nextPeriod := by
  unfold obsPublish
  rw [if_neg (not_not_intro ⟨hrun, hleft⟩)]
  extract_lets o keep u v
  have hu : u = s.entriesPublished := rfl
  have hv : v = u.seqAdvanced := rfl
  have hacc : v.use Reg.TXOBS_CTL.ACC_TICKS = s.use Reg.TXOBS_CTL.ACC_TICKS := by
    rw [hv, seqAdvanced, use_put, use, hu, entriesPublished_inUse]
    rfl
  rw [← hu, ← hv, nextPeriod, ← hacc]
  clear_value v
  rfl

/-- PERIOD_SEQ advances modulo 2^16, and the entries are left alone. -/
theorem seqAdvanced_get (h : RegFile.wf s.live) :
    s.seqAdvanced.get Reg.TXOBS_STAT.PERIOD_SEQ = (s.get Reg.TXOBS_STAT.PERIOD_SEQ + 1) % 2 ^ 16 ∧
      ∀ (f : FRef) (i : List Nat), 0x088140 ≤ f.addr i → s.seqAdvanced.get f i = s.get f i := by
  have hne : Reg.TXOBS_STAT.PERIOD_SEQ.addr [] = 0x088111 := rfl
  exact ⟨get_put_same h _ (by decide) (by decide), fun f i hf => get_put_other h _ (by omega)⟩

/-- What the registers of the observation read once a period is published. -/
theorem obsPublish_get (h : RegFile.wf s.live) (hrun : s.obs.run = true) (hleft : s.obs.left = 0) :
    s.obsPublish.get Reg.TXOBS_STAT.PERIOD_SEQ = (s.get Reg.TXOBS_STAT.PERIOD_SEQ + 1) % 2 ^ 16 ∧
      ∀ i < 64, s.obsPublish.get Reg.TXOBS_SUM.SUM [i] = enc 48 (s.periodSum i) ∧
        s.obsPublish.get Reg.TXOBS_CNT.COUNT [i] = s.periodCnt i % 2 ^ 48 := by
  obtain ⟨hw, hlow, hin⟩ := each_publishEntry h s.periodSum s.periodCnt (Nat.le_refl 64)
  rw [obsPublish_ended hrun hleft, entriesPublished]
  generalize s.each (List.range 64) (publishEntry s.periodSum s.periodCnt) = u at *
  obtain ⟨hadvance, hkeep⟩ := seqAdvanced_get hw
  have hseq : u.get Reg.TXOBS_STAT.PERIOD_SEQ = s.get Reg.TXOBS_STAT.PERIOD_SEQ := by
    rw [State.get, hlow _ (by decide), State.get]
  refine ⟨(withObs_get ..).trans (hseq ▸ hadvance), fun i hi => ?_⟩
  rw [withObs_get, withObs_get, hkeep _ _ (obsSum_addr i ▸ Nat.le_add_right ..), hkeep _ _ (by rw [obsCnt_addr]; omega)]
  exact hin i hi

end State

/-- Settles O22: a due mask squelch by whether it is released at its boundary, the search by what is aligned and what it found, and a period's
end by the entries that it publishes one index after the other. -/
theorem transmitSquelchAndObservation : Obligations.TransmitSquelchAndObservation := by
  intro s hs hr
  obtain ⟨-, -, hlanes⟩ := wf_counts hs
  refine ⟨fun k hdom => ?_, fun r d hfound hphase hlock => ?_, fun hrun hleft => ?_⟩
  · have hk : k.val < s.lanes.length := by omega
    refine ⟨fun hdue hplace h => ?_, fun hdue hplace hsq hrel => ?_, fun hset ht => ?_⟩
    · rw [exec_maskSquelch hr hdom hplace, maskSquelch_forces hk hdue h]
    · rw [exec_maskSquelch hr hdom hplace, maskSquelch_released hk hdue hsq hrel]
    · rw [exec_squelchSettleEnd hr hdom, settleEnd_due hset ht]
  · dsimp only
    rw [exec_txobsAlignSearch hr, obsSearch_observing hfound hphase hlock]
    refine ⟨fun ha h8 => ?_, fun ha h8 => ?_, fun ha h9 => ?_, fun ha h9 => ?_⟩
    · rw [if_pos ha, if_pos h8]
      rfl
    · rw [if_pos ha, h8, if_neg Bool.false_ne_true, obsLost_aligned (s := s.foundUsed) hs.1 ha]
      rfl
    · rw [if_neg (by omega), h9, if_neg Bool.false_ne_true]
      rfl
    · rw [if_neg (by omega), if_pos h9]
      rfl
  · obtain ⟨hseq, hentry⟩ := obsPublish_get hs.1 hrun hleft
    refine ⟨s.obsPublish, exec_txobsPeriodPublish hr, hseq, congrArg obs (obsPublish_ended hrun hleft),
      fun i hi => ⟨fun hshown => ?_, fun hhidden => ?_⟩⟩
    · simpa [periodSum, periodCnt, (entryShown_iff s i).2 hshown] using hentry i hi
    · have hno : s.entryShown i = false := Bool.eq_false_iff.2 (mt (entryShown_iff s i).1 hhidden)
      simpa [periodSum, periodCnt, hno, enc] using hentry i hi

end Sys2Proof.Machine
end

section
/-! SUPPORT. Signal detect, clock recovery, marker lock and deskew of the host lanes (R164, R168, R171, R172, R177, R376). -/
namespace Sys2Proof.Machine
open State

/-! ## Lanes that lock, move and leave lock -/

section HLanes
variable (h : HLane) (d : Nat)

@[simp] theorem HLane.refill_locked : (h.refill d).locked = h.locked := rfl
@[simp] theorem HLane.refill_typ : (h.refill d).typ = h.typ := rfl
@[simp] theorem HLane.refill_anchor : (h.refill d).anchor = h.anchor := rfl
@[simp] theorem HLane.refill_joined : (h.refill d).joined = h.joined := rfl

/-- The two lanes agree in lock, type, anchor, and in whether the egress has taken up their symbols: what a deskew leaves. -/
def HLane.sameLock (h g : HLane) : Prop := h.locked = g.locked ∧ h.typ = g.typ ∧ h.anchor = g.anchor ∧ h.joined = g.joined

theorem HLane.sameLock_refl : h.sameLock h := ⟨rfl, rfl, rfl, rfl⟩

theorem HLane.refill_sameLock : (h.refill d).sameLock h := ⟨rfl, rfl, rfl, rfl⟩

/-- A lane locks on the markers it has found. -/
theorem HLane.lock_found {h : HLane} {typ b : Nat} (hf : h.found = some (typ, b)) :
    h.lock.locked = true ∧ h.lock.typ = typ ∧ h.lock.anchor = b ∧ h.lock.joined = false := by
  simp [HLane.lock, hf]

end HLanes

/-- The width of SKEW holds what it is given there. -/
theorem sx_enc_satS (x : Int) : sx 10 (enc 10 (satS 10 x)) = satS 10 x := by
  have hsat : -512 ≤ satS 10 x ∧ satS 10 x ≤ 511 := by
    unfold satS clampI
    split
    · omega
    · split <;> omega
  generalize satS 10 x = y at *
  unfold sx enc
  dsimp only
  split <;> omega

/-- The other lane of the pair of logical lane `n`. -/
def pairedWith (n : Nat) : Nat := if n % 2 = 0 then n + 1 else n - 1

theorem pairedWith_ne (n : Nat) : pairedWith n ≠ n := by
  unfold pairedWith
  split <;> omega

theorem pairedWith_half (n : Nat) : pairedWith n / 2 = n / 2 := by
  unfold pairedWith
  split <;> omega

/-- Two fields of a pair's registers: they lie in different registers, or in different bits of one. -/
abbrev FRef.beside (f g : FRef) : Prop :=
  f.strides = [1] ∧ g.strides = [1] ∧ f.hi < 48 ∧ f.lo ≤ f.hi + 1 ∧ (g.base = f.base → f.hi < g.lo ∨ g.hi < f.lo)

/-- The field of PAIR_STAT that shows the lock of logical lane `n`. -/
def lockShown (n : Nat) : FRef := if n % 2 = 0 then Reg.PAIR_STAT.LOCK_A else Reg.PAIR_STAT.LOCK_B

theorem addr_unit {f : FRef} (hf : f.strides = [1]) (k : Nat) : f.addr [k] = f.base + k := by
  simp [FRef.addr, hf, addrOf]

theorem addr_unit_ne {f : FRef} {b k : Nat} (a : Nat) (hf : f.strides = [1] ∧ f.base = a) (h : a + k ≠ b) : f.addr [k] ≠ b := by
  rwa [addr_unit hf.1, hf.2]

/-- OUTER_CFG lies below the registers of the pairs. -/
theorem outerCfg_addr_ne {b : Nat} (hb : 0x1A0000 ≤ b) (k : Nat) : Reg.OUTER_CFG.PCS.addr [] ≠ b + k := by
  show 0x180000 ≠ _
  omega

/-! ## What a field reads -/

/-- The register file has its form, and the field reads `c`. -/
def Reads (f : FRef) (i : List Nat) (c : Nat) (s : State) : Prop := RegFile.wf s.live ∧ s.get f i = c

namespace Reads
variable {s t : State} {f g : FRef} {i j : List Nat} {c k : Nat}

theorem now (h : RegFile.wf s.live) (f : FRef) (i : List Nat) : Reads f i (s.get f i) s := ⟨h, rfl⟩

theorem written (h : RegFile.wf s.live) {v : Nat} (hf : f.hi < 48) (hl : f.lo ≤ f.hi + 1) (hv : v < 2 ^ (f.hi + 1 - f.lo)) :
    Reads f i v (s.put f v i) := ⟨put_wf h f v i, (get_put_same h v hf hl).trans (Nat.mod_eq_of_lt hv)⟩

/-- A write of another register. -/
theorem other (h : Reads g j c s) (v : Nat) (hb : g.addr j ≠ f.addr i) : Reads g j c (s.put f v i) :=
  ⟨put_wf h.1 f v i, (get_put_other h.1 v hb).trans h.2⟩

/-- A write of a register of pair `k` where another is read. -/
theorem apart (h : Reads g j c s) (v : Nat) {b : Nat} (hf : f.strides = [1] ∧ f.base = b) (hg : g.addr j ≠ b + k) :
    Reads g j c (s.put f v [k]) := h.other v (by rwa [addr_unit hf.1, hf.2])

/-- A write of another field of the same pair. -/
theorem besides (h : Reads g [k] c s) (v : Nat) (hb : f.beside g) : Reads g [k] c (s.put f v [k]) := by
  obtain ⟨hf, hg, hhi, hlo, hd⟩ := hb
  refine ⟨put_wf h.1 f v [k], (get_put_ne h.1 v hhi hlo fun e => hd ?_).trans h.2⟩
  rw [addr_unit hf, addr_unit hg] at e
  omega

theorem same (h : Reads g j c s) (hl : t.live = s.live) : Reads g j c t := by
  unfold Reads State.get liveAt
  rw [hl]
  exact h

/-- A change of registers from the rings' block on, and of whatever else is none of the line lanes'. -/
theorem line (h : Reads g j c s) (hk : LineKept s t) (hg : lineReg (g.addr j)) : Reads g j c t :=
  ⟨hk.form, (hk.get hg).trans h.2⟩

theorem seqEv (h : Reads g j c s) (b : Nat) (hg : lineReg (g.addr j)) : Reads g j c (s.seqEv b) :=
  h.line ((LineKept.refl h.1).seqEv b) hg

theorem ltxChoose (h : Reads g j c s) : Reads g j c s.ltxChoose :=
  each_kept (P := Reads g j c) h fun _ _ ht => ht.same rfl

end Reads

namespace State
variable {s t : State} {c k n : Nat}

/-! ## Logical lanes and pairs after an update -/

theorem hlane_setHlane_same (hn : n < s.hlanes.length) (f : HLane → HLane) : (s.setHlane n f).hlane n = f (s.hlane n) :=
  (upd_getD _ _ _ _ _).trans (if_pos ⟨rfl, hn⟩)

theorem hlane_setHlane_other {j : Nat} (h : j ≠ n) (f : HLane → HLane) : (s.setHlane n f).hlane j = s.hlane j :=
  (upd_getD _ _ _ _ _).trans (if_neg fun e => h e.1.symm)

theorem wf_hlanes (h : s.wf) : s.hlanes.length = 16 := by
  obtain ⟨-, -, -, -, -, hshape⟩ := h
  simp only [shape, shapeStd, List.cons.injEq] at hshape
  obtain ⟨-, -, -, -, hh, -⟩ := hshape
  exact hh

theorem ltxChoose_hlanes (s : State) : s.ltxChoose.hlanes = s.hlanes :=
  each_kept (P := fun t => t.hlanes = s.hlanes) rfl fun _ _ h => h

theorem ltxChoose_hlane (s : State) (j : Nat) : s.ltxChoose.hlane j = s.hlane j := congrArg (·.getD j (HLane.start j)) (ltxChoose_hlanes s)

/-- Whether a pair can be deskewed depends on its lanes, on the values that stages have in use, and on OUTER_CFG. -/
theorem deskewable_congr (hh : t.hlanes = s.hlanes) (hu : t.inUse = s.inUse) (hc : Reads Reg.OUTER_CFG.PCS [] (s.get Reg.OUTER_CFG.PCS) t)
    (k : Nat) : t.deskewable k = s.deskewable k := by
  have hl (n : Nat) : t.hlane n = s.hlane n := by rw [hlane, hlane, hh]
  have he : t.egHosts k = s.egHosts k := by rw [egHosts, egHosts, txMode, txMode, txFmt, txFmt, hu]
  have hg (n : Nat) : t.pcsGroup n = s.pcsGroup n := by rw [pcsGroup, pcsGroup, pcsCode, pcsCode, hc.2]
  rw [deskewable, deskewable, hl, hl, he, hg]

/-- Both lanes of a pair that can be deskewed are LOCKED. -/
theorem deskewable_locked (h : s.deskewable k = true) {m : Nat} (hm : m / 2 = k) : (s.hlane m).locked = true := by
  simp only [deskewable, Bool.and_eq_true] at h
  obtain ⟨⟨⟨⟨-, ha⟩, hb⟩, -⟩, -⟩ := h
  rcases Nat.mod_two_eq_zero_or_one m with he | ho
  · rwa [show m = 2 * k by omega]
  · rwa [show m = 2 * k + 1 by omega]

/-! ## PAIR_STAT follows its lanes (R177, R178) -/

/-- PAIR_STAT of pair `k` shows the lock and the type of its lanes. -/
def pairShown (s : State) (k : Nat) : State :=
  let a := s.hlane (2 * k)
  let b := s.hlane (2 * k + 1)
  (((s.put Reg.PAIR_STAT.LOCK_A (b2n a.locked) [k]).put Reg.PAIR_STAT.LOCK_B (b2n b.locked) [k]).put
    Reg.PAIR_STAT.TYPE_A (if a.locked then a.typ else 0) [k]).put Reg.PAIR_STAT.TYPE_B (if b.locked then b.typ else 0) [k]

theorem pairShown_reads {g : FRef} {j : List Nat} (h : Reads g j c s) (hg : g.addr j ≠ 0x1A0010 + k) : Reads g j c (s.pairShown k) := by
  unfold pairShown
  exact (((h.apart _ (by decide) hg).apart _ (by decide) hg).apart _ (by decide) hg).apart _ (by decide) hg

theorem pairRefresh_shown (s : State) (k : Nat) : s.pairRefresh k =
    if (s.pairShown k).deskewable k then s.pairShown k
    else ((s.pairShown k).put Reg.PAIR_STAT.DESKEWED 0 [k]).put Reg.PAIR_STAT.SKEW 0 [k] := by
  unfold pairRefresh pairShown
  rfl

theorem pairShown_hlanes (s : State) (k : Nat) : (s.pairShown k).hlanes = s.hlanes := by
  rw [pairShown, put_hlanes, put_hlanes, put_hlanes, put_hlanes]

theorem pairShown_inUse (s : State) (k : Nat) : (s.pairShown k).inUse = s.inUse := by
  rw [pairShown, put_inUse, put_inUse, put_inUse, put_inUse]

theorem pairShown_deskewable (h : RegFile.wf s.live) (k : Nat) : (s.pairShown k).deskewable k = s.deskewable k :=
  deskewable_congr (pairShown_hlanes s k) (pairShown_inUse s k) (pairShown_reads (.now h _ _) (outerCfg_addr_ne (by decide) k)) k

theorem pairRefresh_eq (h : RegFile.wf s.live) (k : Nat) : s.pairRefresh k =
    if s.deskewable k then s.pairShown k else ((s.pairShown k).put Reg.PAIR_STAT.DESKEWED 0 [k]).put Reg.PAIR_STAT.SKEW 0 [k] := by
  rw [pairRefresh_shown, pairShown_deskewable h]

theorem pairRefresh_hlanes (s : State) (k : Nat) : (s.pairRefresh k).hlanes = s.hlanes := by
  rw [pairRefresh_shown]
  refine ite_kept (P := fun t => t.hlanes = s.hlanes) (pairShown_hlanes s k) ?_
  rw [put_hlanes, put_hlanes, pairShown_hlanes]

theorem pairRefresh_inUse (s : State) (k : Nat) : (s.pairRefresh k).inUse = s.inUse := by
  rw [pairRefresh_shown]
  refine ite_kept (P := fun t => t.inUse = s.inUse) (pairShown_inUse s k) ?_
  rw [put_inUse, put_inUse, pairShown_inUse]

/-- It leaves every other register. -/
theorem pairRefresh_reads {g : FRef} {j : List Nat} (h : Reads g j c s) (hg : g.addr j ≠ 0x1A0010 + k) :
    Reads g j c (s.pairRefresh k) := by
  have hshown := pairShown_reads h hg
  rw [pairRefresh_eq h.1]
  exact ite_kept hshown ((hshown.apart _ (by decide) hg).apart _ (by decide) hg)

/-- It decides nothing about whether a pair can be deskewed. -/
theorem pairRefresh_deskewable (h : RegFile.wf s.live) (k j : Nat) : (s.pairRefresh k).deskewable j = s.deskewable j :=
  deskewable_congr (pairRefresh_hlanes s k) (pairRefresh_inUse s k) (pairRefresh_reads (.now h _ _) (outerCfg_addr_ne (by decide) k)) j

theorem b2n_lt_two (b : Bool) : b2n b < 2 := by cases b <;> decide

/-- It shows the lock of each lane of the pair. -/
theorem pairRefresh_lock (h : RegFile.wf s.live) (n : Nat) :
    Reads (lockShown n) [n / 2] (b2n (s.hlane n).locked) (s.pairRefresh (n / 2)) := by
  have hlt := b2n_lt_two (s.hlane n).locked
  have hshown : Reads (lockShown n) [n / 2] (b2n (s.hlane n).locked) (s.pairShown (n / 2)) := by
    unfold lockShown pairShown
    rcases Nat.mod_two_eq_zero_or_one n with he | ho
    · rw [if_pos he, show 2 * (n / 2) = n by omega]
      exact (((Reads.written h (by decide) (by decide) hlt).besides _ (by decide)).besides _ (by decide)).besides _ (by decide)
    · rw [if_neg (by omega), show 2 * (n / 2) + 1 = n by omega]
      exact ((Reads.written (put_wf h _ _ _) (by decide) (by decide) hlt).besides _ (by decide)).besides _ (by decide)
  have hd : Reg.PAIR_STAT.DESKEWED.beside (lockShown n) ∧ Reg.PAIR_STAT.SKEW.beside (lockShown n) := by
    unfold lockShown
    split <;> decide
  rw [pairRefresh_eq h]
  exact ite_kept hshown ((hshown.besides _ hd.1).besides _ hd.2)

/-- A pair that can be deskewed stays as deskewed as it is. -/
theorem pairRefresh_deskewed (h : Reads Reg.PAIR_STAT.DESKEWED [k] c s) (hd : s.deskewable k = true) :
    Reads Reg.PAIR_STAT.DESKEWED [k] c (s.pairRefresh k) := by
  rw [pairRefresh_eq h.1, if_pos hd]
  exact (((h.besides _ (by decide)).besides _ (by decide)).besides _ (by decide)).besides _ (by decide)

/-- One that cannot be deskewed is not, and shows no skew. -/
theorem pairRefresh_undeskewed (h : RegFile.wf s.live) (hd : s.deskewable k = false) :
    Reads Reg.PAIR_STAT.DESKEWED [k] 0 (s.pairRefresh k) ∧ Reads Reg.PAIR_STAT.SKEW [k] 0 (s.pairRefresh k) := by
  have hw : RegFile.wf (s.pairShown k).live := put_wf (put_wf (put_wf (put_wf h _ _ _) _ _ _) _ _ _) _ _ _
  rw [pairRefresh_eq h, if_neg (by simp [hd])]
  exact ⟨(Reads.written hw (by decide) (by decide) (by decide)).besides _ (by decide),
    Reads.written (put_wf hw _ _ _) (by decide) (by decide) (by decide)⟩

end State
end Sys2Proof.Machine
end

section
/-! SUPPORT. How the lanes of a pair are placed beside each other, and how a logical lane enters and leaves LOCKED (R168, R171, R172). -/
namespace Sys2Proof.Machine
open State

/-- The registers of the pairs are none of the rings' block or beyond. -/
theorem lineReg_pair {f : FRef} (hf : f.strides = [1] ∧ 0x1A0000 ≤ f.base ∧ f.base < 0x1A0100) {k : Nat} (hk : k < 16) :
    lineReg (f.addr [k]) := by
  obtain ⟨hs, hlo, hhi⟩ := hf
  rw [addr_unit hs]
  exact .inr (by omega)

namespace State
variable {s : State} {c k n : Nat}

/-! ## Events of the host side -/

theorem hostEv_sets (h : RegFile.wf s.live) {f : FRef} (hf : f.hi < 48) (hl : f.lo ≤ f.hi) (hr : lineReg (f.addr [k])) :
    Reads f [k] 1 (s.hostEv f k) :=
  (Reads.written h hf (by omega) (Nat.one_lt_two_pow (by omega))).seqEv 7 hr

theorem hostEv_besides {f g : FRef} (h : Reads g [k] c s) (hb : f.beside g) (hr : lineReg (g.addr [k])) :
    Reads g [k] c (s.hostEv f k) := (h.besides 1 hb).seqEv 7 hr

theorem hostEv_apart {f g : FRef} {j : List Nat} (h : Reads g j c s) {b : Nat} (hf : f.strides = [1] ∧ f.base = b) (hg : g.addr j ≠ b + k)
    (hr : lineReg (g.addr j)) : Reads g j c (s.hostEv f k) := (h.apart 1 hf hg).seqEv 7 hr

/-! ## Placing one lane beside the other (R171, R172) -/

/-- The delay that puts logical lane `n` beside the other lane of its pair, which stays where it is. -/
def besideDelay (s : State) (n : Nat) : Int :=
  let skew := pairSkew (s.hlane (2 * (n / 2))) (s.hlane (2 * (n / 2) + 1))
  if n % 2 = 0 then (s.hlane (pairedWith n)).delay + skew else (s.hlane (pairedWith n)).delay - skew

/-- SKEW of pair `k` shows the skew of its lanes. -/
def skewShown (s : State) (k : Nat) : State :=
  s.putI Reg.PAIR_STAT.SKEW (satS 10 (pairSkew (s.hlane (2 * k)) (s.hlane (2 * k + 1)))) [k]

/-- Lane `n` has the deskew delay `d`. -/
def delayed (s : State) (n d : Nat) : State := s.whenB (d ≠ (s.hlane n).delay) (·.setHlane n (·.refill d))

/-- The pair of lane `n` is deskewed: the lane has the delay that puts it beside the other. -/
def placed (s : State) (n : Nat) : State :=
  ((s.skewShown (n / 2)).delayed n (s.besideDelay n).toNat).put Reg.PAIR_STAT.DESKEWED 1 [n / 2]

/-- The deskew FIFO does not reach. -/
def unplaced (s : State) (n : Nat) : State := (s.skewShown (n / 2)).hostEv Reg.PAIR_EVT.DESKEW_FAIL (n / 2)

/-- The delays that `pairDelays` gives the pair of lane `n` where only that lane may be placed. -/
theorem pairDelays_one (s : State) (n : Nat) :
    pairDelays (s.hlane (2 * (n / 2))).delay (s.hlane (2 * (n / 2) + 1)).delay
        (pairSkew (s.hlane (2 * (n / 2))) (s.hlane (2 * (n / 2) + 1))) (some (decide (n % 2 = 1))) =
      if 0 ≤ s.besideDelay n ∧ s.besideDelay n ≤ 256 then
        some (if n % 2 = 0 then ((s.besideDelay n).toNat, (s.hlane (pairedWith n)).delay)
          else ((s.hlane (pairedWith n)).delay, (s.besideDelay n).toNat))
      else none := by
  rcases Nat.mod_two_eq_zero_or_one n with he | ho
  · have hn : 2 * (n / 2) = n := by omega
    simp [pairDelays, besideDelay, pairedWith, he, hn]
  · have hp : 2 * (n / 2) = n - 1 := by omega
    simp [pairDelays, besideDelay, pairedWith, ho, hp]

/-- Where the range of the FIFO reaches the lane is placed, else the deskew fails. -/
theorem pairPlace_one (hd : s.deskewable (n / 2) = true) (hs : s.get Reg.PAIR_STAT.DESKEWED [n / 2] = 0) :
    s.pairPlace (n / 2) (some (decide (n % 2 = 1))) =
      if 0 ≤ s.besideDelay n ∧ s.besideDelay n ≤ 256 then s.placed n else s.unplaced n := by
  unfold pairPlace
  rw [if_neg (by simp [hd, on, hs])]
  dsimp only
  rw [pairDelays_one]
  by_cases hr : 0 ≤ s.besideDelay n ∧ s.besideDelay n ≤ 256
  · rw [if_pos hr, if_pos hr]
    rcases Nat.mod_two_eq_zero_or_one n with he | ho
    · have hn : 2 * (n / 2) = n := by omega
      simp [placed, delayed, skewShown, pairedWith, he, hn, hlane]
    · have hp : 2 * (n / 2) = n - 1 := by omega
      have hn : n - 1 + 1 = n := by omega
      simp [placed, delayed, skewShown, pairedWith, ho, hp, hn, hlane]
  · rw [if_neg hr, if_neg hr]
    rfl

/-- A pair that cannot be deskewed, or is, is left alone. -/
theorem pairPlace_none (h : s.deskewable k = false ∨ s.get Reg.PAIR_STAT.DESKEWED [k] = 1) (m : Option Bool) : s.pairPlace k m = s :=
  if_pos (h.imp (by simp) (by simp [on]))

/-- What placing lane `n` can do to its pair. -/
theorem pairPlace_cases {m : Option Bool} (hm : s.deskewable (n / 2) = true → m = some (decide (n % 2 = 1))) :
    s.pairPlace (n / 2) m = s ∨ s.pairPlace (n / 2) m = s.placed n ∨ s.pairPlace (n / 2) m = s.unplaced n := by
  have hbit : s.get Reg.PAIR_STAT.DESKEWED [n / 2] < 2 := s.get_lt Reg.PAIR_STAT.DESKEWED [n / 2]
  by_cases hfree : s.deskewable (n / 2) = false ∨ s.get Reg.PAIR_STAT.DESKEWED [n / 2] = 1
  · exact .inl (pairPlace_none hfree m)
  · obtain ⟨hd, hs⟩ := not_or.1 hfree
    rw [Bool.not_eq_false] at hd
    rw [hm hd, pairPlace_one hd (by omega)]
    exact .inr (ite_kept (P := fun t => t = s.placed n ∨ t = s.unplaced n) (.inl rfl) (.inr rfl))

theorem delayed_live (s : State) (n d : Nat) : (s.delayed n d).live = s.live :=
  whenB_kept (P := fun t => t.live = s.live) rfl fun _ h => h

/-- A placed lane has its delay and the lock it had; the other lanes are left alone. -/
theorem delayed_hlane (hn : n < s.hlanes.length) (d : Nat) :
    ((s.delayed n d).hlane n).delay = d ∧ ((s.delayed n d).hlane n).sameLock (s.hlane n) ∧
      ∀ j, j ≠ n → (s.delayed n d).hlane j = s.hlane j := by
  unfold delayed whenB
  split
  · rw [hlane_setHlane_same hn]
    exact ⟨rfl, HLane.refill_sameLock _ _, fun j hj => hlane_setHlane_other hj _⟩
  · rename_i hd
    exact ⟨(by simpa using hd : d = _).symm, HLane.sameLock_refl _, fun _ _ => rfl⟩

/-- Placing lane `n` leaves its lock, and the other lanes. -/
theorem pairPlace_hlane (hn : n < s.hlanes.length) {m : Option Bool}
    (hm : s.deskewable (n / 2) = true → m = some (decide (n % 2 = 1))) :
    ((s.pairPlace (n / 2) m).hlane n).sameLock (s.hlane n) ∧ ∀ j, j ≠ n → (s.pairPlace (n / 2) m).hlane j = s.hlane j := by
  rcases pairPlace_cases hm with h | h | h <;> rw [h]
  · exact ⟨HLane.sameLock_refl _, fun _ _ => rfl⟩
  · exact (delayed_hlane (s := s.skewShown (n / 2)) hn _).2
  · exact ⟨HLane.sameLock_refl _, fun _ _ => rfl⟩

/-- It leaves what the pair's registers read but for SKEW, DESKEWED and DESKEW_FAIL. -/
theorem pairPlace_reads {g : FRef} (h : Reads g [n / 2] c s)
    (hg : Reg.PAIR_STAT.SKEW.beside g ∧ Reg.PAIR_STAT.DESKEWED.beside g ∧ Reg.PAIR_EVT.DESKEW_FAIL.beside g) (hr : lineReg (g.addr [n / 2]))
    {m : Option Bool} (hm : s.deskewable (n / 2) = true → m = some (decide (n % 2 = 1))) : Reads g [n / 2] c (s.pairPlace (n / 2) m) := by
  obtain ⟨hskew, hdesk, hfail⟩ := hg
  have hshown : Reads g [n / 2] c (s.skewShown (n / 2)) := h.besides _ hskew
  rcases pairPlace_cases hm with h' | h' | h' <;> rw [h']
  · exact h
  · exact (hshown.same (delayed_live _ _ _)).besides 1 hdesk
  · exact hostEv_besides hshown hfail hr

theorem skewShown_reads (h : RegFile.wf s.live) (k : Nat) :
    Reads Reg.PAIR_STAT.SKEW [k] (enc 10 (satS 10 (pairSkew (s.hlane (2 * k)) (s.hlane (2 * k + 1))))) (s.skewShown k) :=
  ⟨put_wf h _ _ _, get_putI_same h _ (by decide) (by decide)⟩

/-- The registers of a pair whose lane has been placed. -/
theorem placed_reads (h : RegFile.wf s.live) (n : Nat) :
    Reads Reg.PAIR_STAT.SKEW [n / 2] (enc 10 (satS 10 (pairSkew (s.hlane (2 * (n / 2))) (s.hlane (2 * (n / 2) + 1))))) (s.placed n) ∧
      Reads Reg.PAIR_STAT.DESKEWED [n / 2] 1 (s.placed n) := by
  have hskew := (skewShown_reads h (n / 2)).same (delayed_live _ n (s.besideDelay n).toNat)
  exact ⟨hskew.besides 1 (by decide), Reads.written hskew.1 (by decide) (by decide) (by decide)⟩

/-- Those of a pair that the FIFO does not reach. -/
theorem unplaced_reads (h : Reads Reg.PAIR_STAT.DESKEWED [n / 2] 0 s) (hn : n < 16) :
    Reads Reg.PAIR_STAT.SKEW [n / 2] (enc 10 (satS 10 (pairSkew (s.hlane (2 * (n / 2))) (s.hlane (2 * (n / 2) + 1))))) (s.unplaced n) ∧
      Reads Reg.PAIR_STAT.DESKEWED [n / 2] 0 (s.unplaced n) ∧ Reads Reg.PAIR_EVT.DESKEW_FAIL [n / 2] 1 (s.unplaced n) := by
  have hk : n / 2 < 16 := by omega
  have hskew := skewShown_reads h.1 (n / 2)
  have hdesk : Reads Reg.PAIR_STAT.DESKEWED [n / 2] 0 (s.skewShown (n / 2)) := h.besides _ (by decide)
  exact ⟨hostEv_besides hskew (by decide) (lineReg_pair (by decide) hk), hostEv_besides hdesk (by decide) (lineReg_pair (by decide) hk),
    hostEv_sets hskew.1 (by decide) (by decide) (lineReg_pair (by decide) hk)⟩

/-! ## A lane enters LOCKED (R168) -/

/-- Lane `n` is LOCKED on the markers it has found, with PCS_MISMATCH where the monitors expect another type; its line lane's unlocked payload
ends where all of that lane's host lanes then hold lock (R26). -/
def markersTaken (s : State) (n : Nat) : State :=
  let v := s.setHlane n HLane.lock
  let v := v.whenB (v.pcsMismatch n) (·.hostEv Reg.PAIR_EVT.PCS_MISMATCH (n / 2))
  match v.egLane n with
  | some k => v.unlockedEnd k
  | none => v

/-- That lane's lock shows in PAIR_STAT of its pair. -/
def lockTaken (s : State) (n : Nat) : State := (s.markersTaken n).pairRefresh (n / 2)

/-- Which lane may be placed: the one that has just locked, where the other carries traffic. -/
def lockMoves (s : State) (n : Nat) : Option Bool := if (s.hlane (pairedWith n)).locked then some (decide (n % 2 = 1)) else none

theorem amGained_eq {x : Nat × Nat} (hl : (s.hlane n).locked = false) (hf : (s.hlane n).found = some x) (hp : s.hspOn (s.rxPhys n) = true)
    (hd : s.domOn (17 + s.hostHome n) = true) : s.amGained n = ((s.lockTaken n).pairPlace (n / 2) (s.lockMoves n)).ltxChoose := by
  have hother : n + 1 - 2 * (n % 2) = pairedWith n := by
    unfold pairedWith
    split <;> omega
  unfold amGained
  rw [if_neg (by simp [hl, hf, hp, hd])]
  dsimp only
  rw [hother]
  rfl

/-- What a lane that has locked has, it still has when the mismatch is reported and the unlocked payload has ended. -/
theorem markersTaken_kept {P : State → Prop} (h : P (s.setHlane n HLane.lock))
    (hev : ∀ t, P t → P (t.hostEv Reg.PAIR_EVT.PCS_MISMATCH (n / 2))) (hlane : ∀ t k f, P t → P (t.setLane k f)) : P (s.markersTaken n) := by
  have hv : P ((s.setHlane n HLane.lock).whenB ((s.setHlane n HLane.lock).pcsMismatch n) (·.hostEv Reg.PAIR_EVT.PCS_MISMATCH (n / 2))) :=
    whenB_kept h hev
  unfold markersTaken
  dsimp only
  split
  · exact whenB_kept hv fun t ht => hlane t _ _ ht
  · exact hv

theorem markersTaken_hlanes (s : State) (n : Nat) : (s.markersTaken n).hlanes = (s.setHlane n HLane.lock).hlanes :=
  markersTaken_kept (P := fun t => t.hlanes = (s.setHlane n HLane.lock).hlanes) rfl (fun _ h => h) fun _ _ _ h => h

theorem lockTaken_hlane (s : State) (n j : Nat) : (s.lockTaken n).hlane j = (s.setHlane n HLane.lock).hlane j :=
  congrArg (·.getD j (HLane.start j)) ((pairRefresh_hlanes _ _).trans (markersTaken_hlanes s n))

theorem lockTaken_count (s : State) (n : Nat) : (s.lockTaken n).hlanes.length = s.hlanes.length := by
  rw [lockTaken, pairRefresh_hlanes, markersTaken_hlanes, setHlane_hlanes, upd_length]

theorem markersTaken_reads {g : FRef} {j : List Nat} (h : Reads g j c s) (hg : g.addr j ≠ 0x1A0020 + n / 2) (hr : lineReg (g.addr j)) :
    Reads g j c (s.markersTaken n) :=
  markersTaken_kept (h.same rfl) (fun _ ht => hostEv_apart ht (by decide) hg hr) fun _ _ _ ht => ht.same rfl

theorem markersTaken_deskewable (h : RegFile.wf s.live) (n k : Nat) :
    (s.markersTaken n).deskewable k = (s.setHlane n HLane.lock).deskewable k := by
  have hpcs : Reads Reg.OUTER_CFG.PCS [] (s.get Reg.OUTER_CFG.PCS) (s.markersTaken n) :=
    markersTaken_reads (.now h _ _) (outerCfg_addr_ne (by decide) _) (.inr (by decide))
  have huse : (s.markersTaken n).inUse = s.inUse := markersTaken_kept (P := fun t => t.inUse = s.inUse) rfl (fun _ h => h) fun _ _ _ h => h
  exact deskewable_congr (s := s.setHlane n HLane.lock) (markersTaken_hlanes s n) huse hpcs k

theorem markersTaken_wf (h : RegFile.wf s.live) (n : Nat) : RegFile.wf (s.markersTaken n).live :=
  markersTaken_kept (P := fun t => RegFile.wf t.live) h (fun _ ht => put_wf (put_wf ht _ _ _) _ _ _) fun _ _ _ ht => ht

theorem lockTaken_deskewable (h : RegFile.wf s.live) (n k : Nat) :
    (s.lockTaken n).deskewable k = (s.setHlane n HLane.lock).deskewable k :=
  (pairRefresh_deskewable (markersTaken_wf h n) _ k).trans (markersTaken_deskewable h n k)

/-- The other lane carries traffic where the pair can then be deskewed. -/
theorem lockMoves_deskewable (hd : (s.setHlane n HLane.lock).deskewable (n / 2) = true) : s.lockMoves n = some (decide (n % 2 = 1)) := by
  have hlocked := deskewable_locked hd (pairedWith_half n)
  rw [hlane_setHlane_other (pairedWith_ne n)] at hlocked
  exact if_pos hlocked

theorem besideDelay_congr {t : State} (h : ∀ j, t.hlane j = s.hlane j) (n : Nat) : t.besideDelay n = s.besideDelay n := by
  rw [besideDelay, besideDelay, h, h, h]

/-- The delay beside the other lane, which an update of lane `n` leaves where it was. -/
theorem besideDelay_setHlane (s : State) (n : Nat) (f : HLane → HLane) :
    let v := s.setHlane n f
    let skew := pairSkew (v.hlane (2 * (n / 2))) (v.hlane (2 * (n / 2) + 1))
    v.besideDelay n = if n % 2 = 0 then (s.hlane (pairedWith n)).delay + skew else (s.hlane (pairedWith n)).delay - skew := by
  dsimp only
  rw [besideDelay, hlane_setHlane_other (pairedWith_ne n)]

/-- Entering LOCKED sets PCS_MISMATCH where the monitors expect another type. -/
theorem markersTaken_mismatch (h : RegFile.wf s.live) (hn : n < 16) (hlen : n < s.hlanes.length) {typ b : Nat}
    (hf : (s.hlane n).found = some (typ, b)) (hc : s.pcsCode n ≠ 0) (ht : s.pcsCode n ≠ typ) :
    Reads Reg.PAIR_EVT.PCS_MISMATCH [n / 2] 1 (s.markersTaken n) := by
  obtain ⟨hlocked, htyp, -, -⟩ := HLane.lock_found hf
  have hmis : (s.setHlane n HLane.lock).pcsMismatch n = true := by
    have hcode : (s.setHlane n HLane.lock).pcsCode n = s.pcsCode n := rfl
    simp [pcsMismatch, hlane_setHlane_same hlen, hcode, hlocked, htyp, hc, ht]
  have hset : Reads Reg.PAIR_EVT.PCS_MISMATCH [n / 2] 1 ((s.setHlane n HLane.lock).hostEv Reg.PAIR_EVT.PCS_MISMATCH (n / 2)) :=
    hostEv_sets h (by decide) (by decide) (lineReg_pair (by decide) (by omega))
  unfold markersTaken
  dsimp only
  rw [hmis, whenB_true]
  split
  · exact whenB_kept hset fun _ ht => ht.same rfl
  · exact hset

/-! ## A lane leaves LOCKED (R168) -/

/-- Lane `n` has left LOCKED, with the loss counted and reported. -/
def lockLost (s : State) (n : Nat) : State :=
  ((((s.setHlane n HLane.unlock).inc Reg.AM_LOL_CNT.COUNT [n]).pmc (0x60 + n)).hostEv Reg.PAIR_EVT.AM_LOST (n / 2)).capEv 54

theorem amLeave_counted (hl : (s.hlane n).locked = true) : s.amLeave n true = ((s.lockLost n).pairRefresh (n / 2)).ltxChoose := by
  unfold amLeave
  rw [if_neg (by simp [hl])]
  rfl

theorem pmc_hlanes (s : State) (code m r : Nat) : (s.pmc code m r).hlanes = s.hlanes := by rw [pmc_eq]

theorem capEv_hlanes (s : State) (b : Nat) : (s.capEv b).hlanes = s.hlanes := ite_kept (P := fun t => t.hlanes = s.hlanes) rfl rfl

theorem hostEv_hlanes (s : State) (f : FRef) (i : Nat) : (s.hostEv f i).hlanes = s.hlanes := rfl

theorem lockLost_hlanes (s : State) (n : Nat) : (s.lockLost n).hlanes = (s.setHlane n HLane.unlock).hlanes := by
  rw [lockLost, capEv_hlanes, hostEv_hlanes, pmc_hlanes, inc_hlanes]

theorem lockLost_hlane (s : State) (n j : Nat) : (s.lockLost n).hlane j = (s.setHlane n HLane.unlock).hlane j :=
  congrArg (·.getD j (HLane.start j)) (lockLost_hlanes s n)

theorem lockLost_reads (h : RegFile.wf s.live) (hn : n < 16) :
    Reads Reg.AM_LOL_CNT.COUNT [n] (min (s.get Reg.AM_LOL_CNT.COUNT [n] + 1) (2 ^ 48 - 1)) (s.lockLost n) ∧
      Reads Reg.PAIR_EVT.AM_LOST [n / 2] 1 (s.lockLost n) := by
  have hcnt : lineReg (Reg.AM_LOL_CNT.COUNT.addr [n]) := lineReg_pair (by decide) hn
  have hevt : lineReg (Reg.PAIR_EVT.AM_LOST.addr [n / 2]) := lineReg_pair (by decide) (by omega)
  have hone : Reads Reg.AM_LOL_CNT.COUNT [n] (min (s.get Reg.AM_LOL_CNT.COUNT [n] + 1) (2 ^ 48 - 1))
      ((s.setHlane n HLane.unlock).inc Reg.AM_LOL_CNT.COUNT [n]) := ⟨inc_wf h _ _ _, get_inc_same h 1 (by decide) (by decide)⟩
  have hcounted := hone.line ((LineKept.refl hone.1).pmc (0x60 + n) 1 1) hcnt
  have hreported := hostEv_apart (f := Reg.PAIR_EVT.AM_LOST) (b := 0x1A0020) (k := n / 2) hcounted (by decide)
    (addr_unit_ne 0x1A0030 ⟨rfl, rfl⟩ (by omega)) hcnt
  have hlost := hostEv_sets (k := n / 2) hcounted.1 (f := Reg.PAIR_EVT.AM_LOST) (by decide) (by decide) hevt
  exact ⟨hreported.line ((LineKept.refl hreported.1).capEv 54) hcnt, hlost.line ((LineKept.refl hlost.1).capEv 54) hevt⟩

theorem unlocked_deskewable (h : (s.hlane n).locked = false) : s.deskewable (n / 2) = false := by
  refine Bool.eq_false_iff.2 fun hd => ?_
  rw [deskewable_locked hd rfl] at h
  cases h

/-! ## The commands -/

theorem on_of {f : FRef} {i : List Nat} (h : s.get f i = 1) : s.on f i = true := decide_eq_true h

theorem exec_hostSignalDetectChange {n : Fin 16} {amp : BitVec 12} (hr : s.released = true) :
    exec (.hostSignalDetectChange n amp) s = .next (s.hostSignal n amp.toNat) := congrArg Host.Outcome.next (act_of hr rfl _)

theorem exec_hostCdrLockChange {n : Fin 16} {lock : Bool} (hr : s.released = true) :
    exec (.hostCdrLockChange n lock) s = .next (s.hostCdr n lock).ltxChoose := congrArg Host.Outcome.next (act_of hr rfl _)

section Powered
variable (hon : s.hspOn n = true)
include hon

theorem hostSignal_rises {amp : Nat} (ha : 60 < amp) : s.hostSignal n amp = s.put Reg.HS_RX_STAT.SIG_DET 1 [n] := by
  rw [hostSignal, if_neg (not_not_intro hon), if_pos ha]

theorem hostSignal_falls {amp : Nat} (ha : amp < 40) (hd : s.get Reg.HS_RX_STAT.SIG_DET [n] = 1) :
    s.hostSignal n amp = (s.put Reg.HS_RX_STAT.SIG_DET 0 [n]).hostEv Reg.HS_EVT.SIG_LOST n := by
  rw [hostSignal, if_neg (not_not_intro hon), if_neg (by omega), if_pos ⟨ha, on_of hd⟩]

theorem hostSignal_between {amp : Nat} (hlo : 40 ≤ amp) (hhi : amp ≤ 60) : s.hostSignal n amp = s := by
  rw [hostSignal, if_neg (not_not_intro hon), if_neg (by omega), if_neg fun h => by omega]

theorem hostCdr_gained (hd : s.get Reg.HS_RX_STAT.SIG_DET [n] = 1) : s.hostCdr n true = s.put Reg.HS_RX_STAT.CDR_LOCK 1 [n] := by
  rw [hostCdr, if_neg (not_not_intro hon), if_pos rfl, if_pos (on_of hd)]

theorem hostCdr_lost (hl : s.get Reg.HS_RX_STAT.CDR_LOCK [n] = 1) : s.hostCdr n false =
    (((s.put Reg.HS_RX_STAT.CDR_LOCK 0 [n]).inc Reg.HS_CDR_LOL_CNT.COUNT [n]).hostEv Reg.HS_EVT.CDR_LOST n).capEv 55 := by
  rw [hostCdr, if_neg (not_not_intro hon), if_neg Bool.false_ne_true, if_pos (on_of hl)]

end Powered

theorem exec_amLockGained {n : Fin 16} {m : Span} (hr : s.released = true) :
    exec (.amLockGained n m) s = .next ((s.flow m).amGained n) := congrArg Host.Outcome.next (act_of hr rfl _)

theorem exec_amLockLost {n : Fin 16} {m : Span} (hr : s.released = true) (hm : (s.flow m).amMissed n = true) :
    exec (.amLockLost n m) s = .next ((s.flow m).amLeave n true) :=
  congrArg Host.Outcome.next ((act_of hr rfl _).trans (if_pos hm))

end State
end Sys2Proof.Machine
end

section
/-! SUPPORT. The claim about host lanes: what a gain and a loss of alignment-marker lock leave (R168, R171, R172, R177). -/
namespace Sys2Proof.Machine
open State

namespace State
variable {s : State} {n : Nat}

/-- A lane that locks in a pair that can then be deskewed shows SKEW, and is placed beside the other where the FIFO reaches. -/
theorem lockTaken_placed (h : RegFile.wf s.live) (hn : n < 16) (hlen : n < s.hlanes.length)
    (hd : (s.setHlane n HLane.lock).deskewable (n / 2) = true) (hs : s.get Reg.PAIR_STAT.DESKEWED [n / 2] = 0) :
    let v := s.setHlane n HLane.lock
    let t := (s.lockTaken n).pairPlace (n / 2) (s.lockMoves n)
    Reads Reg.PAIR_STAT.SKEW [n / 2] (enc 10 (satS 10 (pairSkew (v.hlane (2 * (n / 2))) (v.hlane (2 * (n / 2) + 1))))) t ∧
      (0 ≤ v.besideDelay n → v.besideDelay n ≤ 256 →
        Reads Reg.PAIR_STAT.DESKEWED [n / 2] 1 t ∧ (t.hlane n).delay = v.besideDelay n) ∧
      (v.besideDelay n < 0 ∨ 256 < v.besideDelay n →
        Reads Reg.PAIR_STAT.DESKEWED [n / 2] 0 t ∧ Reads Reg.PAIR_EVT.DESKEW_FAIL [n / 2] 1 t) := by
  dsimp only
  have hmarked : Reads Reg.PAIR_STAT.DESKEWED [n / 2] 0 (s.markersTaken n) :=
    markersTaken_reads ⟨h, hs⟩ (addr_unit_ne 0x1A0010 ⟨rfl, rfl⟩ (by omega)) (lineReg_pair (by decide) (by omega))
  have hdm : (s.markersTaken n).deskewable (n / 2) = true := (markersTaken_deskewable h n _).trans hd
  have hdt : (s.lockTaken n).deskewable (n / 2) = true := (lockTaken_deskewable h n _).trans hd
  have hzero : Reads Reg.PAIR_STAT.DESKEWED [n / 2] 0 (s.lockTaken n) := pairRefresh_deskewed hmarked hdm
  have hlen' : n < (s.lockTaken n).hlanes.length := (lockTaken_count s n).symm ▸ hlen
  rw [lockMoves_deskewable hd, pairPlace_one hdt hzero.2, ← besideDelay_congr (lockTaken_hlane s n), ← lockTaken_hlane, ← lockTaken_hlane]
  generalize s.lockTaken n = w at *
  by_cases hr : 0 ≤ w.besideDelay n ∧ w.besideDelay n ≤ 256
  · rw [if_pos hr]
    obtain ⟨hskew, hdesk⟩ := placed_reads hzero.1 n
    obtain ⟨hdelay, -⟩ := delayed_hlane (s := w.skewShown (n / 2)) hlen' (w.besideDelay n).toNat
    exact ⟨hskew, fun _ _ => ⟨hdesk, (congrArg Int.ofNat hdelay).trans (Int.toNat_of_nonneg hr.1)⟩, fun _ => by omega⟩
  · rw [if_neg hr]
    obtain ⟨hskew, hfailed⟩ := unplaced_reads hzero hn
    exact ⟨hskew, fun _ _ => absurd ⟨‹_›, ‹_›⟩ hr, fun _ => hfailed⟩

/-- A pair that cannot be deskewed when a lane locks shows no skew. -/
theorem lockTaken_undeskewed (h : RegFile.wf s.live) (hd : (s.setHlane n HLane.lock).deskewable (n / 2) = false) :
    let t := (s.lockTaken n).pairPlace (n / 2) (s.lockMoves n)
    Reads Reg.PAIR_STAT.SKEW [n / 2] 0 t ∧ Reads Reg.PAIR_STAT.DESKEWED [n / 2] 0 t := by
  have hdm : (s.markersTaken n).deskewable (n / 2) = false := (markersTaken_deskewable h n _).trans hd
  obtain ⟨hdesk, hskew⟩ := pairRefresh_undeskewed (markersTaken_wf h n) hdm
  dsimp only
  rw [pairPlace_none (.inl ((lockTaken_deskewable h n _).trans hd))]
  exact ⟨hskew, hdesk⟩

/-- The lane that has locked, the others, and what the pair shows of its lock. -/
theorem lockTaken_lane (h : RegFile.wf s.live) (hn : n < 16) (hlen : n < s.hlanes.length) {typ b : Nat}
    (hf : (s.hlane n).found = some (typ, b)) :
    let t := (s.lockTaken n).pairPlace (n / 2) (s.lockMoves n)
    (t.hlane n).sameLock (s.hlane n).lock ∧ (∀ j, j ≠ n → t.hlane j = s.hlane j) ∧ Reads (lockShown n) [n / 2] 1 t ∧
      (s.pcsCode n ≠ 0 → s.pcsCode n ≠ typ → Reads Reg.PAIR_EVT.PCS_MISMATCH [n / 2] 1 t) := by
  have hmoves : (s.lockTaken n).deskewable (n / 2) = true → s.lockMoves n = some (decide (n % 2 = 1)) := fun hd =>
    lockMoves_deskewable ((lockTaken_deskewable h n _).symm.trans hd)
  have hlen' : n < (s.lockTaken n).hlanes.length := (lockTaken_count s n).symm ▸ hlen
  have hown (j : Nat) : (s.markersTaken n).hlane j = (s.setHlane n HLane.lock).hlane j :=
    congrArg (·.getD j (HLane.start j)) (markersTaken_hlanes s n)
  have hlocked : ((s.markersTaken n).hlane n).locked = true := by
    rw [hown, hlane_setHlane_same hlen]
    exact (HLane.lock_found hf).1
  have hshown : Reads (lockShown n) [n / 2] 1 (s.lockTaken n) := by
    have hlock := pairRefresh_lock (markersTaken_wf h n) n
    rwa [hlocked] at hlock
  obtain ⟨hsame, hothers⟩ := pairPlace_hlane hlen' hmoves
  rw [lockTaken_hlane, hlane_setHlane_same hlen] at hsame
  refine ⟨hsame, fun j hj => ?_, pairPlace_reads hshown ?_ ?_ hmoves, fun hc ht => ?_⟩
  · rw [hothers j hj, lockTaken_hlane, hlane_setHlane_other hj]
  · unfold lockShown
    split <;> decide
  · unfold lockShown
    split <;> exact lineReg_pair (by decide) (by omega)
  · have hmis := markersTaken_mismatch h hn hlen hf hc ht
    have hshowing := pairRefresh_reads (k := n / 2) hmis (addr_unit_ne 0x1A0020 ⟨rfl, rfl⟩ (by omega))
    exact pairPlace_reads hshowing (by decide) (lineReg_pair (by decide) (by omega)) hmoves

/-- What a counted loss of lock leaves. -/
theorem lockLost_lane (h : RegFile.wf s.live) (hn : n < 16) (hlen : n < s.hlanes.length) :
    let t := (s.lockLost n).pairRefresh (n / 2)
    t.hlane n = (s.hlane n).unlock ∧ (∀ j, j ≠ n → t.hlane j = s.hlane j) ∧ Reads (lockShown n) [n / 2] 0 t ∧
      Reads Reg.PAIR_EVT.AM_LOST [n / 2] 1 t ∧ Reads Reg.PAIR_STAT.DESKEWED [n / 2] 0 t ∧
      Reads Reg.AM_LOL_CNT.COUNT [n] (min (s.get Reg.AM_LOL_CNT.COUNT [n] + 1) (2 ^ 48 - 1)) t := by
  obtain ⟨hcnt, hevt⟩ := lockLost_reads h hn
  have hlane (j : Nat) : ((s.lockLost n).pairRefresh (n / 2)).hlane j = (s.lockLost n).hlane j :=
    congrArg (·.getD j (HLane.start j)) (pairRefresh_hlanes _ _)
  have hown : (s.lockLost n).hlane n = (s.hlane n).unlock := (lockLost_hlane s n n).trans (hlane_setHlane_same hlen _)
  have hoff : ((s.lockLost n).hlane n).locked = false := congrArg HLane.locked hown
  have hshown := pairRefresh_lock hcnt.1 n
  rw [hoff] at hshown
  refine ⟨(hlane n).trans hown, fun j hj => ?_, hshown, pairRefresh_reads hevt (addr_unit_ne 0x1A0020 ⟨rfl, rfl⟩ (by omega)),
    (pairRefresh_undeskewed hcnt.1 (unlocked_deskewable hoff)).1, pairRefresh_reads hcnt (addr_unit_ne 0x1A0030 ⟨rfl, rfl⟩ (by omega))⟩
  rw [hlane, lockLost_hlane, hlane_setHlane_other hj]

end State

/-- Settles O23: each change of a physical lane by its branch; a logical lane that locks or leaves lock by what the pair's registers read after
each write in turn, where placing one lane leaves the other and the lock of both. -/
theorem hostLanes : Obligations.HostLanes := by
  intro s n hs hr
  have hn : n.val < 16 := n.isLt
  dsimp only
  refine ⟨fun hon => ⟨fun amp => ⟨fun hup => ?_, fun hlow hsig => ?_, fun hlo hhi => ?_⟩, fun hsig => ?_, fun hlock => ?_⟩,
    fun m typ b hu hl hf _ _ hp hd => ?_, fun m hu hl hmiss => ?_⟩
  · rw [exec_hostSignalDetectChange hr, hostSignal_rises hon hup]
  · rw [exec_hostSignalDetectChange hr, hostSignal_falls hon hlow hsig]
  · rw [exec_hostSignalDetectChange hr, hostSignal_between hon hlo hhi]
  · rw [exec_hostCdrLockChange hr, hostCdr_gained hon hsig]
  · rw [exec_hostCdrLockChange hr, hostCdr_lost hon hlock]
  · rw [exec_amLockGained hr, amGained_eq hl hf hp hd]
    generalize s.flow m = u at *
    have hlen : n.val < u.hlanes.length := (wf_hlanes hu).symm ▸ hn
    obtain ⟨hsame, hothers, hshown, hmis⟩ := lockTaken_lane hu.1 hn hlen hf
    obtain ⟨hlocked, htyp, hanchor, hjoined⟩ := HLane.lock_found hf
    obtain ⟨hl', ht', ha', hj'⟩ := hsame
    refine ⟨_, rfl, ?_, ?_, ?_, ?_, fun j hj => ?_, hshown.ltxChoose.2, fun hc ht => (hmis hc ht).ltxChoose.2, fun hdesk hzero => ?_,
      fun hdesk => ?_⟩
    · rw [ltxChoose_hlane, hl', hlocked]
    · rw [ltxChoose_hlane, ht', htyp]
    · rw [ltxChoose_hlane, ha', hanchor]
    · rw [ltxChoose_hlane, hj', hjoined]
    · rw [ltxChoose_hlane, hothers j hj]
    · obtain ⟨hskew, hreach, hfail⟩ := lockTaken_placed hu.1 hn hlen hdesk hzero
      rw [besideDelay_setHlane] at hreach hfail
      refine ⟨?_, fun hlo hhi => ?_, fun hout => ?_⟩
      · rw [getS, hskew.ltxChoose.2]
        exact sx_enc_satS _
      · obtain ⟨hone, hdelay⟩ := hreach hlo hhi
        rw [ltxChoose_hlane]
        exact ⟨hone.ltxChoose.2, hdelay⟩
      · obtain ⟨hnot, hevt⟩ := hfail hout
        exact ⟨hnot.ltxChoose.2, hevt.ltxChoose.2⟩
    · obtain ⟨hskew, hnot⟩ := lockTaken_undeskewed hu.1 hdesk
      exact ⟨hskew.ltxChoose.2, hnot.ltxChoose.2⟩
  · have hmissed : (s.flow m).amMissed n = true := by simp [amMissed, hl, hmiss]
    rw [exec_amLockLost hr hmissed, amLeave_counted hl]
    generalize s.flow m = u at *
    obtain ⟨hown, hothers, hshown, hevt, hnot, hcnt⟩ := lockLost_lane hu.1 hn ((wf_hlanes hu).symm ▸ hn)
    exact ⟨_, rfl, (ltxChoose_hlane _ _).trans hown, fun j hj => (ltxChoose_hlane _ _).trans (hothers j hj), hshown.ltxChoose.2,
      hevt.ltxChoose.2, hnot.ltxChoose.2, hcnt.ltxChoose.2⟩

end Sys2Proof.Machine
end
